-- ==== Sys2Proof/Word.lean ====
section
/-! DEFINITION. The words of the Worrok module: bytes, register words, descriptors, board addresses, strokes. -/

namespace Sys2Proof

abbrev Byte := BitVec 8
abbrev Word := BitVec 32
abbrev DWord := BitVec 64

/-- A 64-byte command descriptor as one little-endian number: byte k stands at bits 8k+7 to 8k (R46, R87). -/
abbrev Desc := BitVec 512

/-- A 52-bit board physical address (R16). -/
abbrev BoardAddr := BitVec 52

/-- A 23-bit endpoint identifier (R22). -/
abbrev Endpoint := BitVec 23

/-- A 40-bit stroke number (R8, R44). -/
abbrev Stroke := BitVec 40

abbrev DieIx := Fin 8
abbrev CoreIx := Fin 48
abbrev CtxIx := Fin 32
abbrev PortIx := Fin 7

/-- A link of a die: those of ports 0 to 6, and 7 is the second link of port 0 (R328). -/
abbrev LinkIx := Fin 8

end Sys2Proof
end

