-- ==== Sys2Proof/Syntax.lean ====
section
/-! DEFINITION. The commands of the block: one constructor of `Instr` for each row of spec/opcode_table.json, with the
operands that the row's event brings: who sends it, where it lands, the bytes it carries, and what the outside world
measures or chooses. -/

namespace Sys2Proof

/-- Who issues an access: Pelbex firmware, the die's health controller, or an endpoint (R22, R455). -/
inductive Issuer where
  | pelbex
  | health
  | ep (e : Endpoint)
deriving DecidableEq, Repr

/-- The command queues of a die: one per core (R85), the billet stack, update, row, Crucible, reduction and token
exchange queues (R171, R221, R359) and the health queue (R445). -/
inductive QId where
  | core (c : CoreIx)
  | bil
  | upd
  | row (q : Fin 4)
  | cru
  | col
  | txe
  | hlt
deriving DecidableEq, Repr

/-- What the die chooses at a stroke boundary: the cores and uncore engines that the health controller lends to assay for the stroke,
and how many assay units were still running (R442). -/
structure BoundaryIn where
  lend : BitVec 48
  lendUncore : BitVec 16
  abandoned : Nat
deriving DecidableEq, Repr

/-- The integer operations of the control processor by name (R77 allocates no opcode or function value to each). -/
inductive IntOp where
  | add | sub | and | or | xor | sll | srl | sra | slt | sltu | seq | mul | mulh | mulhu | div | divu | rem | remu
deriving DecidableEq, Repr

/-- The second operand of an integer instruction: a register (REG) or a sign-extended immediate (IMM) (R76). -/
inductive IntSrc where
  | reg (r : Fin 32)
  | imm (i : BitVec 16)
deriving DecidableEq, Repr

/-- The conditions of a conditional branch (R76, R77). -/
inductive BrCond where
  | eq | ne | lt | ge | ltu | geu
deriving DecidableEq, Repr

/-- The scalar FP operations by name (R75, R77). -/
inductive FpOp where
  | add | sub | mul | div | sqrt | fma | fms | fnma | min | max | abs | neg | sgnj | eq | lt | le | unord | cvtToInt
  | cvtFromInt | cvtTo32 | cvtTo64 | moveToG | moveFromG
deriving DecidableEq, Repr

/-- A message (R335): the fields of its 64-byte header, its kind-specific bytes 28 to 63, its data, and the poison mark of
each 64-byte unit of the frame payload (unit 0 is the header; R315). -/
structure Msg where
  stamp : DWord
  src : Endpoint
  dst : Endpoint
  job : BitVec 12
  epoch : BitVec 8
  gen : BitVec 8
  mkind : BitVec 8
  attempt : BitVec 8
  step : Word
  spec : List Byte
  data : List Byte
  poison : DWord
deriving DecidableEq, Repr

/-- A reset domain of a die (R407): an engine of a core (0 array, 1 vector, 2 DMA), a core, a quadrant, the die. -/
inductive Domain where
  | engine (c : CoreIx) (e : Fin 3)
  | core (c : CoreIx)
  | quad (q : Fin 4)
  | die
deriving DecidableEq, Repr

/-- A unit that hangs (R406): an engine, a control processor, a row engine, an uncore engine, the health controller. -/
inductive HungUnit where
  | engine (c : CoreIx) (e : Fin 3)
  | processor (c : CoreIx)
  | rowEngine (q : Fin 4)
  | uncoreEngine (q : QId)
deriving DecidableEq, Repr


/-- A fault of the array during one instruction (R114, R129): a deviation (−1)^neg · mant · 2^exp that it adds in one pass to
the sum of a column in a row; the row after the last is the hallmark row. -/
structure Upset where
  col : Nat
  row : Nat
  pass : Nat
  neg : Bool
  mant : Nat
  exp : Int
deriving DecidableEq, Repr

/-- A fault while the array forms a residual (R237): an FP64 value that it adds to one row of one column. -/
structure Deviation where
  col : Nat
  row : Nat
  value : DWord
deriving DecidableEq, Repr

/-- What an assay unit tests (R444): a known answer on a core's array in one of five modes, a core's vector unit, DMA engine or
control processor, a checker of a memory instance (scratchpad, bank, side memory, die buffer, HBM stack), a derivative table, a row
engine, an uncore engine, a library entry on a core's array. -/
inductive AssayUnit where
  | array (c : CoreIx) (mode : Fin 5)
  | vector (c : CoreIx)
  | dma (c : CoreIx)
  | processor (c : CoreIx)
  | scratchpad (c : CoreIx)
  | bank (c : CoreIx)
  | side (q : Fin 4)
  | buffer
  | hbm (k : Fin 4)
  | table (n : Fin 32)
  | row (q : Fin 4)
  | uncore (q : QId)
  | library (i : Nat) (c : CoreIx)
deriving DecidableEq, Repr

/-- The operands of a failing known-answer test of an array as a library entry takes them (R440): formats, flags, rows, columns, KLEN,
expected digest, failing word, and the bytes of A, B and mask; the manual does not state the known answers (R442). -/
structure TestData where
  fmts : Nat
  flags : Nat
  rows : Nat
  ncols : Nat
  klen : Nat
  digest : Word
  word : Word
  data : List Byte
deriving DecidableEq, Repr

/-- A test of a TOUCHSTONE in which something goes wrong (R446): its number on its core; for a replay or a library entry, the upsets of
the core's array in it and those of the neighbour's, from which its outcome follows; for another test, which then fails, the class of
R438 that its reruns give, and the operands of a known answer. -/
structure TestFail where
  test : Nat
  cls : Fin 4
  ops : TestData
  own : List Upset
  nb : List Upset
deriving DecidableEq, Repr

/-- How an assay unit and, where it fails, its repeat at once come out (R444): for a library entry the upsets of the array in each, from which
the outcome follows; for any other unit whether it fails; and the operands of a known answer that fails. -/
structure UnitRun where
  ups : List Upset
  again : List Upset
  ops : TestData
deriving DecidableEq, Repr

/-- What becomes of the row of a row log entry in a repair run (R313): 0 it passes its test, 1 repaired, 2 unrepairable. -/
structure Repair where
  die : DieIx
  entry : Fin 16
  outcome : Fin 3
deriving DecidableEq, Repr

/-- What the hardware finds in a boot: whether image A or B could not be read, and for each die which stacks fail training at 9.2 Gb/s
and at 8.0 Gb/s, or the retrain (R282, R284, R458); what the repair run of a warm reset finds for row log entries (R313); and the lanes
that training finds bad, by die, stack and lane group: 0 to 31 a pseudo-channel's data group, 32 to 47 a channel's command/address lanes
(R283). -/
structure BootIn where
  badA : Bool
  badB : Bool
  fail92 : List (BitVec 4)
  fail80 : List (BitVec 4)
  repairs : List Repair
  lanes : List (DieIx × Fin 4 × Fin 48)
deriving DecidableEq, Repr

/-- What a retrain finds (R282, R283): the stacks that fail it, and the lanes found bad, by stack and lane group as in `BootIn`. -/
structure Retrain where
  fail : BitVec 4
  lanes : List (Fin 4 × Fin 48)
deriving DecidableEq, Repr

/-- A retrain that finds nothing wrong. -/
def Retrain.good : Retrain := ⟨0, []⟩

/-- What a completed reset is the reset of (R407): a domain of a die, with what the retrain after a die reset finds, or the module. -/
inductive ResetOf where
  | domain (d : DieIx) (m : Domain) (found : Retrain)
  | module (b : BootIn)
deriving DecidableEq, Repr

/-- What the power and thermal manager measures in 1 ms (R489): input voltage in mV and current in units of 10 mA, input power in W and
the power-stage temperature (`none` when the sensor fails), and the power of each die in units of 4 W. -/
structure Measured where
  vin : BitVec 16
  iin : BitVec 16
  pin : Option (BitVec 16)
  stage : Option (BitVec 8)
  dies : List (BitVec 8)
deriving DecidableEq, Repr

/-- A DATA frame at a receiving port, and whether the port's buffer finds an uncorrectable error in it (R315). -/
structure Received where
  frame : List Byte
  upset : Bool
deriving DecidableEq, Repr

/-- A port that retransmits, and where an uncorrectable error is found in a retained copy: the frame's place and the payload unit
(R315). -/
structure Resend where
  link : LinkIx
  upset : Option (Nat × Fin 64)
deriving DecidableEq, Repr

/-- The commands, in the order of the table. -/
inductive Instr where
  /-- STROKE_BOUNDARY (R29): The die's stroke timer reaches the end of a stroke and begins the next one; every action the manual places at a boundary happens inside this step. -/
  | strokeBoundary (d : DieIx) (b : BoundaryIn)
  /-- LOSS_OF_LOCK (R33): A phase error above 94 cycles at 4 consecutive boundaries makes the die declare loss of lock and log it. -/
  | lossOfLock (d : DieIx)
  /-- RELOCK (R33): An unlocked die relocks by making one stroke longer or shorter by up to half a period, then logs the relock. -/
  | relock (d : DieIx)
  /-- STROKE_FRAME (R35): A stroke frame arrives, is compensated for cable delay, and aligns or checks the receiver's stroke timing. -/
  | strokeFrame (d : DieIx) (p : PortIx) (frame : List Byte)
  /-- STROKE_IN (R30): The board master's stroke pulse arrives on STROKE_IN and is compensated by the board trace delay. -/
  | strokeIn
  /-- BACKUP_TAKEOVER (R35): With no frame from the primary time master for 4 strokes, the backup becomes time master and continues the numbering. -/
  | backupTakeover (d : DieIx)
  /-- FREE_RUN (R35): A die that has received no stroke frame for 4 strokes free-runs on its reference clock. -/
  | freeRun (d : DieIx)
  /-- THROTTLE_NOTICE (R39): A throttle notice naming a target step and an effective stroke reaches the die and is published in STK_STEP_NEXT. -/
  | throttleNotice (d : DieIx) (step : BitVec 2) (eff : Stroke)
  /-- PRESENCE (R42): A presence frame from a peer arrives and renews that peer's liveness. -/
  | presence (d : DieIx) (m : Msg)
  /-- ABSENCE_DECLARED (R42): After 4 complete strokes with no frame from a peer, the member declares the peer absent and sends absence notices. -/
  | absenceDeclared (d : DieIx) (peer : Endpoint)
  /-- ABSENCE_NOTICE (R380): An absence notice for a job arrives, and the job's queued and running collective commands abort at the next boundary. -/
  | absenceNotice (d : DieIx) (m : Msg)
  /-- STROKE_WRAP (R44): The stroke number wraps modulo 2^40, and Pelbex increments STK_WRAP and logs the wrap. -/
  | strokeWrap
  /-- QUEUE_WINDOW_WRITE (R86): A write to a queue window claims or fills the window, and the write of byte 63 pushes the descriptor. -/
  | queueWindowWrite (d : DieIx) (q : QId) (i : Issuer) (off : Fin 64) (data : List Byte)
  /-- PARTIAL_DESCRIPTOR_DISCARD (R86): A claimed window whose byte 63 has not been written within a stroke discards the partial descriptor and logs the claimer. -/
  | partialDescriptorDiscard (d : DieIx) (q : QId)
  /-- COMPLETION_RECORD (R91): A completed command writes its 32-byte completion record to its ring, or waits while the ring is full. -/
  | completionRecord (d : DieIx) (q : QId)
  /-- KERNEL (R90): The control processor starts at the given scratchpad offset with g1 and g2 loaded and runs to END or an exception. -/
  | kernel (d : DieIx) (c : CoreIx)
  /-- INTEGER_INSTRUCTION (R77): An integer REG or IMM instruction (add, subtract, logic, shift, compare, multiply, divide) executes. -/
  | integerInstruction (d : DieIx) (c : CoreIx) (op : IntOp) (rd rs1 : Fin 32) (src : IntSrc)
  /-- SCALAR_LOAD (R78): A scalar load of 1, 2, 4 or 8 bytes reads the core's own scratchpad or accumulator bank. -/
  | scalarLoad (d : DieIx) (c : CoreIx) (size : Fin 4) (fp signed : Bool) (rd rs1 : Fin 32) (off : BitVec 16)
  /-- SCALAR_STORE (R78): A scalar store writes the core's own scratchpad or accumulator bank, by read-modify-write for partial words. -/
  | scalarStore (d : DieIx) (c : CoreIx) (size : Fin 4) (fp : Bool) (rs2 rs1 : Fin 32) (off : BitVec 16)
  /-- CONDITIONAL_BRANCH (R76): A conditional branch compares two registers and moves the program counter by an instruction offset. -/
  | conditionalBranch (d : DieIx) (c : CoreIx) (cond : BrCond) (rs1 rs2 : Fin 32) (off : BitVec 16)
  /-- CALL (R77): A relative call with link executes. -/
  | call (d : DieIx) (c : CoreIx) (rd : Fin 32) (off : BitVec 21)
  /-- CALLR (R77): A call through a register with link executes. -/
  | callr (d : DieIx) (c : CoreIx) (rd rs1 : Fin 32)
  /-- SCALAR_FP (R75): A scalar FP64 or FP32 instruction executes under FPCTL, conforming to IEEE 754-2019. -/
  | scalarFp (d : DieIx) (c : CoreIx) (op : FpOp) (dbl : Bool) (rd rs1 rs2 rs3 : Fin 32)
  /-- CTLRD (R75): CTLRD reads a control register into a g register. -/
  | ctlrd (d : DieIx) (c : CoreIx) (rd : Fin 32) (num : BitVec 11)
  /-- CTLWR (R75): CTLWR writes a control register such as FPCTL. -/
  | ctlwr (d : DieIx) (c : CoreIx) (rs1 : Fin 32) (num : BitVec 11)
  /-- CPUSH (R77): CPUSH pushes a 64-byte descriptor from core-local memory onto the core's own command queue, stalling while it is full. -/
  | cpush (d : DieIx) (c : CoreIx) (rs1 : Fin 32)
  /-- WAITSTROKE (R77): WAITSTROKE waits for the next stroke boundary. -/
  | waitstroke (d : DieIx) (c : CoreIx)
  /-- BRK (R79): BRK raises a breakpoint exception. -/
  | brk (d : DieIx) (c : CoreIx)
  /-- END (R90): END ends the kernel with OK and writes the low 32 bits of rs1 into DETAIL. -/
  | endK (d : DieIx) (c : CoreIx) (rs1 : Fin 32)
  /-- RESUME (R80): Writing CORE_CTL.RESUME releases the core from first-fault stop, and it continues with the next command. -/
  | resume (d : DieIx) (c : CoreIx)
  /-- CORE_CR_BASE (R107): A write of the completion ring base takes effect only while the queue is idle and then zeroes HEAD and TAIL. -/
  | coreCrBase (d : DieIx) (c : CoreIx) (v : DWord)
  /-- CORE_CR_CTL (R107): A write of the completion ring size takes effect only while the queue is idle and then zeroes HEAD and TAIL. -/
  | coreCrCtl (d : DieIx) (c : CoreIx) (v : Word)
  /-- CORE_CR_PTR (R93): A write of TAIL advances the ring consumer index, and a value that would exceed the ring size is ignored and logged. -/
  | coreCrPtr (d : DieIx) (c : CoreIx) (v : Word)
  /-- COPY (R98): The DMA engine moves a rectangular block between board addresses, converting formats row by row. -/
  | copy (d : DieIx) (c : CoreIx)
  /-- FILL (R99): The DMA engine fills a block with a pattern, writing fresh check bits without conversion. -/
  | fill (d : DieIx) (c : CoreIx)
  /-- REPLY_TIMEOUT (R103): A remote request with no reply within CORE_CTL.RTO strokes ends its command with TIMEOUT. -/
  | replyTimeout (d : DieIx) (q : QId)
  /-- SNAP (R538): Writing CORE_IDLE_CTL.SNAP copies the ten idle-cause counters and the time stamp into the snapshot registers. -/
  | snap (d : DieIx) (c : CoreIx)
  /-- RESEED (R64): Writing CORE_SR_CTL.RESEED requests a reseed of the core generator from the seed registers at the next boundary. -/
  | reseed (d : DieIx) (c : CoreIx)
  /-- LOAD (R112): LOAD fills the array's shadow with a stationary B block or a diagonal. -/
  | load (d : DieIx) (c : CoreIx)
  /-- MUL (R115): MUL streams A rows against the stationary, writes chunk sums into the bank or out, and checks the hallmark row. -/
  | mul (d : DieIx) (c : CoreIx) (parity : List (Nat × Nat)) (ups : List Upset)
  /-- DIAG (R129): DIAG multiplies each row element-wise by the stationary diagonal. -/
  | diag (d : DieIx) (c : CoreIx) (parity : List (Nat × Nat)) (ups : List Upset)
  /-- DRAIN_POP (R184): Once earlier operations on the segment end, a derivative-drain instruction checks and pops the top stash entry before slot 0. -/
  | drainPop (d : DieIx) (c : CoreIx)
  /-- TABLE_WAIT_TIMEOUT (R190): A DFN 1 instruction whose table has not become VERIFIED within RTO strokes completes with TIMEOUT. -/
  | tableWaitTimeout (d : DieIx) (c : CoreIx)
  /-- MXWAIT (R136): MXWAIT waits until at most imm16 pushed matrix commands are incomplete and returns the first non-OK status. -/
  | mxwait (d : DieIx) (c : CoreIx) (rd : Fin 32) (imm : BitVec 16)
  /-- MXLAT (R136): MXLAT writes MX_LAT to a g register. -/
  | mxlat (d : DieIx) (c : CoreIx) (rd : Fin 32)
  /-- SETVL (R145): SETVL sets the span from an element count and returns the strip length. -/
  | setvl (d : DieIx) (c : CoreIx) (rd rs1 : Fin 32) (imm : BitVec 11)
  /-- SETVFULL (R145): SETVFULL sets the span to the full register and returns the lane count. -/
  | setvfull (d : DieIx) (c : CoreIx) (rd rs1 : Fin 32) (imm : BitVec 11)
  /-- VSTATRD (R147): VSTATRD reads VSPAN, VSTAT or VBYTES into a g register. -/
  | vstatrd (d : DieIx) (c : CoreIx) (rd rs1 : Fin 32) (imm : BitVec 11)
  /-- VSTATWR (R148): VSTATWR writes VSTAT. -/
  | vstatwr (d : DieIx) (c : CoreIx) (rd rs1 : Fin 32) (imm : BitVec 11)
  /-- VSLICE (R160): VSLICE cuts one FP64 or FP32 chunk into a slice record and reports NaN, infinities and poison. -/
  | vslice (d : DieIx) (c : CoreIx) (rd rs1 : Fin 32) (imm : BitVec 11)
  /-- VFENCE (R159): VFENCE waits until every earlier vector load and store has taken effect. -/
  | vfence (d : DieIx) (c : CoreIx) (rd rs1 : Fin 32) (imm : BitVec 11)
  /-- VLD (R156): VLD loads and converts contiguous elements into a vector register. -/
  | vld (d : DieIx) (c : CoreIx) (vd rs1 rs2 : Fin 32) (w : Fin 4) (pg : Fin 8) (fmt : Fin 16) (rt impose : Bool)
  /-- VST (R156): VST converts the elements of a vector register and stores them contiguously. -/
  | vst (d : DieIx) (c : CoreIx) (vs rs1 rs2 : Fin 32) (w : Fin 4) (pg : Fin 8) (fmt : Fin 16) (rt impose : Bool)
  /-- VLDFF (R158): VLDFF loads like VLD but stops at the first unreadable element and returns the count read. -/
  | vldff (d : DieIx) (c : CoreIx) (vd rs1 rs2 : Fin 32) (w : Fin 4) (pg : Fin 8) (fmt : Fin 16) (rt impose : Bool)
  /-- VFADD (R150): Vector float addition. -/
  | vfadd (d : DieIx) (c : CoreIx) (vd vs1 vs2 : Fin 32) (w : Fin 4) (pg : Fin 8) (scal : Bool)
  /-- VFSUB (R150): Vector float subtraction. -/
  | vfsub (d : DieIx) (c : CoreIx) (vd vs1 vs2 : Fin 32) (w : Fin 4) (pg : Fin 8) (scal : Bool)
  /-- VFMUL (R150): Vector float multiplication. -/
  | vfmul (d : DieIx) (c : CoreIx) (vd vs1 vs2 : Fin 32) (w : Fin 4) (pg : Fin 8) (scal : Bool)
  /-- VFDIV (R151): Correctly rounded vector float division. -/
  | vfdiv (d : DieIx) (c : CoreIx) (vd vs1 vs2 : Fin 32) (w : Fin 4) (pg : Fin 8) (scal : Bool)
  /-- VFSQRT (R151): Correctly rounded vector float square root. -/
  | vfsqrt (d : DieIx) (c : CoreIx) (vd vs1 vs2 : Fin 32) (w : Fin 4) (pg : Fin 8) (scal : Bool)
  /-- VFMIN (R151): Vector minimumNumber. -/
  | vfmin (d : DieIx) (c : CoreIx) (vd vs1 vs2 : Fin 32) (w : Fin 4) (pg : Fin 8) (scal : Bool)
  /-- VFMAX (R151): Vector maximumNumber. -/
  | vfmax (d : DieIx) (c : CoreIx) (vd vs1 vs2 : Fin 32) (w : Fin 4) (pg : Fin 8) (scal : Bool)
  /-- VFFMA (R164): Vector fused multiply-add with one rounding. -/
  | vffma (d : DieIx) (c : CoreIx) (vd vs1 vs2 : Fin 32) (w : Fin 4) (pg : Fin 8) (scal : Bool)
  /-- VFFMS (R164): Vector fused multiply-subtract with one rounding. -/
  | vffms (d : DieIx) (c : CoreIx) (vd vs1 vs2 : Fin 32) (w : Fin 4) (pg : Fin 8) (scal : Bool)
  /-- VFFNMA (R164): Vector negated fused multiply-add with one rounding. -/
  | vffnma (d : DieIx) (c : CoreIx) (vd vs1 vs2 : Fin 32) (w : Fin 4) (pg : Fin 8) (scal : Bool)
  /-- VFABS (R164): Vector float absolute value. -/
  | vfabs (d : DieIx) (c : CoreIx) (vd vs1 vs2 : Fin 32) (w : Fin 4) (pg : Fin 8) (scal : Bool)
  /-- VFNEG (R164): Vector float negation. -/
  | vfneg (d : DieIx) (c : CoreIx) (vd vs1 vs2 : Fin 32) (w : Fin 4) (pg : Fin 8) (scal : Bool)
  /-- VFSGNJ (R164): Vector sign injection. -/
  | vfsgnj (d : DieIx) (c : CoreIx) (vd vs1 vs2 : Fin 32) (w : Fin 4) (pg : Fin 8) (scal : Bool)
  /-- VFEQ (R164): Quiet vector float equality compare into a predicate. -/
  | vfeq (d : DieIx) (c : CoreIx) (vd vs1 vs2 : Fin 32) (w : Fin 4) (pg : Fin 8) (scal : Bool)
  /-- VFLT (R164): Signalling vector float less-than compare into a predicate. -/
  | vflt (d : DieIx) (c : CoreIx) (vd vs1 vs2 : Fin 32) (w : Fin 4) (pg : Fin 8) (scal : Bool)
  /-- VFLE (R164): Signalling vector float less-or-equal compare into a predicate. -/
  | vfle (d : DieIx) (c : CoreIx) (vd vs1 vs2 : Fin 32) (w : Fin 4) (pg : Fin 8) (scal : Bool)
  /-- VFUNORD (R164): Quiet vector unordered compare into a predicate. -/
  | vfunord (d : DieIx) (c : CoreIx) (vd vs1 vs2 : Fin 32) (w : Fin 4) (pg : Fin 8) (scal : Bool)
  /-- VF2I (R153): Vector float-to-integer conversion at the same width. -/
  | vf2i (d : DieIx) (c : CoreIx) (vd vs1 vs2 : Fin 32) (w : Fin 4) (pg : Fin 8) (scal : Bool)
  /-- VI2F (R153): Vector integer-to-float conversion at the same width. -/
  | vi2f (d : DieIx) (c : CoreIx) (vd vs1 vs2 : Fin 32) (w : Fin 4) (pg : Fin 8) (scal : Bool)
  /-- VFSUMT (R154): Vector float tree sum of the active elements into element 0. -/
  | vfsumt (d : DieIx) (c : CoreIx) (vd vs1 vs2 : Fin 32) (w : Fin 4) (pg : Fin 8) (scal : Bool)
  /-- VFSUMS (R154): Vector float sequential sum of the active elements into element 0. -/
  | vfsums (d : DieIx) (c : CoreIx) (vd vs1 vs2 : Fin 32) (w : Fin 4) (pg : Fin 8) (scal : Bool)
  /-- VFMAXR (R154): Vector float maximum reduction. -/
  | vfmaxr (d : DieIx) (c : CoreIx) (vd vs1 vs2 : Fin 32) (w : Fin 4) (pg : Fin 8) (scal : Bool)
  /-- VFMINR (R154): Vector float minimum reduction. -/
  | vfminr (d : DieIx) (c : CoreIx) (vd vs1 vs2 : Fin 32) (w : Fin 4) (pg : Fin 8) (scal : Bool)
  /-- VADD (R153): Vector integer addition, wrapping. -/
  | vadd (d : DieIx) (c : CoreIx) (vd vs1 vs2 : Fin 32) (w : Fin 4) (pg : Fin 8) (scal : Bool)
  /-- VSUB (R153): Vector integer subtraction, wrapping. -/
  | vsub (d : DieIx) (c : CoreIx) (vd vs1 vs2 : Fin 32) (w : Fin 4) (pg : Fin 8) (scal : Bool)
  /-- VMUL (R153): Vector integer multiplication, low bits of the width. -/
  | vmul (d : DieIx) (c : CoreIx) (vd vs1 vs2 : Fin 32) (w : Fin 4) (pg : Fin 8) (scal : Bool)
  /-- VAND (R164): Vector bitwise AND. -/
  | vand (d : DieIx) (c : CoreIx) (vd vs1 vs2 : Fin 32) (w : Fin 4) (pg : Fin 8) (scal : Bool)
  /-- VOR (R164): Vector bitwise OR. -/
  | vor (d : DieIx) (c : CoreIx) (vd vs1 vs2 : Fin 32) (w : Fin 4) (pg : Fin 8) (scal : Bool)
  /-- VXOR (R164): Vector bitwise XOR. -/
  | vxor (d : DieIx) (c : CoreIx) (vd vs1 vs2 : Fin 32) (w : Fin 4) (pg : Fin 8) (scal : Bool)
  /-- VSLL (R164): Vector logical shift left. -/
  | vsll (d : DieIx) (c : CoreIx) (vd vs1 vs2 : Fin 32) (w : Fin 4) (pg : Fin 8) (scal : Bool)
  /-- VSRL (R164): Vector logical shift right. -/
  | vsrl (d : DieIx) (c : CoreIx) (vd vs1 vs2 : Fin 32) (w : Fin 4) (pg : Fin 8) (scal : Bool)
  /-- VSRA (R164): Vector arithmetic shift right. -/
  | vsra (d : DieIx) (c : CoreIx) (vd vs1 vs2 : Fin 32) (w : Fin 4) (pg : Fin 8) (scal : Bool)
  /-- VMIN (R164): Vector signed minimum. -/
  | vmin (d : DieIx) (c : CoreIx) (vd vs1 vs2 : Fin 32) (w : Fin 4) (pg : Fin 8) (scal : Bool)
  /-- VMAX (R164): Vector signed maximum. -/
  | vmax (d : DieIx) (c : CoreIx) (vd vs1 vs2 : Fin 32) (w : Fin 4) (pg : Fin 8) (scal : Bool)
  /-- VMINU (R164): Vector unsigned minimum. -/
  | vminu (d : DieIx) (c : CoreIx) (vd vs1 vs2 : Fin 32) (w : Fin 4) (pg : Fin 8) (scal : Bool)
  /-- VMAXU (R164): Vector unsigned maximum. -/
  | vmaxu (d : DieIx) (c : CoreIx) (vd vs1 vs2 : Fin 32) (w : Fin 4) (pg : Fin 8) (scal : Bool)
  /-- VEQ (R164): Vector integer equality compare into a predicate. -/
  | veq (d : DieIx) (c : CoreIx) (vd vs1 vs2 : Fin 32) (w : Fin 4) (pg : Fin 8) (scal : Bool)
  /-- VLT (R164): Vector signed less-than compare into a predicate. -/
  | vlt (d : DieIx) (c : CoreIx) (vd vs1 vs2 : Fin 32) (w : Fin 4) (pg : Fin 8) (scal : Bool)
  /-- VLTU (R164): Vector unsigned less-than compare into a predicate. -/
  | vltu (d : DieIx) (c : CoreIx) (vd vs1 vs2 : Fin 32) (w : Fin 4) (pg : Fin 8) (scal : Bool)
  /-- VSUMT (R154): Vector integer tree sum into element 0. -/
  | vsumt (d : DieIx) (c : CoreIx) (vd vs1 vs2 : Fin 32) (w : Fin 4) (pg : Fin 8) (scal : Bool)
  /-- VMAXR (R154): Vector integer maximum reduction. -/
  | vmaxr (d : DieIx) (c : CoreIx) (vd vs1 vs2 : Fin 32) (w : Fin 4) (pg : Fin 8) (scal : Bool)
  /-- VMINR (R154): Vector integer minimum reduction. -/
  | vminr (d : DieIx) (c : CoreIx) (vd vs1 vs2 : Fin 32) (w : Fin 4) (pg : Fin 8) (scal : Bool)
  /-- VSEL (R155): Vector merge of two sources under a predicate. -/
  | vsel (d : DieIx) (c : CoreIx) (vd vs1 vs2 : Fin 32) (w : Fin 4) (pg : Fin 8) (scal : Bool)
  /-- VCOPY (R155): Vector copy or scalar broadcast into the active elements. -/
  | vcopy (d : DieIx) (c : CoreIx) (vd vs1 vs2 : Fin 32) (w : Fin 4) (pg : Fin 8) (scal : Bool)
  /-- VINDEX (R155): Writes each active element's index. -/
  | vindex (d : DieIx) (c : CoreIx) (vd vs1 vs2 : Fin 32) (w : Fin 4) (pg : Fin 8) (scal : Bool)
  /-- VTOG (R155): Moves element 0, sign-extended, into a g register. -/
  | vtog (d : DieIx) (c : CoreIx) (rd vs1 vs2 : Fin 32) (w : Fin 4) (pg : Fin 8) (scal : Bool)
  /-- VSHU (R155): Shifts the elements of a register up by k. -/
  | vshu (d : DieIx) (c : CoreIx) (vd vs1 vs2 : Fin 32) (w : Fin 4) (pg : Fin 8) (scal : Bool)
  /-- VSHD (R155): Shifts the elements of a register down by k. -/
  | vshd (d : DieIx) (c : CoreIx) (vd vs1 vs2 : Fin 32) (w : Fin 4) (pg : Fin 8) (scal : Bool)
  /-- VPACK (R155): Packs the predicated elements to the bottom of the register. -/
  | vpack (d : DieIx) (c : CoreIx) (vd vs1 vs2 : Fin 32) (w : Fin 4) (pg : Fin 8) (scal : Bool)
  /-- PAND (R147): Predicate AND. -/
  | pand (d : DieIx) (c : CoreIx) (pd ps1 ps2 : Fin 32) (w : Fin 4) (pg : Fin 8)
  /-- POR (R147): Predicate OR. -/
  | por (d : DieIx) (c : CoreIx) (pd ps1 ps2 : Fin 32) (w : Fin 4) (pg : Fin 8)
  /-- PXOR (R147): Predicate XOR. -/
  | pxor (d : DieIx) (c : CoreIx) (pd ps1 ps2 : Fin 32) (w : Fin 4) (pg : Fin 8)
  /-- PANDN (R147): Predicate AND-NOT. -/
  | pandn (d : DieIx) (c : CoreIx) (pd ps1 ps2 : Fin 32) (w : Fin 4) (pg : Fin 8)
  /-- PSET (R147): Sets predicate bits below the span count. -/
  | pset (d : DieIx) (c : CoreIx) (pd ps1 ps2 : Fin 32) (w : Fin 4) (pg : Fin 8)
  /-- PCLR (R147): Clears predicate bits below the span count. -/
  | pclr (d : DieIx) (c : CoreIx) (pd ps1 ps2 : Fin 32) (w : Fin 4) (pg : Fin 8)
  /-- PPOP (R147): Counts the set predicate bits below the span count. -/
  | ppop (d : DieIx) (c : CoreIx) (rd ps1 ps2 : Fin 32) (w : Fin 4) (pg : Fin 8)
  /-- PLOW (R147): Returns the index of the lowest set predicate bit below the span count. -/
  | plow (d : DieIx) (c : CoreIx) (rd ps1 ps2 : Fin 32) (w : Fin 4) (pg : Fin 8)
  /-- PUSH (R177): Converts rows to WB8 or WB6 and pushes them as one entry onto the context's segment, or fails with STASH_OVERFLOW. -/
  | push (d : DieIx) (c : Fin 16)
  /-- POP (R178): Checks the tag of the top entry, converts it out to the destination, and lowers the top of the segment. -/
  | pop (d : DieIx) (c : Fin 16)
  /-- CLEAR (R179): Empties a billet stack segment without writing memory. -/
  | clear (d : DieIx) (c : Fin 16)
  /-- RECHUNK (R180): Converts a tensor between row layout and column-chunk layout. -/
  | rechunk (d : DieIx)
  /-- TABLE_LOAD (R188): Loads a derivative table image and verifies its CRC, range, JOB and check points. -/
  | tableLoad (d : DieIx) (k : Fin 32)
  /-- BIL_CTX_CFG (R212): A Pelbex write of a context's configuration takes effect only while its segment is empty and unused. -/
  | bilCtxCfg (d : DieIx) (i : Issuer) (c : Fin 16) (v : Word)
  /-- BIL_CTX_BASE (R212): A Pelbex write of a segment's base takes effect only while the segment is empty and unused. -/
  | bilCtxBase (d : DieIx) (i : Issuer) (c : Fin 16) (v : Word)
  /-- BIL_CTX_SIZE (R212): A Pelbex write of a segment's size takes effect only while the segment is empty and unused. -/
  | bilCtxSize (d : DieIx) (i : Issuer) (c : Fin 16) (v : Word)
  /-- SOFTMAX_FWD (R194): Computes softmax rows and writes their (m, l) statistics. -/
  | softmaxFwd (d : DieIx) (q : Fin 4)
  /-- NORM_FWD (R194): Computes normalisation rows and writes their (μ, ρ) statistics. -/
  | normFwd (d : DieIx) (q : Fin 4)
  /-- SOFTMAX_BWD (R194): Computes the softmax derivative rows from the saved statistics. -/
  | softmaxBwd (d : DieIx) (q : Fin 4)
  /-- NORM_BWD (R194): Computes the normalisation derivative rows and accumulates dγ and dβ. -/
  | normBwd (d : DieIx) (q : Fin 4)
  /-- FLUSH (R193): Writes back and invalidates the side-memory windows of a context. -/
  | flush (d : DieIx) (q : Fin 4)
  /-- DROP (R193): Invalidates the windows of a context without writing them back. -/
  | drop (d : DieIx) (q : Fin 4)
  /-- ROW_CTX_BASE (R215): A Pelbex write of a statistics array base, accepted only while no window of the context is bound. -/
  | rowCtxBase (d : DieIx) (i : Issuer) (c : Fin 16) (v : Word)
  /-- ROW_CTX_GEOM (R215): A Pelbex write of a statistics array geometry, accepted only while no window of the context is bound. -/
  | rowCtxGeom (d : DieIx) (i : Issuer) (c : Fin 16) (v : Word)
  /-- UPDATE (R205): The update engine applies the optimiser to 128-row bands and writes the inactive weight set and its copies. -/
  | update (d : DieIx)
  /-- BUCKET_OPEN (R198): Zeroes a range and opens it as a gradient bucket of the job. -/
  | bucketOpen (d : DieIx)
  /-- BUCKET_CLOSE (R200): Waits for accumulating writes to end, then closes the bucket and reports poison or saturation. -/
  | bucketClose (d : DieIx)
  /-- UPD_SET (R217): A Pelbex write of a job context's VALID and JOB; clearing VALID resets the commit state. -/
  | updSet (d : DieIx) (i : Issuer) (k : CtxIx) (v : Word)
  /-- UPD_RESEED (R218): Writing UPD_SR_CTL.RESEED reseeds the update generator at the next boundary. -/
  | updReseed (d : DieIx)
  /-- BKT_RESEED (R218): Writing UPD_SR_CTL.BKT_RESEED reseeds the bucket generator at the next boundary. -/
  | bktReseed (d : DieIx)
  /-- STRUCT_LOAD (R229): Checks a schedule image and copies it into a structure slot's store on every die of DIEMASK. -/
  | structLoad (d : DieIx)
  /-- STRUCT_FREE (R224): Frees a structure slot and discards its retained solution. -/
  | structFree (d : DieIx)
  /-- VALUES (R233): Writes changed or all matrix entries into the slot and increments VGEN. -/
  | values (d : DieIx)
  /-- FACTOR_SOLVE (R235): Claims cores, factors, substitutes, refines, checks the residual and writes the solution and result block. -/
  | factorSolve (d : DieIx) (faults : List Deviation)
  /-- SOLVE (R236): Substitutes and refines with the resident factors, fresh or stale. -/
  | solve (d : DieIx) (faults : List Deviation)
  /-- REFINE (R240): Iterates from a warm start, the retained solution or zero, by refinement, PCG or GMRES. -/
  | refine (d : DieIx) (faults : List Deviation)
  /-- ADJOINT (R245): Solves the transposed system and writes λ and the value gradient. -/
  | adjoint (d : DieIx) (faults : List Deviation)
  /-- IPM_STEP (R247): Takes one primal-dual interior-point step on a KKT slot. -/
  | ipmStep (d : DieIx) (faults : List Deviation)
  /-- PHASE (R230): The next Crucible phase begins at the first boundary after the previous phase has completed on every die. -/
  | phase (d : DieIx)
  /-- CRUCIBLE_TASK (R230): A task of a phase completes on its die. -/
  | crucibleTask (d : DieIx) (i : Nat) (how : Fin 4)
  /-- PHASE_DONE (R230): A die's completion frame for a phase reaches the home die. -/
  | phaseDone (d : DieIx) (m : Msg)
  /-- CUTOFF (R242): At the cutoff stroke, unfinished phases are abandoned and the closing classes start, or NO_ITERATE ends the solve. -/
  | cutoff (d : DieIx)
  /-- ARM (R266): Writing UPD_CMT_CTL.ARM arms the commit context for the next step at the commit stroke. -/
  | arm (d : DieIx) (k : CtxIx)
  /-- VETO (R274): Writing UPD_CMT_CTL.VETO while armed makes the member vote NO with STEP_ABORTED. -/
  | veto (d : DieIx) (k : CtxIx)
  /-- UPD_CMT_C (R273): A write of the commit stroke takes effect only while STATE is IDLE. -/
  | updCmtC (d : DieIx) (k : CtxIx) (hi : Bool) (v : Word)
  /-- VOTE_CUTOFF (R267): At stroke C − 3g each armed member evaluates the ready conditions and sends its vote to the root and backup. -/
  | voteCutoff (d : DieIx) (k : CtxIx)
  /-- VOTE (R268): A vote message of the current attempt reaches the root or backup. -/
  | vote (d : DieIx) (m : Msg)
  /-- ROOT_DECISION (R268): At stroke C − 2g the root decides the verdict and sends it to the backup. -/
  | rootDecision (d : DieIx) (k : CtxIx)
  /-- VERDICT (R268): A verdict message arrives; the backup records and acknowledges it, and members hold it. -/
  | verdict (d : DieIx) (m : Msg)
  /-- VERDICT_ACK (R268): The backup's acknowledgement reaches the root, which then broadcasts the verdict. -/
  | verdictAck (d : DieIx) (m : Msg)
  /-- VERDICT_QUERY (R269): A query for a step's verdict reaches the root or backup, which answers from its kept verdicts. -/
  | verdictQuery (d : DieIx) (m : Msg)
  /-- COMMIT_STROKE (R269): At stroke C each member flips, aborts, or enters UNDECIDED; a root with no acknowledgement sends NO. -/
  | commitStroke (d : DieIx) (k : CtxIx)
  /-- ASK_BACKUP_ROOT (R269): After 4 strokes without an answer from the root, an UNDECIDED member asks the backup root instead. -/
  | askBackupRoot (d : DieIx) (k : CtxIx)
  /-- REFRESH (R286): A refresh falls due and is issued bank by bank, or as an all-bank refresh at the ninth postponement. -/
  | refresh (d : DieIx) (pc : Fin 128) (waits : Bool)
  /-- RFM (R287): A bank's activate count reaches the stack's threshold and a refresh management command is issued. -/
  | rfm (d : DieIx) (pc : Fin 128) (waits : Bool)
  /-- PHASE_UPDATE (R282): The HBM PHY makes its periodic phase update inside refresh windows. -/
  | phaseUpdate (d : DieIx)
  /-- HBM_POWER_DOWN (R277): A channel without requests for 1 µs enters power-down. -/
  | hbmPowerDown (d : DieIx) (ch : Fin 64)
  /-- PROMOTION (R279): A request that has waited longer than HBM_QOS.AGE is promoted by one class. -/
  | promotion (d : DieIx) (pc : Fin 128) (slot : Fin 64) (kind : Fin 10)
  /-- TEMPERATURE_READING (R290): The controller reads each stack's temperature every 250 µs and reports it. -/
  | temperatureReading (d : DieIx) (k : Fin 4) (temp : Option (BitVec 8))
  /-- HBM_LANE_FAILURE (R283): An HBM lane fails in service and is reported in HBM_STK_LANE and LANE_ERR. -/
  | hbmLaneFailure (d : DieIx) (k : Fin 4) (ca : Bool) (idx : Fin 32)
  /-- HBM_TEST_GO (R293): Writing HBM_TEST_CTL.GO starts an IEEE 1500 wrapper operation, refused for restricted instructions outside test hold. -/
  | hbmTestGo (d : DieIx)
  /-- TEST_HOLD (R293): Pelbex sets or clears HBM_TEST_CTL.HOLD, stopping the die's HBM controllers from accepting requests. -/
  | testHold (d : DieIx) (i : Issuer) (hold : Bool)
  /-- WRAPPER_OPERATION_END (R299): A wrapper operation completes, updating the shift image and RESULT and clearing BUSY. -/
  | wrapperOperationEnd (d : DieIx) (err : Bool)
  /-- POISON_WRITE_BACK (R304): An uncorrectable word is written back with the poison pattern in the next free cycle, unless a newer write intervened. -/
  | poisonWriteBack (d : DieIx)
  /-- SCRUB (R308): The scrubber reads an HBM line, writing back corrected lines and poisoning uncorrectable ones. -/
  | scrub (d : DieIx) (data : BitVec 512) (check : BitVec 32)
  /-- LEAK (R309): Every LEAK_MS the level of a leaky bucket falls by one. -/
  | leak (d : DieIx) (n : Fin 10)
  /-- FLIP_ARM (R317): Writing ECC_FLIP_CTL.ARM arms the flip mask for one protection word. -/
  | flipArm (d : DieIx) (i : Issuer)
  /-- ECC_ROWLOG (R327): Writing 0 to an entry's VALID frees that row log entry. -/
  | eccRowlog (d : DieIx) (e : Fin 16) (valid : Bool)
  /-- DATA (R336): A DATA frame arrives, is accepted in sequence and acknowledged, or is discarded. -/
  | data (d : DieIx) (l : LinkIx) (frame : Received)
  /-- ACK (R336): An ACK frame arrives and releases retained frames and returns credit. -/
  | ack (d : DieIx) (l : LinkIx) (frame : List Byte)
  /-- HEARTBEAT (R338): A HEARTBEAT frame arrives and keeps the link alive. -/
  | heartbeat (d : DieIx) (l : LinkIx) (frame : List Byte)
  /-- FRAME_INTERVAL (R338): A port with nothing to send for a microsecond sends a HEARTBEAT. -/
  | frameInterval (d : DieIx) (l : LinkIx)
  /-- RETRANSMISSION (R337): An unacknowledged frame's 2 µs timer expires and it and every later frame are retransmitted. -/
  | retransmission (d : DieIx) (p : Resend)
  /-- SILENCE (R338): A port that receives no good frame for 4 µs goes down with cause SILENCE. -/
  | silence (d : DieIx) (l : LinkIx)
  /-- LINK_LANE_FAILURE (R333): A board or optical lane fails in service and takes the port down. -/
  | linkLaneFailure (d : DieIx) (p : PortIx)
  /-- PORT_TRAINING (R333): A port completes training at full or half width and begins discovery. -/
  | portTraining (d : DieIx) (p : PortIx) (lanes : Nat)
  /-- RETRAIN (R348): A down port retrains after 1 ms, or again every 100 ms while training keeps failing. -/
  | retrain (d : DieIx) (p : PortIx)
  /-- HELLO (R346): A HELLO discovery frame from the peer arrives. -/
  | hello (d : DieIx) (p : PortIx) (frame : List Byte)
  /-- HELLO_INTERVAL (R346): Every 10 µs a port without the peer's HELLO sends another HELLO. -/
  | helloInterval (d : DieIx) (p : PortIx)
  /-- HELLO_TIMEOUT (R346): No HELLO within 100 ms makes the port retrain. -/
  | helloTimeout (d : DieIx) (p : PortIx)
  /-- ECHO (R346): An ECHO frame arrives and is answered with an ECHO_REPLY carrying the receive and send stamps. -/
  | echo (d : DieIx) (p : PortIx) (frame : List Byte)
  /-- ECHO_REPLY (R346): An ECHO_REPLY arrives and contributes to the measurement of the path round trip. -/
  | echoReply (d : DieIx) (p : PortIx) (frame : List Byte)
  /-- ACCEPT (R346): The peer's ACCEPT arrives; with both accepted, credits are granted and the port comes up. -/
  | accept (d : DieIx) (p : PortIx) (frame : List Byte)
  /-- REJECT (R346): The peer's REJECT arrives and the port is disabled with the reported cause. -/
  | reject (d : DieIx) (p : PortIx) (frame : List Byte)
  /-- BOARD_PRESENCE (R350): A BOARD_PRESENCE message from a lower slot arrives, and a master that receives it stops driving STROKE_OUT. -/
  | boardPresence (d : DieIx) (m : Msg)
  /-- BOARD_MASTER (R350): After 4 strokes without presence from a lower slot, the module becomes board master and drives STROKE_OUT. -/
  | boardMaster
  /-- REENABLE (R358): Writing LNK_PCTL.REENABLE clears a DOWN_LIMIT or CHECK disable and retrains the port. -/
  | reenable (d : DieIx) (p : PortIx) (i : Issuer)
  /-- DISABLE (R358): Writing LNK_PCTL.DISABLE takes the port down and holds it disabled with cause 11. -/
  | disable (d : DieIx) (p : PortIx) (i : Issuer) (on : Bool)
  /-- READ_REQ (R400): A board address read request arrives, is checked against the epoch, and is served with a READ_REPLY. -/
  | readReq (d : DieIx) (m : Msg)
  /-- WRITE_REQ (R400): A board address write request arrives, is checked against the epoch, and is written and acknowledged. -/
  | writeReq (d : DieIx) (m : Msg)
  /-- READ_REPLY (R413): A read reply arrives and is delivered, or dropped for a stale tag. -/
  | readReply (d : DieIx) (m : Msg)
  /-- WRITE_ACK (R413): A write acknowledgement arrives and is delivered, or dropped for a stale tag. -/
  | writeAck (d : DieIx) (m : Msg)
  /-- UCIE_LINK_FAILURE (R330): The UCIe link fails, which cuts the die off from Pelbex; it is handled as a die fault. -/
  | ucieLinkFailure (d : DieIx)
  /-- ALLREDUCE (R367): Quantises a closed bucket under the agreed scales and reduces it exactly by the tree or direct algorithm. -/
  | allreduce (d : DieIx)
  /-- ALLGATHER (R373): Delivers each member's shard to every member down forwarding trees. -/
  | allgather (d : DieIx)
  /-- BROADCAST (R373): Delivers the root's data to every member. -/
  | broadcast (d : DieIx)
  /-- DISPATCH (R385): Exchanges counts and grants, sends the accepted token rows to their expert owners, and writes the plan. -/
  | dispatch (d : DieIx)
  /-- COMBINE (R388): Returns expert rows to their source slots along the plan. -/
  | combine (d : DieIx)
  /-- CONTRIB (R370): A contribution chunk arrives, is checked, and is added into the chunk's INT32 sums. -/
  | contrib (d : DieIx) (m : Msg) (upset : Word)
  /-- PARTIAL (R368): A child's partial sum arrives, is checked and added, and is passed up when the chunk is complete. -/
  | partialMsg (d : DieIx) (m : Msg) (upset : Word)
  /-- RESULT (R372): A result chunk or FAILED notice arrives, is checked, written and forwarded. -/
  | result (d : DieIx) (m : Msg)
  /-- SCALE_PROPOSE (R375): A proposal of EMAX values reaches the owner, which sets or returns the agreed scale. -/
  | scalePropose (d : DieIx) (m : Msg)
  /-- SCALE_SET (R375): The owner's scale arrives, is written into the scale table, and the chunk is quantised. -/
  | scaleSet (d : DieIx) (m : Msg)
  /-- SCALE_FIX (R376): The owner's correction arrives and overwrites S and SAT_SEEN in the scale table. -/
  | scaleFix (d : DieIx) (m : Msg)
  /-- GATHER (R373): A shard message of ALLGATHER or BROADCAST arrives, is checked, written and forwarded. -/
  | gather (d : DieIx) (m : Msg)
  /-- TX_COUNTS (R385): Slot counts reach an expert owner, which places the sources and sends grants once all have arrived. -/
  | txCounts (d : DieIx) (m : Msg)
  /-- TX_GRANT (R385): A grant arrives, and the source sends its accepted rows and drops the rest. -/
  | txGrant (d : DieIx) (m : Msg)
  /-- TX_ROWS (R386): Token rows arrive and are written into the expert buffer after their check passes. -/
  | txRows (d : DieIx) (m : Msg)
  /-- TX_RETURN (R388): Returned expert rows arrive and are written to their source slots. -/
  | txReturn (d : DieIx) (m : Msg)
  /-- CONTRIBUTION_DEADLINE (R379): At D_C late inputs are dropped and chunks still lacking inputs become missing. -/
  | contributionDeadline (d : DieIx)
  /-- RESULT_DEADLINE (R379): At D_R late results are dropped and every command of the context that is still running completes. -/
  | resultDeadline (d : DieIx)
  /-- COL_CTX_CFG (R394): A Pelbex write of a collective job context, ignored while its commands run. -/
  | colCtxCfg (d : DieIx) (i : Issuer) (k : CtxIx) (v : Word)
  /-- COL_CTX_NEXT (R394): A Pelbex write that schedules an epoch change at a given stroke. -/
  | colCtxNext (d : DieIx) (i : Issuer) (k : CtxIx) (v : Word)
  /-- COL_CTX_AT_LO (R394): A Pelbex write of the low bits of the epoch change stroke. -/
  | colCtxAtLo (d : DieIx) (i : Issuer) (k : CtxIx) (v : Word)
  /-- COL_CTX_GRP_BASE (R394): A Pelbex write of the group table address, ignored while commands of the context run. -/
  | colCtxGrpBase (d : DieIx) (i : Issuer) (k : CtxIx) (v : DWord)
  /-- COL_ALG (R391): A write of the algorithm threshold and forwarding degree, applied to commands that start afterwards. -/
  | colAlg (d : DieIx) (i : Issuer) (v : Word)
  /-- COL_RESEED (R393): Writing COL_SR_CTL.RESEED reseeds the reduction engine's generator at the next boundary. -/
  | colReseed (d : DieIx)
  /-- HANG (R404): An engine with pending work and no progress for HLT_HANG_CFG.STROKES strokes is declared hung, and its domain is reset. -/
  | hang (d : DieIx) (u : HungUnit)
  /-- MISSING_STROKE_REPORT (R406): Pelbex misses the health controller's stroke report at 2 boundaries and resets the die. -/
  | missingStrokeReport (d : DieIx)
  /-- WATCHDOG (R406): The module watchdog, not serviced for 100 ms, starts a module warm reset. -/
  | watchdog
  /-- ENGINE_RESET (R407): An engine domain resets: its tag increments, notices are sent, a capture is taken and its commands are discarded. -/
  | engineReset (d : DieIx) (c : CoreIx) (e : Fin 3) (cause : Fin 5)
  /-- CORE_RESET (R407): A core domain resets with its three engines. -/
  | coreReset (d : DieIx) (c : CoreIx) (cause : Fin 5)
  /-- QUADRANT_RESET (R407): A quadrant domain resets with its 12 cores and row engine. -/
  | quadrantReset (d : DieIx) (q : Fin 4) (cause : Fin 5)
  /-- DIE_RESET (R407): A die resets: HBM goes to self-refresh, its ports go down, and it retrains and relocks. -/
  | dieReset (d : DieIx) (cause : Fin 5)
  /-- MODULE_WARM_RESET (R407): Every die and the Pelbex die reset, and every job with a member on the module ends. -/
  | moduleWarmReset (cause : Fin 5)
  /-- RESET_COMPLETE (R407): A reset reaches step 5 and the domain returns to service with its retained state. -/
  | resetComplete (what : ResetOf) (us : Nat)
  /-- RESET_TIMEOUT (R408): A reset not complete within its recovery time escalates to the parent domain. -/
  | resetTimeout (d : DieIx) (dom : Domain)
  /-- WARM_RESET_TIMEOUT (R409): A warm reset not complete within 900 ms asserts FAULT, holds every die in reset and raises the alert. -/
  | warmResetTimeout
  /-- RESET_NOTICE (R414): A reset notice arrives, its tag is recorded, and the job's step ends. -/
  | resetNotice (d : DieIx) (m : Msg)
  /-- MEMBER_RETURN (R416): Pelbex restores a reset member's commit state from the kept verdicts and returns it to its jobs;
`final`: without an answer it gives up. -/
  | memberReturn (d : DieIx) (k : CtxIx) (final : Bool)
  /-- HLT_RESET_CTL (R425): Writing HLT_RESET_CTL.GO from Pelbex starts a service reset of the selected domain. -/
  | hltResetCtl (d : DieIx) (i : Issuer) (v : Word)
  /-- REPLAY (R437): A quarantined instruction is replayed check-only on the failing core and on its neighbour. -/
  | replay (d : DieIx) (i : Nat) (own nb : List Upset)
  /-- REPLAY_CLAIM (R437): Replay cores that have not qualified within REPLAY_WAIT strokes are claimed for at most 2 strokes. -/
  | replayClaim (d : DieIx)
  /-- ASSAY_UNIT (R444): An assay unit runs on a lent unit and is repeated once on failure, fencing the unit if it fails again. -/
  | assayUnit (d : DieIx) (u : AssayUnit) (fail again : Bool) (o : UnitRun)
  /-- STARVED (R444): A unit left uncovered for two whole periods sets ASY_STATUS.STARVED and raises an event. -/
  | starved (d : DieIx)
  /-- TOUCHSTONE (R446): Claims the named cores and runs the quarantine replays, the library, the known answers and the selected units. -/
  | touchstone (d : DieIx) (fails : List TestFail)
  /-- TOUCHSTONE_DEADLINE (R446): At its deadline a TOUCHSTONE or ASSAY_PASS skips the tests not yet run and completes. -/
  | touchstoneDeadline (d : DieIx)
  /-- ASSAY_PASS (R446): Runs one full assay pass of the die under the lending rule. -/
  | assayPass (d : DieIx)
  /-- ASY_QFREE (R452): A Pelbex write of ASY_QFREE frees quarantine slots. -/
  | asyQfree (d : DieIx) (i : Issuer) (v : Word)
  /-- POWER_UP (R486): PWR_EN rises with the input above 38 V, and inrush, standby, rails and PWRGOOD follow in order. -/
  | powerUp (b : BootIn)
  /-- POWER_DOWN_SEQUENCE (R486): PWR_EN falls and the rails go down in reverse order, PWRGOOD first. -/
  | powerDownSequence
  /-- UNDERVOLTAGE (R487): An input below 39.5 V for 50 µs requests T2 for every die. -/
  | undervoltage
  /-- UNDERVOLTAGE_RELEASE (R487): After 10 ms at or above 40.0 V, the T2 request is released. -/
  | undervoltageRelease
  /-- BROWN_OUT (R487): An input below 38.0 V for 20 µs removes every rail without latching anything. -/
  | brownOut
  /-- MODULE_TRIP (R488): Overvoltage, overcurrent or stage temperature removes every rail except standby, latches FAULT and records the cause. -/
  | moduleTrip (cause : Fin 3)
  /-- DIE_TRIP (R492): Junction at 115 °C or a stack above CRIT removes the die's rails, and the die is fenced as a die fault. -/
  | dieTrip (d : DieIx)
  /-- JUNCTION_READING (R490): A junction temperature reading sets or releases the die's T1, T2 or T3 request. -/
  | junctionReading (d : DieIx) (temp : Option (BitVec 8))
  /-- COOLANT_READING (R490): A coolant reading sets or releases the module-wide T1 or T3 request. -/
  | coolantReading (inlet outlet : Option (BitVec 8))
  /-- CAP_EVALUATION (R491): The 1 ms power evaluation moves the cap step slower or faster. -/
  | capEvaluation (m : Measured)
  /-- THROT_N (R490): THROT_N held low for 1 µs requests T3 for every die, released when it is high for 1 µs. -/
  | throtN (low : Bool)
  /-- MOD_RESET_N (R500): MOD_RESET_N held low for 10 µs starts a module warm reset and holds the dies in reset. -/
  | modResetN (low : Bool)
  /-- A1_ENTRY (R493): A die idle for A1_STROKES strokes enters A1. -/
  | a1Entry (d : DieIx)
  /-- A0_REQUEST (R497): PWR_LP_REQ with target A0 returns parked dies or the module to A0. -/
  | a0Request (mask : BitVec 8) (busy : Bool) (b : BootIn)
  /-- A2_ENTRY (R495): PWR_LP_REQ with target A2 parks dies with HBM in self-refresh. -/
  | a2Entry (mask : BitVec 8) (busy : Bool)
  /-- A3_ENTRY (R496): PWR_LP_REQ with target A3 saves logs, parks every die and removes all rails except standby. -/
  | a3Entry (mask : BitVec 8) (busy : Bool)
  /-- PWR_CAP (R506): A write of the power cap enables, changes or disables the cap step. -/
  | pwrCap (v : Word)
  /-- I3C_PRIVATE_WRITE (R501): An I3C private write sets the register offset and writes data words to the PWR block. -/
  | i3cPrivateWrite (off : BitVec 16) (data : List Word) (busy : Bool) (b : BootIn)
  /-- I3C_PRIVATE_READ (R501): An I3C private read returns data words from the offset last written. -/
  | i3cPrivateRead (n : Nat)
  /-- PEL_SQ_TAIL (R468): A doorbell write of a submission queue's TAIL makes Pelbex consume the descriptors up to it. -/
  | pelSqTail (q : Fin 64) (tail : BitVec 12) (descs : List (Desc × Bool))
  /-- PEL_CQ_HEAD (R469): A write of a completion queue's HEAD frees space and releases held records. -/
  | pelCqHead (q : Fin 64) (head : BitVec 16)
  /-- PEL_AQ_CTL (R480): A write that enables or disables the admin queue; disabling discards its unstarted descriptors. -/
  | pelAqCtl (v : Word)
  /-- PEL_ACQ_BASE (R481): A write of the admin completion queue's host address, ignored while the admin queue is enabled. -/
  | pelAcqBase (v : DWord)
  /-- HOST_INTERFACE_RESET (R466): FLR, hot reset, PCIe link-down or PERST_N resets only the host interface and its queue bindings. -/
  | hostInterfaceReset (linkDown : Bool)
  /-- NOP (R471): Host NOP completes with no effect. -/
  | nop (q : Fin 64)
  /-- QUEUE_BIND (R470): Binds or unbinds a host queue to Pelbex or to one engine queue of one die. -/
  | queueBind (q : Fin 64)
  /-- JOB_CREATE (R472): Assigns a job its contexts, billet stacks and row geometry on the dies its member list names. -/
  | jobCreate (q : Fin 64)
  /-- JOB_START (R474): Starts or replaces the plan that runs the job's steps, optionally with a new epoch. -/
  | jobStart (q : Fin 64)
  /-- PLAN_STEP (R473): The runtime chooses S, sets EXPECT, arms the commit and releases the plan entries for the next step. -/
  | planStep (job : BitVec 12)
  /-- JOB_RESUME (R474): Clears REPEATS of a halted job and repeats its step. -/
  | jobResume (q : Fin 64)
  /-- JOB_TEARDOWN (R474): Aborts the current step, frees the job's resources and completes its pending JOB_START. -/
  | jobTeardown (q : Fin 64)
  /-- HOST_COPY (R475): Moves bytes between host memory and a board address of the module. -/
  | hostCopy (q : Fin 64)
  /-- ATTEST (R464): Builds and signs the attestation report, with the requested nonce, into host memory. -/
  | attest (q : Fin 64)
  /-- IMAGE_WRITE (R475): Erases and writes the image slot that did not boot. -/
  | imageWrite (q : Fin 64)
  /-- IMAGE_SELECT (R475): Verifies an image slot and writes the boot record to select, trial or confirm it. -/
  | imageSelect (q : Fin 64) (bad : Bool)
  /-- SERVICE_MODULE_WARM_RESET (R475): SERVICE OP 1 starts a module warm reset. -/
  | serviceModuleWarmReset (q : Fin 64)
  /-- CLEAR_ESCALATION_COUNTERS (R475): SERVICE OP 2 clears the escalation counters and the fence list. -/
  | clearEscalationCounters (q : Fin 64)
  /-- ERASE_LIBRARY (R475): SERVICE OP 3 erases the touchstone library. -/
  | eraseLibrary (q : Fin 64)
  /-- SERVICE_PORT_REENABLE (R475): SERVICE OP 4 re-enables a port of a die. -/
  | servicePortReenable (q : Fin 64)
  /-- HBM_REPAIR_RUN (R313): SERVICE OP 5 runs the hard post-package repair procedure on the repair candidates of the named dies. -/
  | hbmRepairRun (q : Fin 64) (res : List Repair)
  /-- SERVICE_DOMAIN_RESET (R475): SERVICE OP 6 passes a value to HLT_RESET_CTL to reset a domain. -/
  | serviceDomainReset (q : Fin 64)
  /-- OWNER_KEY_ENROLMENT (R475): SERVICE OP 7 fuses an owner key digest into an empty slot. -/
  | ownerKeyEnrolment (q : Fin 64)
  /-- OWNER_KEY_REVOCATION (R475): SERVICE OP 8 irreversibly revokes an owner key slot. -/
  | ownerKeyRevocation (q : Fin 64)
  /-- SELF_CHECK (R478): Every 60 s Pelbex hashes its code and image copy and starts a warm reset on a mismatch. -/
  | selfCheck (ok : Bool)
  /-- STK_CAP_CTL (R532): A write arms or disarms capture slots and selects their sources. -/
  | stkCapCtl (d : DieIx) (v : Word)
  /-- REGISTER_WRITE (R515): A write to a register without behaviour of its own is applied, ignored, or counted under the access rules. -/
  | registerWrite (d : DieIx) (i : Issuer) (off : Fin 1048576) (v : Word) (high : Option Word)
  /-- INPUT_RESTORED (R487): After a brown-out, the input returns above 38.0 V while PWR_EN is high, and the module powers up again under R486. -/
  | inputRestored (b : BootIn)
  /-- FAULT_CLEAR (R488): PWR_EN held low for at least 2 s, or removal of the input, clears a latched FAULT after a module trip or a hung warm reset. -/
  | faultClear (removed : Bool)
  /-- PCIE_LINK_UP (R465): The PCIe link completes training; PEL_PCIE_STATUS is updated, and DEGRADED is set with a PORT event below 64 GT/s x16 or x8. -/
  | pcieLinkUp (gen : Fin 6) (width : BitVec 8) (flit : Bool)
  /-- TEST_PORT_ACCESS (R292): The production test port takes or releases ownership of a stack's IEEE 1500 wrapper through the IEEE 1149.1/1687 network, overriding the controller. -/
  | testPortAccess (d : DieIx) (k : Fin 4) (take : Bool)
deriving DecidableEq, Repr

end Sys2Proof
end

