-- ==== Sys2Proof/Decode.lean ====
section
/-! DEFINITION. Decoding. No row of the command table gives bits, so a table word spells no command. The words that a core fetches
are judged here: their opcode class and their fields (R76, R77), and for the vector instructions and MXWAIT and MXLAT, which the
manual encodes bit by bit, the whole word (R138, R139, R164). -/

namespace Sys2Proof

/-- The command that a table word spells: the table gives no row any bits. -/
def decodeTableWord (_nbits _w : Nat) : Option Instr := none

namespace Decode

/-- Bits [lo+len−1:lo] of a word. -/
def bits (w : Word) (lo len : Nat) : Nat := w.toNat / 2 ^ lo % 2 ^ len

def reg (w : Word) (lo : Nat) : Fin 32 := ⟨bits w lo 5, Nat.mod_lt _ (by decide)⟩
def width (w : Word) : Fin 4 := ⟨bits w 9 2, Nat.mod_lt _ (by decide)⟩
def guard (w : Word) : Fin 8 := ⟨bits w 6 3, Nat.mod_lt _ (by decide)⟩
def format (w : Word) : Fin 16 := ⟨bits w 2 4, Nat.mod_lt _ (by decide)⟩

abbrev VOp := DieIx → CoreIx → Fin 32 → Fin 32 → Fin 32 → Fin 4 → Fin 8 → Bool → Instr
abbrev COp := DieIx → CoreIx → Fin 32 → Fin 32 → BitVec 11 → Instr
abbrev POp := DieIx → CoreIx → Fin 32 → Fin 32 → Fin 32 → Fin 4 → Fin 8 → Instr

/-- VF functions. -/
def vfOps : List (Nat × VOp) :=
  [(0x00, .vfadd), (0x01, .vfsub), (0x02, .vfmul), (0x03, .vfdiv), (0x04, .vfsqrt), (0x05, .vfmin), (0x06, .vfmax), (0x07, .vffma),
   (0x08, .vffms), (0x09, .vffnma), (0x0A, .vfabs), (0x0B, .vfneg), (0x0C, .vfsgnj), (0x0D, .vfeq), (0x0E, .vflt), (0x0F, .vfle),
   (0x10, .vfunord), (0x11, .vf2i), (0x12, .vi2f), (0x14, .vfsumt), (0x15, .vfsums), (0x16, .vfmaxr), (0x17, .vfminr)]

/-- VI functions. -/
def viOps : List (Nat × VOp) :=
  [(0x00, .vadd), (0x01, .vsub), (0x02, .vmul), (0x03, .vand), (0x04, .vor), (0x05, .vxor), (0x06, .vsll), (0x07, .vsrl),
   (0x08, .vsra), (0x09, .vmin), (0x0A, .vmax), (0x0B, .vminu), (0x0C, .vmaxu), (0x0D, .veq), (0x0E, .vlt), (0x0F, .vltu),
   (0x10, .vsumt), (0x11, .vmaxr), (0x12, .vminr), (0x13, .vsel), (0x14, .vcopy), (0x15, .vindex), (0x16, .vtog), (0x17, .vshu),
   (0x18, .vshd), (0x19, .vpack)]

/-- VC functions. -/
def vcOps : List (Nat × COp) :=
  [(0x00, .setvl), (0x01, .setvfull), (0x02, .vstatrd), (0x03, .vstatwr), (0x04, .vslice), (0x05, .vfence)]

/-- VP functions. -/
def vpOps : List (Nat × POp) :=
  [(0x00, .pand), (0x01, .por), (0x02, .pxor), (0x03, .pandn), (0x08, .pset), (0x09, .pclr), (0x10, .ppop), (0x11, .plow)]

/-- The instruction that a function code names. -/
def pick {α : Type} (l : List (Nat × α)) (f : Nat) : Option α := (l.find? (fun p => p.1 == f)).map (fun p => p.2)

/-- Why a word is no instruction that the manual encodes. -/
inductive BadWord where
  /-- An opcode that the manual reserves (0x2F) or does not encode bit by bit. -/
  | opcode (n : Nat)
  /-- A function code that the table of its opcode does not list. -/
  | function (n : Nat)
deriving DecidableEq, Repr

def found {α β : Type} (o : Option α) (f : Nat) (k : α → β) : Except BadWord β :=
  match o with
  | some x => .ok (k x)
  | none => .error (.function f)

/-- The instruction of a core's word (R138, R164): its meaning raises ILLEGAL where a field that must be zero is not. -/
def coreWord (d : DieIx) (c : CoreIx) (w : Word) : Except BadWord Instr :=
  let op := bits w 26 6
  let a := reg w 21
  let b := reg w 16
  let e := reg w 11
  if op = 0x28 then found (pick vfOps (bits w 0 5)) (bits w 0 5) (fun k => k d c a b e (width w) (guard w) (w.getLsbD 5))
  else if op = 0x29 then found (pick viOps (bits w 0 5)) (bits w 0 5) (fun k => k d c a b e (width w) (guard w) (w.getLsbD 5))
  else if op = 0x2A then .ok (.vld d c a b e (width w) (guard w) (format w) (w.getLsbD 1) (w.getLsbD 0))
  else if op = 0x2D then .ok (.vst d c a b e (width w) (guard w) (format w) (w.getLsbD 1) (w.getLsbD 0))
  else if op = 0x2E then .ok (.vldff d c a b e (width w) (guard w) (format w) (w.getLsbD 1) (w.getLsbD 0))
  else if op = 0x2B then found (pick vcOps (bits w 11 5)) (bits w 11 5) (fun k => k d c a b (BitVec.ofNat 11 (bits w 0 11)))
  else if op = 0x2C then found (pick vpOps (bits w 0 6)) (bits w 0 6) (fun k => k d c a b e (width w) (guard w))
  else if op = 0x30 then .ok (.mxwait d c a (BitVec.ofNat 16 (bits w 0 16)))
  else if op = 0x31 then (if bits w 0 11 = 0 then .ok (.mxlat d c a) else .error (.function (bits w 0 11)))
  else .error (.opcode op)

/-- Whether an opcode is allocated (R77). -/
def allocated (op : Nat) : Bool :=
  (decide (1 ≤ op) && decide (op ≤ 0x1D)) || (decide (0x20 ≤ op) && decide (op ≤ 0x2E)) || decide (op = 0x30) || decide (op = 0x31)
    || decide (op = 0x38)

/-- A word that raises the illegal-instruction exception whatever it would mean (R77): all zeros, all ones, an opcode that is not
allocated, or a vector or matrix function that its table does not list. -/
def illegalWord (w : Word) : Bool :=
  let op := bits w 26 6
  decide (w = 0) || decide (w = 0xFFFFFFFF) || !allocated op
    || ((decide (0x28 ≤ op) && decide (op ≤ 0x31)) && (match coreWord 0 0 w with
        | .ok _ => false
        | .error _ => true))

/-- Whether bits [lo+4:lo] of a word name a register. -/
def names (w : Word) (lo : Nat) (r : Fin 32) : Bool := decide (reg w lo = r)

/-- The low 16 bits of a word: imm16 and offset16 (R76). -/
def low16 (w : Word) : BitVec 16 := w.setWidth 16

/-- Whether a word can be the encoding of an instruction of a core. Of a scalar instruction the manual gives the class of its
opcode and the places of its fields by format (R76, R77) but no function codes, and these alone are compared (log entry 135). -/
def spells (d : DieIx) (c : CoreIx) (w : Word) (i : Instr) : Bool :=
  let op := bits w 26 6
  let cls := fun (lo hi : Nat) => decide (lo ≤ op) && decide (op ≤ hi)
  match i with
  | .integerInstruction _ _ _ rd rs1 src => cls 0x01 0x0F && names w 21 rd && names w 16 rs1 && (match src with
      | .reg r => names w 11 r
      | .imm k => decide (low16 w = k))
  | .scalarLoad _ _ _ _ _ rd rs1 off => cls 0x10 0x17 && names w 21 rd && names w 16 rs1 && decide (low16 w = off)
  | .scalarStore _ _ _ _ rs2 rs1 off => cls 0x10 0x17 && names w 21 rs2 && names w 16 rs1 && decide (low16 w = off)
  | .conditionalBranch _ _ _ rs1 rs2 off => cls 0x18 0x1B && names w 21 rs1 && names w 16 rs2 && decide (low16 w = off)
  | .call _ _ rd off => cls 0x1C 0x1C && names w 21 rd && decide (w.setWidth 21 = off)
  | .callr _ _ rd rs1 => cls 0x1D 0x1D && names w 21 rd && names w 16 rs1
  | .scalarFp _ _ _ _ rd rs1 rs2 _ => cls 0x20 0x27 && names w 21 rd && names w 16 rs1 && names w 11 rs2
  | .ctlrd _ _ rd num => cls 0x38 0x38 && names w 21 rd && decide (w.setWidth 11 = num)
  | .ctlwr _ _ rs1 num => cls 0x38 0x38 && names w 16 rs1 && decide (w.setWidth 11 = num)
  | .cpush _ _ rs1 => cls 0x38 0x38 && names w 16 rs1
  | .waitstroke _ _ => cls 0x38 0x38
  | .brk _ _ => cls 0x38 0x38
  | .endK _ _ rs1 => cls 0x38 0x38 && names w 16 rs1
  | _ => (match coreWord d c w with
      | .ok j => decide (j = i)
      | .error _ => false)

end Decode

end Sys2Proof
end

