-- ==== Sys2Proof/Config.lean ====
section
/-! DEFINITION. What the manual leaves open: constants without a body, so that no proof can see a value of theirs. -/

namespace Sys2Proof.Config

/-- The n-th free 64-bit value: a result that the manual calls undefined or does not state. -/
opaque freeBits : Nat → BitVec 64

/-- Free byte i of the n-th free block: the content of a buffer that the manual leaves undefined. -/
opaque freeByte : Nat → Nat → BitVec 8

/-- The 128-bit seed that a die's fuses give generator g of die d (R64); the derivation is not stated. -/
opaque fuseSeed : Nat → Nat → BitVec 128

/-- Draw number n of generator g of die d under a seed: the lane expansion and the output stage of R63 are not stated. -/
opaque srDraw : Nat → Nat → BitVec 128 → Nat → BitVec 16

/-- Quotient and remainder of an integer division by zero, and an integer shift by 64 or more: the manual states no result. -/
opaque intCorner : Nat → BitVec 64 → BitVec 64 → BitVec 64

/-- Which of the two FP32 neighbours within one unit in the last place `exp` delivers (R194). -/
opaque expUp : BitVec 32 → Bool

/-- Which two partial sums step k of the n-th unordered sum combines: the manual does not state the order (R191, R194). -/
opaque sumPick : Nat → Nat → Nat

/-- Whether the row maximum of R191 is that of the scaled elements s × x or of the elements x. -/
opaque rowMaxScaled : Bool

/-- Whether the n-th variance is formed from deviations or from squares: the manual does not state it (R194). -/
opaque varTwoPass : Nat → Bool

/-- Whether a SLH-DSA signature verifies: the algorithm is that of the named standard (R458). -/
opaque signatureVerifies : List (BitVec 8) → List (BitVec 8) → List (BitVec 8) → Bool

/-- Bytes of a SLH-DSA key or signature (R463, R464). -/
opaque signatureByte : List (BitVec 8) → Nat → BitVec 8

/-- The bytes in which FENCE_DIGEST hashes the fence list and the escalation counters (R464): their form is not stated. -/
opaque fenceForm : List Nat → List (Nat × Nat) → List (BitVec 8)

/-- Component i of the vector that numeric step n of a Crucible command forms: the task arithmetic and its order are the
schedule's, and its rounding is not stated bit by bit (R230, R235, R240, R247). -/
opaque solverValue : Nat → Nat → BitVec 64

/-- Which error class a protection word reads as when the flipped bits form no pattern the manual decides (R303). -/
opaque eccCorner : BitVec 512 → BitVec 32 → BitVec 2

/-- The row, as a row log word, that an IEEE 1500 instruction with its shift image repairs for good, if it is a hard post-package repair
(R293, R294): both encodings are those of JEDEC HBM3. -/
opaque repairedRow : BitVec 8 → List (BitVec 32) → Option (BitVec 64)

/-- Byte k of a row that an interrupted repair n leaves in an unknown state (R294). -/
opaque unknownByte : Nat → Nat → BitVec 8

/-- Activates of a bank at which a stack asks for refresh management (R287): it reports the number in its mode registers. -/
opaque rfmThreshold : Nat

/-- Symbols and first position that an HBM line reports for a correctable flip: the lane mapping is not stated (R302, R325). -/
opaque hbmSymbols : BitVec 512 → BitVec 32 → BitVec 9

/-- Of a port of another module (number, die, port) in a stroke: the delay that its discovery measured, none while it is not up (R542). -/
opaque remoteLink : BitVec 40 → Nat → Nat → Nat → Option Nat

/-- Which link of a double link carries the messages of a source to a destination on a channel (R328). -/
opaque linkPick : BitVec 23 → BitVec 23 → Nat → Nat

/-- Which IEEE 1500 wrapper instructions only read (R293): their codes are those of JEDEC HBM3. -/
opaque wrapperReadOnly : BitVec 8 → Bool

/-- Bits that an IEEE 1500 wrapper shifts out (R299). -/
opaque wrapperBit : Nat → BitVec 8 → Nat → Bool

/-- What register i of kind k of a core holds at the start of kernel number n, before the kernel writes it (R75). -/
opaque startReg : Nat → Nat → BitVec 64
opaque startVec : Nat → Nat → BitVec 4096
opaque startMarks : Nat → Nat → BitVec 64
opaque startPred : Nat → Nat → BitVec 512

/-- Whether a fused multiply-add of zero, infinity and a quiet NaN signals invalid: IEEE 754-2019 leaves it open (R67). -/
opaque fmaNanInvalid : Bool

/-- Byte k of a range of a memory whose content was lost, and the 8 check bits of its word k: both are arbitrary (R307). -/
opaque lostByte : Nat → Nat → BitVec 8
opaque lostCheck : Nat → Nat → BitVec 8

/-- Which g registers read as poisoned at the start of kernel number n, before the kernel writes them (R302, R307). -/
opaque startBad : Nat → BitVec 32

/-- The bank that refresh number n of a pseudo-channel refreshes, where it is free to choose (R286). -/
opaque refreshBank : Nat → Fin 32

/-- The one bit by which two units contend in an order the manual leaves open. -/
opaque freeBool : Nat → Bool

end Sys2Proof.Config
end

