-- ==== Sys2Proof/Machine/Float.lean ====
section
/-! DEFINITION. Numbers as the device computes with them: a value is decoded exactly, operated on exactly and rounded once
(R46 to R61, R67). Every function is a plain computation over naturals and integers. -/

namespace Sys2Proof.Machine

/-- The rounding modes of R54 and of FPCTL and VSTAT: RNE, RTZ, SR, toward +∞, toward −∞. -/
inductive Rnd where
  | rne | rtz | sr | rup | rdn
deriving DecidableEq, Repr

/-- A decoded value (R53): NaN, a signed infinity, or (−1)^neg · m · 2^e. -/
inductive Fpv where
  | nan
  | inf (neg : Bool)
  | fin (neg : Bool) (m : Nat) (e : Int)
deriving DecidableEq, Repr

/-- The formats of R9, by code; 0x5 is WB8 and 0x6 is WB6. -/
inductive Fmt where
  | fp64 | fp32 | wf16 | wf8e4 | wf8e5 | wb8 | wb6 | int32 | int8
deriving DecidableEq, Repr

/-- The format of a 4-bit code; codes 0x9 to 0xF are reserved (R9). -/
def Fmt.ofCode (c : Nat) : Option Fmt :=
  match c with
  | 0 => some .fp64
  | 1 => some .fp32
  | 2 => some .wf16
  | 3 => some .wf8e4
  | 4 => some .wf8e5
  | 5 => some .wb8
  | 6 => some .wb6
  | 7 => some .int32
  | 8 => some .int8
  | _ => none

def Fmt.code (f : Fmt) : Nat :=
  match f with
  | .fp64 => 0
  | .fp32 => 1
  | .wf16 => 2
  | .wf8e4 => 3
  | .wf8e5 => 4
  | .wb8 => 5
  | .wb6 => 6
  | .int32 => 7
  | .int8 => 8

def Fmt.isBlock (f : Fmt) : Bool := f == .wb8 || f == .wb6

/-- Bytes of one element of a scalar format (R98); a block format has no element size of its own. -/
def Fmt.elemBytes (f : Fmt) : Nat :=
  match f with
  | .fp64 => 8
  | .fp32 => 4
  | .int32 => 4
  | .wf16 => 2
  | .wf8e4 => 1
  | .wf8e5 => 1
  | .int8 => 1
  | .wb8 => 0
  | .wb6 => 0

/-- Byte length of a row of n elements (R50, R52, R98). -/
def Fmt.rowBytes (f : Fmt) (n : Nat) : Nat :=
  match f with
  | .wb8 => (n + 127) / 128 * 132
  | .wb6 => (n + 127) / 128 * 100
  | _ => n * f.elemBytes

/-- The parameters of a binary format (R47): exponent bits, fraction bits, bias. -/
structure BinFmt where
  ebits : Nat
  fbits : Nat
deriving DecidableEq, Repr

def BinFmt.bias (b : BinFmt) : Int := (2 ^ (b.ebits - 1) : Nat) - 1

/-- Exponent of the least significant bit of the subnormal grid. -/
def BinFmt.emin (b : BinFmt) : Int := 1 - b.bias - b.fbits

def binOf (f : Fmt) : BinFmt :=
  match f with
  | .fp64 => ⟨11, 52⟩
  | .fp32 => ⟨8, 23⟩
  | .wf16 => ⟨8, 7⟩
  | .wf8e4 => ⟨4, 3⟩
  | .wf8e5 => ⟨5, 2⟩
  | _ => ⟨11, 52⟩

/-- The conversion flags of R58. -/
def flagSat : BitVec 8 := 0x01
def flagNanIn : BitVec 8 := 0x02
def flagFlush : BitVec 8 := 0x04
def flagOvfInf : BitVec 8 := 0x08
def flagIntNan : BitVec 8 := 0x10
def flagBlockNan : BitVec 8 := 0x20

/-- A stochastic-rounding generator (R63): its identity, the seed in force, whether that seed is the fuse-derived one,
and how many 16-bit draws it has given since it was seeded. -/
structure Gen where
  ident : Nat
  seed : BitVec 128
  fuse : Bool
  drawn : Nat
deriving DecidableEq, Repr

/-- The next 16-bit draw; its value is a free value (R63 does not state the output stage). -/
def Gen.draw (g : Gen) : Nat := (Config.srDraw g.ident 0 g.seed g.drawn).toNat

def Gen.next (g : Gen) : Gen := { g with drawn := g.drawn + 1 }

/-- Generator after n draws. -/
def Gen.skip (g : Gen) (n : Nat) : Gen := { g with drawn := g.drawn + n }

/-- What rounding m / 2^k gives: the rounded integer, whether it was inexact, and the generator after it. -/
structure Rounded where
  val : Nat
  inexact : Bool
  gen : Gen
deriving DecidableEq, Repr

/-- The 16 bits of m immediately below bit k, truncated (step 1 of R61). -/
def srBits (m k : Nat) : Nat :=
  if k ≥ 16 then (m / 2 ^ (k - 16)) % 65536 else (m % 2 ^ k) * 2 ^ (16 - k)

/-- Round m / 2^k to an integer; `neg` is the sign of the value (R60, R61). -/
def roundShift (mode : Rnd) (neg : Bool) (m k : Nat) (g : Gen) : Rounded :=
  let q := m / 2 ^ k
  let r := m % 2 ^ k
  if r = 0 then ⟨q, false, g⟩ else
    match mode with
    | .rne => ⟨if 2 * r > 2 ^ k ∨ (2 * r = 2 ^ k ∧ q % 2 = 1) then q + 1 else q, true, g⟩
    | .rtz => ⟨q, true, g⟩
    | .rup => ⟨if neg then q else q + 1, true, g⟩
    | .rdn => ⟨if neg then q + 1 else q, true, g⟩
    | .sr => ⟨if srBits m k + g.draw ≥ 65536 then q + 1 else q, true, g.next⟩

/-- Round m · 2^e onto the grid 2^lsb. -/
def roundGrid (mode : Rnd) (neg : Bool) (m : Nat) (e lsb : Int) (g : Gen) : Rounded :=
  if e ≥ lsb then ⟨m * 2 ^ (e - lsb).toNat, false, g⟩ else roundShift mode neg m (lsb - e).toNat g

/-- Exponent of the leading bit of m · 2^e, m not zero. -/
def leadExp (m : Nat) (e : Int) : Int := (Nat.log2 m : Int) + e

/-- The outcome of rounding into a binary format: the magnitude bits (exponent and fraction field), and what happened. -/
structure BinOut where
  mag : Nat
  inexact : Bool
  tiny : Bool
  overflow : Bool
  gen : Gen
deriving DecidableEq, Repr

/-- Magnitude code of the first value above the largest finite one. -/
def overCode (f : Fmt) : Nat :=
  match f with
  | .wf8e4 => 0x7F
  | .wf8e5 => 0x7C
  | .wf16 => 0x7F80
  | .fp32 => 0x7F800000
  | _ => 0x7FF0000000000000

/-- Largest finite magnitude of a binary format (R47). -/
def maxCode (f : Fmt) : Nat := overCode f - 1

/-- Round a non-zero finite value into a binary format; SR follows RNE above the largest finite value (R55, R61). -/
def roundBin (f : Fmt) (mode : Rnd) (neg : Bool) (m : Nat) (e : Int) (g : Gen) : BinOut :=
  let b := binOf f
  let top := leadExp m e
  -- magnitude of the largest finite value is (maxCode mantissa) at the top binade
  let lsb := max (top - b.fbits) b.emin
  let trunc := roundGrid .rtz neg m e lsb g
  let base := ((lsb - b.emin).toNat) * 2 ^ b.fbits
  let above := base + trunc.val ≥ overCode f ∨ (base + trunc.val = maxCode f ∧ trunc.inexact)
  let md := if mode = .sr ∧ above then .rne else mode
  let r := roundGrid md neg m e lsb g
  let code := base + r.val
  -- tininess with an unbounded exponent: the value rounded to full precision
  let u := roundGrid md neg m e (top - b.fbits) g
  let tiny := if u.val ≥ 2 ^ (b.fbits + 1) then decide (top + 1 < 1 - b.bias) else decide (top < 1 - b.bias)
  ⟨code, r.inexact, tiny, decide (code ≥ overCode f), r.gen⟩

/-- An encoded element with its flags. -/
structure Enc where
  bits : Nat
  flags : BitVec 8
  gen : Gen
deriving DecidableEq, Repr

def signBit (f : Fmt) : Nat :=
  match f with
  | .fp64 => 2 ^ 63
  | .fp32 => 2 ^ 31
  | .wf16 => 2 ^ 15
  | _ => 2 ^ 7

def withSign (f : Fmt) (neg : Bool) (mag : Nat) : Nat := if neg then signBit f + mag else mag

/-- The canonical quiet NaN of a format (R49). -/
def canonNan (f : Fmt) : Nat :=
  match f with
  | .fp64 => 0x7FF8000000000000
  | .fp32 => 0x7FC00000
  | .wf16 => 0x7FC0
  | .wf8e4 => 0x7F
  | _ => 0x7E

/-- Encode into a binary float format by the table of R55. -/
def encodeFloat (f : Fmt) (mode : Rnd) (v : Fpv) (g : Gen) : Enc :=
  match v with
  | .nan => ⟨canonNan f, flagNanIn, g⟩
  | .inf neg =>
    match f with
    | .wf16 => ⟨withSign f neg (maxCode f), flagSat, g⟩
    | .wf8e4 => ⟨withSign f neg (maxCode f), flagSat, g⟩
    | _ => ⟨withSign f neg (overCode f), 0, g⟩
  | .fin neg m e =>
    if m = 0 then ⟨withSign f neg 0, 0, g⟩ else
      let r := roundBin f mode neg m e g
      if r.overflow then
        match f with
        | .wf16 => ⟨withSign f neg (maxCode f), flagSat, r.gen⟩
        | .wf8e4 => ⟨withSign f neg (maxCode f), flagSat, r.gen⟩
        | .wf8e5 => ⟨withSign f neg (maxCode f), flagSat, r.gen⟩
        | _ =>
          let toMax := match mode with
            | .rtz => true
            | .rup => neg
            | .rdn => !neg
            | _ => false
          if toMax then ⟨withSign f neg (maxCode f), flagSat, r.gen⟩
          else ⟨withSign f neg (overCode f), flagOvfInf, r.gen⟩
      else
        match f with
        | .wf16 => if r.tiny then ⟨withSign f neg 0, flagFlush, r.gen⟩ else ⟨withSign f neg r.mag, 0, r.gen⟩
        | _ => ⟨withSign f neg r.mag, 0, r.gen⟩

/-- Round a finite value to an integer under a mode. -/
def roundInt (mode : Rnd) (neg : Bool) (m : Nat) (e : Int) (g : Gen) : Rounded := roundGrid mode neg m e 0 g

/-- Two's complement bits of an integer in w bits. -/
def intBits (w : Nat) (i : Int) : Nat := (i % (2 ^ w : Nat)).toNat

/-- The signed value of w bits. -/
def signedOf (w : Nat) (n : Nat) : Int := if n % 2 ^ w ≥ 2 ^ (w - 1) then (n % 2 ^ w : Nat) - (2 ^ w : Nat) else (n % 2 ^ w : Nat)

/-- The signed mantissa of a finite value on a grid not above its own. -/
def alignInt (neg : Bool) (m : Nat) (e lsb : Int) : Int :=
  let a : Int := (m : Int) * 2 ^ (e - lsb).toNat
  if neg then -a else a

/-- Exact comparison of two finite values or infinities: −1, 0 or 1 (NaN compares as 0 and is handled before). -/
def Fpv.cmp (a b : Fpv) : Int :=
  match a, b with
  | .inf x, .inf y => if x = y then 0 else if x then -1 else 1
  | .inf x, .fin .. => if x then -1 else 1
  | .fin .., .inf y => if y then 1 else -1
  | .fin n1 m1 e1, .fin n2 m2 e2 =>
    let l := min e1 e2
    let x := alignInt n1 m1 e1 l
    let y := alignInt n2 m2 e2 l
    if x < y then -1 else if x = y then 0 else 1
  | _, _ => 0

/-- Encode into a signed integer of w bits by the table of R55. -/
def encodeInt (w : Nat) (mode : Rnd) (v : Fpv) (g : Gen) : Enc :=
  match v with
  | .nan => ⟨0, flagIntNan, g⟩
  | .inf neg => ⟨if neg then 2 ^ (w - 1) else 2 ^ (w - 1) - 1, flagSat, g⟩
  | .fin neg m e =>
    -- SR follows the RNE rule above the largest value (R61)
    let lim : Fpv := .fin false (if neg then 2 ^ (w - 1) else 2 ^ (w - 1) - 1) 0
    let md := if mode = .sr ∧ Fpv.cmp (.fin false m e) lim = 1 then .rne else mode
    let r := roundInt md neg m e g
    if neg then
      if r.val > 2 ^ (w - 1) then ⟨2 ^ (w - 1), flagSat, r.gen⟩ else ⟨intBits w (-(r.val : Int)), 0, r.gen⟩
    else
      if r.val ≥ 2 ^ (w - 1) then ⟨2 ^ (w - 1) - 1, flagSat, r.gen⟩ else ⟨r.val, 0, r.gen⟩

/-- Decode the bits of a binary float format (R47, R48). -/
def decodeFloat (f : Fmt) (bits : Nat) : Fpv :=
  let b := binOf f
  let neg := decide (bits / signBit f % 2 = 1)
  let mag := bits % signBit f
  let ex := mag / 2 ^ b.fbits
  let fr := mag % 2 ^ b.fbits
  match f with
  | .wf16 =>
    if ex = 255 then .nan
    else if ex = 0 then .fin neg 0 0
    else .fin neg (2 ^ b.fbits + fr) ((ex : Int) - 1 + b.emin)
  | .wf8e4 =>
    if mag = 0x7F then .nan
    else if ex = 0 then .fin neg fr b.emin
    else .fin neg (2 ^ b.fbits + fr) ((ex : Int) - 1 + b.emin)
  | _ =>
    if ex = 2 ^ b.ebits - 1 then (if fr = 0 then .inf neg else .nan)
    else if ex = 0 then .fin neg fr b.emin
    else .fin neg (2 ^ b.fbits + fr) ((ex : Int) - 1 + b.emin)

/-- An integer as a number. -/
def Fpv.ofInt (i : Int) : Fpv := .fin (decide (i < 0)) i.natAbs 0

/-- Decode one element of a scalar format (R53). -/
def decodeScalar (f : Fmt) (bits : Nat) : Fpv :=
  match f with
  | .int32 => .ofInt (signedOf 32 bits)
  | .int8 => .ofInt (signedOf 8 bits)
  | .wb8 => .ofInt (signedOf 8 bits)
  | .wb6 => .ofInt (signedOf 6 bits)
  | _ => decodeFloat f bits

/-- Encode one element of a scalar format (R55). -/
def encodeScalar (f : Fmt) (mode : Rnd) (v : Fpv) (g : Gen) : Enc :=
  match f with
  | .int32 => encodeInt 32 mode v g
  | .int8 => encodeInt 8 mode v g
  | _ => encodeFloat f mode v g

def Fpv.isNan (v : Fpv) : Bool :=
  match v with
  | .nan => true
  | _ => false

def Fpv.isInf (v : Fpv) : Bool :=
  match v with
  | .inf _ => true
  | _ => false

def Fpv.isZero (v : Fpv) : Bool :=
  match v with
  | .fin _ m _ => decide (m = 0)
  | _ => false

def Fpv.sign (v : Fpv) : Bool :=
  match v with
  | .nan => false
  | .inf n => n
  | .fin n _ _ => n

def Fpv.negate (v : Fpv) : Fpv :=
  match v with
  | .nan => .nan
  | .inf n => .inf !n
  | .fin n m e => .fin (!n) m e

def Fpv.absVal (v : Fpv) : Fpv :=
  match v with
  | .nan => .nan
  | .inf _ => .inf false
  | .fin _ m e => .fin false m e

/-- Exact sum. The sign of an exact zero sum follows IEEE 754: minus only toward −∞ or of two negative zeros. -/
def Fpv.add (mode : Rnd) (a b : Fpv) : Fpv :=
  match a, b with
  | .nan, _ => .nan
  | _, .nan => .nan
  | .inf x, .inf y => if x = y then .inf x else .nan
  | .inf x, _ => .inf x
  | _, .inf y => .inf y
  | .fin n1 m1 e1, .fin n2 m2 e2 =>
    let l := min e1 e2
    let s := alignInt n1 m1 e1 l + alignInt n2 m2 e2 l
    if s = 0 then
      (if m1 = 0 ∧ m2 = 0 ∧ n1 = n2 then .fin n1 0 0 else .fin (decide (mode = .rdn)) 0 0)
    else .fin (decide (s < 0)) s.natAbs l

/-- Exact product. -/
def Fpv.mul (a b : Fpv) : Fpv :=
  match a, b with
  | .nan, _ => .nan
  | _, .nan => .nan
  | .inf x, .inf y => .inf (x != y)
  | .inf x, .fin n m _ => if m = 0 then .nan else .inf (x != n)
  | .fin n m _, .inf y => if m = 0 then .nan else .inf (n != y)
  | .fin n1 m1 e1, .fin n2 m2 e2 => .fin (n1 != n2) (m1 * m2) (e1 + e2)

/-- Quotient with 96 bits beyond the divisor's length and a sticky bit below them; exact for every rounding used here. -/
def Fpv.div (a b : Fpv) : Fpv :=
  match a, b with
  | .nan, _ => .nan
  | _, .nan => .nan
  | .inf _, .inf _ => .nan
  | .inf x, .fin n _ _ => .inf (x != n)
  | .fin n _ _, .inf y => .fin (n != y) 0 0
  | .fin n1 m1 e1, .fin n2 m2 e2 =>
    if m2 = 0 then (if m1 = 0 then .nan else .inf (n1 != n2))
    else if m1 = 0 then .fin (n1 != n2) 0 0
    else
      let k := 96 + Nat.log2 m2
      let q := m1 * 2 ^ k / m2
      let st := if m1 * 2 ^ k % m2 = 0 then 0 else 1
      .fin (n1 != n2) (2 * q + st) (e1 - e2 - k - 1)

/-- Largest r with r² ≤ x, found bit by bit from bit n downwards. -/
def isqrtFrom (x : Nat) : Nat → Nat → Nat
  | 0, r => r
  | n + 1, r => if (r + 2 ^ n) * (r + 2 ^ n) ≤ x then isqrtFrom x n (r + 2 ^ n) else isqrtFrom x n r

def isqrt (x : Nat) : Nat := isqrtFrom x (Nat.log2 x / 2 + 1) 0

/-- Square root with at least 80 bits and a sticky bit. -/
def Fpv.sqrt (a : Fpv) : Fpv :=
  match a with
  | .nan => .nan
  | .inf n => if n then .nan else .inf false
  | .fin n m e =>
    if m = 0 then .fin n 0 0
    else if n then .nan
    else
      let k : Nat := if e % 2 = 0 then 176 else 177
      let x := m * 2 ^ k
      let r := isqrt x
      let st := if r * r = x then 0 else 1
      .fin false (2 * r + st) ((e - k) / 2 - 1)

/-- Add `one` to a finite value's magnitude exponent: multiply by 2^k. -/
def Fpv.scale (a : Fpv) (k : Int) : Fpv :=
  match a with
  | .fin n m e => .fin n m (e + k)
  | v => v

/-- The number a binary pattern stands for, FP64 and FP32 shorthands. -/
def f64 (b : BitVec 64) : Fpv := decodeFloat .fp64 b.toNat
def f32 (b : BitVec 32) : Fpv := decodeFloat .fp32 b.toNat

/-- Round to FP64 or FP32 by RNE, without flags: the internal arithmetic of engines that state one rounding (R60). A zero
sum is written as +0 there. -/
def toF64 (v : Fpv) : BitVec 64 := BitVec.ofNat 64 (encodeFloat .fp64 .rne v ⟨0, 0, false, 0⟩).bits
def toF32 (v : Fpv) : BitVec 32 := BitVec.ofNat 32 (encodeFloat .fp32 .rne v ⟨0, 0, false, 0⟩).bits

/-- A zero sum is written as +0 by the array, the bank, buckets, the reduction engine and the update engine (R60). -/
def Fpv.plusZero (v : Fpv) : Fpv :=
  match v with
  | .fin _ 0 _ => .fin false 0 0
  | w => w

end Sys2Proof.Machine
end

