-- ==== Sys2Proof/Machine/Convert.lean ====
section
/-! DEFINITION. Rows of elements in memory: decoding, encoding, block scales and conversion (R46 to R59). -/

namespace Sys2Proof.Machine

/-- Little-endian value of bytes (R46). -/
def leNat (bs : List Byte) : Nat := bs.foldr (fun b acc => b.toNat + 256 * acc) 0

/-- n little-endian bytes of a value (R46). -/
def leBytes : Nat → Nat → List Byte
  | 0, _ => []
  | n + 1, v => BitVec.ofNat 8 v :: leBytes n (v / 256)

/-- n bytes from offset i, zero beyond the end. -/
def slice {α : Type} (bs : List α) (i n : Nat) : List α := (bs.drop i).take n

def byteAt (bs : List Byte) (i : Nat) : Byte := bs.getD i 0

def anyAt (ps : List Bool) (i n : Nat) : Bool := (slice ps i n).any id

/-- One element as a unit reads it: its bits, its value, and whether a poisoned word feeds it. -/
structure Elem where
  raw : Nat
  val : Fpv
  poison : Bool
deriving DecidableEq, Repr

/-- Element code q of a block with scale byte S (R51). -/
def blockValue (s : Nat) (q : Int) : Fpv :=
  if s = 255 then .nan else .fin (decide (q < 0)) q.natAbs ((s : Int) - 127)

/-- The signed code of element i of a WB8 or WB6 row (R50). -/
def blockCode (f : Fmt) (bs : List Byte) (i : Nat) : Int :=
  let g := i / 128
  let j := i % 128
  match f with
  | .wb6 => signedOf 6 (leNat (slice bs (g * 100 + 4 + 24 * (j / 32)) 24) / 2 ^ (6 * (j % 32)))
  | _ => signedOf 8 (byteAt bs (g * 132 + 4 + j)).toNat

/-- Offset of the scale byte of element i (R50). -/
def scaleOffset (f : Fmt) (i : Nat) : Nat :=
  match f with
  | .wb6 => i / 128 * 100 + i % 128 / 32
  | _ => i / 128 * 132 + i % 128 / 32

/-- Offset and length of the bytes that hold element i of a block row, its scale byte apart. -/
def codeSpan (f : Fmt) (i : Nat) : Nat × Nat :=
  match f with
  | .wb6 => (i / 128 * 100 + 4 + 24 * (i % 128 / 32) + 6 * (i % 32) / 8, (6 * (i % 32) % 8 + 13) / 8)
  | _ => (i / 128 * 132 + 4 + i % 128, 1)

/-- Element i of a row (R47, R50, R53). -/
def decodeElem (f : Fmt) (bs : List Byte) (ps : List Bool) (i : Nat) : Elem :=
  if f.isBlock then
    let q := blockCode f bs i
    let so := scaleOffset f i
    let sp := codeSpan f i
    ⟨intBits 8 q, blockValue (byteAt bs so).toNat q, anyAt ps so 1 || anyAt ps sp.1 sp.2⟩
  else
    let w := f.elemBytes
    let r := leNat (slice bs (i * w) w)
    ⟨r, decodeScalar f r, anyAt ps (i * w) w⟩

/-- The n elements of a row. -/
def decodeRow (f : Fmt) (n : Nat) (bs : List Byte) (ps : List Bool) : List Elem :=
  (List.range n).map (decodeElem f bs ps)

/-- A written row: its bytes, a poison mark for each byte, the flags it set, whether anything was poisoned, the generator. -/
structure RowOut where
  bytes : List Byte
  poison : List Bool
  flags : BitVec 8
  poisoned : Bool
  gen : Gen
deriving DecidableEq, Repr

/-- Quantisation limits of a block format: qmax, p and the code width (R56). -/
def blockQmax (f : Fmt) : Nat := if f = .wb6 then 31 else 127
def blockP (f : Fmt) : Int := if f = .wb6 then 4 else 6

/-- The largest value of a block format: its largest code at scale byte 254 (R50). -/
def blockMax (f : Fmt) : Fpv := .fin false (blockQmax f) 127

/-- Round the values of a block on the grid of scale byte S in the command's mode; SR follows RNE for a value above the largest one of the
format (R56, R61). -/
def quantise (f : Fmt) (mode : Rnd) (s : Int) : List Fpv → Gen → List Int × Gen
  | [], g => ([], g)
  | v :: vs, g =>
    match v with
    | .fin neg m e =>
      let md := if mode = .sr ∧ Fpv.cmp (.fin false m e) (blockMax f) = 1 then .rne else mode
      let r := roundInt md neg m (e - (s - 127)) g
      let rest := quantise f mode s vs r.gen
      ((if neg then -(r.val : Int) else (r.val : Int)) :: rest.1, rest.2)
    | _ =>
      let rest := quantise f mode s vs g
      (0 :: rest.1, rest.2)

def maxAbsInt (qs : List Int) : Nat := qs.foldl (fun a q => max a q.natAbs) 0

/-- The value of largest magnitude. -/
def maxMag (vs : List Fpv) : Fpv :=
  vs.foldl (fun a v => if Fpv.cmp v.absVal a = 1 then v.absVal else a) (.fin false 0 0)

/-- Floor of log2 of a non-zero magnitude. -/
def Fpv.log2 (v : Fpv) : Int :=
  match v with
  | .fin _ m e => leadExp m e
  | _ => 0

/-- A quantised block: scale byte, codes, flags, generator. -/
structure BlockOut where
  scale : Nat
  codes : List Int
  flags : BitVec 8
  gen : Gen
deriving DecidableEq, Repr

def clampCode (f : Fmt) (q : Int) : Int := max (-(blockQmax f : Int)) (min (blockQmax f : Int) q)

def finishBlock (f : Fmt) (s : Int) (q : List Int × Gen) : BlockOut :=
  let c := q.1.map (clampCode f)
  ⟨s.toNat, c, if c = q.1 then 0 else flagSat, q.2⟩

/-- Quantise the values of one block with a computed scale (R56) or an imposed one (R57). -/
def encodeBlock (f : Fmt) (mode : Rnd) (imposed : Option Nat) (vs : List Fpv) (g : Gen) : BlockOut :=
  if vs.any (fun v => v.isNan || v.isInf) then
    ⟨255, vs.map (fun _ => 0), if vs.any Fpv.isNan then flagBlockNan ||| flagNanIn else flagBlockNan, g⟩
  else
    match imposed with
    | some s => finishBlock f s (quantise f mode s vs g)
    | none =>
      let m := maxMag vs
      if m.isZero then ⟨0, vs.map (fun _ => 0), 0, g⟩ else
        let s0 : Int := m.log2 - blockP f + 127
        let s : Int := if s0 < 0 then 0 else if s0 > 254 then 254 else s0
        let q := quantise f mode s vs g
        if maxAbsInt q.1 > blockQmax f ∧ s < 254 then finishBlock f (s + 1) (quantise f mode (s + 1) vs q.2)
        else finishBlock f s q

/-- The code bytes of one block: 32 bytes for WB8, 24 for WB6 (R50). -/
def packBlock (f : Fmt) (qs : List Int) : List Byte :=
  if f = .wb6 then leBytes 24 (qs.foldr (fun q acc => intBits 6 q + 64 * acc) 0)
  else qs.map (fun q => BitVec.ofNat 8 (intBits 8 q))

def padTo {α : Type} (n : Nat) (a : α) (l : List α) : List α := (l ++ List.replicate (n - l.length) a).take n

/-- One encoded block of a row: scale byte, code bytes, flags, poison. -/
structure BlockBytes where
  scale : Byte
  codes : List Byte
  flags : BitVec 8
  poison : Bool
deriving DecidableEq, Repr

/-- Encode the live elements of one block; a poisoned element is not decoded and poisons the whole block (R59), and the other
values set their flags (R58; log entry 45). -/
def encodeBlockElems (f : Fmt) (mode : Rnd) (imposed : Option Nat) (es : List Elem) (g : Gen) : BlockBytes × Gen :=
  let bad := es.any Elem.poison
  let live := es.map (fun e => if e.poison then Fpv.fin false 0 0 else e.val)
  let b := encodeBlock f mode imposed live g
  (⟨BitVec.ofNat 8 b.scale, packBlock f (padTo 32 0 b.codes), b.flags, bad⟩, b.gen)

/-- The blocks of a row, four to a group, padded with empty blocks (R52). -/
def encodeBlocks (f : Fmt) (mode : Rnd) (imposed : Option Nat) : Nat → List Elem → Gen → List BlockBytes × Gen
  | 0, _, g => ([], g)
  | k + 1, es, g =>
    let b := encodeBlockElems f mode imposed (es.take 32) g
    let rest := encodeBlocks f mode imposed k (es.drop 32) b.2
    (b.1 :: rest.1, rest.2)

/-- Lay groups of four blocks out (R50). -/
def layGroups (f : Fmt) : Nat → List BlockBytes → List Byte × List Bool
  | 0, _ => ([], [])
  | k + 1, bs =>
    let g := bs.take 4
    let rest := layGroups f k (bs.drop 4)
    (g.map BlockBytes.scale ++ g.flatMap BlockBytes.codes ++ rest.1,
      g.map BlockBytes.poison ++ g.flatMap (fun b => b.codes.map (fun _ => b.poison)) ++ rest.2)

/-- Encode elements into a scalar format one after another. -/
def encodeScalars (f : Fmt) (mode : Rnd) : List Elem → Gen → List (Enc × Bool) × Gen
  | [], g => ([], g)
  | e :: es, g =>
    if e.poison then
      let rest := encodeScalars f mode es g
      ((⟨0, 0, g⟩, true) :: rest.1, rest.2)
    else
      let c := encodeScalar f mode e.val g
      let rest := encodeScalars f mode es c.gen
      ((c, false) :: rest.1, rest.2)

/-- Encode a row (R52, R55 to R59). -/
def encodeRow (f : Fmt) (mode : Rnd) (imposed : Option Nat) (es : List Elem) (g : Gen) : RowOut :=
  if f.isBlock then
    let k := (es.length + 127) / 128
    let b := encodeBlocks f mode imposed (4 * k) es g
    let l := layGroups f k b.1
    ⟨l.1, l.2, b.1.foldl (fun a x => a ||| x.flags) 0, b.1.any BlockBytes.poison, b.2⟩
  else
    let r := encodeScalars f mode es g
    ⟨r.1.flatMap (fun x => leBytes f.elemBytes x.1.bits), r.1.flatMap (fun x => List.replicate f.elemBytes x.2),
      r.1.foldl (fun a x => a ||| x.1.flags) 0, r.1.any (fun x => x.2), r.2⟩

/-- Convert one row of n elements; equal formats copy the bits unchanged (R53). -/
def convertRow (src dst : Fmt) (mode : Rnd) (imposed : Option Nat) (n : Nat) (bs : List Byte) (ps : List Bool) (g : Gen) :
    RowOut :=
  if src = dst then
    let l := src.rowBytes n
    ⟨padTo l 0 bs, padTo l false ps, 0, (ps.take l).any id, g⟩
  else encodeRow dst mode imposed (decodeRow src n bs ps) g

/-- Whether a saturating conversion into f gives status SATURATED (R59). -/
def Fmt.satStatus (f : Fmt) : Bool :=
  match f with
  | .wb8 => true
  | .wb6 => true
  | .int32 => true
  | .int8 => true
  | _ => false

end Sys2Proof.Machine
end

