-- ==== Sys2Proof/Machine/SMap.lean ====
section
/-! DEFINITION. Sparse tables: a list of key and value pairs, keys rising, no entry equal to what an unlisted key reads as. -/

namespace Sys2Proof.Machine

/-- A sparse table with natural keys. -/
abbrev SMap (α : Type) := List (Nat × α)

/-- The value at a key; `dflt` is what an unlisted key reads as. -/
def SMap.get {α : Type} (dflt : α) : List (Nat × α) → Nat → α
  | [], _ => dflt
  | (j, v) :: m, k => if j = k then v else SMap.get dflt m k

/-- Put a pair into its place in a list with rising keys. -/
def SMap.insert {α : Type} (k : Nat) (v : α) : List (Nat × α) → List (Nat × α)
  | [] => [(k, v)]
  | (j, w) :: m => if k < j then (k, v) :: (j, w) :: m else (j, w) :: SMap.insert k v m

/-- Take a key out. -/
def SMap.erase {α : Type} (k : Nat) (m : List (Nat × α)) : List (Nat × α) := m.filter (fun p => p.1 != k)

/-- Write a key; writing what an unlisted key reads as takes the entry out. -/
def SMap.set {α : Type} [DecidableEq α] (dflt : α) (m : List (Nat × α)) (k : Nat) (v : α) : List (Nat × α) :=
  if v = dflt then SMap.erase k m else SMap.insert k v (SMap.erase k m)

/-- Keys rise strictly from a bound on. -/
def SMap.sortedFrom {α : Type} : Nat → List (Nat × α) → Bool
  | _, [] => true
  | b, (j, _) :: m => decide (b ≤ j) && SMap.sortedFrom (j + 1) m

/-- The canonical form: keys strictly rising and no entry equal to the default of its key. -/
def SMap.wf {α : Type} [DecidableEq α] (dflt : Nat → α) (m : List (Nat × α)) : Bool :=
  SMap.sortedFrom 0 m && m.all (fun p => p.2 != dflt p.1)

end Sys2Proof.Machine
end

