-- ==== Sys2Proof/Machine/Regs.lean ====
section
/-! DEFINITION. The register space of a die (region 0x02) and of the Pelbex die: places, reset values and access types of
every register of the register reference and of the chapters (R7, R512 to R534). -/

namespace Sys2Proof.Machine

/-- Field [lo+len−1:lo] of a word. -/
def fld {w : Nat} (x : BitVec w) (lo len : Nat) : Nat := x.toNat / 2 ^ lo % 2 ^ len

/-- Bit i of a word. -/
def bitAt {w : Nat} (x : BitVec w) (i : Nat) : Bool := x.getLsbD i

/-- A word with field [lo+len−1:lo] set to v (modulo 2^len). -/
def setFld {w : Nat} (x : BitVec w) (lo len v : Nat) : BitVec w :=
  (x &&& ~~~(BitVec.ofNat w ((2 ^ len - 1) * 2 ^ lo))) ||| BitVec.ofNat w (v % 2 ^ len * 2 ^ lo)

/-- A word with bit i set to b. -/
def setBit {w : Nat} (x : BitVec w) (i : Nat) (b : Bool) : BitVec w := setFld x i 1 (if b then 1 else 0)

/-- Choose bits of `new` where the mask is 1, of `old` elsewhere. -/
def mixBits {w : Nat} (mask old new : BitVec w) : BitVec w := (old &&& ~~~mask) ||| (new &&& mask)

/-! ### Blocks (R512) -/

def blkID : Nat := 0x000000
def blkSTK : Nat := 0x002000
def blkHLT : Nat := 0x004000
def blkASY : Nat := 0x006000
def blkECC : Nat := 0x008000
def blkHBM : Nat := 0x00A000
def blkLNK : Nat := 0x00C000
def blkBIL : Nat := 0x00E000
def blkROW : Nat := 0x010000
def blkUPD : Nat := 0x012000
def blkCRU : Nat := 0x014000
def blkCOL : Nat := 0x016000
def blkTXE : Nat := 0x018000
def blkCORE (c : Nat) : Nat := 0x040000 + c * 0x4000
def blkMX (c : Nat) : Nat := 0x042000 + c * 0x4000
def blkVX (c : Nat) : Nat := 0x043000 + c * 0x4000

/-! ### Places of registers within a die -/

def rStkNow : Nat := blkSTK
def rStkLock : Nat := blkSTK + 0x08
def rStkCfg : Nat := blkSTK + 0x10
def rStkStepNow : Nat := blkSTK + 0x18
def rStkStepNext : Nat := blkSTK + 0x20
def rStkOverrun : Nat := blkSTK + 0x28
def rStkLate : Nat := blkSTK + 0x2C
def rStkWrap : Nat := blkSTK + 0x30
def rStkCapCtl : Nat := blkSTK + 0x40
def rStkCap (n : Nat) : Nat := blkSTK + 0x48 + n * 8

def rHltStatus : Nat := blkHLT
def rHltGenQuad : Nat := blkHLT + 0x04
def rHltHangCfg : Nat := blkHLT + 0x10
def rHltEscCfg : Nat := blkHLT + 0x14
def rHltResetCtl : Nat := blkHLT + 0x20
def rHltResetStat : Nat := blkHLT + 0x24
def rHltFenceCore0 : Nat := blkHLT + 0x30
def rHltFenceCore1 : Nat := blkHLT + 0x34
def rHltFenceDma0 : Nat := blkHLT + 0x38
def rHltFenceDma1 : Nat := blkHLT + 0x3C
def rHltFenceDie : Nat := blkHLT + 0x40
def rHltStale : Nat := blkHLT + 0x48
def rHltLoupeWin (n : Nat) : Nat := blkHLT + 0x80 + n * 4
def rHltLoupeLast : Nat := blkHLT + 0xA0

def rAsyStatus : Nat := blkASY
def rAsyCfg : Nat := blkASY + 0x08
def rAsyCover : Nat := blkASY + 0x10
def rAsyPasses : Nat := blkASY + 0x14
def rAsyFail : Nat := blkASY + 0x18
def rAsyReplay : Nat := blkASY + 0x20
def rAsyQstat : Nat := blkASY + 0x28
def rAsyQfree : Nat := blkASY + 0x2C
def rAsyLib : Nat := blkASY + 0x30
def rAsyLend0 : Nat := blkASY + 0x38
def rAsyLend1 : Nat := blkASY + 0x3C

def rEccStatus : Nat := blkECC
def rEccScrub : Nat := blkECC + 0x08
def rEccPoison : Nat := blkECC + 0x10
def rEccFuse : Nat := blkECC + 0x18
def rEccFlipCtl : Nat := blkECC + 0x20
def rEccFlipAddr : Nat := blkECC + 0x28
def rEccFlipData : Nat := blkECC + 0x30
def rEccFlipChk : Nat := blkECC + 0x38
def rEccTest : Nat := blkECC + 0x40
def rEccLbCfg (n : Nat) : Nat := blkECC + 0x100 + n * 0x10
def rEccLbLevel (n : Nat) : Nat := blkECC + 0x104 + n * 0x10
def rEccLbTotal (n : Nat) : Nat := blkECC + 0x108 + n * 0x10
def rEccRowlog (e : Nat) : Nat := blkECC + 0x200 + e * 8

def rHbmStatus : Nat := blkHBM
def rHbmTherm : Nat := blkHBM + 0x10
def rHbmQos : Nat := blkHBM + 0x20
def rHbmRd : Nat := blkHBM + 0x30
def rHbmWr : Nat := blkHBM + 0x38
def rHbmTestCtl : Nat := blkHBM + 0x40
def rHbmTestWir : Nat := blkHBM + 0x44
def rHbmTestData (n : Nat) : Nat := blkHBM + 0x48 + n * 4
def rHbmStk (s : Nat) : Nat := blkHBM + 0x100 + s * 0x20
def rHbmLane (s : Nat) : Nat := blkHBM + 0x108 + s * 0x20

def rLnkStatus : Nat := blkLNK
def rLnkTable : Nat := blkLNK + 0x08
def rLnkPstat (p : Nat) : Nat := blkLNK + 0x100 + p * 0x40
def rLnkPpeer (p : Nat) : Nat := blkLNK + 0x104 + p * 0x40
def rLnkPrtt (p : Nat) : Nat := blkLNK + 0x108 + p * 0x40
def rLnkPerr (p : Nat) : Nat := blkLNK + 0x10C + p * 0x40
def rLnkPdown (p : Nat) : Nat := blkLNK + 0x110 + p * 0x40
def rLnkPctl (p : Nat) : Nat := blkLNK + 0x114 + p * 0x40

def rBilStatus : Nat := blkBIL
def rBilTbl (i : Nat) : Nat := blkBIL + 0x08 + i * 4
def rBilErr : Nat := blkBIL + 0x10
def rBilFb : Nat := blkBIL + 0x18
def rBilCtx (c w : Nat) : Nat := blkBIL + 0x400 + c * 0x40 + w * 8

def rRowStatus (q : Nat) : Nat := blkROW + q * 0x100
def rRowMiss (q : Nat) : Nat := blkROW + q * 0x100 + 0x08
def rRowCtxBase (c : Nat) : Nat := blkROW + 0x400 + c * 0x10
def rRowCtxGeom (c : Nat) : Nat := blkROW + 0x404 + c * 0x10

def rUpdStatus : Nat := blkUPD
def rUpdSrCtl : Nat := blkUPD + 0x20
def rUpdSeed (i : Nat) : Nat := blkUPD + 0x30 + i * 4
def rBktSeed (i : Nat) : Nat := blkUPD + 0x40 + i * 4
def rUpdSet (k : Nat) : Nat := blkUPD + 0x100 + k * 8
def rUpdStep (k : Nat) : Nat := blkUPD + 0x104 + k * 8
def rCmtCLo (k : Nat) : Nat := blkUPD + 0x200 + k * 0x10
def rCmtCHi (k : Nat) : Nat := blkUPD + 0x204 + k * 0x10
def rCmtCtl (k : Nat) : Nat := blkUPD + 0x208 + k * 0x10
def rCmtStat (k : Nat) : Nat := blkUPD + 0x20C + k * 0x10

def rCruStatus : Nat := blkCRU
def rCruSlip : Nat := blkCRU + 0x08
def rCruEvent : Nat := blkCRU + 0x0C
def rCruDef : Nat := blkCRU + 0x10
def rCruClaim0 : Nat := blkCRU + 0x18
def rCruClaim1 : Nat := blkCRU + 0x1C
def rCruSlot (s w : Nat) : Nat := blkCRU + 0x400 + s * 0x10 + w * 4

def rColStatus : Nat := blkCOL
def rColAlg : Nat := blkCOL + 0x08
def rColDrop0 : Nat := blkCOL + 0x10
def rColDrop1 : Nat := blkCOL + 0x14
def rColFail : Nat := blkCOL + 0x18
def rColSrCtl : Nat := blkCOL + 0x20
def rColSeed (i : Nat) : Nat := blkCOL + 0x30 + i * 4
def rColCtx (k w : Nat) : Nat := blkCOL + 0x400 + k * 0x20 + w * 4

def rTxeStatus : Nat := blkTXE
def rTxeDrop : Nat := blkTXE + 0x08
def rTxeFail : Nat := blkTXE + 0x10

def rCoreCtl (c : Nat) : Nat := blkCORE c
def rCoreCq (c : Nat) : Nat := blkCORE c + 0x08
def rCoreSrCtl (c : Nat) : Nat := blkCORE c + 0x180
def rCoreSeed (c i : Nat) : Nat := blkCORE c + 0x190 + i * 4
def rIdleCnt (c n : Nat) : Nat := blkCORE c + 0x200 + n * 8
def rIdleSnap (c n : Nat) : Nat := blkCORE c + 0x280 + n * 8
def rIdleCtl (c : Nat) : Nat := blkCORE c + 0x300
def rIdleStamp (c : Nat) : Nat := blkCORE c + 0x308
def rMxStatus (c : Nat) : Nat := blkMX c
def rMxLat (c : Nat) : Nat := blkMX c + 0x08
def rMxSpare (c : Nat) : Nat := blkMX c + 0x10
def rMxMismatch (c : Nat) : Nat := blkMX c + 0x18
def rVxId (c : Nat) : Nat := blkVX c
def rVxStatus (c : Nat) : Nat := blkVX c + 0x08
def rVxFault (c : Nat) : Nat := blkVX c + 0x10
def rVxPoison (c : Nat) : Nat := blkVX c + 0x18

/-! ### Pelbex registers: the PEL block at BAR0 0x0000 and the PWR block at BAR0 0x4000 (register reference) -/

def rPelBoot : Nat := 0x00
def rPelAq : Nat := 0x10
def rPelAcq : Nat := 0x18
def rPelPcie : Nat := 0x20
def rPelErr : Nat := 0x28
def rPelId : Nat := 0x30
def rPelSerial : Nat := 0x38
def rPelFw : Nat := 0x40
def blkPWR : Nat := 0x4000
def rPwrStatus : Nat := blkPWR
def rPwrVin : Nat := blkPWR + 0x08
def rPwrPin : Nat := blkPWR + 0x0C
def rPwrCap : Nat := blkPWR + 0x10
def rPwrCool : Nat := blkPWR + 0x20
def rPwrLpCfg : Nat := blkPWR + 0x30
def rPwrLpReq : Nat := blkPWR + 0x34
def rPwrLpStat : Nat := blkPWR + 0x38
def rPwrDie (d : Nat) : Nat := blkPWR + 0x100 + d * 4

/-! ### Reset values -/

/-- Reset value of a word of an uncore block (R299 to R534: a register that is not listed here resets to zero). -/
def uncoreReset (off : Nat) : Word :=
  if off = blkID + 4 then 0x4D455652
  else if off = blkID + 0x10 then 1
  else if off = rStkCfg then 0x31F00F10
  else if off = rStkStepNow then 0x03AC0000
  else if off = rHltHangCfg then 0x00000008
  else if off = rHltEscCfg then 0x18230258
  else if off = rAsyCfg then 0x80400218
  else if off = rEccScrub then 0x80000018
  else if off ≥ rEccLbCfg 0 ∧ off < rEccLbCfg 10 ∧ (off - rEccLbCfg 0) % 16 = 0 then
    (if off = rEccLbCfg 9 then 0xEA600001 else 0xEA600008)
  else if off = rHbmTherm then 0x645A5755
  else if off = rHbmQos then 0x140EE955
  else if off ≥ rHbmStk 0 ∧ off < rHbmStk 4 ∧ (off - rHbmStk 0) % 0x20 = 0 then 0xFF000000
  else if off ≥ rLnkPstat 0 ∧ off < rLnkPstat 7 ∧ (off - rLnkPstat 0) % 0x40 = 0 then 0x10000000
  else if off = rUpdSrCtl then 0x00000300
  else if off ≥ rCmtCLo 0 ∧ off < rCmtCLo 32 ∧ (off - rCmtCLo 0) % 16 = 8 then 0x00000100
  else if off = rCruDef then 0x00040000
  else if off = rColAlg then 0x01000002
  else if off = rColSrCtl then 0x00000100
  else if off = blkBIL + 0x88 ∨ off = blkUPD + 0x88 ∨ off = blkCRU + 0x88 ∨ off = blkCOL + 0x88 ∨ off = blkTXE + 0x88
      ∨ off = blkASY + 0x88 then 0x0000000A
  else if off ≥ blkROW ∧ off < blkROW + 0x400 ∧ off % 0x100 = 0x88 then 0x0000000A
  else 0

/-- Reset value of a word of a core's CORE, MX or VX block, by offset from the core's base. -/
def coreReset (off : Nat) : Word :=
  if off = 0x0000 then 0x00000400
  else if off = 0x0008 then 0x00000040
  else if off = 0x0018 then 0x0000000A
  else if off = 0x0180 then 0x00001006
  else if off = 0x2000 then 0x000000F0
  else if off = 0x2008 then 0x041A0B04
  else if off = 0x2010 then 0x00000080
  else if off = 0x3000 then 0x00000200
  else 0

/-- Reset value of a word of a die's register space. -/
def dieReset (off : Nat) : Word :=
  if off < 0x40000 then uncoreReset off else coreReset ((off - 0x40000) % 0x4000)

/-! ### Access types -/

/-- How a 32-bit word of a register takes a write: the writable bits (RW), the write-1-to-clear bits, the bits written once
by the configuration image (RWL), whether only Pelbex firmware (or the health controller) may write, and whether the word
is the low (1) or high (2) half of a 64-bit register (R513, R515). -/
structure RegSpec where
  rw : Word
  w1c : Word
  rwl : Word
  owner : Nat
  half : Nat
deriving DecidableEq, Repr

def roSpec : RegSpec := ⟨0, 0, 0, 0, 0⟩
def rwSpec (m : Word) : RegSpec := ⟨m, 0, 0, 0, 0⟩
def pelSpec (m : Word) : RegSpec := ⟨m, 0, 0, 1, 0⟩

/-- Access type of a word of a core's CORE, MX or VX block; WO fields have behaviour of their own. -/
def coreSpec (off : Nat) : RegSpec :=
  if off = 0x0000 then rwSpec 0x0000FF02
  else if off = 0x0010 then ⟨0xFFFFFFE0, 0, 0, 0, 1⟩
  else if off = 0x0014 then ⟨0x000FFFFF, 0, 0, 0, 2⟩
  else if off = 0x0018 then rwSpec 0x0000001F
  else if off = 0x001C then rwSpec 0xFFFF0000
  else if off = 0x0180 then rwSpec 0x0000FF02
  else if off ≥ 0x0190 ∧ off < 0x01A0 then rwSpec 0xFFFFFFFF
  else roSpec

/-- Access type of a word of an uncore block. -/
def uncoreSpec (off : Nat) : RegSpec :=
  if off = rStkLock then rwSpec 0x0000FFFF
  else if off = rStkCapCtl then rwSpec 0x000F7777
  else if off = rHltHangCfg then ⟨0, 0, 0x000000FF, 0, 0⟩
  else if off = rHltEscCfg then ⟨0, 0, 0xFFFFFFFF, 0, 0⟩
  else if off = rHltResetCtl then pelSpec 0x78003F33
  else if off ≥ rHltLoupeWin 0 ∧ off < rHltLoupeWin 8 then rwSpec 0x800001FF
  else if off = rAsyCfg then ⟨0x0000FF00, 0, 0x80FF00FF, 0, 0⟩
  else if off = rEccStatus then ⟨0, 0x020003FF, 0, 0, 0⟩
  else if off = rEccScrub then ⟨0, 0, 0x800000FF, 0, 0⟩
  else if off = rEccFlipCtl then ⟨0x00001F3F, 0, 0, 2, 0⟩
  else if off = rEccFlipAddr then ⟨0xFFFFFFFF, 0, 0, 2, 1⟩
  else if off = rEccFlipAddr + 4 then ⟨0x0000007F, 0, 0, 2, 2⟩
  else if off = rEccFlipData then ⟨0xFFFFFFFF, 0, 0, 2, 1⟩
  else if off = rEccFlipData + 4 then ⟨0xFFFFFFFF, 0, 0, 2, 2⟩
  else if off = rEccFlipChk then ⟨0xFFFFFFFF, 0, 0, 2, 1⟩
  else if off = rEccFlipChk + 4 then ⟨0, 0, 0, 2, 2⟩
  else if off ≥ rEccLbCfg 0 ∧ off < rEccLbCfg 10 ∧ (off - rEccLbCfg 0) % 16 = 0 then ⟨0, 0, 0xFFFF00FF, 0, 0⟩
  else if off ≥ rEccRowlog 0 ∧ off < rEccRowlog 16 then
    (if off % 8 = 4 then ⟨0x80000000, 0, 0, 0, 2⟩ else ⟨0, 0, 0, 0, 1⟩)
  else if off = rHbmTherm then ⟨0, 0, 0xFF00FF00, 0, 0⟩
  else if off = rHbmQos then rwSpec 0xFF0FFFFF
  else if off = rHbmTestCtl then rwSpec 0x0003FF02
  else if off = rHbmTestWir then rwSpec 0x000000FF
  else if off ≥ rHbmTestData 0 ∧ off < rHbmTestData 8 then rwSpec 0xFFFFFFFF
  else if off ≥ rHbmStk 0 ∧ off < rHbmStk 4 then
    (if (off - rHbmStk 0) % 0x20 = 0 then ⟨0, 0x00FF0000, 0, 0, 0⟩
     else if (off - rHbmStk 0) % 0x20 = 8 then ⟨0, 0xFFFFFFFF, 0, 0, 1⟩
     else if (off - rHbmStk 0) % 0x20 = 12 then ⟨0, 0x0000FFFF, 0, 0, 2⟩ else roSpec)
  else if off = rLnkTable then ⟨0, 0, 0xFFFFFFFF, 0, 0⟩
  else if off ≥ rLnkPstat 0 ∧ off < rLnkPstat 7 then
    (if (off - rLnkPstat 0) % 0x40 = 0x14 then rwSpec 0x00000001 else roSpec)
  else if off ≥ rBilCtx 0 0 ∧ off < rBilCtx 16 0 then
    (if (off - rBilCtx 0 0) % 0x40 = 0 then pelSpec 0x8FFFFFFF
     else if (off - rBilCtx 0 0) % 0x40 = 8 then pelSpec 0x007FFFFF
     else if (off - rBilCtx 0 0) % 0x40 = 0x10 then pelSpec 0x003FFFFF
     else if (off - rBilCtx 0 0) % 0x40 = 0x28 then ⟨0, 0x00000001, 0, 0, 0⟩ else roSpec)
  else if off ≥ rRowCtxBase 0 ∧ off < rRowCtxBase 16 then
    (if off % 0x10 = 0 then pelSpec 0x007FFFFF else if off % 0x10 = 4 then pelSpec 0xFFFFFFFF else roSpec)
  else if off ≥ rUpdSeed 0 ∧ off < rBktSeed 4 then rwSpec 0xFFFFFFFF
  else if off ≥ rUpdSet 0 ∧ off < rUpdSet 32 then (if off % 8 = 0 then pelSpec 0x80000FFF else roSpec)
  else if off ≥ rCmtCLo 0 ∧ off < rCmtCLo 32 then
    (if off % 16 = 0 then rwSpec 0xFFFFFFFF else if off % 16 = 4 then rwSpec 0x000000FF
     else if off % 16 = 8 then rwSpec 0xFFFF0F00 else roSpec)
  else if off = rCruDef then ⟨0, 0, 0x00FFFFFF, 0, 0⟩
  else if off = rColAlg then rwSpec 0xFFFF0007
  else if off ≥ rColSeed 0 ∧ off < rColSeed 4 then rwSpec 0xFFFFFFFF
  else if off ≥ rColCtx 0 0 ∧ off < rColCtx 32 0 then
    (if off % 0x20 = 0 then pelSpec 0x80000FFF
     else if off % 0x20 = 4 then pelSpec 0x8000FFFF
     else if off % 0x20 = 8 then pelSpec 0xFFFFFFFF
     else if off % 0x20 = 0x10 then ⟨0xFFFFFFFF, 0, 0, 1, 1⟩
     else if off % 0x20 = 0x14 then ⟨0x000FFFFF, 0, 0, 1, 2⟩ else roSpec)
  else if off = blkBIL + 0x80 ∨ off = blkUPD + 0x80 ∨ off = blkCRU + 0x80 ∨ off = blkCOL + 0x80 ∨ off = blkTXE + 0x80
      ∨ off = blkASY + 0x80 then ⟨0xFFFFFFE0, 0, 0, 0, 1⟩
  else if off = blkBIL + 0x84 ∨ off = blkUPD + 0x84 ∨ off = blkCRU + 0x84 ∨ off = blkCOL + 0x84 ∨ off = blkTXE + 0x84
      ∨ off = blkASY + 0x84 then ⟨0x000FFFFF, 0, 0, 0, 2⟩
  else if off = blkBIL + 0x88 ∨ off = blkUPD + 0x88 ∨ off = blkCRU + 0x88 ∨ off = blkCOL + 0x88 ∨ off = blkTXE + 0x88
      ∨ off = blkASY + 0x88 then rwSpec 0x0000001F
  else if off = blkBIL + 0x8C ∨ off = blkUPD + 0x8C ∨ off = blkCRU + 0x8C ∨ off = blkCOL + 0x8C ∨ off = blkTXE + 0x8C
      ∨ off = blkASY + 0x8C then rwSpec 0xFFFF0000
  else if off ≥ blkROW ∧ off < blkROW + 0x400 then
    (if off % 0x100 = 0x80 then ⟨0xFFFFFFE0, 0, 0, 0, 1⟩
     else if off % 0x100 = 0x84 then ⟨0x000FFFFF, 0, 0, 0, 2⟩
     else if off % 0x100 = 0x88 then rwSpec 0x0000001F
     else if off % 0x100 = 0x8C then rwSpec 0xFFFF0000 else roSpec)
  else roSpec

/-- Access type of a word of a die's register space. -/
def regSpec (off : Nat) : RegSpec :=
  if off < 0x40000 then uncoreSpec off else coreSpec ((off - 0x40000) % 0x4000)

/-- Words that are halves of read-only 64-bit registers: the low word of a pair latches the high word (R513). -/
def isWideLow (off : Nat) : Bool :=
  (regSpec off).half == 1 || off == rStkNow || off == rStkStepNext
    || (decide (off ≥ rStkCap 0) && decide (off < rStkCap 4) && off % 8 == 0)
    || off == blkID + 8 || off == rHbmRd || off == rHbmWr || off == rHltLoupeLast
    || (decide (off ≥ 0x40000) &&
        (let o := (off - 0x40000) % 0x4000
         (decide (o ≥ 0x200) && decide (o < 0x2D0) && o % 8 == 0) || o == 0x308))

/-- A reserved encoding written to a field is ignored and the field keeps its value (R7): the reserved encodings of the
register words that have any. -/
def keepReserved (off : Nat) (old new : Word) : Word :=
  if off ≥ 0x40000 then
    let o := (off - 0x40000) % 0x4000
    if o = 0 then (if fld new 8 8 = 0 then setFld new 8 8 (fld old 8 8) else new)
    else if o = 0x18 then (if fld new 0 5 < 4 ∨ fld new 0 5 > 15 then setFld new 0 5 (fld old 0 5) else new)
    else new
  else if off = rStkCapCtl then
    let f := fun (w : Word) (n : Nat) => if fld w (4 * n) 3 = 7 then setFld w (4 * n) 3 (fld old (4 * n) 3) else w
    f (f (f (f new 0) 1) 2) 3
  else if off = rHbmQos then (List.range 10).foldl (fun w k => if fld w (2 * k) 2 = 0 then setFld w (2 * k) 2 (fld old (2 * k) 2) else w) new
  else if off = rHbmTherm then
    let a := if fld new 8 8 < 80 ∨ fld new 8 8 > 89 then setFld new 8 8 (fld old 8 8) else new
    if fld a 24 8 < 95 ∨ fld a 24 8 > 105 then setFld a 24 8 (fld old 24 8) else a
  else if off = rAsyCfg then
    let a := if fld new 0 8 < 1 ∨ fld new 0 8 > 168 then setFld new 0 8 (fld old 0 8) else new
    let b := if fld a 8 8 = 0 then setFld a 8 8 (fld old 8 8) else a
    if fld b 16 8 = 0 then setFld b 16 8 (fld old 16 8) else b
  else if off ≥ rHltLoupeWin 0 ∧ off < rHltLoupeWin 8 then
    (if bitAt new 8 ∧ fld new 0 8 > 63 then setFld new 0 8 (fld old 0 8) else new)
  else if off = rHltHangCfg then (if fld new 0 8 < 2 then old else new)
  else if off = rHltResetCtl then
    let a := if fld new 28 3 = 0 ∨ fld new 28 3 > 4 then setFld new 28 3 (fld old 28 3) else new
    let b := if fld a 8 6 > 47 then setFld a 8 6 (fld old 8 6) else a
    if fld b 0 2 = 3 then setFld b 0 2 (fld old 0 2) else b
  else if off = rEccScrub then (if fld new 0 8 < 6 ∨ fld new 0 8 > 168 then setFld new 0 8 (fld old 0 8) else new)
  else if off = rEccFlipCtl then
    (if fld new 8 4 > 4 then setFld new 8 4 (fld old 8 4) else new)
  else if off = rColAlg then
    (if fld new 0 3 = 1 ∨ fld new 0 3 = 2 ∨ fld new 0 3 = 4 then new else setFld new 0 3 (fld old 0 3))
  else if off ≥ rCmtCLo 0 ∧ off < rCmtCLo 32 ∧ off % 16 = 8 then
    (if fld new 8 4 = 0 ∨ fld new 8 4 > 8 then setFld new 8 4 (fld old 8 4) else new)
  else if off = blkBIL + 0x88 ∨ off = blkUPD + 0x88 ∨ off = blkCRU + 0x88 ∨ off = blkCOL + 0x88 ∨ off = blkTXE + 0x88
      ∨ off = blkASY + 0x88 ∨ (off ≥ blkROW ∧ off < blkROW + 0x400 ∧ off % 0x100 = 0x88) then
    (if fld new 0 5 < 4 ∨ fld new 0 5 > 15 then setFld new 0 5 (fld old 0 5) else new)
  else new

/-- Reset value of a word of the PEL and PWR blocks (R479 to R484, R503 to R511); PWR_CAP depends on the variant. -/
def pelReset (variant : Nat) (off : Nat) : Word :=
  if off = rPwrCap then (if variant = 0 then 0x1C20 else if variant = 1 then 0x0E74 else 0x076C)
  else if off = rPwrCool then 0x00FFFFFF
  else if off = rPwrLpCfg then 0x00000040
  else if off ≥ rPwrDie 0 ∧ off < rPwrDie (if variant = 0 then 8 else if variant = 1 then 4 else 2) ∧ off % 4 = 0 then
    0x0000FF00
  else 0

/-- Access type of a word of the PEL and PWR blocks. -/
def pelBlockSpec (off : Nat) : RegSpec :=
  if off = rPelAq then rwSpec 0x803FFFFF
  else if off = rPelAcq then ⟨0xFFFFFFE0, 0, 0, 0, 1⟩
  else if off = rPelAcq + 4 then ⟨0xFFFFFFFF, 0, 0, 0, 2⟩
  else if off = rPwrStatus then ⟨0, 0x00FF0000, 0, 0, 0⟩
  else if off = rPwrCap then rwSpec 0x8000FFFF
  else if off = rPwrLpCfg then rwSpec 0x0000FFFF
  else if off = rPwrLpReq then rwSpec 0x0F0000FF
  else roSpec

end Sys2Proof.Machine
end

