-- ==== Sys2Proof/Machine/State.lean ====
section
/-! DEFINITION. The state of one module as plain data, the reasons a step can stop, and the state after reset. -/

namespace Sys2Proof.Machine

/-! ### Memory -/

/-- What a protection word holds besides its intended data (R302 to R306, R317): nothing, the poison pattern, inverted data bits (the
low 64 of them in an SRAM word) and check bits, or, in an HBM line, the poison pattern with such bits. -/
inductive Mark where
  | clean
  | poison
  | err (data : BitVec 512) (check : BitVec 32)
  | poisonErr (data : BitVec 512) (check : BitVec 32)
deriving DecidableEq, Repr

/-- Bytes by address and marks by protection word, both sparse; an unlisted byte reads 0 and an unlisted word is clean. -/
structure Mem where
  cells : List (Nat × BitVec 8)
  marks : List (Nat × Mark)
deriving DecidableEq, Repr

def Mem.empty : Mem := ⟨[], []⟩

/-! ### Records and queues -/

/-- One event log entry (R43). -/
structure LogEntry where
  stamp : DWord
  source : Endpoint
  event : BitVec 16
  status : BitVec 8
  gen : BitVec 8
  sent : Option DWord
  detail : DWord
deriving DecidableEq, Repr

/-- A completion record before its PHASE bit is known (R91). -/
structure Completion where
  stamp : DWord
  tag : BitVec 16
  status : BitVec 8
  cflags : BitVec 8
  kind : BitVec 8
  source : Endpoint
  hallmark : Word
  job : BitVec 12
  epoch : BitVec 8
  gen : BitVec 8
  step : Word
  detail : Word
  irq : Bool
deriving DecidableEq, Repr

/-- A descriptor waiting in a command queue: the stroke at whose boundary it was released, if it has been, whether
one of its words is poisoned (R302), whether its step was aborted while it waited for the Crucible (R253), and whether Pelbex firmware
or the health controller pushed it, so that its accesses are test accesses (R317). -/
structure QEntry where
  ident : Nat
  desc : Desc
  released : Option Stroke
  poison : Bool
  aborted : Bool
  fw : Bool
deriving DecidableEq, Repr

/-- A stationary operand (R110, R112, R119): its format, whether it is a diagonal, KLEN and NCOLS of its LOAD, the bytes
and poison marks of each column (of the one row, for a diagonal), and the source that a sliced MUL reads its later pairs
from. -/
structure Stationary where
  fmt : Fmt
  diag : Bool
  klen : Nat
  ncols : Nat
  cols : List (List Byte × List Bool)
  src : BoardAddr
  pitch : Nat
deriving DecidableEq, Repr

/-- A chunk sum as the drain holds it: its value, the exponent it was aligned to, and whether the output is poisoned. -/
structure MxSum where
  val : Fpv
  lead : Option Int
  bad : Bool
deriving DecidableEq, Repr

/-- A matrix instruction that streams (R120): the stationary it swapped in or found active; the tiles that have gone through the drain;
the slice pairs of B that the current tile has, column by column, and the columns that the last tile was fed against; the mask of
every row, the rows fed so far and their sums; the parity errors and upsets so far; and what it has written, as the columns (first
and count) whose failure poisons it, its place and its bytes (R131). -/
structure MulRun where
  ident : Nat
  st : Stationary
  tile : Nat
  got : List (List (List Byte × List Bool))
  cols : List (List Byte × List Bool)
  on : List (List (Bool × Bool))
  fed : List (Nat × List Byte × List Bool)
  sums : List (Nat × List (Option MxSum))
  parity : List (Nat × Nat)
  ups : List Upset
  outs : List (Nat × Nat × BoardAddr × List Byte)
deriving DecidableEq, Repr

/-- What a matrix instruction whose hallmark fails still has to do once its writes are acknowledged (R125, R131): the stationary it
streamed against, for the snapshot, and the bytes of its bank entries and outputs that the failing columns poison. -/
structure MxTail where
  st : Stationary
  outs : List (BoardAddr × List Byte)
deriving DecidableEq, Repr

/-- A command that has started: how many rows it has completed (DETAIL of R101), the conversion flags and statuses it has
collected, the hallmark and DETAIL its record will carry, whether only acknowledgements are still awaited, the stroke
in which a bounded wait began (R103), what a failed hallmark leaves to do, the tags that the dies a Crucible command needs had when
it started (R253), whether its accesses are test accesses (R317), and COL_ALG as it stood at the start (R391). -/
structure Running where
  ident : Nat
  desc : Desc
  released : Stroke
  started : Stroke
  poison : Bool
  rows : Nat
  flags : BitVec 8
  stats : List Nat
  hall : Word
  detail : Word
  acking : Bool
  waitFrom : Option Stroke
  tail : Option MxTail
  gens : List (BitVec 8)
  fw : Bool
  alg : Word
deriving DecidableEq, Repr

/-- The claim of a queue window (R86). -/
structure Claim where
  issuer : Issuer
  bytes : Desc
  written : Nat
  stroke : Stroke
  poison : Bool
deriving DecidableEq, Repr

/-- A write to a queue window that is held there (R86). -/
structure WindowWrite where
  issuer : Issuer
  off : Nat
  data : List Byte
  poison : Bool
deriving DecidableEq, Repr

/-- A command queue (R85): waiting entries, pushes held while it is full, running commands, records to be written, the
window's claim and the writes held at it, and the number the next entry takes. -/
structure CmdQueue where
  entries : List QEntry
  backlog : List QEntry
  running : List Running
  done : List Completion
  claim : Option Claim
  held : List WindowWrite
  nextIdent : Nat
deriving DecidableEq, Repr

def CmdQueue.empty : CmdQueue := ⟨[], [], [], [], none, [], 0⟩

/-- A request to another module that has no reply yet, or whose reply waits to be used (R101, R103, R413). -/
structure Outstanding where
  tag : Nat
  queue : Nat
  ident : Nat
  write : Bool
  addr : BoardAddr
  len : Nat
  sent : Stroke
  target : Endpoint
  gen : BitVec 8
  reply : Option (List Byte × List Bool)
deriving DecidableEq, Repr

/-! ### The stroke timer -/

/-- The stroke timer beside its registers (R29 to R35): number and cycle, the signed change of the current stroke's
length, consecutive boundaries above the phase limit, complete strokes since the last frame of the master that is followed and
whether one came in this stroke, the number that the current stroke has by those frames if it differs, the master in force and
whether it is the backup, the last phase error (positive: this timer runs ahead), whether it was measured in this stroke and by
the STROKE_IN pulse, what the frames of this stroke measured, by how much the pulse differed from them when both last came in one
stroke (R30), whether a relocking stroke runs (R33), whether the number has wrapped and Pelbex has yet to count it, whether Pelbex has
counted a wrap that is still to come here (R44), and throttle notices not yet in force. -/
structure Timer where
  stroke : Stroke
  cycle : BitVec 24
  stretch : Int
  overLimit : Nat
  silent : Nat
  frameSeen : Bool
  incoming : Option Stroke
  master : BitVec 14
  masterBackup : Bool
  phase : Int
  measured : Bool
  pulse : Bool
  framePhase : Option Int
  check : Option Int
  relocking : Bool
  wrapped : Bool
  wrapDone : Bool
  notices : List (Stroke × BitVec 2)
deriving DecidableEq, Repr

/-! ### Cores -/

/-- What the running kernel's next instruction waits for, if it was held: the accumulator bank, as a scalar or a vector access
(R84, R168), or matrix commands or space in the queue (R77, R136). -/
inductive Stall where
  | no
  | bank
  | vector
  | queue
deriving DecidableEq, Repr

/-- The control processor (R75, R79, R80): `bad` marks the g registers whose word is poisoned (R302); and what holds its next
instruction. -/
structure Proc where
  running : Bool
  waitStroke : Bool
  stopped : Bool
  pc : DWord
  g : Vector DWord 32
  bad : BitVec 32
  xcause : DWord
  xpc : DWord
  xaddr : DWord
  fpctl : DWord
  stall : Stall
deriving DecidableEq, Repr

/-- The vector unit and the predicates (R141 to R148); f registers are the low 64 bits of the vector registers (R143). -/
structure Vec where
  v : Vector (BitVec 4096) 32
  poison : Vector (BitVec 64) 32
  p : Vector (BitVec 512) 8
  span : Nat
  vstat : DWord
deriving DecidableEq, Repr

/-- The matrix array (R111, R112, R120, R123): shadow (absent is empty), active stationary, the hidden chunk counter of each bank
line, and the instruction that streams. -/
structure MxArray where
  shadow : Option Stationary
  active : Option Stationary
  chunks : List (Nat × Nat)
  run : Option MulRun
deriving DecidableEq, Repr

/-- A stash entry that a matrix drain has popped (R184, R190): the instruction, the entry's format, its rows with their
poison marks, and the table or the saved-output formula that applies. -/
structure Drain where
  ident : Nat
  fmt : Fmt
  rows : List (List Byte × List Bool)
  table : Option Nat
  formula : Nat
deriving DecidableEq, Repr

/-- One core (R15): its queue, processor, vector unit, array, stochastic-rounding generator with a pending reseed, the
idle-cause counters with their snapshot (R102, R538), how many instructions its kernels have retired (R404), which engines are fenced, the generation tags of the core and its
engines (array, vector, DMA), whether it is in recovery, and the matrix commands that its kernel pushed (R136). -/
structure Core where
  queue : CmdQueue
  proc : Proc
  vec : Vec
  arr : MxArray
  gen : Gen
  reseed : Bool
  idle : Vector DWord 10
  snap : Vector DWord 10
  snapStamp : DWord
  retired : Nat
  fenceArr : Bool
  fenceVec : Bool
  tagCore : BitVec 8
  tagEng : Vector (BitVec 8) 3
  recovering : Bool
  pushed : List Nat
  firstBad : BitVec 8
  drain : Option Drain
deriving DecidableEq, Repr

/-! ### Dies -/

/-- A DATA frame that waits for its acknowledgement (R337). -/
structure Retained where
  seq : BitVec 16
  vc : Nat
  msg : Msg
  retries : Nat
deriving DecidableEq, Repr

/-- What a peer's HELLO says (R346). -/
structure HelloInfo where
  serial : DWord
  module : BitVec 14
  die : Nat
  port : Nat
  variant : Nat
  table : Word
  period : Nat
  lanes : Nat
  buffer : Nat
  primary : BitVec 14
  backup : BitVec 14
deriving DecidableEq, Repr

/-- One link of a port beside the port's registers (R336 to R346); every port has one, port 0 of a WRK-M2-1T die has two (R328): sequence numbers, messages to send by virtual channel, the retain
buffer, credit held from the peer and credit granted to it (VC 0 to 3 and the pool), freed space to return, the frames
sent on the medium, the progress of discovery, times of downs in µs, whether a training failure has been logged, and the cause of the
DOWN_LIMIT or CHECK disable that LNK_PCTL.DISABLE covers, 0 for none (R348, R358). -/
structure Port where
  nextSeq : BitVec 16
  lastAcc : BitVec 16
  sendq : List (Nat × Msg)
  retain : List Retained
  credit : Vector Nat 5
  granted : Vector Nat 5
  freed : Vector Nat 5
  tx : List (List Byte)
  hello : Option HelloInfo
  echoes : List Nat
  sentAccept : Bool
  gotAccept : Bool
  downs : List Nat
  failLogged : Bool
  under : Nat
deriving DecidableEq, Repr

/-- A peer of a job that the die exchanges data with directly (R42): complete strokes without a frame, whether one came in
the current stroke, and whether it has been declared absent. -/
structure Peer where
  job : BitVec 12
  endpoint : Endpoint
  silent : Nat
  seen : Bool
  absent : Bool
deriving DecidableEq, Repr

/-- A reset in progress (R407): its domain, cause, the tag before it, where its capture lies, whether the capture was
truncated, whether it ends in a fence in any case (R438), and the records of the commands it discarded. -/
structure ResetRun where
  dom : Domain
  cause : Nat
  gen : BitVec 8
  capture : Nat
  trunc : Bool
  toFence : Bool
  discarded : List (QId × Completion)
deriving DecidableEq, Repr

/-- A loupe capture (R411): its offset in region 0x00, its header bytes, and the control state of the cores it covers. -/
structure Capture where
  off : Nat
  header : List Byte
  cores : List (CoreIx × Core)
deriving DecidableEq, Repr

/-- The HBM controllers beside their registers (R277 to R294): postponed refreshes by pseudo-channel (R286), channels in
power-down, the service class of waiting requests by queue entry (R279), the values that HBM_QOS had, newest first, each with the time until which it
was in force (R297), failed
temperature readings in a row, stacks whose wrapper the test port owns (R292), the stamp of the last phase update (R282), the wrapper
operation in progress, the number of bad lanes in each lane group, stack × 64 + bit of HBM_STK_LANE (R283), and by bank the open row, plus
one, and the activates since its last refresh management (R279, R287). -/
structure HbmCtl where
  postponed : List (Nat × Nat)
  powerDown : BitVec 64
  waiting : List (Nat × Nat)
  qosWas : List (Word × Nat)
  tempFails : Vector Nat 4
  testPort : BitVec 4
  phaseAt : DWord
  wrapper : Option (BitVec 8 × Nat)
  lanes : List (Nat × Nat)
  openRows : List (Nat × Nat)
  acts : List (Nat × Nat)
deriving DecidableEq, Repr

/-- A window of a row engine's side memory (R192): the context, layer and block of 1,024 rows it is bound to, the valid bit
and the statistics of each row, rows whose word is poisoned, and when it was last used. -/
structure RowWin where
  ctx : Nat
  layer : Nat
  block : Nat
  valid : BitVec 1024
  stats : List (Nat × DWord)
  bad : BitVec 1024
  used : Nat
deriving DecidableEq, Repr

/-- An open gradient bucket (R198): its job and number, its range in the die's HBM, its format, SAT mark, count of line
accumulations, and once a close has arrived that close's ident and the writing commands that it awaits (R200). -/
structure Bucket where
  job : BitVec 12
  num : Nat
  base : Nat
  bytes : Nat
  fmt : Fmt
  sat : Bool
  lines : Nat
  closing : Option (Nat × List (DieIx × QId × Nat))
deriving DecidableEq, Repr

/-- The resident factors of a structure slot (R234): the unknowns in pivot order, row by row the entries below the diagonal of the unit
lower factor, row by row the upper factor from its diagonal on, which holds the pivots as R234 leaves them; FP64 words. `bad`: a
poisoned value entered them (R314). -/
structure Factors where
  order : List Nat
  lower : List (List Nat)
  upper : List (List Nat)
  bad : Bool
deriving DecidableEq, Repr

def Factors.none : Factors := ⟨[], [], [], false⟩

/-- What a Krylov method keeps of one column between iterations (R240): residual, search direction and ρ of conjugate gradients; the
iterate that a GMRES cycle starts from, its residual norm, its basis and the columns of its Hessenberg matrix. -/
structure Krylov where
  res : List Nat
  dir : List Nat
  rho : Nat
  base : List Nat
  beta : Nat
  basis : List (List Nat)
  hess : List (List Nat)
deriving DecidableEq, Repr

/-- A structure slot beside CRU_SLOT_STATE (R224, R225, R239): the job that filled it, its home die and DIEMASK, its store
(offset in region 0x00 and bytes), the fingerprint, the retained solution (its right-hand sides, 0 for none, and its columns),
the schedule image as it was loaded, and the resident factors. -/
structure CruSlot where
  job : BitVec 12
  home : Nat
  mask : Nat
  store : Nat
  bytes : Nat
  finger : BitVec 128
  solRhs : Nat
  sol : List Byte
  image : List Byte
  fac : Factors
deriving DecidableEq, Repr

/-- A running interior-point step (R247): the iterate (x, y, z) it starts from, the residuals r_p and r_d, its direction, the right-hand side
and the solution of its last solve with the factors, μ, σ, α_p and α_d, all as FP64 words. -/
structure IpmRun where
  start : List Nat
  rp : List Nat
  rd : List Nat
  dir : List Nat
  rhs : List Nat
  sol : List Nat
  mu : Nat
  sigma : Nat
  alphaP : Nat
  alphaD : Nat
deriving DecidableEq, Repr

/-- A running solve kind on its home die (R223, R230, R235, R242): its command, slot, DIEMASK and the tags its dies had at the
start; the start stroke, the cutoff and the guard band; right-hand sides, RTOL_EXP, and the most iterations; the classes still
to run (the head runs), the phases of that class still to run, the running phase with its first stroke, its open tasks and the
dies whose completion frame is missing, and the stroke in which the last phase completed; whether the closing classes run and
whether they are done; iterations run; the best iterate of each column (its components and ω), the last iterate, column after column,
and its ω; whether a first iterate exists; OUTCOME; the columns that are returned in place of an iterate; whether a warm start was accepted, and
its columns; ‖A‖; regularised pivots; whether a task consumed poison, which columns did; collected statuses; whether it stops
at the next boundary; the arrays (die, core) to fence at its end (R439); the right-hand sides, column after column; the forward solution of
ADJOINT and its poisoned columns (R245); whether a value was poisoned (R314); an interior-point step; what class 5 writes into the
result block (R238, R248); the norm of the matrix that the solve inverts, ‖Aᵀ‖ for ADJOINT (R245); what a Krylov method keeps of each column
(R240); and of each returned column the residual that class 5 formed and the one it is compared with (R237, R435). -/
structure CruRun where
  ident : Nat
  slot : Nat
  mask : Nat
  gens : List (BitVec 8)
  start : Stroke
  deadline : Nat
  cutoff : Nat
  nrhs : Nat
  rtol : Nat
  iterMax : Nat
  classes : List Nat
  todo : List Nat
  phase : Option Nat
  began : Stroke
  tasks : List Nat
  frames : Nat
  ready : Option Stroke
  closing : Bool
  done : Bool
  iters : Nat
  best : List (List Nat × DWord)
  cur : List Nat
  last : List DWord
  first : Bool
  outcome : Option (BitVec 8)
  fallback : Option (List Nat)
  warm : Option (List Nat)
  anorm : DWord
  nreg : Nat
  poison : Bool
  badCols : List Bool
  stats : List Nat
  stop : Bool
  fences : List (Nat × Nat)
  rhs : List Nat
  fwd : List Nat
  fwdBad : List Bool
  valBad : Bool
  ipm : IpmRun
  cols : List Byte
  opnorm : DWord
  krylov : List Krylov
  res3 : List (List Nat)
  res5 : List (List Nat)
deriving DecidableEq, Repr

/-- What a die keeps beside the registers of a commit context (R267 to R269, R377): the first status of a command of the step
that does not let it vote YES, UPDATE commands completed since the arm, whether a notice came; the verdict it holds with its cause;
at the root or backup: the votes of the attempt, the root's decision that waits for the backup, and the verdicts kept (step,
attempt, YES, cause); while UNDECIDED: complete strokes without an answer, whether one came in this stroke, whether the backup is
asked, and whether the lack of both is reported; the buckets of the attempt that an ALLREDUCE has named, with the tables it named (base and
chunks), the first fault of its chunks, and whether the layout epoch changed between the arm and the commit stroke (R401). -/
structure Commit where
  badStatus : Nat
  updates : Nat
  notice : Bool
  held : Option (Bool × BitVec 8)
  votes : List (Endpoint × Bool × BitVec 8)
  decision : Option (Bool × BitVec 8)
  kept : List (Word × BitVec 8 × Bool × BitVec 8)
  silent : Nat
  answered : Bool
  toBackup : Bool
  reported : Bool
  buckets : List Nat
  finished : List Nat
  tables : List (Nat × Nat)
  chunkBad : Nat
  relaid : Bool
deriving DecidableEq, Repr

def Commit.reset : Commit := ⟨0, 0, false, none, [], none, [], 0, false, false, false, [], [], [], 0, false⟩

/-- A chunk of a running ALLREDUCE (R368 to R372, R375): whether the own contribution has been quantised; where the member
sums the chunk: the inputs that have come, the contributions they cover, the sum of their SUM fields, the largest EMAX, SAT, NAN and
poison marks, whether an input failed or is missing, whether the sum has been passed on, whether its failure has been counted; at the owner: the proposals for an
unset scale and their largest EMAX; and the result: 0 awaited, 1 written, 2 failed, 3 missing. -/
structure RedChunk where
  own : Bool
  inputs : List Nat
  cover : Nat
  sums : Nat
  emax : Option Int
  sat : Bool
  nan : Bool
  poison : Bool
  failed : Bool
  missing : Bool
  summed : Bool
  counted : Bool
  props : List Nat
  propMax : Option Int
  got : Nat
deriving DecidableEq, Repr

def RedChunk.start : RedChunk := ⟨false, [], 0, 0, none, false, false, false, false, false, false, false, [], none, 0⟩

/-- A running ALLREDUCE (R367, R379): its command, context, bucket and group entry; the members and the own index; tree or direct, and
the forwarding degree; the strokes of D_C and D_R; its chunks; what its record will say: failing checks and their largest
deviation, saturation, poison. -/
structure RedRun where
  ident : Nat
  ctx : Nat
  job : BitVec 12
  bucket : Nat
  group : Nat
  members : List Endpoint
  my : Nat
  tree : Bool
  deg : Nat
  dc : Nat
  dr : Nat
  chunks : List RedChunk
  fails : Nat
  dev : Nat
  sat : Bool
  poison : Bool
deriving DecidableEq, Repr

/-- A running ALLGATHER or BROADCAST (R372, R373): its command, bucket and group; members, own index, degree; the stroke of D_R; the
senders whose shards it expects, and the pieces that have come (sender, offset, whether good); poison, whether its group entry was
poisoned, and failing checks. -/
structure GatherRun where
  ident : Nat
  ctx : Nat
  job : BitVec 12
  bucket : Nat
  group : Nat
  members : List Endpoint
  my : Nat
  deg : Nat
  dr : Nat
  len : Nat
  dst : Nat
  step : Nat
  shards : List Nat
  pieces : List (Nat × Nat × Bool)
  poison : Bool
  taint : Bool
  fails : Nat
deriving DecidableEq, Repr

/-- A running DISPATCH or COMBINE (R384 to R389): its command and group; members and own index; the stroke of D_R; the
exchange record, the expert table (owner, local, cap) and the routes as read at the start; as owner: the counts by source, whether
the grants are out; the grants known, as (expert owner, source, local, OFF, ACCEPTED); the ranges it expects (local, member,
bytes) and what has come of them (local, member, offset, bytes); the plan's entry of each slot once known; whether the plan is
written; poison, whether a word that steers the exchange was poisoned, and failing checks. -/
structure TxRun where
  ident : Nat
  ctx : Nat
  job : BitVec 12
  group : Nat
  members : List Endpoint
  my : Nat
  dr : Nat
  combine : Bool
  replay : Bool
  record : List Byte
  table : List (Nat × Nat × Nat)
  routes : List Nat
  counts : List (Nat × List Nat)
  granted : Bool
  grants : List (Nat × Nat × Nat × Nat × Nat)
  expect : List (Nat × Nat × Nat)
  rows : List (Nat × Nat × Nat × Nat)
  slots : List (Option Nat)
  planned : Bool
  poison : Bool
  taint : Bool
  fails : Nat
deriving DecidableEq, Repr

/-- A snapshot in a quarantine slot (R436): the record's index, its slot, core and job, what its LOAD gave (format, diagonal,
columns, KLEN), and the digests of a passing replay once there is one. -/
structure Snap where
  index : Nat
  slot : Nat
  core : Nat
  job : BitVec 12
  fmt : Fmt
  diag : Bool
  ncols : Nat
  klen : Nat
  digests : List Word
deriving DecidableEq, Repr

/-- A running TOUCHSTONE (R446): its command, the stroke it began in, its named cores not yet tested, and each tested core's
tests run, failures, first failing word, class and flags. -/
structure Touch where
  ident : Nat
  start : Stroke
  todo : List Nat
  results : List (Nat × Nat × Nat × Word × Nat × Bool)
deriving DecidableEq, Repr

/-- A running ASSAY_PASS: its command, start, the units left, failures and the number of the first failing unit. -/
structure PassRun where
  ident : Nat
  start : Stroke
  left : List AssayUnit
  fails : Nat
  first : Nat
deriving DecidableEq, Repr

/-- The health controller's assay beside its registers (R437, R440 to R446): cores lent or claimed with the stroke at which that
ends (`none`: with the command), uncore engines lent, the units that run before any other (R438), the units covered in the current pass, when each unit last ran (timebase
cycles), when STARVED was last reported, the snapshots, and the running command. -/
structure Assay where
  lends : List (Nat × Option Stroke)
  lentUncore : BitVec 16
  urgent : List AssayUnit
  covered : List AssayUnit
  lastRun : List (AssayUnit × Nat)
  starvedAt : Option Nat
  snaps : List Snap
  touch : Option Touch
  pass : Option PassRun
deriving DecidableEq, Repr

def Assay.reset : Assay := ⟨[], 0, [], [], [], none, [], none, none⟩

/-- A quarantine record that awaits its class (R436, R437): its index in the log, its core, its slot (0xFF for none), the
stroke of the mismatch, and whether its cores are claimed at the next boundary. -/
structure Replay where
  index : Nat
  core : Nat
  slot : Nat
  since : Stroke
  claim : Bool
deriving DecidableEq, Repr

/-- What the health controller sees of the work of a unit that can hang (R404): its running commands with their requests, the
instructions retired by its core, and how far the collective engines, the Crucible sequencer and the health queue have come. -/
structure Progress where
  runs : List Running
  reqs : List Outstanding
  retired : Nat
  reds : List RedRun
  gathers : List GatherRun
  exchanges : List TxRun
  solve : Option CruRun
  touch : Option Touch
  pass : Option PassRun
deriving DecidableEq, Repr

/-- A unit with pending work (R404): its progress as the last boundary found it, and the complete strokes in a row in which nothing of
that changed. -/
structure Watch where
  unit : HungUnit
  seen : Progress
  strokes : Nat
deriving DecidableEq, Repr

/-- One Mevor die; `drains` are the drain pops that wait at the billet stack controller in the order of their arrival (R182): core,
command and context; `returning` marks the job contexts whose commit state Pelbex restores after a die reset (R416), `watch` is what the health
controller knows of the units that can hang (R404), `discards` counts the messages that R335 discards at their destination, and `map` is the die's board map, a
bit for each slot that is populated (R349). -/
structure Die where
  regs : List (Nat × BitVec 32)
  latched : List (Issuer × Nat × Word)
  heldLow : List (Issuer × Nat × Word)
  held : Bool
  timer : Timer
  log : List LogEntry
  logNext : Nat
  uq : Vector CmdQueue 10
  cores : Vector Core 48
  outstanding : List Outstanding
  nextReq : Nat
  genUpd : Gen
  genBkt : Gen
  genCol : Gen
  lbArmed : BitVec 10
  rowAge : Vector Nat 16
  rowNext : Nat
  writeBacks : List Nat
  scrubPos : Nat
  ports : Vector Port 8
  inbox : List Msg
  routeUp : BitVec 7
  peers : List Peer
  resets : List ResetRun
  captures : List Capture
  captureNext : Nat
  announced : List (Nat × BitVec 8)
  hbm : HbmCtl
  rowWins : Vector (List RowWin) 4
  rowClock : Nat
  buckets : List Bucket
  tables : List (Nat × List Byte)
  reseedUpd : Bool
  reseedBkt : Bool
  reseedCol : Bool
  vetoes : BitVec 32
  slots : List (Nat × CruSlot)
  replays : List Replay
  solve : Option CruRun
  commits : List (Nat × Commit)
  reds : List RedRun
  gathers : List GatherRun
  exchanges : List TxRun
  early : List Msg
  colTurn : Nat
  txeTurn : Nat
  notices : List (BitVec 12)
  assay : Assay
  returning : BitVec 32
  drains : List (CoreIx × Nat × Nat)
  watch : List Watch
  discards : Nat
  map : BitVec 4
deriving DecidableEq, Repr

/-! ### The module -/

/-- A reason Pelbex firmware is interrupted for (R87, R291, R310). -/
inductive Irq where
  | completion (d : DieIx) (queue : Nat) (tag : BitVec 16)
  | ecc (d : DieIx) (n : Nat)
  | trip (d : DieIx) (stack : Nat) (temp : Nat)
deriving DecidableEq, Repr

/-- What fuses, straps and pins fix (R13, R118, R312, R458, R463, R475, R502, R517 to R522): the physical row that an array's spare
replaces, each die's ECC_FUSE_REPAIRS, the digests of the Rennum keys, the
fused security version, the owner key slots (a digest once enrolled, and whether it is revoked) and the device secret. -/
structure Fuses where
  variant : Nat
  dieStepping : BitVec 8
  pelStepping : BitVec 8
  serial : DWord
  dieSerial : Vector DWord 8
  slotPins : BitVec 3
  fwKeys : List (BitVec 256)
  svn : Nat
  owners : List (Option (BitVec 256) × Bool)
  secret : BitVec 256
  spareRows : List (DieIx × CoreIx × Fin 128)
  spares : Vector Word 8
deriving DecidableEq, Repr

/-- One entry of the installation table (R345). -/
structure TableEntry where
  serial : DWord
  module : BitVec 14
  rack : Nat
  chassis : Nat
  tray : Nat
  slot : Nat
  variant : Nat
  strokeDelay : Nat
  boardNb : List (BitVec 24)
  optNb : List (BitVec 24)
deriving DecidableEq, Repr

/-- The configuration image in force (R460): stroke period in µs, headroom, time masters, and the installation table. -/
structure Settings where
  period : Nat
  headroom : Nat
  primary : BitVec 14
  backup : BitVec 14
  tableId : Word
  table : List TableEntry
  repeatMax : Nat
deriving DecidableEq, Repr

/-- The module's part in the board (R350): whether the module is board master and drives STROKE_OUT, complete strokes without presence from a lower slot, and whether one came in this stroke. -/
structure Board where
  master : Bool
  driving : Bool
  silent : Nat
  seenLower : Bool
deriving DecidableEq, Repr

/-- The boot flash (R456): its bytes where they are not erased (boot records, identity, images); and the device-written areas by
content: escalation counters as (domain key, time in µs) (R417), the fence list as domain keys (R419), the die fences' times (R418),
the repair records (R313: die and row log word), and the touchstone library (R440): its entries with the place where each begins, the
next place and the oldest erase block, all counted from the first entry ever written. -/
structure Flash where
  cells : List (Nat × BitVec 8)
  repairs : List (Nat × DWord)
  escalations : List (Nat × Nat)
  fences : List Nat
  dieFences : List Nat
  outOfService : Bool
  library : List (Nat × List Byte)
  libNext : Nat
  libBlock : Nat
deriving DecidableEq, Repr

/-- A plan that the runtime runs for a job (R473, R474): the host queue and command that await it, its place and steps, the steps
committed, the first stroke of the running step, whether that is the first attempt of the plan's first step, the layout change that
it makes (epoch and change stroke, with whether it has been written), and the member list and stash size it brings. -/
structure PlanRun where
  queue : Nat
  ident : Nat
  place : BoardAddr
  steps : Nat
  done : Nat
  start : Option Stroke
  first : Bool
  epoch : Option (Nat × Nat)
  members : Option (List Endpoint)
  stash : Option Nat
  poison : Bool
deriving DecidableEq, Repr

/-- A job as Pelbex keeps it (R472): its members by endpoint identifier, the job context, the dies of this module that it runs on, its
billet stack contexts, the range of HBM allocated to it on each of those dies, stash size, GAP, row geometry, the tensor kinds
stored as WB6, its plan and the plan that replaces it, and the scale tables (die, place, chunks) that its plans have named. -/
structure Job where
  job : BitVec 12
  members : List Endpoint
  ctx : Nat
  dies : List DieIx
  bils : List Nat
  low : Nat
  top : Nat
  stash : Nat
  gap : Nat
  rowsK : Nat
  layers : Nat
  wb6 : Nat
  plan : Option PlanRun
  next : Option PlanRun
  tables : List (Nat × Nat × Nat)
deriving DecidableEq, Repr

/-- What the boot that is in force has established (R458 to R463): the image booted, the digests of its sections, the owner fuse slot
that signed its configuration, the REGISTERS entries (offset, value, DIEMASK) that Pelbex keeps in SRAM, and whether the module is
stand-alone. -/
structure BootInfo where
  image : Nat
  fwDigest : List Byte
  cfgDigest : List Byte
  owner : Option Nat
  regs : List (Nat × Word × Nat)
  standalone : Bool
deriving DecidableEq, Repr

def BootInfo.reset : BootInfo := ⟨0, [], [], none, [], true⟩

/-- A record that a module warm reset has yet to write once the die is back (R94): the entry of the ring as it stood before the reset,
its PHASE, and whether the record bears the time of the return. -/
structure LostRec where
  die : DieIx
  entry : BoardAddr
  phase : Bool
  restamp : Bool
  record : Completion
deriving DecidableEq, Repr

/-- A module warm reset in progress (R407 to R410): its cause, dies whose hung reset it absorbed with the offsets of their captures,
which are fenced once it completes (R418), and the records of the commands it discarded, each with the ring entry and the PHASE bit
that the ring had for it before the reset (R94). -/
structure Warm where
  cause : Nat
  fences : List (DieIx × Nat)
  lost : List LostRec
deriving DecidableEq, Repr

/-- The power stage and the power and thermal manager beside the PWR registers (R485 to R502): the pins PWR_EN, THROT_N low
and MOD_RESET_N low, standby and main rails, PWRGOOD, the undervoltage request, coolant requests (T1, T3), junction
requests of each die (bit k − 1 for Tk), failed readings in a row by sensor, good evaluations in a row (R491), the step last
announced to each die and the notices on their way, idle strokes of each die (R493), the I3C register offset and the
words that the target returned last, and dies whose rails a trip removed. -/
structure Power where
  pwrEn : Bool
  throtLow : Bool
  modResetLow : Bool
  standby : Bool
  rails : Bool
  pwrgood : Bool
  underVolt : Bool
  cool : BitVec 2
  junction : Vector (BitVec 3) 8
  fails : List (Nat × Nat)
  capGood : Nat
  announced : Vector (BitVec 2) 8
  notices : List (DieIx × BitVec 2 × Stroke)
  idle : Vector Nat 8
  i3cOff : BitVec 16
  i3cOut : List Word
  railsOff : BitVec 8
deriving DecidableEq, Repr

/-- A host command that Pelbex runs or holds (R470, R471). -/
structure HostCmd where
  ident : Nat
  desc : Desc
  poison : Bool
deriving DecidableEq, Repr

/-- A host queue (R468 to R470): whether it is enabled, its sizes, the host address and vector of its completion queue, the
engine queue it is bound to (`none`: Pelbex), the indices HEAD and TAIL of its ring and the consumer and producer indices of
its completion queue, the commands consumed but not started and those running, the records held for the completion queue,
the events lost since the last EVENTS_LOST, and records that still lie in the bound engine's ring because the hold is full. -/
structure HostQ where
  enabled : Bool
  sqLog : Nat
  cqLog : Nat
  base : Nat
  vector : Nat
  target : Option (DieIx × QId)
  head : Nat
  tail : Nat
  cqHead : Nat
  cqTail : Nat
  entries : List HostCmd
  running : List HostCmd
  nextIdent : Nat
  hold : List Completion
  lost : Nat
  ringed : List Completion
deriving DecidableEq, Repr

def HostQ.reset : HostQ := ⟨false, 0, 0, 0, 0, none, 0, 0, 0, 0, [], [], 0, [], 0, []⟩


/-- The whole state of the module: its dies, its memories (region 0, 1 and 3 of every die under the low 50 bits of the
board address), the host's memory, the Pelbex registers, what is fixed by fuses and pins, interrupts raised to Pelbex, the
number of free values drawn, the Pelbex error log, the Pelbex registers as the last capture of a module warm reset took them (R411), the logs and captures
that it collected before A3 (R467, R496), and the commands that wait. -/
structure State where
  dies : Vector Die 8
  mem : Mem
  host : Mem
  pelRegs : List (Nat × BitVec 32)
  fuses : Fuses
  irqs : List Irq
  draws : Nat
  settings : Settings
  board : Board
  flash : Flash
  jobs : List Job
  power : Power
  hostQs : Vector HostQ 64
  eventSeq : Nat
  msix : List Nat
  boot : BootInfo
  warm : Option Warm
  pelLog : List LogEntry
  pelCapture : List (Nat × BitVec 32)
  collected : List (DieIx × List LogEntry × List Capture)
  pending : List Instr
deriving DecidableEq, Repr

/-- Why the machine stops. -/
inductive Fault where
  /-- Raised by every command that names a die which the variant does not populate (R13); such a die does not exist, so no
  effect is given. Safe: the model stops. -/
  | absentDie (d : Nat)
deriving DecidableEq, Repr

/-- Why a command has no meaning. -/
inductive Refusal where
  /-- Raised by an arm of `exec` that has no meaning yet; safe. -/
  | notModelled (mnemonic : String)
deriving DecidableEq, Repr

/-! ### Reset -/

def Timer.reset : Timer := ⟨0, 0, 0, 0, 0, false, none, 0, false, 0, false, false, none, none, false, false, false, []⟩

def Proc.reset : Proc := ⟨false, false, false, 0, Vector.replicate 32 0, 0, 0, 0, 0, 0, .no⟩

def Vec.reset : Vec := ⟨Vector.replicate 32 0, Vector.replicate 32 0, Vector.replicate 8 0, 512, 0⟩

def MxArray.reset : MxArray := ⟨none, none, [], none⟩

/-- A generator at power-on: seeded from the fuses (R64). -/
def Gen.power (d g : Nat) : Gen := ⟨d * 64 + g, Config.fuseSeed d g, true, 0⟩

def Core.reset (d c : Nat) : Core :=
  ⟨CmdQueue.empty, Proc.reset, Vec.reset, MxArray.reset, Gen.power d c, false, Vector.replicate 10 0,
    Vector.replicate 10 0, 0, 0, false, false, 0, Vector.replicate 3 0, false, [], 0, none⟩

def Port.reset : Port :=
  ⟨0, 0xFFFF, [], [], Vector.replicate 5 0, Vector.replicate 5 0, Vector.replicate 5 0, [], none, [], false, false, [], false, 0⟩

def Die.reset (d : Nat) : Die :=
  { regs := []
    latched := []
    heldLow := []
    held := true
    timer := Timer.reset
    log := []
    logNext := 0
    uq := Vector.replicate 10 CmdQueue.empty
    cores := Vector.ofFn (fun c : Fin 48 => Core.reset d c)
    outstanding := []
    nextReq := 0
    genUpd := Gen.power d 48
    genBkt := Gen.power d 49
    genCol := Gen.power d 50
    lbArmed := 0x3FF
    rowAge := Vector.replicate 16 0
    rowNext := 0
    writeBacks := []
    scrubPos := 0
    ports := Vector.replicate 8 Port.reset
    inbox := []
    routeUp := 0
    peers := []
    resets := []
    captures := []
    captureNext := 0x7E10000000
    announced := []
    hbm := ⟨[], 0, [], [], Vector.replicate 4 0, 0, 0, none, [], [], []⟩
    rowWins := Vector.replicate 4 []
    rowClock := 0
    buckets := []
    tables := []
    reseedUpd := false
    reseedBkt := false
    reseedCol := false
    vetoes := 0
    slots := []
    replays := []
    solve := none
    commits := []
    reds := []
    gathers := []
    exchanges := []
    early := []
    colTurn := 0
    txeTurn := 0
    notices := []
    assay := Assay.reset
    returning := 0
    drains := []
    watch := []
    discards := 0
    map := 0
  }

def Fuses.reset : Fuses :=
  { variant := 0
    dieStepping := 0
    pelStepping := 0
    serial := 0
    dieSerial := Vector.replicate 8 0
    slotPins := 4
    fwKeys := [0, 0]
    svn := 0
    owners := List.replicate 4 (none, false)
    secret := 0
    spareRows := []
    spares := Vector.replicate 8 0
  }

/-- Before an image is read: the built-in configuration (R459), period 16 µs, headroom 15 and an empty table. -/
def Settings.reset : Settings :=
  { period := 16
    headroom := 15
    primary := 0
    backup := 0
    tableId := 0
    table := []
    repeatMax := 8
  }

def Flash.reset : Flash :=
  { cells := []
    repairs := []
    escalations := []
    fences := []
    dieFences := []
    outOfService := false
    library := []
    libNext := 0
    libBlock := 0
  }

/-- Power at reset: before PWR_EN rises (R485); no rail is up and nothing is requested. -/
def Power.reset : Power :=
  { pwrEn := false
    throtLow := false
    modResetLow := false
    standby := false
    rails := false
    pwrgood := false
    underVolt := false
    cool := 0
    junction := Vector.replicate 8 0
    fails := []
    capGood := 0
    announced := Vector.replicate 8 0
    notices := []
    idle := Vector.replicate 8 0
    i3cOff := 0
    i3cOut := []
    railsOff := 0 }


/-- The module right after power-on reset: every register at its reset value, the dies held in reset until boot releases
them (R462), nothing in memory and no command waiting. -/
def State.reset : State :=
  { dies := Vector.ofFn (fun d : Fin 8 => Die.reset d)
    mem := Mem.empty
    host := Mem.empty
    pelRegs := []
    fuses := Fuses.reset
    irqs := []
    draws := 0
    settings := Settings.reset
    board := ⟨false, false, 0, false⟩
    flash := Flash.reset
    jobs := []
    power := Power.reset
    hostQs := Vector.replicate 64 HostQ.reset
    eventSeq := 0
    msix := []
    boot := BootInfo.reset
    warm := none
    pelLog := []
    pelCapture := []
    collected := []
    pending := [] }

end Sys2Proof.Machine
end

