-- ==== Sys2Proof/Machine/Ops.lean ====
section
/-! DEFINITION. The named operations over dies, registers, the event log, the counters and the memories. -/

namespace Sys2Proof.Machine

/-! ### Parts of the state -/

def State.die (s : State) (d : DieIx) : Die := s.dies[d]

def State.setDie (s : State) (d : DieIx) (x : Die) : State := { s with dies := s.dies.set d x }

def State.modDie (s : State) (d : DieIx) (f : Die → Die) : State := s.setDie d (f (s.die d))

def Die.core (x : Die) (c : CoreIx) : Core := x.cores[c]

def Die.setCore (x : Die) (c : CoreIx) (y : Core) : Die := { x with cores := x.cores.set c y }

def State.core (s : State) (d : DieIx) (c : CoreIx) : Core := (s.die d).core c

def State.setCore (s : State) (d : DieIx) (c : CoreIx) (y : Core) : State := s.modDie d (fun x => x.setCore c y)

def State.modCore (s : State) (d : DieIx) (c : CoreIx) (f : Core → Core) : State := s.setCore d c (f (s.core d c))

/-- Number of Mevor dies that the variant populates (R13). -/
def State.dieCount (s : State) : Nat := if s.fuses.variant = 0 then 8 else if s.fuses.variant = 1 then 4 else 2

def State.present (s : State) (d : DieIx) : Bool := decide (d.val < s.dieCount)

/-- The populated dies. -/
def State.allDies (s : State) : List DieIx := (List.finRange 8).filter s.present

/-- Run a command on a die: an absent die does not exist (R13), and a die held in reset does nothing. -/
def onDie (d : DieIx) (s : State) (k : State → State) : Host.Outcome State Fault Refusal :=
  if s.present d then (if (s.die d).held then .next s else .next (k s)) else .fault (.absentDie d)

/-! ### Registers -/

/-- The stored word of a register (R512); status views are computed in Registers. -/
def State.reg (s : State) (d : DieIx) (off : Nat) : Word := SMap.get (dieReset off) (s.die d).regs off

def Die.setReg (x : Die) (off : Nat) (v : Word) : Die := { x with regs := SMap.set (dieReset off) x.regs off v }

def State.setReg (s : State) (d : DieIx) (off : Nat) (v : Word) : State := s.modDie d (fun x => x.setReg off v)

def State.modReg (s : State) (d : DieIx) (off : Nat) (f : Word → Word) : State := s.setReg d off (f (s.reg d off))

/-- Field [lo+len−1:lo] of a register. -/
def State.rf (s : State) (d : DieIx) (off lo len : Nat) : Nat := fld (s.reg d off) lo len

def State.setRf (s : State) (d : DieIx) (off lo len v : Nat) : State := s.modReg d off (fun w => setFld w lo len v)

/-- A 64-bit register: the low word at off, the high word at off + 4 (R513). -/
def State.reg64 (s : State) (d : DieIx) (off : Nat) : DWord := s.reg d (off + 4) ++ s.reg d off

def State.setReg64 (s : State) (d : DieIx) (off : Nat) (v : DWord) : State :=
  (s.setReg d off (v.setWidth 32)).setReg d (off + 4) ((v >>> 32).setWidth 32)

/-- A counter field that grows by k and saturates at its largest value. -/
def State.addSat (s : State) (d : DieIx) (off lo len k : Nat) : State :=
  s.setRf d off lo len (min (s.rf d off lo len + k) (2 ^ len - 1))

/-- A word of the PEL and PWR blocks. -/
def State.preg (s : State) (off : Nat) : Word := SMap.get (pelReset s.fuses.variant off) s.pelRegs off

def State.setPreg (s : State) (off : Nat) (v : Word) : State :=
  { s with pelRegs := SMap.set (pelReset s.fuses.variant off) s.pelRegs off v }

def State.pf (s : State) (off lo len : Nat) : Nat := fld (s.preg off) lo len

def State.setPf (s : State) (off lo len v : Nat) : State := s.setPreg off (setFld (s.preg off) lo len v)

/-- Counts of the Pelbex error log (R483): 24 RWL, 16 SERVICE, 8 DOORBELL, 0 EVENT_DROP; each saturates at 0xFF. -/
def State.pelCount (s : State) (lo : Nat) : State := s.setPf rPelErr lo 8 (min (s.pf rPelErr lo 8 + 1) 255)

/-- The n-th free value of the state, and the state after it is drawn. -/
def State.free (s : State) : DWord := Config.freeBits s.draws
def State.drawFree (s : State) : State := { s with draws := s.draws + 1 }

/-! ### Identity, time and the event log -/

/-- The module number that discovery published (R351). -/
def State.moduleNo (s : State) (d : DieIx) : Nat := s.rf d rLnkStatus 0 14

/-- Endpoint identifier of a core of a die, or of its uncore engines with core 63 (R22). -/
def State.endpoint (s : State) (d : DieIx) (core : Nat) : Endpoint :=
  BitVec.ofNat 23 (s.moduleNo d * 512 + d.val * 64 + core)

/-- The current time stamp (R8). -/
def State.stamp (s : State) (d : DieIx) : DWord := (s.die d).timer.stroke ++ (s.die d).timer.cycle

def State.stroke (s : State) (d : DieIx) : Stroke := (s.die d).timer.stroke

/-- Generation tag of the die (R412, R421). -/
def State.dieGen (s : State) (d : DieIx) : BitVec 8 := BitVec.ofNat 8 (s.rf d rHltStatus 0 8)

/-- Entries that the event log ring holds (R43). -/
def logCapacity : Nat := 32768

/-- Write an entry into the ring (R43): a full ring loses its oldest entry. -/
def Die.addLog (x : Die) (e : LogEntry) : Die :=
  { x with log := (if x.log.length < logCapacity then x.log else x.log.tail) ++ [e], logNext := (x.logNext + 1) % logCapacity }

/-- Write an event log entry (R43, R539). -/
def State.logFrom (s : State) (d : DieIx) (src : Endpoint) (gen : BitVec 8) (code status : Nat) (detail : Nat)
    (sent : Option DWord) : State :=
  s.modDie d (fun x =>
    x.addLog ⟨s.stamp d, src, BitVec.ofNat 16 code, BitVec.ofNat 8 status, gen, sent, BitVec.ofNat 64 detail⟩)

/-- An event log entry of the die's uncore. -/
def State.logEvent (s : State) (d : DieIx) (code status detail : Nat) : State :=
  s.logFrom d (s.endpoint d 63) (s.dieGen d) code status detail none

/-- An event log entry that a message caused (R43). -/
def State.logCaused (s : State) (d : DieIx) (m : Msg) (code status detail : Nat) : State :=
  s.logFrom d (s.endpoint d 63) (s.dieGen d) code status detail (some m.stamp)

/-- The last n entries of the log carry the stamp of the message that caused them (R43). -/
def stampLog (l : List LogEntry) (n : Nat) (stamp : DWord) : List LogEntry :=
  l.take (l.length - n) ++ (l.drop (l.length - n)).map (fun e => { e with sent := e.sent <|> some stamp })

/-- The entries that a message's effect has logged since the log's next place was `from0` carry the message's stamp (R43). -/
def State.causedBy (s : State) (d : DieIx) (from0 : Nat) (m : Msg) : State :=
  s.modDie d (fun x => { x with log := stampLog x.log ((x.logNext + logCapacity - from0) % logCapacity) m.stamp })

def State.raise (s : State) (i : Irq) : State := { s with irqs := s.irqs ++ [i] }

/-- The 32 bytes of a completion record (R91). -/
def Completion.bytes (r : Completion) (phase : Bool) : List Byte :=
  leBytes 8 r.stamp.toNat ++ leBytes 2 r.tag.toNat ++ leBytes 1 r.status.toNat ++ leBytes 1 r.cflags.toNat
    ++ leBytes 4 (r.source.toNat + r.kind.toNat * 2 ^ 24) ++ leBytes 4 r.hallmark.toNat
    ++ leBytes 2 (r.job.toNat + (if phase then 2 ^ 15 else 0)) ++ leBytes 1 r.epoch.toNat ++ leBytes 1 r.gen.toNat
    ++ leBytes 4 r.step.toNat ++ leBytes 4 r.detail.toNat

/-! ### The host's completion queues (R92, R469, R476, R477) -/

def State.hostQ (s : State) (q : Fin 64) : HostQ := s.hostQs[q]
def State.setHostQ (s : State) (q : Fin 64) (x : HostQ) : State := { s with hostQs := s.hostQs.set q x }

def HostQ.full (x : HostQ) : Bool := decide ((x.cqTail + 65536 - x.cqHead) % 65536 ≥ 2 ^ x.cqLog)

/-- Whether the PCIe link is up (R482). -/
def State.pcieUp (s : State) : Bool := decide (s.pf rPelPcie 24 4 ≠ 0)

/-- Bytes in the host's memory. -/
def State.pokeHost (s : State) (a : Nat) (bs : List Byte) : State :=
  { s with host := ⟨(bs.zipIdx).foldl (fun cs p => SMap.set 0 cs (a + p.2) p.1) s.host.cells, s.host.marks⟩ }

/-- Write the oldest held record to its completion queue and raise its vector (R469); `none` when it has to wait. -/
def State.writeCq (s : State) (q : Fin 64) : Option State :=
  let x := s.hostQ q
  match x.hold with
  | [] => none
  | r :: rs =>
    if !x.enabled ∨ x.full ∨ !s.pcieUp then none
    else
      let phase := decide (x.cqTail / 2 ^ x.cqLog % 2 = 0)
      let s1 := s.pokeHost (x.base + 32 * (x.cqTail % 2 ^ x.cqLog)) (r.bytes phase)
      let s2 := s1.setHostQ q { x with hold := rs, cqTail := (x.cqTail + 1) % 65536 }
      some (if r.irq then { s2 with msix := s2.msix ++ [x.vector] } else s2)

def State.flushCqN (s : State) (q : Fin 64) : Nat → State
  | 0 => s
  | n + 1 =>
    match s.writeCq q with
    | none => s
    | some t => t.flushCqN q n

/-- An EVENT record (R476): sequence number in TAG, type and data in DETAIL; it raises the vector of CQ 0. -/
def State.eventRecord (s : State) (d : DieIx) (src : Endpoint) (status : Nat) (job : BitVec 12) (epoch : BitVec 8) (step hall : Word)
    (type data : Nat) : Completion :=
  { stamp := s.stamp d, tag := BitVec.ofNat 16 s.eventSeq, status := BitVec.ofNat 8 status, cflags := 0, kind := 0xFF, source := src
    hallmark := hall, job := job, epoch := epoch, gen := s.dieGen d, step := step
    detail := BitVec.ofNat 32 (type * 2 ^ 24 + data % 2 ^ 24), irq := true }

/-- Write what can be written; once there is space again, EVENTS_LOST follows (R469). -/
def State.flushCq (s : State) (q : Fin 64) : State :=
  let t := s.flushCqN q ((s.hostQ q).hold.length + 1)
  let x := t.hostQ q
  if x.lost ≠ 0 ∧ x.hold.length < 4096 then
    let r := t.eventRecord 0 0 0 0 0 0 0 12 x.lost
    ({ t.setHostQ q { x with hold := x.hold ++ [r], lost := 0 } with eventSeq := t.eventSeq + 1 }).flushCqN q 1
  else t

/-- Hand a record to a completion queue: it is held while the queue is full, up to 4,096 records; an event beyond that is
dropped and counted. -/
def State.postCq (s : State) (q : Fin 64) (r : Completion) : State :=
  let x := s.hostQ q
  if x.hold.length < 4096 then (s.setHostQ q { x with hold := x.hold ++ [r] }).flushCq q
  else (s.pelCount 0).setHostQ q { x with lost := x.lost + 1 }

/-- An event for the host (R476). -/
def State.hostEvent (s : State) (d : DieIx) (src : Endpoint) (status : Nat) (job : BitVec 12) (epoch : BitVec 8) (step hall : Word)
    (type data : Nat) : State :=
  ({ s with eventSeq := s.eventSeq + 1 }).postCq 0 (s.eventRecord d src status job epoch step hall type data)

/-- An event that concerns no job. -/
def State.unitEvent (s : State) (d : DieIx) (src : Endpoint) (type data : Nat) : State := s.hostEvent d src 0 0 0 0 0 type data

/-- The 32 bytes of an event log entry (R43). -/
def LogEntry.bytes (e : LogEntry) : List Byte :=
  leBytes 8 e.stamp.toNat
    ++ leBytes 4 (e.source.toNat + (if e.sent.isSome then 2 ^ 31 else 0))
    ++ leBytes 2 e.event.toNat ++ leBytes 1 e.status.toNat ++ leBytes 1 e.gen.toNat
    ++ leBytes 8 (e.sent.getD 0).toNat ++ leBytes 8 e.detail.toNat

/-- The byte at an offset of the service region's event log ring (R43, R541): slot i holds entry i of those ever written, modulo the
ring's size, and zero where none was. -/
def Die.logByte (x : Die) (off : Nat) : Byte :=
  let age := (x.logNext + logCapacity - 1 - off / 32 % logCapacity) % logCapacity
  match x.log.reverse[age]? with
  | some e => byteAt e.bytes (off % 32)
  | none => 0

/-- A write that a register ignores and logs: code 0x0203 with the register's offset and the reason (R539). -/
def State.logIgnored (s : State) (d : DieIx) (off reason : Nat) : State :=
  s.logEvent d 0x0203 0 (off % 2 ^ 20 + reason * 2 ^ 20)

/-! ### Addresses (R16 to R20) -/

structure Loc where
  slot : Nat
  die : Nat
  region : Nat
  off : Nat
deriving DecidableEq, Repr

def locOf (a : BoardAddr) : Loc :=
  ⟨fld a 50 2, fld a 47 3, fld a 39 8, fld a 0 39⟩

def Loc.addr (l : Loc) : BoardAddr :=
  BitVec.ofNat 52 (l.slot * 2 ^ 50 + l.die * 2 ^ 47 + l.region * 2 ^ 39 + l.off)

/-- Key of a byte of this module's memories. -/
def memKey (die region off : Nat) : Nat := die * 2 ^ 47 + region * 2 ^ 39 + off

def spBase (c : Nat) : Nat := 0x0100000000 + c * 0x01000000
def bankBase (c : Nat) : Nat := 0x0100800000 + c * 0x01000000

/-- Whether n bytes from an offset lie in one mapped part of a region (R19, R20, R512); region 0x03 is checked against
the slot's store in addition (R226). -/
def mapped (region off n : Nat) : Bool :=
  if region = 0 then decide (off + n ≤ 2 ^ 39)
  else if region = 1 then
    decide (off + n ≤ 0x03000000) ||
    (decide (off ≥ 0x0100000000) &&
      (let c := (off - 0x0100000000) / 0x01000000
       let o := (off - 0x0100000000) % 0x01000000
       decide (c < 48) &&
        (decide (o + n ≤ 0x00400000) || (decide (o ≥ 0x00800000) && decide (o + n ≤ 0x00900000)))))
  else if region = 2 then decide (off + n ≤ 0x100000)
  else if region = 3 then decide (off + n ≤ 2 ^ 39)
  else false

/-- The module's own slot (R502). -/
def State.slot (s : State) : Nat := fld s.fuses.slotPins 0 2

/-- Whether an offset range touches the service region (R18). -/
def inService (region off n : Nat) : Bool := decide (region = 0) && decide (off + n > 0x7E00000000)

/-- Protection word size of a region (R302). -/
def wordSize (region : Nat) : Nat := if region = 0 then 64 else 8

/-! ### Stored-data protection (R302 to R311) -/

/-- Number of set bits. -/
def popcount {w : Nat} (x : BitVec w) : Nat := ((List.range w).filter (fun i => x.getLsbD i)).length

/-- Index of the lowest set bit, w when none is set. -/
def lowBit {w : Nat} (x : BitVec w) : Nat := ((List.range w).find? (fun i => x.getLsbD i)).getD w

/-- What a read finds (R304): class 0 clean, 1 corrected, 2 uncorrectable, 3 poison, with symbols and position (R325). -/
structure Found where
  cls : Nat
  symbols : Nat
  pos : Nat
deriving DecidableEq, Repr

/-- Symbol n of an HBM line (R302): of the data, the 8 beats of lane n mod 32 in burst n / 32, each beat 4 bytes of the line; of the
check bits, 8 in a row. -/
def symbolBad (dm : BitVec 512) (cm : BitVec 32) (n : Nat) : Bool :=
  if n < 64 then (List.range 8).any (fun b => dm.getLsbD (256 * (n / 32) + 32 * b + n % 32)) else decide (fld cm (8 * (n - 64)) 8 ≠ 0)

/-- The symbols of a line in error. -/
def badSymbols (dm : BitVec 512) (cm : BitVec 32) : List Nat := (List.range 68).filter (symbolBad dm cm)

/-- What a line reads as where the flipped bits form no pattern that the manual decides: a free class, and free fields where it is
corrected. -/
def foundFree (dm : BitVec 512) (cm : BitVec 32) : Found :=
  let k := (Config.eccCorner dm cm).toNat
  let h := Config.hbmSymbols dm cm
  if k = 1 then ⟨1, fld h 0 1 + 1, fld h 1 7 % 68⟩ else ⟨k, 0, 0⟩

/-- What a SEC-DED word with three or more flipped bits reads as (R303). Every column of the code has odd weight, and a check bit's
column is that bit: an even number of flips gives an even syndrome, zero or uncorrectable; an odd number an odd one, which is a column,
none, or the poison pattern. Which of them it is stays free but where only check bits have flipped, whose syndrome they are. -/
def foundWord (dm : BitVec 512) (cm : BitVec 32) : Found :=
  let k := (Config.eccCorner dm cm).toNat
  if (popcount dm + popcount cm) % 2 = 0 then (if dm ≠ 0 ∧ k % 2 = 0 then ⟨0, 0, 0⟩ else ⟨2, 0, 0⟩)
  else if k = 1 then ⟨1, 1, fld (Config.hbmSymbols dm cm) 0 7 % 72⟩
  else if k = 3 ∧ dm ≠ 0 then ⟨3, 0, 0⟩ else ⟨2, 0, 0⟩

/-- The outcome of a read of a word with a mark (R302 to R304). An HBM line is corrected in up to two symbols; with the poison pattern it
reads as poison with up to one symbol in error. A SEC-DED word is corrected in one bit; the inverted pattern 0x07 is poison; two bits, or
the poison pattern with one bit more, are uncorrectable. -/
def found (hbm : Bool) (m : Mark) : Found :=
  match m with
  | .clean => ⟨0, 0, 0⟩
  | .poison => ⟨3, 0, 0⟩
  | .poisonErr dm cm => if (badSymbols dm cm).length ≤ 1 then ⟨3, 0, 0⟩ else foundFree dm cm
  | .err dm cm =>
    let n := popcount dm + popcount cm
    if n = 0 then ⟨0, 0, 0⟩
    else if hbm then
      match badSymbols dm cm with
      | [] => ⟨0, 0, 0⟩
      | [a] => ⟨1, 1, a⟩
      | [a, _] => ⟨1, 2, a⟩
      | _ => foundFree dm cm
    else if dm = 0 ∧ cm.setWidth 8 = 0x07#8 then ⟨3, 0, 0⟩
    else if n = 1 then ⟨1, 1, if dm = 0 then 64 + lowBit cm else lowBit dm⟩
    else if n = 2 ∨ popcount dm + popcount (cm ^^^ 7) = 1 then ⟨2, 0, 0⟩
    else foundWord dm cm

/-- A word's mark after further data and check bits have flipped (R303). -/
def flipMark (hbm : Bool) (m : Mark) (data : BitVec 512) (check : BitVec 32) : Mark :=
  let zero := fun (a : BitVec 512) (b : BitVec 32) => decide (a = 0) && decide (b = 0)
  match m with
  | .clean => if zero data check then .clean else .err data check
  | .err d0 c0 => if zero (d0 ^^^ data) (c0 ^^^ check) then .clean else .err (d0 ^^^ data) (c0 ^^^ check)
  | .poison => if zero data check then .poison else if hbm then .poisonErr data check else .err data (check ^^^ 7)
  | .poisonErr d0 c0 => if zero (d0 ^^^ data) (c0 ^^^ check) then .poison else .poisonErr (d0 ^^^ data) (c0 ^^^ check)

/-- Stack, pseudo-channel in the stack and row of an HBM offset (R278). -/
def hbmStack (off : Nat) : Nat := ((off / 2 ^ 8 % 128).xor (off / 2 ^ 15 % 128)) / 32
def hbmPc (off : Nat) : Nat := ((off / 2 ^ 8 % 128).xor (off / 2 ^ 15 % 128)) % 32
def hbmBank (off : Nat) : Nat := (off / 2 ^ 17 % 32).xor (off / 2 ^ 22 % 32)
def hbmRow (off : Nat) : Nat := off / 2 ^ 22 % 2 ^ 17

/-- The leaky bucket that counts corrected errors of a word (R309); region 0xFF stands for the row engines' side memories. -/
def correctedCounter (region off : Nat) : Nat :=
  if region = 0 then hbmStack off
  else if region = 0xFF then 4 + off / 2 ^ 20
  else if off < 0x03000000 then 8
  else 4 + (off - 0x0100000000) / 0x01000000 / 12

/-- Count an error event of leaky bucket n at an address (R309, R310). -/
def State.eccEvent (s : State) (d : DieIx) (n : Nat) (addr : Nat) : State :=
  let s1 := (s.addSat d (rEccLbLevel n) 0 8 1).addSat d (rEccLbTotal n) 0 32 1
  let thresh := s1.rf d (rEccLbCfg n) 0 8
  let before := s.rf d (rEccLbLevel n) 0 8
  let after := s1.rf d (rEccLbLevel n) 0 8
  if thresh ≠ 0 ∧ before < thresh ∧ after = thresh then
    let s2 := (s1.modReg d rEccStatus (fun w => setBit w n true)).logEvent d 0x0702 0 (n + addr * 256)
    if bitAt (s.die d).lbArmed n then
      ((s2.modDie d (fun x => { x with lbArmed := setBit x.lbArmed n false })).raise (.ecc d n)).unitEvent d (s.endpoint d 63) 4 n
    else s2
  else s1

/-- Row log word of a line (R278, R327). -/
def rowWord (off : Nat) : Nat :=
  hbmStack off * 2 ^ 50 + hbmPc off * 2 ^ 45 + hbmBank off * 2 ^ 40 + hbmRow off

/-- Offset of granule g of the row that a row log word names: the inverse of R278. -/
def granule (w : DWord) (g : Nat) : Nat :=
  let row := fld w 0 17
  let hi := ((fld w 40 5).xor (row % 32)) * 4 + g
  row * 2 ^ 22 + hi * 2 ^ 15 + ((fld w 45 7).xor hi) * 2 ^ 8

/-- The fields of a row log entry that name the row: stack, pseudo-channel, SID, bank group, bank, row. -/
def rowIdent (w : DWord) : Nat := fld w 40 12 * 2 ^ 17 + fld w 0 17

/-- Update the row log with an error in the line at an HBM offset (R311). -/
def State.rowLog (s : State) (d : DieIx) (off : Nat) (unc : Bool) : State :=
  let word := BitVec.ofNat 64 (rowWord off)
  let entry := fun (e : Nat) => s.reg64 d (rEccRowlog e)
  let fresh : DWord := setFld (setFld (setBit word 63 true) 54 8 1) 62 1 (if unc then 1 else 0)
  match (List.range 16).find? (fun e => bitAt (entry e) 63 && decide (rowIdent (entry e) = rowIdent word)) with
  | some e =>
    let w := entry e
    let w1 := setFld w 54 8 (min (fld w 54 8 + 1) 255)
    s.setReg64 d (rEccRowlog e) (if unc then setBit w1 62 true else w1)
  | none =>
    let put := fun (e : Nat) =>
      (s.setReg64 d (rEccRowlog e) fresh).modDie d
        (fun x => { x with rowAge := x.rowAge.setIfInBounds e x.rowNext, rowNext := x.rowNext + 1 })
    match (List.range 16).find? (fun e => !bitAt (entry e) 63) with
    | some e => put e
    | none =>
      let weak := (List.range 16).filter (fun e => !bitAt (entry e) 62 && decide (fld (entry e) 54 8 = 1))
      match weak with
      | [] => s.modReg d rEccStatus (fun w => setBit w 25 true)
      | e :: es =>
        let age := fun (k : Nat) => (s.die d).rowAge.getD k 0
        put (es.foldl (fun b k => if age k < age b then k else b) e)

/-- Whose access it is: the die that issues it, its job, and whether it is a test access of Pelbex firmware or the health
controller (R317, R318). -/
structure Access where
  die : DieIx
  job : BitVec 12
  test : Bool
deriving DecidableEq, Repr

/-- Place of ECC_FLIP_DATA in an HBM line: bits [5:3] of the address choose the 64-bit word. -/
def State.flipShift (s : State) (d : DieIx) : Nat :=
  if s.rf d rEccFlipCtl 8 4 = 0 then 64 * fld (s.reg64 d rEccFlipAddr) 3 3 else 0

/-- Key of the flip-mask word (R317, R323); bits [5:3] of an HBM address only choose the word within the line. -/
def State.flipKey (s : State) (d : DieIx) : Nat :=
  let o := fld (s.reg64 d rEccFlipAddr) 0 39
  let off := if s.rf d rEccFlipCtl 8 4 = 0 then o / 64 * 64 else o
  let t := s.rf d rEccFlipCtl 8 4
  let i := s.rf d rEccFlipCtl 0 6
  match t with
  | 0 => memKey d 0 off
  | 1 => memKey d 1 (spBase i + off)
  | 2 => memKey d 1 (bankBase i + off)
  | 3 => memKey d 1 off
  | _ => memKey d 0xFF (i * 2 ^ 20 + off)

/-- Address of a word for log entries (R539): its board address, or for a word of a side memory the number of that memory and the
word's index in it. -/
def State.boardOf (s : State) (key : Nat) : Nat :=
  s.slot * 2 ^ 50 + (if key / 2 ^ 39 % 256 = 0xFF then key / 2 ^ 39 * 2 ^ 39 + 2 ^ 33 + key % 2 ^ 20 / 8 else key)

/-- ECC_TEST_RESULT of a test read (R318, R325). -/
def State.testRead (s : State) (d : DieIx) (f : Found) : State :=
  s.setReg d rEccTest (BitVec.ofNat 32 (f.cls * 2 ^ 30 + f.symbols * 2 ^ 16 + (if f.cls = 1 then f.pos else 0)))

/-- A read of one word with a mark: counting, logging and the test result (R304, R318). A test read of the armed word counts in no
leaky bucket and not in the row log; its log entry and its write-back stay. -/
def State.readWord (s : State) (a : Access) (d : DieIx) (region key : Nat) (m : Mark) : State :=
  let f := found (decide (region = 0)) m
  let off := key % 2 ^ 39
  let test := a.test && decide (key = s.flipKey d)
  let t := if test then s.testRead d f else s
  if f.cls = 1 then
    let u := if test then t else t.eccEvent d (correctedCounter region off) (s.boardOf key)
    if region = 0 ∧ !test then u.rowLog d off false else u
  else if f.cls = 2 then
    let u := (if test then t else t.eccEvent d 9 (s.boardOf key)).logEvent d 0x0701 0 ((if a.test then 0 else a.job.toNat) * 2 ^ 52 + s.boardOf key)
    (if region = 0 ∧ !test then u.rowLog d off true else u).modDie d (fun x => { x with writeBacks := x.writeBacks ++ [key] })
  else if f.cls = 3 then t.addSat d rEccPoison 0 32 1
  else t

/-- Marked words that n bytes from a key touch. -/
def State.marksIn (s : State) (region key n : Nat) : List (Nat × Mark) :=
  let ws := wordSize region
  if n = 0 then [] else s.mem.marks.filter (fun p => decide (p.1 + ws > key) && decide (p.1 < key + n))

def bad (hbm : Bool) (m : Mark) : Bool := decide ((found hbm m).cls ≥ 2)

/-- What a read of memory gives: the bytes, a poison mark for each, and the state after it. -/
structure ReadOut where
  bytes : List Byte
  poison : List Bool
  state : State

/-- Bytes as stored, without the effects of reading. -/
def State.peek (s : State) (key n : Nat) : List Byte := (List.range n).map (fun i => SMap.get 0 s.mem.cells (key + i))

/-- A poison mark for each of n bytes. -/
def State.poisonOf (s : State) (region key n : Nat) : List Bool :=
  let ms := (s.marksIn region key n).filter (fun p => bad (decide (region = 0)) p.2)
  let ws := wordSize region
  if ms.isEmpty then List.replicate n false
  else (List.range n).map (fun i => ms.any (fun p => decide (p.1 ≤ key + i) && decide (key + i < p.1 + ws)))

/-- Of the requests that wait in a pseudo-channel's queue, without the one served next: the first of the best class (R279). -/
def served (l : List (Nat × Nat)) (pc : Nat) : List (Nat × Nat) :=
  match l.filter (fun p => decide (p.1 / 64 = pc)) with
  | [] => l
  | p :: ps => l.erase (ps.foldl (fun a b => if b.2 < a.2 then b else a) p)

/-- What an access to the granule at an HBM offset leaves at the controllers: its channel leaves power-down (R277), a request of its
pseudo-channel is served (R279), and a row that was not open is activated (R287). -/
def HbmCtl.touch (h : HbmCtl) (off : Nat) : HbmCtl :=
  let pc := hbmStack off * 32 + hbmPc off
  let bank := pc * 32 + hbmBank off
  let h1 := { h with powerDown := setBit h.powerDown (pc / 2) false, waiting := served h.waiting pc }
  if SMap.get 0 h.openRows bank = hbmRow off + 1 then h1
  else { h1 with openRows := SMap.set 0 h.openRows bank (hbmRow off + 1), acts := SMap.set 0 h.acts bank (SMap.get 0 h.acts bank + 1) }

/-- Bytes of the whole 64-byte lines that n bytes from an HBM offset touch (R276). -/
def lineBytes (off n : Nat) : Nat := if n = 0 then 0 else (off % 64 + n + 63) / 64 * 64

/-- Bytes moved at the HBM pins are counted, in whole lines (R276, R298), and every granule that they touch is accessed. -/
def State.hbmCount (s : State) (d : DieIx) (region off n reg : Nat) : State :=
  if region = 0 then
    (s.setReg64 d reg (s.reg64 d reg + BitVec.ofNat 64 (lineBytes off n))).modDie d (fun x =>
      { x with hbm := (List.range (if n = 0 then 0 else (off % 256 + n + 255) / 256)).foldl (fun h i => h.touch (off + 256 * i)) x.hbm })
  else s

/-- Bytes of the lines that n bytes from an HBM offset touch only in part: a write reads them first (R306). -/
def partBytes (off n : Nat) : Nat :=
  if n = 0 then 0
  else if off / 64 = (off + n - 1) / 64 then (if n = 64 then 0 else 64)
  else (if off % 64 = 0 then 0 else 64) + (if (off + n) % 64 = 0 then 0 else 64)

/-- Whether a test access of n bytes reads the armed word and nothing is wrong with it. -/
def State.testsClean (s : State) (a : Access) (d : DieIx) (region key n : Nat) : Bool :=
  let fk := s.flipKey d
  a.test && decide (n ≠ 0) && decide (fk + wordSize region > key) && decide (fk < key + n)
    && decide (SMap.get .clean s.mem.marks fk = .clean)

/-- Read n bytes of region 0 or 1 of a die of this module (R304); a test read of the armed word records class 0 too (R325). -/
def State.memRead (s : State) (a : Access) (d : DieIx) (region off n : Nat) : ReadOut :=
  let key := memKey d region off
  let hits := s.marksIn region key n
  let s0 := if s.testsClean a d region key n then s.testRead d ⟨0, 0, 0⟩ else s
  let s1 := hits.foldl (fun t p => t.readWord a d region p.1 p.2) s0
  ⟨s.peek key n, s.poisonOf region key n, s1.hbmCount d region off n rHbmRd⟩

/-- Write bytes into the cells. -/
def pokeCells : List (Nat × BitVec 8) → Nat → List Byte → List (Nat × BitVec 8)
  | cs, _, [] => cs
  | cs, k, b :: bs => pokeCells (SMap.set 0 cs k b) (k + 1) bs

def setMark (ms : List (Nat × Mark)) (key : Nat) (m : Mark) : List (Nat × Mark) := SMap.set .clean ms key m

/-- Words (by key) that hold a poisoned byte of a write. -/
def poisonWords (ws key : Nat) (ps : List Bool) : List Nat :=
  if ps.any id then
    (((List.range ps.length).filter (fun i => ps.getD i false)).map (fun i => (key + i) / ws * ws)).eraseDups
  else []

/-- Write bytes with a poison mark for each into region 0 or 1 of a die (R306): whole words get fresh check bits, a part
of a bad word leaves it poisoned, a poisoned byte poisons its word, and the first test write of the armed word takes the
flip (R317). -/
def State.memWrite (s : State) (a : Access) (d : DieIx) (region off : Nat) (bs : List Byte) (ps : List Bool) : State :=
  let n := bs.length
  if n = 0 then s else
    let key := memKey d region off
    let ws := wordSize region
    let hits := s.marksIn region key n
    let part := hits.filter (fun p => decide (p.1 < key) || decide (p.1 + ws > key + n))
    let badPart := part.filter (fun p => bad (decide (region = 0)) p.2)
    -- the uncorrectable read of a read-modify-write counts as R304 states
    let s1 := part.foldl (fun t p => t.readWord a d region p.1 p.2) s
    let cleared := s1.mem.marks.filter (fun p => !(decide (p.1 + ws > key) && decide (p.1 < key + n)))
    let m1 := badPart.foldl (fun ms p => setMark ms p.1 .poison) cleared
    let m2 := (poisonWords ws key ps).foldl (fun ms k => setMark ms k .poison) m1
    let fk := s.flipKey d
    let flip := a.test && bitAt (s.reg d rEccFlipCtl) 12 && decide (fk ≥ key) && decide (fk + ws ≤ key + n)
    let m3 := if flip then
        setMark m2 fk (flipMark (decide (region = 0)) (SMap.get .clean m2 fk) ((s.reg64 d rEccFlipData).setWidth 512 <<< s.flipShift d)
          (s.reg d rEccFlipChk))
      else m2
    let s2 := { s1 with mem := ⟨pokeCells s1.mem.cells key bs, m3⟩ }
    let s3 := s2.modDie d (fun x =>
      { x with writeBacks := x.writeBacks.filter (fun k => !(decide (k + ws > key) && decide (k < key + n))) })
    let s4 := if flip then s3.modReg d rEccFlipCtl (fun w => setBit (setBit w 12 false) 31 true) else s3
    let s5 := if region = 0 then s4.setReg64 d rHbmRd (s4.reg64 d rHbmRd + BitVec.ofNat 64 (partBytes off n)) else s4
    s5.hbmCount d region off n rHbmWr

/-- A word takes the poison pattern (R303). -/
def State.poisonWord (s : State) (key : Nat) : State := { s with mem := ⟨s.mem.cells, setMark s.mem.marks key .poison⟩ }

/-- A poison write-back (R304): the word takes the poison pattern, and a line of HBM is written whole (R298). -/
def State.writeBackWord (s : State) (d : DieIx) (key : Nat) : State :=
  (s.poisonWord key).hbmCount d (key / 2 ^ 39 % 256) (key % 2 ^ 39) 64 rHbmWr

/-- Every poison write-back that waits on a die takes effect (R288, R304). -/
def State.writeBackAll (s : State) (d : DieIx) : State :=
  ((s.die d).writeBacks.foldl (fun t k => t.writeBackWord d k) s).modDie d (fun x => { x with writeBacks := [] })

/-- A range of a memory holds nothing any more: it reads as memory that nothing has written. -/
def State.eraseMem (s : State) (key n : Nat) : State :=
  let out := fun (k : Nat) => !(decide (k ≥ key) && decide (k < key + n))
  { s with mem := ⟨s.mem.cells.filter (fun p => out p.1), s.mem.marks.filter (fun p => out p.1)⟩ }

/-- The bytes of a range of n bytes as its m-th loss leaves them: those that are not 0, which an unlisted address reads as. -/
def lostCells (m key n : Nat) : List (Nat × BitVec 8) :=
  ((List.range n).map (fun i => (key + i, Config.lostByte m (key + i)))).filter (fun p => decide (p.2 ≠ 0))

/-- The words of such a range whose check bits do not fit their data. -/
def lostMarks (m key n : Nat) : List (Nat × Mark) :=
  ((List.range (n / 8)).map (fun i => (key + 8 * i, Config.lostCheck m (key + 8 * i)))).filterMap (fun p =>
    if p.2 = 0 then none else some (p.1, .err 0 (p.2.setWidth 32)))

/-- Put a list of rising addresses of a range in place of what the map holds there. -/
def spliceAt {α : Type} (l new : List (Nat × α)) (key n : Nat) : List (Nat × α) :=
  l.filter (fun p => decide (p.1 < key)) ++ new ++ l.filter (fun p => decide (p.1 ≥ key + n))

/-- The content of a range of an SRAM is lost (R307, R420): it holds arbitrary data and arbitrary check bits, so that a read of a word
of it can find any of the four outcomes of R304. -/
def State.loseMem (s : State) (key n : Nat) : State :=
  { s.drawFree with mem := ⟨spliceAt s.mem.cells (lostCells s.draws key n) key n, spliceAt s.mem.marks (lostMarks s.draws key n) key n⟩ }

/-- Return register words in a range to their reset values. -/
def State.regsToReset (s : State) (d : DieIx) (lo hi : Nat) : State :=
  s.modDie d (fun x => { x with regs := x.regs.filter (fun p => decide (p.1 < lo) || decide (p.1 ≥ hi)) })

/-! ### Generation tags, fences and status codes -/

/-- Whether a core is fenced: by itself, by its quadrant or by its die (R427). -/
def State.coreFenced (s : State) (d : DieIx) (c : CoreIx) : Bool :=
  (if c.val < 32 then bitAt (s.reg d rHltFenceCore0) c.val else bitAt (s.reg d rHltFenceCore1) (c.val - 32))
    || bitAt (s.reg d rHltFenceDie) 31 || bitAt (s.reg d rHltFenceDie) (c.val / 12)

def State.dmaFenced (s : State) (d : DieIx) (c : CoreIx) : Bool :=
  s.coreFenced d c ||
    (if c.val < 32 then bitAt (s.reg d rHltFenceDma0) c.val else bitAt (s.reg d rHltFenceDma1) (c.val - 32))

def State.dieFenced (s : State) (d : DieIx) : Bool := bitAt (s.reg d rHltFenceDie) 31

/-- Status codes (R95). -/
def stOk : Nat := 0x00
def stHallmark : Nat := 0x01
def stPoison : Nat := 0x02
def stOverrun : Nat := 0x03
def stDeadline : Nat := 0x04
def stStale : Nat := 0x05
def stAborted : Nat := 0x06
def stFormat : Nat := 0x07
def stFirstFault : Nat := 0x08
def stTimeout : Nat := 0x09
def stPivot : Nat := 0x0A
def stWarm : Nat := 0x0B
def stOverflow : Nat := 0x0C
def stTag : Nat := 0x0D
def stSaturated : Nat := 0x0E
def stFenced : Nat := 0x0F
def stNoIterate : Nat := 0x10

/-- Precedence of the status codes, first wins (R96). -/
def statusOrder : List Nat :=
  [stFormat, stFenced, stStale, stAborted, stPoison, stHallmark, stFirstFault, stTimeout, stOverflow, stTag, stSaturated,
    stNoIterate, stDeadline, stWarm, stPivot, stOverrun]

/-- The status a record carries when all of `l` apply (R96). -/
def pickStatus (l : List Nat) : Nat := (statusOrder.find? (fun c => l.contains c)).getD stOk

/-- The statuses that applied but are not recorded (R96). -/
def droppedStatuses (l : List Nat) : List Nat :=
  statusOrder.filter (fun c => l.contains c && decide (c ≠ pickStatus l))

end Sys2Proof.Machine
end

