-- ==== Sys2Proof/Machine/Queue.lean ====
section
/-! DEFINITION. Descriptors, command queues, starting and completing commands, and completion records (R36, R38, R85 to
R96). -/

namespace Sys2Proof.Machine

/-! ### Descriptors (R87) -/

/-- n bytes of a descriptor from byte k, as a number. -/
def dn (d : Desc) (k n : Nat) : Nat := fld d (8 * k) (8 * n)

def dKind (d : Desc) : Nat := fld d 0 8
def dRnd (d : Desc) : Nat := fld d 8 2
def dFence (d : Desc) : Bool := bitAt d 10
def dIrq (d : Desc) : Bool := bitAt d 11
def dJob (d : Desc) : BitVec 12 := BitVec.ofNat 12 (fld d 16 12)
def dEpoch (d : Desc) : Nat := fld d 32 8
def dGen (d : Desc) : Nat := fld d 40 8
def dTag (d : Desc) : Nat := fld d 48 16
def dRelease (d : Desc) : Nat := fld d 64 40
def dStep (d : Desc) : Nat := fld d 128 32
def dAux (d : Desc) : Nat := fld d 160 32

/-- CTX and LAYER of AUX (R132, R172). -/
def dCtx (d : Desc) : Nat := fld d 176 4
def dLayer (d : Desc) : Nat := fld d 160 16

/-- The board address that payload byte k names, and whether its reserved bits are zero (R540). -/
def dAddr (d : Desc) (k : Nat) : BoardAddr := BitVec.ofNat 52 (dn d k 8)
def dAddrOk (d : Desc) (k : Nat) : Bool := decide (dn d k 8 < 2 ^ 52)

/-- The rounding mode of the header (R54). -/
def rndOf (n : Nat) : Rnd := if n = 1 then .rtz else if n = 2 then .sr else .rne

/-- A descriptor from its 64 bytes (R46). -/
def descOf (bs : List Byte) : Desc := BitVec.ofNat 512 (leNat (bs.take 64))

def descBytes (d : Desc) : List Byte := leBytes 64 d.toNat

/-! ### Queues -/

/-- Index of an uncore queue in its die. -/
def qUncore (q : QId) : Fin 10 :=
  match q with
  | .core _ => 0
  | .bil => 0
  | .upd => 1
  | .row k => ⟨2 + k.val, by omega⟩
  | .cru => 6
  | .col => 7
  | .txe => 8
  | .hlt => 9

/-- A number for each queue of a die: 0 to 47 the cores, 48 to 57 the uncore queues. -/
def qNum (q : QId) : Nat :=
  match q with
  | .core c => c.val
  | _ => 48 + (qUncore q).val

/-- Base of the completion ring registers of a queue: CR_BASE, CR_CTL at +8, CR_PTR at +12 (R92, R171, R221, R359, R445). -/
def qRing (q : QId) : Nat :=
  match q with
  | .core c => blkCORE c + 0x10
  | .bil => blkBIL + 0x80
  | .upd => blkUPD + 0x80
  | .row k => blkROW + k.val * 0x100 + 0x80
  | .cru => blkCRU + 0x80
  | .col => blkCOL + 0x80
  | .txe => blkTXE + 0x80
  | .hlt => blkASY + 0x80

def State.queue (s : State) (d : DieIx) (q : QId) : CmdQueue :=
  match q with
  | .core c => (s.core d c).queue
  | _ => (s.die d).uq[(qUncore q)]

def State.setQueue (s : State) (d : DieIx) (q : QId) (x : CmdQueue) : State :=
  match q with
  | .core c => s.modCore d c (fun k => { k with queue := x })
  | _ => s.modDie d (fun k => { k with uq := k.uq.set (qUncore q) x })

def State.modQueue (s : State) (d : DieIx) (q : QId) (f : CmdQueue → CmdQueue) : State :=
  s.setQueue d q (f (s.queue d q))

/-- All queues of a die. -/
def allQueues : List QId :=
  (List.finRange 48).map QId.core ++ [.bil, .upd, .row 0, .row 1, .row 2, .row 3, .cru, .col, .txe, .hlt]

/-- Endpoint that executes the commands of a queue (R22). -/
def State.qSource (s : State) (d : DieIx) (q : QId) : Endpoint :=
  match q with
  | .core c => s.endpoint d c.val
  | _ => s.endpoint d 63

/-- Generation tag of a quadrant (R422). -/
def State.quadGen (s : State) (d : DieIx) (k : Nat) : BitVec 8 := BitVec.ofNat 8 (s.rf d rHltGenQuad (8 * k) 8)

/-- Tag of the domain that receives a push (R87): the core, the row engine's quadrant, or the die (R412). -/
def State.recvGen (s : State) (d : DieIx) (q : QId) : BitVec 8 :=
  match q with
  | .core c => (s.core d c).tagCore
  | .row k => s.quadGen d k.val
  | _ => s.dieGen d

/-- Engine of a core command: 0 control processor, 1 DMA, 2 shadow loader, 3 feeder; every uncore queue has one (R85, R89). -/
def engineOf (q : QId) (kind : Nat) : Nat :=
  match q with
  | .core _ => if kind = 1 then 0 else if kind = 0x10 ∨ kind = 0x11 then 1 else if kind = 0x20 then 2 else 3
  | _ => 0

/-- Tag of the domain that executes a command (R91, R412). -/
def State.execGen (s : State) (d : DieIx) (q : QId) (kind : Nat) : BitVec 8 :=
  match q with
  | .core c =>
    let k := s.core d c
    let e := engineOf q kind
    if e = 0 then k.tagCore else if e = 1 then k.tagEng[2] else k.tagEng[0]
  | .row k => s.quadGen d k.val
  | _ => s.dieGen d

/-- The KIND values a queue accepts (R89, R171, R221, R359, R445). -/
def acceptsKind (q : QId) (kind : Nat) : Bool :=
  match q with
  | .core _ => [0x01, 0x10, 0x11, 0x20, 0x21, 0x22].contains kind
  | .bil => [0x80, 0x81, 0x82, 0x83, 0x84].contains kind
  | .upd => [0x70, 0x71, 0x72].contains kind
  | .row _ => [0x90, 0x91, 0x92, 0x93, 0x94, 0x95].contains kind
  | .cru => [0x40, 0x41, 0x42, 0x43, 0x44, 0x45, 0x46, 0x48].contains kind
  | .col => [0x50, 0x51, 0x52].contains kind
  | .txe => [0x60, 0x61].contains kind
  | .hlt => [0xA0, 0xA1].contains kind

/-- Whether AUX holds only what the kind allows (R87, R132, R172, R176, R205, R249, R271, R383, R389, R445). -/
def auxOk (d : Desc) : Bool :=
  let k := dKind d
  let aux := dAux d
  if [0x01, 0x10, 0x11, 0x20, 0x70, 0x83, 0x84, 0x60, 0x61, 0xA0, 0xA1].contains k then decide (aux = 0)
  else if k = 0x21 ∨ k = 0x22 then
    (if fld d (8 * 53 + 4) 4 = 0 then decide (aux = 0) else decide (aux < 2 ^ 20))
  else if k ≥ 0x90 ∧ k ≤ 0x95 then decide (aux < 2 ^ 23)
  else if k ≥ 0x40 ∧ k ≤ 0x4F then decide (aux < 64)
  else if k = 0x71 ∨ k = 0x72 then true
  else decide (aux < 2 ^ 20)

/-- Strokes from the current one to a release stroke, modulo 2⁴⁰ (R44, R88). -/
def ahead (now : Stroke) (release : Nat) : Nat := (release + 2 ^ 40 - now.toNat) % 2 ^ 40

/-- A release stroke of zero, or one that has begun (R36). -/
def isDue (now : Stroke) (release : Nat) : Bool :=
  decide (release = 0) || decide (ahead now release = 0) || decide (ahead now release ≥ 2 ^ 39)

/-- The header checks of R88 and R89. -/
def headerOk (q : QId) (now : Stroke) (d : Desc) : Bool :=
  acceptsKind q (dKind d) && decide (fld d 12 4 = 0) && decide (dRnd d ≠ 3) && decide (fld d 28 4 = 0)
    && decide (fld d 104 24 = 0) && auxOk d
    && (isDue now (dRelease d) || decide (ahead now (dRelease d) ≤ 2 ^ 20))

/-- Push a descriptor (R85, R87): byte 5 takes the receiving domain's tag; a full queue holds the push, and so does one whose domain
resets (R407). `fw` says that Pelbex firmware or the health controller pushes. -/
def CmdQueue.push (x : CmdQueue) (gen : BitVec 8) (d : Desc) (poison : Bool) (fw hold : Bool := false) : CmdQueue :=
  let e : QEntry := ⟨x.nextIdent, setFld d 40 8 gen.toNat, none, poison, false, fw⟩
  if x.entries.length < 64 ∧ x.backlog = [] ∧ !hold then
    { x with entries := x.entries ++ [e], nextIdent := x.nextIdent + 1 }
  else { x with backlog := x.backlog ++ [e], nextIdent := x.nextIdent + 1 }

/-- Held pushes enter as entries free (R85). -/
def CmdQueue.refill (x : CmdQueue) : CmdQueue :=
  let k := 64 - x.entries.length
  { x with entries := x.entries ++ x.backlog.take k, backlog := x.backlog.drop k }

/-- A die in A1 wakes on a push, a message or a remote request (R494). -/
def State.wake (s : State) (d : DieIx) : State :=
  if s.pf rPwrLpStat (2 * d.val) 2 = 1 then s.setPf rPwrLpStat (2 * d.val) 2 0 else s

/-! ### Time-stamp capture (R532, R533) -/

/-- An event of a capture source: each armed slot with that source records the stamp. -/
def State.capture (s : State) (d : DieIx) (src : Nat) : State :=
  (List.range 4).foldl (fun t n =>
    let w := t.reg d rStkCapCtl
    if bitAt w (16 + n) ∧ fld w (4 * n) 3 = src then
      (t.setReg d rStkCapCtl (setBit (setBit w (16 + n) false) (24 + n) true)).setReg64 d (rStkCap n) (t.stamp d)
    else t) s

/-! ### Completion -/

/-- What a finished command reports (R91). -/
structure Result where
  statuses : List Nat
  cflags : BitVec 8
  hallmark : Word
  detail : Word
deriving DecidableEq, Repr

def Result.ok : Result := ⟨[], 0, 0, 0⟩
def Result.err (st : Nat) : Result := ⟨[st], 0, 0, 0⟩

/-- Kinds that R38 does not judge: Crucible, reduction, token exchange, TOUCHSTONE and ASSAY_PASS. -/
def notJudged (kind : Nat) : Bool :=
  (decide (kind ≥ 0x40) && decide (kind < 0x70)) || decide (kind = 0xA0) || decide (kind = 0xA1)

def mkCompletion (s : State) (d : DieIx) (q : QId) (desc : Desc) (st : Nat) (r : Result) : Completion :=
  { stamp := s.stamp d
    tag := BitVec.ofNat 16 (dTag desc)
    status := BitVec.ofNat 8 st
    cflags := r.cflags
    kind := BitVec.ofNat 8 (dKind desc)
    source := s.qSource d q
    hallmark := r.hallmark
    job := dJob desc
    epoch := BitVec.ofNat 8 (dEpoch desc)
    gen := s.execGen d q (dKind desc)
    step := BitVec.ofNat 32 (dStep desc)
    detail := r.detail
    irq := dIrq desc }

/-- The commit context whose job is the given one (R217), if a valid one exists. -/
def State.ctxOf (s : State) (d : DieIx) (job : BitVec 12) : Option Nat :=
  (List.range 32).find? (fun k => bitAt (s.reg d (rUpdSet k)) 31 && decide (s.rf d (rUpdSet k) 0 12 = job.toNat))

/-- A matrix command that the running kernel pushed has completed (R136). -/
def notePushed (k : Core) (ident : Nat) (st : Nat) : Core :=
  if k.pushed.contains ident then
    { k with pushed := k.pushed.filter (fun i => i != ident),
             firstBad := if k.firstBad = 0 then BitVec.ofNat 8 st else k.firstBad }
  else k

/-- What a die keeps for commit context k. -/
def Die.commit (x : Die) (k : Nat) : Commit := SMap.get Commit.reset x.commits k

def State.commit (s : State) (d : DieIx) (k : Nat) : Commit := (s.die d).commit k

def State.modCommit (s : State) (d : DieIx) (k : Nat) (f : Commit → Commit) : State :=
  s.modDie d (fun x => { x with commits := SMap.set Commit.reset x.commits k (f (x.commit k)) })

/-- Step that a context works on (R360). -/
def State.stepOf (s : State) (d : DieIx) (k : Nat) : Nat := (s.rf d (rUpdStep k) 0 32 + 1) % 2 ^ 32

/-- What the commit context of the job notes about a command that completes while it is armed (R267): the first status that
does not let the member vote YES, and the UPDATE commands. -/
def State.noteDone (s : State) (d : DieIx) (job : BitVec 12) (step kind st : Nat) : State :=
  match s.ctxOf d job with
  | none => s
  | some k =>
    if s.rf d (rCmtStat k) 0 4 ≠ 1 ∨ step ≠ s.stepOf d k then s
    else
      let fine := [stOk, stOverrun, stDeadline, stPivot, stWarm].contains st
      s.modCommit d k (fun c => { c with badStatus := if fine ∨ c.badStatus ≠ 0 then c.badStatus else st
                                         updates := if kind = 0x70 then c.updates + 1 else c.updates })

/-- A collective command that completes, however it ends, is over for its bucket in this attempt: later messages of the bucket are late
(R379), and a bucket whose command ends before its chunks were complete misses them (R267). -/
def State.noteBucket (s : State) (d : DieIx) (desc : Desc) : State :=
  match s.ctxOf d (dJob desc) with
  | none => s
  | some k =>
    let b := dAux desc % 65536
    if dKind desc < 0x50 ∨ dKind desc > 0x52 ∨ dStep desc ≠ s.stepOf d k ∨ dEpoch desc ≠ s.rf d (rColCtx k 0) 16 8
        ∨ (s.commit d k).finished.contains b then s
    else s.modCommit d k (fun c => { c with finished := c.finished ++ [b],
                                            chunkBad := if c.chunkBad = 0 ∧ c.buckets.contains b then stTimeout else c.chunkBad })

def State.noteCommit (s : State) (d : DieIx) (desc : Desc) (st : Nat) : State :=
  (s.noteBucket d desc).noteDone d (dJob desc) (dStep desc) (dKind desc) st

/-- A reset, absence or layout notice for a job: an armed member will vote NO, and at the next boundary the collective engines
stop the job's commands (R267, R380, R415). -/
def State.noteNotice (s : State) (d : DieIx) (job : BitVec 12) : State :=
  let s1 := s.modDie d (fun x => { x with notices := (x.notices ++ [job]).eraseDups })
  match s1.ctxOf d job with
  | some k => if s1.rf d (rCmtStat k) 0 4 = 1 then s1.modCommit d k (fun c => { c with notice := true }) else s1
  | none => s1

/-- Log the statuses that applied but are not in the record (R38, R96). -/
def State.logDropped (s : State) (d : DieIx) (q : QId) (desc : Desc) (all : List Nat) : State :=
  (droppedStatuses all).foldl (fun t c =>
    if c = stOverrun then t.logFrom d (s.qSource d q) (s.execGen d q (dKind desc)) 0x0108 0
        (dTag desc + pickStatus all * 65536) none
    else t.logFrom d (s.qSource d q) (s.execGen d q (dKind desc)) 0x0201 c (dTag desc + c * 65536) none) s

/-- Put the record of a command into the queue's list of records to be written: status by R96, OVERRUN by R38. -/
def State.record (s : State) (d : DieIx) (q : QId) (desc : Desc) (ident : Nat) (released : Option Stroke) (r : Result) :
    State :=
  let isLate := match released with
    | some rel => !notJudged (dKind desc) && decide (s.stroke d ≠ rel)
    | none => false
  let all := if isLate then r.statuses ++ [stOverrun] else r.statuses
  let st := pickStatus all
  let s1 := if isLate then (s.addSat d rStkOverrun 0 32 1).capture d 6 else s
  let s2 := s1.logDropped d q desc all
  let s3 := s2.modQueue d q (fun x => { x with done := x.done ++ [mkCompletion s d q desc st r] })
  let s4 := match q with
    | .core c => s3.modCore d c (fun k => notePushed k ident st)
    | _ => s3
  s4.noteCommit d desc st

/-! ### Starting commands -/

/-- Records in the ring, modulo 2¹⁶ (R92). -/
def State.ringUsed (s : State) (d : DieIx) (q : QId) : Nat :=
  (s.rf d ((qRing q) + 12) 0 16 + 65536 - s.rf d ((qRing q) + 12) 16 16) % 65536

def State.ringSize (s : State) (d : DieIx) (q : QId) : Nat := 2 ^ s.rf d ((qRing q) + 8) 0 5

def State.ringFull (s : State) (d : DieIx) (q : QId) : Bool := decide (s.ringUsed d q ≥ s.ringSize d q)

/-- Commit stroke of a context (R273). -/
def State.commitStroke (s : State) (d : DieIx) (k : Nat) : Nat :=
  s.rf d (rCmtCHi k) 0 8 * 2 ^ 32 + s.rf d (rCmtCLo k) 0 32

def State.cmtState (s : State) (d : DieIx) (k : Nat) : Nat := s.rf d (rCmtStat k) 0 4

/-- Whether the commit holds a command back: its job's commit stroke has begun and the member has not acted yet, or the
member is UNDECIDED and the command belongs to a later step (R269). -/
def State.commitHolds (s : State) (d : DieIx) (desc : Desc) : Bool :=
  match s.ctxOf d (dJob desc) with
  | none => false
  | some k =>
    let st := s.cmtState d k
    (decide (st ≥ 1 ∧ st ≤ 3) && isDue (s.stroke d) (s.commitStroke d k) && decide (s.commitStroke d k ≠ 0))
      || (decide (st = 4) && decide ((dStep desc + 2 ^ 32 - (s.rf d (rUpdStep k) 0 32 + 1)) % 2 ^ 32 ≥ 1)
          && decide ((dStep desc + 2 ^ 32 - (s.rf d (rUpdStep k) 0 32 + 1)) % 2 ^ 32 < 2 ^ 31))

/-- Die with an index below 8. -/
def dieIx (n : Nat) : DieIx := ⟨n % 8, Nat.mod_lt _ (by decide)⟩

/-- Whether a core is held by a Crucible claim (R223, R258) or lent or claimed by the health controller (R454). -/
def State.coreTaken (s : State) (d : DieIx) (c : CoreIx) : Bool :=
  (if c.val < 32 then bitAt (s.reg d rCruClaim0) c.val || bitAt (s.reg d rAsyLend0) c.val
   else bitAt (s.reg d rCruClaim1) (c.val - 32) || bitAt (s.reg d rAsyLend1) (c.val - 32))

/-- Dies that a Crucible command needs: the DIEMASK of its slot, or that of the image for STRUCT_LOAD, read through the window of a
store where the image lies there; the DIEMASK of an image on another module is known once its header has come (`State.structLoad`). -/
def State.cruMask (s : State) (d : DieIx) (desc : Desc) : Nat :=
  if dKind desc = 0x40 then
    let l := locOf (dAddr desc 24)
    let at' := fun (region off : Nat) => (SMap.get 0 s.mem.cells (memKey l.die region (off + 8))).toNat ||| 2 ^ d.val
    if l.slot ≠ s.slot then 2 ^ d.val
    else if l.region ≤ 1 then at' l.region l.off
    else
      match (s.die (dieIx l.die)).slots.find? (fun p => p.1 == l.off / 2 ^ 33) with
      | some p => at' 0 (p.2.store + l.off % 2 ^ 33)
      | none => 2 ^ d.val
  else s.rf d (rCruSlot (dAux desc % 64) 0) 16 8 ||| 2 ^ d.val

/-- The slot of the running Crucible command that a die takes part in (R222, R254). -/
def State.cruBusy (s : State) (d : DieIx) : Option Nat :=
  (List.finRange 8).findSome? (fun e =>
    (((s.die e).uq[6]).running.find? (fun r => decide (s.cruMask e r.desc / 2 ^ d.val % 2 = 1))).map (fun r => dAux r.desc % 64))

/-- The release stroke of a waiting command: its RELEASE, or the boundary at which a command that names none was released (R36). -/
def releaseOf (e : QEntry) : Nat := if dRelease e.desc = 0 then (e.released.getD 0).toNat else dRelease e.desc

/-- Whether stroke a is earlier than b, modulo 2⁴⁰ (R44). -/
def strokeBefore (a b : Nat) : Bool := decide (a ≠ b) && decide ((b + 2 ^ 40 - a) % 2 ^ 40 < 2 ^ 39)

/-- Whether every die of the mask is free of Crucible work, and no due head command of another die goes first (R222). -/
def State.cruFree (s : State) (d : DieIx) (x : QEntry) : Bool :=
  let mask := s.cruMask d x.desc
  (List.finRange 8).all (fun e =>
    (!decide (mask / 2 ^ e.val % 2 = 1) || (s.cruBusy e).isNone) &&
    (match ((s.die e).uq[6]).entries with
     | [] => true
     | h :: _ =>
       decide (e = d) || h.released.isNone || decide ((mask &&& s.cruMask e h.desc) = 0)
         || !(strokeBefore (releaseOf h) (releaseOf x)
              || (decide (releaseOf h = releaseOf x) && decide (e.val < d.val)))))

/-- How many commands of one engine run at a time: 16 in the reduction and token exchange engines (R359), four in the
billet stack controller, on different segments (R183), else one. -/
def engineCap (q : QId) : Nat :=
  match q with
  | .col => 16
  | .txe => 16
  | .bil => 4
  | _ => 1

/-- What a billet stack command works on (R183): its segment, its derivative table, or nothing shared. -/
def bilKey (x : Desc) : Option (Bool × Nat) :=
  if dKind x = 0x84 then some (true, fld x (8 * 32) 5) else if dKind x = 0x83 then none else some (false, dCtx x)

/-- The first drain pop that waits at a billet stack segment and whose instruction still runs (R182). -/
def State.drainFirst (s : State) (d : DieIx) (ctx : Nat) : Option (CoreIx × Nat) :=
  ((s.die d).drains.find? (fun p => decide (p.2.2 = ctx)
    && (s.core d p.1).queue.running.any (fun r => decide (r.ident = p.2.1)))).map (fun p => (p.1, p.2.1))

/-- Whether a reset in progress holds a command of a queue back (R407 step 1). -/
def resetBlocks (m : Domain) (q : QId) (kind : Nat) : Bool :=
  match m, q with
  | .die, _ => true
  | .quad k, .core c => decide (c.val / 12 = k.val)
  | .quad k, .row r => decide (k = r)
  | .core k, .core c => decide (k = c)
  | .engine k e, .core c => decide (k = c) &&
      (if e.val = 0 then decide (kind ≥ 0x20) else if e.val = 2 then decide (kind = 0x10 ∨ kind = 0x11) else false)
  | _, _ => false

/-- Whether a reset that runs on a die holds a command of a KIND back in a queue; KIND 0 asks for the queue as a whole. -/
def State.resets (s : State) (d : DieIx) (q : QId) (kind : Nat) : Bool := (s.die d).resets.any (fun r => resetBlocks r.dom q kind)

/-- Whether something outside the queue keeps its commands from starting: a full ring (R92), first-fault stop (R80), recovery, a
claim (R223, R454). -/
def State.queueHeld (s : State) (d : DieIx) (q : QId) : Bool :=
  s.ringFull d q ||
  (match q with
   | .core c => (s.core d c).proc.stopped || (s.core d c).recovering || s.coreTaken d c
   | _ => false)

/-- Whether a running matrix instruction of a queue keeps the shadow loader from its next LOAD: it has yet to swap (R112), or
it is sliced and loads its own pairs (R121). -/
def loaderTaken (x : CmdQueue) : Bool :=
  x.running.any (fun r => decide (dKind r.desc = 0x21 ∨ dKind r.desc = 0x22) && !r.acking
    && (bitAt r.desc (8 * 53 + 2) || decide (fld r.desc (8 * 52) 4 ≤ 1)))

/-- Whether a running command keeps its engine from the next one: a matrix instruction that only awaits acknowledgements and its
record does not (R116). -/
def holdsEngine (q : QId) (r : Running) : Bool :=
  match q with
  | .core _ => !(r.acking && (decide (dKind r.desc = 0x21) || decide (dKind r.desc = 0x22)))
  | _ => true

/-- Whether the head command can start now (R36, R85): released, its FENCE satisfied, its engine free, nothing holds it. -/
def State.canStart (s : State) (d : DieIx) (q : QId) (e : QEntry) : Bool :=
  let x := s.queue d q
  e.released.isSome && !s.queueHeld d q
    && (!dFence e.desc || (x.running.isEmpty && x.done.isEmpty))
    && decide ((x.running.filter (fun r => holdsEngine q r && engineOf q (dKind r.desc) == engineOf q (dKind e.desc))).length < engineCap q)
    && !s.commitHolds d e.desc
    && !s.resets d q (dKind e.desc)
    && (match q with
        | .core _ => !(decide (dKind e.desc = 0x20) && loaderTaken x)
        | .cru => s.cruFree d e
        | .bil => match bilKey e.desc with
          | none => true
          | some k => !x.running.any (fun r => decide (bilKey r.desc = some k)) && (k.1 || (s.drainFirst d k.2).isNone)
        | _ => true)

/-- A die in A2 or A3 (R493, R495): commands pushed to it complete with FENCED. -/
def State.parked (s : State) (d : DieIx) : Bool := decide (s.pf rPwrLpStat (2 * d.val) 2 ≥ 2)

/-- Cores of a die that a Crucible command with a given ident on home die d claims: the CORE_MASK of its image (R223, R228). -/
def State.cruCores (s : State) (d : DieIx) (k e : Nat) : Nat :=
  match (s.die d).slots.find? (fun p => p.1 == k) with
  | some p => leNat (slice p.2.image (192 + 8 * e) 6)
  | none => 0

/-- Cores of a die whose bits a mask holds. -/
def coresIn (m : Nat) : List CoreIx := (List.finRange 48).filter (fun c => decide (m / 2 ^ c.val % 2 = 1))

/-- Dies of a mask. -/
def cruDies (m : Nat) : List DieIx := (List.finRange 8).filter (fun e => decide (m / 2 ^ e.val % 2 = 1))

/-- The claim of the cores of CORE_MASK on every die of DIEMASK (R223, R258). -/
def State.claimCores (s : State) (d : DieIx) (k mask : Nat) : State :=
  (cruDies mask).foldl (fun t e =>
    let m := s.cruCores d k e.val
    (t.setReg e rCruClaim0 (BitVec.ofNat 32 m)).setReg e rCruClaim1 (BitVec.ofNat 32 (m / 2 ^ 32))) s

/-- Whether a Crucible command claims cores (R223): a solve kind with right-hand sides, on a slot that it may use (R224). -/
def State.claims (s : State) (d : DieIx) (x : Desc) : Bool :=
  decide (dKind x ≥ 0x43) && decide (fld x (8 * 60) 16 ≠ 0) &&
    (match (s.die d).slots.find? (fun p => p.1 == dAux x % 64) with
     | some p => decide (p.2.job = dJob x) && decide (p.2.home = d.val)
     | none => false)

/-- What starting a Crucible command does beside its queue: a solve kind claims its cores. -/
def State.claimAt (s : State) (d : DieIx) (q : QId) (x : Desc) : State :=
  match q with
  | .cru => if s.claims d x then s.claimCores d (dAux x % 64) (s.cruMask d x) else s
  | _ => s

/-- The tags of the dies of the module as a Crucible command starts (R253). -/
def State.startGens (s : State) (q : QId) : List (BitVec 8) :=
  match q with
  | .cru => (List.finRange 8).map (fun e => s.dieGen e)
  | _ => []

/-- Start the head command, or complete it at once if its entry is poisoned (R302), its header fails (R89) or the die is parked
(R495), whatever holds the queue but a reset (R407), or its step was aborted while it waited for the Crucible and no command before it runs (R253);
`none` when the head cannot start. -/
def State.startHead (s : State) (d : DieIx) (q : QId) : Option State :=
  let x := s.queue d q
  match x.entries with
  | [] => none
  | e :: es =>
    let popped := s.setQueue d q ({ x with entries := es }).refill
    if s.resets d q (dKind e.desc) then none
    else if e.poison then some (popped.record d q e.desc e.ident e.released (.err stPoison))
    else if !headerOk q (s.stroke d) e.desc then
      some (popped.record d q e.desc e.ident e.released (.err stFormat))
    else if s.parked d then some (popped.record d q e.desc e.ident e.released (.err stFenced))
    else if e.aborted then
      if x.running.isEmpty then some (popped.record d q e.desc e.ident e.released (.err stAborted)) else none
    else if s.canStart d q e then
      let r : Running := ⟨e.ident, e.desc, e.released.getD (s.stroke d), s.stroke d, e.poison, 0, 0, [], 0, 0, false, none, none,
        s.startGens q, e.fw, s.reg d rColAlg⟩
      some ((popped.modQueue d q (fun y => { y with running := y.running ++ [r] })).claimAt d q e.desc)
    else none

/-- Start commands of a queue until its head cannot start. -/
def State.startReady (s : State) (d : DieIx) (q : QId) : Nat → State
  | 0 => s
  | n + 1 =>
    match s.startHead d q with
    | none => s
    | some t => t.startReady d q n

/-- Start what can start in one queue. -/
def State.startQueue (s : State) (d : DieIx) (q : QId) : State := s.startReady d q (s.queue d q).entries.length

/-- Start what can start in every queue of a die. -/
def State.startAll (s : State) (d : DieIx) : State := allQueues.foldl (fun t q => t.startQueue d q) s

/-- Push a descriptor: a bad header at the head of the queue is judged there at once (R89). -/
def State.push (s : State) (d : DieIx) (q : QId) (desc : Desc) (poison : Bool) (fw : Bool := false) : State :=
  ((s.modQueue d q (fun x => x.push (s.recvGen d q) desc poison fw (s.resets d q 0))).wake d).startQueue d q

/-- Release at a boundary every waiting command whose release stroke has begun; a release stroke that had already begun
counts as late (R36). -/
def releaseEntries (now : Stroke) : List QEntry → List QEntry × Nat
  | [] => ([], 0)
  | e :: es =>
    let r := releaseEntries now es
    if e.released.isSome ∨ !isDue now (dRelease e.desc) then (e :: r.1, r.2)
    else
      let late := dRelease e.desc ≠ 0 ∧ ahead now (dRelease e.desc) ≠ 0
      ({ e with released := some now } :: r.1, if late then r.2 + 1 else r.2)

def State.releaseQueue (s : State) (d : DieIx) (q : QId) : State :=
  let x := s.queue d q
  let r := releaseEntries (s.stroke d) x.entries
  let b := releaseEntries (s.stroke d) x.backlog
  let s1 := s.setQueue d q { x with entries := r.1, backlog := b.1 }
  if r.2 + b.2 = 0 then s1 else s1.addSat d rStkLate 0 32 (r.2 + b.2)

def State.releaseAll (s : State) (d : DieIx) : State := allQueues.foldl (fun t q => t.releaseQueue d q) s

/-- The running command of an engine of a queue whose KIND is given. -/
def State.runningOf (s : State) (d : DieIx) (q : QId) (kind : Nat) : Option Running :=
  (s.queue d q).running.find? (fun r => decide (dKind r.desc = kind))

/-- What the end of a command changes in its core: the popped entry leaves its drain, and a LOAD that stops while the shadow
is loading leaves it empty (R112). -/
def endCore (r : Running) (res : Result) (k : Core) : Core :=
  let k1 := match k.drain with
    | some x => if x.ident = r.ident then { k with drain := none } else k
    | none => k
  if dKind r.desc = 0x20 ∧ res.statuses.any (fun x => decide (x = stTimeout ∨ x = stStale ∨ x = stAborted)) then
    { k1 with arr := { k1.arr with shadow := none } }
  else k1

/-- The control processor stops. -/
def State.haltProc (s : State) (d : DieIx) (c : CoreIx) : State :=
  s.modCore d c (fun x => { x with proc := { x.proc with running := false, waitStroke := false, stall := .no } })

/-- A kernel that has run ends with VSTAT.CFLAGS in its record, and with SATURATED where ISAT is set (R149). -/
def State.reported (s : State) (d : DieIx) (q : QId) (r : Running) : Running :=
  match q with
  | .core c =>
    let v := (s.core d c).vec.vstat
    if dKind r.desc = 1 ∧ (s.core d c).proc.running then
      { r with flags := BitVec.ofNat 8 (fld v 8 6), stats := if bitAt v 16 then r.stats ++ [stSaturated] else r.stats }
    else r
  | _ => r

/-- The memories of claimed cores of a die hold unspecified values (R223, R307): the top of each scratchpad and the whole bank. -/
def State.spoilClaim (s : State) (d e : DieIx) (k : Nat) : State :=
  (coresIn (s.cruCores d k e.val)).foldl (fun t c =>
    (t.loseMem (memKey e.val 1 (spBase c.val + 0x00300000)) 0x00100000).loseMem (memKey e.val 1 (bankBase c.val)) 0x00100000) s

/-- A Crucible claim ends on a die (R223, R258). -/
def State.releaseClaim (s : State) (e : DieIx) : State := (s.setReg e rCruClaim0 0).setReg e rCruClaim1 0

/-- Whether a Crucible command is the solve that has begun on its home die. -/
def State.solving (s : State) (d : DieIx) (r : Running) : Bool :=
  match (s.die d).solve with
  | some u => decide (u.ident = r.ident)
  | none => false

/-- A Crucible command ends: its claims on every die of its DIEMASK, and its record of progress. A solve kind that ends before it began has
used none of the claimed memories. -/
def State.cruEnd (s : State) (d : DieIx) (r : Running) : State :=
  let s1 := if s.claims d r.desc then
      (cruDies (s.cruMask d r.desc)).foldl (fun t e =>
        (if s.solving d r then t.spoilClaim d e (dAux r.desc % 64) else t).releaseClaim e) s
    else s
  if s.solving d r then s1.modDie d (fun x => { x with solve := none }) else s1

/-- Commands that waited for a claim of the Crucible (R222, R223) or of a TOUCHSTONE (R446) to end start. -/
def State.startAfter (s : State) (q : QId) : State :=
  match q with
  | .cru => (List.finRange 8).foldl (fun t e => if t.present e ∧ !(t.die e).held then t.startAll e else t) s
  | .hlt => (List.finRange 8).foldl (fun t e => if t.present e ∧ !(t.die e).held then t.startAll e else t) s
  | _ => s

/-- Set which cores are lent or claimed: ASY_LEND0, ASY_LEND1 and ASY_STATUS.LENT follow (R447, R454). -/
def State.setLends (s : State) (d : DieIx) (l : List (Nat × Option Stroke)) : State :=
  let mask := (List.range 48).foldl (fun a c => if l.any (fun p => p.1 == c) then a + 2 ^ c else a) 0
  let s1 := s.modDie d (fun x => { x with assay := { x.assay with lends := l } })
  ((s1.setReg d rAsyLend0 (BitVec.ofNat 32 mask)).setReg d rAsyLend1 (BitVec.ofNat 32 (mask / 2 ^ 32))).setRf d rAsyStatus 0 6
    (l.filter (fun p => p.2.isSome)).length

/-- A health command ends: its claims and its record of progress go. -/
def State.hltEnd (s : State) (d : DieIx) : State :=
  let s1 := s.modDie d (fun x => { x with assay := { x.assay with touch := none, pass := none } })
  s1.setLends d ((s1.die d).assay.lends.filter (fun p => p.2.isSome))

/-- The array's stream ends with its instruction. -/
def dropStream (ident : Nat) (k : Core) : Core :=
  if k.arr.run.any (fun m => decide (m.ident = ident)) then { k with arr := { k.arr with run := none } } else k

/-- End a running command: it and its requests leave, its record waits to be written, and the queue goes on. -/
def State.finish (s : State) (d : DieIx) (q : QId) (r : Running) (res : Result) : State :=
  let s0 := s.modDie d (fun x =>
    { x with outstanding := x.outstanding.filter (fun o => !(decide (o.queue = qNum q) && decide (o.ident = r.ident))) })
  let s1 := s0.modQueue d q (fun x => { x with running := x.running.filter (fun y => y.ident != r.ident) })
  let s2 := match q with
    | .core c => (s1.modCore d c (fun k => dropStream r.ident (endCore r res k))).modDie d (fun x =>
        { x with drains := x.drains.filter (fun p => !(decide (p.1 = c) && decide (p.2.1 = r.ident))) })
    | .cru => s1.cruEnd d r
    | .col => s1.modDie d (fun x => { x with reds := x.reds.filter (fun u => u.ident != r.ident)
                                             gathers := x.gathers.filter (fun u => u.ident != r.ident) })
    | .txe => s1.modDie d (fun x => { x with exchanges := x.exchanges.filter (fun u => u.ident != r.ident) })
    | .hlt => s1.hltEnd d
    | _ => s1
  ((s2.record d q r.desc r.ident (some r.released) res).startQueue d q).startAfter q

/-- Whether the unit that executes a command is fenced (R419): the die, the quadrant of a row engine, the core, its array
or its DMA engine. -/
def State.unitFenced (s : State) (d : DieIx) (q : QId) (kind : Nat) : Bool :=
  match q with
  | .core c => s.coreFenced d c || (decide (kind ≥ 0x20) && (s.core d c).fenceArr)
      || (decide (kind = 0x10 ∨ kind = 0x11) && s.dmaFenced d c)
  | .row k => s.dieFenced d || bitAt (s.reg d rHltFenceDie) k.val
  | _ => s.dieFenced d

/-- Whether a matrix instruction owns the accumulator bank of a core (R84): one that writes the bank runs and does not wait
for a LOAD. -/
def State.bankHeld (s : State) (d : DieIx) (c : CoreIx) : Bool :=
  let x := s.queue d (.core c)
  x.running.any (fun r => decide (dKind r.desc = 0x21 ∨ dKind r.desc = 0x22) && decide (fld r.desc (8 * 53) 2 ≠ 3)
    && !(bitAt r.desc (8 * 53 + 2) && !r.acking && x.running.any (fun y => decide (dKind y.desc = 0x20))))

/-- Execute the running command of a kind: nothing happens when none runs; a poisoned queue entry completes with POISON
and executes nothing (R302). -/
def withRunning (s : State) (d : DieIx) (q : QId) (kind : Nat) (k : Running → State) : State :=
  match s.runningOf d q kind with
  | none => s
  | some r => if r.poison then s.finish d q r (.err stPoison) else k r

end Sys2Proof.Machine
end

