-- ==== Sys2Proof/Machine/Link.lean ====
section
/-! DEFINITION. Link ports: frames and their check, messages, credit, acknowledgement, loss, discovery, routes, the board
map and board master (R328 to R350, R542). -/

namespace Sys2Proof.Machine

/-! ### Frames and messages -/

/-- One step of CRC-32C over a bit; the polynomial is reflected 0x82F63B78 (PRESUMED: the parameters of CRC-32C). -/
def crcBit (c : Word) : Word := if c.getLsbD 0 then (c >>> 1) ^^^ 0x82F63B78 else c >>> 1

def crcByte (c : Word) (b : Byte) : Word :=
  let x := c ^^^ b.setWidth 32
  crcBit (crcBit (crcBit (crcBit (crcBit (crcBit (crcBit (crcBit x)))))))

/-- CRC-32C of a string of bytes. -/
def crc32c (bs : List Byte) : Word := bs.foldl crcByte 0xFFFFFFFF ^^^ 0xFFFFFFFF

/-- Payload units of 64 bytes that n bytes of data need behind the message header (R335). -/
def msgUnits (m : Msg) : Nat := 1 + (m.data.length + 63) / 64

/-- The payload of a message: its header and its data, padded to whole units (R335). -/
def msgPayload (m : Msg) : List Byte :=
  leBytes 8 m.stamp.toNat ++ leBytes 4 m.src.toNat ++ leBytes 4 m.dst.toNat ++ leBytes 2 m.job.toNat
    ++ leBytes 1 m.epoch.toNat ++ leBytes 1 m.gen.toNat ++ leBytes 1 m.mkind.toNat ++ leBytes 1 m.attempt.toNat
    ++ leBytes 2 m.data.length ++ leBytes 4 m.step.toNat ++ padTo 36 0 m.spec
    ++ padTo ((m.data.length + 63) / 64 * 64) 0 m.data

/-- A field of a byte string. -/
def bn (bs : List Byte) (k n : Nat) : Nat := leNat (slice bs k n)

/-- The message that a payload carries; its length and reserved fields must fit (R334, R335). -/
def msgOf (bs : List Byte) (poison : DWord) : Option Msg :=
  let len := bn bs 22 2
  if bs.length < 64 ∨ len > 4032 ∨ 64 + (len + 63) / 64 * 64 ≠ bs.length ∨ bn bs 8 4 ≥ 2 ^ 23 ∨ bn bs 12 4 ≥ 2 ^ 23
      ∨ bn bs 16 2 ≥ 2 ^ 12 then none
  else some
    { stamp := BitVec.ofNat 64 (bn bs 0 8), src := BitVec.ofNat 23 (bn bs 8 4), dst := BitVec.ofNat 23 (bn bs 12 4)
      job := BitVec.ofNat 12 (bn bs 16 2), epoch := byteAt bs 18, gen := byteAt bs 19, mkind := byteAt bs 20
      attempt := byteAt bs 21, step := BitVec.ofNat 32 (bn bs 24 4), spec := slice bs 28 36, data := slice bs 64 len
      poison := poison }

/-- Virtual channel of a message kind (R335). -/
def vcOf (k : Nat) : Nat :=
  if k = 1 ∨ k = 2 then 1 else if k = 3 ∨ k = 4 then 2 else if k ≥ 0x10 ∧ k < 0x30 then 3 else 0

/-- Message kinds that are not reserved (R335, and the kinds of the collective and exchange engines). -/
def knownKind (k : Nat) : Bool :=
  decide (k ≥ 1 ∧ k ≤ 4) || decide (k ≥ 0x10 ∧ k ≤ 0x16) || decide (k ≥ 0x20 ∧ k ≤ 0x23) || decide (k ≥ 0x30 ∧ k ≤ 0x38)

/-- A frame's bytes (R334). -/
def frameBytes (ftype vc seq ack len poison credit : Nat) (payload : List Byte) : List Byte :=
  let h := leBytes 1 ftype ++ leBytes 1 (vc * 64) ++ leBytes 2 seq ++ leBytes 2 ack ++ leBytes 1 len ++ leBytes 1 0
    ++ leBytes 8 poison ++ leBytes 8 credit ++ leBytes 4 0
  h ++ leBytes 4 (crc32c (h ++ payload)).toNat ++ payload

/-- Whether a frame passes its CRC and carries no reserved value (R334). -/
def frameOk (f : List Byte) : Bool :=
  let t := bn f 0 1
  let len := bn f 6 1
  decide (f.length ≥ 32) && decide (f.length = 32 + 64 * len) && decide (t ≥ 1 ∧ t ≤ 5) && decide (bn f 1 1 % 64 = 0)
    && decide (bn f 7 1 = 0) && decide (bn f 16 8 < 2 ^ 60) && decide (bn f 24 4 = 0)
    && decide (bn f 28 4 = (crc32c (f.take 28 ++ f.drop 32)).toNat)
    && (if t = 1 then decide (1 ≤ len ∧ len ≤ 64) else decide (bn f 1 1 = 0 ∧ bn f 2 2 = 0))
    && (if t = 2 ∨ t = 3 then decide (len = 0) else true)
    && (if t = 4 ∨ t = 5 then decide (len = 1) else true)

/-! ### Ports -/

def State.link (s : State) (d : DieIx) (l : LinkIx) : Port := (s.die d).ports[l]

def State.modLink (s : State) (d : DieIx) (l : LinkIx) (f : Port → Port) : State :=
  s.modDie d (fun x => { x with ports := x.ports.set l (f x.ports[l]) })

/-- The port that a link belongs to: link 7 is the second one of port 0 (R328). -/
def linkPort (l : LinkIx) : PortIx := if h : l.val < 7 then ⟨l.val, h⟩ else 0

/-- The first link of a port, the only one but on a WRK-M2-1T; a port's discovery runs over it (log entry 163). -/
def linkOf (p : PortIx) : LinkIx := ⟨p.val, by omega⟩

def State.port (s : State) (d : DieIx) (p : PortIx) : Port := s.link d (linkOf p)
def State.modPort (s : State) (d : DieIx) (p : PortIx) (f : Port → Port) : State := s.modLink d (linkOf p) f

/-- LNK_PSTAT.STATE (R353): 0 absent, 1 disabled, 2 training, 3 discovery, 4 up, 5 down. -/
def State.pstate (s : State) (d : DieIx) (p : PortIx) : Nat := s.rf d (rLnkPstat p.val) 28 4
def State.setPstate (s : State) (d : DieIx) (p : PortIx) (v : Nat) : State := s.setRf d (rLnkPstat p.val) 28 4 v
/-- The links of a port: two for port 0 of a WRK-M2-1T die (R328). -/
def State.linksOf (s : State) (p : PortIx) : List LinkIx := if p.val = 0 ∧ s.fuses.variant = 2 then [0, 7] else [linkOf p]

/-- STATE of the port that a link belongs to; a link that the variant does not have is absent. -/
def State.lstate (s : State) (d : DieIx) (l : LinkIx) : Nat :=
  if (s.linksOf (linkPort l)).contains l then s.pstate d (linkPort l) else 0

def State.setCause (s : State) (d : DieIx) (p : PortIx) (v : Nat) : State := s.setRf d (rLnkPstat p.val) 24 4 v

/-- Ports that the variant populates (R14, R328, R329). -/
def portExists (variant : Nat) (d p : Nat) : Bool :=
  if variant = 2 then decide (p = 0 ∨ p ≥ 3)
  else if variant = 1 then decide (p < 7)
  else decide (p < 7) && decide (d < 8)

/-- Receive buffer of a port in 64-byte units (link classes). -/
def portBuffer (p : Nat) : Nat := if p ≥ 5 then 5120 else 4096

/-- Credit of a grant: 128 units for each channel, the rest for the pool (R343). -/
def grantOf (buffer : Nat) : Vector Nat 5 := #v[128, 128, 128, 128, buffer - 512]

/-- Nominal time of a die in timebase cycles (R45). -/
def State.nominal (s : State) (d : DieIx) : Nat :=
  (s.stroke d).toNat * (s.rf d rStkCfg 0 8 * 940) + (s.die d).timer.cycle.toNat

/-- Take credit for `units` of channel v: first the reservation, then the pool (R343). -/
def takeCredit (c : Vector Nat 5) (v units : Nat) : Option (Vector Nat 5) :=
  let own := c.getD v 0
  let pool := c.getD 4 0
  if own ≥ units then some (c.setIfInBounds v (own - units))
  else if own + pool ≥ units then some ((c.setIfInBounds v 0).setIfInBounds 4 (pool - (units - own)))
  else none

/-- Space that a frame of `units` on channel v has taken from a grant: reservation part and pool part. The sender splits it by the credit
that it held, the frame does not say how, and the receiver, whose returns may still be on their way, sees only the limits: between them
the split is free (R343, log entry 164). -/
def spent (c : Vector Nat 5) (v units free : Nat) : Nat × Nat :=
  let most := min (c.getD v 0) units
  let least := units - min (c.getD 4 0) units
  let own := if least ≤ most then least + free % (most - least + 1) else most
  (own, units - own)

def creditWord (c : Vector Nat 5) : Nat :=
  (List.range 5).foldl (fun a i => a + min (c.getD i 0) 4095 * 2 ^ (12 * i)) 0

def addCredit (v : Vector Nat 5) (w : Nat) : Vector Nat 5 := Vector.ofFn (fun i => v[i] + w / 2 ^ (12 * i.val) % 4096)

/-- Send a frame that is neither sequenced nor retained; it carries ACK and the freed credit (R336, R343). -/
def Port.sendPlain (x : Port) (ftype : Nat) (payload : List Byte) : Port :=
  { x with tx := x.tx ++ [frameBytes ftype 0 0 x.lastAcc.toNat (payload.length / 64) 0 (creditWord x.freed) payload]
           granted := Vector.ofFn (fun i => x.granted[i] + min x.freed[i] 4095)
           freed := Vector.ofFn (fun i => x.freed[i] - min x.freed[i] 4095) }

/-- Transmit a DATA frame and keep it in the retain buffer (R336, R337). -/
def Port.sendData (x : Port) (vc : Nat) (m : Msg) (credit : Vector Nat 5) : Port :=
  { x with tx := x.tx ++ [frameBytes 1 vc x.nextSeq.toNat x.lastAcc.toNat (msgUnits m) m.poison.toNat
              (creditWord x.freed) (msgPayload m)]
           granted := Vector.ofFn (fun i => x.granted[i] + min x.freed[i] 4095)
           freed := Vector.ofFn (fun i => x.freed[i] - min x.freed[i] 4095)
           retain := x.retain ++ [⟨x.nextSeq, vc, m, 0⟩]
           nextSeq := x.nextSeq + 1
           credit := credit }

/-- Send what the credit allows, in order within each channel (R341, R343). -/
def Port.pump (x : Port) : List (Nat × Msg) → List Nat → List (Nat × Msg) → Port
  | [], _, kept => { x with sendq := kept }
  | (v, m) :: rest, blocked, kept =>
    if blocked.contains v then x.pump rest blocked (kept ++ [(v, m)])
    else
      match takeCredit x.credit v (msgUnits m) with
      | some c => (x.sendData v m c).pump rest blocked kept
      | none => x.pump rest (v :: blocked) (kept ++ [(v, m)])

def State.pumpLink (s : State) (d : DieIx) (l : LinkIx) : State :=
  if s.lstate d l = 4 then s.modLink d l (fun x => x.pump x.sendq [] []) else s

/-- Acknowledge up to a: release every retained frame from the oldest to SEQ a (R336). -/
def releaseAck (l : List Retained) (a : BitVec 16) : List Retained :=
  if l.any (fun r => decide (r.seq = a)) then (l.dropWhile (fun r => decide (r.seq ≠ a))).drop 1 else l

/-! ### Routes (R341, R342, R542) -/

/-- The die that a die-fabric port reaches (R328). -/
def fabricPeer (variant : Nat) (d : Nat) (p : Nat) : Option Nat :=
  if variant = 0 then
    (if p = 0 then some ((d + 1) % 8) else if p = 1 then some ((d + 7) % 8) else if p = 2 then some ((d + 4) % 8) else none)
  else if variant = 1 then
    (if p = 0 then some ((d + 1) % 4) else if p = 1 then some ((d + 3) % 4) else if p = 2 then some ((d + 2) % 4) else none)
  else if p = 0 then some (1 - d) else none

/-- Whether a port carries routes: it was up at the last boundary (R341). -/
def State.routable (s : State) (d : Nat) (p : Nat) : Bool :=
  if h : d < 8 then bitAt (s.die ⟨d, h⟩).routeUp p else false

def better (a b : Option (Nat × Nat)) : Bool :=
  match a, b with
  | some x, some y => decide (x.1 < y.1) || (decide (x.1 = y.1) && decide (x.2 < y.2))
  | some _, none => true
  | none, _ => false

/-- Cost of leaving die d by fabric port p, given the costs of every die. -/
def State.viaPort (s : State) (cost : List (Option (Nat × Nat))) (d p : Nat) : Option (Nat × Nat) :=
  match fabricPeer s.fuses.variant d p with
  | none => none
  | some e =>
    if s.routable d p then
      (match cost.getD e none with
       | none => none
       | some c => some (c.1 + 1, c.2 + (if h : d < 8 then s.rf ⟨d, h⟩ (rLnkPrtt p) 0 16 else 0)))
    else none

def bestOf (l : List (Option (Nat × Nat))) : Option (Nat × Nat) := l.foldl (fun a b => if better b a then b else a) none

/-- Hops and delay from every die to die t over the die fabric, after n rounds of relaxation. -/
def State.fabricCost (s : State) (t : Nat) : Nat → List (Option (Nat × Nat))
  | 0 => (List.range 8).map (fun d => if d = t then some (0, 0) else none)
  | n + 1 =>
    let c := s.fabricCost t n
    (List.range 8).map (fun d => if d = t then some (0, 0) else bestOf [s.viaPort c d 0, s.viaPort c d 1, s.viaPort c d 2])

/-- First port from die d to die t of this module: fewest hops, least delay, lowest port (R542). -/
def State.fabricPort (s : State) (d t : Nat) : Option PortIx :=
  let c := s.fabricCost t 7
  let v := fun p => s.viaPort c d p
  match bestOf [v 0, v 1, v 2] with
  | none => none
  | some b => if v 0 = some b then some 0 else if v 1 = some b then some 1 else some 2

/-- The board port that leads to a slot (R342), on this variant. -/
def State.boardPort (s : State) (t : Nat) : Option Nat :=
  let x := Nat.xor s.slot t
  if s.fuses.variant = 0 then (if 1 ≤ x ∧ x ≤ 3 then some (x - 1) else none)
  else if s.fuses.variant = 1 then (if x = 1 ∨ x = 3 then some 0 else if x = 2 then some 1 else none)
  else if x = 1 then some 0 else none

/-- The entry of the installation table that names this module by its serial (R345). -/
def State.ownEntry (s : State) : Option TableEntry := s.settings.table.find? (fun e => decide (e.serial = s.fuses.serial))

/-- Slot of a module of this board, by module number (R349). -/
def State.slotOf (s : State) (m : Nat) : Option Nat :=
  match s.ownEntry with
  | none => none
  | some o =>
    (s.settings.table.find? (fun e => decide (e.module.toNat = m ∧ e.rack = o.rack ∧ e.chassis = o.chassis
      ∧ e.tray = o.tray))).map (fun e => e.slot)

/-- Module number of a slot of this board (R349). -/
def State.moduleOfSlot (s : State) (t : Nat) : Option Nat :=
  match s.ownEntry with
  | none => none
  | some o =>
    (s.settings.table.find? (fun e => decide (e.slot = t ∧ e.rack = o.rack ∧ e.chassis = o.chassis
      ∧ e.tray = o.tray))).map (fun e => e.module.toNat)

/-! ### Routes between modules (R342, R542) -/

/-- Dies of a module variant (R13). -/
def variantDies (v : Nat) : Nat := if v = 0 then 8 else if v = 1 then 4 else 2

/-- The installation table's entry for a module number. -/
def State.entryOf (s : State) (m : Nat) : Option TableEntry := s.settings.table.find? (fun e => decide (e.module.toNat = m))

/-- The die that a port of die d of a module in the table reaches (R328, R329, R345). -/
def netPeer (e : TableEntry) (d p : Nat) : Option (Nat × Nat) :=
  if p < 3 then (fabricPeer e.variant d p).map (fun t => (e.module.toNat, t))
  else
    let nb := (if p = 4 then e.boardNb.getD (d / 2) 0xFFFFFF else e.optNb.getD (2 * d + (p - 5)) 0xFFFFFF).toNat
    if nb = 0xFFFFFF then none else some (nb / 2 ^ 10, if p = 4 then d else nb / 2 ^ 6 % 16 / 2)

/-- The one-way delay that discovery measured for a port, where the port carries routes; of a port of another module, what Pelbex
firmware knows of it in this stroke (log entry 165). -/
def State.netDelay (s : State) (d : DieIx) (m e p : Nat) : Option Nat :=
  if m = s.moduleNo d then
    (if h : e < 8 then (if s.routable e p then some (s.rf ⟨e, h⟩ (rLnkPrtt p) 0 16) else none) else none)
  else Config.remoteLink (s.stroke d) m e p

/-- What is known of the ways to one die: for each die, module and number, hops and delay of the best. -/
abbrev NetCost := List ((Nat × Nat) × Option (Nat × Nat))

def NetCost.at (c : NetCost) (n : Nat × Nat) : Option (Nat × Nat) := ((c.find? (fun p => p.1 == n)).map (fun p => p.2)).getD none

/-- Cost of leaving a die by a port, where the links that `ok` admits may be used. -/
def State.netVia (s : State) (d : DieIx) (ok : Nat → Nat → Nat → Bool) (c : NetCost) (n : Nat × Nat) (p : Nat) : Option (Nat × Nat) :=
  if !ok n.1 n.2 p then none
  else
    match (s.entryOf n.1).bind (fun e => netPeer e n.2 p), s.netDelay d n.1 n.2 p with
    | some t, some w => (c.at t).map (fun q => (q.1 + 1, q.2 + w))
    | _, _ => none

/-- Ports that routes use, in the order of R328; UCIe is never part of a route. -/
def routePorts : List Nat := [0, 1, 2, 4, 5, 6]

/-- Hops and delay from every die of the modules `ms` to a die, after n rounds of relaxation. -/
def State.netCost (s : State) (d : DieIx) (ok : Nat → Nat → Nat → Bool) (ms : List Nat) (t : Nat × Nat) : Nat → NetCost
  | 0 => [(t, some (0, 0))]
  | n + 1 =>
    let c := s.netCost d ok ms t n
    (ms.flatMap (fun m => (List.range (match s.entryOf m with
      | some e => variantDies e.variant
      | none => 0)).map (fun e => (m, e)))).map (fun x =>
        (x, if x = t then some (0, 0) else bestOf (routePorts.map (s.netVia d ok c x))))

/-- First port of the best route from a die to a die of another module: fewest hops, least delay, lowest port. -/
def State.netPort (s : State) (d : DieIx) (ok : Nat → Nat → Nat → Bool) (ms : List Nat) (t : Nat × Nat) : Option PortIx :=
  let c := s.netCost d ok ms t (8 * ms.length)
  let via := s.netVia d ok c (s.moduleNo d, d.val)
  match bestOf (routePorts.map via) with
  | none => none
  | some b => (routePorts.find? (fun p => via p = some b)).map (fun p => ⟨p % 7, Nat.mod_lt _ (by decide)⟩)

/-- The board ports, module and number, that a request to a slot crosses (R342). -/
def State.boardHops (s : State) (d : DieIx) (t : Nat) : List (Nat × Nat) :=
  match s.boardPort t with
  | none => []
  | some k =>
    (s.moduleNo d, k) :: (if s.fuses.variant = 1 ∧ Nat.xor s.slot t = 3 then
      ((s.moduleOfSlot (Nat.xor s.slot 1)).map (fun m => (m, 1))).toList else [])

/-- Links that a request to a slot may use: the die fabric of the modules on its way, and their board ports of R342. -/
def State.boardOk (s : State) (d : DieIx) (t : Nat) (m e p : Nat) : Bool :=
  decide (p < 3) || (decide (p = 4) && (s.boardHops d t).contains (m, e / 2))

/-- The modules that a request to a module in a slot passes. -/
def State.boardModules (s : State) (d : DieIx) (t m : Nat) : List Nat := ((s.boardHops d t).map (fun p => p.1) ++ [m]).eraseDups

/-- The port by which a request to a die of the module in a slot leaves (R342). -/
def State.boardRoute (s : State) (d : DieIx) (t m e : Nat) : Option PortIx :=
  if (s.boardHops d t).isEmpty then none else s.netPort d (s.boardOk d t) (s.boardModules d t m) (m, e)

/-- The port by which a message leaves a die: within the module over the die fabric, a request to a slot of the board by R342, any other
message by the route of R542 over the modules of the installation table. -/
def State.route (s : State) (d : DieIx) (m : Msg) : Option PortIx :=
  let md := m.dst.toNat / 512
  let dd := m.dst.toNat / 64 % 8
  if md = s.moduleNo d then s.fabricPort d.val dd
  else if m.mkind = 1 ∨ m.mkind = 2 then
    match s.slotOf md with
    | some t => s.boardRoute d t md dd
    | none => none
  else s.netPort d (fun _ _ _ => true) ((s.settings.table.map (fun e => e.module.toNat)).eraseDups) (md, dd)

/-- The link of a port that carries a message: of a double link a free one, the same for every message of a source to a destination on
a channel, which keeps them in order (R341, log entry 163). -/
def State.pickLink (s : State) (p : PortIx) (m : Msg) : LinkIx :=
  let l := s.linksOf p
  l.getD (Config.linkPick m.src m.dst (vcOf m.mkind.toNat) % l.length) (linkOf p)

/-- Send a message from a die: into its own inbox, or to the send queue of a link of its route's port; without a route it is lost
and its issuer finds the loss by its timeout (R340, R341). -/
def State.sendMsg (s : State) (d : DieIx) (m : Msg) : State :=
  if m.dst.toNat / 64 = s.moduleNo d * 8 + d.val then s.modDie d (fun x => { x with inbox := x.inbox ++ [m] })
  else
    match s.route d m with
    | none => s
    | some p =>
      let l := s.pickLink p m
      (s.modLink d l (fun x => { x with sendq := x.sendq ++ [(vcOf m.mkind.toNat, m)] })).pumpLink d l

/-- A message from a die's uncore with the header of R335. -/
def State.mkMsg (s : State) (d : DieIx) (kind : Nat) (dst : Endpoint) (job : BitVec 12) (epoch attempt : Nat) (step : Nat)
    (spec data : List Byte) : Msg :=
  { stamp := s.stamp d, src := s.endpoint d 63, dst := dst, job := job, epoch := BitVec.ofNat 8 epoch, gen := s.dieGen d
    mkind := BitVec.ofNat 8 kind, attempt := BitVec.ofNat 8 attempt, step := BitVec.ofNat 32 step, spec := spec
    data := data, poison := 0 }

/-- Take a message out of the inbox where the frame put it. -/
def State.takeMsg (s : State) (d : DieIx) (m : Msg) : State :=
  s.modDie d (fun x => { x with inbox := x.inbox.erase m })

/-! ### Receiving -/

/-- Check a frame at a port that trains no longer: a bad frame is discarded and counted (R334), a good one acknowledges
and returns credit (R336). `none` when the frame is discarded. -/
def State.rxFrame (s : State) (d : DieIx) (l : LinkIx) (f : List Byte) : State × Bool :=
  if s.lstate d l ≠ 3 ∧ s.lstate d l ≠ 4 then (s, false)
  else if !frameOk f then (s.addSat d (rLnkPerr (linkPort l).val) 0 16 1, false)
  else if s.lstate d l = 4 then
    ((s.modLink d l (fun x =>
      { x with retain := releaseAck x.retain (BitVec.ofNat 16 (bn f 4 2)), credit := addCredit x.credit (bn f 16 8) })
      ).pumpLink d l, true)
  else (s, true)

/-- A frame of a peer, whichever core or engine of its die sent it, counts as its presence in this stroke (R42). -/
def State.seePeer (s : State) (d : DieIx) (src : Endpoint) : State :=
  s.modDie d (fun x => { x with peers := x.peers.map (fun q => if q.endpoint.toNat / 64 = src.toNat / 64 then { q with seen := true } else q) })

/-- Count a message that is discarded at its destination (R335): the manual names no register for this count, so the model keeps one of its
own (DESIGN CHOICE, log entry 166). -/
def State.countDiscard (s : State) (d : DieIx) : State := s.modDie d (fun x => { x with discards := x.discards + 1 })

/-- Forward or deliver an accepted message (R341); a reserved kind is discarded at its destination. -/
def State.deliver (s : State) (d : DieIx) (m : Msg) : State :=
  if m.dst.toNat / 64 = s.moduleNo d * 8 + d.val then
    if knownKind m.mkind.toNat then ((s.modDie d (fun x => { x with inbox := x.inbox ++ [m] })).seePeer d m.src).wake d
    else s.countDiscard d
  else s.sendMsg d m

/-- A DATA frame (R336): accepted only in sequence, then its space is freed and an ACK frame is sent. -/
def State.rxData (s : State) (d : DieIx) (l : LinkIx) (f : List Byte) : State :=
  let r := s.rxFrame d l f
  if !r.2 ∨ bn f 0 1 ≠ 1 ∨ r.1.lstate d l ≠ 4 then r.1 else
    let x := r.1.link d l
    if BitVec.ofNat 16 (bn f 2 2) ≠ x.lastAcc + 1 then r.1
    else
      let v := bn f 1 1 / 64
      let units := bn f 6 1
      let sp := spent x.granted v units (fld s.free 0 32)
      let y : Port :=
        { x with lastAcc := x.lastAcc + 1
                 granted := (x.granted.setIfInBounds v (x.granted.getD v 0 - sp.1)).setIfInBounds 4 (x.granted.getD 4 0 - sp.2)
                 freed := (x.freed.setIfInBounds v (x.freed.getD v 0 + sp.1)).setIfInBounds 4 (x.freed.getD 4 0 + sp.2) }
      let s1 := r.1.drawFree.modLink d l (fun _ => y.sendPlain 2 [])
      match msgOf (f.drop 32) (BitVec.ofNat 64 (bn f 8 8)) with
      | none => s1.countDiscard d
      | some m => s1.deliver d m

/-! ### Ports going down and coming up -/

/-- Clear the link layer of a port (R340). -/
def Port.cleared (x : Port) : Port :=
  { x with nextSeq := 0, lastAcc := 0xFFFF, sendq := [], retain := [], credit := Vector.replicate 5 0
           granted := Vector.replicate 5 0, freed := Vector.replicate 5 0, hello := none, echoes := []
           sentAccept := false, gotAccept := false }

/-- Clear every link of a port. -/
def State.clearPort (s : State) (d : DieIx) (p : PortIx) : State := (s.linksOf p).foldl (fun t l => t.modLink d l Port.cleared) s

/-- The ports of a die. -/
def portList : List PortIx := List.finRange 7

/-- DISC_DONE: every populated port is up or disabled (R351). -/
def State.discDone (s : State) (d : DieIx) : State :=
  let ok := portList.all (fun p => !portExists s.fuses.variant d.val p.val || decide (p.val = 3)
    || decide (s.pstate d p = 4) || decide (s.pstate d p = 1))
  s.modReg d rLnkStatus (fun w => setBit w 31 ok)

/-- A port goes down with a cause (R337, R338, R340, R348): its frames are lost, the event is logged and counted when it was
up, and the eighth down within 600 s disables it. -/
def State.linkDown (s : State) (d : DieIx) (p : PortIx) (cause : Nat) : State :=
  let up := decide (s.pstate d p = 4)
  let now := s.nominal d / 940
  let downs := if up then ((s.port d p).downs.filter (fun t => decide (t + 600000000 > now))) ++ [now] else (s.port d p).downs
  let limit := up && decide (downs.length ≥ 8)
  let s1 := (s.clearPort d p).modPort d p (fun x => { x with downs := downs })
  let s2 := s1.modReg d (rLnkPpeer p.val) (fun w => setBit w 31 false)
  let s3 := if up then
      (s2.addSat d (rLnkPdown p.val) 0 24 1).logEvent d 0x0801 0 (p.val + cause * 256)
    else s2
  ((s3.setPstate d p (if limit then 1 else 5)).setCause d p (if limit then 9 else cause)).discDone d

/-- A PORT event for the host (R476). -/
def State.portEvent (s : State) (d : DieIx) (p : PortIx) (cause : Nat) : State :=
  s.unitEvent d (s.endpoint d 63) 6 (d.val * 2 ^ 21 + p.val * 2 ^ 16 + cause)

/-- Disable a port with a cause found by discovery and log it with the peer's serial (R347). -/
def State.rejectPort (s : State) (d : DieIx) (p : PortIx) (cause : Nat) : State :=
  let serial := match (s.port d p).hello with
    | some h => h.serial
    | none => 0
  let s1 := ((s.setPstate d p 1).setCause d p cause).clearPort d p
  let s2 := (s1.logEvent d 0x0802 0 (p.val + cause * 256)).logEvent d 0x0803 0 serial.toNat
  (s2.portEvent d p cause).discDone d

/-- Start training of a port (R333, R348). -/
def State.trainPort (s : State) (d : DieIx) (p : PortIx) : State :=
  ((s.clearPort d p).setPstate d p 2).discDone d

/-- The port's class rate in bytes per nanosecond at full width. -/
def classRate (p : Nat) : Nat := if p < 3 then 2000 else if p = 4 then 400 else 200

/-- Effective rate in thousandths of the class rate, and whether credit limits it (R333, R344). -/
def State.rateOf (s : State) (d : DieIx) (p : PortIx) (cycles : Nat) : Nat × Bool :=
  let half := bitAt (s.reg d (rLnkPstat p.val)) 14
  let width := if half then 500 else 1000
  if p.val < 3 then (width, false)
  else
    let loop := cycles * 1000 + 160 * 940
    let lim := 1000 * (portBuffer p.val * 64) * 940 / (classRate p.val * loop)
    if lim < width then (lim, true) else (width, false)

/-! ### Discovery (R346, R347) -/

/-- The HELLO payload that a port sends. -/
def State.helloPayload (s : State) (d : DieIx) (p : PortIx) : List Byte :=
  leBytes 4 1 ++ leBytes 8 s.fuses.serial.toNat ++ leBytes 2 (s.moduleNo d) ++ leBytes 1 (d.val * 32 + p.val * 4)
    ++ leBytes 1 s.fuses.variant ++ leBytes 4 (s.reg d rLnkTable).toNat ++ leBytes 1 (s.rf d rStkCfg 0 8)
    ++ leBytes 1 (16 + s.rf d (rLnkPstat p.val) 0 6 / 4) ++ leBytes 4 (portBuffer p.val)
    ++ leBytes 6 (s.settings.primary.toNat + s.settings.backup.toNat * 2 ^ 14) ++ leBytes 32 0

def helloOf (b : List Byte) : HelloInfo :=
  { serial := BitVec.ofNat 64 (bn b 4 8), module := BitVec.ofNat 14 (bn b 12 2), die := bn b 14 1 / 32
    port := bn b 14 1 / 4 % 8, variant := bn b 15 1, table := BitVec.ofNat 32 (bn b 16 4), period := bn b 20 1
    lanes := bn b 21 1 % 16 * 4, buffer := bn b 22 4, primary := BitVec.ofNat 14 (bn b 26 6 % 2 ^ 14)
    backup := BitVec.ofNat 14 (bn b 26 6 / 2 ^ 14 % 2 ^ 14) }

/-- ECHO, ECHO_REPLY, ACCEPT and REJECT payloads: the subtype, then t1, t2 and t3 or the cause (the layout after the
subtype is not stated; log entry 12). -/
def echoPayload (sub : Nat) (t1 t2 t3 : Nat) : List Byte := leBytes 8 sub ++ leBytes 8 t1 ++ leBytes 8 t2 ++ leBytes 8 t3 ++ leBytes 32 0
def verdictPayload (sub cause : Nat) : List Byte := leBytes 4 sub ++ leBytes 1 cause ++ leBytes 59 0

def State.sendHello (s : State) (d : DieIx) (p : PortIx) : State :=
  s.modPort d p (fun x => x.sendPlain 5 (s.helloPayload d p))

def State.sendEcho (s : State) (d : DieIx) (p : PortIx) : State :=
  s.modPort d p (fun x => x.sendPlain 5 (echoPayload 2 (s.stamp d).toNat 0 0))

/-- A stamp in nominal cycles (R45). -/
def nominalOf (period stamp : Nat) : Nat := stamp / 2 ^ 24 * (period * 940) + stamp % 2 ^ 24

/-- Smallest round trip of the echoes (R346). -/
def minOf (l : List Nat) : Nat := l.foldl (fun a b => if b < a then b else a) (l.headD 0)

/-- Whether the module's own table entry fails the SELF check (R347), or its slot is unknown for a parity error (R502). -/
def State.selfFail (s : State) : Bool :=
  bitAt (s.preg rPwrStatus) 3 || match s.ownEntry with
  | none => true
  | some e => decide (e.slot ≠ s.slot)

/-- CHECK (R347): 0 accepts, else the first cause that applies (codes of LNK_PSTAT.CAUSE). Die-fabric ports compare the
peer's die with R328. -/
def State.checkPeer (s : State) (d : DieIx) (p : PortIx) (h : HelloInfo) (rtt : Nat) : Nat :=
  if p.val < 3 then
    (if fabricPeer s.fuses.variant d.val p.val = some h.die ∧ h.serial = s.fuses.serial then 0 else 7)
  else if s.selfFail then 3
  else if h.table ≠ s.reg d rLnkTable then 4
  else if h.period ≠ s.rf d rStkCfg 0 8 then 5
  else if p.val = 4 ∧ h.variant ≠ s.fuses.variant then 6
  else
    let nb : BitVec 24 := match s.ownEntry with
      | none => 0xFFFFFF
      | some e => if p.val = 4 then e.boardNb.getD (d.val / 2) 0xFFFFFF else e.optNb.getD (2 * d.val + (p.val - 5)) 0xFFFFFF
    let peerSerial := (s.settings.table.find? (fun e => decide (e.module = h.module))).map (fun e => e.serial)
    let okNb := if p.val = 4 then
        decide (nb.toNat / 2 ^ 10 = h.module.toNat ∧ nb.toNat / 2 ^ 8 % 4 = h.die / 2 ∧ h.port = 4 ∧ h.die = d.val)
      else decide (nb.toNat / 2 ^ 10 = h.module.toNat ∧ nb.toNat / 2 ^ 6 % 16 = 2 * h.die + (h.port - 5) ∧ h.port ≥ 5)
    if nb = 0xFFFFFF ∨ !okNb ∨ peerSerial ≠ some h.serial then 7
    else if rtt > 1504 then 8
    else 0

/-- The port comes up when both ends have sent ACCEPT (R346): credit is granted and sequence numbers start at 0 on each of its links;
CAUSE goes on to name the last down or disable (R353). -/
def State.grant (s : State) (d : DieIx) (p : PortIx) : State :=
  let x := s.port d p
  match x.hello with
  | none => s
  | some h =>
    if x.sentAccept ∧ x.gotAccept then
      let s1 := (s.linksOf p).foldl (fun t l => t.modLink d l (fun y =>
        { y with nextSeq := 0, lastAcc := 0xFFFF, credit := grantOf h.buffer, granted := grantOf (portBuffer p.val)
                 freed := Vector.replicate 5 0, failLogged := false })) s
      let s2 := s1.setReg d (rLnkPpeer p.val)
        (BitVec.ofNat 32 (2 ^ 31 + h.module.toNat * 512 + h.die * 64 + h.port * 8))
      (s2.setPstate d p 4).discDone d
    else s

/-- A frame of discovery with the given subtype, at a port in discovery. -/
def State.discFrame (s : State) (d : DieIx) (p : PortIx) (f : List Byte) (sub : Nat) (k : State → State) : State :=
  let r := s.rxFrame d (linkOf p) f
  if r.2 ∧ bn f 0 1 = 5 ∧ bn f 32 4 = sub ∧ r.1.pstate d p = 3 then k r.1 else r.1

/-- Whether a port is disabled by CHECK or by DOWN_LIMIT (R348). -/
def State.clearableDisable (s : State) (d : DieIx) (p : PortIx) : Bool :=
  let c := s.rf d (rLnkPstat p.val) 24 4
  decide (s.pstate d p = 1) && decide (c ≥ 3 ∧ c ≤ 9)

/-- The peer's HELLO (R346): it is recorded, masters that differ are logged (R350), and the echoes begin. A port that CHECK
disabled retries because the peer's port has retrained (R348). -/
def State.rxHello (s : State) (d : DieIx) (p : PortIx) (f : List Byte) : State :=
  let s0 := if s.clearableDisable d p ∧ s.rf d (rLnkPstat p.val) 24 4 ≠ 9 ∧ frameOk f ∧ bn f 0 1 = 5 ∧ bn f 32 4 = 1 then
      (((s.clearPort d p).setPstate d p 3).discDone d).sendHello d p
    else s
  s0.discFrame d p f 1 (fun t =>
    let h := helloOf (f.drop 32)
    let t1 := t.modPort d p (fun x => { x with hello := some h, echoes := [] })
    let t2 := if h.primary ≠ t.settings.primary ∨ h.backup ≠ t.settings.backup then
        t1.logEvent d 0x0805 0 (h.primary.toNat + h.backup.toNat * 2 ^ 14)
      else t1
    t2.sendEcho d p)

/-- A peer's ECHO is answered with its stamp, its arrival and the send stamp (R346). -/
def State.rxEcho (s : State) (d : DieIx) (p : PortIx) (f : List Byte) : State :=
  s.discFrame d p f 2 (fun t =>
    t.modPort d p (fun x => x.sendPlain 5 (echoPayload 3 (bn f 40 8) (t.stamp d).toNat (t.stamp d).toNat)))

/-- Every die of the module shows that its own table entry fails (R347, R351). -/
def State.showSelfFail (s : State) : State :=
  s.allDies.foldl (fun t e => if (t.die e).held then t else t.modReg e rLnkStatus (fun w => setFld (setBit w 29 true) 0 14 0)) s

/-- An ECHO_REPLY (R346): after 64 of them P is the smallest round trip, the peer is checked, and ACCEPT or REJECT is sent. Of a
credit-limited link the host hears by a PORT event, the only event kind of R476 that names a port, with the port's CAUSE; R344 says only 'a
health event' (DESIGN CHOICE, log entry 162). -/
def State.rxEchoReply (s : State) (d : DieIx) (p : PortIx) (f : List Byte) : State :=
  s.discFrame d p f 3 (fun t =>
    let per := t.rf d rStkCfg 0 8
    let rtt := (nominalOf per (t.stamp d).toNat - nominalOf per (bn f 40 8))
      - (nominalOf per (bn f 56 8) - nominalOf per (bn f 48 8))
    let t1 := t.modPort d p (fun x => { x with echoes := x.echoes ++ [rtt] })
    let es := (t1.port d p).echoes
    if es.length < 64 then t1.sendEcho d p
    else
      match (t1.port d p).hello with
      | none => t1
      | some h =>
        let pm := minOf es
        let rate := t1.rateOf d p pm
        let t2 := t1.setReg d (rLnkPrtt p.val) (BitVec.ofNat 32 (min pm 65535 + rate.1 * 65536))
        let cause := t2.checkPeer d p h pm
        if cause = 0 then
          let t3 := t2.modReg d (rLnkPstat p.val) (fun w => setBit w 15 rate.2)
          let t4 := if rate.2 then
              (t3.logEvent d 0x0804 0 (p.val + rate.1 * 65536)).portEvent d p (t3.rf d (rLnkPstat p.val) 24 4)
            else t3
          (t4.modPort d p (fun x => { x.sendPlain 5 (verdictPayload 4 0) with sentAccept := true })).grant d p
        else
          let t3 := if cause = 3 then t2.showSelfFail else t2
          (t3.modPort d p (fun x => x.sendPlain 5 (verdictPayload 5 cause))).rejectPort d p cause)

def State.rxAccept (s : State) (d : DieIx) (p : PortIx) (f : List Byte) : State :=
  s.discFrame d p f 4 (fun t => (t.modPort d p (fun x => { x with gotAccept := true })).grant d p)

def State.rxReject (s : State) (d : DieIx) (p : PortIx) (f : List Byte) : State :=
  s.discFrame d p f 5 (fun t => t.rejectPort d p (bn f 36 1 % 16))

/-! ### Boundary work of the links -/

/-- Whether a die reaches some die of the module in another slot over copper: each port on the way is up, and so has completed discovery
with its peer (R342, R349). -/
def State.slotUp (s : State) (d : DieIx) (t : Nat) : Bool :=
  match s.moduleOfSlot t with
  | none => false
  | some m => (List.range 8).any (fun e => (s.boardRoute d t m e).isSome)

/-- Routes and the board map of a die change at a boundary after a port has gone down or come up (R341, R349); what a held die's ports are
by then, the dies that run learn with it. -/
def State.routeChange (s : State) (d : DieIx) : State :=
  let up := fun (e : DieIx) => portList.foldl (fun (w : BitVec 7) p => setBit w p.val (decide (s.pstate e p = 4))) 0
  let s1 := s.allDies.foldl (fun t e => if e = d ∨ (t.die e).held then t.modDie e (fun x => { x with routeUp := up e }) else t) s
  let map := (List.range 4).foldl (fun (w : BitVec 4) t => setBit w t (decide (t = s1.slot) || s1.slotUp d t)) 0
  s1.modDie d (fun x => { x with map := map })

/-- Die 0, in whose time Pelbex stamps what it writes itself. -/
def firstDie : DieIx := 0

/-- The die whose boundaries count the module's strokes: the first that runs (R350). -/
def State.leadDie (s : State) : Option DieIx := s.allDies.find? (fun d => !(s.die d).held)

/-- BOARD_PRESENCE to every other module of the board, once per stroke (R350). -/
def State.sendBoardPresence (s : State) (d : DieIx) : State :=
  match s.ownEntry with
  | none => s
  | some o =>
    (s.settings.table.filter (fun e => decide (e.rack = o.rack ∧ e.chassis = o.chassis ∧ e.tray = o.tray ∧ e.slot ≠ o.slot))
      ).foldl (fun t e =>
        t.sendMsg d (t.mkMsg d 0x37 (BitVec.ofNat 23 (e.module.toNat * 512 + 63)) 0 0 0 0 (leBytes 1 s.slot) [])) s

/-- Board master at a boundary (R350): strokes without presence from a lower slot are counted, a master that received one
stops driving. -/
def State.boardBoundary (s : State) (d : DieIx) : State :=
  if s.leadDie ≠ some d then s else
    let b := s.board
    let b1 := if b.seenLower then { b with master := false, driving := false, silent := 0, seenLower := false }
      else { b with silent := b.silent + 1 }
    let s1 := { s with board := b1 }
    let s2 := s.allDies.foldl (fun t e => t.modReg e rLnkStatus (fun w => setBit w 30 b1.master)) s1
    s2.sendBoardPresence d

end Sys2Proof.Machine
end

