-- ==== Sys2Proof/Machine/Views.lean ====
section
/-! DEFINITION. What a register reads: places in the register space, the members of a job, status views (R118, R137 to R139, R168,
R208, R275, R444, R449, R517 to R524). -/

namespace Sys2Proof.Machine

/-! ### Places -/

def coreIx (n : Nat) : CoreIx := ⟨n % 48, Nat.mod_lt _ (by decide)⟩
def ctxIx (n : Nat) : CtxIx := ⟨n % 32, Nat.mod_lt _ (by decide)⟩
def portIx (n : Nat) : PortIx := ⟨n % 7, Nat.mod_lt _ (by decide)⟩
def quadIx (n : Nat) : Fin 4 := ⟨n % 4, Nat.mod_lt _ (by decide)⟩

/-- The core whose blocks hold an offset, and the offset within them. -/
def coreOff (off : Nat) : Option (CoreIx × Nat) :=
  if off ≥ 0x40000 ∧ off < 0x100000 then some (coreIx ((off - 0x40000) / 0x4000), (off - 0x40000) % 0x4000) else none

/-- The queue window that an offset lies in, and the byte within it. -/
def windowOf (off : Nat) : Option (QId × Nat) :=
  let inW := fun (base : Nat) => decide (off ≥ base) && decide (off < base + 64)
  match coreOff off with
  | some (c, o) => if o ≥ 0x1000 ∧ o < 0x1040 then some (.core c, o - 0x1000) else none
  | none =>
    if inW (blkBIL + 0x1000) then some (.bil, off % 64)
    else if inW (blkUPD + 0x1000) then some (.upd, off % 64)
    else if inW (blkCRU + 0x1000) then some (.cru, off % 64)
    else if inW (blkCOL + 0x1000) then some (.col, off % 64)
    else if inW (blkTXE + 0x1000) then some (.txe, off % 64)
    else if inW (blkASY + 0x1000) then some (.hlt, off % 64)
    else if off ≥ blkROW + 0x1000 ∧ off < blkROW + 0x1100 then some (.row (quadIx ((off - blkROW - 0x1000) / 64)), off % 64)
    else none

/-! ### Members (R265) -/

/-- Put an endpoint into its place in a list with rising identifiers. -/
def insertEnd (e : Endpoint) : List Endpoint → List Endpoint
  | [] => [e]
  | x :: l => if e.toNat ≤ x.toNat then e :: x :: l else x :: insertEnd e l

/-- Endpoints in rising order of their identifiers (R265). -/
def sortEnds (l : List Endpoint) : List Endpoint := l.foldr insertEnd []

def State.membersOf (s : State) (job : BitVec 12) : List Endpoint :=
  match s.jobs.find? (fun j => decide (j.job = job)) with
  | some j => j.members
  | none => []

/-! ### Status -/

/-- The physical row that the spare row of an array replaces, by the fuse map (R118). -/
def State.spareRow (s : State) (d : DieIx) (c : CoreIx) : Option (Fin 128) :=
  (s.fuses.spareRows.find? (fun p => decide (p.1 = d) && decide (p.2.1 = c))).map (fun p => p.2.2)

/-- MX_LAT (R138): every LAT grows by one where the spare row is in use. -/
def State.mxLat (s : State) (d : DieIx) (c : CoreIx) : Word := if (s.spareRow d c).isSome then 0x0C1E0D05 else 0x041A0B04

/-- MX_SPARE (R139). -/
def State.mxSpare (s : State) (d : DieIx) (c : CoreIx) : Word :=
  match s.spareRow d c with
  | some r => BitVec.ofNat 32 (256 + r.val)
  | none => 0x80

/-- Whether a sliced MUL is loading slice pairs (R120, R121): it streams, and waits for a pair. -/
def State.loadsPairs (s : State) (d : DieIx) (c : CoreIx) : Bool := (s.core d c).arr.run.isSome

/-- MX_STATUS (R137). -/
def State.mxStatus (s : State) (d : DieIx) (c : CoreIx) : Word :=
  let k := s.core d c
  let busy := fun (l : List Nat) => k.queue.running.any (fun r => l.contains (dKind r.desc))
  let fenced := k.fenceArr || s.coreFenced d c
  BitVec.ofNat 32 ((if fenced then 1024 else 0)
    + (match k.arr.shadow with
       | some x => (if x.diag then 512 else 0)
       | none => 0)
    + (match k.arr.active with
       | some x => (if x.diag then 256 else 0) + x.fmt.code * 16
       | none => 240)
    + (if busy [0x20] then 4 else if k.arr.shadow.isSome then 8 else 0)
    + (if busy [0x20] || s.loadsPairs d c then 2 else 0) + (if busy [0x21, 0x22] then 1 else 0))
/-! ### Assay coverage (R444, R449) -/

/-- The units of a pass that are in service: those of every core, every memory checker, the VERIFIED tables, the engines, and every
library entry on every unfenced core. -/
def State.assayUnits (s : State) (d : DieIx) : List AssayUnit :=
  let cores := (List.finRange 48).filter (fun c => !s.coreFenced d c)
  cores.flatMap (fun c => (if (s.core d c).fenceArr then [] else (List.finRange 5).map (fun m => AssayUnit.array c m))
      ++ (if (s.core d c).fenceVec then [] else [.vector c]) ++ (if s.dmaFenced d c then [] else [.dma c])
      ++ [.processor c, .scratchpad c, .bank c])
    ++ (List.finRange 4).flatMap (fun q => [AssayUnit.side q, .row q, .hbm q]) ++ [.buffer]
    ++ ((List.finRange 32).filter (fun n => decide (s.rf d (rBilTbl (n.val / 16)) (2 * (n.val % 16)) 2 = 2))).map AssayUnit.table
    ++ [QId.col, .txe, .upd, .bil, .cru].map AssayUnit.uncore
    ++ (cores.filter (fun c => !(s.core d c).fenceArr)).flatMap (fun c => (List.range s.flash.library.length).map (fun i => AssayUnit.library i c))

/-- When a unit last ran, in timebase cycles. -/
def State.unitRan (s : State) (d : DieIx) (u : AssayUnit) : Nat :=
  (((s.die d).assay.lastRun.find? (fun p => decide (p.1 = u))).map (fun p => p.2)).getD 0

/-- Hours since the least recently covered unit last ran. -/
def State.assayAge (s : State) (d : DieIx) : Nat :=
  let now := s.nominal d
  (now - ((s.assayUnits d).map (s.unitRan d)).foldl min now) / (940 * 3600000000)

def State.fencedBit (s : State) (d : DieIx) (b : Nat) : Nat := if s.dieFenced d then 2 ^ b else 0

def State.busyBit (s : State) (d : DieIx) (q : QId) (b : Nat) : Nat := if (s.queue d q).running.isEmpty then 0 else 2 ^ b

/-- Identification registers (R517 to R520). -/
def State.idWord (s : State) (d : DieIx) (off : Nat) : Word :=
  if off = blkID then s.fuses.dieStepping.setWidth 32 <<< 24 ||| BitVec.ofNat 32 (d.val * 65536 + s.fuses.variant * 256)
  else if off = blkID + 4 then 0x4D455652
  else if off = blkID + 8 then s.fuses.dieSerial[d].setWidth 32
  else if off = blkID + 12 then (s.fuses.dieSerial[d] >>> 32).setWidth 32
  else if off = blkID + 16 then 1
  else 0

/-- ROOT and BACKUP of UPD_CMT_STAT k (R265, R275): whether this die's endpoint is the lowest or the next of the job's members. -/
def State.roleBits (s : State) (d : DieIx) (k : Nat) : Word :=
  let ends := sortEnds (s.membersOf (BitVec.ofNat 12 (s.rf d (rUpdSet k) 0 12)))
  let me := fun (e : Option Endpoint) => e.any (fun x => decide (x.toNat / 64 = (s.endpoint d 63).toNat / 64))
  if bitAt (s.reg d (rUpdSet k)) 31 then BitVec.ofNat 32 ((if me ends[0]? then 16 else 0) + (if me ends[1]? then 32 else 0)) else 0

/-- The value in force of a register word: computed status, hidden seeds and windows as zero, else the stored word. -/
def State.regView (s : State) (d : DieIx) (off : Nat) : Word :=
  match (List.range 32).find? (fun k => decide (off = rCmtStat k)) with
  | some k => s.reg d off ||| s.roleBits d k
  | none =>
  if (windowOf off).isSome then 0
  else
  match coreOff off with
  | some (c, o) =>
    let k := s.core d c
    if o = 0x08 then BitVec.ofNat 32 ((if k.proc.stopped then 256 else 0) + (64 - min 64 k.queue.entries.length))
    else if o ≥ 0x190 ∧ o < 0x1A0 then 0
    else if o ≥ 0x200 ∧ o < 0x250 then
      let w := k.idle.getD ((o - 0x200) / 8) 0
      if o % 8 = 0 then w.setWidth 32 else (w >>> 32).setWidth 32
    else if o ≥ 0x280 ∧ o < 0x2D0 then
      let w := k.snap.getD ((o - 0x280) / 8) 0
      if o % 8 = 0 then w.setWidth 32 else (w >>> 32).setWidth 32
    else if o = 0x308 then k.snapStamp.setWidth 32
    else if o = 0x30C then (k.snapStamp >>> 32).setWidth 32
    else if o = 0x2000 then s.mxStatus d c
    else if o = 0x2008 then s.mxLat d c
    else if o = 0x2010 then s.mxSpare d c
    else if o = 0x3008 then
      BitVec.ofNat 32 ((if k.fenceVec || s.coreFenced d c then 2 else 0) + (if k.proc.running && k.proc.stall == .vector then 1 else 0))
    else s.reg d off
  | none =>
    if off < blkSTK then s.idWord d off
    else if off = rStkNow then (s.stamp d).setWidth 32
    else if off = rStkNow + 4 then (s.stamp d >>> 32).setWidth 32
    else if off = rEccFuse then s.fuses.spares[d]
    else if off ≥ rLnkPdown 0 ∧ off ≤ rLnkPdown 6 ∧ (off - rLnkPdown 0) % 0x40 = 0 then
      -- WINDOW counts the downs of the last 600 s at the time of the read (R357)
      let now := s.nominal d / 940
      let recent := ((s.port d (portIx ((off - rLnkPdown 0) / 0x40))).downs.filter (fun t => decide (t + 600000000 > now))).length
      BitVec.ofNat 32 (min recent 255 * 2 ^ 24 + s.rf d off 0 24)
    else if off = rBilStatus then
      BitVec.ofNat 32 (s.fencedBit d 1 + (if (s.queue d .bil).running.any (fun r => decide (dKind r.desc ≠ 0x82)) then 1 else 0))
    else if off ≥ blkROW ∧ off < blkROW + 0x400 ∧ off % 0x100 = 0 then
      let q := quadIx ((off - blkROW) / 0x100)
      BitVec.ofNat 32 ((if s.unitFenced d (.row q) 0x90 then 512 else 0) + s.busyBit d (.row q) 8
        + (s.die d).rowWins[q].length)
    else if off = rUpdStatus then
      BitVec.ofNat 32 ((s.die d).buckets.length * 256 + s.fencedBit d 2
        + (if (s.queue d .upd).running.any (fun r => decide (dKind r.desc ≠ 0x70)) then 2 else 0)
        + (if (s.queue d .upd).running.any (fun r => decide (dKind r.desc = 0x70)) then 1 else 0))
    else if off ≥ rUpdSeed 0 ∧ off < rBktSeed 4 then 0
    else if off = rCruStatus then
      BitVec.ofNat 32 (s.fencedBit d 9 + (match s.cruBusy d with
        | some k => 256 + k
        | none => 0))
    else if off = rColStatus then BitVec.ofNat 32 (s.fencedBit d 9 + s.busyBit d .col 8 + (s.queue d .col).running.length)
    else if off = rTxeStatus then BitVec.ofNat 32 (s.fencedBit d 9 + s.busyBit d .txe 8 + (s.queue d .txe).running.length)
    else if off = rAsyCover then BitVec.ofNat 32 (s.rf d rAsyCover 16 8 * 65536 + min (s.assayAge d) 65535)
    else if off ≥ rColSeed 0 ∧ off < rColSeed 4 then 0
    else if off = rEccFlipCtl then s.reg d off
    else s.reg d off

/-! ### The module's identity (R521, R522, R524) -/

/-- The configuration identifiers that the PCIe endpoint presents, and what its Device Serial Number capability carries (R524). -/
structure PcieIds where
  vendor : BitVec 16
  device : BitVec 16
  subVendor : BitVec 16
  subsystem : BitVec 16
  classCode : BitVec 24
  serialNumber : DWord
deriving DecidableEq, Repr

def State.pcieIds (s : State) : PcieIds :=
  { vendor := 0x1F8A, device := if s.fuses.variant = 0 then 0x0108 else if s.fuses.variant = 1 then 0x0104 else 0x0102
    subVendor := 0x1F8A, subsystem := 0x0001, classCode := 0x120000, serialNumber := s.fuses.serial }

/-- PEL_ID (R521). -/
def State.pelId (s : State) : Word := s.pcieIds.device ++ s.fuses.pelStepping ++ BitVec.ofNat 8 (s.dieCount * 16 + s.fuses.variant)

/-- What a word of the PEL block reads (R479, R521, R522). -/
def State.pelView (s : State) (off : Nat) : Word :=
  if off = rPelId then s.pelId
  else if off = rPelSerial then s.fuses.serial.setWidth 32
  else if off = rPelSerial + 4 then (s.fuses.serial >>> 32).setWidth 32
  else s.preg off

end Sys2Proof.Machine
end

