-- ==== Sys2Proof/Machine/Reset.lean ====
section
/-! DEFINITION. Reset domains: generation tags, notices, loupe capture, discarding, retention, escalation and fencing
(R404 to R420). -/

namespace Sys2Proof.Machine

/-! ### Domains -/

def domKind (m : Domain) : Nat :=
  match m with
  | .engine _ _ => 1
  | .core _ => 2
  | .quad _ => 3
  | .die => 4

/-- Key of a domain of a die in the escalation counters and the fence list. -/
def domKey (d : DieIx) (m : Domain) : Nat :=
  match m with
  | .engine c e => d.val * 4096 + 1024 + c.val * 4 + e.val
  | .core c => d.val * 4096 + 2048 + c.val
  | .quad q => d.val * 4096 + 3072 + q.val
  | .die => d.val * 4096 + 4000

/-- Key of the module in the escalation counters. -/
def moduleKey : Nat := 8 * 4096

/-- Quadrant of a core (R15). -/
def quadOf (c : CoreIx) : Nat := c.val / 12

/-- Whether domain b lies inside domain a or is a. -/
def domIn (a b : Domain) : Bool :=
  match a, b with
  | .die, _ => true
  | .quad q, .quad r => decide (q = r)
  | .quad q, .core c => decide (quadOf c = q.val)
  | .quad q, .engine c _ => decide (quadOf c = q.val)
  | .core c, .core k => decide (c = k)
  | .core c, .engine k _ => decide (c = k)
  | .engine c e, .engine k f => decide (c = k ∧ e = f)
  | _, _ => false

/-- Parent domain in the order of R408; the parent of a die is the module. -/
def domParent (m : Domain) : Option Domain :=
  match m with
  | .engine c _ => some (.core c)
  | .core c => some (.quad ⟨c.val / 12 % 4, Nat.mod_lt _ (by decide)⟩)
  | .quad _ => some .die
  | .die => none

/-- Cores inside a domain; an engine domain captures its core. -/
def domCores (m : Domain) : List CoreIx :=
  match m with
  | .engine c _ => [c]
  | .core c => [c]
  | .quad q => (List.finRange 48).filter (fun c => decide (quadOf c = q.val))
  | .die => List.finRange 48

def domSource (s : State) (d : DieIx) (m : Domain) : Endpoint :=
  match m with
  | .engine c _ => s.endpoint d c.val
  | .core c => s.endpoint d c.val
  | _ => s.endpoint d 63

/-! ### Generation tags (R412) -/

def State.domTag (s : State) (d : DieIx) (m : Domain) : BitVec 8 :=
  match m with
  | .engine c e => (s.core d c).tagEng[e]
  | .core c => (s.core d c).tagCore
  | .quad q => s.quadGen d q.val
  | .die => s.dieGen d

def bumpCore (k : Core) : Core :=
  { k with tagCore := k.tagCore + 1, tagEng := Vector.ofFn (fun i => k.tagEng[i] + 1) }

def bumpQuad (s : State) (d : DieIx) (q : Nat) : State := s.setRf d rHltGenQuad (8 * q) 8 (s.rf d rHltGenQuad (8 * q) 8 + 1)

/-- Increment the tag of a domain and of every domain inside it. -/
def State.bumpTags (s : State) (d : DieIx) (m : Domain) : State :=
  match m with
  | .engine c e => s.modCore d c (fun k => { k with tagEng := k.tagEng.set e (k.tagEng[e] + 1) })
  | .core c => s.modCore d c bumpCore
  | .quad q => (domCores m).foldl (fun t c => t.modCore d c bumpCore) (bumpQuad s d q.val)
  | .die =>
    let s1 := (List.finRange 48).foldl (fun t c => t.modCore d c bumpCore) s
    let s2 := [0, 1, 2, 3].foldl (fun t q => bumpQuad t d q) s1
    s2.setRf d rHltStatus 0 8 (s2.rf d rHltStatus 0 8 + 1)

/-- G is older than T (R412). -/
def tagOlder (g t : BitVec 8) : Bool := decide (1 ≤ (t - g).toNat) && decide ((t - g).toNat ≤ 128)

/-- Key under which an announced tag is kept: the endpoint's module and die, the domain kind and its index. -/
def announceKey (src : Endpoint) (kind core eng : Nat) : Nat :=
  src.toNat / 64 * 4096 + kind * 512 + (if kind = 1 then core * 4 + eng else if kind = 2 then core else if kind = 3 then core / 12 else 0)

/-- The tag last announced for a domain (R414). -/
def State.announcedTag (s : State) (d : DieIx) (key : Nat) : Option (BitVec 8) :=
  ((s.die d).announced.find? (fun p => p.1 == key)).map (fun p => p.2)

def State.setAnnounced (s : State) (d : DieIx) (key : Nat) (t : BitVec 8) : State :=
  s.modDie d (fun x => { x with announced := (key, t) :: x.announced.filter (fun p => p.1 != key) })

/-- Whether a message's tag is older than the announced tag of a domain that its sender lies in (R412, R414): an engine, the core and
the die of its core, or the die, by the source's CORE field. A reset of a wider domain moves the tags of the domains inside it too, so
the tag of an engine is never below the tags of the domains around it. A quadrant's notice names no quadrant (byte 30 is zero, R414), so
nothing is judged by one. -/
def State.staleMsg (s : State) (d : DieIx) (m : Msg) : Bool :=
  let core := m.src.toNat % 64
  let keys := (if core < 48 then [announceKey m.src 2 core 0, announceKey m.src 1 core 0, announceKey m.src 1 core 1,
      announceKey m.src 1 core 2] else []) ++ [announceKey m.src 4 0 0]
  keys.any (fun k => match s.announcedTag d k with
    | some t => tagOlder m.gen t
    | none => false)

/-! ### Commands that a reset discards (R94) -/

/-- Queues whose commands a domain's reset discards, with the engines concerned (all when `none`). -/
def domQueues (m : Domain) : List (QId × Option (Fin 3)) :=
  match m with
  | .engine c e => [(.core c, some e)]
  | .core c => [(.core c, none)]
  | .quad q => ((domCores m).map (fun c => (QId.core c, none))) ++ [(.row q, none)]
  | .die => allQueues.map (fun q => (q, none))

/-- Whether a running core command belongs to an engine of R407 (0 array, 1 vector, 2 DMA). -/
def onEngine (kind : Nat) (e : Option (Fin 3)) : Bool :=
  match e with
  | none => true
  | some 0 => decide (kind ≥ 0x20 ∧ kind ≤ 0x2F)
  | some 2 => decide (kind = 0x10 ∨ kind = 0x11)
  | some _ => false

/-- Commands of a queue that the reset discards: running ones of the engine, and queued ones unless only an engine resets. -/
def discardedOf (x : CmdQueue) (e : Option (Fin 3)) : List (Desc × Option Running) :=
  (x.running.filter (fun r => onEngine (dKind r.desc) e)).map (fun r => (r.desc, some r))
    ++ (if e.isNone then (x.entries ++ x.backlog).map (fun y => (y.desc, none)) else [])

def discardQueue (x : CmdQueue) (e : Option (Fin 3)) : CmdQueue :=
  { x with running := x.running.filter (fun r => !onEngine (dKind r.desc) e)
           entries := if e.isNone then [] else x.entries
           backlog := if e.isNone then [] else x.backlog
           claim := if e.isNone then none else x.claim
           held := if e.isNone then [] else x.held }

def State.discardedIn (s : State) (d : DieIx) (m : Domain) : List (QId × Desc × Option Running) :=
  (domQueues m).flatMap (fun p => (discardedOf (s.queue d p.1) p.2).map (fun x => (p.1, x)))

/-- Jobs that lose a command. -/
def State.jobsHit (s : State) (d : DieIx) (m : Domain) : List (BitVec 12) :=
  ((s.discardedIn d m).map (fun p => dJob p.2.1)).eraseDups

/-- The record of a discarded command (R94): a running command other than a matrix instruction says how far it came, and a kernel
what R149 states. -/
def State.abortRecord (s : State) (d : DieIx) (q : QId) (x : Desc × Option Running) : Completion :=
  match x.2 with
  | some r =>
    let u := s.reported d q r
    if dKind x.1 = 0x21 ∨ dKind x.1 = 0x22 then mkCompletion s d q x.1 stAborted (.err stAborted)
    else mkCompletion s d q x.1 (pickStatus (u.stats ++ [stAborted])) ⟨[], u.flags, 0, u.detail⟩
  | none => mkCompletion s d q x.1 stAborted (.err stAborted)

/-- Whether a port of a die carries messages. -/
def State.sends (s : State) (d : DieIx) : Bool :=
  !(s.die d).held && portList.any (fun p => decide (p.val ≠ 3) && portExists s.fuses.variant d.val p.val && decide (s.pstate d p = 4))

/-- The die that sends the notices of a reset: the die of the domain, or, if it cannot send, another die of the module (R414). -/
def State.noticeVia (s : State) (d : DieIx) : DieIx :=
  if s.sends d then d else (s.allDies.find? s.sends).getD d

/-- RESET_NOTICE to the members of each job that loses a command; the own member takes note at once (R407 step 2, R414, R415). -/
def State.sendNotices (s : State) (d : DieIx) (m : Domain) : State :=
  let core := match m with
    | .engine c _ => c.val
    | .core c => c.val
    | _ => 0
  let eng := match m with
    | .engine _ e => e.val
    | _ => 0
  let spec := leBytes 1 (domKind m) ++ leBytes 1 (s.domTag d m).toNat ++ leBytes 1 core ++ leBytes 1 eng
    ++ leBytes 8 (s.stamp d).toNat
  let via := s.noticeVia d
  (s.jobsHit d m).foldl (fun t0 job =>
    let t := t0.noteNotice d job
    ((t.membersOf job).filter (fun e => e != t.endpoint d 63)).foldl (fun u e =>
      u.sendMsg via { u.mkMsg d 0x32 e job 0 0 0 spec [] with src := u.endpoint d 63 }) t) s

/-! ### Loupe capture (R411, R541) -/

def captureEnd : Nat := 0x7E50000000
def captureBase : Nat := 0x7E10000000

/-- Enabled capture windows (R429): whether it is in the bank, and the block. -/
def State.loupeWindows (s : State) (d : DieIx) : List (Bool × Nat) :=
  ((List.range 8).filter (fun n => bitAt (s.reg d (rHltLoupeWin n)) 31)).map
    (fun n => (bitAt (s.reg d (rHltLoupeWin n)) 8, s.rf d (rHltLoupeWin n) 0 8))

/-- Offset in region 0x01 of a capture window of a core. -/
def windowOff (c : CoreIx) (w : Bool × Nat) : Nat := (if w.1 then bankBase c.val else spBase c.val) + w.2 * 16384

/-- Whether a stack serves requests: trained, not in self-refresh, and the die not in test hold (R288, R293). -/
def State.stackServes (s : State) (d : DieIx) (k : Nat) : Bool :=
  bitAt (s.reg d rHbmStatus) (4 + k) && !bitAt (s.reg d rHbmStatus) (8 + k) && !bitAt (s.reg d rHbmStatus) 3

/-- Whether the die's HBM accepts requests: all four stacks always do so together (R284, R288). -/
def State.hbmServes (s : State) (d : DieIx) : Bool := [0, 1, 2, 3].all (fun k => s.stackServes d k)

/-- Copy stored bytes within a die without conversion, as the health controller reads and writes them (R304, R317). -/
def State.copyRaw (s : State) (d : DieIx) (srcRegion srcOff dstOff n : Nat) : State :=
  let r := s.memRead ⟨d, 0, true⟩ d srcRegion srcOff n
  r.state.memWrite ⟨d, 0, true⟩ d 0 dstOff r.bytes r.poison

/-- Bytes cut or filled with zeros to a length. -/
def fillTo (n : Nat) (bs : List Byte) : List Byte := bs.take n ++ List.replicate (n - bs.length) 0

/-- The control-state block of a core (R411): queue entries, g, f, predicate and control registers, program counter, MX_STATUS,
VX_STATUS, VX_FAULT. -/
def State.controlBlock (s : State) (d : DieIx) (c : CoreIx) : List Byte :=
  let k := s.core d c
  let reg := fun (o : Nat) => leBytes 4 (s.regView d o).toNat
  fillTo 8192 (fillTo 4096 (k.queue.entries.flatMap (fun e => descBytes e.desc))
    ++ k.proc.g.toList.flatMap (fun w => leBytes 8 w.toNat)
    ++ k.vec.v.toList.flatMap (fun w => leBytes 8 (w.toNat % 2 ^ 64))
    ++ k.vec.p.toList.flatMap (fun w => leBytes 64 w.toNat)
    ++ [k.proc.xcause, k.proc.xpc, k.proc.xaddr, k.proc.fpctl, s.stamp d].flatMap (fun w => leBytes 8 w.toNat)
    ++ leBytes 8 (s.endpoint d c.val).toNat ++ leBytes 8 k.proc.pc.toNat ++ reg (rMxStatus c.val) ++ reg (rVxStatus c.val)
    ++ reg (rVxFault c.val))

/-- Status registers of the uncore queues (R411). -/
def uncoreQueues : List (QId × Nat) :=
  [(.bil, rBilStatus), (.upd, rUpdStatus), (.row 0, blkROW), (.row 1, blkROW + 0x100), (.row 2, blkROW + 0x200), (.row 3, blkROW + 0x300),
    (.cru, rCruStatus), (.col, rColStatus), (.txe, rTxeStatus), (.hlt, rHltStatus)]

/-- The uncore block (R411): status register and running commands of every uncore queue, and the event log pointer. -/
def State.uncoreBlock (s : State) (d : DieIx) : List Byte :=
  fillTo 65536 (uncoreQueues.flatMap (fun q =>
      fillTo 5120 (fillTo 64 (leBytes 4 (s.regView d q.2).toNat) ++ (s.queue d q.1).running.flatMap (fun r => descBytes r.desc)))
    ++ leBytes 8 (s.die d).logNext)

/-- Write bytes of a capture. -/
def State.putCapture (s : State) (d : DieIx) (off : Nat) (bs : List Byte) : State :=
  s.memWrite ⟨d, 0, true⟩ d 0 off bs (List.replicate bs.length false)

/-- Take the capture of a reset: the header goes to the capture area, then the control-state block of each core with its windows, then
the uncore block of a die, and HLT_LOUPE_LAST names it. With HBM that cannot be written it stops where it stands, before its first
byte, and is truncated. -/
def State.capture411 (s : State) (d : DieIx) (m : Domain) (kind cause : Nat) (gen : BitVec 8) (trunc : Bool) : State × Nat :=
  if trunc then (s, 0) else
  let cores := domCores m
  let wins := if kind = 5 then [] else s.loupeWindows d
  let per := 8192 + wins.length * 16384
  let bytes := 64 + cores.length * per + (if kind = 4 then 65536 else 0)
  let off := if (s.die d).captureNext + bytes > captureEnd then captureBase else (s.die d).captureNext
  let header := leBytes 8 (s.stamp d).toNat ++ leBytes 1 kind ++ leBytes 1 cause ++ leBytes 1 gen.toNat
    ++ leBytes 1 0 ++ leBytes 4 (domSource s d m).toNat ++ leBytes 4 cores.length
    ++ leBytes 1 wins.length ++ leBytes 3 0 ++ leBytes 8 bytes ++ leBytes 32 0
  let cap : Capture := ⟨off, header, cores.map (fun c => (c, s.core d c))⟩
  let s1 := (cores.zipIdx).foldl (fun t p =>
    (wins.zipIdx).foldl (fun u w => u.copyRaw d 1 (windowOff p.1 w.1) (off + 64 + p.2 * per + 8192 + w.2 * 16384) 16384)
      (t.putCapture d (off + 64 + p.2 * per) (s.controlBlock d p.1))) (s.putCapture d off header)
  let s2 := if kind = 4 then s1.putCapture d (off + 64 + cores.length * per) (s.uncoreBlock d) else s1
  let next := (off + bytes + 4095) / 4096 * 4096
  let s3 := s2.modDie d (fun x => { x with captures := x.captures ++ [cap], captureNext := next })
  (s3.setReg64 d rHltLoupeLast (BitVec.ofNat 64 (s.boardOf (memKey d.val 0 off))), off)

/-! ### The stacks: training, self-refresh, test hold (R282 to R284, R288, R294) -/

def State.modHbm (s : State) (d : DieIx) (f : HbmCtl → HbmCtl) : State := s.modDie d (fun x => { x with hbm := f x.hbm })

/-- HOLD, and its copy in HBM_STATUS (R295, R299). -/
def State.holdHbm (s : State) (d : DieIx) (hold : Bool) : State :=
  (s.modReg d rHbmTestCtl (fun w => setBit w 1 hold)).modReg d rHbmStatus (fun w => setBit w 3 hold)

/-- The stacks go to self-refresh, after every write that was accepted (R288). -/
def State.selfRefresh (s : State) (d : DieIx) : State :=
  let s1 := [0, 1, 2, 3].foldl (fun t k => t.modReg d (rHbmStk k) (fun w => setBit w 0 false)) (s.writeBackAll d)
  ((s1.setRf d rHbmStatus 8 4 15).setRf d rHbmStatus 4 4 0).modHbm d (fun h => { h with waiting := [], openRows := [] })

/-- The row of a hard post-package repair that a die reset interrupts is in an unknown state (R294): the row that the shift image
names, in the stack that HBM_TEST_CTL.STACK names (R299). No access has moved those bytes. -/
def State.loseRepair (s : State) (d : DieIx) : State :=
  match (s.die d).hbm.wrapper.bind (fun w => Config.repairedRow w.1 ((List.range 8).map (fun n => s.reg d (rHbmTestData n)))) with
  | none => s
  | some row0 =>
    let row := setFld row0 50 2 (s.rf d rHbmTestCtl 16 2)
    ((List.range 4).foldl (fun t g =>
      { t with mem := ⟨pokeCells t.mem.cells (memKey d 0 (granule row g)) ((List.range 256).map (fun k => Config.unknownByte s.draws (256 * g + k))),
                       t.mem.marks⟩ }) s).drawFree

/-- Stacks with a lane group that needs more than its one redundant lane (R283). -/
def State.lanesOver (s : State) (d : DieIx) : BitVec 4 :=
  [0, 1, 2, 3].foldl (fun w k => setBit w k ((s.die d).hbm.lanes.any (fun p => decide (p.1 / 64 = k) && decide (p.2 ≥ 2)))) 0

/-- Lanes that training finds bad in their eye or their parity checks join those that failed in service (R283). -/
def State.findLanes (s : State) (d : DieIx) (l : List (Fin 4 × Fin 48)) : State :=
  s.modHbm d (fun h => { h with lanes := l.foldl (fun a p =>
    SMap.set 0 a (p.1.val * 64 + p.2.val) (SMap.get 0 a (p.1.val * 64 + p.2.val) + 1)) h.lanes })

/-- Trained state of a die's stacks after training; `named` are the stacks that fail for another reason than their lanes. A redundant
lane takes the place of every bad lane (R283). -/
def State.hbmTrain (s : State) (d : DieIx) (named : BitVec 4) : State :=
  let fail := named ||| s.lanesOver d
  let s1 := [0, 1, 2, 3].foldl (fun t k =>
    let used := ((s.die d).hbm.lanes.filter (fun p => decide (p.1 / 64 = k))).length
    t.modReg d (rHbmStk k) (fun w =>
      setBit (setBit (setFld w 8 8 (min used 255)) 3 (bitAt fail k)) 0 (!bitAt fail k))) s
  (s1.setRf d rHbmStatus 4 4 ((~~~fail).toNat)).setRf d rHbmStatus 8 4 0

/-- Full training at 9.2 Gb/s with the fallback to 8.0 Gb/s for all four stacks (R282, R284). -/
def State.hbmFullTrain (s : State) (d : DieIx) (fail92 fail80 : BitVec 4) : State :=
  if fail92 ||| s.lanesOver d = 0 then (s.setRf d rHbmStatus 0 2 0).hbmTrain d 0
  else ((s.setRf d rHbmStatus 0 2 1).hbmTrain d fail80).logEvent d 0x0601 0 (lowBit (fail92 ||| s.lanesOver d))

/-! ### Retention (R420) -/

/-- What a vector unit holds after it is reset: undefined registers, span and status (R420), one free value for each reset. -/
def lostVec (n : Nat) : Vec :=
  ⟨Vector.ofFn (fun i : Fin 32 => Config.startVec n i.val), Vector.ofFn (fun i : Fin 32 => Config.startMarks n i.val),
    Vector.ofFn (fun i : Fin 8 => Config.startPred n i.val), (Config.startReg n 35).toNat % 513, Config.startReg n 36 &&& 0x13FFF⟩

/-- What a control processor holds after it is reset: it runs nothing, and its g registers are undefined (R302, R307, R420). -/
def lostProc (n : Nat) : Proc :=
  { Proc.reset with g := Vector.ofFn (fun i : Fin 32 => Config.startReg n i.val), bad := Config.startBad n }

/-- The registers of a core without power are lost. -/
def loseRegs (n : Nat) (k : Core) : Core := { k with proc := lostProc n, vec := lostVec n }

/-- An engine of a core is reset: an array loses shadow and stationary, a vector unit its registers. -/
def resetEngine (n : Nat) (e : Fin 3) (k : Core) : Core :=
  match e with
  | 0 => { k with arr := MxArray.reset, drain := none }
  | 1 => { k with vec := lostVec n }
  | _ => k

/-- A core is reset (R420, column Core): processor, array, vector registers and generator; counters and tags stay. -/
def resetCore (n : Nat) (d : DieIx) (c : CoreIx) (k : Core) : Core :=
  { k with proc := lostProc n, vec := lostVec n, arr := MxArray.reset, gen := Gen.power d.val c.val, reseed := false
           recovering := true, pushed := [], firstBad := 0, drain := none }

/-- Low words held for registers of a domain that is reset are discarded (R513). -/
def State.dropHeld (s : State) (d : DieIx) (inside : Nat → Bool) : State :=
  s.modDie d (fun x => { x with heldLow := x.heldLow.filter (fun p => !inside p.2.1) })

def State.resetCoreState (s : State) (d : DieIx) (c : CoreIx) : State :=
  let s1 := (s.modCore d c (resetCore s.draws d c)).drawFree
  let s2 := (s1.loseMem (memKey d.val 1 (spBase c.val)) 0x00400000).loseMem (memKey d.val 1 (bankBase c.val)) 0x00100000
  -- CORE_CTL, CORE_SR_CTL and the seeds return to reset; the ring registers and counters stay
  ((s2.regsToReset d (rCoreCtl c.val) (rCoreCtl c.val + 4)).regsToReset d (rCoreSrCtl c.val) (rCoreSrCtl c.val + 0x20)).dropHeld d
    (fun off => (coreOff off).any (fun p => p.1 == c))

/-- Bytes of a row engine's side memory (R191). -/
def sideBytes : Nat := 0x40000

/-- Row-engine side memory and windows are lost (R420). -/
def State.resetRowEngine (s : State) (d : DieIx) (q : Fin 4) : State :=
  ((s.modDie d (fun x => { x with rowWins := x.rowWins.set q [] })).dropHeld d (fun off => decide (off = qRing (.row q)))).loseMem
    (memKey d.val 0xFF (q.val * 2 ^ 20)) sideBytes

/-- A slot whose factorisation does not complete is VALUED, without factors that could be stale (R244, R253, R259). -/
def State.interruptSlot (s : State) (mask k : Nat) : State :=
  (cruDies mask).foldl (fun t e => t.modReg e (rCruSlot k 0) (fun w => setBit (setFld w 30 2 2) 27 false)) s

/-- The Crucible commands of the die end; a factorisation that this interrupts leaves its slot VALUED (R253, R420). -/
def State.resetSolve (s : State) (d : DieIx) : State :=
  let s1 : State := match (s.die d).solve with
    | some u => if u.classes.contains 1 then s.interruptSlot u.mask u.slot else s
    | none => s
  (s.queue d .cru).running.foldl (fun t r => t.cruEnd d r) s1

/-- A stroke timer that loses its lock: what it has measured, and the number it was to adopt, are gone (R34, R420). -/
def Timer.unlock (x : Timer) : Timer :=
  { x with overLimit := 0, measured := false, pulse := false, phase := 0, incoming := none, framePhase := none, relocking := false }

/-- The engines of the uncore beside their registers: no bucket is open, no table is resident, the billet segments are empty, nothing
runs (R420). -/
def State.resetUncoreParts (s : State) (d : DieIx) : State :=
  let s1 := s.modDie d (fun x =>
    { x with solve := none, buckets := [], tables := [], reds := [], gathers := [], exchanges := [], early := [], notices := [], reseedUpd := false
             reseedBkt := false, reseedCol := false, vetoes := 0, watch := []
             hbm := { x.hbm with waiting := [], wrapper := none, powerDown := 0 }
             timer := x.timer.unlock
             assay := { x.assay with touch := none, pass := none, lentUncore := 0 } })
  let s2 := (List.range 16).foldl (fun t c => (t.setReg d (rBilCtx c 3) 0).setReg d (rBilCtx c 4) 0) s1
  s2.setLends d []

/-- The uncore of a die is reset (R420, column Die). -/
def State.resetUncore (s : State) (d : DieIx) : State :=
  let s1 := (s.regsToReset d rHbmQos (rHbmQos + 4)).regsToReset d rColAlg (rColAlg + 4)
  let s1h := ((s1.loseRepair d).regsToReset d rHbmTestCtl (rHbmTestData 8)).holdHbm d false
  -- an operation that ran ends with RESULT 2 (R294)
  let s1r := if (s.die d).hbm.wrapper.isSome then s1h.setRf d rHbmTestCtl 24 4 2 else s1h
  let s2 := s1r.regsToReset d rEccFlipCtl (rEccTest + 4)
  let s3 := (s2.regsToReset d (rHltLoupeWin 0) (rHltLoupeWin 8)).regsToReset d rUpdSrCtl (rBktSeed 4)
  let s4 := (s3.regsToReset d rColSrCtl (rColSeed 4)).regsToReset d (rBilTbl 0) (rBilTbl 2)
  let s5 := s4.modDie d (fun x =>
    { x with genUpd := Gen.power d.val 48, genBkt := Gen.power d.val 49, genCol := Gen.power d.val 50
             latched := [], heldLow := [], inbox := [], writeBacks := [] })
  let s6 := s5.loseMem (memKey d.val 1 0) 0x03000000
  s6.resetUncoreParts d

/-- A range of memory holds an unspecified mix of old and new values (R135): its bytes are free, and so is whether a word of it is
poisoned. -/
def State.mixAt (s : State) (d : DieIx) (region off n : Nat) : State :=
  let key := memKey d region off
  let w := wordSize region
  let first := key / w * w
  let words := (List.range ((key + n - first + w - 1) / w)).map (fun k => first + k * w)
  let marks := words.foldl (fun l k => if Config.lostCheck s.draws k = 0 then l else SMap.set .clean l k .poison) s.mem.marks
  { s.drawFree with mem := ⟨spliceAt s.mem.cells (lostCells s.draws key n) key n, marks⟩ }

/-- What a reset leaves of a running matrix instruction's destination, where the instruction has begun to stream (R135): its bank lines
and the rows that it writes out on this module. What it sends to other modules goes out with its last row. -/
def State.mixMul (s : State) (d : DieIx) (c : CoreIx) (r : Running) : State :=
  let x := r.desc
  let k := (s.core d c).arr
  let acc := fld x (8 * 53) 2
  let loading := (s.queue d (.core c)).running.any (fun y => decide (dKind y.desc = 0x20))
  let undrained := fld x (8 * 53 + 4) 4 ≠ 0 ∧ !(s.core d c).drain.any (fun e => decide (e.ident = r.ident))
  if (dKind r.desc ≠ 0x21 ∧ dKind r.desc ≠ 0x22) ∨ r.acking ∨ (k.run.isNone ∧ ((bitAt x (8 * 53 + 2) ∧ loading) ∨ undrained)) then s
  else
    match (match k.run with
      | some m => some m.st
      | none => if bitAt x (8 * 53 + 2) then k.shadow else k.active), Fmt.ofCode (fld x (8 * 52 + 4) 4) with
    | some st, some ofm =>
      let e := if st.fmt = .fp64 then 8 else 4
      let lines := if st.ncols * e ≤ 512 then 1 else 2
      let rows := List.range (dn x 48 2)
      let s1 := if acc = 3 then s
        else rows.foldl (fun t i => t.mixAt d 1 (bankBase c.val + (dn x 50 2 + i * lines) * 512) (st.ncols * e)) s
      if acc < 2 then s1
      else rows.foldl (fun t i =>
        let l := locOf (BitVec.ofNat 52 ((dAddr x 32).toNat + dn x 40 4 * i))
        if l.slot = t.slot ∧ l.region ≤ 1 then t.mixAt (dieIx l.die) l.region l.off (ofm.rowBytes st.ncols) else t) s1
    | _, _ => s

/-- The matrix instructions that a reset of a domain discards in mid-stream. -/
def State.mixMuls (s : State) (d : DieIx) (m : Domain) : State :=
  let cores := match m with
    | .engine c e => if e.val = 0 then [c] else []
    | _ => domCores m
  cores.foldl (fun t c => (t.queue d (.core c)).running.foldl (fun u r => u.mixMul d c r) t) s

/-- Apply step 4 of R407 to a domain. -/
def State.applyReset (s' : State) (d : DieIx) (m : Domain) : State :=
  let s := s'.mixMuls d m
  let s0 : State := match m with
    | .die => s.resetSolve d
    | _ => s
  let s1 := (domQueues m).foldl (fun t p => t.modQueue d p.1 (fun x => discardQueue x p.2)) s0
  match m with
  | .engine c e => (s1.modCore d c (resetEngine s1.draws e)).drawFree
  | .core c => s1.resetCoreState d c
  | .quad q => ((domCores m).foldl (fun t c => t.resetCoreState d c) s1).resetRowEngine d q
  | .die =>
    let s2 := (domCores m).foldl (fun t c => t.resetCoreState d c) s1
    let s3 := [0, 1, 2, 3].foldl (fun t q => t.resetRowEngine d q) s2
    let s4 := portList.foldl (fun t p =>
      if portExists t.fuses.variant d.val p.val ∧ p.val ≠ 3 then
        (if t.pstate d p = 1 then t else t.linkDown d p (t.rf d (rLnkPstat p.val) 24 4)) else t) s3
    -- HBM goes to self-refresh (R288) and the stroke timer unlocks, to relock under R34
    ((s4.selfRefresh d).resetUncore d).modReg d rStkLock (fun w => setBit w 31 false)

/-! ### Parking (R288, R495) -/

/-- A core without power (R420, column A2). -/
def parkCore (n : Nat) (d : DieIx) (c : CoreIx) (k : Core) : Core := { resetCore n d c k with recovering := k.recovering }

def State.parkCoreState (s : State) (d : DieIx) (c : CoreIx) : State :=
  let s1 := (s.modCore d c (parkCore s.draws d c)).drawFree
  let s2 := (s1.loseMem (memKey d.val 1 (spBase c.val)) 0x00400000).loseMem (memKey d.val 1 (bankBase c.val)) 0x00100000
  ((s2.regsToReset d (rCoreCtl c.val) (rCoreCtl c.val + 4)).regsToReset d (rCoreSrCtl c.val) (rCoreSrCtl c.val + 0x20)).dropHeld d
    (fun off => (coreOff off).any (fun p => p.1 == c))

/-- Commands that a parked die holds end with FENCED, as later pushes do. -/
def State.endAll (s : State) (d : DieIx) : State :=
  allQueues.foldl (fun t q => ((t.queue d q).running.foldl (fun u r => 
      u.finish d q r (let x := u.reported d q r; ⟨x.stats ++ [stFenced], x.flags, 0, x.detail⟩)) t).startQueue d q) s

/-- Entry to A2 (R495): lending ends, the stacks enter self-refresh, and cores and uncore engines lose power. -/
def State.parkDie (s : State) (d : DieIx) : State :=
  let s1 := (s.setPf rPwrLpStat (2 * d.val) 2 2).endAll d
  let s2 := (s1.modDie d (fun x => { x with tables := [], assay := { x.assay with touch := none, pass := none, lentUncore := 0 } })).setLends d []
  let s3 := (List.finRange 48).foldl (fun t c => t.parkCoreState d c) s2
  let s4 := ([0, 1, 2, 3].foldl (fun t q => t.resetRowEngine d q) s3).regsToReset d (rBilTbl 0) (rBilTbl 2)
  s4.selfRefresh d

/-! ### Escalation and fencing (R417 to R419) -/

/-- Count a reset of a domain instance, in flash. -/
def State.countReset (s : State) (d : DieIx) (m : Domain) : State :=
  { s with flash := { s.flash with escalations := s.flash.escalations ++ [(domKey d m, s.nominal d / 940)] } }

/-- Resets of a domain within WINDOW_S seconds. -/
def State.recentResets (s : State) (d : DieIx) (m : Domain) : Nat :=
  let now := s.nominal d / 940
  (s.flash.escalations.filter (fun p => decide (p.1 = domKey d m)
    && decide (p.2 + s.rf d rHltEscCfg 0 16 * 1000000 > now))).length

/-- The resets of the module are recorded beside those of the domains (R417). -/
def State.countModule (s : State) : State :=
  { s with flash := { s.flash with escalations := s.flash.escalations ++ [(moduleKey, s.nominal 0 / 940)] } }

/-- Whether the escalation rules fence a domain once its reset has run to step 4 (R418). -/
def State.fencesAfter (s : State) (d : DieIx) (m : Domain) : Bool :=
  decide (s.recentResets d m ≥ s.rf d rHltEscCfg 16 4) && decide (s.rf d rHltEscCfg 16 4 ≠ 0)

/-- Set the fence bits of a unit (R427, R137, R168, R419). A core's own bit stands for a fence of that core alone: the cores of a fenced
quadrant or die are fenced by the bit of the wider domain. -/
def State.setFence (s : State) (d : DieIx) (m : Domain) : State :=
  match m with
  | .engine c 0 => s.modCore d c (fun k => { k with fenceArr := true })
  | .engine c 1 => s.modCore d c (fun k => { k with fenceVec := true })
  | .engine c _ =>
    if c.val < 32 then s.modReg d rHltFenceDma0 (fun w => setBit w c.val true)
    else s.modReg d rHltFenceDma1 (fun w => setBit w (c.val - 32) true)
  | .core c =>
    if c.val < 32 then s.modReg d rHltFenceCore0 (fun w => setBit w c.val true)
    else s.modReg d rHltFenceCore1 (fun w => setBit w (c.val - 32) true)
  | .quad q => s.modReg d rHltFenceDie (fun w => setBit w q.val true)
  | .die =>
    let s1 := s.modReg d rHltFenceDie (fun w => setBit w 31 true)
    -- the ports of a fenced die are held down
    portList.foldl (fun t p =>
      if portExists t.fuses.variant d.val p.val then (t.clearPort d p).setPstate d p 5 else t) s1

/-- The module is taken out of service (R418): its dies are parked in A2, and the host hears of it; the coding of the
event's cause is not stated, so it is a free value. -/
def State.outOfService (s : State) : State :=
  if s.flash.outOfService then s
  else
    let s1 := { s with flash := { s.flash with outOfService := true } }
    let s2 := s1.allDies.foldl (fun t d => (t.modReg d rHltStatus (fun w => setBit w 23 true)).parkDie d) s1
    (s2.drawFree).unitEvent 0 (s2.endpoint 0 63) 10 (fld s2.free 0 24)

/-- Fence a unit: the list in flash, the fence bits, event 0x0A04 and the event to Pelbex; die fences at their limit take
the module out of service. -/
def State.fence (s : State) (d : DieIx) (m : Domain) (captureOff : Nat) : State :=
  let now := s.nominal d / 940
  let isDie := decide (domKind m = 4)
  let s1 := { s with flash :=
    { s.flash with fences := (s.flash.fences ++ [domKey d m]).eraseDups
                   dieFences := if isDie then s.flash.dieFences ++ [now] else s.flash.dieFences } }
  let s2 := s1.setFence d m
  let det := if captureOff = 0 then 0 else (captureOff - 0x7E00000000) / 4096
  let s3 := (s2.logFrom d (domSource s d m) (s.domTag d m) 0x0A04 stFenced det none).hostEvent d (domSource s d m) stFenced 0 0 0 0 3 det
  let recent := (s3.flash.dieFences.filter (fun t => decide (t + s.rf d rHltEscCfg 24 8 * 3600000000 > now))).length
  if isDie ∧ recent ≥ s.rf d rHltEscCfg 20 4 then s3.outOfService else s3

/-! ### Running a reset (R407, R408, R410) -/

/-- HLT_STATUS.RESETTING and KIND: the widest domain resetting (R421). -/
def State.resetStatus (s : State) (d : DieIx) : State :=
  let k := (s.die d).resets.foldl (fun a r => max a (domKind r.dom)) 0
  s.modReg d rHltStatus (fun w => setBit (setFld w 28 3 k) 31 (decide (k ≠ 0)))

/-- Steps 1 to 4 of a reset. A request for a domain that is resetting, or lies in one that is, merges with it; children
that are resetting are absorbed, those that the escalation rules fence with their fences (R418), and an escalated reset takes no second
capture. -/
def State.startReset (s : State) (d : DieIx) (m : Domain) (cause : Nat) (noCapture : Bool) : State :=
  if (s.die d).resets.any (fun r => domIn r.dom m) then s else
    let gen := s.domTag d m
    let kids := (s.die d).resets.filter (fun r => domIn m r.dom)
    let s1 := (s.bumpTags d m).countReset d m
    let s2 := s1.logFrom d (domSource s d m) gen 0x0A02 0 (domKind m + cause * 16 + (s1.domTag d m).toNat * 256) none
    let s3 := s2.sendNotices d m
    let cap := if noCapture then (s3, (kids.head?.map (fun r => r.capture)).getD 0)
      else s3.capture411 d m (domKind m) cause gen (!s3.hbmServes d)
    let lost := (s.discardedIn d m).map (fun p => (p.1, s.abortRecord d p.1 p.2))
    let cut := !noCapture && !s3.hbmServes d
    let run : ResetRun := ⟨m, cause, gen, cap.2, cut, false, (kids.flatMap (fun r => r.discarded)) ++ lost⟩
    let s4 := (kids.filter (fun r => r.toFence || s1.fencesAfter d r.dom)).foldl (fun t r => t.fence d r.dom r.capture) (cap.1.applyReset d m)
    let s5 := s4.modDie d (fun x => { x with resets := x.resets.filter (fun r => !domIn m r.dom) ++ [run] })
    s5.resetStatus d

/-- Take a unit out of service through a reset that ends in a fence (R438). -/
def State.resetToFence (s : State) (d : DieIx) (m : Domain) : State :=
  (s.startReset d m 1 false).modDie d (fun x =>
    { x with resets := x.resets.map (fun r => if r.dom = m then { r with toFence := true } else r) })

/-- Matrix commands of the running kernel that are no longer in the queue have completed with STEP_ABORTED (R136). -/
def abortPushed (k : Core) : Core :=
  let live := (k.queue.entries ++ k.queue.backlog).map QEntry.ident ++ k.queue.running.map Running.ident
  (k.pushed.filter (fun i => !live.contains i)).foldl (fun a i => notePushed a i stAborted) k

def State.settlePushed (s : State) (d : DieIx) (q : QId) : State :=
  match q with
  | .core c => s.modCore d c abortPushed
  | _ => s

/-- Records of the discarded commands, with the tag and time of the return (R94); the commit context notes them (R267). -/
def State.abortRecords (s : State) (d : DieIx) (l : List (QId × Completion)) : State :=
  l.foldl (fun t p => ((t.modQueue d p.1 (fun x =>
    { x with done := x.done ++ [{ p.2 with stamp := t.stamp d, gen := t.execGen d p.1 p.2.kind.toNat }] })).noteDone d p.2.job
      p.2.step.toNat p.2.kind.toNat p.2.status.toNat).settlePushed d p.1) s

/-- What a domain's cores and the die look like back in service; pushes that the reset held enter their queues (R407). -/
def State.backInService (s : State) (d : DieIx) (m : Domain) : State :=
  let s1 := match m with
    | .engine _ _ => s
    | _ => (domQueues m).foldl (fun t p => t.modQueue d p.1 CmdQueue.refill)
        ((domCores m).foldl (fun t c => t.modCore d c (fun k => { k with recovering := false })) s)
  match m with
  | .die =>
    -- HBM leaves self-refresh and has retrained (R288); the ports retrain and rediscover
    let s2 := s1.hbmTrain d 0
    portList.foldl (fun t p =>
      if portExists t.fuses.variant d.val p.val ∧ p.val ≠ 3 ∧ t.pstate d p = 5 then t.trainPort d p else t) s2
  | _ => s1

/-- A die that returns has its job contexts rewritten from the kept verdicts (R416): until then they are idle, and Pelbex asks the
root for the verdict of the step after the member's own. -/
def State.restoreJobs (s : State) (d : DieIx) : State :=
  ((List.range 32).filter (fun k => bitAt (s.reg d (rUpdSet k)) 31)).foldl (fun t k =>
    let job : BitVec 12 := BitVec.ofNat 12 (t.rf d (rUpdSet k) 0 12)
    let t1 := ((t.setRf d (rCmtStat k) 0 4 0).modDie d (fun x =>
      { x with returning := setBit x.returning k true, commits := SMap.set Commit.reset x.commits k Commit.reset }))
    -- the root is the lowest member, the backup the next; a root that returns asks the backup
    match ((sortEnds (t1.membersOf job)).take 2).filter
        (fun e => decide (e.toNat / 64 ≠ (t1.endpoint d 63).toNat / 64)) with
    | [] => t1
    | e :: _ => t1.sendMsg d (t1.mkMsg d 0x36 e job (t1.rf d (rColCtx k 0) 16 8) (t1.rf d (rCmtStat k) 24 8) (t1.stepOf d k) [] [])) s

/-- Step 5: return to service or fence (R407, R418), event 0x0A03 and HLT_RESET_STAT (R426). -/
def State.completeReset (s : State) (d : DieIx) (m : Domain) (us : Nat) : State :=
  match (s.die d).resets.find? (fun r => decide (r.dom = m)) with
  | none => s
  | some r =>
    let s1 := (s.modDie d (fun x => { x with resets := x.resets.filter (fun y => decide (y.dom ≠ m)) })).resetStatus d
    let fenced := r.toFence || s1.fencesAfter d m
    let s2 := (s1.backInService d m).abortRecords d r.discarded
    let stat := (if fenced then 3 else 1) * 2 ^ 28 + domKind m * 2 ^ 25 + (if r.trunc then 2 ^ 24 else 0) + r.cause * 2 ^ 20
      + min us 0xFFFFF
    let s3 := (s2.setReg d rHltResetStat (BitVec.ofNat 32 stat)).logFrom d (domSource s d m) (s.domTag d m) 0x0A03 0 us none
    let s4 := match m with
      | .die => s3.restoreJobs d
      | _ => s3
    if fenced then s3.fence d m r.capture else s4.startAll d

/-- A reset that hangs escalates to its parent domain (R408). -/
def State.escalate (s : State) (d : DieIx) (m : Domain) : State × Bool :=
  match (s.die d).resets.find? (fun r => decide (r.dom = m)) with
  | none => (s, false)
  | some r =>
    match domParent m with
    | some p =>
      let s1 := s.setReg d rHltResetStat
        (BitVec.ofNat 32 (2 * 2 ^ 28 + domKind m * 2 ^ 25 + (if r.trunc then 2 ^ 24 else 0) + r.cause * 2 ^ 20))
      ((s1.logFrom d (domSource s d m) (s.domTag d m) 0x0A05 0 (domKind p) none).startReset d p 1 true, false)
    | none =>
      ((s.setReg d rHltResetStat
        (BitVec.ofNat 32 (2 * 2 ^ 28 + 4 * 2 ^ 25 + (if r.trunc then 2 ^ 24 else 0) + r.cause * 2 ^ 20))).logFrom d (domSource s d m)
        (s.domTag d m) 0x0A05 0 5 none, true)

end Sys2Proof.Machine
end

