-- ==== Sys2Proof/Machine/Throttle.lean ====
section
/-! DEFINITION. The Pelbex power and thermal manager: throttle requests, their combination and the notices to the dies
(R39, R40, R490, R491). -/

namespace Sys2Proof.Machine

/-- The slowest step that a set of junction requests names: bit k − 1 requests Tk. -/
def junctionStep (w : BitVec 3) : Nat := if bitAt w 2 then 3 else if bitAt w 1 then 2 else if bitAt w 0 then 1 else 0

/-- The cap step in force (R491, R506). -/
def State.capStep (s : State) : Nat := s.pf rPwrCap 16 2

/-- Slowest step requested for a die before HBM coupling (R40, R490). -/
def State.baseStep (s : State) (d : DieIx) : Nat :=
  max (junctionStep s.power.junction[d])
    (max (if s.power.underVolt then 2 else 0)
      (max s.capStep (max (if bitAt s.power.cool 1 then 3 else if bitAt s.power.cool 0 then 1 else 0)
        (if s.power.throtLow then 3 else 0))))

/-- Whether a stack of the die is hot (R291). -/
def State.anyHot (s : State) (d : DieIx) : Bool := (List.range 4).any (fun k => bitAt (s.reg d (rHbmStk k)) 2)

/-- The step a die is to run at: one slower while a stack is hot, up to T3 (R40). -/
def State.wantedStep (s : State) (d : DieIx) : Nat := min 3 (s.baseStep d + (if s.anyHot d then 1 else 0))

/-- Publish the request of a die and send a notice when its wanted step has changed: a decision taken in stroke n takes
effect at n + 2 at the earliest (R39, R490). -/
def State.throttleDie (s : State) (d : DieIx) : State :=
  let s1 := s.setPf (rPwrDie d.val) 24 2 (s.baseStep d)
  let w : BitVec 2 := BitVec.ofNat 2 (s1.wantedStep d)
  if s1.power.announced[d] = w then s1
  else { s1 with power := { s1.power with
    announced := s1.power.announced.set d w
    notices := s1.power.notices ++ [(d, w, s1.stroke d + 2)] } }

def State.throttleAll (s : State) : State := s.allDies.foldl (fun t d => t.throttleDie d) s

/-- Set bits of PWR_STATUS.ALERTS (R503); ALERT_N is low while any is set. -/
def State.alert (s : State) (n : Nat) : State := s.setPreg rPwrStatus (setBit (s.preg rPwrStatus) (16 + n) true)

/-- Failed readings in a row of a sensor (R489). -/
def State.sensorFails (s : State) (k : Nat) : Nat := SMap.get 0 s.power.fails k

def State.setSensorFails (s : State) (k v : Nat) : State :=
  { s with power := { s.power with fails := SMap.set 0 s.power.fails k v } }

/-- A reading of sensor k (R489): `none` while a first failure leaves the last reading standing, else the value, 0xFF after
two failures in a row. -/
def State.sensed (s : State) (k : Nat) (v : Option Nat) : State × Option Nat :=
  match v with
  | some x => (s.setSensorFails k 0, some x)
  | none =>
    if s.sensorFails k ≥ 1 then ((s.setSensorFails k 2).alert 7, some 0xFF) else (s.setSensorFails k 1, none)

end Sys2Proof.Machine
end

