-- ==== Sys2Proof/Machine/Hbm.lean ====
section
/-! DEFINITION. The HBM controllers: refresh, power-down, promotion, temperature, lanes, and IEEE 1500 test access (R276 to
R301). -/

namespace Sys2Proof.Machine


def State.testHold (s : State) (d : DieIx) : Bool := bitAt (s.reg d rHbmStatus) 3

/-! ### Refresh (R285 to R287) -/

/-- Refreshes of a pseudo-channel of the die that are postponed. -/
def State.postponed (s : State) (d : DieIx) (pc : Nat) : Nat := SMap.get 0 (s.die d).hbm.postponed pc

def State.setPostponed (s : State) (d : DieIx) (pc v : Nat) : State :=
  s.modHbm d (fun h => { h with postponed := SMap.set 0 h.postponed pc v })

/-- A refresh of one bank closes its row; the controller chooses the bank (R286). -/
def State.refreshBank (s : State) (d : DieIx) (pc : Nat) : State :=
  (s.modHbm d (fun h => { h with openRows := h.openRows.filter (fun p => decide (p.1 ≠ pc * 32 + (Config.refreshBank s.draws).val)) })).drawFree

/-- Maintenance of a pseudo-channel falls due (R286, R287): postponed while `waits` requests hold every bank, up to 8; the
ninth time it is issued to all banks, and what was postponed with it: no row of them stays open. -/
def State.maintain (s : State) (d : DieIx) (pc : Fin 128) (waits : Bool) : State :=
  if !s.stackServes d (pc.val / 32) then s
  else if waits then
    (if s.postponed d pc.val < 8 then s.setPostponed d pc.val (s.postponed d pc.val + 1)
     else (s.setPostponed d pc.val 0).modHbm d (fun h => { h with openRows := h.openRows.filter (fun p => decide (p.1 / 32 ≠ pc.val)) }))
  else (s.setPostponed d pc.val (s.postponed d pc.val - 1)).refreshBank d pc.val

/-- Whether a bank of a pseudo-channel has as many activates as the stack allows before refresh management (R287). -/
def State.rfmDue (s : State) (d : DieIx) (pc : Nat) : Bool :=
  (s.die d).hbm.acts.any (fun p => decide (p.1 / 32 = pc) && decide (p.2 ≥ Config.rfmThreshold))

/-- REFRESH (R286). -/
def execRefresh (d : DieIx) (pc : Fin 128) (waits : Bool) (s : State) : Host.Outcome State Fault Refusal :=
  onDie d s (fun t => t.maintain d pc waits)

/-- RFM (R287): at the stack's threshold; it shares the postponement budget of R286, and the banks that it manages count anew. -/
def execRfm (d : DieIx) (pc : Fin 128) (waits : Bool) (s : State) : Host.Outcome State Fault Refusal :=
  onDie d s (fun t =>
    if !t.stackServes d (pc.val / 32) ∨ !t.rfmDue d pc.val then t
    else
      let put := waits && decide (t.postponed d pc.val < 8)
      let t1 := t.maintain d pc waits
      if put then t1 else t1.modHbm d (fun h => { h with acts := h.acts.filter (fun p => decide (p.1 / 32 ≠ pc.val)) }))

/-- PHASE_UPDATE (R282): the periodic update of the PHY in a refresh window. -/
def execPhaseUpdate (d : DieIx) (s : State) : Host.Outcome State Fault Refusal :=
  onDie d s (fun t => if t.hbmServes d then t.modHbm d (fun h => { h with phaseAt := t.stamp d }) else t)

/-- HBM_POWER_DOWN (R277): a channel without requests for 1 µs enters power-down; a later access wakes it. -/
def execHbmPowerDown (d : DieIx) (ch : Fin 64) (s : State) : Host.Outcome State Fault Refusal :=
  onDie d s (fun t =>
    if t.stackServes d (ch.val / 16) then
      t.modHbm d (fun h =>
        { h with powerDown := setBit h.powerDown ch.val true
                 waiting := h.waiting.filter (fun p => decide (p.1 / 128 ≠ ch.val)) })
    else t)

/-! ### Promotion (R279) -/

/-- The value of HBM_QOS under which a request that has now waited for its AGE entered its queue (R297), and so which class and
which AGE it has: the newest value that was already in force one such AGE ago. -/
def qosAtEntry (now : Nat) : Word → List (Word × Nat) → Word
  | w, [] => w
  | w, (old, til) :: l => if now ≥ til + fld w 24 8 * 94 then w else qosAtEntry now old l

def State.qosOf (s : State) (d : DieIx) : Word := qosAtEntry (s.nominal d) (s.reg d rHbmQos) (s.die d).hbm.qosWas

/-- Class of such a request by its requester kind in the order MX, POP, ROW, CRU, COLL, UPDATE, PUSH, DMA, REMOTE, ASSAY. -/
def State.qosClass (s : State) (d : DieIx) (k : Fin 10) : Nat := fld (s.qosOf d) (2 * k.val) 2

/-- PROMOTION (R279): the request in an entry of a pseudo-channel's queue moves up one class, not above latency; AGE 0
disables promotion. An entry that is promoted for the first time starts from the class of its requester. -/
def execPromotion (d : DieIx) (pc : Fin 128) (slot : Fin 64) (kind : Fin 10) (s : State) :
    Host.Outcome State Fault Refusal :=
  onDie d s (fun t =>
    if fld (t.qosOf d) 24 8 = 0 then t
    else
      let key := pc.val * 64 + slot.val
      let now := SMap.get 0 (t.die d).hbm.waiting key
      let cls := if now = 0 then t.qosClass d kind else now
      t.modHbm d (fun h => { h with waiting := SMap.set 0 h.waiting key (max 1 (cls - 1)) }))

/-! ### Temperature (R290, R291) -/

/-- Set a stack's published temperature with what follows from it: the refresh range, HOT with its hysteresis, the throttle
request, and the report of a thermal trip above CRIT. -/
def State.stackTemp (s : State) (d : DieIx) (k : Fin 4) (temp : Nat) : State :=
  let hot0 := bitAt (s.reg d (rHbmStk k.val)) 2
  let hot := if temp > s.rf d rHbmTherm 16 8 then true else if temp ≤ s.rf d rHbmTherm 8 8 then false else hot0
  let s1 := s.modReg d (rHbmStk k.val) (fun w =>
    setBit (setBit (setFld w 24 8 temp) 2 hot) 1 (decide (temp > s.rf d rHbmTherm 0 8)))
  let s2 := if temp ≠ 0xFF ∧ temp > s.rf d rHbmTherm 24 8 then
      s1.raise (.trip d k.val temp)
    else s1
  s2.throttleDie d

/-- TEMPERATURE_READING (R290 to R292): a reading, or a failed one (`none`, and always while the test port owns the
wrapper); the second failure in a row publishes 0xFF and counts as above 90 °C. -/
def execTemperatureReading (d : DieIx) (k : Fin 4) (temp : Option (BitVec 8)) (s : State) :
    Host.Outcome State Fault Refusal :=
  onDie d s (fun t =>
    let r := if bitAt (t.die d).hbm.testPort k.val then none else temp
    match r with
    | some v => (t.modHbm d (fun h => { h with tempFails := h.tempFails.set k 0 })).stackTemp d k v.toNat
    | none =>
      if (t.die d).hbm.tempFails[k] = 0 then t.modHbm d (fun h => { h with tempFails := h.tempFails.set k 1 })
      else (t.modHbm d (fun h => { h with tempFails := h.tempFails.set k 2 })).stackTemp d k 0xFF)

/-! ### Lanes (R283, R300, R301) -/

/-- HBM_LANE_FAILURE: a data lane of pseudo-channel idx, or a command/address lane of channel idx mod 16, whose retry has failed too
(R277). The lane is substituted at the next training. -/
def execHbmLaneFailure (d : DieIx) (k : Fin 4) (ca : Bool) (idx : Fin 32) (s : State) : Host.Outcome State Fault Refusal :=
  onDie d s (fun t =>
    let i := if ca then idx.val % 16 else idx.val
    let g := if ca then i / 2 else i / 4
    let t1 := t.setReg64 d (rHbmLane k.val) (setBit (t.reg64 d (rHbmLane k.val)) (if ca then 32 + i else i) true)
    let t2 := t1.modHbm d (fun h =>
      let key := k.val * 64 + (if ca then 32 + i else i)
      { h with lanes := SMap.set 0 h.lanes key (SMap.get 0 h.lanes key + 1) })
    (t2.modReg d (rHbmStk k.val) (fun w => setBit w (16 + g) true)).logEvent d 0x0602 0
      (k.val * 256 + (if ca then 64 else 0) + i))

/-! ### Test access (R292, R293, R299) -/

/-- Whether a job context is assigned on the die: a commit context or a collective context is valid. -/
def State.jobAssigned (s : State) (d : DieIx) : Bool :=
  (List.range 32).any (fun k => bitAt (s.reg d (rUpdSet k)) 31 || bitAt (s.reg d (rColCtx k 0)) 31)

def State.testResult (s : State) (d : DieIx) (r : Nat) : State :=
  s.modReg d rHbmTestCtl (fun w => setBit (setFld w 24 4 r) 31 false)

/-- GO (R292, R293, R299): ignored while BUSY; result 2 when the test port owns the wrapper, result 1 for a restricted
instruction outside test hold, else the operation runs. -/
def State.testGo (s : State) (d : DieIx) : State :=
  let ctl := s.reg d rHbmTestCtl
  let instr : BitVec 8 := BitVec.ofNat 8 (s.rf d rHbmTestWir 0 8)
  if bitAt ctl 31 then s
  else if bitAt (s.die d).hbm.testPort (fld ctl 16 2) then s.testResult d 2
  else if !Config.wrapperReadOnly instr && !s.testHold d then s.testResult d 1
  else (s.modReg d rHbmTestCtl (fun w => setBit (setFld w 24 4 0) 31 true)).modHbm d
    (fun h => { h with wrapper := some (instr, fld ctl 8 8) })

/-- Set or clear test hold (R293, R299): only Pelbex firmware, ignored while a job context is assigned. -/
def State.setTestHold (s : State) (d : DieIx) (i : Issuer) (hold : Bool) : State :=
  if i ≠ .pelbex then s.logIgnored d rHbmTestCtl 2
  else if s.jobAssigned d then s
  else s.holdHbm d hold

/-- HBM_TEST_GO (R293). -/
def execHbmTestGo (d : DieIx) (s : State) : Host.Outcome State Fault Refusal := onDie d s (fun t => t.testGo d)

/-- TEST_HOLD (R293): the HOLD bit as Pelbex or another issuer writes it; ignored and logged while BUSY. -/
def execTestHold (d : DieIx) (i : Issuer) (hold : Bool) (s : State) : Host.Outcome State Fault Refusal :=
  onDie d s (fun t => if bitAt (t.reg d rHbmTestCtl) 31 then t.logIgnored d rHbmTestCtl 1 else t.setTestHold d i hold)

/-- The 256-bit shift image with its low `len` bits replaced by the bits that the wrapper shifted out (R299). -/
def State.shiftImage (s : State) (d : DieIx) (instr : BitVec 8) (len : Nat) : State :=
  ((List.range 8).foldl (fun t n =>
    t.modReg d (rHbmTestData n) (fun w => (List.range 32).foldl (fun v b =>
      if 32 * n + b < len then setBit v b (Config.wrapperBit s.draws instr (32 * n + b)) else v) w)) s).drawFree

/-- WRAPPER_OPERATION_END (R299): the bits shifted out replace the image, RESULT 0, or 3 on a wrapper error, and BUSY
clears. -/
def execWrapperOperationEnd (d : DieIx) (err : Bool) (s : State) : Host.Outcome State Fault Refusal :=
  onDie d s (fun t =>
    match (t.die d).hbm.wrapper with
    | none => t
    | some w => ((t.shiftImage d w.1 w.2).modHbm d (fun h => { h with wrapper := none })).testResult d (if err then 3 else 0))

/-- TEST_PORT_ACCESS (R292): the production test port takes or releases a stack's wrapper; an operation that runs on it is
aborted. -/
def execTestPortAccess (d : DieIx) (k : Fin 4) (take : Bool) (s : State) : Host.Outcome State Fault Refusal :=
  onDie d s (fun t =>
    let t1 := t.modHbm d (fun h => { h with testPort := setBit h.testPort k.val take })
    if take ∧ (t.die d).hbm.wrapper.isSome ∧ t.rf d rHbmTestCtl 16 2 = k.val then
      (t1.modHbm d (fun h => { h with wrapper := none })).testResult d 2
    else t1)

end Sys2Proof.Machine
end

