-- ==== Sys2Proof/Machine/Ecc.lean ====
section
/-! DEFINITION. Stored-data protection: poison write-back, scrubbing, leaking, the flip mask and the row log (R302 to
R327). -/

namespace Sys2Proof.Machine

/-- POISON_WRITE_BACK (R304, R305): the oldest uncorrectable word that waits takes the poison pattern; a newer write has
already taken its word off the list. -/
def execPoisonWriteBack (d : DieIx) (s : State) : Host.Outcome State Fault Refusal :=
  onDie d s (fun t =>
    match (t.die d).writeBacks with
    | [] => t
    | k :: ks => (t.modDie d (fun x => { x with writeBacks := ks })).writeBackWord d k)

/-! ### Scrubbing (R308) -/

/-- Number of 64-byte lines of a die's HBM. -/
def hbmLines : Nat := 2 ^ 33

/-- The scrubber treats a line of the die (R308). -/
def State.scrubLine (s : State) (d : DieIx) (off : Nat) : State :=
  let key := memKey d 0 off
  let m := SMap.get .clean s.mem.marks key
  let put := fun (t : State) (x : Mark) =>
    { t.modDie d (fun x => { x with writeBacks := x.writeBacks.filter (fun k => decide (k ≠ key)) }) with
      mem := ⟨t.mem.cells, setMark t.mem.marks key x⟩ }
  match (found true m).cls with
  | 1 => put ((s.eccEvent d (hbmStack off) (s.boardOf key)).rowLog d off false) .clean
  | 2 => put (((s.eccEvent d 9 (s.boardOf key)).logEvent d 0x0701 0 (s.boardOf key)).rowLog d off true) .poison
  | _ => s

/-- SCRUB (R308): the scrubber reads its next line, in which `data` and `check` bits have flipped since it was written; it
pauses during self-refresh and test hold and when disabled. -/
def execScrub (d : DieIx) (data : BitVec 512) (check : BitVec 32) (s : State) : Host.Outcome State Fault Refusal :=
  onDie d s (fun t =>
    if !bitAt (t.reg d rEccScrub) 31 ∨ !t.hbmServes d then t
    else
      let off := (t.die d).scrubPos * 64
      let key := memKey d 0 off
      let t1 := { t with mem := ⟨t.mem.cells, setMark t.mem.marks key (flipMark true (SMap.get .clean t.mem.marks key) data check)⟩ }
      (t1.scrubLine d off).modDie d (fun x => { x with scrubPos := (x.scrubPos + 1) % hbmLines }))

/-- LEAK (R309, R310): the level falls by one unless LEAK_MS is 0; at ⌊THRESH / 2⌋ or below the counter may raise its
interrupt again. -/
def execLeak (d : DieIx) (n : Fin 10) (s : State) : Host.Outcome State Fault Refusal :=
  onDie d s (fun t =>
    if t.rf d (rEccLbCfg n.val) 16 16 = 0 then t
    else
      let level := t.rf d (rEccLbLevel n.val) 0 8 - 1
      let t1 := t.setRf d (rEccLbLevel n.val) 0 8 level
      if level ≤ t.rf d (rEccLbCfg n.val) 0 8 / 2 then t1.modDie d (fun x => { x with lbArmed := setBit x.lbArmed n.val true })
      else t1)

/-! ### The flip mask (R317, R323, R324) -/

/-- Whether the flip mask names an aligned, mapped word, with check bits that its memory has (R324). -/
def State.flipOk (s : State) (d : DieIx) : Bool :=
  let off := fld (s.reg64 d rEccFlipAddr) 0 39
  let t := s.rf d rEccFlipCtl 8 4
  let i := s.rf d rEccFlipCtl 0 6
  decide (off % 8 = 0)
    && (match t with
        | 0 => decide (i = 0)
        | 1 => decide (i < 48 ∧ off < 0x400000)
        | 2 => decide (i < 48 ∧ off < 0x100000)
        | 3 => decide (i = 0 ∧ off < 0x03000000)
        | 4 => decide (i < 4 ∧ off < sideBytes)
        | _ => false)
    && (decide (t = 0) || decide (s.reg64 d rEccFlipChk < 256))

/-- Writing 1 to ARM. -/
def State.flipArm (s : State) (d : DieIx) : State :=
  if s.flipOk d then s.modReg d rEccFlipCtl (fun w => setBit (setBit w 12 true) 31 false) else s.logIgnored d rEccFlipCtl 4

/-- FLIP_ARM (R317): only Pelbex firmware and the health controller may arm (R323). -/
def execFlipArm (d : DieIx) (i : Issuer) (s : State) : Host.Outcome State Fault Refusal :=
  onDie d s (fun t =>
    match i with
    | .ep _ => t.logIgnored d rEccFlipCtl 2
    | _ => t.flipArm d)

/-- ECC_ROWLOG (R327): writing 0 to VALID frees the entry; writing 1 is ignored. -/
def execEccRowlog (d : DieIx) (e : Fin 16) (valid : Bool) (s : State) : Host.Outcome State Fault Refusal :=
  onDie d s (fun t => if valid then t else t.modReg d (rEccRowlog e.val + 4) (fun w => setBit w 31 false))

end Sys2Proof.Machine
end

