-- ==== Sys2Proof/Machine/Rings.lean ====
section
/-! DEFINITION. Completion rings: where a record goes, when it waits, and Pelbex's own rings (R92, R93, R469, R470, R477). -/

namespace Sys2Proof.Machine

/-! ### The context of a job (R275, R360) -/

def State.colJob (s : State) (d : DieIx) (k : Nat) : BitVec 12 := BitVec.ofNat 12 (s.rf d (rColCtx k 0) 0 12)

/-- The context of a job for messages (R378, R400): the valid COL_CTX with its JOB. -/
def State.colCtx (s : State) (d : DieIx) (job : BitVec 12) : Option Nat :=
  (List.range 32).find? (fun k => bitAt (s.reg d (rColCtx k 0)) 31 && decide (s.colJob d k = job))

/-- The change stroke that a context's COL_CTX_NEXT and COL_CTX_AT_LO name (R394). -/
def State.relayStroke (s : State) (d : DieIx) (k : Nat) : Nat := s.rf d (rColCtx k 1) 0 8 * 2 ^ 32 + (s.reg d (rColCtx k 2)).toNat

def State.colEpoch (s : State) (d : DieIx) (k : Nat) : Nat := s.rf d (rColCtx k 0) 16 8

/-- Attempt number of a job's step (R275), 0 without a commit context. -/
def State.attemptOf (s : State) (d : DieIx) (job : BitVec 12) : Nat :=
  match s.ctxOf d job with
  | some k => s.rf d (rCmtStat k) 24 8
  | none => 0

/-! ### Writing records -/

/-- The WRITE_REQ that carries bytes to a ring in another slot, under the epoch and attempt that the job has now; no command waits for
its acknowledgement (log entry 36). -/
def State.ringMsg (s : State) (d : DieIx) (l : Loc) (bs : List Byte) (job : BitVec 12) : Msg :=
  let epoch := match s.colCtx d job with
    | some k => s.colEpoch d k
    | none => 0
  s.mkMsg d 2 (BitVec.ofNat 23 ((s.moduleOfSlot l.slot).getD 0 * 512 + l.die * 64 + 63)) job epoch (s.attemptOf d job) 0
    (leBytes 8 l.addr.toNat ++ leBytes 4 0) bs

/-- Address of the entry that the record k places after the next one takes, and its PHASE bit (R92). -/
def State.ringEntryAt (s : State) (d : DieIx) (q : QId) (k : Nat) : BoardAddr :=
  BitVec.ofNat 52 ((s.reg64 d (qRing q)).toNat + 32 * ((s.rf d ((qRing q) + 12) 0 16 + k) % s.ringSize d q))

def State.ringPhaseAt (s : State) (d : DieIx) (q : QId) (k : Nat) : Bool :=
  decide ((s.rf d ((qRing q) + 12) 0 16 + k) % 2 ^ 16 / s.ringSize d q % 2 = 0)

/-- The same for the next record. -/
def State.ringEntry (s : State) (d : DieIx) (q : QId) : BoardAddr := s.ringEntryAt d q 0

def State.ringPhase (s : State) (d : DieIx) (q : QId) : Bool := s.ringPhaseAt d q 0

/-- Whether die d can write a ring entry: it decodes (R20), and its die is neither fenced nor held (R93); in another slot of the
board a route leads to its module. -/
def State.ringReachable (s : State) (d : DieIx) (l : Loc) : Bool :=
  decide (l.region ≤ 1) && mapped l.region l.off 32 &&
    (if l.slot = s.slot then s.present (dieIx l.die) && !s.dieFenced (dieIx l.die) && !(s.die (dieIx l.die)).held
     else (s.moduleOfSlot l.slot).isSome && (s.route d (s.ringMsg d l [] 0)).isSome)

/-- Advance HEAD (R92, R108). -/
def State.advanceHead (s : State) (d : DieIx) (q : QId) : State :=
  s.setRf d ((qRing q) + 12) 0 16 (s.rf d ((qRing q) + 12) 0 16 + 1)

/-- The 32 bytes of a record go to a reachable ring entry: of this module at once, of another one in a message. -/
def State.putRing (s : State) (d : DieIx) (l : Loc) (bs : List Byte) (job : BitVec 12) : State :=
  if l.slot = s.slot then s.memWrite ⟨d, job, false⟩ (dieIx l.die) l.region l.off bs (List.replicate 32 false)
  else s.sendMsg d (s.ringMsg d l bs job)

/-- A record whose ring cannot be reached is logged instead, and the loss is counted (R93). -/
def State.loseRecord (s : State) (d : DieIx) (r : Completion) : State :=
  (s.modDie d (fun x => x.addLog ⟨r.stamp, r.source, 0x0204, r.status, r.gen, none,
    BitVec.ofNat 64 (r.tag.toNat + r.status.toNat * 2 ^ 16 + r.kind.toNat * 2 ^ 24)⟩)).pelCount 0

/-- Write one record to the ring, or log it where the ring cannot be reached (R92, R93). -/
def State.writeRecord (s : State) (d : DieIx) (q : QId) (r : Completion) : State :=
  let a := s.ringEntry d q
  let l := locOf a
  let s1 :=
    if !s.ringReachable d l then s.loseRecord d r
    else s.putRing d l (r.bytes (s.ringPhase d q)) r.job
  let s2 := s1.advanceHead d q
  if r.irq ∧ s.ringReachable d l then s2.raise (.completion d (qNum q) r.tag) else s2

/-- The host queue that an engine queue is bound to (R470). -/
def State.boundTo (s : State) (d : DieIx) (q : QId) : Option (Fin 64) :=
  (List.finRange 64).find? (fun i => decide ((s.hostQ i).target = some (d, q)))

/-- Pelbex consumes one record of a ring of its own. -/
def State.consume (s : State) (d : DieIx) (q : QId) : State :=
  s.setRf d ((qRing q) + 12) 16 16 (s.rf d ((qRing q) + 12) 16 16 + 1)

/-- A record in a Pelbex-owned ring goes to the bound completion queue (R469, R470) and stays in the ring while that one's hold is full;
of an unbound queue Pelbex takes those of plans, and drops and counts the others (R477). -/
def State.forward (s : State) (d : DieIx) (q : QId) (l : Loc) (r : Completion) : State :=
  if !(decide (l.slot = s.slot) && inService l.region l.off 32) then s
  else
    match s.boundTo d q with
    | some i =>
      if (s.hostQ i).hold.length < 4096 ∧ (s.hostQ i).ringed = [] then (s.consume d q).postCq i r
      else s.setHostQ i { s.hostQ i with ringed := (s.hostQ i).ringed ++ [r] }
    | none =>
      let t := s.consume d q
      if t.jobs.any (fun j => decide (j.job = r.job) && j.plan.isSome) then t else t.pelCount 0

/-- The oldest record that waits is written unless the ring is full (R92). -/
def State.flushRecord (s : State) (d : DieIx) (q : QId) : State :=
  match (s.queue d q).done with
  | [] => s
  | r :: rs =>
    if s.ringFull d q then s
    else
      let l := locOf (s.ringEntry d q)
      let t := (s.modQueue d q (fun x => { x with done := rs })).writeRecord d q r
      (if s.ringReachable d l then t.forward d q l r else t).startQueue d q

/-- Records that stayed in the bound ring go on to the completion queue as its hold empties (R469). -/
def State.drainRing (s : State) (i : Fin 64) : Nat → State
  | 0 => s
  | n + 1 =>
    match (s.hostQ i).target, (s.hostQ i).ringed with
    | some (d, q), r :: rs =>
      if (s.hostQ i).hold.length < 4096 then
        ((((s.setHostQ i { s.hostQ i with ringed := rs }).consume d q).postCq i r).startQueue d q).drainRing i n
      else s
    | _, _ => s

/-- COMPLETION_RECORD (R91 to R93): the oldest waiting record of a queue goes to its ring, unless the ring is full. -/
def execCompletionRecord (d : DieIx) (q : QId) (s : State) : Host.Outcome State Fault Refusal :=
  onDie d s (fun t => t.flushRecord d q)

end Sys2Proof.Machine
end

