-- ==== Sys2Proof/Machine/Windows.lean ====
section
/-! DEFINITION. Queue windows: claims, held writes, pushes and discarded partial descriptors (R85, R86). -/

namespace Sys2Proof.Machine

/-- Bytes of a descriptor after a write of `bs` at offset `off`. -/
def overlay (b : Desc) : Nat → List Byte → Desc
  | _, [] => b
  | k, x :: xs => overlay (setFld b (8 * k) 8 x.toNat) (k + 1) xs

/-- Apply a write of the claiming endpoint: byte 63 pushes the descriptor and frees the window (R86). -/
def State.fillWindow (s : State) (d : DieIx) (q : QId) (c : Claim) (w : WindowWrite) : State :=
  let c1 : Claim := { c with bytes := overlay c.bytes w.off w.data, written := min 64 (c.written + w.data.length)
                             poison := c.poison || w.poison }
  if w.off + w.data.length ≥ 64 then
    (s.modQueue d q (fun x => { x with claim := none })).push d q c1.bytes c1.poison
      (match c.issuer with
        | .ep _ => false
        | _ => true)
  else s.modQueue d q (fun x => { x with claim := some c1 })

/-- One write to a window (R86): the first write into an idle window claims it, a write of another endpoint is held. -/
def State.windowOne (s : State) (d : DieIx) (q : QId) (w : WindowWrite) : State :=
  match (s.queue d q).claim with
  | none => s.fillWindow d q ⟨w.issuer, 0, 0, s.stroke d, false⟩ w
  | some c =>
    if c.issuer = w.issuer then s.fillWindow d q c w
    else s.modQueue d q (fun x => { x with held := x.held ++ [w] })

/-- The first held write that the window takes now, and the others: any write into an idle window, else one of the claiming
endpoint. -/
def takeHeld (c : Option Claim) (l : List WindowWrite) : Option (WindowWrite × List WindowWrite) :=
  (l.findIdx? (fun w => c.all (fun k => decide (k.issuer = w.issuer)))).bind (fun i =>
    (l[i]?).map (fun w => (w, l.eraseIdx i)))

/-- Apply held writes in arrival order (R86): after each push the window is open to the earliest write still held. -/
def State.drainHeld (s : State) (d : DieIx) (q : QId) : Nat → State
  | 0 => s
  | n + 1 =>
    match takeHeld (s.queue d q).claim (s.queue d q).held with
    | none => s
    | some p => ((s.modQueue d q (fun x => { x with held := p.2 })).windowOne d q p.1).drainHeld d q n

/-- A write of `data` at offset `off` of a queue window; bytes beyond 63 do not exist. -/
def State.windowWrite (s : State) (d : DieIx) (q : QId) (i : Issuer) (off : Nat) (data : List Byte) (poison : Bool) : State :=
  let w : WindowWrite := ⟨i, off, data.take (64 - off), poison⟩
  if w.data.isEmpty then s
  else
    let s1 := s.windowOne d q w
    s1.drainHeld d q (s1.queue d q).held.length

/-- QUEUE_WINDOW_WRITE (R86). -/
def execQueueWindowWrite (d : DieIx) (q : QId) (i : Issuer) (off : Fin 64) (data : List Byte) (s : State) :
    Host.Outcome State Fault Refusal :=
  onDie d s (fun t => t.windowWrite d q i off.val data false)

/-- Endpoint of an issuer for the event log; Pelbex and the health controller have none and read as the die's uncore. -/
def State.issuerEp (s : State) (d : DieIx) (i : Issuer) : Endpoint :=
  match i with
  | .ep e => e
  | _ => s.endpoint d 63

/-- PARTIAL_DESCRIPTOR_DISCARD (R86): a claim that has stood for one whole stroke is dropped and logged, and the window
passes to the held writes. -/
def execPartialDescriptorDiscard (d : DieIx) (q : QId) (s : State) : Host.Outcome State Fault Refusal :=
  onDie d s (fun t =>
    match (t.queue d q).claim with
    | none => t
    | some c =>
      if isDue (t.stroke d) (c.stroke.toNat + 2) then
        let t1 := (t.modQueue d q (fun x => { x with claim := none })).logEvent d 0x0205 0
          ((t.issuerEp d c.issuer).toNat + c.written * 2 ^ 24)
        t1.drainHeld d q (t1.queue d q).held.length
      else t)

end Sys2Proof.Machine
end

