-- ==== Sys2Proof/Machine/Registers.lean ====
section
/-! DEFINITION. The register space of a die: status views, writes with behaviour of their own, access types, and 64-bit
registers in two halves (R7, R64 to R66, R92, R93, R103 to R108, R212 to R219, R266, R273, R274, R358, R391 to R394, R425,
R452, R512 to R516, R532, R533). -/

namespace Sys2Proof.Machine

/-! ### Places -/

/-- The queue whose completion ring registers hold an offset, and the offset from CR_BASE. -/
def ringOf (off : Nat) : Option (QId × Nat) :=
  let inR := fun (q : QId) => decide (off ≥ qRing q) && decide (off < qRing q + 16)
  match coreOff off with
  | some (c, o) => if o ≥ 0x10 ∧ o < 0x20 then some (.core c, o - 0x10) else none
  | none => ([QId.bil, .upd, .row 0, .row 1, .row 2, .row 3, .cru, .col, .txe, .hlt].find? inR).map (fun q => (q, off - qRing q))

/-! ### Completion rings (R92, R93, R105 to R108) -/

def State.queueIdle (s : State) (d : DieIx) (q : QId) : Bool :=
  let x := s.queue d q
  x.entries.isEmpty && x.backlog.isEmpty && x.running.isEmpty

/-- A write of CR_BASE. -/
def State.ringBase (s : State) (d : DieIx) (q : QId) (v : DWord) : State :=
  if s.queueIdle d q then (s.setReg64 d (qRing q) (v &&& 0x000FFFFFFFFFFFE0)).setReg d (qRing q + 12) 0
  else s.logIgnored d (qRing q) 1

/-- A write of CR_CTL; a reserved size is ignored (R7). -/
def State.ringCtl (s : State) (d : DieIx) (q : QId) (v : Word) : State :=
  if fld v 0 5 < 4 ∨ fld v 0 5 > 15 then s
  else if s.queueIdle d q then (s.setReg d (qRing q + 8) (v &&& 0x1F)).setReg d (qRing q + 12) 0
  else s.logIgnored d (qRing q + 8) 1

/-- A write of CR_PTR: TAIL, unless more records than the ring holds would stand between it and HEAD. -/
def State.ringTail (s : State) (d : DieIx) (q : QId) (v : Word) : State :=
  let head := s.rf d (qRing q + 12) 0 16
  if (head + 65536 - fld v 16 16) % 65536 > s.ringSize d q then s.logIgnored d (qRing q + 12) 4
  else (s.setRf d (qRing q + 12) 16 16 (fld v 16 16)).startQueue d q

/-! ### Core control -/

/-- RESUME (R80, R103): the core leaves first-fault stop and goes on with the next command. -/
def State.resumeCore (s : State) (d : DieIx) (c : CoreIx) : State :=
  if (s.core d c).proc.stopped then
    (s.modCore d c (fun k => { k with proc := { k.proc with stopped := false } })).startQueue d (.core c)
  else s

/-- SNAP (R102, R536 to R538). -/
def State.snapCore (s : State) (d : DieIx) (c : CoreIx) : State :=
  s.modCore d c (fun k => { k with snap := k.idle, snapStamp := s.stamp d })

/-- RESEED of a core's generator (R64): it takes effect at the next boundary. -/
def State.reseedCore (s : State) (d : DieIx) (c : CoreIx) : State := s.modCore d c (fun k => { k with reseed := true })

/-! ### Billet stack, row and update contexts (R212, R215, R217, R275) -/

/-- DFN of a MUL or DIAG (R132). -/
def dDfn (d : Desc) : Nat := fld d (8 * 53 + 4) 4

/-- Whether a running command uses a billet stack context: a stack operation, a row command, or a matrix instruction with
a derivative drain. -/
def State.ctxBusy (s : State) (d : DieIx) (c : Nat) : Bool :=
  (s.queue d .bil).running.any (fun r => decide (dKind r.desc ≤ 0x82) && decide (dCtx r.desc = c))
    || [0, 1, 2, 3].any (fun q => (s.queue d (.row q)).running.any (fun r => decide (dCtx r.desc = c)))
    || (List.finRange 48).any (fun k => (s.queue d (.core k)).running.any (fun r =>
        decide (dKind r.desc = 0x21 ∨ dKind r.desc = 0x22) && decide (dDfn r.desc ≠ 0) && decide (dCtx r.desc = c)))

/-- A write of one of the three registers of a billet stack context; `w` 0 CFG, 1 BASE, 2 SIZE. -/
def State.bilCtxWrite (s : State) (d : DieIx) (i : Issuer) (c w : Nat) (v : Word) : State :=
  if i ≠ .pelbex then s.logIgnored d (rBilCtx c w) 2
  else if s.reg d (rBilCtx c 3) ≠ 0 ∨ s.reg d (rBilCtx c 4) ≠ 0 ∨ s.ctxBusy d c then s.logIgnored d (rBilCtx c w) 1
  else s.setReg d (rBilCtx c w) (v &&& (regSpec (rBilCtx c w)).rw)

/-- Whether a window of a context is bound in any row engine. -/
def State.rowBound (s : State) (d : DieIx) (c : Nat) : Bool :=
  [0, 1, 2, 3].any (fun (q : Fin 4) => (s.die d).rowWins[q].any (fun w => decide (w.ctx = c)))

/-- A write of ROW_CTX_BASE or ROW_CTX_GEOM at `off` (R215): the condition of R212, and no window of the context is bound. -/
def State.rowCtxWrite (s : State) (d : DieIx) (i : Issuer) (c off : Nat) (v : Word) : State :=
  if i ≠ .pelbex then s.logIgnored d off 2
  else if s.reg d (rBilCtx c 3) ≠ 0 ∨ s.reg d (rBilCtx c 4) ≠ 0 ∨ s.rowBound d c ∨ s.ctxBusy d c then s.logIgnored d off 1
  else s.setReg d off (v &&& (regSpec off).rw)

/-- A write of UPD_SET (R217): clearing VALID returns the commit state to reset (R275). -/
def State.updSetWrite (s : State) (d : DieIx) (i : Issuer) (k : Nat) (v : Word) : State :=
  if i ≠ .pelbex then s.logIgnored d (rUpdSet k) 2
  else
    let s1 := s.setReg d (rUpdSet k) (mixBits 0x80000FFF (s.reg d (rUpdSet k)) v)
    if bitAt v 31 then s1 else s1.setReg d (rCmtStat k) 0

/-- Reseed requests of the update and bucket generators (R218). -/
def State.reseedUpdate (s : State) (d : DieIx) : State := s.modDie d (fun x => { x with reseedUpd := true })
def State.reseedBucket (s : State) (d : DieIx) : State := s.modDie d (fun x => { x with reseedBkt := true })
def State.reseedReduction (s : State) (d : DieIx) : State := s.modDie d (fun x => { x with reseedCol := true })

/-! ### Commit contexts (R266, R273, R274) -/

def State.cmtGap (s : State) (d : DieIx) (k : Nat) : Nat := s.rf d (rCmtCtl k) 8 4

def State.setCmtState (s : State) (d : DieIx) (k v : Nat) : State := s.setRf d (rCmtStat k) 0 4 v

/-- Whether the stroke with number `n` (modulo 2⁴⁰) has begun. -/
def begun (now : Stroke) (n : Nat) : Bool :=
  decide (ahead now (n % 2 ^ 40) = 0) || decide (ahead now (n % 2 ^ 40) ≥ 2 ^ 39)

/-- Stroke C − j·g of a context. -/
def State.cmtMinus (s : State) (d : DieIx) (k j : Nat) : Nat :=
  (s.commitStroke d k + 2 ^ 40 - j * s.cmtGap d k) % 2 ^ 40

/-- ARM (R266): the context must be valid and idle, and stroke C − 3g not begun. -/
def State.armOk (s : State) (d : DieIx) (k : Nat) : Bool :=
  bitAt (s.reg d (rUpdSet k)) 31 && decide (s.cmtState d k = 0) && !begun (s.stroke d) (s.cmtMinus d k 3)

def State.armCtx (s : State) (d : DieIx) (k : Nat) : State :=
  if s.armOk d k then
    ((s.setCmtState d k 1).modCommit d k (fun c => { c with badStatus := 0, updates := 0, notice := false })).modDie d
      (fun x => { x with vetoes := setBit x.vetoes k false })
  else s.logIgnored d (rCmtCtl k) 1

/-- VETO (R274): while armed, the member will vote NO with STEP_ABORTED; the cause is noted until the vote. -/
def State.vetoCtx (s : State) (d : DieIx) (k : Nat) : State :=
  if s.cmtState d k = 1 then s.modDie d (fun x => { x with vetoes := setBit x.vetoes k true }) else s

/-- A write of UPD_CMT_CTL: the parameters, then ARM, then VETO. -/
def State.cmtCtlWrite (s : State) (d : DieIx) (k : Nat) (v : Word) : State :=
  let s1 := s.setReg d (rCmtCtl k) (keepReserved (rCmtCtl k) (s.reg d (rCmtCtl k)) (mixBits 0xFFFF0F00 (s.reg d (rCmtCtl k)) v))
  let s2 := if bitAt v 0 then s1.armCtx d k else s1
  if bitAt v 1 then (if bitAt v 0 && !s1.armOk d k then s2 else s2.vetoCtx d k) else s2

/-- A write of UPD_CMT_C_LO or UPD_CMT_C_HI at `off` (R273). -/
def State.cmtStrokeWrite (s : State) (d : DieIx) (k off : Nat) (v : Word) : State :=
  if s.cmtState d k ≠ 0 then s.logIgnored d off 1 else s.setReg d off (v &&& (regSpec off).rw)

/-! ### Collective contexts (R391, R394) -/

/-- Whether a command of a job is queued or running in the reduction or token exchange queue. -/
def State.colBusy (s : State) (d : DieIx) (job : BitVec 12) : Bool :=
  [QId.col, .txe].any (fun q =>
    let x := s.queue d q
    x.entries.any (fun e => dJob e.desc == job) || x.backlog.any (fun e => dJob e.desc == job)
      || x.running.any (fun r => dJob r.desc == job))


/-- A write of COL_CTX_CFG, NEXT or AT_LO (word 0, 1 or 2 of the context). -/
def State.colCtxWrite (s : State) (d : DieIx) (i : Issuer) (k w : Nat) (v : Word) : State :=
  let off := rColCtx k w
  if i ≠ .pelbex then s.logIgnored d off 2
  else if w = 0 ∧ bitAt (s.reg d off) 31 ∧ s.colBusy d (s.colJob d k) then s.logIgnored d off 1
  else s.setReg d off (mixBits (regSpec off).rw (s.reg d off) v)

/-- A write of COL_CTX_GRP_BASE. -/
def State.colGrpBase (s : State) (d : DieIx) (i : Issuer) (k : Nat) (v : DWord) : State :=
  if i ≠ .pelbex then s.logIgnored d (rColCtx k 4) 2
  else if bitAt (s.reg d (rColCtx k 0)) 31 ∧ s.colBusy d (s.colJob d k) then s.logIgnored d (rColCtx k 4) 1
  else s.setReg64 d (rColCtx k 4) (v &&& 0x000FFFFFFFFFFFFF)

/-! ### Health, ports, time-stamp capture -/

/-- A write of HLT_RESET_CTL (R425): the fields, and with GO the service reset with cause 2; a request with a reserved KIND
or ENGINE is ignored. -/
def State.resetCtl (s : State) (d : DieIx) (i : Issuer) (v : Word) : State :=
  if i ≠ .pelbex then s.logIgnored d rHltResetCtl 2
  else
    let s1 := s.setReg d rHltResetCtl
      (keepReserved rHltResetCtl (s.reg d rHltResetCtl) (mixBits 0x78003F33 (s.reg d rHltResetCtl) v))
    let kind := fld v 28 3
    let ok := decide (1 ≤ kind ∧ kind ≤ 4) && (decide (kind > 2) || decide (fld v 8 6 < 48)) && decide (fld v 0 2 < 3)
    if bitAt v 31 && ok then
      let m : Domain := if kind = 1 then .engine (coreIx (fld v 8 6)) ⟨fld v 0 2 % 3, Nat.mod_lt _ (by decide)⟩
        else if kind = 2 then .core (coreIx (fld v 8 6)) else if kind = 3 then .quad (quadIx (fld v 4 2)) else .die
      s1.startReset d m 2 (bitAt v 27)
    else s1

/-- A write of ASY_QFREE (R452): Pelbex frees quarantine slots. -/
def State.qfree (s : State) (d : DieIx) (i : Issuer) (v : Word) : State :=
  if i ≠ .pelbex then s.logIgnored d rAsyQfree 2
  else s.modReg d rAsyQstat (fun w => w &&& ~~~(v &&& 0xFFFF))

/-- Writing 1 to LNK_PCTL.REENABLE (R348, R358): a DOWN_LIMIT or CHECK disable ends and the port retrains. -/
def State.reenablePort (s : State) (d : DieIx) (p : PortIx) (i : Issuer) : State :=
  if i ≠ .pelbex then s.logIgnored d (rLnkPctl p.val) 2
  else if s.dieFenced d then s
  else if bitAt (s.reg d (rLnkPctl p.val)) 0 then s.modPort d p (fun x => { x with under := 0 })
  else if s.clearableDisable d p then s.trainPort d p
  else s

/-- Setting or clearing LNK_PCTL.DISABLE (R358): the port goes down with cause 11 and stays disabled; clearing the bit lets
a port that it disabled train again, unless a DOWN_LIMIT or CHECK disable lies under it, which only REENABLE or a warm reset ends (R348),
or the die is fenced, whose ports are held down (R419). -/
def State.disablePort (s : State) (d : DieIx) (p : PortIx) (i : Issuer) (on : Bool) : State :=
  if i ≠ .pelbex then s.logIgnored d (rLnkPctl p.val) 2
  else if !portExists s.fuses.variant d.val p.val then s
  else
    let s1 := s.modReg d (rLnkPctl p.val) (fun w => setBit w 0 on)
    let cause := s.rf d (rLnkPstat p.val) 24 4
    if on then
      let under := if s.clearableDisable d p then cause else if s.pstate d p = 1 ∧ cause = 11 then (s.port d p).under else 0
      ((((s1.linkDown d p 11).modPort d p (fun x => { x with under := under })).setPstate d p 1).setCause d p 11).discDone d
    else if s.pstate d p = 1 ∧ cause = 11 then
      let under := (s.port d p).under
      let s2 := s1.modPort d p (fun x => { x with under := 0 })
      if under ≠ 0 then s2.setCause d p under else if s.dieFenced d then s2.setPstate d p 5 else s2.trainPort d p
    else s1

/-- A write of STK_CAP_CTL (R532, R533): sources, then arming and disarming; source 0 captures the arming write itself. -/
def State.capCtlWrite (s : State) (d : DieIx) (v : Word) : State :=
  let old := s.reg d rStkCapCtl
  let src := keepReserved rStkCapCtl old (mixBits 0x00007777 old v)
  (List.range 4).foldl (fun t n =>
    if bitAt v (16 + n) then
      let t1 := t.modReg d rStkCapCtl (fun w => setBit (setBit w (16 + n) true) (24 + n) false)
      if fld src (4 * n) 3 = 0 then
        (t1.modReg d rStkCapCtl (fun w => setBit (setBit w (16 + n) false) (24 + n) true)).setReg64 d (rStkCap n) (t.stamp d)
      else t1
    else t.modReg d rStkCapCtl (fun w => setBit w (16 + n) false)) (s.setReg d rStkCapCtl src)

/-! ### HBM test registers and lanes (R299 to R301) -/

/-- A write of HBM_TEST_CTL. -/
def State.testCtlWrite (s : State) (d : DieIx) (i : Issuer) (v : Word) : State :=
  if bitAt (s.reg d rHbmTestCtl) 31 then (if v = 1 then s else s.logIgnored d rHbmTestCtl 1)
  else
    let s1 := s.modReg d rHbmTestCtl (fun w => mixBits 0x0003FF00 w v)
    let s2 := if bitAt v 1 = bitAt (s.reg d rHbmTestCtl) 1 then s1 else s1.setTestHold d i (bitAt v 1)
    if bitAt v 0 then s2.testGo d else s2

/-- A write of HBM_STK_STATUS: clearing LANE_ERR bit g clears the lane bits of channels 2g and 2g + 1. -/
def State.stkStatusWrite (s : State) (d : DieIx) (k : Nat) (v : Word) : State :=
  let clr := fld v 16 8
  let s1 := s.modReg d (rHbmStk k) (fun w => w &&& ~~~(v &&& 0x00FF0000))
  let lanes := (List.range 8).foldl (fun (w : DWord) g =>
    if clr / 2 ^ g % 2 = 1 then setFld (setFld w (4 * g) 4 0) (32 + 2 * g) 2 0 else w) (s.reg64 d (rHbmLane k))
  s1.setReg64 d (rHbmLane k) lanes

/-! ### Generic writes (R7, R515) -/

/-- A write of a register word without behaviour of its own. -/
def State.plainWrite (s : State) (d : DieIx) (i : Issuer) (off : Nat) (v : Word) : State :=
  let sp := regSpec off
  let old := s.reg d off
  let refused := (decide (sp.owner = 1) && i != .pelbex) ||
    (decide (sp.owner = 2) && (match i with
      | .ep _ => true
      | _ => false))
  if refused then s.logIgnored d off 2
  else
    let new := keepReserved off old (mixBits sp.rw old v) &&& ~~~(v &&& sp.w1c)
    let s1 := s.setReg d off new
    if (old ^^^ v) &&& sp.rwl ≠ 0 then s1.pelCount 24 else s1

/-- A write of HBM_QOS: requests that wait keep the class and the AGE with which they entered (R297); a value that no waiting request
can have entered under, since the longest AGE has passed twice, is forgotten. -/
def State.qosWrite (s : State) (d : DieIx) (i : Issuer) (v : Word) : State :=
  (s.plainWrite d i rHbmQos v).modHbm d (fun h =>
    { h with qosWas := (s.reg d rHbmQos, s.nominal d) :: h.qosWas.filter (fun p => decide (s.nominal d < p.2 + 2 * 255 * 94)) })

/-- Both halves of a 64-bit register take effect together (R513). -/
def State.wideWrite (s : State) (d : DieIx) (i : Issuer) (off : Nat) (v : DWord) : State :=
  match ringOf off with
  | some (q, _) => s.ringBase d q v
  | none =>
    if off ≥ rColCtx 0 0 ∧ off < rColCtx 32 0 then s.colGrpBase d i ((off - rColCtx 0 0) / 0x20) v
    else if off ≥ rEccRowlog 0 ∧ off < rEccRowlog 16 then
      (if bitAt v 63 then s else s.modReg d (off + 4) (fun w => setBit w 31 false))
    else (s.plainWrite d i off (v.setWidth 32)).plainWrite d i (off + 4) ((v >>> 32).setWidth 32)

/-- The effect of a 32-bit write that completes at its register: special behaviour by place, else the access rules. -/
def State.wordWrite (s : State) (d : DieIx) (i : Issuer) (off : Nat) (v : Word) : State :=
  match ringOf off with
  | some (q, 8) => s.ringCtl d q v
  | some (q, 12) => s.ringTail d q v
  | some _ => s
  | none =>
  match coreOff off with
  | some (c, o) =>
    if o = 0 then
      let s1 := s.plainWrite d i off v
      if bitAt v 2 then s1.resumeCore d c else s1
    else if o = 0x180 then
      let s1 := s.plainWrite d i off v
      if bitAt v 16 then s1.reseedCore d c else s1
    else if o = 0x300 then (if bitAt v 0 then s.snapCore d c else s)
    else s.plainWrite d i off v
  | none =>
    if off = rStkLock then s.setRf d rStkLock 0 16 0
    else if off = rStkCapCtl then s.capCtlWrite d v
    else if off = rHltResetCtl then s.resetCtl d i v
    else if off = rAsyQfree then s.qfree d i v
    else if off = rEccFlipCtl then
      let s1 := s.plainWrite d i off (setBit v 12 (bitAt (s.reg d off) 12))
      (match i with
       | .ep _ => s1
       | _ => if bitAt v 12 then s1.flipArm d else s1)
    else if off = rHbmTestCtl then s.testCtlWrite d i v
    else if off ≥ rHbmTestWir ∧ off < rHbmTestData 8 then
      (if bitAt (s.reg d rHbmTestCtl) 31 then s.logIgnored d off 1 else s.plainWrite d i off v)
    else if off ≥ rHbmStk 0 ∧ off < rHbmStk 4 ∧ (off - rHbmStk 0) % 0x20 = 0 then s.stkStatusWrite d ((off - rHbmStk 0) / 0x20) v
    else if off ≥ rLnkPstat 0 ∧ off < rLnkPstat 7 ∧ (off - rLnkPstat 0) % 0x40 = 0x14 then
      let p := portIx ((off - rLnkPstat 0) / 0x40)
      if i ≠ .pelbex then s.logIgnored d off 2
      else
        let s1 := if bitAt v 1 then s.reenablePort d p i else s
        if bitAt v 0 = bitAt (s.reg d off) 0 then s1 else s1.disablePort d p i (bitAt v 0)
    else if off ≥ rBilCtx 0 0 ∧ off < rBilCtx 16 0 then
      let c := (off - rBilCtx 0 0) / 0x40
      let w := (off - rBilCtx 0 0) % 0x40
      if w = 0 ∨ w = 8 ∨ w = 16 then s.bilCtxWrite d i c (w / 8) v
      else if w = 0x28 then (if bitAt v 0 then s.setReg d off 0 else s)
      else s
    else if off ≥ rRowCtxBase 0 ∧ off < rRowCtxBase 16 ∧ off % 0x10 < 8 then
      s.rowCtxWrite d i ((off - rRowCtxBase 0) / 0x10) off v
    else if off = rUpdSrCtl then
      let s1 := if bitAt v 0 then s.reseedUpdate d else s
      if bitAt v 1 then s1.reseedBucket d else s1
    else if off ≥ rUpdSet 0 ∧ off < rUpdSet 32 ∧ off % 8 = 0 then s.updSetWrite d i ((off - rUpdSet 0) / 8) v
    else if off ≥ rCmtCLo 0 ∧ off < rCmtCLo 32 then
      let k := (off - rCmtCLo 0) / 16
      if off % 16 = 0 ∨ off % 16 = 4 then s.cmtStrokeWrite d k off v
      else if off % 16 = 8 then s.cmtCtlWrite d k v else s
    else if off = rHbmQos then s.qosWrite d i v
    else if off = rColSrCtl then (if bitAt v 0 then s.reseedReduction d else s)
    else if off ≥ rColCtx 0 0 ∧ off < rColCtx 32 0 ∧ (off - rColCtx 0 0) % 0x20 < 12 then
      s.colCtxWrite d i ((off - rColCtx 0 0) / 0x20) ((off - rColCtx 0 0) % 0x20 / 4) v
    else s.plainWrite d i off v

/-- Held low words by issuer and offset (R513). -/
def heldFind (l : List (Issuer × Nat × Word)) (i : Issuer) (off : Nat) : Option Word :=
  (l.find? (fun p => p.1 == i && p.2.1 == off)).map (fun p => p.2.2)

def heldDrop (l : List (Issuer × Nat × Word)) (i : Issuer) (off : Nat) : List (Issuer × Nat × Word) :=
  l.filter (fun p => !(p.1 == i && p.2.1 == off))

/-- A 4-byte register write (R513). -/
def State.writeReg4 (s : State) (d : DieIx) (i : Issuer) (off : Nat) (v : Word) (poison : Bool) : State :=
  match windowOf off with
  | some (q, k) => s.windowWrite d q i k (leBytes 4 v.toNat) poison
  | none =>
    if (regSpec off).half = 1 then
      s.modDie d (fun x => { x with heldLow := (i, off, v) :: heldDrop x.heldLow i off })
    else if (regSpec off).half = 2 then
      let low := (heldFind (s.die d).heldLow i (off - 4)).getD (s.reg d (off - 4))
      (s.modDie d (fun x => { x with heldLow := heldDrop x.heldLow i (off - 4) })).wideWrite d i (off - 4) (v ++ low)
    else s.wordWrite d i off v

/-- An 8-byte register write. -/
def State.writeReg8 (s : State) (d : DieIx) (i : Issuer) (off : Nat) (v : DWord) (poison : Bool) : State :=
  match windowOf off with
  | some (q, k) => s.windowWrite d q i k (leBytes 8 v.toNat) poison
  | none =>
    if (regSpec off).half = 1 then s.wideWrite d i off v
    else (s.writeReg4 d i off (v.setWidth 32) poison).writeReg4 d i (off + 4) ((v >>> 32).setWidth 32) poison

/-! ### Reads -/

/-- A 4-byte register read by an issuer (R513): the low word of a 64-bit register latches its high word, which the
issuer's next 4-byte read of the high word returns. -/
def State.readReg4 (s : State) (d : DieIx) (i : Issuer) (off : Nat) : Word × State :=
  if isWideLow off then
    (s.regView d off, s.modDie d (fun x => { x with latched := (i, off, s.regView d (off + 4)) :: heldDrop x.latched i off }))
  else
    match (if off ≥ 4 then heldFind (s.die d).latched i (off - 4) else none) with
    | some w => (w, s.modDie d (fun x => { x with latched := heldDrop x.latched i (off - 4) }))
    | none => (s.regView d off, s)

/-- An 8-byte register read. -/
def State.readReg8 (s : State) (d : DieIx) (off : Nat) : DWord := s.regView d (off + 4) ++ s.regView d off

/-! ### Commands that write one register -/

/-- REGISTER_WRITE (R7, R513 to R515): a naturally aligned write of 4 bytes, or of 8 when `high` is given, to a register
without behaviour of its own; an access outside the mapped space fails decode and reaches nothing. -/
def execRegisterWrite (d : DieIx) (i : Issuer) (off : Fin 1048576) (v : Word) (high : Option Word) (s : State) :
    Host.Outcome State Fault Refusal :=
  onDie d s (fun t =>
    match high with
    | none => if off.val % 4 = 0 then t.writeReg4 d i off.val v false else t
    | some h => if off.val % 8 = 0 then t.writeReg8 d i off.val (h ++ v) false else t)

/-- CORE_CR_BASE (R105, R107). -/
def execCoreCrBase (d : DieIx) (c : CoreIx) (v : DWord) (s : State) : Host.Outcome State Fault Refusal :=
  onDie d s (fun t => t.ringBase d (.core c) v)

/-- CORE_CR_CTL (R106, R107). -/
def execCoreCrCtl (d : DieIx) (c : CoreIx) (v : Word) (s : State) : Host.Outcome State Fault Refusal :=
  onDie d s (fun t => t.ringCtl d (.core c) v)

/-- CORE_CR_PTR (R93, R108). -/
def execCoreCrPtr (d : DieIx) (c : CoreIx) (v : Word) (s : State) : Host.Outcome State Fault Refusal :=
  onDie d s (fun t => t.ringTail d (.core c) v)

/-- SNAP (R537, R538). -/
def execSnap (d : DieIx) (c : CoreIx) (s : State) : Host.Outcome State Fault Refusal := onDie d s (fun t => t.snapCore d c)

/-- RESEED of a core's generator (R64). -/
def execReseed (d : DieIx) (c : CoreIx) (s : State) : Host.Outcome State Fault Refusal :=
  onDie d s (fun t => t.reseedCore d c)

/-- RESUME (R80, R103). -/
def execResume (d : DieIx) (c : CoreIx) (s : State) : Host.Outcome State Fault Refusal :=
  onDie d s (fun t => t.resumeCore d c)

/-- BIL_CTX_CFG (R212). -/
def execBilCtxCfg (d : DieIx) (i : Issuer) (c : Fin 16) (v : Word) (s : State) : Host.Outcome State Fault Refusal :=
  onDie d s (fun t => t.bilCtxWrite d i c.val 0 v)

/-- BIL_CTX_BASE (R212). -/
def execBilCtxBase (d : DieIx) (i : Issuer) (c : Fin 16) (v : Word) (s : State) : Host.Outcome State Fault Refusal :=
  onDie d s (fun t => t.bilCtxWrite d i c.val 1 v)

/-- BIL_CTX_SIZE (R212). -/
def execBilCtxSize (d : DieIx) (i : Issuer) (c : Fin 16) (v : Word) (s : State) : Host.Outcome State Fault Refusal :=
  onDie d s (fun t => t.bilCtxWrite d i c.val 2 v)

/-- ROW_CTX_BASE (R215). -/
def execRowCtxBase (d : DieIx) (i : Issuer) (c : Fin 16) (v : Word) (s : State) : Host.Outcome State Fault Refusal :=
  onDie d s (fun t => t.rowCtxWrite d i c.val (rRowCtxBase c.val) v)

/-- ROW_CTX_GEOM (R215). -/
def execRowCtxGeom (d : DieIx) (i : Issuer) (c : Fin 16) (v : Word) (s : State) : Host.Outcome State Fault Refusal :=
  onDie d s (fun t => t.rowCtxWrite d i c.val (rRowCtxGeom c.val) v)

/-- UPD_SET (R217, R275). -/
def execUpdSet (d : DieIx) (i : Issuer) (k : CtxIx) (v : Word) (s : State) : Host.Outcome State Fault Refusal :=
  onDie d s (fun t => t.updSetWrite d i k.val v)

/-- UPD_RESEED (R218). -/
def execUpdReseed (d : DieIx) (s : State) : Host.Outcome State Fault Refusal := onDie d s (fun t => t.reseedUpdate d)

/-- BKT_RESEED (R218). -/
def execBktReseed (d : DieIx) (s : State) : Host.Outcome State Fault Refusal := onDie d s (fun t => t.reseedBucket d)

/-- COL_RESEED (R393). -/
def execColReseed (d : DieIx) (s : State) : Host.Outcome State Fault Refusal := onDie d s (fun t => t.reseedReduction d)

/-- ARM (R266). -/
def execArm (d : DieIx) (k : CtxIx) (s : State) : Host.Outcome State Fault Refusal := onDie d s (fun t => t.armCtx d k.val)

/-- VETO (R274). -/
def execVeto (d : DieIx) (k : CtxIx) (s : State) : Host.Outcome State Fault Refusal := onDie d s (fun t => t.vetoCtx d k.val)

/-- UPD_CMT_C (R273): one half of the commit stroke. -/
def execUpdCmtC (d : DieIx) (k : CtxIx) (hi : Bool) (v : Word) (s : State) : Host.Outcome State Fault Refusal :=
  onDie d s (fun t => t.cmtStrokeWrite d k.val (if hi then rCmtCHi k.val else rCmtCLo k.val) v)

/-- COL_CTX_CFG (R394). -/
def execColCtxCfg (d : DieIx) (i : Issuer) (k : CtxIx) (v : Word) (s : State) : Host.Outcome State Fault Refusal :=
  onDie d s (fun t => t.colCtxWrite d i k.val 0 v)

/-- COL_CTX_NEXT (R394, R401). -/
def execColCtxNext (d : DieIx) (i : Issuer) (k : CtxIx) (v : Word) (s : State) : Host.Outcome State Fault Refusal :=
  onDie d s (fun t => t.colCtxWrite d i k.val 1 v)

/-- COL_CTX_AT_LO (R394). -/
def execColCtxAtLo (d : DieIx) (i : Issuer) (k : CtxIx) (v : Word) (s : State) : Host.Outcome State Fault Refusal :=
  onDie d s (fun t => t.colCtxWrite d i k.val 2 v)

/-- COL_CTX_GRP_BASE (R394). -/
def execColCtxGrpBase (d : DieIx) (i : Issuer) (k : CtxIx) (v : DWord) (s : State) : Host.Outcome State Fault Refusal :=
  onDie d s (fun t => t.colGrpBase d i k.val v)

/-- COL_ALG (R391). -/
def execColAlg (d : DieIx) (i : Issuer) (v : Word) (s : State) : Host.Outcome State Fault Refusal :=
  onDie d s (fun t => t.plainWrite d i rColAlg v)

/-- HLT_RESET_CTL (R425). -/
def execHltResetCtl (d : DieIx) (i : Issuer) (v : Word) (s : State) : Host.Outcome State Fault Refusal :=
  onDie d s (fun t => t.resetCtl d i v)

/-- ASY_QFREE (R452). -/
def execAsyQfree (d : DieIx) (i : Issuer) (v : Word) (s : State) : Host.Outcome State Fault Refusal :=
  onDie d s (fun t => t.qfree d i v)

/-- REENABLE (R348, R358). -/
def execReenable (d : DieIx) (p : PortIx) (i : Issuer) (s : State) : Host.Outcome State Fault Refusal :=
  onDie d s (fun t => t.reenablePort d p i)

/-- DISABLE (R358): the bit as it is written. -/
def execDisable (d : DieIx) (p : PortIx) (i : Issuer) (on : Bool) (s : State) : Host.Outcome State Fault Refusal :=
  onDie d s (fun t => t.disablePort d p i on)

/-- STK_CAP_CTL (R532, R533). -/
def execStkCapCtl (d : DieIx) (v : Word) (s : State) : Host.Outcome State Fault Refusal :=
  onDie d s (fun t => t.capCtlWrite d v)

end Sys2Proof.Machine
end

