-- ==== Sys2Proof/Machine/Access.lean ====
section
/-! DEFINITION. Accesses of engines by board address: decode, the service region and the Crucible stores, gradient buckets,
and requests to other dies (R16 to R20, R101, R103, R125, R199, R225, R226, R293, R335, R342, R400, R413). -/

namespace Sys2Proof.Machine

/-! ### Decode (R20) -/

/-- Dies of the module in a slot, by its entry in the installation table; none where the table names no module there. -/
def State.slotDies (s : State) (t : Nat) : Nat :=
  if t = s.slot then s.dieCount
  else
    match s.ownEntry with
    | none => 0
    | some o =>
      match s.settings.table.find? (fun e => decide (e.slot = t ∧ e.rack = o.rack ∧ e.chassis = o.chassis ∧ e.tray = o.tray)) with
      | none => 0
      | some e => variantDies e.variant

/-- Whether an endpoint can be addressed (R23): its CORE is a core or 63, and its die is present on a module that the installation table
lists, or on this one. -/
def State.reachableEnd (s : State) (d : DieIx) (e : Endpoint) : Bool :=
  let m := e.toNat / 512
  let c := e.toNat % 64
  let die := e.toNat / 64 % 8
  decide (c < 48 ∨ c = 63) &&
    (if m = s.moduleNo d then decide (die < s.dieCount)
     else s.settings.table.any (fun x => decide (x.module.toNat = m) && decide (die < variantDies x.variant)))

/-- The record of a structure slot on a die, unless the slot is FREE there. -/
def State.cruSlot (s : State) (d : DieIx) (k : Nat) : Option CruSlot :=
  ((s.die d).slots.find? (fun p => p.1 == k)).map (fun p => p.2)

/-- n bytes at a region 0x03 offset lie in the store of a slot that is not FREE (R226). -/
def State.storeMapped (s : State) (d : DieIx) (off n : Nat) : Bool :=
  match s.cruSlot d (off / 2 ^ 33) with
  | none => false
  | some k => decide (off % 2 ^ 33 + n ≤ min k.bytes (2 ^ 33))

/-- Whether n bytes at a board address decode at the issuing die, against its board map (R20, R349). -/
def State.decodes (s : State) (d : DieIx) (a : BoardAddr) (n : Nat) : Bool :=
  let l := locOf a
  decide (l.region ≤ 3) && mapped l.region l.off n &&
  (if l.slot = s.slot then decide (l.die < s.dieCount) && (if l.region = 3 then s.storeMapped (dieIx l.die) l.off n else true)
   else bitAt (s.die d).map l.slot && (s.moduleOfSlot l.slot).isSome && decide (l.die < s.slotDies l.slot))

/-- Rows of a strided block: the addresses of its rows. -/
def rowAddr (a : BoardAddr) (pitch r : Nat) : Nat := a.toNat + pitch * r

/-- Whether every row of a block decodes; a row that runs past the address space does not. -/
def State.rowsDecode (s : State) (d : DieIx) (a : BoardAddr) (pitch rows len : Nat) : Bool :=
  (List.range rows).all (fun r => decide (rowAddr a pitch r + len ≤ 2 ^ 52) && s.decodes d (BitVec.ofNat 52 (rowAddr a pitch r)) len)

/-- Whether a row of a block touches a service region (R18). -/
def rowsService (a : BoardAddr) (pitch rows len : Nat) : Bool :=
  (List.range rows).any (fun r =>
    let l := locOf (BitVec.ofNat 52 (rowAddr a pitch r))
    inService l.region l.off len)

/-- Whether n bytes at a region 0x00 offset touch the store of a slot that is not FREE (R225). -/
def State.storeHit (s : State) (d : DieIx) (off n : Nat) : Bool :=
  (s.die d).slots.any (fun p => decide (p.2.store < off + n) && decide (off < p.2.store + p.2.bytes))

/-! ### Buckets on the write path (R199) -/

def overlaps (a n b m : Nat) : Bool := decide (a < b + m) && decide (b < a + n) && decide (0 < n) && decide (0 < m)

/-- How a write of n bytes of a job at a region 0x00 offset meets the open buckets of its die. -/
inductive BucketHit where
  | none
  | inside (b : Bucket)
  | bad
deriving DecidableEq, Repr

def State.bucketHit (s : State) (d : DieIx) (job : BitVec 12) (off n : Nat) (fmt : Option Fmt) : BucketHit :=
  match (s.die d).buckets.find? (fun b => overlaps off n b.base b.bytes) with
  | none => .none
  | some b =>
    if b.job = job ∧ b.base ≤ off ∧ off + n ≤ b.base + b.bytes ∧ (fmt = none ∨ fmt = some b.fmt) then .inside b else .bad

/-- Add elements to those stored, one after another, by SR of the bucket's generator (R62, R199). -/
def accumElems (f : Fmt) : List Elem → List Elem → Gen → List Byte × List Bool × Bool × Gen
  | o :: os, n :: ns, g =>
    let w := f.elemBytes
    if o.poison ∨ n.poison then
      let r := accumElems f os ns g
      (List.replicate w 0 ++ r.1, List.replicate w true ++ r.2.1, r.2.2.1, r.2.2.2)
    else
      let e := encodeFloat f .sr ((Fpv.add .rne o.val n.val).plusZero) g
      let r := accumElems f os ns e.gen
      (leBytes w e.bits ++ r.1, List.replicate w false ++ r.2.1, r.2.2.1 || bitAt e.flags 0, r.2.2.2)
  | _, _, g => ([], [], false, g)

/-- Accumulate a write into an open bucket. -/
def State.accumulate (s : State) (a : Access) (d : DieIx) (b : Bucket) (off : Nat) (bs : List Byte) (ps : List Bool) : State :=
  let n := bs.length / b.fmt.elemBytes
  let old := s.memRead a d 0 off bs.length
  let sum := accumElems b.fmt (decodeRow b.fmt n old.bytes old.poison) (decodeRow b.fmt n bs ps) (s.die d).genBkt
  let s1 := old.state.memWrite a d 0 off sum.1 sum.2.1
  let lines := if bs.isEmpty then 0 else (off + bs.length - 1) / 64 - off / 64 + 1
  s1.modDie d (fun x =>
    { x with genBkt := sum.2.2.2
             buckets := x.buckets.map (fun y => if y.job = b.job ∧ y.num = b.num then
               { y with sat := y.sat || sum.2.2.1, lines := min (y.lines + lines) 0xFFFFFFFF } else y) })

/-- Whether a write of a job to region 0 or 1 of a die is one the write path accepts (R199, R225). -/
def State.writeOk (s : State) (d : DieIx) (job : BitVec 12) (region off n : Nat) (fmt : Option Fmt) : Bool :=
  if region = 0 then !s.storeHit d off n && (s.bucketHit d job off n fmt != .bad) else decide (region = 1)

/-- A write of a command's data to region 0 or 1 of its own die: accumulated inside an open bucket of its job, else stored. -/
def State.writeLocal (s : State) (a : Access) (d : DieIx) (region off : Nat) (bs : List Byte) (ps : List Bool) : State :=
  match (if region = 0 then s.bucketHit d a.job off bs.length none else .none) with
  | .inside b => s.accumulate a d b off bs ps
  | _ => s.memWrite a d region off bs ps

/-- Whether every row of a destination is acceptable at the command's start: it decodes, avoids service regions, region
0x03 and the stores, and meets buckets only as R199 allows; destinations on other modules are judged there. -/
def State.rowsWritable (s : State) (d : DieIx) (job : BitVec 12) (a : BoardAddr) (pitch rows len : Nat) (fmt : Option Fmt) : Bool :=
  s.rowsDecode d a pitch rows len &&
  (List.range rows).all (fun r =>
    let l := locOf (BitVec.ofNat 52 (rowAddr a pitch r))
    if l.slot = s.slot then decide (l.region = 2) || s.writeOk (dieIx l.die) job l.region l.off len fmt
    else decide (l.region ≠ 3))

/-- The same for an output of a Crucible command, which R225 lets lie in a store. -/
def State.cruWritable (s : State) (d : DieIx) (job : BitVec 12) (a : BoardAddr) (len : Nat) (fmt : Fmt) : Bool :=
  let l := locOf a
  s.rowsDecode d a 0 1 len &&
  (if l.slot = s.slot then decide (l.region = 1 ∨ l.region = 2)
      || (decide (l.region = 0) && (s.bucketHit (dieIx l.die) job l.off len (some fmt) != .bad))
   else decide (l.region ≠ 3))

/-- Whether a request comes from the home die of a slot whose store it touches, while a solve kind of that die runs: a write that R225
does not forbid. -/
def State.cruSends (s : State) (d : DieIx) (m : Msg) (off n : Nat) : Bool :=
  (s.die d).slots.any (fun p => decide (p.2.store < off + n) && decide (off < p.2.store + p.2.bytes)
    && decide (m.src = s.endpoint (dieIx p.2.home) 63) && decide (m.job = p.2.job)
    && (s.queue (dieIx p.2.home) .cru).running.any (fun r => decide (dKind r.desc ≥ 0x43)))

/-- Count an attempt of a job at a service region (R18, R483). -/
def State.countService (s : State) (hit : Bool) : State := if hit then s.pelCount 16 else s

/-! ### Requests to other dies -/

/-- Whether a board address lies on the die itself. -/
def State.isLocal (s : State) (d : DieIx) (a : BoardAddr) : Bool :=
  decide ((locOf a).slot = s.slot) && decide ((locOf a).die = d.val)

/-- Endpoint of the uncore of the die that serves a board address. -/
def State.serverOf (s : State) (d : DieIx) (a : BoardAddr) : Endpoint :=
  let l := locOf a
  let m := if l.slot = s.slot then s.moduleNo d else (s.moduleOfSlot l.slot).getD 0
  BitVec.ofNat 23 (m * 512 + l.die * 64 + 63)

/-- Pieces of at most 4,032 bytes of n bytes from an offset (R335). -/
def pieces : Nat → Nat → Nat → List (Nat × Nat)
  | 0, _, _ => []
  | k + 1, o, n => if n = 0 then [] else (o, min n 4032) :: pieces k (o + 4032) (n - 4032)

def piecesOf (n : Nat) : List (Nat × Nat) := pieces ((n + 4031) / 4032) 0 n

/-- A poison mark for each 64-byte unit of a message's payload; unit 0 is the header (R315). -/
def unitPoison (ps : List Bool) : DWord :=
  (List.range ((ps.length + 63) / 64)).foldl (fun w k => setBit w (k + 1) (anyAt ps (64 * k) 64)) 0

/-- The poison marks that units give to n data bytes. -/
def bytePoison (w : DWord) (n : Nat) : List Bool := (List.range n).map (fun i => bitAt w (i / 64 + 1))

/-- A request message of a running command. -/
def State.reqMsg (s : State) (d : DieIx) (q : QId) (r : Running) (kind : Nat) (a : BoardAddr) (len : Nat) (data : List Byte)
    (ps : List Bool) : Msg :=
  { stamp := s.stamp d, src := s.qSource d q, dst := s.serverOf d a, job := dJob r.desc
    epoch := BitVec.ofNat 8 (dEpoch r.desc), gen := s.execGen d q (dKind r.desc), mkind := BitVec.ofNat 8 kind
    attempt := BitVec.ofNat 8 (s.attemptOf d (dJob r.desc)), step := BitVec.ofNat 32 (dStep r.desc)
    spec := leBytes 8 a.toNat ++ leBytes 4 len, data := data, poison := unitPoison ps }

/-- Send a request and remember it. -/
def State.sendReq (s : State) (d : DieIx) (q : QId) (r : Running) (write : Bool) (a : BoardAddr) (len : Nat)
    (data : List Byte) (ps : List Bool) : State :=
  let m := s.reqMsg d q r (if write then 2 else 1) a (if write then 0 else len) data ps
  let o : Outstanding := ⟨(s.die d).nextReq, qNum q, r.ident, write, a, len, s.stroke d, m.dst, m.gen, none⟩
  (s.modDie d (fun x => { x with outstanding := x.outstanding ++ [o], nextReq := x.nextReq + 1 })).sendMsg d m

/-- The requests of a command. -/
def State.reqsOf (s : State) (d : DieIx) (q : QId) (r : Running) : List Outstanding :=
  (s.die d).outstanding.filter (fun o => decide (o.queue = qNum q) && decide (o.ident = r.ident))

/-- What an attempt to read gives: the bytes, a wait, or a status that ends the command. -/
inductive Fetch where
  | data (bs : List Byte) (ps : List Bool) (s : State)
  | wait (s : State)
  | stop (st : Nat)

/-- Where a local board address really lies: region 0x03 is a window onto the stores (R226). -/
def State.place (s : State) (d : DieIx) (l : Loc) : Nat × Nat :=
  if l.region = 3 then
    match s.cruSlot d (l.off / 2 ^ 33) with
    | some k => (0, k.store + l.off % 2 ^ 33)
    | none => (0, 0)
  else (l.region, l.off)

/-- Read registers word by word for an issuer, from a 4-byte aligned offset. -/
def State.readRegs (s : State) (d : DieIx) (i : Issuer) : Nat → Nat → List Byte × State
  | 0, _ => ([], s)
  | k + 1, off =>
    let w := s.readReg4 d i off
    let r := w.2.readRegs d i k (off + 4)
    (leBytes 4 w.1.toNat ++ r.1, r.2)

/-- Write registers word by word for an issuer. -/
def State.writeRegs (s : State) (d : DieIx) (i : Issuer) : Nat → Nat → List Byte → List Bool → State
  | 0, _, _, _ => s
  | k + 1, off, bs, ps =>
    (s.writeReg4 d i off (BitVec.ofNat 32 (leNat (bs.take 4))) (anyAt ps 0 4)).writeRegs d i k (off + 4) (bs.drop 4) (ps.drop 4)

/-- Register accesses are 4 or 8 bytes wide and aligned (R513); the DMA engine's rows are whole words (R514). -/
def regAligned (off n : Nat) : Bool := decide (off % 4 = 0) && decide (n % 4 = 0)

/-- What the HBM of its own die does to an engine's access: it goes ahead, waits while the stacks do not serve (R288), or ends
the command with FENCED in test hold (R293). -/
inductive Gate where
  | go
  | wait
  | fenced
deriving DecidableEq, Repr

def State.gateHbm (s : State) (d : DieIx) (a : BoardAddr) : Gate :=
  let l := locOf a
  if s.isLocal d a ∧ (l.region = 0 ∨ l.region = 3) then
    (if s.testHold d then .fenced else if s.hbmServes d then .go else .wait)
  else .go

/-- The core whose accumulator bank a region 0x01 offset lies in. -/
def bankCore (l : Loc) : Option CoreIx :=
  if l.region = 1 ∧ l.off ≥ 0x0100000000 ∧ (l.off - 0x0100000000) % 0x01000000 ≥ 0x00800000 then
    some (coreIx ((l.off - 0x0100000000) / 0x01000000))
  else none

/-- An access of a running command to an accumulator bank waits while a matrix instruction other than itself owns it (R84). -/
def State.gate (s : State) (d : DieIx) (q : QId) (r : Running) (a : BoardAddr) : Gate :=
  match (if s.isLocal d a then bankCore (locOf a) else none) with
  | some c => if s.bankHeld d c ∧ ¬ (q = .core c ∧ dKind r.desc ≥ 0x21) then .wait else .go
  | none => s.gateHbm d a

/-- Whether an address that a command has yet to reach lies in a slot that does not decode any more (R20, R349). -/
def State.lostSlot (s : State) (d : DieIx) (a : BoardAddr) (n : Nat) : Bool := decide ((locOf a).slot ≠ s.slot) && !s.decodes d a n

/-- Read n bytes for a running command. Local HBM in test hold ends it with FENCED (R293) and HBM that does not serve makes
it wait; another die is asked, and the read waits for the replies (R101); one in a slot that has become unreachable ends it with
FORMAT_ERROR (R20, R397). -/
def State.fetch (s : State) (d : DieIx) (q : QId) (r : Running) (a : BoardAddr) (n : Nat) : Fetch :=
  if n = 0 then .data [] [] s
  else if s.isLocal d a then
    let p := s.place d (locOf a)
    match s.gate d q r a with
    | .fenced => .stop stFenced
    | .wait => .wait s
    | .go =>
      if p.1 = 2 then
        let w := s.readRegs d (.ep (s.qSource d q)) ((n + 3) / 4) p.2
        .data w.1 (List.replicate n false) w.2
      else
      let x := s.memRead ⟨d, dJob r.desc, r.fw⟩ d p.1 p.2 n
      .data x.bytes x.poison x.state
  else
    let ps := piecesOf n
    let look := fun (p : Nat × Nat) => (s.reqsOf d q r).find? (fun o =>
      !o.write && decide (o.addr = BitVec.ofNat 52 (a.toNat + p.1)) && decide (o.len = p.2))
    let missing := ps.filter (fun p => (look p).isNone)
    if missing.isEmpty then
      let got := ps.map (fun p => (look p).bind (fun o => o.reply))
      if got.all Option.isSome then
        .data ((got.map (fun o => (o.getD ([], [])).1)).flatten) ((got.map (fun o => (o.getD ([], [])).2)).flatten) s
      else .wait s
    else if s.lostSlot d a n then .stop stFormat
    else .wait (missing.foldl (fun t p => t.sendReq d q r false (BitVec.ofNat 52 (a.toNat + p.1)) p.2 [] []) s)

/-- What an attempt to read several places gives. -/
inductive FetchAll where
  | data (l : List (List Byte × List Bool)) (s : State)
  | wait (s : State)
  | stop (st : Nat)

/-- Ask for every place that is not at hand; whether all of them are. -/
def State.ask (s : State) (d : DieIx) (q : QId) (r : Running) (l : List (BoardAddr × Nat)) : State × Bool :=
  l.foldl (fun t p =>
    if p.2 = 0 then t
    else if t.1.isLocal d p.1 then (t.1, t.2 && decide (t.1.gate d q r p.1 ≠ .wait))
    else
      match t.1.fetch d q r p.1 p.2 with
      | .wait u => (u, false)
      | _ => t) (s, true)

/-- Read places one after another. -/
def State.fetchEach (d : DieIx) (q : QId) (r : Running) : List (BoardAddr × Nat) → State → FetchAll
  | [], s => .data [] s
  | p :: ps, s =>
    match s.fetch d q r p.1 p.2 with
    | .stop st => .stop st
    | .wait t => .wait t
    | .data bs ms t =>
      match State.fetchEach d q r ps t with
      | .data l u => .data ((bs, ms) :: l) u
      | x => x

/-- Read several places for a running command: nothing is read before all of them are at hand. -/
def State.fetchAll (s : State) (d : DieIx) (q : QId) (r : Running) (l : List (BoardAddr × Nat)) : FetchAll :=
  let a := s.ask d q r l
  if a.2 then State.fetchEach d q r l s else .wait a.1

/-- The rows of a strided block as places. -/
def rowPlaces (a : BoardAddr) (pitch rows len : Nat) : List (BoardAddr × Nat) :=
  (List.range rows).map (fun r => (BitVec.ofNat 52 (rowAddr a pitch r), len))

/-- What the HBM of its own die does to accesses at several places. -/
def State.gateAll (s : State) (d : DieIx) (q : QId) (r : Running) (l : List (BoardAddr × Nat)) : Gate :=
  if l.any (fun p => s.gate d q r p.1 == .fenced) then .fenced
  else if l.any (fun p => s.gate d q r p.1 == .wait) then .wait else .go

/-- Write bytes for a running command: at once on its own die, by WRITE_REQ messages to another. -/
def State.put (s : State) (d : DieIx) (q : QId) (r : Running) (a : BoardAddr) (bs : List Byte) (ps : List Bool) : State :=
  if s.isLocal d a then
    (if (locOf a).region = 2 then s.writeRegs d (.ep (s.qSource d q)) (bs.length / 4) (locOf a).off bs ps
     else s.writeLocal ⟨d, dJob r.desc, r.fw⟩ d (locOf a).region (locOf a).off bs ps)
  else (piecesOf bs.length).foldl (fun t p =>
    t.sendReq d q r true (BitVec.ofNat 52 (a.toNat + p.1)) p.2 (slice bs p.1 p.2) (slice ps p.1 p.2)) s

/-- Write rows to their places. -/
def State.putAll (s : State) (d : DieIx) (q : QId) (r : Running) (l : List (BoardAddr × List Byte × List Bool)) : State :=
  l.foldl (fun t p => t.put d q r p.1 p.2.1 p.2.2) s

/-- Whether acknowledgements of a command's writes are still awaited. -/
def State.awaitsAck (s : State) (d : DieIx) (q : QId) (r : Running) : Bool :=
  (s.reqsOf d q r).any (fun o => o.write && o.reply.isNone)

/-- Forget the requests of a command that have been answered. -/
def State.dropReqs (s : State) (d : DieIx) (q : QId) (r : Running) : State :=
  s.modDie d (fun x =>
    { x with outstanding := x.outstanding.filter (fun o => !(decide (o.queue = qNum q) && decide (o.ident = r.ident))) })

/-- Forget the reads of a command, whose data have been used. -/
def State.dropReads (s : State) (d : DieIx) (q : QId) (r : Running) : State :=
  s.modDie d (fun x =>
    { x with outstanding := x.outstanding.filter (fun o =>
        o.write || !(decide (o.queue = qNum q) && decide (o.ident = r.ident))) })

/-- Replace the running command's record of progress. -/
def State.setRunning (s : State) (d : DieIx) (q : QId) (r : Running) : State :=
  s.modQueue d q (fun x => { x with running := x.running.map (fun y => if y.ident = r.ident then r else y) })

/-- The result that a running command has collected. -/
def Running.result (r : Running) (extra : List Nat) : Result := ⟨r.stats ++ extra, r.flags, r.hall, r.detail⟩

/-- What a matrix instruction that stops while it awaits acknowledgements reports (R125): the rows written in full, no
hallmark. Where the hallmark has failed and only its poison is still to be acknowledged, it has been evaluated, and the record keeps it (R131). -/
def State.cutRecord (s : State) (d : DieIx) (q : QId) (r : Running) : Running :=
  if r.acking ∧ (r.tail.isSome ∨ !r.stats.contains stHallmark) ∧ (dKind r.desc = 0x21 ∨ dKind r.desc = 0x22) then
    let pitch := dn r.desc 40 4
    let late := (((s.reqsOf d q r).filter (fun o => o.reply.isNone)).map (fun o =>
      (o.addr.toNat - (dAddr r.desc 32).toNat) / pitch)).eraseDups
    { r with hall := 0, stats := r.stats.filter (fun x => decide (x ≠ stHallmark))
             detail := BitVec.ofNat 32 (fld r.detail 0 16 - late.length) }
  else r

/-- Top (in bytes) and depth of a billet stack segment (R212). -/
def State.segTop (s : State) (d : DieIx) (c : Nat) : Nat := (s.reg d (rBilCtx c 3)).toNat * 64
def State.segDepth (s : State) (d : DieIx) (c : Nat) : Nat := (s.reg d (rBilCtx c 4)).toNat

/-- Move top (in bytes) and depth of a segment, and its high-water mark. -/
def State.setSeg (s : State) (d : DieIx) (c top depth : Nat) : State :=
  let s1 := (s.setReg d (rBilCtx c 3) (BitVec.ofNat 32 (top / 64))).setReg d (rBilCtx c 4) (BitVec.ofNat 32 depth)
  if top / 64 > (s.reg d (rBilCtx c 5)).toNat then s1.setReg d (rBilCtx c 5) (BitVec.ofNat 32 (top / 64)) else s1

/-- A POP that stops before the last acknowledgement leaves top and depth as before it (R179). -/
def State.unpop (s : State) (d : DieIx) (r : Running) : State :=
  if dKind r.desc = 0x81 ∧ r.acking then
    s.setSeg d (dCtx r.desc) (s.segTop d (dCtx r.desc) + r.rows) (s.segDepth d (dCtx r.desc) + 1)
  else s

/-- Stop a command early with a status on top of those it has collected (R101, R125, R179). -/
def State.stopEarly (s : State) (d : DieIx) (q : QId) (r : Running) (st : Nat) : State :=
  (s.unpop d r).finish d q r ((s.cutRecord d q r).result [st])

/-- Whether a write issued in this stroke names a slot that has become unreachable: it fails its decode (R20, R349, R397). -/
def State.lostWrites (s : State) (d : DieIx) (q : QId) (r : Running) : Bool :=
  (s.reqsOf d q r).any (fun o => o.write && o.reply.isNone && decide (o.sent = s.stroke d) && s.lostSlot d o.addr o.len)

/-- End a command that has issued all its writes: at once, or when the last acknowledgement is in. -/
def State.settle (s : State) (d : DieIx) (q : QId) (r : Running) : State :=
  if s.lostWrites d q r then s.stopEarly d q r stFormat
  else if s.awaitsAck d q r then s.setRunning d q { r with acking := true } else s.finish d q r (r.result [])

/-- Run the command of a kind: an engine that only awaits acknowledgements settles once they are in. -/
def withEngine (s : State) (d : DieIx) (q : QId) (kind : Nat) (k : Running → State) : State :=
  withRunning s d q kind (fun r => if r.acking then s.settle d q r else k r)

/-- Run the command of a queue that a condition picks. -/
def withPick (s : State) (d : DieIx) (q : QId) (pick : Running → Bool) (k : Running → State) : State :=
  match (s.queue d q).running.find? pick with
  | none => s
  | some r => if r.poison then s.finish d q r (.err stPoison) else if r.acking then s.settle d q r else k r

/-- The queue with a number. -/
def queueOfNum (n : Nat) : QId :=
  if n < 48 then .core (coreIx n)
  else if n = 48 then .bil else if n = 49 then .upd else if n < 54 then .row (quadIx (n - 50)) else if n = 54 then .cru
  else if n = 55 then .col else if n = 56 then .txe else .hlt

/-- The running command that an outstanding request belongs to. -/
def State.ownerOf (s : State) (d : DieIx) (o : Outstanding) : Option Running :=
  (s.queue d (queueOfNum o.queue)).running.find? (fun r => decide (r.ident = o.ident))

/-- CORE_CTL.RTO that bounds a queue's waits: the core's own; the uncore queues use core 0's (log entry 20). -/
def State.rto (s : State) (d : DieIx) (q : QId) : Nat :=
  match q with
  | .core c => s.rf d (rCoreCtl c.val) 8 8
  | _ => s.rf d (rCoreCtl 0) 8 8

/-- REPLY_TIMEOUT (R103): the oldest request of a queue without a reply RTO boundaries after its stroke ends its command with
TIMEOUT. -/
def execReplyTimeout (d : DieIx) (q : QId) (s : State) : Host.Outcome State Fault Refusal :=
  onDie d s (fun t =>
    match (t.die d).outstanding.find? (fun o => decide (o.queue = qNum q) && o.reply.isNone
        && begun (t.stroke d) (o.sent.toNat + t.rto d q)) with
    | none => t
    | some o =>
      match t.ownerOf d o with
      | some r => t.stopEarly d q r stTimeout
      | none => t.modDie d (fun x => { x with outstanding := x.outstanding.erase o }))

/-! ### Serving requests and taking replies -/

/-- Kind-specific field of a message. -/
def msgField (m : Msg) (k n : Nat) : Nat := leNat (slice m.spec (k - 28) n)

def msgAddr (m : Msg) : BoardAddr := BitVec.ofNat 52 (msgField m 28 8)

/-- A request whose JOB has a valid context here and whose EPOCH differs is dropped and counted (R400). -/
def State.epochDrop (s : State) (d : DieIx) (m : Msg) : Bool :=
  match s.colCtx d m.job with
  | some k => decide (s.colEpoch d k ≠ m.epoch.toNat)
  | none => false

/-- Whether a message of a job carries the attempt before the one its commit context is in: it is dropped and counted (R271). -/
def State.attemptDrop (s : State) (d : DieIx) (m : Msg) : Bool :=
  match s.ctxOf d m.job with
  | some k => decide ((m.attempt.toNat + 1) % 256 = s.rf d (rCmtStat k) 24 8)
  | none => false

/-- What drops a request before it is served (R271, R400, R412), with the counter of R405 or R411 that counts it. -/
def State.dropRequest (s : State) (d : DieIx) (m : Msg) : Option State :=
  if s.staleMsg d m then some (s.addSat d rHltStale 0 32 1)
  else if s.epochDrop d m then some (s.addSat d rColDrop0 16 16 1)
  else if s.attemptDrop d m then some (s.addSat d rColDrop1 16 16 1)
  else none

/-- A reply to a request, with its status and the tag of the serving domain (R413). -/
def State.reply (s : State) (d : DieIx) (m : Msg) (kind st : Nat) (data : List Byte) (ps : List Bool) : State :=
  s.sendMsg d
    { stamp := s.stamp d, src := s.endpoint d 63, dst := m.src, job := m.job, epoch := m.epoch, gen := m.gen
      mkind := BitVec.ofNat 8 kind, attempt := m.attempt, step := m.step
      spec := leBytes 8 (msgAddr m).toNat ++ leBytes 1 st ++ leBytes 1 (s.dieGen d).toNat, data := data, poison := unitPoison ps }

/-- Whether a board address of a request names this die. -/
def State.servesHere (s : State) (d : DieIx) (a : BoardAddr) : Bool := s.isLocal d a

/-- Whether a remote access is held at an accumulator bank (R84). -/
def State.bankBusy (s : State) (d : DieIx) (l : Loc) : Bool :=
  match bankCore l with
  | some c => s.bankHeld d c
  | none => false

/-- Serve a READ_REQ: held while the die's HBM is in self-refresh (R288, R289), FENCED in test hold (R293), dropped for its
epoch (R400), FORMAT_ERROR where the address does not decode or is a service region (R18). -/
def State.serveRead (s : State) (d : DieIx) (m : Msg) : State :=
  let a := msgAddr m
  let l := locOf a
  let n := msgField m 36 4
  let hbm := decide (l.region = 0 ∨ l.region = 3)
  if (hbm && !s.testHold d && !s.hbmServes d) || s.bankBusy d l then s
  else
    let t := (s.takeMsg d m).wake d
    match t.dropRequest d m with
    | some u => u
    | none =>
    if n = 0 ∨ n > 4032 ∨ !t.isLocal d a ∨ !t.decodes d a n then t.reply d m 3 stFormat [] []
    else if inService l.region l.off n then (t.pelCount 16).reply d m 3 stFormat [] []
    else if hbm && t.testHold d then t.reply d m 3 stFenced [] []
    else if l.region = 2 then
      if regAligned l.off n then
        let r := t.readRegs d (.ep m.src) (n / 4) l.off
        (r.2.causedBy d (t.die d).logNext m).reply d m 3 0 r.1 (List.replicate n false)
      else t.reply d m 3 stFormat [] []
    else
      let p := t.place d l
      let x := t.memRead ⟨d, m.job, false⟩ d p.1 p.2 n
      (x.state.causedBy d (t.die d).logNext m).reply d m 3 0 x.bytes x.poison

/-- Serve a WRITE_REQ under the same rules; a write inside an open bucket of its job accumulates (R199). -/
def State.serveWrite (s : State) (d : DieIx) (m : Msg) : State :=
  let a := msgAddr m
  let l := locOf a
  let n := m.data.length
  let hbm := decide (l.region = 0)
  if (hbm && !s.testHold d && !s.hbmServes d) || s.bankBusy d l then s
  else
    let t := (s.takeMsg d m).wake d
    match t.dropRequest d m with
    | some u => u
    | none =>
    if !t.isLocal d a ∨ !t.decodes d a n ∨ l.region = 3 then t.reply d m 4 stFormat [] []
    else if inService l.region l.off n then (t.pelCount 16).reply d m 4 stFormat [] []
    else if hbm && t.testHold d then t.reply d m 4 stFenced [] []
    else if l.region = 2 then
      if regAligned l.off n then
        ((t.writeRegs d (.ep m.src) (n / 4) l.off m.data (bytePoison m.poison n)).causedBy d (t.die d).logNext m).reply d m 4 0 [] []
      else t.reply d m 4 stFormat [] []
    else if !t.writeOk d m.job l.region l.off n none ∧ !t.cruSends d m l.off n then t.reply d m 4 stFormat [] []
    else ((t.writeLocal ⟨d, m.job, false⟩ d l.region l.off m.data (bytePoison m.poison n)).causedBy d (t.die d).logNext m).reply d m 4 0 [] []

/-- READ_REQ (R335, R400). -/
def execReadReq (d : DieIx) (m : Msg) (s : State) : Host.Outcome State Fault Refusal :=
  onDie d s (fun t => if m.mkind = 1 then t.serveRead d m else t)

/-- WRITE_REQ (R335, R400). -/
def execWriteReq (d : DieIx) (m : Msg) (s : State) : Host.Outcome State Fault Refusal :=
  onDie d s (fun t => if m.mkind = 2 then t.serveWrite d m else t)

/-- Whether the serving domain's tag is older than the one its last RESET_NOTICE announced (R413). -/
def State.staleServer (s : State) (d : DieIx) (m : Msg) : Bool :=
  match s.announcedTag d (announceKey m.src 4 0 0) with
  | some t => tagOlder (BitVec.ofNat 8 (msgField m 37 1)) t
  | none => false

/-- Whether a reply's GEN is none of the tags that engines at its destination have now (R412, R413). -/
def State.replyStale (s : State) (d : DieIx) (m : Msg) : Bool :=
  let c := m.dst.toNat % 64
  let tags := if c < 48 then
      let k := s.core d (coreIx c)
      [k.tagCore, k.tagEng[0], k.tagEng[1], k.tagEng[2]]
    else s.dieGen d :: [0, 1, 2, 3].map (fun q => s.quadGen d q)
  !tags.contains m.gen

/-- Take a reply (R413): dropped and counted when its GEN is stale against the issuing engine, when it carries the ATTEMPT before the
present one (R271), dropped when no command waits for it; a stale serving tag ends the command with STALE_GENERATION, a status ends it with that status. -/
def State.takeReply (s : State) (d : DieIx) (m : Msg) (write : Bool) : State :=
  let t := s.takeMsg d m
  if !t.replyStale d m && t.attemptDrop d m then t.addSat d rColDrop1 16 16 1 else
  match (t.die d).outstanding.find? (fun o => decide (o.write = write) && decide (o.addr = msgAddr m) && decide (o.target = m.src)
      && decide (o.gen = m.gen) && o.reply.isNone && decide (m.dst = t.qSource d (queueOfNum o.queue))) with
  | none => if t.replyStale d m then t.addSat d rHltStale 0 32 1 else t
  | some o =>
    match t.ownerOf d o with
    | none => (t.modDie d (fun x => { x with outstanding := x.outstanding.erase o })).addSat d rHltStale 0 32 1
    | some r =>
      let q := queueOfNum o.queue
      if m.gen ≠ t.execGen d q (dKind r.desc) then t.addSat d rHltStale 0 32 1
      else if t.staleServer d m then (t.addSat d rHltStale 0 32 1).stopEarly d q r stStale
      else if msgField m 36 1 ≠ 0 then t.stopEarly d q r (msgField m 36 1)
      else
        let got := (m.data, bytePoison m.poison m.data.length)
        t.modDie d (fun x => { x with outstanding := x.outstanding.map (fun y => if y.tag = o.tag then { y with reply := some got } else y) })

/-- READ_REPLY (R413). -/
def execReadReply (d : DieIx) (m : Msg) (s : State) : Host.Outcome State Fault Refusal :=
  onDie d s (fun t => if m.mkind = 3 then t.takeReply d m false else t)

/-- WRITE_ACK (R413). -/
def execWriteAck (d : DieIx) (m : Msg) (s : State) : Host.Outcome State Fault Refusal :=
  onDie d s (fun t => if m.mkind = 4 then t.takeReply d m true else t)

end Sys2Proof.Machine
end

