-- ==== Sys2Proof/Machine/Dma.lean ====
section
/-! DEFINITION. The DMA engine: COPY and FILL (R53, R97 to R101, R199, R514). -/

namespace Sys2Proof.Machine

/-! ### Payload fields (R97) -/

def cSrc (x : Desc) : BoardAddr := dAddr x 24
def cDst (x : Desc) : BoardAddr := dAddr x 32
def cLen (x : Desc) : Nat := dn x 40 4
def cRows (x : Desc) : Nat := dn x 44 4
def cSrcPitch (x : Desc) : Nat := dn x 48 4
def cDstPitch (x : Desc) : Nat := dn x 52 4
def cSrcFmt (x : Desc) : Option Fmt := Fmt.ofCode (fld x (8 * 56) 4)
def cDstFmt (x : Desc) : Option Fmt := Fmt.ofCode (fld x (8 * 56 + 4) 4)
def cScale (x : Desc) : Nat := dn x 57 1
def cImpose (x : Desc) : Bool := bitAt x (8 * 58)

/-- What a command asks for once its reserved codes and bits are judged (R7, R11). -/
inductive Judged (α : Type) where
  | format
  | noop
  | work (a : α)
deriving DecidableEq, Repr

/-- A COPY or FILL that moves something: source format (absent for FILL), destination format, row bytes on both sides. -/
structure DmaJob where
  src : Option Fmt
  dst : Fmt
  srow : Nat
  drow : Nat
deriving DecidableEq, Repr

/-- COPY's encodings. -/
def judgeCopy (x : Desc) : Judged DmaJob :=
  match cSrcFmt x, cDstFmt x with
  | some sf, some df =>
    if !dAddrOk x 24 ∨ !dAddrOk x 32 ∨ dn x 59 5 ≠ 0 ∨ dn x 58 1 > 1 ∨ (cImpose x ∧ cScale x = 255) then .format
    else if cLen x = 0 ∨ cRows x = 0 then .noop
    else .work ⟨some sf, df, sf.rowBytes (cLen x), df.rowBytes (cLen x)⟩
  | _, _ => .format

/-- The signed element code of a FILL pattern, when the device may write it (R51, R98, R99). -/
def fillCode (f : Fmt) (x : Desc) : Option Int :=
  match f with
  | .wb8 => if signedOf 8 (dn x 24 1) = -128 then none else some (signedOf 8 (dn x 24 1))
  | .wb6 => if signedOf 6 (dn x 24 1) = -32 ∨ signedOf 6 (dn x 24 1) ≠ signedOf 8 (dn x 24 1) then none else some (signedOf 8 (dn x 24 1))
  | _ => some 0

/-- FILL's encodings. -/
def judgeFill (x : Desc) : Judged DmaJob :=
  match cDstFmt x with
  | some df =>
    if !dAddrOk x 32 ∨ dn x 48 4 ≠ 0 ∨ fld x (8 * 56) 4 ≠ 0 ∨ dn x 57 7 ≠ 0 ∨ (fillCode df x).isNone then .format
    else if cLen x = 0 ∨ cRows x = 0 then .noop
    else .work ⟨none, df, 0, df.rowBytes (cLen x)⟩
  | none => .format

/-- The bytes of one row that FILL writes (R52, R99). -/
def fillRow (f : Fmt) (x : Desc) : List Byte :=
  let n := cLen x
  if f.isBlock then
    let q := (fillCode f x).getD 0
    let sc := BitVec.ofNat 8 (dn x 25 1)
    let code := fun (i : Nat) => if i < n then q else 0
    let blocks := (List.range ((n + 127) / 128 * 4)).map (fun b =>
      (⟨sc, packBlock f ((List.range 32).map (fun i => code (32 * b + i))), 0, false⟩ : BlockBytes))
    (layGroups f ((n + 127) / 128) blocks).1
  else ((List.range n).map (fun _ => leBytes f.elemBytes (dn x 24 8 % 256 ^ f.elemBytes))).flatten

/-- Whether two strided blocks share a byte. -/
def blocksMeet (a pa ra na b pb rb nb : Nat) : Bool :=
  (List.range ra).any (fun i => (List.range rb).any (fun j => overlaps (a + pa * i) na (b + pb * j) nb))

/-- Rows in region 0x02 are whole aligned words in one format (R514). -/
def rowsRegister (a : BoardAddr) (pitch rows len : Nat) (same : Bool) : Bool :=
  (List.range rows).all (fun r =>
    let l := locOf (BitVec.ofNat 52 (rowAddr a pitch r))
    decide (l.region ≠ 2) || (same && regAligned l.off len))

/-- Rows of a strided block that name absent dies or modules fail decode; a row in the service region counts (R18, R98). -/
def dmaService (x : Desc) (j : DmaJob) : Bool :=
  (j.src.isSome && rowsService (cSrc x) (cSrcPitch x) (cRows x) j.srow) || rowsService (cDst x) (cDstPitch x) (cRows x) j.drow

/-- Whether the operands of a transfer are acceptable (R98, R199, R514). -/
def State.dmaOk (s : State) (d : DieIx) (x : Desc) (j : DmaJob) : Bool :=
  let n := cRows x
  (decide (n ≤ 1) || decide (cDstPitch x ≥ j.drow))
    && s.rowsWritable d (dJob x) (cDst x) (cDstPitch x) n j.drow (some j.dst)
    && rowsRegister (cDst x) (cDstPitch x) n j.drow (j.src.isNone || decide (j.src = some j.dst))
    && (j.src.isNone ||
      (s.rowsDecode d (cSrc x) (cSrcPitch x) n j.srow
        && rowsRegister (cSrc x) (cSrcPitch x) n j.srow (decide (j.src = some j.dst))
        && !blocksMeet (cSrc x).toNat (cSrcPitch x) n j.srow (cDst x).toNat (cDstPitch x) n j.drow))

/-- A row as it goes to the destination, the generator and what the row adds to the record. -/
structure RowMove where
  out : RowOut
  stats : List Nat

/-- Convert one row (R53, R57, R59). -/
def dmaConvert (x : Desc) (j : DmaJob) (g : Gen) (bs : List Byte) (ps : List Bool) : RowMove :=
  match j.src with
  | none => ⟨⟨fillRow j.dst x, List.replicate j.drow false, 0, false, g⟩, []⟩
  | some sf =>
    let o := convertRow sf j.dst (rndOf (dRnd x)) (if cImpose x then some (cScale x) else none) (cLen x) bs ps g
    ⟨o, (if o.poisoned then [stPoison] else [])
      ++ (if bitAt o.flags 0 && j.dst.satStatus then [stSaturated] else [])⟩

/-- Where row k of the source and of the destination lies. -/
def dmaSrcRow (x : Desc) (k : Nat) : BoardAddr := BitVec.ofNat 52 (rowAddr (cSrc x) (cSrcPitch x) k)
def dmaDstRow (x : Desc) (k : Nat) : BoardAddr := BitVec.ofNat 52 (rowAddr (cDst x) (cDstPitch x) k)

/-- The requests of a finished row are dropped and DETAIL counts it (R101). -/
def rowDone (r : Running) : Running := { r with rows := r.rows + 1, detail := BitVec.ofNat 32 (r.rows + 1) }

/-- Rows from the first unfinished one on, written in order (R101): a row waits for the replies to its remote reads, and for
the acknowledgements of its remote writes. A row whose destination lies in a slot that has become unreachable since the start fails
its decode there, and the command ends with FORMAT_ERROR (R20, R349, R397). -/
def State.dmaRows (d : DieIx) (c : CoreIx) (j : DmaJob) : Nat → State → Running → State
  | 0, s, r => s.finish d (.core c) r (r.result [])
  | n + 1, s, r =>
    let q := QId.core c
    let dst := dmaDstRow r.desc r.rows
    if (s.reqsOf d q r).any (fun o => o.write) then
      (if s.awaitsAck d q r then s else State.dmaRows d c j n ((s.dropReqs d q r).setRunning d q (rowDone r)) (rowDone r))
    else
      match s.gate d q r dst with
      | .fenced => s.stopEarly d q r stFenced
      | .wait => s
      | .go =>
        match (if j.src.isNone then .data [] [] s else s.fetch d q r (dmaSrcRow r.desc r.rows) j.srow) with
        | .stop st => s.stopEarly d q r st
        | .wait t => t
        | .data bs ps t =>
          let m := dmaConvert r.desc j (t.core d c).gen bs ps
          let r1 : Running := { r with flags := r.flags ||| m.out.flags, stats := r.stats ++ m.stats }
          let t1 := ((t.modCore d c (fun k => { k with gen := m.out.gen })).put d q r dst m.out.bytes m.out.poison)
          if s.lostSlot d dst j.drow then s.stopEarly d q r stFormat
          else if s.isLocal d dst then State.dmaRows d c j n ((t1.dropReqs d q r1).setRunning d q (rowDone r1)) (rowDone r1)
          else t1.setRunning d q r1

/-- A DMA command: encodings, fence, no-op, operands, then its rows. DESIGN CHOICE (log 153): the spec states no order of a fence
against the no-op of LEN or ROWS 0, and a no-op COPY or FILL of a fenced engine completes with FENCED, as every command of a fenced
engine does (R419), not with OK. -/
def State.dmaRun (s : State) (d : DieIx) (c : CoreIx) (judge : Desc → Judged DmaJob) (r : Running) : State :=
  let q := QId.core c
  match judge r.desc with
  | .format => s.stopEarly d q r stFormat
  | .noop => if s.unitFenced d q (dKind r.desc) then s.stopEarly d q r stFenced else s.finish d q r Result.ok
  | .work j =>
    if r.rows = 0 ∧ (s.reqsOf d q r).isEmpty ∧ dmaService r.desc j then (s.countService true).stopEarly d q r stFormat
    else if r.rows = 0 ∧ (s.reqsOf d q r).isEmpty ∧ !s.dmaOk d r.desc j then s.stopEarly d q r stFormat
    else if s.unitFenced d q (dKind r.desc) then s.stopEarly d q r stFenced
    else s.dmaRows d c j (cRows r.desc - r.rows) r

/-- COPY (R97, R98, R101). -/
def execCopy (d : DieIx) (c : CoreIx) (s : State) : Host.Outcome State Fault Refusal :=
  onDie d s (fun t => withEngine t d (.core c) 0x10 (t.dmaRun d c judgeCopy))

/-- FILL (R97 to R99). -/
def execFill (d : DieIx) (c : CoreIx) (s : State) : Host.Outcome State Fault Refusal :=
  onDie d s (fun t => withEngine t d (.core c) 0x11 (t.dmaRun d c judgeFill))

end Sys2Proof.Machine
end

