-- ==== Sys2Proof/Machine/Flags.lean ====
section
/-! DEFINITION. FP64 and FP32 operations as IEEE 754-2019 defines them, with the five exception flags, and the operations of
the scalar and vector units on one element (R60, R61, R67, R150 to R154). -/

namespace Sys2Proof.Machine

/-! ### Flags and rounding codes (R75, R148) -/

/-- The IEEE 754-2019 exception flags, in the bit positions of FPCTL and VSTAT. -/
def fInexact : BitVec 8 := 0x08
def fUnder : BitVec 8 := 0x10
def fOver : BitVec 8 := 0x20
def fDivZero : BitVec 8 := 0x40
def fInvalid : BitVec 8 := 0x80

/-- The rounding mode of a ROUND code of VSTAT; FPCTL has no code 2. -/
def roundCode (n : Nat) : Option Rnd :=
  match n with
  | 0 => some .rne
  | 1 => some .rtz
  | 2 => some .sr
  | 4 => some .rup
  | 5 => some .rdn
  | _ => none

/-- What one element operation gives: the bits, IEEE flags, conversion flags (R58) and the generator. -/
structure FpOut where
  bits : Nat
  ieee : BitVec 8
  conv : BitVec 8
  gen : Gen
deriving DecidableEq, Repr

/-! ### Binary64 and binary32 -/

/-- A NaN that signals: quiet bit clear. -/
def isSignal (f : Fmt) (bits : Nat) : Bool :=
  (decodeFloat f bits).isNan && decide (bits / 2 ^ ((binOf f).fbits - 1) % 2 = 0)

/-- A NaN with its quiet bit set (R151). -/
def quieted (f : Fmt) (bits : Nat) : Nat :=
  if bits / 2 ^ ((binOf f).fbits - 1) % 2 = 0 then bits + 2 ^ ((binOf f).fbits - 1) else bits

/-- Round an exact value that is no NaN into binary64 or binary32 with the flags of default handling. -/
def ieeeRound (f : Fmt) (mode : Rnd) (v : Fpv) (g : Gen) : FpOut :=
  match v with
  | .nan => ⟨canonNan f, fInvalid, 0, g⟩
  | .inf neg => ⟨withSign f neg (overCode f), 0, 0, g⟩
  | .fin neg m e =>
    if m = 0 then ⟨withSign f neg 0, 0, 0, g⟩
    else
      let r := roundBin f mode neg m e g
      if r.overflow then ⟨(encodeFloat f mode v g).bits, fOver ||| fInexact, 0, r.gen⟩
      else ⟨withSign f neg r.mag, (if r.inexact then fInexact else 0) ||| (if r.tiny && r.inexact then fUnder else 0), 0, r.gen⟩

/-- The first NaN among the operands, in order. -/
def firstNan (f : Fmt) : List Nat → Option Nat
  | [] => none
  | b :: bs => if (decodeFloat f b).isNan then some b else firstNan f bs

/-- An operation whose exact result is `v` on operands `ops`: a NaN operand wins, and a signalling one is invalid (R151). -/
def ieeeOp (f : Fmt) (mode : Rnd) (ops : List Nat) (v : Fpv) (g : Gen) : FpOut :=
  match firstNan f ops with
  | some n => ⟨quieted f n, if ops.any (isSignal f) then fInvalid else 0, 0, g⟩
  | none => ieeeRound f mode v g

/-- The exact division by zero of a finite non-zero dividend. -/
def divByZero (a b : Fpv) : Bool := b.isZero && !a.isZero && !a.isNan && !a.isInf

/-- Binary operations that round. -/
inductive FBin where
  | add | sub | mul | div
deriving DecidableEq, Repr

def FBin.exact (o : FBin) (mode : Rnd) (a b : Fpv) : Fpv :=
  match o with
  | .add => a.add mode b
  | .sub => a.add mode b.negate
  | .mul => a.mul b
  | .div => a.div b

def ieeeBin (o : FBin) (f : Fmt) (mode : Rnd) (a b : Nat) (g : Gen) : FpOut :=
  let x := decodeFloat f a
  let y := decodeFloat f b
  let r := ieeeOp f mode [a, b] (o.exact mode x y) g
  if o = .div ∧ divByZero x y then { r with ieee := fDivZero } else r

def ieeeSqrt (f : Fmt) (mode : Rnd) (a : Nat) (g : Gen) : FpOut := ieeeOp f mode [a] (decodeFloat f a).sqrt g

/-- The fused forms: a·b + c, a·b − c, −(a·b) + c. -/
inductive FFma where
  | fma | fms | fnma
deriving DecidableEq, Repr

def FFma.exact (o : FFma) (mode : Rnd) (a b c : Fpv) : Fpv :=
  match o with
  | .fma => (a.mul b).add mode c
  | .fms => (a.mul b).add mode c.negate
  | .fnma => (a.mul b).negate.add mode c

/-- A zero times an infinity. -/
def zeroTimesInf (a b : Fpv) : Bool := (a.isZero && b.isInf) || (a.isInf && b.isZero)

def ieeeFma (o : FFma) (f : Fmt) (mode : Rnd) (a b c : Nat) (g : Gen) : FpOut :=
  let x := decodeFloat f a
  let y := decodeFloat f b
  let r := ieeeOp f mode [a, b, c] (o.exact mode x y (decodeFloat f c)) g
  if zeroTimesInf x y ∧ (decodeFloat f c).isNan ∧ Config.fmaNanInvalid then { r with ieee := r.ieee ||| fInvalid } else r

/-- minimumNumber and maximumNumber (R151): a number wins over a NaN, and −0 is below +0. -/
def ieeeMinMax (big : Bool) (f : Fmt) (a b : Nat) (g : Gen) : FpOut :=
  let x := decodeFloat f a
  let y := decodeFloat f b
  let inv : BitVec 8 := if isSignal f a || isSignal f b then fInvalid else 0
  if x.isNan ∧ y.isNan then ⟨quieted f a, inv, 0, g⟩
  else if x.isNan then ⟨b, inv, 0, g⟩
  else if y.isNan then ⟨a, inv, 0, g⟩
  else
    let less := decide (x.cmp y = -1) || (decide (x.cmp y = 0) && x.sign && !y.sign)
    ⟨if less != big then a else b, inv, 0, g⟩

/-- Compares: the truth value and the flags; the ordering compares signal on every NaN (R164). -/
inductive FCmp where
  | eq | lt | le | unord
deriving DecidableEq, Repr

def ieeeCmp (o : FCmp) (f : Fmt) (a b : Nat) : Bool × BitVec 8 :=
  let x := decodeFloat f a
  let y := decodeFloat f b
  let nan := x.isNan || y.isNan
  let sig := isSignal f a || isSignal f b
  match o with
  | .eq => (!nan && decide (x.cmp y = 0), if sig then fInvalid else 0)
  | .lt => (!nan && decide (x.cmp y = -1), if nan then fInvalid else 0)
  | .le => (!nan && decide (x.cmp y ≠ 1), if nan then fInvalid else 0)
  | .unord => (nan, if sig then fInvalid else 0)

/-- Sign operations touch the sign bit alone. -/
def absBits (f : Fmt) (a : Nat) : Nat := a % signBit f
def negBits (f : Fmt) (a : Nat) : Nat := if a / signBit f % 2 = 1 then a % signBit f else a % signBit f + signBit f
def sgnjBits (f : Fmt) (a b : Nat) : Nat := withSign f (decide (b / signBit f % 2 = 1)) (a % signBit f)

/-- Float to a signed integer of w bits by the INT rows of R55 (R143, R153): out of range or NaN is invalid. The rules name no other
flag; that a rounded source in range sets inexact is read from R67 (DEDUCED, log entry 131). -/
def floatToInt (f : Fmt) (w : Nat) (mode : Rnd) (a : Nat) (g : Gen) : FpOut :=
  let v := decodeFloat f a
  let e := encodeInt w mode v g
  if e.flags ≠ 0 then ⟨e.bits, fInvalid, e.flags, e.gen⟩
  else
    let exact := match v with
      | .fin neg m x => !(roundInt .rtz neg m x g).inexact
      | _ => true
    ⟨e.bits, if exact then 0 else fInexact, 0, e.gen⟩

/-- A signed integer of w bits to binary64 or binary32. -/
def intToFloat (f : Fmt) (w : Nat) (mode : Rnd) (a : Nat) (g : Gen) : FpOut := ieeeRound f mode (.ofInt (signedOf w a)) g

/-- Between binary64 and binary32: the value is rounded, a NaN keeps the leading bits of its payload (R67). -/
def ieeeConvert (src dst : Fmt) (mode : Rnd) (a : Nat) (g : Gen) : FpOut :=
  let v := decodeFloat src a
  if v.isNan then
    let q := quieted src a
    let fr := q % 2 ^ (binOf src).fbits
    let fd := if (binOf dst).fbits ≤ (binOf src).fbits then fr / 2 ^ ((binOf src).fbits - (binOf dst).fbits)
      else fr * 2 ^ ((binOf dst).fbits - (binOf src).fbits)
    ⟨withSign dst (decide (a / signBit src % 2 = 1)) (overCode dst + fd), if isSignal src a then fInvalid else 0, 0, g⟩
  else ieeeRound dst mode v g

/-! ### WF16 arithmetic (R152) -/

/-- Encode an exact WF16 result by the WF16 row of R55: a NaN operand gives 0x7FC0 with NAN_IN, an invalid operation 0x7FC0 with
invalid alone. -/
def wfRound (mode : Rnd) (fromNan : Bool) (v : Fpv) (g : Gen) : FpOut :=
  match v with
  | .nan => ⟨0x7FC0, if fromNan then 0 else fInvalid, if fromNan then flagNanIn else 0, g⟩
  | _ =>
    let e := encodeFloat .wf16 mode v g
    ⟨e.bits, 0, e.flags, e.gen⟩

/-! ### One element of a float operation at a width code -/

/-- The float type of a width code (R141). -/
def floatOf (w : Nat) : Option Fmt :=
  match w with
  | 1 => some .wf16
  | 2 => some .fp32
  | 3 => some .fp64
  | _ => none

def elemBin (o : FBin) (f : Fmt) (mode : Rnd) (a b : Nat) (g : Gen) : FpOut :=
  if f = .wf16 then
    let x := decodeFloat f a
    let y := decodeFloat f b
    wfRound mode (x.isNan || y.isNan) (o.exact mode x y) g
  else ieeeBin o f mode a b g

def elemSqrt (f : Fmt) (mode : Rnd) (a : Nat) (g : Gen) : FpOut :=
  if f = .wf16 then
    let x := decodeFloat f a
    wfRound mode x.isNan x.sqrt g
  else ieeeSqrt f mode a g

def elemFma (o : FFma) (f : Fmt) (mode : Rnd) (a b c : Nat) (g : Gen) : FpOut :=
  if f = .wf16 then
    let x := decodeFloat f a
    let y := decodeFloat f b
    let z := decodeFloat f c
    wfRound mode (x.isNan || y.isNan || z.isNan) (o.exact mode x y z) g
  else ieeeFma o f mode a b c g

/-- WF16 minimum and maximum write 0x7FC0 only when both operands are NaN. -/
def elemMinMax (big : Bool) (f : Fmt) (a b : Nat) (g : Gen) : FpOut :=
  let r := ieeeMinMax big f a b g
  if f = .wf16 then
    (if (decodeFloat f a).isNan && (decodeFloat f b).isNan then wfRound .rne true .nan g else ⟨r.bits, 0, 0, g⟩)
  else r

/-- A sign operation on element `a` with the bits that it gives: FP64 and FP32 touch the sign bit alone, WF16 encodes the exact
result, so that a NaN is written canonical (R49, R152). -/
def elemSign (f : Fmt) (a bits : Nat) (g : Gen) : FpOut :=
  if f = .wf16 then wfRound .rne (decodeFloat f a).isNan (decodeFloat f bits) g else ⟨bits, 0, 0, g⟩

/-- WF16 compares signal invalid as the other widths do: an ordering compare of a NaN is an invalid operation. -/
def elemCmp (o : FCmp) (f : Fmt) (a b : Nat) : Bool × BitVec 8 :=
  let r := ieeeCmp o f a b
  if f = .wf16 ∧ (o = .eq ∨ o = .unord) then (r.1, 0) else r

def elemToInt (f : Fmt) (w : Nat) (mode : Rnd) (a : Nat) (g : Gen) : FpOut :=
  let r := floatToInt f w mode a g
  if f = .wf16 then { r with ieee := r.ieee &&& fInvalid } else r

def elemFromInt (f : Fmt) (w : Nat) (mode : Rnd) (a : Nat) (g : Gen) : FpOut :=
  if f = .wf16 then wfRound mode false (.ofInt (signedOf w a)) g else intToFloat f w mode a g

end Sys2Proof.Machine
end

