-- ==== Sys2Proof/Machine/Hallmark.lean ====
section
/-! DEFINITION. Hallmark words, deviation exponents, and FP32 operations of the engines' own formulas (R186, R187, R431 to
R433). -/

namespace Sys2Proof.Machine

/-- A hallmark word (R431). -/
def hallWord (kind : Nat) (fail : Bool) (pass dev fails : Nat) : Word :=
  BitVec.ofNat 32 (kind * 2 ^ 28 + (if fail then 2 ^ 27 else 0) + min pass 255 * 2 ^ 16 + dev % 256 * 2 ^ 8 + min fails 255)

/-- The word of a no-op (R432). -/
def hallEmpty : Word := 0xF0008000

/-- DEV of a check without a deviation (R431). -/
def devNone : Nat := 0x80

/-- A signed exponent as the DEV byte. -/
def devByte (e : Int) : Nat := (e % 256).toNat

/-- ⌊log₂(d / t)⌋ of two finite non-zero magnitudes. -/
def log2Ratio (d t : Fpv) : Int :=
  let k := d.log2 - t.log2
  if (d.absVal.cmp (t.absVal.scale k)) = -1 then k - 1 else k

/-- DEV of an exact check: the deviation in comparison units, clamped to 127 (R432). -/
def devExact (d unit : Fpv) : Nat := if d.isZero then devNone else devByte (min 127 (log2Ratio d unit))

/-- DEV of a bounded check; a deviation that is not finite, or one against a zero tolerance, takes the largest value (R432). -/
def devBounded (d tol : Fpv) : Nat :=
  if d.isZero then devNone else if tol.isZero ∨ d.isNan ∨ d.isInf then 127 else devByte (max (-127) (min 127 (log2Ratio d tol)))

/-- Exact sum and difference of finite values. -/
def fsum (l : List Fpv) : Fpv := l.foldl (fun a b => a.add .rne b) (.fin false 0 0)
def Fpv.minus (a b : Fpv) : Fpv := a.add .rne b.negate

def Fpv.finite (v : Fpv) : Bool := !v.isNan && !v.isInf

/-- 2^e. -/
def pow2 (e : Int) : Fpv := .fin false 1 e

/-- ⌊v⌋ of a finite value, 0 else. -/
def Fpv.floor (v : Fpv) : Int :=
  match v with
  | .fin neg m e =>
    if e ≥ 0 then alignInt neg m e 0
    else
      let k := (-e).toNat
      if neg then -((m + 2 ^ k - 1) / 2 ^ k : Nat) else ((m / 2 ^ k : Nat) : Int)
  | _ => 0

/-- A finite value truncated toward −∞ on the grid 2^lsb (R71). -/
def Fpv.floorTo (v : Fpv) (lsb : Int) : Fpv := (Fpv.ofInt (v.scale (-lsb)).floor).scale lsb

/-- A generator for arithmetic that never draws. -/
def noGen : Gen := ⟨0, 0, false, 0⟩

/-- Bits of a result as an engine writes it: a NaN is the canonical one of R49, whose exception is the vector unit alone (DEDUCED, log
entry 134). -/
def canonBits (f : Fmt) (b : Nat) : Nat := if (decodeFloat f b).isNan then canonNan f else b

/-- One FP32 operation with RNE on bit patterns. -/
def op32 (o : FBin) (a b : Nat) : Nat := canonBits .fp32 (ieeeBin o .fp32 .rne a b noGen).bits

/-- One FP32 operation of a unit that writes an exactly zero sum as +0 (R60). -/
def op32z (o : FBin) (a b : Nat) : Nat :=
  let r := op32 o a b
  if (o = .add ∨ o = .sub) ∧ (decodeFloat .fp32 r).isZero then 0 else r

/-- One FP64 operation with RNE on bit patterns. -/
def op64 (o : FBin) (a b : Nat) : Nat := (ieeeBin o .fp64 .rne a b noGen).bits

/-- A value converted to FP32 with RNE under R55, and the flags of the conversion. -/
def conv32 (v : Fpv) : Nat × BitVec 8 :=
  let e := encodeFloat .fp32 .rne v noGen
  (e.bits, e.flags)

end Sys2Proof.Machine
end

