-- ==== Sys2Proof/Machine/Billet.lean ====
section
/-! DEFINITION. The billet stack controller: segments and entries, PUSH, POP, CLEAR, RECHUNK, and derivative tables (R171 to
R189, R208 to R212). -/

namespace Sys2Proof.Machine

/-! ### Contexts and segments (R172 to R175, R212) -/

/-- Whether a context is enabled and owned by a job (R172). -/
def State.bilOwned (s : State) (d : DieIx) (c : Nat) (job : BitVec 12) : Bool :=
  bitAt (s.reg d (rBilCtx c 0)) 31 && decide (s.rf d (rBilCtx c 0) 16 12 = job.toNat)

def State.segBase (s : State) (d : DieIx) (c : Nat) : Nat := s.rf d (rBilCtx c 1) 0 23 * 65536
def State.segSize (s : State) (d : DieIx) (c : Nat) : Nat := s.rf d (rBilCtx c 2) 0 22 * 65536
/-- Whether the segment's range stays in the open part of region 0x00 (R181). -/
def State.segOpen (s : State) (d : DieIx) (c : Nat) : Bool := decide (s.segBase d c + s.segSize d c ≤ 0x7E00000000)

/-- Whether a command's own segment reaches the service region: the Pelbex error log counts the attempt (R18). -/
def State.segSvc (s : State) (d : DieIx) (c : Nat) (job : BitVec 12) : Bool := s.bilOwned d c job && !s.segOpen d c

/-- A trailer (R175). -/
structure Trailer where
  layer : Nat
  fmt : Fmt
  tblValid : Bool
  tbl : Nat
  fallback : Nat
  column : Bool
  len : Nat
  rows : Nat
  size : Nat
deriving DecidableEq, Repr

def trailerOf (b : List Byte) : Trailer :=
  { layer := leNat (slice b 0 2), fmt := if (byteAt b 2).toNat % 16 = 6 then .wb6 else .wb8
    tblValid := bitAt (byteAt b 3) 7, tbl := (byteAt b 3).toNat % 32, fallback := (byteAt b 4).toNat / 16
    column := bitAt (byteAt b 4) 0, len := leNat (slice b 8 4), rows := leNat (slice b 12 4), size := leNat (slice b 16 8) }

def trailerBytes (layer tkind : Nat) (fmt : Fmt) (tblByte fallByte len rows size stamp step job : Nat) : List Byte :=
  leBytes 2 layer ++ leBytes 1 (tkind * 16 + fmt.code) ++ leBytes 1 tblByte ++ leBytes 1 fallByte ++ leBytes 3 0
    ++ leBytes 4 len ++ leBytes 4 rows ++ leBytes 8 size ++ leBytes 8 stamp ++ leBytes 4 step ++ leBytes 2 job ++ leBytes 26 0

/-- Bytes of a 128-element chunk in a format (R98, R178). -/
def chunkBytes (f : Fmt) : Nat := f.rowBytes 128

/-- Payload bytes of an entry without padding (R175). -/
def payloadBytes (column : Bool) (f : Fmt) (rows len : Nat) : Nat :=
  if column then (rows + 127) / 128 * len * chunkBytes f else rows * f.rowBytes len

def pad64 (n : Nat) : Nat := (n + 63) / 64 * 64

/-! ### Encoding many rows -/

/-- Rows written one after another: their bytes and poison marks, what they add to the record, and the generator. -/
structure ManyOut where
  rows : List (List Byte × List Bool)
  flags : BitVec 8
  stats : List Nat
  gen : Gen

/-- Statuses that a written row adds (R59). -/
def rowStats (f : Fmt) (o : RowOut) : List Nat :=
  (if o.poisoned then [stPoison] else []) ++ (if bitAt o.flags 0 && f.satStatus then [stSaturated] else [])

/-- Write many rows into a format, each by its own function of the generator. -/
def manyRows (f : Fmt) : List (Gen → RowOut) → Gen → ManyOut
  | [], g => ⟨[], 0, [], g⟩
  | w :: ws, g =>
    let o := w g
    let m := manyRows f ws o.gen
    ⟨(o.bytes, o.poison) :: m.rows, o.flags ||| m.flags, rowStats f o ++ m.stats, m.gen⟩

/-- Encode elements; with equal scalar formats the bits are copied (R53). -/
def encodeElems (sf df : Fmt) (mode : Rnd) (es : List Elem) (g : Gen) : RowOut :=
  if sf = df ∧ !df.isBlock then
    ⟨es.flatMap (fun e => leBytes df.elemBytes e.raw), es.flatMap (fun e => List.replicate df.elemBytes e.poison), 0,
      es.any Elem.poison, g⟩
  else encodeRow df mode none es g

def zeroElem : Elem := ⟨0, .fin false 0 0, false⟩

/-- Column n of band b of rows of elements: 128 elements, zero beyond the last row (R175). -/
def columnOf (m : List (List Elem)) (b n : Nat) : List Elem :=
  (List.range 128).map (fun i => (m.getD (128 * b + i) []).getD n zeroElem)

/-! ### PUSH (R176, R177) -/

def pushSrc (x : Desc) : BoardAddr := dAddr x 24
def pushLen (x : Desc) : Nat := dn x 32 4
def pushRows (x : Desc) : Nat := dn x 36 4
def pushPitch (x : Desc) : Nat := dn x 40 4
def pushKind (x : Desc) : Nat := fld x (8 * 44 + 4) 4
def pushColumn (x : Desc) : Bool := bitAt x (8 * 46)
def pushFallback (x : Desc) : Nat := fld x (8 * 46 + 4) 4

/-- PUSH's encodings: the source format, or a format error, or a no-op. -/
def judgePush (x : Desc) : Judged Fmt :=
  match Fmt.ofCode (fld x (8 * 44) 4) with
  | none => .format
  | some f =>
    if !dAddrOk x 24 ∨ fld x (8 * 45 + 5) 2 ≠ 0 ∨ fld x (8 * 46 + 1) 3 ≠ 0 ∨ dn x 47 17 ≠ 0
        ∨ ¬ [0, 2, 3, 4].contains (pushFallback x) then .format
    else if pushLen x = 0 ∨ pushRows x = 0 then .noop
    else .work f

/-- Format of a pushed entry by its tensor kind (R176). -/
def State.entryFmt (s : State) (d : DieIx) (x : Desc) : Fmt :=
  if bitAt (s.reg d (rBilCtx (dCtx x) 0)) (pushKind x) then .wb6 else .wb8

/-- The rows or chunks of an entry to be written. -/
def pushRowsOut (sf df : Fmt) (x : Desc) (rows : List (List Byte × List Bool)) : List (Gen → RowOut) :=
  let mode := rndOf (dRnd x)
  let n := pushLen x
  if pushColumn x then
    let m := rows.map (fun p => decodeRow sf n p.1 p.2)
    ((List.range ((pushRows x + 127) / 128)).flatMap (fun b => (List.range n).map (fun k => encodeElems sf df mode (columnOf m b k))))
  else rows.map (fun p => convertRow sf df mode none n p.1 p.2)

/-- Write the entry above the top, trailer included, and raise the top in one step. -/
def State.pushEntry (s : State) (d : DieIx) (r : Running) (sf : Fmt) (rows : List (List Byte × List Bool)) : State :=
  let x := r.desc
  let c := dCtx x
  let f := s.entryFmt d x
  let o := manyRows f (pushRowsOut sf f x rows) (s.die d).genUpd
  let raw := (o.rows.map (fun p => p.1)).flatten
  let size := pad64 raw.length
  let tr := trailerBytes (dLayer x) (pushKind x) f (dn x 45 1) (dn x 46 1) (pushLen x) (pushRows x) size (s.stamp d).toNat
    (dStep x) (dJob x).toNat
  let top := s.segTop d c
  let s1 := s.modDie d (fun y => { y with genUpd := o.gen })
  let s2 := s1.memWrite ⟨d, dJob x, false⟩ d 0 (s.segBase d c + top) (padTo size 0 raw ++ tr)
    (padTo size false (o.rows.map (fun p => p.2)).flatten ++ List.replicate 64 false)
  let s3 := s2.setSeg d c (top + size + 64) (s.segDepth d c + 1)
  s3.finish d .bil r ⟨o.stats, o.flags, 0, BitVec.ofNat 32 ((top + size + 64) / 64)⟩

def State.pushRun (s : State) (d : DieIx) (r : Running) : State :=
  let x := r.desc
  let c := dCtx x
  match judgePush x with
  | .format => s.stopEarly d .bil r stFormat
  | .noop => if s.unitFenced d .bil 0x80 then s.stopEarly d .bil r stFenced else s.finish d .bil r Result.ok
  | .work sf =>
    let len := sf.rowBytes (pushLen x)
    let rows := pushRows x
    let f := s.entryFmt d x
    let entry := pad64 (payloadBytes (pushColumn x) f rows (pushLen x)) + 64
    if !s.bilOwned d c (dJob x) ∨ !s.segOpen d c ∨ (rows > 1 ∧ pushPitch x < len) then
      (s.countService (s.segSvc d c (dJob x))).stopEarly d .bil r stFormat
    else if rowsService (pushSrc x) (pushPitch x) rows len then (s.countService true).stopEarly d .bil r stFormat
    else if !s.rowsDecode d (pushSrc x) (pushPitch x) rows len then s.stopEarly d .bil r stFormat
    else if s.unitFenced d .bil 0x80 then s.stopEarly d .bil r stFenced
    else if s.segTop d c + entry > s.segSize d c then
      (s.addSat d rBilErr 0 16 1).finish d .bil r
        ⟨[stOverflow], 0, 0, BitVec.ofNat 32 (min ((s.segTop d c + entry - s.segSize d c + 63) / 64) 0xFFFFFFFF)⟩
    else if s.testHold d then s.stopEarly d .bil r stFenced
    else if !s.hbmServes d then s
    else
      match s.fetchAll d .bil r (rowPlaces (pushSrc x) (pushPitch x) rows len) with
      | .stop st => s.stopEarly d .bil r st
      | .wait t => t
      | .data l t => t.pushEntry d r sf l

/-- A billet stack command of a kind on a context. -/
def bilPick (kind : Nat) (c : Fin 16) (r : Running) : Bool := decide (dKind r.desc = kind) && decide (dCtx r.desc = c.val)

/-- PUSH (R177). -/
def execPush (d : DieIx) (c : Fin 16) (s : State) : Host.Outcome State Fault Refusal :=
  onDie d s (fun t => withPick t d .bil (bilPick 0x80 c) (t.pushRun d))

/-! ### POP (R178) -/

def popDst (x : Desc) : BoardAddr := dAddr x 24
def popPitch (x : Desc) : Nat := dn x 40 4

def judgePop (x : Desc) : Judged Fmt :=
  match Fmt.ofCode (fld x (8 * 44) 4) with
  | none => .format
  | some f =>
    if !dAddrOk x 24 ∨ dn x 32 8 ≠ 0 ∨ fld x (8 * 44 + 4) 4 ≠ 0 ∨ dn x 45 19 ≠ 0 then .format else .work f

/-- The trailer of the top entry, whether one of its words is poisoned, and the state after reading it. -/
def State.topTrailer (s : State) (d : DieIx) (c : Nat) (job : BitVec 12) : Trailer × Bool × State :=
  let x := s.memRead ⟨d, job, false⟩ d 0 (s.segBase d c + s.segTop d c - 64) 64
  (trailerOf x.bytes, x.poison.any id, x.state)

/-- Lower the top by an entry. -/
def State.dropTop (s : State) (d : DieIx) (c : Nat) (t : Trailer) : State :=
  s.setSeg d c (s.segTop d c - (t.size + 64)) (s.segDepth d c - 1)

/-- Rows or bands that a pop writes, and the bytes of each (R178). -/
def popShape (t : Trailer) (df : Fmt) : Nat × Nat :=
  if t.column then ((t.rows + 127) / 128, t.len * chunkBytes df) else (t.rows, df.rowBytes t.len)

/-- The converted rows or bands of an entry. -/
def popRows (t : Trailer) (df : Fmt) (mode : Rnd) (bs : List Byte) (ps : List Bool) : List (Gen → RowOut) :=
  if t.column then
    let cb := chunkBytes t.fmt
    (List.range ((t.rows + 127) / 128 * t.len)).map (fun k => convertRow t.fmt df mode none 128 (slice bs (k * cb) cb) (slice ps (k * cb) cb))
  else
    let rb := t.fmt.rowBytes t.len
    (List.range t.rows).map (fun k => convertRow t.fmt df mode none t.len (slice bs (k * rb) rb) (slice ps (k * rb) rb))

/-- Join chunks into bands of n chunks. -/
def joinRows (n : Nat) (l : List (List Byte × List Bool)) : Nat → List (List Byte × List Bool)
  | 0 => []
  | k + 1 => (((l.take n).map (fun p => p.1)).flatten, ((l.take n).map (fun p => p.2)).flatten) :: joinRows n (l.drop n) k

/-- Write a popped entry out and lower the top; the entry's size stands by until the last acknowledgement (R179). -/
def State.popEntry (s : State) (d : DieIx) (r : Running) (tr : Trailer) (df : Fmt) : State :=
  let x := r.desc
  let c := dCtx x
  let sh := popShape tr df
  let e := s.memRead ⟨d, dJob x, false⟩ d 0 (s.segBase d c + s.segTop d c - 64 - tr.size) tr.size
  let o := manyRows df (popRows tr df (rndOf (dRnd x)) e.bytes e.poison) (s.die d).genUpd
  let out := if tr.column then joinRows tr.len o.rows sh.1 else o.rows
  let s1 := (e.state.modDie d (fun y => { y with genUpd := o.gen })).dropTop d c tr
  let s2 := s1.putAll d .bil r ((out.zipIdx).map (fun p => (BitVec.ofNat 52 (rowAddr (popDst x) (popPitch x) p.2), p.1.1, p.1.2)))
  s2.settle d .bil { r with stats := r.stats ++ o.stats, flags := r.flags ||| o.flags, detail := BitVec.ofNat 32 tr.rows, rows := tr.size + 64 }

/-- A POP: its encodings, context and segment, the empty segment, then the top entry's trailer. An entry of LEN or ROWS 0 makes the
POP a no-op, which checks no tag (R181). -/
def State.popRun (s : State) (d : DieIx) (r : Running) : State :=
  let x := r.desc
  let c := dCtx x
  match judgePop x with
  | .format => s.stopEarly d .bil r stFormat
  | .noop => s.finish d .bil r Result.ok
  | .work df =>
    if !s.bilOwned d c (dJob x) ∨ !s.segOpen d c then (s.countService (s.segSvc d c (dJob x))).stopEarly d .bil r stFormat
    else if s.unitFenced d .bil 0x81 then s.stopEarly d .bil r stFenced
    else if s.segDepth d c = 0 then
      (if rowsService (popDst x) 0 1 1 then (s.countService true).stopEarly d .bil r stFormat
       else if !s.rowsDecode d (popDst x) 0 1 1 then s.stopEarly d .bil r stFormat
       else (s.addSat d rBilErr 16 16 1).finish d .bil r ⟨[stTag], 0, 0, 0x80000000⟩)
    else if s.testHold d then s.stopEarly d .bil r stFenced
    else if !s.hbmServes d then s
    else
      let t := s.topTrailer d c (dJob x)
      let sh := popShape t.1 df
      if t.2.1 then t.2.2.stopEarly d .bil r stPoison
      else if t.1.len = 0 ∨ t.1.rows = 0 then t.2.2.finish d .bil r Result.ok
      else if rowsService (popDst x) (popPitch x) sh.1 sh.2 then (t.2.2.countService true).stopEarly d .bil r stFormat
      else if (t.1.rows > 1 ∧ popPitch x < sh.2) ∨ !s.rowsWritable d (dJob x) (popDst x) (popPitch x) sh.1 sh.2 (some df) then
        t.2.2.stopEarly d .bil r stFormat
      else if t.1.layer ≠ dLayer x then
        (t.2.2.addSat d rBilErr 16 16 1).finish d .bil r ⟨[stTag], 0, 0, BitVec.ofNat 32 t.1.layer⟩
      else if s.gateAll d .bil r (rowPlaces (popDst x) (popPitch x) sh.1 sh.2) = .wait then s
      else t.2.2.popEntry d r t.1 df

/-- POP (R178). -/
def execPop (d : DieIx) (c : Fin 16) (s : State) : Host.Outcome State Fault Refusal :=
  onDie d s (fun t => withPick t d .bil (bilPick 0x81 c) (t.popRun d))

/-! ### CLEAR (R179) -/

def State.clearRun (s : State) (d : DieIx) (r : Running) : State :=
  let x := r.desc
  if dn x 24 40 ≠ 0 then s.stopEarly d .bil r stFormat
  else if !s.bilOwned d (dCtx x) (dJob x) ∨ !s.segOpen d (dCtx x) then
    (s.countService (s.segSvc d (dCtx x) (dJob x))).stopEarly d .bil r stFormat
  else if s.unitFenced d .bil 0x82 then s.stopEarly d .bil r stFenced
  else (s.setSeg d (dCtx x) 0 0).finish d .bil r Result.ok

/-- CLEAR (R179). -/
def execClear (d : DieIx) (c : Fin 16) (s : State) : Host.Outcome State Fault Refusal :=
  onDie d s (fun t => withPick t d .bil (bilPick 0x82 c) (t.clearRun d))

/-! ### RECHUNK (R180) -/

/-- The payload of RECHUNK has COPY's places for its addresses, counts, pitches and formats; byte 57 holds DIR. -/
def rechunkBack (x : Desc) : Bool := bitAt x (8 * 57)

def judgeRechunk (x : Desc) : Judged (Fmt × Fmt) :=
  match cSrcFmt x, cDstFmt x with
  | some sf, some df =>
    if !dAddrOk x 24 ∨ !dAddrOk x 32 ∨ dn x 57 1 > 1 ∨ dn x 58 6 ≠ 0 then .format
    else if cLen x = 0 ∨ cRows x = 0 then .noop
    else .work (sf, df)
  | _, _ => .format

/-- Rows and their bytes of one side: row layout, or bands of column chunks. -/
def layoutShape (column : Bool) (f : Fmt) (rows len : Nat) : Nat × Nat :=
  if column then ((rows + 127) / 128, len * chunkBytes f) else (rows, f.rowBytes len)

/-- The tensor's rows of elements, read from one layout. -/
def readLayout (column : Bool) (f : Fmt) (rows len : Nat) (l : List (List Byte × List Bool)) : List (List Elem) :=
  if column then
    let cb := chunkBytes f
    let cols := l.map (fun p => (List.range len).map (fun n => decodeRow f 128 (slice p.1 (n * cb) cb) (slice p.2 (n * cb) cb)))
    (List.range rows).map (fun i => ((cols.getD (i / 128) []).map (fun col => col.getD (i % 128) zeroElem)))
  else l.map (fun p => decodeRow f len p.1 p.2)

/-- Write rows of elements in the other layout. -/
def writeLayout (column : Bool) (sf df : Fmt) (mode : Rnd) (rows len : Nat) (m : List (List Elem)) : List (Gen → RowOut) :=
  if column then (List.range ((rows + 127) / 128)).flatMap (fun b => (List.range len).map (fun n => encodeElems sf df mode (columnOf m b n)))
  else m.map (encodeElems sf df mode)

def State.rechunkRun (s : State) (d : DieIx) (r : Running) : State :=
  let x := r.desc
  match judgeRechunk x with
  | .format => s.stopEarly d .bil r stFormat
  | .noop => if s.unitFenced d .bil 0x83 then s.stopEarly d .bil r stFenced else s.finish d .bil r Result.ok
  | .work (sf, df) =>
    let back := rechunkBack x
    let src := layoutShape back sf (cRows x) (cLen x)
    let dst := layoutShape (!back) df (cRows x) (cLen x)
    if rowsService (cSrc x) (cSrcPitch x) src.1 src.2 || rowsService (cDst x) (cDstPitch x) dst.1 dst.2 then
      (s.countService true).stopEarly d .bil r stFormat
    else if (cRows x > 1 ∧ (cSrcPitch x < src.2 ∨ cDstPitch x < dst.2)) ∨ !s.rowsDecode d (cSrc x) (cSrcPitch x) src.1 src.2
        ∨ !s.rowsWritable d (dJob x) (cDst x) (cDstPitch x) dst.1 dst.2 (some df) then s.stopEarly d .bil r stFormat
    else if s.unitFenced d .bil 0x83 then s.stopEarly d .bil r stFenced
    else
      match s.gateAll d .bil r (rowPlaces (cDst x) (cDstPitch x) dst.1 dst.2) with
      | .fenced => s.stopEarly d .bil r stFenced
      | .wait => s
      | .go =>
        match s.fetchAll d .bil r (rowPlaces (cSrc x) (cSrcPitch x) src.1 src.2) with
        | .stop st => s.stopEarly d .bil r st
        | .wait t => t
        | .data l t =>
          let m := readLayout back sf (cRows x) (cLen x) l
          let o := manyRows df (writeLayout (!back) sf df (rndOf (dRnd x)) (cRows x) (cLen x) m) (t.die d).genUpd
          let out := if back then o.rows else joinRows (cLen x) o.rows dst.1
          let t1 := ((t.dropReqs d .bil r).modDie d (fun y => { y with genUpd := o.gen })).putAll d .bil r
            ((out.zipIdx).map (fun p => (BitVec.ofNat 52 (rowAddr (cDst x) (cDstPitch x) p.2), p.1.1, p.1.2)))
          t1.settle d .bil { r with stats := r.stats ++ o.stats, flags := r.flags ||| o.flags }

/-- RECHUNK (R180). -/
def execRechunk (d : DieIx) (s : State) : Host.Outcome State Fault Refusal :=
  onDie d s (fun t => withPick t d .bil (fun r => decide (dKind r.desc = 0x83)) (t.rechunkRun d))

/-! ### Derivative tables (R185, R186, R188, R189) -/

/-- State of table k: 0 EMPTY, 1 LOADING, 2 VERIFIED, 3 FAILED. -/
def State.tblState (s : State) (d : DieIx) (k : Nat) : Nat := s.rf d (rBilTbl (k / 16)) (2 * (k % 16)) 2
def State.setTblState (s : State) (d : DieIx) (k v : Nat) : State := s.setRf d (rBilTbl (k / 16)) (2 * (k % 16)) 2 v

def State.tblImage (s : State) (d : DieIx) (k : Nat) : List Byte :=
  match (s.die d).tables.find? (fun p => p.1 == k) with
  | some p => p.2
  | none => []

def State.setTblImage (s : State) (d : DieIx) (k : Nat) (b : List Byte) : State :=
  s.modDie d (fun x => { x with tables := (k, b) :: x.tables.filter (fun p => p.1 != k) })

/-- A word of an image. -/
def img32 (b : List Byte) (k : Nat) : Nat := leNat (slice b k 4)

def tblJob (b : List Byte) : Nat := leNat (slice b 16 2) % 4096

/-- Segment index: ⌊u⌋ limited to 0 to 63. -/
def segIndex (u : Nat) : Nat :=
  let v := decodeFloat .fp32 u
  if v.cmp (Fpv.ofInt 63) ≠ -1 ∧ !v.isNan then 63 else (max 0 v.floor).toNat

/-- The table's derivative at an FP32 value (R186). -/
def tblEval (b : List Byte) (z : Nat) : Nat :=
  let v := decodeFloat .fp32 z
  let lo := decodeFloat .fp32 (img32 b 0)
  let hi := decodeFloat .fp32 (img32 b 4)
  if v.isNan then canonNan .fp32
  else if v.cmp lo = -1 then img32 b 8
  else if v.cmp hi ≠ -1 then img32 b 12
  else
    let u := op32 .div (op32 .mul (op32 .sub z (img32 b 0)) 0x42800000) (op32 .sub (img32 b 4) (img32 b 0))
    let i := segIndex u
    let t := op32 .sub u (conv32 (.ofInt i)).1
    let c := fun (j : Nat) => img32 b (64 + 12 * i + 4 * j)
    op32 .add (c 0) (op32 .mul t (op32 .add (c 1) (op32 .mul t (c 2))))

/-- A check point (R188): whether it passes, and its deviation and tolerance when both values are finite. -/
structure TblPoint where
  ok : Bool
  dev : Option (Fpv × Fpv)
deriving DecidableEq, Repr

def tblPoint (b : List Byte) (j : Nat) : TblPoint :=
  let v := decodeFloat .fp32 (tblEval b (img32 b (832 + 8 * j)))
  let e := decodeFloat .fp32 (img32 b (836 + 8 * j))
  if v.finite && e.finite then
    let one := pow2 0
    let tol := (if e.absVal.cmp one = 1 then e.absVal else one).scale (-14)
    let dv := (v.minus e).absVal
    ⟨decide (dv.cmp tol ≠ 1), some (dv, tol)⟩
  else ⟨decide (v.isNan ∧ e.isNan) || (v.isInf && e.isInf && decide (v.sign = e.sign)), none⟩

/-- Largest deviation in tolerances among check points; a point that fails without a finite deviation counts most. -/
def tblDev (l : List TblPoint) : Nat :=
  if l.any (fun p => !p.ok && p.dev.isNone) then 127
  else
    let ds := l.filterMap (fun p => p.dev)
    let best := ds.foldl (fun (a : Fpv × Fpv) p =>
      if (p.1.mul a.2).cmp (a.1.mul p.2) = 1 then p else a) (.fin false 0 0, pow2 0)
    devBounded best.1 best.2

/-- The verdict on an image for a job: whether it is VERIFIED, and its hallmark word (R188, R433). -/
def tblVerify (b : List Byte) (poison : Bool) (job : BitVec 12) : Bool × Word :=
  let bad := hallWord 5 true 0 0x7F 0xFF
  let lo := decodeFloat .fp32 (img32 b 0)
  let hi := decodeFloat .fp32 (img32 b 4)
  if poison ∨ img32 b 60 ≠ (crc32c (b.take 60 ++ b.drop 64)).toNat ∨ !lo.finite ∨ !hi.finite ∨ lo.cmp hi ≠ -1
      ∨ tblJob b ≠ job.toNat then (false, bad)
  else
    let ps := (List.range 16).map (tblPoint b)
    let fails := (ps.filter (fun p => !p.ok)).length
    let first := (ps.findIdx? (fun p => !p.ok)).getD 0
    (decide (fails = 0), hallWord 5 (decide (fails ≠ 0)) first (tblDev ps) fails)

/-- Whether a running instruction uses a table. -/
def State.tblUsed (s : State) (d : DieIx) (k : Nat) : Bool :=
  (List.finRange 48).any (fun c => match (s.core d c).drain with
    | some x => decide (x.table = some k)
    | none => false)

def State.tableRun (s : State) (d : DieIx) (r : Running) : State :=
  let x := r.desc
  let k := fld x (8 * 32) 5
  if !dAddrOk x 24 ∨ fld x (8 * 32 + 5) 3 ≠ 0 ∨ dn x 33 31 ≠ 0 then s.stopEarly d .bil r stFormat
  else if rowsService (dAddr x 24) 0 1 960 then (s.countService true).stopEarly d .bil r stFormat
  else if !s.rowsDecode d (dAddr x 24) 0 1 960 then s.stopEarly d .bil r stFormat
  else if s.unitFenced d .bil 0x84 then s.stopEarly d .bil r stFenced
  else if s.tblUsed d k then s
  else
    match s.fetch d .bil r (dAddr x 24) 960 with
    | .stop st => s.stopEarly d .bil r st
    | .wait t => t.setTblState d k 1
    | .data bs ps t =>
      let v := tblVerify bs (ps.any id) (dJob x)
      let t1 := (t.setTblImage d k bs).setTblState d k (if v.1 then 2 else 3)
      t1.finish d .bil r ⟨if ps.any id then [stPoison] else if v.1 then [] else [stHallmark], 0, v.2, 0⟩

/-- TABLE_LOAD (R188). -/
def execTableLoad (d : DieIx) (k : Fin 32) (s : State) : Host.Outcome State Fault Refusal :=
  onDie d s (fun t => withPick t d .bil (fun r => decide (dKind r.desc = 0x84) && decide (fld r.desc (8 * 32) 5 = k.val)) (t.tableRun d))

end Sys2Proof.Machine
end

