-- ==== Sys2Proof/Machine/Quarantine.lean ====
section
/-! DEFINITION. The quarantine log and its slots (R436). -/

namespace Sys2Proof.Machine

def quarSlot (i : Nat) : Nat := 0x7FF0000000 + i * 0x01000000
def quarLog (i : Nat) : Nat := 0x7FE0000000 + 128 * i

/-- The 128 bytes of a quarantine record whose class is pending. -/
def quarBytes (stamp : DWord) (src : Endpoint) (x : Desc) (slot : Nat) (word : Word) (bytes flags : Nat) : List Byte :=
  leBytes 8 stamp.toNat ++ leBytes 4 src.toNat ++ leBytes 2 (dJob x).toNat ++ leBytes 1 (dEpoch x) ++ leBytes 1 slot
    ++ leBytes 4 (dStep x) ++ leBytes 4 word.toNat ++ descBytes x ++ leBytes 4 bytes ++ leBytes 1 0 ++ leBytes 1 flags
    ++ leBytes 2 0x3F ++ leBytes 4 0 ++ leBytes 4 0 ++ leBytes 8 0 ++ leBytes 2 0xFFFF ++ leBytes 14 0

/-- A free quarantine slot. -/
def State.freeSlot (s : State) (d : DieIx) : Option Nat := (List.range 16).find? (fun i => !bitAt (s.reg d rAsyQstat) i)

/-- Write a quarantine record by test accesses of the health controller (R317), with a snapshot where there is one and a slot is free; the record's index awaits a class. -/
def State.quarantine (s : State) (d : DieIx) (core : Nat) (src : Endpoint) (x : Desc) (word : Word)
    (ops : Option (List Byte × List Bool)) (flags : Nat) : State :=
  let a : Access := ⟨d, dJob x, true⟩
  let idx := s.rf d rAsyQstat 16 10
  let slot := if ops.isSome then s.freeSlot d else none
  let s1 := match ops, slot with
    | some o, some i =>
      (s.memWrite a d 0 (quarSlot i) o.1 o.2).modReg d rAsyQstat (fun w => setBit w i true)
    | some _, none =>
      if bitAt (s.reg d rAsyStatus) 29 then s
      else (s.modReg d rAsyStatus (fun w => setBit w 29 true)).unitEvent d (s.endpoint d 63) 13 1
    | none, _ => s
  let bytes := match ops, slot with
    | some o, some _ => o.1.length
    | _, _ => 0
  let rec' := quarBytes (s.stamp d) src x (slot.getD 0xFF) word bytes (flags + (if slot.isSome then 0 else 1))
  let s2 := s1.memWrite a d 0 (quarLog idx) rec' (List.replicate 128 false)
  let s3 := (s2.setRf d rAsyQstat 16 10 (idx + 1)).modDie d (fun y =>
    { y with replays := y.replays ++ [⟨idx, core, slot.getD 0xFF, s.stroke d, false⟩] })
  (s3.logEvent d 0x0B01 0 idx).hostEvent d src stHallmark (dJob x) (BitVec.ofNat 8 (dEpoch x)) (BitVec.ofNat 32 (dStep x)) word 1 idx

/-- Remember what the LOAD of a snapshot gave; the record was the last one written. -/
def State.noteSnap (s : State) (d : DieIx) (job : BitVec 12) (fmt : Fmt) (diag : Bool) (ncols klen : Nat) : State :=
  match (s.die d).replays.getLast? with
  | none => s
  | some r =>
    if r.slot = 0xFF then s
    else s.modDie d (fun x => { x with assay := { x.assay with
      snaps := x.assay.snaps.filter (fun p => p.slot != r.slot) ++ [⟨r.index, r.slot, r.core, job, fmt, diag, ncols, klen, []⟩] } })

/-! ### Classification (R438, R440, R451) -/

/-- Bytes of a quarantine record. -/
def State.quarRecord (s : State) (d : DieIx) (idx : Nat) : List Byte := s.peek (memKey d 0 (quarLog idx)) 128

/-- What a classification enters in a record. -/
structure Verdict where
  cls : Nat
  same : Word
  neighbour : Nat
  next : Word
  tile : Nat
  lib : Bool
  fenced : Bool
deriving DecidableEq, Repr

/-- Enter a class in a record: its fields, ASY_REPLAY, the log and the host's event. -/
def State.classify (s : State) (d : DieIx) (idx : Nat) (v : Verdict) : State :=
  let b := s.quarRecord d idx
  let flags := (byteAt b 93).toNat ||| ((if v.lib then 2 else 0) + (if v.fenced then 4 else 0))
  let tail := leBytes 1 v.cls ++ leBytes 1 flags ++ leBytes 2 v.neighbour ++ leBytes 4 v.same.toNat ++ leBytes 4 v.next.toNat
    ++ leBytes 8 (s.stamp d).toNat ++ leBytes 2 v.tile
  let s1 := s.memWrite ⟨d, 0, true⟩ d 0 (quarLog idx + 92) tail (List.replicate 22 false)
  let s2 := s1.addSat d rAsyReplay (8 * (v.cls - 1)) 8 1
  let s3 := s2.modDie d (fun x => { x with replays := x.replays.filter (fun r => r.index != idx) })
  (s3.logEvent d 0x0B02 0 (v.cls * 65536 + idx)).unitEvent d (BitVec.ofNat 23 (leNat (slice b 8 4))) 2 (v.cls * 65536 + idx)

/-- A library entry (R440). -/
def libEntry (fmts flags rows ncols klen cls : Nat) (src : Endpoint) (stamp : DWord) (digest hall : Word) (data : List Byte) :
    List Byte :=
  let head := leBytes 4 0x54534843 ++ leBytes 4 (64 + data.length)
  let rest := leBytes 1 fmts ++ leBytes 1 flags ++ leBytes 2 rows ++ leBytes 2 ncols ++ leBytes 1 klen ++ leBytes 1 cls
    ++ leBytes 4 src.toNat ++ leBytes 8 stamp.toNat ++ leBytes 4 digest.toNat ++ leBytes 4 hall.toNat ++ leBytes 24 0 ++ data
  head ++ leBytes 4 (crc32c (head ++ leBytes 4 0 ++ rest)).toNat ++ rest

/-- Operands and digest of an entry, by which entries are told apart. -/
def libKey (e : List Byte) : List Byte := slice e 12 7 ++ slice e 32 4 ++ e.drop 64

/-- Erase the oldest blocks until n bytes fit; how many entries go. A block is erased, and reported, though no entry begins in it. -/
def libRoom (n : Nat) : Nat → Flash → Flash × Nat
  | 0, f => (f, 0)
  | k + 1, f =>
    if f.libNext + n ≤ f.libBlock * 65536 + 256 * 65536 then (f, 0)
    else
      let g := { f with library := f.library.filter (fun p => decide (p.1 ≥ (f.libBlock + 1) * 65536)), libBlock := f.libBlock + 1 }
      let r := libRoom n k g
      (r.1, r.2 + (f.library.length - g.library.length))

/-- ASY_LIB of every die (R453). -/
def State.publishLib (s : State) : State :=
  let n := s.flash.library.length
  let kib := ((s.flash.library.foldl (fun a p => a + p.2.length) 0) + 1023) / 1024
  s.allDies.foldl (fun t e => t.setReg e rAsyLib (BitVec.ofNat 32 (n * 65536 + kib))) s

/-- Units that run before any other of the die (R438). -/
def State.testFirst (s : State) (d : DieIx) (l : List AssayUnit) : State :=
  s.modDie d (fun x => { x with assay := { x.assay with urgent := (x.assay.urgent ++ l).eraseDups } })

/-- Cores run the known-answer set and the library at their next lent strokes (R438, class 3). -/
def State.testArrays (s : State) (d : DieIx) (l : List Nat) : State :=
  s.testFirst d ((l.filter (fun k => decide (k < 48))).flatMap (fun k =>
    (List.finRange 5).map (AssayUnit.array (coreIx k)) ++ (List.range s.flash.library.length).map (fun i => .library i (coreIx k))))

/-- Whether an entry is not in the library yet. -/
def State.libNew (s : State) (e : List Byte) : Bool := !s.flash.library.any (fun q => libKey q.2 == libKey e)

/-- Append an entry unless one with the same operands and digest exists. -/
def State.addLibrary (s : State) (d : DieIx) (e : List Byte) : State :=
  if !s.libNew e then s
  else
    let r := libRoom e.length 512 s.flash
    let f := { r.1 with library := r.1.library ++ [(r.1.libNext, e)], libNext := r.1.libNext + e.length }
    let s1 := { s with flash := f }
    let s2 := if r.1.libBlock = s.flash.libBlock then s1
      else
        let t := s1.logEvent d 0x0B04 0 r.2
        if bitAt (t.reg d rAsyStatus) 30 then t
        else (t.modReg d rAsyStatus (fun w => setBit w 30 true)).unitEvent d (t.endpoint d 63) 13 2
    s2.publishLib

end Sys2Proof.Machine
end

