-- ==== Sys2Proof/Machine/Shake.lean ====
section
/-! DEFINITION. SHAKE256 as FIPS 202 defines it, which the structure fingerprint and the firmware digests use (R227). -/

namespace Sys2Proof.Machine

/-- Lane i of a Keccak state. -/
def lane (a : List (BitVec 64)) (i : Nat) : BitVec 64 := a.getD i 0

def rotl (x : BitVec 64) (n : Nat) : BitVec 64 := x.rotateLeft n

/-- Walk of step ρ from lane (x, y): after t steps the lane turns by (t + 1)(t + 2) / 2, and the walk goes on at (y, 2x + 3y). -/
def rhoWalk : Nat → Nat → Nat → Nat → List (Nat × Nat)
  | 0, _, _, _ => []
  | n + 1, t, x, y => (x + 5 * y, (t + 1) * (t + 2) / 2 % 64) :: rhoWalk n (t + 1) y ((2 * x + 3 * y) % 5)

/-- The turns of the lanes; lane 0 is off the walk and does not turn. -/
def rhoTurns : List (Nat × Nat) := rhoWalk 24 0 1 0

def laneTurn (turns : List (Nat × Nat)) (i : Nat) : Nat := ((turns.find? (fun p => p.1 == i)).map (fun p => p.2)).getD 0

/-- The shift register of step ι after a tick: eight bits with feedback at bits 0, 4, 5 and 6. -/
def iotaTick (r : Nat) : Nat := if r < 128 then 2 * r else Nat.xor (2 * r) 0x171

/-- The constant of a round from the register's state at its first tick, and the state after it: tick j gives bit 2^j − 1. -/
def iotaWord : Nat → Nat → Nat → Nat × Nat
  | 0, _, r => (0, r)
  | n + 1, j, r =>
    let w := iotaWord n (j + 1) (iotaTick r)
    ((if r % 2 = 1 then 2 ^ (2 ^ j - 1) else 0) + w.1, w.2)

/-- The constants of n rounds. -/
def iotaWords : Nat → Nat → List (BitVec 64)
  | 0, _ => []
  | n + 1, r => let w := iotaWord 7 0 r; BitVec.ofNat 64 w.1 :: iotaWords n w.2

/-- One round. -/
def keccakRound (turns : List (Nat × Nat)) (a : List (BitVec 64)) (rc : BitVec 64) : List (BitVec 64) :=
  let col := (List.range 5).map (fun x => (List.range 5).foldl (fun c y => c ^^^ lane a (x + 5 * y)) 0)
  let mix := (List.range 5).map (fun x => lane col ((x + 4) % 5) ^^^ rotl (lane col ((x + 1) % 5)) 1)
  let th := (List.range 25).map (fun i => lane a i ^^^ lane mix (i % 5))
  let b := (List.range 25).map (fun i =>
    let j := (i % 5 + 3 * (i / 5)) % 5 + 5 * (i % 5)
    rotl (lane th j) (laneTurn turns j))
  (List.range 25).map (fun i =>
    let row := 5 * (i / 5)
    let v := lane b i ^^^ (~~~(lane b (row + (i + 1) % 5)) &&& lane b (row + (i + 2) % 5))
    if i = 0 then v ^^^ rc else v)

def keccakF (a : List (BitVec 64)) : List (BitVec 64) :=
  let turns := rhoTurns
  (iotaWords 24 1).foldl (keccakRound turns) a

/-- Absorb one block of 136 bytes. -/
def shakeAbsorb (a : List (BitVec 64)) (blk : List Byte) : List (BitVec 64) :=
  keccakF ((List.range 25).map (fun i =>
    lane a i ^^^ (if i < 17 then BitVec.ofNat 64 (leNat (slice blk (8 * i) 8)) else 0)))

/-- The input with its padding, in blocks of 136 bytes. -/
def shakePad (bs : List Byte) : List (List Byte) :=
  let n := bs.length / 136 + 1
  let p := bs ++ 0x1F#8 :: List.replicate (136 * n - bs.length - 1) 0
  let q := p.set (136 * n - 1) (p.getD (136 * n - 1) 0 ||| 0x80#8)
  (List.range n).map (fun i => slice q (136 * i) 136)

/-- The first n bytes of SHAKE256, for n up to 136. -/
def shake256 (bs : List Byte) (n : Nat) : List Byte :=
  let a := (shakePad bs).foldl shakeAbsorb (List.replicate 25 0)
  (a.flatMap (fun l => leBytes 8 l.toNat)).take n

end Sys2Proof.Machine
end

