-- ==== Sys2Proof/Machine/Image.lean ====
section
/-! DEFINITION. Schedule images of the Crucible: their fields, their fingerprint and the checks that concern an image alone (R227 to
R229). -/

namespace Sys2Proof.Machine

/-- n bytes of an image from byte k, as a number. -/
def imn (b : List Byte) (k n : Nat) : Nat := leNat (slice b k n)

def imPkind (b : List Byte) : Nat := imn b 6 1
def imMask (b : List Byte) : Nat := imn b 8 1
def imRhsMax (b : List Byte) : Nat := imn b 10 2
def imFinger (b : List Byte) : List Byte := slice b 16 16
def imN (b : List Byte) : Nat := imn b 32 4
def imN1 (b : List Byte) : Nat := imn b 36 4
def imNnz (b : List Byte) : Nat := imn b 40 8
def imStoreBytes (b : List Byte) : Nat := imn b 72 8
def imCores (b : List Byte) (e : Nat) : Nat := imn b (192 + 8 * e) 8

/-- A phase record. -/
structure PhaseRec where
  first : Nat
  count : Nat
  strokes : Nat
  cls : Nat
  rsv : Nat
deriving DecidableEq, Repr

def imPhase (b : List Byte) (i : Nat) : PhaseRec :=
  let o := imn b 104 8 + 16 * i
  ⟨imn b o 4, imn b (o + 4) 4, imn b (o + 8) 2, imn b (o + 10) 1, imn b (o + 11) 5⟩

def imPhases (b : List Byte) : List PhaseRec := (List.range (imn b 128 4)).map (imPhase b)

/-- Phases of a class, in execution order. -/
def imClass (b : List Byte) (c : Nat) : List Nat := (List.range (imn b 128 4)).filter (fun i => decide ((imPhase b i).cls = c))

/-- A task record. -/
structure TaskRec where
  off : Nat
  die : Nat
  core : Nat
  op : Nat
  flags : Nat
  rsv : Nat
  src : Nat
  dst : Nat
  rows : Nat
  cols : Nat
deriving DecidableEq, Repr

def imTask (b : List Byte) (i : Nat) : TaskRec :=
  let o := imn b 112 8 + 32 * i
  ⟨imn b o 2, imn b (o + 2) 1, imn b (o + 3) 1, imn b (o + 4) 1, imn b (o + 5) 1, imn b (o + 6) 2, imn b (o + 8) 8, imn b (o + 16) 8,
    imn b (o + 24) 2, imn b (o + 26) 2⟩

/-- Row pointer i and column index k of the pattern. -/
def imRow (b : List Byte) (i : Nat) : Nat := imn b (imn b 88 8 + 8 * i) 8
def imCol (b : List Byte) (k : Nat) : Nat := imn b (imn b 88 8 + 8 * (imN b + 1) + 4 * k) 4

/-- Owning die and store offset of entry k. -/
def imDie (b : List Byte) (k : Nat) : Nat := imn b (imn b 96 8 + 8 * k) 8 / 2 ^ 61
def imOff (b : List Byte) (k : Nat) : Nat := imn b (imn b 96 8 + 8 * k) 8 % 2 ^ 61

/-- The structure fingerprint (R227). -/
def fingerprint (b : List Byte) : List Byte :=
  shake256 (slice b 6 1 ++ slice b 32 4 ++ slice b 36 4 ++ slice b 40 8 ++ slice b (imn b 88 8) (8 * (imN b + 1) + 4 * imNnz b)) 16

/-- Die of a mask. -/
def inMask (m e : Nat) : Bool := decide (m / 2 ^ e % 2 = 1)

/-- Sum of the planned strokes of some classes. -/
def strokeSum (b : List Byte) (cs : List Nat) : Nat :=
  ((imPhases b).filter (fun p => cs.contains p.cls)).foldl (fun a p => a + p.strokes) 0

/-- The header's own ranges. -/
def headerRanges (b : List Byte) : Bool :=
  let tau := f64 (BitVec.ofNat 64 (imn b 48 8))
  decide (imn b 0 4 = 0x4C425243) && decide (imn b 4 2 = 1) && decide (imPkind b ≤ 3) && decide (imMask b ≠ 0)
    && decide (1 ≤ imRhsMax b ∧ imRhsMax b ≤ 256) && decide (imn b 15 1 = 0) && decide (1 ≤ imN b)
    && (if imPkind b = 3 then decide (imN1 b ≤ imN b) else decide (imN1 b = imN b)) && decide (1 ≤ imNnz b ∧ imNnz b ≤ 2 ^ 40)
    && tau.finite && decide (tau.cmp (.fin false 0 0) = 1) && decide (tau.cmp (pow2 0) = -1)
    && decide (imStoreBytes b % 65536 = 0) && decide (imn b 136 48 = 0) && decide (imn b 188 4 = 0)
    && (List.range 8).all (fun e => decide (imCores b e < 2 ^ 48))

/-- A section lies inside the image. -/
def sectionOk (b : List Byte) (off n : Nat) : Bool := decide (off + n ≤ b.length)

def sectionsOk (b : List Byte) : Bool :=
  sectionOk b (imn b 88 8) (8 * (imN b + 1) + 4 * imNnz b) && sectionOk b (imn b 96 8) (8 * imNnz b)
    && sectionOk b (imn b 104 8) (16 * imn b 128 4) && sectionOk b (imn b 112 8) (32 * imn b 132 4) && sectionOk b (imn b 120 8) 512

/-- The pattern and the value map: rows in order, columns ascending, the lower triangle for symmetric kinds. -/
def patternOk (b : List Byte) : Bool :=
  decide (imRow b 0 = 0) && decide (imRow b (imN b) = imNnz b) &&
  (List.range (imN b)).all (fun i =>
    decide (imRow b i ≤ imRow b (i + 1)) &&
    (List.range (imRow b (i + 1) - imRow b i)).all (fun j =>
      let k := imRow b i + j
      decide (imCol b k < imN b) && (decide (j = 0) || decide (imCol b (k - 1) < imCol b k))
        && (decide (imPkind b = 2) || decide (imCol b k ≤ i)))) &&
  (List.range (imNnz b)).all (fun k => inMask (imMask b) (imDie b k) && decide (imOff b k + 8 ≤ imStoreBytes b))

/-- The fields of a task record, whether or not a phase names it. -/
def taskOk (b : List Byte) (i : Nat) : Bool :=
  let t := imTask b i
  inMask (imMask b) t.die && (decide (t.core = 63) || (decide (t.core < 48) && inMask (imCores b t.die) t.core))
    && decide (1 ≤ t.op ∧ t.op ≤ 8) && decide (t.flags ≤ 1) && decide (t.rsv = 0)
    && (decide (t.op ≠ 6) || inMask (imMask b) (t.dst / 2 ^ 61))

/-- The reserved bytes of the layout section. -/
def layoutOk (b : List Byte) : Bool := (List.range 8).all (fun e => decide (imn b (imn b 120 8 + 64 * e + 32) 32 = 0))

def phasesOk (b : List Byte) : Bool :=
  let ps := imPhases b
  ps.all (fun p => decide (p.first + p.count ≤ imn b 132 4) && decide (p.cls ≤ 7) && decide (p.rsv = 0)
    && (List.range p.count).all (fun j => decide ((imTask b (p.first + j)).off < p.strokes)))
    && (List.range ps.length).all (fun i =>
      let c := fun (k : Nat) => (ps.getD k ⟨0, 0, 0, 0, 0⟩).cls
      decide (i = 0) || decide (c i = c (i - 1)) || !((ps.take i).map PhaseRec.cls).contains (c i))

def sumsOk (b : List Byte) : Bool :=
  decide (imn b 56 4 = strokeSum b [0, 1]) && decide (imn b 60 2 = strokeSum b [2]) && decide (imn b 62 2 = strokeSum b [3])
    && decide (imn b 64 2 = strokeSum b [5]) && decide (imn b 66 2 = strokeSum b [6]) && decide (imn b 68 2 = strokeSum b [4])

/-- The checks of R229 that concern the image alone. -/
def imageOk (b : List Byte) : Bool :=
  headerRanges b && decide (imn b 184 4 = (crc32c (b.take 184 ++ leBytes 4 0 ++ b.drop 188)).toNat) && sectionsOk b && patternOk b
    && (fingerprint b == imFinger b) && layoutOk b && (List.range (imn b 132 4)).all (taskOk b) && phasesOk b && sumsOk b


end Sys2Proof.Machine
end

