-- ==== Sys2Proof/Machine/Solver.lean ====
section
/-! DEFINITION. What the numbers of a Crucible command are: the matrix that a pattern and its values stand for, norms, residuals and
backward errors, pivots, gradients and interior-point steps (R234, R235, R237, R246 to R248). FP64 values are bit patterns. -/

namespace Sys2Proof.Machine

/-! ### Vectors -/

def words64 (bs : List Byte) : List Nat := (List.range (bs.length / 8)).map (fun i => imn bs (8 * i) 8)

def bytes64 (l : List Nat) : List Byte := l.flatMap (leBytes 8)

/-- Column c of columns of n components that stand one after another. -/
def vecColumn (n c : Nat) (xs : List Nat) : List Nat := slice xs (n * c) n

def neg64 (a : Nat) : Nat := (BitVec.ofNat 64 a ^^^ BitVec.ofNat 64 (2 ^ 63)).toNat

def one64 : Nat := 0x3FF0000000000000

/-- A count as FP64. -/
def count64 (n : Nat) : Nat := (toF64 (Fpv.ofInt n)).toNat

def less64 (a b : Nat) : Bool := decide ((f64 (BitVec.ofNat 64 a)).cmp (f64 (BitVec.ofNat 64 b)) = -1)

/-- Sum in an order that the manual leaves open; `n` numbers the sum. -/
def anySum64 (n : Nat) : Nat → List Nat → Nat
  | _, [] => 0
  | _, [a] => a
  | 0, a :: _ => a
  | k + 1, a :: b :: l =>
    let xs := a :: b :: l
    let i := Config.sumPick n (2 * k) % xs.length
    let ys := xs.eraseIdx i
    let j := Config.sumPick n (2 * k + 1) % ys.length
    anySum64 n k (op64 .add (xs.getD i 0) (ys.getD j 0) :: ys.eraseIdx j)

def sum64 (n : Nat) (l : List Nat) : Nat := anySum64 n l.length l

/-- The number of sum i in a family of sums of number n. -/
def sumNo (n i : Nat) : Nat := n * 2 ^ 32 + i

/-- Scalar product, each product rounded, in an open order. -/
def dot64 (n : Nat) (a b : List Nat) : Nat := sum64 n (List.zipWith (op64 .mul) a b)

def sqrt64 (a : Nat) : Nat := (toF64 (f64 (BitVec.ofNat 64 a)).sqrt).toNat

/-- Euclidean norm. -/
def norm2 (n : Nat) (a : List Nat) : Nat := sqrt64 (dot64 n a a)

/-- a + α·b, and a − α·b, component by component. -/
def plusTimes (alpha : Nat) (a b : List Nat) : List Nat := List.zipWith (fun x y => op64 .add x (op64 .mul alpha y)) a b
def minusTimes (alpha : Nat) (a b : List Nat) : List Nat := plusTimes (neg64 alpha) a b

def scaleBy (alpha : Nat) (a : List Nat) : List Nat := a.map (op64 .mul alpha)

/-- Largest magnitude of a list, a NaN where the list holds one (log entry 138). -/
def normInf (l : List Nat) : Nat :=
  if l.any (fun v => (f64 (BitVec.ofNat 64 v)).isNan) then canonNan .fp64 else l.foldl (fun a v => max a (v % 2 ^ 63)) 0

/-- Component i of the n-th vector whose components the manual does not state bit by bit. -/
def vecAt (n i : Nat) : DWord := Config.solverValue n i

/-- The first m components of that vector. -/
def freeVec (n m : Nat) : List Nat := (List.range m).map (fun i => (vecAt n i).toNat)

/-! ### The matrix (R226, R234) -/

/-- Row of entry k. -/
def rowOf (b : List Byte) (k : Nat) : Nat := ((List.range (imN b)).find? (fun i => decide (imRow b i ≤ k ∧ k < imRow b (i + 1)))).getD 0

/-- Row i of the matrix, or of its transpose, as columns with values: a stored triangle implies the other (R234). -/
def matRow (b : List Byte) (vals : List Nat) (trans : Bool) (i : Nat) : List (Nat × Nat) :=
  let own := (List.range (imRow b (i + 1) - imRow b i)).map (fun j => (imCol b (imRow b i + j), vals.getD (imRow b i + j) 0))
  let down := ((List.range (imNnz b)).filter (fun k => decide (imCol b k = i))).map (fun k => (rowOf b k, vals.getD k 0))
  if imPkind b = 2 then (if trans then down else own) else own ++ down.filter (fun p => decide (p.1 ≠ i))

/-- ‖A‖∞, or ‖Aᵀ‖∞. -/
def matNorm (n : Nat) (b : List Byte) (vals : List Nat) (trans : Bool) : Nat :=
  normInf ((List.range (imN b)).map (fun i => sum64 (sumNo n i) ((matRow b vals trans i).map (fun p => p.2 % 2 ^ 63))))

/-- A·x, or Aᵀ·x. -/
def matTimes (n : Nat) (b : List Byte) (vals : List Nat) (trans : Bool) (x : List Nat) : List Nat :=
  (List.range (imN b)).map (fun i => sum64 (sumNo n i) ((matRow b vals trans i).map (fun p => op64 .mul p.2 (x.getD p.1 0))))

/-- The values of a slot as they stand in the stores, whether one of them is poisoned, and the state after the reads. -/
def State.readValues (s : State) (c : CruSlot) : List Nat × Bool × State :=
  (List.range (imNnz c.image)).foldl (fun a k =>
    let e := dieIx (imDie c.image k)
    let x := a.2.2.memRead ⟨e, c.job, false⟩ e 0 (c.store + imOff c.image k) 8
    (a.1 ++ [leNat x.bytes], a.2.1 || x.poison.any id, x.state)) ([], false, s)

/-! ### Residuals and backward errors (R235, R237) -/

/-- b − A·x of one column, or with Aᵀ: each product is rounded, and the order of the sum is open (log entry 138). -/
def residual (n : Nat) (b : List Byte) (vals : List Nat) (trans : Bool) (rhs x : List Nat) : List Nat :=
  (List.range (imN b)).map (fun i =>
    sum64 (n * 2 ^ 32 + i) (rhs.getD i 0 :: (matRow b vals trans i).map (fun p => neg64 (op64 .mul p.2 (x.getD p.1 0)))))

/-- ω of a column: 0 for a zero denominator. -/
def backward (anorm xn bn rn : Nat) : Nat :=
  let den := op64 .add (op64 .mul anorm xn) bn
  if den % 2 ^ 63 = 0 then 0 else op64 .div rn den

/-- Whether an element of the residual check passes (R435), and its deviation with the tolerance: `entries` is the number of entries of the
row. The bound is exact, and a NaN or an infinity on either side fails. -/
def checkElem (entries : Nat) (norm xn bi r5 r3 : Nat) : Bool × Fpv × Fpv :=
  let v := fun (a : Nat) => f64 (BitVec.ofNat 64 a)
  let tol := (((Fpv.ofInt ((entries + 127) / 128 : Nat)).mul ((v norm).mul (v xn))).scale (-46)).add .rne ((v bi).absVal.scale (-52))
  let dev := ((v r5).minus (v r3)).absVal
  (dev.finite && tol.finite && decide (dev.cmp tol ≠ 1), dev, tol)

/-- One column of the residual check: whether it fails, and the larger of a deviation and those of its elements, each with its tolerance;
of two deviations that is larger which exceeds its tolerance by the larger factor (log 159). -/
def checkColumn (rows : List Nat) (norm xn : Nat) (b r5 r3 : List Nat) (worst : Fpv × Fpv) : Bool × Fpv × Fpv :=
  (List.range r5.length).foldl (fun a i =>
    let e := checkElem (rows.getD i 0) norm xn (b.getD i 0) (r5.getD i 0) (r3.getD i 0)
    let more := a.2.1.finite && (!e.2.1.finite || decide ((e.2.1.mul a.2.2).cmp (a.2.1.mul e.2.2) = 1))
    (a.1 || !e.1, if more then e.2 else a.2)) (false, worst)

/-- ω and residual norm of a column. -/
def columnError (n : Nat) (b : List Byte) (vals : List Nat) (trans : Bool) (anorm : Nat) (rhs x : List Nat) : Nat × Nat :=
  let rn := normInf (residual n b vals trans rhs x)
  (backward anorm (normInf x) (normInf rhs) rn, rn)

/-! ### Pivots (R234) -/

/-- A pivot after regularisation, and whether it was replaced: `limit` is τ·‖A‖. -/
def regularise (pkind limit d : Nat) : Nat × Bool :=
  let v := f64 (BitVec.ofNat 64 d)
  if pkind = 0 then (if v.isNan || less64 d limit then (limit, true) else (d, false))
  else if less64 (d % 2 ^ 63) limit then (if d < 2 ^ 63 then limit else neg64 limit, true)
  else (d, false)

/-- Entry (i, j) of rows that start at column `at0 i`. -/
def rowEntry (l : List (List Nat)) (i j : Nat) : Nat := (l.getD i []).getD j 0

/-- What elimination has done so far: the factors, and of each pivot the unknown, the value before regularisation and whether it was replaced. -/
structure Elimination where
  fac : Factors
  pivots : List (Nat × Nat × Bool)

/-- Row i of the elimination (R234): the entries of the lower factor one after another, then the rest of the row of the upper factor, whose
first entry is the pivot. Each product is rounded, and the order of each sum is open (log 138); a structural zero takes no part. -/
def eliminateRow (n : Nat) (pkind limit size : Nat) (a : Nat → Nat → Nat) (i : Nat) (e : Elimination) : Elimination :=
  let f := e.fac
  let less := fun (ls : List Nat) (j : Nat) => (List.range (min j ls.length)).filterMap (fun m =>
    let l := ls.getD m 0
    let u := rowEntry f.upper m (j - m)
    if l % 2 ^ 63 = 0 ∨ u % 2 ^ 63 = 0 then none else some (neg64 (op64 .mul l u)))
  let ls := (List.range i).foldl (fun ls j =>
    ls ++ [op64 .div (sum64 (sumNo (sumNo n i) j) (a i j :: less ls j)) (rowEntry f.upper j 0)]) []
  let us := (List.range (size - i)).map (fun k => sum64 (sumNo (sumNo n i) (i + k)) (a i (i + k) :: less ls (i + k)))
  let d := us.headD 0
  let p := regularise pkind limit d
  ⟨{ f with lower := f.lower ++ [ls], upper := f.upper ++ [p.1 :: us.drop 1] }, e.pivots ++ [(f.order.getD i 0, d, p.2)]⟩

/-- The matrix in pivot order as L·U with a unit diagonal in L. LLᵀ and LDLᵀ are this product with the pivots divided out of U, so the
factors and the pivots are the same up to rounding (log 138). -/
def factorise (n : Nat) (b : List Byte) (vals : List Nat) (limit : Nat) (order : List Nat) (bad : Bool) : Elimination :=
  let rows := (List.range (imN b)).map (matRow b vals false)
  let a := fun (i j : Nat) => (((rows.getD (order.getD i 0) []).find? (fun p => decide (p.1 = order.getD j 0))).map (fun p => p.2)).getD 0
  (List.range (imN b)).foldl (fun e i => eliminateRow n (imPkind b) limit (imN b) a i e) ⟨⟨order, [], [], bad⟩, []⟩

/-- Forward and backward substitution with the factors (R235), or with the transposed factors (R245). -/
def Factors.solve (f : Factors) (n : Nat) (trans : Bool) (rhs : List Nat) : List Nat :=
  let size := f.order.length
  let less := fun (k : Nat) (l : List (Nat × Nat)) (v : Nat) =>
    sum64 k (v :: (l.filter (fun p => decide (p.1 % 2 ^ 63 ≠ 0))).map (fun p => neg64 (op64 .mul p.1 p.2)))
  let low := fun (i j : Nat) => if trans then rowEntry f.upper j (i - j) else rowEntry f.lower i j
  let upp := fun (i j : Nat) => if trans then rowEntry f.lower j i else rowEntry f.upper i (j - i)
  let piv := fun (i : Nat) (v : Nat) => op64 .div v (rowEntry f.upper i 0)
  let y := (List.range size).foldl (fun y i =>
    let v := less (sumNo n i) ((List.range i).map (fun j => (low i j, y.getD j 0))) (rhs.getD (f.order.getD i 0) 0)
    y ++ [if trans then piv i v else v]) []
  let x := (List.range size).reverse.foldl (fun x i =>
    let v := less (sumNo n (size + i)) ((x.zipIdx).map (fun p => (upp i (i + 1 + p.2), p.1))) (y.getD i 0)
    (if trans then v else piv i v) :: x) []
  (List.range size).map (fun u => x.getD (f.order.findIdx (fun k => decide (k = u))) 0)

/-- The unknowns in the pivot order of the schedule, which the image does not state. -/
def pivotOrder (n : Nat) : Nat → List Nat → List Nat
  | 0, l => l
  | k + 1, l =>
    let i := Config.sumPick n k % max 1 l.length
    (l[i]?).toList ++ pivotOrder n k (l.eraseIdx i)

/-! ### Krylov methods (R240) -/

/-- The problem that a Krylov iteration of one column works on: the matrix as a product, the preconditioner, the right-hand side. -/
structure KryCtx where
  mul : Nat → List Nat → List Nat
  pre : Nat → List Nat → List Nat
  rhs : List Nat

def Krylov.none : Krylov := ⟨[], [], 0, [], 0, [], []⟩

/-- A conjugate gradient step: residual and direction are formed from the iterate before the first one. -/
def cgStep (n : Nat) (p : KryCtx) (x : List Nat) (k : Krylov) : List Nat × Krylov :=
  let k0 := if k.res = [] then
      let r := minusTimes one64 p.rhs (p.mul (sumNo n 0) x)
      let z := p.pre (sumNo n 1) r
      { k with res := r, dir := z, rho := dot64 (sumNo n 2) r z }
    else k
  let q := p.mul (sumNo n 3) k0.dir
  let alpha := op64 .div k0.rho (dot64 (sumNo n 4) k0.dir q)
  let r := minusTimes alpha k0.res q
  let z := p.pre (sumNo n 5) r
  let rho := dot64 (sumNo n 6) r z
  (plusTimes alpha x k0.dir, { k0 with res := r, dir := plusTimes (op64 .div rho k0.rho) z k0.dir, rho := rho })

/-- A plane rotation (c, s) that makes the second of two values zero. -/
def givens (n a b : Nat) : Nat × Nat :=
  let h := norm2 n [a, b]
  if h % 2 ^ 63 = 0 then (one64, 0) else (op64 .div a h, op64 .div b h)

/-- The coefficients that minimise ‖β·e₁ − H·y‖ for the columns of a Hessenberg matrix. -/
def leastSquares (n beta : Nat) (hess : List (List Nat)) : List Nat :=
  let done := hess.zipIdx.foldl (fun (a : List (Nat × Nat) × List (List Nat) × List Nat) c =>
    let col := a.1.zipIdx.foldl (fun (l : List Nat) g =>
      let u := l.getD g.2 0
      let v := l.getD (g.2 + 1) 0
      (l.set g.2 (op64 .add (op64 .mul g.1.1 u) (op64 .mul g.1.2 v))).set (g.2 + 1)
        (op64 .add (op64 .mul g.1.1 v) (neg64 (op64 .mul g.1.2 u)))) c.1
    let g := givens (sumNo n c.2) (col.getD c.2 0) (col.getD (c.2 + 1) 0)
    let d := op64 .add (op64 .mul g.1 (col.getD c.2 0)) (op64 .mul g.2 (col.getD (c.2 + 1) 0))
    let t := a.2.2.getD c.2 0
    (a.1 ++ [g], a.2.1 ++ [(col.take c.2) ++ [d]], (a.2.2.set c.2 (op64 .mul g.1 t)) ++ [neg64 (op64 .mul g.2 t)])) ([], [], [beta])
  let m := hess.length
  (List.range m).reverse.foldl (fun y i =>
    let v := sum64 (sumNo n (m + i)) (done.2.2.getD i 0 :: y.zipIdx.map (fun p => neg64 (op64 .mul (rowEntry done.2.1 (i + 1 + p.2) i) p.1)))
    op64 .div v (rowEntry done.2.1 i i) :: y) []

/-- A GMRES step, restarted after 32: on which side the preconditioner stands is not stated (log 160), so `left` is a free value. A cycle
whose first residual is zero keeps its iterate. -/
def gmresStep (n : Nat) (left : Bool) (p : KryCtx) (x : List Nat) (k : Krylov) : List Nat × Krylov :=
  let k0 := if k.basis = [] ∨ k.hess.length ≥ 32 then
      let r := minusTimes one64 p.rhs (p.mul (sumNo n 0) x)
      let z := if left then p.pre (sumNo n 1) r else r
      let beta := norm2 (sumNo n 2) z
      { k with base := x, beta := beta, basis := [scaleBy (op64 .div one64 beta) z], hess := [] }
    else k
  if k0.beta % 2 ^ 63 = 0 then (x, { k0 with basis := [] })
  else
    let v := k0.basis.getLastD []
    let w0 := if left then p.pre (sumNo n 3) (p.mul (sumNo n 4) v) else p.mul (sumNo n 4) (p.pre (sumNo n 3) v)
    let o := k0.basis.zipIdx.foldl (fun (a : List Nat × List Nat) b =>
      let h := dot64 (sumNo n (16 + b.2)) a.1 b.1
      (minusTimes h a.1 b.1, a.2 ++ [h])) (w0, [])
    let len := norm2 (sumNo n 5) o.1
    let k1 := { k0 with hess := k0.hess ++ [o.2 ++ [len]], basis := k0.basis ++ [scaleBy (op64 .div one64 len) o.1] }
    let y := leastSquares (sumNo n 6) k1.beta k1.hess
    let c := (y.zip k1.basis).foldl (fun a q => plusTimes q.1 a q.2) (List.replicate x.length 0)
    (plusTimes one64 k1.base (if left then c else p.pre (sumNo n 7) c), k1)

/-! ### Value gradients (R246) -/

/-- The gradient element of entry k, in IEEE binary64, from λ and x; each column of both is one list. -/
def gradOf (n : Nat) (b : List Byte) (lam x : List (List Nat)) (k : Nat) : Nat :=
  let i := rowOf b k
  let j := imCol b k
  let prod := fun (c i j : Nat) => op64 .mul ((lam.getD c []).getD i 0) ((x.getD c []).getD j 0)
  let terms := (List.range lam.length).flatMap (fun c =>
    if imPkind b = 2 ∨ i = j then [prod c i j] else [prod c i j, prod c j i])
  neg64 (sum64 (n * 2 ^ 32 + k) terms)

/-- The elements as GRAD holds them, with the flags of their conversion. -/
def gradBytes64 (f : Fmt) (l : List Nat) : List Byte × BitVec 8 :=
  l.foldl (fun (a : List Byte × BitVec 8) v =>
    let e : Enc := if f = .fp64 then ⟨v, 0, noGen⟩ else encodeFloat .fp32 .rne (f64 (BitVec.ofNat 64 v)) noGen
    (a.1 ++ leBytes f.elemBytes e.bits, a.2 ||| e.flags)) ([], 0)

/-- Whether a write that accumulates into an open bucket of a die of the module saturates there, as that bucket stands now. -/
def State.bucketSats (s : State) (job : BitVec 12) (a : BoardAddr) (bs : List Byte) (ps : List Bool) : Bool :=
  let l := locOf a
  let e := dieIx l.die
  if l.slot = s.slot ∧ l.region = 0 then
    match s.bucketHit e job l.off bs.length none with
    | .inside k =>
      let n := bs.length / k.fmt.elemBytes
      let key := memKey e.val 0 l.off
      (accumElems k.fmt (decodeRow k.fmt n (s.peek key bs.length) (s.poisonOf 0 key bs.length)) (decodeRow k.fmt n bs ps) (s.die e).genBkt).2.2.1
    | _ => false
  else false

/-! ### Interior-point steps (R247, R248) -/

/-- The parts x, y and z of an iterate. -/
def ipmX (b : List Byte) (v : List Nat) : List Nat := v.take (imN1 b)
def ipmY (b : List Byte) (v : List Nat) : List Nat := slice v (imN1 b) (imN b - imN1 b)
def ipmZ (b : List Byte) (v : List Nat) : List Nat := slice v (imN b) (imN1 b)

/-- The start without a warm start: x = z = 1 and y = 0. -/
def ipmCold (b : List Byte) : List Nat :=
  List.replicate (imN1 b) one64 ++ List.replicate (imN b - imN1 b) 0 ++ List.replicate (imN1 b) one64

/-- r_p = b − Ax; B holds c before b. -/
def ipmPrimal (n : Nat) (b : List Byte) (vals rhs v : List Nat) : List Nat :=
  (List.range (imN b - imN1 b)).map (fun j =>
    let row := (matRow b vals false (imN1 b + j)).filter (fun p => decide (p.1 < imN1 b))
    sum64 (n * 2 ^ 32 + j) (rhs.getD (imN1 b + j) 0 :: row.map (fun p => neg64 (op64 .mul p.2 (v.getD p.1 0)))))

/-- r_d = c + Qx − Aᵀy − z. -/
def ipmDual (n : Nat) (b : List Byte) (vals rhs v : List Nat) : List Nat :=
  (List.range (imN1 b)).map (fun i =>
    let row := (matRow b vals false i).map (fun p =>
      let t := op64 .mul p.2 (v.getD p.1 0)
      if p.1 < imN1 b then t else neg64 t)
    sum64 (n * 2 ^ 32 + i) (rhs.getD i 0 :: neg64 ((ipmZ b v).getD i 0) :: row))

/-- μ = xᵀz / n. -/
def ipmMu (n : Nat) (b : List Byte) (v : List Nat) : Nat :=
  op64 .div (sum64 n (List.zipWith (op64 .mul) (ipmX b v) (ipmZ b v))) (count64 (imN1 b))

/-- The smaller of 1 and `part` times the largest step along dv that keeps v > 0. -/
def stepOf64 (part : Nat) (v dv : List Nat) : Nat :=
  let ratios := (v.zip dv).filterMap (fun p => if less64 p.2 0 then some (op64 .div p.1 (neg64 p.2)) else none)
  match ratios with
  | [] => one64
  | r :: rs =>
    let a := op64 .mul part (rs.foldl (fun m x => if less64 x m then x else m) r)
    if less64 a one64 then a else one64

/-- The step length with the part 0.995 (R247). -/
def stepLength (v dv : List Nat) : Nat := stepOf64 (op64 .div (count64 995) (count64 1000)) v dv

/-- v + α·dv. -/
def moveBy (alpha : Nat) (v dv : List Nat) : List Nat := List.zipWith (fun a e => op64 .add a (op64 .mul alpha e)) v dv

/-- The right-hand side of the KKT system for (dx, −dy): r_d and the complementarity rc in the leading rows, r_p below. -/
def ipmSystem (b : List Byte) (it rp rd rc : List Nat) : List Nat :=
  (List.range (imN1 b)).map (fun i => op64 .add (neg64 (rd.getD i 0)) (op64 .div (rc.getD i 0) ((ipmX b it).getD i 0))) ++ rp

/-- The direction (dx, dy, dz) that a solution of that system stands for: Z·dx + X·dz = rc. -/
def ipmDirection (b : List Byte) (it sol rc : List Nat) : List Nat :=
  let dx := sol.take (imN1 b)
  let dz := (List.range (imN1 b)).map (fun i =>
    op64 .div (op64 .add (rc.getD i 0) (neg64 (op64 .mul ((ipmZ b it).getD i 0) (dx.getD i 0)))) ((ipmX b it).getD i 0))
  dx ++ (sol.drop (imN1 b)).map neg64 ++ dz

/-- rc of the predictor: −XZe. -/
def ipmPredictor (b : List Byte) (it : List Nat) : List Nat := List.zipWith (fun x z => neg64 (op64 .mul x z)) (ipmX b it) (ipmZ b it)

/-- rc of the corrector: σμe − XZe − dX·dZ·e with the predictor's direction (log 161). -/
def ipmCorrector (b : List Byte) (it dir : List Nat) (sigma mu : Nat) : List Nat :=
  List.zipWith (fun a p => op64 .add (op64 .add (op64 .mul sigma mu) a) p) (ipmPredictor b it)
    (List.zipWith (fun x z => neg64 (op64 .mul x z)) (ipmX b dir) (ipmZ b dir))

/-- The iterate moved along a direction: x by α_p, y and z by α_d (log entry 140). -/
def ipmMove (b : List Byte) (it dir : List Nat) (ap ad : Nat) : List Nat :=
  moveBy ap (ipmX b it) (ipmX b dir) ++ moveBy ad (ipmY b it) (ipmY b dir) ++ moveBy ad (ipmZ b it) (ipmZ b dir)

/-- σ = (μ_aff / μ)³. -/
def sigmaOf (aff mu : Nat) : Nat :=
  let q := op64 .div aff mu
  op64 .mul q (op64 .mul q q)

/-- The values with Q + X⁻¹Z in the leading block (R247). -/
def shiftValues (b : List Byte) (vals v : List Nat) : List Nat :=
  vals.zipIdx.map (fun p =>
    let i := rowOf b p.2
    if imCol b p.2 = i ∧ i < imN1 b then op64 .add p.1 (op64 .div ((ipmZ b v).getD i 0) ((ipmX b v).getD i 0)) else p.1)

end Sys2Proof.Machine
end

