-- ==== Sys2Proof/Machine/Crucible.lean ====
section
/-! DEFINITION. The Crucible solver engine: structure slots, values, solve kinds, phases and deadlines (R220 to R253). -/

namespace Sys2Proof.Machine

/-! ### Running commands (R253) -/

/-- A running Crucible command whose step has been aborted writes nothing more and ends at the next boundary (R253). -/
def State.cruStopping (s : State) (d : DieIx) (r : Running) : Bool :=
  r.stats.contains stAborted || (match (s.die d).solve with
    | some u => decide (u.ident = r.ident) && u.stop
    | none => false)

/-- Run a Crucible command of a kind, unless it only waits for its end. -/
def withCru (s : State) (d : DieIx) (kind : Nat) (k : Running → State) : State :=
  withEngine s d .cru kind (fun r => if s.cruStopping d r then s else k r)

/-! ### Loading a structure (R224, R225, R229) -/

/-- The die group (R220): its size, its alignment, its dies populated, and DIEMASK within it. -/
def State.groupOk (s : State) (b : List Byte) : Bool :=
  let low := imn b 7 1 / 16
  let n := imn b 7 1 % 16
  [1, 2, 4, 8].contains n && decide (low % n = 0) && decide (low + n ≤ s.dieCount)
    && (List.range 8).all (fun e => !inMask (imMask b) e || decide (low ≤ e ∧ e < low + n))

/-- The store (R225): it lies in the open part, and meets no other store on the dies of the mask. -/
def State.storeFits (s : State) (b : List Byte) (store : Nat) : Bool :=
  decide (store % 65536 = 0) && decide (store + imStoreBytes b ≤ 0x7E00000000) && decide (b.length ≤ imStoreBytes b)
    && (cruDies (imMask b)).all (fun e => !s.storeHit e store (imStoreBytes b))

/-- Whether a die of the mask, or a core that the schedule uses or its array, is fenced (R229, R438). -/
def State.schedFenced (s : State) (b : List Byte) : Bool :=
  (cruDies (imMask b)).any (fun e => s.dieFenced e
    || (coresIn (imCores b e.val)).any (fun c => s.coreFenced e c || (s.core e c).fenceArr))

/-- Whether the HBM of every die of a mask serves accesses. -/
def State.cruServes (s : State) (m : Nat) : Bool := (cruDies m).all (fun e => s.hbmServes e)
def State.cruHeld (s : State) (m : Nat) : Bool := (cruDies m).any (fun e => s.testHold e)

/-! ### Slots (R224, R259) -/

def cruSlotOf (x : Desc) : Nat := dAux x % 64

def State.setSlotState (s : State) (m k v : Nat) : State := (cruDies m).foldl (fun t e => t.setRf e (rCruSlot k 0) 30 2 v) s
def State.slotState (s : State) (d : DieIx) (k : Nat) : Nat := s.rf d (rCruSlot k 0) 30 2
def State.vgen (s : State) (d : DieIx) (k : Nat) : Nat := s.rf d (rCruSlot k 1) 0 32

/-- The slot that a command may use (R221, R224): filled by its JOB, with its home here. -/
def State.slotFor (s : State) (d : DieIx) (x : Desc) : Option CruSlot :=
  match s.cruSlot d (cruSlotOf x) with
  | none => none
  | some k => if k.job = dJob x ∧ k.home = d.val then some k else none

/-- Replace a slot's record on the dies of its mask. -/
def State.setSlot (s : State) (k : Nat) (c : CruSlot) : State :=
  (cruDies c.mask).foldl (fun t e => t.modDie e (fun y => { y with slots := (k, c) :: y.slots.filter (fun p => p.1 != k) })) s

/-- Write bytes into a slot's store on a die; what falls outside the store is not written. -/
def State.storeWrite (s : State) (e : DieIx) (c : CruSlot) (off : Nat) (bs : List Byte) (bad : Bool) : State :=
  let n := min bs.length (c.bytes - off)
  s.memWrite ⟨e, c.job, false⟩ e 0 (c.store + off) (bs.take n) (List.replicate n bad)

/-- Whether a range of a slot's store holds poison. -/
def State.storeBad (s : State) (e : DieIx) (c : CruSlot) (off n : Nat) : Bool :=
  (s.poisonOf 0 (memKey e 0 (c.store + off)) n).any id

/-- Write the image into a store (R226): the header at offset 0, an empty pivot log at 0x1000, and the rest of the copy around it, each
byte at its offset in the image (log entry 139); poison goes along (R314). -/
def State.storeImage (s : State) (e : DieIx) (c : CruSlot) (b : List Byte) (ps : List Bool) : State :=
  let put := fun (t : State) (off : Nat) (bs : List Byte) (m : List Bool) => t.memWrite ⟨e, c.job, false⟩ e 0 (c.store + off) bs m
  put (put (put s 0 (b.take 0x1000) (ps.take 0x1000)) 0x1000 (List.replicate 1024 0) (List.replicate 1024 false)) 0x1400 (b.drop 0x1400)
    (ps.drop 0x1400)

/-- STRUCT_LOAD's work: the image becomes the slot's on every die of DIEMASK. -/
def State.loadSlot (s : State) (d : DieIx) (r : Running) (b : List Byte) (ps : List Bool) : State :=
  let k := cruSlotOf r.desc
  let c : CruSlot := ⟨dJob r.desc, d.val, imMask b, dn r.desc 32 8, imStoreBytes b, BitVec.ofNat 128 (leNat (imFinger b)), 0, [], b, Factors.none⟩
  let s1 := (cruDies c.mask).foldl (fun t e =>
    (t.storeImage e c b ps).modReg e (rCruSlot k 0) (fun _ =>
      BitVec.ofNat 32 (2 ^ 30 + (if e = d then 2 ^ 29 else 0) + c.mask * 65536 + c.job.toNat))) s
  (s1.setSlot k c).finish d .cru r (r.result [])

/-- Whether no other Crucible command works on a die of a mask (R222): the DIEMASK of an image on another module is known only now. -/
def State.cruClear (s : State) (d : DieIx) (r : Running) (m : Nat) : Bool :=
  (List.finRange 8).all (fun e => ((s.die e).uq[6]).running.all (fun y =>
    (decide (e = d) && decide (y.ident = r.ident)) || decide (m &&& s.cruMask e y.desc = 0)))

def State.structLoad (s : State) (d : DieIx) (r : Running) : State :=
  let x := r.desc
  let k := cruSlotOf x
  if !dAddrOk x 24 ∨ dn x 40 24 ≠ 0 ∨ dn x 32 8 ≥ 2 ^ 39 then s.stopEarly d .cru r stFormat
  else if rowsService (dAddr x 24) 0 1 256 then (s.countService true).stopEarly d .cru r stFormat
  else if !s.rowsDecode d (dAddr x 24) 0 1 256 then s.stopEarly d .cru r stFormat
  else
    match s.fetchAll d .cru r [(dAddr x 24, 256)] with
    | .stop st => s.stopEarly d .cru r st
    | .wait t => t
    | .data h t =>
      let n := imn (h.headD ([], [])).1 80 8
      if n < 256 ∨ n ≥ 2 ^ 39 ∨ !t.rowsDecode d (dAddr x 24) 0 1 n then t.stopEarly d .cru r stFormat
      else if rowsService (dAddr x 24) 0 1 n then (t.countService true).stopEarly d .cru r stFormat
      else
        match s.fetchAll d .cru r [(dAddr x 24, n)] with
        | .stop st => s.stopEarly d .cru r st
        | .wait u => u
        | .data l u =>
          let b := (l.headD ([], [])).1
          -- poison in the image reaches the copy, and ends nothing early (R314, R316)
          let q : Running := if (l.headD ([], [])).2.any id then { r with stats := r.stats ++ [stPoison] } else r
          if !imageOk b ∨ imn b 12 2 ≠ u.settings.period ∨ !u.groupOk b ∨ lowBit (BitVec.ofNat 8 (imMask b)) ≠ d.val
              ∨ (cruDies (imMask b)).any (fun e => (u.cruSlot e k).isSome) ∨ !u.storeFits b (dn x 32 8) then
            (u.countService (imageOk b && decide (dn x 32 8 + imStoreBytes b > 0x7E00000000))).stopEarly d .cru q stFormat
          else if u.schedFenced b ∨ u.cruHeld (imMask b) then u.stopEarly d .cru q stFenced
          else if !u.cruServes (imMask b) ∨ !u.cruClear d r (imMask b) then s
          else u.loadSlot d q b (l.headD ([], [])).2

/-- STRUCT_LOAD (R225, R229). -/
def execStructLoad (d : DieIx) (s : State) : Host.Outcome State Fault Refusal :=
  onDie d s (fun t => withCru t d 0x40 (t.structLoad d))

/-- Free a slot on every die of its mask. -/
def State.freeSlotOf (s : State) (k : Nat) (c : CruSlot) : State :=
  (cruDies c.mask).foldl (fun t e =>
    (t.setReg e (rCruSlot k 0) 0).modDie e (fun y => { y with slots := y.slots.filter (fun p => p.1 != k) })) s

def State.structFree (s : State) (d : DieIx) (r : Running) : State :=
  let x := r.desc
  if dn x 24 40 ≠ 0 then s.stopEarly d .cru r stFormat
  else
    match s.slotFor d x with
    | none => s.stopEarly d .cru r stFormat
    | some c => if s.dieFenced d then s.stopEarly d .cru r stFenced else (s.freeSlotOf (cruSlotOf x) c).finish d .cru r Result.ok

/-- STRUCT_FREE (R224). -/
def execStructFree (d : DieIx) (s : State) : Host.Outcome State Fault Refusal :=
  onDie d s (fun t => withCru t d 0x41 (t.structFree d))

/-! ### VALUES (R233) -/

/-- An entry of a list: canonical index, FP64 bits, and whether a word of it is poisoned. -/
structure ValEntry where
  idx : Nat
  bits : Nat
  bad : Bool
deriving DecidableEq, Repr

/-- n entries of a list from number `first` on, which is the index of a dense one; an index with non-zero bits above 39 is out of range. -/
def valEntries (dense : Bool) (first n : Nat) (bs : List Byte) (ps : List Bool) : List ValEntry :=
  (List.range n).map (fun i =>
    if dense then ⟨first + i, imn bs (8 * i) 8, anyAt ps (8 * i) 8⟩
    else ⟨imn bs (16 * i) 8, imn bs (16 * i + 8) 8, anyAt ps (16 * i) 16⟩)

/-- Apply entries in order up to the first offending one: how many were applied, and the status that stopped them. -/
def applyValues (c : CruSlot) : List ValEntry → State → Nat × Option Nat × State
  | [], s => (0, none, s)
  | v :: vs, s =>
    if v.bad then (0, some stPoison, s)
    else if v.idx ≥ imNnz c.image ∨ !(f64 (BitVec.ofNat 64 v.bits)).finite then (0, some stFormat, s)
    else
      let r := applyValues c vs (s.storeWrite (dieIx (imDie c.image v.idx)) c (imOff c.image v.idx) (leBytes 8 v.bits) false)
      (r.1 + 1, r.2)

/-- The end of a VALUES that has applied entries: VGEN counts, the factors are stale, and a complete dense list makes the slot VALUED (R224,
R233). -/
def State.valuesCount (s : State) (k : Nat) (c : CruSlot) (complete : Bool) : State :=
  (cruDies c.mask).foldl (fun t e =>
    let t1 := t.modReg e (rCruSlot k 1) (fun w => w + 1)
    let t2 := if t1.slotState e k = 3 then t1.modReg e (rCruSlot k 0) (fun w => setBit w 27 true) else t1
    if complete ∧ t2.slotState e k = 1 then t2.setRf e (rCruSlot k 0) 30 2 2 else t2) s

/-- Apply the next entries of a list of n; r.rows of them have been applied before. The command goes on in another stroke while entries are
left. -/
def State.valuesWork (s : State) (d : DieIx) (r : Running) (c : CruSlot) (dense : Bool) (n m : Nat) (l : List Byte × List Bool) : State :=
  let k := cruSlotOf r.desc
  let o := applyValues c (valEntries dense r.rows m l.1 l.2) s
  let total := r.rows + o.1
  if o.2.1.isNone ∧ total < n then o.2.2.setRunning d .cru { r with rows := total }
  else
    let s1 := if total = 0 then o.2.2 else o.2.2.valuesCount k c (dense && o.2.1.isNone)
    s1.finish d .cru r ⟨o.2.1.toList, 0, 0, BitVec.ofNat 32 (min total 0xFFFFFFFF)⟩

/-- How many entries of a list one stroke takes: 16 in each ACLK cycle of the home die, 32 of a dense list (R233). -/
def State.valuesRate (s : State) (d : DieIx) (dense : Bool) : Nat :=
  (if dense then 32 else 16) * (s.rf d rStkCfg 0 8 * s.rf d rStkStepNow 16 16)

def State.valuesRun (s : State) (d : DieIx) (r : Running) : State :=
  let x := r.desc
  let n := dn x 32 8
  let dense := bitAt x (8 * 40)
  let bytes := n * (if dense then 8 else 16)
  if !dAddrOk x 24 ∨ dn x 40 24 ≥ 2 then s.stopEarly d .cru r stFormat
  -- a no-op consults no slot and no fence (R11)
  else if n = 0 then s.finish d .cru r Result.ok
  else
  match s.slotFor d x with
  | none => s.stopEarly d .cru r stFormat
  | some c =>
    if n ≥ 2 ^ 41 ∨ (!dense ∧ s.slotState d (cruSlotOf x) = 1) ∨ (dense ∧ n ≠ imNnz c.image) then s.stopEarly d .cru r stFormat
    else if rowsService (dAddr x 24) 0 1 bytes then (s.countService true).stopEarly d .cru r stFormat
    else if !s.rowsDecode d (dAddr x 24) 0 1 bytes then s.stopEarly d .cru r stFormat
    else if r.rows = 0 ∧ (s.schedFenced c.image ∨ s.cruHeld c.mask) then s.stopEarly d .cru r stFenced
    else if !s.cruServes c.mask then s
    else
      let w := if dense then 8 else 16
      let m := min (n - r.rows) (max 1 (s.valuesRate d dense))
      match s.fetchAll d .cru r [(BitVec.ofNat 52 ((dAddr x 24).toNat + w * r.rows), w * m)] with
      | .stop st => s.stopEarly d .cru r st
      | .wait t => t
      | .data l t => t.valuesWork d r c dense n m (l.headD ([], []))

/-- VALUES (R233): one stroke's worth of entries at a time. -/
def execValues (d : DieIx) (s : State) : Host.Outcome State Fault Refusal :=
  onDie d s (fun t => withCru t d 0x42 (t.valuesRun d))

/-! ### Solve kinds: parameters (R235, R240, R245, R247, R250) -/

/-- The image in force for a running solve. -/
def State.cruImage (s : State) (d : DieIx) (k : Nat) : List Byte :=
  match s.cruSlot d k with
  | some c => c.image
  | none => []

/-- Elements per column of the solution record. -/
def solLen (kind : Nat) (b : List Byte) : Nat := if kind = 0x48 then imN b + imN1 b else imN b

def solNrhs (x : Desc) : Nat := dn x 60 2

/-- The classes that a command runs (R249). -/
def solClasses (kind method : Nat) : List Nat :=
  match kind with
  | 0x43 => [0, 1, 2, 3, 5]
  | 0x44 => [2, 3, 5]
  | 0x45 => [if method = 0 then 3 else 4, 5]
  | 0x46 => [2, 3, 6, 5]
  | _ => [7, 0, 1, 2, 7, 2, 7, 5]

def solGuard (kind : Nat) (b : List Byte) : Nat := imn b 64 2 + (if kind = 0x46 then imn b 66 2 else 0)

def State.solDeadline (s : State) (d : DieIx) (x : Desc) : Nat := if dn x 56 3 = 0 then s.rf d rCruDef 0 24 else dn x 56 3

def recBytes (kind : Nat) (b : List Byte) (nrhs : Nat) : Nat := 64 + 8 * solLen kind b * nrhs
def resBytes (kind nrhs : Nat) : Nat := if kind = 0x48 then 104 else 64 + 16 * nrhs
def gradElem (x : Desc) : Nat := if fld x (8 * 62 + 4) 4 = 0 then 8 else 4
def gradFmt (x : Desc) : Fmt := if fld x (8 * 62 + 4) 4 = 0 then .fp64 else .fp32

/-- Inputs and outputs as ranges; the record at L of ADJOINT is read and written. -/
def solInputs (x : Desc) (b : List Byte) : List (BoardAddr × Nat) :=
  if dKind x = 0x46 then [(dAddr x 32, recBytes 0x46 b (solNrhs x))]
  else (dAddr x 24, 8 * imN b * solNrhs x) :: (if bitAt x (8 * 63) then [(dAddr x 40, recBytes (dKind x) b (solNrhs x))] else [])

def solOutputs (x : Desc) (b : List Byte) : List (BoardAddr × Nat × Fmt) :=
  let res := (dAddr x 48, resBytes (dKind x) (solNrhs x), Fmt.fp64)
  if dKind x = 0x46 then [(dAddr x 24, recBytes 0x46 b (solNrhs x), Fmt.fp64), (dAddr x 40, gradElem x * imNnz b, gradFmt x), res]
  else [(dAddr x 32, recBytes (dKind x) b (solNrhs x), Fmt.fp64), res]

/-- Whether two of some ranges overlap. -/
def anyOverlap : List (BoardAddr × Nat) → Bool
  | [] => false
  | p :: ps => ps.any (fun q => overlaps p.1.toNat p.2 q.1.toNat q.2) || anyOverlap ps

/-- Reserved fields and ranges that the descriptor alone decides; R11 judges these even of a no-op. -/
def solShape (x : Desc) : Bool :=
  dAddrOk x 24 && dAddrOk x 32 && dAddrOk x 40 && dAddrOk x 48 && decide (dn x 59 1 ≤ 52)
    && (match dKind x with
        | 0x45 => decide (dn x 62 1 ≤ 2) && decide (dn x 63 1 ≤ 1)
        | 0x46 => decide (fld x (8 * 62) 4 = 0) && decide (fld x (8 * 62 + 4) 4 ≤ 1) && decide (dn x 63 1 = 0)
        | k => decide (dn x 62 1 = 0) && decide (dn x 63 1 ≤ 1) && (decide (k ≠ 0x48) || decide (solNrhs x ≤ 1)))

/-- Fields that the slot's schedule decides: NRHS, the kind of problem, METHOD 1. -/
def solFields (x : Desc) (b : List Byte) : Bool :=
  (if dKind x = 0x48 then decide (imPkind b = 3) else decide (solNrhs x ≤ imRhsMax b))
    && (decide (dKind x ≠ 0x45) || decide (dn x 62 1 ≠ 1) || decide (imPkind b = 0))

/-- Whether every address of a solve is acceptable (R252). -/
def State.solAddrs (s : State) (d : DieIx) (x : Desc) (b : List Byte) : Bool :=
  (solInputs x b).all (fun p => s.rowsDecode d p.1 0 1 p.2)
    && (solOutputs x b).all (fun p => s.cruWritable d (dJob x) p.1 p.2.1 p.2.2)
    && !anyOverlap ((solOutputs x b).map (fun p => (p.1, p.2.1)))
    && (solOutputs x b).all (fun o => (solInputs x b).all (fun i => !overlaps o.1.toNat o.2.1 i.1.toNat i.2))

def solService (x : Desc) (b : List Byte) : Bool :=
  (solInputs x b).any (fun p => rowsService p.1 0 1 p.2) || (solOutputs x b).any (fun p => rowsService p.1 0 1 p.2.1)

/-! ### Warm starts (R241) -/

/-- Why a warm-start record is rejected, 0 when it is accepted. -/
def warmReason (kind : Nat) (b : List Byte) (finger : List Byte) (nrhs : Nat) (w : List Byte × List Bool) : Nat :=
  let n := imN1 b
  let neg := fun (i : Nat) => let v := f64 (BitVec.ofNat 64 (imn w.1 (64 + 8 * i) 8)); decide (v.cmp (.fin false 0 0) ≠ 1)
  if w.2.any id then 4
  else if w.1.take 16 ≠ finger then 1
  else if imn w.1 22 1 ≠ (if kind = 0x48 then 2 else 0) then 2
  else if imn w.1 16 4 ≠ solLen kind b ∨ imn w.1 20 2 ≠ nrhs then 3
  else if kind = 0x48 ∧ ((List.range n).any neg || (List.range n).any (fun i => neg (imN b + i))) then 5
  else 0

/-! ### Free numeric values -/

/-- A vector whose components the manual does not state bit by bit: its number, and the state after. -/
def State.newVector (s : State) : Nat × State := (s.draws + 1, s.drawFree)

/-- A 64-bit value on its own. -/
def State.newValue (s : State) : DWord × State := (Config.solverValue s.draws 0, s.drawFree)

/-! ### Iterates (R235) -/

/-- Forget the best iterate of a column only for a smaller or equal ω. -/
def betterIter : List (List Nat × DWord) → List (List Nat × DWord) → List (List Nat × DWord)
  | b :: bs, w :: ws => (if (f64 w.2).cmp (f64 b.2) = -1 ∨ (f64 w.2).cmp (f64 b.2) = 0 then w else b) :: betterIter bs ws
  | [], ws => ws
  | bs, [] => bs

/-- Take an iterate: the ω of each of its columns against the current values, and the best iterate. -/
def State.iterate (s : State) (kind : Nat) (c : CruSlot) (u : CruRun) (xs : List Nat) : CruRun × State :=
  let b := c.image
  let n := imN b
  let v := s.readValues c
  let cols := (List.range u.nrhs).map (fun j =>
    let x := vecColumn n j xs
    (x, BitVec.ofNat 64 (columnError (sumNo s.draws j) b v.1 (decide (kind = 0x46)) u.opnorm.toNat (vecColumn n j u.rhs) x).1))
  ({ u with best := if u.first then betterIter u.best cols else cols, cur := xs, last := cols.map (fun p => p.2), first := true
            valBad := u.valBad || v.2.1 }, v.2.2.drawFree)

/-- Whether every column has reached 2^−RTOL_EXP. -/
def converged (u : CruRun) : Bool :=
  u.last.all (fun w => decide ((f64 w).cmp (pow2 (-(u.rtol : Int))) = -1) || decide ((f64 w).cmp (pow2 (-(u.rtol : Int))) = 0))

/-- Whether an iteration has left no column's ω below half its previous value. -/
def stagnated (old new : List DWord) : Bool :=
  (List.zipWith (fun a b => decide ((f64 b).cmp ((f64 a).scale (-1)) ≠ -1)) old new).all id

/-- Strokes since a solve started (R44). -/
def State.cruElapsed (s : State) (d : DieIx) (u : CruRun) : Nat := ((s.stroke d).toNat + 2 ^ 40 - u.start.toNat) % 2 ^ 40

/-- The closing classes begin (R242). -/
def closeWith (kind : Nat) (out : Nat) (u : CruRun) : CruRun :=
  { u with closing := true, outcome := some (BitVec.ofNat 8 out), classes := if kind = 0x46 then [6, 5] else [5] }

/-- After an iterate: stop, or run the next iteration (R235, R242, R243). -/
def State.decideNext (s : State) (d : DieIx) (kind : Nat) (b : List Byte) (old : List DWord) (u : CruRun) : CruRun × State :=
  let c := u.classes.headD 3
  let plan := if c = 4 then imn b 68 2 else imn b 62 2
  let begins := s.cruElapsed d u + (if u.ready.isSome then 1 else 0)
  if converged u then (closeWith kind 0 u, s)
  else if u.iters ≥ u.iterMax then (closeWith kind 1 u, s)
  else if u.iters ≠ 0 ∧ stagnated old u.last then (closeWith kind 2 u, s)
  else if begins + plan > u.cutoff then
    ({ closeWith kind 3 u with stats := u.stats ++ [stDeadline] }, s.addSat d rCruEvent 16 16 1)
  else (u, s)

/-! ### Ends of classes (R234, R235, R246, R247) -/

/-- The current values as a command of a kind uses them: an interior-point step shifts the leading block (R247). -/
def solValues (kind : Nat) (c : CruSlot) (u : CruRun) (vals : List Nat) : List Nat :=
  if kind = 0x48 then shiftValues c.image vals u.ipm.start else vals

/-- Class 0: ‖A‖∞ of the current values (R234), and for ADJOINT the norm of Aᵀ, which takes A's place in ω (R245). -/
def State.classNorm (s : State) (kind : Nat) (c : CruSlot) (u : CruRun) : CruRun × State :=
  let v := s.readValues c
  let vals := solValues kind c u v.1
  let norm : DWord := BitVec.ofNat 64 (matNorm (sumNo s.draws 0) c.image vals false)
  let op : DWord := if kind = 0x46 ∧ imPkind c.image = 2 then BitVec.ofNat 64 (matNorm (sumNo s.draws 1) c.image vals true) else norm
  ({ u with anorm := norm, opnorm := op, valBad := u.valBad || v.2.1 }, v.2.2.drawFree)

/-- A factorisation of the current values completes (R224, R234): pivots below τ·‖A‖ are replaced and counted, the first 64 of them
logged, poisoned where a value was (R314). The order of the pivots is the schedule's, which the image does not state. -/
def State.factored (s : State) (kind : Nat) (c : CruSlot) (u : CruRun) : CruRun × State :=
  let k := u.slot
  let b := c.image
  let v := s.readValues c
  let bad := v.2.1 || u.poison
  let e := factorise (sumNo s.draws 0) b (solValues kind c u v.1) (op64 .mul (imn b 48 8) u.anorm.toNat)
    (pivotOrder s.draws (imN b) (List.range (imN b))) bad
  let hit := e.pivots.filter (fun p => p.2.2)
  let nreg := min hit.length 0xFFFFFFFF
  let log := (hit.take 64).flatMap (fun p => leBytes 4 p.1 ++ leBytes 4 0 ++ leBytes 8 p.2.1)
  let s1 := (cruDies c.mask).foldl (fun t e =>
    let t1 := (t.storeWrite e c 0x1000 log bad).setReg e (rCruSlot k 3) (BitVec.ofNat 32 nreg)
    (t1.setReg e (rCruSlot k 2) (t1.reg e (rCruSlot k 1))).modReg e (rCruSlot k 0) (fun r => setBit (setFld r 30 2 3) 27 false)) v.2.2.drawFree
  ({ u with nreg := nreg, stats := u.stats ++ (if nreg = 0 then [] else [stPivot]), valBad := u.valBad || v.2.1 },
    s1.setSlot k { c with fac := e.fac })

/-- The factors as a running solve uses them; poison that entered them reaches it (R314). -/
def State.factorsOf (s : State) (d : DieIx) (u : CruRun) : Factors :=
  match s.cruSlot d u.slot with
  | some c => c.fac
  | none => Factors.none

/-- Class 2 of a solve: x₀ by substitution with the factors, transposed for ADJOINT (R235, R245). -/
def State.substituted (s : State) (d : DieIx) (kind : Nat) (c : CruSlot) (u : CruRun) : CruRun × State :=
  let f := s.factorsOf d u
  let xs := (List.range u.nrhs).flatMap (fun j =>
    f.solve (sumNo s.draws j) (decide (kind = 0x46)) (vecColumn (imN c.image) j u.rhs))
  s.drawFree.iterate kind c { u with poison := u.poison || f.bad } xs

/-- One iteration of a column: class 3 adds the correction that the factors give for the residual (R235), class 4 goes on with conjugate
gradients or GMRES (R240). -/
def iterateColumn (n : Nat) (b : List Byte) (vals : List Nat) (f : Factors) (trans : Bool) (cls method : Nat) (rhs x : List Nat)
    (k : Krylov) : List Nat × Krylov :=
  if cls = 4 then
    let p : KryCtx := ⟨fun m v => matTimes m b vals false v, fun m v => f.solve m false v, rhs⟩
    if method = 1 then cgStep n p x k else gmresStep n (decide (Config.sumPick n 0 % 2 = 1)) p x k
  else (List.zipWith (op64 .add) x (f.solve (sumNo n 1) trans (residual (sumNo n 0) b vals trans rhs x)), k)

/-- An iteration of class 3 or 4 on every column. -/
def State.iterated (s : State) (d : DieIx) (kind method : Nat) (c : CruSlot) (u : CruRun) : CruRun × State :=
  let f := s.factorsOf d u
  let n := imN c.image
  let v := s.readValues c
  let cols := (List.range u.nrhs).map (fun j =>
    iterateColumn (sumNo s.draws j) c.image v.1 f (decide (kind = 0x46)) (u.classes.headD 3) method (vecColumn n j u.rhs) (vecColumn n j u.cur)
      (u.krylov.getD j Krylov.none))
  v.2.2.drawFree.iterate kind c { u with poison := u.poison || f.bad, krylov := cols.map (fun p => p.2) } (cols.flatMap (fun p => p.1))

/-- The columns of λ that ADJOINT returns. -/
def lambdas (u : CruRun) (n : Nat) : List (List Nat) :=
  (List.range u.nrhs).map (fun j =>
    if u.outcome = some 4 then vecColumn n j (u.fallback.getD []) else (u.best.getD j ([], 0)).1)

/-- Class 6: the value gradient, poisoned where λ or x is (R245, R246); SATURATED where it does not fit (R252). -/
def State.gradient (s : State) (d : DieIx) (r : Running) (c : CruSlot) (u : CruRun) : Running × State :=
  let b := c.image
  let n := imN b
  let x := (List.range u.nrhs).map (fun j => vecColumn n j u.fwd)
  let g := gradBytes64 (gradFmt r.desc) ((List.range (imNnz b)).map (gradOf s.draws b (lambdas u n) x))
  let bad := u.poison || u.valBad || u.badCols.any id || u.fwdBad.any id
  let a := dAddr r.desc 40
  let marks := List.replicate g.1.length bad
  let sat := !bad && (bitAt g.2 0 || s.bucketSats (dJob r.desc) a g.1 marks)
  ({ r with flags := r.flags ||| g.2, stats := r.stats ++ (if sat then [stSaturated] else []) }, (s.drawFree).put d .cru r a g.1 marks)

/-- Class 7 of an interior-point step (R247), which the classes still to run tell apart: first r_p, r_d and μ, then σ from the μ that the
predictor's full step would reach, at last the step lengths and the new iterate. -/
def State.ipmClass (s : State) (c : CruSlot) (u : CruRun) (left : Nat) : CruRun × State :=
  let b := c.image
  let p := u.ipm
  let n := s.draws
  if left = 7 then
    let v := s.readValues c
    ({ u with ipm := { p with rp := ipmPrimal (sumNo n 0) b v.1 u.rhs p.start, rd := ipmDual (sumNo n 1) b v.1 u.rhs p.start
                              mu := ipmMu (sumNo n 2) b p.start }
              valBad := u.valBad || v.2.1 }, v.2.2.drawFree)
  else if left = 3 then
    let aff := ipmMove b p.start p.dir (stepOf64 one64 (ipmX b p.start) (ipmX b p.dir)) (stepOf64 one64 (ipmZ b p.start) (ipmZ b p.dir))
    ({ u with ipm := { p with sigma := sigmaOf (ipmMu (sumNo n 0) b aff) p.mu } }, s.drawFree)
  else
    let ap := stepLength (ipmX b p.start) (ipmX b p.dir)
    let ad := stepLength (ipmZ b p.start) (ipmZ b p.dir)
    let next := ipmMove b p.start p.dir ap ad
    ({ u with ipm := { p with alphaP := ap, alphaD := ad }, best := [(next, 0)], cur := next, first := true, closing := true }, s)

/-- Class 2 of an interior-point step (R247): the predictor's direction, then the corrector's with the same factors. -/
def State.ipmSolve (s : State) (d : DieIx) (c : CruSlot) (u : CruRun) (left : Nat) : CruRun × State :=
  let b := c.image
  let p := u.ipm
  let f := s.factorsOf d u
  let rc := if left = 4 then ipmPredictor b p.start else ipmCorrector b p.start p.dir p.sigma p.mu
  let rhs := ipmSystem b p.start p.rp p.rd rc
  let sol := f.solve (sumNo s.draws 0) false rhs
  ({ u with ipm := { p with rhs := rhs, sol := sol, dir := ipmDirection b p.start sol rc }, poison := u.poison || f.bad }, s.drawFree)

/-- Column c of what a solve returns: the fallback, or the column's best iterate. -/
def retColumn (u : CruRun) (len c : Nat) : List Nat :=
  if u.outcome = some 4 then vecColumn len c (u.fallback.getD []) else (u.best.getD c ([], 0)).1

/-- The residuals that class 5 compares for an interior-point step: those of the corrector's solve, or r_d and r_p of a fallback (R237, R247). -/
def ipmResidual (n : Nat) (c : CruSlot) (u : CruRun) (vals : List Nat) : List Nat :=
  if u.outcome = some 4 then
    let it := retColumn u (solLen 0x48 c.image) 0
    ipmDual (sumNo n 0) c.image vals u.rhs it ++ ipmPrimal (sumNo n 1) c.image vals u.rhs it
  else residual (sumNo n 2) c.image (solValues 0x48 c u vals) false u.ipm.rhs u.ipm.sol

/-- Class 5: what the result block says of the returned columns, from the current values (R237, R238, R248), with the residuals themselves and
those that the array formed for the same iterates, or a second evaluation where it formed none (R435). -/
def State.checked (s : State) (kind : Nat) (c : CruSlot) (u : CruRun) : CruRun × State :=
  let b := c.image
  let v := s.readValues c
  let n := s.draws
  if kind = 0x48 then
    let it := retColumn u (solLen kind b) 0
    let back := decide (u.outcome = some 4)
    let cols := [normInf (ipmPrimal (sumNo n 0) b v.1 u.rhs it), normInf (ipmDual (sumNo n 1) b v.1 u.rhs it), ipmMu (sumNo n 2) b it,
      if back then 0 else u.ipm.alphaP, if back then 0 else u.ipm.alphaD]
    ({ u with cols := bytes64 cols, valBad := u.valBad || v.2.1, res5 := [ipmResidual (sumNo n 3) c u v.1]
              res3 := [ipmResidual (sumNo n 4) c u v.1] }, v.2.2.drawFree)
  else
    let trans := decide (kind = 0x46)
    let one := fun (k j : Nat) => residual (sumNo (sumNo n k) j) b v.1 trans (vecColumn (imN b) j u.rhs) (retColumn u (imN b) j)
    let five := (List.range u.nrhs).map (one 5)
    let cols := five.zipIdx.flatMap (fun p =>
      let rn := normInf p.1
      [backward u.opnorm.toNat (normInf (retColumn u (imN b) p.2)) (normInf (vecColumn (imN b) p.2 u.rhs)) rn, rn])
    ({ u with cols := bytes64 cols, valBad := u.valBad || v.2.1, res5 := five, res3 := (List.range u.nrhs).map (one 3) }, v.2.2.drawFree)

/-- What the residual check finds (R237, R435): how many columns fail, and the largest deviation with its tolerance. `faults` are added to the
residuals that class 5 compares with. -/
def checkResiduals (kind : Nat) (c : CruSlot) (u : CruRun) (faults : List Deviation) : Nat × Fpv × Fpv :=
  let b := c.image
  let n := imN b
  let rows := (List.range n).map (fun i => (matRow b [] (decide (kind = 0x46)) i).length)
  let ipm := decide (kind = 0x48)
  let fell := decide (u.outcome = some 4)
  u.res5.zipIdx.foldl (fun a p =>
    let rhs := if ipm then (if fell then u.rhs else u.ipm.rhs) else vecColumn n p.2 u.rhs
    let x := if ipm then (if fell then retColumn u (solLen kind b) 0 else u.ipm.sol) else retColumn u n p.2
    let three := ((u.res3.getD p.2 []).zipIdx).map (fun q =>
      (faults.filter (fun f => decide (f.col = p.2 ∧ f.row = q.2))).foldl (fun v f => op64 .add v f.value.toNat) q.1)
    let o := checkColumn rows u.opnorm.toNat (normInf x) rhs p.1 three a.2
    (a.1 + (if o.1 then 1 else 0), o.2)) (0, .fin false 0 0, .fin false 1 0)

/-- What the end of a class does; the head of `classes` is the class that ends. -/
def State.endClass (s : State) (d : DieIx) (r : Running) (c : CruSlot) (u : CruRun) : CruRun × Running × State :=
  let kind := dKind r.desc
  let b := c.image
  let next := { u with classes := u.classes.drop 1 }
  match u.classes with
  | 0 :: _ => let o := s.classNorm kind c next; (o.1, r, o.2)
  | 1 :: _ => let o := s.factored kind c next; (o.1, r, o.2)
  | 2 :: rest =>
    if kind = 0x48 then let o := s.ipmSolve d c next rest.length; (o.1, r, o.2)
    else
      let o := s.substituted d kind c next
      let p := o.2.decideNext d kind b [] o.1
      (p.1, r, p.2)
  | 6 :: _ => let o := s.gradient d r c u; (next, o.1, o.2)
  | 7 :: rest => let o := s.ipmClass c next rest.length; (o.1, r, o.2)
  | 5 :: _ => let o := s.checked kind c next; ({ o.1 with done := true }, r, o.2)
  | _ :: _ =>
    -- classes 3 and 4: one iteration is over
    let o := s.iterated d kind (dn r.desc 62 1) c { u with iters := u.iters + 1 }
    let p := o.2.decideNext d kind b u.last o.1
    (p.1, r, p.2)
  | [] => (u, r, s)

/-- A new class begins: a factorisation clears the pivot log first (R234). -/
def State.beginClass (s : State) (c : CruSlot) (u : CruRun) : State :=
  if u.classes.headD 9 = 1 then (cruDies c.mask).foldl (fun t e => t.storeWrite e c 0x1000 (List.replicate 1024 0) false) s else s

/-- Go on until a class has a phase to run; a class without phases ends at once. -/
def State.cruAdvance (d : DieIx) (c : CruSlot) : Nat → CruRun → Running → State → CruRun × Running × State
  | 0, u, r, s => (u, r, s)
  | n + 1, u, r, s =>
    if u.done ∨ !u.todo.isEmpty ∨ u.phase.isSome then (u, r, s)
    else
      let e := s.endClass d r c u
      let v := { e.1 with todo := if e.1.done then [] else imClass c.image (e.1.classes.headD 9) }
      State.cruAdvance d c n v e.2.1 (e.2.2.beginClass c v)

def State.setSolve (s : State) (d : DieIx) (u : CruRun) : State := s.modDie d (fun x => { x with solve := some u })

/-- Keep a solve's progress after it has advanced. -/
def State.cruStore (s : State) (d : DieIx) (c : CruSlot) (u : CruRun) (r : Running) : State :=
  let o := State.cruAdvance d c (u.iterMax + 16) u r s
  (o.2.2.setRunning d .cru o.2.1).setSolve d o.1

/-! ### Starting a solve (R241, R242) -/

/-- The columns that REFINE starts from (R240): the accepted warm start, the retained solution, or zero. -/
def refineBase (c : CruSlot) (nrhs : Nat) (warm : Option (List Nat)) : List Nat :=
  match warm with
  | some w => w
  | none => if c.solRhs = nrhs then words64 c.sol else List.replicate (imN c.image * nrhs) 0

/-- Which columns of a right-hand side are poisoned. -/
def badColumns (n nrhs : Nat) (ps : List Bool) : List Bool := (List.range nrhs).map (fun c => anyAt ps (8 * n * c) (8 * n))

def State.solveBegin (s : State) (d : DieIx) (r : Running) (c : CruSlot) (l : List (List Byte × List Bool)) : State :=
  let x := r.desc
  let kind := dKind x
  let b := c.image
  let nrhs := solNrhs x
  let rhs := l.headD ([], [])
  let warmRec := if kind ≠ 0x46 ∧ bitAt x (8 * 63) then some (l.getD 1 ([], [])) else none
  let why := match warmRec with
    | some w => warmReason kind b (imFinger b) nrhs w
    | none => 0
  let warm := match warmRec with
    | some w => if why = 0 then some (words64 (w.1.drop 64)) else none
    | none => none
  let s1 := if why = 0 then s else (s.addSat d rCruEvent 0 16 1).logEvent d 0x0402 stWarm why
  let skip := if kind = 0x46 then 64 else 0
  let xf := if kind = 0x46 then l.getD 1 ([], []) else ([], [])
  let method := if kind = 0x45 then dn x 62 1 else 0
  let u : CruRun :=
    { ident := r.ident, slot := cruSlotOf x, mask := c.mask, gens := (cruDies c.mask).map (fun e => s.dieGen e), start := r.started
      deadline := s.solDeadline d x, cutoff := s.solDeadline d x - solGuard kind b, nrhs := nrhs, rtol := dn x 59 1
      iterMax := if method = 0 then imn b 9 1 else imn b 70 2, classes := solClasses kind method, todo := [], phase := none
      began := r.started, tasks := [], frames := 0, ready := none, closing := false, done := false, iters := 0, best := [], cur := [], last := []
      first := false, outcome := none, fallback := none, warm := warm, anorm := 0, nreg := 0, poison := false
      badCols := badColumns (imN b) nrhs (rhs.2.drop skip), stats := if why = 0 then [] else [stWarm], stop := false, fences := []
      rhs := words64 (rhs.1.drop skip), fwd := words64 (xf.1.drop 64)
      fwdBad := if (xf.2.take 64).any id then [true] else badColumns (imN b) nrhs (xf.2.drop 64)
      valBad := false, ipm := ⟨warm.getD (ipmCold b), [], [], [], [], [], 0, 0, 0, 0⟩, cols := []
      opnorm := 0, krylov := [], res3 := [], res5 := [] }
  -- ‖A‖ enters every ω; class 0 forms it in the kinds that factor
  let o := (s1.dropReads d .cru r).classNorm kind c u
  if kind = 0x45 then
    -- x₀ is an iterate; its ω decides whether an iteration is needed
    let x0 := refineBase c nrhs warm
    let v := o.2.iterate kind c { o.1 with fallback := some x0 } x0
    let p := v.2.decideNext d kind b [] v.1
    p.2.cruStore d c { p.1 with todo := imClass b (p.1.classes.headD 9) } r
  else
    let v := { o.1 with todo := imClass b (o.1.classes.headD 9) }
    (o.2.beginClass c v).cruStore d c v r

/-- Whether the forward solution of ADJOINT matches (R245). -/
def State.forwardOk (s : State) (d : DieIx) (x : Desc) (b : List Byte) (h : List Byte) : Bool :=
  decide (imn h 22 1 = 0) && (h.take 16 == imFinger b) && decide (imn h 24 4 = s.vgen d (cruSlotOf x)) && decide (imn h 20 2 = solNrhs x)

def State.solveStart (s : State) (d : DieIx) (r : Running) : State :=
  let x := r.desc
  let kind := dKind x
  let st := s.slotState d (cruSlotOf x)
  if !solShape x then s.stopEarly d .cru r stFormat
  -- a no-op consults no slot and no fence (R11)
  else if solNrhs x = 0 then s.finish d .cru r ⟨[], 0, hallEmpty, 0⟩
  else
  match s.slotFor d x with
  | none => s.stopEarly d .cru r stFormat
  | some c =>
    let b := c.image
    if !solFields x b ∨ ((kind = 0x44 ∨ kind = 0x45 ∨ kind = 0x46) ∧ st ≠ 3) ∨ s.solDeadline d x ≤ solGuard kind b then
      s.stopEarly d .cru r stFormat
    else if solService x b then (s.countService true).stopEarly d .cru r stFormat
    else if !s.solAddrs d x b then s.stopEarly d .cru r stFormat
    else if s.schedFenced b ∨ s.cruHeld c.mask then s.stopEarly d .cru r stFenced
    else if !s.cruServes c.mask then s
    else
      let reads := if kind = 0x46 then [(dAddr x 24, recBytes kind b (solNrhs x)), (dAddr x 32, recBytes kind b (solNrhs x))]
        else solInputs x b
      match s.fetchAll d .cru r reads with
      | .stop e => s.stopEarly d .cru r e
      | .wait t => t
      | .data l t =>
        let xf := l.getD 1 ([], [])
        if kind = 0x46 ∧ !(xf.2.take 64).any id ∧ !t.forwardOk d x b xf.1 then t.stopEarly d .cru r stFormat
        else t.solveBegin d r c l

/-! ### Results (R238, R239, R243, R248) -/

/-- Whether the columns of a solve, or only one of them, are fed by poison (R314). -/
def colBad (u : CruRun) (j : Nat) : Bool := u.poison || u.valBad || u.badCols.getD j false

def CruRun.poisoned (u : CruRun) : Bool := u.poison || u.valBad || u.badCols.any id || u.fwdBad.any id

/-- A solution record (R239). -/
def State.solRecord (s : State) (d : DieIx) (r : Running) (c : CruSlot) (u : CruRun) (failed : Bool) : List Byte × List Bool :=
  let kind := dKind r.desc
  let len := solLen kind c.image
  let content := if kind = 0x46 then 1 else if kind = 0x48 then 2 else 0
  let head := imFinger c.image ++ leBytes 4 len ++ leBytes 2 u.nrhs ++ leBytes 1 content ++ leBytes 1 0
    ++ leBytes 4 (s.vgen d u.slot) ++ leBytes 4 (dStep r.desc) ++ leBytes 8 (s.stamp d).toNat ++ leBytes 24 0
  let marks := (List.range u.nrhs).flatMap (fun j => List.replicate (8 * len) (failed || colBad u j))
  (head ++ (List.range u.nrhs).flatMap (fun j => bytes64 (retColumn u len j)), List.replicate 64 failed ++ marks)

/-- The result block (R238, R248) and its poison: ‖A‖ is fed by the values, each column by what feeds it (R314). Of a solve that ends before
class 5 for another reason than its cutoff the manual states no columns: those bytes are free. -/
def State.solResult (s : State) (d : DieIx) (r : Running) (c : CruSlot) (u : CruRun) (out : Nat) : List Byte × List Bool :=
  let kind := dKind r.desc
  let fresh := decide (s.slotState d u.slot = 3) && !bitAt (s.reg d (rCruSlot u.slot 0)) 27
  let n := if kind = 0x48 then 40 else 16 * u.nrhs
  let cols := if out = 5 then leBytes n 0 else if u.cols = [] then (bytes64 (freeVec s.draws n)).take n else u.cols
  let marks := if out = 5 then List.replicate n false
    else if kind = 0x48 then List.replicate n (colBad u 0) else (List.range u.nrhs).flatMap (fun j => List.replicate 16 (colBad u j))
  (imFinger c.image ++ leBytes 4 (s.vgen d u.slot) ++ leBytes 4 u.iters ++ leBytes 4 u.nreg ++ leBytes 4 (s.cruElapsed d u + 1)
    ++ leBytes 8 u.anorm.toNat ++ leBytes 2 u.nrhs ++ leBytes 1 out ++ leBytes 1 ((if fresh then 1 else 0) + (if u.warm.isSome then 2 else 0))
    ++ leBytes 20 0 ++ cols,
   List.replicate 32 false ++ List.replicate 8 u.valBad ++ List.replicate 24 false ++ marks)

def solDetail (out strokes : Nat) : Word := BitVec.ofNat 32 (out * 2 ^ 24 + min strokes 0xFFFFFF)

/-- Keep the retained solution (R239); how its copy lies in the stores is not stated, so those bytes are free. -/
def State.retain (s : State) (u : CruRun) (c : CruSlot) (cols : List Byte) : State :=
  let v := s.newVector
  let t := v.2.setSlot u.slot { c with solRhs := u.nrhs, sol := cols }
  (cruDies c.mask).foldl (fun a e =>
    let off := imn c.image (imn c.image 120 8 + 64 * e.val + 16) 8
    (a.storeWrite e c off ((bytes64 (freeVec v.1 cols.length)).take cols.length) false).modReg e (rCruSlot u.slot 0)
      (fun w => setBit w 28 true)) t

/-- A factorisation that does not complete leaves the slot VALUED (R244, R253). DESIGN CHOICE (log 79): so does a command that factors and
ends before its class 1 has completed, also where no phase of it had begun: the factors are dropped with it. -/
def State.cruInterrupt (s : State) (kind : Nat) (u : CruRun) : State :=
  if (kind = 0x43 ∨ kind = 0x48) ∧ u.classes.contains 1 then s.interruptSlot u.mask u.slot else s

/-- Fence the arrays that a reissue found faulty (R439). -/
def State.cruFences (s : State) (l : List (Nat × Nat)) : State :=
  l.foldl (fun t p => t.resetToFence (dieIx p.1) (.engine (coreIx p.2) 0)) s

/-- The end of a solve without a solution: NO_ITERATE at the cutoff, or an array hallmark that no reissue cleared; the result
block is written. -/
def State.solveNone (s : State) (d : DieIx) (r : Running) (c : CruSlot) (u : CruRun) (out st : Nat) (hall : Word) : State :=
  let res := s.solResult d r c u out
  let t := ((s.drawFree.cruInterrupt (dKind r.desc) u).put d .cru r (dAddr r.desc 48) res.1 res.2).cruFences u.fences
  t.settle d .cru { r with stats := r.stats ++ u.stats ++ (if u.poisoned then [stPoison] else []) ++ [st], hall := hall, detail := solDetail out (s.cruElapsed d u + 1) }

/-- After a residual mismatch the vector units of the CORE_MASK cores run their assay units first (R237, R438). -/
def State.testCores (s : State) (c : CruSlot) : State :=
  (cruDies c.mask).foldl (fun t e => t.testFirst e ((coresIn (imCores c.image e.val)).map .vector)) s

/-- The end of a solve: the residual check (R237, R435), outputs, the retained solution. DESIGN CHOICE (log 80): an interior-point step that
ends without a cutoff decides no convergence (R248) and none of the codes 0 to 5 of OUTCOME names such an end, so OUTCOME is a free byte. -/
def State.solveEnd (s : State) (d : DieIx) (r : Running) (c : CruSlot) (u : CruRun) (faults : List Deviation) : State :=
  let kind := dKind r.desc
  let check := checkResiduals kind c u faults
  let fails := check.1
  let bad := decide (fails ≠ 0)
  let free := fld s.free 8 8
  let s0 := s.drawFree
  let out := match u.outcome with
    | some v => v.toNat
    | none => free
  let word := hallWord 3 bad (if bad then min u.iters 255 else 0) (devBounded check.2.1 check.2.2) fails
  let sol := s0.solRecord d r c u bad
  let res := s0.solResult d r c u out
  let s1 := s0.drawFree
  let s2 := if bad then (s1.quarantine d 63 (s1.endpoint d 63) r.desc word none 0).testCores c else s1
  let s3 := (s2.put d .cru r (if kind = 0x46 then dAddr r.desc 24 else dAddr r.desc 32) sol.1 sol.2).put d .cru r (dAddr r.desc 48) res.1 res.2
  let s4 := if kind ≤ 0x45 ∧ out ≤ 3 ∧ !bad ∧ !u.poisoned then s3.retain u c (sol.1.drop 64) else s3
  let late := s.cruElapsed d u + 1 - u.deadline
  let s5 := if late = 0 then s4 else s4.logEvent d 0x0401 0 late
  (s5.cruFences u.fences).settle d .cru
    { r with stats := r.stats ++ u.stats ++ (if bad then [stHallmark] else []) ++ (if u.poisoned then [stPoison] else [])
             hall := word, detail := solDetail out (s.cruElapsed d u + 1) }

/-- One solve kind: it starts, or ends when its last class has. -/
def State.solveRun (s : State) (d : DieIx) (faults : List Deviation) (r : Running) : State :=
  match (s.die d).solve with
  | none => s.solveStart d r
  | some u =>
    match s.cruSlot d u.slot with
    | none => s
    | some c => if u.done ∧ u.ident = r.ident then s.solveEnd d r c u faults else s

/-- FACTOR_SOLVE (R234, R235). -/
def execFactorSolve (d : DieIx) (faults : List Deviation) (s : State) : Host.Outcome State Fault Refusal :=
  onDie d s (fun t => withCru t d 0x43 (t.solveRun d faults))

/-- SOLVE (R236). -/
def execSolve (d : DieIx) (faults : List Deviation) (s : State) : Host.Outcome State Fault Refusal :=
  onDie d s (fun t => withCru t d 0x44 (t.solveRun d faults))

/-- REFINE (R240). -/
def execRefine (d : DieIx) (faults : List Deviation) (s : State) : Host.Outcome State Fault Refusal :=
  onDie d s (fun t => withCru t d 0x45 (t.solveRun d faults))

/-- ADJOINT (R245, R246). -/
def execAdjoint (d : DieIx) (faults : List Deviation) (s : State) : Host.Outcome State Fault Refusal :=
  onDie d s (fun t => withCru t d 0x46 (t.solveRun d faults))

/-- IPM_STEP (R247, R248). -/
def execIpmStep (d : DieIx) (faults : List Deviation) (s : State) : Host.Outcome State Fault Refusal :=
  onDie d s (fun t => withCru t d 0x48 (t.solveRun d faults))

/-! ### Phases and tasks (R229 to R231) -/

/-- The solve that runs on a home die, with its command and slot. -/
def withSolve (s : State) (d : DieIx) (k : Running → CruSlot → CruRun → State) : State :=
  match (s.die d).solve with
  | none => s
  | some u =>
    match (s.queue d .cru).running.find? (fun r => decide (r.ident = u.ident)), s.cruSlot d u.slot with
    | some r, some c => if r.acking then s else k r c u
    | _, _ => s

/-- Whether commands still run on claimed cores (R223). -/
def State.claimsBusy (s : State) (c : CruSlot) : Bool :=
  (cruDies c.mask).any (fun e => (coresIn (imCores c.image e.val)).any (fun k => !((s.core e k).queue.running.isEmpty)))

/-- Whether something keeps the next phase from beginning now: the last phase completed in this stroke, commands that were
running on claimed cores, or the cutoff. -/
def State.phaseHeld (s : State) (d : DieIx) (c : CruSlot) (u : CruRun) : Bool :=
  decide (u.ready = some (s.stroke d)) || s.claimsBusy c || (!u.closing && decide (s.cruElapsed d u ≥ u.cutoff)) || u.stop

/-- A die of the mask that has no task of the phase left tells the home die so (R230), under the job's epoch and attempt there. -/
def State.sendPhaseDone (s : State) (d e : DieIx) (c : CruSlot) (slot phase : Nat) : State :=
  s.sendMsg e (s.mkMsg e 0x38 (s.endpoint d 63) c.job (match s.colCtx e c.job with
    | some k => s.colEpoch e k
    | none => 0) (s.attemptOf e c.job) 0 (leBytes 2 slot ++ leBytes 2 0 ++ leBytes 4 phase) [])

def State.phaseBegin (s : State) (d : DieIx) (r : Running) (c : CruSlot) (u : CruRun) : State :=
  match u.todo with
  | [] => s
  | i :: rest =>
    if u.phase.isSome ∨ u.done ∨ s.phaseHeld d c u then s
    else
      let p := imPhase c.image i
      let v := { u with todo := rest, phase := some i, began := s.stroke d, tasks := (List.range p.count).map (fun j => p.first + j), frames := c.mask }
      if p.count = 0 then s.cruStore d c { v with phase := none, frames := 0, ready := some (s.stroke d) } r
      else
        let idle := (cruDies u.mask).filter (fun e => !v.tasks.any (fun j => decide ((imTask c.image j).die = e.val)))
        idle.foldl (fun t e => t.sendPhaseDone d e c u.slot i) (s.setSolve d v)

/-- PHASE (R230): the next phase begins. -/
def execPhase (d : DieIx) (s : State) : Host.Outcome State Fault Refusal :=
  onDie d s (fun t => withSolve t d (t.phaseBegin d))

/-- The next core of a die's CORE_MASK (R439). -/
def nextCore (m c : Nat) : Nat :=
  ((((List.range 48).map (fun i => (c + 1 + i) % 48)).find? (fun k => inMask m k)).getD c)

/-- What a task writes: SEND moves its block to the named die, the others form a block whose values are not stated bit by bit;
poison that a task reads reaches what it writes. -/
def State.taskEffect (s : State) (c : CruSlot) (t : TaskRec) : State × Bool :=
  let e := dieIx t.die
  let n := 8 * t.rows * t.cols
  let x := s.memRead ⟨e, c.job, false⟩ e 0 (c.store + t.src) (min n (c.bytes - t.src))
  let bad := x.poison.any id
  if t.op = 6 then
    let off := t.dst % 2 ^ 61
    let m := min x.bytes.length (c.bytes - off)
    let f := dieIx (t.dst / 2 ^ 61)
    (x.state.memWrite ⟨e, c.job, false⟩ f 0 (c.store + off) (x.bytes.take m) (x.poison.take m), bad)
  else
    let v := x.state.newVector
    (v.2.storeWrite e c t.dst (bytes64 (freeVec v.1 (t.rows * t.cols))) bad, bad)

/-- A failing hallmark word of a task instruction: kind 1 or 2, its other fields free. -/
def taskWord (x : DWord) : Word :=
  hallWord (1 + fld x 0 1) true (fld x 1 5 % 28) (fld x 8 8) (1 + fld x 16 7)

/-- The reissues of R439: the snapshot holds the block that the task names as its source, the only operand that its record names, and the
digest of a library entry is a free value (log entry 169); record and class of an instruction that failed its hallmark; `how` 1: the same core's reissue passes, 2: the
next core's, 3: neither. -/
def State.reissue (s : State) (r : Running) (c : CruSlot) (u : CruRun) (t : TaskRec) (how : Nat) : CruRun × State :=
  let e := dieIx t.die
  let x := s.free
  let word := taskWord x
  let o := s.memRead ⟨e, dJob r.desc, true⟩ e 0 (c.store + t.src) (8 * t.rows * t.cols)
  let idx := s.rf e rAsyQstat 16 10
  let s1 := o.state.drawFree.quarantine e t.core (s.endpoint e t.core) r.desc word (some (o.bytes, o.poison)) 8
  let ok := hallWord 1 false 0 devNone 0
  let nb := nextCore (imCores c.image t.die) t.core
  let same := if how = 1 then ok else word
  let entry := libEntry (17 * Fmt.fp64.code) 0 (min t.rows 128) t.cols 128 2 (s.endpoint e t.core) (s.stamp e) (BitVec.ofNat 32 (fld x 24 32)) word o.bytes
  let s2 := if how = 2 then s1.addLibrary e entry else s1
  let s3 := s2.classify e idx ⟨how, same, if how = 1 then 0x3F else nb, if how = 2 then ok else if how = 3 then word else 0, 0xFFFF,
    decide (how = 2) && s1.libNew entry, decide (how = 2)⟩
  let s4 := if how = 3 then s3.testArrays e [t.core, nb] else s3
  ({ u with fences := u.fences ++ (if how = 2 then [(t.die, t.core)] else []) }, s4)

def State.taskDone (s : State) (d : DieIx) (i : Nat) (how : Nat) (r : Running) (c : CruSlot) (u : CruRun) : State :=
  let t := imTask c.image i
  let e := dieIx t.die
  if !u.tasks.contains i ∨ u.stop ∨ !s.hbmServes e ∨ ((s.stroke d).toNat + 2 ^ 40 - u.began.toNat) % 2 ^ 40 < t.off then s
  else
    let sliced := decide (t.op = 1 ∨ t.op = 4) && decide (t.core ≠ 63)
    let q := if sliced ∧ how ≠ 0 then s.reissue r c u t (min how 3) else (u, s)
    let o := q.2.taskEffect c t
    let v := { q.1 with tasks := u.tasks.filter (fun j => j != i), poison := u.poison || o.2 }
    if sliced ∧ how ≥ 3 then
      let w := taskWord s.free
      (o.1.setSolve d v).solveNone d r c v (fld o.1.free 0 8) stHallmark w
    else if v.tasks.any (fun j => decide ((imTask c.image j).die = t.die)) then o.1.setSolve d v
    else (o.1.setSolve d v).sendPhaseDone d e c u.slot (u.phase.getD 0)

/-- CRUCIBLE_TASK (R230): task `i` completes on its die; `how` is 0 when its hallmark passes, and else the outcome of the
reissues. -/
def execCrucibleTask (d : DieIx) (i : Nat) (how : Fin 4) (s : State) : Host.Outcome State Fault Refusal :=
  onDie d s (fun t => withSolve t d (t.taskDone d i how.val))

def State.phaseFrame (s : State) (d : DieIx) (e : DieIx) (r : Running) (c : CruSlot) (u : CruRun) : State :=
  match u.phase with
  | none => s
  | some i =>
    if !inMask u.frames e.val ∨ u.tasks.any (fun j => decide ((imTask c.image j).die = e.val)) then s
    else
      let left := u.frames - 2 ^ e.val
      if left ≠ 0 then s.setSolve d { u with frames := left }
      else
        let used := ((s.stroke d).toNat + 2 ^ 40 - u.began.toNat) % 2 ^ 40 + 1
        let slip := used - (imPhase c.image i).strokes
        let t := if slip = 0 then s else s.addSat d rCruSlip 0 32 slip
        t.cruStore d c { u with frames := 0, phase := none, ready := some (s.stroke d) } r

/-- PHASE_DONE (R230, R231): the completion frame of a die reaches the home die. -/
def execPhaseDone (d : DieIx) (m : Msg) (s : State) : Host.Outcome State Fault Refusal :=
  onDie d s (fun t =>
    if m.mkind ≠ 0x38 then t
    else
      let v := (t.takeMsg d m).wake d
      match v.dropRequest d m with
      | some w => w
      | none => withSolve v d (fun r c u =>
        if leNat (slice m.spec 0 2) = u.slot ∧ u.phase = some (leNat (slice m.spec 4 4)) then v.phaseFrame d (dieIx (m.src.toNat / 64)) r c u else v))

/-! ### The cutoff (R242 to R244) -/

/-- The fallback of a command without a first iterate: the accepted warm start, or the retained solution when its NRHS matches (R243).
A retained solution has no z; an interior-point step returns free values there (log entry 141). -/
def fallbackOf (kind : Nat) (c : CruSlot) (u : CruRun) (z : List Nat) : Option (List Nat) :=
  match u.warm with
  | some w => some w
  | none => if c.solRhs = u.nrhs ∧ u.nrhs ≠ 0 then some (words64 c.sol ++ (if kind = 0x48 then z else [])) else none

/-- Whether a class 6 phase that began before the cutoff stroke is still running there (R242). -/
def State.gradientLate (s : State) (d : DieIx) (u : CruRun) : Bool :=
  decide (u.classes.headD 9 = 6) && (u.phase.isSome || !u.todo.isEmpty)
    && decide ((u.began.toNat + 2 ^ 40 - u.start.toNat) % 2 ^ 40 < u.cutoff) && decide (s.cruElapsed d u = u.cutoff)

def State.cutoff (s : State) (d : DieIx) (r : Running) (c : CruSlot) (u : CruRun) : State :=
  let kind := dKind r.desc
  let resume := fun (w : CruRun) (t : State) =>
    t.cruStore d c { w with phase := none, tasks := [], frames := 0, ready := none, todo := imClass c.image (w.classes.headD 9) } r
  if u.done ∨ s.cruElapsed d u < u.cutoff then s
  else if u.closing then
    -- a gradient that is not complete is abandoned; class 5 follows
    (if s.gradientLate d u then
      resume { u with classes := u.classes.drop 1, stats := u.stats ++ [stDeadline] } (s.addSat d rCruEvent 16 16 1)
     else s)
  else
    let v := (s.addSat d rCruEvent 16 16 1).newVector
    let s1 := v.2.cruInterrupt kind u
    let close := fun (out : Nat) (w : CruRun) => resume (closeWith kind out { w with stats := w.stats ++ [stDeadline] }) s1
    if u.first then close 3 u
    else
      match fallbackOf kind c u (freeVec v.1 (imN1 c.image)) with
      | some f => close 4 { u with fallback := some f }
      | none => s1.solveNone d r c u 5 stNoIterate 0

/-- CUTOFF (R242, R243): the cutoff stroke begins. -/
def execCutoff (d : DieIx) (s : State) : Host.Outcome State Fault Refusal :=
  onDie d s (fun t => withSolve t d (t.cutoff d))

/-! ### Stops at a boundary (R253) -/

/-- A command other than a solve kind stops: a VALUES keeps the entries that it has applied (R253). -/
def State.cutValues (s : State) (d : DieIx) (r : Running) : State :=
  let s1 := match s.slotFor d r.desc with
    | some c => if dKind r.desc = 0x42 ∧ r.rows ≠ 0 then s.valuesCount (cruSlotOf r.desc) c false else s
    | none => s
  s1.stopEarly d .cru { r with detail := BitVec.ofNat 32 (min r.rows 0xFFFFFFFF) } stAborted

/-- A running Crucible command stops with STEP_ABORTED; a solve that only awaits acknowledgements stops too, and one that has not begun
reports no outcome. -/
def State.cruStop (s : State) (d : DieIx) (r : Running) : State :=
  match (s.die d).solve with
  | some u =>
    if u.ident = r.ident then
      let t := (s.drawFree.cruInterrupt (dKind r.desc) u).cruFences u.fences
      t.finish d .cru r ⟨r.stats ++ u.stats ++ [stAborted], r.flags, 0, solDetail (fld s.free 0 8) (s.cruElapsed d u + 1)⟩
    else s.cutValues d r
  | none => s.cutValues d r

/-- Whether a die that a running Crucible command needs has reset since the command started; a fence comes with a reset (R419). -/
def State.cruLost (s : State) (d : DieIx) (r : Running) : Bool :=
  (cruDies (s.cruMask d r.desc)).any (fun e => r.gens[e.val]? != some (s.dieGen e))

/-- At a boundary the running Crucible commands stop whose step was aborted, or whose DIEMASK has lost a die. -/
def State.cruBoundary (s : State) (d : DieIx) : State :=
  (s.queue d .cru).running.foldl (fun t r =>
    if t.cruStopping d r || t.cruLost d r then t.cruStop d r else t) s

end Sys2Proof.Machine
end

