-- ==== Sys2Proof/Machine/Group.lean ====
section
/-! DEFINITION. Job contexts of the reduction and token exchange engines, groups, forwarding trees, messages, acceptance, and scale
tables (R360, R361, R366, R374, R377, R378, R382). -/

namespace Sys2Proof.Machine

/-! ### Members and groups -/

/-- A group table entry (R361): whether a word of it is poisoned, the member list and the own index. -/
structure Group where
  bad : Bool
  members : List Endpoint
  my : Nat
deriving DecidableEq, Repr

/-- The bytes of group entry g of context k, and where its list lies: its place and its members. -/
def State.groupEntry (s : State) (d : DieIx) (k g : Nat) : ReadOut :=
  s.memRead ⟨d, s.colJob d k, false⟩ d 0 (fld (s.reg64 d (rColCtx k 4)) 0 39 + 16 * g) 16

def entryList (b : List Byte) : Nat := leNat (b.take 8)
def entrySize (b : List Byte) : Nat := leNat (slice b 8 4)
def entryMy (b : List Byte) : Nat := leNat (slice b 12 4)

/-- Whether a group entry keeps its list in the service region (R18). -/
def entryInService (b : List Byte) : Bool :=
  let l := locOf (BitVec.ofNat 52 (entryList b))
  inService l.region l.off (4 * entrySize b)

/-- The group entry g of context k, `none` when it is not valid: an empty group, an index or a list out of its range (R361), a list in the
service region (R18), or a member that no message can reach (R23). -/
def State.groupOf (s : State) (d : DieIx) (k g : Nat) : Option Group × State :=
  let a : Access := ⟨d, s.colJob d k, false⟩
  let e := s.groupEntry d k g
  let n := entrySize e.bytes
  let l := locOf (BitVec.ofNat 52 (entryList e.bytes))
  if n = 0 ∨ n > 131072 ∨ entryMy e.bytes ≥ n ∨ entryList e.bytes ≥ 2 ^ 52 ∨ !s.isLocal d (BitVec.ofNat 52 (entryList e.bytes)) ∨ l.region ≠ 0
      ∨ !mapped 0 l.off (4 * n) then (none, e.state)
  else if entryInService e.bytes then (none, e.state.countService true)
  else
    let m := e.state.memRead a d 0 l.off (4 * n)
    let ids := (List.range n).map (fun i => leNat (slice m.bytes (4 * i) 4))
    if ids.any (fun x => decide (x ≥ 2 ^ 23) || decide (x % 64 ≠ 63) || !s.reachableEnd d (BitVec.ofNat 23 x)) then (none, m.state)
    else (some ⟨e.poison.any id || m.poison.any id, ids.map (fun x => BitVec.ofNat 23 x), entryMy e.bytes⟩, m.state)

/-- Rank of a member in a forwarding tree rooted at member r (R366). -/
def treeRank (g r i : Nat) : Nat := (i + g - r % g) % g
def treeIndex (g r rank : Nat) : Nat := (rank + r) % g

/-- Parent of a member, `none` for the root. -/
def treeParent (f g r i : Nat) : Option Nat :=
  let k := treeRank g r i
  if k = 0 then none else some (treeIndex g r ((k - 1) / f))

/-- Children of a member. -/
def treeChildren (f g r i : Nat) : List Nat :=
  let k := treeRank g r i
  (((List.range f).map (fun j => f * k + 1 + j)).filter (fun c => decide (c < g))).map (treeIndex g r)

/-- Whether a stroke with number n has begun on a die (R44). -/
def State.hasBegun (s : State) (d : DieIx) (n : Nat) : Bool := begun (s.stroke d) n

/-- The stroke from which a command's deadlines count (R379). -/
def deadlineBase (r : Running) : Nat := if dRelease r.desc = 0 then r.started.toNat else dRelease r.desc

/-! ### Messages (R382) -/

/-- CRC-32C and sum of words over data. -/
def sumWords (bs : List Byte) : Nat :=
  ((List.range ((bs.length + 3) / 4)).foldl (fun a i => a + leNat (slice bs (4 * i) 4)) 0) % 2 ^ 32
def dataCheck (bs : List Byte) : Nat := (crc32c bs).toNat + 2 ^ 32 * sumWords bs

/-- Bytes 28 to 63 of a collective message. -/
def colSpec (bucket chunk0 count src group check offset : Nat) : List Byte :=
  leBytes 2 bucket ++ leBytes 2 chunk0 ++ leBytes 4 count ++ leBytes 4 src ++ leBytes 1 group ++ leBytes 7 0 ++ leBytes 8 check
    ++ leBytes 8 offset

/-- Send a message of context k. -/
def State.sendCol (s : State) (d : DieIx) (k kind : Nat) (dst : Endpoint) (spec data : List Byte) (marks : DWord) : State :=
  s.sendMsg d
    { stamp := s.stamp d, src := s.endpoint d 63, dst := dst, job := s.colJob d k, epoch := BitVec.ofNat 8 (s.colEpoch d k)
      gen := s.dieGen d, mkind := BitVec.ofNat 8 kind, attempt := BitVec.ofNat 8 (s.rf d (rCmtStat k) 24 8)
      step := BitVec.ofNat 32 (s.stepOf d k), spec := spec, data := data, poison := marks }

/-- Every payload unit marked (R372). -/
def allUnits : DWord := 0xFFFFFFFFFFFFFFFE

def msgBucket (m : Msg) : Nat := msgField m 28 2
def msgChunk0 (m : Msg) : Nat := msgField m 30 2
def msgCount (m : Msg) : Nat := msgField m 32 4
def msgSrcIdx (m : Msg) : Nat := msgField m 36 4
def msgGroup (m : Msg) : Nat := msgField m 40 1 % 16
def msgCheck (m : Msg) : Nat := msgField m 48 8
def msgOffset (m : Msg) : Nat := msgField m 56 8
def msgPoisoned (m : Msg) : Bool := decide (m.poison ≠ 0)

/-- Why an arriving message is dropped (R378): the counter register and its field; `none` when it is accepted. -/
def State.colDrop (s : State) (d : DieIx) (m : Msg) : Option (Nat × Nat) :=
  match s.colCtx d m.job with
  | none => some (rColDrop1, 16)
  | some k =>
    if m.step.toNat ≠ s.stepOf d k ∨ m.attempt.toNat ≠ s.rf d (rCmtStat k) 24 8 then some (rColDrop1, 16)
    else if m.epoch.toNat ≠ s.colEpoch d k then some (rColDrop0, 16)
    else if s.staleMsg d m then some (rColDrop0, 0)
    else none

def State.countLate (s : State) (d : DieIx) : State := s.addSat d rColDrop1 0 16 1
def State.countAttempt (s : State) (d : DieIx) : State := s.addSat d rColDrop1 16 16 1

/-! ### Grants (R362) -/

/-- The command of an engine that gets the next grant: of those that a condition picks, one of the context next in turn after the one that
had the last grant, and of its commands the first. DESIGN CHOICE (log 171): one event does all that a command has to do at that point. -/
def State.grantNext (s : State) (d : DieIx) (q : QId) (turn : Nat) (pick : Running → Bool) : Option Running :=
  let far := fun (r : Running) => ((s.colCtx d (dJob r.desc)).getD turn + 31 - turn) % 32
  ((s.queue d q).running.filter pick).foldl (fun b r =>
    match b with
    | none => some r
    | some x => if far r < far x then some r else some x) none

/-- Run the command that gets the grant, and move the turn to its context. -/
def withGrant (s : State) (d : DieIx) (q : QId) (pick : Running → Bool) (k : Running → State → State) : State :=
  let turn := if q = .col then (s.die d).colTurn else (s.die d).txeTurn
  match s.grantNext d q turn pick with
  | none => s
  | some r =>
    let n := (s.colCtx d (dJob r.desc)).getD turn
    let t := s.modDie d (fun x => if q = .col then { x with colTurn := n } else { x with txeTurn := n })
    withPick t d q (fun y => decide (y.ident = r.ident)) (fun y => k y t)

/-- The members that a command exchanges data with directly are the die's peers in the job (R42). -/
def State.addPeers (s : State) (d : DieIx) (job : BitVec 12) (l : List Endpoint) : State :=
  s.modDie d (fun x => { x with peers := l.foldl (fun ps e =>
    if e.toNat / 64 = s.moduleNo d * 8 + d.val ∨ ps.any (fun p => decide (p.job = job ∧ p.endpoint = e)) then ps
    else ps ++ [⟨job, e, 0, true, false⟩]) x.peers })

/-- Bytes that messages take in the early buffer. -/
def earlyBytes (l : List Msg) : Nat := l.foldl (fun a m => a + 64 + m.data.length) 0

/-- Hold a message in the early buffer (R378); `none` while it is full. -/
def State.holdEarly (s : State) (d : DieIx) (m : Msg) : Option State :=
  if earlyBytes ((s.die d).early ++ [m]) ≤ 2 * 1024 * 1024 then some (s.modDie d (fun x => { x with early := x.early ++ [m] })) else none

/-- Whether the early buffer has no room for a message, which then waits where it is (R378). -/
def State.earlyFull (s : State) (d : DieIx) (m : Msg) : Bool := (s.holdEarly d m).isNone

/-- Judge the held messages again at a boundary (R378). -/
def State.rejudge (s : State) (d : DieIx) : State :=
  ((s.die d).early).foldl (fun t m =>
    match t.colDrop d m with
    | none => t
    | some c => (t.modDie d (fun x => { x with early := x.early.erase m })).addSat d c.1 c.2 16 1) s

/-- Whether a context's member has completed the bucket in this attempt (R379). -/
def State.bucketDone (s : State) (d : DieIx) (m : Msg) : Bool :=
  match s.colCtx d m.job with
  | some k => (s.commit d k).finished.contains (msgBucket m)
  | none => false

/-! ### Scale tables (R374, R377) -/

/-- Entry j of the scale table at a place, read as R304 counts it: the word, whether it is poisoned, and the state after. -/
def State.readScale (s : State) (d : DieIx) (job : BitVec 12) (base j : Nat) : Word × Bool × State :=
  let x := s.memRead ⟨d, job, false⟩ d (base / 2 ^ 39) (base % 2 ^ 39 + 4 * j) 4
  (BitVec.ofNat 32 (leNat x.bytes), x.poison.any id, x.state)

/-- Entry j of the scale table at a place (region × 2³⁹ + offset), as an engine holds it that has read the table. -/
def State.scaleEntry (s : State) (d : DieIx) (base j : Nat) : Word :=
  BitVec.ofNat 32 (leNat (s.peek (memKey d (base / 2 ^ 39) (base % 2 ^ 39 + 4 * j)) 4))

def State.setScaleEntry (s : State) (d : DieIx) (job : BitVec 12) (base j : Nat) (w : Word) : State :=
  s.memWrite ⟨d, job, false⟩ d (base / 2 ^ 39) (base % 2 ^ 39 + 4 * j) (leBytes 4 w.toNat) (List.replicate 4 false)

def scaleOf (w : Word) : Nat := fld w 0 8
def satSeen (w : Word) : Bool := bitAt w 17

/-- The scale of R263 and R374 from the largest EMAX. -/
def scaleFrom (emax : Option Int) (dflt : Nat) : Nat :=
  match emax with
  | none => dflt
  | some e => (max 0 (min 254 (e + 1 - 6 + 127))).toNat

/-- An entry at the commit stroke (R377). -/
def scaleCommit (yes : Bool) (w : Word) : Word :=
  let s := scaleOf w
  let n := if yes then (if bitAt w 16 then fld w 8 8 else s)
    else if satSeen w && decide (s ≠ 255) then min (s + 2) 254 else s
  setFld (setBit (setBit w 16 false) 17 false) 0 8 n

/-- Update the tables that the attempt named, and forget what it did. -/
def State.scaleTables (s : State) (d : DieIx) (k : Nat) (yes : Bool) : State :=
  let c := s.commit d k
  let t := c.tables.foldl (fun t p =>
    (List.range p.2).foldl (fun u j =>
      let e := u.readScale d (s.colJob d k) p.1 j
      e.2.2.setScaleEntry d (s.colJob d k) p.1 j (scaleCommit yes e.1)) t) s
  t.modCommit d k (fun c => { c with buckets := [], finished := [], tables := [], chunkBad := 0 })

end Sys2Proof.Machine
end

