-- ==== Sys2Proof/Machine/Commit.lean ====
section
/-! DEFINITION. The step commit: votes, the root's decision, verdicts, flip and abort (R265 to R272). -/

namespace Sys2Proof.Machine

/-! ### Roles (R265) -/

/-- Members of a job in rising order of endpoint identifier. -/
def State.sortedMembers (s : State) (job : BitVec 12) : List Endpoint :=
  sortEnds (s.membersOf job)

def State.rootOf (s : State) (job : BitVec 12) : Option Endpoint := (s.sortedMembers job)[0]?
def State.backupOf (s : State) (job : BitVec 12) : Option Endpoint := (s.sortedMembers job)[1]?

/-- Whether an endpoint is on this die. -/
def State.isMe (s : State) (d : DieIx) (e : Endpoint) : Bool := decide (e.toNat / 64 = (s.endpoint d 63).toNat / 64)

def State.amI (s : State) (d : DieIx) (e : Option Endpoint) : Bool :=
  match e with
  | some x => s.isMe d x
  | none => false

/-- Whether a peer of a job has been declared absent (R42). -/
def State.peerAbsent (s : State) (d : DieIx) (job : BitVec 12) (e : Endpoint) : Bool :=
  (s.die d).peers.any (fun p => decide (p.job = job) && decide (p.endpoint.toNat / 64 = e.toNat / 64) && p.absent)

def State.attempt (s : State) (d : DieIx) (k : Nat) : Nat := s.rf d (rCmtStat k) 24 8

/-- A vote, verdict, acknowledgement or query of context k. -/
def State.sendCmt (s : State) (d : DieIx) (k kind : Nat) (dst : Endpoint) (yes : Bool) (cause step att : Nat) : State :=
  s.sendMsg d (s.mkMsg d kind dst (s.colJob d k) (s.colEpoch d k) att step
    (leBytes 1 (if yes then 1 else 0) ++ leBytes 1 cause ++ leBytes 34 0) [])

/-- Job of a context of the update engine. -/
def State.cmtJob (s : State) (d : DieIx) (k : Nat) : BitVec 12 := BitVec.ofNat 12 (s.rf d (rUpdSet k) 0 12)

/-! ### The vote (R267) -/

/-- Whether a command of the job and step is queued or running on the die. -/
def State.stepPending (s : State) (d : DieIx) (job : BitVec 12) (step : Nat) : Bool :=
  let hit := fun (x : Desc) => decide (dJob x = job) && decide (dStep x = step)
  allQueues.any (fun q =>
    let x := s.queue d q
    x.entries.any (fun e => hit e.desc) || x.backlog.any (fun e => hit e.desc) || x.running.any (fun r => hit r.desc))

/-- The statuses that chunks give (R381). -/
def RedRun.statuses (u : RedRun) : List Nat :=
  (if u.poison then [stPoison] else [])
    ++ (if u.fails ≠ 0 ∨ u.chunks.any (fun c => decide (c.got = 2)) then [stHallmark] else [])
    ++ (if u.chunks.any (fun c => decide (c.got = 0 ∨ c.got = 3)) then [stTimeout] else [])
    ++ (if u.sat then [stSaturated] else [])

/-- The fourth row of R267, from the engine's own record: the fault of a chunk of a bucket that is over, or the statuses that a running
ALLREDUCE has so far; a bucket whose command ended before its chunks were complete misses them. -/
def State.chunkCause (s : State) (d : DieIx) (k : Nat) : Nat :=
  let c := s.commit d k
  if c.chunkBad ≠ 0 then c.chunkBad
  else
    match c.buckets.find? (fun b => !c.finished.contains b) with
    | none => 0
    | some b =>
      match (s.die d).reds.find? (fun u => decide (u.ctx = k) && decide (u.bucket = b)) with
      | some u => pickStatus u.statuses
      | none => stTimeout

/-- Whether a change of the job's layout epoch is still to come, at a stroke not after the commit stroke: it aborts the step (R401), so
the member does not vote YES. -/
def State.relayPends (s : State) (d : DieIx) (k : Nat) : Bool :=
  match s.colCtx d (s.cmtJob d k) with
  | some j => bitAt (s.reg d (rColCtx j 1)) 31 && !strokeBefore (s.commitStroke d k) (s.relayStroke d j)
  | none => false

/-- The cause of a NO vote, 0 for YES: the first failing row of R267. -/
def State.voteCause (s : State) (d : DieIx) (k : Nat) : Nat :=
  let c := s.commit d k
  if s.stepPending d (s.cmtJob d k) (s.stepOf d k) then stTimeout
  else if c.badStatus ≠ 0 then c.badStatus
  else if c.updates ≠ s.rf d (rCmtCtl k) 16 16 then stTimeout
  else if s.chunkCause d k ≠ 0 then s.chunkCause d k
  else if c.notice ∨ c.relaid ∨ s.relayPends d k then stAborted
  else if bitAt (s.die d).vetoes k then stAborted
  else 0

/-- Record a vote at the root or the backup. -/
def State.recordVote (s : State) (d : DieIx) (k : Nat) (src : Endpoint) (yes : Bool) (cause : Nat) : State :=
  s.modCommit d k (fun c =>
    { c with votes := c.votes.filter (fun v => decide (v.1.toNat / 64 ≠ src.toNat / 64)) ++ [(src, yes, BitVec.ofNat 8 cause)] })

/-- Send a vote to the root or backup root, or record it when that is this die. -/
def State.castVote (s : State) (d : DieIx) (k : Nat) (e : Option Endpoint) (cause : Nat) : State :=
  match e with
  | none => s
  | some x =>
    if s.isMe d x then s.recordVote d k (s.endpoint d 63) (decide (cause = 0)) cause
    else s.sendCmt d k 0x33 x (decide (cause = 0)) cause (s.stepOf d k) (s.attempt d k)

/-- VOTE_CUTOFF (R267): at stroke C − 3g an armed member votes. -/
def execVoteCutoff (d : DieIx) (k : CtxIx) (s : State) : Host.Outcome State Fault Refusal :=
  onDie d s (fun t =>
    if t.cmtState d k.val ≠ 1 ∨ !begun (t.stroke d) (t.cmtMinus d k.val 3) then t
    else
      let cause := t.voteCause d k.val
      let job := t.cmtJob d k.val
      let t1 := (t.setCmtState d k.val (if cause = 0 then 2 else 3)).setRf d (rCmtStat k.val) 8 8 cause
      (t1.castVote d k.val (t.rootOf job) cause).castVote d k.val (t.backupOf job) cause)

/-- Whether a message names the step and attempt of context k (R268). -/
def State.cmtCurrent (s : State) (d : DieIx) (k : Nat) (m : Msg) : Bool :=
  decide (m.step.toNat = s.stepOf d k) && decide (m.attempt.toNat = s.attempt d k)

/-- A vote or verdict that is dropped: it is counted with the messages dropped for ATTEMPT and logged (R268). -/
def State.dropVote (s : State) (d : DieIx) (m : Msg) : State := (s.countAttempt d).logCaused d m 0x0503 0 m.src.toNat

/-- VOTE (R268). -/
def execVote (d : DieIx) (m : Msg) (s : State) : Host.Outcome State Fault Refusal :=
  onDie d s (fun t =>
    if m.mkind ≠ 0x33 then t
    else
      let u := (t.takeMsg d m).wake d
      match u.ctxOf d m.job with
      | none => u.dropVote d m
      | some k =>
        if !u.amI d (u.rootOf m.job) ∧ !u.amI d (u.backupOf m.job) then u
        else if u.staleMsg d m then u.addSat d rHltStale 0 32 1
        else if !u.cmtCurrent d k m then u.dropVote d m
        else u.recordVote d k m.src (decide (msgField m 28 1 = 1)) (msgField m 29 1))

/-! ### The decision (R268) -/

/-- The root's verdict: YES when every member has voted YES; else NO with the cause of the first NO voter in the member list. -/
def State.decideVerdict (s : State) (d : DieIx) (k : Nat) : Bool × BitVec 8 :=
  let ms := s.membersOf (s.cmtJob d k)
  let vote := fun (e : Endpoint) => (s.commit d k).votes.find? (fun v => decide (v.1.toNat / 64 = e.toNat / 64))
  if ms.all (fun e => match vote e with
      | some v => v.2.1
      | none => false) then (true, 0)
  else
    match ms.findSome? (fun e => match vote e with
        | some v => if v.2.1 then none else some v.2.2
        | none => none) with
    | some c => (false, c)
    | none => (false, BitVec.ofNat 8 stTimeout)

/-- Of two step numbers the later one, modulo 2³². -/
def laterStep (a b : Word) : Word := if (b - a).toNat < 2 ^ 31 then b else a

/-- Keep a verdict for queries, one for each attempt of the last 16 steps: of the steps that have a verdict the latest one and the 15
numbers before it. -/
def keepVerdict (l : List (Word × BitVec 8 × Bool × BitVec 8)) (step att : Nat) (yes : Bool) (cause : BitVec 8) :
    List (Word × BitVec 8 × Bool × BitVec 8) :=
  let n : Word := BitVec.ofNat 32 step
  let a : BitVec 8 := BitVec.ofNat 8 att
  let last := l.foldl (fun m v => laterStep m v.1) n
  ((n, a, yes, cause) :: l.filter (fun v => !(decide (v.1 = n) && decide (v.2.1 = a)))).filter (fun v => decide ((last - v.1).toNat < 16))

def State.keep (s : State) (d : DieIx) (k step att : Nat) (yes : Bool) (cause : BitVec 8) : State :=
  s.modCommit d k (fun c => { c with kept := keepVerdict c.kept step att yes cause })

/-- The root sends the verdict to every member and holds it itself. -/
def State.broadcastVerdict (s : State) (d : DieIx) (k : Nat) (v : Bool × BitVec 8) : State :=
  let step := s.stepOf d k
  let att := s.attempt d k
  let s1 := (s.keep d k step att v.1 v.2).modCommit d k (fun c => { c with decision := none, held := some v })
  (s.membersOf (s.cmtJob d k)).foldl (fun t e => if t.isMe d e then t else t.sendCmt d k 0x34 e v.1 v.2.toNat step att) s1

/-- ROOT_DECISION (R268): at stroke C − 2g the root decides and tells the backup first; a job with one member decides alone. -/
def execRootDecision (d : DieIx) (k : CtxIx) (s : State) : Host.Outcome State Fault Refusal :=
  onDie d s (fun t =>
    let job := t.cmtJob d k.val
    if !t.amI d (t.rootOf job) ∨ t.cmtState d k.val = 0 ∨ t.cmtState d k.val > 3 ∨ !begun (t.stroke d) (t.cmtMinus d k.val 2)
        ∨ (t.commit d k.val).decision.isSome ∨ (t.commit d k.val).held.isSome then t
    else
      let v := t.decideVerdict d k.val
      match t.backupOf job with
      | none => t.broadcastVerdict d k.val v
      | some b =>
        (t.sendCmt d k.val 0x34 b v.1 v.2.toNat (t.stepOf d k.val) (t.attempt d k.val)).modCommit d k.val
          (fun c => { c with decision := some v }))

/-- What the backup or a member does with a verdict of the current step and attempt: the backup records the first one and
acknowledges it, and holds a YES only when the root has broadcast it. -/
def State.takeVerdict (s : State) (d : DieIx) (k : Nat) (m : Msg) : State :=
  let yes := decide (msgField m 28 1 = 1)
  let cause := BitVec.ofNat 8 (msgField m 29 1)
  let hold := fun (t : State) => t.modCommit d k (fun c => { c with held := some (yes, cause), answered := true })
  if s.amI d (s.backupOf m.job) then
    let known := (s.commit d k).kept.any (fun v => decide (v.1 = m.step ∧ v.2.1 = m.attempt))
    let s1 := s.keep d k m.step.toNat m.attempt.toNat yes cause
    if known then hold s1
    else
      let s2 := s1.sendCmt d k 0x35 m.src yes cause.toNat m.step.toNat m.attempt.toNat
      if yes then s2 else hold s2
  else hold s

/-- VERDICT (R266, R268): a verdict of another step or attempt is dropped and counted. A member that returns holds it for Pelbex (R416). -/
def execVerdict (d : DieIx) (m : Msg) (s : State) : Host.Outcome State Fault Refusal :=
  onDie d s (fun t =>
    if m.mkind ≠ 0x34 then t
    else
      let u := (t.takeMsg d m).wake d
      match u.ctxOf d m.job with
      | none => u.dropVote d m
      | some k =>
        if u.staleMsg d m then u.addSat d rHltStale 0 32 1
        else if !u.cmtCurrent d k m then u.dropVote d m
        else if bitAt (u.die d).returning k then
          u.modCommit d k (fun c => { c with held := some (decide (msgField m 28 1 = 1), BitVec.ofNat 8 (msgField m 29 1)), answered := true })
        else u.takeVerdict d k m)

/-- VERDICT_ACK (R268): the root broadcasts its verdict. -/
def execVerdictAck (d : DieIx) (m : Msg) (s : State) : Host.Outcome State Fault Refusal :=
  onDie d s (fun t =>
    if m.mkind ≠ 0x35 then t
    else
      let u := (t.takeMsg d m).wake d
      if u.staleMsg d m then u.addSat d rHltStale 0 32 1
      else
      match u.ctxOf d m.job with
      | none => u
      | some k =>
        match (u.commit d k).decision with
        | none => u
        | some v => if u.amI d (u.rootOf m.job) ∧ u.cmtCurrent d k m then u.broadcastVerdict d k v else u)

/-- The answer that a root or backup has for a query about a step and attempt: the verdict it keeps; a backup without one answers NO once the
root is absent (R269): declared so under R42, or, for a backup that is UNDECIDED itself, without an answer during 4 strokes, after which
it has turned from the root to itself. -/
def State.keptAnswer (s : State) (d : DieIx) (k : Nat) (job : BitVec 12) (step : Word) (att : BitVec 8) : Option (Bool × BitVec 8) :=
  match (s.commit d k).kept.find? (fun v => decide (v.1 = step) && decide (v.2.1 = att)) with
  | some v => some v.2.2
  | none =>
    let gone : Bool := match s.rootOf job with
      | some r => s.peerAbsent d job r
      | none => false
    let silent := decide (s.cmtState d k = 4) && (s.commit d k).toBackup && decide (step.toNat = s.stepOf d k)
    if s.amI d (s.backupOf job) && (gone || silent) then some (false, BitVec.ofNat 8 stTimeout) else none

/-- VERDICT_QUERY (R268, R269): the root or the backup answers with the verdict it keeps of that step and attempt; a backup without one answers NO once the
root is absent. -/
def execVerdictQuery (d : DieIx) (m : Msg) (s : State) : Host.Outcome State Fault Refusal :=
  onDie d s (fun t =>
    if m.mkind ≠ 0x36 then t
    else
      let u := (t.takeMsg d m).wake d
      match u.ctxOf d m.job with
      | none => u
      | some k =>
        let root := u.rootOf m.job
        let backup := u.amI d (u.backupOf m.job)
        if u.staleMsg d m then u.addSat d rHltStale 0 32 1
        else if !u.amI d root ∧ !backup then u
        else
          match u.keptAnswer d k m.job m.step m.attempt with
          | some v => (u.sendCmt d k 0x34 m.src v.1 v.2.toNat m.step.toNat m.attempt.toNat).keep d k m.step.toNat m.attempt.toNat v.1 v.2
          | none => u)

/-! ### Stopping commands (R94, R253, R271, R380) -/

/-- Stop a running command with a status: a kernel's processor stops; a Crucible command does nothing more and ends at the next boundary (R253),
which for a step that is aborted at its commit stroke C is the one that begins C + 1 (log 156). -/
def State.stopRunning (s : State) (d : DieIx) (q : QId) (r : Running) (st : Nat) : State :=
  match q with
  | .cru =>
    (match (s.die d).solve with
     | some u => if u.ident = r.ident then s.modDie d (fun x => { x with solve := some { u with stop := true } })
                 else s.setRunning d q { r with stats := r.stats ++ [st] }
     | none => s.setRunning d q { r with stats := r.stats ++ [st] })
  | .core c =>
    if dKind r.desc = 0x01 then (s.haltProc d c).stopEarly d q (s.reported d q r) st
    else s.stopEarly d q r st
  | _ => s.stopEarly d q r st

/-- Commands that wait for the Crucible are marked: they complete at the head of the queue (R253). -/
def markAborted (pick : Desc → Bool) (l : List QEntry) : List QEntry :=
  l.map (fun e => if pick e.desc then { e with aborted := true } else e)

def State.abortCru (s : State) (d : DieIx) (st : Nat) (pick : Desc → Bool) : State :=
  let x := s.queue d .cru
  let s1 := s.setQueue d .cru { x with entries := markAborted pick x.entries, backlog := markAborted pick x.backlog }
  ((x.running.filter (fun r => pick r.desc)).foldl (fun t r => t.stopRunning d .cru r st) s1).startQueue d .cru

/-- Complete with a status every command of a queue that a condition picks, in queue order. -/
def State.abortQueue (s : State) (d : DieIx) (q : QId) (st : Nat) (pick : Desc → Bool) : State :=
  if q = .cru then s.abortCru d st pick else
  let x := s.queue d q
  let waiting := (x.entries ++ x.backlog).filter (fun e => pick e.desc)
  let runs := x.running.filter (fun r => pick r.desc)
  let s1 := s.setQueue d q ({ x with entries := x.entries.filter (fun e => !pick e.desc), backlog := x.backlog.filter (fun e => !pick e.desc) }).refill
  let s2 := runs.foldl (fun t r => t.stopRunning d q r st) s1
  (waiting.foldl (fun t e => t.record d q e.desc e.ident e.released (.err st)) s2).startQueue d q

/-- STEP ≥ n, modulo 2³². -/
def stepFrom (n x : Nat) : Bool := decide ((x + 2 ^ 32 - n) % 2 ^ 32 < 2 ^ 31)

/-! ### Flip, abort, UNDECIDED (R269, R271) -/

/-- The context's record of an attempt that is over. -/
def Commit.over (c : Commit) : Commit :=
  { c with badStatus := 0, updates := 0, notice := false, held := none, votes := [], decision := none, silent := 0, answered := false
           toBackup := false, reported := false, relaid := false, buckets := [], finished := [], tables := [], chunkBad := 0 }

/-- FLIP (R269): the two sets exchange roles, the step is done. DESIGN CHOICE (log 155): ATTEMPT stays as it is, since R269 lists no
change of it and R275 gives the number of the current step's attempt no value to begin with. -/
def State.flip (s : State) (d : DieIx) (k : Nat) : State :=
  let s1 := s.scaleTables d k true
  let s2 := s1.modReg d (rUpdSet k) (fun w => setBit w 28 (!bitAt w 28))
  let s3 := s2.setReg d (rUpdStep k) (BitVec.ofNat 32 (s.stepOf d k))
  ((s3.setRf d (rCmtStat k) 16 8 0).setCmtState d k 0).modCommit d k Commit.over

/-- STEP_ABORT (R271). -/
def State.abortStep (s : State) (d : DieIx) (k : Nat) (cause : Nat) : State :=
  let job := s.cmtJob d k
  let n := s.stepOf d k
  let mine := s.rf d (rCmtStat k) 8 8
  let why := if (s.cmtState d k = 3 ∨ s.cmtState d k = 4) ∧ mine ≠ 0 then mine else cause
  let att := (s.attempt d k + 1) % 256
  let reps := min (s.rf d (rCmtStat k) 16 8 + 1) 255
  let s1 := ((s.scaleTables d k false).setRf d (rCmtStat k) 24 8 att).setRf d (rCmtStat k) 16 8 reps
  let s2 := s1.logEvent d 0x0501 why (why + att * 256 + job.toNat * 65536)
  let s3 := allQueues.foldl (fun t q => t.abortQueue d q stAborted (fun x => decide (dJob x = job) && stepFrom n (dStep x))) s2
  let s4 := s3.modDie d (fun x => { x with buckets := x.buckets.filter (fun b => decide (b.job ≠ job)) })
  let halt := decide (reps > s4.settings.repeatMax)
  let s5 := (s4.setCmtState d k (if halt then 5 else 0)).modCommit d k Commit.over
  if halt then s5.hostEvent d (s5.endpoint d 63) why job (BitVec.ofNat 8 (s5.colEpoch d k)) (BitVec.ofNat 32 n) 0 8 reps else s5

/-- A member acts on the verdict it holds. A change of the layout epoch between the arm and the commit stroke has aborted the step in any
case (R401). -/
def State.applyVerdict (s : State) (d : DieIx) (k : Nat) : State :=
  match (s.commit d k).held with
  | none => s
  | some v =>
    if v.1 ∧ !(s.commit d k).relaid then s.flip d k else s.abortStep d k (if v.1 then stAborted else v.2.toNat)

/-! ### Notices (R267, R380, R415) -/

/-- The commands of a job end on both collective engines; from a step on, where one is named. -/
def State.noticeJob (s : State) (d : DieIx) (job : BitVec 12) (step : Option Nat) : State :=
  let pick := fun (x : Desc) => decide (dJob x = job) && (match step with
    | none => true
    | some n => stepFrom n (dStep x))
  (s.abortQueue d .col stAborted pick).abortQueue d .txe stAborted pick

/-- Whether this boundary is the commit stroke of a step of the job for which the member holds a YES verdict (R415). -/
def State.flipsHere (s : State) (d : DieIx) (job : BitVec 12) : Bool :=
  match s.ctxOf d job with
  | none => false
  | some k => decide (1 ≤ s.cmtState d k ∧ s.cmtState d k ≤ 3) && begun (s.stroke d) (s.commitStroke d k)
      && (s.commit d k).held.any (fun v => v.1) && !(s.commit d k).relaid

/-- At a boundary the notices take effect (R380): every queued and running command of the job on both engines ends. One whose boundary
is the commit stroke of a step that commits waits for the flip (R415). -/
def State.noticeBoundary (s : State) (d : DieIx) : State :=
  let wait := (s.die d).notices.filter (s.flipsHere d)
  let t := ((s.die d).notices.filter (fun j => !s.flipsHere d j)).foldl (fun t job => t.noticeJob d job none) s
  t.modDie d (fun x => { x with notices := wait })

/-- After the flip a notice that waited for it ends the commands of later steps (R415). -/
def State.noticeLate (s : State) (d : DieIx) (job : BitVec 12) (step : Nat) : State :=
  if (s.die d).notices.contains job then
    (s.noticeJob d job (some (step + 1))).modDie d (fun x => { x with notices := x.notices.filter (fun j => j != job) })
  else s

/-- Ask the root, or the backup once the root has not answered, for the verdict of the step; a member that is the one to ask answers
itself. -/
def State.askVerdict (s : State) (d : DieIx) (k : Nat) : State :=
  let job := s.cmtJob d k
  match (if (s.commit d k).toBackup then s.backupOf job else s.rootOf job) with
  | none => s
  | some e =>
    if s.isMe d e then
      match s.keptAnswer d k job (BitVec.ofNat 32 (s.stepOf d k)) (BitVec.ofNat 8 (s.attempt d k)) with
      | none => s
      | some v => (s.keep d k (s.stepOf d k) (s.attempt d k) v.1 v.2).modCommit d k (fun c => { c with held := some v, answered := true })
    else s.sendCmt d k 0x36 e false 0 (s.stepOf d k) (s.attempt d k)

/-- A member without a verdict becomes UNDECIDED, and asks in this very stroke. -/
def State.becomeUndecided (s : State) (d : DieIx) (k : Nat) : State :=
  (((s.setCmtState d k 4).logEvent d 0x0502 0 (s.commitStroke d k)).modCommit d k (fun c =>
    { c with silent := 0, answered := false, toBackup := false, reported := false })).askVerdict d k

/-- COMMIT_STROKE (R268, R269): a root whose verdict was not acknowledged sends NO; then the member flips, aborts or becomes
UNDECIDED, the early buffer is judged again (R378), and held commands start. -/
def execCommitStroke (d : DieIx) (k : CtxIx) (s : State) : Host.Outcome State Fault Refusal :=
  onDie d s (fun t =>
    let st := t.cmtState d k.val
    if st = 0 ∨ st > 3 ∨ !begun (t.stroke d) (t.commitStroke d k.val) then t
    else
      let t1 := match (t.commit d k.val).decision with
        | none => t
        | some v => t.broadcastVerdict d k.val (false, if v.1 then BitVec.ofNat 8 stTimeout else v.2)
      let t2 := if (t1.commit d k.val).held.isSome then t1.applyVerdict d k.val else t1.becomeUndecided d k.val
      ((t2.noticeLate d (t.cmtJob d k.val) (t.stepOf d k.val)).rejudge d).startAll d)

/-- ASK_BACKUP_ROOT (R269): after 4 strokes without an answer, or once the root is absent. -/
def execAskBackupRoot (d : DieIx) (k : CtxIx) (s : State) : Host.Outcome State Fault Refusal :=
  onDie d s (fun t =>
    let job := t.cmtJob d k.val
    let gone : Bool := match t.rootOf job with
      | some r => t.peerAbsent d job r
      | none => false
    if t.cmtState d k.val ≠ 4 ∨ (t.commit d k.val).toBackup ∨ !(decide ((t.commit d k.val).silent ≥ 4) || gone) then t
    else (t.modCommit d k.val (fun c => { c with toBackup := true, silent := 0, answered := false })).askVerdict d k.val)

/-- The root or backup root that a returning member asks (R416): the root, or the backup once that is silent or when the member is the
root itself. -/
def State.returnAsks (s : State) (d : DieIx) (k : Nat) : Option Endpoint :=
  let job := s.cmtJob d k
  let others := ((s.sortedMembers job).take 2).filter (fun e => !s.isMe d e)
  if (s.commit d k).toBackup then others[1]? else others[0]?

/-- A member that returns asks once per stroke for the verdict of its step, first the root and after 4 strokes without an answer, or
once the root is absent, the backup (R269, R416). -/
def State.returnBoundary (s : State) (d : DieIx) (k : Nat) : State :=
  let c := s.commit d k
  if c.held.isSome then s
  else
    let gone : Bool := match s.returnAsks d k with
      | some e => s.peerAbsent d (s.cmtJob d k) e
      | none => false
    let turn := !c.toBackup && (decide (c.silent + 1 ≥ 4) || gone)
    let s1 := s.modCommit d k (fun c => { c with silent := if turn then 0 else c.silent + 1, toBackup := c.toBackup || turn })
    match s1.returnAsks d k with
    | none => s1
    | some e => s1.sendCmt d k 0x36 e false 0 (s1.stepOf d k) (s1.attempt d k)

/-- What a boundary does for a commit context: an UNDECIDED or unarmed (also a HALTED) member applies the verdict that has arrived; an UNDECIDED one
without a verdict asks again, and reports once when the backup does not answer either (R266, R269). -/
def State.commitBoundary (s : State) (d : DieIx) (k : Nat) : State :=
  let st := s.cmtState d k
  let c := s.commit d k
  if bitAt (s.die d).returning k then s.returnBoundary d k
  else if (st = 0 ∨ st = 4 ∨ st = 5) ∧ c.held.isSome then s.applyVerdict d k
  else if st = 4 then
    let s1 := s.modCommit d k (fun c => { c with silent := if c.answered then 0 else c.silent + 1, answered := false })
    let lost : Bool := match s1.backupOf (s1.cmtJob d k) with
      | some b => s1.peerAbsent d (s1.cmtJob d k) b
      | none => false
    let dead := (s1.commit d k).toBackup && (decide ((s1.commit d k).silent ≥ 4) || lost) && !(s1.commit d k).reported
    let s2 := if dead then
        ((s1.modCommit d k (fun c => { c with reported := true })).logEvent d 0x0502 0 (s1.commitStroke d k)).hostEvent d (s1.endpoint d 63) 0
          (s1.cmtJob d k) 0 (BitVec.ofNat 32 (s1.stepOf d k)) 0 9 (s1.commitStroke d k)
      else s1
    s2.askVerdict d k
  else s

end Sys2Proof.Machine
end

