-- ==== Sys2Proof/Machine/Control.lean ====
section
/-! DEFINITION. The control processor: kernels, exceptions, first-fault stop, and the scalar instructions (R75 to R80, R90,
R143, R149, R162). -/

namespace Sys2Proof.Machine

/-! ### Registers (R75, R143) -/

/-- g0 reads as zero. -/
def Core.getG (k : Core) (r : Fin 32) : DWord := if r = 0 then 0 else k.proc.g[r]

/-- Writes of g0 are ignored; a write of any other g register leaves no mark on it. -/
def Core.setG (k : Core) (r : Fin 32) (v : DWord) : Core :=
  if r = 0 then k else { k with proc := { k.proc with g := k.proc.g.set r v, bad := setBit k.proc.bad r.val false } }

/-- fN is bits [63:0] of vN. -/
def Core.getF (k : Core) (r : Fin 32) : DWord := (k.vec.v[r]).setWidth 64

/-- A scalar FP write zeroes bits [4095:64] and clears every poison mark but that of segment 0, which a whole write of an
unpoisoned value clears too (R143, R161). -/
def Core.setF (k : Core) (r : Fin 32) (v : DWord) : Core :=
  { k with vec := { k.vec with v := k.vec.v.set r (v.setWidth 4096), poison := k.vec.poison.set r 0 } }

/-- An instruction has retired; the next one: nothing holds it yet. -/
def Core.setPc (k : Core) (pc : DWord) : Core := { k with proc := { k.proc with pc := pc, stall := .no }, retired := k.retired + 1 }

def Core.setStall (k : Core) (w : Stall) : Core := { k with proc := { k.proc with stall := w } }

/-! ### Traps (R79, R163) -/

/-- An exception: cause, address, the statuses its kernel gets, and for a vector fault its sub-cause and element. -/
structure Trap where
  cause : Nat
  addr : Nat
  stats : List Nat
  sub : Nat
  elem : Nat
deriving DecidableEq, Repr

def trapIllegal : Trap := ⟨1, 0, [stFormat], 0, 0⟩
def trapFetchAlign : Trap := ⟨2, 0, [stFormat], 0, 0⟩
def trapFetchMap : Trap := ⟨3, 0, [stFormat], 0, 0⟩
def trapDataAlign (a : Nat) : Trap := ⟨4, a, [stFormat], 0, 0⟩
def trapDataMap (a : Nat) : Trap := ⟨5, a, [stFormat], 0, 0⟩
def trapPoison (a : Nat) : Trap := ⟨6, a, [stPoison], 0, 0⟩
def trapBreak : Trap := ⟨8, 0, [], 0, 0⟩

/-- A vector fault by sub-cause: VBAD 1, VMAP 2, VPOISON 3, VFENCED 4. -/
def trapVector (sub elem addr : Nat) : Trap :=
  ⟨7, addr, [if sub = 3 then stPoison else if sub = 4 then stFenced else stFormat], sub, elem⟩

/-- What one instruction does: it completes, branches, stalls, ends the kernel with a DETAIL, or traps; `trapIn` keeps what the
reads before the trap have done (R304). -/
inductive Eff where
  | ok (s : State)
  | jump (s : State) (pc : DWord)
  | stall (why : Stall)
  | fin (s : State) (detail : Word)
  | trap (t : Trap)
  | trapIn (s : State) (t : Trap)

/-! ### Kernels (R79, R80, R90, R144, R149) -/

/-- End the kernel that runs on a core, with what R149 has its record say. -/
def State.endKernel (s : State) (d : DieIx) (c : CoreIx) (stats : List Nat) (detail : Word) : State :=
  match s.runningOf d (.core c) 1 with
  | none => s.haltProc d c
  | some r =>
    let r1 := s.reported d (.core c) r
    (s.haltProc d c).finish d (.core c) r ⟨stats ++ r1.stats, r1.flags, 0, detail⟩

/-- DETAIL of an exception: the instruction's offset divided by 4, and the cause (R80). -/
def trapDetail (pc : DWord) (t : Trap) : Word := BitVec.ofNat 32 (pc.toNat / 4 % 2 ^ 24 * 256 + t.cause)

/-- Record the exception in the control registers, and a vector fault in VX_FAULT (R75, R169). -/
def State.noteTrap (s : State) (d : DieIx) (c : CoreIx) (t : Trap) : State :=
  let s1 := s.modCore d c (fun k =>
    { k with proc := { k.proc with xcause := BitVec.ofNat 64 t.cause, xpc := k.proc.pc, xaddr := BitVec.ofNat 64 t.addr } })
  if t.cause = 7 then s1.setReg d (rVxFault c.val) (BitVec.ofNat 32 (t.sub * 65536 + t.elem % 512)) else s1

/-- Take an exception: with FF_STOP the core enters first-fault stop after a loupe capture of a free cause code, else the
kernel ends with the status of the cause (R80). -/
def State.takeTrap (s : State) (d : DieIx) (c : CoreIx) (t : Trap) : State :=
  let detail := trapDetail (s.core d c).proc.pc t
  let s1 := s.noteTrap d c t
  if bitAt (s.reg d (rCoreCtl c.val)) 1 then
    let s2 := s1.modCore d c (fun k => { k with proc := { k.proc with stopped := true } })
    let s3 := (s2.capture411 d (.core c) 2 (fld s.free 0 8) (s.core d c).tagCore (!s2.hbmServes d)).1.drawFree
    s3.endKernel d c [stFirstFault] detail
  else s1.endKernel d c t.stats detail

/-- An undefined FPCTL: any flags and any ROUND code that is not reserved. -/
def startFpctl (v : DWord) : DWord :=
  BitVec.ofNat 64 (fld v 3 5 * 8 + (if fld v 0 2 = 0 then 0 else if fld v 0 2 = 1 then 1 else if fld v 0 2 = 2 then 4 else 5))

/-- The processor and vector registers at the start of a kernel: undefined except g0, p0 and what KERNEL loads (R75, R144). -/
def startCore (n : Nat) (x : Desc) (k : Core) : Core :=
  { k with
    proc := { running := true, waitStroke := false, stopped := false, pc := BitVec.ofNat 64 (dn x 24 8)
              g := Vector.ofFn (fun i : Fin 32 => if i.val = 1 then BitVec.ofNat 64 (dn x 32 8)
                else if i.val = 2 then BitVec.ofNat 64 (dn x 40 8) else Config.startReg n i.val)
              bad := Config.startBad n &&& 0xFFFFFFF8
              xcause := 0, xpc := Config.startReg n 33, xaddr := Config.startReg n 34, fpctl := startFpctl (Config.startReg n 32), stall := .no }
    vec := ⟨Vector.ofFn (fun i : Fin 32 => Config.startVec n i.val), Vector.ofFn (fun i : Fin 32 => Config.startMarks n i.val),
      Vector.ofFn (fun i : Fin 8 => Config.startPred n i.val), 0, 0⟩
    pushed := []
    firstBad := 0 }

/-- KERNEL (R90): the control processor starts. -/
def State.kernelStart (s : State) (d : DieIx) (c : CoreIx) (r : Running) : State :=
  if (s.core d c).proc.running then s
  else if dn r.desc 48 8 ≠ 0 ∨ dn r.desc 56 8 ≠ 0 then s.stopEarly d (.core c) r stFormat
  else if s.unitFenced d (.core c) 1 then s.stopEarly d (.core c) r stFenced
  else (s.modCore d c (startCore s.draws r.desc)).drawFree

/-- KERNEL (R90). -/
def execKernel (d : DieIx) (c : CoreIx) (s : State) : Host.Outcome State Fault Refusal :=
  onDie d s (fun t => withEngine t d (.core c) 1 (t.kernelStart d c))

/-! ### Fetch and dispatch -/

/-- Job of the kernel that runs on a core. -/
def State.kernelJob (s : State) (d : DieIx) (c : CoreIx) : BitVec 12 :=
  match s.runningOf d (.core c) 1 with
  | some r => dJob r.desc
  | none => 0

def State.kernelAccess (s : State) (d : DieIx) (c : CoreIx) : Access := ⟨d, s.kernelJob d c, false⟩

/-- The g registers that an instruction reads: of a vector instruction of class VI with S = 1, and of VSHU and VSHD, that of its third
field; of an access in a block format, the one beside the address (R138, R153, R155, R157). -/
def gReads (w : Word) (i : Instr) : List (Fin 32) :=
  match i with
  | .integerInstruction _ _ _ _ rs1 src => rs1 :: (match src with
      | .reg r => [r]
      | .imm _ => [])
  | .scalarLoad _ _ _ _ _ _ rs1 _ => [rs1]
  | .scalarStore _ _ _ fp rs2 rs1 _ => if fp then [rs1] else [rs1, rs2]
  | .conditionalBranch _ _ _ rs1 rs2 _ => [rs1, rs2]
  | .callr _ _ _ rs1 => [rs1]
  | .scalarFp _ _ op _ _ rs1 _ _ => if op = .cvtFromInt ∨ op = .moveFromG then [rs1] else []
  | .ctlwr _ _ rs1 _ => [rs1]
  | .cpush _ _ rs1 => [rs1]
  | .endK _ _ rs1 => [rs1]
  | .setvl _ _ _ rs1 _ => [rs1]
  | .vstatwr _ _ _ rs1 _ => [rs1]
  | .vslice _ _ _ rs1 imm => [rs1, ⟨fld imm 0 5, Nat.mod_lt _ (by decide)⟩]
  | .vshu _ _ _ _ vs2 _ _ _ => [vs2]
  | .vshd _ _ _ _ vs2 _ _ _ => [vs2]
  | .vld .. => [Decode.reg w 16, Decode.reg w 11]
  | .vldff .. => [Decode.reg w 16]
  | .vst .. => [Decode.reg w 16, Decode.reg w 11]
  | _ => if Decode.bits w 26 6 = 0x29 ∧ w.getLsbD 5 then [Decode.reg w 11] else []

/-- Whether an instruction reads a g register whose word is poisoned (R302); g0 has none. -/
def readsBad (k : Core) (w : Word) (i : Instr) : Bool := (gReads w i).any (fun r => decide (r ≠ 0) && bitAt k.proc.bad r.val)

/-- Execute one instruction of a running kernel: the fetch checks in the order of R79, the word that was fetched (R77), a poisoned g
register among its sources (R302), then the
body; a command whose instruction the word does not spell is none that the core executes now (log entry 135). -/
def State.insn (s : State) (d : DieIx) (c : CoreIx) (i : Instr) (body : State → Eff) : State :=
  let p := (s.core d c).proc
  if !p.running ∨ p.waitStroke then s
  else if p.pc.toNat % 4 ≠ 0 then s.takeTrap d c trapFetchAlign
  else if p.pc.toNat + 4 > 0x400000 then s.takeTrap d c trapFetchMap
  else
    let w := s.memRead (s.kernelAccess d c) d 1 (spBase c.val + p.pc.toNat) 4
    let word : Word := BitVec.ofNat 32 (leNat w.bytes)
    if w.poison.any id then w.state.takeTrap d c (trapPoison 0)
    else if Decode.illegalWord word then w.state.takeTrap d c trapIllegal
    else if !Decode.spells d c word i then s
    else if readsBad (s.core d c) word i then w.state.takeTrap d c (trapPoison 0)
    else
      match body w.state with
      | .ok t => t.modCore d c (fun k => k.setPc (p.pc + 4))
      | .jump t pc => t.modCore d c (fun k => k.setPc pc)
      | .stall why => s.modCore d c (fun k => k.setStall why)
      | .fin t detail => t.endKernel d c [] detail
      | .trap x => w.state.takeTrap d c x
      | .trapIn t x => t.takeTrap d c x

/-! ### Integer instructions (R76, R77) -/

def IntOp_code (o : IntOp) : Nat :=
  match o with
  | .sll => 1
  | .srl => 2
  | .sra => 3
  | .div => 4
  | .divu => 5
  | .rem => 6
  | .remu => 7
  | _ => 0

def boolWord (b : Bool) : DWord := if b then 1 else 0

/-- The integer operations on 64-bit values; a shift by 64 or more, a division by zero and the overflowing quotient have no
stated result. -/
def intOp (o : IntOp) (a b : DWord) : DWord :=
  let corner := Config.intCorner (IntOp_code o) a b
  match o with
  | .add => a + b
  | .sub => a - b
  | .and => a &&& b
  | .or => a ||| b
  | .xor => a ^^^ b
  | .sll => if b.toNat < 64 then a <<< b.toNat else corner
  | .srl => if b.toNat < 64 then a >>> b.toNat else corner
  | .sra => if b.toNat < 64 then a.sshiftRight b.toNat else corner
  | .slt => boolWord (a.slt b)
  | .sltu => boolWord (a.ult b)
  | .seq => boolWord (a == b)
  | .mul => a * b
  | .mulh => BitVec.ofInt 64 (a.toInt * b.toInt / 2 ^ 64)
  | .mulhu => BitVec.ofNat 64 (a.toNat * b.toNat / 2 ^ 64)
  | .div => if b = 0 ∨ (a = BitVec.ofNat 64 (2 ^ 63) ∧ b.toInt = -1) then corner else a.sdiv b
  | .divu => if b = 0 then corner else a / b
  | .rem => if b = 0 then corner else a.srem b
  | .remu => if b = 0 then corner else a % b

def State.intSrc (s : State) (d : DieIx) (c : CoreIx) (x : IntSrc) : DWord :=
  match x with
  | .reg r => (s.core d c).getG r
  | .imm i => i.signExtend 64

/-- INTEGER_INSTRUCTION (R76, R77). -/
def execIntegerInstruction (d : DieIx) (c : CoreIx) (op : IntOp) (rd rs1 : Fin 32) (src : IntSrc) (s : State) :
    Host.Outcome State Fault Refusal :=
  onDie d s (fun t => t.insn d c (.integerInstruction d c op rd rs1 src) (fun u =>
    .ok (u.modCore d c (fun k => k.setG rd (intOp op (k.getG rs1) (u.intSrc d c src))))))

/-! ### Scalar memory access (R78, R79) -/

/-- Whether n bytes at a core-local address lie in one of the two ranges. -/
def localMapped (a n : Nat) : Bool := decide (a + n ≤ 0x400000) || (decide (a ≥ 0x800000) && decide (a + n ≤ 0x900000))

/-- Offset in region 0x01 of a core-local address: the bank lies 0x800000 above the scratchpad on both maps. -/
def localOff (c : CoreIx) (a : Nat) : Nat := spBase c.val + a

/-- Address of a MEM-format access. -/
def State.memAddr (s : State) (d : DieIx) (c : CoreIx) (rs1 : Fin 32) (off : BitVec 16) : Nat :=
  ((s.core d c).getG rs1 + off.signExtend 64).toNat

/-- A value read from memory, extended to 64 bits: sign or zero for g registers; the bits above a narrow FP load are not
stated. -/
def extendLoad (size : Nat) (fp signed : Bool) (free : DWord) (v : Nat) : DWord :=
  let w := 8 * 2 ^ size
  let x : DWord := BitVec.ofNat 64 v
  if w ≥ 64 then x
  else if fp then setFld free 0 w v
  else if signed && bitAt x (w - 1) then setFld (BitVec.allOnes 64) 0 w v
  else x

/-- SCALAR_LOAD (R77, R78): size 0 to 3 for 1, 2, 4 or 8 bytes. -/
def execScalarLoad (d : DieIx) (c : CoreIx) (size : Fin 4) (fp signed : Bool) (rd rs1 : Fin 32) (off : BitVec 16) (s : State) :
    Host.Outcome State Fault Refusal :=
  onDie d s (fun t => t.insn d c (.scalarLoad d c size fp signed rd rs1 off) (fun u =>
    let a := u.memAddr d c rs1 off
    let n := 2 ^ size.val
    if a % n ≠ 0 then .trap (trapDataAlign a)
    else if !localMapped a n then .trap (trapDataMap a)
    else if a ≥ 0x800000 ∧ u.bankHeld d c then .stall .bank
    else
      let r := u.memRead (u.kernelAccess d c) d 1 (localOff c a) n
      if r.poison.any id then .trapIn r.state (trapPoison a)
      else
        let v := extendLoad size.val fp signed u.free (leNat r.bytes)
        let w := if fp then (r.state.modCore d c (fun k => k.setF rd v)).drawFree else r.state.modCore d c (fun k => k.setG rd v)
        .ok w))

/-- SCALAR_STORE (R77, R78): the low bytes of a g or f register; reading a poisoned f register faults (R162). -/
def execScalarStore (d : DieIx) (c : CoreIx) (size : Fin 4) (fp : Bool) (rs2 rs1 : Fin 32) (off : BitVec 16) (s : State) :
    Host.Outcome State Fault Refusal :=
  onDie d s (fun t => t.insn d c (.scalarStore d c size fp rs2 rs1 off) (fun u =>
    let a := u.memAddr d c rs1 off
    let n := 2 ^ size.val
    let k := u.core d c
    if a % n ≠ 0 then .trap (trapDataAlign a)
    else if !localMapped a n then .trap (trapDataMap a)
    else if a ≥ 0x800000 ∧ u.bankHeld d c then .stall .bank
    else if fp ∧ bitAt k.vec.poison[rs2] 0 then .trap (trapVector 3 0 0)
    else
      let v := if fp then k.getF rs2 else k.getG rs2
      .ok (u.memWrite (u.kernelAccess d c) d 1 (localOff c a) (leBytes n v.toNat) (List.replicate n false))))

/-! ### Branches and calls (R76, R77) -/

def brTaken (b : BrCond) (x y : DWord) : Bool :=
  match b with
  | .eq => x == y
  | .ne => x != y
  | .lt => x.slt y
  | .ge => !x.slt y
  | .ltu => x.ult y
  | .geu => !x.ult y

/-- CONDITIONAL_BRANCH: the offset counts instructions from the branch. -/
def execConditionalBranch (d : DieIx) (c : CoreIx) (cond : BrCond) (rs1 rs2 : Fin 32) (off : BitVec 16) (s : State) :
    Host.Outcome State Fault Refusal :=
  onDie d s (fun t => t.insn d c (.conditionalBranch d c cond rs1 rs2 off) (fun u =>
    let k := u.core d c
    if brTaken cond (k.getG rs1) (k.getG rs2) then .jump u (k.proc.pc + (off.signExtend 64 <<< 2)) else .ok u))

/-- CALL: relative, with the address of the next instruction as link. -/
def execCall (d : DieIx) (c : CoreIx) (rd : Fin 32) (off : BitVec 21) (s : State) : Host.Outcome State Fault Refusal :=
  onDie d s (fun t => t.insn d c (.call d c rd off) (fun u =>
    let pc := (u.core d c).proc.pc
    .jump (u.modCore d c (fun k => k.setG rd (pc + 4))) (pc + (off.signExtend 64 <<< 2))))

/-- CALLR: through a register, with link. -/
def execCallr (d : DieIx) (c : CoreIx) (rd rs1 : Fin 32) (s : State) : Host.Outcome State Fault Refusal :=
  onDie d s (fun t => t.insn d c (.callr d c rd rs1) (fun u =>
    let k := u.core d c
    .jump (u.modCore d c (fun x => x.setG rd (k.proc.pc + 4))) (k.getG rs1)))

/-! ### Scalar floating point (R67, R75, R143, R162) -/

/-- Which registers a scalar FP operation reads: f operands in order. -/
def fpReads (op : FpOp) (rs1 rs2 rs3 : Fin 32) : List (Fin 32) :=
  match op with
  | .moveFromG | .cvtFromInt => []
  | .sqrt | .abs | .neg | .cvtToInt | .cvtTo32 | .cvtTo64 | .moveToG => [rs1]
  | .fma | .fms | .fnma => [rs1, rs2, rs3]
  | _ => [rs1, rs2]

/-- A result: a g value or FP bits. -/
inductive FpDest where
  | g (v : DWord)
  | f (bits : Nat) (dbl : Bool)

/-- The value and the flags of a scalar FP operation; FP registers give their low 32 or all 64 bits. -/
def fpEval (op : FpOp) (dbl : Bool) (mode : Rnd) (a b e gi : DWord) : FpDest × BitVec 8 :=
  let f : Fmt := if dbl then .fp64 else .fp32
  let w := fun (x : DWord) => if dbl then x.toNat else x.toNat % 2 ^ 32
  let z : Gen := ⟨0, 0, false, 0⟩
  let out := fun (o : FpOut) => (FpDest.f o.bits dbl, o.ieee)
  let tst := fun (r : Bool × BitVec 8) => (FpDest.g (boolWord r.1), r.2)
  match op with
  | .add => out (ieeeBin .add f mode (w a) (w b) z)
  | .sub => out (ieeeBin .sub f mode (w a) (w b) z)
  | .mul => out (ieeeBin .mul f mode (w a) (w b) z)
  | .div => out (ieeeBin .div f mode (w a) (w b) z)
  | .sqrt => out (ieeeSqrt f mode (w a) z)
  | .fma => out (ieeeFma .fma f mode (w a) (w b) (w e) z)
  | .fms => out (ieeeFma .fms f mode (w a) (w b) (w e) z)
  | .fnma => out (ieeeFma .fnma f mode (w a) (w b) (w e) z)
  | .min => out (ieeeMinMax false f (w a) (w b) z)
  | .max => out (ieeeMinMax true f (w a) (w b) z)
  | .abs => (.f (absBits f (w a)) dbl, 0)
  | .neg => (.f (negBits f (w a)) dbl, 0)
  | .sgnj => (.f (sgnjBits f (w a) (w b)) dbl, 0)
  | .eq => tst (ieeeCmp .eq f (w a) (w b))
  | .lt => tst (ieeeCmp .lt f (w a) (w b))
  | .le => tst (ieeeCmp .le f (w a) (w b))
  | .unord => tst (ieeeCmp .unord f (w a) (w b))
  | .cvtToInt => let o := floatToInt f 64 mode (w a) z; (.g (BitVec.ofNat 64 o.bits), o.ieee)
  | .cvtFromInt => out (intToFloat f 64 mode gi.toNat z)
  | .cvtTo32 => let o := ieeeConvert .fp64 .fp32 mode a.toNat z; (.f o.bits false, o.ieee)
  | .cvtTo64 => let o := ieeeConvert .fp32 .fp64 mode (a.toNat % 2 ^ 32) z; (.f o.bits true, o.ieee)
  | .moveToG => (.g (if dbl then a else a &&& 0xFFFFFFFF), 0)
  | .moveFromG => (.f (w gi) dbl, 0)

/-- SCALAR_FP (R75, R143): FPCTL rounds and collects the sticky flags; bits [63:32] of an FP32 result are not stated.
DESIGN CHOICE (log 154): the REG format (R76) has no field for a third source register, and the spec does not say where rs3 of fma,
fms and fnma stands: the command names it, and no bit of the word is compared with it. -/
def execScalarFp (d : DieIx) (c : CoreIx) (op : FpOp) (dbl : Bool) (rd rs1 rs2 rs3 : Fin 32) (s : State) :
    Host.Outcome State Fault Refusal :=
  onDie d s (fun t => t.insn d c (.scalarFp d c op dbl rd rs1 rs2 rs3) (fun u =>
    let k := u.core d c
    if (fpReads op rs1 rs2 rs3).any (fun r => bitAt k.vec.poison[r] 0) then .trap (trapVector 3 0 0)
    else
      let mode := (roundCode (fld k.proc.fpctl 0 3)).getD .rne
      let r := fpEval op dbl mode (k.getF rs1) (k.getF rs2) (k.getF rs3) (k.getG rs1)
      let u1 := u.modCore d c (fun x => { x with proc := { x.proc with fpctl := x.proc.fpctl ||| r.2.setWidth 64 } })
      match r.1 with
      | .g v => .ok (u1.modCore d c (fun x => x.setG rd v))
      | .f b wide =>
        let v : DWord := if wide then BitVec.ofNat 64 b else setFld u.free 0 32 b
        .ok (u1.modCore d c (fun x => x.setF rd v)).drawFree))

/-! ### Control registers and the SYS instructions (R75, R77) -/

/-- Value of a control register; `none` for a reserved number. -/
def State.ctlReg (s : State) (d : DieIx) (c : CoreIx) (num : BitVec 11) : Option DWord :=
  let p := (s.core d c).proc
  match num.toNat with
  | 0x020 => some p.xcause
  | 0x021 => some p.xpc
  | 0x022 => some p.xaddr
  | 0x040 => some p.fpctl
  | 0x060 => some (s.stamp d)
  | 0x061 => some ((s.endpoint d c.val).setWidth 64)
  | _ => none

/-- CTLRD (R75). -/
def execCtlrd (d : DieIx) (c : CoreIx) (rd : Fin 32) (num : BitVec 11) (s : State) : Host.Outcome State Fault Refusal :=
  onDie d s (fun t => t.insn d c (.ctlrd d c rd num) (fun u =>
    match u.ctlReg d c num with
    | none => .trap trapIllegal
    | some v => .ok (u.modCore d c (fun k => k.setG rd v))))

/-- CTLWR (R7, R75): FPCTL takes a legal ROUND code and its flags; writes of read-only registers are ignored. -/
def execCtlwr (d : DieIx) (c : CoreIx) (rs1 : Fin 32) (num : BitVec 11) (s : State) : Host.Outcome State Fault Refusal :=
  onDie d s (fun t => t.insn d c (.ctlwr d c rs1 num) (fun u =>
    match u.ctlReg d c num with
    | none => .trap trapIllegal
    | some _ =>
      if num.toNat = 0x040 then
        let v := (u.core d c).getG rs1
        if [0, 1, 4, 5].contains (fld v 0 3) then
          .ok (u.modCore d c (fun k => { k with proc := { k.proc with fpctl := v &&& 0xFF } }))
        else .trap trapIllegal
      else .ok u))

/-- CPUSH (R77, R86, R136): the descriptor at a core-local address claims the window of the core's own queue and is pushed in one
step; it stalls while the queue is full or another endpoint holds the claim. -/
def execCpush (d : DieIx) (c : CoreIx) (rs1 : Fin 32) (s : State) : Host.Outcome State Fault Refusal :=
  onDie d s (fun t => t.insn d c (.cpush d c rs1) (fun u =>
    let a := ((u.core d c).getG rs1).toNat
    let q := (u.core d c).queue
    let own := Issuer.ep (u.endpoint d c.val)
    if !localMapped a 64 then .trap (trapDataMap a)
    else if a + 64 > 0x800000 ∧ u.bankHeld d c then .stall .bank
    else if q.entries.length ≥ 64 ∨ !q.backlog.isEmpty ∨ q.claim.any (fun k => decide (k.issuer ≠ own)) then .stall .queue
    else
      let r := u.memRead (u.kernelAccess d c) d 1 (localOff c a) 64
      let x := descOf r.bytes
      -- listed first: a command that completes inside its push is noted too
      let v := if dKind x ≥ 0x20 ∧ dKind x ≤ 0x22 then r.state.modCore d c (fun k => { k with pushed := k.pushed ++ [q.nextIdent] })
        else r.state
      .ok (v.windowWrite d (.core c) own 0 r.bytes (r.poison.any id))))

/-- WAITSTROKE (R77). -/
def execWaitstroke (d : DieIx) (c : CoreIx) (s : State) : Host.Outcome State Fault Refusal :=
  onDie d s (fun t => t.insn d c (.waitstroke d c) (fun u =>
    .ok (u.modCore d c (fun k => { k with proc := { k.proc with waitStroke := true } }))))

/-- BRK (R79). -/
def execBrk (d : DieIx) (c : CoreIx) (s : State) : Host.Outcome State Fault Refusal :=
  onDie d s (fun t => t.insn d c (.brk d c) (fun _ => .trap trapBreak))

/-- END (R90). -/
def execEndK (d : DieIx) (c : CoreIx) (rs1 : Fin 32) (s : State) : Host.Outcome State Fault Refusal :=
  onDie d s (fun t => t.insn d c (.endK d c rs1) (fun u => .fin u (((u.core d c).getG rs1).setWidth 32)))

/-! ### Matrix issue (R136) -/

/-- MXWAIT: waits until at most imm16 of the kernel's matrix commands are incomplete; a negative count is illegal. -/
def execMxwait (d : DieIx) (c : CoreIx) (rd : Fin 32) (imm : BitVec 16) (s : State) : Host.Outcome State Fault Refusal :=
  onDie d s (fun t => t.insn d c (.mxwait d c rd imm) (fun u =>
    let k := u.core d c
    if bitAt imm 15 then .trap trapIllegal
    else if k.pushed.length > imm.toNat then .stall .queue
    else .ok (u.modCore d c (fun x => x.setG rd (k.firstBad.setWidth 64)))))

/-- MXLAT. -/
def execMxlat (d : DieIx) (c : CoreIx) (rd : Fin 32) (s : State) : Host.Outcome State Fault Refusal :=
  onDie d s (fun t => t.insn d c (.mxlat d c rd) (fun u =>
    .ok (u.modCore d c (fun x => x.setG rd ((u.mxLat d c).setWidth 64)))))

end Sys2Proof.Machine
end

