-- ==== Sys2Proof/Machine/Reduce.lean ====
section
/-! DEFINITION. The reduction engine's ALLREDUCE: contributions, sums, results, agreed scales and deadlines (R363 to R372, R374 to
R379, R381 to R383). -/

namespace Sys2Proof.Machine

/-! ### Payload (R383) -/

def aBucket (x : Desc) : Nat := dAux x % 65536
def aGroup (x : Desc) : Nat := dAux x / 65536 % 16
def arChunks (x : Desc) : Nat := dn x 56 2
def arSrcFmt (x : Desc) : Option Fmt := if fld x (8 * 62) 4 = 1 then some .fp32 else if fld x (8 * 62) 4 = 2 then some .wf16 else none

/-! ### Trailers (R364) -/

structure ChunkTail where
  crc : Nat
  sum : Nat
  emax : Option Int
  scale : Nat
  nan : Bool
  sat : Bool
  failed : Bool
  cover : Nat
  next : Nat
deriving DecidableEq, Repr

def emaxBytes (e : Option Int) : List Byte :=
  match e with
  | none => leBytes 2 0x8000
  | some v => leBytes 2 (v % 65536).toNat

def emaxOf (n : Nat) : Option Int := if n = 0x8000 then none else some (signedOf 16 n)

def ChunkTail.bytes (t : ChunkTail) : List Byte :=
  leBytes 4 t.crc ++ leBytes 4 t.sum ++ emaxBytes t.emax ++ leBytes 1 t.scale
    ++ leBytes 1 ((if t.nan then 64 else 0) + (if t.sat then 32 else 0) + (if t.failed then 16 else 0))
    ++ leBytes 2 (min t.cover 65535) ++ leBytes 1 t.next ++ leBytes 1 0

def chunkTailOf (bs : List Byte) : ChunkTail :=
  let f := byteAt bs 11
  ⟨leNat (slice bs 0 4), leNat (slice bs 4 4), emaxOf (leNat (slice bs 8 2)), (byteAt bs 10).toNat, bitAt f 6, bitAt f 5, bitAt f 4,
    leNat (slice bs 12 2), (byteAt bs 14).toNat⟩

/-- A FAILED notice (R370, R379, R381): COVER is G for a failed chunk and below G for a missing one. -/
def noticeOf (g cover : Nat) (missing : Bool) : ChunkTail :=
  ⟨0, 0, none, 0, false, false, true, if missing then min cover (min g 65535 - 1) else g, 0⟩

/-- Σ of integers modulo 2³². -/
def sumInts (l : List Int) : Nat := (l.foldl (fun a q => a + q) 0 % 2 ^ 32).toNat

/-- The 896 codes of a WB8 chunk, and the 896 integers of a partial sum. -/
def chunkCodes (bs : List Byte) : List Int := (List.range 896).map (blockCode .wb8 bs)
def partialInts (bs : List Byte) : List Int := (List.range 896).map (fun i => signedOf 32 (leNat (slice bs (4 * i) 4)))
def intBytes (l : List Int) : List Byte := l.flatMap (fun q => leBytes 4 (q % 2 ^ 32).toNat)

/-- Whether bytes match their trailer (R370, R372). -/
def ChunkTail.fits (t : ChunkTail) (bs : List Byte) (codes : List Int) : Bool :=
  decide (t.crc = (crc32c bs).toNat) && decide (t.sum = sumInts codes)

/-! ### The command's chunks -/

def RedRun.size (u : RedRun) : Nat := u.members.length
def RedRun.chunk (u : RedRun) (j : Nat) : RedChunk := u.chunks.getD j RedChunk.start
def RedRun.modChunk (u : RedRun) (j : Nat) (f : RedChunk → RedChunk) : RedRun := { u with chunks := u.chunks.set j (f (u.chunk j)) }
def RedRun.root (u : RedRun) : Nat := u.bucket % u.size

/-- Owner of a chunk (R368, R369). -/
def RedRun.owner (u : RedRun) (j : Nat) : Nat := if u.tree then u.root else j * u.size / u.chunks.length

/-- First chunk that member i owns under the direct algorithm. -/
def RedRun.firstOf (u : RedRun) (i : Nat) : Nat := (i * u.chunks.length + u.size - 1) / u.size

def RedRun.kids (u : RedRun) : List Nat := treeChildren 4 u.size u.root u.my

/-- Whether this member sums a chunk, and whose inputs it needs beside its own. -/
def RedRun.sums (u : RedRun) (j : Nat) : Bool := decide (u.owner j = u.my) || (u.tree && !u.kids.isEmpty)
def RedRun.others (u : RedRun) : List Nat := if u.tree then u.kids else (List.range u.size).filter (fun i => decide (i ≠ u.my))

/-- Where a member sends its contribution or sum of a chunk. -/
def RedRun.up (u : RedRun) (j : Nat) : Nat := if u.tree then (treeParent 4 u.size u.root u.my).getD u.my else u.owner j

/-- Members with which this one exchanges data directly (R42): its tree neighbours, or every chunk owner. -/
def RedRun.peers (u : RedRun) : List Nat :=
  if u.tree then u.kids ++ (treeParent 4 u.size u.root u.my).toList else (List.range u.size).filter (fun i => decide (i ≠ u.my))

/-- Members to which this one forwards the result of a chunk (R368, R369). -/
def RedRun.down (u : RedRun) (j : Nat) : List Nat :=
  if u.tree then u.kids else treeChildren u.deg u.size (u.owner j) u.my

/-- Place of a chunk's INT32 sums in WORK. -/
def RedRun.slot (u : RedRun) (j : Nat) : Nat := if u.tree then j else j - u.firstOf u.my

/-- Chunks in the order of R369: those of the members after this one, then its own. -/
def RedRun.order (u : RedRun) : List Nat :=
  if u.tree then List.range u.chunks.length
  else (List.range u.size).flatMap (fun i =>
    let o := (u.my + 1 + i) % u.size
    List.range' (u.firstOf o) (u.firstOf (o + 1) - u.firstOf o))

def RedRun.member (u : RedRun) (i : Nat) : Endpoint := u.members.getD i 0

/-! ### Messages (R362, R382) -/

/-- Consecutive chunks that travel in one message. -/
structure Parcel where
  dst : Nat
  chunk : Nat
  count : Nat
  data : List Byte
  poison : Bool
deriving DecidableEq, Repr

/-- Join parcels of consecutive chunks for one member, up to a number of chunks; poisoned ones travel alone. -/
def joinParcels (most : Nat) : List Parcel → List Parcel
  | [] => []
  | p :: ps =>
    match joinParcels most ps with
    | [] => [p]
    | q :: qs =>
      if p.dst = q.dst ∧ p.chunk + p.count = q.chunk ∧ p.count + q.count ≤ most ∧ p.poison = false ∧ q.poison = false then
        { p with count := p.count + q.count, data := p.data ++ q.data } :: qs
      else p :: q :: qs

/-- Send parcels of a kind. -/
def State.sendParcels (s : State) (d : DieIx) (u : RedRun) (kind most : Nat) (ps : List Parcel) : State :=
  (joinParcels most ps).foldl (fun t p =>
    t.sendCol d u.ctx kind (u.member p.dst) (colSpec u.bucket p.chunk p.count u.my u.group 0 0) p.data
      (if p.poison then allUnits else 0)) s

/-- Send the result or a notice of a chunk down its tree. -/
def State.sendDown (s : State) (d : DieIx) (u : RedRun) (j : Nat) (data : List Byte) (poison : Bool) : State :=
  s.sendParcels d u 0x12 1 ((u.down j).map (fun i => ⟨i, j, 1, data, poison⟩))

/-! ### The scale table of a command -/

/-- Place of an operand of a command: region × 2³⁹ + offset. -/
def opPlace (x : Desc) (k : Nat) : Nat := (dAddr x k).toNat % 2 ^ 47

def State.redScale (s : State) (d : DieIx) (r : Running) (j : Nat) : Word := s.scaleEntry d (opPlace r.desc 40) j
def State.setRedScale (s : State) (d : DieIx) (r : Running) (j : Nat) (f : Word → Word) : State :=
  s.setScaleEntry d (dJob r.desc) (opPlace r.desc 40) j (f (s.redScale d r j))

/-- A saturation of a chunk was seen (R377). -/
def State.seeSat (s : State) (d : DieIx) (r : Running) (j : Nat) (sat : Bool) : State :=
  if sat then s.setRedScale d r j (fun w => setBit w 17 true) else s

/-- Collect conversion flags in the running command. -/
def State.addFlags (s : State) (d : DieIx) (q : QId) (ident : Nat) (fl : BitVec 8) : State :=
  s.modQueue d q (fun x => { x with running := x.running.map (fun y => if y.ident = ident then { y with flags := y.flags ||| fl } else y) })

/-! ### Contributions (R365) -/

/-- A command's work between events: the state and its record. -/
abbrev RW := State × RedRun

/-- The elements of chunk j of the bucket. -/
def State.srcChunk (s : State) (d : DieIx) (r : Running) (j : Nat) : List Elem × State :=
  let f := (arSrcFmt r.desc).getD .fp32
  let n := 896 * f.elemBytes
  let p := opPlace r.desc 24
  let x := s.memRead ⟨d, dJob r.desc, false⟩ d (p / 2 ^ 39) (p % 2 ^ 39 + n * j) n
  (decodeRow f 896 x.bytes x.poison, x.state)

/-- EMAX of a chunk: of its finite values. -/
def chunkEmax (es : List Elem) : Option Int :=
  let m := maxMag ((es.filter (fun e => !e.poison && e.val.finite)).map (fun e => e.val))
  if m.isZero then none else some m.log2

/-- A quantised contribution. -/
structure Contribution where
  bytes : List Byte
  marks : List Bool
  trailer : ChunkTail
  poison : Bool

/-- Quantise chunk j under the imposed scale S (R57, R365). -/
def State.quantiseChunk (s : State) (d : DieIx) (r : Running) (j scale : Nat) : Contribution × State :=
  let x := s.srcChunk d r j
  let o := encodeRow .wb8 (rndOf (dRnd r.desc)) (some scale) x.1 (x.2.die d).genCol
  let nan := x.1.any (fun e => !e.poison && !e.val.finite)
  let t : ChunkTail := ⟨(crc32c o.bytes).toNat, sumInts (chunkCodes o.bytes), chunkEmax x.1, scale, nan, bitAt o.flags 0, false, 1, 0⟩
  (⟨o.bytes, o.poison, t, o.poisoned⟩,
    (x.2.modDie d (fun y => { y with genCol := o.gen })).addFlags d .col r.ident o.flags)

/-! ### Sums and results (R368 to R371) -/

/-- Bytes of a chunk's sums in WORK. -/
def workPlace (r : Running) (u : RedRun) (j : Nat) : Nat := opPlace r.desc 48 + 3584 * u.slot j

/-- Mark a chunk failed or missing in the member's own result. -/
def RedRun.lose (u : RedRun) (j : Nat) (missing : Bool) : RedRun := u.modChunk j (fun c => { c with got := if missing then 3 else 2 })

/-- A chunk that this member sums is failed or missing: the notice goes up, or down from the owner. -/
def redNotice (d : DieIx) (w : RW) (j : Nat) (missing : Bool) : RW :=
  let u := w.2
  let data := (noticeOf u.size (u.chunk j).cover missing).bytes
  if u.owner j = u.my then (w.1.sendDown d u j data false, u.lose j missing)
  else (w.1.sendParcels d u 0x12 1 [⟨u.up j, j, 1, data, false⟩], u)

/-- A chunk fails its checks here (R370): counted once and logged, with the send stamp of the message that brought the failing input. -/
def redFail (d : DieIx) (w : RW) (j dev : Nat) (sent : Option DWord) : RW :=
  if (w.2.chunk j).counted then w
  else
    ((w.1.addSat d rColFail 16 16 1).logFrom d (w.1.endpoint d 63) (w.1.dieGen d) 0x0901 stHallmark (j + w.2.bucket * 65536) sent,
      { w.2.modChunk j (fun c => { c with counted := true }) with fails := w.2.fails + 1, dev := max w.2.dev dev })

/-- Write a result at its place with the table's new scale (R372, R374, R377). -/
def redKeep (d : DieIx) (r : Running) (w : RW) (j : Nat) (bs : List Byte) (marks : List Bool) (t : ChunkTail) (poison : Bool) : RW :=
  let p := opPlace r.desc 32
  let s1 := w.1.memWrite ⟨d, dJob r.desc, false⟩ d (p / 2 ^ 39) (p % 2 ^ 39 + 924 * j) bs marks
  let s2 := if poison then s1 else (s1.setRedScale d r j (fun e => setBit (setFld e 8 8 t.next) 16 true)).seeSat d r j t.sat
  let u1 := w.2.modChunk j (fun c => { c with got := 1 })
  (s2, { u1 with sat := u1.sat || (!poison && (t.sat || t.nan)), poison := u1.poison || poison })

/-- The owner forms the result of a chunk (R371) and forwards it. The conversion into WB8 sets the owner's flags: a NaN chunk has its
blocks written as NaN blocks, of sums that are no NaN themselves, and a clamp ends the command SATURATED (R58, R59). -/
def redResult (d : DieIx) (r : Running) (w : RW) (j : Nat) (ints : List Int) : RW :=
  let c := w.2.chunk j
  let scale := scaleOf (w.1.redScale d r j)
  let es := ints.map (fun q => (⟨0, if c.nan then .nan else .fin (decide (q < 0)) q.natAbs ((scale : Int) - 127), c.poison⟩ : Elem))
  let o := encodeRow .wb8 (rndOf (dRnd r.desc)) none es (w.1.die d).genCol
  let t : ChunkTail := ⟨(crc32c o.bytes).toNat, sumInts (chunkCodes o.bytes), c.emax, scale, c.nan, c.sat, false, c.cover,
    scaleFrom c.emax scale⟩
  let s1 := (w.1.modDie d (fun y => { y with genCol := o.gen })).addFlags d .col r.ident (if c.nan then flagBlockNan else o.flags)
  let clamped := !c.nan && bitAt o.flags 0
  let w1 := redKeep d r (s1, { w.2 with sat := w.2.sat || clamped }) j o.bytes o.poison t c.poison
  (w1.1.sendDown d w1.2 j (o.bytes ++ t.bytes) c.poison, w1.2)

/-- Once every input of a chunk is in, check it and pass it on (R368 to R370). -/
def redSum (d : DieIx) (r : Running) (w : RW) (j : Nat) : RW :=
  let u := w.2
  let c := u.chunk j
  if c.summed ∨ !c.own ∨ !u.others.all (fun i => c.inputs.contains i) then w
  else
    let u1 := u.modChunk j (fun c => { c with summed := true })
    if c.failed then redNotice d (w.1, u1) j false
    else if c.missing then redNotice d (w.1, u1) j true
    else
      let p := workPlace r u j
      let x := w.1.memRead ⟨d, dJob r.desc, false⟩ d (p / 2 ^ 39) (p % 2 ^ 39) 3584
      let ints := partialInts x.bytes
      let bad := c.poison || x.poison.any id
      let u2 := u1.modChunk j (fun c => { c with poison := bad })
      let dev := signedOf 32 ((sumInts ints + 2 ^ 32 - c.sums) % 2 ^ 32)
      if !bad ∧ dev ≠ 0 then redNotice d (redFail d (x.state, u2) j dev.natAbs none) j false
      else if u.owner j = u.my then redResult d r (x.state, u2) j ints
      else
        let t : ChunkTail := ⟨(crc32c x.bytes).toNat, sumInts ints, c.emax, scaleOf (x.state.redScale d r j), c.nan, c.sat, false, c.cover, 0⟩
        (x.state.sendParcels d u2 0x11 1 [⟨u.up j, j, 1, x.bytes ++ t.bytes, bad⟩], u2)

def maxEmax (a b : Option Int) : Option Int :=
  match a, b with
  | some x, some y => some (max x y)
  | some x, none => some x
  | none, y => y

/-- Add an input into the chunk's sums; `upset` is what a fault of the adders flips in the first of them. -/
def redAdd (d : DieIx) (r : Running) (w : RW) (j : Nat) (codes : List Int) (t : ChunkTail) (poison : Bool) (upset : Word) : RW :=
  let c := w.2.chunk j
  let p := workPlace r w.2 j
  let a : Access := ⟨d, dJob r.desc, false⟩
  let old := w.1.memRead a d (p / 2 ^ 39) (p % 2 ^ 39) 3584
  let base := if c.cover = 0 then List.replicate 896 0 else partialInts old.bytes
  let s1 := if c.cover = 0 then w.1 else old.state
  let marked := poison || (decide (c.cover ≠ 0) && old.poison.any id)
  let ints := List.zipWith (fun a b => a + b) base codes
  let bs := intBytes ints
  let bs1 := leBytes 4 (Nat.xor (leNat (bs.take 4)) upset.toNat) ++ bs.drop 4
  let s2 := s1.memWrite a d (p / 2 ^ 39) (p % 2 ^ 39) bs1 (List.replicate 3584 marked)
  (s2, w.2.modChunk j (fun c => { c with
    cover := c.cover + t.cover, sums := (c.sums + t.sum) % 2 ^ 32, emax := maxEmax c.emax t.emax
    sat := c.sat || t.sat, nan := c.nan || t.nan, poison := c.poison || marked }))

/-- Quantise the own contribution of a chunk whose scale is set: into the own sums, or as a parcel for its summing member. -/
def redOwn (d : DieIx) (r : Running) (w : RW) (j : Nat) : RW × List Parcel :=
  let scale := scaleOf (w.1.redScale d r j)
  let q := w.1.quantiseChunk d r j scale
  let t := q.1.trailer
  let u1 := w.2.modChunk j (fun c => { c with own := true })
  let u2 := { u1 with sat := u1.sat || t.sat || t.nan, poison := u1.poison || q.1.poison }
  let s1 := q.2.seeSat d r j t.sat
  let bad := q.1.poison || (u2.chunk j).poison
  if u2.sums j then (redSum d r (redAdd d r (s1, u2) j (chunkCodes q.1.bytes) t bad 0) j, [])
  else ((s1, u2), [⟨u2.up j, j, 1, q.1.bytes ++ t.bytes, bad⟩])

/-! ### Agreed scales (R375, R376) -/

/-- Count a proposal at the owner; once all members have proposed the scale is set, and is to go to every member. -/
def redPropose (d : DieIx) (r : Running) (w : RW) (j idx : Nat) (e : Option Int) : RW × List (Nat × Nat) :=
  if (w.2.chunk j).props.contains idx then (w, [])
  else
    let u1 := w.2.modChunk j (fun c => { c with props := c.props ++ [idx], propMax := maxEmax c.propMax e })
    if (u1.chunk j).props.length < u1.size then ((w.1, u1), [])
    else
      let scale := scaleFrom (u1.chunk j).propMax 127
      ((redOwn d r (w.1.setRedScale d r j (fun x => setFld x 0 8 scale), u1) j).1, [(j, scale)])

/-- What a member has to send after some chunks have been worked on: contributions, scales that the owner has set, proposals,
corrections. -/
structure RedOut where
  contribs : List Parcel
  sets : List (Nat × Nat)
  answers : List Parcel
  proposes : List Parcel
  fixes : List Parcel

def RedOut.none : RedOut := ⟨[], [], [], [], []⟩
def RedOut.plus (a b : RedOut) : RedOut :=
  ⟨a.contribs ++ b.contribs, a.sets ++ b.sets, a.answers ++ b.answers, a.proposes ++ b.proposes, a.fixes ++ b.fixes⟩

/-- SCALE_SET for every other member of the group. -/
def RedRun.spread (u : RedRun) (l : List (Nat × Nat)) : List Parcel :=
  ((List.range u.size).filter (fun i => decide (i ≠ u.my))).flatMap (fun i => l.map (fun p => ⟨i, p.1, 1, leBytes 1 p.2, false⟩))

def State.sendOut (s : State) (d : DieIx) (u : RedRun) (o : RedOut) : State :=
  let s1 := (s.sendParcels d u 0x10 4 o.contribs).sendParcels d u 0x14 4032 (o.answers ++ u.spread o.sets)
  (s1.sendParcels d u 0x13 2016 o.proposes).sendParcels d u 0x15 2016 o.fixes

/-- Work on chunks one after another. -/
def redEach (f : RW → Nat → RW × RedOut) (js : List Nat) (w : RW) : RW × RedOut :=
  js.foldl (fun a j =>
    let b := f a.1 j
    (b.1, a.2.plus b.2)) (w, RedOut.none)

/-- The member's own part of a chunk at the start: its contribution, or its proposal while the scale is unset (R375). -/
def redBegin (d : DieIx) (r : Running) (w : RW) (j : Nat) : RW × RedOut :=
  if scaleOf (w.1.redScale d r j) = 255 then
    let x := w.1.srcChunk d r j
    let e := chunkEmax x.1
    if w.2.owner j = w.2.my then
      let p := redPropose d r (x.2, w.2) j w.2.my e
      (p.1, { RedOut.none with sets := p.2 })
    else ((x.2, w.2), { RedOut.none with proposes := [⟨w.2.owner j, j, 1, emaxBytes e, false⟩] })
  else
    let q := redOwn d r w j
    (q.1, { RedOut.none with contribs := q.2 })

/-! ### Completion (R381) -/

def State.saveRed (s : State) (d : DieIx) (u : RedRun) : State :=
  s.modDie d (fun x => { x with reds := x.reds.map (fun v => if v.ident = u.ident then u else v) })

/-- Whether a command has sent, summed and received everything. -/
def RedRun.complete (u : RedRun) : Bool :=
  (List.range u.chunks.length).all (fun j =>
    let c := u.chunk j
    c.own && (!u.sums j || c.summed) && decide (c.got ≠ 0))

def RedRun.hall (u : RedRun) : Word :=
  hallWord 4 (decide (u.fails ≠ 0)) 0 (devExact (Fpv.ofInt u.dev) (pow2 0)) u.fails

/-- The attempt's record of a bucket that is complete (R267, R379). -/
def State.bucketOver (s : State) (d : DieIx) (k bucket : Nat) (sts : List Nat) : State :=
  s.modCommit d k (fun c =>
    { c with finished := c.finished ++ [bucket], chunkBad := if c.chunkBad = 0 then pickStatus sts else c.chunkBad })

/-- End an ALLREDUCE. -/
def State.redFinish (s : State) (d : DieIx) (u : RedRun) : State :=
  match (s.queue d .col).running.find? (fun r => decide (r.ident = u.ident)) with
  | none => s
  | some r =>
    let count := fun (p : RedChunk → Bool) => min (u.chunks.filter p).length 65535
    let detail := count (fun c => decide (c.got = 0 ∨ c.got = 3)) * 65536 + count (fun c => decide (c.got = 2))
    let s1 := s.bucketOver d u.ctx u.bucket u.statuses
    let s2 := if u.fails = 0 then s1 else s1.quarantine d 63 (s.endpoint d 63) r.desc u.hall none 0
    s2.finish d .col r ⟨u.statuses, r.flags, u.hall, BitVec.ofNat 32 detail⟩

/-- Keep the command's record, and end it once it is complete. -/
def redSettle (d : DieIx) (w : RW) : State :=
  let s := w.1.saveRed d w.2
  if w.2.complete then s.redFinish d w.2 else s

/-! ### Arriving messages -/

/-- Chunk numbers that a message carries. -/
def msgChunks (m : Msg) : List Nat := List.range' (msgChunk0 m) (msgCount m)

/-- Whether a message names this command's group, a member of it, and chunks of the bucket, with n bytes for each. -/
def RedRun.fitsMsg (u : RedRun) (m : Msg) (n : Nat) : Bool :=
  decide (msgGroup m = u.group) && decide (msgSrcIdx m < u.size) && decide (msgChunk0 m + msgCount m ≤ u.chunks.length)
    && decide (m.data.length = n * msgCount m)

/-- An input of a chunk: from a child or a contributing member (R368 to R370, R376); its own check comes before its scale. -/
def redInput (d : DieIx) (r : Running) (m : Msg) (upset : Word) (w : RW) (j : Nat) (codes : List Int) (bytes : List Byte)
    (t : ChunkTail) : RW × RedOut :=
  let src := msgSrcIdx m
  let poison := msgPoisoned m
  let u := w.2
  let c := u.chunk j
  if !u.sums j ∨ !u.others.contains src ∨ c.inputs.contains src ∨ c.summed then (w, RedOut.none)
  else
    let u1 := u.modChunk j (fun c => { c with inputs := c.inputs ++ [src] })
    let e := w.1.redScale d r j
    if t.failed then
      let f := decide (t.cover ≥ min u.size 65535)
      (redSum d r (w.1, u1.modChunk j (fun c => { c with failed := c.failed || f, missing := c.missing || !f })) j, RedOut.none)
    else if !poison ∧ !t.fits bytes codes then
      (redSum d r (redFail d (w.1, u1.modChunk j (fun c => { c with failed := true })) j 1 (some m.stamp)) j, RedOut.none)
    else if t.scale ≠ scaleOf e ∨ scaleOf e = 255 then
      (redSum d r (w.1.countAttempt d, u1.modChunk j (fun c => { c with missing := true })) j,
        { RedOut.none with fixes := [⟨src, j, 1, leBytes 1 (scaleOf e) ++ leBytes 1 (if satSeen e then 1 else 0), false⟩] })
    else (redSum d r (redAdd d r (w.1, u1) j codes t poison upset) j, RedOut.none)

/-- Whether an input of a chunk has to wait for the member's own scale (R368): below the root of a tree while it is unset. -/
def State.awaitsChunk (s : State) (d : DieIx) (r : Running) (u : RedRun) (j : Nat) : Bool :=
  u.tree && decide (u.root ≠ u.my) && decide (scaleOf (s.redScale d r j) = 255)

/-- A CONTRIB message: the chunks whose scale is set. -/
def redContrib (d : DieIx) (r : Running) (m : Msg) (upset : Word) (w : RW) : RW × RedOut :=
  if !w.2.fitsMsg m 940 then (w, RedOut.none)
  else redEach (fun w j =>
    let bs := slice m.data (940 * (j - msgChunk0 m)) 924
    let t := chunkTailOf (slice m.data (940 * (j - msgChunk0 m) + 924) 16)
    redInput d r m upset w j (chunkCodes bs) bs t) ((msgChunks m).filter (fun j => !w.1.awaitsChunk d r w.2 j)) w

/-- A PARTIAL message. -/
def redPartial (d : DieIx) (r : Running) (m : Msg) (upset : Word) (w : RW) : RW × RedOut :=
  let j := msgChunk0 m
  if msgGroup m ≠ w.2.group ∨ msgSrcIdx m ≥ w.2.size ∨ msgCount m ≠ 1 ∨ j ≥ w.2.chunks.length ∨ w.1.awaitsChunk d r w.2 j then (w, RedOut.none)
  else if m.data.length = 3600 then
    let t := chunkTailOf (m.data.drop 3584)
    redInput d r m upset (w.1.seeSat d r j t.sat, w.2) j (partialInts m.data) (m.data.take 3584) t
  else (w, RedOut.none)

/-- One chunk of a RESULT: written and forwarded, or a notice (R372). -/
def redTake (d : DieIx) (r : Running) (m : Msg) (w : RW) (j : Nat) (data : List Byte) : RW :=
  let poison := msgPoisoned m
  let u := w.2
  if (u.chunk j).got ≠ 0 then w
  else if data.length = 16 then
    (w.1.sendDown d u j data false, u.lose j (decide ((chunkTailOf data).cover < min u.size 65535)))
  else
    let bs := data.take 924
    let t := chunkTailOf (data.drop 924)
    if poison then
      let w1 := redKeep d r w j bs (List.replicate 924 true) t true
      (w1.1.sendDown d u j data true, w1.2)
    else if t.fits bs (chunkCodes bs) then
      let w1 := redKeep d r w j bs (List.replicate 924 false) t false
      (w1.1.sendDown d u j data false, w1.2)
    else
      let s1 := (w.1.addSat d rColFail 0 16 1).logCaused d m 0x0901 stHallmark (j + u.bucket * 65536)
      (s1.sendDown d u j (noticeOf u.size u.size false).bytes false, { u with fails := u.fails + 1, dev := max u.dev 1 }.lose j false)

/-- A RESULT message: results and notices from above, and a child's FAILED notice in place of its input (R370, R382). -/
def redResults (d : DieIx) (r : Running) (m : Msg) (w : RW) : RW × RedOut :=
  if m.data.length = 16 ∧ msgCount m = 1 ∧ msgGroup m = w.2.group ∧ msgSrcIdx m < w.2.size ∧ msgChunk0 m < w.2.chunks.length then
    (if w.2.tree ∧ w.2.kids.contains (msgSrcIdx m) then redInput d r m 0 w (msgChunk0 m) [] [] (chunkTailOf m.data)
     else (redTake d r m w (msgChunk0 m) m.data, RedOut.none))
  else if !w.2.fitsMsg m 940 then (w, RedOut.none)
  else redEach (fun w j => (redTake d r m w j (slice m.data (940 * (j - msgChunk0 m)) 940), RedOut.none)) (msgChunks m) w

/-- SCALE_PROPOSE at the owner (R375). -/
def redProposal (d : DieIx) (r : Running) (m : Msg) (w : RW) : RW × RedOut :=
  if !w.2.fitsMsg m 2 then (w, RedOut.none)
  else redEach (fun w j =>
    let e := scaleOf (w.1.redScale d r j)
    if w.2.owner j ≠ w.2.my then (w, RedOut.none)
    else if e ≠ 255 then (w, { RedOut.none with answers := [⟨msgSrcIdx m, j, 1, leBytes 1 e, false⟩] })
    else
      let p := redPropose d r w j (msgSrcIdx m) (emaxOf (leNat (slice m.data (2 * (j - msgChunk0 m)) 2)))
      (p.1, { RedOut.none with sets := p.2 })) (msgChunks m) w

/-- SCALE_SET at a member (R375): it writes S and quantises. -/
def redSet (d : DieIx) (r : Running) (m : Msg) (w : RW) : RW × RedOut :=
  if !w.2.fitsMsg m 1 then (w, RedOut.none)
  else redEach (fun w j =>
    if (w.2.chunk j).own then (w, RedOut.none)
    else
      let v := (byteAt m.data (j - msgChunk0 m)).toNat
      let q := redOwn d r (w.1.setRedScale d r j (fun x => setFld x 0 8 v), w.2) j
      (q.1, { RedOut.none with contribs := q.2 })) (msgChunks m) w

/-- SCALE_FIX at a sender (R376). -/
def redFix (d : DieIx) (r : Running) (m : Msg) (w : RW) : RW × RedOut :=
  if !w.2.fitsMsg m 2 then (w, RedOut.none)
  else redEach (fun w j =>
    let v := slice m.data (2 * (j - msgChunk0 m)) 2
    ((w.1.setRedScale d r j (fun x =>
      setBit (setBit (setFld x 0 8 (byteAt v 0).toNat) 17 (bitAt (byteAt v 1) 0)) 16 false), w.2), RedOut.none)) (msgChunks m) w

/-- Whether a message reaches its summing member or receiver too late (R379). -/
def RedRun.late (u : RedRun) (now : Stroke) (kind : Nat) : Bool :=
  if kind = 0x10 ∨ kind = 0x11 ∨ kind = 0x13 then begun now u.dc else if kind = 0x12 then begun now u.dr else false

/-- Whether a message brings an input that has to wait for the scale of its chunk (R368). -/
def State.awaitsScale (s : State) (d : DieIx) (r : Running) (u : RedRun) (m : Msg) : Bool :=
  decide (m.mkind = 0x10 ∨ m.mkind = 0x11) && (msgChunks m).any (s.awaitsChunk d r u)

/-- The command of a message's context and bucket. -/
def State.redOf (s : State) (d : DieIx) (m : Msg) : Option (RedRun × Running) :=
  match s.colCtx d m.job with
  | none => none
  | some k =>
    match (s.die d).reds.find? (fun u => decide (u.ctx = k) && decide (u.bucket = msgBucket m)) with
    | none => none
    | some u => ((s.queue d .col).running.find? (fun r => decide (r.ident = u.ident))).map (fun r => (u, r))

/-- Whether the running ALLREDUCE of a message's bucket holds the message for a scale (R368). -/
def State.redHolds (s : State) (d : DieIx) (m : Msg) : Bool :=
  match s.redOf d m with
  | none => false
  | some p => !p.1.late (s.stroke d) m.mkind.toNat && s.awaitsScale d p.2 p.1 m

/-- Hand a message to the running ALLREDUCE of its bucket, once; it stays in the early buffer as long as a chunk of it waits for its scale. -/
def State.redHandle (s : State) (d : DieIx) (m : Msg) (upset : Word) : State :=
  match s.redOf d m with
  | none => s
  | some p =>
    let u := p.1
    let r := p.2
    let kind := m.mkind.toNat
    if u.late (s.stroke d) kind then s.countLate d
    else
      let t := if s.awaitsScale d r u m then (s.holdEarly d m).getD s else s
      let w : RW × RedOut := match kind with
        | 0x10 => redContrib d r m upset (t, u)
        | 0x11 => redPartial d r m upset (t, u)
        | 0x12 => redResults d r m (t, u)
        | 0x13 => redProposal d r m (t, u)
        | 0x14 => redSet d r m (t, u)
        | 0x15 => redFix d r m (t, u)
        | _ => ((t, u), RedOut.none)
      redSettle d ((w.1.1.sendOut d w.1.2 w.2), w.1.2)

/-- Hand the messages held for a bucket to its command (R378). -/
def State.redEarly (s : State) (d : DieIx) (k bucket : Nat) : State :=
  ((s.die d).early.filter (fun m => decide (s.colCtx d m.job = some k) && decide (msgBucket m = bucket) && decide (m.mkind.toNat ≤ 0x15)
      && decide (m.mkind.toNat ≥ 0x10))).foldl (fun t m =>
    (t.modDie d (fun x => { x with early := x.early.erase m })).redHandle d m 0) s

/-- What the die's HBM lets the engine do. -/
def State.colGate (s : State) (d : DieIx) : Gate := if s.testHold d then .fenced else if s.hbmServes d then .go else .wait

/-- An arriving message of a kind (R378, R379): dropped and counted, held while its bucket's command has not started, or handed
to the command, which may hold it; a message to be held stays in the inbox while the early buffer is full, every message while the HBM
does not serve. -/
def State.colReceive (s : State) (d : DieIx) (kind : Nat) (m : Msg) (runs holds : Bool) (k : State → State) : State :=
  if m.mkind.toNat ≠ kind ∨ s.colGate d ≠ .go then s
  else
    let t := (s.takeMsg d m).wake d
    match s.colDrop d m with
    | some c => t.addSat d c.1 c.2 16 1
    | none =>
      if s.bucketDone d m then t.countLate d
      else if (!runs ∨ holds) ∧ t.earlyFull d m then s
      else if runs then k t
      else (t.holdEarly d m).getD t

def State.redMessage (s : State) (d : DieIx) (kind : Nat) (m : Msg) (upset : Word) : State :=
  s.colReceive d kind m (s.redOf d m).isSome (s.redHolds d m) (fun t =>
    let u := t.redHandle d m upset
    if kind = 0x14 then u.redEarly d ((s.colCtx d m.job).getD 0) (msgBucket m) else u)

/-- CONTRIB (R370, R376). -/
def execContrib (d : DieIx) (m : Msg) (upset : Word) (s : State) : Host.Outcome State Fault Refusal :=
  onDie d s (fun t => t.redMessage d 0x10 m upset)

/-- PARTIAL (R368). -/
def execPartialMsg (d : DieIx) (m : Msg) (upset : Word) (s : State) : Host.Outcome State Fault Refusal :=
  onDie d s (fun t => t.redMessage d 0x11 m upset)

/-- SCALE_PROPOSE (R375). -/
def execScalePropose (d : DieIx) (m : Msg) (s : State) : Host.Outcome State Fault Refusal :=
  onDie d s (fun t => t.redMessage d 0x13 m 0)

/-- SCALE_SET (R375). -/
def execScaleSet (d : DieIx) (m : Msg) (s : State) : Host.Outcome State Fault Refusal :=
  onDie d s (fun t => t.redMessage d 0x14 m 0)

/-- SCALE_FIX (R376). -/
def execScaleFix (d : DieIx) (m : Msg) (s : State) : Host.Outcome State Fault Refusal :=
  onDie d s (fun t => t.redMessage d 0x15 m 0)

/-! ### The start (R360, R361, R367, R380, R381) -/

/-- Whether n bytes at an operand lie in the die's own region 0x00 or 0x01 where an engine may touch them (R18, R20, R225). -/
def State.ownRange (s : State) (d : DieIx) (a : BoardAddr) (n : Nat) : Bool :=
  let l := locOf a
  s.isLocal d a && decide (l.region ≤ 1) && s.decodes d a n && !inService l.region l.off n && (decide (l.region = 1) || !s.storeHit d l.off n)

/-- Whether n bytes at an operand also avoid every open bucket. -/
def State.ownClear (s : State) (d : DieIx) (a : BoardAddr) (n : Nat) : Bool :=
  let l := locOf a
  s.ownRange d a n && (decide (l.region = 1) || decide (s.bucketHit d 0 l.off n none = .none))

/-- Whether an operand touches a service region (R18). -/
def touchesService (a : BoardAddr) (n : Nat) : Bool := inService (locOf a).region (locOf a).off n

/-- Reserved codes and fields of an ALLREDUCE (R381). -/
def arFormat (x : Desc) : Bool :=
  dAddrOk x 24 && dAddrOk x 32 && dAddrOk x 40 && dAddrOk x 48 && decide (dn x 58 2 = 0) && decide (dn x 63 1 = 0)
    && decide (fld x (8 * 62 + 4) 2 ≠ 3) && decide (fld x (8 * 62 + 6) 2 = 0) && (arSrcFmt x).isSome
    && decide (dn x 60 1 ≠ 0) && decide (dn x 61 1 ≠ 0) && decide (dn x 60 1 ≤ dn x 61 1)

/-- Whether a command matches its context at its start (R380). -/
def State.colMatches (s : State) (d : DieIx) (k : Nat) (x : Desc) : Bool :=
  decide (dEpoch x = s.colEpoch d k) && decide (dStep x = s.stepOf d k)

/-- A command whose encodings and operands are acceptable goes on when its die is not fenced and its context matches (R380, R381): the format
errors come first (R96). -/
def State.colGo (s : State) (d : DieIx) (q : QId) (r : Running) (c : Nat) (k : State → State) : State :=
  if s.dieFenced d then s.stopEarly d q r stFenced
  else if !s.colMatches d c r.desc then s.stopEarly d q r stAborted
  else k s

/-- Find the context and the group of a command that starts: FORMAT_ERROR for a reserved field or without them; a no-op consults neither
(R11). Poison in the entry reaches what the command delivers, and ends nothing early (R314, R316). -/
def State.colBegin (s : State) (d : DieIx) (q : QId) (r : Running) (group : Nat) (ok noop : Bool) (k : Nat → Group → State → State) :
    State :=
  if !ok then s.stopEarly d q r stFormat
  else if noop then s.finish d q r { Result.ok with hallmark := if q = .col then hallEmpty else 0 }
  else
  match s.colCtx d (dJob r.desc) with
  | none => s.stopEarly d q r stFormat
  | some c =>
    match s.colGate d with
    | .fenced => s.stopEarly d q r stFenced
    | .wait => s
    | .go =>
      match s.groupOf d c group with
      | (none, t) => t.stopEarly d q r stFormat
      | (some g, t) => k c g t

/-- Record of an ALLREDUCE that starts (R367), by the COL_ALG that stood when its command started (R391). -/
def redNew (r : Running) (k : Nat) (g : Group) : RedRun :=
  let x := r.desc
  let n := arChunks x
  let alg := fld x (8 * 62 + 4) 2
  { ident := r.ident, ctx := k, job := dJob x, bucket := aBucket x, group := aGroup x, members := g.members, my := g.my
    tree := decide (alg = 1) || (decide (alg = 0) && decide (n * 924 < fld r.alg 16 16 * 1024))
    deg := fld r.alg 0 3, dc := deadlineBase r + dn x 60 1, dr := deadlineBase r + dn x 61 1
    chunks := List.replicate n { RedChunk.start with poison := g.bad }, fails := 0, dev := 0, sat := false, poison := g.bad }

/-- Whether the operands of an ALLREDUCE are acceptable (R381). -/
def State.redOk (s : State) (d : DieIx) (r : Running) (k : Nat) (u : RedRun) : Bool :=
  let x := r.desc
  let n := u.chunks.length
  let c := s.commit d k
  !c.buckets.contains u.bucket && decide (c.buckets.length < 64)
    && s.ownClear d (dAddr x 24) (n * 896 * ((arSrcFmt x).getD .fp32).elemBytes) && s.ownClear d (dAddr x 32) (n * 924)
    && s.ownClear d (dAddr x 40) (4 * n)
    && s.ownClear d (dAddr x 48) (3584 * ((List.range n).filter (fun j => u.sums j)).length)

/-- The engine reads the scale table: poison of an entry reaches its chunk (R314). -/
def State.redTable (s : State) (d : DieIx) (r : Running) (u : RedRun) : RW :=
  (List.range u.chunks.length).foldl (fun w j =>
    let e := w.1.readScale d (dJob r.desc) (opPlace r.desc 40) j
    (e.2.2, if e.2.1 then { w.2.modChunk j (fun c => { c with poison := true }) with poison := true } else w.2)) (s, u)

/-- The member's own part of an ALLREDUCE, then the messages that came before it (R365, R367 to R369, R375, R378). -/
def State.redWork (s : State) (d : DieIx) (r : Running) (k : Nat) (u : RedRun) : State :=
  let v := s.redTable d r u
  let t := (v.1.addPeers d u.job (u.peers.map u.member)).modDie d (fun y => { y with reds := y.reds ++ [v.2] })
  let w := redEach (redBegin d r) u.order (t, v.2)
  (redSettle d (w.1.1.sendOut d w.1.2 w.2, w.1.2)).redEarly d k u.bucket

/-- ALLREDUCE's start. -/
def State.redStart (s : State) (d : DieIx) (r : Running) : State :=
  let x := r.desc
  s.colBegin d .col r (aGroup x) (arFormat x) (decide (arChunks x = 0)) (fun k g t =>
    let u := redNew r k g
    if !t.redOk d r k u then
      (t.countService (touchesService (dAddr x 24) (arChunks x * 896 * ((arSrcFmt x).getD .fp32).elemBytes) || touchesService (dAddr x 32) (arChunks x * 924)
        || touchesService (dAddr x 40) (arChunks x * 4) || touchesService (dAddr x 48) (3584 * ((List.range u.chunks.length).filter (fun j => u.sums j)).length))).stopEarly d .col r stFormat
    else t.colGo d .col r k (fun v =>
      (v.modCommit d k (fun c => { c with buckets := c.buckets ++ [u.bucket], tables := c.tables ++ [(opPlace x 40, arChunks x)] })).redWork d r k u))

/-- Whether a running command of the reduction engine has begun its work. -/
def State.colStarted (s : State) (d : DieIx) (ident : Nat) : Bool :=
  (s.die d).reds.any (fun u => decide (u.ident = ident)) || (s.die d).gathers.any (fun u => decide (u.ident = ident))

/-- Commands of the backward pass (R26): a matrix command with a derivative, DERIVATIVE pops, the backward rows and ADJOINT. -/
def backwardCmd (x : Desc) : Bool :=
  [0x81, 0x92, 0x93, 0x46].contains (dKind x) || (decide (dKind x = 0x21) && decide (fld x (8 * 53 + 4) 4 ≠ 0))

/-- Whether the member's backward pass for the command's step is unfinished (R26): a backward command of its JOB and STEP is queued or
running on the die, or a bucket of its JOB other than those that SRC meets (R381) still accumulates. DEDUCED (log 170): the engine
knows the pass by these commands and buckets. -/
def State.backwardLeft (s : State) (d : DieIx) (x : Desc) : Bool :=
  let mine := fun (y : Desc) => backwardCmd y && decide (dJob y = dJob x) && decide (dStep y = dStep x)
  let l := locOf (dAddr x 24)
  let n := arChunks x * 896 * ((arSrcFmt x).getD .fp32).elemBytes
  allQueues.any (fun q => (s.queue d q).running.any (fun r => mine r.desc) || (s.queue d q).entries.any (fun e => mine e.desc))
    || (s.die d).buckets.any (fun b => decide (b.job = dJob x) && !(s.isLocal d (dAddr x 24) && decide (l.region = 0) && overlaps b.base b.bytes l.off n))

/-- ALLREDUCE (R363 to R371, R381): the next command of the kind that has started does the member's own part, once the member's
backward pass for the step is over (R26). -/
def execAllreduce (d : DieIx) (s : State) : Host.Outcome State Fault Refusal :=
  onDie d s (fun t => withGrant t d .col (fun r => decide (dKind r.desc = 0x50) && !t.colStarted d r.ident && !t.backwardLeft d r.desc)
    (fun r v => v.redStart d r))

/-! ### Deadlines (R379) -/

/-- At D_C every chunk that still lacks an input at its summing member is missing. -/
def redCut (d : DieIx) (w : RW) (j : Nat) : RW :=
  let c := w.2.chunk j
  if !w.2.sums j ∨ c.summed then w
  else redNotice d (w.1, w.2.modChunk j (fun c => { c with summed := true, missing := true })) j true

/-- CONTRIBUTION_DEADLINE (R379). -/
def execContributionDeadline (d : DieIx) (s : State) : Host.Outcome State Fault Refusal :=
  onDie d s (fun t =>
    ((t.die d).reds.filter (fun u => begun (t.stroke d) u.dc)).foldl (fun v u =>
      redSettle d ((List.range u.chunks.length).foldl (fun w j => redCut d w j) (v, u))) t)

/-- A command that still waits to begin at its D_R (R26, R93) completes there with everything missing (R379). -/
def State.colUnbegun (s : State) (d : DieIx) : State :=
  ((s.queue d .col).running.filter (fun r => !s.colStarted d r.ident
      && begun (s.stroke d) (deadlineBase r + dn r.desc 61 1))).foldl (fun v r =>
    let t := match v.colCtx d (dJob r.desc) with
      | some k => v.bucketOver d k (aBucket r.desc) [stTimeout]
      | none => v
    t.finish d .col r ⟨[stTimeout], 0, hallEmpty, BitVec.ofNat 32 (if dKind r.desc = 0x50 then min (arChunks r.desc) 65535 * 65536 else 0)⟩) s

/-- At D_R every ALLREDUCE that still runs completes. -/
def State.redDeadline (s : State) (d : DieIx) : State :=
  ((s.die d).reds.filter (fun u => begun (s.stroke d) u.dr)).foldl (fun v u => v.redFinish d u) (s.colUnbegun d)

end Sys2Proof.Machine
end

