-- ==== Sys2Proof/Machine/Gather.lean ====
section
/-! DEFINITION. The reduction engine's ALLGATHER and BROADCAST, and RESULT messages for either kind of command (R372, R373, R379,
R381 to R383). -/

namespace Sys2Proof.Machine

/-! ### Payload (R383) -/

def gLen (x : Desc) : Nat := dn x 56 4
def gRoot (x : Desc) : Nat := dn x 40 4

/-- Reserved fields of both kinds. -/
def gFormat (bcast : Bool) (x : Desc) : Bool :=
  dAddrOk x 24 && dAddrOk x 32 && decide (dn x 60 1 = 0) && decide (dn x 61 1 ≠ 0) && decide (dn x 62 2 = 0) && decide (dn x 48 8 = 0)
    && (if bcast then decide (dn x 44 4 = 0) else decide (dn x 40 8 = 0))

/-! ### The command's record -/

def GatherRun.size (u : GatherRun) : Nat := u.members.length
def GatherRun.member (u : GatherRun) (i : Nat) : Endpoint := u.members.getD i 0

/-- Members to which a shard is forwarded from here. -/
def GatherRun.down (u : GatherRun) (shard : Nat) : List Nat := treeChildren u.deg u.size shard u.my

/-- Neighbours in the trees of the shards (R42). -/
def GatherRun.peers (u : GatherRun) : List Nat :=
  (((if u.shards.contains u.my then u.shards else u.my :: u.shards).flatMap (fun r =>
    treeChildren u.deg u.size r u.my ++ (treeParent u.deg u.size r u.my).toList)).filter (fun i => decide (i ≠ u.my))).eraseDups

/-- Place of a shard at this member's DST. -/
def GatherRun.place (u : GatherRun) (shard : Nat) : Nat := u.dst + u.step * shard

def State.saveGather (s : State) (d : DieIx) (u : GatherRun) : State :=
  s.modDie d (fun x => { x with gathers := x.gathers.map (fun v => if v.ident = u.ident then u else v) })

/-- Send a piece of a shard with its marks, or the notice in its place, down the shard's tree. -/
def State.sendShard (s : State) (d : DieIx) (u : GatherRun) (kind shard off : Nat) (data : List Byte) (marks : DWord) : State :=
  (u.down shard).foldl (fun t i =>
    t.sendCol d u.ctx kind (u.member i) (colSpec u.bucket 0 1 shard u.group (if kind = 0x16 then dataCheck data else 0) off) data marks) s

/-- Whether every piece of every shard has come. -/
def GatherRun.complete (u : GatherRun) : Bool :=
  u.shards.all (fun i => (piecesOf u.len).all (fun p => u.pieces.any (fun q => decide (q.1 = i ∧ q.2.1 = p.1))))

def GatherRun.statuses (u : GatherRun) : List Nat :=
  (if u.poison then [stPoison] else []) ++ (if u.pieces.any (fun q => !q.2.2) then [stHallmark] else [])
    ++ (if u.complete then [] else [stTimeout])

def GatherRun.hall (u : GatherRun) : Word :=
  hallWord 4 (decide (u.fails ≠ 0)) 0 (if u.fails = 0 then devNone else 0) u.fails

/-- End an ALLGATHER or BROADCAST. -/
def State.gatherFinish (s : State) (d : DieIx) (u : GatherRun) : State :=
  match (s.queue d .col).running.find? (fun r => decide (r.ident = u.ident)) with
  | none => s
  | some r =>
    let s1 := s.bucketOver d u.ctx u.bucket u.statuses
    let s2 := if u.fails = 0 then s1 else s1.quarantine d 63 (s.endpoint d 63) r.desc u.hall none 0
    s2.finish d .col r ⟨u.statuses, r.flags, u.hall, 0⟩

def State.gatherSettle (s : State) (d : DieIx) (u : GatherRun) : State :=
  let t := s.saveGather d u
  if u.complete then t.gatherFinish d u else t

/-! ### Arriving pieces -/

def State.gatherOf (s : State) (d : DieIx) (m : Msg) : Option GatherRun :=
  match s.colCtx d m.job with
  | none => none
  | some k => (s.die d).gathers.find? (fun u => decide (u.ctx = k) && decide (u.bucket = msgBucket m))

/-- Write data at a place of the die's own memory. -/
def State.writeAt (s : State) (d : DieIx) (job : BitVec 12) (place : Nat) (bs : List Byte) (ps : List Bool) : State :=
  s.memWrite ⟨d, job, false⟩ d (place / 2 ^ 39) (place % 2 ^ 39) bs ps

/-- A piece of a shard, or the notice of a lost one (R372, R373); poisoned units are written and forwarded as they came (R315). -/
def State.gatherTake (s : State) (d : DieIx) (u : GatherRun) (m : Msg) : State :=
  let i := msgSrcIdx m
  let off := msgOffset m
  let known := u.pieces.any (fun q => decide (q.1 = i ∧ q.2.1 = off))
  if begun (s.stroke d) u.dr then s.countLate d
  else if msgGroup m ≠ u.group ∨ !u.shards.contains i ∨ known ∨ !(piecesOf u.len).any (fun p => decide (p.1 = off)) then s
  else if m.mkind = 0x12 then
    (s.sendShard d u 0x12 i off m.data 0).gatherSettle d { u with pieces := u.pieces ++ [(i, off, false)] }
  else if m.data.length ≠ min 4032 (u.len - off) then s
  else if msgPoisoned m ∨ u.taint then
    let s1 := s.writeAt d u.job (u.place i + off) m.data (if u.taint then List.replicate m.data.length true else bytePoison m.poison m.data.length)
    (s1.sendShard d u 0x16 i off m.data (if u.taint then allUnits else m.poison)).gatherSettle d { u with pieces := u.pieces ++ [(i, off, true)], poison := true }
  else if dataCheck m.data = msgCheck m then
    let s1 := s.writeAt d u.job (u.place i + off) m.data (List.replicate m.data.length false)
    (s1.sendShard d u 0x16 i off m.data 0).gatherSettle d { u with pieces := u.pieces ++ [(i, off, true)] }
  else
    let s1 := (s.addSat d rColFail 0 16 1).logCaused d m 0x0901 stHallmark (u.bucket * 65536)
    (s1.sendShard d u 0x12 i off (noticeOf u.size u.size false).bytes 0).gatherSettle d
      { u with pieces := u.pieces ++ [(i, off, false)], fails := u.fails + 1 }

/-- Hand the messages held for a bucket to its command. -/
def State.gatherEarly (s : State) (d : DieIx) (k bucket : Nat) : State :=
  ((s.die d).early.filter (fun m => decide (s.colCtx d m.job = some k) && decide (msgBucket m = bucket)
      && decide (m.mkind = 0x16 ∨ m.mkind = 0x12))).foldl (fun t m =>
    let t1 := t.modDie d (fun x => { x with early := x.early.erase m })
    match t1.gatherOf d m with
    | some u => t1.gatherTake d u m
    | none => t1) s

/-- GATHER (R373). -/
def execGather (d : DieIx) (m : Msg) (s : State) : Host.Outcome State Fault Refusal :=
  onDie d s (fun t => t.colReceive d 0x16 m (t.gatherOf d m).isSome false (fun v =>
    match v.gatherOf d m with
    | some u => v.gatherTake d u m
    | none => v))

/-- RESULT (R372): a result chunk or notice for an ALLREDUCE, or the notice of a lost piece of a shard. -/
def execResult (d : DieIx) (m : Msg) (s : State) : Host.Outcome State Fault Refusal :=
  onDie d s (fun t =>
    match t.gatherOf d m with
    | some u => t.colReceive d 0x12 m true false (fun v => v.gatherTake d u m)
    | none => t.redMessage d 0x12 m 0)

/-! ### The start -/

/-- Read n bytes of the die's own memory at a place. -/
def State.readAt (s : State) (d : DieIx) (job : BitVec 12) (place n : Nat) : ReadOut :=
  s.memRead ⟨d, job, false⟩ d (place / 2 ^ 39) (place % 2 ^ 39) n

/-- Send the own shard in pieces of at most 4,032 bytes. -/
def State.sendOwn (s : State) (d : DieIx) (u : GatherRun) (bs : List Byte) (ps : List Bool) : State :=
  (piecesOf u.len).foldl (fun t p => t.sendShard d u 0x16 u.my p.1 (slice bs p.1 p.2) (unitPoison (slice ps p.1 p.2))) s

/-- Record of an ALLGATHER or BROADCAST that starts, by the COL_ALG that stood when its command started (R391). -/
def gatherNew (bcast : Bool) (r : Running) (k : Nat) (g : Group) : GatherRun :=
  let x := r.desc
  let root := gRoot x
  let n := gLen x
  { ident := r.ident, ctx := k, job := dJob x, bucket := aBucket x, group := aGroup x, members := g.members, my := g.my
    deg := fld r.alg 0 3, dr := deadlineBase r + dn x 61 1, len := n, dst := opPlace x 32, step := if bcast then 0 else n
    shards := if bcast then (if root = g.my then [] else [root]) else (List.range g.members.length).filter (fun i => decide (i ≠ g.my))
    pieces := [], poison := g.bad, taint := g.bad, fails := 0 }

/-- The member's own part of an ALLGATHER or BROADCAST, then the pieces that came before it. -/
def State.gatherWork (s : State) (d : DieIx) (r : Running) (sends : Bool) (k : Nat) (u : GatherRun) : State :=
  let t := (s.addPeers d u.job (u.peers.map u.member)).modDie d (fun y => { y with gathers := y.gathers ++ [u] })
  if !sends then (t.gatherSettle d u).gatherEarly d k u.bucket
  else
    let b := t.readAt d u.job (opPlace r.desc 24) u.len
    let marks := b.poison.map (fun p => p || u.taint)
    let v := (b.state.writeAt d u.job (u.place u.my) b.bytes marks).sendOwn d u b.bytes marks
    (v.gatherSettle d { u with poison := marks.any id }).gatherEarly d k u.bucket

/-- Begin an ALLGATHER or BROADCAST: the own shard goes to its tree and, where it differs from SRC, to DST. -/
def State.gatherStart (s : State) (d : DieIx) (bcast : Bool) (r : Running) : State :=
  let x := r.desc
  let n := gLen x
  s.colBegin d .col r (aGroup x) (gFormat bcast x) (decide (n = 0)) (fun k g t =>
    let root := gRoot x
    let sends := !bcast || decide (root = g.my)
    let total := if bcast then n else n * g.members.length
    let u := gatherNew bcast r k g
    if bcast ∧ root ≥ g.members.length then t.stopEarly d .col r stFormat
    else if (sends && !t.ownClear d (dAddr x 24) n) || !t.ownClear d (dAddr x 32) total then
      (t.countService ((sends && touchesService (dAddr x 24) n) || touchesService (dAddr x 32) total)).stopEarly d .col r stFormat
    else t.colGo d .col r k (fun v => v.gatherWork d r sends k u))

/-- ALLGATHER (R372, R373). -/
def execAllgather (d : DieIx) (s : State) : Host.Outcome State Fault Refusal :=
  onDie d s (fun t => withGrant t d .col (fun r => decide (dKind r.desc = 0x51) && !t.colStarted d r.ident) (fun r v => v.gatherStart d false r))

/-- BROADCAST (R372, R373). -/
def execBroadcast (d : DieIx) (s : State) : Host.Outcome State Fault Refusal :=
  onDie d s (fun t => withGrant t d .col (fun r => decide (dKind r.desc = 0x52) && !t.colStarted d r.ident) (fun r v => v.gatherStart d true r))

/-- At D_R every ALLGATHER and BROADCAST that still runs completes (R379). -/
def State.gatherDeadline (s : State) (d : DieIx) : State :=
  ((s.die d).gathers.filter (fun u => begun (s.stroke d) u.dr)).foldl (fun v u => v.gatherFinish d u) s

end Sys2Proof.Machine
end

