-- ==== Sys2Proof/Machine/Exchange.lean ====
section
/-! DEFINITION. The token exchange engine: DISPATCH, COMBINE and their messages (R384 to R389), and the result deadline of every
collective command (R379). -/

namespace Sys2Proof.Machine

/-! ### The exchange record (R384) -/

def xeN (b : List Byte) (k n : Nat) : Nat := leNat (slice b k n)
def xeRoute (b : List Byte) : Nat := xeN b 0 8
def xeSrc (b : List Byte) : Nat := xeN b 8 8
def xeTable (b : List Byte) : Nat := xeN b 16 8
def xeXbuf (b : List Byte) : Nat := xeN b 24 8
def xeStride (b : List Byte) : Nat := xeN b 32 8
def xePlan (b : List Byte) : Nat := xeN b 40 8
def xeDst (b : List Byte) : Nat := xeN b 48 8
def xeTok (b : List Byte) : Nat := xeN b 56 4
def xeLen (b : List Byte) : Nat := xeN b 60 4
def xeExp (b : List Byte) : Nat := xeN b 64 2
def xeK (b : List Byte) : Nat := xeN b 66 1
def xeFmt (b : List Byte) : Option Fmt := Fmt.ofCode (xeN b 67 1 % 16)
def xeSlotRows (b : List Byte) : Bool := bitAt (byteAt b 67) 4
def xeRot (b : List Byte) : Nat := xeN b 68 4
def xeGroup (b : List Byte) : Nat := xeN b 72 1 % 16

/-- Bytes of a row and slots of this member. -/
def xeRow (b : List Byte) : Nat := ((xeFmt b).getD .fp64).rowBytes (xeLen b)
def xeSlots (b : List Byte) : Nat := xeTok b * xeK b

/-- Reserved codes and fields of the record. -/
def xeFormat (b : List Byte) : Bool :=
  [0, 8, 16, 24, 40, 48].all (fun k => decide (xeN b k 8 < 2 ^ 52)) && (xeFmt b).isSome && decide (xeN b 67 1 < 32)
    && decide (1 ≤ xeExp b) && decide (xeExp b ≤ 4096) && decide (1 ≤ xeK b) && decide (xeK b ≤ 8) && decide (xeN b 72 1 < 16)
    && (slice b 73 55).all (fun x => decide (x = 0))

/-- Reserved fields of the commands (R389). -/
def txFormat (combine : Bool) (x : Desc) : Bool :=
  dAddrOk x 24 && decide (dn x 32 1 < (if combine then 1 else 2)) && decide (dn x 33 1 ≠ 0) && (List.range 30).all (fun i => decide (dn x (34 + i) 1 = 0))

/-! ### The command's record -/

def slotNone : Nat := 2 ^ 31
def slotDropped : Nat := 2 ^ 30

def TxRun.size (u : TxRun) : Nat := u.members.length
def TxRun.member (u : TxRun) (i : Nat) : Endpoint := u.members.getD i 0
def TxRun.row (u : TxRun) : Nat := xeRow u.record
def TxRun.nslots (u : TxRun) : Nat := xeSlots u.record

/-- Owner, LOCAL and CAP of an expert. -/
def TxRun.expert (u : TxRun) (e : Nat) : Nat × Nat × Nat := u.table.getD e (0, 0, 0)

/-- Local experts of a member: one more than the largest LOCAL. -/
def TxRun.locals (u : TxRun) (o : Nat) : Nat := ((u.table.filter (fun t => t.1 == o)).map (fun t => t.2.1 + 1)).foldl max 0

/-- CAP of a local expert of this member. -/
def TxRun.cap (u : TxRun) (l : Nat) : Nat := ((u.table.find? (fun t => decide (t.1 = u.my ∧ t.2.1 = l))).map (fun t => t.2.2)).getD 0

/-- Members that own at least one expert. -/
def TxRun.owners (u : TxRun) : List Nat := (u.table.map (fun t => t.1)).eraseDups

/-- Slots routed to local expert l of owner o, in (t, k) order. -/
def TxRun.slotsOf (u : TxRun) (o l : Nat) : List Nat :=
  (List.range u.nslots).filter (fun i =>
    let e := u.routes.getD i 0xFFFF
    decide (e ≠ 0xFFFF) && (let t := u.expert e
      decide (t.1 = o ∧ t.2.1 = l)))

/-- Accepted ones among them, by the plan. -/
def TxRun.acceptedOf (u : TxRun) (o l : Nat) : List Nat :=
  (u.slotsOf o l).filter (fun i => match u.slots.getD i none with
    | some w => decide (w < slotDropped)
    | none => false)

/-- Place of bytes in the buffer of a local expert. -/
def TxRun.bufPlace (u : TxRun) (l off : Nat) : Nat := xeXbuf u.record % 2 ^ 47 + l * xeStride u.record + off

/-- Dropped slots of this member. -/
def TxRun.dropped (u : TxRun) : Nat := (u.slots.filter (fun o => decide (o = some slotDropped))).length

def State.saveTx (s : State) (d : DieIx) (u : TxRun) : State :=
  s.modDie d (fun x => { x with exchanges := x.exchanges.map (fun v => if v.ident = u.ident then u else v) })

/-- A token exchange message. -/
def State.sendTx (s : State) (d : DieIx) (u : TxRun) (kind dst loc count off : Nat) (data : List Byte) (marks : DWord) : State :=
  s.sendCol d u.ctx kind (u.member dst) (colSpec loc 0 count u.my u.group (if kind ≥ 0x22 then dataCheck data else 0) off) data marks

/-- Send a table of n-byte entries in parts of at most 4,032 bytes; all of it is marked where what it comes from was poisoned (R314). -/
def State.sendList (s : State) (d : DieIx) (u : TxRun) (kind dst n : Nat) (data : List Byte) : State :=
  (piecesOf data.length).foldl (fun t p => t.sendTx d u kind dst 0 (p.2 / n) p.1 (slice data p.1 p.2) (if u.taint then allUnits else 0)) s

/-- Send a range of row bytes. -/
def State.sendRange (s : State) (d : DieIx) (u : TxRun) (kind dst loc : Nat) (bs : List Byte) (ps : List Bool) : State :=
  (piecesOf bs.length).foldl (fun t p =>
    t.sendTx d u kind dst loc 1 p.1 (slice bs p.1 p.2) (unitPoison ((slice ps p.1 p.2).map (fun m => m || u.taint)))) s

/-! ### Rows that arrive (R386, R388) -/

/-- Keep what has come of an expected range. -/
def TxRun.got (u : TxRun) (l i off n : Nat) (poison : Bool) : TxRun :=
  { u with rows := u.rows ++ [(l, i, off, n)], poison := u.poison || poison }

/-- OFF of source i in the buffer of a local expert. -/
def TxRun.offOf (u : TxRun) (l i : Nat) : Nat :=
  ((u.grants.find? (fun g => decide (g.1 = u.my ∧ g.2.1 = i ∧ g.2.2.1 = l))).map (fun g => g.2.2.2.1)).getD 0

/-- Rows for local expert l from source i, written into its buffer. -/
def State.takeRows (s : State) (d : DieIx) (u : TxRun) (l i off : Nat) (bs : List Byte) (ps : List Bool) : State × TxRun :=
  (s.writeAt d u.job (u.bufPlace l (u.offOf l i * u.row + off)) bs (ps.map (fun m => m || u.taint)), u.got l i off bs.length (ps.any id))

/-- Parts of a byte range [off, off + n) by row: row number, offset in the row, offset in the data, bytes. -/
def rowParts (w off n : Nat) : List (Nat × Nat × Nat × Nat) :=
  if w = 0 ∨ n = 0 then []
  else (List.range' (off / w) ((off + n - 1) / w + 1 - off / w)).map (fun k =>
    let a := max off (k * w)
    let b := min (off + n) ((k + 1) * w)
    (k, a - k * w, a - off, b - a))

/-- Rows returned by local expert l of owner o, written to their slots. -/
def State.takeReturn (s : State) (d : DieIx) (u : TxRun) (l o off : Nat) (bs : List Byte) (ps : List Bool) : State × TxRun :=
  let slots := u.acceptedOf o l
  let t := (rowParts u.row off bs.length).foldl (fun t p =>
    t.writeAt d u.job (xeDst u.record % 2 ^ 47 + slots.getD p.1 0 * u.row + p.2.1) (slice bs p.2.2.1 p.2.2.2)
      ((slice ps p.2.2.1 p.2.2.2).map (fun m => m || u.taint))) s
  (t, u.got l o off bs.length (ps.any id))

/-! ### Placing, granting, sending (R385, R386) -/

/-- OFF and ACCEPTED of every source of local expert l in the order from ROT on. -/
def placeSources (cap rot g : Nat) (n : Nat → Nat) : List (Nat × Nat × Nat) :=
  ((List.range g).foldl (fun (a : Nat × List (Nat × Nat × Nat)) k =>
    let s := (rot + k) % g
    let acc := min (n s) (cap - a.1)
    (a.1 + acc, a.2 ++ [(s, a.1, acc)])) (0, [])).2

/-- Ranges that an owner expects, and grants, once the sources are placed. -/
def TxRun.expectRows (u : TxRun) : TxRun :=
  { u with expect := u.expect ++ ((u.grants.filter (fun g => g.1 == u.my && decide (g.2.2.2.2 > 0))).map (fun g =>
      (g.2.2.1, g.2.1, g.2.2.2.2 * u.row))) }

/-- Rows of this member's source area for slots. -/
def State.slotRows (s : State) (d : DieIx) (u : TxRun) (l : List Nat) : (List Byte × List Bool) × State :=
  l.foldl (fun a i =>
    let k := if xeSlotRows u.record then i else i / xeK u.record
    let x := a.2.readAt d u.job (xeSrc u.record % 2 ^ 47 + k * u.row) u.row
    ((a.1.1 ++ x.bytes, a.1.2 ++ x.poison), x.state)) (([], []), s)

/-- Send the accepted rows for local expert l of owner o, or write them where this member owns it. -/
def State.sendRows (s : State) (d : DieIx) (u : TxRun) (o l : Nat) : State × TxRun :=
  let x := s.slotRows d u (u.acceptedOf o l)
  let u1 := { u with poison := u.poison || x.1.2.any id }
  if x.1.1.isEmpty then (x.2, u1)
  else if o = u.my then x.2.takeRows d u1 l o 0 x.1.1 x.1.2
  else (x.2.sendRange d u1 0x22 o l x.1.1 x.1.2, u1)

/-- What an owner's grants do at a source: the first ACCEPTED slots of each expert get their rows, the others are dropped. -/
def State.useGrants (s : State) (d : DieIx) (u : TxRun) (o : Nat) : State × TxRun :=
  (List.range (u.locals o)).foldl (fun w l =>
    match w.2.grants.find? (fun g => decide (g.1 = o ∧ g.2.1 = w.2.my ∧ g.2.2.1 = l)) with
    | none => w
    | some g =>
      let mine := w.2.slotsOf o l
      let entry := fun (i : Nat) =>
        let k := mine.idxOf i
        if k < g.2.2.2.2 then g.2.2.2.1 + k else slotDropped
      let slots := (List.range w.2.nslots).map (fun i => if mine.contains i then some (entry i) else w.2.slots.getD i none)
      let lost := mine.length - min mine.length g.2.2.2.2
      (w.1.addSat d rTxeDrop 0 32 lost).sendRows d { w.2 with slots := slots } o l) (s, u)

/-- Once the counts of all members are in, an owner places the sources and grants (R385). -/
def State.grantAll (s : State) (d : DieIx) (u : TxRun) : State × TxRun :=
  let nl := u.locals u.my
  let done := (List.range u.size).all (fun i => u.counts.any (fun c => c.1 == i && decide (c.2.length ≥ nl)))
  if u.granted ∨ nl = 0 ∨ !done then (s, u)
  else
    let count := fun (i l : Nat) => ((u.counts.find? (fun c => c.1 == i)).map (fun c => c.2.getD l 0)).getD 0
    let places := (List.range nl).flatMap (fun l =>
      (placeSources (u.cap l) (xeRot u.record) u.size (fun i => count i l)).map (fun p => (u.my, p.1, l, p.2.1, p.2.2)))
    let u1 := { u with granted := true, grants := u.grants ++ places }.expectRows
    let s1 := ((List.range u.size).filter (fun i => decide (i ≠ u.my))).foldl (fun t i =>
      let data := (List.range nl).flatMap (fun l =>
        match places.find? (fun g => decide (g.2.1 = i ∧ g.2.2.1 = l)) with
        | some g => leBytes 4 g.2.2.2.1 ++ leBytes 4 g.2.2.2.2
        | none => leBytes 8 0)
      t.sendList d u1 0x21 i 8 data) s
    s1.useGrants d u1 u.my

/-! ### The plan (R387) and completion (R389) -/

/-- Whether the source part and, at an owner, the owner part of the plan are known. -/
def TxRun.planReady (u : TxRun) : Bool := u.slots.all Option.isSome && (decide (u.locals u.my = 0) || u.granted)

def TxRun.planHeader (u : TxRun) (x : Desc) (att : Nat) : List Byte :=
  leBytes 4 u.job.toNat ++ leBytes 4 (dStep x) ++ leBytes 4 att ++ leBytes 4 (xeTok u.record) ++ leBytes 4 (xeK u.record)
    ++ leBytes 4 u.size ++ leBytes 4 (xeExp u.record)

def TxRun.planBytes (u : TxRun) (x : Desc) (att : Nat) : List Byte :=
  let grant := fun (l i : Nat) => (u.grants.find? (fun g => decide (g.1 = u.my ∧ g.2.1 = i ∧ g.2.2.1 = l))).map (fun g => g.2.2.2)
  u.planHeader x att ++ leBytes 36 0 ++ u.slots.flatMap (fun o => leBytes 4 (o.getD slotNone))
    ++ (List.range (u.locals u.my)).flatMap (fun l =>
      let row := (List.range u.size).map (fun i => (grant l i).getD (0, 0))
      leBytes 8 (row.foldl (fun a p => a + p.2) 0) ++ row.flatMap (fun p => leBytes 4 p.1 ++ leBytes 4 p.2))

/-- Bytes of the plan. -/
def planSize (slots nl g : Nat) : Nat := 64 + 4 * slots + nl * (8 + 8 * g)

def TxRun.received (u : TxRun) : Bool :=
  u.expect.all (fun e => decide (((u.rows.filter (fun r => decide (r.1 = e.1 ∧ r.2.1 = e.2.1))).foldl (fun a r => a + r.2.2.2) 0) ≥ e.2.2))

def TxRun.complete (u : TxRun) : Bool := u.planned && u.received

/-- Write the plan once it is known. -/
def State.planWrite (s : State) (d : DieIx) (x : Desc) (u : TxRun) : State × TxRun :=
  if u.planned ∨ !u.planReady then (s, u)
  else
    let bs := u.planBytes x (s.rf d (rCmtStat u.ctx) 24 8)
    (s.writeAt d u.job (xePlan u.record % 2 ^ 47) bs (List.replicate bs.length u.taint), { u with planned := true })

/-- End a token exchange command. -/
def State.txFinish (s : State) (d : DieIx) (u : TxRun) : State :=
  match (s.queue d .txe).running.find? (fun r => decide (r.ident = u.ident)) with
  | none => s
  | some r =>
    let sts := (if u.poison then [stPoison] else []) ++ (if u.fails ≠ 0 then [stHallmark] else []) ++ (if u.complete then [] else [stTimeout])
    let s1 := if pickStatus sts = stTimeout then s.addSat d rTxeFail 0 16 1 else s
    s1.finish d .txe r ⟨sts, r.flags, 0, BitVec.ofNat 32 (min u.dropped (2 ^ 32 - 1))⟩

/-- Keep the command's record, write the plan when it is known, and end the command when it is complete. -/
def State.txSettle (s : State) (d : DieIx) (u : TxRun) : State :=
  match (s.queue d .txe).running.find? (fun r => decide (r.ident = u.ident)) with
  | none => s
  | some r =>
    let w := s.planWrite d r.desc u
    let t := w.1.saveTx d w.2
    if w.2.complete then t.txFinish d w.2 else t

/-! ### Arriving messages -/

/-- The running command that a message is for: of its context, its group and its direction. -/
def State.txOf (s : State) (d : DieIx) (m : Msg) : Option TxRun :=
  match s.colCtx d m.job with
  | none => none
  | some k => (s.die d).exchanges.find? (fun u => decide (u.ctx = k) && decide (u.group = msgGroup m) && (u.combine == decide (m.mkind = 0x23)))

/-- Whether a message belongs to a later command of the group: what it brings is already in. -/
def TxRun.already (u : TxRun) (m : Msg) : Bool :=
  let i := msgSrcIdx m
  match m.mkind.toNat with
  | 0x20 => u.replay || u.counts.any (fun c => c.1 == i && decide (c.2.length > msgOffset m / 4))
  | 0x21 => u.replay || decide ((u.grants.filter (fun g => decide (g.1 = i ∧ g.2.1 = u.my))).length > msgOffset m / 8)
  | _ => u.rows.any (fun r => decide (r.1 = msgBucket m ∧ r.2.1 = i ∧ r.2.2.1 = msgOffset m))

/-- A TX_COUNTS message at an owner; poison in it reaches what is granted and delivered (R314). -/
def State.txCounts (s : State) (d : DieIx) (u : TxRun) (m : Msg) : State × TxRun :=
  let i := msgSrcIdx m
  let new := (List.range (m.data.length / 4)).map (fun k => leNat (slice m.data (4 * k) 4))
  let old := ((u.counts.find? (fun c => c.1 == i)).map (fun c => c.2)).getD []
  let bad := msgPoisoned m
  if old.length ≠ msgOffset m / 4 then (s, u)
  else s.grantAll d { u with poison := u.poison || bad, taint := u.taint || bad, counts := u.counts.filter (fun c => c.1 != i) ++ [(i, old ++ new)] }

/-- A TX_GRANT message at a source. -/
def State.txGrant (s : State) (d : DieIx) (u : TxRun) (m : Msg) : State × TxRun :=
  let o := msgSrcIdx m
  let l0 := msgOffset m / 8
  let new := (List.range (m.data.length / 8)).map (fun k =>
    (o, u.my, l0 + k, leNat (slice m.data (8 * k) 4), leNat (slice m.data (8 * k + 4) 4)))
  let bad := msgPoisoned m
  let u1 := { u with grants := u.grants ++ new, poison := u.poison || bad, taint := u.taint || bad }
  if (u1.grants.filter (fun g => decide (g.1 = o ∧ g.2.1 = u.my))).length < u.locals o then (s, u1) else s.useGrants d u1 o

/-- A TX_ROWS or TX_RETURN message: rows that nothing expects are dropped, a failing check leaves them unwritten (R386, R389). -/
def State.txData (s : State) (d : DieIx) (u : TxRun) (m : Msg) : State × TxRun :=
  let l := msgBucket m
  let i := msgSrcIdx m
  let n := m.data.length
  match u.expect.find? (fun e => decide (e.1 = l ∧ e.2.1 = i)) with
  | none => (s, u)
  | some e =>
    if msgOffset m + n > e.2.2 then (s, u)
    else if !msgPoisoned m ∧ dataCheck m.data ≠ msgCheck m then (s.addSat d rTxeFail 16 16 1, { u with fails := u.fails + 1 })
    else if u.combine then s.takeReturn d u l i (msgOffset m) m.data (bytePoison m.poison n)
    else s.takeRows d u l i (msgOffset m) m.data (bytePoison m.poison n)

/-- Hand a message to its command. -/
def State.txHandle (s : State) (d : DieIx) (m : Msg) : State :=
  match s.txOf d m with
  | none => s
  | some u =>
    if begun (s.stroke d) u.dr then s.countLate d
    else if u.already m then (s.holdEarly d m).getD s  -- one that has no room was left where it is
    else if msgSrcIdx m ≥ u.size then s
    else
      let w := match m.mkind.toNat with
        | 0x20 => s.txCounts d u m
        | 0x21 => s.txGrant d u m
        | _ => s.txData d u m
      w.1.txSettle d w.2

/-- Whether the running command of a message's group leaves it to a later one. -/
def State.txHolds (s : State) (d : DieIx) (m : Msg) : Bool :=
  match s.txOf d m with
  | none => false
  | some u => !begun (s.stroke d) u.dr && u.already m

/-- An arriving token exchange message of a kind (R378); one to be held stays in the inbox while the early buffer is full. -/
def State.txReceive (s : State) (d : DieIx) (kind : Nat) (m : Msg) : State :=
  if m.mkind.toNat ≠ kind ∨ s.colGate d ≠ .go then s
  else
    let t := (s.takeMsg d m).wake d
    match s.colDrop d m with
    | some c => t.addSat d c.1 c.2 16 1
    | none =>
      if ((s.txOf d m).isNone ∨ s.txHolds d m) ∧ t.earlyFull d m then s
      else if (s.txOf d m).isSome then t.txHandle d m
      else (t.holdEarly d m).getD t

/-- Hand the messages held for a command to it. -/
def State.txEarly (s : State) (d : DieIx) (k group : Nat) (combine : Bool) : State :=
  ((s.die d).early.filter (fun m => decide (s.colCtx d m.job = some k) && decide (msgGroup m = group) && decide (m.mkind.toNat ≥ 0x20)
      && (combine == decide (m.mkind = 0x23)))).foldl (fun t m =>
    (t.modDie d (fun x => { x with early := x.early.erase m })).txHandle d m) s

/-- TX_COUNTS (R385). -/
def execTxCounts (d : DieIx) (m : Msg) (s : State) : Host.Outcome State Fault Refusal := onDie d s (fun t => t.txReceive d 0x20 m)

/-- TX_GRANT (R385). -/
def execTxGrant (d : DieIx) (m : Msg) (s : State) : Host.Outcome State Fault Refusal := onDie d s (fun t => t.txReceive d 0x21 m)

/-- TX_ROWS (R386). -/
def execTxRows (d : DieIx) (m : Msg) (s : State) : Host.Outcome State Fault Refusal := onDie d s (fun t => t.txReceive d 0x22 m)

/-- TX_RETURN (R388). -/
def execTxReturn (d : DieIx) (m : Msg) (s : State) : Host.Outcome State Fault Refusal := onDie d s (fun t => t.txReceive d 0x23 m)

/-! ### The start -/

/-- Table and routes as read, with their check: owners, LOCAL, CAP and expert numbers (R389). -/
def tableOf (b : List Byte) (n : Nat) : List (Nat × Nat × Nat) :=
  (List.range n).map (fun e => (leNat (slice b (16 * e) 4), leNat (slice b (16 * e + 4) 2), leNat (slice b (16 * e + 6) 4)))

def tableOk (b : List Byte) (n g : Nat) : Bool :=
  (List.range n).all (fun e => decide (leNat (slice b (16 * e) 4) < g) && decide (leNat (slice b (16 * e + 6) 4) < 2 ^ 24)
    && decide (leNat (slice b (16 * e + 10) 6) = 0))

def routesOf (b : List Byte) (n : Nat) : List Nat := (List.range n).map (fun i => leNat (slice b (2 * i) 2))

def addrOf (n : Nat) : BoardAddr := BitVec.ofNat 52 n

/-- Whether an address lies in the die's own region 0x00 or 0x01 (R384). -/
def State.ownPlace (s : State) (d : DieIx) (a : BoardAddr) : Bool := s.isLocal d a && decide ((locOf a).region ≤ 1)

/-- Whether the areas that a command uses are acceptable; every address of the record lies in the die's own region 0x00 or 0x01 (R384). -/
def State.txOk (s : State) (d : DieIx) (u : TxRun) : Bool :=
  let b := u.record
  let nl := u.locals u.my
  u.routes.all (fun e => decide (e < xeExp b ∨ e = 0xFFFF))
    && (List.range nl).all (fun l => decide (xeStride b ≥ u.cap l * u.row)
      && s.ownClear d (addrOf (xeXbuf b + l * xeStride b)) (u.cap l * u.row))
    && (u.combine || s.ownClear d (addrOf (xeSrc b)) ((if xeSlotRows b then u.nslots else xeTok b) * u.row))
    && (!u.combine || s.ownClear d (addrOf (xeDst b)) (u.nslots * u.row))
    && s.ownClear d (addrOf (xePlan b)) (planSize u.nslots nl u.size) && s.ownPlace d (addrOf (xeSrc b)) && s.ownPlace d (addrOf (xeDst b))

/-- The plan of an earlier DISPATCH as this command uses it: `none` where its header does not match. -/
def TxRun.withPlan (u : TxRun) (x : Desc) (att : Nat) (p : List Byte) : Option TxRun :=
  if p.take 24 ≠ (u.planHeader x att).take 24 then none
  else
    let own := p.drop (64 + 4 * u.nslots)
    some { u with
      slots := (List.range u.nslots).map (fun i => some (leNat (slice p (64 + 4 * i) 4)))
      planned := true
      granted := true
      grants := (List.range (u.locals u.my)).flatMap (fun l =>
        (List.range u.size).map (fun i =>
          let o := l * (8 + 8 * u.size) + 8 + 8 * i
          (u.my, i, l, leNat (slice own o 4), leNat (slice own (o + 4) 4)))) }

/-- Every owner and local expert of the table. -/
def TxRun.allExperts (u : TxRun) : List (Nat × Nat) := (u.table.map (fun t => (t.1, t.2.1))).eraseDups

/-- DISPATCH begins: counts to every owner, or at once the rows of the plan. -/
def State.dispatchBegin (s : State) (d : DieIx) (u : TxRun) : State × TxRun :=
  if u.replay then (u.allExperts).foldl (fun w p => w.1.sendRows d w.2 p.1 p.2) (s, u.expectRows)
  else
    let u0 := { u with slots := u.routes.map (fun e => if e = 0xFFFF then some slotNone else none) }
    let w := u0.owners.foldl (fun (w : State × TxRun) o =>
      let ns := (List.range (u0.locals o)).map (fun l => (u0.slotsOf o l).length)
      if o = u0.my then (w.1, { w.2 with counts := w.2.counts ++ [(o, ns)] })
      else (w.1.sendList d u0 0x20 o 4 (ns.flatMap (fun n => leBytes 4 n)), w.2)) (s, u0)
    w.1.grantAll d w.2

/-- COMBINE begins: zero for NONE and DROPPED slots, and the buffers' rows back to their sources (R388). -/
def State.combineBegin (s : State) (d : DieIx) (u : TxRun) : State × TxRun :=
  let zero := List.replicate u.row (0 : Byte)
  let s1 := ((List.range u.nslots).filter (fun i => decide ((u.slots.getD i none).getD slotNone ≥ slotDropped))).foldl (fun t i =>
    t.writeAt d u.job (xeDst u.record % 2 ^ 47 + i * u.row) zero (List.replicate u.row u.taint)) s
  let u1 := { u with expect := ((u.allExperts.map (fun p => (p.2, p.1, (u.acceptedOf p.1 p.2).length * u.row))).filter
    (fun e => decide (e.2.2 > 0))) }
  (u.grants.filter (fun g => g.1 == u.my && decide (g.2.2.2.2 > 0))).foldl (fun w g =>
    let x := w.1.readAt d u.job (u.bufPlace g.2.2.1 (g.2.2.2.1 * u.row)) (g.2.2.2.2 * u.row)
    let u2 := { w.2 with poison := w.2.poison || x.poison.any id }
    if g.2.1 = u.my then x.state.takeReturn d u2 g.2.2.1 u.my 0 x.bytes x.poison
    else (x.state.sendRange d u2 0x23 g.2.1 g.2.2.1 x.bytes x.poison, u2)) (s1, u1)

/-- The member's own part of a DISPATCH or COMBINE, then the messages that came before it. -/
def State.txWork (s : State) (d : DieIx) (k : Nat) (v : TxRun) : State :=
  let t := (s.addPeers d v.job v.members).modDie d (fun y => { y with exchanges := y.exchanges ++ [v] })
  let w := if v.combine then t.combineBegin d v else t.dispatchBegin d v
  (w.1.txSettle d w.2).txEarly d k v.group v.combine

/-- The record of a DISPATCH or COMBINE whose table and routes have been read. -/
def txNew (combine : Bool) (r : Running) (k : Nat) (g : Group) (b table routes : List Byte) (taint : Bool) : TxRun :=
  { ident := r.ident, ctx := k, job := dJob r.desc, group := xeGroup b, members := g.members, my := g.my
    dr := deadlineBase r + dn r.desc 33 1, combine := combine, replay := bitAt r.desc (8 * 32), record := b
    table := tableOf table (xeExp b), routes := routesOf routes (xeSlots b), counts := [], granted := false, grants := []
    expect := [], rows := [], slots := [], planned := false, poison := taint, taint := taint, fails := 0 }

/-- Whether an area that a command uses lies in the service region (R18). -/
def TxRun.inService (u : TxRun) : Bool :=
  let b := u.record
  let nl := u.locals u.my
  (List.range nl).any (fun l => touchesService (addrOf (xeXbuf b + l * xeStride b)) (u.cap l * u.row))
    || (!u.combine && touchesService (addrOf (xeSrc b)) ((if xeSlotRows b then u.nslots else xeTok b) * u.row))
    || (u.combine && touchesService (addrOf (xeDst b)) (u.nslots * u.row))
    || touchesService (addrOf (xePlan b)) (planSize u.nslots nl u.size)

/-- The plan that a COMBINE or a replay reads, and the member's own part; poison in the plan reaches what is delivered. -/
def State.txBegin (s : State) (d : DieIx) (x : Desc) (k : Nat) (u : TxRun) (stop : State → State) : State :=
  if !(u.combine || u.replay) then s.txWork d k u
  else
    let pl := s.readAt d u.job (xePlan u.record % 2 ^ 47) (planSize u.nslots (u.locals u.my) u.size)
    let bad := pl.poison.any id
    match { u with poison := u.poison || bad, taint := u.taint || bad }.withPlan x (s.rf d (rCmtStat k) 24 8) pl.bytes with
    | none => stop pl.state
    | some v => pl.state.txWork d k v

/-- DISPATCH and COMBINE start: record, group, table, routes, plan; then their own part. Poison in any of these reaches the rows that are
delivered, and ends nothing early (R314, R316); NTOK 0 is a no-op that consults no context (R11). -/
def State.txStart (s : State) (d : DieIx) (combine : Bool) (r : Running) : State :=
  let x := r.desc
  let job := dJob x
  let svc := touchesService (dAddr x 24) 128
  if !txFormat combine x ∨ !s.ownClear d (dAddr x 24) 128 then (s.countService svc).stopEarly d .txe r stFormat
  else
    match s.colGate d with
    | .fenced => s.stopEarly d .txe r stFenced
    | .wait => s
    | .go =>
      let rec' := s.readAt d job (opPlace x 24) 128
      let b := rec'.bytes
      rec'.state.colBegin d .txe r (xeGroup b) (xeFormat b) (decide (xeTok b = 0)) (fun k g t =>
        if !t.ownClear d (addrOf (xeTable b)) (16 * xeExp b) ∨ !t.ownClear d (addrOf (xeRoute b)) (2 * xeSlots b) then
          (t.countService (touchesService (addrOf (xeTable b)) (16 * xeExp b) || touchesService (addrOf (xeRoute b)) (2 * xeSlots b))).stopEarly
            d .txe r stFormat
        else
          let tb := t.readAt d job (xeTable b % 2 ^ 47) (16 * xeExp b)
          let rt := tb.state.readAt d job (xeRoute b % 2 ^ 47) (2 * xeSlots b)
          let u := txNew combine r k g b tb.bytes rt.bytes (g.bad || rec'.poison.any id || tb.poison.any id || rt.poison.any id)
          if !tableOk tb.bytes (xeExp b) g.members.length ∨ !rt.state.txOk d u then
            (rt.state.countService u.inService).stopEarly d .txe r stFormat
          else rt.state.colGo d .txe r k (fun v => v.txBegin d x k u (fun y => y.stopEarly d .txe r stFormat)))

def State.txStarted (s : State) (d : DieIx) (ident : Nat) : Bool := (s.die d).exchanges.any (fun u => decide (u.ident = ident))

/-- DISPATCH (R385 to R387). -/
def execDispatch (d : DieIx) (s : State) : Host.Outcome State Fault Refusal :=
  onDie d s (fun t => withGrant t d .txe (fun r => decide (dKind r.desc = 0x60) && !t.txStarted d r.ident) (fun r v => v.txStart d false r))

/-- COMBINE (R388). -/
def execCombine (d : DieIx) (s : State) : Host.Outcome State Fault Refusal :=
  onDie d s (fun t => withGrant t d .txe (fun r => decide (dKind r.desc = 0x61) && !t.txStarted d r.ident) (fun r v => v.txStart d true r))

/-- A token exchange command that still waits to begin at its D_R completes there. -/
def State.txUnbegun (s : State) (d : DieIx) : State :=
  ((s.queue d .txe).running.filter (fun r => !s.txStarted d r.ident && begun (s.stroke d) (deadlineBase r + dn r.desc 33 1))).foldl (fun v r =>
    (v.addSat d rTxeFail 0 16 1).finish d .txe r (.err stTimeout)) s

/-- RESULT_DEADLINE (R379, R389): at D_R every collective and token exchange command that still runs completes. -/
def execResultDeadline (d : DieIx) (s : State) : Host.Outcome State Fault Refusal :=
  onDie d s (fun t =>
    let t1 := ((t.redDeadline d).gatherDeadline d).txUnbegun d
    ((t1.die d).exchanges.filter (fun u => begun (t1.stroke d) u.dr)).foldl (fun v u => v.txFinish d u) t1)

end Sys2Proof.Machine
end

