-- ==== Sys2Proof/Machine/Matrix.lean ====
section
/-! DEFINITION. The matrix array: LOAD, MUL and DIAG, chunk sums, the accumulator bank, the derivative drain and the hallmark
row (R69 to R74, R109 to R135, R182 to R190, R431 to R434). -/

namespace Sys2Proof.Machine

/-! ### Formats and chunks (R109, R110, R119) -/

def eightBit (f : Fmt) : Bool := f == .wf8e4 || f == .wf8e5 || f == .wb8 || f == .wb6
def slicedFmt (f : Fmt) : Bool := f == .fp64 || f == .fp32

/-- Whether A and B may be multiplied. -/
def paired (a b : Fmt) : Bool := (eightBit a && eightBit b) || (a == b && (a == .wf16 || slicedFmt a))

/-- Slices of a record, and the window W (R72). -/
def sliceCount (f : Fmt) : Nat := if f = .fp64 then 7 else 3
def sliceWin (f : Fmt) : Int := if f = .fp64 then 53 else 21

/-- Most columns of a load. -/
def colLimit (f : Fmt) : Nat := if eightBit f then 256 else 128

/-- Bytes of one K chunk. -/
def kBytes (f : Fmt) (klen : Nat) : Nat :=
  if slicedFmt f then 64 + 128 * sliceCount f else if f.isBlock then chunkBytes f else klen * f.elemBytes

/-- One operand chunk: its values with a poison mark for each, the scale bytes that count (R130), a slice record's E. -/
structure Chunk where
  vals : List Fpv
  bad : List Bool
  scales : List Nat
  exp : Option Int
deriving DecidableEq, Repr

/-- Elements of a scalar or block row as a chunk; a block counts when it holds a non-zero element and is no NaN block. -/
def elemChunk (f : Fmt) (n : Nat) (bs : List Byte) (ps : List Bool) : Chunk :=
  let es := decodeRow f n bs ps
  let live := (List.range n).filter (fun i => let v := (es.getD i zeroElem).val; !v.isNan && !v.isZero)
  ⟨es.map (fun e => e.val), es.map (fun e => e.poison),
    if f.isBlock ∧ !es.any (fun e => e.poison) then (live.map (fun i => (byteAt bs (scaleOffset f i)).toNat)).eraseDups else [],
    none⟩

/-- Element k of a slice record as an integer. -/
def sliceInt (n : Nat) (bs : List Byte) (k : Nat) : Int :=
  (List.range n).foldl (fun a i => a + signedOf 8 (byteAt bs (64 + 128 * i + k)).toNat * 256 ^ i) 0

/-- A slice record as a chunk: a poisoned word anywhere makes the whole chunk untrustworthy. -/
def sliceChunk (f : Fmt) (klen : Nat) (bs : List Byte) (ps : List Bool) : Chunk :=
  let e := signedOf 16 (leNat (bs.take 2))
  let zero := decide (e = -32768)
  let bad := ps.any id
  ⟨(List.range klen).map (fun k => if zero then .fin false 0 0 else (Fpv.ofInt (sliceInt (sliceCount f) bs k)).scale (e - sliceWin f)),
    List.replicate klen bad, [], if zero || bad then none else some e⟩

def chunkOf (f : Fmt) (klen : Nat) (bs : List Byte) (ps : List Bool) : Chunk :=
  if slicedFmt f then sliceChunk f klen bs ps else elemChunk f klen bs ps

/-- Whether a slice record names a wrong slice count in a word that can be trusted. -/
def wrongCount (f : Fmt) (bs : List Byte) (ps : List Bool) : Bool :=
  slicedFmt f && decide ((byteAt bs 2).toNat ≠ sliceCount f) && !ps.any id

/-! ### Chunk sums (R70, R71, R73) -/

/-- The chunk sum of products in the 40-bit window, and the exponent of the largest product. -/
def chunkSum (a b : List Fpv) : Fpv × Option Int :=
  let ps := List.zipWith Fpv.mul a b
  if ps.any Fpv.isNan ∨ (ps.any (fun p => p.isInf && p.sign) ∧ ps.any (fun p => p.isInf && !p.sign)) then (.nan, none)
  else
    match ps.find? Fpv.isInf with
    | some p => (p, none)
    | none =>
      let big := maxMag ps
      if big.isZero then (.fin false 0 0, none)
      else (fsum (ps.map (fun p => p.floorTo (big.log2 - 40))), some big.log2)

/-- The exact sum of products. -/
def exactDot (a b : List Fpv) : Fpv := fsum (List.zipWith Fpv.mul a b)

/-! ### One instruction's arithmetic -/

/-- What an instruction computes with: formats, kind, the fed rows by index, the columns of B (one chunk for a diagonal),
which outputs are unmasked and whose mask bit is poisoned, the parity errors and the upsets of this instruction. -/
structure MxIn where
  af : Fmt
  bf : Fmt
  diag : Bool
  ncols : Nat
  m : Nat
  rows : List (Nat × Chunk)
  cols : List Chunk
  on : List (List (Bool × Bool))
  parity : List (Nat × Nat)
  ups : List Upset

def noChunk : Chunk := ⟨[], [], [], none⟩

/-- The mask bit and its poison of column n in a row's list of spans of 128 columns. -/
def maskAt (on : List (Bool × Bool)) (n : Nat) : Bool × Bool := on.getD (n / 128) (true, false)

/-- Column n of B as the list of factors, and whether it is poisoned. -/
def MxIn.col (x : MxIn) (n : Nat) : List Fpv × Bool :=
  if x.diag then
    let k := x.cols.getD 0 noChunk
    ([k.vals.getD n (.fin false 0 0)], k.bad.getD n false)
  else
    let k := x.cols.getD n noChunk
    (k.vals, k.bad.any id)

/-- The factors of a row for column n, and whether they are poisoned. -/
def MxIn.rowFor (x : MxIn) (k : Chunk) (n : Nat) : List Fpv × Bool :=
  if x.diag then ([k.vals.getD n (.fin false 0 0)], k.bad.getD n false) else (k.vals, k.bad.any id)

/-- What the upsets add to a column in a row. -/
def MxIn.upset (x : MxIn) (n row : Nat) (pick : Upset → Bool) : Fpv :=
  fsum ((x.ups.filter (fun u => decide (u.col = n ∧ u.row = row) && pick u)).map (fun u => .fin u.neg u.mant u.exp))

/-- The sum of column n in a fed row; `none` where it is masked. -/
def MxIn.sum (x : MxIn) (r : Nat) (k : Chunk) (n : Nat) : Option MxSum :=
  let mk := maskAt (x.on.getD r []) n
  if !mk.1 then none
  else
    let a := x.rowFor k n
    let b := x.col n
    let v := if slicedFmt x.af then (exactDot a.1 b.1, none) else chunkSum a.1 b.1
    some ⟨v.1.add .rne (x.upset n r (fun _ => true)), v.2,
      a.2 || b.2 || mk.2 || x.parity.any (fun p => decide (p.1 = n ∧ p.2 ≤ r))⟩

/-- The sums of every fed row, in row order. -/
def MxIn.sums (x : MxIn) : List (Nat × List (Option MxSum)) :=
  x.rows.map (fun p => (p.1, (List.range x.ncols).map (x.sum p.1 p.2)))

/-! ### The hallmark row (R129, R130, R431 to R434) -/

def largestInt (l : List Int) : Option Int := l.foldl (fun a v => match a with
  | none => some v
  | some w => some (max v w)) none
def leastInt (l : List Int) : Option Int := l.foldl (fun a v => match a with
  | none => some v
  | some w => some (min v w)) none

/-- Largest minus smallest, 0 for an empty list. -/
def spread (l : List Int) : Int := (largestInt l).getD 0 - (leastInt l).getD 0

def MxIn.aExps (x : MxIn) : List Int := x.rows.filterMap (fun p => p.2.exp)
def MxIn.aScales (x : MxIn) : List Int := x.rows.flatMap (fun p => p.2.scales.map Int.ofNat)
def MxIn.bScales (x : MxIn) : List Int := x.cols.flatMap (fun k => k.scales.map Int.ofNat)

/-- Whether the comparison is exact (R130). -/
def MxIn.exact (x : MxIn) : Bool :=
  if slicedFmt x.af then decide (spread x.aExps ≤ 64)
  else if x.af.isBlock && x.bf.isBlock then decide (spread x.aScales + spread x.bScales ≤ 26)
  else x.af == .wf8e4 && x.bf == .wf8e4

/-- The comparison unit of column n (R432); a product with no operand that counts has none, and takes a free one. -/
def MxIn.unit (x : MxIn) (free : DWord) (n : Nat) : Fpv :=
  if slicedFmt x.af then
    match leastInt x.aExps, (x.cols.getD n noChunk).exp with
    | some a, some b => pow2 (a + b - 2 * sliceWin x.af)
    | _, _ => pow2 (signedOf 8 (fld free 0 8))
  else if x.af.isBlock then
    match leastInt x.aScales, leastInt x.bScales with
    | some a, some b => pow2 (a + b - 254)
    | _, _ => pow2 (signedOf 8 (fld free 0 8))
  else pow2 (-18)

/-- The tolerance of column n of a bounded comparison (R434). -/
def MxIn.tol (x : MxIn) (n : Nat) (leads : List (Option Int)) : Fpv :=
  if slicedFmt x.af then
    match largestInt x.aExps, (x.cols.getD n noChunk).exp with
    | some a, some b => (Fpv.ofInt x.rows.length).scale (a + b - 62)
    | _, _ => .fin false 0 0
  else (fsum (leads.filterMap (fun l => l.map (fun e => pow2 (e + 1))))).scale (-32)

/-- The check of one column: whether it fails, its first failing pass, and its deviations with what each is measured in. -/
structure ColCheck where
  col : Nat
  fail : Bool
  pass : Nat
  devs : List (Fpv × Fpv)
deriving DecidableEq, Repr

/-- The comparison of column n over its counted rows; `none` where the column is left out. -/
def MxIn.check (x : MxIn) (sums : List (Nat × List (Option MxSum))) (free : DWord) (n : Nat) : Option ColCheck :=
  let b := x.col n
  let rs := x.rows.filterMap (fun p =>
    match (sums.find? (fun q => q.1 == p.1)).bind (fun q => (q.2.getD n none)) with
    | some v => if v.bad then none else some (p, v)
    | none => none)
  if b.2 ∨ x.parity.any (fun p => p.1 == n) ∨ b.1.any (fun v => !v.finite) ∨ rs.any (fun p => !p.2.val.finite) then none
  else
    let width := b.1.length
    let c := (List.range width).map (fun k => fsum (rs.map (fun p => (x.rowFor p.1.2 n).1.getD k (.fin false 0 0))))
    let h := if x.exact || slicedFmt x.af then (exactDot c b.1, none) else chunkSum c b.1
    let hall := h.1.add .rne (x.upset n x.m (fun _ => true))
    let unit : Fpv := if x.exact then x.unit free n else x.tol n (h.2 :: rs.map (fun p => p.2.lead))
    -- a sliced product compares each pass; only an upset makes a pass deviate
    let devs : List (Nat × Fpv) :=
      if slicedFmt x.af then
        ((x.ups.filter (fun u => u.col == n)).map (fun u => u.pass)).eraseDups.map (fun k =>
          (k, (fsum (rs.map (fun p => x.upset n p.1.1 (fun u => u.pass == k)))).minus (x.upset n x.m (fun u => u.pass == k))))
      else [(0, (fsum (rs.map (fun p => p.2.val))).minus hall)]
    let failing := devs.filter (fun (p : Nat × Fpv) => if x.exact then !p.2.isZero else decide (p.2.absVal.cmp unit = 1))
    some ⟨n, !failing.isEmpty, (failing.map (fun p => p.1)).foldl min 255, devs.map (fun p => (p.2.absVal, unit))⟩

/-- The checks of the columns that count. -/
def MxIn.checks (x : MxIn) (sums : List (Nat × List (Option MxSum))) (free : DWord) : List ColCheck :=
  (List.range x.ncols).filterMap (x.check sums free)

/-- The deviation that is largest in its own measure. -/
def worstDev (l : List (Fpv × Fpv)) : Fpv × Fpv :=
  l.foldl (fun a p => if (p.1.mul a.2).cmp (a.1.mul p.2) = 1 then p else a) (.fin false 0 0, pow2 0)

/-- The hallmark word of the instruction. -/
def MxIn.word (x : MxIn) (cs : List ColCheck) : Word :=
  let fails := cs.filter (fun k => k.fail)
  let w := worstDev (cs.flatMap (fun k => k.devs))
  hallWord (if x.exact then 1 else 2) (!fails.isEmpty)
    (if fails.isEmpty ∨ !slicedFmt x.af then 0 else (fails.map (fun k => k.pass)).foldl min 255)
    (if x.exact then devExact w.1 w.2 else devBounded w.1 w.2) fails.length

/-! ### Payloads (R132) -/

def lSrc (x : Desc) : BoardAddr := dAddr x 24
def lPitch (x : Desc) : Nat := dn x 32 4
def lCols (x : Desc) : Nat := dn x 36 2
def lKlen (x : Desc) : Nat := dn x 38 1
def lDiag (x : Desc) : Bool := bitAt x (8 * 39 + 4)

/-- LOAD's encodings: the format of B. -/
def judgeLoad (x : Desc) : Judged Fmt :=
  match Fmt.ofCode (fld x (8 * 39) 4) with
  | none => .format
  | some f =>
    if !dAddrOk x 24 ∨ fld x (8 * 39 + 5) 3 ≠ 0 ∨ dn x 40 24 ≠ 0 ∨ f.code > 6 ∨ lCols x > colLimit f
        ∨ (!lDiag x ∧ lKlen x > 128) ∨ (lDiag x ∧ slicedFmt f) then .format
    else if lCols x = 0 ∨ (!lDiag x ∧ lKlen x = 0) then .noop
    else .work f

def mAAddr (x : Desc) : Nat := dn x 24 4
def mAPitch (x : Desc) : Nat := dn x 28 4
def mOut (x : Desc) : BoardAddr := dAddr x 32
def mOutPitch (x : Desc) : Nat := dn x 40 4
def mMask (x : Desc) : Nat := dn x 44 4
def mRows (x : Desc) : Nat := dn x 48 2
def mLine (x : Desc) : Nat := dn x 50 2
def mAcc (x : Desc) : Nat := fld x (8 * 53) 2
def mSwap (x : Desc) : Bool := bitAt x (8 * 53 + 2)
def mDfn (x : Desc) : Nat := fld x (8 * 53 + 4) 4
def mMode (x : Desc) : Nat := fld x (8 * 54) 2
def mScale (x : Desc) : Nat := dn x 55 1
def mImpose (x : Desc) : Bool := bitAt x (8 * 56)

/-- The encodings of MUL and DIAG: the formats of A and of the output. -/
def judgeMul (x : Desc) : Judged (Fmt × Fmt) :=
  match Fmt.ofCode (fld x (8 * 52) 4), Fmt.ofCode (fld x (8 * 52 + 4) 4) with
  | some af, some ofm =>
    if !dAddrOk x 32 ∨ bitAt x (8 * 53 + 3) ∨ fld x (8 * 54 + 2) 6 ≠ 0 ∨ fld x (8 * 56 + 1) 7 ≠ 0 ∨ dn x 57 7 ≠ 0
        ∨ mMode x = 3 ∨ mDfn x > 4 ∨ mRows x > 16384 ∨ (mAcc x < 2 ∧ (ofm.code ≠ 0 ∨ mDfn x ≠ 0))
        ∨ (mAcc x < 3 ∧ mLine x > 2047) ∨ (mImpose x ∧ mScale x = 255) then .format
    else if mRows x = 0 then .noop
    else .work (af, ofm)
  | _, _ => .format

/-! ### LOAD (R112, R119, R133, R134) -/

/-- Places of B: the columns, or the one row of a diagonal. -/
def loadPlaces (x : Desc) (f : Fmt) : List (BoardAddr × Nat) :=
  if lDiag x then [(lSrc x, f.rowBytes (lCols x))] else rowPlaces (lSrc x) (lPitch x) (lCols x) (kBytes f (lKlen x))

/-- Bytes that a LOAD itself reads of each place: of a slice record the header and pair 0. -/
def loadBytes (f : Fmt) (n : Nat) : Nat := if slicedFmt f then 64 + 256 else n

def emptyShadow (k : Core) : Core := { k with arr := { k.arr with shadow := none } }

/-- The shadow is empty from the moment the LOAD loads it until it is complete, so a LOAD that ends otherwise leaves it empty. -/
def State.loadRun (s : State) (d : DieIx) (c : CoreIx) (r : Running) : State :=
  let q := QId.core c
  let x := r.desc
  match judgeLoad x with
  | .format => s.stopEarly d q r stFormat
  | .noop => if s.unitFenced d q 0x20 then s.stopEarly d q r stFenced else s.finish d q r Result.ok
  | .work f =>
    let ps := loadPlaces x f
    let len := (ps.map (fun p => p.2)).headD 0
    if rowsService (lSrc x) (lPitch x) ps.length len then (s.countService true).stopEarly d q r stFormat
    else if !s.rowsDecode d (lSrc x) (lPitch x) ps.length len then s.stopEarly d q r stFormat
    else if s.unitFenced d q 0x20 then s.stopEarly d q r stFenced
    else
      let s0 := s.modCore d c emptyShadow
      match s0.fetchAll d q r (ps.map (fun p => (p.1, loadBytes f p.2))) with
      | .stop st => s0.stopEarly d q r st
      | .wait t => t
      | .data l t =>
        if l.any (fun p => wrongCount f p.1 p.2) then s0.stopEarly d q r stFormat
        else
          let st : Stationary := ⟨f, lDiag x, if lDiag x then 128 else lKlen x, lCols x, l, lSrc x, lPitch x⟩
          (t.modCore d c (fun k => { k with arr := { k.arr with shadow := some st } })).finish d q r Result.ok

/-- LOAD (R112, R132). -/
def execLoad (d : DieIx) (c : CoreIx) (s : State) : Host.Outcome State Fault Refusal :=
  onDie d s (fun t => withEngine t d (.core c) 0x20 (t.loadRun d c))

/-! ### Start checks of MUL and DIAG (R112, R122, R129, R134) -/

/-- Element size and lines of an output row in the bank. -/
def bankFmt (f : Fmt) : Fmt := if f = .fp64 then .fp64 else .fp32
def bankElem (f : Fmt) : Nat := (bankFmt f).elemBytes
def bankLines (f : Fmt) (ncols : Nat) : Nat := if ncols * bankElem f ≤ 512 then 1 else 2

def aBytes (st : Stationary) (af : Fmt) : Nat := if st.diag then af.rowBytes st.ncols else kBytes af st.klen

/-- Mask bits for a mask mode, rows and columns (R128). -/
def maskBitsOf (mode rows ncols : Nat) : Nat :=
  if mode = 1 then rows else if mode = 2 then (rows + 127) / 128 * ((ncols + 127) / 128) else 0

/-- Mask bits of an instruction. -/
def maskBits (x : Desc) (ncols : Nat) : Nat := maskBitsOf (mMode x) (mRows x) ncols

/-- Whether the operands of an instruction fit a stationary and their memories. -/
def State.mulFits (s : State) (d : DieIx) (x : Desc) (st : Stationary) (af ofm : Fmt) : Bool :=
  let m := mRows x
  paired af st.fmt && (st.diag == decide (dKind x = 0x22))
    && (decide (mAcc x = 3) || decide (mLine x + m * bankLines st.fmt st.ncols ≤ 2048))
    && decide (mAAddr x + (m - 1) * mAPitch x + aBytes st af ≤ 0x400000)
    && (decide (mMode x = 0) || decide (mMask x + (maskBits x st.ncols + 7) / 8 ≤ 0x400000))
    && (decide (mAcc x < 2) || s.rowsWritable d (dJob x) (mOut x) (mOutPitch x) m (ofm.rowBytes st.ncols) (some ofm))
    && (decide (mDfn x = 0) || s.bilOwned d (dCtx x) (dJob x))

/-- Whether an instruction can start: it completes at once with a result, waits for the shadow, or runs against a
stationary. -/
inductive MulStart where
  | stop (res : Result) (service : Bool)
  | wait
  | go (st : Stationary) (af ofm : Fmt)

def State.mulStart (s : State) (d : DieIx) (c : CoreIx) (x : Desc) : MulStart :=
  let q := QId.core c
  let fenced := s.unitFenced d q (dKind x)
  match judgeMul x with
  | .format => .stop (.err stFormat) false
  | .noop => if fenced then .stop (.err stFenced) false else .stop ⟨[], 0, hallEmpty, 0⟩ false
  | .work (af, ofm) =>
    let k := (s.core d c).arr
    if mSwap x ∧ (s.queue d q).running.any (fun y => decide (dKind y.desc = 0x20)) then
      (if fenced then .stop (.err stFenced) false else .wait)
    else
      match (if mSwap x then k.shadow else k.active) with
      | none => .stop (.err stFormat) false
      | some st =>
        if decide (mAcc x ≥ 2) && rowsService (mOut x) (mOutPitch x) (mRows x) (ofm.rowBytes st.ncols) then
          .stop (.err stFormat) true
        else if !s.mulFits d x st af ofm then .stop (.err stFormat) false
        else if fenced then .stop (.err stFenced) false
        else .go st af ofm

/-! ### The drain pop (R178, R184, R190) -/

/-- Which derivative an instruction takes: a format error, a wait for the table, a formula or a table. -/
inductive DfnPick where
  | format
  | wait
  | formula (n : Nat) (fallback : Bool)
  | table (k : Nat)

def State.dfnPick (s : State) (d : DieIx) (x : Desc) (t : Trailer) : DfnPick :=
  if mDfn x ≠ 1 then .formula (mDfn x) false
  else if !t.tblValid ∨ (s.tblState d t.tbl = 2 ∧ tblJob (s.tblImage d t.tbl) ≠ (dJob x).toNat) then .format
  else if s.tblState d t.tbl = 2 then .table t.tbl
  else if t.fallback ≥ 2 ∧ t.fallback ≤ 4 then .formula t.fallback true
  else .wait

/-- A tag mismatch at a drain pop. -/
def State.drainMiss (s : State) (d : DieIx) (c : CoreIx) (r : Running) (found : Nat) : State :=
  ((s.addSat d rBilErr 16 16 1).logEvent d 0x0301 stTag found).stopEarly d (.core c) r stTag

/-- Whether a drain pop is served now (R182, R183): no operation on its segment is in progress, fewer than four run, and no earlier
drain pop waits for the segment. -/
def State.drainTurn (s : State) (d : DieIx) (c : CoreIx) (ident ctx : Nat) : Bool :=
  let x := (s.queue d .bil).running
  !x.any (fun y => decide (bilKey y.desc = some (false, ctx))) && decide (x.length < 4)
    && (match s.drainFirst d ctx with
      | none => true
      | some p => decide (p = (c, ident)))

/-- A drain pop that has to wait arrives at its segment (R182). -/
def State.drainArrive (s : State) (d : DieIx) (c : CoreIx) (ident ctx : Nat) : State :=
  s.modDie d (fun x => if x.drains.contains (c, ident, ctx) then x else { x with drains := x.drains ++ [(c, ident, ctx)] })

/-- A drain pop has been served; commands that waited behind it start. -/
def State.drainLeave (s : State) (d : DieIx) (c : CoreIx) (ident : Nat) : State :=
  (s.modDie d (fun x => { x with drains := x.drains.filter (fun p => !(decide (p.1 = c) && decide (p.2.1 = ident))) })).startQueue d .bil

/-- The popped entry becomes the core's drain. -/
def State.popDrain (s : State) (d : DieIx) (c : CoreIx) (r : Running) (t : Trailer) (tbl : Option Nat) (formula : Nat) : State :=
  let ctx := dCtx r.desc
  let rb := t.fmt.rowBytes t.len
  let e := s.memRead ⟨d, dJob r.desc, false⟩ d 0 (s.segBase d ctx + s.segTop d ctx - 64 - t.size) t.size
  let rows := (List.range t.rows).map (fun k => (slice e.bytes (k * rb) rb, slice e.poison (k * rb) rb))
  ((e.state.dropTop d ctx t).modCore d c (fun k => { k with drain := some ⟨r.ident, t.fmt, rows, tbl, formula⟩ })).drainLeave d c r.ident

/-- DRAIN_POP of an instruction that can start: it has arrived at its segment, whatever it then waits for (R182). -/
def State.drainPop (s0 : State) (d : DieIx) (c : CoreIx) (r : Running) : State :=
  let q := QId.core c
  let x := r.desc
  let ctx := dCtx x
  match s0.mulStart d c x with
  | .stop res sv => (s0.countService sv).finish d q r res
  | .wait => s0
  | .go st _ _ =>
    let s := s0.drainArrive d c r.ident ctx
    if !s.drainTurn d c r.ident ctx then s
    else if s.testHold d then s.stopEarly d q r stFenced
    else if !s.hbmServes d then s
    else if s.segDepth d ctx = 0 then s.drainMiss d c r 0
    else
      let t := s.topTrailer d ctx (dJob x)
      let u := t.2.2
      if t.2.1 then u.stopEarly d q r stPoison
      else if t.1.column ∨ t.1.rows ≠ mRows x ∨ t.1.len ≠ st.ncols then u.stopEarly d q r stFormat
      else
        let pick := u.dfnPick d x t.1
        match pick with
        | .format => u.stopEarly d q r stFormat
        | _ =>
          if t.1.layer ≠ dLayer x then u.drainMiss d c r t.1.layer
          else
            match pick with
            | .formula n fb => (if fb then u.addSat d rBilFb 0 32 1 else u).popDrain d c r t.1 none n
            | .table k => u.popDrain d c r t.1 (some k) 0
            | _ => if r.waitFrom.isSome then s else u.setRunning d q { r with waitFrom := some (u.stroke d) }

/-- The matrix instruction of a core that runs and still streams. -/
def mulPick (r : Running) : Bool := decide (dKind r.desc = 0x21 ∨ dKind r.desc = 0x22) && !r.acking

/-- Whether an instruction needs a drain entry that it has not popped. -/
def State.wantsDrain (s : State) (d : DieIx) (c : CoreIx) (r : Running) : Bool :=
  decide (mDfn r.desc ≠ 0) && (match (s.core d c).drain with
    | some x => decide (x.ident ≠ r.ident)
    | none => true)

/-- DRAIN_POP (R182, R184, R190). -/
def execDrainPop (d : DieIx) (c : CoreIx) (s : State) : Host.Outcome State Fault Refusal :=
  onDie d s (fun t => withPick t d (.core c) mulPick (fun r => if t.wantsDrain d c r then t.drainPop d c r else t))

/-- The table that a waiting instruction needs is VERIFIED. -/
def State.tableReady (s : State) (d : DieIx) (x : Desc) : Bool :=
  let ctx := dCtx x
  decide (s.segDepth d ctx ≠ 0) &&
    decide (s.tblState d (trailerOf (s.peek (memKey d 0 (s.segBase d ctx + s.segTop d ctx - 64)) 64)).tbl = 2)

/-- TABLE_WAIT_TIMEOUT (R190 step 4): RTO boundaries after the wait began the table is still not VERIFIED. -/
def execTableWaitTimeout (d : DieIx) (c : CoreIx) (s : State) : Host.Outcome State Fault Refusal :=
  onDie d s (fun t => withPick t d (.core c) mulPick (fun r =>
    match r.waitFrom with
    | some w =>
      if t.wantsDrain d c r ∧ begun (t.stroke d) (w.toNat + t.rto d (.core c)) ∧ !t.tableReady d r.desc then
        t.stopEarly d (.core c) r stTimeout
      else t
    | none => t))

/-! ### The drain: bank, drain function, outputs (R69, R122 to R128, R186, R187) -/

/-- One column on its way through the drain: its value's bits in a format, and whether it is poisoned. -/
structure DrainVal where
  bits : Nat
  bad : Bool
deriving DecidableEq, Repr

/-- What rounding a run of columns into the bank format gives. -/
structure BankOut where
  vals : List DrainVal
  flags : BitVec 8
  gen : Gen

/-- Round chunk sums onto bank entries, one rounding each (R60, R69); only an overflow to infinity is flagged. -/
def bankRound (f : Fmt) (mode : Rnd) : List (MxSum × Elem) → Gen → BankOut
  | [], g => ⟨[], 0, g⟩
  | p :: ps, g =>
    let e := encodeFloat f mode ((Fpv.add .rne p.2.val p.1.val).plusZero) g
    let rest := bankRound f mode ps e.gen
    ⟨⟨e.bits, p.1.bad || p.2.poison⟩ :: rest.vals, (e.flags &&& flagOvfInf) ||| rest.flags, rest.gen⟩

/-- Core-local offset in region 0x01 of a bank line. -/
def lineOff (c : CoreIx) (line : Nat) : Nat := bankBase c.val + line * 512

/-- The bytes and poison marks of values in a scalar format. -/
def drainBytes (f : Fmt) (l : List DrainVal) : List Byte := l.flatMap (fun v => leBytes f.elemBytes v.bits)
def drainMarks (f : Fmt) (l : List DrainVal) : List Bool := l.flatMap (fun v => List.replicate f.elemBytes v.bad)

/-- The bytes that marks name, as runs from an address on. -/
def markedRuns (a : BoardAddr) (bs : List Byte) (marks : List Bool) : List (BoardAddr × List Byte) :=
  let runs : List (Nat × List Byte) := ((bs.zip marks).zipIdx).foldr (fun e acc =>
    if !e.1.2 then acc
    else
      match acc with
      | [] => [(e.2, [e.1.1])]
      | r :: rs => if r.1 = e.2 + 1 then (e.2, e.1.1 :: r.2) :: rs else (e.2, [e.1.1]) :: r :: rs) []
  runs.map (fun r => (BitVec.ofNat 52 (a.toNat + r.1), r.2))

/-- What the drain collects; `outs` are the bytes to poison if the hallmark fails in one of the columns named, first and count (R131). -/
structure DrainAcc where
  s : State
  gen : Gen
  flags : BitVec 8
  stats : List Nat
  outs : List (Nat × Nat × BoardAddr × List Byte)

/-- Columns that are poisoned together in a format: a block's, else one. -/
def colUnits (f : Fmt) (n : Nat) : List (Nat × Nat) :=
  if f.isBlock then (List.range ((n + 31) / 32)).map (fun k => (32 * k, min 32 (n - 32 * k))) else (List.range n).map (fun k => (k, 1))

/-- The sums of the columns of one line, or nothing where they are masked. -/
def lineSums (l : List (Option MxSum)) : List MxSum := l.filterMap id

/-- A line of the bank takes the sums of its columns, the first of which is `col` (R62, R69, R122, R123): the values, and the drain after
it. -/
def DrainAcc.line (a : DrainAcc) (d : DieIx) (c : CoreIx) (x : Desc) (f : Fmt) (line col : Nat) (sums : List MxSum) :
    List DrainVal × DrainAcc :=
  let acc : Access := ⟨d, dJob x, false⟩
  let n := sums.length * f.elemBytes
  let rd := a.s.memRead acc d 1 (lineOff c line) n
  let reads := decide (mAcc x = 1 ∨ mAcc x = 2)
  let s1 := if reads then rd.state else a.s
  let old := if reads then decodeRow f sums.length rd.bytes rd.poison else List.replicate sums.length zeroElem
  let cnt := if mAcc x = 0 then 1 else min (SMap.get 0 (a.s.core d c).arr.chunks line + 1) 255
  let sr := mAcc x < 3 ∧ bitAt (a.s.reg d (rCoreSrCtl c.val)) 1 ∧ cnt > a.s.rf d (rCoreSrCtl c.val) 8 8
  let o := bankRound f (if sr then .sr else .rne) (sums.zip old) a.gen
  let bad := o.vals.any (fun v => v.bad)
  let s2 := if mAcc x = 3 then s1
    else (s1.memWrite acc d 1 (lineOff c line) (drainBytes f o.vals) (drainMarks f o.vals)).modCore d c (fun k =>
      { k with arr := { k.arr with chunks := SMap.set 0 k.arr.chunks line cnt } })
  let again : List (Nat × Nat × BoardAddr × List Byte) := if mAcc x = 3 then []
    else (o.vals.zipIdx).map (fun p =>
      (col + p.2, 1, (⟨a.s.slot, d.val, 1, lineOff c line + p.2 * f.elemBytes⟩ : Loc).addr, leBytes f.elemBytes p.1.bits))
  (o.vals, ⟨s2, o.gen, a.flags ||| o.flags, if bad then stPoison :: a.stats else a.stats, a.outs ++ again⟩)

/-- The lines of one row, from column `col` on. -/
def DrainAcc.lines (d : DieIx) (c : CoreIx) (x : Desc) (f : Fmt) (per line col : Nat) :
    Nat → List (Option MxSum) → DrainAcc → List (Option DrainVal) × DrainAcc
  | 0, _, a => ([], a)
  | k + 1, l, a =>
    let here := l.take per
    let sums := lineSums here
    if sums.isEmpty then
      let r := DrainAcc.lines d c x f per (line + 1) (col + per) k (l.drop per) a
      (here.map (fun _ => none) ++ r.1, r.2)
    else
      let o := a.line d c x f line col sums
      let r := DrainAcc.lines d c x f per (line + 1) (col + per) k (l.drop per) o.2
      (o.1.map some ++ r.1, r.2)

/-- A saved-output formula in FP32 with RNE (R187). -/
def dfnFormula (n : Nat) (y : Nat) : Nat :=
  let one := 0x3F800000
  if (decodeFloat .fp32 y).isNan then canonNan .fp32
  else if n = 2 then (if (decodeFloat .fp32 y).cmp (.fin false 0 0) = 1 then one else 0)
  else if n = 3 then op32 .mul y (op32 .sub one y)
  else op32 .sub one (op32 .mul y y)

/-- The derivative for a saved value (R186, R187). -/
def State.derivative (s : State) (d : DieIx) (e : Drain) (y : Nat) : Nat :=
  match e.table with
  | some k => tblEval (s.tblImage d k) y
  | none => dfnFormula e.formula y

/-- A final value times its derivative, rounded once to FP32, and the flags of the saved value's conversion. -/
def State.applyDfn (s : State) (d : DieIx) (e : Drain) (f : Fmt) (v : DrainVal) (y : Elem) : DrainVal × BitVec 8 :=
  let z := conv32 y.val
  let p := (decodeFloat f v.bits).mul (decodeFloat .fp32 (s.derivative d e z.1))
  (⟨(encodeFloat .fp32 .rne p noGen).bits, v.bad || y.poison⟩, z.2)

/-- The final values of a row through the drain function: values, their format, flags, and whether a saved value was
poisoned. -/
def State.drainRow (s : State) (d : DieIx) (c : CoreIx) (x : Desc) (f : Fmt) (ncols row : Nat) (l : List (Option DrainVal)) :
    List (Option DrainVal) × Fmt × BitVec 8 × Bool :=
  match (if mDfn x = 0 then none else (s.core d c).drain) with
  | none => (l, f, 0, false)
  | some e =>
    let saved := e.rows.getD row ([], [])
    let ys := decodeRow e.fmt ncols saved.1 saved.2
    let o := List.zipWith (fun v y => match v with
      | some w => (some (s.applyDfn d e f w y).1, (s.applyDfn d e f w y).2, y.poison)
      | none => (none, 0, false)) l ys
    (o.map (fun p => p.1), .fp32, o.foldl (fun a p => a ||| p.2.1) 0, o.any (fun p => p.2.2))

/-- One span of a row in the output format. -/
def spanOut (f ofm : Fmt) (x : Desc) (l : List DrainVal) (g : Gen) : RowOut :=
  let es := l.map (fun v => (⟨v.bits, decodeFloat f v.bits, v.bad⟩ : Elem))
  if f = ofm then encodeElems f ofm .rne es g
  else encodeRow ofm (rndOf (dRnd x)) (if mImpose x then some (mScale x) else none) es g

/-- The unmasked spans of a row: the column each starts at and its values, neighbours joined. -/
def liveSpans (l : List (Option DrainVal)) : List (Nat × List DrainVal) :=
  let a := (l.take 128).filterMap id
  let b := (l.drop 128).filterMap id
  if a.isEmpty then (if b.isEmpty then [] else [(128, b)])
  else if b.isEmpty then [(0, a)] else [(0, a ++ b)]

/-- The bytes of a written span that poison in one unit of its columns takes, for each unit. -/
def spanUnits (f ofm : Fmt) (x : Desc) (dst : BoardAddr) (col : Nat) (l : List DrainVal) (g : Gen) (o : RowOut) :
    List (Nat × Nat × BoardAddr × List Byte) :=
  (colUnits ofm l.length).flatMap (fun u =>
    let cut := (l.zipIdx).map (fun (p : DrainVal × Nat) => (⟨p.1.bits, p.1.bad || decide (u.1 ≤ p.2 ∧ p.2 < u.1 + u.2)⟩ : DrainVal))
    (markedRuns dst o.bytes (List.zipWith (fun new old => new && !old) (spanOut f ofm x cut g).poison o.poison)).map (fun p =>
      (col + u.1, u.2, p.1, p.2)))

/-- Write the unmasked spans of a row out. -/
def DrainAcc.spans (d : DieIx) (q : QId) (r : Running) (f ofm : Fmt) (row : Nat) : List (Nat × List DrainVal) → DrainAcc → DrainAcc
  | [], a => a
  | p :: ps, a =>
    let o := spanOut f ofm r.desc p.2 a.gen
    let dst : BoardAddr := BitVec.ofNat 52 (rowAddr (mOut r.desc) (mOutPitch r.desc) row + ofm.rowBytes p.1)
    let sat : List Nat := if bitAt o.flags 0 && ofm.satStatus then [stSaturated] else []
    let again := spanUnits f ofm r.desc dst p.1 p.2 a.gen o
    DrainAcc.spans d q r f ofm row ps ⟨a.s.put d q r dst o.bytes o.poison, o.gen, a.flags ||| o.flags, sat ++ a.stats, a.outs ++ again⟩

/-- One row through the drain. -/
def DrainAcc.row (a : DrainAcc) (d : DieIx) (c : CoreIx) (r : Running) (st : Stationary) (ofm : Fmt)
    (p : Nat × List (Option MxSum)) : DrainAcc :=
  let x := r.desc
  let f := bankFmt st.fmt
  let nl := bankLines st.fmt st.ncols
  let o := DrainAcc.lines d c x f (512 / f.elemBytes) (mLine x + p.1 * nl) 0 nl p.2 a
  if mAcc x < 2 then o.2
  else
    let w := o.2.s.drainRow d c x f st.ncols p.1 o.1
    DrainAcc.spans d (.core c) r w.2.1 ofm p.1 (liveSpans w.1)
      ⟨o.2.s, o.2.gen, o.2.flags ||| w.2.2.1, if w.2.2.2 then stPoison :: o.2.stats else o.2.stats, o.2.outs⟩

/-! ### Feeding (R114, R119, R120, R128) -/

/-- Mask and poison of each span of 128 columns of every row, for a mask mode. -/
def maskRowsOf (mode rows ncols : Nat) (bs : List Byte) (ps : List Bool) : List (List (Bool × Bool)) :=
  let spans := (ncols + 127) / 128
  let bitOf := fun (i : Nat) => (bitAt (byteAt bs (i / 8)) (i % 8) || ps.getD (i / 8) false, ps.getD (i / 8) false)
  (List.range rows).map (fun r => (List.range spans).map (fun j =>
    if mode = 0 then (true, false) else if mode = 1 then bitOf r else bitOf (r / 128 * spans + j)))

def maskRows (x : Desc) (ncols : Nat) (bs : List Byte) (ps : List Bool) : List (List (Bool × Bool)) :=
  maskRowsOf (mMode x) (mRows x) ncols bs ps

/-- Rows that take a slot. -/
def fedRows (on : List (List (Bool × Bool))) : List Nat :=
  (List.range on.length).filter (fun r => (on.getD r []).any (fun p => p.1))

def aOff (x : Desc) (c : CoreIx) (r : Nat) : Nat := spBase c.val + mAAddr x + r * mAPitch x

/-- Read the A rows. -/
def State.readRows (a : Access) (d : DieIx) (c : CoreIx) (x : Desc) (len : Nat) : List Nat → State → List (Nat × List Byte × List Bool) × State
  | [], s => ([], s)
  | r :: rs, s =>
    let o := s.memRead a d 1 (aOff x c r) len
    let rest := State.readRows a d c x len rs o.state
    ((r, o.bytes, o.poison) :: rest.1, rest.2)

/-- Slice pairs of a record (R120); an array of one pass has none. -/
def pairCount (f : Fmt) : Nat := if slicedFmt f then (sliceCount f + 1) / 2 else 0

/-- The places of slice pair j of B, which a sliced MUL loads itself (R119, R120). -/
def pairPlaces (st : Stationary) (j : Nat) : List (BoardAddr × Nat) :=
  (List.range st.ncols).map (fun n =>
    (BitVec.ofNat 52 (rowAddr st.src st.pitch n + 64 + 256 * j), min 256 (128 * (sliceCount st.fmt - 2 * j))))

/-- The columns of B that a tile is fed against: for a sliced product the header of each record with the pairs as loaded. -/
def tileCols (st : Stationary) (got : List (List (List Byte × List Bool))) : List (List Byte × List Bool) :=
  if slicedFmt st.fmt then
    (List.range st.cols.length).map (fun n =>
      let head := st.cols.getD n ([], [])
      let l := got.map (fun g => g.getD n ([], []))
      (head.1.take 64 ++ (l.map (fun p => p.1)).flatten, head.2.take 64 ++ (l.map (fun p => p.2)).flatten))
  else st.cols

/-- The columns of B as chunks. -/
def bChunks (st : Stationary) (cols : List (List Byte × List Bool)) : List Chunk :=
  cols.map (fun p => if st.diag then elemChunk st.fmt st.ncols p.1 p.2 else chunkOf st.fmt st.klen p.1 p.2)

def aChunk (st : Stationary) (af : Fmt) (bs : List Byte) (ps : List Bool) : Chunk :=
  if st.diag then elemChunk af st.ncols bs ps else chunkOf af st.klen bs ps

/-! ### Quarantine (R131, R436) -/

/-- The operands of a failed instruction as they stand: fed A rows, B again from its source, the mask. A read of another die of the module
finds what that die holds; B on another module is given as the array was fed it, and what it was not fed as free bytes (log entry 57). -/
def State.mxSnapshot (s : State) (d : DieIx) (c : CoreIx) (x : Desc) (st : Stationary) (af : Fmt) : (List Byte × List Bool) × State :=
  let a : Access := ⟨d, dJob x, true⟩
  let nm := (maskBits x st.ncols + 7) / 8
  let mk := s.memRead a d 1 (spBase c.val + mMask x) nm
  let rows := State.readRows a d c x (aBytes st af) (fedRows (maskRows x st.ncols mk.bytes mk.poison)) mk.state
  let len := if st.diag then st.fmt.rowBytes st.ncols else kBytes st.fmt st.klen
  let count := if st.diag then 1 else st.ncols
  let b := (List.range count).foldl (fun (t : List (List Byte × List Bool) × State) n =>
    let ad : BoardAddr := BitVec.ofNat 52 (rowAddr st.src st.pitch n)
    let l := locOf ad
    if l.slot = t.2.slot then
      let e := dieIx l.die
      let p := t.2.place e l
      let o := t.2.memRead { a with die := e } e p.1 p.2 len
      (t.1 ++ [(o.bytes, o.poison)], o.state)
    else
      let k := st.cols.getD n ([], [])
      (t.1 ++ [(k.1 ++ (List.range (len - k.1.length)).map (Config.freeByte t.2.draws), padTo len false k.2)], t.2)) ([], rows.2)
  ((((rows.1.map (fun p => p.2.1)).flatten) ++ ((b.1.map (fun p => p.1)).flatten) ++ mk.bytes,
    ((rows.1.map (fun p => p.2.2)).flatten) ++ ((b.1.map (fun p => p.2)).flatten) ++ mk.poison), b.2.drawFree)

/-- A failed hallmark is counted and its operands go to quarantine before the record is written (R131, R436), whatever status R96 puts
into the record (log entry 136). -/
def State.mulFail (s : State) (d : DieIx) (c : CoreIx) (r : Running) (st : Stationary) : State :=
  match Fmt.ofCode (fld r.desc (8 * 52) 4) with
  | some af =>
    let sn := s.mxSnapshot d c r.desc st af
    ((sn.2.addSat d (rMxMismatch c.val) 0 32 1).quarantine d c.val (s.qSource d (.core c)) r.desc r.hall (some sn.1) 0).noteSnap d (dJob r.desc)
      st.fmt st.diag st.ncols st.klen
  | none => s

/-- Poison bytes that an instruction has written: on its own die as they stand now, on another by a write with poison marks. -/
def State.poisonOut (s : State) (d : DieIx) (q : QId) (r : Running) (p : BoardAddr × List Byte) : State :=
  let marks := List.replicate p.2.length true
  if s.isLocal d p.1 then
    let l := locOf p.1
    s.memWrite ⟨d, dJob r.desc, false⟩ d l.region l.off (s.peek (memKey d l.region l.off) p.2.length) marks
  else s.put d q r p.1 p.2 marks

/-- The end of an instruction. The hallmark is evaluated once its writes are acknowledged (R125): a failed one is counted and quarantined,
and poisons the bank entries and outputs of the failing columns; the record follows when these writes are acknowledged too. -/
def State.mulEnd (s : State) (d : DieIx) (c : CoreIx) (r : Running) : State :=
  let q := QId.core c
  if s.lostWrites d q r then s.stopEarly d q r stFormat
  else if s.awaitsAck d q r then s.setRunning d q { r with acking := true }
  else
    match r.tail with
    | none => s.finish d q r (r.result [])
    | some t =>
      let r1 : Running := { r with acking := true, tail := none }
      let s1 := (t.outs.foldl (fun u p => u.poisonOut d q r p) ((s.mulFail d c r t.st).dropReqs d q r)).setRunning d q r1
      if s1.awaitsAck d q r1 then s1 else s1.finish d q r1 (r1.result [])

/-! ### MUL and DIAG -/

/-- The masks of an instruction's rows, and the state after reading them. -/
def State.mulMask (s : State) (d : DieIx) (c : CoreIx) (r : Running) (ncols : Nat) : List (List (Bool × Bool)) × State :=
  let x := r.desc
  let mk := s.memRead ⟨d, dJob x, r.fw⟩ d 1 (spBase c.val + mMask x) ((maskBits x ncols + 7) / 8)
  (maskRows x ncols mk.bytes mk.poison, mk.state)

/-- Rows of one tile: 128 in the sliced formats (R120), else all of them. -/
def tileRows (st : Stationary) (x : Desc) : Nat := if slicedFmt st.fmt then 128 else max 1 (mRows x)
def tileCount (st : Stationary) (x : Desc) : Nat := (mRows x + tileRows st x - 1) / tileRows st x

/-- Whether a row, the hallmark row M included, is streamed in a tile; the hallmark row belongs to the last. -/
def inTile (st : Stationary) (x : Desc) (tile row : Nat) : Bool :=
  decide (min (row / tileRows st x) (tileCount st x - 1) = tile)

/-- The arithmetic of an instruction over the rows it has fed. -/
def MulRun.input (m : MulRun) (x : Desc) (af : Fmt) : MxIn :=
  { af := af, bf := m.st.fmt, diag := m.st.diag, ncols := m.st.ncols, m := mRows x
    rows := m.fed.map (fun p => (p.1, aChunk m.st af p.2.1 p.2.2)), cols := bChunks m.st m.cols
    on := m.on, parity := m.parity, ups := m.ups }

/-- The rows of the next tile go through the array against the B that its pairs make, with the parity errors and upsets of these rows:
the sums, and the state after reading the rows. -/
def State.feedTile (s : State) (d : DieIx) (c : CoreIx) (r : Running) (af : Fmt) (parity : List (Nat × Nat)) (ups : List Upset) (m : MulRun) :
    MulRun × State :=
  let x := r.desc
  let rows := State.readRows ⟨d, dJob x, r.fw⟩ d c x (aBytes m.st af) ((fedRows m.on).filter (fun k => inTile m.st x m.tile k)) s
  let m1 : MulRun :=
    { m with cols := tileCols m.st m.got, fed := rows.1
             parity := m.parity ++ parity.filter (fun p => inTile m.st x m.tile p.2)
             ups := m.ups ++ ups.filter (fun u => inTile m.st x m.tile u.row) }
  ({ m1 with fed := m.fed ++ rows.1, sums := (m1.input x af).sums }, rows.2)

/-- Whether a column's check failed. -/
def colFails (cs : List ColCheck) (lo n : Nat) : Bool := cs.any (fun k => k.fail && decide (lo ≤ k.col ∧ k.col < lo + n))

/-- Whether the values of B that the array multiplies hold a poisoned one: the hallmark row meets each of them, masked or not (R114). -/
def badStationary (m : MulRun) : Bool := (bChunks m.st m.cols).any (fun k => k.bad.any id)

/-- The statuses that rows and B give: POISON for a poisoned output, for a poisoned value of B, and for a parity error in a column, the
hallmark row included (R114). -/
def tileStats (x : Desc) (m : MulRun) : List Nat :=
  if m.parity.any (fun p => decide (p.1 < m.st.ncols) && decide (p.2 ≤ mRows x)) || badStationary m
    || m.sums.any (fun p => p.2.any (fun v => v.any (fun w => w.bad))) then [stPoison] else []

/-- The drain takes the sums of a tile, row by row. -/
def State.drainTile (s : State) (d : DieIx) (c : CoreIx) (r : Running) (ofm : Fmt) (m : MulRun) : DrainAcc :=
  m.sums.foldl (fun (acc : DrainAcc) p => acc.row d c r m.st ofm p) ⟨s, (s.core d c).gen, r.flags, [], []⟩

/-- The hallmark after the last tile (R129 to R131): the record's word and counts, and what a failure is to poison. -/
def State.mulCheck (s : State) (d : DieIx) (c : CoreIx) (r : Running) (af : Fmt) (m : MulRun) : State :=
  let i := m.input r.desc af
  let cs := i.checks m.sums s.free
  let nf := (cs.filter (fun k => k.fail)).length
  let r1 : Running :=
    { r with stats := r.stats ++ (if nf = 0 then [] else [stHallmark]), hall := i.word cs
             detail := BitVec.ofNat 32 (min nf 65535 * 65536 + m.fed.length)
             tail := if nf = 0 then none
               else some ⟨m.st, (m.outs.filter (fun o => colFails cs o.1 o.2.1)).map (fun o => (o.2.2.1, o.2.2.2))⟩ }
  ((s.drawFree.modCore d c (fun k => { k with arr := { k.arr with run := none } })).setRunning d (.core c) r1).mulEnd d c r1

/-- Tile by tile (R120): the pairs of B that the array does not hold yet are loaded one after another, anew for every tile; then the rows
of the tile stream and the drain takes their sums. A load that has to wait leaves the instruction where it stands. -/
def State.mulTiles (d : DieIx) (c : CoreIx) (af ofm : Fmt) (parity : List (Nat × Nat)) (ups : List Upset) :
    Nat → Running → MulRun → State → State
  | 0, _, _, s => s
  | k + 1, r, m, s =>
    let q := QId.core c
    let hold := fun (t : State) => t.modCore d c (fun y => { y with arr := { y.arr with run := some m } })
    if m.got.length < pairCount m.st.fmt then
      match s.fetchAll d q r (pairPlaces m.st m.got.length) with
      | .stop e => s.stopEarly d q r e
      | .wait t => hold t
      | .data l t => State.mulTiles d c af ofm parity ups k r { m with got := m.got ++ [l] } (t.dropReads d q r)
    else
      let f := s.feedTile d c r af parity ups m
      let o := f.2.drainTile d c r ofm f.1
      let n := f.1.fed.length
      let r1 : Running := { r with flags := o.flags, stats := r.stats ++ tileStats r.desc f.1 ++ o.stats, rows := n, detail := BitVec.ofNat 32 n }
      let m1 : MulRun := { f.1 with tile := m.tile + 1, got := [], sums := m.sums ++ f.1.sums, outs := m.outs ++ o.outs }
      let s1 := (o.s.modCore d c (fun y => { y with gen := o.gen })).setRunning d q r1
      if m1.tile < tileCount m.st r.desc then State.mulTiles d c af ofm parity ups k r1 m1 s1 else s1.mulCheck d c r1 af m1

/-- Events that the tiles of an instruction take at most. -/
def mulFuel (st : Stationary) (x : Desc) : Nat := tileCount st x * (pairCount st.fmt + 1) + 1

/-- The start of the stream: an A record with the wrong slice count ends it before anything is swapped (R134); else the mask is read, and
the swap takes place (R111, R112), even where every row is masked, so that no first row is fed (DEDUCED, log entry 137). -/
def State.mulBegin (s : State) (d : DieIx) (c : CoreIx) (r : Running) (st : Stationary) (af ofm : Fmt)
    (parity : List (Nat × Nat)) (ups : List Upset) : State :=
  let q := QId.core c
  let x := r.desc
  let m := s.mulMask d c r st.ncols
  let wrong := (fedRows m.1).any (fun k =>
    let key := memKey d 1 (aOff x c k)
    wrongCount af (s.peek key 64) (s.poisonOf 1 key (aBytes st af)))
  if wrong then s.stopEarly d q r stFormat
  else
    let t := if mSwap x then m.2.modCore d c (fun k => { k with arr := { k.arr with shadow := none, active := some st } }) else m.2
    let pair0 := if slicedFmt st.fmt then [st.cols.map (fun p => (p.1.drop 64, p.2.drop 64))] else []
    State.mulTiles d c af ofm parity ups (mulFuel st x) r ⟨r.ident, st, 0, pair0, [], m.1, [], [], [], [], []⟩ t

/-- The instruction of a core's array that streams, if it is this one. -/
def State.streaming (s : State) (d : DieIx) (c : CoreIx) (r : Running) : Option MulRun :=
  (s.core d c).arr.run.bind (fun m => if m.ident = r.ident then some m else none)

/-- Places of an instruction's output. -/
def mulOuts (x : Desc) (st : Stationary) (ofm : Fmt) : List (BoardAddr × Nat) :=
  if mAcc x < 2 then [] else rowPlaces (mOut x) (mOutPitch x) (mRows x) (ofm.rowBytes st.ncols)

/-- MUL and DIAG: start checks, the drain entry, the destination's memory, then the stream, tile by tile. -/
def State.mulRun (s : State) (d : DieIx) (c : CoreIx) (parity : List (Nat × Nat)) (ups : List Upset) (r : Running) : State :=
  let q := QId.core c
  let x := r.desc
  match s.streaming d c r, Fmt.ofCode (fld x (8 * 52) 4), Fmt.ofCode (fld x (8 * 52 + 4) 4) with
  | some m, some af, some ofm => State.mulTiles d c af ofm parity ups (mulFuel m.st x) r m s
  | _, _, _ =>
    match s.mulStart d c x with
    | .stop res sv => (s.countService sv).finish d q r res
    | .wait => s
    | .go st af ofm =>
      if s.wantsDrain d c r then s
      else
        match s.gateAll d q r (mulOuts x st ofm) with
        | .fenced => s.stopEarly d q r stFenced
        | .wait => s
        | .go => s.mulBegin d c r st af ofm parity ups

/-- Whether a matrix command waits for a memory that does not take its access (R84, R288): a LOAD for its source, a MUL or DIAG for its
destination or for a pair of B. -/
def State.mxWaits (s : State) (d : DieIx) (c : CoreIx) (r : Running) : Bool :=
  let q := QId.core c
  let x := r.desc
  if dKind x = 0x20 then
    match judgeLoad x with
    | .work f => s.gateAll d q r (loadPlaces x f) == .wait
    | _ => false
  else if dKind x = 0x21 ∨ dKind x = 0x22 then
    match s.streaming d c r with
    | some m => s.gateAll d q r (pairPlaces m.st m.got.length) == .wait
    | none =>
      match s.mulStart d c x with
      | .go st _ ofm => s.gateAll d q r (mulOuts x st ofm) == .wait
      | _ => false
  else false

/-- Whether a MUL or DIAG waits for a LOAD to complete its shadow (R112). -/
def State.awaitsShadow (s : State) (d : DieIx) (c : CoreIx) (r : Running) : Bool :=
  decide (dKind r.desc = 0x21 ∨ dKind r.desc = 0x22) && (s.streaming d c r).isNone && !r.acking && (match s.mulStart d c r.desc with
    | .wait => true
    | _ => false)

/-- Run a matrix instruction: one whose acknowledgements are in ends, else the one that holds the feeder goes on (R116). -/
def withMul (s : State) (d : DieIx) (c : CoreIx) (kind : Nat) (k : Running → State) : State :=
  let q := QId.core c
  let l := (s.queue d q).running.filter (fun r => decide (dKind r.desc = kind))
  match l.find? (fun r => r.acking && !s.awaitsAck d q r) with
  | some r => s.mulEnd d c r
  | none =>
    match l.find? (fun r => !r.acking) with
    | some r => if r.poison then s.finish d q r (.err stPoison) else k r
    | none => s

/-- MUL (R109 to R134). -/
def execMul (d : DieIx) (c : CoreIx) (parity : List (Nat × Nat)) (ups : List Upset) (s : State) : Host.Outcome State Fault Refusal :=
  onDie d s (fun t => withMul t d c 0x21 (t.mulRun d c parity ups))

/-- DIAG (R129). -/
def execDiag (d : DieIx) (c : CoreIx) (parity : List (Nat × Nat)) (ups : List Upset) (s : State) : Host.Outcome State Fault Refusal :=
  onDie d s (fun t => withMul t d c 0x22 (t.mulRun d c parity ups))

end Sys2Proof.Machine
end

