-- ==== Sys2Proof/Machine/Health.lean ====
section
/-! DEFINITION. The health controller: replays and their classes, lending, assay units, passes and touchstone (R437, R438, R440,
R442 to R446). -/

namespace Sys2Proof.Machine

/-! ### Replays (R437) -/

/-- The operands of a check-only run (R437), of a snapshot or of a library entry: formats, kind, columns and KLEN of the LOAD, rows and mask
mode of the instruction; then the fed A rows, the columns of B and the mask, one after another, with their poison. -/
structure CheckRun where
  af : Fmt
  bf : Fmt
  diag : Bool
  ncols : Nat
  klen : Nat
  rows : Nat
  mode : Nat
  bytes : List Byte
  marks : List Bool

/-- What a check-only run gives: the hallmark word, whether it fails, the digest of each tile, and the operands by part. -/
structure ReplayOut where
  word : Word
  fail : Bool
  digests : List Word
  rows : List (Nat × List Byte)
  cols : List Byte
  mask : List Byte

/-- Digest of a tile: the CRC-32C of its chunk sums in the bank format, row by row. -/
def mxDigest (x : MxIn) (sums : List (Nat × List (Option MxSum))) (tile : Nat) : Word :=
  let f := bankFmt x.af
  crc32c ((sums.filter (fun p => decide (p.1 / 128 = tile))).flatMap (fun p => p.2.flatMap (fun v =>
    leBytes f.elemBytes (match v with
      | some w => if w.bad then 0 else (encodeScalar f .rne w.val noGen).bits
      | none => 0))))

/-- Run operands on an array with the upsets `ups`. -/
def CheckRun.run (k : CheckRun) (ups : List Upset) (free : DWord) : ReplayOut :=
  let st : Stationary := ⟨k.bf, k.diag, k.klen, k.ncols, [], 0, 0⟩
  let nm := (maskBitsOf k.mode k.rows k.ncols + 7) / 8
  let mask := k.bytes.drop (k.bytes.length - nm)
  let on := maskRowsOf k.mode k.rows k.ncols mask (k.marks.drop (k.bytes.length - nm))
  let fed := fedRows on
  let la := aBytes st k.af
  let lb := if k.diag then k.bf.rowBytes k.ncols else kBytes k.bf k.klen
  let nb := if k.diag then 1 else k.ncols
  let rows := (fed.zipIdx).map (fun q => (q.1, slice k.bytes (q.2 * la) la, slice k.marks (q.2 * la) la))
  let cols := (List.range nb).map (fun n =>
    (slice k.bytes (fed.length * la + n * lb) lb, slice k.marks (fed.length * la + n * lb) lb))
  let mx : MxIn :=
    { af := k.af, bf := k.bf, diag := k.diag, ncols := k.ncols, m := k.rows
      rows := rows.map (fun r => (r.1, aChunk st k.af r.2.1 r.2.2)), cols := bChunks st cols, on := on, parity := [], ups := ups }
  let sums := mx.sums
  let cs := mx.checks sums free
  { word := setBit (mx.word cs) 26 true
    fail := cs.any (fun c => c.fail)
    digests := (List.range ((k.rows + 127) / 128)).map (mxDigest mx sums)
    rows := rows.map (fun r => (r.1, r.2.1)), cols := (cols.map (fun c => c.1)).flatten, mask := mask }

/-- The operands of a quarantine slot, read by test accesses of the health controller (R317). -/
def State.readSnap (s : State) (d : DieIx) (p : Snap) : CheckRun × State :=
  let b := s.quarRecord d p.index
  let x := descOf (slice b 24 64)
  let o := s.memRead ⟨d, p.job, true⟩ d 0 (quarSlot p.slot) (leNat (slice b 88 4))
  (⟨(Fmt.ofCode (fld x (8 * 52) 4)).getD .fp64, p.fmt, p.diag, p.ncols, p.klen, mRows x, mMode x, o.bytes, o.poison⟩, o.state)

/-- The operands of a library entry (R440). -/
def libCheck (e : List Byte) : CheckRun :=
  let fmts := (byteAt e 12).toNat
  let flags := (byteAt e 13).toNat
  ⟨(Fmt.ofCode (fmts % 16)).getD .fp64, (Fmt.ofCode (fmts / 16)).getD .fp64, decide (flags % 2 = 1), leNat (slice e 16 2), (byteAt e 18).toNat,
    leNat (slice e 14 2), flags / 2 % 4, e.drop 64, List.replicate (e.length - 64) false⟩

/-- Whether the array of a core is fenced. -/
def State.arrayFenced (s : State) (d : DieIx) (c : Nat) : Bool := s.coreFenced d (coreIx c) || (s.core d (coreIx c)).fenceArr

/-- The neighbour of a core (R437): the next unfenced array of its quadrant, or else the lowest unfenced of the die. -/
def State.neighbour (s : State) (d : DieIx) (c : Nat) : Option Nat :=
  let quad := (List.range 11).map (fun i => c / 12 * 12 + (c % 12 + 1 + i) % 12)
  match quad.find? (fun k => !s.arrayFenced d k) with
  | some k => some k
  | none => (List.range 48).find? (fun k => decide (k ≠ c) && !s.arrayFenced d k)

/-- Whether a core is lent or claimed by the health controller and idle. -/
def State.lentIdle (s : State) (d : DieIx) (c : Nat) : Bool :=
  (s.die d).assay.lends.any (fun p => p.1 == c) && (s.core d (coreIx c)).queue.running.isEmpty

/-- The bits of a mask that govern one tile, from bit 0 on. -/
def tileMask (k : CheckRun) (mask : List Byte) (tile : Nat) : List Byte :=
  let spans := (k.ncols + 127) / 128
  let per := if k.mode = 1 then 128 else spans
  let n := maskBitsOf k.mode (min 128 (k.rows - 128 * tile)) k.ncols
  leBytes ((n + 7) / 8) ((List.range n).foldl (fun a i =>
    let j := tile * per + i
    if bitAt (byteAt mask (j / 8)) (j % 8) then a + 2 ^ i else a) 0)

/-- The library entry of a tile of a run's operands (R440). -/
def checkEntry (k : CheckRun) (o : ReplayOut) (tile cls : Nat) (src : Endpoint) (stamp : DWord) (digest : Word) : List Byte :=
  let rows := o.rows.filter (fun r => decide (r.1 / 128 = tile))
  libEntry (k.af.code + 16 * k.bf.code) ((if k.diag then 1 else 0) + 2 * k.mode) (min 128 (k.rows - 128 * tile)) k.ncols k.klen cls src stamp
    digest o.word (rows.flatMap (fun r => r.2) ++ o.cols ++ tileMask k o.mask tile)

def State.setDigests (s : State) (d : DieIx) (slot : Nat) (l : List Word) : State :=
  s.modDie d (fun x => { x with assay := { x.assay with
    snaps := x.assay.snaps.map (fun p => if p.slot = slot then { p with digests := l } else p) } })

/-- What two runs of the same operands say (R438): the class, the first tile whose digests differ, the digests to expect, and of which run
they are: the neighbour's where it passes. -/
structure RunVerdict where
  cls : Nat
  differ : Option Nat
  good : List Word
deriving DecidableEq, Repr

def judgeRuns (own : ReplayOut) (nb : Option ReplayOut) : RunVerdict :=
  match nb with
  | none => ⟨if own.fail then 2 else 1, none, own.digests⟩
  | some n =>
    let differ := (List.range own.digests.length).find? (fun k => decide (own.digests.getD k 0 ≠ n.digests.getD k 0))
    ⟨if own.fail then (if n.fail then 3 else 2) else if n.fail || differ.isSome then 3 else 1, differ,
      if n.fail then own.digests else n.digests⟩

/-- The digest that a library entry of a tile expects: the passing neighbour's, else the one recorded before, else a free value, since no
run gives it. -/
def expectDigest (v : RunVerdict) (nb : Option ReplayOut) (recorded : List Word) (tile : Nat) (free : DWord) : Word :=
  if nb.any (fun n => !n.fail) then v.good.getD tile 0 else recorded.getD tile (BitVec.ofNat 32 (fld free 0 32))

/-- The tile that an entry holds: the first whose digests differ, or the last. -/
def RunVerdict.tile (v : RunVerdict) (own : ReplayOut) : Nat := v.differ.getD (own.digests.length - 1)

/-- Classify a replayed record (R438): class 2 appends a library entry and fences the array. -/
def State.judgeReplay (s : State) (d : DieIx) (p : Snap) (k : CheckRun) (own : ReplayOut) (nb : Option (Nat × ReplayOut)) : State :=
  let v := judgeRuns own (nb.map (fun n => n.2))
  let src : Endpoint := BitVec.ofNat 23 (leNat (slice (s.quarRecord d p.index) 8 4))
  let entry := checkEntry k own (v.tile own) v.cls src (s.stamp d) (expectDigest v (nb.map (fun n => n.2)) p.digests (v.tile own) s.free)
  let w : Verdict :=
    { cls := v.cls, same := own.word, neighbour := (nb.map (fun n => n.1)).getD 0x3F, next := (nb.map (fun n => n.2.word)).getD 0
      tile := v.differ.getD 0xFFFF, lib := decide (v.cls = 2) && s.libNew entry, fenced := decide (v.cls = 2) }
  let s1 := if v.cls = 2 then s.drawFree.addLibrary d entry else s.drawFree
  let s2 := (s1.classify d p.index w).setDigests d p.slot v.good
  if v.cls = 2 then s2.resetToFence d (.engine (coreIx p.core) 0)
  else if v.cls = 3 then s2.testArrays d (p.core :: (nb.map (fun n => n.1)).toList)
  else s2

/-- Replay a snapshot on its core and, where there is one, on the neighbour; each run reads the slot. -/
def State.replayBoth (s : State) (d : DieIx) (p : Snap) (nb : Option Nat) (own next : List Upset) : State :=
  let a := s.readSnap d p
  match nb with
  | none => a.2.judgeReplay d p a.1 (a.1.run own s.free) none
  | some n =>
    let b := a.2.readSnap d p
    b.2.judgeReplay d p a.1 (a.1.run own s.free) (some (n, b.1.run next s.free))

/-- REPLAY (R437, R438): a quarantined instruction runs again on its core and on its neighbour, once both are lent or claimed;
without operands its class is UNREPLAYED. -/
def execReplay (d : DieIx) (i : Nat) (own nb : List Upset) (s : State) : Host.Outcome State Fault Refusal :=
  onDie d s (fun t =>
    match (t.die d).replays.find? (fun r => r.index == i) with
    | none => t
    | some r =>
      if !t.hbmServes d then t
      else
        match (t.die d).assay.snaps.find? (fun p => decide (p.index = i ∧ p.slot = r.slot) && bitAt (t.reg d rAsyQstat) p.slot) with
        | none => t.classify d i ⟨4, 0, 0x3F, 0, 0xFFFF, false, false⟩
        | some p =>
          let n := t.neighbour d p.core
          let ready := t.lentIdle d p.core && (match n with
            | some k => t.lentIdle d k
            | none => true)
          if !ready then t else t.replayBoth d p n own nb)

/-- REPLAY_CLAIM (R437): replays whose cores have not qualified within REPLAY_WAIT strokes claim them at the next boundary. -/
def execReplayClaim (d : DieIx) (s : State) : Host.Outcome State Fault Refusal :=
  onDie d s (fun t => t.modDie d (fun x => { x with replays := x.replays.map (fun r =>
    if r.slot ≠ 0xFF ∧ begun (t.stroke d) (r.since.toNat + t.rf d rAsyCfg 16 8) then { r with claim := true } else r) }))

/-- The cores that a pending replay needs: its own and its neighbour. -/
def State.replayCores (s : State) (d : DieIx) (r : Replay) : List Nat :=
  if r.slot = 0xFF then [] else r.core :: (s.neighbour d r.core).toList

/-- At a boundary the cores of such replays are claimed, for at most 2 strokes. -/
def State.claimReplays (s : State) (d : DieIx) : State :=
  let cores := (((s.die d).replays.filter (fun r => r.claim)).flatMap (s.replayCores d)).eraseDups
  let new := cores.filter (fun c => !(s.die d).assay.lends.any (fun p => p.1 == c) && !s.arrayFenced d c)
  (s.modDie d (fun x => { x with replays := x.replays.map (fun r => { r with claim := false }) })).setLends d
    ((s.die d).assay.lends ++ new.map (fun c => (c, some (s.stroke d + 2))))

/-! ### Lending (R442) -/

/-- Whether a queue has nothing to do before MIN_GAP strokes after the stroke that begins. -/
def State.gapOk (s : State) (d : DieIx) (q : QId) : Bool :=
  let x := s.queue d q
  x.running.isEmpty && (match x.entries with
    | [] => true
    | e :: _ => e.released.isNone && !isDue (s.stroke d) (dRelease e.desc) && decide (ahead (s.stroke d) (dRelease e.desc) ≥ s.rf d rAsyCfg 8 8))

def State.lendable (s : State) (d : DieIx) (c : CoreIx) : Bool :=
  !s.coreFenced d c && !s.coreTaken d c && !(s.core d c).proc.stopped && !(s.core d c).recovering && s.gapOk d (.core c)

/-- What a boundary does for assay: lends of the old stroke end, units still running are counted as abandoned, the cores of late replays
are claimed, and the cores and engines that the controller chooses and that qualify are lent. -/
def State.assayBoundary (s : State) (d : DieIx) (b : BoundaryIn) : State :=
  let keep := (s.die d).assay.lends.filter (fun p => match p.2 with
    | none => true
    | some e => !begun (s.stroke d) e.toNat)
  let s1 := ((s.addSat d rAsyFail 16 16 b.abandoned).setLends d keep).claimReplays d
  let new := (List.finRange 48).filter (fun c => bitAt b.lend c.val && s1.lendable d c)
  let engines := (List.range 10).filter (fun i => bitAt b.lendUncore i && !s1.dieFenced d && s1.gapOk d (queueOfNum (48 + i)))
  (s1.setLends d ((s1.die d).assay.lends ++ new.map (fun c => (c.val, some (s1.stroke d + 1))))).modDie d (fun x =>
    { x with assay := { x.assay with lentUncore := engines.foldl (fun w i => setBit w i true) 0 } })

/-! ### Assay units (R444) -/

/-- A die fault fences the die at once (R418). -/
def State.dieFault (s : State) (d : DieIx) : State :=
  let s1 := (s.startReset d .die 3 false).modDie d (fun x =>
    { x with resets := x.resets.map (fun r => if r.dom = .die then { r with toFence := true } else r) })
  s1.completeReset d .die 0

def unitCore (u : AssayUnit) : Option CoreIx :=
  match u with
  | .array c _ => some c
  | .vector c => some c
  | .dma c => some c
  | .processor c => some c
  | .scratchpad c => some c
  | .bank c => some c
  | .library _ c => some c
  | _ => none

def unitQueue (u : AssayUnit) : Option QId :=
  match u with
  | .row q => some (.row q)
  | .side q => some (.row q)
  | .uncore q => some q
  | .table _ => some .bil
  | _ => none

/-- Whether the unit that a test runs on is lent in this stroke. -/
def State.unitLent (s : State) (d : DieIx) (u : AssayUnit) : Bool :=
  match unitCore u with
  | some c => s.lentIdle d c.val
  | none =>
    match unitQueue u with
    | some q => bitAt (s.die d).assay.lentUncore (qUncore q).val && (s.queue d q).running.isEmpty
    | none => true

/-- A unit has been covered: the pass's progress, and a complete pass (R444, R449, R450). -/
def State.coverUnit (s : State) (d : DieIx) (u : AssayUnit) : State :=
  let a := (s.die d).assay
  let all := s.assayUnits d
  let done := if a.covered.contains u then a.covered else a.covered ++ [u]
  let full := all.all (fun x => done.contains x)
  let s1 := s.modDie d (fun x => { x with assay := { x.assay with
    covered := if full then [] else done
    urgent := x.assay.urgent.filter (fun y => decide (y ≠ u))
    lastRun := (u, s.nominal d) :: x.assay.lastRun.filter (fun p => decide (p.1 ≠ u))
    pass := x.assay.pass.map (fun p => { p with left := p.left.filter (fun y => decide (y ≠ u)) }) } })
  let s2 := if full then s1.addSat d rAsyPasses 0 32 1 else s1
  s2.setRf d rAsyCover 16 8 (if full then 0 else (all.filter (fun x => done.contains x)).length * 100 / max 1 all.length)

/-- Fence what a unit that fails twice stands for. -/
def State.fenceUnit (s : State) (d : DieIx) (u : AssayUnit) : State :=
  match u with
  | .array c _ => s.resetToFence d (.engine c 0)
  | .library _ c => s.resetToFence d (.engine c 0)
  | .vector c => s.resetToFence d (.engine c 1)
  | .dma c => s.resetToFence d (.engine c 2)
  | .processor c => s.resetToFence d (.core c)
  | .scratchpad c => s.resetToFence d (.core c)
  | .bank c => s.resetToFence d (.core c)
  | .row q => s.resetToFence d (.quad q)
  | .side q => s.resetToFence d (.quad q)
  | .table n => s.setTblState d n.val 3
  | _ => s.dieFault d

def testEntry (s : State) (d : DieIx) (c : Nat) (cls : Nat) (o : TestData) : List Byte :=
  libEntry o.fmts o.flags o.rows o.ncols o.klen cls (s.endpoint d c) (s.stamp d) o.digest o.word o.data

/-- A library entry's run, and whether it fails: by its hallmark, or by its digest (R446). -/
def libFails (e : List Byte) (ups : List Upset) (free : DWord) : Bool :=
  let o := (libCheck e).run ups free
  o.fail || decide (o.digests.headD 0 ≠ BitVec.ofNat 32 (leNat (slice e 32 4)))

/-- Whether a run of a unit fails (R444): a library entry by its run on the array, a table by its check points (R188) or as the operand says, any
other unit as the operand says. -/
def State.unitFails (s : State) (d : DieIx) (u : AssayUnit) (ups : List Upset) (fail : Bool) : Bool :=
  match u with
  | .library i _ => (s.flash.library[i]?).any (fun p => libFails p.2 ups s.free)
  | .table n =>
    let b := s.tblImage d n.val
    fail || !(tblVerify b false (BitVec.ofNat 12 (tblJob b))).1
  | _ => fail

/-- The library entry that a unit's second failure appends (R444). -/
def State.unitEntry (s : State) (d : DieIx) (u : AssayUnit) (o : TestData) : Option (List Byte) :=
  match u with
  | .array c _ => some (testEntry s d c.val 2 o)
  | .library i _ => (s.flash.library[i]?).map (fun p => p.2)
  | _ => none

/-- A unit that failed: its repeat decides. The numbering of units is not stated, so the number that is reported is a free value. -/
def State.unitFailed (s : State) (d : DieIx) (u : AssayUnit) (again : Bool) (o : TestData) : State :=
  let num := fld s.free 0 16
  let s1 := (s.drawFree.addSat d rAsyFail 0 16 (if again then 2 else 1)).modDie d (fun x => { x with assay := { x.assay with
    pass := x.assay.pass.map (fun p =>
      { p with fails := p.fails + 1, first := if p.fails = 0 then (s.assayUnits d).idxOf u else p.first }) } })
  if !again then s1.logEvent d 0x0B03 0 num
  else
    let s2 := match s1.unitEntry d u o with
      | some e => s1.addLibrary d e
      | none => s1
    (s2.fenceUnit d u).unitEvent d (s.endpoint d (((unitCore u).map (fun c => c.val)).getD 63)) 5 num

/-- Whether a unit may run now: routine assay or a pass runs, or the unit is one of those that R438 puts first; none goes before a unit that
is put first and is lent, nor before a replay that its core is needed for (R437). -/
def State.unitDue (s : State) (d : DieIx) (u : AssayUnit) : Bool :=
  let first := (s.die d).assay.urgent
  !((unitCore u).any (fun c => ((s.die d).replays.flatMap (s.replayCores d)).contains c.val))
  && (first.contains u || ((bitAt (s.reg d rAsyCfg) 31 || (s.die d).assay.pass.isSome)
    && !first.any (fun y => (s.assayUnits d).contains y && s.unitLent d y)))

/-- The word of a memory that its checker test uses (R443): TARGET and INDEX, the region, where the instance begins there, and the offset in
it. Which word it is, and which lines of the service region are the assay's own, is not stated: a free value (log 174). -/
structure TestWord where
  target : Nat
  index : Nat
  region : Nat
  base : Nat
  off : Nat

def State.testWord (s : State) (u : AssayUnit) : Option TestWord :=
  let k := fld s.free 0 24
  match u with
  | .scratchpad c => some ⟨1, c.val, 1, spBase c.val, 8 * (k % 0x80000)⟩
  | .bank c => some ⟨2, c.val, 1, bankBase c.val, 8 * (k % 0x20000)⟩
  | .buffer => some ⟨3, 0, 1, 0, 8 * (k % 0x600000)⟩
  | .side q => some ⟨4, q.val, 0xFF, q.val * 2 ^ 20, 8 * (k % (sideBytes / 8))⟩
  | .hbm n => some ⟨0, 0, 0, 0, 0x7E00000000 + 0x2000 * n.val + 64 * (k % 4)⟩
  | _ => none

/-- One step of the procedure of R318: the flip mask is set and armed, a test write and a test read follow, and a word found uncorrectable
is written back poisoned. -/
def State.flipStep (s : State) (d : DieIx) (w : TestWord) (bs : List Byte) (poison : Bool) (data : DWord) (chk : Word) : State :=
  let a : Access := ⟨d, 0, true⟩
  let key := memKey d w.region (w.base + w.off)
  let s1 := ((s.setReg64 d rEccFlipData data).setReg d rEccFlipChk chk).flipArm d
  let s2 := s1.memWrite a d w.region (w.base + w.off) bs (List.replicate bs.length poison)
  let s3 := (s2.memRead a d w.region (w.base + w.off) bs.length).state
  if (s3.die d).writeBacks.contains key then
    (s3.modDie d (fun x => { x with writeBacks := x.writeBacks.filter (fun k => k != key) })).writeBackWord d key
  else s3

/-- A checker test (R318, R443): the word is saved, one bit, two bits and the poison pattern are tried, the word is read clean, and the saved
value is written back with fresh check bits. -/
def State.checkerTest (s : State) (d : DieIx) (u : AssayUnit) : State :=
  match s.testWord u with
  | none => s
  | some w =>
    let a : Access := ⟨d, 0, true⟩
    let hbm := decide (w.region = 0)
    let n := if hbm then 64 else 8
    let saved := s.peek (memKey d w.region (w.base + w.off)) n
    let bs := (List.replicate (n / 8) (leBytes 8 0x0123456789ABCDEF)).flatten
    let s1 := ((s.drawFree.setRf d rEccFlipCtl 8 4 w.target).setRf d rEccFlipCtl 0 6 w.index).setReg64 d rEccFlipAddr (BitVec.ofNat 64 w.off)
    let s2 := (s1.flipStep d w bs false 0x20 0).flipStep d w bs false 0x21 0
    let s3 := s2.flipStep d w bs hbm 0 (if hbm then 0 else 7)
    let s4 := s3.memWrite a d w.region (w.base + w.off) bs (List.replicate n false)
    let s5 := (s4.memRead a d w.region (w.base + w.off) n).state
    s5.memWrite a d w.region (w.base + w.off) saved (List.replicate n false)

/-- Whether the memory that a unit tests serves accesses. -/
def State.testServes (s : State) (d : DieIx) (u : AssayUnit) : Bool :=
  match u with
  | .hbm _ => s.hbmServes d
  | _ => true

/-- ASSAY_UNIT (R442, R444): a unit runs where it is lent, and once more at once if it fails. -/
def execAssayUnit (d : DieIx) (u : AssayUnit) (fail again : Bool) (o : UnitRun) (s : State) : Host.Outcome State Fault Refusal :=
  onDie d s (fun t =>
    if !t.unitDue d u || !(t.assayUnits d).contains u || !t.unitLent d u || !t.testServes d u then t
    else
      let t1 := (t.checkerTest d u).coverUnit d u
      if t.unitFails d u o.ups fail then t1.unitFailed d u (t.unitFails d u o.again again) o.ops else t1)

/-- STARVED (R444): a unit left uncovered for two whole periods; one event per period. -/
def execStarved (d : DieIx) (s : State) : Host.Outcome State Fault Refusal :=
  onDie d s (fun t =>
    let period := t.rf d rAsyCfg 0 8
    let now := t.nominal d / (940 * 3600000000)
    let told := match (t.die d).assay.starvedAt with
      | some k => decide (now < k + period)
      | none => false
    if t.assayAge d < 2 * period || told then t
    else
      ((t.modReg d rAsyStatus (fun w => setBit w 31 true)).modDie d (fun x => { x with assay := { x.assay with starvedAt := some now } })
        ).unitEvent d (t.endpoint d 63) 13 4)

/-! ### TOUCHSTONE and ASSAY_PASS (R445, R446) -/

def hCores (x : Desc) : Nat := dn x 32 6
def hScope (x : Desc) : Nat := dn x 38 1
def hDeadline (x : Desc) : Nat := if dn x 40 2 = 0 then 64 else dn x 40 2

/-- The tests of a touchstone on one core. -/
inductive TouchTest where
  | replay (p : Snap)
  | library (i : Nat)
  | known (mode : Nat)
  | vector
  | dma
deriving DecidableEq, Repr

def State.touchTests (s : State) (d : DieIx) (x : Desc) : List TouchTest :=
  let on := fun (k : Nat) => bitAt (BitVec.ofNat 8 (hScope x)) k
  (if on 0 then ((s.die d).assay.snaps.filter (fun p => decide (p.job = dJob x) && bitAt (s.reg d rAsyQstat) p.slot)).map .replay else [])
    ++ (if on 1 then (List.range s.flash.library.length).map .library else [])
    ++ (if on 2 then (List.range 5).map .known else []) ++ (if on 3 then [.vector] else []) ++ (if on 4 then [.dma] else [])

/-- How a test failed (R438, R446): its class, its word and the neighbour's, the first tile that differs, and the library entry that it
appends. -/
structure TestVerdict where
  cls : Nat
  word : Word
  next : Word
  differ : Option Nat
  entry : Option (List Byte)

/-- A run of given operands as a test: it passes when its hallmark does and its digests are those recorded; else the next named core runs the
operands too, and the two decide the class. A failing run appends an entry whatever its class (R440). -/
def State.checkTest (s : State) (d : DieIx) (c : Nat) (nb : Option Nat) (k : CheckRun) (recorded : List Word) (own next : List Upset) :
    Option TestVerdict :=
  let o := k.run own s.free
  if !o.fail && (recorded.isEmpty || o.digests == recorded) then none
  else
    let n := nb.map (fun _ => k.run next s.free)
    let v := judgeRuns o n
    some ⟨v.cls, o.word, (n.map (fun p => p.word)).getD 0, v.differ,
      some (checkEntry k o (v.tile o) v.cls (s.endpoint d c) (s.stamp d) (expectDigest v n recorded (v.tile o) s.free))⟩

/-- Run one test of a core; the reads of a snapshot count. -/
def State.touchTest (s : State) (d : DieIx) (c : Nat) (nb : Option Nat) (t : TouchTest) (f : Option TestFail) : Option TestVerdict × State :=
  let own := (f.map (fun x => x.own)).getD []
  let next := (f.map (fun x => x.nb)).getD []
  match t with
  | .replay p =>
    let a := s.readSnap d p
    (a.2.checkTest d c nb a.1 p.digests own next, a.2.drawFree)
  | .library i =>
    match s.flash.library[i]? with
    | some e => (s.checkTest d c nb (libCheck e.2) [BitVec.ofNat 32 (leNat (slice e.2 32 4))] own next, s.drawFree)
    | none => (none, s)
  | .known _ => (f.map (fun x =>
      ⟨max 1 x.cls.val, x.ops.word, 0, none, if x.cls.val = 2 then some (testEntry s d c 2 x.ops) else none⟩), s)
  | _ => (f.map (fun x => ⟨max 1 x.cls.val, x.ops.word, 0, none, none⟩), s)

/-- Act on a failing test under R438, with the next named core as neighbour. -/
def State.touchFail (s : State) (d : DieIx) (c : Nat) (nb : Option Nat) (t : TouchTest) (v : TestVerdict) : State :=
  let new := v.entry.any (fun e => s.libNew e)
  let s1 := match v.entry with
    | some e => s.addLibrary d e
    | none => s
  let s2 := match t with
    | .replay p => s1.classify d p.index ⟨v.cls, v.word, nb.getD 0x3F, v.next, v.differ.getD 0xFFFF, new, decide (v.cls = 2)⟩
    | _ => s1.addSat d rAsyReplay (8 * (v.cls - 1)) 8 1
  if v.cls = 2 then
    s2.resetToFence d (.engine (coreIx c) (match t with
      | .vector => 1
      | .dma => 2
      | _ => 0))
  else if v.cls = 3 then s2.testArrays d (c :: nb.toList)
  else s2

/-- What the tests of one core have given so far: the tests that failed, first one first, with their classes and words. -/
structure CoreRun where
  s : State
  hits : List (Nat × Word)

/-- Run the tests of one core. -/
def State.touchCore (s : State) (d : DieIx) (x : Desc) (t : Touch) (c : Nat) (fails : List TestFail) : State × Touch :=
  let tests := s.touchTests d x
  let nb := (((List.range 47).map (fun i => (c + 1 + i) % 48)).find? (fun k => decide (hCores x / 2 ^ k % 2 = 1)))
  let o := (tests.zipIdx).foldl (fun (a : CoreRun) p =>
    let r := a.s.touchTest d c nb p.1 (fails.find? (fun f => f.test == p.2))
    match r.1 with
    | none => ⟨r.2, a.hits⟩
    | some v => ⟨r.2.touchFail d c nb p.1 v, a.hits ++ [(v.cls, v.word)]⟩) ⟨s, []⟩
  let first := o.hits.headD (0, 0)
  (o.s, { t with todo := t.todo.filter (fun k => k != c)
                 results := t.results ++ [(c, tests.length, o.hits.length, first.2, first.1, o.hits.any (fun p => decide (p.1 = 2)))] })

/-- The result block. -/
def touchBlock (stamp : DWord) (t : Touch) : List Byte :=
  let total := t.results.foldl (fun a r => a + r.2.1) 0
  leBytes 8 stamp.toNat ++ leBytes 4 total ++ leBytes 52 0 ++ (List.range 48).flatMap (fun c =>
    match t.results.find? (fun r => r.1 == c) with
    | some r => leBytes 4 r.2.1 ++ leBytes 4 r.2.2.1 ++ leBytes 4 r.2.2.2.1.toNat ++ leBytes 1 r.2.2.2.2.1
        ++ leBytes 1 (if r.2.2.2.2.2 then 1 else 0) ++ leBytes 2 0
    | none => leBytes 12 0 ++ leBytes 1 0 ++ leBytes 1 2 ++ leBytes 2 0)

/-- Complete a TOUCHSTONE: result block and record. -/
def State.touchEnd (s : State) (d : DieIx) (r : Running) (t : Touch) : State :=
  let bad := t.results.filter (fun e => decide (e.2.2.1 ≠ 0))
  let skipped := t.todo.length * (s.touchTests d r.desc).length
  let bs := touchBlock (s.stamp d) t
  let s1 := s.writeAt d (dJob r.desc) (opPlace r.desc 24) bs (List.replicate bs.length false)
  let word := hallWord 7 (!bad.isEmpty) ((bad.map (fun e => e.1)).foldl min 255 % (if bad.isEmpty then 1 else 256)) (if bad.isEmpty then devNone else 0) bad.length
  s1.finish d .hlt r ⟨(if bad.isEmpty then [] else [stHallmark]) ++ (if skipped = 0 then [] else [stTimeout]), 0, word, BitVec.ofNat 32 skipped⟩

def State.setTouch (s : State) (d : DieIx) (t : Option Touch) : State :=
  s.modDie d (fun x => { x with assay := { x.assay with touch := t } })

/-- The start: reserved fields and RES, no-op, fenced cores; then the named cores are claimed. -/
def State.touchStart (s : State) (d : DieIx) (r : Running) : State :=
  let x := r.desc
  let named := (List.range 48).filter (fun c => decide (hCores x / 2 ^ c % 2 = 1))
  if !dAddrOk x 24 ∨ dn x 39 1 ≠ 0 ∨ dn x 42 22 ≠ 0 ∨ hScope x ≥ 32 then s.stopEarly d .hlt r stFormat
  else if hCores x = 0 ∨ hScope x = 0 then s.finish d .hlt r { Result.ok with hallmark := hallEmpty }
  else if (locOf (dAddr x 24)).region ≠ 0 ∨ !s.ownClear d (dAddr x 24) 832 then
    (s.countService (touchesService (dAddr x 24) 832)).stopEarly d .hlt r stFormat
  else if s.dieFenced d ∨ named.any (fun c => s.coreFenced d (coreIx c)) then s.stopEarly d .hlt r stFenced
  else
    (s.setTouch d (some ⟨r.ident, s.stroke d, named, []⟩)).setLends d
      ((s.die d).assay.lends.filter (fun p => !named.contains p.1) ++ named.map (fun c => (c, none)))

/-- TOUCHSTONE (R446): it claims its cores, then runs the tests of one named core after another, where commands that were running
have ended; `fails` are the failing tests of the core whose turn it is. -/
def execTouchstone (d : DieIx) (fails : List TestFail) (s : State) : Host.Outcome State Fault Refusal :=
  onDie d s (fun t => withPick t d .hlt (fun r => decide (dKind r.desc = 0xA0)) (fun r =>
    match (t.die d).assay.touch with
    | none => t.touchStart d r
    | some u =>
      if !t.hbmServes d then t
      else
        match u.todo.find? (fun c => (t.core d (coreIx c)).queue.running.isEmpty) with
        | none => t
        | some c =>
          let w := t.touchCore d r.desc u c fails
          if w.2.todo = [] then w.1.touchEnd d r w.2 else w.1.setTouch d (some w.2)))

/-- Complete an ASSAY_PASS. -/
def State.passEnd (s : State) (d : DieIx) (r : Running) (p : PassRun) : State :=
  let word := hallWord 6 (decide (p.fails ≠ 0)) (if p.fails = 0 then 0 else p.first) (if p.fails = 0 then devNone else 0) p.fails
  s.finish d .hlt r ⟨if p.left = [] then [] else [stTimeout], 0, word, 0⟩

/-- ASSAY_PASS (R446): one full pass under the lending rule; it ends when every unit has run. -/
def execAssayPass (d : DieIx) (s : State) : Host.Outcome State Fault Refusal :=
  onDie d s (fun t => withPick t d .hlt (fun r => decide (dKind r.desc = 0xA1)) (fun r =>
    match (t.die d).assay.pass with
    | none =>
      if dn r.desc 24 16 ≠ 0 ∨ dn r.desc 42 22 ≠ 0 then t.stopEarly d .hlt r stFormat
      else if t.dieFenced d then t.stopEarly d .hlt r stFenced
      else t.modDie d (fun x => { x with assay := { x.assay with pass := some ⟨r.ident, t.stroke d, t.assayUnits d, 0, 0⟩ } })
    | some p => if p.left = [] then t.passEnd d r p else t))

/-- TOUCHSTONE_DEADLINE (R446): at stroke start + DEADLINE the tests not yet run are skipped and the command completes. -/
def execTouchstoneDeadline (d : DieIx) (s : State) : Host.Outcome State Fault Refusal :=
  onDie d s (fun t =>
    match (t.queue d .hlt).running.head? with
    | none => t
    | some r =>
      if !begun (t.stroke d) (r.started.toNat + hDeadline r.desc) then t
      else
        match (t.die d).assay.touch, (t.die d).assay.pass with
        | some u, _ => if t.hbmServes d then t.touchEnd d r u else t
        | none, some p => t.passEnd d r p
        | none, none => t)

end Sys2Proof.Machine
end

