-- ==== Sys2Proof/Machine/Hang.lean ====
section
/-! DEFINITION. What the health controller knows of the units that can hang: pending work, progress by strokes, and the waits that do
not count (R404, R405). -/

namespace Sys2Proof.Machine

/-- The units that are watched on a die. -/
def hangUnits : List HungUnit :=
  (List.finRange 48).flatMap (fun c => [.engine c 0, .engine c 1, .engine c 2, .processor c])
    ++ (List.finRange 4).map HungUnit.rowEngine
    ++ ([.bil, .upd, .cru, .col, .txe, .hlt] : List QId).map HungUnit.uncoreEngine

/-- The name under which a unit is watched: a core's or row engine's queue stands for its processor or engine. -/
def canonUnit (u : HungUnit) : HungUnit :=
  match u with
  | .uncoreEngine (.core c) => .processor c
  | .uncoreEngine (.row q) => .rowEngine q
  | _ => u

/-- The queue whose commands a unit executes. -/
def hungQueue (u : HungUnit) : QId :=
  match u with
  | .engine c _ => .core c
  | .processor c => .core c
  | .rowEngine q => .row q
  | .uncoreEngine q => q

/-- Whether a unit executes commands of a KIND of its queue: the array, the vector unit (it works for the kernel), the DMA engine and
the processor of a core; every other engine has a queue of its own. -/
def unitKind (u : HungUnit) (kind : Nat) : Bool :=
  match u with
  | .engine _ e => if e.val = 0 then decide (kind ≥ 0x20) else if e.val = 1 then decide (kind = 1) else decide (kind = 0x10 ∨ kind = 0x11)
  | .processor _ => decide (kind = 1)
  | _ => true

/-- The started commands of a unit that have not completed. -/
def State.unitRuns (s : State) (d : DieIx) (u : HungUnit) : List Running :=
  (s.queue d (hungQueue u)).running.filter (fun r => unitKind u (dKind r.desc))

/-- Whether the head of the unit's queue waits for nothing but the unit. -/
def State.headPends (s : State) (d : DieIx) (u : HungUnit) : Bool :=
  (s.queue d (hungQueue u)).entries.head?.any (fun e => unitKind u (dKind e.desc) && s.canStart d (hungQueue u) e)

/-- Pending work (R404). -/
def State.unitPends (s : State) (d : DieIx) (u : HungUnit) : Bool := !(s.unitRuns d u).isEmpty || s.headPends d u

/-- What the progress of a unit shows in (R404). -/
def State.progress (s : State) (d : DieIx) (u : HungUnit) : Progress :=
  let q := hungQueue u
  let x := s.die d
  let rs := s.unitRuns d u
  { runs := rs
    reqs := x.outstanding.filter (fun o => decide (o.queue = qNum q) && rs.any (fun r => decide (r.ident = o.ident)))
    retired := match q with
      | .core c => if unitKind u 1 then x.cores[c].retired else 0
      | _ => 0
    reds := if q = .col then x.reds else []
    gathers := if q = .col then x.gathers else []
    exchanges := if q = .txe then x.exchanges else []
    solve := if q = .cru then x.solve else none
    touch := if q = .hlt then x.assay.touch else none
    pass := if q = .hlt then x.assay.pass else none }

/-- Whether a running command waited in stroke `t` within a bound of its own: RTO for a reply or a table, D_R (which D_C precedes) for a
collective or an exchange, the cutoff for a solve (R405). -/
def State.boundedWait (s : State) (d : DieIx) (q : QId) (t : Stroke) (r : Running) : Bool :=
  let x := s.die d
  x.outstanding.any (fun o => decide (o.queue = qNum q ∧ o.ident = r.ident) && o.reply.isNone && !begun t (o.sent.toNat + s.rto d q))
    || r.waitFrom.any (fun w => !begun t (w.toNat + s.rto d q))
    || (match q with
        | .col => x.reds.any (fun u => decide (u.ident = r.ident) && !begun t u.dr)
            || x.gathers.any (fun u => decide (u.ident = r.ident) && !begun t u.dr)
        | .txe => x.exchanges.any (fun u => decide (u.ident = r.ident) && !begun t u.dr)
        | .cru => x.solve.any (fun u => decide (u.ident = r.ident)
            && decide ((t.toNat + 2 ^ 40 - u.start.toNat) % 2 ^ 40 < u.cutoff))
        | _ => false)

/-- Whether the stroke `t` does not count against a unit (R405): first-fault stop, a full completion ring, or every command of it within
a bound of its own. Waits for a release stroke, for a claim and for a commit are no pending work in the first place. -/
def State.unitExempt (s : State) (d : DieIx) (u : HungUnit) (t : Stroke) : Bool :=
  let q := hungQueue u
  (match q with
    | .core c => (s.core d c).proc.stopped
    | _ => false)
  || s.ringFull d q
  || (!s.headPends d u && (s.unitRuns d u).all (s.boundedWait d q t))

/-- A boundary judges the stroke `t` that it ends for every unit with pending work: one more stroke in a row without progress, none
where there was some or where the stroke does not count. -/
def State.watchBoundary (s : State) (d : DieIx) (t : Stroke) : State :=
  let old := (s.die d).watch
  s.modDie d (fun x => { x with watch := (hangUnits.filter (s.unitPends d)).map (fun u =>
    let p := s.progress d u
    ⟨u, p, match old.find? (fun w => decide (w.unit = u)) with
      | some w => if w.seen = p ∧ !s.unitExempt d u t then w.strokes + 1 else 0
      | none => 0⟩) })

/-- Whether a unit is hung (R404): it has pending work and made no progress in HLT_HANG_CFG.STROKES consecutive complete strokes, the last
of which a boundary has just ended. -/
def State.hung (s : State) (d : DieIx) (u : HungUnit) : Bool :=
  s.unitPends d u && decide ((s.die d).timer.cycle = 0)
    && (s.die d).watch.any (fun w => decide (w.unit = u) && decide (w.strokes ≥ s.rf d rHltHangCfg 0 8))

end Sys2Proof.Machine
end

