-- ==== Sys2Proof/Machine/Links.lean ====
section
/-! DEFINITION. The commands of the link ports: frames that arrive, timers that expire, training and discovery, board presence
(R330, R333 to R350). -/

namespace Sys2Proof.Machine

/-! ### Frames -/

/-- An uncorrectable error in a port buffer is counted and logged; which of its 64-bit words it is in is a free value (R315, R539). -/
def State.bufferError (s : State) (d : DieIx) : State :=
  let at0 := s.boardOf (memKey d 0xFF (6 * 2 ^ 32 + fld s.free 0 32))
  (s.drawFree.eccEvent d 9 at0).logEvent d 0x0701 0 at0

/-- DATA (R315, R336): a frame that its buffer corrupts is discarded unacknowledged. -/
def execData (d : DieIx) (l : LinkIx) (r : Received) (s : State) : Host.Outcome State Fault Refusal :=
  onDie d s (fun t => if r.upset ∧ t.lstate d l = 4 then t.bufferError d else t.rxData d l r.frame)

/-- A frame without a message of its own, if it has the type: its ACK and CREDIT count. -/
def State.rxType (s : State) (d : DieIx) (l : LinkIx) (type : Nat) (f : List Byte) : State :=
  if bn f 0 1 = type then (s.rxFrame d l f).1 else s

/-- ACK (R336, R343). -/
def execAck (d : DieIx) (l : LinkIx) (frame : List Byte) (s : State) : Host.Outcome State Fault Refusal :=
  onDie d s (fun t => t.rxType d l 2 frame)

/-- HEARTBEAT (R338). -/
def execHeartbeat (d : DieIx) (l : LinkIx) (frame : List Byte) (s : State) : Host.Outcome State Fault Refusal :=
  onDie d s (fun t => t.rxType d l 3 frame)

/-- Whether a link exchanges frames: its port is in discovery or up. -/
def State.linkLive (s : State) (d : DieIx) (l : LinkIx) : Bool := decide (s.lstate d l = 3 ∨ s.lstate d l = 4)
def State.portLive (s : State) (d : DieIx) (p : PortIx) : Bool := decide (s.pstate d p = 3 ∨ s.pstate d p = 4)

/-- FRAME_INTERVAL (R338): nothing was sent for a microsecond. -/
def execFrameInterval (d : DieIx) (l : LinkIx) (s : State) : Host.Outcome State Fault Refusal :=
  onDie d s (fun t => if t.linkLive d l then t.modLink d l (fun x => x.sendPlain 3 []) else t)

/-- Send every retained frame again, in order, with the latest ACK; no credit is returned in these copies. -/
def Port.resend (x : Port) : Port :=
  { x with tx := x.tx ++ x.retain.map (fun r => frameBytes 1 r.vc r.seq.toNat x.lastAcc.toNat (msgUnits r.msg) r.msg.poison.toNat 0 (msgPayload r.msg))
           retain := x.retain.map (fun r => { r with retries := r.retries + 1 }) }

/-- A retained frame whose copy has an uncorrectable error goes out with the poison mark of that payload unit set (R315). -/
def Port.mark (x : Port) (upset : Option (Nat × Fin 64)) : Port :=
  match upset with
  | none => x
  | some (i, u) => { x with retain := x.retain.modify i (fun r => { r with msg := { r.msg with poison := setBit r.msg.poison u.val true } }) }

/-- RETRANSMISSION (R337): the timer of the oldest unacknowledged frame expires; after the third retransmission the link goes down
with cause RETRY. Of events that fall in one cycle the sender puts the ACK into the queue first (R339, log entry 167). -/
def execRetransmission (d : DieIx) (r : Resend) (s : State) : Host.Outcome State Fault Refusal :=
  onDie d s (fun t =>
    if t.lstate d r.link ≠ 4 then t
    else
      let p := linkPort r.link
      match (t.link d r.link).retain with
      | [] => t
      | f :: _ =>
        if f.retries ≥ 3 then t.linkDown d p 1
        else
          let t1 := if r.upset.isSome then t.bufferError d else t
          (t1.addSat d (rLnkPerr p.val) 16 16 (t.link d r.link).retain.length).modLink d r.link (fun x => (x.mark r.upset).resend))

/-- Whether the retry limit of a link is reached: its oldest frame has been sent again three times. -/
def State.retriesOut (s : State) (d : DieIx) (l : LinkIx) : Bool :=
  decide (s.lstate d l = 4) && (s.link d l).retain.head?.any (fun f => decide (f.retries ≥ 3))

/-- SILENCE (R338, R339): no good frame for 4 µs; a link whose retry limit is reached too goes down once, with cause RETRY. -/
def execSilence (d : DieIx) (l : LinkIx) (s : State) : Host.Outcome State Fault Refusal :=
  onDie d s (fun t => if t.linkLive d l then t.linkDown d (linkPort l) (if t.retriesOut d l then 1 else 2) else t)

/-- LINK_LANE_FAILURE (R333): a board or optical port goes down; the manual gives its cause no code, so it is a free value. -/
def execLinkLaneFailure (d : DieIx) (p : PortIx) (s : State) : Host.Outcome State Fault Refusal :=
  onDie d s (fun t => if t.portLive d p ∧ p.val ≥ 4 then t.drawFree.linkDown d p (fld t.free 0 4 % 12) else t)

/-! ### Training -/

/-- Lanes of a port at full width (R331, R332); die-fabric ports show none. -/
def fullLanes (p : Nat) : Nat := if p = 4 then 16 else if p ≥ 5 then 8 else 0

/-- PORT_TRAINING (R333, R346): training ends at full width, or at half width where the full does not train, and discovery begins. -/
def execPortTraining (d : DieIx) (p : PortIx) (lanes : Nat) (s : State) : Host.Outcome State Fault Refusal :=
  onDie d s (fun t =>
    let full := fullLanes p.val
    let ok := decide (p.val < 3) || (decide (p.val ≥ 4) && decide (lanes = full ∨ 2 * lanes = full))
    if t.pstate d p ≠ 2 ∨ !ok then t
    else
      let n := if p.val < 3 then 0 else lanes
      let t1 := t.modReg d (rLnkPstat p.val) (fun w => setBit (setBit (setFld w 0 6 n) 14 (decide (n ≠ full))) 15 false)
      ((t1.modPort d p (fun x => { x with failLogged := false })).setPstate d p 3).sendHello d p)

/-- RETRAIN (R348): a port that is down trains again; while training keeps failing it tries again and logs the first failure. -/
def execRetrain (d : DieIx) (p : PortIx) (s : State) : Host.Outcome State Fault Refusal :=
  onDie d s (fun t =>
    let resetting : Bool := (t.die d).resets.any (fun r => decide (r.dom = Domain.die))
    if t.dieFenced d ∨ resetting ∨ p.val = 3 then t
    else if t.pstate d p = 5 then t.trainPort d p
    else if t.pstate d p = 2 then
      let t1 := t.setCause d p 10
      if (t.port d p).failLogged then t1
      else (t1.modPort d p (fun x => { x with failLogged := true })).logEvent d 0x0806 0 p.val
    else t)

/-! ### Discovery -/

/-- HELLO (R346). -/
def execHello (d : DieIx) (p : PortIx) (frame : List Byte) (s : State) : Host.Outcome State Fault Refusal :=
  onDie d s (fun t => t.rxHello d p frame)

/-- HELLO_INTERVAL (R346): every 10 µs until the peer's HELLO has come. -/
def execHelloInterval (d : DieIx) (p : PortIx) (s : State) : Host.Outcome State Fault Refusal :=
  onDie d s (fun t => if t.pstate d p = 3 ∧ (t.port d p).hello.isNone then t.sendHello d p else t)

/-- HELLO_TIMEOUT (R346): no HELLO within 100 ms. -/
def execHelloTimeout (d : DieIx) (p : PortIx) (s : State) : Host.Outcome State Fault Refusal :=
  onDie d s (fun t => if t.pstate d p = 3 ∧ (t.port d p).hello.isNone then t.trainPort d p else t)

/-- ECHO (R346). -/
def execEcho (d : DieIx) (p : PortIx) (frame : List Byte) (s : State) : Host.Outcome State Fault Refusal :=
  onDie d s (fun t => t.rxEcho d p frame)

/-- ECHO_REPLY (R346, R347). -/
def execEchoReply (d : DieIx) (p : PortIx) (frame : List Byte) (s : State) : Host.Outcome State Fault Refusal :=
  onDie d s (fun t => t.rxEchoReply d p frame)

/-- ACCEPT (R346). -/
def execAccept (d : DieIx) (p : PortIx) (frame : List Byte) (s : State) : Host.Outcome State Fault Refusal :=
  onDie d s (fun t => t.rxAccept d p frame)

/-- REJECT (R346, R347). -/
def execReject (d : DieIx) (p : PortIx) (frame : List Byte) (s : State) : Host.Outcome State Fault Refusal :=
  onDie d s (fun t => t.rxReject d p frame)

/-! ### The board -/

/-- BOARD_PRESENCE (R350): a message of a lower slot counts for the current stroke. -/
def execBoardPresence (d : DieIx) (m : Msg) (s : State) : Host.Outcome State Fault Refusal :=
  onDie d s (fun t =>
    if m.mkind ≠ 0x37 then t
    else
      let u := (t.takeMsg d m).wake d
      if u.staleMsg d m then u.addSat d rHltStale 0 32 1
      else if leNat (m.spec.take 1) < u.slot then { u with board := { u.board with seenLower := true } } else u)

/-- BOARD_MASTER (R350): 4 complete strokes without presence from a lower slot; the module drives STROKE_OUT from now on. -/
def execBoardMaster (s : State) : Host.Outcome State Fault Refusal :=
  .next (if s.board.master ∨ s.board.silent < 4 then s
    else s.allDies.foldl (fun t e => t.modReg e rLnkStatus (fun w => setBit w 30 true))
      { s with board := { s.board with master := true, driving := true } })

/-- UCIE_LINK_FAILURE (R330, R418): the port is down, and the failure is a die fault. -/
def execUcieLinkFailure (d : DieIx) (s : State) : Host.Outcome State Fault Refusal :=
  onDie d s (fun t => (t.setPstate d 3 5).dieFault d)

end Sys2Proof.Machine
end

