-- ==== Sys2Proof/Machine/Stroke.lean ====
section
/-! DEFINITION. Strokes: the boundary with everything that happens at it, stroke frames and time masters, lock, throttle notices,
presence, and the cycle count with its idle causes (R8, R29 to R45, R64, R102, R380, R525 to R531). -/

namespace Sys2Proof.Machine

def State.modTimer (s : State) (d : DieIx) (f : Timer → Timer) : State := s.modDie d (fun x => { x with timer := f x.timer })

def State.locked (s : State) (d : DieIx) : Bool := bitAt (s.reg d rStkLock) 31

/-- Nominal length of a stroke in timebase cycles (R29). -/
def State.nominalLen (s : State) (d : DieIx) : Nat := s.rf d rStkCfg 0 8 * 940

/-- Length of the current stroke; it cannot end before the cycle that has been reached. -/
def State.strokeLen (s : State) (d : DieIx) : Nat :=
  max ((s.die d).timer.cycle.toNat + 1) ((s.nominalLen d : Int) + (s.die d).timer.stretch).toNat

/-! ### Idle causes (R102) -/

/-- Whether a request of a running command waits at a port for link credit. -/
def State.waitsCredit (s : State) (d : DieIx) (q : QId) (r : Running) : Bool :=
  (s.die d).outstanding.any (fun o => decide (o.queue = qNum q ∧ o.ident = r.ident) && o.reply.isNone
    && (List.finRange 8).any (fun l => (s.link d l).sendq.any (fun e => decide (e.2.mkind = 1 ∨ e.2.mkind = 2)
      && decide (leNat (slice e.2.spec 0 8) = o.addr.toNat) && decide (e.2.dst = o.target))))

/-- Whether a running command of a core waits on a memory: for a reply or an acknowledgement, for HBM or a bank that does not take
the access of its next row (R84, R288), for its drain pop (R184), or at a bounded wait. -/
def State.memWaits (s : State) (d : DieIx) (c : CoreIx) (r : Running) : Bool :=
  let q := QId.core c
  r.acking || r.waitFrom.isSome || (mulPick r && s.wantsDrain d c r) || (s.reqsOf d q r).any (fun o => o.reply.isNone) || s.mxWaits d c r
    || (decide (dKind r.desc = 0x10) && s.gate d q r (dmaSrcRow r.desc r.rows) == .wait)
    || ((decide (dKind r.desc = 0x10) || decide (dKind r.desc = 0x11)) && s.gate d q r (dmaDstRow r.desc r.rows) == .wait)

/-- What a running command of a core does in this cycle: 0 progress, 5 memory, 2 link credit, 1 WAITSTROKE, 7 nothing of its own (a
kernel that waits for its queue or its matrix commands, or a MUL for its LOAD, whose own causes apply). -/
def State.runCause (s : State) (d : DieIx) (c : CoreIx) (r : Running) : Nat :=
  let p := (s.core d c).proc
  if dKind r.desc = 0x01 then
    (if p.waitStroke then 1
     else match p.stall with
      | .no => 0
      | .bank => 5
      | .vector => 5
      | .queue => 7)
  else if s.awaitsShadow d c r then 7
  else if s.memWaits d c r then (if s.waitsCredit d (.core c) r then 2 else 5)
  else 0

/-- Whether an open Crucible task runs on a core. -/
def State.taskOn (s : State) (d : DieIx) (c : CoreIx) : Bool :=
  (List.finRange 8).any (fun e =>
    match (s.die e).solve with
    | none => false
    | some u => u.phase.isSome && u.tasks.any (fun i =>
        let t := imTask (s.cruImage e u.slot) i
        decide (t.core = c.val ∧ t.die = d.val)))

/-- Whether the head command of a core's queue waits on an engine of its die: it is not released yet, and a command of its job runs there,
whose result the core's next work stands behind (R102, DEDUCED, log entry 32). -/
def State.headAwaits (s : State) (d : DieIx) (c : CoreIx) (q : QId) : Bool :=
  (s.core d c).queue.entries.head?.any (fun e => e.released.isNone
    && (s.queue d q).running.any (fun r => decide (dJob r.desc = dJob e.desc)))

/-- The cause to which a core attributes a timebase cycle: the first rule of R102 that applies. -/
def State.idleCause (s : State) (d : DieIx) (c : CoreIx) : Fin 10 :=
  let k := s.core d c
  let x := k.queue
  let causes := x.running.map (s.runCause d c)
  let claimed := if c.val < 32 then bitAt (s.reg d rCruClaim0) c.val else bitAt (s.reg d rCruClaim1) (c.val - 32)
  let undecided := x.entries.head?.any (fun e => e.released.isSome && s.commitHolds d e.desc)
  let next := x.entries.head?.any (fun e => e.released.isNone
    && (isDue (s.stroke d) (dRelease e.desc) || decide (ahead (s.stroke d) (dRelease e.desc) = 1)))
  if s.coreFenced d c ∨ k.recovering ∨ k.proc.stopped then 9
  else if (s.die d).assay.lends.any (fun p => p.1 == c.val) then 8
  else if causes.contains 0 ∨ (claimed && s.taskOn d c) then 0
  else if causes.contains 5 ∨ s.ringFull d (.core c) then 5
  else if causes.contains 2 then 2
  else if undecided ∨ s.headAwaits d c .col then 3
  else if s.headAwaits d c .txe then 4
  else if claimed then 6
  else if causes.contains 1 ∨ next then 1
  else 7

/-- Attribute n timebase cycles of a die to the causes of its cores. -/
def State.accrue (s : State) (d : DieIx) (n : Nat) : State :=
  if n = 0 then s
  else s.modDie d (fun x => { x with cores := Vector.ofFn (fun c =>
    let k := x.cores[c]
    let i := s.idleCause d c
    { k with idle := k.idle.set i (k.idle[i] + BitVec.ofNat 64 n) }) })

/-- One cycle of the timebase on a die (R29): the cycle field counts to the end of the stroke, where the boundary takes over. -/
def State.tickDie (s : State) (d : DieIx) : State :=
  if (s.die d).held ∨ (s.die d).timer.cycle.toNat + 1 ≥ s.strokeLen d then s
  else (s.accrue d 1).modTimer d (fun x => { x with cycle := x.cycle + 1 })

/-- What the module does while no command waits (log entry 60). -/
def State.tick (s : State) : State := s.allDies.foldl (fun t d => t.tickDie d) s

/-! ### Time masters and stroke frames (R30, R33 to R35) -/

/-- Whether this module is the time master in force, by what a die of it knows. -/
def State.isTimeMaster (s : State) (d : DieIx) : Bool :=
  let t := (s.die d).timer
  if t.masterBackup then decide (t.master.toNat = s.moduleNo d) else decide (s.settings.primary.toNat = s.moduleNo d)

/-- The payload of a stroke frame (R35). -/
def strokePayload (stroke : Stroke) (master : Nat) (backup : Bool) : List Byte :=
  leBytes 5 stroke.toNat ++ leBytes 3 0 ++ leBytes 2 master ++ leBytes 1 (if backup then 1 else 0) ++ leBytes 53 0

/-- The time master sends a stroke frame on every board and optical port at each boundary. -/
def State.sendStrokeFrames (s : State) (d : DieIx) : State :=
  if s.isTimeMaster d then
    let t := (s.die d).timer
    ([4, 5, 6] : List PortIx).foldl (fun u p =>
      if u.pstate d p = 4 then u.modPort d p (fun x => x.sendPlain 4 (strokePayload t.stroke (s.moduleNo d) t.masterBackup)) else u) s
  else s

/-- The phase error against a boundary that fell at `at0` cycles of the current stroke: positive when this timer runs ahead, within
half a stroke either way. -/
def phaseError (at0 len : Int) : Int := if 2 * at0 > len then at0 - len else if 2 * at0 ≤ -len then at0 + len else at0

/-- The error is measured. A frame does not replace the measurement of the STROKE_IN pulse; what a frame on a board link measured is kept,
to check the pulse at the end of the stroke (R30). -/
def State.measure (s : State) (d : DieIx) (delay : Nat) (pulse board : Bool) : State :=
  let t := (s.die d).timer
  let err := phaseError ((t.cycle.toNat : Int) - delay) (s.nominalLen d)
  let s1 := if board then s.modTimer d (fun x => { x with framePhase := some err }) else s
  if t.pulse ∧ !pulse then s1
  else s1.modTimer d (fun x => { x with phase := err, measured := true, pulse := pulse })

/-- The changeover to the backup time master (R35): every die of the module notes it and logs it, one that is held without an entry. -/
def State.changeover (s : State) (d : DieIx) (master : BitVec 14) : State :=
  let s1 := (s.modTimer d (fun x => { x with master := master, masterBackup := true })).modReg d rStkLock (fun w => setBit w 29 true)
  if (s.die d).held then s1 else s1.logEvent d 0x0103 0 master.toNat

def State.changeoverAll (s : State) (master : BitVec 14) : State :=
  s.allDies.foldl (fun t e => if (t.die e).timer.masterBackup then t else t.changeover e master) s

/-- A die follows a stroke frame that its module received: number, phase, and the end of free running. -/
def State.followFrame (s : State) (d : DieIx) (delay : Nat) (board : Bool) (master : BitVec 14) (n : Stroke) : State :=
  let t := (s.die d).timer
  -- before the middle of the stroke the frame's boundary is the one that began it, else the one that ends it
  let cur := if 2 * (t.cycle.toNat - delay) < s.nominalLen d then n else n - 1
  let s1 := s.modTimer d (fun x => { x with master := master, frameSeen := true, incoming := if cur = x.stroke then none else some cur })
  (s1.measure d delay false board).modReg d rStkLock (fun w => setBit w 30 false)

/-- A stroke frame of the master that is followed reaches the module at a port; the Pelbex stroke master passes its boundary to every
die (R29). -/
def State.strokeFrame (s : State) (d : DieIx) (p : PortIx) (pay : List Byte) : State :=
  let master : BitVec 14 := BitVec.ofNat 14 (bn pay 8 2)
  let backup := decide (bn pay 10 1 % 2 = 1)
  let s0 := if backup && !(s.die d).timer.masterBackup then s.changeoverAll master else s
  if (s0.die d).timer.masterBackup ∧ !backup then s0
  else
    s0.allDies.foldl (fun t e =>
      if (t.die e).held then t else t.followFrame e (s0.rf d (rLnkPrtt p.val) 0 16 / 2) (decide (p.val = 4)) master (BitVec.ofNat 40 (bn pay 0 5))) s0

/-- STROKE_FRAME (R30, R34, R35, R533): captured at its arrival, then compensated for half the measured round trip. -/
def execStrokeFrame (d : DieIx) (p : PortIx) (frame : List Byte) (s : State) : Host.Outcome State Fault Refusal :=
  onDie d s (fun t =>
    let r := t.rxFrame d (linkOf p) frame
    if !r.2 ∨ bn frame 0 1 ≠ 4 ∨ p.val < 4 then r.1
    else (r.1.capture d (p.val - 2)).strokeFrame d p (frame.drop 32))

/-- STROKE_IN (R30, R533): the pulse of the board master, compensated by the board trace delay; the board master itself keeps to
the frames. -/
def execStrokeIn (s : State) : Host.Outcome State Fault Refusal :=
  .next (s.allDies.foldl (fun t d =>
    if (t.die d).held then t
    else
      let u := t.capture d 1
      if t.board.master then u
      else u.measure d (match t.ownEntry with
        | some e => e.strokeDelay
        | none => 0) true false) s)

/-- BACKUP_TAKEOVER (R35): no frame of the primary has reached the backup for 4 strokes; it goes on from its own timer. -/
def execBackupTakeover (d : DieIx) (s : State) : Host.Outcome State Fault Refusal :=
  onDie d s (fun t =>
    if t.settings.backup.toNat ≠ t.moduleNo d ∨ t.isTimeMaster d ∨ !t.locked d
      ∨ !(t.allDies.all (fun e => (t.die e).held || decide ((t.die e).timer.silent ≥ 4))) then t
    else t.changeoverAll t.settings.backup)

/-- FREE_RUN (R35): no stroke frame for 4 strokes. -/
def execFreeRun (d : DieIx) (s : State) : Host.Outcome State Fault Refusal :=
  onDie d s (fun t =>
    if t.isTimeMaster d ∨ (t.die d).timer.silent < 4 then t else t.modReg d rStkLock (fun w => setBit w 30 true))

/-- LOSS_OF_LOCK (R33). -/
def execLossOfLock (d : DieIx) (s : State) : Host.Outcome State Fault Refusal :=
  onDie d s (fun t =>
    if !t.locked d ∨ (t.die d).timer.overLimit < 4 then t
    else ((t.modReg d rStkLock (fun w => setBit w 31 false)).logEvent d 0x0101 0
        (BitVec.ofInt 64 (t.die d).timer.phase).toNat).capture d 5)

/-- RELOCK (R33): this one stroke becomes longer or shorter by up to half a period; the relock is complete when it ends. -/
def execRelock (d : DieIx) (s : State) : Host.Outcome State Fault Refusal :=
  onDie d s (fun t =>
    if t.locked d ∨ (t.die d).timer.relocking then t
    else
      let half : Int := t.nominalLen d / 2
      t.modTimer d (fun x => { x with stretch := max (-half) (min half x.phase), overLimit := 0, phase := 0, relocking := true }))

/-- The relocking stroke has ended: the timer is locked, and the second entry is written (R33). -/
def State.endRelock (s : State) (d : DieIx) : State :=
  if (s.die d).timer.relocking then
    ((s.modTimer d (fun x => { x with relocking := false })).modReg d rStkLock (fun w => setBit w 31 true)).logEvent d 0x0102 0
      (s.rf d rStkLock 0 16)
  else s

/-- STROKE_WRAP (R44, R531): Pelbex counts the wrap on every die of the module and logs it, once for the module: a die whose number
is still to wrap will not have its own wrap counted again. -/
def execStrokeWrap (s : State) : Host.Outcome State Fault Refusal :=
  .next (if s.allDies.any (fun d => (s.die d).timer.wrapped) then
    s.allDies.foldl (fun t d =>
      let n := t.reg d rStkWrap + 1
      ((t.setReg d rStkWrap n).logEvent d 0x0107 0 n.toNat).modTimer d (fun x =>
        { x with wrapped := false, wrapDone := !x.wrapped && decide (x.stroke.toNat ≥ 2 ^ 39) })) s
  else s)

/-! ### Throttle steps (R39 to R41, R528, R529) -/

def aclkMhz (step : Nat) : Nat := if step = 0 then 940 else if step = 1 then 820 else if step = 2 then 700 else 470

/-- Of two notices the one that STK_STEP_NEXT shows: the later effective stroke, then the slower step. -/
def laterNotice (now : Stroke) (a b : Stroke × BitVec 2) : Stroke × BitVec 2 :=
  if ahead now a.1.toNat > ahead now b.1.toNat then a
  else if ahead now a.1.toNat = ahead now b.1.toNat then (if a.2.toNat ≥ b.2.toNat then a else b)
  else b

/-- Publish the announced change. -/
def State.showNotice (s : State) (d : DieIx) : State :=
  match (s.die d).timer.notices with
  | [] => s.modReg d (rStkStepNext + 4) (fun w => setBit w 31 false)
  | n :: ns =>
    let v := ns.foldl (laterNotice (s.stroke d)) n
    s.setReg64 d rStkStepNext (BitVec.ofNat 64 (2 ^ 63 + v.2.toNat * 2 ^ 56 + v.1.toNat))

/-- THROTTLE_NOTICE (R39): one that arrives after stroke s − 1 has begun takes effect one stroke later, which is logged. -/
def execThrottleNotice (d : DieIx) (step : BitVec 2) (eff : Stroke) (s : State) : Host.Outcome State Fault Refusal :=
  onDie d s (fun t =>
    let t0 := { t with power := { t.power with notices := t.power.notices.erase (d, step, eff) } }
    let late := begun (t.stroke d) (eff - 1).toNat
    let at0 : Stroke := if late then (if begun (t.stroke d) (eff + 1).toNat then t.stroke d + 1 else eff + 1) else eff
    let t1 := if late then t0.logEvent d 0x0106 0 at0.toNat else t0
    (t1.modTimer d (fun x => { x with notices := x.notices ++ [(at0, step)] })).showNotice d)

/-- At a boundary the notices whose stroke begins take effect; of several for one stroke the slowest wins (R40). Where the last of them
asks for a faster step, that request stands, and takes effect one stroke later. -/
def State.throttleBoundary (s : State) (d : DieIx) : State :=
  let t := (s.die d).timer
  let due := t.notices.filter (fun n => begun t.stroke n.1.toNat)
  match due with
  | [] => s
  | n :: ns =>
    let v := ns.foldl (fun a b => if a.1 = b.1 then (if a.2.toNat ≥ b.2.toNat then a else b)
      else if ahead b.1 a.1.toNat < 2 ^ 39 then a else b) n
    let last := (due.filter (fun m => decide (m.1 = v.1))).getLastD v
    let again := if last.2.toNat < v.2.toNat then [(t.stroke + 1, last.2)] else []
    let old := s.rf d rStkStepNow 0 2
    let s1 := (s.modTimer d (fun x => { x with notices := again ++ x.notices.filter (fun m => !begun x.stroke m.1.toNat) })).showNotice d
    if old = v.2.toNat then s1
    else (s1.setReg d rStkStepNow (BitVec.ofNat 32 (aclkMhz v.2.toNat * 65536 + v.2.toNat))).logEvent d 0x0105 0 (old * 256 + v.2.toNat)

/-! ### Seeds (R64) -/

/-- Expand a seed: the generator, whether it runs from its fuse-derived seed, whether an all-zero seed was replaced. -/
def expandSeed (d : DieIx) (g : Gen) (k : Nat) (seed : BitVec 128) : Gen × Bool :=
  if seed = 0 then ({ Gen.power d.val k with ident := g.ident }, true) else ({ g with seed := seed, fuse := false, drawn := 0 }, false)

def State.seedOf (s : State) (d : DieIx) (off : Nat) : BitVec 128 := s.reg64 d (off + 8) ++ s.reg64 d off

/-- Clear the seed registers, show FUSE_SEED at its bit of the control register, and log a replaced seed. -/
def State.seeded (s : State) (d : DieIx) (ctl bit off : Nat) (fuse : Bool) : State :=
  let s1 := (s.setReg64 d off 0).setReg64 d (off + 8) 0
  let s2 := s1.modReg d ctl (fun w => setBit w bit fuse)
  if fuse then s2.logEvent d 0x0202 0 ctl else s2

def State.seedCore (s : State) (d : DieIx) (c : CoreIx) : State :=
  if (s.core d c).reseed then
    let g := expandSeed d (s.core d c).gen c.val (s.seedOf d (rCoreSeed c.val 0))
    (s.modCore d c (fun k => { k with gen := g.1, reseed := false })).seeded d (rCoreSrCtl c.val) 2 (rCoreSeed c.val 0) g.2
  else s

/-- SEED_EXPANSION: requested reseeds take effect. -/
def State.seedBoundary (s : State) (d : DieIx) : State :=
  let s1 := (List.finRange 48).foldl (fun t c => t.seedCore d c) s
  let s2 := if (s1.die d).reseedUpd then
      let g := expandSeed d (s1.die d).genUpd 48 (s1.seedOf d (rUpdSeed 0))
      (s1.modDie d (fun x => { x with genUpd := g.1, reseedUpd := false })).seeded d rUpdSrCtl 8 (rUpdSeed 0) g.2
    else s1
  let s3 := if (s2.die d).reseedBkt then
      let g := expandSeed d (s2.die d).genBkt 49 (s2.seedOf d (rBktSeed 0))
      (s2.modDie d (fun x => { x with genBkt := g.1, reseedBkt := false })).seeded d rUpdSrCtl 9 (rBktSeed 0) g.2
    else s2
  if (s3.die d).reseedCol then
    let g := expandSeed d (s3.die d).genCol 50 (s3.seedOf d (rColSeed 0))
    (s3.modDie d (fun x => { x with genCol := g.1, reseedCol := false })).seeded d rColSrCtl 8 (rColSeed 0) g.2
  else s3

/-! ### Layout epochs (R380, R394) -/

/-- EPOCH_CHANGE of context k, valid or not: the context takes the new epoch. The commands of its job with another epoch end, and a step
whose commit stroke is not before the change is aborted: an armed member will vote NO, and one that has voted will not flip (R267, R401). -/
def State.epochBoundary (s : State) (d : DieIx) (k : Nat) : State :=
  let next := s.reg d (rColCtx k 1)
  if !bitAt next 31 ∨ !begun (s.stroke d) (s.relayStroke d k) then s
  else
    let job := s.colJob d k
    let e := fld next 8 8
    let s1 := (s.setRf d (rColCtx k 0) 16 8 e).modReg d (rColCtx k 1) (fun w => setBit w 31 false)
    if !bitAt (s.reg d (rColCtx k 0)) 31 then s1
    else
      let old := fun (x : Desc) => decide (dJob x = job) && decide (dEpoch x ≠ e)
      let s2 := (s1.abortQueue d .col stAborted old).abortQueue d .txe stAborted old
      match s2.ctxOf d job with
      | some j =>
        if 1 ≤ s2.cmtState d j ∧ s2.cmtState d j ≤ 3 ∧ !strokeBefore (s.commitStroke d j) (s.relayStroke d k) then
          s2.modCommit d j (fun c => { c with relaid := true })
        else s2
      | none => s2

/-! ### Presence (R42) -/

/-- Each complete stroke counts for the peers from which nothing came, and a presence frame goes to every peer. -/
def State.presenceBoundary (s : State) (d : DieIx) : State :=
  let s1 := s.modDie d (fun x => { x with peers := x.peers.map (fun p =>
    if p.seen then { p with silent := 0, seen := false, absent := false } else { p with silent := p.silent + 1 }) })
  ((s1.die d).peers).foldl (fun t p =>
    t.sendMsg d (t.mkMsg d 0x30 p.endpoint p.job 0 0 0 [] [])) s1

/-- PRESENCE (R42). -/
def execPresence (d : DieIx) (m : Msg) (s : State) : Host.Outcome State Fault Refusal :=
  onDie d s (fun t =>
    if m.mkind ≠ 0x30 then t
    else
      let u := (t.takeMsg d m).wake d
      if u.staleMsg d m then u.addSat d rHltStale 0 32 1 else u.seePeer d m.src)

/-- A peer is known to be absent. -/
def State.markAbsent (s : State) (d : DieIx) (job : BitVec 12) (e : Endpoint) : State :=
  s.modDie d (fun x =>
    if x.peers.any (fun p => decide (p.job = job ∧ p.endpoint = e)) then
      { x with peers := x.peers.map (fun p => if p.job = job ∧ p.endpoint = e then { p with absent := true } else p) }
    else { x with peers := x.peers ++ [⟨job, e, 4, false, true⟩] })

/-- ABSENCE_DECLARED (R42, R380): after 4 complete strokes without a frame, in every job that the peer shares. The member itself
acts on the absence like the members it tells. -/
def execAbsenceDeclared (d : DieIx) (peer : Endpoint) (s : State) : Host.Outcome State Fault Refusal :=
  onDie d s (fun t =>
    ((t.die d).peers.filter (fun p => decide (p.endpoint = peer ∧ p.silent ≥ 4) && !p.absent)).foldl (fun u p =>
      let u1 := (u.markAbsent d p.job peer).noteNotice d p.job
      ((u1.membersOf p.job).filter (fun e => e != u1.endpoint d 63)).foldl (fun v e =>
        v.sendMsg d (v.mkMsg d 0x31 e p.job 0 0 0 (leBytes 4 peer.toNat) [])) u1) t)

/-- ABSENCE_NOTICE (R380). -/
def execAbsenceNotice (d : DieIx) (m : Msg) (s : State) : Host.Outcome State Fault Refusal :=
  onDie d s (fun t =>
    if m.mkind ≠ 0x31 then t
    else
      let u := (t.takeMsg d m).wake d
      if u.staleMsg d m then u.addSat d rHltStale 0 32 1
      else (u.markAbsent d m.job (BitVec.ofNat 23 (leNat (m.spec.take 4)))).noteNotice d m.job)

/-! ### The boundary (R29) -/

/-- Whether a job has work on the die that an adopted stroke number cuts off: its context is in a commit, or commands of it wait or
run (R34). -/
def State.jobWork (s : State) (d : DieIx) (k : Nat) : Bool :=
  bitAt (s.reg d (rUpdSet k)) 31 && decide (s.cmtState d k ≠ 5)
    && (decide (s.cmtState d k ≠ 0) || allQueues.any (fun q =>
      let x := s.queue d q
      let job := s.cmtJob d k
      x.entries.any (fun e => dJob e.desc == job) || x.backlog.any (fun e => dJob e.desc == job) || x.running.any (fun r => dJob r.desc == job)))

/-- Whether a die's number passes 2⁴⁰ when it goes from one number to another (R44). -/
def wraps (old new : Stroke) : Bool := decide (new.toNat < old.toNat) && decide (ahead old new.toNat < 2 ^ 39)

/-- The timer at a boundary (R29 to R34): the number advances, from the adopted number if there is one, and a locked timer slews. -/
def Timer.next (x : Timer) (lk : Bool) (lim : Int) (adopt : Option Stroke) : Timer :=
  let n := (adopt.getD x.stroke) + 1
  let w := wraps x.stroke n
  { x with stroke := n, cycle := 0
           stretch := if lk && x.measured then max (-lim) (min lim x.phase) else 0
           overLimit := if lk && x.measured && decide (x.phase.natAbs > 94) then x.overLimit + 1 else 0
           silent := if x.frameSeen then 0 else x.silent + 1
           check := match x.framePhase with
             | some f => if x.pulse then some (x.phase - f) else x.check
             | none => x.check
           frameSeen := false, framePhase := none, measured := false, pulse := false
           incoming := if adopt.isSome then none else x.incoming.map (fun i => i + 1)
           wrapped := x.wrapped || (w && !x.wrapDone), wrapDone := x.wrapDone && !w }

/-- The timer begins the next stroke: time that is left is attributed, the strokes out of lock are counted, and the incoming number is
adopted by a locked timer and by a die that holds job work (R34). -/
def State.timerBoundary (s : State) (d : DieIx) : State :=
  let t := (s.die d).timer
  let lk := s.locked d
  let s1 := s.accrue d (s.strokeLen d - t.cycle.toNat)
  let adopt := if lk || (List.range 32).any (s.jobWork d) then t.incoming else none
  let s2 := s1.modTimer d (fun x => x.next lk (s.rf d rStkCfg 0 8 / 4) adopt)
  let s3 := if t.measured then s2.setRf d rStkLock 16 8 (BitVec.ofInt 8 (max (-127) (min 127 t.phase))).toNat else s2
  let s4 := (if lk then s3 else s3.addSat d rStkLock 0 16 1).endRelock d
  match adopt with
  | none => s4
  | some _ =>
    (List.range 32).foldl (fun u k => if u.jobWork d k then u.abortStep d k stAborted else u)
      (s4.logEvent d 0x0104 0 t.stroke.toNat)

/-- WAITSTROKE ends at the boundary (R77). -/
def State.wakeWaiters (s : State) (d : DieIx) : State :=
  s.modDie d (fun x => { x with cores := x.cores.map (fun k => { k with proc := { k.proc with waitStroke := false } }) })

/-- Whether an engine of the die has pending work or a queue holds a command (R493). -/
def State.dieBusy (s : State) (d : DieIx) : Bool :=
  allQueues.any (fun q => !s.queueIdle d q || !(s.queue d q).done.isEmpty) || (s.cruBusy d).isSome

/-- Strokes in which the die was idle are counted (R493). -/
def State.idleBoundary (s : State) (d : DieIx) : State :=
  { s with power := { s.power with idle := s.power.idle.set d (if s.dieBusy d then 0 else s.power.idle[d] + 1) } }

/-- The actions that the manual places at a boundary, once the timer has begun the next stroke: the throttle step, seeds, routes and
the board, solver stops, epochs, verdicts and notices, the early buffer, presence, then releases, lending and starts (R36, R442). What a
running Crucible command of an aborted step reaches next is the boundary after that of the abort, whose solver stops came before it
(R253, log 156). -/
def State.boundaryActions (s : State) (d : DieIx) (b : BoundaryIn) : State :=
  let t1 := (s.throttleBoundary d).seedBoundary d
  let t2 := ((t1.routeChange d).boardBoundary d).sendStrokeFrames d
  let t3 := (List.range 32).foldl (fun u k => u.epochBoundary d k) (t2.cruBoundary d)
  let t4 := (List.range 32).foldl (fun u k => if bitAt (u.reg d (rUpdSet k)) 31 then u.commitBoundary d k else u) t3
  let t5 := ((t4.noticeBoundary d).rejudge d).presenceBoundary d
  ((((t5.wakeWaiters d).idleBoundary d).releaseAll d).assayBoundary d b).startAll d

/-- STROKE_BOUNDARY (R29): the next stroke begins, the stroke that ends is judged for hangs (R404), and the boundary's actions follow. -/
def execStrokeBoundary (d : DieIx) (b : BoundaryIn) (s : State) : Host.Outcome State Fault Refusal :=
  onDie d s (fun t => ((t.timerBoundary d).watchBoundary d (t.stroke d)).boundaryActions d b)

end Sys2Proof.Machine
end

