-- ==== Sys2Proof/Machine/Boot.lean ====
section
/-! DEFINITION. The boot flash, boot records, images and their verification, the configuration, and the boot sequence (R345, R420,
R456 to R462, R466). -/

namespace Sys2Proof.Machine

/-- An entry of the Pelbex error log, of which the last 1,024 are kept (R467); Pelbex has no endpoint of its own and takes die 0's. -/
def State.logPelbex (s : State) (code detail : Nat) : State :=
  let e : LogEntry := ⟨s.stamp firstDie, s.endpoint firstDie 63, BitVec.ofNat 16 code, 0, 0, none, BitVec.ofNat 64 detail⟩
  { s with pelLog := (if s.pelLog.length < 1024 then s.pelLog else s.pelLog.tail) ++ [e] }

/-! ### The boot flash (R456, R457) -/

/-- Bytes of the flash; an erased byte reads 0xFF. -/
def State.flashBytes (s : State) (off n : Nat) : List Byte := (List.range n).map (fun i => SMap.get 0xFF s.flash.cells (off + i))

def State.flashWrite (s : State) (off : Nat) (bs : List Byte) : State :=
  { s with flash := { s.flash with cells := (bs.zipIdx).foldl (fun cs p => SMap.set 0xFF cs (off + p.2) p.1) s.flash.cells } }

def imageBase (slot : Nat) : Nat := if slot = 0 then 0x100000 else 0x3100000

/-- The boot record in force: its copy, SEQ, PREFER, TRIAL and TRIES. -/
structure BootRec where
  copy : Nat
  seq : Nat
  prefer : Nat
  trial : Bool
  tries : Nat
deriving DecidableEq, Repr

def State.bootCopy (s : State) (c : Nat) : Option BootRec :=
  let b := s.flashBytes (c * 0x10000) 64
  if bn b 0 4 = 0x544F4F42 ∧ bn b 60 4 = (crc32c (b.take 60)).toNat then
    some ⟨c, bn b 4 4, bn b 8 1 % 2, decide (bn b 9 1 = 1), bn b 10 1⟩
  else none

/-- The valid copy with the newer SEQ; without one, image A and no trial. -/
def State.bootRec (s : State) : BootRec :=
  match s.bootCopy 0, s.bootCopy 1 with
  | some a, some b => if (a.seq + 2 ^ 32 - b.seq) % 2 ^ 32 ≠ 0 ∧ (a.seq + 2 ^ 32 - b.seq) % 2 ^ 32 < 2 ^ 31 then a else b
  | some a, none => a
  | none, some b => b
  | none, none => ⟨1, 0, 0, false, 0⟩

/-- Write the boot record to the other copy. -/
def State.writeBootRec (s : State) (prefer : Nat) (trial : Bool) (tries : Nat) : State :=
  let r := s.bootRec
  let b := leBytes 4 0x544F4F42 ++ leBytes 4 (r.seq + 1) ++ leBytes 1 prefer ++ leBytes 1 (if trial then 1 else 0) ++ leBytes 1 tries
    ++ leBytes 49 0
  s.flashWrite ((1 - r.copy) * 0x10000) (b ++ leBytes 4 (crc32c b).toNat)

/-! ### The configuration section (R345, R459 to R461) -/

/-- The directory entry of a subsection: its bytes. The directory follows the MAGIC and a count of 4 bytes, 16 entries of 10 bytes
(log entry 61). -/
def subsection (c : List Byte) (id : Nat) : Option (List Byte) :=
  ((List.range (bn c 4 4)).find? (fun i => decide (bn c (8 + 10 * i) 2 = id))).map (fun i =>
    slice c (bn c (10 + 10 * i) 4) (bn c (14 + 10 * i) 4))

def allZero (bs : List Byte) : Bool := bs.all (fun b => b == 0)

/-- The header and directory of a configuration section are valid. -/
def directoryOk (c : List Byte) : Bool :=
  let n := bn c 4 4
  let ids := (List.range n).map (fun i => bn c (8 + 10 * i) 2)
  decide (c.length ≥ 168) && decide (bn c 0 4 = 0x47464E43) && decide (n ≤ 16) && ids.all (fun i => decide (1 ≤ i ∧ i ≤ 5))
    && decide (ids.eraseDups = ids) && allZero (slice c (8 + 10 * n) (160 - 10 * n))
    && (List.range n).all (fun i => decide (168 ≤ bn c (10 + 10 * i) 4 ∧ bn c (10 + 10 * i) 4 + bn c (14 + 10 * i) 4 ≤ c.length))
    && [1, 2, 5].all (fun i => ids.contains i)

/-- SETTINGS within its ranges (R460). -/
def settingsOk (b : List Byte) : Bool :=
  decide (b.length = 64) && decide (4 ≤ bn b 0 1 ∧ bn b 0 1 ≤ 64) && decide (bn b 1 1 ≤ 60) && decide (bn b 3 1 = 0)
    && decide (bn b 4 2 < 2 ^ 14 ∧ bn b 6 2 < 2 ^ 14) && allZero (b.drop 8)

/-- Entry i of the installation table. -/
def tableEntry (b : List Byte) (i : Nat) : TableEntry :=
  let e := slice b (64 + 128 * i) 128
  { serial := BitVec.ofNat 64 (bn e 0 8), module := BitVec.ofNat 14 (bn e 8 2), rack := bn e 10 2, chassis := bn e 12 1, tray := bn e 13 1
    slot := bn e 14 1, variant := bn e 15 1, strokeDelay := bn e 16 2
    boardNb := (List.range 4).map (fun k => BitVec.ofNat 24 (bn e (32 + 3 * k) 3))
    optNb := (List.range 16).map (fun k => BitVec.ofNat 24 (bn e (48 + 3 * k) 3)) }

def tableEntries (b : List Byte) : List TableEntry := (List.range (bn b 4 4)).map (tableEntry b)

def tableEntryOk (b : List Byte) (i : Nat) : Bool :=
  let e := slice b (64 + 128 * i) 128
  decide (bn e 8 2 < 2 ^ 14) && decide (bn e 10 2 ≤ 511) && decide (bn e 12 1 ≤ 3) && decide (bn e 13 1 ≤ 1) && decide (bn e 14 1 ≤ 3)
    && decide (bn e 15 1 ≤ 2) && allZero (slice e 18 14) && allZero (slice e 44 4) && allZero (slice e 96 32)
    && (List.range 4).all (fun k => decide (bn e (32 + 3 * k) 3 = 0xFFFFFF ∨ bn e (32 + 3 * k) 3 % 2 ^ 8 = 0))
    && (List.range 16).all (fun k => decide (bn e (48 + 3 * k) 3 = 0xFFFFFF ∨ bn e (48 + 3 * k) 3 % 2 ^ 6 = 0))

/-- The installation table is valid (R345, R461). -/
def installationOk (b : List Byte) : Bool :=
  let n := bn b 4 4
  let es := tableEntries b
  decide (n ≤ 16384) && decide (b.length = 64 + 128 * n) && allZero (slice b 8 56) && (List.range n).all (tableEntryOk b)
    && decide ((es.map (fun e => e.serial)).eraseDups.length = n) && decide ((es.map (fun e => e.module)).eraseDups.length = n)

/-- A REGISTERS entry: offset, value, DIEMASK. -/
def regEntries (b : List Byte) : List (Nat × Word × Nat) :=
  (List.range (b.length / 16)).map (fun i => (bn b (16 * i) 4, BitVec.ofNat 32 (bn b (16 * i + 4) 4), bn b (16 * i + 8) 1))

def entryDies (m : Nat) : List Nat := (List.range 8).filter (fun d => decide (m = 0 ∨ m / 2 ^ d % 2 = 1))

/-- An entry names an RWL register, keeps to its RWL fields, and writes no value that the register's chapter forbids. -/
def regEntryOk (e : Nat × Word × Nat) : Bool :=
  let w := (regSpec e.1).rwl
  decide (e.1 % 4 = 0 ∧ e.1 < 0x100000) && decide (w ≠ 0) && decide (e.2.1 &&& ~~~w = 0)
    && (keepReserved e.1 (dieReset e.1) e.2.1 &&& w == e.2.1) && !(decide (e.1 = rCruDef) && decide (e.2.1 = 0))
    && !(decide (e.1 = rHltEscCfg) && (decide (fld e.2.1 0 16 = 0) || decide (fld e.2.1 16 4 = 0) || decide (fld e.2.1 20 4 = 0)
      || decide (fld e.2.1 24 8 = 0)))

def registersOk (b : List Byte) : Bool :=
  let es := regEntries b
  let places := es.flatMap (fun e => (entryDies e.2.2).map (fun d => (e.1, d)))
  decide (b.length % 16 = 0) && (List.range (b.length / 16)).all (fun i => allZero (slice b (16 * i + 9) 7)) && es.all regEntryOk
    && decide (places.eraseDups.length = places.length)

/-- A configuration section is valid under R461. -/
def configOk (c : List Byte) : Bool :=
  directoryOk c &&
  (match subsection c 1, subsection c 2, subsection c 5 with
   | some st, some rg, some ow =>
     settingsOk st && registersOk rg && decide (ow.length = 64) &&
     (match subsection c 3 with
      | none => true
      | some t => installationOk t && (let ms := (tableEntries t).map (fun e => e.module.toNat)
                                       ms.contains (bn st 4 2) && ms.contains (bn st 6 2)))
   | _, _, _ => false)

/-- The settings that a valid configuration brings. -/
def configSettings (c : List Byte) : Settings :=
  let st := (subsection c 1).getD []
  let t := subsection c 3
  { period := bn st 0 1, headroom := bn st 1 1, primary := BitVec.ofNat 14 (bn st 4 2), backup := BitVec.ofNat 14 (bn st 6 2)
    tableId := match t with
      | some b => BitVec.ofNat 32 (bn b 0 4)
      | none => 0
    table := match t with
      | some b => tableEntries b
      | none => []
    repeatMax := bn st 2 1 }

/-! ### Images (R457, R458) -/

/-- Bytes of a firmware or configuration signature. -/
def sigBytes : Nat := 29792

/-- The 256-bit digest by which a key slot knows a key (R458, R475). -/
def keyDigest (bs : List Byte) : BitVec 256 := BitVec.ofNat 256 (leNat (shake256 bs 32))

/-- What the ROM finds in an image: the cause of R458 (0 accepts), SVN, release, the sections, the owner slot. -/
structure ImageCheck where
  cause : Nat
  svn : Nat
  fwVersion : Word
  fw : List Byte
  cfg : Option (List Byte)
  owner : Option Nat
deriving DecidableEq, Repr

/-- Magic and sizes. -/
def headerOk458 (h : List Byte) : Bool :=
  let n := bn h 4 4
  decide (bn h 0 4 = 0x474D4957) && decide (n ≤ 48 * 1024 * 1024) && decide (bn h 8 4 ≤ 63)
    && decide (256 ≤ bn h 16 8 ∧ bn h 16 8 + bn h 24 8 + sigBytes ≤ n) && decide (256 ≤ bn h 32 8 ∧ bn h 32 8 + bn h 40 8 + sigBytes ≤ n)

/-- Enrolled owner slots (R458, R475). -/
def State.ownersEnrolled (s : State) : Bool := s.fuses.owners.any (fun o => o.1.isSome)

/-- The owner slot of a key: enrolled with its digest and not revoked. -/
def State.ownerSlot (s : State) (key : List Byte) : Option Nat :=
  (List.range 4).find? (fun i =>
    let o := s.fuses.owners.getD i (none, false)
    decide (o.1 = some (keyDigest key)) && !o.2)

/-- The checks of R458 in their order; `bad` says that the flash could not be read. -/
def State.checkImage (s : State) (slot : Nat) (bad : Bool) : ImageCheck :=
  let base := imageBase slot
  let h := s.flashBytes base 256
  let fail := fun (c : Nat) => (⟨c, bn h 8 4, 0, [], none, none⟩ : ImageCheck)
  if bad then fail 1
  else if !headerOk458 h then fail 2
  else
    let fw := s.flashBytes (base + bn h 16 8) (bn h 24 8)
    let fwSig := s.flashBytes (base + bn h 16 8 + bn h 24 8) sigBytes
    let good : ImageCheck := ⟨0, bn h 8 4, BitVec.ofNat 32 (bn h 12 4), fw, none, none⟩
    if !s.fuses.fwKeys.any (fun k => Config.signatureVerifies (leBytes 32 k.toNat) (h ++ fw) fwSig) then fail 3
    else if bn h 8 4 < s.fuses.svn then fail 4
    else if !s.ownersEnrolled then good
    else
      let c := s.flashBytes (base + bn h 32 8) (bn h 40 8)
      let cSig := s.flashBytes (base + bn h 32 8 + bn h 40 8) sigBytes
      let key := (subsection c 5).getD []
      match (if key.length = 64 then s.ownerSlot key else none) with
      | none => fail 7
      | some o =>
        if !Config.signatureVerifies (leBytes 32 (keyDigest key).toNat) c cSig then fail 5
        else if !configOk c then fail 6
        else { good with cfg := some c, owner := some o }

/-- What the ROM boots: the image and its check, the causes found for A and B, whether it is a fallback, whether it is a trial;
`none` when both images fail (R459). -/
structure RomOut where
  pick : Option (Nat × ImageCheck)
  causes : Nat × Nat
  fallback : Bool
  trial : Bool

def causesOf (pref c1 : Nat) (c2 : Nat) : Nat × Nat := if pref = 0 then (c1, c2) else (c2, c1)

/-- The choice of the image, with the boot record that the ROM writes (R459). -/
def State.rom (s : State) (badA badB : Bool) : State × RomOut :=
  let r := s.bootRec
  let bad := fun (slot : Nat) => if slot = 0 then badA else badB
  let a := s.checkImage r.prefer (bad r.prefer)
  let over3 := r.trial && decide (r.tries + 1 > 2)
  if a.cause = 0 ∧ !over3 then
    (if r.trial then s.writeBootRec r.prefer true (r.tries + 1) else s, ⟨some (r.prefer, a), (0, 0), false, r.trial⟩)
  else
    let s1 := if r.trial then s.writeBootRec (1 - r.prefer) false r.tries else s
    let b := s.checkImage (1 - r.prefer) (bad (1 - r.prefer))
    (s1, ⟨if b.cause = 0 then some (1 - r.prefer, b) else none, causesOf r.prefer a.cause b.cause, true, false⟩)

/-! ### The host interface (R466) -/

/-- The host interface is reset: bindings and completion queues are cleared and commands that have not started are discarded; what
runs goes on, and events wait. -/
def State.hostReset (s : State) : State :=
  let qs := Vector.ofFn (fun i : Fin 64 =>
    let x := s.hostQs[i]
    { HostQ.reset with running := x.running, nextIdent := x.nextIdent, lost := x.lost
                       hold := if i.val = 0 then x.hold.filter (fun r => decide (r.kind = 0xFF)) else [] })
  (({ s with hostQs := qs }.setPreg rPelAq 0).setPreg rPelAcq 0).setPreg (rPelAcq + 4) 0

/-- The image slot that a running IMAGE_WRITE writes, if its descriptor passes the checks of R475: not the slot that booted, unless the
module is in recovery. -/
def State.slotWritten (s : State) (x : Desc) : Option Nat :=
  let slot := dn x 40 1
  if dKind x = 0xF8 ∧ slot ≤ 1 ∧ dn x 41 23 = 0 ∧ dn x 32 4 ≠ 0 ∧ dn x 36 4 + dn x 32 4 ≤ 0x3000000
      ∧ (s.pf rPelBoot 28 4 = 4 ∨ slot ≠ s.boot.image) then some slot
  else none

/-- The flash after a reset during a write: the slot that is written cannot boot until it is rewritten (R475), since the block of its
image header is erased (log 178). -/
def State.cutFlash (s : State) : Flash :=
  let slots := (s.hostQs.toList.flatMap (fun x => x.running)).filterMap (fun c => s.slotWritten c.desc)
  { s.flash with cells := s.flash.cells.filter (fun p => !slots.any (fun k => decide (imageBase k ≤ p.1 ∧ p.1 < imageBase k + 0x10000))) }

/-- What a reset of the Pelbex die loses of the host's commands: those that run end with it, and a write of an image is cut off. -/
def State.loseHost (s : State) : State :=
  let t := s.hostReset
  { t with hostQs := t.hostQs.map (fun x => { x with running := [] }), flash := s.cutFlash }

/-- Settings of the power manager that fall back to their reset values after a module warm reset and a return from A3 (R420). -/
def State.powerDefaults (s : State) : State :=
  ({ s with power := { s.power with capGood := 0 } }.setPreg rPwrCap (pelReset s.fuses.variant rPwrCap)).setPreg rPwrLpCfg
    (pelReset s.fuses.variant rPwrLpCfg)

/-- Whether the fence list names a die (R419), which no register of the die says while it has no power. -/
def State.fenceListed (s : State) (d : DieIx) : Bool := s.flash.fences.contains (domKey d .die)

/-- The PCIe link is down. -/
def State.pcieDown (s : State) : State := s.setPreg rPelPcie 0

/-! ### What a boot keeps of a die (R420) -/

/-- Registers that a module warm reset, or a return from A3, leaves standing: tags, the protection counters with the row log, lane
failures, quarantine slots, the loupe pointer, the port controls (which Pelbex firmware writes again as they were), the wraps, and the rate
at which the stacks are trained; after a warm reset the status of the stroke timer too (the text before R525). Registers that the
configuration image writes start anew. -/
def keptReg (warm : Bool) (off : Nat) : Bool :=
  (decide (off ≥ blkECC ∧ off < blkECC + 0x1000) && !decide (off ≥ rEccFlipCtl ∧ off < rEccTest + 4) && decide ((regSpec off).rwl = 0))
    || off == rHltStatus || off == rHltGenQuad || off == rHltResetStat || off == rHltLoupeLast || off == rHltLoupeLast + 4
    || (decide (off ≥ rLnkPctl 0 ∧ off ≤ rLnkPctl 6) && decide ((off - rLnkPctl 0) % 0x40 = 0)) || off == rAsyQstat || off == rStkWrap
    || off == rHbmStatus || (decide (off ≥ rHbmStk 0 ∧ off < rHbmStk 4) && decide (off % 0x20 ≥ 8))
    || (warm && decide (off ≥ blkSTK ∧ off < blkSTK + 0x1000) && off != rStkCfg)

/-- What a register that is kept holds afterwards: of HLT_STATUS the tag, of HBM_STATUS the rate, and a timer without lock. -/
def keptValue (off : Nat) (v : Word) : Word :=
  if off = rHltStatus then setFld (0 : Word) 0 8 (fld v 0 8)
  else if off = rHbmStatus then v &&& 3
  else if off = rStkLock then setBit v 31 false
  else v

/-- A die after a module warm reset or in A3: held, everything at reset but what R420 keeps. -/
def Die.rebooted (x : Die) (d : Nat) (keepLog : Bool) : Die :=
  let z := Die.reset d
  { z with regs := ((x.regs.filter (fun p => keptReg keepLog p.1)).map (fun p => (p.1, keptValue p.1 p.2))).filter
             (fun p => p.2 != dieReset p.1)
           timer := if keepLog then x.timer.unlock else { Timer.reset with stroke := x.timer.stroke }
           log := if keepLog then x.log else []
           logNext := if keepLog then x.logNext else 0
           cores := Vector.ofFn (fun c => { z.cores[c] with tagCore := x.cores[c].tagCore, tagEng := x.cores[c].tagEng })
           captures := if keepLog then x.captures else []
           captureNext := if keepLog then x.captureNext else z.captureNext
           lbArmed := x.lbArmed, rowAge := x.rowAge, rowNext := x.rowNext, scrubPos := x.scrubPos
           hbm := { z.hbm with testPort := x.hbm.testPort, lanes := x.hbm.lanes }
           assay := { Assay.reset with snaps := x.assay.snaps } }

/-- The memories of a die other than HBM are lost: the die buffer, the scratchpads, banks and registers, and the side memories (R307,
R420). -/
def State.loseCores (s : State) (d : DieIx) : State :=
  let s1 := (List.finRange 48).foldl (fun t c =>
    (((t.modCore d c (loseRegs t.draws)).drawFree).loseMem (memKey d.val 1 (spBase c.val)) 0x00400000).loseMem (memKey d.val 1 (bankBase c.val)) 0x00100000)
    (s.loseMem (memKey d.val 1 0) 0x03000000)
  (List.range 4).foldl (fun t q => t.loseMem (memKey d.val 0xFF (q * 2 ^ 20)) sideBytes) s1

/-! ### The repair run (R313) -/

/-- A repair candidate (R311): a valid entry with UNC set or COUNT at least 2. -/
def isCandidate (w : DWord) : Bool := bitAt w 63 && (bitAt w 62 || decide (fld w 54 8 ≥ 2))

/-- Steps 3 to 6 for one entry: its row passes, is repaired and filled with zero, or stays as unrepairable, which the host hears of. -/
def State.repairRow (s : State) (d : DieIx) (e : Fin 16) (outcome : Nat) : State :=
  let w := s.reg64 d (rEccRowlog e.val)
  let note := setBit w 62 (decide (outcome = 2))
  let s1 := if outcome = 1 then
      (List.range 4).foldl (fun t g => t.memWrite ⟨d, 0, true⟩ d 0 (granule w g) (List.replicate 256 0) (List.replicate 256 false)) s
    else s
  let s2 := s1.logEvent d 0x0703 0 note.toNat
  let s3 := if outcome = 0 then s2 else { s2 with flash := { s2.flash with repairs := s2.flash.repairs ++ [(d.val, note)] } }
  if outcome = 2 then s3.unitEvent d (s3.endpoint d 63) 4 (fld w 50 2) else s3.setReg64 d (rEccRowlog e.val) (setBit w 63 false)

/-- The repair run on a die without a job context, in test hold from its step 2 to its step 5. -/
def State.repairDie (s : State) (d : DieIx) (res : List Repair) : State :=
  if s.jobAssigned d ∨ (s.die d).held ∨ s.dieFenced d then s
  else
    ((List.finRange 16).foldl (fun t e =>
      if isCandidate (t.reg64 d (rEccRowlog e.val)) then
        t.repairRow d e (((res.find? (fun r => decide (r.die = d ∧ r.entry = e))).map (fun r => r.outcome.val)).getD 0)
      else t) (s.holdHbm d true)).holdHbm d false

/-! ### The boot sequence (R462) -/

/-- The stroke settings of a die: period, headroom and B (R37, R527). -/
def stkCfg (t : Settings) : Word :=
  BitVec.ofNat 32 (t.period * 940 * (100 - t.headroom) / 100 * 65536 + t.headroom * 256 + t.period)

/-- Step 3 on a die: released, with its identity, its settings, and the RWL registers of the image written and locked. -/
def State.releaseDie (s : State) (d : DieIx) : State :=
  let t := s.settings
  let me := if s.selfFail then 0 else ((s.ownEntry.map (fun e => e.module.toNat)).getD 0)
  let s1 := s.modDie d (fun x => { x with held := false })
  let s2 := (s1.setReg d rLnkStatus (BitVec.ofNat 32 (s.slot * 65536 + me))).setReg d rStkCfg (stkCfg t)
  let s3 := s.boot.regs.foldl (fun u e => if (entryDies e.2.2).contains d.val then u.setReg d e.1 (mixBits (regSpec e.1).rwl (u.reg d e.1) e.2.1) else u) s2
  let s4 := s3.setReg d rLnkTable t.tableId
  portList.foldl (fun u p => if portExists u.fuses.variant d.val p.val then u else u.setReg d (rLnkPstat p.val) 0) s4

/-- Steps 4 and 5: training, which may find bad lanes, and the zero fill. -/
def State.trainDie (s : State) (d : DieIx) (full : Bool) (fail92 fail80 : BitVec 4) (lanes : List (Fin 4 × Fin 48)) : State :=
  let s0 := s.findLanes d lanes
  let s1 := if full then s0.hbmFullTrain d fail92 fail80 else s0.hbmTrain d fail92
  let n := if full then 2 ^ 39 else 0x7E00000000
  let s2 := s1.setReg64 d rHbmWr (s1.reg64 d rHbmWr + BitVec.ofNat 64 n)
  (s2.eraseMem (memKey d.val 0 0) n).eraseMem (memKey d.val 3 0) (2 ^ 39)

/-- The lanes of a die that a boot finds bad. -/
def lanesOf (b : BootIn) (d : DieIx) : List (Fin 4 × Fin 48) := (b.lanes.filter (fun p => decide (p.1 = d))).map (fun p => p.2)

/-- The domain of a fence list key on die d. -/
def keyDomain (d k : Nat) : Option Domain :=
  if k / 4096 ≠ d then none
  else
    let r := k % 4096
    if r = 4000 then some .die
    else if r ≥ 3072 then some (.quad (quadIx (r - 3072)))
    else if r ≥ 2048 then some (.core (coreIx (r - 2048)))
    else if r ≥ 1024 then some (.engine (coreIx ((r - 1024) / 4)) ⟨(r - 1024) % 4 % 3, Nat.mod_lt _ (by decide)⟩)
    else none

/-- Step 5: the fence list enters the fence registers. -/
def State.loadFences (s : State) (d : DieIx) : State :=
  s.flash.fences.foldl (fun t k => match keyDomain d.val k with
    | some m => t.setFence d m
    | none => t) s

/-- Completion rings that Pelbex owns: 2¹¹ records for each queue, one after another (log entry 62). -/
def ringLog : Nat := 11
def State.programRings (s : State) (d : DieIx) : State :=
  allQueues.foldl (fun t q =>
    let a := (⟨t.slot, d.val, 0, 0x7E00100000 + qNum q * 2 ^ 16⟩ : Loc).addr
    ((t.setReg64 d (qRing q) (a.setWidth 64)).setReg d (qRing q + 8) (BitVec.ofNat 32 ringLog)).setReg d (qRing q + 12) 0) s

/-- A port at the start of a die: UCIe is up, by its own specification; a port that LNK_PCTL holds disabled stays so (R358), and the ports
of a fenced die are held down (R419). -/
def State.startPort (s : State) (d : DieIx) (p : PortIx) : State :=
  if !portExists s.fuses.variant d.val p.val then s
  else if p.val = 3 then s.setPstate d p 4
  else
    let s1 := s.modPort d p (fun x => { x with under := 0 })
    if bitAt (s.reg d (rLnkPctl p.val)) 0 then (s1.setPstate d p 1).setCause d p 11
    else if s.dieFenced d then s1 else s1.trainPort d p

/-- Step 7 on a die: rings, and training of its ports begins. What Pelbex firmware wrote to LNK_PCTL it writes again at a boot (R420, log
entry 168), so that the register holds it through a warm reset. -/
def State.startDie (s : State) (d : DieIx) : State :=
  let s1 := (s.modReg d rStkLock (fun w => setBit w 31 true)).programRings d
  (portList.foldl (fun t p => t.startPort d p) s1).discDone d

/-- The step that a die has been told last: that of its latest notice, else the one in force. -/
def State.announcedStep (s : State) (d : DieIx) : BitVec 2 :=
  ((s.die d).timer.notices.getLast?.map (fun n => n.2)).getD (BitVec.ofNat 2 (s.rf d rStkStepNow 0 2))

/-- Steps 3 to 7 for the dies that have power: released, trained and filled, fenced as the list says, started; a die that cannot
train is a die fault. -/
def State.bringUp (s : State) (full : Bool) (b : BootIn) : State :=
  let ds := s.allDies.filter (fun d => !bitAt s.power.railsOff d.val)
  let s1 := ds.foldl (fun t d => (if full then t.loseCores d else t).releaseDie d) s
  let f92 := fun (d : DieIx) => b.fail92.getD d.val 0
  let f80 := fun (d : DieIx) => b.fail80.getD d.val 0
  let s2 := ds.foldl (fun t d => (t.trainDie d full (f92 d) (f80 d) (lanesOf b d)).loadFences d) s1
  let s3 := ds.foldl (fun t d => t.startDie d) s2.publishLib
  let s4 := { s3 with power := { s3.power with announced := Vector.ofFn s3.announcedStep, notices := [], idle := Vector.replicate 8 0 } }
  let s5 := ds.foldl (fun t d => t.setPf (rPwrLpStat) (2 * d.val) 2 0) s4
  let bad := ds.filter (fun (d : DieIx) => (s5.rf d rHbmStatus 4 4 != 15) && !s5.dieFenced d)
  (bad.foldl (fun t d => t.dieFault d) s5).throttleAll

/-- A module out of service parks its dies (R418). -/
def State.parkAll (s : State) : State :=
  s.allDies.foldl (fun t d => (t.parkDie d).modReg d rHltStatus (fun w => setBit w 23 true)) s

/-- PEL_BOOT_STATUS (R479). -/
def bootStatus (state : Nat) (o : RomOut) (image : Nat) (standalone : Bool) (svn : Nat) : Word :=
  BitVec.ofNat 32 (state * 2 ^ 28 + (if o.fallback then 2 ^ 27 else 0) + (if o.trial then 2 ^ 26 else 0) + image * 2 ^ 25
    + (if standalone then 2 ^ 24 else 0) + o.causes.1 * 2 ^ 16 + o.causes.2 * 2 ^ 8 + svn)

/-- READY: status, the log entry and the BOOT event (R462, R476, R539). -/
def State.ready (s : State) (w : Word) : State :=
  let s1 := (s.setPreg rPelBoot w).logPelbex 0x0C01 w.toNat
  let s2 := s1.unitEvent firstDie (s1.endpoint firstDie 63) 11 (fld w 0 24)
  if s2.flash.outOfService then s2.parkAll else s2

/-- The slot pins are read at standby and at every warm reset (R502). -/
def State.readSlot (s : State) : State :=
  let p := s.fuses.slotPins.setWidth 32 &&& 7
  let bad := decide (popcount p % 2 = 0)
  let s1 := s.setPreg rPwrStatus (setBit (setFld (s.preg rPwrStatus) 0 3 p.toNat) 3 bad)
  if bad then s1.alert 5 else s1

/-- BOOT (R462): the ROM picks an image; without one the module is in recovery with its dies held and no firmware release (R523). -/
def State.bootModule (s : State) (full : Bool) (b : BootIn) : State :=
  let r := s.rom b.badA b.badB
  match r.2.pick with
  | none => (r.1.setPreg rPelBoot (bootStatus 4 { r.2 with fallback := false } 0 false s.fuses.svn)).setPreg rPelFw 0
  | some (image, c) =>
    let st := match c.cfg with
      | some cfg => configSettings cfg
      | none => Settings.reset
    let info : BootInfo :=
      { image := image, fwDigest := shake256 c.fw 64, cfgDigest := shake256 (c.cfg.getD []) 64, owner := c.owner
        regs := match c.cfg with
          | some cfg => regEntries ((subsection cfg 2).getD [])
          | none => []
        standalone := decide (st.table = []) }
    let s1 := ({ r.1 with settings := st, boot := info }.setPreg rPelFw c.fwVersion).bringUp full b
    let s2 := if full then s1 else s1.allDies.foldl (fun t d => t.repairDie d b.repairs) s1
    s2.ready (bootStatus 3 r.2 image info.standalone s.fuses.svn)

end Sys2Proof.Machine
end

