-- ==== Sys2Proof/Machine/Resets.lean ====
section
/-! DEFINITION. The commands of resets: hangs, the reset of a domain, the module warm reset, completion and timeout, reset notices, and
the return of a member (R404 to R420). -/

namespace Sys2Proof.Machine

/-! ### Hangs (R404 to R406) -/

/-- The domain that a hang of a unit resets. -/
def hangDomain (u : HungUnit) : Domain :=
  match u with
  | .engine c e => .engine c e
  | .processor c => .core c
  | .rowEngine q => .quad q
  | .uncoreEngine (.core c) => .core c
  | .uncoreEngine (.row q) => .quad q
  | .uncoreEngine _ => .die

/-- Endpoint and engine that event 0x0A01 names. -/
def State.hungDetail (s : State) (d : DieIx) (u : HungUnit) : Nat :=
  match u with
  | .engine c e => (s.endpoint d c.val).toNat + e.val * 2 ^ 24
  | .processor c => (s.endpoint d c.val).toNat
  | .rowEngine _ => (s.endpoint d 63).toNat
  | .uncoreEngine _ => (s.endpoint d 63).toNat

/-- HANG (R404 to R406): a unit with pending work has made no progress for HLT_HANG_CFG.STROKES complete strokes; the hang is declared at
the boundary that ends the last of them, and resets the unit's domain. -/
def execHang (d : DieIx) (u : HungUnit) (s : State) : Host.Outcome State Fault Refusal :=
  onDie d s (fun t =>
    if t.hung d (canonUnit u) then (t.logEvent d 0x0A01 0 (t.hungDetail d (canonUnit u))).startReset d (hangDomain u) 0 false else t)

/-- MISSING_STROKE_REPORT (R406): the health controller's report is missing at 2 boundaries in a row. -/
def execMissingStrokeReport (d : DieIx) (s : State) : Host.Outcome State Fault Refusal :=
  onDie d s (fun t => t.startReset d .die 0 false)

/-! ### Resets of a domain (R407) -/

/-- ENGINE_RESET. -/
def execEngineReset (d : DieIx) (c : CoreIx) (e : Fin 3) (cause : Fin 5) (s : State) : Host.Outcome State Fault Refusal :=
  onDie d s (fun t => t.startReset d (.engine c e) cause.val false)

/-- CORE_RESET. -/
def execCoreReset (d : DieIx) (c : CoreIx) (cause : Fin 5) (s : State) : Host.Outcome State Fault Refusal :=
  onDie d s (fun t => t.startReset d (.core c) cause.val false)

/-- QUADRANT_RESET. -/
def execQuadrantReset (d : DieIx) (q : Fin 4) (cause : Fin 5) (s : State) : Host.Outcome State Fault Refusal :=
  onDie d s (fun t => t.startReset d (.quad q) cause.val false)

/-- DIE_RESET. -/
def execDieReset (d : DieIx) (cause : Fin 5) (s : State) : Host.Outcome State Fault Refusal :=
  onDie d s (fun t => t.startReset d .die cause.val false)

/-! ### The module warm reset (R407, R409) -/

/-- Whether a FAULT is latched (R409, R488). -/
def State.faulted (s : State) : Bool := bitAt (s.preg rPwrStatus) 31

/-- Steps 1 to 3 on a die: tags, notices, the entry, and a capture of the control-state blocks, but for a reset to which the hung reset
of a die has escalated (R408). A reset of a domain that the module's reset absorbs fences its domain where the rules say so (R418). -/
def State.warmDie (s0 : State) (d : DieIx) (cause : Nat) (second : Bool) : State :=
  let s := ((s0.die d).resets.filter (fun r => (r.toFence || s0.fencesAfter d r.dom) && decide (r.dom ≠ .die))).foldl
    (fun t r => t.fence d r.dom r.capture) s0
  let gen := s.dieGen d
  let s1 := s.bumpTags d .die
  let s2 := (s1.logFrom d (s.endpoint d 63) gen 0x0A02 0 (5 + cause * 16 + (s1.dieGen d).toNat * 256) none).sendNotices d .die
  if second then s2 else (s2.capture411 d .die 5 cause gen (!s2.hbmServes d)).1

/-- Step 4 on a die: it is held, and keeps what R420 says. -/
def State.holdDie (s : State) (d : DieIx) : State := (s.modDie d (fun x => x.rebooted d.val true)).loseCores d

/-- An address that names no ring entry. -/
def noEntry : BoardAddr := BitVec.allOnes 52

/-- The records that a queue loses in a warm reset, in queue order: those of completed commands that waited for the ring, those of commands that
an absorbed reset discarded, and those of the commands discarded now; whether each bears the time of the return. -/
def State.queueLost (s : State) (d : DieIx) (q : QId) : List (Bool × Completion) :=
  (s.queue d q).done.map (fun r => (false, r))
    ++ (((s.die d).resets.flatMap (fun r => r.discarded)).filter (fun p => decide (p.1 = q))).map (fun p => (true, p.2))
    ++ (discardedOf (s.queue d q) none).map (fun x => (true, s.abortRecord d q x))

/-- The records that a die loses in a warm reset, with their entries in the rings as these stand now (R94). A record beyond the entries
that are free has no entry: the reset ends the ring, and no consumer frees one any more (log 157). -/
def State.lostRecords (s : State) (d : DieIx) : List LostRec :=
  allQueues.flatMap (fun q =>
    ((s.queueLost d q).zipIdx).map (fun x =>
      ⟨d, if x.2 + s.ringUsed d q < s.ringSize d q then s.ringEntryAt d q x.2 else noEntry, s.ringPhaseAt d q x.2, x.1.1, x.1.2⟩))

/-- Once the die is back, a lost record is written, or logged where it has no ring entry that can be reached (R93, R94). -/
def State.writeLost (s : State) (p : LostRec) : State :=
  let r : Completion := if p.restamp then { p.record with stamp := s.stamp p.die } else p.record
  if s.ringReachable p.die (locOf p.entry) then s.putRing p.die (locOf p.entry) (r.bytes p.phase) r.job
  else s.loseRecord p.die r

/-- A module warm reset begins: every die and the Pelbex die reset, every job ends, and the host interface starts anew, with no host
command left (log 178). A request while
one runs merges with it; under a latched FAULT it has no effect. One in A3 brings the rails back (R497). -/
def State.warmReset (s : State) (cause : Nat) (fences : List (DieIx × Nat)) : State :=
  if s.faulted ∨ !s.power.standby then s
  else
    match s.warm with
    | some w => { s with warm := some { w with fences := w.fences ++ fences } }
    | none =>
      let ds := s.allDies
      let s0 := { s.countModule with pelCapture := if fences.isEmpty then s.pelRegs else s.pelCapture }
      let s1 := ds.foldl (fun t d => if (t.die d).held then t else t.warmDie d cause !fences.isEmpty) s0
      let lost := (ds.filter (fun d => !(s.die d).held)).flatMap (fun d => s1.lostRecords d)
      let s2 := ds.foldl (fun t d => t.holdDie d) s1
      let s3 := ((s2.loseHost.pcieDown).setPf rPelBoot 28 4 5).readSlot
      let s4 := { s3 with jobs := [], board := ⟨false, false, 0, false⟩, warm := some ⟨cause, fences, lost⟩
                          power := { s3.power with rails := true } }
      s4.powerDefaults

/-- MODULE_WARM_RESET (R407). -/
def execModuleWarmReset (cause : Fin 5) (s : State) : Host.Outcome State Fault Refusal := .next (s.warmReset cause.val [])

/-- WATCHDOG (R406): Pelbex firmware has not serviced it for 100 ms. -/
def execWatchdog (s : State) : Host.Outcome State Fault Refusal := .next (s.warmReset 0 [])

/-- The module behaves as after a hung warm reset (R409): FAULT with its cause, the alert, every die held, out of service. -/
def State.moduleDown (s : State) (cause : Nat) : State :=
  let w := setFld (setBit (s.preg rPwrStatus) 31 true) 28 3 cause
  let s1 := (s.setPreg rPwrStatus w).alert 4
  let s2 := s1.outOfService
  let s3 := s2.allDies.foldl (fun t d => t.modDie d (fun x => { x with held := true })) s2
  { s3 with warm := none }

/-- WARM_RESET_TIMEOUT (R409): the warm reset has not completed within 900 ms. -/
def execWarmResetTimeout (s : State) : Host.Outcome State Fault Refusal :=
  .next (if s.warm.isSome then s.moduleDown 4 else s)

/-! ### Completion and timeout (R407, R408) -/

/-- The warm reset completes with a boot, then dies whose hung reset it absorbed are fenced (R418); MOD_RESET_N holds it back. -/
def State.warmComplete (s : State) (b : BootIn) : State :=
  match s.warm with
  | none => s
  | some w =>
    if s.power.modResetLow then s
    else
      let s1 := ({ s with warm := none }).bootModule (decide (s.pf rPwrLpStat 0 2 = 3)) b
      w.fences.foldl (fun t p => if (t.die p.1).held then t else t.fence p.1 .die p.2) (w.lost.foldl State.writeLost s1)

/-- RESET_COMPLETE (R407): step 5; `us` is the time since step 4. A die whose stacks fail their retrain is fenced (R284, R418). -/
def execResetComplete (what : ResetOf) (us : Nat) (s : State) : Host.Outcome State Fault Refusal :=
  match what with
  | .module b => .next (s.warmComplete b)
  | .domain d m found =>
    onDie d s (fun t =>
      if m = Domain.die ∧ (t.die d).resets.any (fun r => decide (r.dom = Domain.die)) then
        let u := t.findLanes d found.lanes
        if found.fail ||| u.lanesOver d ≠ 0 then
          ((u.modDie d (fun x => { x with resets := x.resets.map (fun r => { r with toFence := true }) })).completeReset d m us).hbmTrain d found.fail
        else u.completeReset d m us
      else t.completeReset d m us)

/-- RESET_TIMEOUT (R408): the reset has hung and escalates to the parent domain; a die reset into a module warm reset, after which
the die is fenced. -/
def execResetTimeout (d : DieIx) (dom : Domain) (s : State) : Host.Outcome State Fault Refusal :=
  onDie d s (fun t =>
    let off := (((t.die d).resets.find? (fun r => decide (r.dom = dom))).map (fun r => r.capture)).getD 0
    let r := t.escalate d dom
    if r.2 then r.1.warmReset 1 [(d, off)] else r.1)

/-! ### Notices and the return of members (R414 to R416) -/

/-- Announced tags that are kept: every domain of the dies of the own board, and the die domains of the 4,096 other dies that
announced most recently. -/
def State.trimAnnounced (s : State) (d : DieIx) : State :=
  let own := fun (k : Nat) => let m := k / 4096 / 8; decide (m = s.moduleNo d) || (s.slotOf m).isSome
  s.modDie d (fun x =>
    let far := (x.announced.filter (fun p => !own p.1 && decide (p.1 / 512 % 8 = 4))).take 4096
    { x with announced := x.announced.filter (fun p => own p.1 || far.contains p) })

/-- RESET_NOTICE (R414, R415): the tag is recorded, and the job's step ends at the next boundary. -/
def execResetNotice (d : DieIx) (m : Msg) (s : State) : Host.Outcome State Fault Refusal :=
  onDie d s (fun t =>
    if m.mkind ≠ 0x32 then t
    else
      let u := (t.takeMsg d m).wake d
      if u.staleMsg d m then u.addSat d rHltStale 0 32 1
      else
      let key := announceKey m.src (leNat (slice m.spec 0 1)) (leNat (slice m.spec 2 1) % 64) (leNat (slice m.spec 3 1))
      ((u.setAnnounced d key (byteAt m.spec 1)).trimAnnounced d).noteNotice d m.job)

/-- The commit state of a context after the verdict of the member's step (R416): YES means that the step has committed, NO that its
attempt is over, and ATTEMPT becomes that of the root. -/
def State.restoreContext (s : State) (d : DieIx) (k : Nat) (yes : Bool) : State :=
  let s1 := if yes then
      ((s.modReg d (rUpdSet k) (fun w => setBit w 28 (!bitAt w 28))).setReg d (rUpdStep k) (BitVec.ofNat 32 (s.stepOf d k))).setRf d
        (rCmtStat k) 16 8 0
    else (s.setRf d (rCmtStat k) 24 8 ((s.attempt d k + 1) % 256)).setRf d (rCmtStat k) 16 8 (min (s.rf d (rCmtStat k) 16 8 + 1) 255)
  (s1.setCmtState d k 0).modCommit d k Commit.over

/-- The member is back in its job, and the host hears of it (R416). -/
def State.returnMember (s : State) (d : DieIx) (k step : Nat) : State :=
  let u := s.modDie d (fun x => { x with returning := setBit x.returning k false })
  u.hostEvent d (u.endpoint d 63) 0 (u.cmtJob d k) (BitVec.ofNat 8 (u.colEpoch d k)) (BitVec.ofNat 32 step) 0 7
    (u.endpoint d 63).toNat

/-- MEMBER_RETURN (R416): after a die reset Pelbex restores the commit state of a job context from the verdict that the root or the
backup has sent, and the member returns; a member without another root or backup has missed none (log 158). With `final` Pelbex gives up
on a member that neither has answered: it does not return, and the host hears of that once. -/
def execMemberReturn (d : DieIx) (k : CtxIx) (final : Bool) (s : State) : Host.Outcome State Fault Refusal :=
  onDie d s (fun t =>
    if !bitAt (t.die d).returning k.val ∨ (t.die d).resets.any (fun r => decide (r.dom = Domain.die)) then t
    else
      let c := t.commit d k.val
      match c.held with
      | some v => (t.restoreContext d k.val v.1).returnMember d k.val (t.stepOf d k.val)
      | none =>
        if ((t.sortedMembers (t.cmtJob d k.val)).take 2).all (t.isMe d) then t.returnMember d k.val (t.stepOf d k.val)
        else if final ∧ c.toBackup ∧ c.silent ≥ 4 ∧ !c.reported then
          (t.modCommit d k.val (fun c => { c with reported := true })).hostEvent d (t.endpoint d 63) 0 (t.cmtJob d k.val)
            (BitVec.ofNat 8 (t.colEpoch d k.val)) (BitVec.ofNat 32 (t.stepOf d k.val)) 0 9 (t.commitStroke d k.val)
        else t)

end Sys2Proof.Machine
end

