-- ==== Sys2Proof/Machine/Power.lean ====
section
/-! DEFINITION. The commands of power, thermal management and the management pins: power sequencing, input protection, trips,
throttle triggers, the power cap, low-power states and I3C access (R485 to R511). -/

namespace Sys2Proof.Machine

/-! ### Power sequencing (R485 to R488) -/

/-- Every rail is down: only fuses, flash, the host's memory, the interrupts it has taken and the pins stay, and a latched FAULT with
its cause. -/
def State.dark (s : State) (pwrEn : Bool) : State :=
  let w := setFld (setBit (0 : Word) 31 (bitAt (s.preg rPwrStatus) 31)) 28 3 (fld (s.preg rPwrStatus) 28 3)
  ({ State.reset with
      fuses := s.fuses, flash := s.cutFlash, host := s.host, msix := s.msix, draws := s.draws, pending := s.pending
      power := { Power.reset with pwrEn := pwrEn, throtLow := s.power.throtLow, modResetLow := s.power.modResetLow } }).setPreg
    rPwrStatus (if bitAt w 31 then w else 0)

/-- Steps 1 to 4 of R486: standby with the slot pins, the main rails, PWRGOOD and boot; MOD_RESET_N low holds the dies in reset until
its release ends the warm reset it asks for (R500). Without an input under a latched FAULT only the pin changes. -/
def State.powerOn (s : State) (b : BootIn) : State :=
  let s1 := { s with power := { s.power with pwrEn := true } }
  if s.power.standby ∨ s.faulted then s1
  else
    let s2 := s1.dark true
    let s3 := { s2 with power := { s2.power with standby := true } }.readSlot
    let s4 := { s3 with power := { s3.power with rails := true, pwrgood := true } }
    if s4.power.modResetLow then { s4.setPf rPelBoot 28 4 5 with warm := some ⟨4, [], []⟩ } else s4.bootModule true b

/-- POWER_UP (R486): PWR_EN rises with the input above 38 V. -/
def execPowerUp (b : BootIn) (s : State) : Host.Outcome State Fault Refusal := .next (s.powerOn b)

/-- POWER_DOWN_SEQUENCE (R486): PWR_EN falls. -/
def execPowerDownSequence (s : State) : Host.Outcome State Fault Refusal :=
  .next (if s.faulted then { s with power := { s.power with pwrEn := false } } else s.dark false)

/-- BROWN_OUT (R487): every rail, standby included, is removed and nothing is latched. -/
def execBrownOut (s : State) : Host.Outcome State Fault Refusal := .next (s.dark s.power.pwrEn)

/-- INPUT_RESTORED (R487): the module powers up again. -/
def execInputRestored (b : BootIn) (s : State) : Host.Outcome State Fault Refusal :=
  .next (if s.power.pwrEn then s.powerOn b else s)

/-- The dies and the main logic lose power while standby stays (R488, R496): memories are lost and nothing runs. -/
def State.mainOff (s : State) : State :=
  { s with dies := Vector.ofFn (fun d : Fin 8 => Die.reset d), mem := Mem.empty, irqs := [], jobs := []
           hostQs := State.reset.hostQs, flash := s.cutFlash, board := State.reset.board, warm := none
           power := { s.power with rails := false, notices := [], announced := Vector.replicate 8 0 } }

/-- MODULE_TRIP (R488): cause 1 overvoltage, 2 overcurrent, 3 stage temperature; as after a hung warm reset (R409), without rails. -/
def execModuleTrip (cause : Fin 3) (s : State) : Host.Outcome State Fault Refusal :=
  .next (if s.power.standby ∧ !s.faulted then
    let t := (s.moduleDown (cause.val + 1)).mainOff
    { t with power := { t.power with pwrgood := false } }
  else s)

/-- FAULT_CLEAR (R488): PWR_EN low for at least 2 s, or the input removed. -/
def execFaultClear (removed : Bool) (s : State) : Host.Outcome State Fault Refusal :=
  .next (if s.faulted ∧ (removed ∨ !s.power.pwrEn) then (s.setPreg rPwrStatus 0).dark s.power.pwrEn else s)

/-! ### Throttle triggers (R490) -/

/-- Requests reach the dies while there are any. -/
def State.rethrottle (s : State) : State := if s.power.rails then s.throttleAll else s

/-- UNDERVOLTAGE (R487): the input has been below 39.5 V for 50 µs. -/
def execUndervoltage (s : State) : Host.Outcome State Fault Refusal :=
  .next (if s.power.standby then ({ s with power := { s.power with underVolt := true } }.alert 0).rethrottle else s)

/-- UNDERVOLTAGE_RELEASE (R487): the input has been at or above 40.0 V for 10 ms. -/
def execUndervoltageRelease (s : State) : Host.Outcome State Fault Refusal :=
  .next ({ s with power := { s.power with underVolt := false } }.rethrottle)

/-- THROT_N (R490): the level that the pin has held for 1 µs. -/
def execThrotN (low : Bool) (s : State) : Host.Outcome State Fault Refusal :=
  let s1 := { s with power := { s.power with throtLow := low } }
  .next ((if low ∧ s.power.standby then s1.alert 6 else s1).rethrottle)

/-- A request that is set above one temperature and released at or below another (R490). -/
def hyster (old : Bool) (v set release : Nat) : Bool := if v > set then true else if v ≤ release then false else old

/-- The T1, T2 and T3 requests of a die after a junction reading. -/
def junctionBits (old : BitVec 3) (v : Nat) : BitVec 3 :=
  BitVec.ofNat 3 ((if hyster (bitAt old 0) v 95 92 then 1 else 0) + (if hyster (bitAt old 1) v 100 97 then 2 else 0)
    + (if hyster (bitAt old 2) v 105 102 then 4 else 0))

/-- JUNCTION_READING (R489, R490): the highest of the die's sensors, `none` when it fails. -/
def execJunctionReading (d : DieIx) (temp : Option (BitVec 8)) (s : State) : Host.Outcome State Fault Refusal :=
  if !s.present d then .fault (.absentDie d)
  else .next (
    if !s.power.rails ∨ bitAt s.power.railsOff d.val then s
    else
      let r := s.sensed d.val (temp.map BitVec.toNat)
      match r.2 with
      | none => r.1
      | some v =>
        let t := r.1.setPf (rPwrDie d.val) 8 8 v
        { t with power := { t.power with junction := t.power.junction.set d (junctionBits t.power.junction[d] v) } }.throttleDie d)

/-- COOLANT_READING (R489, R490): inlet and outlet, `none` for a sensor that fails. -/
def execCoolantReading (inlet outlet : Option (BitVec 8)) (s : State) : Host.Outcome State Fault Refusal :=
  .next (
    if !s.power.standby then s
    else
      let a := s.sensed 8 (inlet.map BitVec.toNat)
      let b := a.1.sensed 9 (outlet.map BitVec.toNat)
      let i := a.2.getD (s.pf rPwrCool 0 8)
      let o := b.2.getD (s.pf rPwrCool 8 8)
      let c := s.power.cool
      let t1 := hyster (bitAt c 0) i 40 38
      let t3 := if i > 45 ∨ o > 65 then true else if i ≤ 43 ∧ o ≤ 62 then false else bitAt c 1
      let u := (b.1.setPf rPwrCool 0 8 i).setPf rPwrCool 8 8 o
      let v := { u with power := { u.power with cool := BitVec.ofNat 2 ((if t1 then 1 else 0) + (if t3 then 2 else 0)) } }
      (if t1 ∨ t3 then v.alert 2 else v).rethrottle)

/-! ### The power cap (R491, R506) -/

/-- Power of a module at the connector at full load (table of R485's chapter): n dies, 2n stacks and n optical engines per step. -/
def connectorWatts (n step : Nat) : Nat :=
  let p := if step = 0 then 640 else if step = 1 then 520 else if step = 2 then 410 else 230
  ((n * p + 28 * 4 * n + 120 + 22 * 2 * n) * 100 + 46) / 93

/-- The cap step after an evaluation, and the good evaluations in a row. -/
def capNext (n cap power step good : Nat) : Nat × Nat :=
  if power > cap then (min 3 (step + 1), 0)
  else if step ≠ 0 ∧ power * connectorWatts n (step - 1) * 100 ≤ 95 * cap * connectorWatts n step then
    (if good + 1 ≥ 10 then (step - 1, 0) else (step, good + 1))
  else (step, 0)

/-- CAP_EVALUATION (R489, R491, R504, R505, R507, R511): the measurements of 1 ms are published and the cap step moves. -/
def execCapEvaluation (m : Measured) (s : State) : Host.Outcome State Fault Refusal :=
  .next (
    if !s.power.standby then s
    else
      let a := s.sensed 10 (m.stage.map BitVec.toNat)
      let b := a.1.sensed 11 (m.pin.map BitVec.toNat)
      let pin := b.2.getD (s.pf rPwrPin 0 16)
      let u := ((b.1.setPreg rPwrVin (m.iin ++ m.vin)).setPf rPwrPin 0 16 pin).setPf rPwrCool 16 8 (a.2.getD (s.pf rPwrCool 16 8))
      let u1 := s.allDies.foldl (fun t d => t.setPf (rPwrDie d.val) 0 8 (m.dies.getD d.val 0).toNat) u
      let fails := decide (b.2 = some 0xFF) && m.pin.isNone
      let r := if !bitAt (s.preg rPwrCap) 31 then (0, 0)
        else capNext s.dieCount (s.pf rPwrCap 0 16) (if fails then 2 ^ 16 else pin) s.capStep s.power.capGood
      let u2 := (u1.setPf rPwrCap 16 2 r.1)
      let u3 := { u2 with power := { u2.power with capGood := r.2 } }
      (if r.1 ≠ 0 then u3.alert 1 else u3).rethrottle)

/-- The least CAP_W of a variant. -/
def capFloor (variant : Nat) : Nat := if variant = 0 then 3600 else if variant = 1 then 1900 else 1000

/-- A write of PWR_CAP: a CAP_W below the variant's least is reserved, and the field keeps its value (R7). -/
def State.capWrite (s : State) (v : Word) : State :=
  let w := setBit (s.preg rPwrCap) 31 (bitAt v 31)
  s.setPreg rPwrCap (if fld v 0 16 < capFloor s.fuses.variant then w else setFld w 0 16 (fld v 0 16))

/-- PWR_CAP (R506). -/
def execPwrCap (v : Word) (s : State) : Host.Outcome State Fault Refusal := .next (if s.power.standby then s.capWrite v else s)

/-! ### Die trip (R492) -/

/-- The notice of a tripped die goes out through another die. -/
def State.tripNotices (s : State) (d : DieIx) : State :=
  let spec := leBytes 1 4 ++ leBytes 1 (s.dieGen d).toNat ++ leBytes 2 0 ++ leBytes 8 (s.stamp d).toNat
  match s.allDies.find? (fun e => decide (e ≠ d) && !(s.die e).held && !s.dieFenced e) with
  | none => s
  | some e =>
    (s.jobsHit d .die).foldl (fun t job =>
      ((t.membersOf job).filter (fun x => x != t.endpoint d 63)).foldl (fun u x =>
        u.sendMsg e (u.mkMsg d 0x32 x job 0 0 0 spec [])) t) s

/-- DIE_TRIP (R492): the die's rails are removed, its peers are told, and it is fenced without a capture. -/
def execDieTrip (d : DieIx) (s : State) : Host.Outcome State Fault Refusal :=
  if !s.present d then .fault (.absentDie d)
  else .next (
    if !s.power.rails ∨ bitAt s.power.railsOff d.val then s
    else
      let s1 := (s.setPreg rPwrStatus (setBit (s.preg rPwrStatus) (8 + d.val) true)).alert 3
      let s2 := ((s1.bumpTags d .die).tripNotices d).fence d .die 0
      let s3 := s2.setDie d ((Die.reset d.val).setReg rHltStatus (setFld (0 : Word) 0 8 (s2.dieGen d).toNat))
      let s4 := ((s3.eraseMem (memKey d.val 0 0) (2 ^ 39)).loseCores d).eraseMem (memKey d.val 3 0) (2 ^ 39)
      let s5 := s4.setFence d .die
      { s5 with power := { s5.power with
        railsOff := setBit s5.power.railsOff d.val true
        notices := s5.power.notices.filter (fun n => decide (n.1 ≠ d)) } })

/-! ### Low-power states (R493 to R497, R509, R510) -/

def State.lpState (s : State) (d : DieIx) : Nat := s.pf rPwrLpStat (2 * d.val) 2

/-- A1_ENTRY (R493, R494): the die has been idle for A1_STROKES strokes; ports, timer and refresh go on. -/
def execA1Entry (d : DieIx) (s : State) : Host.Outcome State Fault Refusal :=
  onDie d s (fun t =>
    if t.lpState d = 0 ∧ t.pf rPwrLpCfg 0 16 ≠ 0 ∧ t.power.idle[d] ≥ t.pf rPwrLpCfg 0 16 then t.setPf rPwrLpStat (2 * d.val) 2 1 else t)

def State.lpResult (s : State) (r : Nat) : State := s.setPf rPwrLpStat 30 2 r

/-- Dies that a request names. -/
def State.lpDies (s : State) (mask : BitVec 8) : List DieIx := s.allDies.filter (fun d => bitAt mask d.val)

/-- What holds for every request (R497): ignored without standby or under a latched FAULT, refused before READY, busy while another
transition runs. -/
def State.lpGate (s : State) (busy : Bool) (k : State → State) : State :=
  if !s.power.standby ∨ s.faulted then s
  else if s.pf rPelBoot 28 4 ≠ 3 then s.lpResult 2
  else if busy then s.lpResult 3
  else k s

/-- Return of a die from A2 (R495): power is restored and HBM retrains; a stack that cannot train is a die fault (R284). -/
def State.unpark (s : State) (d : DieIx) (fail : BitVec 4) (lanes : List (Fin 4 × Fin 48)) : State :=
  let s1 := ((s.setPf rPwrLpStat (2 * d.val) 2 0).findLanes d lanes).hbmTrain d fail
  if s1.rf d rHbmStatus 4 4 = 15 then s1.startAll d else s1.dieFault d

/-- To A0: refused for a fenced die and for a module out of service; from A3 the whole module returns, through steps 3 to 7 of the boot
with the settings of the power manager at their reset values (R420, R496); else the named dies. -/
def State.toA0 (s : State) (mask : BitVec 8) (b : BootIn) : State :=
  if (s.lpDies mask).any (fun d => s.dieFenced d || s.fenceListed d) ∨ s.flash.outOfService then s.lpResult 2
  else if s.lpState firstDie = 3 then
    let s1 := { s with power := { s.power with rails := true, pwrgood := true } }.powerDefaults
    ((s1.bringUp true b).ready (s.preg rPelBoot)).lpResult 1
  else ((s.lpDies mask).foldl (fun t d =>
      if t.lpState d = 2 then t.unpark d (b.fail92.getD d.val 0) (lanesOf b d) else t.setPf rPwrLpStat (2 * d.val) 2 0) s).lpResult 1

/-- To A2: refused for a die with a job context assigned. -/
def State.toA2 (s : State) (mask : BitVec 8) : State :=
  if (s.lpDies mask).any (fun d => s.jobAssigned d) ∨ s.lpState firstDie = 3 then s.lpResult 2
  else ((s.lpDies mask).foldl (fun t d => if (t.die d).held ∨ t.lpState d = 2 then t else t.parkDie d) s).lpResult 1

/-- To A3 (R496): logs and last captures are collected, every die is parked, the ports and the PCIe link go down (R466) and the rails
are removed; what a die keeps is in R420. -/
def State.toA3 (s : State) (mask : BitVec 8) : State :=
  if s.allDies.any (fun d => !bitAt mask d.val) ∨ s.jobs ≠ [] then s.lpResult 2
  else if s.lpState firstDie = 3 then s.lpResult 1
  else
    let ds := s.allDies
    let s1 := { s with collected := ds.map (fun d => (d, (s.die d).log, ((s.die d).captures.reverse.take 1))) }
    let s2 := ds.foldl (fun t d => if t.lpState d = 2 ∨ (t.die d).held then t else t.parkDie d) s1
    let s3 := (ds.foldl (fun t d => (t.bumpTags d .die).modDie d (fun x => x.rebooted d.val false)) s2).hostReset.pcieDown
    let s4 := { s3 with mem := Mem.empty, power := { s3.power with rails := false, notices := [] } }
    (ds.foldl (fun t d => t.setPf rPwrLpStat (2 * d.val) 2 3) s4).lpResult 1

/-- A0_REQUEST (R497, R509); `busy` says that another transition still runs. -/
def execA0Request (mask : BitVec 8) (busy : Bool) (b : BootIn) (s : State) : Host.Outcome State Fault Refusal :=
  .next (s.lpGate busy (fun t => t.toA0 mask b))

/-- A2_ENTRY (R495, R497). -/
def execA2Entry (mask : BitVec 8) (busy : Bool) (s : State) : Host.Outcome State Fault Refusal :=
  .next (s.lpGate busy (fun t => t.toA2 mask))

/-- A3_ENTRY (R496, R497). -/
def execA3Entry (mask : BitVec 8) (busy : Bool) (s : State) : Host.Outcome State Fault Refusal :=
  .next (s.lpGate busy (fun t => t.toA3 mask))

/-! ### The module reset pin (R488, R500) -/

/-- MOD_RESET_N (R500): the level that the pin has held for 10 µs, or its release. -/
def execModResetN (low : Bool) (s : State) : Host.Outcome State Fault Refusal :=
  let s1 := { s with power := { s.power with modResetLow := low } }
  .next (if low then s1.warmReset 4 [] else s1)

/-! ### I3C (R501) -/

/-- A write of one word of the PWR block by board management. -/
def State.pwrWrite (s : State) (off : Nat) (v : Word) (busy : Bool) (b : BootIn) : State :=
  if off = rPwrStatus then s.setPreg off (s.preg off &&& ~~~(v &&& 0x00FF0000))
  else if off = rPwrCap then s.capWrite v
  else if off = rPwrLpCfg then s.setPreg off (v &&& 0x0000FFFF)
  else if off = rPwrLpReq then
    let old := s.preg off
    let t := fld v 24 4
    let w := setFld (setFld old 0 8 (fld v 0 8)) 24 4 (if t = 0 ∨ t = 2 ∨ t = 3 then t else fld old 24 4)
    let u := s.setPreg off w
    let mask : BitVec 8 := BitVec.ofNat 8 (fld w 0 8)
    if !bitAt v 31 then u
    else u.lpGate busy (fun x => if fld w 24 4 = 0 then x.toA0 mask b else if fld w 24 4 = 2 then x.toA2 mask else x.toA3 mask)
  else s

/-- Words of a private write, one after another; only the PWR block takes them. -/
def State.i3cPut (busy : Bool) (b : BootIn) : Nat → List Word → State → State
  | _, [], s => s
  | o, w :: ws, s => State.i3cPut busy b (o + 4) ws (if o % 4 = 0 ∧ o < 0x1000 then s.pwrWrite (blkPWR + o) w busy b else s)

/-- I3C_PRIVATE_WRITE (R501): the offset, then data words; `busy` and `b` serve a low-power request among them. -/
def execI3cPrivateWrite (off : BitVec 16) (data : List Word) (busy : Bool) (b : BootIn) (s : State) :
    Host.Outcome State Fault Refusal :=
  .next (if s.power.standby then
    State.i3cPut busy b off.toNat data { s with power := { s.power with i3cOff := off } } else s)

/-- A word that the target returns: the PWR block, where GO reads as zero, and PEL_BOOT_STATUS, which a module trip hides. -/
def State.i3cWord (s : State) (o : Nat) : Word :=
  if o % 4 = 0 ∧ o < 0x1000 then s.preg (blkPWR + o)
  else if o = 0xF000 ∧ (!s.faulted ∨ s.pf rPwrStatus 28 3 = 4) then s.preg rPelBoot
  else 0

/-- I3C_PRIVATE_READ (R501): n words from the offset last written. -/
def execI3cPrivateRead (n : Nat) (s : State) : Host.Outcome State Fault Refusal :=
  .next (if s.power.standby then
    { s with power := { s.power with i3cOut := (List.range n).map (fun i => s.i3cWord (s.power.i3cOff.toNat + 4 * i)) } } else s)

end Sys2Proof.Machine
end

