-- ==== Sys2Proof/Machine/Pelbex.lean ====
section
/-! DEFINITION. Pelbex and the host: the doorbells and queue registers, host queues, and the host commands that concern the module
itself (R313, R464 to R484, R544). -/

namespace Sys2Proof.Machine

/-! ### Host queues (R468 to R471) -/

/-- PEL_BOOT_STATUS.STATE. -/
def State.bootState (s : State) : Nat := s.pf rPelBoot 28 4

def hbyte (x : Desc) (k : Nat) : Nat := dn x k 1

/-- Whether the payload bytes from k on are zero. -/
def restZero (x : Desc) (k : Nat) : Bool := decide (dn x k (64 - k) = 0)

/-- Header checks of a host descriptor (R87, R471): a host kind, a SERVICE operation of the table, RELEASE and AUX zero. -/
def hostHeaderOk (x : Desc) : Bool :=
  decide (0xF0 ≤ dKind x ∧ dKind x ≤ 0xFA) && decide (fld x 12 4 = 0) && decide (dRnd x ≠ 3) && decide (fld x 28 4 = 0)
    && decide (fld x 104 24 = 0) && decide (dRelease x = 0) && decide (dAux x = 0)
    && !(decide (dKind x = 0xFA) && !decide (1 ≤ hbyte x 24 ∧ hbyte x 24 ≤ 8))

/-- Kinds that Pelbex runs one at a time for a queue; the others run for long and concurrently. -/
def shortKind (k : Nat) : Bool := [0xF0, 0xF1, 0xF2, 0xF4, 0xF5].contains k

/-- What recovery accepts (R459). -/
def recoveryKind (x : Desc) : Bool :=
  [0xF0, 0xF8, 0xF9].contains (dKind x) || (decide (dKind x = 0xFA) && decide (hbyte x 24 = 1))

/-- The record of a host command. -/
def State.hostRecord (s : State) (q : Fin 64) (c : HostCmd) (r : Result) : State :=
  s.postCq q
    { stamp := s.stamp firstDie, tag := BitVec.ofNat 16 (dTag c.desc), status := BitVec.ofNat 8 (pickStatus r.statuses), cflags := r.cflags
      kind := BitVec.ofNat 8 (dKind c.desc), source := s.endpoint firstDie 63, hallmark := r.hallmark, job := dJob c.desc
      epoch := BitVec.ofNat 8 (dEpoch c.desc), gen := s.dieGen firstDie, step := BitVec.ofNat 32 (dStep c.desc), detail := r.detail
      irq := dIrq c.desc }

/-- Start or complete the head of a host queue; `none` when it has to wait. A descriptor whose CRC fails completes with POISON (R478). -/
def State.startHostHead (s : State) (q : Fin 64) : Option State :=
  let x := s.hostQ q
  match x.entries with
  | [] => none
  | c :: cs =>
    let t := s.setHostQ q { x with entries := cs }
    if dFence c.desc ∧ x.running ≠ [] then none
    else if c.poison then some (t.hostRecord q c (.err stPoison))
    else if !hostHeaderOk c.desc ∨ (s.bootState = 4 ∧ !recoveryKind c.desc) then some (t.hostRecord q c (.err stFormat))
    else if s.flash.outOfService ∧ (dKind c.desc = 0xF2 ∨ dKind c.desc = 0xF3) then some (t.hostRecord q c (.err stFenced))
    else if shortKind (dKind c.desc) ∧ x.running.any (fun r => shortKind (dKind r.desc)) then none
    else some (t.setHostQ q { t.hostQ q with running := x.running ++ [c] })

def State.startHostN (s : State) (q : Fin 64) : Nat → State
  | 0 => s
  | n + 1 =>
    match s.startHostHead q with
    | none => s
    | some t => t.startHostN q n

def State.startHost (s : State) (q : Fin 64) : State := s.startHostN q (s.hostQ q).entries.length

/-- A host command ends. -/
def State.hostFinish (s : State) (q : Fin 64) (c : HostCmd) (r : Result) : State :=
  ((s.setHostQ q { s.hostQ q with running := (s.hostQ q).running.filter (fun y => y.ident != c.ident) }).hostRecord q c r).startHost q

def State.hostBad (s : State) (q : Fin 64) (c : HostCmd) (st : Nat) : State := s.hostFinish q c (.err st)

/-- Run the first running command of a host queue that fits; nothing happens without one. -/
def hostRun (s : State) (q : Fin 64) (pick : Desc → Bool) (k : HostCmd → State) : Host.Outcome State Fault Refusal :=
  .next (match (s.hostQ q).running.find? (fun c => pick c.desc) with
    | none => s
    | some c => k c)

def isKind (k : Nat) (x : Desc) : Bool := decide (dKind x = k)
def isService (op : Nat) (x : Desc) : Bool := decide (dKind x = 0xFA) && decide (hbyte x 24 = op)

/-- A doorbell write that is ignored (R462, R467, R468). -/
def State.doorbellIgnored (s : State) : State := s.pelCount 8

/-- Bytes of the host's memory. -/
def State.hostBytes (s : State) (a n : Nat) : List Byte := (List.range n).map (fun i => SMap.get 0 s.host.cells (a + i))

/-- PEL_SQ_TAIL (R468, R484): Pelbex consumes the descriptors up to TAIL, in order, each with whether its CRC fails; those of a bound
queue are pushed unchanged (R470). -/
def State.sqTail (s : State) (q : Fin 64) (tail : Nat) (descs : List (Desc × Bool)) : State :=
  let x := s.hostQ q
  if !(s.bootState = 3 ∨ s.bootState = 4) ∨ !x.enabled ∨ tail ≥ 2 ^ x.sqLog then s.doorbellIgnored
  else
    let n := (tail + 2 ^ x.sqLog - x.head) % 2 ^ x.sqLog
    let new := (List.range n).map (fun i => descs.getD i (0, false))
    let s1 := s.setHostQ q { x with head := tail, tail := tail }
    match x.target with
    | some (d, e) => new.foldl (fun t p => t.push d e p.1 p.2) s1
    | none =>
      let cmds := (new.zipIdx).map (fun p => (⟨x.nextIdent + p.2, p.1.1, p.1.2⟩ : HostCmd))
      let y := s1.hostQ q
      (s1.setHostQ q { y with entries := y.entries ++ cmds, nextIdent := y.nextIdent + n }).startHost q

/-- PEL_SQ_TAIL. -/
def execPelSqTail (q : Fin 64) (tail : BitVec 12) (descs : List (Desc × Bool)) (s : State) : Host.Outcome State Fault Refusal :=
  .next (s.sqTail q tail.toNat descs)

/-- PEL_CQ_HEAD (R469, R484): space is freed, held records follow, then records that lie in the bound engine's ring. -/
def execPelCqHead (q : Fin 64) (head : BitVec 16) (s : State) : Host.Outcome State Fault Refusal :=
  let x := s.hostQ q
  .next (if !x.enabled ∨ (x.cqTail + 65536 - head.toNat) % 65536 > 2 ^ x.cqLog then s.doorbellIgnored
    else
      let t := (s.setHostQ q { x with cqHead := head.toNat }).flushCq q
      (t.drainRing q (t.hostQ q).ringed.length).flushCq q)

/-! ### The admin queue (R480, R481) -/

/-- PEL_AQ_CTL: enabling takes valid sizes; while enabled only clearing ENABLE has an effect. -/
def execPelAqCtl (v : Word) (s : State) : Host.Outcome State Fault Refusal :=
  let x := s.hostQ 0
  let sq := fld v 0 8
  let cq := fld v 8 8
  let okSq := decide (4 ≤ sq ∧ sq ≤ 12)
  let okCq := decide (4 ≤ cq ∧ cq ≤ 15)
  -- sizes out of range are reserved and keep their values (R7)
  let old := s.preg rPelAq
  let a := if okSq then v &&& 0x803F_FFFF else setFld (v &&& 0x803F_FFFF) 0 8 (fld old 0 8)
  let w := if okCq then a else setFld a 8 8 (fld old 8 8)
  .next (
    if x.enabled then
      (if bitAt v 31 then s else (s.setPreg rPelAq w).setHostQ 0 { x with enabled := false, entries := [] })
    else if bitAt v 31 then
      (if okSq && okCq then
        ((s.setPreg rPelAq w).setHostQ 0 { x with
          enabled := true, sqLog := sq, cqLog := cq, vector := fld v 16 6, target := none, head := 0, tail := 0, cqHead := 0, cqTail := 0
          base := ((s.preg (rPelAcq + 4)) ++ (s.preg rPelAcq)).toNat }).flushCq 0
      else s)
    else s.setPreg rPelAq w)

/-- PEL_ACQ_BASE (R481): bits 4:0 are reserved and read as zero; while PEL_AQ_CTL.ENABLE is 1 the write is ignored. It is zero at reset. -/
def execPelAcqBase (v : DWord) (s : State) : Host.Outcome State Fault Refusal :=
  .next (if (s.hostQ 0).enabled then s
    else (s.setPreg rPelAcq (v.setWidth 32 &&& 0xFFFFFFE0)).setPreg (rPelAcq + 4) ((v >>> 32).setWidth 32))

/-! ### The PCIe link (R465, R466, R482) -/

/-- HOST_INTERFACE_RESET (R466): a function level reset, a hot reset, PERST_N, or the link going down. -/
def execHostInterfaceReset (linkDown : Bool) (s : State) : Host.Outcome State Fault Refusal :=
  .next (if linkDown then s.hostReset.pcieDown else s.hostReset)

/-- PCIE_LINK_UP (R465, R482): below 64 GT/s x8 the link is degraded, which the host hears of. -/
def execPcieLinkUp (gen : Fin 6) (width : BitVec 8) (flit : Bool) (s : State) : Host.Outcome State Fault Refusal :=
  let low := decide (gen.val < 5) || decide (width.toNat < 8)
  let w := (gen.val + 1) * 2 ^ 24 + width.toNat * 2 ^ 16 + (if flit then 2 ^ 15 else 0) + (if low then 2 ^ 14 else 0)
  let s1 := s.setPreg rPelPcie (BitVec.ofNat 32 w)
  let s2 := if low then s1.unitEvent firstDie (s1.endpoint firstDie 63) 6 0xFF else s1
  .next ((List.finRange 64).foldl (fun t q => t.flushCq q) s2)

/-! ### NOP and QUEUE_BIND (R470, R471) -/

/-- NOP. -/
def execNop (q : Fin 64) (s : State) : Host.Outcome State Fault Refusal :=
  hostRun s q (isKind 0xF0) (fun c => if restZero c.desc 24 then s.hostFinish q c Result.ok else s.hostBad q c stFormat)

/-- The queue that an engine code and a core name (R473). -/
def planQueue (code core : Nat) : Option QId :=
  if code = 0 then (if core < 48 then some (.core (coreIx core)) else none)
  else if code = 1 then some .cru
  else if code = 2 then some .col
  else if code = 3 then some .txe
  else if code = 4 then some .upd
  else if code = 5 then some .bil
  else if 6 ≤ code ∧ code ≤ 9 then some (.row (quadIx (code - 6)))
  else if code = 10 then some .hlt
  else none

/-- An entry of a plan (R473), with whether its bytes are valid and whether a word of it is poisoned. -/
structure PlanEntry where
  die : Nat
  queue : Option QId
  once : Bool
  offset : Nat
  desc : Desc
  ok : Bool
  bad : Bool

def planEntry (b : List Byte) (bad : Bool) : PlanEntry :=
  { die := bn b 0 1, queue := planQueue (bn b 1 1) (bn b 2 1), once := decide (bn b 3 1 % 2 = 1), offset := bn b 4 2
    desc := descOf (b.drop 16), ok := decide (bn b 3 1 < 2) && allZero (slice b 6 10), bad := bad }

/-- A plan: COMMIT_OFF, the entries, whether its header is valid, whether a word of it is poisoned. -/
structure Plan where
  commitOff : Nat
  entries : List PlanEntry
  ok : Bool
  poison : Bool

def State.planAt (s : State) (a : BoardAddr) : Plan :=
  let l := locOf a
  let key := memKey l.die l.region l.off
  let h := s.peek key 64
  let n := bn h 4 4
  if l.slot ≠ s.slot ∨ l.die ≥ s.dieCount ∨ l.region ≠ 0 ∨ l.off + 64 + 80 * n > 0x7E00000000 then ⟨0, [], false, false⟩
  else
    ⟨bn h 10 2, (List.range n).map (fun i => planEntry (s.peek (key + 64 + 80 * i) 80) ((s.poisonOf 0 (key + 64 + 80 * i) 80).any id)),
      decide (bn h 0 4 = 0x4E414C50) && allZero (slice h 12 52), (s.poisonOf 0 key (64 + 80 * n)).any id⟩

/-- Whether the plan at an address touches the service region of a die of this module (R18). -/
def State.planService (s : State) (a : BoardAddr) : Bool :=
  let l := locOf a
  decide (l.slot = s.slot) && decide (l.die < s.dieCount) &&
    (inService l.region l.off 64
      || inService l.region l.off (64 + 80 * bn (s.peek (memKey l.die l.region l.off) 64) 4 4))

/-- Read a plan: what it says, with the reads counted and recorded as R304 has it. -/
def State.readPlan (s : State) (job : BitVec 12) (a : BoardAddr) : Plan × State :=
  let p := s.planAt a
  let l := locOf a
  (p, if p.ok then (s.memRead ⟨dieIx l.die, job, false⟩ (dieIx l.die) 0 l.off (64 + 80 * p.entries.length)).state else s)

/-- Whether a running plan uses an engine queue. -/
def State.planUses (s : State) (d : DieIx) (q : QId) : Bool :=
  s.jobs.any (fun j => [j.plan, j.next].any (fun o => match o with
    | some p => (s.planAt p.place).entries.any (fun e => decide (e.die = d.val) && decide (e.queue = some q))
    | none => false))

/-- The queue a QUEUE_BIND names: `none` for a target that does not exist, `some none` for Pelbex. -/
def State.bindTarget (s : State) (x : Desc) : Option (Option (DieIx × QId)) :=
  let t := hbyte x 37
  let d := dieIx (hbyte x 38)
  if t = 0 then some none
  else if hbyte x 38 ≥ s.dieCount then none
  else if t = 1 then (planQueue 0 (hbyte x 39)).map (fun e => some (d, e))
  else if t = 2 ∧ hbyte x 39 ≠ 0 then (planQueue (hbyte x 39) 0).map (fun e => some (d, e))
  else none

/-- QUEUE_BIND: a queue already bound is bound anew, and its descriptors that have not started are discarded. -/
def State.queueBind (s : State) (q : Fin 64) (c : HostCmd) : State :=
  let x := c.desc
  let i : Fin 64 := ⟨hbyte x 24 % 64, Nat.mod_lt _ (by decide)⟩
  let y := s.hostQ i
  let fresh : HostQ := { HostQ.reset with running := y.running, nextIdent := y.nextIdent }
  if !(1 ≤ hbyte x 24 ∧ hbyte x 24 ≤ 63) ∨ hbyte x 25 > 1 ∨ !restZero x 40 then s.hostBad q c stFormat
  else if hbyte x 25 = 0 then (s.setHostQ i fresh).hostFinish q c Result.ok
  else
    match s.bindTarget x with
    | none => s.hostBad q c stFormat
    | some tgt =>
      let clash : Bool := match tgt with
        | some (d, e) => s.planUses d e || (match s.boundTo d e with
          | some j => decide (j ≠ i)
          | none => false)
        | none => false
      if !(4 ≤ hbyte x 26 ∧ hbyte x 26 ≤ 12) ∨ !(4 ≤ hbyte x 27 ∧ hbyte x 27 ≤ 15) ∨ dn x 28 8 % 32 ≠ 0 ∨ hbyte x 36 > 63 ∨ clash then
        s.hostBad q c stFormat
      else
        (s.setHostQ i { fresh with enabled := true, sqLog := hbyte x 26, cqLog := hbyte x 27, base := dn x 28 8, vector := hbyte x 36
                                   target := tgt }).hostFinish q c Result.ok

/-- QUEUE_BIND (R470). -/
def execQueueBind (q : Fin 64) (s : State) : Host.Outcome State Fault Refusal := hostRun s q (isKind 0xF1) (s.queueBind q)

/-! ### HOST_COPY (R475) -/

def hcHost (x : Desc) : Nat := dn x 24 8
def hcBoard (x : Desc) : BoardAddr := dAddr x 32
def hcBytes (x : Desc) : Nat := dn x 40 4
def hcToHost (x : Desc) : Bool := bitAt x (8 * 44)

/-- Reserved fields of a HOST_COPY (R11). -/
def hostCopyFormat (x : Desc) : Bool := decide (hbyte x 44 < 2) && restZero x 45 && dAddrOk x 32

/-- Addresses of a HOST_COPY (R18, R20). -/
def State.hostCopyOk (s : State) (x : Desc) : Bool :=
  let l := locOf (hcBoard x)
  decide (l.slot = s.slot) && s.decodes (dieIx l.die) (hcBoard x) (hcBytes x)
    && !inService l.region l.off (hcBytes x) && (l.region != 2 || regAligned l.off (hcBytes x))
    && (hcToHost x || decide (l.region = 2) || s.writeOk (dieIx l.die) (dJob x) l.region l.off (hcBytes x) none)

/-- The bytes move; poisoned bytes do not reach the host, and the command completes with POISON. Pelbex firmware issues the access (log
173), so at the armed address it is a test access (R317, R318). -/
def State.hostCopyRun (s : State) (q : Fin 64) (c : HostCmd) : State :=
  let x := c.desc
  let l := locOf (hcBoard x)
  let d := dieIx l.die
  let n := hcBytes x
  let a : Access := ⟨d, dJob x, true⟩
  let reg := decide (l.region = 2)
  if hcToHost x then
    (if reg then
      let r := s.readRegs d (.ep (s.endpoint d 63)) (n / 4) l.off
      (r.2.pokeHost (hcHost x) r.1).hostFinish q c Result.ok
    else
      let p := s.place d l
      let r := s.memRead a d p.1 p.2 n
      let t := (r.bytes.zipIdx).foldl (fun (u : State) b => if r.poison.getD b.2 false then u else u.pokeHost (hcHost x + b.2) [b.1]) r.state
      if r.poison.any id then t.hostBad q c stPoison else t.hostFinish q c Result.ok)
  else
    let bs := s.hostBytes (hcHost x) n
    let t := if reg then s.writeRegs d (.ep (s.endpoint d 63)) (n / 4) l.off bs (List.replicate n false)
      else s.writeLocal a d l.region l.off bs (List.replicate n false)
    t.hostFinish q c Result.ok

/-- HOST_COPY: it waits while the die is held, its HBM does not serve or an array owns the bank it names (R84). -/
def State.hostCopy (s : State) (q : Fin 64) (c : HostCmd) : State :=
  let x := c.desc
  let l := locOf (hcBoard x)
  let d := dieIx l.die
  if !hostCopyFormat x then s.hostBad q c stFormat
  else if hcBytes x = 0 then s.hostFinish q c Result.ok
  else if !s.hostCopyOk x then (s.countService (inService l.region l.off (hcBytes x))).hostBad q c stFormat
  else if s.dieFenced d then s.hostBad q c stFenced
  else if (s.die d).held ∨ ((l.region = 0 ∨ l.region = 3) ∧ !s.hbmServes d) ∨ s.bankBusy d l then s
  else s.hostCopyRun q c

/-- HOST_COPY (R475). -/
def execHostCopy (q : Fin 64) (s : State) : Host.Outcome State Fault Refusal := hostRun s q (isKind 0xF6) (s.hostCopy q)

/-! ### ATTEST (R463, R464) -/

/-- Public key of a key pair whose secret seed is given. -/
def slhPublic (seed : List Byte) : List Byte := (List.range 64).map (Config.signatureByte (0 :: seed))

/-- Signature of a message by a key pair. -/
def slhSign (seed msg : List Byte) : List Byte := (List.range 49856).map (Config.signatureByte (1 :: (seed ++ msg)))

def State.devId (s : State) : List Byte := shake256 (leBytes 32 s.fuses.secret.toNat ++ [1]) 64

/-- SVN of the image that was booted. -/
def State.imageSvn (s : State) : Nat := bn (s.flashBytes (imageBase s.boot.image) 16) 8 4

/-- FW_DIGEST, CFG_DIGEST and SVN of the running image. -/
def State.bootClaims (s : State) : List Byte := s.boot.fwDigest ++ s.boot.cfgDigest ++ leBytes 4 s.imageSvn

def State.aliasKey (s : State) : List Byte := shake256 (leBytes 32 s.fuses.secret.toNat ++ [2] ++ s.bootClaims) 64

/-- The attestation report. -/
def State.report (s : State) (nonce : List Byte) : List Byte :=
  let body := leBytes 4 0x54545441 ++ leBytes 4 100096 ++ leBytes 8 s.fuses.serial.toNat ++ leBytes 1 s.fuses.variant
    ++ leBytes 1 s.boot.image ++ leBytes 1 s.imageSvn ++ leBytes 1 s.fuses.svn ++ leBytes 4 s.settings.tableId.toNat
    ++ leBytes 8 (s.stamp firstDie).toNat ++ nonce ++ s.boot.fwDigest ++ s.boot.cfgDigest
    ++ shake256 (Config.fenceForm s.flash.fences s.flash.escalations) 64 ++ slhPublic s.devId ++ slhPublic s.aliasKey
    ++ slhSign s.devId (slhPublic s.aliasKey ++ s.bootClaims)
  body ++ slhSign s.aliasKey body

/-- The DevID certificate in the identity block, its length before it (log entry 63). -/
def State.devIdCert (s : State) : List Byte :=
  let n := min (bn (s.flashBytes 0x20048 4) 0 4) 0xFFB4
  leBytes 4 n ++ s.flashBytes 0x2004C n

/-- ATTEST. -/
def State.attest (s : State) (q : Fin 64) (c : HostCmd) : State :=
  let x := c.desc
  if hbyte x 40 > 1 ∨ !restZero x 41 then s.hostBad q c stFormat
  else
    let r := s.report (s.hostBytes (dn x 32 8) 32)
    (s.pokeHost (dn x 24 8) (if hbyte x 40 = 1 then r ++ s.devIdCert else r)).hostFinish q c Result.ok

/-- ATTEST (R464). -/
def execAttest (q : Fin 64) (s : State) : Host.Outcome State Fault Refusal := hostRun s q (isKind 0xF7) (s.attest q)

/-! ### Images (R475) -/

/-- IMAGE_WRITE: into the slot that did not boot; the blocks it touches are erased first. -/
def State.imageWrite (s : State) (q : Fin 64) (c : HostCmd) : State :=
  let x := c.desc
  let n := dn x 32 4
  let off := dn x 36 4
  let slot := hbyte x 40
  if slot > 1 ∨ !restZero x 41 then s.hostBad q c stFormat
  else if n = 0 then s.hostFinish q c Result.ok
  else if off + n > 0x3000000 ∨ (s.bootState ≠ 4 ∧ slot = s.boot.image) then s.hostBad q c stFormat
  else
    let lo := imageBase slot + off / 0x10000 * 0x10000
    let hi := imageBase slot + (off + n + 0xFFFF) / 0x10000 * 0x10000
    let s1 := { s with flash := { s.flash with cells := s.flash.cells.filter (fun p => decide (p.1 < lo) || decide (p.1 ≥ hi)) } }
    (s1.flashWrite (imageBase slot + off) (s.hostBytes (dn x 24 8) n)).hostFinish q c Result.ok

/-- IMAGE_WRITE. -/
def execImageWrite (q : Fin 64) (s : State) : Host.Outcome State Fault Refusal := hostRun s q (isKind 0xF8) (s.imageWrite q)

/-- IMAGE_SELECT: the slot is verified, then selected, tried, or confirmed, after which PEL_BOOT_STATUS shows no trial and the fused SVN
as raised (R479); `bad` says that the flash could not be read. -/
def State.imageSelect (s : State) (q : Fin 64) (bad : Bool) (c : HostCmd) : State :=
  let x := c.desc
  let slot := hbyte x 24
  let trial := bitAt x (8 * 25)
  let confirm := bitAt x (8 * 25 + 1)
  let running := bitAt (s.preg rPelBoot) 26 && decide (slot = s.boot.image)
  if slot > 1 ∨ hbyte x 25 > 3 ∨ !restZero x 26 ∨ (trial ∧ confirm) ∨ (confirm ∧ !running) then s.hostBad q c stFormat
  else
    let k := s.checkImage slot bad
    if k.cause ≠ 0 then s.hostFinish q c { Result.err stHallmark with detail := BitVec.ofNat 32 k.cause }
    else if confirm then
      let v := max s.fuses.svn k.svn
      let s1 := { s.writeBootRec slot false 0 with fuses := { s.fuses with svn := v } }
      ((s1.setPf rPelBoot 26 1 0).setPf rPelBoot 0 8 v).hostFinish q c Result.ok
    else (s.writeBootRec slot trial 0).hostFinish q c Result.ok

/-- IMAGE_SELECT. -/
def execImageSelect (q : Fin 64) (bad : Bool) (s : State) : Host.Outcome State Fault Refusal :=
  hostRun s q (isKind 0xF9) (s.imageSelect q bad)

/-! ### SERVICE (R475, R544) -/

/-- A service operation that is executed leaves an entry in the log of Pelbex. -/
def State.serviceDone (s : State) (q : Fin 64) (c : HostCmd) : State := (s.logPelbex 0x0C02 (hbyte c.desc 24)).hostFinish q c Result.ok

/-- SERVICE_MODULE_WARM_RESET: OP 1. -/
def execServiceModuleWarmReset (q : Fin 64) (s : State) : Host.Outcome State Fault Refusal :=
  hostRun s q (isService 1) (fun c => if restZero c.desc 25 then (s.serviceDone q c).warmReset 2 [] else s.hostBad q c stFormat)

/-- CLEAR_ESCALATION_COUNTERS: OP 2 (R417 to R419); a module out of service returns to it. -/
def execClearEscalationCounters (q : Fin 64) (s : State) : Host.Outcome State Fault Refusal :=
  hostRun s q (isService 2) (fun c =>
    if !restZero c.desc 25 then s.hostBad q c stFormat
    else
      let s1 := { s with flash := { s.flash with escalations := [], fences := [], dieFences := [], outOfService := false } }
      (s1.allDies.foldl (fun t d => t.modReg d rHltStatus (fun w => setBit w 23 false)) s1).serviceDone q c)

/-- ERASE_LIBRARY: OP 3 (R440). -/
def execEraseLibrary (q : Fin 64) (s : State) : Host.Outcome State Fault Refusal :=
  hostRun s q (isService 3) (fun c =>
    if !restZero c.desc 25 then s.hostBad q c stFormat
    else ({ s with flash := { s.flash with library := [], libNext := 0, libBlock := 0 } }.publishLib).serviceDone q c)

/-- SERVICE_PORT_REENABLE: OP 4 (R358). -/
def execServicePortReenable (q : Fin 64) (s : State) : Host.Outcome State Fault Refusal :=
  hostRun s q (isService 4) (fun c =>
    let d := hbyte c.desc 25
    let p := hbyte c.desc 26
    if !restZero c.desc 27 ∨ d ≥ s.dieCount ∨ p ≥ 7 ∨ !portExists s.fuses.variant d p then s.hostBad q c stFormat
    else ((if (s.die (dieIx d)).held then s else s.reenablePort (dieIx d) (portIx p) .pelbex)).serviceDone q c)

/-- HBM_REPAIR_RUN: OP 5 (R313), on the named dies that have no job context. -/
def execHbmRepairRun (q : Fin 64) (res : List Repair) (s : State) : Host.Outcome State Fault Refusal :=
  hostRun s q (isService 5) (fun c =>
    let m := hbyte c.desc 25
    if !restZero c.desc 26 ∨ m ≥ 2 ^ s.dieCount then s.hostBad q c stFormat
    else ((s.allDies.filter (fun d => decide (m / 2 ^ d.val % 2 = 1))).foldl (fun t d => t.repairDie d res) s).serviceDone q c)

/-- SERVICE_DOMAIN_RESET: OP 6 (R425). -/
def execServiceDomainReset (q : Fin 64) (s : State) : Host.Outcome State Fault Refusal :=
  hostRun s q (isService 6) (fun c =>
    let d := hbyte c.desc 25
    if !restZero c.desc 30 ∨ d ≥ s.dieCount then s.hostBad q c stFormat
    else ((if (s.die (dieIx d)).held then s else s.resetCtl (dieIx d) .pelbex (BitVec.ofNat 32 (dn c.desc 26 4)))).serviceDone q c)

/-- Change one owner key slot. -/
def State.setOwner (s : State) (i : Nat) (o : Option (BitVec 256) × Bool) : State :=
  { s with fuses := { s.fuses with owners := s.fuses.owners.set i o } }

/-- OWNER_KEY_ENROLMENT: OP 7, into an empty slot. -/
def execOwnerKeyEnrolment (q : Fin 64) (s : State) : Host.Outcome State Fault Refusal :=
  hostRun s q (isService 7) (fun c =>
    let i := hbyte c.desc 25
    if i > 3 ∨ dn c.desc 26 6 ≠ 0 ∨ (s.fuses.owners.getD i (none, false)).1.isSome then s.hostBad q c stFormat
    else (s.setOwner i (some (BitVec.ofNat 256 (dn c.desc 32 32)), (s.fuses.owners.getD i (none, false)).2)).serviceDone q c)

/-- OWNER_KEY_REVOCATION: OP 8, irreversible; not the slot that signed the running configuration. -/
def execOwnerKeyRevocation (q : Fin 64) (s : State) : Host.Outcome State Fault Refusal :=
  hostRun s q (isService 8) (fun c =>
    let i := hbyte c.desc 25
    if i > 3 ∨ !restZero c.desc 26 ∨ s.boot.owner = some i then s.hostBad q c stFormat
    else (s.setOwner i ((s.fuses.owners.getD i (none, false)).1, true)).serviceDone q c)

/-- SELF_CHECK (R478): a digest of Pelbex's code or image copy that does not match starts a warm reset with cause 3. -/
def execSelfCheck (ok : Bool) (s : State) : Host.Outcome State Fault Refusal := .next (if ok then s else s.warmReset 3 [])

end Sys2Proof.Machine
end

