-- ==== Sys2Proof/Machine/Row.lean ====
section
/-! DEFINITION. The row engines: softmax and normalisation rows, their statistics and the side memory (R191 to R196). -/

namespace Sys2Proof.Machine

/-! ### FP32 arithmetic of the row engines -/

/-- 2^320 · e^x for x = i / 2^320 and |x| at most 128, truncated: a Taylor sum of x / 2^16 squared sixteen times. -/
def expFixed (i : Int) : Nat :=
  let p : Nat := 2 ^ 320
  let y : Int := i / 65536
  let term := fun (n : Nat) => (List.range n).foldl (fun (t : Int) k => t * y / (p * (k + 1) : Nat)) p
  let s := (List.range 24).foldl (fun (a : Int) n => a + term n) 0
  (List.range 16).foldl (fun (a : Nat) _ => a * a / p) s.toNat

/-- exp of an FP32 value within one unit in the last place (R194): one of the two neighbours of the exact value. -/
def exp32 (b : Nat) : Nat :=
  match decodeFloat .fp32 b with
  | .nan => canonNan .fp32
  | .inf neg => if neg then 0 else 0x7F800000
  | .fin neg m e =>
    let v : Fpv := .fin neg m e
    if m = 0 then 0x3F800000
    else if v.cmp (.fin false 128 0) = 1 then 0x7F800000
    else
      let lim : Fpv := if v.cmp (.fin true 120 0) = -1 then .fin true 120 0 else v
      let x : Fpv := .fin false (expFixed (lim.scale 320).floor) (-320)
      if x.cmp (pow2 128) ≠ -1 then 0x7F800000
      else (encodeFloat .fp32 (if Config.expUp (BitVec.ofNat 32 b) then .rup else .rdn) x noGen).bits

/-- A sum of FP32 values in an order that the manual leaves open: step k combines two of the partial sums. -/
def anySum (n : Nat) : Nat → List Nat → Nat
  | _, [] => 0
  | _, [a] => a
  | 0, a :: _ => a
  | k + 1, a :: b :: l =>
    let xs := a :: b :: l
    let i := Config.sumPick n (2 * k) % xs.length
    let ys := xs.eraseIdx i
    let j := Config.sumPick n (2 * k + 1) % ys.length
    anySum n k (op32 .add (xs.getD i 0) (ys.getD j 0) :: ys.eraseIdx j)

def sum32 (n : Nat) (l : List Nat) : Nat := anySum n l.length l

def nat32 (n : Nat) : Nat := (conv32 (.ofInt n)).1
def mean32 (n : Nat) (l : List Nat) : Nat := op32 .div (sum32 n l) (nat32 l.length)
def max32 (l : List Nat) : Nat :=
  match l with
  | [] => 0
  | a :: as => as.foldl (fun x y => (ieeeMinMax true .fp32 x y noGen).bits) a

def sqrt32 (a : Nat) : Nat := canonBits .fp32 (ieeeSqrt .fp32 .rne a noGen).bits

/-! ### One row (R194, R195) -/

/-- The statistics of a row. -/
structure Stat where
  a : Nat
  b : Nat
deriving DecidableEq, Repr

def Stat.word (s : Stat) : DWord := BitVec.ofNat 64 (s.a + s.b * 2 ^ 32)
def statOf (w : DWord) : Stat := ⟨fld w 0 32, fld w 32 32⟩
def nanStat : Stat := ⟨canonNan .fp32, canonNan .fp32⟩

def special32 (b : Nat) : Bool := let v := decodeFloat .fp32 b; v.isNan || v.isInf

def nanRow (n : Nat) : List Nat := List.replicate n (canonNan .fp32)

/-- SOFTMAX_FWD of a row with scale s. -/
def softmaxFwd (k sc : Nat) (x : List Nat) : Stat × List Nat :=
  let sx := x.map (fun v => op32 .mul sc v)
  let m := max32 (if Config.rowMaxScaled then sx else x)
  let e := sx.map (fun v => exp32 (op32 .sub v m))
  let l := sum32 k e
  (⟨m, l⟩, e.map (fun v => op32 .div v l))

/-- SOFTMAX_BWD of a row. -/
def softmaxBwd (k sc : Nat) (st : Stat) (x dy : List Nat) : List Nat :=
  let y := x.map (fun v => op32 .div (exp32 (op32 .sub (op32 .mul sc v) st.a)) st.b)
  let dot := sum32 k (List.zipWith (fun a b => op32 .mul a b) dy y)
  List.zipWith (fun a b => op32 .mul (op32 .mul sc a) (op32 .sub b dot)) y dy

/-- The normalised elements of a row. -/
def normHat (st : Stat) (x : List Nat) : List Nat := x.map (fun v => op32 .mul (op32 .sub v st.a) st.b)

/-- Statistics of a normalised row: the mean, 0 in RMS mode, and 1 / √(var + ε). -/
def normStat (k : Nat) (rms : Bool) (eps : Nat) (x : List Nat) : Stat :=
  let mu := if rms then 0 else mean32 k x
  let dev := x.map (fun v => op32 .sub v mu)
  let sq := fun (l : List Nat) => mean32 (k + 1) (l.map (fun v => op32 .mul v v))
  let var := if rms || Config.varTwoPass k then sq dev else op32 .sub (sq x) (op32 .mul mu mu)
  ⟨mu, op32 .div 0x3F800000 (sqrt32 (op32 .add var eps))⟩

/-- NORM_FWD's outputs. -/
def normFwd (affine : Bool) (gamma beta : List Nat) (st : Stat) (x : List Nat) : List Nat :=
  let h := normHat st x
  if affine then List.zipWith (fun a b => op32 .add a b) (List.zipWith (fun g v => op32 .mul g v) gamma h) beta else h

/-- NORM_BWD's outputs. -/
def normBwd (k : Nat) (rms affine : Bool) (gamma : List Nat) (st : Stat) (x dy : List Nat) : List Nat :=
  let h := normHat st x
  let g := if affine then List.zipWith (fun a b => op32 .mul a b) gamma dy else dy
  let mg := mean32 k g
  let mgh := mean32 (k + 1) (List.zipWith (fun a b => op32 .mul a b) g h)
  List.zipWith (fun gj hj =>
    let t := if rms then gj else op32 .sub gj mg
    op32 .mul st.b (op32 .sub t (op32 .mul hj mgh))) g h

/-! ### The side memory (R191, R192) -/

def qkey (q : Fin 4) : QId := .row q

/-- HBM offset of a row's statistics in the backing array. -/
def State.statOff (s : State) (d : DieIx) (ctx layer row : Nat) : Nat :=
  s.rf d (rRowCtxBase ctx) 0 23 * 65536 + (layer * (s.rf d (rRowCtxGeom ctx) 16 16 * 1024) + row) * 8

def State.wins (s : State) (d : DieIx) (q : Fin 4) : List RowWin := (s.die d).rowWins[q]
def State.setWins (s : State) (d : DieIx) (q : Fin 4) (l : List RowWin) : State :=
  s.modDie d (fun x => { x with rowWins := x.rowWins.set q l })

def RowWin.is (w : RowWin) (ctx layer block : Nat) : Bool := decide (w.ctx = ctx ∧ w.layer = layer ∧ w.block = block)

/-- Write the valid rows of a window to the backing array. -/
def State.writeBack (s : State) (d : DieIx) (w : RowWin) : State :=
  ((List.range 1024).filter (fun i => bitAt w.valid i)).foldl (fun t i =>
    t.memWrite ⟨d, 0, false⟩ d 0 (t.statOff d w.ctx w.layer (1024 * w.block + i)) (leBytes 8 (SMap.get 0 w.stats i).toNat)
      (List.replicate 8 (bitAt w.bad i))) s

/-- A window filled from the backing array: all rows valid. -/
def State.fillWin (s : State) (d : DieIx) (job : BitVec 12) (ctx layer block : Nat) : RowWin × State :=
  let r := s.memRead ⟨d, job, false⟩ d 0 (s.statOff d ctx layer (1024 * block)) 8192
  let stats := (List.range 1024).foldl (fun m i => SMap.set 0 m i (BitVec.ofNat 64 (leNat (slice r.bytes (8 * i) 8)))) []
  let badBits := (List.range 1024).foldl (fun w i => setBit w i (anyAt r.poison (8 * i) 8)) (0 : BitVec 1024)
  (⟨ctx, layer, block, BitVec.allOnes 1024, stats, badBits, 0⟩, r.state)

/-- The least recently used window of a full side memory is written back and leaves. -/
def State.evict (s : State) (d : DieIx) (q : Fin 4) : State :=
  match s.wins d q with
  | [] => s
  | w :: ws =>
    if (w :: ws).length < 32 then s
    else
      let old := ws.foldl (fun a b => if b.used < a.used then b else a) w
      (s.writeBack d old).setWins d q ((w :: ws).filter (fun v => !v.is old.ctx old.layer old.block))

/-- Change the window of a block, which becomes the most recently used. -/
def State.modWin (s : State) (d : DieIx) (q : Fin 4) (ctx layer block : Nat) (f : RowWin → RowWin) : State :=
  (s.setWins d q ((s.wins d q).map (fun w =>
    if w.is ctx layer block then { f w with used := (s.die d).rowClock } else w))).modDie d (fun x => { x with rowClock := x.rowClock + 1 })

/-- Bind the window of a block if none is bound (R192): empty for a forward command, filled for a backward one. -/
def State.bindWin (s : State) (d : DieIx) (q : Fin 4) (job : BitVec 12) (ctx layer block : Nat) (fwd : Bool) : State :=
  if (s.wins d q).any (fun w => w.is ctx layer block) then s.modWin d q ctx layer block id
  else
    let s1 := (s.addSat d (rRowMiss q.val) 0 32 1).evict d q
    let f := if fwd then (⟨ctx, layer, block, 0, [], 0, 0⟩, s1) else s1.fillWin d job ctx layer block
    (f.2.setWins d q (f.2.wins d q ++ [f.1])).modWin d q ctx layer block id

def State.putStat (s : State) (d : DieIx) (q : Fin 4) (ctx layer row : Nat) (v : Stat) (poison : Bool) : State :=
  s.modWin d q ctx layer (row / 1024) (fun w =>
    { w with valid := setBit w.valid (row % 1024) true, stats := SMap.set 0 w.stats (row % 1024) v.word
             bad := setBit w.bad (row % 1024) poison })

/-- Statistics of a row and whether their word is poisoned. A row of a forward window that is not valid reads its backing
word (R192). -/
def State.getStat (s : State) (d : DieIx) (q : Fin 4) (job : BitVec 12) (ctx layer row : Nat) : Stat × Bool × State :=
  match (s.wins d q).find? (fun w => w.is ctx layer (row / 1024)) with
  | none => (⟨0, 0⟩, false, s)
  | some w =>
    if bitAt w.valid (row % 1024) then
      (statOf (SMap.get 0 w.stats (row % 1024)), bitAt w.bad (row % 1024), s.modWin d q ctx layer (row / 1024) id)
    else
      let r := s.memRead ⟨d, job, false⟩ d 0 (s.statOff d ctx layer row) 8
      (statOf (BitVec.ofNat 64 (leNat r.bytes)), r.poison.any id, r.state.modWin d q ctx layer (row / 1024) id)

/-- FLUSH and DROP: the windows of a context leave (R193). -/
def State.leaveWins (s : State) (d : DieIx) (q : Fin 4) (ctx : Nat) (back : Bool) : State :=
  let mine := (s.wins d q).filter (fun w => w.ctx == ctx)
  let s1 := if back then mine.foldl (fun t w => t.writeBack d w) s else s
  s1.setWins d q ((s1.wins d q).filter (fun w => w.ctx != ctx))

/-! ### Payloads (R193, R195) -/

def rX (x : Desc) : BoardAddr := dAddr x 24
def rDy (x : Desc) : BoardAddr := dAddr x 32
def rOut (x : Desc) : BoardAddr := dAddr x 40
def rParam (x : Desc) : BoardAddr := dAddr x 48
def rRow0 (x : Desc) : Nat := dn x 56 3
def rRows (x : Desc) : Nat := dn x 59 2
def rLen (x : Desc) : Nat := dn x 61 2
def rRms (x : Desc) : Bool := bitAt x 180
def rAffine (x : Desc) : Bool := bitAt x 181
def rScaled (x : Desc) : Bool := bitAt x 182

def isBwd (x : Desc) : Bool := decide (dKind x = 0x92 ∨ dKind x = 0x93)
def isNorm (x : Desc) : Bool := decide (dKind x = 0x91 ∨ dKind x = 0x93)
def usesParam (x : Desc) : Bool := isNorm x || rScaled x

/-- Bytes of the parameter block that a command reads before its rows. -/
def paramBytes (x : Desc) : Nat := if isNorm x then (if rAffine x then 16 + 8 * rLen x else 16) else if rScaled x then 4 else 0

/-- Whether a command adds to dγ and dβ. -/
def addsGrads (x : Desc) : Bool := decide (dKind x = 0x93) && rAffine x

/-- The encodings of the four row kinds: input and output formats. -/
def judgeRow (x : Desc) : Judged (Fmt × Fmt) :=
  match Fmt.ofCode (fld x (8 * 63) 4), Fmt.ofCode (fld x (8 * 63 + 4) 4) with
  | some inf, some ofm =>
    if inf.code > 6 ∨ ofm.code = 0 ∨ ofm.code > 6 ∨ !dAddrOk x 24 ∨ !dAddrOk x 32 ∨ !dAddrOk x 40 ∨ !dAddrOk x 48
        ∨ (!isBwd x ∧ dn x 32 8 ≠ 0) ∨ (!usesParam x ∧ dn x 48 8 ≠ 0) then .format
    else if rRows x = 0 ∨ rLen x = 0 then .noop
    else .work (inf, ofm)
  | _, _ => .format

/-- Address of byte k of the parameter block. -/
def paramAt (x : Desc) (k : Nat) : BoardAddr := BitVec.ofNat 52 ((rParam x).toNat + k)

/-- Blocks of addresses of a row command: base, pitch, rows, bytes of a row, and whether they are written. -/
def rowBlocks (x : Desc) (inf ofm : Fmt) : List (BoardAddr × Nat × Nat × Nat × Bool) :=
  let n := rRows x
  let ib := inf.rowBytes (rLen x)
  let ob := ofm.rowBytes (rLen x)
  [(rX x, ib, n, ib, false), (rOut x, ob, n, ob, true)]
    ++ (if isBwd x then [(rDy x, ob, n, ob, false)] else [])
    ++ (if usesParam x then [(rParam x, 0, 1, paramBytes x, false)] else [])
    ++ (if addsGrads x then [(paramAt x (16 + 8 * rLen x), 0, 1, 8 * rLen x, true)] else [])

/-- Whether the backing array of a command's own context reaches the service region: the Pelbex error log counts the attempt (R18). -/
def State.rowSvc (s : State) (d : DieIx) (x : Desc) : Bool :=
  s.bilOwned d (dCtx x) (dJob x) && decide (s.statOff d (dCtx x) (s.rf d (rRowCtxGeom (dCtx x)) 0 16) 0 > 0x7E00000000)

/-- Whether the context, its geometry and the backing array admit a command (R191, R195). -/
def State.rowCtxOk (s : State) (d : DieIx) (x : Desc) (rows : Nat) : Bool :=
  let c := dCtx x
  let k := s.rf d (rRowCtxGeom c) 16 16 * 1024
  let n := s.rf d (rRowCtxGeom c) 0 16
  s.bilOwned d c (dJob x) && decide (dLayer x < n) && decide (rows ≤ k) && decide (s.statOff d c n 0 ≤ 0x7E00000000)

/-- Whether the addresses of a row command are acceptable. -/
def State.rowAddrsOk (s : State) (d : DieIx) (x : Desc) (inf ofm : Fmt) : Bool :=
  (rowBlocks x inf ofm).all (fun b =>
    if b.2.2.2.2 then s.rowsWritable d (dJob x) b.1 b.2.1 b.2.2.1 b.2.2.2.1 (some (if b.1 = rOut x then ofm else .fp32))
    else s.rowsDecode d b.1 b.2.1 b.2.2.1 b.2.2.2.1)

/-! ### Running a row command -/

/-- FP32 elements of a fetched row, whether one was poisoned, and the flags of their conversion. -/
def row32 (f : Fmt) (n : Nat) (bs : List Byte) (ps : List Bool) : List Nat × Bool × BitVec 8 :=
  let es := decodeRow f n bs ps
  let c := es.map (fun e => if e.poison then (0, 0) else if f = .fp32 then (e.raw, 0) else conv32 e.val)
  (c.map (fun p => p.1), es.any (fun e => e.poison), c.foldl (fun a p => a ||| p.2) 0)

/-- The parameter block as a command uses it. -/
structure RowParam where
  head : Nat
  gamma : List Nat
  beta : List Nat
  poison : Bool

/-- The head is ε of a normalisation (R194) or the scale s of a softmax, which the model reads as FP32 at byte 0 of PARAM (DESIGN CHOICE,
log entry 71: R193 states neither its place nor its format). -/
def rowParam (x : Desc) (bs : List Byte) (ps : List Bool) : RowParam :=
  let w := fun (k : Nat) => leNat (slice bs k 4)
  let n := rLen x
  ⟨if isNorm x || rScaled x then w 0 else 0x3F800000, (List.range n).map (fun j => w (16 + 4 * j)),
    (List.range n).map (fun j => w (16 + 4 * n + 4 * j)), ps.any id⟩

/-- Partial sums Σ dy·x̂ and Σ dy, and whether they are poisoned. -/
structure GradSums where
  dg : List Nat
  db : List Nat
  poison : Bool

/-- What a row command collects: the state, output rows, sums, flags, statuses. -/
structure RowAcc where
  s : State
  gen : Gen
  out : List (List Byte × List Bool)
  sums : GradSums
  flags : BitVec 8
  stats : List Nat

/-- Values of one row: statistics to write (forward), outputs, contributions to the sums. -/
structure RowVals where
  stat : Stat
  out : List Nat
  dg : List Nat
  db : List Nat

/-- Compute one row; a NaN or an infinity in it makes all of it NaN (R195). -/
def rowVals (x : Desc) (k : Nat) (p : RowParam) (st : Stat) (xs dy : List Nat) : RowVals :=
  let n := xs.length
  if xs.any special32 ∨ dy.any special32 then ⟨nanStat, nanRow n, nanRow n, nanRow n⟩
  else if dKind x = 0x90 then
    let o := softmaxFwd k p.head xs
    ⟨o.1, o.2, [], []⟩
  else if dKind x = 0x91 then
    let t := normStat k (rRms x) p.head xs
    ⟨t, normFwd (rAffine x) p.gamma p.beta t xs, [], []⟩
  else if dKind x = 0x92 then ⟨st, softmaxBwd k p.head st xs dy, [], []⟩
  else
    let h := normHat st xs
    ⟨st, normBwd k (rRms x) (rAffine x) p.gamma st xs dy, List.zipWith (fun a b => op32 .mul a b) dy h, dy⟩

/-- One row of a command. Under RND = SR each of its outputs is a free one of the two neighbours: R62 item 4 lets a rounding field that
selects SR round stochastically, R63 gives the row engine no generator and lets no other unit do so. The free choice holds what either
reading gives, SR as well as a rounding that is not stochastic, and it advances no generator (DESIGN CHOICE, log entry 70). -/
def RowAcc.step (a : RowAcc) (d : DieIx) (q : Fin 4) (x : Desc) (inf ofm : Fmt) (p : RowParam) (row : Nat)
    (xb dyb : List Byte × List Bool) : RowAcc :=
  let ctx := dCtx x
  let job := dJob x
  let fwd := !isBwd x
  let n := rLen x
  let xs := row32 inf n xb.1 xb.2
  let dy : List Nat × Bool × BitVec 8 := if fwd then ([], false, 0) else row32 ofm n dyb.1 dyb.2
  let s1 := a.s.bindWin d q job ctx (dLayer x) (row / 1024) fwd
  let st := if fwd then (⟨0, 0⟩, false, s1) else s1.getStat d q job ctx (dLayer x) row
  let bad := xs.2.1 || dy.2.1 || st.2.1 || p.poison
  let v := rowVals x (4 * st.2.2.draws) p st.1 xs.1 dy.1
  let s2 := if fwd then st.2.2.putStat d q ctx (dLayer x) row (if bad then ⟨0, 0⟩ else v.stat) bad else st.2.2
  let es := v.out.map (fun b => (⟨b, decodeFloat .fp32 b, bad⟩ : Elem))
  let o := if ofm = .fp32 then encodeElems .fp32 .fp32 .rne es a.gen else encodeRow ofm (rndOf (dRnd x)) none es a.gen
  { s := s2.drawFree, gen := o.gen, out := a.out ++ [(o.bytes, o.poison)]
    sums := ⟨List.zipWith (fun u w => op32 .add u w) a.sums.dg v.dg, List.zipWith (fun u w => op32 .add u w) a.sums.db v.db,
      a.sums.poison || bad⟩
    flags := a.flags ||| xs.2.2 ||| dy.2.2 ||| o.flags, stats := a.stats ++ (if bad then [stPoison] else []) ++ rowStats ofm o }

/-- The rows of a command, in ascending order. -/
def RowAcc.run (d : DieIx) (q : Fin 4) (x : Desc) (inf ofm : Fmt) (p : RowParam) :
    Nat → List (List Byte × List Bool) → List (List Byte × List Bool) → RowAcc → RowAcc
  | _, [], _, a => a
  | row, xb :: xs, dys, a => RowAcc.run d q x inf ofm p (row + 1) xs (dys.drop 1) (a.step d q x inf ofm p row xb (dys.headD ([], [])))

/-- Whether dγ and dβ lie in an open bucket of this module that takes them (R194, R199). -/
def State.gradsBucket (s : State) (x : Desc) : Bool :=
  let l := locOf (paramAt x (16 + 8 * rLen x))
  decide (l.slot = s.slot) && decide (l.region = 0) &&
    (match s.bucketHit (dieIx l.die) (dJob x) l.off (8 * rLen x) (some .fp32) with
     | .inside _ => true
     | _ => false)

/-- The bytes that dγ and dβ take: the sums for a bucket to add, else old + sum by RNE. -/
def gradBytes (n : Nat) (g : GradSums) (old : Option (List Byte × List Bool)) : List Byte × List Bool :=
  let sums := g.dg ++ g.db
  match old with
  | none => (sums.flatMap (leBytes 4), List.replicate (8 * n) g.poison)
  | some o =>
    let word := fun (k : Nat) => leNat (slice o.1 (4 * k) 4)
    (((sums.zipIdx).map (fun p => leBytes 4 (op32 .add (word p.2) p.1))).flatten,
      ((List.range (2 * n)).map (fun k => List.replicate 4 (g.poison || anyAt o.2 (4 * k) 4))).flatten)

/-- The rows are computed and written; the generator made here stands for the draws of RND = SR (DESIGN CHOICE, log entry 70). -/
def State.rowWork (s : State) (d : DieIx) (q : Fin 4) (r : Running) (inf ofm : Fmt) (l : List (List Byte × List Bool)) : State :=
  let x := r.desc
  let n := rLen x
  let m := rRows x
  let p := rowParam x (l.headD ([], [])).1 (l.headD ([], [])).2
  let rest := if usesParam x then l.drop 1 else l
  let a := RowAcc.run d q x inf ofm p (rRow0 x) (rest.take m) (if isBwd x then (rest.drop m).take m else [])
    ⟨s, ⟨10000 + s.draws, 0, false, 0⟩, [], ⟨List.replicate n 0, List.replicate n 0, false⟩, r.flags, r.stats⟩
  let s1 := (a.s.dropReads d (qkey q) r).putAll d (qkey q) r ((a.out.zipIdx).map (fun e =>
    (BitVec.ofNat 52 (rowAddr (rOut x) (ofm.rowBytes n) e.2), e.1.1, e.1.2)))
  let g := gradBytes n a.sums (if s.gradsBucket x then none else some (rest.drop (if isBwd x then 2 * m else m) |>.headD ([], [])))
  let s2 := if addsGrads x then s1.put d (qkey q) r (paramAt x (16 + 8 * n)) g.1 g.2 else s1
  s2.settle d (qkey q) { r with flags := a.flags, stats := a.stats ++ (if addsGrads x && g.2.any id then [stPoison] else []) }

/-- The places that a row command reads, in order. -/
def rowReads (x : Desc) (inf ofm : Fmt) (bucket : Bool) : List (BoardAddr × Nat) :=
  (if usesParam x then [(rParam x, paramBytes x)] else [])
    ++ rowPlaces (rX x) (inf.rowBytes (rLen x)) (rRows x) (inf.rowBytes (rLen x))
    ++ (if isBwd x then rowPlaces (rDy x) (ofm.rowBytes (rLen x)) (rRows x) (ofm.rowBytes (rLen x)) else [])
    ++ (if addsGrads x && !bucket then [(paramAt x (16 + 8 * rLen x), 8 * rLen x)] else [])

def State.rowRun (s : State) (d : DieIx) (q : Fin 4) (r : Running) : State :=
  let x := r.desc
  let u := qkey q
  match judgeRow x with
  | .format => s.stopEarly d u r stFormat
  | .noop => if s.unitFenced d u (dKind x) then s.stopEarly d u r stFenced else s.finish d u r Result.ok
  | .work (inf, ofm) =>
    if !s.rowCtxOk d x (rRow0 x + rRows x) then (s.countService (s.rowSvc d x)).stopEarly d u r stFormat
    else if (rowBlocks x inf ofm).any (fun b => rowsService b.1 b.2.1 b.2.2.1 b.2.2.2.1) then (s.countService true).stopEarly d u r stFormat
    else if !s.rowAddrsOk d x inf ofm then s.stopEarly d u r stFormat
    else if s.unitFenced d u (dKind x) ∨ s.testHold d then s.stopEarly d u r stFenced
    else if !s.hbmServes d then s
    else
      match s.fetchAll d u r (rowReads x inf ofm (s.gradsBucket x)) with
      | .stop st => s.stopEarly d u r st
      | .wait t => t
      | .data l t => t.rowWork d q r inf ofm l

/-- SOFTMAX_FWD (R194). -/
def execSoftmaxFwd (d : DieIx) (q : Fin 4) (s : State) : Host.Outcome State Fault Refusal :=
  onDie d s (fun t => withEngine t d (qkey q) 0x90 (t.rowRun d q))

/-- NORM_FWD (R194). -/
def execNormFwd (d : DieIx) (q : Fin 4) (s : State) : Host.Outcome State Fault Refusal :=
  onDie d s (fun t => withEngine t d (qkey q) 0x91 (t.rowRun d q))

/-- SOFTMAX_BWD (R194). -/
def execSoftmaxBwd (d : DieIx) (q : Fin 4) (s : State) : Host.Outcome State Fault Refusal :=
  onDie d s (fun t => withEngine t d (qkey q) 0x92 (t.rowRun d q))

/-- NORM_BWD (R194). -/
def execNormBwd (d : DieIx) (q : Fin 4) (s : State) : Host.Outcome State Fault Refusal :=
  onDie d s (fun t => withEngine t d (qkey q) 0x93 (t.rowRun d q))

/-- FLUSH and DROP: a zero payload, an admitted context, then the windows leave. -/
def State.leaveRun (s : State) (d : DieIx) (q : Fin 4) (back : Bool) (r : Running) : State :=
  let x := r.desc
  let u := qkey q
  if dn x 24 40 ≠ 0 then s.stopEarly d u r stFormat
  else if !s.rowCtxOk d x 0 then (s.countService (s.rowSvc d x)).stopEarly d u r stFormat
  else if s.unitFenced d u (dKind x) ∨ (back ∧ s.testHold d) then s.stopEarly d u r stFenced
  else if back ∧ !s.hbmServes d then s
  else (s.leaveWins d q (dCtx x) back).finish d u r Result.ok

/-- FLUSH (R193). -/
def execFlush (d : DieIx) (q : Fin 4) (s : State) : Host.Outcome State Fault Refusal :=
  onDie d s (fun t => withEngine t d (qkey q) 0x94 (t.leaveRun d q true))

/-- DROP (R193). -/
def execDrop (d : DieIx) (q : Fin 4) (s : State) : Host.Outcome State Fault Refusal :=
  onDie d s (fun t => withEngine t d (qkey q) 0x95 (t.leaveRun d q false))

end Sys2Proof.Machine
end

