-- ==== Sys2Proof/Machine/Update.lean ====
section
/-! DEFINITION. The update engine: gradient buckets and UPDATE (R198 to R206). -/

namespace Sys2Proof.Machine

/-! ### Buckets (R198, R200) -/

def bktNum (x : Desc) : Nat := dn x 42 2

/-- Write zero to a range of a die's HBM: its cells and marks leave. -/
def State.zeroRange (s : State) (d : DieIx) (off n : Nat) : State :=
  let key := memKey d 0 off
  let inside := fun (k : Nat) => decide (key ≤ k) && decide (k < key + n)
  ({ s with mem := ⟨s.mem.cells.filter (fun p => !inside p.1), s.mem.marks.filter (fun p => !inside p.1)⟩ }
    |>.modDie d (fun x => { x with writeBacks := x.writeBacks.filter (fun k => !inside k) })).hbmCount d 0 off n rHbmWr

def State.openRun (s : State) (d : DieIx) (r : Running) : State :=
  let x := r.desc
  let base := dAddr x 24
  let n := dn x 32 8
  let l := locOf base
  match Fmt.ofCode (fld x (8 * 40) 4) with
  | none => s.stopEarly d .upd r stFormat
  | some f =>
    if !dAddrOk x 24 ∨ fld x (8 * 40 + 4) 12 ≠ 0 ∨ dn x 44 20 ≠ 0 ∨ (f ≠ .fp32 ∧ f ≠ .wf16) ∨ base.toNat % 64 ≠ 0 ∨ n % 64 ≠ 0 then
      s.stopEarly d .upd r stFormat
    else if n = 0 then (if s.unitFenced d .upd 0x71 then s.stopEarly d .upd r stFenced else s.finish d .upd r Result.ok)
    else if rowsService base 0 1 n then (s.countService true).stopEarly d .upd r stFormat
    else if !s.rowsDecode d base 0 1 n ∨ !s.isLocal d base ∨ l.region ≠ 0 ∨ s.storeHit d l.off n ∨ (s.die d).buckets.length ≥ 64
        ∨ (s.die d).buckets.any (fun b => decide (b.job = dJob x ∧ b.num = bktNum x) || overlaps l.off n b.base b.bytes) then
      s.stopEarly d .upd r stFormat
    else if s.unitFenced d .upd 0x71 ∨ s.testHold d then s.stopEarly d .upd r stFenced
    else if !s.hbmServes d then s
    else
      ((s.zeroRange d l.off n).modDie d (fun y =>
        { y with buckets := y.buckets ++ [⟨dJob x, bktNum x, l.off, n, f, false, 0, none⟩] })).finish d .upd r Result.ok

/-- BUCKET_OPEN (R198). -/
def execBucketOpen (d : DieIx) (s : State) : Host.Outcome State Fault Refusal :=
  onDie d s (fun t => withEngine t d .upd 0x71 (t.openRun d))

/-- Rows of destination memory that a command writes: base, pitch and number. -/
def dstBlocks (x : Desc) : List (BoardAddr × Nat × Nat) :=
  let k := dKind x
  let copy : List (BoardAddr × Nat × Nat) := [(cDst x, cDstPitch x, cRows x)]
  if k = 0x10 then (match judgeCopy x with
    | .work _ => copy
    | _ => [])
  else if k = 0x11 then (match judgeFill x with
    | .work _ => copy
    | _ => [])
  else if (k = 0x21 ∨ k = 0x22) ∧ mAcc x ≥ 2 then [(mOut x, mOutPitch x, mRows x)]
  else if k = 0x81 then [(popDst x, 0, 1)]
  else if k = 0x83 then (match judgeRechunk x with
    | .work f => [(cDst x, cDstPitch x, (layoutShape (!rechunkBack x) f.2 (cRows x) (cLen x)).1)]
    | _ => [])
  else if 0x90 ≤ k ∧ k ≤ 0x93 then (match judgeRow x with
    | .work f => ((rowBlocks x f.1 f.2).filter (fun b => b.2.2.2.2)).map (fun b => (b.1, b.2.1, b.2.2.1))
    | _ => [])
  else []

/-- Whether a board address lies in a bucket of die d. -/
def State.inBucket (s : State) (d : DieIx) (b : Bucket) (a : BoardAddr) : Bool :=
  s.isLocal d a && decide ((locOf a).region = 0 ∧ b.base ≤ (locOf a).off ∧ (locOf a).off < b.base + b.bytes)

/-- Whether a command of die e writes into a bucket of its job on die d: by the rows of its destination, or by a write that is on its
way, whatever the command (a POP, a gradient of the Crucible). -/
def State.intoBucket (s : State) (d e : DieIx) (q : QId) (b : Bucket) (r : Running) : Bool :=
  decide (dJob r.desc = b.job) &&
    ((dstBlocks r.desc).any (fun p => (List.range p.2.2).any (fun i => s.inBucket d b (BitVec.ofNat 52 (rowAddr p.1 p.2.1 i))))
      || (s.reqsOf e q r).any (fun o => o.write && s.inBucket d b o.addr))

/-- The running commands of the module that write into a bucket. -/
def State.bucketWriters (s : State) (d : DieIx) (b : Bucket) : List (DieIx × QId × Nat) :=
  (List.finRange 8).flatMap (fun e => allQueues.flatMap (fun q =>
    ((s.queue e q).running.filter (fun r => s.intoBucket d e q b r)).map (fun r => (e, q, r.ident))))

/-- The writers that a close still awaits: those that ran when it arrived and have not completed (R200). -/
def State.closeAwaits (s : State) (d : DieIx) (r : Running) (b : Bucket) : List (DieIx × QId × Nat) :=
  let noted := match b.closing with
    | some c => if c.1 = r.ident then c.2 else s.bucketWriters d b
    | none => s.bucketWriters d b
  noted.filter (fun w => (s.queue w.1 w.2.1).running.any (fun y => decide (y.ident = w.2.2)))

def State.closeRun (s : State) (d : DieIx) (r : Running) : State :=
  let x := r.desc
  match (s.die d).buckets.find? (fun b => decide (b.job = dJob x ∧ b.num = bktNum x)) with
  | none => s.stopEarly d .upd r stFormat
  | some b =>
    if dn x 24 18 ≠ 0 ∨ dn x 44 20 ≠ 0 then s.stopEarly d .upd r stFormat
    else if s.unitFenced d .upd 0x72 then s.stopEarly d .upd r stFenced
    else if !(s.closeAwaits d r b).isEmpty then
      s.modDie d (fun y => { y with buckets := y.buckets.map (fun z =>
        if z.job = b.job ∧ z.num = b.num then { z with closing := some (r.ident, s.closeAwaits d r b) } else z) })
    else
      let poisoned := (s.marksIn 0 (memKey d 0 b.base) b.bytes).any (fun p => bad true p.2)
      (s.modDie d (fun y => { y with buckets := y.buckets.filter (fun z => !decide (z.job = b.job ∧ z.num = b.num)) })).finish d .upd r
        ⟨(if poisoned then [stPoison] else []) ++ (if b.sat then [stSaturated] else []), 0, 0, BitVec.ofNat 32 b.lines⟩

/-- BUCKET_CLOSE (R200). -/
def execBucketClose (d : DieIx) (s : State) : Host.Outcome State Fault Refusal :=
  onDie d s (fun t => withEngine t d .upd 0x72 (t.closeRun d))

/-! ### Update records (R202) -/

/-- The fields of an update record. -/
structure UpdRec where
  grad : Nat
  master : Nat
  mom1 : Nat
  mom2 : Nat
  fwd : Nat
  trn : Nat
  stride : Nat
  mask : Nat
  k : Nat
  n : Nat
  gf : Option Fmt
  mf : Option Fmt
  vf : Option Fmt
  cf : Option Fmt
  opt : Nat
  trnEn : Bool
  fwdEn : Bool
  maskRows : Bool
  maskEn : Bool
  rsv : Bool
  gscale : Nat
  lr : Nat
  beta1 : Nat
  beta2 : Nat
  eps : Nat
  wd : Nat
  c1 : Nat
  c2 : Nat
deriving DecidableEq, Repr

def updRecOf (b : List Byte) : UpdRec :=
  let w := fun (k n : Nat) => leNat (slice b k n)
  { grad := w 0 8, master := w 8 8, mom1 := w 16 8, mom2 := w 24 8, fwd := w 32 8, trn := w 40 8, stride := w 48 8, mask := w 56 8
    k := w 64 4, n := w 68 4, gf := Fmt.ofCode (w 72 1 / 16), mf := Fmt.ofCode (w 72 1 % 16), vf := Fmt.ofCode (w 73 1 / 16)
    cf := Fmt.ofCode (w 73 1 % 16), opt := w 74 1 / 16, trnEn := bitAt (byteAt b 74) 3, fwdEn := bitAt (byteAt b 74) 2
    maskRows := bitAt (byteAt b 74) 1, maskEn := bitAt (byteAt b 74) 0, rsv := decide (w 75 1 ≠ 0 ∨ w 108 20 ≠ 0)
    gscale := w 76 4, lr := w 80 4, beta1 := w 84 4, beta2 := w 88 4, eps := w 92 4, wd := w 96 4, c1 := w 100 4, c2 := w 104 4 }

def UpdRec.copies (u : UpdRec) : Bool := u.fwdEn || u.trnEn

/-- Whether the fields that the command uses are in range (R206). -/
def UpdRec.fieldsOk (u : UpdRec) : Bool :=
  !u.rsv && decide (u.opt ≤ 2) && (u.gf == some .fp32 || u.gf == some .wf16 || u.gf == some .wb8)
    && (u.mf == some .fp32 || u.mf == some .wf16) && (decide (u.opt = 0) || u.vf == some .fp32 || u.vf == some .wf16)
    && (!u.copies || (match u.cf with
        | some f => decide (2 ≤ f.code ∧ f.code ≤ 6)
        | none => false))
    && [u.grad, u.master, u.mom1, u.mom2, u.fwd, u.trn, u.mask].all (fun a => decide (a < 2 ^ 52))

/-- Whether the band of rows is legal (R205, R206). -/
def UpdRec.bandOk (u : UpdRec) (row0 rows : Nat) : Bool :=
  decide (row0 + rows ≤ u.k) && (decide (rows % 128 = 0) || decide (row0 + rows = u.k))

/-! ### Places -/

/-- A tensor's address in a set. -/
def UpdRec.setAddr (u : UpdRec) (base set : Nat) : Nat := base + set * u.stride

/-- Rows of a row-major tensor as places. -/
def bandPlaces (base : Nat) (f : Fmt) (n row0 rows : Nat) : List (BoardAddr × Nat) :=
  (List.range rows).map (fun i => (BitVec.ofNat 52 (base + (row0 + i) * f.rowBytes n), f.rowBytes n))

/-- The forward chunks of a band: panel by panel, column by column (R201). -/
def fwdPlaces (base : Nat) (f : Fmt) (n row0 rows : Nat) : List (BoardAddr × Nat) :=
  (List.range ((rows + 127) / 128)).flatMap (fun p => (List.range n).map (fun c =>
    (BitVec.ofNat 52 (base + (row0 / 128 + p) * n * chunkBytes f + c * chunkBytes f), chunkBytes f)))

/-- The transposed chunks of a band: row by row, panel by panel. -/
def trnPlaces (base : Nat) (f : Fmt) (k n row0 rows : Nat) : List (BoardAddr × Nat) :=
  (List.range rows).flatMap (fun i => (List.range ((n + 127) / 128)).map (fun p =>
    (BitVec.ofNat 52 (base + p * k * chunkBytes f + (row0 + i) * chunkBytes f), chunkBytes f)))

def UpdRec.maskBytes (u : UpdRec) : Nat :=
  if !u.maskEn then 0 else ((if u.maskRows then u.k else (u.k + 127) / 128 * ((u.n + 127) / 128)) + 7) / 8

/-- State tensors in use: base and format. -/
def UpdRec.tensors (u : UpdRec) : List (Nat × Fmt) :=
  [(u.master, u.mf.getD .fp32)] ++ (if u.opt ≥ 1 then [(u.mom1, u.vf.getD .fp32)] else [])
    ++ (if u.opt ≥ 2 then [(u.mom2, u.vf.getD .fp32)] else [])

/-- Places of a set's copies. -/
def UpdRec.copyPlaces (u : UpdRec) (set row0 rows : Nat) : List (BoardAddr × Nat) :=
  let f := u.cf.getD .wf16
  (if u.fwdEn then fwdPlaces (u.setAddr u.fwd set) f u.n row0 rows else [])
    ++ (if u.trnEn then trnPlaces (u.setAddr u.trn set) f u.k u.n row0 rows else [])

/-- Spans of 128 columns of a row. -/
def UpdRec.spans (u : UpdRec) : Nat := (u.n + 127) / 128

/-- Bytes of the gradient in span j of a row. -/
def UpdRec.gradBytes (u : UpdRec) (j : Nat) : Nat := (u.gf.getD .fp32).rowBytes (min 128 (u.n - 128 * j))

/-- The gradient, row by row and span by span of 128 columns; nothing is read of a frozen span (R204). -/
def UpdRec.gradPlaces (u : UpdRec) (row0 rows : Nat) (frozen : Nat → Nat → Bool) : List (BoardAddr × Nat) :=
  let f := u.gf.getD .fp32
  (List.range rows).flatMap (fun i => (List.range u.spans).map (fun j =>
    (BitVec.ofNat 52 (u.grad + (row0 + i) * f.rowBytes u.n + f.rowBytes (128 * j)), if frozen (row0 + i) j then 0 else u.gradBytes j)))

/-- The gradient rows from what was read of their spans, zero where a frozen span was not read. -/
def UpdRec.gradRows (u : UpdRec) (rows : Nat) (l : List (List Byte × List Bool)) : List (List Byte × List Bool) :=
  (List.range rows).map (fun i =>
    let sp := (List.range u.spans).map (fun j => (u.gradBytes j, l.getD (i * u.spans + j) ([], [])))
    (sp.flatMap (fun p => padTo p.1 0 p.2.1), sp.flatMap (fun p => padTo p.1 false p.2.2)))

/-- Everything the command reads of a set: the gradient, state rows, and with a mask the copies. -/
def UpdRec.reads (u : UpdRec) (set row0 rows : Nat) (frozen : Nat → Nat → Bool) : List (BoardAddr × Nat) :=
  u.gradPlaces row0 rows frozen
    ++ u.tensors.flatMap (fun t => bandPlaces (u.setAddr t.1 set) t.2 u.n row0 rows)
    ++ (if u.maskEn then u.copyPlaces set row0 rows else [])

/-- Everything the command writes, in a set. -/
def UpdRec.writes (u : UpdRec) (set row0 rows : Nat) : List (BoardAddr × Nat × Fmt) :=
  u.tensors.flatMap (fun t => (bandPlaces (u.setAddr t.1 set) t.2 u.n row0 rows).map (fun p => (p.1, p.2, t.2)))
    ++ (u.copyPlaces set row0 rows).map (fun p => (p.1, p.2, u.cf.getD .wf16))

/-- Whether addresses of the command stay within 52 bits. -/
def UpdRec.spanOk (u : UpdRec) (row0 rows : Nat) : Bool :=
  let last := row0 + rows
  let top := fun (b : Nat) (f : Fmt) => decide (b + u.stride + last * f.rowBytes u.n < 2 ^ 52)
  let cb := chunkBytes (u.cf.getD .wf16)
  u.tensors.all (fun t => top t.1 t.2) && decide (u.grad + last * (u.gf.getD .fp32).rowBytes u.n < 2 ^ 52)
    && (!u.fwdEn || decide (u.fwd + u.stride + (last + 127) / 128 * u.n * cb < 2 ^ 52))
    && (!u.trnEn || decide (u.trn + u.stride + (u.n + 127) / 128 * u.k * cb < 2 ^ 52))
    && decide (u.mask + u.maskBytes < 2 ^ 52)

/-! ### The optimiser (R203) -/

/-- New weight and moments of one element in FP32 with RNE; an exactly zero sum is +0 (R60) and a NaN the canonical one (R49; DEDUCED, log
entry 134). -/
structure UpdVals where
  w : Nat
  m : Nat
  v : Nat
deriving DecidableEq, Repr

def optimise (u : UpdRec) (grad w m v : Nat) : UpdVals :=
  let mul := fun a b => op32z .mul a b
  let add := fun a b => op32z .add a b
  let sub := fun a b => op32z .sub a b
  let one := 0x3F800000
  let g := mul u.gscale grad
  let dec := mul u.wd w
  if u.opt = 0 then ⟨sub w (mul u.lr (add g dec)), m, v⟩
  else if u.opt = 1 then
    let m1 := add (mul u.beta1 m) g
    ⟨sub w (mul u.lr (add m1 dec)), m1, v⟩
  else
    let m1 := add (mul u.beta1 m) (mul (sub one u.beta1) g)
    let v1 := add (mul u.beta2 v) (mul (sub one u.beta2) (mul g g))
    let q := op32 .div (mul u.c1 m1) (add (sqrt32 (mul u.c2 v1)) u.eps)
    ⟨sub w (mul u.lr (add q dec)), m1, v1⟩

/-- One element on its way out: its bits in a format, its poison, and whether it is frozen. -/
structure UpdOut where
  bits : Nat
  bad : Bool
  frozen : Bool
deriving DecidableEq, Repr

/-- The outputs of one element: master, moments, and the generator. -/
structure ElemOut where
  w : UpdOut
  m : UpdOut
  v : UpdOut
  flags : BitVec 8
  gen : Gen

/-- FP32 bits of an operand element. -/
def in32 (f : Fmt) (e : Elem) : Nat := if f = .fp32 then e.raw else (conv32 e.val).1

/-- An FP32 result written in a state format. -/
def stateEnc (f : Fmt) (mode : Rnd) (b : Nat) (g : Gen) : Enc := if f = .fp32 then ⟨b, 0, g⟩ else encodeFloat f mode (decodeFloat .fp32 b) g

/-- One element (R203, R204): a frozen one is copied; a poisoned input poisons the outputs that it feeds (R59, R206). -/
def updElem (u : UpdRec) (frozen maskBad : Bool) (grad w m v : Elem) (g : Gen) : ElemOut :=
  let mf := u.mf.getD .fp32
  let vf := u.vf.getD .fp32
  if frozen then ⟨⟨w.raw, w.poison, true⟩, ⟨m.raw, m.poison, true⟩, ⟨v.raw, v.poison, true⟩, 0, g⟩
  else
    let src := maskBad || grad.poison
    let mBad := decide (u.opt ≥ 1) && (src || m.poison)
    let vBad := decide (u.opt ≥ 2) && (src || v.poison)
    let wBad := src || w.poison || mBad || vBad
    let gf := u.gf.getD .fp32
    let o := optimise u (in32 gf grad) (in32 mf w) (in32 vf m) (in32 vf v)
    let ew := if wBad then ⟨0, 0, g⟩ else stateEnc mf .sr o.w g
    let em := if mBad then ⟨0, 0, g⟩ else stateEnc vf .rne o.m ew.gen
    let ev := if vBad then ⟨0, 0, g⟩ else stateEnc vf .rne o.v ew.gen
    let gfl := if gf = .fp32 ∨ grad.poison then 0 else (conv32 grad.val).2
    ⟨⟨ew.bits, wBad, false⟩, ⟨em.bits, mBad, false⟩, ⟨ev.bits, vBad, false⟩, gfl ||| ew.flags ||| em.flags ||| ev.flags, ew.gen⟩

/-- The elements of one row. -/
def updElems (u : UpdRec) : List (Bool × Bool) → List Elem → List Elem → List Elem → List Elem → Gen → List ElemOut × Gen
  | fz :: fzs, gr, w, m, v, g =>
    let o := updElem u fz.1 fz.2 (gr.headD zeroElem) (w.headD zeroElem) (m.headD zeroElem) (v.headD zeroElem) g
    let r := updElems u fzs (gr.drop 1) (w.drop 1) (m.drop 1) (v.drop 1) o.gen
    (o :: r.1, r.2)
  | [], _, _, _, _, g => ([], g)

/-- Mask of a row: for each element whether it is frozen, and whether its mask word is poisoned; a poisoned bit counts as
set (R204). -/
def UpdRec.rowMask (u : UpdRec) (mb : List Byte × List Bool) (row : Nat) : List (Bool × Bool) :=
  (List.range u.n).map (fun c =>
    if !u.maskEn then (false, false)
    else
      let i := if u.maskRows then row else row / 128 * ((u.n + 127) / 128) + c / 128
      let p := mb.2.getD (i / 8) false
      (!(bitAt (byteAt mb.1 (i / 8)) (i % 8) || p), p))

/-- A row of a state tensor as bytes and poison marks. -/
def stateRow (f : Fmt) (l : List UpdOut) : List Byte × List Bool :=
  (l.flatMap (fun e => leBytes f.elemBytes e.bits), l.flatMap (fun e => List.replicate f.elemBytes e.bad))

/-- Put old bytes in the place of new ones. -/
def spliceOld {α : Type} (dflt : α) (new old : List α) (keep : Nat → Bool) : List α :=
  (List.range new.length).map (fun i => if keep i then old.getD i dflt else new.getD i dflt)

/-- Block of a byte of a 128-element chunk of a block format. -/
def chunkBlock (f : Fmt) (i : Nat) : Nat := if i < 4 then i else (i - 4) / (if f = .wb6 then 24 else 32)

/-- A copy chunk (R201, R204): master values by RNE with computed scales; frozen elements keep the old copy's bytes, in a
block format only where the whole block is frozen. -/
def copyChunk (mf cf : Fmt) (l : List UpdOut) (old : List Byte × List Bool) : RowOut :=
  let whole := fun (b : Nat) => let k := (l.drop (32 * b)).take 32; !k.isEmpty && k.all (fun e => e.frozen)
  let es := (l.zipIdx).map (fun p =>
    if (if cf.isBlock then whole (p.2 / 32) else p.1.frozen) then zeroElem else (⟨p.1.bits, decodeFloat mf p.1.bits, p.1.bad⟩ : Elem))
  let o := encodeElems mf cf .rne (padTo 128 zeroElem es) noGen
  if l.any (fun e => e.frozen) then
    let keep := fun (i : Nat) => if cf.isBlock then whole (chunkBlock cf i) else (l.getD (i / cf.elemBytes) ⟨0, false, false⟩).frozen
    { o with bytes := spliceOld 0 o.bytes old.1 keep, poison := spliceOld false o.poison old.2 keep }
  else o

/-- The k-th columns' chunks of a panel of rows, or the chunks of one row. -/
def fwdChunk (rows : List (List UpdOut)) (c : Nat) : List UpdOut := rows.map (fun r => r.getD c ⟨0, false, false⟩)

/-- The chunks of a band in the order of copyPlaces. -/
def UpdRec.chunks (u : UpdRec) (rows : List (List UpdOut)) : List (List UpdOut) :=
  (if u.fwdEn then (List.range ((rows.length + 127) / 128)).flatMap (fun p =>
      (List.range u.n).map (fun c => fwdChunk ((rows.drop (128 * p)).take 128) c)) else [])
    ++ (if u.trnEn then rows.flatMap (fun r => (List.range ((u.n + 127) / 128)).map (fun p => (r.drop (128 * p)).take 128)) else [])

/-! ### UPDATE (R202 to R206) -/

/-- Split a list at given lengths. -/
def cutAt {α : Type} : List Nat → List α → List (List α)
  | [], _ => []
  | n :: ns, l => l.take n :: cutAt ns (l.drop n)

/-- Rows one after another. -/
def updRows (u : UpdRec) (mb : List Byte × List Bool) :
    Nat → List (List Byte × List Bool) → List (List Byte × List Bool) → List (List Byte × List Bool) → List (List Byte × List Bool) →
      Gen → List (List ElemOut) × Gen
  | row, gr :: grs, ws, ms, vs, g =>
    let dec := fun (f : Fmt) (p : List Byte × List Bool) => decodeRow f u.n p.1 p.2
    let w := ws.headD ([], [])
    let none' : List Elem := []
    let o := updElems u (u.rowMask mb row) (dec (u.gf.getD .fp32) gr) (dec (u.mf.getD .fp32) w)
      (if u.opt ≥ 1 then dec (u.vf.getD .fp32) (ms.headD ([], [])) else none')
      (if u.opt ≥ 2 then dec (u.vf.getD .fp32) (vs.headD ([], [])) else none') g
    let r := updRows u mb (row + 1) grs (ws.drop 1) (ms.drop 1) (vs.drop 1) o.2
    (o.1 :: r.1, r.2)
  | _, [], _, _, _, g => ([], g)

/-- Compute and write the band into the inactive set. -/
def State.updWork (s : State) (d : DieIx) (r : Running) (u : UpdRec) (inactive row0 rows : Nat) (mb : List Byte × List Bool)
    (l : List (List Byte × List Bool)) : State :=
  let m1 := if u.opt ≥ 1 then rows else 0
  let m2 := if u.opt ≥ 2 then rows else 0
  let ng := rows * u.spans
  let parts := cutAt [ng, rows, m1, m2] l
  let old := l.drop (ng + rows + m1 + m2)
  let part := fun (i : Nat) => parts.getD i []
  let mf := u.mf.getD .fp32
  let vf := u.vf.getD .fp32
  let cf := u.cf.getD .wf16
  let o := updRows u mb row0 (u.gradRows rows (part 0)) (part 1) (part 2) (part 3) (s.die d).genUpd
  let w := o.1.map (fun row => row.map (fun e => e.w))
  let ch := (u.chunks w).zipIdx.map (fun p => copyChunk mf cf p.1 (old.getD p.2 ([], [])))
  let states := w.map (stateRow mf) ++ (if u.opt ≥ 1 then o.1.map (fun row => stateRow vf (row.map (fun e => e.m))) else [])
    ++ (if u.opt ≥ 2 then o.1.map (fun row => stateRow vf (row.map (fun e => e.v))) else [])
  let bytes := states ++ ch.map (fun c => (c.bytes, c.poison))
  let flags := (o.1.flatten.foldl (fun a e => a ||| e.flags) 0) ||| ch.foldl (fun a c => a ||| c.flags) 0
  let stats := (if bytes.any (fun p => p.2.any id) then [stPoison] else []) ++ ch.flatMap (rowStats cf)
  let s1 := (s.dropReads d .upd r).modDie d (fun y => { y with genUpd := o.2 })
  let s2 := s1.putAll d .upd r (List.zipWith (fun p b => (p.1, b.1, b.2)) (u.writes inactive row0 rows) bytes)
  s2.settle d .upd { r with flags := r.flags ||| flags, stats := r.stats ++ stats }

/-- Whether the record's addresses are acceptable (R206). -/
def State.updAddrsOk (s : State) (d : DieIx) (x : Desc) (u : UpdRec) (active row0 rows : Nat) : Bool :=
  u.spanOk row0 rows
    && (u.reads active row0 rows (fun _ _ => false)).all (fun p => s.decodes d p.1 p.2)
    && (u.writes (1 - active) row0 rows).all (fun p => s.rowsWritable d (dJob x) p.1 0 1 p.2.1 (some p.2.2))
    && (decide (u.maskBytes = 0) || s.decodes d (BitVec.ofNat 52 u.mask) u.maskBytes)

/-- Whether the record names an operand in a service region (R18): no data moves, and the attempt is counted. -/
def UpdRec.service (u : UpdRec) (active row0 rows : Nat) : Bool :=
  let hits := fun (p : BoardAddr × Nat) => let l := locOf p.1; decide (0 < p.2) && inService l.region l.off p.2
  (u.reads active row0 rows (fun _ _ => false)).any hits || (u.writes (1 - active) row0 rows).any (fun p => hits (p.1, p.2.1))
    || hits (BitVec.ofNat 52 u.mask, u.maskBytes)

/-- The record's judgement, then mask, then operands. -/
def State.updRecord (s : State) (d : DieIx) (r : Running) (k row0 rows : Nat) (wrongStep : Bool) (rb : List Byte × List Bool) : State :=
  let x := r.desc
  let u := updRecOf rb.1
  let active := s.rf d (rUpdSet k) 28 1
  let abort : List Nat := if wrongStep then [stAborted] else []
  if rb.2.any id then s.finish d .upd r ⟨abort ++ [stPoison], 0, 0, 0⟩
  else if !u.fieldsOk ∨ !u.bandOk row0 rows then s.finish d .upd r ⟨stFormat :: abort, 0, 0, 0⟩
  else if u.spanOk row0 rows ∧ u.service active row0 rows then (s.countService true).finish d .upd r ⟨stFormat :: abort, 0, 0, 0⟩
  else if !s.updAddrsOk d x u active row0 rows then s.finish d .upd r ⟨stFormat :: abort, 0, 0, 0⟩
  else if wrongStep then s.finish d .upd r ⟨abort, 0, 0, 0⟩
  else
    match s.gateAll d .upd r ((u.writes (1 - active) row0 rows).map (fun p => (p.1, p.2.1))) with
    | .fenced => s.stopEarly d .upd r stFenced
    | .wait => s
    | .go =>
      match s.fetchAll d .upd r [(BitVec.ofNat 52 u.mask, u.maskBytes)] with
      | .stop st => s.stopEarly d .upd r st
      | .wait t => t
      | .data mb t =>
        let m := mb.headD ([], [])
        match t.fetchAll d .upd r (u.reads active row0 rows (fun row j => (slice (u.rowMask m row) (128 * j) 128).all (fun p => p.1))) with
        | .stop st => t.stopEarly d .upd r st
        | .wait v => v
        | .data l v => v.updWork d r u (1 - active) row0 rows m l

def State.updRun (s : State) (d : DieIx) (r : Running) : State :=
  let x := r.desc
  let row0 := dn x 32 4
  let rows := dn x 36 4
  if !dAddrOk x 24 ∨ dn x 40 24 ≠ 0 ∨ row0 % 128 ≠ 0 then s.stopEarly d .upd r stFormat
  else if rows = 0 then (if s.unitFenced d .upd 0x70 then s.stopEarly d .upd r stFenced else s.finish d .upd r Result.ok)
  else
    match s.ctxOf d (dJob x) with
    | none => s.stopEarly d .upd r stFormat
    | some k =>
      if rowsService (dAddr x 24) 0 1 128 then (s.countService true).stopEarly d .upd r stFormat
      else if !s.rowsDecode d (dAddr x 24) 0 1 128 then s.stopEarly d .upd r stFormat
      else if s.unitFenced d .upd 0x70 then s.stopEarly d .upd r stFenced
      else
        match s.fetchAll d .upd r [(dAddr x 24, 128)] with
        | .stop st => s.stopEarly d .upd r st
        | .wait t => t
        | .data l t =>
          t.updRecord d r k row0 rows (decide (dStep x ≠ (t.rf d (rUpdStep k) 0 32 + 1) % 2 ^ 32)) (l.headD ([], []))

/-- UPDATE (R202). -/
def execUpdate (d : DieIx) (s : State) : Host.Outcome State Fault Refusal :=
  onDie d s (fun t => withEngine t d .upd 0x70 (t.updRun d))

end Sys2Proof.Machine
end

