-- ==== Sys2Proof/Machine/Jobs.lean ====
section
/-! DEFINITION. Jobs and the runtime: creation, plans and their steps, resumption and teardown (R272, R401, R402, R472 to R474). -/

namespace Sys2Proof.Machine

def State.jobRec (s : State) (job : BitVec 12) : Option Job := s.jobs.find? (fun j => decide (j.job = job))

def State.setJob (s : State) (j : Job) : State := { s with jobs := s.jobs.map (fun k => if k.job = j.job then j else k) }

/-- G endpoint identifiers of 4 bytes in host memory. -/
def State.memberList (s : State) (a g : Nat) : List Endpoint :=
  (List.range g).map (fun i => BitVec.ofNat 23 (leNat (s.hostBytes (a + 4 * i) 4)))

/-! ### JOB_CREATE (R174, R360, R472) -/

def jcNctx (x : Desc) : Nat := hbyte x 40
def jcGap (x : Desc) : Nat := hbyte x 41
def jcRowsK (x : Desc) : Nat := dn x 42 2
def jcLayers (x : Desc) : Nat := dn x 44 2
def jcStash (x : Desc) : Nat := dn x 36 4
def jcWb6 (x : Desc) : Nat := if hbyte x 48 = 1 then dn x 46 2 else 0x0090

/-- Dies of this module that a member list names. -/
def State.listedDies (s : State) (l : List Endpoint) : List DieIx :=
  s.allDies.filter (fun d => l.any (fun e => decide (e.toNat / 64 = (s.endpoint d 63).toNat / 64)))

/-- Bytes of a statistics array, in whole 64 KiB units. -/
def arrayBytes (rowsK layers : Nat) : Nat := (rowsK * 1024 * layers * 8 + 65535) / 65536 * 65536

/-- Where a job's allocation ends: below those of the other jobs on its dies. -/
def State.allocTop (s : State) (ds : List DieIx) : Nat :=
  (s.jobs.filter (fun j => j.dies.any (fun d => ds.contains d))).foldl (fun a j => min a j.low) 0x7E00000000

/-- A job context that is free on every die. -/
def State.freeCtx (s : State) (ds : List DieIx) : Option Nat :=
  (List.range 32).find? (fun k => ds.all (fun d => !bitAt (s.reg d (rUpdSet k)) 31 && !bitAt (s.reg d (rColCtx k 0)) 31))

/-- Billet stack contexts that are free on every die. -/
def State.freeBils (s : State) (ds : List DieIx) : List Nat :=
  (List.range 16).filter (fun c => ds.all (fun d => !bitAt (s.reg d (rBilCtx c 0)) 31))

/-- The registers of one billet stack context and its statistics array. -/
def State.setBil (s : State) (j : Job) (d : DieIx) (i c : Nat) : State :=
  let seg := j.stash * 65536
  let arr := arrayBytes j.rowsK j.layers
  let segAt := j.top - (i + 1) * seg
  let arrAt := j.top - j.bils.length * seg - (i + 1) * arr
  let s1 := (s.bilCtxWrite d .pelbex c 1 (BitVec.ofNat 32 (segAt / 65536))).bilCtxWrite d .pelbex c 2 (BitVec.ofNat 32 j.stash)
  let s2 := s1.bilCtxWrite d .pelbex c 0 (BitVec.ofNat 32 (2 ^ 31 + j.job.toNat * 65536 + j.wb6))
  (s2.rowCtxWrite d .pelbex c (rRowCtxBase c) (BitVec.ofNat 32 (arrAt / 65536))).rowCtxWrite d .pelbex c (rRowCtxGeom c)
    (BitVec.ofNat 32 (j.rowsK * 65536 + j.layers))

def State.setBils (s : State) (j : Job) (d : DieIx) : State := (j.bils.zipIdx).foldl (fun t p => t.setBil j d p.2 p.1) s

/-- What a job is assigned on one die. DESIGN CHOICE (log 118): the spec gives a new context neither UPD_STEP nor ACTIVE, and both are 0. -/
def State.assign (s : State) (j : Job) (epoch : Nat) (d : DieIx) : State :=
  let k := j.ctx
  let s1 := (s.setReg d (rUpdSet k) (BitVec.ofNat 32 (2 ^ 31 + j.job.toNat))).setReg d (rUpdStep k) 0
  let s2 := ((s1.setReg d (rCmtStat k) 0).setRf d (rCmtCtl k) 8 4 j.gap).modCommit d k (fun _ => Commit.reset)
  let s3 := s2.setReg d (rColCtx k 0) (BitVec.ofNat 32 (2 ^ 31 + epoch * 65536 + j.job.toNat))
  s3.setBils j d

/-- JOB_CREATE. -/
def State.jobCreate (s : State) (q : Fin 64) (c : HostCmd) : State :=
  let x := c.desc
  let g := dn x 32 4
  let n := jcNctx x
  let l := s.memberList (dn x 24 8) g
  let ds := s.listedDies l
  let top := s.allocTop ds
  let bils := (s.freeBils ds).take n
  let need := n * (jcStash x * 65536 + arrayBytes (jcRowsK x) (jcLayers x))
  if hbyte x 48 > 1 ∨ !restZero x 49 ∨ jcGap x < 1 ∨ jcGap x > 8 ∨ n > 16 then s.hostBad q c stFormat
  else if g = 0 ∨ n = 0 then s.hostFinish q c Result.ok
  else if (s.jobRec (dJob x)).isSome ∨ ds = [] ∨ bils.length < n ∨ need > top
      ∨ jcStash x ≥ 2 ^ 22 then s.hostBad q c stFormat
  else
    match s.freeCtx ds with
    | none => s.hostBad q c stFormat
    | some k =>
      if ds.any (fun d => s.dieFenced d || (s.die d).held || s.parked d) then s.hostBad q c stFenced
      else
        let j : Job :=
          { job := dJob x, members := l, ctx := k, dies := ds, bils := bils, low := top - need, top := top, stash := jcStash x, gap := jcGap x
            rowsK := jcRowsK x, layers := jcLayers x, wb6 := jcWb6 x, plan := none, next := none, tables := [] }
        let t := ds.foldl (fun u d => u.assign j (dEpoch x) d) s
        ({ t with jobs := t.jobs ++ [j] }).hostFinish q c { Result.ok with detail := BitVec.ofNat 32 ((top - need) / 65536) }

/-- JOB_CREATE (R472). -/
def execJobCreate (q : Fin 64) (s : State) : Host.Outcome State Fault Refusal := hostRun s q (isKind 0xF2) (s.jobCreate q)

/-! ### JOB_START (R474) -/

def jsSteps (x : Desc) : Nat := dn x 32 4
def jsNew (x : Desc) : Bool := bitAt x (8 * 36)

/-- The JOB_START that awaits a plan. -/
def PlanRun.awaits (p : PlanRun) (q : Fin 64) (c : HostCmd) : Bool := decide (p.queue = q.val) && decide (p.ident = c.ident)

/-- Whether a JOB_START has been accepted. -/
def State.accepted (s : State) (q : Fin 64) (c : HostCmd) : Bool :=
  s.jobs.any (fun j => [j.plan, j.next].any (fun o => match o with
    | some p => p.awaits q c
    | none => false))

/-- Complete the JOB_START of a plan, with the steps committed; poison in the plan that it read shows in its status (R316). -/
def State.finishPlan (s : State) (p : PlanRun) (sts : List Nat) : State :=
  let q : Fin 64 := ⟨p.queue % 64, Nat.mod_lt _ (by decide)⟩
  match (s.hostQ q).running.find? (fun c => decide (c.ident = p.ident)) with
  | none => s
  | some c => s.hostFinish q c ⟨(if p.poison then [stPoison] else []) ++ sts, 0, 0, BitVec.ofNat 32 p.done⟩

/-- A plan that replaces another takes over the epoch change, the list and the stash size that the other has not yet put in force: they
have been written to the dies (R401, R474). -/
def PlanRun.inherit (n old : PlanRun) : PlanRun :=
  { n with epoch := n.epoch <|> old.epoch, members := n.members <|> old.members, stash := n.stash <|> old.stash }

/-- Whether a plan can run for a job (R266, R470, R473): valid entries on queues that no host queue is bound to, and a commit stroke that
the arm of every step can still reach. -/
def State.planOk (s : State) (j : Job) (p : Plan) (steps : Nat) : Bool :=
  p.ok && p.entries.all (fun e => e.ok && decide (e.die < s.dieCount) && (match e.queue with
    | some u => (s.boundTo (dieIx e.die) u).isNone
    | none => false)) && decide (p.commitOff + (if steps > 1 then 1 else 2) > 3 * j.gap)

/-- The range that a new stash size takes, if it fits below the job's top and clear of the other jobs. DESIGN CHOICE (log 172): R472 places
the segments and arrays of JOB_CREATE and R474 says nothing of JOB_START; the job keeps its top, the order below it, and moves its bottom, and
a size that does not fit ends JOB_START with FORMAT_ERROR as it does JOB_CREATE. -/
def State.restash (s : State) (j : Job) (stash : Nat) : Option Job :=
  let need := j.bils.length * (stash * 65536 + arrayBytes j.rowsK j.layers)
  let low := j.top - need
  if need > j.top ∨ stash ≥ 2 ^ 22 then none
  else if s.jobs.any (fun o => decide (o.job ≠ j.job) && o.dies.any (fun d => j.dies.contains d) && decide (o.low < j.top) && decide (low < o.top))
  then none
  else some { j with stash := stash, low := low }

/-- Dies that hold a job's contexts and serve. -/
def State.jobAll (s : State) (j : Job) : List DieIx := j.dies.filter (fun d => !(s.die d).held && !s.dieFenced d)

/-- Dies of a job that take part: those that its member list names (R402, R474). -/
def State.jobDies (s : State) (j : Job) : List DieIx := (s.jobAll j).filter (fun d => (s.listedDies j.members).contains d)

/-- The epoch change is written to every die (R394, R401). -/
def State.writeNext (s : State) (j : Job) (epoch change : Nat) : State :=
  (s.jobAll j).foldl (fun t d =>
    (t.colCtxWrite d .pelbex j.ctx 2 (BitVec.ofNat 32 change)).colCtxWrite d .pelbex j.ctx 1
      (BitVec.ofNat 32 (2 ^ 31 + epoch * 256 + change / 2 ^ 32))) s

/-- JOB_START: accepted, it runs once PLAN_STEP takes it up; a plan that is replaced before its first step completes at once. -/
def State.jobStart (s : State) (q : Fin 64) (c : HostCmd) : State :=
  let x := c.desc
  let list := dn x 48 8
  let g := dn x 56 4
  let stash := dn x 60 4
  if hbyte x 36 > 1 ∨ dn x 38 2 ≠ 0 ∨ dn x 45 3 ≠ 0 ∨ !dAddrOk x 24 then s.hostBad q c stFormat
  else if jsSteps x = 0 ∨ (jsNew x ∧ list ≠ 0 ∧ g = 0) then s.hostFinish q c Result.ok
  else
  match s.jobRec (dJob x) with
  | none => s.hostBad q c stFormat
  | some j =>
    let a := dAddr x 24
    let p := (s.readPlan (dJob x) a).1
    let t := (s.readPlan (dJob x) a).2
    if s.planService a then (s.countService true).hostBad q c stFormat
    else if !s.planOk j p (jsSteps x) ∨ (jsNew x ∧ stash ≠ 0xFFFFFFFF ∧ (s.restash j stash).isNone) then t.hostBad q c stFormat
    else
      let run : PlanRun :=
        { queue := q.val, ident := c.ident, place := a, steps := jsSteps x, done := 0, start := none, first := true
          epoch := if jsNew x then some (dn x 37 1, dn x 40 5) else none
          members := if jsNew x ∧ list ≠ 0 then some (s.memberList list g) else none
          stash := if jsNew x ∧ stash ≠ 0xFFFFFFFF then some stash else none, poison := p.poison }
      let s1 := if jsNew x then t.writeNext j (dn x 37 1) (dn x 40 5) else t
      match j.plan, j.next with
      | none, _ => s1.setJob { j with plan := some run }
      | some _, none => s1.setJob { j with next := some run }
      | some _, some old => (s1.setJob { j with next := some (run.inherit old) }).finishPlan old []

/-- JOB_START (R474). -/
def execJobStart (q : Fin 64) (s : State) : Host.Outcome State Fault Refusal :=
  .next (match (s.hostQ q).running.find? (fun c => isKind 0xF3 c.desc && !s.accepted q c) with
    | none => s
    | some c => s.jobStart q c)

/-! ### The steps of a plan (R272, R402, R473) -/

/-- The repeat obligations that fall to the runtime itself (R272): every segment is cleared and every row context dropped. -/
def State.repeatDuties (s : State) (j : Job) : State :=
  (s.jobAll j).foldl (fun t d =>
    j.bils.foldl (fun u c => [0, 1, 2, 3].foldl (fun v (e : Fin 4) => v.leaveWins d e c false) (u.setSeg d c 0 0)) t) s

/-- Scale tables that a plan names: die, place, chunks. -/
def Plan.tables (p : Plan) : List (Nat × Nat × Nat) :=
  (p.entries.filter (fun e => decide (dKind e.desc = 0x50))).map (fun e => (e.die, opPlace e.desc 40, arChunks e.desc))

/-- FILL every scale table of the job with 0x0000_00FF (R374, R402): those of its plans so far and of the new one. -/
def State.fillScales (s : State) (j : Job) (p : Plan) : State :=
  (j.tables ++ p.tables).eraseDups.foldl (fun t e =>
    (List.range e.2.2).foldl (fun u i => u.setScaleEntry (dieIx e.1) j.job e.2.1 i 0xFF) t) s

/-- The new layout, before its first step (R402): repeat obligations, scale tables, context registers, member list. -/
def State.newLayout (s : State) (j : Job) (p : PlanRun) : State × Job :=
  let s1 := (s.repeatDuties j).fillScales j (s.planAt p.place)
  let j1 := match p.stash with
    | some n => (s.restash j n).getD j
    | none => j
  let j2 := { j1 with members := p.members.getD j1.members, plan := some { p with epoch := none, members := none, stash := none } }
  ((s1.jobAll j2).foldl (fun t d => t.setBils j2 d) s1, j2)

/-- Whether an epoch change that a plan brings is still to come on a die. -/
def State.epochAwaited (s : State) (j : Job) (p : PlanRun) : Bool :=
  match p.epoch with
  | none => false
  | some e => (s.jobDies j).any (fun d => bitAt (s.reg d (rColCtx j.ctx 1)) 31 || decide (s.colEpoch d j.ctx ≠ e.1))

/-- Arm one die for the step (R266, R473): EXPECT from the UPDATE entries, the commit stroke, ARM. -/
def State.armDie (s : State) (j : Job) (es : List PlanEntry) (c : Nat) (d : DieIx) : State :=
  let n := (es.filter (fun e => decide (e.die = d.val) && decide (dKind e.desc = 0x70))).length
  let s1 := s.setRf d (rCmtCtl j.ctx) 16 16 n
  let s2 := (s1.cmtStrokeWrite d j.ctx (rCmtCLo j.ctx) (BitVec.ofNat 32 c)).cmtStrokeWrite d j.ctx (rCmtCHi j.ctx) (BitVec.ofNat 32 (c / 2 ^ 32))
  s2.armCtx d j.ctx

/-- The descriptor of an entry with the fields that the runtime fills. -/
def fillDesc (x : Desc) (job : BitVec 12) (epoch step release : Nat) : Desc :=
  setFld (setFld (setFld (setFld x 16 12 job.toNat) 32 8 epoch) 128 32 step) 64 40 (release % 2 ^ 40)

/-- Begin a step at stroke S on the job's dies. -/
def State.beginStep (s : State) (j : Job) (p : PlanRun) (ds : List DieIx) (d0 : DieIx) (start : Nat) : State :=
  let pl := s.planAt p.place
  let es := pl.entries.filter (fun e => !e.once || p.first)
  let step := s.stepOf d0 j.ctx
  let epoch := s.colEpoch d0 j.ctx
  let s1 := ds.foldl (fun t d => t.armDie j es ((start + pl.commitOff) % 2 ^ 40) d) (s.readPlan j.job p.place).2
  let s2 := es.foldl (fun t e => match e.queue with
    | some u => t.push (dieIx e.die) u (fillDesc e.desc j.job epoch step (start + e.offset)) e.bad
    | none => t) s1
  s2.setJob { j with plan := some { p with start := some (BitVec.ofNat 40 start), poison := p.poison || pl.poison }, tables := (j.tables ++ pl.tables).eraseDups }

/-- Begin the next step if every die is idle and the layout in force is the plan's: at C + 1 after a YES, else at the first stroke at
least 2 ahead. -/
def State.tryBegin (s : State) (j : Job) (p : PlanRun) (after : Option Nat) : State :=
  match s.jobDies j with
  | [] => s
  | d0 :: ds =>
    if (d0 :: ds).any (fun d => decide (s.cmtState d j.ctx ≠ 0)) ∨ s.epochAwaited j p then s
    else
      let now := (s.stroke d0).toNat
      let start := match after with
        | some c => if begun (s.stroke d0) (c + 1) then now + 2 else c + 1
        | none => now + 2
      let r := if p.epoch.isSome then s.newLayout j p else (s, j)
      match r.2.plan with
      | some p1 => r.1.beginStep r.2 p1 (d0 :: ds) d0 (start % 2 ^ 40)
      | none => r.1

/-- Between steps a replacing plan takes over, a plan that has run its steps ends, else the next step begins. -/
def State.nextStep (s : State) (j : Job) (p : PlanRun) (after : Option Nat) : State :=
  match j.next with
  | some n =>
    let m := n.inherit p
    ((s.setJob { j with plan := some m, next := none }).finishPlan p []).tryBegin { j with plan := some m, next := none } m after
  | none =>
    if p.done ≥ p.steps then (s.setJob { j with plan := none }).finishPlan p []
    else (s.setJob { j with plan := some p }).tryBegin { j with plan := some p } p after

/-- PLAN_STEP: judge the step that ran by its verdict, then go on. A halted job waits for JOB_RESUME. -/
def State.planStep (s : State) (j : Job) (p : PlanRun) : State :=
  match p.start, s.jobDies j with
  | none, _ => s.nextStep j p none
  | some _, [] => s
  | some _, d0 :: ds =>
    if (d0 :: ds).any (fun d => decide (s.cmtState d j.ctx ≠ 0)) then s
    else
      let p1 := { p with start := none, first := false }
      if (d0 :: ds).all (fun d => decide (s.rf d (rCmtStat j.ctx) 16 8 = 0)) then
        s.nextStep { j with plan := some { p1 with done := p.done + 1 } } { p1 with done := p.done + 1 } (some (s.commitStroke d0 j.ctx))
      else (s.repeatDuties j).nextStep { j with plan := some p1 } p1 none

/-- PLAN_STEP (R473). -/
def execPlanStep (job : BitVec 12) (s : State) : Host.Outcome State Fault Refusal :=
  .next (match s.jobRec job with
    | none => s
    | some j => match j.plan with
      | none => s
      | some p => s.planStep j p)

/-! ### JOB_RESUME and JOB_TEARDOWN (R271, R474) -/

/-- JOB_RESUME. -/
def State.jobResume (s : State) (q : Fin 64) (c : HostCmd) : State :=
  match s.jobRec (dJob c.desc) with
  | none => s.hostBad q c stFormat
  | some j =>
    let hs := (s.jobDies j).filter (fun d => decide (s.cmtState d j.ctx = 5))
    if !restZero c.desc 24 ∨ hs = [] then s.hostBad q c stFormat
    else
      let s1 := hs.foldl (fun t d => (t.setRf d (rCmtStat j.ctx) 16 8 0).setCmtState d j.ctx 0) s
      let j1 := { j with plan := j.plan.map (fun p => { p with start := none, first := false }) }
      ((s1.repeatDuties j).setJob j1).hostFinish q c Result.ok

/-- JOB_RESUME (R474). -/
def execJobResume (q : Fin 64) (s : State) : Host.Outcome State Fault Refusal := hostRun s q (isKind 0xF4) (s.jobResume q)

/-- End the job on one die: the step aborts, then contexts, buckets and structure slots are free. DESIGN CHOICE (log 124): a context that is
freed has all its registers 0, BIL_CTX_HWM and ACTIVE with UPD_STEP included; R474 says only that it is freed. -/
def State.unassign (s : State) (j : Job) (d : DieIx) : State :=
  let k := j.ctx
  let stepRuns := decide (s.cmtState d k ≠ 0 ∧ s.cmtState d k ≠ 5) || (j.plan.any (fun p => p.start.isSome) && decide (s.cmtState d k ≠ 5))
  let s1 := if stepRuns then s.abortStep d k stAborted else s
  let s2 := allQueues.foldl (fun t e => t.abortQueue d e stAborted (fun x => decide (dJob x = j.job))) s1
  -- the slots of the job go at once, so what still runs on them ends here
  let s2c := ((s2.queue d .cru).running.filter (fun r => decide (dJob r.desc = j.job))).foldl (fun t r => t.cruStop d r) s2
  let s3 := s2c.modDie d (fun x =>
    { x with buckets := x.buckets.filter (fun b => decide (b.job ≠ j.job))
             peers := x.peers.filter (fun p => decide (p.job ≠ j.job))
             notices := x.notices.filter (fun n => decide (n ≠ j.job)) })
  let s4 := ((s3.die d).slots.filter (fun p => decide (p.2.job = j.job))).foldl (fun t p => t.freeSlotOf p.1 p.2) s3
  let s5 := (((s4.setReg d (rUpdSet k) 0).setReg d (rUpdStep k) 0).setReg d (rCmtStat k) 0).modCommit d k (fun _ => Commit.reset)
  let s6 := [0, 1, 2, 4, 5].foldl (fun t w => t.setReg d (rColCtx k w) 0) s5
  j.bils.foldl (fun t c =>
    let u := [0, 1, 2, 3].foldl (fun v (e : Fin 4) => v.leaveWins d e c false) t
    let v := (List.range 6).foldl (fun y w => y.setReg d (rBilCtx c w) 0) u
    (v.setReg d (rRowCtxBase c) 0).setReg d (rRowCtxGeom c) 0) s6

/-- JOB_TEARDOWN. -/
def State.jobTeardown (s : State) (q : Fin 64) (c : HostCmd) : State :=
  match s.jobRec (dJob c.desc) with
  | none => s.hostBad q c stFormat
  | some j =>
    if !restZero c.desc 24 then s.hostBad q c stFormat
    else
      let s1 := (s.jobAll j).foldl (fun t d => t.unassign j d) s
      let s2 := { s1 with jobs := s1.jobs.filter (fun k => decide (k.job ≠ j.job)) }
      let s3 := [j.plan, j.next].foldl (fun t o => match o with
        | some p => t.finishPlan p [stAborted]
        | none => t) s2
      s3.hostFinish q c Result.ok

/-- JOB_TEARDOWN (R474). -/
def execJobTeardown (q : Fin 64) (s : State) : Host.Outcome State Fault Refusal := hostRun s q (isKind 0xF5) (s.jobTeardown q)

end Sys2Proof.Machine
end

