-- ==== Sys2Proof/Machine/Vector.lean ====
section
/-! DEFINITION. The vector unit: span, predicates, arithmetic, reductions, data movement, loads and stores, slicing, and poison in
registers (R141 to R164). -/

namespace Sys2Proof.Machine

/-! ### Registers, span and predicates (R141, R145, R146, R161) -/

/-- Width of an element of a width code in bits, and elements of a register. -/
def elemBits (w : Fin 4) : Nat := 8 * 2 ^ w.val
def lanes (w : Fin 4) : Nat := 512 / 2 ^ w.val

def velem (v : BitVec 4096) (w : Fin 4) (i : Nat) : Nat := fld v (i * elemBits w) (elemBits w)

/-- Segment of 64 bits that holds an element. -/
def segOf (w : Fin 4) (i : Nat) : Nat := i * 2 ^ w.val / 8

/-- The span count. -/
def Core.count (k : Core) (w : Fin 4) : Nat := k.vec.span / 2 ^ w.val

/-- p0 reads as all ones. -/
def Core.pred (k : Core) (p : Fin 8) : BitVec 512 := if p = 0 then BitVec.allOnes 512 else k.vec.p[p]

/-- Writes of p0 are ignored. -/
def Core.setPred (k : Core) (p : Fin 8) (v : BitVec 512) : Core :=
  if p = 0 then k else { k with vec := { k.vec with p := k.vec.p.set p v } }

/-- Indices below a count whose predicate bit is set. -/
def Core.active (k : Core) (w : Fin 4) (pg : Fin 8) : List Nat :=
  let p := k.pred pg
  (List.range (k.count w)).filter (fun i => bitAt p i)

/-- One element as an operand: its bits and whether it is poisoned. -/
structure VEl where
  bits : Nat
  bad : Bool
deriving DecidableEq, Repr

def Core.el (k : Core) (r : Fin 32) (w : Fin 4) (i : Nat) : VEl := ⟨velem k.vec.v[r] w i, bitAt k.vec.poison[r] (segOf w i)⟩

/-- A written element. -/
structure VOut where
  idx : Nat
  bits : Nat
  bad : Bool
deriving DecidableEq, Repr

/-- Write elements: a poisoned one marks its segment, and a segment written whole without poison loses its mark. -/
def Core.writeEls (k : Core) (r : Fin 32) (w : Fin 4) (l : List VOut) : Core :=
  let v := l.foldl (fun a e => setFld a (e.idx * elemBits w) (elemBits w) e.bits) k.vec.v[r]
  let old := k.vec.poison[r]
  let segs := (l.map (fun e => segOf w e.idx)).eraseDups
  let marks := segs.foldl (fun a g =>
    let here := l.filter (fun e => segOf w e.idx == g)
    setBit a g (here.any (fun e => e.bad) || (bitAt old g && decide (here.length * 2 ^ w.val < 8)))) old
  { k with vec := { k.vec with v := k.vec.v.set r v, poison := k.vec.poison.set r marks } }

/-- Count an instruction that wrote poison (R162). -/
def State.vxPoison (s : State) (d : DieIx) (c : CoreIx) (bad : Bool) : State :=
  if bad then s.addSat d (rVxPoison c.val) 0 32 1 else s

/-- Write a vector result with its flags and the generator after it. -/
def State.vwrite (s : State) (d : DieIx) (c : CoreIx) (vd : Fin 32) (w : Fin 4) (l : List VOut) (flags : DWord) (g : Gen) : State :=
  (s.modCore d c (fun k =>
    let j := k.writeEls vd w l
    { j with gen := g, vec := { j.vec with vstat := j.vec.vstat ||| flags } })).vxPoison d c (l.any (fun e => e.bad))

/-- The rounding mode of VSTAT. -/
def Core.vround (k : Core) : Rnd := (roundCode (fld k.vec.vstat 0 3)).getD .rne

/-- Flags of one element operation as VSTAT bits; saturation into an integer or block type sets ISAT. -/
def vflags (o : FpOut) (isat : Bool) : DWord :=
  o.ieee.setWidth 64 ||| (o.conv.setWidth 64 <<< 8) ||| (if isat && bitAt o.conv 0 then 0x10000 else 0)

/-! ### Issue (R163, R164) -/

/-- Whether the vector engine of a core is fenced. -/
def State.vecFenced (s : State) (d : DieIx) (c : CoreIx) : Bool := (s.core d c).fenceVec || s.coreFenced d c

/-- Whether the vector engine of a core is being reset: it starts nothing meanwhile (R407). -/
def State.vecResetting (s : State) (d : DieIx) (c : CoreIx) : Bool := (s.die d).resets.any (fun r => decide (r.dom = .engine c 1))

/-- A vector instruction: an encoding that must be zero and is not is illegal, a fenced engine faults, one that is being reset holds it, then its body. -/
def State.vinsn (s : State) (d : DieIx) (c : CoreIx) (i : Instr) (legal : Bool) (body : State → Eff) : State :=
  s.insn d c i (fun u =>
    if !legal then .trap trapIllegal
    else if u.vecFenced d c then .trap (trapVector 4 0 0)
    else if u.vecResetting d c then .stall .vector
    else body u)

def vbad : Eff := .trap (trapVector 1 0 0)

/-- The second operand of a VF instruction: a vector register, or an f register for every lane. -/
def Core.srcF (k : Core) (vs2 : Fin 32) (scal : Bool) (w : Fin 4) (i : Nat) : VEl :=
  if scal then k.el vs2 w 0 else k.el vs2 w i

/-- The second operand of a VI instruction: a vector register, or a g register for every lane. -/
def Core.srcI (k : Core) (vs2 : Fin 32) (scal : Bool) (w : Fin 4) (i : Nat) : VEl :=
  if scal then ⟨(k.getG vs2).toNat % 2 ^ elemBits w, false⟩ else k.el vs2 w i

/-! ### Element-wise arithmetic (R150 to R153) -/

/-- Results of an element operation over operands, in index order; a poisoned operand gives a poisoned result, under whose mark the
model writes zero bits (DESIGN CHOICE, log entry 132: R161 states no bits). -/
def vloop (isat : Bool) (op : List Nat → Gen → FpOut) : List (Nat × List VEl) → Gen → List VOut × DWord × Gen
  | [], g => ([], 0, g)
  | (i, es) :: rest, g =>
    if es.any (fun e => e.bad) then
      let r := vloop isat op rest g
      (⟨i, 0, true⟩ :: r.1, r.2.1, r.2.2)
    else
      let o := op (es.map (fun e => e.bits)) g
      let r := vloop isat op rest o.gen
      (⟨i, o.bits, false⟩ :: r.1, vflags o isat ||| r.2.1, r.2.2)

def arg (l : List Nat) (i : Nat) : Nat := l.getD i 0

/-- An element-wise float instruction: operands of each active element, and its operation at the width's format. -/
def State.vfArith (s : State) (d : DieIx) (c : CoreIx) (vd : Fin 32) (w : Fin 4) (pg : Fin 8) (ops : Core → Nat → List VEl)
    (op : Fmt → Rnd → List Nat → Gen → FpOut) : Eff :=
  let k := s.core d c
  match floatOf w.val with
  | none => vbad
  | some f =>
    let r := vloop false (op f k.vround) ((k.active w pg).map (fun i => (i, ops k i))) k.gen
    .ok (s.vwrite d c vd w r.1 r.2.1 r.2.2)

/-- An element-wise integer instruction. -/
def State.viArith (s : State) (d : DieIx) (c : CoreIx) (vd : Fin 32) (w : Fin 4) (pg : Fin 8) (ops : Core → Nat → List VEl)
    (op : Nat → Nat → Nat) : Eff :=
  let k := s.core d c
  let r := vloop false (fun l g => ⟨op (arg l 0) (arg l 1), 0, 0, g⟩) ((k.active w pg).map (fun i => (i, ops k i))) k.gen
  .ok (s.vwrite d c vd w r.1 0 r.2.2)

/-- Operands vs1, vs2 and vs1, vs2, vd. -/
def opsF2 (vs1 vs2 : Fin 32) (w : Fin 4) (scal : Bool) (k : Core) (i : Nat) : List VEl := [k.el vs1 w i, k.srcF vs2 scal w i]
def opsF3 (vd vs1 vs2 : Fin 32) (w : Fin 4) (scal : Bool) (k : Core) (i : Nat) : List VEl :=
  [k.el vs1 w i, k.srcF vs2 scal w i, k.el vd w i]
def ops1 (vs1 : Fin 32) (w : Fin 4) (k : Core) (i : Nat) : List VEl := [k.el vs1 w i]
def opsI2 (vs1 vs2 : Fin 32) (w : Fin 4) (scal : Bool) (k : Core) (i : Nat) : List VEl := [k.el vs1 w i, k.srcI vs2 scal w i]

/-- A unary function requires S = 0 and vs2 = v0. -/
def unary (vs2 : Fin 32) (scal : Bool) : Bool := !scal && decide (vs2 = 0)

/-! ### Compares (R162, R164) -/

/-- Write the predicate bits of compared elements. -/
def Core.setBits (k : Core) (p : Fin 8) (l : List (Nat × Bool)) : Core :=
  k.setPred p (l.foldl (fun a e => setBit a e.1 e.2) (k.pred p))

def predIx (n : Fin 32) : Fin 8 := ⟨n.val % 8, Nat.mod_lt _ (by decide)⟩

/-- A compare: a poisoned active operand faults, else each active element gives a bit, and flags collect. -/
def State.vcmp (s : State) (d : DieIx) (c : CoreIx) (vd : Fin 32) (w : Fin 4) (pg : Fin 8) (ops : Core → Nat → List VEl)
    (test : Nat → Nat → Bool × BitVec 8) : Eff :=
  let k := s.core d c
  let l := (k.active w pg).map (fun i => (i, ops k i))
  match l.find? (fun e => e.2.any (fun x => x.bad)) with
  | some e => .trap (trapVector 3 e.1 0)
  | none =>
    let r := l.map (fun e => (e.1, test ((e.2.getD 0 ⟨0, false⟩).bits) ((e.2.getD 1 ⟨0, false⟩).bits)))
    let flags : DWord := r.foldl (fun a e => a ||| e.2.2.setWidth 64) 0
    .ok (s.modCore d c (fun x =>
      let y := x.setBits (predIx vd) (r.map (fun e => (e.1, e.2.1)))
      { y with vec := { y.vec with vstat := y.vec.vstat ||| flags } }))

def State.vfCmp (s : State) (d : DieIx) (c : CoreIx) (o : FCmp) (vd vs1 vs2 : Fin 32) (w : Fin 4) (pg : Fin 8) (scal : Bool) : Eff :=
  match floatOf w.val with
  | none => vbad
  | some f => s.vcmp d c vd w pg (opsF2 vs1 vs2 w scal) (elemCmp o f)

/-! ### Reductions (R154) -/

/-- One level of the tree: position i takes position i + h. -/
def treeLevel {α : Type} (h : Nat) (comb : α → α → Gen → α × DWord × Gen) : Nat → List (Option α) → Gen → List (Option α) × DWord × Gen
  | 0, _, g => ([], 0, g)
  | n + 1, l, g =>
    let i := h - (n + 1)
    match l.getD i none, l.getD (i + h) none with
    | some a, some b =>
      let r := comb a b g
      let t := treeLevel h comb n l r.2.2
      (some r.1 :: t.1, r.2.1 ||| t.2.1, t.2.2)
    | a, b =>
      let t := treeLevel h comb n l g
      ((if a.isSome then a else b) :: t.1, t.2.1, t.2.2)

/-- The tree over 2^n positions. -/
def tree {α : Type} (comb : α → α → Gen → α × DWord × Gen) : Nat → List (Option α) → Gen → Option α × DWord × Gen
  | 0, l, g => (l.getD 0 none, 0, g)
  | n + 1, l, g =>
    let r := treeLevel (2 ^ n) comb (2 ^ n) l g
    let t := tree comb n r.1 r.2.2
    (t.1, r.2.1 ||| t.2.1, t.2.2)

/-- Write element 0 of a reduction; nothing happens at a span count of 0. -/
def State.vreduce (s : State) (d : DieIx) (c : CoreIx) (vd : Fin 32) (w : Fin 4) (pg : Fin 8) (srcs : Core → List VEl)
    (run : Core → List Nat → Gen → Nat × DWord × Gen) : Eff :=
  let k := s.core d c
  if k.count w = 0 then .ok s
  else if (srcs k).any (fun e => e.bad) then .ok (s.vwrite d c vd w [⟨0, 0, true⟩] 0 k.gen)
  else
    let r := run k (k.active w pg) k.gen
    .ok (s.vwrite d c vd w [⟨0, r.1, false⟩] r.2.1 r.2.2)

def activeEls (vs1 : Fin 32) (w : Fin 4) (pg : Fin 8) (k : Core) : List VEl := (k.active w pg).map (fun i => k.el vs1 w i)

/-- Positions of a register, the inactive ones empty. -/
def positions (k : Core) (vs1 : Fin 32) (w : Fin 4) (act : List Nat) : List (Option Nat) :=
  (List.range (lanes w)).map (fun i => if act.contains i then some (velem k.vec.v[vs1] w i) else none)

/-- Fold one operation over values in order. -/
def vfold (op : Nat → Nat → Gen → FpOut) : List Nat → Nat → DWord → Gen → Nat × DWord × Gen
  | [], a, fl, g => (a, fl, g)
  | b :: bs, a, fl, g =>
    let o := op a b g
    vfold op bs o.bits (fl ||| vflags o false) o.gen

/-- The extreme of the active elements, or what an empty set gives; the first element passes through the operation too, so that a
lone NaN is written quieted (R151). -/
def vextreme (op : Nat → Nat → Gen → FpOut) (none' : Nat) (l : List Nat) (g : Gen) : Nat × DWord × Gen :=
  match l with
  | [] => (none', 0, g)
  | a :: as => vfold op (a :: as) a 0 g

/-! ### Integers of a width (R153) -/

def intS (w : Fin 4) (a : Nat) : Int := signedOf (elemBits w) a
def wrapW (w : Fin 4) (i : Int) : Nat := intBits (elemBits w) i

/-- A shift by the width or more has no stated result. -/
def vshift (w : Fin 4) (code : Nat) (f : Nat → Nat → Nat) (a b : Nat) : Nat :=
  if b < elemBits w then f a b % 2 ^ elemBits w
  else (Config.intCorner (16 * (w.val + 1) + code) (BitVec.ofNat 64 a) (BitVec.ofNat 64 b)).toNat % 2 ^ elemBits w

/-! ### Float instructions -/

/-- VFADD (R151, R152, R164). -/
def execVfadd (d : DieIx) (c : CoreIx) (vd vs1 vs2 : Fin 32) (w : Fin 4) (pg : Fin 8) (scal : Bool) (s : State) :
    Host.Outcome State Fault Refusal :=
  onDie d s (fun t => t.vinsn d c (.vfadd d c vd vs1 vs2 w pg scal) true (fun u => u.vfArith d c vd w pg (opsF2 vs1 vs2 w scal) (fun f m l g => elemBin .add f m (arg l 0) (arg l 1) g)))

/-- VFSUB (R151, R152, R164). -/
def execVfsub (d : DieIx) (c : CoreIx) (vd vs1 vs2 : Fin 32) (w : Fin 4) (pg : Fin 8) (scal : Bool) (s : State) :
    Host.Outcome State Fault Refusal :=
  onDie d s (fun t => t.vinsn d c (.vfsub d c vd vs1 vs2 w pg scal) true (fun u => u.vfArith d c vd w pg (opsF2 vs1 vs2 w scal) (fun f m l g => elemBin .sub f m (arg l 0) (arg l 1) g)))

/-- VFMUL (R151, R152, R164). -/
def execVfmul (d : DieIx) (c : CoreIx) (vd vs1 vs2 : Fin 32) (w : Fin 4) (pg : Fin 8) (scal : Bool) (s : State) :
    Host.Outcome State Fault Refusal :=
  onDie d s (fun t => t.vinsn d c (.vfmul d c vd vs1 vs2 w pg scal) true (fun u => u.vfArith d c vd w pg (opsF2 vs1 vs2 w scal) (fun f m l g => elemBin .mul f m (arg l 0) (arg l 1) g)))

/-- VFDIV (R151, R152, R164). -/
def execVfdiv (d : DieIx) (c : CoreIx) (vd vs1 vs2 : Fin 32) (w : Fin 4) (pg : Fin 8) (scal : Bool) (s : State) :
    Host.Outcome State Fault Refusal :=
  onDie d s (fun t => t.vinsn d c (.vfdiv d c vd vs1 vs2 w pg scal) true (fun u => u.vfArith d c vd w pg (opsF2 vs1 vs2 w scal) (fun f m l g => elemBin .div f m (arg l 0) (arg l 1) g)))

/-- VFSQRT (R151, R152). -/
def execVfsqrt (d : DieIx) (c : CoreIx) (vd vs1 vs2 : Fin 32) (w : Fin 4) (pg : Fin 8) (scal : Bool) (s : State) :
    Host.Outcome State Fault Refusal :=
  onDie d s (fun t => t.vinsn d c (.vfsqrt d c vd vs1 vs2 w pg scal) (unary vs2 scal) (fun u => u.vfArith d c vd w pg (ops1 vs1 w) (fun f m l g => elemSqrt f m (arg l 0) g)))

/-- VFMIN (R151). -/
def execVfmin (d : DieIx) (c : CoreIx) (vd vs1 vs2 : Fin 32) (w : Fin 4) (pg : Fin 8) (scal : Bool) (s : State) :
    Host.Outcome State Fault Refusal :=
  onDie d s (fun t => t.vinsn d c (.vfmin d c vd vs1 vs2 w pg scal) true (fun u => u.vfArith d c vd w pg (opsF2 vs1 vs2 w scal) (fun f _ l g => elemMinMax false f (arg l 0) (arg l 1) g)))

/-- VFMAX (R151). -/
def execVfmax (d : DieIx) (c : CoreIx) (vd vs1 vs2 : Fin 32) (w : Fin 4) (pg : Fin 8) (scal : Bool) (s : State) :
    Host.Outcome State Fault Refusal :=
  onDie d s (fun t => t.vinsn d c (.vfmax d c vd vs1 vs2 w pg scal) true (fun u => u.vfArith d c vd w pg (opsF2 vs1 vs2 w scal) (fun f _ l g => elemMinMax true f (arg l 0) (arg l 1) g)))

/-- VFFMA: vs1 × vs2 + vd (R151, R164). -/
def execVffma (d : DieIx) (c : CoreIx) (vd vs1 vs2 : Fin 32) (w : Fin 4) (pg : Fin 8) (scal : Bool) (s : State) :
    Host.Outcome State Fault Refusal :=
  onDie d s (fun t => t.vinsn d c (.vffma d c vd vs1 vs2 w pg scal) true (fun u => u.vfArith d c vd w pg (opsF3 vd vs1 vs2 w scal) (fun f m l g => elemFma .fma f m (arg l 0) (arg l 1) (arg l 2) g)))

/-- VFFMS: vs1 × vs2 − vd (R151, R164). -/
def execVffms (d : DieIx) (c : CoreIx) (vd vs1 vs2 : Fin 32) (w : Fin 4) (pg : Fin 8) (scal : Bool) (s : State) :
    Host.Outcome State Fault Refusal :=
  onDie d s (fun t => t.vinsn d c (.vffms d c vd vs1 vs2 w pg scal) true (fun u => u.vfArith d c vd w pg (opsF3 vd vs1 vs2 w scal) (fun f m l g => elemFma .fms f m (arg l 0) (arg l 1) (arg l 2) g)))

/-- VFFNMA: −(vs1 × vs2) + vd (R151, R164). -/
def execVffnma (d : DieIx) (c : CoreIx) (vd vs1 vs2 : Fin 32) (w : Fin 4) (pg : Fin 8) (scal : Bool) (s : State) :
    Host.Outcome State Fault Refusal :=
  onDie d s (fun t => t.vinsn d c (.vffnma d c vd vs1 vs2 w pg scal) true (fun u => u.vfArith d c vd w pg (opsF3 vd vs1 vs2 w scal) (fun f m l g => elemFma .fnma f m (arg l 0) (arg l 1) (arg l 2) g)))

/-- VFABS (R164). -/
def execVfabs (d : DieIx) (c : CoreIx) (vd vs1 vs2 : Fin 32) (w : Fin 4) (pg : Fin 8) (scal : Bool) (s : State) :
    Host.Outcome State Fault Refusal :=
  onDie d s (fun t => t.vinsn d c (.vfabs d c vd vs1 vs2 w pg scal) (unary vs2 scal) (fun u => u.vfArith d c vd w pg (ops1 vs1 w) (fun f _ l g => elemSign f (arg l 0) (absBits f (arg l 0)) g)))

/-- VFNEG (R164). -/
def execVfneg (d : DieIx) (c : CoreIx) (vd vs1 vs2 : Fin 32) (w : Fin 4) (pg : Fin 8) (scal : Bool) (s : State) :
    Host.Outcome State Fault Refusal :=
  onDie d s (fun t => t.vinsn d c (.vfneg d c vd vs1 vs2 w pg scal) (unary vs2 scal) (fun u => u.vfArith d c vd w pg (ops1 vs1 w) (fun f _ l g => elemSign f (arg l 0) (negBits f (arg l 0)) g)))

/-- VFSGNJ: magnitude of vs1, sign of vs2 (R164). -/
def execVfsgnj (d : DieIx) (c : CoreIx) (vd vs1 vs2 : Fin 32) (w : Fin 4) (pg : Fin 8) (scal : Bool) (s : State) :
    Host.Outcome State Fault Refusal :=
  onDie d s (fun t => t.vinsn d c (.vfsgnj d c vd vs1 vs2 w pg scal) true (fun u => u.vfArith d c vd w pg (opsF2 vs1 vs2 w scal) (fun f _ l g => elemSign f (arg l 0) (sgnjBits f (arg l 0) (arg l 1)) g)))

/-- VFEQ: a predicate compare (R162, R164). -/
def execVfeq (d : DieIx) (c : CoreIx) (vd vs1 vs2 : Fin 32) (w : Fin 4) (pg : Fin 8) (scal : Bool) (s : State) :
    Host.Outcome State Fault Refusal :=
  onDie d s (fun t => t.vinsn d c (.vfeq d c vd vs1 vs2 w pg scal) (decide (vd.val < 8)) (fun u => u.vfCmp d c .eq vd vs1 vs2 w pg scal))

/-- VFLT: a predicate compare (R162, R164). -/
def execVflt (d : DieIx) (c : CoreIx) (vd vs1 vs2 : Fin 32) (w : Fin 4) (pg : Fin 8) (scal : Bool) (s : State) :
    Host.Outcome State Fault Refusal :=
  onDie d s (fun t => t.vinsn d c (.vflt d c vd vs1 vs2 w pg scal) (decide (vd.val < 8)) (fun u => u.vfCmp d c .lt vd vs1 vs2 w pg scal))

/-- VFLE: a predicate compare (R162, R164). -/
def execVfle (d : DieIx) (c : CoreIx) (vd vs1 vs2 : Fin 32) (w : Fin 4) (pg : Fin 8) (scal : Bool) (s : State) :
    Host.Outcome State Fault Refusal :=
  onDie d s (fun t => t.vinsn d c (.vfle d c vd vs1 vs2 w pg scal) (decide (vd.val < 8)) (fun u => u.vfCmp d c .le vd vs1 vs2 w pg scal))

/-- VFUNORD: a predicate compare (R162, R164). -/
def execVfunord (d : DieIx) (c : CoreIx) (vd vs1 vs2 : Fin 32) (w : Fin 4) (pg : Fin 8) (scal : Bool) (s : State) :
    Host.Outcome State Fault Refusal :=
  onDie d s (fun t => t.vinsn d c (.vfunord d c vd vs1 vs2 w pg scal) (decide (vd.val < 8)) (fun u => u.vfCmp d c .unord vd vs1 vs2 w pg scal))

/-- VF2I: out of range or NaN sets the CFLAGS bit and invalid, and saturation ISAT (R153). -/
def execVf2i (d : DieIx) (c : CoreIx) (vd vs1 vs2 : Fin 32) (w : Fin 4) (pg : Fin 8) (scal : Bool) (s : State) :
    Host.Outcome State Fault Refusal :=
  onDie d s (fun t => t.vinsn d c (.vf2i d c vd vs1 vs2 w pg scal) (unary vs2 scal) (fun u =>
    match floatOf w.val with
    | none => vbad
    | some f =>
      let k := u.core d c
      let r := vloop true (fun l g => elemToInt f (elemBits w) k.vround (arg l 0) g) ((k.active w pg).map (fun i => (i, [k.el vs1 w i]))) k.gen
      .ok (u.vwrite d c vd w r.1 r.2.1 r.2.2)))

/-- VI2F (R153). -/
def execVi2f (d : DieIx) (c : CoreIx) (vd vs1 vs2 : Fin 32) (w : Fin 4) (pg : Fin 8) (scal : Bool) (s : State) :
    Host.Outcome State Fault Refusal :=
  onDie d s (fun t => t.vinsn d c (.vi2f d c vd vs1 vs2 w pg scal) (unary vs2 scal) (fun u => u.vfArith d c vd w pg (ops1 vs1 w) (fun f m l g => elemFromInt f (elemBits w) m (arg l 0) g)))

/-- VFSUMT: the tree sum (R154). -/
def execVfsumt (d : DieIx) (c : CoreIx) (vd vs1 vs2 : Fin 32) (w : Fin 4) (pg : Fin 8) (scal : Bool) (s : State) :
    Host.Outcome State Fault Refusal :=
  onDie d s (fun t => t.vinsn d c (.vfsumt d c vd vs1 vs2 w pg scal) (unary vs2 scal) (fun u =>
    match floatOf w.val with
    | none => vbad
    | some f =>
      u.vreduce d c vd w pg (activeEls vs1 w pg) (fun k act g =>
        let r := tree (fun a b h => let o := elemBin .add f k.vround a b h; (o.bits, vflags o false, o.gen)) (9 - w.val)
          (positions k vs1 w act) g
        (r.1.getD 0, r.2))))

/-- A sum that is NaN because an element is takes the payload of the first NaN in the order vs1, vd (R151). -/
def sumPayload (f : Fmt) (els : List Nat) (start : Nat) (r : Nat × DWord × Gen) : Nat × DWord × Gen :=
  match (if els.isEmpty then none else firstNan f (els ++ [start])) with
  | some n => (quieted f n, r.2)
  | none => r

/-- VFSUMS: the sum in index order, starting from vd[0] (R154). -/
def execVfsums (d : DieIx) (c : CoreIx) (vd vs1 vs2 : Fin 32) (w : Fin 4) (pg : Fin 8) (scal : Bool) (s : State) :
    Host.Outcome State Fault Refusal :=
  onDie d s (fun t => t.vinsn d c (.vfsums d c vd vs1 vs2 w pg scal) (unary vs2 scal) (fun u =>
    match floatOf w.val with
    | none => vbad
    | some f =>
      u.vreduce d c vd w pg (fun k => k.el vd w 0 :: activeEls vs1 w pg k) (fun k act g =>
        let els := act.map (fun i => velem k.vec.v[vs1] w i)
        let start := velem k.vec.v[vd] w 0
        sumPayload f els start (vfold (fun a b h => elemBin .add f k.vround a b h) els start 0 g))))

/-- VFMAXR: the extreme active element (R154). -/
def execVfmaxr (d : DieIx) (c : CoreIx) (vd vs1 vs2 : Fin 32) (w : Fin 4) (pg : Fin 8) (scal : Bool) (s : State) :
    Host.Outcome State Fault Refusal :=
  onDie d s (fun t => t.vinsn d c (.vfmaxr d c vd vs1 vs2 w pg scal) (unary vs2 scal) (fun u =>
    match floatOf w.val with
    | none => vbad
    | some f =>
      u.vreduce d c vd w pg (activeEls vs1 w pg) (fun k act g =>
        vextreme (fun a b h => elemMinMax true f a b h) (canonNan f) (act.map (fun i => velem k.vec.v[vs1] w i)) g)))

/-- VFMINR: the extreme active element (R154). -/
def execVfminr (d : DieIx) (c : CoreIx) (vd vs1 vs2 : Fin 32) (w : Fin 4) (pg : Fin 8) (scal : Bool) (s : State) :
    Host.Outcome State Fault Refusal :=
  onDie d s (fun t => t.vinsn d c (.vfminr d c vd vs1 vs2 w pg scal) (unary vs2 scal) (fun u =>
    match floatOf w.val with
    | none => vbad
    | some f =>
      u.vreduce d c vd w pg (activeEls vs1 w pg) (fun k act g =>
        vextreme (fun a b h => elemMinMax false f a b h) (canonNan f) (act.map (fun i => velem k.vec.v[vs1] w i)) g)))

/-! ### Integer instructions -/

/-- VADD (R153). -/
def execVadd (d : DieIx) (c : CoreIx) (vd vs1 vs2 : Fin 32) (w : Fin 4) (pg : Fin 8) (scal : Bool) (s : State) :
    Host.Outcome State Fault Refusal :=
  onDie d s (fun t => t.vinsn d c (.vadd d c vd vs1 vs2 w pg scal) true (fun u => u.viArith d c vd w pg (opsI2 vs1 vs2 w scal) (fun a b => wrapW w (a + b))))

/-- VSUB (R153). -/
def execVsub (d : DieIx) (c : CoreIx) (vd vs1 vs2 : Fin 32) (w : Fin 4) (pg : Fin 8) (scal : Bool) (s : State) :
    Host.Outcome State Fault Refusal :=
  onDie d s (fun t => t.vinsn d c (.vsub d c vd vs1 vs2 w pg scal) true (fun u => u.viArith d c vd w pg (opsI2 vs1 vs2 w scal) (fun a b => wrapW w ((a : Int) - b))))

/-- VMUL (R153). -/
def execVmul (d : DieIx) (c : CoreIx) (vd vs1 vs2 : Fin 32) (w : Fin 4) (pg : Fin 8) (scal : Bool) (s : State) :
    Host.Outcome State Fault Refusal :=
  onDie d s (fun t => t.vinsn d c (.vmul d c vd vs1 vs2 w pg scal) true (fun u => u.viArith d c vd w pg (opsI2 vs1 vs2 w scal) (fun a b => wrapW w (a * b))))

/-- VAND (R153). -/
def execVand (d : DieIx) (c : CoreIx) (vd vs1 vs2 : Fin 32) (w : Fin 4) (pg : Fin 8) (scal : Bool) (s : State) :
    Host.Outcome State Fault Refusal :=
  onDie d s (fun t => t.vinsn d c (.vand d c vd vs1 vs2 w pg scal) true (fun u => u.viArith d c vd w pg (opsI2 vs1 vs2 w scal) (fun a b => a &&& b)))

/-- VOR (R153). -/
def execVor (d : DieIx) (c : CoreIx) (vd vs1 vs2 : Fin 32) (w : Fin 4) (pg : Fin 8) (scal : Bool) (s : State) :
    Host.Outcome State Fault Refusal :=
  onDie d s (fun t => t.vinsn d c (.vor d c vd vs1 vs2 w pg scal) true (fun u => u.viArith d c vd w pg (opsI2 vs1 vs2 w scal) (fun a b => a ||| b)))

/-- VXOR (R153). -/
def execVxor (d : DieIx) (c : CoreIx) (vd vs1 vs2 : Fin 32) (w : Fin 4) (pg : Fin 8) (scal : Bool) (s : State) :
    Host.Outcome State Fault Refusal :=
  onDie d s (fun t => t.vinsn d c (.vxor d c vd vs1 vs2 w pg scal) true (fun u => u.viArith d c vd w pg (opsI2 vs1 vs2 w scal) (fun a b => Nat.xor a b)))

/-- VSLL (R153). -/
def execVsll (d : DieIx) (c : CoreIx) (vd vs1 vs2 : Fin 32) (w : Fin 4) (pg : Fin 8) (scal : Bool) (s : State) :
    Host.Outcome State Fault Refusal :=
  onDie d s (fun t => t.vinsn d c (.vsll d c vd vs1 vs2 w pg scal) true (fun u => u.viArith d c vd w pg (opsI2 vs1 vs2 w scal) (vshift w 1 (fun a b => a * 2 ^ b))))

/-- VSRL (R153). -/
def execVsrl (d : DieIx) (c : CoreIx) (vd vs1 vs2 : Fin 32) (w : Fin 4) (pg : Fin 8) (scal : Bool) (s : State) :
    Host.Outcome State Fault Refusal :=
  onDie d s (fun t => t.vinsn d c (.vsrl d c vd vs1 vs2 w pg scal) true (fun u => u.viArith d c vd w pg (opsI2 vs1 vs2 w scal) (vshift w 2 (fun a b => a / 2 ^ b))))

/-- VSRA (R153). -/
def execVsra (d : DieIx) (c : CoreIx) (vd vs1 vs2 : Fin 32) (w : Fin 4) (pg : Fin 8) (scal : Bool) (s : State) :
    Host.Outcome State Fault Refusal :=
  onDie d s (fun t => t.vinsn d c (.vsra d c vd vs1 vs2 w pg scal) true (fun u => u.viArith d c vd w pg (opsI2 vs1 vs2 w scal) (vshift w 3 (fun a b => wrapW w (intS w a / 2 ^ b)))))

/-- VMIN (R153). -/
def execVmin (d : DieIx) (c : CoreIx) (vd vs1 vs2 : Fin 32) (w : Fin 4) (pg : Fin 8) (scal : Bool) (s : State) :
    Host.Outcome State Fault Refusal :=
  onDie d s (fun t => t.vinsn d c (.vmin d c vd vs1 vs2 w pg scal) true (fun u => u.viArith d c vd w pg (opsI2 vs1 vs2 w scal) (fun a b => if intS w a ≤ intS w b then a else b)))

/-- VMAX (R153). -/
def execVmax (d : DieIx) (c : CoreIx) (vd vs1 vs2 : Fin 32) (w : Fin 4) (pg : Fin 8) (scal : Bool) (s : State) :
    Host.Outcome State Fault Refusal :=
  onDie d s (fun t => t.vinsn d c (.vmax d c vd vs1 vs2 w pg scal) true (fun u => u.viArith d c vd w pg (opsI2 vs1 vs2 w scal) (fun a b => if intS w a ≥ intS w b then a else b)))

/-- VMINU (R153). -/
def execVminu (d : DieIx) (c : CoreIx) (vd vs1 vs2 : Fin 32) (w : Fin 4) (pg : Fin 8) (scal : Bool) (s : State) :
    Host.Outcome State Fault Refusal :=
  onDie d s (fun t => t.vinsn d c (.vminu d c vd vs1 vs2 w pg scal) true (fun u => u.viArith d c vd w pg (opsI2 vs1 vs2 w scal) (fun a b => min a b)))

/-- VMAXU (R153). -/
def execVmaxu (d : DieIx) (c : CoreIx) (vd vs1 vs2 : Fin 32) (w : Fin 4) (pg : Fin 8) (scal : Bool) (s : State) :
    Host.Outcome State Fault Refusal :=
  onDie d s (fun t => t.vinsn d c (.vmaxu d c vd vs1 vs2 w pg scal) true (fun u => u.viArith d c vd w pg (opsI2 vs1 vs2 w scal) (fun a b => max a b)))

/-- VEQ: a predicate compare (R162). -/
def execVeq (d : DieIx) (c : CoreIx) (vd vs1 vs2 : Fin 32) (w : Fin 4) (pg : Fin 8) (scal : Bool) (s : State) :
    Host.Outcome State Fault Refusal :=
  onDie d s (fun t => t.vinsn d c (.veq d c vd vs1 vs2 w pg scal) (decide (vd.val < 8)) (fun u => u.vcmp d c vd w pg (opsI2 vs1 vs2 w scal) (fun a b => (a == b, 0))))

/-- VLT: a predicate compare (R162). -/
def execVlt (d : DieIx) (c : CoreIx) (vd vs1 vs2 : Fin 32) (w : Fin 4) (pg : Fin 8) (scal : Bool) (s : State) :
    Host.Outcome State Fault Refusal :=
  onDie d s (fun t => t.vinsn d c (.vlt d c vd vs1 vs2 w pg scal) (decide (vd.val < 8)) (fun u => u.vcmp d c vd w pg (opsI2 vs1 vs2 w scal) (fun a b => (decide (intS w a < intS w b), 0))))

/-- VLTU: a predicate compare (R162). -/
def execVltu (d : DieIx) (c : CoreIx) (vd vs1 vs2 : Fin 32) (w : Fin 4) (pg : Fin 8) (scal : Bool) (s : State) :
    Host.Outcome State Fault Refusal :=
  onDie d s (fun t => t.vinsn d c (.vltu d c vd vs1 vs2 w pg scal) (decide (vd.val < 8)) (fun u => u.vcmp d c vd w pg (opsI2 vs1 vs2 w scal) (fun a b => (decide (a < b), 0))))

/-- VSUMT: the tree sum of integers (R154). -/
def execVsumt (d : DieIx) (c : CoreIx) (vd vs1 vs2 : Fin 32) (w : Fin 4) (pg : Fin 8) (scal : Bool) (s : State) :
    Host.Outcome State Fault Refusal :=
  onDie d s (fun t => t.vinsn d c (.vsumt d c vd vs1 vs2 w pg scal) (unary vs2 scal) (fun u =>
    u.vreduce d c vd w pg (activeEls vs1 w pg) (fun k act g =>
      let r := tree (fun (a b : Nat) h => (wrapW w (a + b), 0, h)) (9 - w.val) (positions k vs1 w act) g
      (r.1.getD 0, 0, g))))

/-- VMAXR (R154). -/
def execVmaxr (d : DieIx) (c : CoreIx) (vd vs1 vs2 : Fin 32) (w : Fin 4) (pg : Fin 8) (scal : Bool) (s : State) :
    Host.Outcome State Fault Refusal :=
  onDie d s (fun t => t.vinsn d c (.vmaxr d c vd vs1 vs2 w pg scal) (unary vs2 scal) (fun u => u.vreduce d c vd w pg (activeEls vs1 w pg) (fun k act g =>
    vextreme (fun a b h => ⟨if intS w a ≥ intS w b then a else b, 0, 0, h⟩) 0 (act.map (fun i => velem k.vec.v[vs1] w i)) g)))

/-- VMINR (R154). -/
def execVminr (d : DieIx) (c : CoreIx) (vd vs1 vs2 : Fin 32) (w : Fin 4) (pg : Fin 8) (scal : Bool) (s : State) :
    Host.Outcome State Fault Refusal :=
  onDie d s (fun t => t.vinsn d c (.vminr d c vd vs1 vs2 w pg scal) (unary vs2 scal) (fun u => u.vreduce d c vd w pg (activeEls vs1 w pg) (fun k act g =>
    vextreme (fun a b h => ⟨if intS w a ≤ intS w b then a else b, 0, 0, h⟩) 0 (act.map (fun i => velem k.vec.v[vs1] w i)) g)))

/-! ### Data movement (R155) -/

def vout (i : Nat) (e : VEl) : VOut := ⟨i, e.bits, e.bad⟩

/-- VSEL: vs1 where the predicate bit is set, vs2 where it is clear, for every element below the span count. -/
def execVsel (d : DieIx) (c : CoreIx) (vd vs1 vs2 : Fin 32) (w : Fin 4) (pg : Fin 8) (scal : Bool) (s : State) :
    Host.Outcome State Fault Refusal :=
  onDie d s (fun t => t.vinsn d c (.vsel d c vd vs1 vs2 w pg scal) true (fun u =>
    let k := u.core d c
    let p := k.pred pg
    .ok (u.vwrite d c vd w ((List.range (k.count w)).map (fun i =>
      vout i (if bitAt p i then k.el vs1 w i else k.srcI vs2 scal w i))) 0 k.gen)))

/-- VCOPY: vs2, or the scalar, into the active elements. -/
def execVcopy (d : DieIx) (c : CoreIx) (vd vs1 vs2 : Fin 32) (w : Fin 4) (pg : Fin 8) (scal : Bool) (s : State) :
    Host.Outcome State Fault Refusal :=
  onDie d s (fun t => t.vinsn d c (.vcopy d c vd vs1 vs2 w pg scal) true (fun u =>
    let k := u.core d c
    .ok (u.vwrite d c vd w ((k.active w pg).map (fun i => vout i (k.srcI vs2 scal w i))) 0 k.gen)))

/-- VINDEX: the index into each active element. -/
def execVindex (d : DieIx) (c : CoreIx) (vd vs1 vs2 : Fin 32) (w : Fin 4) (pg : Fin 8) (scal : Bool) (s : State) :
    Host.Outcome State Fault Refusal :=
  onDie d s (fun t => t.vinsn d c (.vindex d c vd vs1 vs2 w pg scal) (unary vs2 scal) (fun u =>
    let k := u.core d c
    .ok (u.vwrite d c vd w ((k.active w pg).map (fun i => ⟨i, i % 2 ^ elemBits w, false⟩)) 0 k.gen)))

/-- VTOG: element 0, sign-extended, to a g register; poison faults (R162). -/
def execVtog (d : DieIx) (c : CoreIx) (rd vs1 vs2 : Fin 32) (w : Fin 4) (pg : Fin 8) (scal : Bool) (s : State) :
    Host.Outcome State Fault Refusal :=
  onDie d s (fun t => t.vinsn d c (.vtog d c rd vs1 vs2 w pg scal) (unary vs2 scal) (fun u =>
    let e := (u.core d c).el vs1 w 0
    if e.bad then .trap (trapVector 3 0 0)
    else .ok (u.modCore d c (fun k => k.setG rd (BitVec.ofInt 64 (intS w e.bits))))))

/-- VSHU: up by k elements; elements below k keep their values. -/
def execVshu (d : DieIx) (c : CoreIx) (vd vs1 vs2 : Fin 32) (w : Fin 4) (pg : Fin 8) (scal : Bool) (s : State) :
    Host.Outcome State Fault Refusal :=
  onDie d s (fun t => t.vinsn d c (.vshu d c vd vs1 vs2 w pg scal) true (fun u =>
    let k := u.core d c
    let n := (k.getG vs2).toNat
    if !scal then vbad
    else .ok (u.vwrite d c vd w (((k.active w pg).filter (fun i => decide (n ≤ i))).map (fun i => vout i (k.el vs1 w (i - n)))) 0 k.gen)))

/-- VSHD: down by k elements; zero enters at the top. -/
def execVshd (d : DieIx) (c : CoreIx) (vd vs1 vs2 : Fin 32) (w : Fin 4) (pg : Fin 8) (scal : Bool) (s : State) :
    Host.Outcome State Fault Refusal :=
  onDie d s (fun t => t.vinsn d c (.vshd d c vd vs1 vs2 w pg scal) true (fun u =>
    let k := u.core d c
    let n := (k.getG vs2).toNat
    if !scal then vbad
    else .ok (u.vwrite d c vd w ((k.active w pg).map (fun i =>
      vout i (if i + n < lanes w then k.el vs1 w (i + n) else ⟨0, false⟩))) 0 k.gen)))

/-- VPACK: the selected elements packed from element 0 up. -/
def execVpack (d : DieIx) (c : CoreIx) (vd vs1 vs2 : Fin 32) (w : Fin 4) (pg : Fin 8) (scal : Bool) (s : State) :
    Host.Outcome State Fault Refusal :=
  onDie d s (fun t => t.vinsn d c (.vpack d c vd vs1 vs2 w pg scal) (unary vs2 scal) (fun u =>
    let k := u.core d c
    .ok (u.vwrite d c vd w (((k.active w pg).zipIdx).map (fun e => vout e.2 (k.el vs1 w e.1))) 0 k.gen)))

/-! ### Predicates (R147) -/

/-- Bits below a count of a predicate take a function of the index. -/
def Core.setBelow (k : Core) (p : Fin 8) (n : Nat) (f : Nat → Bool) : Core :=
  k.setBits p ((List.range n).map (fun i => (i, f i)))

def vpLegal (pd ps1 ps2 : Fin 32) : Bool := decide (pd.val < 8) && decide (ps1.val < 8) && decide (ps2.val < 8)

/-- PAND (R147); its pg field is ignored. -/
def execPand (d : DieIx) (c : CoreIx) (pd ps1 ps2 : Fin 32) (w : Fin 4) (pg : Fin 8) (s : State) :
    Host.Outcome State Fault Refusal :=
  onDie d s (fun t => t.vinsn d c (.pand d c pd ps1 ps2 w pg) (vpLegal pd ps1 ps2) (fun u =>
    let k := u.core d c
    let a := k.pred (predIx ps1)
    let b := k.pred (predIx ps2)
    .ok (u.modCore d c (fun x => x.setBelow (predIx pd) (k.count w) (fun i => bitAt a i && bitAt b i)))))

/-- POR (R147); its pg field is ignored. -/
def execPor (d : DieIx) (c : CoreIx) (pd ps1 ps2 : Fin 32) (w : Fin 4) (pg : Fin 8) (s : State) :
    Host.Outcome State Fault Refusal :=
  onDie d s (fun t => t.vinsn d c (.por d c pd ps1 ps2 w pg) (vpLegal pd ps1 ps2) (fun u =>
    let k := u.core d c
    let a := k.pred (predIx ps1)
    let b := k.pred (predIx ps2)
    .ok (u.modCore d c (fun x => x.setBelow (predIx pd) (k.count w) (fun i => bitAt a i || bitAt b i)))))

/-- PXOR (R147); its pg field is ignored. -/
def execPxor (d : DieIx) (c : CoreIx) (pd ps1 ps2 : Fin 32) (w : Fin 4) (pg : Fin 8) (s : State) :
    Host.Outcome State Fault Refusal :=
  onDie d s (fun t => t.vinsn d c (.pxor d c pd ps1 ps2 w pg) (vpLegal pd ps1 ps2) (fun u =>
    let k := u.core d c
    let a := k.pred (predIx ps1)
    let b := k.pred (predIx ps2)
    .ok (u.modCore d c (fun x => x.setBelow (predIx pd) (k.count w) (fun i => bitAt a i != bitAt b i)))))

/-- PANDN (R147); its pg field is ignored. -/
def execPandn (d : DieIx) (c : CoreIx) (pd ps1 ps2 : Fin 32) (w : Fin 4) (pg : Fin 8) (s : State) :
    Host.Outcome State Fault Refusal :=
  onDie d s (fun t => t.vinsn d c (.pandn d c pd ps1 ps2 w pg) (vpLegal pd ps1 ps2) (fun u =>
    let k := u.core d c
    let a := k.pred (predIx ps1)
    let b := k.pred (predIx ps2)
    .ok (u.modCore d c (fun x => x.setBelow (predIx pd) (k.count w) (fun i => bitAt a i && !bitAt b i)))))

/-- PSET (R147); its pg field is ignored. -/
def execPset (d : DieIx) (c : CoreIx) (pd ps1 ps2 : Fin 32) (w : Fin 4) (pg : Fin 8) (s : State) :
    Host.Outcome State Fault Refusal :=
  onDie d s (fun t => t.vinsn d c (.pset d c pd ps1 ps2 w pg) (vpLegal pd ps1 ps2) (fun u =>
    .ok (u.modCore d c (fun x => x.setBelow (predIx pd) (x.count w) (fun _ => true)))))

/-- PCLR (R147); its pg field is ignored. -/
def execPclr (d : DieIx) (c : CoreIx) (pd ps1 ps2 : Fin 32) (w : Fin 4) (pg : Fin 8) (s : State) :
    Host.Outcome State Fault Refusal :=
  onDie d s (fun t => t.vinsn d c (.pclr d c pd ps1 ps2 w pg) (vpLegal pd ps1 ps2) (fun u =>
    .ok (u.modCore d c (fun x => x.setBelow (predIx pd) (x.count w) (fun _ => false)))))

/-- PPOP: the number of set bits below the span count (R147); rd is all of [25:21] (DEDUCED, log entry 133). -/
def execPpop (d : DieIx) (c : CoreIx) (rd ps1 ps2 : Fin 32) (w : Fin 4) (pg : Fin 8) (s : State) :
    Host.Outcome State Fault Refusal :=
  onDie d s (fun t => t.vinsn d c (.ppop d c rd ps1 ps2 w pg) (vpLegal 0 ps1 ps2) (fun u =>
    let k := u.core d c
    .ok (u.modCore d c (fun x => x.setG rd (BitVec.ofNat 64 ((k.active w pg).length))))))

/-- PLOW: the lowest set bit, or the span count below the span count (R147); rd is all of [25:21] (DEDUCED, log entry 133). -/
def execPlow (d : DieIx) (c : CoreIx) (rd ps1 ps2 : Fin 32) (w : Fin 4) (pg : Fin 8) (s : State) :
    Host.Outcome State Fault Refusal :=
  onDie d s (fun t => t.vinsn d c (.plow d c rd ps1 ps2 w pg) (vpLegal 0 ps1 ps2) (fun u =>
    let k := u.core d c
    .ok (u.modCore d c (fun x => x.setG rd (BitVec.ofNat 64 ((k.active w pg).headD (k.count w)))))))

/-! ### Control (R145, R147, R148, R159) -/

def widthOf (imm : BitVec 11) : Fin 4 := ⟨fld imm 0 2, Nat.mod_lt _ (by decide)⟩

/-- SETVL (R145). -/
def execSetvl (d : DieIx) (c : CoreIx) (rd rs1 : Fin 32) (imm : BitVec 11) (s : State) :
    Host.Outcome State Fault Refusal :=
  onDie d s (fun t => t.vinsn d c (.setvl d c rd rs1 imm) (decide (fld imm 2 9 = 0)) (fun u =>
    let w := widthOf imm
    .ok (u.modCore d c (fun k =>
      let n := min (k.getG rs1).toNat (lanes w)
      ({ k with vec := { k.vec with span := n * 2 ^ w.val } } : Core).setG rd (BitVec.ofNat 64 n)))))

/-- SETVFULL (R145). -/
def execSetvfull (d : DieIx) (c : CoreIx) (rd rs1 : Fin 32) (imm : BitVec 11) (s : State) :
    Host.Outcome State Fault Refusal :=
  onDie d s (fun t => t.vinsn d c (.setvfull d c rd rs1 imm) (decide (fld imm 2 9 = 0) && decide (rs1 = 0)) (fun u =>
    .ok (u.modCore d c (fun k =>
      ({ k with vec := { k.vec with span := 512 } } : Core).setG rd (BitVec.ofNat 64 (lanes (widthOf imm)))))))

/-- VSTATRD (R147). -/
def execVstatrd (d : DieIx) (c : CoreIx) (rd rs1 : Fin 32) (imm : BitVec 11) (s : State) :
    Host.Outcome State Fault Refusal :=
  onDie d s (fun t => t.vinsn d c (.vstatrd d c rd rs1 imm) (decide (rs1 = 0)) (fun u =>
    let k := u.core d c
    match (if imm = 0 then some (BitVec.ofNat 64 k.vec.span) else if imm = 1 then some k.vec.vstat
      else if imm = 2 then some (512 : DWord) else none) with
    | none => vbad
    | some v => .ok (u.modCore d c (fun x => x.setG rd v))))

/-- VSTATWR (R148). -/
def execVstatwr (d : DieIx) (c : CoreIx) (rd rs1 : Fin 32) (imm : BitVec 11) (s : State) :
    Host.Outcome State Fault Refusal :=
  onDie d s (fun t => t.vinsn d c (.vstatwr d c rd rs1 imm) (decide (rd = 0)) (fun u =>
    let v := (u.core d c).getG rs1
    if imm ≠ 1 ∨ (roundCode (fld v 0 3)).isNone then vbad
    else .ok (u.modCore d c (fun x => { x with vec := { x.vec with vstat := v &&& 0x13FFF } }))))

/-- VFENCE (R159): every earlier vector access has taken effect. -/
def execVfence (d : DieIx) (c : CoreIx) (rd rs1 : Fin 32) (imm : BitVec 11) (s : State) :
    Host.Outcome State Fault Refusal :=
  onDie d s (fun t => t.vinsn d c (.vfence d c rd rs1 imm) (decide (rd = 0) && decide (rs1 = 0) && decide (imm = 0)) (fun u => .ok u))

/-! ### Loads and stores (R156 to R158) -/

/-- The type of a register element: a float format, or an integer of the width. -/
inductive RegType where
  | flt (f : Fmt)
  | int (bits : Nat)
deriving DecidableEq, Repr

/-- RT at a width; there is no float type at W = 0. -/
def regType (w : Fin 4) (rt : Bool) : Option RegType :=
  if rt then some (.int (elemBits w)) else (floatOf w.val).map RegType.flt

/-- Whether a memory format is the register's own type, so that bits are copied (R53). -/
def sameType (r : RegType) (f : Fmt) : Bool :=
  match r, f with
  | .flt a, b => a == b
  | .int 8, .int8 => true
  | .int 32, .int32 => true
  | _, _ => false

/-- Convert a memory element into a register (R55). -/
def loadEl (r : RegType) (f : Fmt) (mode : Rnd) (e : Elem) (g : Gen) : FpOut :=
  if sameType r f then ⟨e.raw, 0, 0, g⟩
  else
    let o := match r with
      | .flt x => encodeFloat x mode e.val g
      | .int b => encodeInt b mode e.val g
    ⟨o.bits, 0, o.flags, o.gen⟩

/-- The value of a register element. -/
def regVal (r : RegType) (bits : Nat) : Fpv :=
  match r with
  | .flt f => decodeFloat f bits
  | .int b => .ofInt (signedOf b bits)

/-- Offset and length of the memory that element i of a row touches: its own bytes, or its whole group. -/
def elPlace (f : Fmt) (i : Nat) : Nat × Nat := if f.isBlock then (i / 128 * chunkLen f, chunkLen f) else (i * f.elemBytes, f.elemBytes)
where
  chunkLen (f : Fmt) : Nat := f.rowBytes 128

/-- The distinct places of elements. -/
def elPlaces (f : Fmt) (l : List Nat) : List (Nat × Nat) := (l.map (elPlace f)).dedup

/-- Join neighbouring places into runs. -/
def joinRuns : List (Nat × Nat) → List (Nat × Nat)
  | [] => []
  | p :: ps =>
    match joinRuns ps with
    | [] => [p]
    | q :: qs => if p.1 + p.2 = q.1 then (p.1, p.2 + q.2) :: qs else p :: q :: qs

/-- Elements of a row at a core-local address, with the effects of reading those that are asked for. -/
def State.vread (s : State) (d : DieIx) (c : CoreIx) (a : Nat) (f : Fmt) (idx : List Nat) : List (Nat × Elem) × State :=
  let n := f.rowBytes ((idx.getLast?.getD 0) + 1)
  let key := memKey d 1 (localOff c a)
  let bs := s.peek key n
  let ps := s.poisonOf 1 key n
  let t := (joinRuns (elPlaces f idx)).foldl (fun u p => (u.memRead (u.kernelAccess d c) d 1 (localOff c (a + p.1)) p.2).state) s
  (idx.map (fun i => (i, decodeElem f bs ps i)), t)

/-- Whether an access at an address touches the accumulator bank while the array owns it (R84). -/
def State.vheld (s : State) (d : DieIx) (c : CoreIx) (a : Nat) : Bool := decide (a ≥ 0x800000) && s.bankHeld d c

/-- Whether any of the elements of a row at an address is held at the accumulator bank. -/
def State.elsHeld (s : State) (d : DieIx) (c : CoreIx) (a : Nat) (f : Fmt) (idx : List Nat) : Bool :=
  idx.any (fun i => s.vheld d c (a + (elPlace f i).1))

/-- The checks of a load's fields; the format and the register type. -/
def vloadFmt (fmt : Fin 16) (w : Fin 4) (rt : Bool) : Option (Fmt × Option RegType) :=
  (Fmt.ofCode fmt.val).map (fun f => (f, regType w rt))

/-- Load the given elements of a row from element e₀ on. -/
def State.vload (s : State) (d : DieIx) (c : CoreIx) (vd : Fin 32) (w : Fin 4) (f : Fmt) (r : RegType) (a e0 : Nat) (idx : List Nat) : State :=
  let k := s.core d c
  let m := s.vread d c a f (idx.map (fun i => i + e0))
  let isat := match r with
    | .int _ => true
    | _ => false
  let conv : List VOut × DWord × Gen := m.1.foldl (fun (acc : List VOut × DWord × Gen) e =>
    if e.2.poison then (acc.1 ++ [⟨e.1 - e0, 0, true⟩], acc.2.1, acc.2.2)
    else
      let o := loadEl r f k.vround e.2 acc.2.2
      (acc.1 ++ [⟨e.1 - e0, o.bits, false⟩], acc.2.1 ||| vflags o isat, o.gen)) ([], 0, k.gen)
  m.2.vwrite d c vd w conv.1 conv.2.1 conv.2.2

/-- VLD (R156, R157). -/
def execVld (d : DieIx) (c : CoreIx) (vd rs1 rs2 : Fin 32) (w : Fin 4) (pg : Fin 8) (fmt : Fin 16) (rt impose : Bool) (s : State) :
    Host.Outcome State Fault Refusal :=
  onDie d s (fun t => t.vinsn d c (.vld d c vd rs1 rs2 w pg fmt rt impose) (vloadFmt fmt w rt).isSome (fun u =>
    match vloadFmt fmt w rt with
    | some (f, some r) =>
      let k := u.core d c
      let a := (k.getG rs1).toNat
      let e0 := if f.isBlock then fld (k.getG rs2) 0 7 else 0
      let act := k.active w pg
      if impose ∨ (!f.isBlock ∧ rs2 ≠ 0) then vbad
      else
        match act.find? (fun i => let p := elPlace f (i + e0); !localMapped (a + p.1) p.2) with
        | some i => .trap (trapVector 2 i (a + (elPlace f (i + e0)).1))
        | none => if u.elsHeld d c a f (act.map (fun i => i + e0)) then .stall .vector else .ok (u.vload d c vd w f r a e0 act)
    | _ => vbad))

/-- VLDFF (R158). -/
def execVldff (d : DieIx) (c : CoreIx) (vd rs1 rs2 : Fin 32) (w : Fin 4) (pg : Fin 8) (fmt : Fin 16) (rt impose : Bool) (s : State) :
    Host.Outcome State Fault Refusal :=
  onDie d s (fun t => t.vinsn d c (.vldff d c vd rs1 rs2 w pg fmt rt impose) (vloadFmt fmt w rt).isSome (fun u =>
    match vloadFmt fmt w rt with
    | some (f, some r) =>
      let k := u.core d c
      let a := (k.getG rs1).toNat
      let e0 := if f.isBlock then fld (k.getG rs2) 0 7 else 0
      let n := k.count w
      let readable := fun (i : Nat) => let p := elPlace f (i + e0); localMapped (a + p.1) p.2
      let got := ((List.range n).find? (fun i => !readable i)).getD n
      if impose then vbad
      else if n ≠ 0 ∧ got = 0 then .trap (trapVector 2 0 (a + (elPlace f e0).1))
      else if u.elsHeld d c a f ((List.range got).map (fun i => i + e0)) then .stall .vector
      else
        .ok ((u.vload d c vd w f r a e0 ((k.active w pg).filter (fun i => decide (i < got)))).modCore d c (fun x =>
          x.setG rs2 (BitVec.ofNat 64 got)))
    | _ => vbad))

/-- Convert register elements to a scalar memory format, one after another. -/
def storeEls (r : RegType) (f : Fmt) (mode : Rnd) : List VEl → Gen → List (Enc × Bool) × DWord × Gen
  | [], g => ([], 0, g)
  | e :: es, g =>
    if e.bad then
      let q := storeEls r f mode es g
      ((⟨0, 0, g⟩, true) :: q.1, q.2)
    else
      let o : Enc := if sameType r f then ⟨e.bits, 0, g⟩ else encodeScalar f mode (regVal r e.bits) g
      let q := storeEls r f mode es o.gen
      ((o, false) :: q.1, vflags ⟨0, 0, o.flags, g⟩ f.satStatus ||| q.2.1, q.2.2)

/-- Write the active elements of a scalar format. -/
def State.vstore (s : State) (d : DieIx) (c : CoreIx) (f : Fmt) (a : Nat) (l : List (Nat × Enc × Bool)) : State :=
  (joinRuns (elPlaces f (l.map (fun e => e.1)))).foldl (fun u p =>
    let here := l.filter (fun e => decide (p.1 ≤ e.1 * f.elemBytes) && decide (e.1 * f.elemBytes < p.1 + p.2))
    u.memWrite (u.kernelAccess d c) d 1 (localOff c (a + p.1)) (here.flatMap (fun e => leBytes f.elemBytes e.2.1.bits))
      (here.flatMap (fun e => List.replicate f.elemBytes e.2.2))) s

/-- A store of whole groups (R52, R57). -/
def State.vstoreBlock (s : State) (d : DieIx) (c : CoreIx) (vs : Fin 32) (w : Fin 4) (f : Fmt) (r : RegType) (a : Nat) (imposed : Option Nat) : State :=
  let k := s.core d c
  let es := (List.range (k.count w)).map (fun i => let e := k.el vs w i; (⟨e.bits, regVal r e.bits, e.bad⟩ : Elem))
  let o := encodeRow f k.vround imposed es k.gen
  let t := s.memWrite (s.kernelAccess d c) d 1 (localOff c a) o.bytes o.poison
  (t.modCore d c (fun x => { x with gen := o.gen, vec := { x.vec with vstat := x.vec.vstat ||| vflags ⟨0, 0, o.flags, o.gen⟩ true } })).vxPoison d c o.poisoned

/-- VST (R156, R157): every address is checked before a byte is written. -/
def execVst (d : DieIx) (c : CoreIx) (vs rs1 rs2 : Fin 32) (w : Fin 4) (pg : Fin 8) (fmt : Fin 16) (rt impose : Bool) (s : State) :
    Host.Outcome State Fault Refusal :=
  onDie d s (fun t => t.vinsn d c (.vst d c vs rs1 rs2 w pg fmt rt impose) (vloadFmt fmt w rt).isSome (fun u =>
    match vloadFmt fmt w rt with
    | some (f, some r) =>
      let k := u.core d c
      let a := (k.getG rs1).toNat
      let act := k.active w pg
      let sb := fld (k.getG rs2) 0 8
      if (f.isBlock ∧ (pg ≠ 0 ∨ (impose ∧ sb = 255))) ∨ (!f.isBlock ∧ (impose ∨ rs2 ≠ 0)) then vbad
      else
        match act.find? (fun i => let p := elPlace f i; !localMapped (a + p.1) p.2) with
        | some i => .trap (trapVector 2 i (a + (elPlace f i).1))
        | none =>
          if act.isEmpty then .ok u
          else if u.elsHeld d c a f act then .stall .vector
          else if f.isBlock then .ok (u.vstoreBlock d c vs w f r a (if impose then some sb else none))
          else
            let o := storeEls r f k.vround (act.map (fun i => k.el vs w i)) k.gen
            let v := u.vstore d c f a (act.zip o.1)
            .ok ((v.modCore d c (fun x =>
              { x with gen := o.2.2, vec := { x.vec with vstat := x.vec.vstat ||| o.2.1 } })).vxPoison d c (o.1.any (fun e => e.2)))
    | _ => vbad))

/-! ### Slicing (R72, R160) -/

/-- Smallest normal exponent. -/
def normExp (f : Fmt) : Int := 1 - (binOf f).bias

/-- The n signed slices of an integer, least significant first. -/
def cutSlices : Nat → Int → List Int
  | 0, _ => []
  | 1, a => [a]
  | n + 2, a =>
    let d0 := a % 256
    let d := if d0 ≥ 128 then d0 - 256 else d0
    d :: cutSlices (n + 1) ((a - d) / 256)

/-- The slice record of a chunk (R72, R119); NaN and infinities count as zero. -/
def sliceRecord (f : Fmt) (l : List Fpv) : List Byte :=
  let n := if f = .fp64 then 7 else 3
  let win : Int := if f = .fp64 then 53 else 21
  let live := l.filter (fun v => !v.isNan && !v.isInf && !v.isZero)
  match live with
  | [] => leBytes 2 0x8000 ++ leBytes 1 n ++ leBytes (61 + 128 * n) 0
  | v :: vs =>
    let e := vs.foldl (fun a x => max a (max x.log2 (normExp f))) (max v.log2 (normExp f))
    let cut := l.map (fun v => match v with
      | .fin neg m x =>
        let q := (roundInt .rne neg m (x + win - e) ⟨0, 0, false, 0⟩).val
        cutSlices n (if neg then -(q : Int) else (q : Int))
      | _ => cutSlices n 0)
    leBytes 2 (intBits 16 e) ++ leBytes 1 n ++ leBytes 61 0
      ++ (List.range n).flatMap (fun i => cut.map (fun c => BitVec.ofInt 8 (c.getD i 0)))

/-- VSLICE: imm11[4:0] names rs2, imm11[5] is P. -/
def execVslice (d : DieIx) (c : CoreIx) (rd rs1 : Fin 32) (imm : BitVec 11) (s : State) :
    Host.Outcome State Fault Refusal :=
  onDie d s (fun t => t.vinsn d c (.vslice d c rd rs1 imm) (decide (fld imm 6 5 = 0)) (fun u =>
    let k := u.core d c
    let f : Fmt := if bitAt imm 5 then .fp32 else .fp64
    let a := (k.getG rs1).toNat
    let b := (k.getG ⟨fld imm 0 5, Nat.mod_lt _ (by decide)⟩).toNat
    let len := 128 * f.elemBytes
    let rec' := if f = .fp64 then 960 else 448
    if !localMapped a len then .trap (trapVector 2 0 a)
    else if !localMapped b rec' then .trap (trapVector 2 0 b)
    else if u.vheld d c a || u.vheld d c b then .stall .vector
    else
      let m := u.memRead (u.kernelAccess d c) d 1 (localOff c a) len
      let es := decodeRow f 128 m.bytes m.poison
      let bad := es.any (fun e => e.poison)
      let good := (es.filter (fun e => !e.poison)).map (fun e => e.val)
      let v := (if good.any Fpv.isNan then 1 else 0) + (if good.any (fun x => x.isInf && !x.sign) then 2 else 0)
        + (if good.any (fun x => x.isInf && x.sign) then 4 else 0) + (if bad then 8 else 0)
      let t1 := m.state.memWrite (u.kernelAccess d c) d 1 (localOff c b) (sliceRecord f (es.map (fun e => e.val))) (List.replicate rec' bad)
      .ok ((t1.modCore d c (fun x => x.setG rd (BitVec.ofNat 64 v))).vxPoison d c bad)))

end Sys2Proof.Machine
end

