-- ==== Sys2Proof/Machine/Dispatch.lean ====
section
/-! DEFINITION. The dispatch: one arm per command, in the order of the table. -/

namespace Sys2Proof.Machine

/-- The effect of a command on everything but the queue. -/
def exec (i : Instr) (s : State) : Host.Outcome State Fault Refusal :=
  match i with
  | .strokeBoundary d b => Sys2Proof.Machine.execStrokeBoundary d b s
  | .lossOfLock d => Sys2Proof.Machine.execLossOfLock d s
  | .relock d => Sys2Proof.Machine.execRelock d s
  | .strokeFrame d p frame => Sys2Proof.Machine.execStrokeFrame d p frame s
  | .strokeIn => Sys2Proof.Machine.execStrokeIn s
  | .backupTakeover d => Sys2Proof.Machine.execBackupTakeover d s
  | .freeRun d => Sys2Proof.Machine.execFreeRun d s
  | .throttleNotice d step eff => Sys2Proof.Machine.execThrottleNotice d step eff s
  | .presence d m => Sys2Proof.Machine.execPresence d m s
  | .absenceDeclared d peer => Sys2Proof.Machine.execAbsenceDeclared d peer s
  | .absenceNotice d m => Sys2Proof.Machine.execAbsenceNotice d m s
  | .strokeWrap => Sys2Proof.Machine.execStrokeWrap s
  | .queueWindowWrite d q who off data => Sys2Proof.Machine.execQueueWindowWrite d q who off data s
  | .partialDescriptorDiscard d q => Sys2Proof.Machine.execPartialDescriptorDiscard d q s
  | .completionRecord d q => Sys2Proof.Machine.execCompletionRecord d q s
  | .kernel d c => Sys2Proof.Machine.execKernel d c s
  | .integerInstruction d c op rd rs1 src => Sys2Proof.Machine.execIntegerInstruction d c op rd rs1 src s
  | .scalarLoad d c size fp signed rd rs1 off => Sys2Proof.Machine.execScalarLoad d c size fp signed rd rs1 off s
  | .scalarStore d c size fp rs2 rs1 off => Sys2Proof.Machine.execScalarStore d c size fp rs2 rs1 off s
  | .conditionalBranch d c cond rs1 rs2 off => Sys2Proof.Machine.execConditionalBranch d c cond rs1 rs2 off s
  | .call d c rd off => Sys2Proof.Machine.execCall d c rd off s
  | .callr d c rd rs1 => Sys2Proof.Machine.execCallr d c rd rs1 s
  | .scalarFp d c op dbl rd rs1 rs2 rs3 => Sys2Proof.Machine.execScalarFp d c op dbl rd rs1 rs2 rs3 s
  | .ctlrd d c rd num => Sys2Proof.Machine.execCtlrd d c rd num s
  | .ctlwr d c rs1 num => Sys2Proof.Machine.execCtlwr d c rs1 num s
  | .cpush d c rs1 => Sys2Proof.Machine.execCpush d c rs1 s
  | .waitstroke d c => Sys2Proof.Machine.execWaitstroke d c s
  | .brk d c => Sys2Proof.Machine.execBrk d c s
  | .endK d c rs1 => Sys2Proof.Machine.execEndK d c rs1 s
  | .resume d c => Sys2Proof.Machine.execResume d c s
  | .coreCrBase d c v => Sys2Proof.Machine.execCoreCrBase d c v s
  | .coreCrCtl d c v => Sys2Proof.Machine.execCoreCrCtl d c v s
  | .coreCrPtr d c v => Sys2Proof.Machine.execCoreCrPtr d c v s
  | .copy d c => Sys2Proof.Machine.execCopy d c s
  | .fill d c => Sys2Proof.Machine.execFill d c s
  | .replyTimeout d q => Sys2Proof.Machine.execReplyTimeout d q s
  | .snap d c => Sys2Proof.Machine.execSnap d c s
  | .reseed d c => Sys2Proof.Machine.execReseed d c s
  | .load d c => Sys2Proof.Machine.execLoad d c s
  | .mul d c parity ups => Sys2Proof.Machine.execMul d c parity ups s
  | .diag d c parity ups => Sys2Proof.Machine.execDiag d c parity ups s
  | .drainPop d c => Sys2Proof.Machine.execDrainPop d c s
  | .tableWaitTimeout d c => Sys2Proof.Machine.execTableWaitTimeout d c s
  | .mxwait d c rd imm => Sys2Proof.Machine.execMxwait d c rd imm s
  | .mxlat d c rd => Sys2Proof.Machine.execMxlat d c rd s
  | .setvl d c rd rs1 imm => Sys2Proof.Machine.execSetvl d c rd rs1 imm s
  | .setvfull d c rd rs1 imm => Sys2Proof.Machine.execSetvfull d c rd rs1 imm s
  | .vstatrd d c rd rs1 imm => Sys2Proof.Machine.execVstatrd d c rd rs1 imm s
  | .vstatwr d c rd rs1 imm => Sys2Proof.Machine.execVstatwr d c rd rs1 imm s
  | .vslice d c rd rs1 imm => Sys2Proof.Machine.execVslice d c rd rs1 imm s
  | .vfence d c rd rs1 imm => Sys2Proof.Machine.execVfence d c rd rs1 imm s
  | .vld d c vd rs1 rs2 w pg fmt rt impose => Sys2Proof.Machine.execVld d c vd rs1 rs2 w pg fmt rt impose s
  | .vst d c vs rs1 rs2 w pg fmt rt impose => Sys2Proof.Machine.execVst d c vs rs1 rs2 w pg fmt rt impose s
  | .vldff d c vd rs1 rs2 w pg fmt rt impose => Sys2Proof.Machine.execVldff d c vd rs1 rs2 w pg fmt rt impose s
  | .vfadd d c vd vs1 vs2 w pg scal => Sys2Proof.Machine.execVfadd d c vd vs1 vs2 w pg scal s
  | .vfsub d c vd vs1 vs2 w pg scal => Sys2Proof.Machine.execVfsub d c vd vs1 vs2 w pg scal s
  | .vfmul d c vd vs1 vs2 w pg scal => Sys2Proof.Machine.execVfmul d c vd vs1 vs2 w pg scal s
  | .vfdiv d c vd vs1 vs2 w pg scal => Sys2Proof.Machine.execVfdiv d c vd vs1 vs2 w pg scal s
  | .vfsqrt d c vd vs1 vs2 w pg scal => Sys2Proof.Machine.execVfsqrt d c vd vs1 vs2 w pg scal s
  | .vfmin d c vd vs1 vs2 w pg scal => Sys2Proof.Machine.execVfmin d c vd vs1 vs2 w pg scal s
  | .vfmax d c vd vs1 vs2 w pg scal => Sys2Proof.Machine.execVfmax d c vd vs1 vs2 w pg scal s
  | .vffma d c vd vs1 vs2 w pg scal => Sys2Proof.Machine.execVffma d c vd vs1 vs2 w pg scal s
  | .vffms d c vd vs1 vs2 w pg scal => Sys2Proof.Machine.execVffms d c vd vs1 vs2 w pg scal s
  | .vffnma d c vd vs1 vs2 w pg scal => Sys2Proof.Machine.execVffnma d c vd vs1 vs2 w pg scal s
  | .vfabs d c vd vs1 vs2 w pg scal => Sys2Proof.Machine.execVfabs d c vd vs1 vs2 w pg scal s
  | .vfneg d c vd vs1 vs2 w pg scal => Sys2Proof.Machine.execVfneg d c vd vs1 vs2 w pg scal s
  | .vfsgnj d c vd vs1 vs2 w pg scal => Sys2Proof.Machine.execVfsgnj d c vd vs1 vs2 w pg scal s
  | .vfeq d c vd vs1 vs2 w pg scal => Sys2Proof.Machine.execVfeq d c vd vs1 vs2 w pg scal s
  | .vflt d c vd vs1 vs2 w pg scal => Sys2Proof.Machine.execVflt d c vd vs1 vs2 w pg scal s
  | .vfle d c vd vs1 vs2 w pg scal => Sys2Proof.Machine.execVfle d c vd vs1 vs2 w pg scal s
  | .vfunord d c vd vs1 vs2 w pg scal => Sys2Proof.Machine.execVfunord d c vd vs1 vs2 w pg scal s
  | .vf2i d c vd vs1 vs2 w pg scal => Sys2Proof.Machine.execVf2i d c vd vs1 vs2 w pg scal s
  | .vi2f d c vd vs1 vs2 w pg scal => Sys2Proof.Machine.execVi2f d c vd vs1 vs2 w pg scal s
  | .vfsumt d c vd vs1 vs2 w pg scal => Sys2Proof.Machine.execVfsumt d c vd vs1 vs2 w pg scal s
  | .vfsums d c vd vs1 vs2 w pg scal => Sys2Proof.Machine.execVfsums d c vd vs1 vs2 w pg scal s
  | .vfmaxr d c vd vs1 vs2 w pg scal => Sys2Proof.Machine.execVfmaxr d c vd vs1 vs2 w pg scal s
  | .vfminr d c vd vs1 vs2 w pg scal => Sys2Proof.Machine.execVfminr d c vd vs1 vs2 w pg scal s
  | .vadd d c vd vs1 vs2 w pg scal => Sys2Proof.Machine.execVadd d c vd vs1 vs2 w pg scal s
  | .vsub d c vd vs1 vs2 w pg scal => Sys2Proof.Machine.execVsub d c vd vs1 vs2 w pg scal s
  | .vmul d c vd vs1 vs2 w pg scal => Sys2Proof.Machine.execVmul d c vd vs1 vs2 w pg scal s
  | .vand d c vd vs1 vs2 w pg scal => Sys2Proof.Machine.execVand d c vd vs1 vs2 w pg scal s
  | .vor d c vd vs1 vs2 w pg scal => Sys2Proof.Machine.execVor d c vd vs1 vs2 w pg scal s
  | .vxor d c vd vs1 vs2 w pg scal => Sys2Proof.Machine.execVxor d c vd vs1 vs2 w pg scal s
  | .vsll d c vd vs1 vs2 w pg scal => Sys2Proof.Machine.execVsll d c vd vs1 vs2 w pg scal s
  | .vsrl d c vd vs1 vs2 w pg scal => Sys2Proof.Machine.execVsrl d c vd vs1 vs2 w pg scal s
  | .vsra d c vd vs1 vs2 w pg scal => Sys2Proof.Machine.execVsra d c vd vs1 vs2 w pg scal s
  | .vmin d c vd vs1 vs2 w pg scal => Sys2Proof.Machine.execVmin d c vd vs1 vs2 w pg scal s
  | .vmax d c vd vs1 vs2 w pg scal => Sys2Proof.Machine.execVmax d c vd vs1 vs2 w pg scal s
  | .vminu d c vd vs1 vs2 w pg scal => Sys2Proof.Machine.execVminu d c vd vs1 vs2 w pg scal s
  | .vmaxu d c vd vs1 vs2 w pg scal => Sys2Proof.Machine.execVmaxu d c vd vs1 vs2 w pg scal s
  | .veq d c vd vs1 vs2 w pg scal => Sys2Proof.Machine.execVeq d c vd vs1 vs2 w pg scal s
  | .vlt d c vd vs1 vs2 w pg scal => Sys2Proof.Machine.execVlt d c vd vs1 vs2 w pg scal s
  | .vltu d c vd vs1 vs2 w pg scal => Sys2Proof.Machine.execVltu d c vd vs1 vs2 w pg scal s
  | .vsumt d c vd vs1 vs2 w pg scal => Sys2Proof.Machine.execVsumt d c vd vs1 vs2 w pg scal s
  | .vmaxr d c vd vs1 vs2 w pg scal => Sys2Proof.Machine.execVmaxr d c vd vs1 vs2 w pg scal s
  | .vminr d c vd vs1 vs2 w pg scal => Sys2Proof.Machine.execVminr d c vd vs1 vs2 w pg scal s
  | .vsel d c vd vs1 vs2 w pg scal => Sys2Proof.Machine.execVsel d c vd vs1 vs2 w pg scal s
  | .vcopy d c vd vs1 vs2 w pg scal => Sys2Proof.Machine.execVcopy d c vd vs1 vs2 w pg scal s
  | .vindex d c vd vs1 vs2 w pg scal => Sys2Proof.Machine.execVindex d c vd vs1 vs2 w pg scal s
  | .vtog d c rd vs1 vs2 w pg scal => Sys2Proof.Machine.execVtog d c rd vs1 vs2 w pg scal s
  | .vshu d c vd vs1 vs2 w pg scal => Sys2Proof.Machine.execVshu d c vd vs1 vs2 w pg scal s
  | .vshd d c vd vs1 vs2 w pg scal => Sys2Proof.Machine.execVshd d c vd vs1 vs2 w pg scal s
  | .vpack d c vd vs1 vs2 w pg scal => Sys2Proof.Machine.execVpack d c vd vs1 vs2 w pg scal s
  | .pand d c pd ps1 ps2 w pg => Sys2Proof.Machine.execPand d c pd ps1 ps2 w pg s
  | .por d c pd ps1 ps2 w pg => Sys2Proof.Machine.execPor d c pd ps1 ps2 w pg s
  | .pxor d c pd ps1 ps2 w pg => Sys2Proof.Machine.execPxor d c pd ps1 ps2 w pg s
  | .pandn d c pd ps1 ps2 w pg => Sys2Proof.Machine.execPandn d c pd ps1 ps2 w pg s
  | .pset d c pd ps1 ps2 w pg => Sys2Proof.Machine.execPset d c pd ps1 ps2 w pg s
  | .pclr d c pd ps1 ps2 w pg => Sys2Proof.Machine.execPclr d c pd ps1 ps2 w pg s
  | .ppop d c rd ps1 ps2 w pg => Sys2Proof.Machine.execPpop d c rd ps1 ps2 w pg s
  | .plow d c rd ps1 ps2 w pg => Sys2Proof.Machine.execPlow d c rd ps1 ps2 w pg s
  | .push d c => Sys2Proof.Machine.execPush d c s
  | .pop d c => Sys2Proof.Machine.execPop d c s
  | .clear d c => Sys2Proof.Machine.execClear d c s
  | .rechunk d => Sys2Proof.Machine.execRechunk d s
  | .tableLoad d k => Sys2Proof.Machine.execTableLoad d k s
  | .bilCtxCfg d who c v => Sys2Proof.Machine.execBilCtxCfg d who c v s
  | .bilCtxBase d who c v => Sys2Proof.Machine.execBilCtxBase d who c v s
  | .bilCtxSize d who c v => Sys2Proof.Machine.execBilCtxSize d who c v s
  | .softmaxFwd d q => Sys2Proof.Machine.execSoftmaxFwd d q s
  | .normFwd d q => Sys2Proof.Machine.execNormFwd d q s
  | .softmaxBwd d q => Sys2Proof.Machine.execSoftmaxBwd d q s
  | .normBwd d q => Sys2Proof.Machine.execNormBwd d q s
  | .flush d q => Sys2Proof.Machine.execFlush d q s
  | .drop d q => Sys2Proof.Machine.execDrop d q s
  | .rowCtxBase d who c v => Sys2Proof.Machine.execRowCtxBase d who c v s
  | .rowCtxGeom d who c v => Sys2Proof.Machine.execRowCtxGeom d who c v s
  | .update d => Sys2Proof.Machine.execUpdate d s
  | .bucketOpen d => Sys2Proof.Machine.execBucketOpen d s
  | .bucketClose d => Sys2Proof.Machine.execBucketClose d s
  | .updSet d who k v => Sys2Proof.Machine.execUpdSet d who k v s
  | .updReseed d => Sys2Proof.Machine.execUpdReseed d s
  | .bktReseed d => Sys2Proof.Machine.execBktReseed d s
  | .structLoad d => Sys2Proof.Machine.execStructLoad d s
  | .structFree d => Sys2Proof.Machine.execStructFree d s
  | .values d => Sys2Proof.Machine.execValues d s
  | .factorSolve d fails => Sys2Proof.Machine.execFactorSolve d fails s
  | .solve d fails => Sys2Proof.Machine.execSolve d fails s
  | .refine d fails => Sys2Proof.Machine.execRefine d fails s
  | .adjoint d fails => Sys2Proof.Machine.execAdjoint d fails s
  | .ipmStep d fails => Sys2Proof.Machine.execIpmStep d fails s
  | .phase d => Sys2Proof.Machine.execPhase d s
  | .crucibleTask d who how => Sys2Proof.Machine.execCrucibleTask d who how s
  | .phaseDone d m => Sys2Proof.Machine.execPhaseDone d m s
  | .cutoff d => Sys2Proof.Machine.execCutoff d s
  | .arm d k => Sys2Proof.Machine.execArm d k s
  | .veto d k => Sys2Proof.Machine.execVeto d k s
  | .updCmtC d k hi v => Sys2Proof.Machine.execUpdCmtC d k hi v s
  | .voteCutoff d k => Sys2Proof.Machine.execVoteCutoff d k s
  | .vote d m => Sys2Proof.Machine.execVote d m s
  | .rootDecision d k => Sys2Proof.Machine.execRootDecision d k s
  | .verdict d m => Sys2Proof.Machine.execVerdict d m s
  | .verdictAck d m => Sys2Proof.Machine.execVerdictAck d m s
  | .verdictQuery d m => Sys2Proof.Machine.execVerdictQuery d m s
  | .commitStroke d k => Sys2Proof.Machine.execCommitStroke d k s
  | .askBackupRoot d k => Sys2Proof.Machine.execAskBackupRoot d k s
  | .refresh d pc waits => Sys2Proof.Machine.execRefresh d pc waits s
  | .rfm d pc waits => Sys2Proof.Machine.execRfm d pc waits s
  | .phaseUpdate d => Sys2Proof.Machine.execPhaseUpdate d s
  | .hbmPowerDown d ch => Sys2Proof.Machine.execHbmPowerDown d ch s
  | .promotion d pc slot kind => Sys2Proof.Machine.execPromotion d pc slot kind s
  | .temperatureReading d k temp => Sys2Proof.Machine.execTemperatureReading d k temp s
  | .hbmLaneFailure d k ca idx => Sys2Proof.Machine.execHbmLaneFailure d k ca idx s
  | .hbmTestGo d => Sys2Proof.Machine.execHbmTestGo d s
  | .testHold d who hold => Sys2Proof.Machine.execTestHold d who hold s
  | .wrapperOperationEnd d err => Sys2Proof.Machine.execWrapperOperationEnd d err s
  | .poisonWriteBack d => Sys2Proof.Machine.execPoisonWriteBack d s
  | .scrub d data check => Sys2Proof.Machine.execScrub d data check s
  | .leak d n => Sys2Proof.Machine.execLeak d n s
  | .flipArm d who => Sys2Proof.Machine.execFlipArm d who s
  | .eccRowlog d e valid => Sys2Proof.Machine.execEccRowlog d e valid s
  | .data d p frame => Sys2Proof.Machine.execData d p frame s
  | .ack d p frame => Sys2Proof.Machine.execAck d p frame s
  | .heartbeat d p frame => Sys2Proof.Machine.execHeartbeat d p frame s
  | .frameInterval d p => Sys2Proof.Machine.execFrameInterval d p s
  | .retransmission d p => Sys2Proof.Machine.execRetransmission d p s
  | .silence d p => Sys2Proof.Machine.execSilence d p s
  | .linkLaneFailure d p => Sys2Proof.Machine.execLinkLaneFailure d p s
  | .portTraining d p lanes => Sys2Proof.Machine.execPortTraining d p lanes s
  | .retrain d p => Sys2Proof.Machine.execRetrain d p s
  | .hello d p frame => Sys2Proof.Machine.execHello d p frame s
  | .helloInterval d p => Sys2Proof.Machine.execHelloInterval d p s
  | .helloTimeout d p => Sys2Proof.Machine.execHelloTimeout d p s
  | .echo d p frame => Sys2Proof.Machine.execEcho d p frame s
  | .echoReply d p frame => Sys2Proof.Machine.execEchoReply d p frame s
  | .accept d p frame => Sys2Proof.Machine.execAccept d p frame s
  | .reject d p frame => Sys2Proof.Machine.execReject d p frame s
  | .boardPresence d m => Sys2Proof.Machine.execBoardPresence d m s
  | .boardMaster => Sys2Proof.Machine.execBoardMaster s
  | .reenable d p who => Sys2Proof.Machine.execReenable d p who s
  | .disable d p who on => Sys2Proof.Machine.execDisable d p who on s
  | .readReq d m => Sys2Proof.Machine.execReadReq d m s
  | .writeReq d m => Sys2Proof.Machine.execWriteReq d m s
  | .readReply d m => Sys2Proof.Machine.execReadReply d m s
  | .writeAck d m => Sys2Proof.Machine.execWriteAck d m s
  | .ucieLinkFailure d => Sys2Proof.Machine.execUcieLinkFailure d s
  | .allreduce d => Sys2Proof.Machine.execAllreduce d s
  | .allgather d => Sys2Proof.Machine.execAllgather d s
  | .broadcast d => Sys2Proof.Machine.execBroadcast d s
  | .dispatch d => Sys2Proof.Machine.execDispatch d s
  | .combine d => Sys2Proof.Machine.execCombine d s
  | .contrib d m upset => Sys2Proof.Machine.execContrib d m upset s
  | .partialMsg d m upset => Sys2Proof.Machine.execPartialMsg d m upset s
  | .result d m => Sys2Proof.Machine.execResult d m s
  | .scalePropose d m => Sys2Proof.Machine.execScalePropose d m s
  | .scaleSet d m => Sys2Proof.Machine.execScaleSet d m s
  | .scaleFix d m => Sys2Proof.Machine.execScaleFix d m s
  | .gather d m => Sys2Proof.Machine.execGather d m s
  | .txCounts d m => Sys2Proof.Machine.execTxCounts d m s
  | .txGrant d m => Sys2Proof.Machine.execTxGrant d m s
  | .txRows d m => Sys2Proof.Machine.execTxRows d m s
  | .txReturn d m => Sys2Proof.Machine.execTxReturn d m s
  | .contributionDeadline d => Sys2Proof.Machine.execContributionDeadline d s
  | .resultDeadline d => Sys2Proof.Machine.execResultDeadline d s
  | .colCtxCfg d who k v => Sys2Proof.Machine.execColCtxCfg d who k v s
  | .colCtxNext d who k v => Sys2Proof.Machine.execColCtxNext d who k v s
  | .colCtxAtLo d who k v => Sys2Proof.Machine.execColCtxAtLo d who k v s
  | .colCtxGrpBase d who k v => Sys2Proof.Machine.execColCtxGrpBase d who k v s
  | .colAlg d who v => Sys2Proof.Machine.execColAlg d who v s
  | .colReseed d => Sys2Proof.Machine.execColReseed d s
  | .hang d u => Sys2Proof.Machine.execHang d u s
  | .missingStrokeReport d => Sys2Proof.Machine.execMissingStrokeReport d s
  | .watchdog => Sys2Proof.Machine.execWatchdog s
  | .engineReset d c e cause => Sys2Proof.Machine.execEngineReset d c e cause s
  | .coreReset d c cause => Sys2Proof.Machine.execCoreReset d c cause s
  | .quadrantReset d q cause => Sys2Proof.Machine.execQuadrantReset d q cause s
  | .dieReset d cause => Sys2Proof.Machine.execDieReset d cause s
  | .moduleWarmReset cause => Sys2Proof.Machine.execModuleWarmReset cause s
  | .resetComplete what us => Sys2Proof.Machine.execResetComplete what us s
  | .resetTimeout d dom => Sys2Proof.Machine.execResetTimeout d dom s
  | .warmResetTimeout => Sys2Proof.Machine.execWarmResetTimeout s
  | .resetNotice d m => Sys2Proof.Machine.execResetNotice d m s
  | .memberReturn d k answer => Sys2Proof.Machine.execMemberReturn d k answer s
  | .hltResetCtl d who v => Sys2Proof.Machine.execHltResetCtl d who v s
  | .replay d who own nb => Sys2Proof.Machine.execReplay d who own nb s
  | .replayClaim d => Sys2Proof.Machine.execReplayClaim d s
  | .assayUnit d u fail again o => Sys2Proof.Machine.execAssayUnit d u fail again o s
  | .starved d => Sys2Proof.Machine.execStarved d s
  | .touchstone d fails => Sys2Proof.Machine.execTouchstone d fails s
  | .touchstoneDeadline d => Sys2Proof.Machine.execTouchstoneDeadline d s
  | .assayPass d => Sys2Proof.Machine.execAssayPass d s
  | .asyQfree d who v => Sys2Proof.Machine.execAsyQfree d who v s
  | .powerUp b => Sys2Proof.Machine.execPowerUp b s
  | .powerDownSequence => Sys2Proof.Machine.execPowerDownSequence s
  | .undervoltage => Sys2Proof.Machine.execUndervoltage s
  | .undervoltageRelease => Sys2Proof.Machine.execUndervoltageRelease s
  | .brownOut => Sys2Proof.Machine.execBrownOut s
  | .moduleTrip cause => Sys2Proof.Machine.execModuleTrip cause s
  | .dieTrip d => Sys2Proof.Machine.execDieTrip d s
  | .junctionReading d temp => Sys2Proof.Machine.execJunctionReading d temp s
  | .coolantReading inlet outlet => Sys2Proof.Machine.execCoolantReading inlet outlet s
  | .capEvaluation m => Sys2Proof.Machine.execCapEvaluation m s
  | .throtN low => Sys2Proof.Machine.execThrotN low s
  | .modResetN low => Sys2Proof.Machine.execModResetN low s
  | .a1Entry d => Sys2Proof.Machine.execA1Entry d s
  | .a0Request mask busy b => Sys2Proof.Machine.execA0Request mask busy b s
  | .a2Entry mask busy => Sys2Proof.Machine.execA2Entry mask busy s
  | .a3Entry mask busy => Sys2Proof.Machine.execA3Entry mask busy s
  | .pwrCap v => Sys2Proof.Machine.execPwrCap v s
  | .i3cPrivateWrite off data busy b => Sys2Proof.Machine.execI3cPrivateWrite off data busy b s
  | .i3cPrivateRead n => Sys2Proof.Machine.execI3cPrivateRead n s
  | .pelSqTail q tail descs => Sys2Proof.Machine.execPelSqTail q tail descs s
  | .pelCqHead q head => Sys2Proof.Machine.execPelCqHead q head s
  | .pelAqCtl v => Sys2Proof.Machine.execPelAqCtl v s
  | .pelAcqBase v => Sys2Proof.Machine.execPelAcqBase v s
  | .hostInterfaceReset linkDown => Sys2Proof.Machine.execHostInterfaceReset linkDown s
  | .nop q => Sys2Proof.Machine.execNop q s
  | .queueBind q => Sys2Proof.Machine.execQueueBind q s
  | .jobCreate q => Sys2Proof.Machine.execJobCreate q s
  | .jobStart q => Sys2Proof.Machine.execJobStart q s
  | .planStep job => Sys2Proof.Machine.execPlanStep job s
  | .jobResume q => Sys2Proof.Machine.execJobResume q s
  | .jobTeardown q => Sys2Proof.Machine.execJobTeardown q s
  | .hostCopy q => Sys2Proof.Machine.execHostCopy q s
  | .attest q => Sys2Proof.Machine.execAttest q s
  | .imageWrite q => Sys2Proof.Machine.execImageWrite q s
  | .imageSelect q bad => Sys2Proof.Machine.execImageSelect q bad s
  | .serviceModuleWarmReset q => Sys2Proof.Machine.execServiceModuleWarmReset q s
  | .clearEscalationCounters q => Sys2Proof.Machine.execClearEscalationCounters q s
  | .eraseLibrary q => Sys2Proof.Machine.execEraseLibrary q s
  | .servicePortReenable q => Sys2Proof.Machine.execServicePortReenable q s
  | .hbmRepairRun q res => Sys2Proof.Machine.execHbmRepairRun q res s
  | .serviceDomainReset q => Sys2Proof.Machine.execServiceDomainReset q s
  | .ownerKeyEnrolment q => Sys2Proof.Machine.execOwnerKeyEnrolment q s
  | .ownerKeyRevocation q => Sys2Proof.Machine.execOwnerKeyRevocation q s
  | .selfCheck ok => Sys2Proof.Machine.execSelfCheck ok s
  | .stkCapCtl d v => Sys2Proof.Machine.execStkCapCtl d v s
  | .registerWrite d who off v high => Sys2Proof.Machine.execRegisterWrite d who off v high s
  | .inputRestored b => Sys2Proof.Machine.execInputRestored b s
  | .faultClear removed => Sys2Proof.Machine.execFaultClear removed s
  | .pcieLinkUp gen width flit => Sys2Proof.Machine.execPcieLinkUp gen width flit s
  | .testPortAccess d k take => Sys2Proof.Machine.execTestPortAccess d k take s

end Sys2Proof.Machine
end

