-- ==== Sys2Proof/Safety.lean ====
section
/-! DEFINITION. The terms in which claims about a run are made: a die that can act, the canonical form of the memories, and what
no step changes. -/

namespace Sys2Proof.Machine

/-- A die that the variant populates and that is out of reset (R13, R462): commands act on it. -/
abbrev Ready (s : State) (d : DieIx) : Prop := s.present d = true ∧ (s.die d).held = false

/-- The canonical form of a memory: addresses strictly rising in both tables, no byte equal to 0 and no mark equal to clean. -/
abbrev Mem.wf (m : Mem) : Prop := SMap.wf (fun _ => 0) m.cells = true ∧ SMap.wf (fun _ => Mark.clean) m.marks = true

/-- Both memories have the canonical form. -/
abbrev MemoriesWf (s : State) : Prop := s.mem.wf ∧ s.host.wf

/-- A kernel runs on a core and its next instruction is fetched without an exception: the program counter is aligned and in the
scratchpad, no word there carries a mark, and no g register is poisoned (R76, R79, R302). -/
abbrev CanFetch (s : State) (d : DieIx) (c : CoreIx) : Prop :=
  Ready s d ∧ (s.core d c).proc.running = true ∧ (s.core d c).proc.waitStroke = false ∧ (s.core d c).proc.pc.toNat % 4 = 0
    ∧ (s.core d c).proc.pc.toNat + 4 ≤ 0x400000 ∧ (s.core d c).proc.bad = 0 ∧ s.marksIn 1 (memKey d 1 (spBase c + (s.core d c).proc.pc.toNat)) 4 = []

/-- The word that a core fetches next. -/
abbrev State.nextWord (s : State) (d : DieIx) (c : CoreIx) : Word :=
  BitVec.ofNat 32 (leNat (s.peek (memKey d 1 (spBase c + (s.core d c).proc.pc.toNat)) 4))

/-- The word that a core fetches next is an encoding of an instruction (R76, R77; which words spell a scalar instruction is the model's
reading, log entry 135). -/
abbrev Spelt (s : State) (d : DieIx) (c : CoreIx) (i : Instr) : Prop :=
  Decode.illegalWord (s.nextWord d c) = false ∧ Decode.spells d c (s.nextWord d c) i = true

/-- The next state t holds, behind the records that waited before, the record of command r with a status, a hallmark and a detail
(R91). -/
abbrev Filed (s t : State) (d : DieIx) (q : QId) (r : Running) (st : Nat) (hall detail : Word) : Prop :=
  ∃ x l, (t.queue d q).done = (s.queue d q).done ++ x :: l ∧ x.tag = BitVec.ofNat 16 (dTag r.desc)
    ∧ x.kind = BitVec.ofNat 8 (dKind r.desc) ∧ x.job = dJob r.desc ∧ x.status = BitVec.ofNat 8 st ∧ x.hallmark = hall ∧ x.detail = detail

/-- The command that runs in a queue under a KIND: unpoisoned, in the stroke of its release, not merely awaiting acknowledgements
(R36, R38, R302). -/
abbrev Runs (s : State) (d : DieIx) (q : QId) (kind : Nat) (r : Running) : Prop :=
  s.runningOf d q kind = some r ∧ r.poison = false ∧ r.acking = false ∧ r.released = s.stroke d

/-- The command that a condition picks in a queue, under the same terms. -/
abbrev Picks (s : State) (d : DieIx) (q : QId) (pick : Running → Bool) (r : Running) : Prop :=
  (s.queue d q).running.find? pick = some r ∧ r.poison = false ∧ r.acking = false ∧ r.released = s.stroke d

/-- The state in which a collective engine's next grant has gone to command r: the turn stands at the context of its job (R362). -/
abbrev State.granted (s : State) (d : DieIx) (q : QId) (r : Running) : State :=
  let turn := if q = .col then (s.die d).colTurn else (s.die d).txeTurn
  let n := (s.colCtx d (dJob r.desc)).getD turn
  s.modDie d (fun x => if q = .col then { x with colTurn := n } else { x with txeTurn := n })

/-- The command of a collective engine that a condition picks and whose context is next in turn, under the terms of `Runs` (R362). -/
abbrev Granted (s : State) (d : DieIx) (q : QId) (pick : Running → Bool) (r : Running) : Prop :=
  s.grantNext d q (if q = .col then (s.die d).colTurn else (s.die d).txeTurn) pick = some r
    ∧ (s.queue d q).running.find? (fun y => decide (y.ident = r.ident)) = some r
    ∧ r.poison = false ∧ r.acking = false ∧ r.released = s.stroke d

/-- The next instruction of a core is fetched without an exception and its vector engine is neither fenced nor being reset (R163, R407). -/
abbrev CanIssue (s : State) (d : DieIx) (c : CoreIx) : Prop := CanFetch s d c ∧ s.vecFenced d c = false ∧ s.vecResetting d c = false

/-- Between s and t a vector instruction of core c has moved the program counter to the next word and may have changed vector register
vd with its marks, VSTAT, the generator and VX_POISON_COUNT, and nothing else of the core, of its neighbours or of memory. -/
abbrev VectorFrame (s t : State) (d : DieIx) (c : CoreIx) (vd : Fin 32) : Prop :=
  t.mem = s.mem ∧ (t.core d c).proc = { (s.core d c).proc with pc := (s.core d c).proc.pc + 4, stall := .no }
    ∧ (∀ r : Fin 32, r ≠ vd → (t.core d c).vec.v[r] = (s.core d c).vec.v[r] ∧ (t.core d c).vec.poison[r] = (s.core d c).vec.poison[r])
    ∧ (t.core d c).vec.p = (s.core d c).vec.p ∧ (t.core d c).vec.span = (s.core d c).vec.span
    ∧ (t.core d c).queue = (s.core d c).queue ∧ (t.core d c).arr = (s.core d c).arr
    ∧ (∀ j : CoreIx, j ≠ c → t.core d j = s.core d j) ∧ (∀ e : DieIx, e ≠ d → t.die e = s.die e)

/-- Element i is active: below the span count, with its predicate bit set (R146). -/
abbrev IsActive (s : State) (d : DieIx) (c : CoreIx) (w : Fin 4) (pg : Fin 8) (i : Nat) : Prop :=
  i < (s.core d c).count w ∧ ((s.core d c).pred pg).getLsbD i = true

/-- Signed value of an element. -/
abbrev signedEl (w : Fin 4) (a : Nat) : Int := (BitVec.ofNat (elemBits w) a).toInt

/-- The event log of die d after one more entry of its uncore with an event code, status 0 and a detail; a full log has lost its oldest
entry (R43, R539). -/
abbrev State.logWith (s : State) (d : DieIx) (code detail : Nat) : List LogEntry :=
  (if (s.die d).log.length < 32768 then (s.die d).log else (s.die d).log.tail)
    ++ [⟨s.stamp d, s.endpoint d 63, BitVec.ofNat 16 code, 0, s.dieGen d, none, BitVec.ofNat 64 detail⟩]

end Sys2Proof.Machine
end

