-- ==== Sys2Proof/Certificates/Slice0/Obligations.lean ====
section
/-! DEFINITION. The statements for the provers. -/

open Sys2Proof Sys2Proof.Machine
open Host (Outcome)

/-- R212, R215, R217, R275, R391 and R394: the writable bits, the condition under which a write takes effect, and what is logged otherwise. -/
def Obligations.ContextWrites : Prop :=
  (∀ (s : State) (d : DieIx) (c : Fin 16) (v : Word), Ready s d →
    let idle := s.reg d (rBilCtx c 3) = 0 ∧ s.reg d (rBilCtx c 4) = 0 ∧ s.ctxBusy d c = false
    (idle →
      exec (.bilCtxCfg d .pelbex c v) s = .next (s.setReg d (rBilCtx c 0) (v &&& 0x8FFFFFFF))
      ∧ exec (.bilCtxBase d .pelbex c v) s = .next (s.setReg d (rBilCtx c 1) (v &&& 0x007FFFFF))
      ∧ exec (.bilCtxSize d .pelbex c v) s = .next (s.setReg d (rBilCtx c 2) (v &&& 0x003FFFFF)))
    ∧ (idle ∧ s.rowBound d c = false →
      exec (.rowCtxBase d .pelbex c v) s = .next (s.setReg d (rRowCtxBase c) (v &&& 0x007FFFFF))
      ∧ exec (.rowCtxGeom d .pelbex c v) s = .next (s.setReg d (rRowCtxGeom c) v))
    ∧ (¬ idle →
      exec (.bilCtxCfg d .pelbex c v) s = .next (s.logIgnored d (rBilCtx c 0) 1)
      ∧ exec (.bilCtxBase d .pelbex c v) s = .next (s.logIgnored d (rBilCtx c 1) 1)
      ∧ exec (.bilCtxSize d .pelbex c v) s = .next (s.logIgnored d (rBilCtx c 2) 1)
      ∧ exec (.rowCtxBase d .pelbex c v) s = .next (s.logIgnored d (rRowCtxBase c) 1)
      ∧ exec (.rowCtxGeom d .pelbex c v) s = .next (s.logIgnored d (rRowCtxGeom c) 1))
    ∧ (∀ i : Issuer, i ≠ .pelbex →
      exec (.bilCtxCfg d i c v) s = .next (s.logIgnored d (rBilCtx c 0) 2)
      ∧ exec (.bilCtxBase d i c v) s = .next (s.logIgnored d (rBilCtx c 1) 2)
      ∧ exec (.bilCtxSize d i c v) s = .next (s.logIgnored d (rBilCtx c 2) 2)
      ∧ exec (.rowCtxBase d i c v) s = .next (s.logIgnored d (rRowCtxBase c) 2)
      ∧ exec (.rowCtxGeom d i c v) s = .next (s.logIgnored d (rRowCtxGeom c) 2)))
  ∧ (∀ (s : State) (d : DieIx) (k : CtxIx) (v : Word) (a : DWord), Ready s d →
    (let set := s.setReg d (rUpdSet k) (mixBits 0x80000FFF (s.reg d (rUpdSet k)) v)
     (v.getLsbD 31 = true → exec (.updSet d .pelbex k v) s = .next set)
     ∧ (v.getLsbD 31 = false → exec (.updSet d .pelbex k v) s = .next (set.setReg d (rCmtStat k) 0)))
    ∧ (s.colBusy d (s.colJob d k) = false →
        exec (.colCtxCfg d .pelbex k v) s =
          .next (s.setReg d (rColCtx k 0) (mixBits 0x80000FFF (s.reg d (rColCtx k 0)) v))
        ∧ exec (.colCtxGrpBase d .pelbex k a) s = .next (s.setReg64 d (rColCtx k 4) (a &&& 0x000FFFFFFFFFFFFF)))
    ∧ exec (.colCtxNext d .pelbex k v) s =
        .next (s.setReg d (rColCtx k 1) (mixBits 0x8000FFFF (s.reg d (rColCtx k 1)) v))
    ∧ exec (.colCtxAtLo d .pelbex k v) s = .next (s.setReg d (rColCtx k 2) v)
    ∧ (∀ i : Issuer,
        (fld v 0 3 = 1 ∨ fld v 0 3 = 2 ∨ fld v 0 3 = 4 →
          exec (.colAlg d i v) s = .next (s.setReg d rColAlg (mixBits 0xFFFF0007 (s.reg d rColAlg) v)))
        ∧ (¬ (fld v 0 3 = 1 ∨ fld v 0 3 = 2 ∨ fld v 0 3 = 4) →
          ∃ w : Word, exec (.colAlg d i v) s = .next (s.setReg d rColAlg w) ∧ fld w 0 3 = fld (s.reg d rColAlg) 0 3
            ∧ fld w 16 16 = fld v 16 16))
    ∧ (∀ i : Issuer, i ≠ .pelbex →
        exec (.updSet d i k v) s = .next (s.logIgnored d (rUpdSet k) 2)
        ∧ exec (.colCtxCfg d i k v) s = .next (s.logIgnored d (rColCtx k 0) 2)
        ∧ exec (.colCtxNext d i k v) s = .next (s.logIgnored d (rColCtx k 1) 2)
        ∧ exec (.colCtxAtLo d i k v) s = .next (s.logIgnored d (rColCtx k 2) 2)
        ∧ exec (.colCtxGrpBase d i k a) s = .next (s.logIgnored d (rColCtx k 4) 2)))

/-- R266, R273 and R274. -/
def Obligations.CommitContextArmsAndVetoes : Prop :=
  ∀ (s : State) (d : DieIx) (k : CtxIx) (v : Word), Ready s d →
    ((s.reg d (rUpdSet k)).getLsbD 31 = true → fld (s.reg d (rCmtStat k)) 0 4 = 0 →
      begun (s.stroke d) (s.cmtMinus d k 3) = false →
      ∃ t, exec (.arm d k) s = .next t
        ∧ fld (t.reg d (rCmtStat k)) 0 4 = 1
        ∧ (t.die d).vetoes.getLsbD k = false
        ∧ (t.commit d k).updates = 0 ∧ (t.commit d k).badStatus = 0
        ∧ (∀ j : CtxIx, j ≠ k → t.reg d (rCmtStat j) = s.reg d (rCmtStat j) ∧ t.commit d j = s.commit d j
            ∧ (t.die d).vetoes.getLsbD j = (s.die d).vetoes.getLsbD j)
        ∧ t.mem = s.mem ∧ (t.die d).cores = (s.die d).cores)
    ∧ ((s.reg d (rUpdSet k)).getLsbD 31 = false ∨ fld (s.reg d (rCmtStat k)) 0 4 ≠ 0 →
        exec (.arm d k) s = .next (s.logIgnored d (rCmtCtl k) 1))
    ∧ (fld (s.reg d (rCmtStat k)) 0 4 = 1 →
        ∃ t, exec (.veto d k) s = .next t ∧ (t.die d).vetoes.getLsbD k = true ∧ (t.die d).regs = (s.die d).regs ∧ t.mem = s.mem)
    ∧ (fld (s.reg d (rCmtStat k)) 0 4 = 0 →
        exec (.updCmtC d k false v) s = .next (s.setReg d (rCmtCLo k) v)
        ∧ exec (.updCmtC d k true v) s = .next (s.setReg d (rCmtCHi k) (v &&& 0xFF)))
    ∧ (fld (s.reg d (rCmtStat k)) 0 4 ≠ 0 →
        exec (.updCmtC d k false v) s = .next (s.logIgnored d (rCmtCLo k) 1)
        ∧ exec (.updCmtC d k true v) s = .next (s.logIgnored d (rCmtCHi k) 1))

/-- R105 to R108, and the invalid TAIL of R93. -/
def Obligations.CompletionRingWrites : Prop :=
  ∀ (s : State) (d : DieIx) (c : CoreIx) (a : DWord) (v : Word), Ready s d →
    let ptr := blkCORE c + 0x1C
    let idle := (s.core d c).queue.entries = [] ∧ (s.core d c).queue.backlog = [] ∧ (s.core d c).queue.running = []
    (idle →
      exec (.coreCrBase d c a) s = .next ((s.setReg64 d (blkCORE c + 0x10) (a &&& 0x000FFFFFFFFFFFE0)).setReg d ptr 0))
    ∧ (¬ idle → exec (.coreCrBase d c a) s = .next (s.logIgnored d (blkCORE c + 0x10) 1))
    ∧ (4 ≤ fld v 0 5 ∧ fld v 0 5 ≤ 15 →
        (idle → exec (.coreCrCtl d c v) s = .next ((s.setReg d (blkCORE c + 0x18) (v &&& 0x1F)).setReg d ptr 0))
        ∧ (¬ idle → exec (.coreCrCtl d c v) s = .next (s.logIgnored d (blkCORE c + 0x18) 1)))
    ∧ ((s.rf d ptr 0 16 + 65536 - fld v 16 16) % 65536 ≤ 2 ^ s.rf d (blkCORE c + 0x18) 0 5 →
        exec (.coreCrPtr d c v) s = .next ((s.setRf d ptr 16 16 (fld v 16 16)).startQueue d (.core c)))
    ∧ (2 ^ s.rf d (blkCORE c + 0x18) 0 5 < (s.rf d ptr 0 16 + 65536 - fld v 16 16) % 65536 →
        exec (.coreCrPtr d c v) s = .next (s.logIgnored d ptr 4))

/-- R64, R80, R102, R218, R393, R513, R515, R532, R533, R537 and R538. -/
def Obligations.ControlBitsAndRegisterWrites : Prop :=
  ∀ (s : State) (d : DieIx) (c : CoreIx), Ready s d →
    exec (.reseed d c) s = .next (s.setCore d c { s.core d c with reseed := true })
    ∧ exec (.updReseed d) s = .next (s.setDie d { s.die d with reseedUpd := true })
    ∧ exec (.bktReseed d) s = .next (s.setDie d { s.die d with reseedBkt := true })
    ∧ exec (.colReseed d) s = .next (s.setDie d { s.die d with reseedCol := true })
    ∧ exec (.snap d c) s = .next (s.setCore d c { s.core d c with snap := (s.core d c).idle, snapStamp := s.stamp d })
    ∧ ((s.core d c).proc.stopped = true →
        exec (.resume d c) s =
          .next ((s.setCore d c { s.core d c with proc := { (s.core d c).proc with stopped := false } }).startQueue d (.core c)))
    ∧ ((s.core d c).proc.stopped = false → exec (.resume d c) s = .next s)
    ∧ (∀ v : Word, ∃ t, exec (.stkCapCtl d v) s = .next t ∧ t.mem = s.mem ∧ (∀ e : DieIx, e ≠ d → t.die e = s.die e)
        ∧ ∀ n, n < 4 →
          let old := s.reg d rStkCapCtl
          let new := t.reg d rStkCapCtl
          let src := if fld v (4 * n) 3 = 7 then fld old (4 * n) 3 else fld v (4 * n) 3
          let now := bitAt v (16 + n) && decide (src = 0)
          fld new (4 * n) 3 = src
          ∧ bitAt new (16 + n) = (bitAt v (16 + n) && !now)
          ∧ bitAt new (24 + n) = (if bitAt v (16 + n) then now else bitAt old (24 + n))
          ∧ t.reg64 d (rStkCap n) = (if now then s.stamp d else s.reg64 d (rStkCap n)))
    ∧ (∀ (i : Issuer) (off : Fin 1048576) (v : Word),
        (off.val % 4 ≠ 0 → exec (.registerWrite d i off v none) s = .next s)
        ∧ (off.val = blkID → ∃ t, exec (.registerWrite d i off v none) s = .next t ∧ t.mem = s.mem ∧ ∀ o, t.reg d o = s.reg d o)
        ∧ (off.val = rHltHangCfg → ∃ t, (∀ o, t.reg d o = s.reg d o) ∧ t.mem = s.mem ∧ t.pelRegs = s.pelRegs ∧
            exec (.registerWrite d i off v none) s = .next (if fld v 0 8 = fld (s.reg d rHltHangCfg) 0 8 then t else t.pelCount 24))
        ∧ (off.val = blkCORE c + 0x190 → exec (.registerWrite d i off v none) s = .next (s.setReg d (blkCORE c + 0x190) v))
        ∧ (off.val % 4 = 0 → windowOf off.val = none → (regSpec off.val).half = 1 →
            ∃ t, exec (.registerWrite d i off v none) s = .next t ∧ (t.die d).regs = (s.die d).regs ∧ t.mem = s.mem
              ∧ (t.die d).cores = (s.die d).cores))

/-- R75 to R77: the register write, g0, the sign-extended immediate and the results. The list of operations is the model's choice
(log entry 64). -/
def Obligations.IntegerInstructionResults : Prop :=
  (∀ (s : State) (d : DieIx) (c : CoreIx) (op : IntOp) (rd rs1 rs2 : Fin 32) (i : BitVec 16), CanFetch s d c →
    let k := s.core d c
    let done := fun (v : DWord) => Outcome.next (φ := Fault) (ρ := Refusal) (s.setCore d c ((k.setG rd v).setPc (k.proc.pc + 4)))
    (Spelt s d c (.integerInstruction d c op rd rs1 (.reg rs2)) →
      exec (.integerInstruction d c op rd rs1 (.reg rs2)) s = done (intOp op (k.getG rs1) (k.getG rs2)))
    ∧ (Spelt s d c (.integerInstruction d c op rd rs1 (.imm i)) →
      exec (.integerInstruction d c op rd rs1 (.imm i)) s = done (intOp op (k.getG rs1) (i.signExtend 64))))
  ∧ (∀ (k : Core) (r rd : Fin 32) (v : DWord),
      (k.setG rd v).getG r = (if r = 0 then 0 else if r = rd then v else k.getG r)
      ∧ (k.setG 0 v) = k ∧ k.setG rd v = { k with proc := { k.proc with g := (k.setG rd v).proc.g, bad := (k.setG rd v).proc.bad } }
      ∧ (k.setG rd v).proc.bad.getLsbD r = (k.proc.bad.getLsbD r && !(decide (r = rd) && decide (rd ≠ 0))))
  ∧ (∀ a b : DWord,
      (intOp .add a b).toNat = (a.toNat + b.toNat) % 2 ^ 64
      ∧ intOp .sub a b + b = a
      ∧ (intOp .slt a b = if a.toInt < b.toInt then 1 else 0)
      ∧ (intOp .sltu a b = if a.toNat < b.toNat then 1 else 0)
      ∧ (intOp .seq a b = if a = b then 1 else 0)
      ∧ (intOp .mulh a b).toInt * 2 ^ 64 + ((intOp .mul a b).toNat : Int) = a.toInt * b.toInt
      ∧ (intOp .mulhu a b).toNat * 2 ^ 64 + (intOp .mul a b).toNat = a.toNat * b.toNat
      ∧ (b.toNat < 64 → (intOp .sll a b).toNat = a.toNat * 2 ^ b.toNat % 2 ^ 64
          ∧ (intOp .srl a b).toNat = a.toNat / 2 ^ b.toNat ∧ (intOp .sra a b).toInt = a.toInt / 2 ^ b.toNat)
      ∧ (b ≠ 0 → (intOp .divu a b).toNat * b.toNat + (intOp .remu a b).toNat = a.toNat
          ∧ (intOp .remu a b).toNat < b.toNat)
      ∧ (b ≠ 0 → ¬ (a = 0x8000000000000000 ∧ b = 0xFFFFFFFFFFFFFFFF) →
          (intOp .div a b).toInt = a.toInt.tdiv b.toInt ∧ (intOp .rem a b).toInt = a.toInt.tmod b.toInt))

/-- R77, R78 and R143: scalar loads and stores that raise no exception. -/
def Obligations.ScalarMemoryAccess : Prop :=
  ∀ (s : State) (d : DieIx) (c : CoreIx) (size : Fin 4) (signed : Bool) (r rs1 : Fin 32) (off : BitVec 16), CanFetch s d c →
    let k := s.core d c
    let a := (k.getG rs1 + off.signExtend 64).toNat
    let n := 2 ^ size.val
    let key := memKey d 1 (spBase c + a)
    let v := leNat ((List.range n).map (fun i => SMap.get 0 s.mem.cells (key + i)))
    let x : DWord := if signed && (BitVec.ofNat (8 * n) v).msb then
        BitVec.ofInt 64 ((BitVec.ofNat (8 * n) v).toInt) else BitVec.ofNat 64 v
    a % n = 0 → (a + n ≤ 0x400000 ∨ (0x800000 ≤ a ∧ a + n ≤ 0x900000 ∧ s.bankHeld d c = false)) → s.marksIn 1 key n = [] →
    (Spelt s d c (.scalarLoad d c size false signed r rs1 off) →
      exec (.scalarLoad d c size false signed r rs1 off) s = .next (s.setCore d c ((k.setG r x).setPc (k.proc.pc + 4))))
    ∧ (Spelt s d c (.scalarLoad d c size true signed r rs1 off) → ∃ t, exec (.scalarLoad d c size true signed r rs1 off) s = .next t
        ∧ ((t.core d c).getF r).toNat % 2 ^ (8 * n) = v ∧ ((t.core d c).vec.v[r]).toNat < 2 ^ 64 ∧ (t.core d c).vec.poison[r] = 0
        ∧ (∀ j : Fin 32, j ≠ r → (t.core d c).vec.v[j] = k.vec.v[j] ∧ (t.core d c).vec.poison[j] = k.vec.poison[j])
        ∧ (t.core d c).proc = { k.proc with pc := k.proc.pc + 4, stall := .no } ∧ t.mem = s.mem)
    ∧ (Spelt s d c (.scalarStore d c size false r rs1 off) → ∃ t, exec (.scalarStore d c size false r rs1 off) s = .next t
        ∧ (∀ i, i < n → SMap.get 0 t.mem.cells (key + i) = BitVec.ofNat 8 ((k.getG r).toNat / 2 ^ (8 * i)))
        ∧ (∀ b, (b < key ∨ key + n ≤ b) → SMap.get 0 t.mem.cells b = SMap.get 0 s.mem.cells b)
        ∧ t.core d c = k.setPc (k.proc.pc + 4) ∧ (∀ j : CoreIx, j ≠ c → t.core d j = s.core d j))
    ∧ (Spelt s d c (.scalarStore d c size true r rs1 off) → k.vec.poison[r].getLsbD 0 = false → ∃ t, exec (.scalarStore d c size true r rs1 off) s = .next t
        ∧ (∀ i, i < n → SMap.get 0 t.mem.cells (key + i) = BitVec.ofNat 8 ((k.getF r).toNat / 2 ^ (8 * i)))
        ∧ (∀ b, (b < key ∨ key + n ≤ b) → SMap.get 0 t.mem.cells b = SMap.get 0 s.mem.cells b)
        ∧ t.core d c = k.setPc (k.proc.pc + 4))

/-- R76 and R77: branch offsets count instructions; the link is the address of the next instruction. -/
def Obligations.BranchesAndCalls : Prop :=
  ∀ (s : State) (d : DieIx) (c : CoreIx) (cond : BrCond) (rd rs1 rs2 : Fin 32) (off : BitVec 16) (far : BitVec 21), CanFetch s d c →
    let k := s.core d c
    let a := k.getG rs1
    let b := k.getG rs2
    let holds := match cond with
      | .eq => a = b
      | .ne => a ≠ b
      | .lt => a.toInt < b.toInt
      | .ge => b.toInt ≤ a.toInt
      | .ltu => a.toNat < b.toNat
      | .geu => b.toNat ≤ a.toNat
    (Spelt s d c (.conditionalBranch d c cond rs1 rs2 off) →
      (holds → exec (.conditionalBranch d c cond rs1 rs2 off) s =
      .next (s.setCore d c (k.setPc (k.proc.pc + BitVec.ofInt 64 (4 * off.toInt)))))
      ∧ (¬ holds → exec (.conditionalBranch d c cond rs1 rs2 off) s = .next (s.setCore d c (k.setPc (k.proc.pc + 4)))))
    ∧ (Spelt s d c (.call d c rd far) → exec (.call d c rd far) s =
        .next (s.setCore d c ((k.setG rd (k.proc.pc + 4)).setPc (k.proc.pc + BitVec.ofInt 64 (4 * far.toInt)))))
    ∧ (Spelt s d c (.callr d c rd rs1) → exec (.callr d c rd rs1) s = .next (s.setCore d c ((k.setG rd (k.proc.pc + 4)).setPc a)))

/-- R67, R75, R143 and R162. Bits [63:32] of an FP32 result are free (log entry 66). -/
def Obligations.ScalarFloatingPoint : Prop :=
  ∀ (s : State) (d : DieIx) (c : CoreIx) (op : FpOp) (dbl : Bool) (rd rs1 rs2 rs3 : Fin 32), CanFetch s d c →
    Spelt s d c (.scalarFp d c op dbl rd rs1 rs2 rs3) →
    let k := s.core d c
    let out := fpEval op dbl ((roundCode (fld k.proc.fpctl 0 3)).getD .rne) (k.getF rs1) (k.getF rs2) (k.getF rs3) (k.getG rs1)
    let proc := { k.proc with fpctl := k.proc.fpctl ||| out.2.setWidth 64, pc := k.proc.pc + 4, stall := .no }
    ((∀ r ∈ fpReads op rs1 rs2 rs3, k.vec.poison[r].getLsbD 0 = false) →
      ∃ t, exec (.scalarFp d c op dbl rd rs1 rs2 rs3) s = .next t ∧ t.mem = s.mem
        ∧ (∀ j : CoreIx, j ≠ c → t.core d j = s.core d j)
        ∧ (match out.1 with
           | .g v => (t.core d c).vec = k.vec ∧ (t.core d c).getG rd = (if rd = 0 then 0 else v)
               ∧ (∀ j : Fin 32, j ≠ rd → (t.core d c).getG j = k.getG j)
               ∧ { (t.core d c).proc with g := k.proc.g } = proc
           | .f bits wide => (t.core d c).proc = proc
               ∧ ((t.core d c).getF rd).toNat % 2 ^ (if wide then 64 else 32) = bits % 2 ^ (if wide then 64 else 32)
               ∧ ((t.core d c).vec.v[rd]).toNat < 2 ^ 64 ∧ (t.core d c).vec.poison[rd] = 0
               ∧ (∀ j : Fin 32, j ≠ rd → (t.core d c).vec.v[j] = k.vec.v[j] ∧ (t.core d c).vec.poison[j] = k.vec.poison[j])
               ∧ (t.core d c).vec.p = k.vec.p ∧ (t.core d c).vec.span = k.vec.span ∧ (t.core d c).vec.vstat = k.vec.vstat))
    ∧ ((∃ r ∈ fpReads op rs1 rs2 rs3, k.vec.poison[r].getLsbD 0 = true) →
        exec (.scalarFp d c op dbl rd rs1 rs2 rs3) s = .next (s.takeTrap d c (trapVector 3 0 0)))

/-- R7, R8, R22, R75 and R136. -/
def Obligations.ControlRegisterAccess : Prop :=
  ∀ (s : State) (d : DieIx) (c : CoreIx) (rd rs1 : Fin 32) (num : BitVec 11) (imm : BitVec 16), CanFetch s d c →
    let k := s.core d c
    let write := fun (v : DWord) => Outcome.next (φ := Fault) (ρ := Refusal) (s.setCore d c ((k.setG rd v).setPc (k.proc.pc + 4)))
    let v := k.getG rs1
    let values : List (BitVec 11 × DWord) := [(0x020, k.proc.xcause), (0x021, k.proc.xpc), (0x022, k.proc.xaddr), (0x040, k.proc.fpctl),
      (0x060, (s.die d).timer.stroke ++ (s.die d).timer.cycle), (0x061, BitVec.ofNat 64 (s.moduleNo d * 512 + d.val * 64 + c.val))]
    (Spelt s d c (.ctlrd d c rd num) →
      (∀ x ∈ values, num = x.1 → exec (.ctlrd d c rd num) s = write x.2)
      ∧ (num.toNat ∉ [0x020, 0x021, 0x022, 0x040, 0x060, 0x061] → exec (.ctlrd d c rd num) s = .next (s.takeTrap d c trapIllegal)))
    ∧ (Spelt s d c (.ctlwr d c rs1 num) →
      (num.toNat ∉ [0x020, 0x021, 0x022, 0x040, 0x060, 0x061] → exec (.ctlwr d c rs1 num) s = .next (s.takeTrap d c trapIllegal))
      ∧ (num = 0x040 → v.toNat % 8 ∈ [0, 1, 4, 5] → exec (.ctlwr d c rs1 num) s =
        .next (s.setCore d c (({ k with proc := { k.proc with fpctl := v &&& 0xFF } } : Sys2Proof.Machine.Core).setPc (k.proc.pc + 4))))
      ∧ (num = 0x040 → v.toNat % 8 ∉ [0, 1, 4, 5] → exec (.ctlwr d c rs1 num) s = .next (s.takeTrap d c trapIllegal))
      ∧ (num.toNat ∈ [0x020, 0x021, 0x022, 0x060, 0x061] →
        exec (.ctlwr d c rs1 num) s = .next (s.setCore d c (k.setPc (k.proc.pc + 4)))))
    ∧ (Spelt s d c (.mxlat d c rd) → exec (.mxlat d c rd) s = write ((s.regView d (blkMX c + 0x08)).setWidth 64))
    ∧ (Spelt s d c (.mxwait d c rd imm) →
      (0 ≤ imm.toInt → k.pushed.length ≤ imm.toNat → exec (.mxwait d c rd imm) s = write (k.firstBad.setWidth 64))
      ∧ (0 ≤ imm.toInt → imm.toNat < k.pushed.length → exec (.mxwait d c rd imm) s = .next (s.setCore d c (k.setStall .queue)))
      ∧ (imm.toInt < 0 → exec (.mxwait d c rd imm) s = .next (s.takeTrap d c trapIllegal)))
    ∧ (Spelt s d c (.waitstroke d c) → exec (.waitstroke d c) s =
        .next (s.setCore d c (({ k with proc := { k.proc with waitStroke := true } } : Sys2Proof.Machine.Core).setPc (k.proc.pc + 4))))

/-- R75, R79, R80, R87, R90, R144 and R149. -/
def Obligations.KernelStartsAndEnds : Prop :=
  (∀ (s : State) (d : DieIx) (c : CoreIx) (r : Running), Ready s d → Runs s d (.core c) 0x01 r →
    (s.core d c).proc.running = false → dn r.desc 48 8 = 0 → dn r.desc 56 8 = 0 → s.coreFenced d c = false →
    ∃ t, exec (.kernel d c) s = .next t
      ∧ (t.core d c).proc.running = true ∧ (t.core d c).proc.waitStroke = false ∧ (t.core d c).proc.xcause = 0
      ∧ (t.core d c).proc.pc = BitVec.ofNat 64 (dn r.desc 24 8) ∧ (t.core d c).getG 1 = BitVec.ofNat 64 (dn r.desc 32 8)
      ∧ (t.core d c).getG 2 = BitVec.ofNat 64 (dn r.desc 40 8) ∧ (t.core d c).getG 0 = 0
      ∧ (t.core d c).vec.span = 0 ∧ (t.core d c).vec.vstat = 0
      ∧ (t.core d c).queue = (s.core d c).queue ∧ (t.core d c).arr = (s.core d c).arr ∧ t.mem = s.mem
      ∧ (t.die d).regs = (s.die d).regs ∧ (∀ j : CoreIx, j ≠ c → t.core d j = s.core d j))
  ∧ (∀ (s : State) (d : DieIx) (c : CoreIx) (rs1 : Fin 32) (r : Running), CanFetch s d c → Runs s d (.core c) 0x01 r →
      fld (s.core d c).vec.vstat 16 1 = 0 → r.stats = [] →
      (Spelt s d c (.endK d c rs1) → ∃ t, exec (.endK d c rs1) s = .next t ∧ (t.core d c).proc.running = false
        ∧ Filed s t d (.core c) r 0x00 0 (((s.core d c).getG rs1).setWidth 32)
        ∧ (t.core d c).proc.g = (s.core d c).proc.g)
      ∧ (Spelt s d c (.brk d c) → fld (s.reg d (rCoreCtl c)) 1 1 = 0 →
        ∃ t, exec (.brk d c) s = .next t ∧ (t.core d c).proc.running = false ∧ (t.core d c).proc.xcause = 8
          ∧ (t.core d c).proc.xpc = (s.core d c).proc.pc ∧ (t.core d c).proc.g = (s.core d c).proc.g
          ∧ Filed s t d (.core c) r 0x00 0 (BitVec.ofNat 32 ((s.core d c).proc.pc.toNat / 4 * 256 + 8))))
  ∧ (∀ (s : State) (d : DieIx) (c : CoreIx) (rs1 : Fin 32), CanFetch s d c →
      let k := s.core d c
      let a := (k.getG rs1).toNat
      let x := descOf (s.peek (memKey d 1 (spBase c + a)) 64)
      let y := setFld x 40 8 k.tagCore.toNat
      Spelt s d c (.cpush d c rs1) → a + 64 ≤ 0x400000 → k.queue.backlog = [] → s.resets d (.core c) 0 = false →
      ((64 ≤ k.queue.entries.length ∨ (∃ w, k.queue.claim = some w ∧ w.issuer ≠ .ep (s.endpoint d c.val))) →
        exec (.cpush d c rs1) s = .next (s.setCore d c (k.setStall .queue)))
      ∧ (k.queue.entries.length < 64 → k.queue.claim = none → k.queue.held = [] →
        s.marksIn 1 (memKey d 1 (spBase c + a)) 64 = [] →
        ((k.queue.entries = [] ∧ s.parked d = false ∧ headerOk (.core c) (s.stroke d) y = true)
          ∨ (k.queue.entries ≠ [] ∧ s.startHead d (.core c) = none)) →
      ∃ t, exec (.cpush d c rs1) s = .next t
        ∧ (t.core d c).queue.entries = k.queue.entries ++ [⟨k.queue.nextIdent, y, none, false, false, false⟩]
        ∧ (t.core d c).queue.running = k.queue.running ∧ (t.core d c).proc = { k.proc with pc := k.proc.pc + 4, stall := .no }
        ∧ (t.core d c).vec = k.vec ∧ t.mem = s.mem
        ∧ (t.core d c).pushed = (if 0x20 ≤ dKind x ∧ dKind x ≤ 0x22 then k.pushed ++ [k.queue.nextIdent] else k.pushed)))

/-- R75, R79 and R80. The capture that first-fault stop takes is R411's and is stated with the resets. -/
def Obligations.ExceptionsStopTheKernel : Prop :=
  (∀ (s : State) (d : DieIx) (c : CoreIx) (size : Fin 4) (fp signed : Bool) (rd rs1 : Fin 32) (off : BitVec 16), CanFetch s d c →
    let a := ((s.core d c).getG rs1 + off.signExtend 64).toNat
    ∀ i ∈ [Instr.scalarLoad d c size fp signed rd rs1 off, Instr.scalarStore d c size fp rd rs1 off], Spelt s d c i →
      (a % 2 ^ size.val ≠ 0 → exec i s = .next (s.takeTrap d c ⟨4, a, [0x07], 0, 0⟩))
      ∧ (a % 2 ^ size.val = 0 → 0x400000 ≤ a → a < 0x800000 ∨ 0x900000 ≤ a →
        exec i s = .next (s.takeTrap d c ⟨5, a, [0x07], 0, 0⟩)))
  ∧ (∀ (s : State) (d : DieIx) (c : CoreIx) (rs1 : Fin 32), Ready s d → (s.core d c).proc.running = true →
      (s.core d c).proc.waitStroke = false →
      ((s.core d c).proc.pc.toNat % 4 ≠ 0 → exec (.endK d c rs1) s = .next (s.takeTrap d c ⟨2, 0, [0x07], 0, 0⟩))
      ∧ ((s.core d c).proc.pc.toNat % 4 = 0 → 0x400000 ≤ (s.core d c).proc.pc.toNat →
          exec (.endK d c rs1) s = .next (s.takeTrap d c ⟨3, 0, [0x07], 0, 0⟩))
      ∧ (CanFetch s d c → Decode.illegalWord (s.nextWord d c) = true → exec (.endK d c rs1) s = .next (s.takeTrap d c ⟨1, 0, [0x07], 0, 0⟩)))
  ∧ (∀ w : Word, w = 0 ∨ w = 0xFFFFFFFF ∨ w.toNat / 2 ^ 26 ∈ [0x1E, 0x1F, 0x2F] ∨ 0x32 ≤ w.toNat / 2 ^ 26 ∧ w.toNat / 2 ^ 26 ≠ 0x38 →
      Decode.illegalWord w = true)
  ∧ (∀ (s : State) (d : DieIx) (c : CoreIx) (x : Trap) (r : Running), Runs s d (.core c) 0x01 r → r.stats = [] →
      fld (s.core d c).vec.vstat 16 1 = 0 → x.stats.length ≤ 1 → (∀ st ∈ x.stats, st ∈ [0x02, 0x07, 0x0F]) →
      fld (s.reg d (rCoreCtl c)) 1 1 = 0 →
      let t := s.takeTrap d c x
      t.mem = s.mem ∧ (t.core d c).proc.g = (s.core d c).proc.g ∧ (t.core d c).proc.running = false
        ∧ (t.core d c).proc.stopped = (s.core d c).proc.stopped
        ∧ (t.core d c).proc.xcause = BitVec.ofNat 64 x.cause ∧ (t.core d c).proc.xpc = (s.core d c).proc.pc
        ∧ (t.core d c).proc.xaddr = BitVec.ofNat 64 x.addr
        ∧ Filed s t d (.core c) r (x.stats.headD 0x00) 0 (trapDetail (s.core d c).proc.pc x))
  ∧ (∀ (s : State) (d : DieIx) (c : CoreIx) (x : Trap) (r : Running), Runs s d (.core c) 0x01 r → r.stats = [] →
      fld (s.core d c).vec.vstat 16 1 = 0 → fld (s.reg d (rCoreCtl c)) 1 1 = 1 → s.parked d = false →
      (∀ e ∈ (s.core d c).queue.entries.head?, e.poison = false ∧ e.aborted = false ∧ headerOk (.core c) (s.stroke d) e.desc = true) →
      let t := s.takeTrap d c x
      (t.core d c).proc.g = (s.core d c).proc.g ∧ (t.core d c).proc.running = false ∧ (t.core d c).proc.stopped = true
        ∧ (t.core d c).queue.entries = (s.core d c).queue.entries
        ∧ Filed s t d (.core c) r 0x08 0 (trapDetail (s.core d c).proc.pc x))

/-- R145, R146, R153 and R161 for the element-wise integer instructions. -/
def Obligations.VectorIntegerElements : Prop :=
  ∀ (s : State) (d : DieIx) (c : CoreIx) (vd vs1 vs2 : Fin 32) (w : Fin 4) (pg : Fin 8) (scal : Bool), CanIssue s d c →
    let size := 2 ^ elemBits w
    let rows : List ((DieIx → CoreIx → Fin 32 → Fin 32 → Fin 32 → Fin 4 → Fin 8 → Bool → Instr) × (Nat → Nat → Nat → Prop)) :=
      [(Instr.vadd, fun a b x => x = (a + b) % size), (Instr.vsub, fun a b x => (x + b) % size = a),
        (Instr.vmul, fun a b x => x = a * b % size), (Instr.vand, fun a b x => x = a &&& b), (Instr.vor, fun a b x => x = a ||| b),
        (Instr.vxor, fun a b x => x = a ^^^ b), (Instr.vsll, fun a b x => b < elemBits w → x = a * 2 ^ b % size),
        (Instr.vsrl, fun a b x => b < elemBits w → x = a / 2 ^ b),
        (Instr.vsra, fun a b x => b < elemBits w → signedEl w x = signedEl w a / 2 ^ b),
        (Instr.vmin, fun a b x => signedEl w x = min (signedEl w a) (signedEl w b)),
        (Instr.vmax, fun a b x => signedEl w x = max (signedEl w a) (signedEl w b)),
        (Instr.vminu, fun a b x => x = min a b), (Instr.vmaxu, fun a b x => x = max a b)]
    ∀ p ∈ rows, Spelt s d c (p.1 d c vd vs1 vs2 w pg scal) → ∃ t, exec (p.1 d c vd vs1 vs2 w pg scal) s = .next t ∧ VectorFrame s t d c vd
      ∧ (t.core d c).vec.vstat = (s.core d c).vec.vstat
      ∧ ∀ i, i < lanes w →
        let a := (s.core d c).el vs1 w i
        let b := (s.core d c).srcI vs2 scal w i
        let x := velem (t.core d c).vec.v[vd] w i
        (IsActive s d c w pg i → a.bad = false → b.bad = false → p.2 a.bits b.bits x)
        ∧ (IsActive s d c w pg i → a.bad = true ∨ b.bad = true → (t.core d c).vec.poison[vd].getLsbD (segOf w i) = true)
        ∧ (¬ IsActive s d c w pg i → x = velem (s.core d c).vec.v[vd] w i)

/-- R143, R150, R151, R153 and R161 for the element-wise float instructions. Under SR each rounding takes a draw whose value is free
(log entry 70). -/
def Obligations.VectorFloatElements : Prop :=
  ∀ (s : State) (d : DieIx) (c : CoreIx) (vd vs1 vs2 : Fin 32) (w : Fin 4) (pg : Fin 8) (scal : Bool), CanIssue s d c →
    let k := s.core d c
    let two : List ((DieIx → CoreIx → Fin 32 → Fin 32 → Fin 32 → Fin 4 → Fin 8 → Bool → Instr) × (Fmt → Nat → Nat → Nat → FpOut)) :=
      [(Instr.vfadd, fun f a b _ => elemBin .add f k.vround a b k.gen), (Instr.vfsub, fun f a b _ => elemBin .sub f k.vround a b k.gen),
        (Instr.vfmul, fun f a b _ => elemBin .mul f k.vround a b k.gen), (Instr.vfdiv, fun f a b _ => elemBin .div f k.vround a b k.gen),
        (Instr.vfmin, fun f a b _ => elemMinMax false f a b k.gen), (Instr.vfmax, fun f a b _ => elemMinMax true f a b k.gen),
        (Instr.vffma, fun f a b e => elemFma .fma f k.vround a b e k.gen), (Instr.vffms, fun f a b e => elemFma .fms f k.vround a b e k.gen),
        (Instr.vffnma, fun f a b e => elemFma .fnma f k.vround a b e k.gen), (Instr.vfsgnj, fun f a b _ => elemSign f a (sgnjBits f a b) k.gen)]
    let one : List ((DieIx → CoreIx → Fin 32 → Fin 32 → Fin 32 → Fin 4 → Fin 8 → Bool → Instr) × (Fmt → Nat → FpOut)) :=
      [(Instr.vfsqrt, fun f a => elemSqrt f k.vround a k.gen), (Instr.vfabs, fun f a => elemSign f a (absBits f a) k.gen),
        (Instr.vfneg, fun f a => elemSign f a (negBits f a) k.gen), (Instr.vf2i, fun f a => elemToInt f (elemBits w) k.vround a k.gen),
        (Instr.vi2f, fun f a => elemFromInt f (elemBits w) k.vround a k.gen)]
    (∀ f, floatOf w = some f → k.vround ≠ .sr →
      (∀ p ∈ two, Spelt s d c (p.1 d c vd vs1 vs2 w pg scal) → ∃ t, exec (p.1 d c vd vs1 vs2 w pg scal) s = .next t ∧ VectorFrame s t d c vd
        ∧ ∀ i, i < lanes w →
          let a := k.el vs1 w i
          let b := k.srcF vs2 scal w i
          let e := k.el vd w i
          let x := velem (t.core d c).vec.v[vd] w i
          let third := p.1 d c vd vs1 vs2 w pg scal ∈ [Instr.vffma d c vd vs1 vs2 w pg scal, Instr.vffms d c vd vs1 vs2 w pg scal,
            Instr.vffnma d c vd vs1 vs2 w pg scal]
          (IsActive s d c w pg i → a.bad = false → b.bad = false → (third → e.bad = false) →
            x = (p.2 f a.bits b.bits e.bits).bits % 2 ^ elemBits w)
          ∧ (IsActive s d c w pg i → a.bad = true ∨ b.bad = true → (t.core d c).vec.poison[vd].getLsbD (segOf w i) = true)
          ∧ (¬ IsActive s d c w pg i → x = velem k.vec.v[vd] w i))
      ∧ (∀ p ∈ one, Spelt s d c (p.1 d c vd vs1 0 w pg false) → ∃ t, exec (p.1 d c vd vs1 0 w pg false) s = .next t ∧ VectorFrame s t d c vd
        ∧ ∀ i, i < lanes w →
          let a := k.el vs1 w i
          let x := velem (t.core d c).vec.v[vd] w i
          (IsActive s d c w pg i → a.bad = false → x = (p.2 f a.bits).bits % 2 ^ elemBits w)
          ∧ (IsActive s d c w pg i → a.bad = true → (t.core d c).vec.poison[vd].getLsbD (segOf w i) = true)
          ∧ (¬ IsActive s d c w pg i → x = velem k.vec.v[vd] w i)))
    ∧ ((∀ p ∈ two, Spelt s d c (p.1 d c vd vs1 vs2 0 pg scal) →
          exec (p.1 d c vd vs1 vs2 0 pg scal) s = .next (s.takeTrap d c (trapVector 1 0 0)))
        ∧ (∀ p ∈ one, Spelt s d c (p.1 d c vd vs1 0 0 pg false) → exec (p.1 d c vd vs1 0 0 pg false) s = .next (s.takeTrap d c (trapVector 1 0 0))))

/-- R146, R151, R162 and R164 for the compares. -/
def Obligations.VectorCompares : Prop :=
  ∀ (s : State) (d : DieIx) (c : CoreIx) (vd vs1 vs2 : Fin 32) (w : Fin 4) (pg : Fin 8) (scal : Bool), CanIssue s d c →
    let k := s.core d c
    let ints : List ((DieIx → CoreIx → Fin 32 → Fin 32 → Fin 32 → Fin 4 → Fin 8 → Bool → Instr) × (Nat → Nat → Bool)) :=
      [(Instr.veq, fun a b => decide (a = b)), (Instr.vlt, fun a b => decide (signedEl w a < signedEl w b)),
        (Instr.vltu, fun a b => decide (a < b))]
    let floats : List ((DieIx → CoreIx → Fin 32 → Fin 32 → Fin 32 → Fin 4 → Fin 8 → Bool → Instr) × FCmp) :=
      [(Instr.vfeq, .eq), (Instr.vflt, .lt), (Instr.vfle, .le), (Instr.vfunord, .unord)]
    let wrote := fun (t : State) (bit : Nat → Bool) =>
      t.mem = s.mem ∧ (t.core d c).proc = { k.proc with pc := k.proc.pc + 4, stall := .no } ∧ (t.core d c).vec.v = k.vec.v
      ∧ (t.core d c).vec.poison = k.vec.poison ∧ (t.core d c).vec.span = k.vec.span
      ∧ ∀ (p : Fin 8) (i : Nat), i < 512 → ((t.core d c).pred p).getLsbD i =
          (if p.val = vd.val ∧ p ≠ 0 ∧ i < k.count w ∧ (k.pred pg).getLsbD i then bit i else (k.pred p).getLsbD i)
    (vd.val < 8 →
      ((∀ i, IsActive s d c w pg i → (k.el vs1 w i).bad = false ∧ (k.srcI vs2 scal w i).bad = false) →
        ∀ p ∈ ints, Spelt s d c (p.1 d c vd vs1 vs2 w pg scal) → ∃ t, exec (p.1 d c vd vs1 vs2 w pg scal) s = .next t ∧ (t.core d c).vec.vstat = k.vec.vstat
          ∧ wrote t (fun i => p.2 (k.el vs1 w i).bits (k.srcI vs2 scal w i).bits))
      ∧ (∀ f, floatOf w = some f →
          (∀ i, IsActive s d c w pg i → (k.el vs1 w i).bad = false ∧ (k.srcF vs2 scal w i).bad = false) →
          ∀ p ∈ floats, Spelt s d c (p.1 d c vd vs1 vs2 w pg scal) → ∃ t, exec (p.1 d c vd vs1 vs2 w pg scal) s = .next t
            ∧ wrote t (fun i => (elemCmp p.2 f (k.el vs1 w i).bits (k.srcF vs2 scal w i).bits).1))
      ∧ (∀ i, IsActive s d c w pg i → (k.el vs1 w i).bad = true → (∀ j, j < i → IsActive s d c w pg j →
            (k.el vs1 w j).bad = false ∧ (k.srcI vs2 scal w j).bad = false ∧ (k.srcF vs2 scal w j).bad = false) →
          (∀ p ∈ ints, Spelt s d c (p.1 d c vd vs1 vs2 w pg scal) →
            exec (p.1 d c vd vs1 vs2 w pg scal) s = .next (s.takeTrap d c (trapVector 3 i 0)))
          ∧ (floatOf w ≠ none → ∀ p ∈ floats, Spelt s d c (p.1 d c vd vs1 vs2 w pg scal) →
            exec (p.1 d c vd vs1 vs2 w pg scal) s = .next (s.takeTrap d c (trapVector 3 i 0)))))
    ∧ (8 ≤ vd.val →
      (∀ p ∈ ints, Spelt s d c (p.1 d c vd vs1 vs2 w pg scal) → exec (p.1 d c vd vs1 vs2 w pg scal) s = .next (s.takeTrap d c trapIllegal))
      ∧ (∀ p ∈ floats, Spelt s d c (p.1 d c vd vs1 vs2 w pg scal) →
        exec (p.1 d c vd vs1 vs2 w pg scal) s = .next (s.takeTrap d c trapIllegal)))

/-- R145, R151 and R154. -/
def Obligations.VectorReductions : Prop :=
  ∀ (s : State) (d : DieIx) (c : CoreIx) (vd vs1 : Fin 32) (w : Fin 4) (pg : Fin 8), CanIssue s d c → (s.core d c).vec.span ≤ 512 →
    let k := s.core d c
    let act := (List.range (k.count w)).filter (fun i => (k.pred pg).getLsbD i)
    let vals := act.map (fun i => velem k.vec.v[vs1] w i)
    let clean := ∀ i ∈ act, (k.el vs1 w i).bad = false
    let others := fun (t : State) => ∀ i, 0 < i → i < lanes w → velem (t.core d c).vec.v[vd] w i = velem k.vec.v[vd] w i
    let zero := fun (t : State) => velem (t.core d c).vec.v[vd] w 0
    (0 < k.count w → clean →
      (Spelt s d c (.vsumt d c vd vs1 0 w pg false) → ∃ t, exec (.vsumt d c vd vs1 0 w pg false) s = .next t ∧ VectorFrame s t d c vd ∧ others t ∧ zero t = vals.sum % 2 ^ elemBits w)
      ∧ (Spelt s d c (.vmaxr d c vd vs1 0 w pg false) → ∃ t, exec (.vmaxr d c vd vs1 0 w pg false) s = .next t ∧ VectorFrame s t d c vd ∧ others t
          ∧ (vals = [] → zero t = 0) ∧ (vals ≠ [] → zero t ∈ vals ∧ ∀ x ∈ vals, signedEl w x ≤ signedEl w (zero t)))
      ∧ (Spelt s d c (.vminr d c vd vs1 0 w pg false) → ∃ t, exec (.vminr d c vd vs1 0 w pg false) s = .next t ∧ VectorFrame s t d c vd ∧ others t
          ∧ (vals = [] → zero t = 0) ∧ (vals ≠ [] → zero t ∈ vals ∧ ∀ x ∈ vals, signedEl w (zero t) ≤ signedEl w x))
      ∧ (∀ f, floatOf w = some f → k.vround ≠ .sr →
          (Spelt s d c (.vfsumt d c vd vs1 0 w pg false) → ∃ t, exec (.vfsumt d c vd vs1 0 w pg false) s = .next t ∧ VectorFrame s t d c vd ∧ others t
            ∧ (vals = [] → zero t = 0) ∧ (∀ x, vals = [x] → zero t = x)
            ∧ zero t = ((tree (fun a b h => ((elemBin .add f k.vround a b h).bits, vflags (elemBin .add f k.vround a b h) false,
                (elemBin .add f k.vround a b h).gen)) (9 - w.val)
                ((List.range (lanes w)).map (fun i => if i ∈ act then some (velem k.vec.v[vs1] w i) else none)) k.gen).1.getD 0) % 2 ^ elemBits w)
          ∧ (Spelt s d c (.vfsums d c vd vs1 0 w pg false) → (k.el vd w 0).bad = false → ∃ t, exec (.vfsums d c vd vs1 0 w pg false) s = .next t ∧ VectorFrame s t d c vd ∧ others t
            ∧ (firstNan f (vals ++ [velem k.vec.v[vd] w 0]) = none ∨ vals = [] →
              zero t = vals.foldl (fun a b => (elemBin .add f k.vround a b k.gen).bits) (velem k.vec.v[vd] w 0) % 2 ^ elemBits w)
            ∧ (∀ x, vals ≠ [] → firstNan f (vals ++ [velem k.vec.v[vd] w 0]) = some x → zero t = quieted f x % 2 ^ elemBits w))
          ∧ (∀ (row : DieIx → CoreIx → Fin 32 → Fin 32 → Fin 32 → Fin 4 → Fin 8 → Bool → Instr) (big : Bool),
              (row, big) ∈ [(Instr.vfmaxr, true), (Instr.vfminr, false)] → Spelt s d c (row d c vd vs1 0 w pg false) →
              ∃ t, exec (row d c vd vs1 0 w pg false) s = .next t ∧ VectorFrame s t d c vd ∧ others t
                ∧ (vals = [] → zero t = canonNan f)
                ∧ (∀ x xs, vals = x :: xs → zero t = vals.foldl (fun a b => (elemMinMax big f a b k.gen).bits) x % 2 ^ elemBits w))))
    ∧ (k.count w = 0 →
        (Spelt s d c (.vsumt d c vd vs1 0 w pg false) → ∃ t, exec (.vsumt d c vd vs1 0 w pg false) s = .next t ∧ (t.core d c).vec = k.vec)
        ∧ (Spelt s d c (.vmaxr d c vd vs1 0 w pg false) → ∃ t, exec (.vmaxr d c vd vs1 0 w pg false) s = .next t ∧ (t.core d c).vec = k.vec)
        ∧ (Spelt s d c (.vminr d c vd vs1 0 w pg false) → ∃ t, exec (.vminr d c vd vs1 0 w pg false) s = .next t ∧ (t.core d c).vec = k.vec))

/-- R146, R155, R161 and R162: `src` names the source of each element that is written. -/
def Obligations.VectorMoves : Prop :=
  ∀ (s : State) (d : DieIx) (c : CoreIx) (vd vs1 vs2 : Fin 32) (w : Fin 4) (pg : Fin 8) (scal : Bool), CanIssue s d c →
    (s.core d c).vec.span ≤ 512 →
    let k := s.core d c
    let n := (k.getG vs2).toNat
    let act := (List.range (k.count w)).filter (fun i => (k.pred pg).getLsbD i)
    let places := fun (row : Instr) (src : Nat → Option VEl) => Spelt s d c row → ∃ t, exec row s = .next t ∧ VectorFrame s t d c vd
      ∧ (t.core d c).vec.vstat = k.vec.vstat
      ∧ ∀ i, i < lanes w →
          (∀ e, src i = some e → e.bad = false → velem (t.core d c).vec.v[vd] w i = e.bits)
          ∧ (∀ e, src i = some e → e.bad = true → (t.core d c).vec.poison[vd].getLsbD (segOf w i) = true)
          ∧ (src i = none → velem (t.core d c).vec.v[vd] w i = velem k.vec.v[vd] w i)
    places (.vsel d c vd vs1 vs2 w pg scal) (fun i => if i < k.count w then
        (if (k.pred pg).getLsbD i then some (k.el vs1 w i) else some (k.srcI vs2 scal w i)) else none)
    ∧ places (.vcopy d c vd vs1 vs2 w pg scal) (fun i => if i ∈ act then some (k.srcI vs2 scal w i) else none)
    ∧ places (.vindex d c vd vs1 0 w pg false) (fun i => if i ∈ act then some ⟨i % 2 ^ elemBits w, false⟩ else none)
    ∧ places (.vshu d c vd vs1 vs2 w pg true) (fun i => if i ∈ act ∧ n ≤ i then some (k.el vs1 w (i - n)) else none)
    ∧ places (.vshd d c vd vs1 vs2 w pg true) (fun i => if i ∈ act then
        (if i + n < lanes w then some (k.el vs1 w (i + n)) else some ⟨0, false⟩) else none)
    ∧ places (.vpack d c vd vs1 0 w pg false) (fun i => (act[i]?).map (fun j => k.el vs1 w j))
    ∧ (Spelt s d c (.vtog d c vd vs1 0 w pg false) → (k.el vs1 w 0).bad = false → exec (.vtog d c vd vs1 0 w pg false) s =
        .next (s.setCore d c ((k.setG vd (BitVec.ofInt 64 (signedEl w (k.el vs1 w 0).bits))).setPc (k.proc.pc + 4))))
    ∧ (Spelt s d c (.vtog d c vd vs1 0 w pg false) → (k.el vs1 w 0).bad = true → exec (.vtog d c vd vs1 0 w pg false) s = .next (s.takeTrap d c (trapVector 3 0 0)))
    ∧ (Spelt s d c (.vshu d c vd vs1 vs2 w pg false) → exec (.vshu d c vd vs1 vs2 w pg false) s = .next (s.takeTrap d c (trapVector 1 0 0)))
    ∧ (Spelt s d c (.vshd d c vd vs1 vs2 w pg false) → exec (.vshd d c vd vs1 vs2 w pg false) s = .next (s.takeTrap d c (trapVector 1 0 0)))

/-- R145 to R148 and R159. -/
def Obligations.PredicatesAndSpan : Prop :=
  ∀ (s : State) (d : DieIx) (c : CoreIx) (pd ps1 ps2 : Fin 8) (rd rs1 : Fin 32) (w : Fin 4) (pg : Fin 8), CanIssue s d c →
    let k := s.core d c
    let next := k.proc.pc + 4
    let fin8 := fun (p : Fin 8) => (⟨p.val, by omega⟩ : Fin 32)
    let width : BitVec 11 := BitVec.ofNat 11 w.val
    let rows : List ((DieIx → CoreIx → Fin 32 → Fin 32 → Fin 32 → Fin 4 → Fin 8 → Instr) × (Bool → Bool → Bool)) :=
      [(Instr.pand, fun a b => a && b), (Instr.por, fun a b => a || b), (Instr.pxor, fun a b => a != b), (Instr.pandn, fun a b => a && !b),
        (Instr.pset, fun _ _ => true), (Instr.pclr, fun _ _ => false)]
    let set := (List.range (k.count w)).filter (fun i => (k.pred pg).getLsbD i)
    let does := fun (i : Instr) (j : Sys2Proof.Machine.Core) => Spelt s d c i → exec i s = .next (s.setCore d c (j.setPc next))
    (∀ p ∈ rows, Spelt s d c (p.1 d c (fin8 pd) (fin8 ps1) (fin8 ps2) w pg) → ∃ t, exec (p.1 d c (fin8 pd) (fin8 ps1) (fin8 ps2) w pg) s = .next t ∧ t.mem = s.mem
        ∧ (t.core d c).proc = { k.proc with pc := next, stall := .no } ∧ (t.core d c).vec.v = k.vec.v ∧ (t.core d c).vec.span = k.vec.span
        ∧ ∀ (q : Fin 8) (i : Nat), i < 512 → ((t.core d c).pred q).getLsbD i =
            (if q = pd ∧ q ≠ 0 ∧ i < k.count w then p.2 ((k.pred ps1).getLsbD i) ((k.pred ps2).getLsbD i) else (k.pred q).getLsbD i))
    ∧ does (.ppop d c rd 0 0 w pg) (k.setG rd (BitVec.ofNat 64 set.length))
    ∧ does (.plow d c rd 0 0 w pg) (k.setG rd (BitVec.ofNat 64 (set.headD (k.count w))))
    ∧ (let n := min (k.getG rs1).toNat (512 / 2 ^ w.val)
       does (.setvl d c rd rs1 width) (({ k with vec := { k.vec with span := n * 2 ^ w.val } } : Sys2Proof.Machine.Core).setG rd (BitVec.ofNat 64 n)))
    ∧ does (.setvfull d c rd 0 width)
        (({ k with vec := { k.vec with span := 512 } } : Sys2Proof.Machine.Core).setG rd (BitVec.ofNat 64 (512 / 2 ^ w.val)))
    ∧ does (.vstatrd d c rd 0 0) (k.setG rd (BitVec.ofNat 64 k.vec.span))
    ∧ does (.vstatrd d c rd 0 1) (k.setG rd k.vec.vstat)
    ∧ does (.vstatrd d c rd 0 2) (k.setG rd 512)
    ∧ (let v := k.getG rs1
       ((roundCode (v.toNat % 8)).isSome → does (.vstatwr d c 0 rs1 1) { k with vec := { k.vec with vstat := v &&& 0x13FFF } })
       ∧ ((roundCode (v.toNat % 8)).isNone → Spelt s d c (.vstatwr d c 0 rs1 1) →
           exec (.vstatwr d c 0 rs1 1) s = .next (s.takeTrap d c (trapVector 1 0 0))))
    ∧ does (.vfence d c 0 0 0) k

/-- R53, R146, R156 to R158 and R163, under a rounding mode other than SR. -/
def Obligations.VectorLoadsAndStores : Prop :=
  ∀ (s : State) (d : DieIx) (c : CoreIx) (vd rs1 rs2 : Fin 32) (w : Fin 4) (pg : Fin 8) (code : Fin 16) (rt : Bool) (f : Fmt) (r : RegType),
    CanIssue s d c → (s.core d c).vec.span ≤ 512 → Fmt.ofCode code = some f → regType w rt = some r → (s.core d c).vround ≠ .sr →
    let k := s.core d c
    let a := (k.getG rs1).toNat
    let e0 := if f.isBlock then (k.getG rs2).toNat % 128 else 0
    let key := memKey d 1 (spBase c + a)
    let n := f.rowBytes (k.count w + e0)
    let mapped := fun (i : Nat) => localMapped (a + (elPlace f i).1) (elPlace f i).2 = true
    let value := fun (i : Nat) => (loadEl r f k.vround (decodeElem f (s.peek key n) (List.replicate n false) (i + e0)) k.gen).bits % 2 ^ elemBits w
    let free := a + n ≤ 0x800000 ∨ s.bankHeld d c = false
    (f.isBlock = false → rs2 = 0) → s.marksIn 1 key n = [] →
    (Spelt s d c (.vld d c vd rs1 rs2 w pg code rt false) → free → (∀ i, IsActive s d c w pg i → mapped (i + e0)) →
      ∃ t, exec (.vld d c vd rs1 rs2 w pg code rt false) s = .next t ∧ VectorFrame s t d c vd
        ∧ ∀ i, i < lanes w → velem (t.core d c).vec.v[vd] w i = if i < k.count w ∧ (k.pred pg).getLsbD i then value i else velem k.vec.v[vd] w i)
    ∧ (Spelt s d c (.vld d c vd rs1 rs2 w pg code rt false) → ∀ i, IsActive s d c w pg i → ¬ mapped (i + e0) → (∀ j, j < i → IsActive s d c w pg j → mapped (j + e0)) →
        exec (.vld d c vd rs1 rs2 w pg code rt false) s = .next (s.takeTrap d c (trapVector 2 i (a + (elPlace f (i + e0)).1))))
    ∧ (Spelt s d c (.vldff d c vd rs1 rs2 w pg code rt false) → ∀ m, free → 0 < m → m ≤ k.count w → (∀ i, i < m → mapped (i + e0)) → (m < k.count w → ¬ mapped (m + e0)) →
        ∃ t, exec (.vldff d c vd rs1 rs2 w pg code rt false) s = .next t ∧ t.mem = s.mem
          ∧ (t.core d c).getG rs2 = (if rs2 = 0 then 0 else BitVec.ofNat 64 m) ∧ (t.core d c).vec.span = k.vec.span
          ∧ (∀ q : Fin 32, q ≠ rs2 → (t.core d c).getG q = k.getG q) ∧ (t.core d c).proc.pc = k.proc.pc + 4
          ∧ ∀ i, i < lanes w → velem (t.core d c).vec.v[vd] w i =
              if i < m ∧ (k.pred pg).getLsbD i then value i else velem k.vec.v[vd] w i)
    ∧ (Spelt s d c (.vldff d c vd rs1 rs2 w pg code rt false) → 0 < k.count w → ¬ mapped e0 →
        exec (.vldff d c vd rs1 rs2 w pg code rt false) s = .next (s.takeTrap d c (trapVector 2 0 (a + (elPlace f e0).1))))
    ∧ (Spelt s d c (.vst d c vd rs1 0 w pg code rt false) → f.isBlock = false → free → (∀ i, IsActive s d c w pg i → mapped i ∧ (k.el vd w i).bad = false) →
        ∃ t, exec (.vst d c vd rs1 0 w pg code rt false) s = .next t ∧ (t.core d c).vec.v = k.vec.v
          ∧ (t.core d c).proc = { k.proc with pc := k.proc.pc + 4, stall := .no }
          ∧ (∀ i b, i < k.count w → b < f.elemBytes → SMap.get 0 t.mem.cells (key + i * f.elemBytes + b) =
              if (k.pred pg).getLsbD i then
                BitVec.ofNat 8 ((if sameType r f then (k.el vd w i).bits
                  else (encodeScalar f k.vround (regVal r (k.el vd w i).bits) k.gen).bits) / 2 ^ (8 * b))
              else SMap.get 0 s.mem.cells (key + i * f.elemBytes + b))
          ∧ (∀ b, (b < key ∨ key + k.count w * f.elemBytes ≤ b) → SMap.get 0 t.mem.cells b = SMap.get 0 s.mem.cells b))
    ∧ (Spelt s d c (.vst d c vd rs1 rs2 w 0 code rt false) → f.isBlock = true → free → 0 < k.count w → (∀ i, i < k.count w → mapped i) →
        let row := encodeRow f k.vround none ((List.range (k.count w)).map (fun i =>
          ⟨(k.el vd w i).bits, regVal r (k.el vd w i).bits, (k.el vd w i).bad⟩)) k.gen
        ∃ t, exec (.vst d c vd rs1 rs2 w 0 code rt false) s = .next t ∧ (t.core d c).vec.v = k.vec.v
          ∧ (∀ b, b < row.bytes.length → SMap.get 0 t.mem.cells (key + b) = row.bytes.getD b 0)
          ∧ (∀ b, (b < key ∨ key + row.bytes.length ≤ b) → SMap.get 0 t.mem.cells b = SMap.get 0 s.mem.cells b))

/-- R72, R160 and R163. -/
def Obligations.SliceAndIllegalVectors : Prop :=
  ∀ (s : State) (d : DieIx) (c : CoreIx) (rd rs1 rs2 : Fin 32) (single : Bool), CanFetch s d c →
    Spelt s d c (.vslice d c rd rs1 (BitVec.ofNat 11 (rs2.val + if single then 32 else 0))) →
    let k := s.core d c
    let f : Fmt := if single then .fp32 else .fp64
    let size := if single then 512 else 1024
    let out := if single then 448 else 960
    let imm : BitVec 11 := BitVec.ofNat 11 (rs2.val + if single then 32 else 0)
    let a := (k.getG rs1).toNat
    let b := (k.getG rs2).toNat
    let key := memKey d 1 (spBase c + b)
    let vals := (decodeRow f 128 (s.peek (memKey d 1 (spBase c + a)) size) (List.replicate size false)).map (fun e => e.val)
    let bit := fun (x : Bool) (n : Nat) => if x then n else 0
    (s.vecFenced d c = true → exec (.vslice d c rd rs1 imm) s = .next (s.takeTrap d c (trapVector 4 0 0)))
    ∧ (s.vecFenced d c = false → s.vecResetting d c = false → localMapped a size = false →
        exec (.vslice d c rd rs1 imm) s = .next (s.takeTrap d c (trapVector 2 0 a)))
    ∧ (s.vecFenced d c = false → s.vecResetting d c = false → localMapped a size = true → localMapped b out = false →
        exec (.vslice d c rd rs1 imm) s = .next (s.takeTrap d c (trapVector 2 0 b)))
    ∧ (s.vecFenced d c = false → s.vecResetting d c = false → localMapped a size = true → localMapped b out = true → s.bankHeld d c = false →
        s.marksIn 1 (memKey d 1 (spBase c + a)) size = [] →
        (sliceRecord f vals).length = out
        ∧ ∃ t, exec (.vslice d c rd rs1 imm) s = .next t
          ∧ (∀ i, i < out → SMap.get 0 t.mem.cells (key + i) = (sliceRecord f vals).getD i 0)
          ∧ (∀ i, (i < key ∨ key + out ≤ i) → SMap.get 0 t.mem.cells i = SMap.get 0 s.mem.cells i)
          ∧ t.core d c = (k.setG rd (BitVec.ofNat 64 (bit (vals.any Fpv.isNan) 1 + bit (vals.any (fun x => x.isInf && !x.sign)) 2
              + bit (vals.any (fun x => x.isInf && x.sign)) 4))).setPc (k.proc.pc + 4))

/-- R315, R334 to R336, R341 and R343. -/
def Obligations.DataFramesInSequence : Prop :=
  ∀ (s : State) (d : DieIx) (l : LinkIx) (m : Msg) (vc ack credit : Nat), Ready s d → s.lstate d l = 4 →
    m.spec.length = 36 → m.data.length ≤ 4032 → vc < 4 → ack < 2 ^ 16 → credit < 2 ^ 60 →
    let f := fun (seq : BitVec 16) => frameBytes 1 vc seq.toNat ack (msgUnits m) m.poison.toNat credit (msgPayload m)
    let plain := fun (type : Nat) => frameBytes type 0 0 ack 0 0 credit []
    let acked := (s.modLink d l (fun x => { x with retain := releaseAck x.retain (BitVec.ofNat 16 ack), credit := addCredit x.credit credit })
      ).pumpLink d l
    (m.dst.toNat / 64 = s.moduleNo d * 8 + d.val → knownKind m.mkind.toNat = true →
      ∃ t, exec (.data d l ⟨f ((s.link d l).lastAcc + 1), false⟩) s = .next t
        ∧ (t.die d).inbox = (s.die d).inbox ++ [m]
        ∧ (t.link d l).lastAcc = (s.link d l).lastAcc + 1
        ∧ (∃ more free, (t.link d l).tx = (s.link d l).tx ++ more ++ [frameBytes 2 0 0 ((s.link d l).lastAcc + 1).toNat 0 0 free []])
        ∧ (t.die d).cores = (s.die d).cores ∧ t.mem = s.mem)
    ∧ (∀ seq, seq ≠ (s.link d l).lastAcc + 1 → exec (.data d l ⟨f seq, false⟩) s = .next acked)
    ∧ (∀ g : List Byte, ∃ t, exec (.data d l ⟨g, true⟩) s = .next t ∧ (t.die d).inbox = (s.die d).inbox ∧ (t.die d).ports = (s.die d).ports
        ∧ (∃ e, (t.die d).log.getLast? = some e ∧ e.event = 0x0701) ∧ t.mem = s.mem)
    ∧ (acked.die d).inbox = (s.die d).inbox ∧ (acked.link d l).lastAcc = (s.link d l).lastAcc
    ∧ exec (.ack d l (plain 2)) s = .next acked
    ∧ exec (.heartbeat d l (plain 3)) s = .next acked
    ∧ (∀ g : List Byte, frameOk g = false →
        exec (.data d l ⟨g, false⟩) s = .next (s.addSat d (rLnkPerr (linkPort l).val) 0 16 1)
        ∧ (bn g 0 1 = 2 → exec (.ack d l g) s = .next (s.addSat d (rLnkPerr (linkPort l).val) 0 16 1))
        ∧ (bn g 0 1 = 3 → exec (.heartbeat d l g) s = .next (s.addSat d (rLnkPerr (linkPort l).val) 0 16 1)))

/-- R315, R333, R337, R338, R346, R348 and R353. -/
def Obligations.LinkTimersAct : Prop :=
  (∀ (s : State) (d : DieIx) (l : LinkIx), Ready s d → s.lstate d l = 3 ∨ s.lstate d l = 4 →
    exec (.frameInterval d l) s = .next (s.modLink d l (fun x => x.sendPlain 3 [])))
  ∧ (∀ (s : State) (d : DieIx) (l : LinkIx) (r : Retained) (rs : List Retained), Ready s d → s.lstate d l = 4 → (s.link d l).retain = r :: rs →
      let x := s.link d l
      (r.retries < 3 → ∃ t, exec (.retransmission d ⟨l, none⟩) s = .next t
        ∧ (t.link d l).tx = x.tx ++ x.retain.map (fun q => frameBytes 1 q.vc q.seq.toNat x.lastAcc.toNat (msgUnits q.msg) q.msg.poison.toNat 0
            (msgPayload q.msg))
        ∧ (t.link d l).retain.map (fun q => q.seq) = x.retain.map (fun q => q.seq) ∧ (t.link d l).nextSeq = x.nextSeq
        ∧ t.lstate d l = 4)
      ∧ (∀ (i : Nat) (u : Fin 64), r.retries < 3 → ∃ t, exec (.retransmission d ⟨l, some (i, u)⟩) s = .next t ∧ t.lstate d l = 4
        ∧ (t.link d l).retain.map (fun q => q.seq) = x.retain.map (fun q => q.seq)
        ∧ (∀ q ∈ (t.link d l).retain[i]?, q.msg.poison.getLsbD u = true)
        ∧ ∀ j, j ≠ i → ((t.link d l).retain[j]?).map (fun q => q.msg) = (x.retain[j]?).map (fun q => q.msg))
      ∧ (∀ upset, 3 ≤ r.retries → exec (.retransmission d ⟨l, upset⟩) s = .next (s.linkDown d (linkPort l) 1)
        ∧ exec (.silence d l) s = .next (s.linkDown d (linkPort l) 1)))
  ∧ (∀ (s : State) (d : DieIx) (l : LinkIx), Ready s d → s.lstate d l = 3 ∨ s.lstate d l = 4 → s.retriesOut d l = false →
      exec (.silence d l) s = .next (s.linkDown d (linkPort l) 2))
  ∧ (∀ (s : State) (d : DieIx) (p : PortIx), Ready s d → s.pstate d p = 4 →
      (4 ≤ p.val → ∃ cause, cause < 12 ∧ exec (.linkLaneFailure d p) s = .next ({ s with draws := s.draws + 1 }.linkDown d p cause)))
  ∧ (∀ (s : State) (d : DieIx) (p : PortIx) (cause : Nat), s.pstate d p = 4 → cause < 16 → s.present d = true →
      let t := s.linkDown d p cause
      let recent := ((s.port d p).downs.filter (fun n => decide (s.nominal d / 940 < n + 600000000))).length
      (recent < 7 → t.pstate d p = 5 ∧ t.rf d (rLnkPstat p) 24 4 = cause) ∧ (7 ≤ recent → t.pstate d p = 1 ∧ t.rf d (rLnkPstat p) 24 4 = 9)
      ∧ (∀ l ∈ s.linksOf p, (t.link d l).retain = [] ∧ (t.link d l).sendq = [] ∧ (t.link d l).nextSeq = 0 ∧ (t.link d l).lastAcc = 0xFFFF)
      ∧ (t.die d).log = s.logWith d 0x0801 (p.val + cause * 256) ∧ (t.die d).inbox = (s.die d).inbox
      ∧ (∀ q : PortIx, q ≠ p → t.port d q = s.port d q ∧ t.pstate d q = s.pstate d q))
  ∧ (∀ (s : State) (d : DieIx) (p : PortIx), Ready s d → s.dieFenced d = false → (s.die d).resets = [] → p.val ≠ 3 →
      (s.pstate d p = 5 → exec (.retrain d p) s = .next (s.trainPort d p))
      ∧ (s.pstate d p = 2 → (s.port d p).failLogged = false → ∃ t, exec (.retrain d p) s = .next t
          ∧ (t.die d).log = s.logWith d 0x0806 p.val ∧ (t.port d p).failLogged = true ∧ t.pstate d p = 2
          ∧ t.rf d (rLnkPstat p) 24 4 = 10)
      ∧ (s.pstate d p = 2 → (s.port d p).failLogged = true → exec (.retrain d p) s = .next (s.setCause d p 10)))
  ∧ (∀ (s : State) (d : DieIx) (p : PortIx), s.present d = true →
      let t := s.trainPort d p
      t.pstate d p = 2 ∧ (∀ l ∈ s.linksOf p, (t.link d l).retain = [] ∧ (t.link d l).sendq = [] ∧ (t.link d l).hello = none)
        ∧ (∀ q : PortIx, q ≠ p → t.pstate d q = s.pstate d q ∧ t.port d q = s.port d q))
  ∧ (∀ (s : State) (d : DieIx) (p : PortIx) (lanes : Nat), Ready s d → s.pstate d p = 2 → p.val ≠ 3 →
      p.val < 3 ∨ lanes = fullLanes p ∨ 2 * lanes = fullLanes p →
      ∃ t, exec (.portTraining d p lanes) s = .next t ∧ t.pstate d p = 3
        ∧ (t.port d p).tx.length = (s.port d p).tx.length + 1 ∧ (4 ≤ p.val → t.rf d (rLnkPstat p) 0 6 = lanes))
  ∧ (∀ (s : State) (d : DieIx) (p : PortIx), Ready s d → s.pstate d p = 3 → (s.port d p).hello = none →
      exec (.helloInterval d p) s = .next (s.modPort d p (fun x => x.sendPlain 5 (s.helloPayload d p)))
      ∧ exec (.helloTimeout d p) s = .next (s.trainPort d p))

/-- R346, R347 and R350; payload layouts by log entry 12. -/
def Obligations.DiscoveryOfPeers : Prop :=
  ∀ (s : State) (d : DieIx) (p : PortIx) (f : List Byte), Ready s d → s.pstate d p = 3 → frameOk f = true → bn f 0 1 = 5 →
    let x := s.port d p
    let now := (s.stamp d).toNat
    (bn f 32 4 = 1 → ∃ t, exec (.hello d p f) s = .next t ∧ (t.port d p).hello = some (helloOf (f.drop 32)) ∧ (t.port d p).echoes = []
        ∧ (t.port d p).tx = x.tx ++ [frameBytes 5 0 0 x.lastAcc.toNat 1 0 (creditWord x.freed) (echoPayload 2 now 0 0)]
        ∧ ((helloOf (f.drop 32)).primary = s.settings.primary → (helloOf (f.drop 32)).backup = s.settings.backup →
            (t.die d).log = (s.die d).log))
    ∧ (bn f 32 4 = 2 → ∃ t, exec (.echo d p f) s = .next t ∧ (t.port d p).hello = x.hello
        ∧ (t.port d p).tx = x.tx ++ [frameBytes 5 0 0 x.lastAcc.toNat 1 0 (creditWord x.freed) (echoPayload 3 (bn f 40 8) now now)])
    ∧ (bn f 32 4 = 3 →
        let period := s.rf d rStkCfg 0 8
        let rtt := (nominalOf period now - nominalOf period (bn f 40 8)) - (nominalOf period (bn f 56 8) - nominalOf period (bn f 48 8))
        (x.echoes.length < 63 → ∃ t, exec (.echoReply d p f) s = .next t ∧ (t.port d p).echoes = x.echoes ++ [rtt]
          ∧ (t.port d p).tx = x.tx ++ [frameBytes 5 0 0 x.lastAcc.toNat 1 0 (creditWord x.freed) (echoPayload 2 now 0 0)])
        ∧ (∀ h, x.echoes.length = 63 → x.hello = some h →
          let least := (x.echoes ++ [rtt]).foldl min (x.echoes.headD rtt)
          ∃ t, exec (.echoReply d p f) s = .next t ∧ t.rf d (rLnkPrtt p) 0 16 = min least 65535
            ∧ (s.checkPeer d p h least = 0 → (t.port d p).sentAccept = true ∧ (t.pstate d p = 3 ∨ t.pstate d p = 4))
            ∧ (s.checkPeer d p h least ≠ 0 → t.pstate d p = 1 ∧ t.rf d (rLnkPstat p) 24 4 = s.checkPeer d p h least)))
    ∧ (bn f 32 4 = 4 → ∀ h, x.hello = some h → x.sentAccept = true →
        ∃ t, exec (.accept d p f) s = .next t ∧ t.pstate d p = 4 ∧ t.rf d (rLnkPstat p) 24 4 = s.rf d (rLnkPstat p) 24 4
          ∧ (∀ l ∈ s.linksOf p, (t.link d l).nextSeq = 0 ∧ (t.link d l).lastAcc = 0xFFFF ∧ (t.link d l).credit = grantOf h.buffer)
          ∧ (h.die < 8 → h.port < 8 → bitAt (t.reg d (rLnkPpeer p)) 31 = true))
    ∧ (bn f 32 4 = 5 → ∃ t, exec (.reject d p f) s = .next t ∧ t.pstate d p = 1 ∧ t.rf d (rLnkPstat p) 24 4 = bn f 36 1 % 16
          ∧ (t.port d p).sendq = [])

/-- R348 to R350, R353 and R358. -/
def Obligations.BoardAndPortControl : Prop :=
  (∀ (s : State) (d : DieIx) (m : Msg), Ready s d → m.mkind = 0x37 →
    ∃ t, exec (.boardPresence d m) s = .next t ∧ (t.die d).inbox = (s.die d).inbox.erase m
      ∧ t.board.seenLower = (s.board.seenLower || (!s.staleMsg d m && decide (leNat (m.spec.take 1) < s.slot)))
      ∧ t.board.master = s.board.master
      ∧ (s.staleMsg d m = true → t.rf d rHltStale 0 32 = min (s.rf d rHltStale 0 32 + 1) (2 ^ 32 - 1)))
  ∧ (∀ (s : State), s.board.master = false → 4 ≤ s.board.silent →
      ∃ t, exec .boardMaster s = .next t ∧ t.board = { s.board with master := true, driving := true }
        ∧ (∀ d, s.present d = true → bitAt (t.reg d rLnkStatus) 30 = true) ∧ t.mem = s.mem)
  ∧ (∀ (s : State) (d : DieIx) (p : PortIx) (i : Issuer) (on : Bool), Ready s d →
      (s.pstate d p = 1 → 3 ≤ s.rf d (rLnkPstat p) 24 4 → s.rf d (rLnkPstat p) 24 4 ≤ 9 → s.dieFenced d = false →
          bitAt (s.reg d (rLnkPctl p)) 0 = false → exec (.reenable d p .pelbex) s = .next (s.trainPort d p))
      ∧ (s.dieFenced d = true → exec (.reenable d p .pelbex) s = .next s)
      ∧ (s.dieFenced d = false → bitAt (s.reg d (rLnkPctl p)) 0 = true →
          exec (.reenable d p .pelbex) s = .next (s.modPort d p (fun x => { x with under := 0 })))
      ∧ (portExists s.fuses.variant d p = true →
        (∃ t, exec (.disable d p .pelbex true) s = .next t ∧ t.pstate d p = 1 ∧ t.rf d (rLnkPstat p) 24 4 = 11
          ∧ bitAt (t.reg d (rLnkPctl p)) 0 = true ∧ (t.port d p).sendq = []
          ∧ (s.pstate d p = 1 → 3 ≤ s.rf d (rLnkPstat p) 24 4 → s.rf d (rLnkPstat p) 24 4 ≤ 9 →
              (t.port d p).under = s.rf d (rLnkPstat p) 24 4))
        ∧ (s.pstate d p = 1 → s.rf d (rLnkPstat p) 24 4 = 11 → ∃ t, exec (.disable d p .pelbex false) s = .next t
          ∧ bitAt (t.reg d (rLnkPctl p)) 0 = false ∧ (t.port d p).under = 0
          ∧ ((s.port d p).under ≠ 0 → t.pstate d p = 1 ∧ t.rf d (rLnkPstat p) 24 4 = (s.port d p).under % 16)
          ∧ ((s.port d p).under = 0 → t.pstate d p = if s.dieFenced d then 5 else 2)))
      ∧ (i ≠ .pelbex → exec (.reenable d p i) s = .next (s.logIgnored d (rLnkPctl p) 2)
          ∧ exec (.disable d p i on) s = .next (s.logIgnored d (rLnkPctl p) 2)))

/-- R29, R31, R33, R34, R44, R102 and R404. -/
def Obligations.StrokeBoundaryCounts : Prop :=
  (∀ (s : State) (d : DieIx) (b : BoundaryIn), Ready s d →
    exec (.strokeBoundary d b) s = .next (((s.timerBoundary d).watchBoundary d (s.stroke d)).boundaryActions d b))
  ∧ (∀ (s : State) (d : DieIx) (n : Stroke) (u : HungUnit) (w : Watch), u ∈ hangUnits → s.unitPends d u = true →
    (s.die d).watch.find? (fun x => decide (x.unit = u)) = some w →
    let t := s.watchBoundary d n
    (w.seen = s.progress d u → s.unitExempt d u n = false → ⟨u, w.seen, w.strokes + 1⟩ ∈ (t.die d).watch)
    ∧ (w.seen ≠ s.progress d u ∨ s.unitExempt d u n = true → ⟨u, s.progress d u, 0⟩ ∈ (t.die d).watch)
    ∧ t.mem = s.mem ∧ (t.die d).cores = (s.die d).cores)
  ∧ (∀ (s : State) (d : DieIx),
    let t := s.timerBoundary d
    let x := (s.die d).timer
    let adopts := s.locked d = true ∨ ∃ k, k < 32 ∧ s.jobWork d k = true
    (t.die d).timer.cycle = 0
    ∧ (¬ adopts ∨ x.incoming = none → t.stroke d = s.stroke d + 1
        ∧ ∀ c : CoreIx, (t.core d c).idle =
            (s.core d c).idle.set (s.idleCause d c) ((s.core d c).idle[s.idleCause d c] + BitVec.ofNat 64 (s.strokeLen d - x.cycle.toNat)))
    ∧ (∀ n, adopts → x.incoming = some n → t.stroke d = n + 1 ∧ (t.die d).timer.incoming = none)
    ∧ (∀ n, ¬ adopts → x.incoming = some n → (t.die d).timer.incoming = some (n + 1))
    ∧ (s.locked d = true → 4 * (t.die d).timer.stretch ≤ s.rf d rStkCfg 0 8 ∧ -(s.rf d rStkCfg 0 8 : Int) ≤ 4 * (t.die d).timer.stretch)
    ∧ (s.locked d = false → (t.die d).timer.stretch = 0 ∧ t.rf d rStkLock 0 16 = min (s.rf d rStkLock 0 16 + 1) 65535)
    ∧ (∀ e : DieIx, e ≠ d → (t.die e).timer = (s.die e).timer))
  ∧ (∀ (s : State) (d : DieIx) (c : CoreIx), ((s.wakeWaiters d).core d c).proc.waitStroke = false
      ∧ ((s.wakeWaiters d).core d c).proc.pc = (s.core d c).proc.pc ∧ (s.wakeWaiters d).mem = s.mem)

/-- R39, R40 and R44. That a notice which comes after stroke s + 1 has begun takes effect at the next stroke is the model's reading. -/
def Obligations.ThrottleNoticesTakeEffect : Prop :=
  (∀ (s : State) (d : DieIx) (step : BitVec 2) (eff : Stroke), Ready s d →
    (begun (s.stroke d) (eff - 1).toNat = false → ∃ t, exec (.throttleNotice d step eff) s = .next t
      ∧ (t.die d).timer = { (s.die d).timer with notices := (s.die d).timer.notices ++ [(eff, step)] }
      ∧ (t.die d).log = (s.die d).log ∧ (t.die d).cores = (s.die d).cores ∧ t.mem = s.mem)
    ∧ (begun (s.stroke d) (eff - 1).toNat = true →
      let later : Stroke := if begun (s.stroke d) (eff + 1).toNat then s.stroke d + 1 else eff + 1
      ∃ t, exec (.throttleNotice d step eff) s = .next t
        ∧ (t.die d).timer = { (s.die d).timer with notices := (s.die d).timer.notices ++ [(later, step)] }
        ∧ (t.die d).log = s.logWith d 0x0106 later.toNat ∧ t.mem = s.mem))
  ∧ (∀ (s : State) (d : DieIx),
    let now := s.stroke d
    let due := (s.die d).timer.notices.filter (fun n => begun now n.1.toNat)
    let t := s.throttleBoundary d
    (due = [] → t = s)
    ∧ (due ≠ [] → (∀ n ∈ due, n.1 = now) →
        (∃ n ∈ due, t.rf d rStkStepNow 0 2 = n.2.toNat) ∧ (∀ n ∈ due, n.2.toNat ≤ t.rf d rStkStepNow 0 2)
        ∧ (t.die d).timer = { (s.die d).timer with notices :=
            (match due.getLast? with
             | some n => if n.2.toNat < t.rf d rStkStepNow 0 2 then [(now + 1, n.2)] else []
             | none => []) ++ (s.die d).timer.notices.filter (fun n => !begun now n.1.toNat) }
        ∧ (t.die d).cores = (s.die d).cores ∧ t.mem = s.mem))

/-- R30, R33, R35, R44 and R533. -/
def Obligations.LockAndTimeMasters : Prop :=
  (∀ (s : State) (d : DieIx), Ready s d →
    let x := (s.die d).timer
    let half : Int := s.nominalLen d / 2
    (s.locked d = true → 4 ≤ x.overLimit → ∃ t, exec (.lossOfLock d) s = .next t ∧ t.locked d = false
      ∧ (t.die d).log = s.logWith d 0x0101 (BitVec.ofInt 64 x.phase).toNat ∧ (t.die d).timer = x ∧ t.mem = s.mem)
    ∧ (s.locked d = false → x.relocking = false → ∃ t, exec (.relock d) s = .next t ∧ t.locked d = false ∧ (t.die d).log = (s.die d).log
      ∧ (t.die d).timer = { x with stretch := max (-half) (min half x.phase), overLimit := 0, phase := 0, relocking := true } ∧ t.mem = s.mem)
    ∧ (x.relocking = true → x.incoming = none → (s.timerBoundary d).locked d = true ∧ ((s.timerBoundary d).die d).timer.relocking = false
      ∧ ∃ e, ((s.timerBoundary d).die d).log.getLast? = some e ∧ e.event = 0x0102)
    ∧ (s.isTimeMaster d = false → 4 ≤ x.silent → exec (.freeRun d) s = .next (s.modReg d rStkLock (fun w => setBit w 30 true)))
    ∧ (s.settings.backup.toNat = s.moduleNo d → s.isTimeMaster d = false → s.locked d = true →
        (∀ e, s.present e = true → (s.die e).timer.masterBackup = false ∧ ((s.die e).held = false → 4 ≤ (s.die e).timer.silent)) →
        ∃ t, exec (.backupTakeover d) s = .next t ∧ t.isTimeMaster d = true
          ∧ ∀ e, s.present e = true → (s.die e).held = false → (t.die e).timer.masterBackup = true ∧ (t.die e).timer.stroke = (s.die e).timer.stroke
              ∧ (t.die e).log = s.logWith e 0x0103 s.settings.backup.toNat ∧ bitAt (t.reg e rStkLock) 29 = true))
  ∧ (∀ (s : State) (d : DieIx) (p : PortIx) (stroke : Stroke) (master : BitVec 14) (backup : Bool), Ready s d → 4 ≤ p.val → s.pstate d p = 4 →
      let x := (s.die d).timer
      let f := frameBytes 4 0 0 0 0 0 0 (strokePayload stroke master.toNat backup)
      let delay := s.rf d (rLnkPrtt p) 0 16 / 2
      let cur : Stroke := if 2 * (x.cycle.toNat - delay) < s.nominalLen d then stroke else stroke - 1
      (x.masterBackup = false ∨ backup = true → ∃ t, exec (.strokeFrame d p f) s = .next t
        ∧ (t.die d).timer.master = master ∧ (t.die d).timer.frameSeen = true ∧ (t.die d).timer.stroke = x.stroke
        ∧ (t.die d).timer.incoming = (if cur = x.stroke then none else some cur)
        ∧ (t.die d).timer.masterBackup = (x.masterBackup || backup) ∧ bitAt (t.reg d rStkLock) 30 = false
        ∧ (t.die d).log = (if backup && !x.masterBackup then s.logWith d 0x0103 master.toNat else (s.die d).log)
        ∧ ∀ e, s.present e = true → (s.die e).held = false → (t.die e).timer.master = master ∧ (t.die e).timer.frameSeen = true
            ∧ (t.die e).timer.stroke = (s.die e).timer.stroke ∧ ((s.die e).timer.pulse = false → (t.die e).timer.measured = true))
      ∧ (x.masterBackup = true → backup = false → ∃ t, exec (.strokeFrame d p f) s = .next t ∧ (t.die d).timer = x))
  ∧ (∀ s : State, ∃ t, exec .strokeIn s = .next t ∧ (∀ d, s.present d = true → (s.die d).held = false → s.board.master = false →
        (t.die d).timer.measured = true ∧ (t.die d).timer.pulse = true ∧ (t.die d).timer.stroke = (s.die d).timer.stroke) ∧ t.mem = s.mem)
  ∧ (∀ (s : State) (e : DieIx), s.present e = true → (s.die e).timer.wrapped = true →
      ∃ t, exec .strokeWrap s = .next t ∧ ∀ d, s.present d = true → t.reg d rStkWrap = s.reg d rStkWrap + 1
        ∧ (t.die d).log = s.logWith d 0x0107 (s.reg d rStkWrap + 1).toNat ∧ (t.die d).timer.wrapped = false)

/-- R42, R380 and R414. -/
def Obligations.PresenceAndAbsence : Prop :=
  (∀ (s : State) (d : DieIx) (m : Msg), Ready s d → m.mkind = 0x30 →
    ∃ t, exec (.presence d m) s = .next t ∧ (t.die d).inbox = (s.die d).inbox.erase m
      ∧ (t.die d).peers = (if s.staleMsg d m then (s.die d).peers else
          (s.die d).peers.map (fun q => if q.endpoint.toNat / 64 = m.src.toNat / 64 then { q with seen := true } else q))
      ∧ (s.staleMsg d m = true → t.rf d rHltStale 0 32 = min (s.rf d rHltStale 0 32 + 1) (2 ^ 32 - 1))
      ∧ (t.die d).cores = (s.die d).cores ∧ (t.die d).commits = (s.die d).commits ∧ t.mem = s.mem)
  ∧ (∀ (s : State) (d : DieIx), (s.moduleNo d * 8 + d.val) < 2 ^ 17 →
      (∀ p ∈ (s.die d).peers, p.endpoint.toNat / 64 ≠ s.moduleNo d * 8 + d.val) →
      (((s.presenceBoundary d).die d).peers = (s.die d).peers.map (fun p =>
        if p.seen then { p with silent := 0, seen := false, absent := false } else { p with silent := p.silent + 1 })))
  ∧ (∀ (s : State) (d : DieIx) (e : Endpoint), Ready s d →
      ((∀ p ∈ (s.die d).peers, p.endpoint = e → p.silent < 4 ∨ p.absent = true) → exec (.absenceDeclared d e) s = .next s)
      ∧ (∀ p, (s.die d).peers = [p] → p.endpoint = e → 4 ≤ p.silent → p.absent = false → e.toNat / 64 ≠ s.moduleNo d * 8 + d.val →
          ∃ t, exec (.absenceDeclared d e) s = .next t ∧ (t.die d).peers = [{ p with absent := true }]
            ∧ p.job ∈ (t.die d).notices ∧ (t.die d).cores = (s.die d).cores ∧ t.mem = s.mem))
  ∧ (∀ (s : State) (d : DieIx) (m : Msg) (e : Endpoint), Ready s d → m.mkind = 0x31 → m.spec.take 4 = leBytes 4 e.toNat → s.staleMsg d m = false →
      ∃ t, exec (.absenceNotice d m) s = .next t ∧ (t.die d).inbox = (s.die d).inbox.erase m
        ∧ (∃ p ∈ (t.die d).peers, p.job = m.job ∧ p.endpoint = e ∧ p.absent = true)
        ∧ (∀ p ∈ (s.die d).peers, ¬ (p.job = m.job ∧ p.endpoint = e) → p ∈ (t.die d).peers)
        ∧ m.job ∈ (t.die d).notices ∧ t.mem = s.mem)
  ∧ (∀ (s : State) (d : DieIx) (m : Msg), Ready s d → m.mkind = 0x31 → s.staleMsg d m = true →
      ∃ t, exec (.absenceNotice d m) s = .next t ∧ (t.die d).inbox = (s.die d).inbox.erase m ∧ (t.die d).peers = (s.die d).peers
        ∧ (t.die d).notices = (s.die d).notices ∧ t.rf d rHltStale 0 32 = min (s.rf d rHltStale 0 32 + 1) (2 ^ 32 - 1))

/-- R36, R85 to R87, R89 and the held push of R407. -/
def Obligations.QueueWindowPushes : Prop :=
  (∀ (s : State) (d : DieIx) (q : QId) (i : Issuer) (off : Fin 64) (data : List Byte), Ready s d →
    let x := s.queue d q
    let y := setFld (descOf data) 40 8 (s.recvGen d q).toNat
    let fw := match i with
      | .ep _ => false
      | _ => true
    (x.claim = none → x.held = [] → x.entries.length < 64 → x.backlog = [] → data.length = 64 → off = 0 → s.resets d q 0 = false →
      ((x.entries = [] ∧ s.parked d = false ∧ headerOk q (s.stroke d) y = true) ∨ (x.entries ≠ [] ∧ s.startHead d q = none)) →
      ∃ t, exec (.queueWindowWrite d q i off data) s = .next t
        ∧ (t.queue d q).entries = x.entries ++ [⟨x.nextIdent, y, none, false, false, fw⟩]
        ∧ (t.queue d q).claim = none ∧ (t.queue d q).held = [] ∧ (t.queue d q).running = x.running ∧ (t.queue d q).done = x.done
        ∧ (t.die d).regs = (s.die d).regs ∧ t.mem = s.mem)
    ∧ (x.claim = none → x.held = [] → data.length = 64 → off = 0 → s.resets d q 0 = true →
      ∃ t, exec (.queueWindowWrite d q i off data) s = .next t ∧ (t.queue d q).entries = x.entries
        ∧ (t.queue d q).backlog = x.backlog ++ [⟨x.nextIdent, y, none, false, false, fw⟩]
        ∧ (t.queue d q).running = x.running ∧ (t.queue d q).done = x.done ∧ t.mem = s.mem)
    ∧ (x.claim = none → x.held = [] → data ≠ [] → off.val + data.length < 64 →
      ∃ t c, exec (.queueWindowWrite d q i off data) s = .next t ∧ (t.queue d q) = { x with claim := some c }
        ∧ c.issuer = i ∧ c.stroke = s.stroke d ∧ c.written = data.length
        ∧ (∀ j, j < data.length → fld c.bytes (8 * (off.val + j)) 8 = (data.getD j 0).toNat) ∧ t.mem = s.mem)
    ∧ (∀ c, x.claim = some c → c.issuer ≠ i → data ≠ [] → (∀ w ∈ x.held, w.issuer ≠ c.issuer) →
      ∃ t, exec (.queueWindowWrite d q i off data) s = .next t
        ∧ t.queue d q = { x with held := x.held ++ [⟨i, off.val, data.take (64 - off.val), false⟩] } ∧ t.mem = s.mem)
    ∧ (∀ c, x.claim = some c → x.held = [] → isDue (s.stroke d) (c.stroke.toNat + 2) = true →
      ∃ t, exec (.partialDescriptorDiscard d q) s = .next t ∧ t.queue d q = { x with claim := none }
        ∧ (t.die d).log = s.logWith d 0x0205 ((s.issuerEp d c.issuer).toNat + c.written * 2 ^ 24) ∧ t.mem = s.mem)
    ∧ (∀ c, x.claim = some c → isDue (s.stroke d) (c.stroke.toNat + 2) = false →
      exec (.partialDescriptorDiscard d q) s = .next s)
    ∧ (x.claim = none → exec (.partialDescriptorDiscard d q) s = .next s))
  ∧ (∀ (s : State) (d : DieIx) (q : QId) (e : QEntry), e ∈ (s.queue d q).entries →
      (isDue (s.stroke d) (dRelease e.desc) = true → e.released = none →
        { e with released := some (s.stroke d) } ∈ ((s.releaseQueue d q).queue d q).entries)
      ∧ (isDue (s.stroke d) (dRelease e.desc) = false ∨ e.released.isSome = true → e ∈ ((s.releaseQueue d q).queue d q).entries))

/-- R91 to R93 and R103. -/
def Obligations.CompletionRecordsAreWritten : Prop :=
  (∀ (s : State) (d : DieIx) (q : QId) (r : Completion) (rs : List Completion), Ready s d → (s.queue d q).done = r :: rs →
    let l := locOf (s.ringEntry d q)
    let key := memKey l.die l.region l.off
    let head := s.rf d (qRing q + 12) 0 16
    (s.ringFull d q = true → exec (.completionRecord d q) s = .next s)
    ∧ (s.ringFull d q = false →
      ∃ t more, exec (.completionRecord d q) s = .next t ∧ (t.queue d q).done = rs ++ more
        ∧ t.rf d (qRing q + 12) 0 16 = (head + 1) % 65536
        ∧ (s.ringReachable d l = false ∨ l.slot ≠ s.slot → t.mem = s.mem)
        ∧ (s.ringReachable d l = false → (s.queue d q).entries = [] → (t.die d).log.getLast? = some ⟨r.stamp, r.source, 0x0204, r.status,
            r.gen, none, BitVec.ofNat 64 (r.tag.toNat + r.status.toNat * 2 ^ 16 + r.kind.toNat * 2 ^ 24)⟩)
        ∧ (s.ringReachable d l = true → l.slot = s.slot → s.marksIn l.region key 32 = [] →
          (∀ i, i < 32 → SMap.get 0 t.mem.cells (key + i) = (r.bytes (s.ringPhase d q)).getD i 0)
          ∧ (∀ a, (a < key ∨ key + 32 ≤ a) → SMap.get 0 t.mem.cells a = SMap.get 0 s.mem.cells a))))
  ∧ (∀ (s : State) (d : DieIx) (q : QId), Ready s d → (s.queue d q).done = [] → exec (.completionRecord d q) s = .next s)
  ∧ (∀ (s : State) (d : DieIx) (q : QId), Ready s d →
      let waits := (s.die d).outstanding.find? (fun o =>
        decide (o.queue = qNum q) && o.reply.isNone && begun (s.stroke d) (o.sent.toNat + s.rto d q))
      (waits = none → exec (.replyTimeout d q) s = .next s)
      ∧ (∀ o, waits = some o →
        (s.ownerOf d o = none → ∃ t, exec (.replyTimeout d q) s = .next t
          ∧ t = s.modDie d (fun x => { x with outstanding := x.outstanding.erase o }))
        ∧ (∀ r, s.ownerOf d o = some r → r.acking = false → r.released = s.stroke d →
          ∃ t, exec (.replyTimeout d q) s = .next t ∧ Filed s t d q r (pickStatus (r.stats ++ [0x09])) r.hall r.detail
            ∧ (∀ x ∈ (t.die d).outstanding, ¬ (x.queue = qNum q ∧ x.ident = r.ident)) ∧ (r.stats = [] → pickStatus (r.stats ++ [0x09]) = 0x09))))

/-- R11, R52, R53, R97 to R99 and R101. -/
def Obligations.DmaCopiesAndFills : Prop :=
  (∀ (s : State) (d : DieIx) (c : CoreIx) (kind : Nat) (r : Running), (kind = 0x10 ∨ kind = 0x11) → Ready s d →
    Runs s d (.core c) kind r → r.rows = 0 → r.stats = [] → r.fw = false → s.reqsOf d (.core c) r = [] →
    let i := if kind = 0x10 then Instr.copy d c else .fill d c
    let judged := if kind = 0x10 then judgeCopy r.desc else judgeFill r.desc
    let ends := fun (t : State) (st : Nat) => Filed s t d (.core c) r st r.hall r.detail ∧ t.mem = s.mem
    (judged = .format → ∃ t, exec i s = .next t ∧ ends t 0x07)
    ∧ (judged = .noop → s.dmaFenced d c = false →
        ∃ t, exec i s = .next t ∧ Filed s t d (.core c) r 0x00 0 0 ∧ t.mem = s.mem)
    ∧ (judged = .noop → s.dmaFenced d c = true → ∃ t, exec i s = .next t ∧ ends t 0x0F)
    ∧ (∀ j, judged = .work j →
      (dmaService r.desc j = true ∨ s.dmaOk d r.desc j = false → ∃ t, exec i s = .next t ∧ ends t 0x07)
      ∧ (dmaService r.desc j = false → s.dmaOk d r.desc j = true →
        (s.dmaFenced d c = true → ∃ t, exec i s = .next t ∧ ends t 0x0F)
        ∧ (s.dmaFenced d c = false → cRows r.desc = 1 →
          let src := dmaSrcRow r.desc 0
          let dst := dmaDstRow r.desc 0
          let l := locOf dst
          let key := memKey d l.region l.off
          let from0 := memKey d (locOf src).region (locOf src).off
          let bs := if j.src.isNone then [] else s.peek from0 j.srow
          let m := dmaConvert r.desc j (s.core d c).gen bs (List.replicate bs.length false)
          s.isLocal d dst = true → l.region ≤ 1 → s.gate d (.core c) r dst = .go → s.marksIn l.region key m.out.bytes.length = [] →
          (l.region = 0 → s.bucketHit d (dJob r.desc) l.off m.out.bytes.length none = .none) →
          (j.src.isNone = false → s.isLocal d src = true ∧ (locOf src).region ≤ 1 ∧ s.gate d (.core c) r src = .go ∧
            s.marksIn (locOf src).region from0 j.srow = []) →
          ∃ t, exec i s = .next t
            ∧ (∀ b, b < m.out.bytes.length → SMap.get 0 t.mem.cells (key + b) = m.out.bytes.getD b 0)
            ∧ (∀ a, (a < key ∨ key + m.out.bytes.length ≤ a) → SMap.get 0 t.mem.cells a = SMap.get 0 s.mem.cells a)
            ∧ (m.out.poison.any id = false → t.mem.marks = s.mem.marks)
            ∧ Filed s t d (.core c) r (pickStatus m.stats) r.hall 1
            ∧ (t.core d c).gen = m.out.gen ∧ (t.core d c).proc = (s.core d c).proc ∧ (t.core d c).vec = (s.core d c).vec))))
  ∧ (∀ (x : Desc) (j : DmaJob) (g : Gen) (bs : List Byte), j.src = some j.dst → bs.length = j.dst.rowBytes (cLen x) →
      (dmaConvert x j g bs (List.replicate bs.length false)).out.bytes = bs
      ∧ (dmaConvert x j g bs (List.replicate bs.length false)).stats = [] ∧ (dmaConvert x j g bs (List.replicate bs.length false)).out.gen = g)
  ∧ (∀ (x : Desc) (j : DmaJob) (g : Gen) (k i : Nat), j.src = none → j.dst.isBlock = false → k < cLen x → i < j.dst.elemBytes →
      (dmaConvert x j g [] []).out.bytes.getD (k * j.dst.elemBytes + i) 0 = BitVec.ofNat 8 (dn x (24 + i) 1))

/-- R271, R304, R306, R335, R400, R412 and R413. -/
def Obligations.RequestsAreServed : Prop :=
  (∀ (s : State) (d : DieIx) (m : Msg), Ready s d →
    let a := msgAddr m
    let l := locOf a
    let t0 := (s.takeMsg d m).wake d
    let key := memKey d l.region l.off
    s.bankBusy d l = false → (l.region = 0 ∨ l.region = 3 → s.testHold d = false ∧ s.hbmServes d = true) →
    (∀ i, (i = Instr.readReq d m ∧ m.mkind = 1) ∨ (i = Instr.writeReq d m ∧ m.mkind = 2) →
      (s.staleMsg d m = true → exec i s = .next (t0.addSat d rHltStale 0 32 1))
      ∧ (s.staleMsg d m = false → s.epochDrop d m = true → exec i s = .next (t0.addSat d rColDrop0 16 16 1))
      ∧ (s.staleMsg d m = false → s.epochDrop d m = false → s.attemptDrop d m = true → exec i s = .next (t0.addSat d rColDrop1 16 16 1)))
    ∧ (s.staleMsg d m = false → s.epochDrop d m = false → s.attemptDrop d m = false →
    (m.mkind = 1 →
      let n := msgField m 36 4
      (n = 0 ∨ 4032 < n ∨ s.isLocal d a = false ∨ s.decodes d a n = false → exec (.readReq d m) s = .next (t0.reply d m 3 0x07 [] []))
      ∧ (0 < n → n ≤ 4032 → s.isLocal d a = true → s.decodes d a n = true → inService l.region l.off n = true →
          exec (.readReq d m) s = .next ((t0.pelCount 16).reply d m 3 0x07 [] []))
      ∧ (0 < n → n ≤ 4032 → s.isLocal d a = true → s.decodes d a n = true → inService l.region l.off n = false → l.region ≤ 1 →
          ∃ u : State, exec (.readReq d m) s = .next (u.reply d m 3 0x00 ((List.range n).map (fun i => SMap.get 0 s.mem.cells (key + i))) (s.poisonOf l.region key n))
            ∧ u.mem = s.mem ∧ (u.die d).inbox = (s.die d).inbox.erase m))
    ∧ (m.mkind = 2 →
      let n := m.data.length
      (s.isLocal d a = false ∨ s.decodes d a n = false ∨ l.region = 3 → exec (.writeReq d m) s = .next (t0.reply d m 4 0x07 [] []))
      ∧ (s.isLocal d a = true → s.decodes d a n = true → l.region ≠ 3 → inService l.region l.off n = true →
          exec (.writeReq d m) s = .next ((t0.pelCount 16).reply d m 4 0x07 [] []))
      ∧ (s.isLocal d a = true → s.decodes d a n = true → inService l.region l.off n = false → l.region ≤ 1 → s.marksIn l.region key n = [] → m.poison = 0 →
          s.storeHit d l.off n = false → s.bucketHit d m.job l.off n none = .none →
          ∃ u : State, exec (.writeReq d m) s = .next (u.reply d m 4 0x00 [] [])
            ∧ (∀ i, i < n → SMap.get 0 u.mem.cells (key + i) = m.data.getD i 0)
            ∧ (∀ b, (b < key ∨ key + n ≤ b) → SMap.get 0 u.mem.cells b = SMap.get 0 s.mem.cells b)
            ∧ u.mem.marks = s.mem.marks ∧ (u.die d).inbox = (s.die d).inbox.erase m))))
  ∧ (∀ (s : State) (d : DieIx) (m : Msg) (write : Bool), Ready s d → m.mkind = (if write then 4 else 3) →
      let i := if write then Instr.writeAck d m else .readReply d m
      ((s.die d).outstanding = [] →
        exec i s = .next (if (s.takeMsg d m).replyStale d m then (s.takeMsg d m).addSat d rHltStale 0 32 1
          else if (s.takeMsg d m).attemptDrop d m then (s.takeMsg d m).addSat d rColDrop1 16 16 1 else s.takeMsg d m))
      ∧ (∀ o r, (s.die d).outstanding = [o] → o.write = write → o.addr = msgAddr m → o.target = m.src → o.gen = m.gen → o.reply = none →
          m.dst = s.qSource d (queueOfNum o.queue) → s.ownerOf d o = some r → m.gen = s.execGen d (queueOfNum o.queue) (dKind r.desc) →
          s.staleServer d m = false → s.attemptDrop d m = false → msgField m 36 1 = 0 →
          ∃ t, exec i s = .next t ∧ (t.die d).outstanding = [{ o with reply := some (m.data, bytePoison m.poison m.data.length) }]
            ∧ (t.die d).inbox = (s.die d).inbox.erase m ∧ (t.die d).cores = (s.die d).cores ∧ t.mem = s.mem))

/-- R43, R303 to R305 and R308 to R310. -/
def Obligations.StoredDataProtection : Prop :=
  (∀ (s : State) (d : DieIx) (k : Nat) (ks : List Nat), Ready s d → (s.die d).writeBacks = k :: ks →
    ∃ t, exec (.poisonWriteBack d) s = .next t ∧ SMap.get .clean t.mem.marks k = .poison ∧ (t.die d).writeBacks = ks
      ∧ (∀ a, a ≠ k → SMap.get .clean t.mem.marks a = SMap.get .clean s.mem.marks a) ∧ t.mem.cells = s.mem.cells
      ∧ (k / 2 ^ 39 % 256 ≠ 0 → (t.die d).regs = (s.die d).regs)
      ∧ (k / 2 ^ 39 % 256 = 0 → k % 2 ^ 39 % 64 = 0 → t.reg64 d rHbmWr = s.reg64 d rHbmWr + 64)
      ∧ (∀ o, o ≠ rHbmWr → o ≠ rHbmWr + 4 → t.reg d o = s.reg d o) ∧ (t.die d).cores = (s.die d).cores)
  ∧ (∀ (s : State) (a : Access) (d : DieIx) (region off : Nat) (bs : List Byte) (ps : List Bool) (k : Nat), bs ≠ [] →
      memKey d region off < k + wordSize region → k < memKey d region off + bs.length → k ∉ ((s.memWrite a d region off bs ps).die d).writeBacks)
  ∧ (∀ (s : State) (d : DieIx) (data : BitVec 512) (check : BitVec 32), Ready s d → bitAt (s.reg d rEccScrub) 31 = true → s.hbmServes d = true →
      let key := memKey d 0 ((s.die d).scrubPos * 64)
      let m := flipMark true (SMap.get .clean s.mem.marks key) data check
      let after : Mark := if (found true m).cls = 1 then .clean else if (found true m).cls = 2 then .poison else m
      ∃ t, exec (.scrub d data check) s = .next t ∧ SMap.get .clean t.mem.marks key = after
        ∧ (∀ a, a ≠ key → SMap.get .clean t.mem.marks a = SMap.get .clean s.mem.marks a) ∧ t.mem.cells = s.mem.cells
        ∧ (t.die d).scrubPos = ((s.die d).scrubPos + 1) % 2 ^ 33
        ∧ ((found true m).cls = 2 → ∃ e ∈ (t.die d).log, e.event = 0x0701 ∧ e.detail = BitVec.ofNat 64 (s.boardOf key))
        ∧ (t.die d).cores = (s.die d).cores)
  ∧ (found true .poison).cls = 3 ∧ (found false .poison).cls = 3 ∧ (∀ i, i < 512 → (found true (.err (1 <<< i) 0)).cls = 1)
  ∧ (∀ i, i < 512 → (found true (.poisonErr (1 <<< i) 0)).cls = 3) ∧ (∀ i, i < 64 → (found false (.err (1 <<< i) 7)).cls = 2)
  ∧ (∀ i j, i < 64 → j < 64 → i ≠ j → (found false (.err (1 <<< i) 0)).cls = 1 ∧ (found false (.err (1 <<< i ||| 1 <<< j) 0)).cls = 2)
  ∧ (∀ (s : State) (d : DieIx) (n : Fin 10) (addr : Nat),
      let t := s.eccEvent d n addr
      let level := s.rf d (rEccLbLevel n) 0 8
      t.rf d (rEccLbLevel n) 0 8 = min (level + 1) 255 ∧ t.rf d (rEccLbTotal n) 0 32 = min (s.rf d (rEccLbTotal n) 0 32 + 1) (2 ^ 32 - 1)
      ∧ (level + 1 = s.rf d (rEccLbCfg n) 0 8 → bitAt (t.reg d rEccStatus) n = true ∧ (t.die d).log = s.logWith d 0x0702 (n + addr * 256))
      ∧ (s.rf d (rEccLbCfg n) 0 8 = 0 → (t.die d).log = (s.die d).log) ∧ t.mem = s.mem)
  ∧ (∀ (s : State) (d : DieIx) (n : Fin 10), Ready s d →
      (s.rf d (rEccLbCfg n) 16 16 = 0 → exec (.leak d n) s = .next s)
      ∧ (s.rf d (rEccLbCfg n) 16 16 ≠ 0 → ∃ t, exec (.leak d n) s = .next t
        ∧ t.rf d (rEccLbLevel n) 0 8 = s.rf d (rEccLbLevel n) 0 8 - 1 ∧ t.rf d (rEccLbTotal n) 0 32 = s.rf d (rEccLbTotal n) 0 32
        ∧ (s.rf d (rEccLbLevel n) 0 8 - 1 ≤ s.rf d (rEccLbCfg n) 0 8 / 2 → bitAt (t.die d).lbArmed n = true)
        ∧ (s.rf d (rEccLbCfg n) 0 8 / 2 < s.rf d (rEccLbLevel n) 0 8 - 1 → (t.die d).lbArmed = (s.die d).lbArmed)
        ∧ t.mem = s.mem ∧ (t.die d).cores = (s.die d).cores))
  ∧ (∀ (x : Die) (e : LogEntry) (off : Nat), off < 32 * logCapacity →
      (x.addLog e).logByte off = if off / 32 = x.logNext % logCapacity then byteAt e.bytes (off % 32) else x.logByte off)

/-- R317, R323, R324 and R327. -/
def Obligations.FlipMaskAndRowLog : Prop :=
  (∀ (s : State) (d : DieIx) (i : Issuer), Ready s d →
    (s.flipOk d = true → (i = .pelbex ∨ i = .health) → ∃ t, exec (.flipArm d i) s = .next t
      ∧ bitAt (t.reg d rEccFlipCtl) 12 = true ∧ bitAt (t.reg d rEccFlipCtl) 31 = false
      ∧ (∀ o, o ≠ rEccFlipCtl → t.reg d o = s.reg d o) ∧ t.mem = s.mem)
    ∧ (s.flipOk d = false → (i = .pelbex ∨ i = .health) → exec (.flipArm d i) s = .next (s.logIgnored d rEccFlipCtl 4))
    ∧ (∀ e, i = .ep e → exec (.flipArm d i) s = .next (s.logIgnored d rEccFlipCtl 2)))
  ∧ (∀ (s : State) (a : Access) (d : DieIx) (off : Nat) (bs : List Byte),
      let key := memKey d 1 off
      let t := s.memWrite a d 1 off bs (List.replicate bs.length false)
      bitAt (s.reg d rEccFlipCtl) 12 = true → key ≤ s.flipKey d → s.flipKey d + 8 ≤ key + bs.length → (s.flipKey d) % 8 = 0 → off % 8 = 0 → bs.length % 8 = 0 →
      s.reg64 d rEccFlipData ≠ 0 →
      (∀ i, i < bs.length → SMap.get 0 t.mem.cells (key + i) = bs.getD i 0)
      ∧ (a.test = true → SMap.get .clean t.mem.marks (s.flipKey d) =
            .err ((s.reg64 d rEccFlipData).setWidth 512 <<< s.flipShift d) (s.reg d rEccFlipChk)
          ∧ bitAt (t.reg d rEccFlipCtl) 12 = false ∧ bitAt (t.reg d rEccFlipCtl) 31 = true)
      ∧ (a.test = false → SMap.get .clean t.mem.marks (s.flipKey d) = .clean ∧ bitAt (t.reg d rEccFlipCtl) 12 = true))
  ∧ (∀ (s : State) (d : DieIx) (e : Fin 16), Ready s d →
      exec (.eccRowlog d e true) s = .next s
      ∧ (∃ t, exec (.eccRowlog d e false) s = .next t ∧ bitAt (t.reg64 d (rEccRowlog e)) 63 = false
        ∧ (t.reg64 d (rEccRowlog e)).toNat % 2 ^ 63 = (s.reg64 d (rEccRowlog e)).toNat % 2 ^ 63
        ∧ (∀ o, o ≠ rEccRowlog e + 4 → t.reg d o = s.reg d o) ∧ t.mem = s.mem))

/-- R277, R279, R282, R286, R287, R290, R291 and R297. -/
def Obligations.HbmMaintenance : Prop :=
  (∀ (s : State) (d : DieIx) (pc : Fin 128) (waits : Bool), Ready s d → s.stackServes d (pc / 32) = true →
    let went := fun (t : State) =>
      t.postponed d pc = (if waits then (if s.postponed d pc < 8 then s.postponed d pc + 1 else 0) else s.postponed d pc - 1)
        ∧ (∀ j, j ≠ pc.val → t.postponed d j = s.postponed d j) ∧ t.mem = s.mem ∧ (t.die d).regs = (s.die d).regs
        ∧ (waits = true → 8 ≤ s.postponed d pc → ∀ p ∈ (t.die d).hbm.openRows, p.1 / 32 ≠ pc.val)
    (∃ t, exec (.refresh d pc waits) s = .next t ∧ went t)
    ∧ (s.rfmDue d pc = true → ∃ t, exec (.rfm d pc waits) s = .next t ∧ went t
        ∧ ((waits = false ∨ 8 ≤ s.postponed d pc) → t.rfmDue d pc = false))
    ∧ (s.rfmDue d pc = false → exec (.rfm d pc waits) s = .next s))
  ∧ (∀ (s : State) (d : DieIx), Ready s d → s.hbmServes d = true →
      exec (.phaseUpdate d) s = .next (s.modHbm d (fun h => { h with phaseAt := s.stamp d })))
  ∧ (∀ (s : State) (d : DieIx) (ch : Fin 64), Ready s d → s.stackServes d (ch / 16) = true →
      ∃ t, exec (.hbmPowerDown d ch) s = .next t ∧ bitAt (t.die d).hbm.powerDown ch = true
        ∧ (∀ j, j ≠ ch.val → bitAt (t.die d).hbm.powerDown j = bitAt (s.die d).hbm.powerDown j) ∧ t.mem = s.mem)
  ∧ (∀ (s : State) (d : DieIx) (pc : Fin 128) (slot : Fin 64) (kind : Fin 10), Ready s d →
      let key := pc.val * 64 + slot.val
      let was := if SMap.get 0 (s.die d).hbm.waiting key = 0 then s.qosClass d kind else SMap.get 0 (s.die d).hbm.waiting key
      (fld (s.qosOf d) 24 8 = 0 → exec (.promotion d pc slot kind) s = .next s)
      ∧ (fld (s.qosOf d) 24 8 ≠ 0 → ∃ t, exec (.promotion d pc slot kind) s = .next t
        ∧ SMap.get 0 (t.die d).hbm.waiting key = max 1 (was - 1)
        ∧ (∀ j, j ≠ key → SMap.get 0 (t.die d).hbm.waiting j = SMap.get 0 (s.die d).hbm.waiting j) ∧ t.mem = s.mem)
      ∧ ((s.die d).hbm.qosWas = [] → s.qosOf d = s.reg d rHbmQos))
  ∧ (∀ (s : State) (d : DieIx) (k : Fin 4) (v : BitVec 8), Ready s d → bitAt (s.die d).hbm.testPort k = false →
      let hot := decide (s.rf d rHbmTherm 16 8 < v.toNat) || (decide (s.rf d rHbmTherm 8 8 < v.toNat) && bitAt (s.reg d (rHbmStk k)) 2)
      (∃ t, exec (.temperatureReading d k (some v)) s = .next t
        ∧ t.rf d (rHbmStk k) 24 8 = v.toNat ∧ bitAt (t.reg d (rHbmStk k)) 1 = decide (s.rf d rHbmTherm 0 8 < v.toNat)
        ∧ bitAt (t.reg d (rHbmStk k)) 2 = hot ∧ (t.die d).hbm.tempFails[k] = 0 ∧ (t.die d).cores = (s.die d).cores ∧ t.mem = s.mem)
      ∧ ((s.die d).hbm.tempFails[k] = 0 → ∃ t, exec (.temperatureReading d k none) s = .next t ∧ (t.die d).regs = (s.die d).regs
          ∧ (t.die d).hbm.tempFails[k] = 1)
      ∧ ((s.die d).hbm.tempFails[k] ≠ 0 → ∃ t, exec (.temperatureReading d k none) s = .next t ∧ t.rf d (rHbmStk k) 24 8 = 0xFF))

/-- R292, R293 and R299 to R301. Which instructions only read is a free function of the wrapper instruction. -/
def Obligations.HbmLanesAndTestAccess : Prop :=
  (∀ (s : State) (d : DieIx) (k : Fin 4) (ca : Bool) (idx : Fin 32), Ready s d → (ca = true → idx.val < 16) →
    ∃ t, exec (.hbmLaneFailure d k ca idx) s = .next t
      ∧ t.reg64 d (rHbmLane k) = setBit (s.reg64 d (rHbmLane k)) (if ca then 32 + idx.val else idx.val) true
      ∧ bitAt (t.reg d (rHbmStk k)) (16 + (if ca then idx.val / 2 else idx.val / 4)) = true
      ∧ (t.die d).log = s.logWith d 0x0602 (k.val * 256 + (if ca then 64 else 0) + idx.val) ∧ t.mem = s.mem)
  ∧ (∀ (s : State) (d : DieIx), Ready s d →
      let ctl := s.reg d rHbmTestCtl
      let instr : BitVec 8 := BitVec.ofNat 8 (s.rf d rHbmTestWir 0 8)
      let owned := bitAt (s.die d).hbm.testPort (fld ctl 16 2)
      (bitAt ctl 31 = true → exec (.hbmTestGo d) s = .next s)
      ∧ (bitAt ctl 31 = false → owned = true → ∃ t, exec (.hbmTestGo d) s = .next t ∧ t.rf d rHbmTestCtl 24 4 = 2 ∧ bitAt (t.reg d rHbmTestCtl) 31 = false
          ∧ (t.die d).hbm = (s.die d).hbm)
      ∧ (bitAt ctl 31 = false → owned = false → Config.wrapperReadOnly instr = false → s.testHold d = false → ∃ t, exec (.hbmTestGo d) s = .next t
          ∧ t.rf d rHbmTestCtl 24 4 = 1 ∧ bitAt (t.reg d rHbmTestCtl) 31 = false ∧ (t.die d).hbm = (s.die d).hbm)
      ∧ (bitAt ctl 31 = false → owned = false → (Config.wrapperReadOnly instr = true ∨ s.testHold d = true) → ∃ t, exec (.hbmTestGo d) s = .next t
          ∧ bitAt (t.reg d rHbmTestCtl) 31 = true ∧ (t.die d).hbm.wrapper = some (instr, fld ctl 8 8) ∧ t.mem = s.mem)
      ∧ (∀ w err, (s.die d).hbm.wrapper = some w → ∃ t, exec (.wrapperOperationEnd d err) s = .next t ∧ (t.die d).hbm.wrapper = none
          ∧ t.rf d rHbmTestCtl 24 4 = (if err then 3 else 0) ∧ bitAt (t.reg d rHbmTestCtl) 31 = false
          ∧ (∀ n, n < 8 → w.2 ≤ 32 * n → t.reg d (rHbmTestData n) = s.reg d (rHbmTestData n)) ∧ t.mem = s.mem))
  ∧ (∀ (s : State) (d : DieIx) (i : Issuer) (hold : Bool), Ready s d → bitAt (s.reg d rHbmTestCtl) 31 = false →
      (i ≠ .pelbex → exec (.testHold d i hold) s = .next (s.logIgnored d rHbmTestCtl 2))
      ∧ (s.jobAssigned d = true → exec (.testHold d .pelbex hold) s = .next s)
      ∧ (s.jobAssigned d = false → ∃ t, exec (.testHold d .pelbex hold) s = .next t ∧ t.testHold d = hold ∧ bitAt (t.reg d rHbmTestCtl) 1 = hold
          ∧ t.mem = s.mem))
  ∧ (∀ (s : State) (d : DieIx) (k : Fin 4) (take : Bool), Ready s d →
      ∃ t, exec (.testPortAccess d k take) s = .next t ∧ bitAt (t.die d).hbm.testPort k = take
        ∧ (∀ j : Fin 4, j ≠ k → bitAt (t.die d).hbm.testPort j = bitAt (s.die d).hbm.testPort j)
        ∧ (take = true → (s.die d).hbm.wrapper.isSome = true → s.rf d rHbmTestCtl 16 2 = k →
            (t.die d).hbm.wrapper = none ∧ t.rf d rHbmTestCtl 24 4 = 2 ∧ bitAt (t.reg d rHbmTestCtl) 31 = false)
        ∧ (take = false → (t.die d).regs = (s.die d).regs))

/-- R172, R175, R177 to R179 and R181. -/
def Obligations.BilletStackIsLastInFirstOut : Prop :=
  (∀ (s : State) (d : DieIx) (c : Fin 16) (r : Running) (sf : Fmt), Ready s d → Picks s d .bil (bilPick 0x80 c) r → r.stats = [] →
    let x := r.desc
    let len := sf.rowBytes (pushLen x)
    let entry := pad64 (payloadBytes (pushColumn x) (s.entryFmt d x) (pushRows x) (pushLen x)) + 64
    (judgePush x = .format → ∃ t, exec (.push d c) s = .next t ∧ Filed s t d .bil r 0x07 r.hall r.detail ∧ t.mem = s.mem)
    ∧ (judgePush x = .work sf → s.bilOwned d c (dJob x) = true → s.segOpen d c = true → (1 < pushRows x → len ≤ pushPitch x) →
        rowsService (pushSrc x) (pushPitch x) (pushRows x) len = false → s.rowsDecode d (pushSrc x) (pushPitch x) (pushRows x) len = true →
        s.dieFenced d = false →
        (s.segSize d c < s.segTop d c + entry → ∃ t detail, exec (.push d c) s = .next t ∧ Filed s t d .bil r 0x0C 0 detail
          ∧ t.segTop d c = s.segTop d c ∧ t.segDepth d c = s.segDepth d c ∧ t.mem = s.mem)
        ∧ (s.segTop d c + entry ≤ s.segSize d c → s.testHold d = false → s.hbmServes d = true →
            ∀ l t0, s.fetchAll d .bil r (rowPlaces (pushSrc x) (pushPitch x) (pushRows x) len) = .data l t0 →
              ∃ t, exec (.push d c) s = .next t ∧ t = t0.pushEntry d r sf l)))
  ∧ (∀ (s : State) (d : DieIx) (r : Running) (sf : Fmt) (l : List (List Byte × List Bool)),
      let x := r.desc
      let c := dCtx x
      let o := manyRows (s.entryFmt d x) (pushRowsOut sf (s.entryFmt d x) x l) (s.die d).genUpd
      let raw := (o.rows.map (fun p => p.1)).flatten
      let size := pad64 raw.length
      let key := memKey d 0 (s.segBase d c + s.segTop d c)
      let t := s.pushEntry d r sf l
      s.segTop d c + size + 64 ≤ s.segSize d c → s.segDepth d c + 1 < 2 ^ 32 → r.released = s.stroke d →
      t.segTop d c = s.segTop d c + size + 64 ∧ t.segDepth d c = s.segDepth d c + 1
      ∧ (∀ i, i < raw.length → SMap.get 0 t.mem.cells (key + i) = raw.getD i 0)
      ∧ (∀ i, i < 64 → SMap.get 0 t.mem.cells (key + size + i) = (trailerBytes (dLayer x) (pushKind x) (s.entryFmt d x) (dn x 45 1) (dn x 46 1)
          (pushLen x) (pushRows x) size (s.stamp d).toNat (dStep x) (dJob x).toNat).getD i 0)
      ∧ (∀ a, (a < key ∨ key + size + 64 ≤ a) → SMap.get 0 t.mem.cells a = SMap.get 0 s.mem.cells a)
      ∧ (∃ detail, Filed s t d .bil r (pickStatus o.stats) 0 detail) ∧ t.segBase d c = s.segBase d c)
  ∧ (∀ (s : State) (d : DieIx) (c : Fin 16) (r : Running) (df : Fmt), Ready s d → Picks s d .bil (bilPick 0x81 c) r → r.stats = [] →
      let x := r.desc
      judgePop x = .work df → s.bilOwned d c (dJob x) = true → s.segOpen d c = true → s.dieFenced d = false →
      (s.segDepth d c = 0 → rowsService (popDst x) 0 1 1 = false → s.rowsDecode d (popDst x) 0 1 1 = true →
        ∃ t, exec (.pop d c) s = .next t ∧ Filed s t d .bil r 0x0D 0 0x80000000 ∧ t.segTop d c = s.segTop d c ∧ t.mem = s.mem)
      ∧ (s.segDepth d c ≠ 0 → s.testHold d = false → s.hbmServes d = true →
          let a := s.topTrailer d c (dJob x)
          let sh := popShape a.1 df
          (a.2.1 = true → ∃ t, exec (.pop d c) s = .next t ∧ Filed a.2.2 t d .bil r 0x02 r.hall r.detail ∧ t.segTop d c = s.segTop d c
            ∧ t.segDepth d c = s.segDepth d c ∧ t.mem = s.mem)
          ∧ (a.2.1 = false → a.1.len = 0 ∨ a.1.rows = 0 → ∃ t, exec (.pop d c) s = .next t ∧ Filed a.2.2 t d .bil r 0x00 0 0
            ∧ t.segTop d c = s.segTop d c ∧ t.segDepth d c = s.segDepth d c ∧ t.mem = s.mem)
          ∧ (a.2.1 = false → a.1.len ≠ 0 → a.1.rows ≠ 0 → rowsService (popDst x) (popPitch x) sh.1 sh.2 = false → (1 < a.1.rows → sh.2 ≤ popPitch x) →
              s.rowsWritable d (dJob x) (popDst x) (popPitch x) sh.1 sh.2 (some df) = true →
              (a.1.layer ≠ dLayer x → ∃ t, exec (.pop d c) s = .next t ∧ Filed a.2.2 t d .bil r 0x0D 0 (BitVec.ofNat 32 a.1.layer)
                ∧ t.segTop d c = s.segTop d c ∧ t.segDepth d c = s.segDepth d c ∧ t.mem = s.mem)
              ∧ (a.1.layer = dLayer x → s.gateAll d .bil r (rowPlaces (popDst x) (popPitch x) sh.1 sh.2) ≠ .wait →
                ∃ t, exec (.pop d c) s = .next t ∧ t = a.2.2.popEntry d r a.1 df
                  ∧ ((∀ k, (locOf (BitVec.ofNat 52 (rowAddr (popDst x) (popPitch x) k))).region ≠ 2) → a.1.size % 64 = 0 →
                    t.segTop d c = s.segTop d c - (a.1.size + 64) ∧ t.segDepth d c = s.segDepth d c - 1)))))
  ∧ (∀ (s : State) (d : DieIx) (c : Fin 16) (a : Trailer), a.size % 64 = 0 → s.segDepth d c ≠ 0 →
      (s.dropTop d c a).segTop d c = s.segTop d c - (a.size + 64) ∧ (s.dropTop d c a).segDepth d c = s.segDepth d c - 1
      ∧ (s.dropTop d c a).mem = s.mem)
  ∧ (∀ (s : State) (d : DieIx) (c : Fin 16) (r : Running), Ready s d → Picks s d .bil (bilPick 0x82 c) r → r.stats = [] →
      dn r.desc 24 40 = 0 → s.bilOwned d c (dJob r.desc) = true → s.segOpen d c = true → s.dieFenced d = false →
      ∃ t, exec (.clear d c) s = .next t ∧ t.segTop d c = 0 ∧ t.segDepth d c = 0 ∧ t.mem = s.mem ∧ Filed s t d .bil r 0x00 0 0)

/-- R180, R188 and R189. -/
def Obligations.RechunkAndDerivativeTables : Prop :=
  (∀ (s : State) (d : DieIx) (r : Running) (sf df : Fmt), Ready s d → Picks s d .bil (fun y => decide (dKind y.desc = 0x83)) r → r.stats = [] →
    let x := r.desc
    let src := layoutShape (rechunkBack x) sf (cRows x) (cLen x)
    let dst := layoutShape (!rechunkBack x) df (cRows x) (cLen x)
    (judgeRechunk x = .format → ∃ t, exec (.rechunk d) s = .next t ∧ Filed s t d .bil r 0x07 r.hall r.detail ∧ t.mem = s.mem)
    ∧ (judgeRechunk x = .noop → s.dieFenced d = false → ∃ t, exec (.rechunk d) s = .next t ∧ Filed s t d .bil r 0x00 0 0 ∧ t.mem = s.mem)
    ∧ (judgeRechunk x = .work (sf, df) → rowsService (cSrc x) (cSrcPitch x) src.1 src.2 = false →
        rowsService (cDst x) (cDstPitch x) dst.1 dst.2 = false → (1 < cRows x → src.2 ≤ cSrcPitch x ∧ dst.2 ≤ cDstPitch x) →
        s.rowsDecode d (cSrc x) (cSrcPitch x) src.1 src.2 = true → s.rowsWritable d (dJob x) (cDst x) (cDstPitch x) dst.1 dst.2 (some df) = true →
        s.dieFenced d = false → s.gateAll d .bil r (rowPlaces (cDst x) (cDstPitch x) dst.1 dst.2) = .go →
        ∀ l t0, s.fetchAll d .bil r (rowPlaces (cSrc x) (cSrcPitch x) src.1 src.2) = .data l t0 →
          ∃ o : ManyOut, o = manyRows df (writeLayout (!rechunkBack x) sf df (rndOf (dRnd x)) (cRows x) (cLen x)
              (readLayout (rechunkBack x) sf (cRows x) (cLen x) l)) (t0.die d).genUpd
            ∧ exec (.rechunk d) s = .next ((((t0.dropReqs d .bil r).modDie d (fun y => { y with genUpd := o.gen })).putAll d .bil r
              (((if rechunkBack x then o.rows else joinRows (cLen x) o.rows dst.1).zipIdx).map (fun p =>
                (BitVec.ofNat 52 ((cDst x).toNat + cDstPitch x * p.2), p.1.1, p.1.2)))).settle d .bil
              { r with stats := o.stats, flags := r.flags ||| o.flags })))
  ∧ (∀ (s : State) (d : DieIx) (k : Fin 32) (r : Running), Ready s d →
      Picks s d .bil (fun y => decide (dKind y.desc = 0x84) && decide (fld y.desc (8 * 32) 5 = k.val)) r → r.stats = [] →
      let x := r.desc
      let a := dAddr x 24
      dAddrOk x 24 = true → fld x (8 * 32 + 5) 3 = 0 → dn x 33 31 = 0 → rowsService a 0 1 960 = false → s.rowsDecode d a 0 1 960 = true →
      s.dieFenced d = false → s.tblUsed d k = false →
      (∀ t0, s.fetch d .bil r a 960 = .wait t0 → ∃ t, exec (.tableLoad d k) s = .next t ∧ t.tblState d k = 1)
      ∧ (∀ bs ps t0, s.fetch d .bil r a 960 = .data bs ps t0 →
          let v := tblVerify bs (ps.any id) (dJob x)
          ∃ t, exec (.tableLoad d k) s = .next t ∧ t.tblImage d k = bs ∧ t.tblState d k = (if v.1 then 2 else 3)
            ∧ (∀ j : Fin 32, j ≠ k → t.tblState d j = t0.tblState d j ∧ t.tblImage d j = t0.tblImage d j)
            ∧ (r.released = t0.stroke d → Filed t0 t d .bil r (if ps.any id then 0x02 else if v.1 then 0x00 else 0x01) v.2 0) ∧ t.mem = t0.mem))
  ∧ (∀ (b : List Byte) (job : BitVec 12), (tblVerify b true job).1 = false
      ∧ (img32 b 60 ≠ (crc32c (b.take 60 ++ b.drop 64)).toNat → (tblVerify b false job).1 = false))

/-- R111, R112, R120, R122, R123, R125, R131, R133 and R134. -/
def Obligations.MatrixLoadsAndProducts : Prop :=
  (∀ (s : State) (d : DieIx) (c : CoreIx) (r : Running) (f : Fmt), Ready s d → Runs s d (.core c) 0x20 r → r.stats = [] →
    let x := r.desc
    let ps := loadPlaces x f
    let len := (ps.map (fun p => p.2)).headD 0
    (judgeLoad x = .format → ∃ t, exec (.load d c) s = .next t ∧ Filed s t d (.core c) r 0x07 r.hall r.detail ∧ (t.core d c).arr = (s.core d c).arr)
    ∧ (judgeLoad x = .noop → s.unitFenced d (.core c) 0x20 = false → ∃ t, exec (.load d c) s = .next t ∧ Filed s t d (.core c) r 0x00 0 0
        ∧ (t.core d c).arr = (s.core d c).arr ∧ t.mem = s.mem)
    ∧ (judgeLoad x = .work f → rowsService (lSrc x) (lPitch x) ps.length len = false → s.rowsDecode d (lSrc x) (lPitch x) ps.length len = true →
        s.unitFenced d (.core c) 0x20 = false →
        let s0 := s.modCore d c emptyShadow
        (∀ t0, s0.fetchAll d (.core c) r (ps.map (fun p => (p.1, loadBytes f p.2))) = .wait t0 → exec (.load d c) s = .next t0)
        ∧ (∀ l t0, s0.fetchAll d (.core c) r (ps.map (fun p => (p.1, loadBytes f p.2))) = .data l t0 → l.any (fun p => wrongCount f p.1 p.2) = false →
          ∃ t, exec (.load d c) s = .next t
            ∧ (t.core d c).arr = { (t0.core d c).arr with
                shadow := some ⟨f, lDiag x, if lDiag x then 128 else lKlen x, lCols x, l, lSrc x, lPitch x⟩ }
            ∧ (r.released = t0.stroke d → Filed t0 t d (.core c) r 0x00 0 0) ∧ t.mem = t0.mem)))
  ∧ (∀ (s : State) (d : DieIx) (c : CoreIx) (kind : Nat) (r : Running) (parity : List (Nat × Nat)) (ups : List Upset), (kind = 0x21 ∨ kind = 0x22) → Ready s d →
      Runs s d (.core c) kind r → r.stats = [] → (∀ y ∈ (s.queue d (.core c)).running, dKind y.desc = kind → y.acking = false) →
      let i := if kind = 0x21 then Instr.mul d c parity ups else .diag d c parity ups
      let x := r.desc
      (s.streaming d c r = none →
        (judgeMul x = .noop → s.unitFenced d (.core c) kind = false → ∃ t, exec i s = .next t ∧ Filed s t d (.core c) r 0x00 hallEmpty 0
          ∧ (t.core d c).arr = (s.core d c).arr ∧ t.mem = s.mem)
        ∧ (∀ res, s.mulStart d c x = .stop res false → exec i s = .next (s.finish d (.core c) r res))
        ∧ (∀ st af ofm, s.mulStart d c x = .go st af ofm → s.wantsDrain d c r = false → s.gateAll d (.core c) r (mulOuts x st ofm) = .go →
            exec i s = .next (s.mulBegin d c r st af ofm parity ups)))
      ∧ (∀ m af ofm, s.streaming d c r = some m → Fmt.ofCode (fld x (8 * 52) 4) = some af → Fmt.ofCode (fld x (8 * 52 + 4) 4) = some ofm →
          exec i s = .next (State.mulTiles d c af ofm parity ups (mulFuel m.st x) r m s)
          ∧ (∀ t0, m.got.length < pairCount m.st.fmt → s.fetchAll d (.core c) r (pairPlaces m.st m.got.length) = .wait t0 →
              exec i s = .next (t0.modCore d c (fun y => { y with arr := { y.arr with run := some m } })))))
  ∧ (∀ (s : State) (d : DieIx) (c : CoreIx) (r : Running) (st : Stationary) (af ofm : Fmt) (parity : List (Nat × Nat)) (ups : List Upset),
      let x := r.desc
      let on := (s.mulMask d c r st.ncols).1
      let wrong := (fedRows on).any (fun k =>
        wrongCount af (s.peek (memKey d 1 (aOff x c k)) 64) (s.poisonOf 1 (memKey d 1 (aOff x c k)) (aBytes st af)))
      let s0 := if mSwap x then
          (s.mulMask d c r st.ncols).2.modCore d c (fun k => { k with arr := { k.arr with shadow := none, active := some st } })
        else (s.mulMask d c r st.ncols).2
      let f := s0.feedTile d c r af parity ups ⟨r.ident, st, 0, [], [], on, [], [], [], [], []⟩
      let cs := (f.1.input x af).checks f.1.sums (f.2.drainTile d c r ofm f.1).s.free
      let t := s.mulBegin d c r st af ofm parity ups
      let lo := memKey d 1 (bankBase c + mLine x * 512)
      (wrong = true → t = s.stopEarly d (.core c) r 0x07)
      ∧ (wrong = false → slicedFmt st.fmt = false → (∀ k ∈ cs, k.fail = false) → mAcc x < 2 → r.stats = [] → s.reqsOf d (.core c) r = [] →
        r.released = s.stroke d → f.1.fed.length < 65536 → (dKind x = 0x21 ∨ dKind x = 0x22) →
        (∀ a, (a < lo ∨ lo + mRows x * bankLines st.fmt st.ncols * 512 ≤ a) → SMap.get 0 t.mem.cells a = SMap.get 0 s.mem.cells a)
        ∧ (t.core d c).arr.active = (if mSwap x then some st else (s.core d c).arr.active)
        ∧ (t.core d c).arr.shadow = (if mSwap x then none else (s.core d c).arr.shadow)
        ∧ (t.core d c).proc = (s.core d c).proc ∧ (t.core d c).vec = (s.core d c).vec
        ∧ f.1.fed.length = (fedRows on).length
        ∧ (∃ status, (status = 0x00 ∨ status = 0x02) ∧ Filed s t d (.core c) r status ((f.1.input x af).word cs) (BitVec.ofNat 32 f.1.fed.length))))

/-- R178, R182, R184, R187 and R190. -/
def Obligations.DrainPopsAndTableWaits : Prop :=
  (∀ (s : State) (d : DieIx) (c : CoreIx) (r : Running) (st : Stationary) (af ofm : Fmt), Ready s d → Picks s d (.core c) mulPick r → r.stats = [] →
    s.wantsDrain d c r = true → s.mulStart d c r.desc = .go st af ofm →
    let x := r.desc
    let ctx := dCtx x
    let u := s.drainArrive d c r.ident ctx
    let a := u.topTrailer d ctx (dJob x)
    (u.drainTurn d c r.ident ctx = false → exec (.drainPop d c) s = .next u)
    ∧ (u.drainTurn d c r.ident ctx = true → s.testHold d = false → s.hbmServes d = true →
    (s.segDepth d ctx = 0 → ∃ t, exec (.drainPop d c) s = .next t ∧ Filed s t d (.core c) r 0x0D r.hall r.detail
        ∧ t.segTop d ctx = s.segTop d ctx ∧ t.mem = s.mem)
    ∧ (s.segDepth d ctx ≠ 0 → a.2.1 = false → a.1.column = false → a.1.rows = mRows x → a.1.len = st.ncols → a.1.size % 64 = 0 →
        (∀ n fb, a.2.2.dfnPick d x a.1 = .formula n fb → a.1.layer = dLayer x → ∃ t e, exec (.drainPop d c) s = .next t ∧ (t.core d c).drain = some e
          ∧ e.ident = r.ident ∧ e.fmt = a.1.fmt ∧ e.rows.length = a.1.rows ∧ e.table = none ∧ e.formula = n
          ∧ t.segTop d ctx = s.segTop d ctx - (a.1.size + 64) ∧ t.segDepth d ctx = s.segDepth d ctx - 1 ∧ t.mem = s.mem)
        ∧ (∀ k, a.2.2.dfnPick d x a.1 = .table k → a.1.layer = dLayer x → ∃ t e, exec (.drainPop d c) s = .next t ∧ (t.core d c).drain = some e
          ∧ e.ident = r.ident ∧ e.table = some k ∧ t.segTop d ctx = s.segTop d ctx - (a.1.size + 64))
        ∧ (a.2.2.dfnPick d x a.1 ≠ .format → a.1.layer ≠ dLayer x → ∃ t, exec (.drainPop d c) s = .next t
          ∧ Filed a.2.2 t d (.core c) r 0x0D r.hall r.detail ∧ t.segTop d ctx = s.segTop d ctx ∧ t.mem = s.mem))))
  ∧ (∀ (s : State) (d : DieIx) (c : CoreIx) (ident ctx : Nat), (s.queue d .bil).running = [] → (s.die d).drains = [] →
      s.drainTurn d c ident ctx = true ∧ (s.drainArrive d c ident ctx).die d = { s.die d with drains := [(c, ident, ctx)] }
      ∧ (s.drainArrive d c ident ctx).mem = s.mem)
  ∧ (∀ (s : State) (d : DieIx) (c : CoreIx) (r : Running) (w : Stroke), Ready s d → Picks s d (.core c) mulPick r → r.stats = [] → r.waitFrom = some w →
      s.wantsDrain d c r = true → begun (s.stroke d) (w.toNat + s.rto d (.core c)) = true → s.tableReady d r.desc = false →
      ∃ t, exec (.tableWaitTimeout d c) s = .next t ∧ Filed s t d (.core c) r 0x09 r.hall r.detail ∧ t.mem = s.mem)
  ∧ (∀ y : Nat, (decodeFloat .fp32 y).isNan = false →
      dfnFormula 2 y = (if (decodeFloat .fp32 y).cmp (.fin false 0 0) = 1 then 0x3F800000 else 0)
      ∧ dfnFormula 3 y = op32 .mul y (op32 .sub 0x3F800000 y) ∧ dfnFormula 4 y = op32 .sub 0x3F800000 (op32 .mul y y))
  ∧ (∀ n y, (decodeFloat .fp32 y).isNan = true → dfnFormula n y = 0x7FC00000)

/-- R11, R89 and R192 to R195. -/
def Obligations.RowEnginesComputeRows : Prop :=
  (∀ (s : State) (d : DieIx) (q : Fin 4) (r : Running) (kind : Nat) (i : Instr),
    ((kind = 0x90 ∧ i = .softmaxFwd d q) ∨ (kind = 0x91 ∧ i = .normFwd d q) ∨ (kind = 0x92 ∧ i = .softmaxBwd d q) ∨ (kind = 0x93 ∧ i = .normBwd d q)) →
    Ready s d → Runs s d (.row q) kind r → r.stats = [] →
    let x := r.desc
    (judgeRow x = .format → ∃ t, exec i s = .next t ∧ Filed s t d (.row q) r 0x07 r.hall r.detail ∧ t.mem = s.mem)
    ∧ (judgeRow x = .noop → s.unitFenced d (.row q) kind = false → ∃ t, exec i s = .next t ∧ Filed s t d (.row q) r 0x00 0 0 ∧ t.mem = s.mem
        ∧ t.wins d q = s.wins d q)
    ∧ (∀ inf ofm, judgeRow x = .work (inf, ofm) → s.rowCtxOk d x (rRow0 x + rRows x) = true →
        (rowBlocks x inf ofm).any (fun b => rowsService b.1 b.2.1 b.2.2.1 b.2.2.2.1) = false → s.rowAddrsOk d x inf ofm = true →
        s.unitFenced d (.row q) kind = false → s.testHold d = false → s.hbmServes d = true →
        ∀ l t0, s.fetchAll d (.row q) r (rowReads x inf ofm (s.gradsBucket x)) = .data l t0 →
          exec i s = .next (t0.rowWork d q r inf ofm l)))
  ∧ (∀ (x : Desc) (k : Nat) (p : RowParam) (st : Stat) (xs dy : List Nat),
      let v := rowVals x k p st xs dy
      ((xs.any special32 = true ∨ dy.any special32 = true) → v.out = List.replicate xs.length 0x7FC00000)
      ∧ (xs.any special32 = false → dy.any special32 = false →
        (dKind x = 0x90 → v.out = xs.map (fun a => op32 .div (exp32 (op32 .sub (op32 .mul p.head a) v.stat.a)) v.stat.b))
        ∧ (dKind x = 0x91 → rAffine x = false → v.out = xs.map (fun a => op32 .mul (op32 .sub a v.stat.a) v.stat.b))
        ∧ (dKind x = 0x91 → rAffine x = true → p.gamma.length = xs.length → p.beta.length = xs.length → ∀ j, j < xs.length →
            v.out.getD j 0 = op32 .add (op32 .mul (p.gamma.getD j 0) (op32 .mul (op32 .sub (xs.getD j 0) v.stat.a) v.stat.b)) (p.beta.getD j 0))
        ∧ (dKind x = 0x91 → rRms x = true → v.stat.a = 0)
        ∧ (dKind x = 0x92 → dy.length = xs.length → ∃ dot, ∀ j, j < xs.length →
            let y := op32 .div (exp32 (op32 .sub (op32 .mul p.head (xs.getD j 0)) st.a)) st.b
            v.out.getD j 0 = op32 .mul (op32 .mul p.head y) (op32 .sub (dy.getD j 0) dot))
        ∧ (dKind x = 0x93 → rAffine x = false → rRms x = true → dy.length = xs.length → ∃ m, ∀ j, j < xs.length →
            let h := op32 .mul (op32 .sub (xs.getD j 0) st.a) st.b
            v.out.getD j 0 = op32 .mul st.b (op32 .sub (dy.getD j 0) (op32 .mul h m)))))
  ∧ (∀ (s : State) (d : DieIx) (q : Fin 4) (back : Bool) (r : Running), Ready s d → Runs s d (.row q) (if back then 0x94 else 0x95) r → r.stats = [] →
      let x := r.desc
      let i := if back then Instr.flush d q else .drop d q
      (dn x 24 40 ≠ 0 ∨ s.rowCtxOk d x 0 = false → ∃ t, exec i s = .next t ∧ Filed s t d (.row q) r 0x07 r.hall r.detail ∧ t.wins d q = s.wins d q
        ∧ t.mem = s.mem)
      ∧ (dn x 24 40 = 0 → s.rowCtxOk d x 0 = true → s.unitFenced d (.row q) (dKind x) = false →
          (back = true → s.testHold d = false ∧ s.hbmServes d = true) →
          ∃ t, exec i s = .next t ∧ Filed s t d (.row q) r 0x00 0 0
            ∧ t.wins d q = (s.wins d q).filter (fun w => w.ctx != dCtx x) ∧ (∀ p : Fin 4, p ≠ q → t.wins d p = s.wins d p)
            ∧ (back = false → t.mem = s.mem)
            ∧ (∀ w, back = true → (s.wins d q).filter (fun w => w.ctx == dCtx x) = [w] → ∀ j k, j < 1024 → k < 8 → bitAt w.valid j = true →
                SMap.get 0 t.mem.cells (memKey d 0 (s.statOff d w.ctx w.layer (1024 * w.block + j)) + k)
                  = BitVec.ofNat 8 ((SMap.get 0 w.stats j).toNat / 2 ^ (8 * k)))))

/-- R198 to R200, R202 to R204 and R206. -/
def Obligations.UpdatesAndBuckets : Prop :=
  (∀ (s : State) (d : DieIx) (r : Running) (f : Fmt), Ready s d → Runs s d .upd 0x71 r → r.stats = [] →
    let x := r.desc
    let base := dAddr x 24
    let n := dn x 32 8
    let off := (locOf base).off
    let taken := s.storeHit d off n || decide (64 ≤ (s.die d).buckets.length) ||
      (s.die d).buckets.any (fun b => decide (b.job = dJob x ∧ b.num = bktNum x) || overlaps off n b.base b.bytes)
    Fmt.ofCode (fld x (8 * 40) 4) = some f → (f = .fp32 ∨ f = .wf16) → dAddrOk x 24 = true → fld x (8 * 40 + 4) 12 = 0 → dn x 44 20 = 0 →
    base.toNat % 64 = 0 → n % 64 = 0 → 0 < n → rowsService base 0 1 n = false → s.rowsDecode d base 0 1 n = true → s.isLocal d base = true →
    (locOf base).region = 0 →
    (taken = true → ∃ t, exec (.bucketOpen d) s = .next t ∧ Filed s t d .upd r 0x07 r.hall r.detail ∧ (t.die d).buckets = (s.die d).buckets ∧ t.mem = s.mem)
    ∧ (taken = false → s.dieFenced d = false → s.testHold d = false → s.hbmServes d = true →
        ∃ t, exec (.bucketOpen d) s = .next t ∧ Filed s t d .upd r 0x00 0 0
          ∧ (t.die d).buckets = (s.die d).buckets ++ [⟨dJob x, bktNum x, off, n, f, false, 0, none⟩]
          ∧ (∀ a, memKey d 0 off ≤ a → a < memKey d 0 off + n → SMap.get 0 t.mem.cells a = 0 ∧ SMap.get .clean t.mem.marks a = .clean)
          ∧ (∀ a, (a < memKey d 0 off ∨ memKey d 0 off + n ≤ a) → SMap.get 0 t.mem.cells a = SMap.get 0 s.mem.cells a)))
  ∧ (∀ (s : State) (d : DieIx) (r : Running), Ready s d → Runs s d .upd 0x72 r → r.stats = [] →
      let x := r.desc
      let mine2 := fun (b z : Bucket) => decide (z.job = b.job ∧ z.num = b.num)
      let mine := fun (b : Bucket) => decide (b.job = dJob x ∧ b.num = bktNum x)
      ((s.die d).buckets.find? mine = none → ∃ t, exec (.bucketClose d) s = .next t ∧ Filed s t d .upd r 0x07 r.hall r.detail
        ∧ (t.die d).buckets = (s.die d).buckets ∧ t.mem = s.mem)
      ∧ (∀ b, (s.die d).buckets.find? mine = some b → dn x 24 18 = 0 → dn x 44 20 = 0 → s.dieFenced d = false →
          ((b.closing = none → s.closeAwaits d r b = s.bucketWriters d b)
          ∧ (s.closeAwaits d r b ≠ [] → ∃ t, exec (.bucketClose d) s = .next t ∧ (t.queue d .upd).running = (s.queue d .upd).running ∧ t.mem = s.mem
              ∧ (t.die d).buckets = (s.die d).buckets.map (fun z => if mine2 b z then { z with closing := some (r.ident, s.closeAwaits d r b) } else z))
          ∧ (s.closeAwaits d r b = [] →
          let bad := (s.marksIn 0 (memKey d 0 b.base) b.bytes).any (fun p => decide ((found true p.2).cls ≥ 2))
          ∃ t, exec (.bucketClose d) s = .next t ∧ Filed s t d .upd r (if bad then 0x02 else if b.sat then 0x0E else 0x00) 0 (BitVec.ofNat 32 b.lines)
            ∧ (t.die d).buckets = (s.die d).buckets.filter (fun z => !mine z) ∧ t.mem = s.mem))))
  ∧ (∀ (s : State) (d : DieIx) (r : Running), Ready s d → Runs s d .upd 0x70 r → r.stats = [] →
      let x := r.desc
      dAddrOk x 24 = true → dn x 40 24 = 0 → dn x 32 4 % 128 = 0 →
      (dn x 36 4 = 0 → s.dieFenced d = false → ∃ t, exec (.update d) s = .next t ∧ Filed s t d .upd r 0x00 0 0 ∧ t.mem = s.mem)
      ∧ (dn x 36 4 ≠ 0 → s.ctxOf d (dJob x) = none → ∃ t, exec (.update d) s = .next t ∧ Filed s t d .upd r 0x07 r.hall r.detail ∧ t.mem = s.mem)
      ∧ (∀ k l t0, dn x 36 4 ≠ 0 → s.ctxOf d (dJob x) = some k → rowsService (dAddr x 24) 0 1 128 = false → s.rowsDecode d (dAddr x 24) 0 1 128 = true →
          s.dieFenced d = false → s.fetchAll d .upd r [(dAddr x 24, 128)] = .data [l] t0 → l.2.any id = false →
          let u := updRecOf l.1
          let active := t0.rf d (rUpdSet k) 28 1
          let late := decide (dStep x ≠ (t0.rf d (rUpdStep k) 0 32 + 1) % 2 ^ 32)
          let good := u.fieldsOk && u.bandOk (dn x 32 4) (dn x 36 4) &&
            !(u.spanOk (dn x 32 4) (dn x 36 4) && u.service active (dn x 32 4) (dn x 36 4)) && t0.updAddrsOk d x u active (dn x 32 4) (dn x 36 4)
          (good = false → r.released = t0.stroke d → ∃ t, exec (.update d) s = .next t ∧ Filed t0 t d .upd r 0x07 0 0 ∧ t.mem = t0.mem)
          ∧ (good = true → late = true → r.released = t0.stroke d → ∃ t, exec (.update d) s = .next t ∧ Filed t0 t d .upd r 0x06 0 0 ∧ t.mem = t0.mem)
          ∧ (good = true → late = false → t0.gateAll d .upd r ((u.writes (1 - active) (dn x 32 4) (dn x 36 4)).map (fun p => (p.1, p.2.1))) = .go →
              u.maskEn = false → ∀ ops v, t0.fetchAll d .upd r (u.reads active (dn x 32 4) (dn x 36 4) (fun _ _ => false)) = .data ops v →
              exec (.update d) s = .next (v.updWork d r u (1 - active) (dn x 32 4) (dn x 36 4) ([], []) ops))))
  ∧ (∀ (u : UpdRec) (gr w m v : Nat),
      let mul := fun (a b : Nat) => op32z .mul a b
      let add := fun (a b : Nat) => op32z .add a b
      let sub := fun (a b : Nat) => op32z .sub a b
      let g := mul u.gscale gr
      let decay := mul u.wd w
      let o := optimise u gr w m v
      (u.opt = 0 → o.w = sub w (mul u.lr (add g decay)))
      ∧ (u.opt = 1 → o.m = add (mul u.beta1 m) g ∧ o.w = sub w (mul u.lr (add o.m decay)))
      ∧ (u.opt = 2 → o.m = add (mul u.beta1 m) (mul (sub 0x3F800000 u.beta1) g)
          ∧ o.v = add (mul u.beta2 v) (mul (sub 0x3F800000 u.beta2) (mul g g))
          ∧ o.w = sub w (mul u.lr (add (op32 .div (mul u.c1 o.m) (add (sqrt32 (mul u.c2 o.v)) u.eps)) decay))))
  ∧ (∀ a b : Nat, op32z .mul a b = op32 .mul a b
      ∧ ((decodeFloat .fp32 (op32 .add a b)).isZero = true → op32z .add a b = 0)
      ∧ ((decodeFloat .fp32 (op32 .add a b)).isZero = false → op32z .add a b = op32 .add a b))
  ∧ (∀ (u : UpdRec) (maskBad : Bool) (gr w m v : Elem) (g : Gen),
      (updElem u true maskBad gr w m v g).w.bits = w.raw ∧ (updElem u true maskBad gr w m v g).gen = g
      ∧ (updElem u false maskBad gr w m v g).w.bad
          = (maskBad || gr.poison || w.poison || (decide (1 ≤ u.opt) && m.poison) || (decide (2 ≤ u.opt) && v.poison)))

/-- R224, R225, R229 and R233, with R11. -/
def Obligations.CrucibleStructures : Prop :=
  (∀ (s : State) (d : DieIx) (r : Running), Ready s d → Runs s d .cru 0x40 r → r.stats = [] → s.cruStopping d r = false →
    let x := r.desc
    dAddrOk x 24 = true → dn x 40 24 = 0 → dn x 32 8 < 2 ^ 39 → rowsService (dAddr x 24) 0 1 256 = false → s.rowsDecode d (dAddr x 24) 0 1 256 = true →
    ∀ h t, s.fetchAll d .cru r [(dAddr x 24, 256)] = .data h t →
      let n := imn (h.headD ([], [])).1 80 8
      256 ≤ n → n < 2 ^ 39 → t.rowsDecode d (dAddr x 24) 0 1 n = true → rowsService (dAddr x 24) 0 1 n = false →
      ∀ l u, s.fetchAll d .cru r [(dAddr x 24, n)] = .data l u →
        let b := (l.headD ([], [])).1
        let q : Running := if (l.headD ([], [])).2.any id then { r with stats := [0x02] } else r
        let good := imageOk b && decide (imn b 12 2 = u.settings.period) && u.groupOk b && decide (lowBit (BitVec.ofNat 8 (imMask b)) = d.val)
          && (cruDies (imMask b)).all (fun e => (u.cruSlot e (cruSlotOf x)).isNone) && u.storeFits b (dn x 32 8)
        (good = false → r.released = u.stroke d → ∃ v, exec (.structLoad d) s = .next v ∧ Filed u v d .cru r 0x07 r.hall r.detail ∧ v.mem = u.mem)
        ∧ (good = true → u.schedFenced b = false → u.cruHeld (imMask b) = false → u.cruServes (imMask b) = true → u.cruClear d r (imMask b) = true →
            ∃ v : State, exec (.structLoad d) s = .next (v.finish d .cru q (q.result []))
              ∧ ∀ e ∈ cruDies (imMask b), v.slotState e (cruSlotOf x) = 1
                ∧ (∃ c, v.cruSlot e (cruSlotOf x) = some c ∧ c.job = dJob x ∧ c.home = d.val ∧ c.mask = imMask b ∧ c.store = dn x 32 8
                    ∧ c.bytes = imStoreBytes b ∧ c.image = b)
                ∧ (∀ k, k < b.length → SMap.get 0 v.mem.cells (memKey e 0 (dn x 32 8) + k) = if 0x1000 ≤ k ∧ k < 0x1400 then 0 else b.getD k 0)))
  ∧ (∀ (s : State) (d : DieIx) (r : Running), Ready s d → Runs s d .cru 0x41 r → r.stats = [] → s.cruStopping d r = false → dn r.desc 24 40 = 0 →
      (s.slotFor d r.desc = none → ∃ t, exec (.structFree d) s = .next t ∧ Filed s t d .cru r 0x07 r.hall r.detail)
      ∧ (∀ c, s.slotFor d r.desc = some c → s.dieFenced d = false →
          ∃ v : State, exec (.structFree d) s = .next (v.finish d .cru r Result.ok) ∧ v.mem = s.mem
            ∧ (∀ e ∈ cruDies c.mask, v.slotState e (cruSlotOf r.desc) = 0 ∧ v.cruSlot e (cruSlotOf r.desc) = none)
            ∧ (∀ e k, k < 64 → k ≠ cruSlotOf r.desc → v.slotState e k = s.slotState e k ∧ v.cruSlot e k = s.cruSlot e k)))
  ∧ (∀ (s : State) (d : DieIx) (r : Running), Ready s d → Runs s d .cru 0x42 r → r.stats = [] → s.cruStopping d r = false →
      let x := r.desc
      let k := cruSlotOf x
      let n := dn x 32 8
      let dense := bitAt x (8 * 40)
      dAddrOk x 24 = true → dn x 40 24 < 2 →
      (n = 0 → ∃ t, exec (.values d) s = .next t ∧ Filed s t d .cru r 0x00 0 0)
      ∧ (n ≠ 0 → s.slotFor d x = none → ∃ t, exec (.values d) s = .next t ∧ Filed s t d .cru r 0x07 r.hall r.detail)
      ∧ (∀ c, n ≠ 0 → s.slotFor d x = some c →
        (2 ^ 41 ≤ n ∨ (dense = false ∧ s.slotState d k = 1) ∨ (dense = true ∧ n ≠ imNnz c.image) →
          ∃ t, exec (.values d) s = .next t ∧ Filed s t d .cru r 0x07 r.hall r.detail)
        ∧ (n < 2 ^ 41 → (dense = false → s.slotState d k ≠ 1) → (dense = true → n = imNnz c.image) →
          rowsService (dAddr x 24) 0 1 (n * (if dense then 8 else 16)) = false → s.rowsDecode d (dAddr x 24) 0 1 (n * (if dense then 8 else 16)) = true →
          (r.rows = 0 → s.schedFenced c.image = false ∧ s.cruHeld c.mask = false) → s.cruServes c.mask = true →
          let w := if dense then 8 else 16
          let part := min (n - r.rows) (max 1 (s.valuesRate d dense))
          ∀ l t, s.fetchAll d .cru r [(BitVec.ofNat 52 ((dAddr x 24).toNat + w * r.rows), w * part)] = .data l t →
            let es := valEntries dense r.rows part (l.headD ([], [])).1 (l.headD ([], [])).2
            let fine := fun (v : ValEntry) => !v.bad && decide (v.idx < imNnz c.image) && (f64 (BitVec.ofNat 64 v.bits)).finite
            let m := r.rows + (es.takeWhile fine).length
            let stop := (es.dropWhile fine).head?
            (stop = none → m < n → exec (.values d) s = .next ((applyValues c es t).2.2.setRunning d .cru { r with rows := m }))
            ∧ (stop ≠ none ∨ n ≤ m → ∃ v : State, exec (.values d) s = .next (v.finish d .cru r
                ⟨(stop.map (fun e => if e.bad then 0x02 else 0x07)).toList, 0, 0, BitVec.ofNat 32 (min m 0xFFFFFFFF)⟩)
              ∧ v.mem = (applyValues c es t).2.2.mem
              ∧ (∀ e ∈ cruDies c.mask, v.vgen e k = (t.vgen e k + if m = 0 then 0 else 1) % 2 ^ 32)
              ∧ (∀ e ∈ cruDies c.mask, v.slotState e k = if m ≠ 0 ∧ dense = true ∧ stop = none ∧ t.slotState e k = 1 then 2 else t.slotState e k)))))

/-- R223, R230, R242, R243 and R248, with R11. -/
def Obligations.CrucibleSolves : Prop :=
  (∀ (s : State) (d : DieIx) (faults : List Deviation) (r : Running) (kind : Nat) (i : Instr),
    ((kind = 0x43 ∧ i = .factorSolve d faults) ∨ (kind = 0x44 ∧ i = .solve d faults) ∨ (kind = 0x45 ∧ i = .refine d faults)
      ∨ (kind = 0x46 ∧ i = .adjoint d faults) ∨ (kind = 0x48 ∧ i = .ipmStep d faults)) →
    Ready s d → Runs s d .cru kind r → r.stats = [] →
    let x := r.desc
    ((s.die d).solve = none →
      (solShape x = false → ∃ t, exec i s = .next t ∧ Filed s t d .cru r 0x07 r.hall r.detail)
      ∧ (solShape x = true → solNrhs x = 0 → ∃ t, exec i s = .next t ∧ Filed s t d .cru r 0x00 hallEmpty 0)
      ∧ (solShape x = true → solNrhs x ≠ 0 → s.slotFor d x = none → ∃ t, exec i s = .next t ∧ Filed s t d .cru r 0x07 r.hall r.detail)
      ∧ (∀ c, solShape x = true → solNrhs x ≠ 0 → s.slotFor d x = some c → solFields x c.image = true →
        (kind = 0x44 ∨ kind = 0x45 ∨ kind = 0x46 → s.slotState d (cruSlotOf x) = 3) → solGuard kind c.image < s.solDeadline d x →
        s.schedFenced c.image = false → solService x c.image = false → s.solAddrs d x c.image = true → s.cruHeld c.mask = false → s.cruServes c.mask = true →
        ∀ l t, s.fetchAll d .cru r (if kind = 0x46 then [(dAddr x 24, recBytes kind c.image (solNrhs x)), (dAddr x 32, recBytes kind c.image (solNrhs x))]
            else solInputs x c.image) = .data l t →
          (kind = 0x46 → t.forwardOk d x c.image (l.getD 1 ([], [])).1 = true) →
          exec i s = .next (t.solveBegin d r c l)
          ∧ (∃ u, ((t.solveBegin d r c l).die d).solve = some u ∧ u.ident = r.ident ∧ u.slot = cruSlotOf x ∧ u.mask = c.mask ∧ u.nrhs = solNrhs x
              ∧ u.start = r.started ∧ u.deadline = t.solDeadline d x ∧ u.cutoff = t.solDeadline d x - solGuard kind c.image)))
    ∧ (∀ u c, (s.die d).solve = some u → u.done = true → u.stop = false → u.ident = r.ident → s.cruSlot d u.slot = some c → u.fences = [] →
        s.reqsOf d .cru r = [] → (∀ a ∈ [dAddr x 24, dAddr x 32, dAddr x 48], s.isLocal d a = true ∧ (locOf a).region ≤ 1) →
        let k := checkResiduals kind c u faults
        let out := (u.outcome.map (fun o => o.toNat)).getD (fld s.free 8 8)
        ∃ t, exec i s = .next t ∧ Filed s t d .cru r
          (pickStatus (u.stats ++ (if k.1 ≠ 0 then [0x01] else []) ++ (if u.poisoned then [0x02] else [])))
          (hallWord 3 (decide (k.1 ≠ 0)) (if k.1 ≠ 0 then min u.iters 255 else 0) (devBounded k.2.1 k.2.2) k.1) (solDetail out (s.cruElapsed d u + 1))))
  ∧ (∀ (s : State) (d : DieIx) (r : Running) (u : CruRun) (c : CruSlot), Ready s d → (s.die d).solve = some u →
      (s.queue d .cru).running.find? (fun y => decide (y.ident = u.ident)) = some r → s.cruSlot d u.slot = some c → r.acking = false →
      (∀ i rest, u.todo = i :: rest → u.phase = none → u.done = false → s.phaseHeld d c u = false → (imPhase c.image i).count ≠ 0 →
        ∃ t v, exec (.phase d) s = .next t ∧ (t.die d).solve = some v ∧ t.mem = s.mem ∧ v.todo = rest ∧ v.phase = some i ∧ v.began = s.stroke d
          ∧ v.frames = c.mask ∧ v.tasks = (List.range (imPhase c.image i).count).map (fun j => (imPhase c.image i).first + j))
      ∧ (∀ i, u.tasks.contains i = true → u.stop = false →
          let t := imTask c.image i
          s.hbmServes (dieIx t.die) = true → t.off ≤ ((s.stroke d).toNat + 2 ^ 40 - u.began.toNat) % 2 ^ 40 →
          ∃ w v, exec (.crucibleTask d i 0) s = .next w ∧ (w.die d).solve = some v ∧ v.tasks = u.tasks.filter (fun j => j != i)
            ∧ v.poison = (u.poison || s.storeBad (dieIx t.die) c t.src (min (8 * t.rows * t.cols) (c.bytes - t.src))) ∧ w.mem = (s.taskEffect c t).1.mem
            ∧ (t.op = 6 → t.src + 8 * t.rows * t.cols ≤ c.bytes → t.dst % 2 ^ 61 + 8 * t.rows * t.cols ≤ c.bytes → ∀ k, k < 8 * t.rows * t.cols →
                SMap.get 0 w.mem.cells (memKey (dieIx (t.dst / 2 ^ 61)) 0 (c.store + t.dst % 2 ^ 61) + k)
                  = SMap.get 0 s.mem.cells (memKey (dieIx t.die) 0 (c.store + t.src) + k)))
      ∧ (∀ m i, u.phase = some i → m.mkind = 0x38 → ((s.takeMsg d m).wake d).dropRequest d m = none → leNat (slice m.spec 0 2) = u.slot → leNat (slice m.spec 4 4) = i →
          let e := dieIx (m.src.toNat / 64)
          inMask u.frames e.val = true → u.tasks.any (fun j => decide ((imTask c.image j).die = e.val)) = false → u.frames - 2 ^ e.val ≠ 0 →
          ∃ w, exec (.phaseDone d m) s = .next w ∧ (w.die d).solve = some { u with frames := u.frames - 2 ^ e.val } ∧ w.mem = s.mem)
      ∧ (u.closing = false → u.done = false → u.cutoff ≤ s.cruElapsed d u →
          (u.first = true → imClass c.image (if dKind r.desc = 0x46 then 6 else 5) ≠ [] →
            ∃ w v, exec (.cutoff d) s = .next w ∧ (w.die d).solve = some v ∧ v.closing = true ∧ v.outcome = some 3 ∧ v.phase = none ∧ v.tasks = []
              ∧ v.stats = u.stats ++ [0x04] ∧ v.classes = (if dKind r.desc = 0x46 then [6, 5] else [5]) ∧ w.mem = s.mem
              ∧ w.rf d rCruEvent 16 16 = min (s.rf d rCruEvent 16 16 + 1) 0xFFFF)
          ∧ (u.first = false → fallbackOf (dKind r.desc) c u [] = none → r.stats = [] → u.stats = [] → u.poisoned = false → u.fences = [] → r.released = s.stroke d → s.reqsOf d .cru r = [] →
            s.isLocal d (dAddr r.desc 48) = true → (locOf (dAddr r.desc 48)).region ≤ 1 →
            ∃ w, exec (.cutoff d) s = .next w ∧ Filed s w d .cru r 0x10 0 (solDetail 5 (s.cruElapsed d u + 1))))
      ∧ (u.closing = true → u.done = false → s.gradientLate d u = true → imClass c.image ((u.classes.drop 1).headD 9) ≠ [] →
          ∃ w v, exec (.cutoff d) s = .next w ∧ (w.die d).solve = some v ∧ v.classes = u.classes.drop 1 ∧ v.stats = u.stats ++ [0x04]
            ∧ v.phase = none ∧ v.tasks = [] ∧ w.mem = s.mem))
  ∧ (∀ (s : State) (d : DieIx) (e : QEntry) (es : List QEntry), (s.queue d .cru).entries = e :: es → e.poison = false →
      headerOk .cru (s.stroke d) e.desc = true → s.parked d = false → e.aborted = false → s.canStart d .cru e = true → s.claims d e.desc = true →
      ∃ t, s.startHead d .cru = some t ∧ ∀ m ∈ cruDies (s.cruMask d e.desc),
        t.reg m rCruClaim0 = BitVec.ofNat 32 (s.cruCores d (cruSlotOf e.desc) m.val)
        ∧ t.reg m rCruClaim1 = BitVec.ofNat 32 (s.cruCores d (cruSlotOf e.desc) m.val / 2 ^ 32))

/-- R266 to R268. -/
def Obligations.CommitVotes : Prop :=
  (∀ (s : State) (d : DieIx) (k : CtxIx), Ready s d → s.cmtState d k.val = 1 → begun (s.stroke d) (s.cmtMinus d k.val 3) = true →
    let c := s.commit d k.val
    let cause := s.voteCause d k.val
    (∃ t, exec (.voteCutoff d k) s = .next t ∧ t.cmtState d k.val = (if cause = 0 then 2 else 3) ∧ t.rf d (rCmtStat k.val) 8 8 = cause % 256
      ∧ t.mem = s.mem ∧ t.attempt d k.val = s.attempt d k.val
      ∧ (s.amI d (s.rootOf (s.cmtJob d k.val)) = true →
          ((t.commit d k.val).votes.find? (fun v => decide (v.1.toNat / 64 = (s.endpoint d 63).toNat / 64))).map (fun v => v.2)
            = some (decide (cause = 0), BitVec.ofNat 8 cause)))
    ∧ (s.stepPending d (s.cmtJob d k.val) (s.stepOf d k.val) = true → cause = 0x09)
    ∧ (s.stepPending d (s.cmtJob d k.val) (s.stepOf d k.val) = false →
        (c.badStatus ≠ 0 → cause = c.badStatus)
        ∧ (c.badStatus = 0 → c.updates ≠ s.rf d (rCmtCtl k.val) 16 16 → cause = 0x09)
        ∧ (c.badStatus = 0 → c.updates = s.rf d (rCmtCtl k.val) 16 16 → s.chunkCause d k.val ≠ 0 → cause = s.chunkCause d k.val)
        ∧ (c.chunkBad ≠ 0 → s.chunkCause d k.val = c.chunkBad)
        ∧ (∀ b, c.chunkBad = 0 → c.buckets.find? (fun b => !c.finished.contains b) = some b →
            (s.die d).reds.find? (fun u => decide (u.ctx = k.val) && decide (u.bucket = b)) = none → s.chunkCause d k.val = 0x09)
        ∧ (c.badStatus = 0 → c.updates = s.rf d (rCmtCtl k.val) 16 16 → s.chunkCause d k.val = 0 →
            cause = if c.notice = true ∨ c.relaid = true ∨ s.relayPends d k.val = true ∨ bitAt (s.die d).vetoes k.val = true then 0x06 else 0)))
  ∧ (∀ (s : State) (d : DieIx) (k : CtxIx), Ready s d → s.cmtState d k.val ≠ 1 → exec (.voteCutoff d k) s = .next s)
  ∧ (∀ (s : State) (d : DieIx) (m : Msg) (k : Nat), Ready s d → m.mkind = 0x33 → s.ctxOf d m.job = some k → k < 32 →
      (s.amI d (s.rootOf m.job) = true ∨ s.amI d (s.backupOf m.job) = true) → s.staleMsg d m = false →
      (s.cmtCurrent d k m = true →
        ∃ t, exec (.vote d m) s = .next t ∧ t.mem = s.mem
          ∧ (t.commit d k).votes = (s.commit d k).votes.filter (fun v => decide (v.1.toNat / 64 ≠ m.src.toNat / 64))
              ++ [(m.src, decide (msgField m 28 1 = 1), BitVec.ofNat 8 (msgField m 29 1))])
      ∧ (s.cmtCurrent d k m = false →
        ∃ t, exec (.vote d m) s = .next t ∧ t.mem = s.mem ∧ (t.commit d k).votes = (s.commit d k).votes
          ∧ t.rf d rColDrop1 16 16 = min (s.rf d rColDrop1 16 16 + 1) 0xFFFF))
  ∧ (∀ (s : State) (d : DieIx) (k : CtxIx), Ready s d → s.amI d (s.rootOf (s.cmtJob d k.val)) = true → 1 ≤ s.cmtState d k.val → s.cmtState d k.val ≤ 3 →
      begun (s.stroke d) (s.cmtMinus d k.val 2) = true → (s.commit d k.val).decision = none → (s.commit d k.val).held = none →
      let ms := s.membersOf (s.cmtJob d k.val)
      let voteOf := fun (e : Endpoint) => (s.commit d k.val).votes.find? (fun v => decide (v.1.toNat / 64 = e.toNat / 64))
      ((s.decideVerdict d k.val).1 = true ↔ ∀ e ∈ ms, ∃ v, voteOf e = some v ∧ v.2.1 = true)
      ∧ ((∀ e ∈ ms, ∀ v, voteOf e = some v → v.2.1 = true) → (∃ e ∈ ms, voteOf e = none) → s.decideVerdict d k.val = (false, 0x09))
      ∧ (∃ t, exec (.rootDecision d k) s = .next t ∧ t.mem = s.mem ∧ t.cmtState d k.val = s.cmtState d k.val
          ∧ (s.backupOf (s.cmtJob d k.val) ≠ none → (t.commit d k.val).decision = some (s.decideVerdict d k.val) ∧ (t.commit d k.val).held = none)
          ∧ (s.backupOf (s.cmtJob d k.val) = none → (t.commit d k.val).held = some (s.decideVerdict d k.val)
              ∧ ((∀ w ∈ (s.commit d k.val).kept, (BitVec.ofNat 32 (s.stepOf d k.val) - w.1).toNat < 2 ^ 31) →
                (t.commit d k.val).kept.head? = some (BitVec.ofNat 32 (s.stepOf d k.val), BitVec.ofNat 8 (s.attempt d k.val), s.decideVerdict d k.val)))))

/-- R266, R268, R269 and R271. -/
def Obligations.CommitVerdicts : Prop :=
  (∀ (s : State) (d : DieIx) (m : Msg) (k : Nat), Ready s d → s.ctxOf d m.job = some k → k < 32 → s.staleMsg d m = false →
    let latest := ∀ w ∈ (s.commit d k).kept, (m.step - w.1).toNat < 2 ^ 31
    let v : Bool × BitVec 8 := (decide (msgField m 28 1 = 1), BitVec.ofNat 8 (msgField m 29 1))
    (m.mkind = 0x34 → s.cmtCurrent d k m = true → bitAt (s.die d).returning k = true →
      ∃ t, exec (.verdict d m) s = .next t ∧ t.mem = s.mem ∧ (t.commit d k).held = some v ∧ (t.commit d k).kept = (s.commit d k).kept)
    ∧ (m.mkind = 0x34 → s.cmtCurrent d k m = true → bitAt (s.die d).returning k = false →
      ∃ t, exec (.verdict d m) s = .next t ∧ t.mem = s.mem
        ∧ (s.amI d (s.backupOf m.job) = false → (t.commit d k).held = some v ∧ (t.commit d k).answered = true)
        ∧ (s.amI d (s.backupOf m.job) = true → (latest → (t.commit d k).kept.head? = some (m.step, m.attempt, v))
            ∧ (v.1 = true → (s.commit d k).kept.any (fun w => decide (w.1 = m.step ∧ w.2.1 = m.attempt)) = false → (t.commit d k).held = (s.commit d k).held)
            ∧ ((s.commit d k).kept.any (fun w => decide (w.1 = m.step ∧ w.2.1 = m.attempt)) = true → (t.commit d k).held = some v)))
    ∧ (m.mkind = 0x34 → s.cmtCurrent d k m = false →
        ∃ t, exec (.verdict d m) s = .next t ∧ t.mem = s.mem ∧ (t.commit d k).held = (s.commit d k).held
          ∧ t.rf d rColDrop1 16 16 = min (s.rf d rColDrop1 16 16 + 1) 0xFFFF)
    ∧ (∀ w, m.mkind = 0x35 → (s.commit d k).decision = some w → s.amI d (s.rootOf m.job) = true → s.cmtCurrent d k m = true →
        ∃ t, exec (.verdictAck d m) s = .next t ∧ t.mem = s.mem ∧ (t.commit d k).held = some w ∧ (t.commit d k).decision = none
          ∧ (latest → (t.commit d k).kept.head? = some (m.step, m.attempt, w)))
    ∧ (∀ w, m.mkind = 0x36 → (s.amI d (s.rootOf m.job) = true ∨ s.amI d (s.backupOf m.job) = true) →
        (s.commit d k).kept.find? (fun v => decide (v.1 = m.step) && decide (v.2.1 = m.attempt)) = some w →
        exec (.verdictQuery d m) s = .next ((((s.takeMsg d m).wake d).sendCmt d k 0x34 m.src w.2.2.1 w.2.2.2.toNat m.step.toNat m.attempt.toNat).keep d k
          m.step.toNat m.attempt.toNat w.2.2.1 w.2.2.2))
    ∧ (m.mkind = 0x36 → s.amI d (s.backupOf m.job) = true → (∃ r, s.rootOf m.job = some r ∧ s.peerAbsent d m.job r = true) →
        (s.commit d k).kept.find? (fun v => decide (v.1 = m.step) && decide (v.2.1 = m.attempt)) = none →
        exec (.verdictQuery d m) s = .next ((((s.takeMsg d m).wake d).sendCmt d k 0x34 m.src false 0x09 m.step.toNat m.attempt.toNat).keep d k
          m.step.toNat m.attempt.toNat false 0x09)))
  ∧ (∀ (s : State) (d : DieIx) (k : CtxIx), Ready s d → 1 ≤ s.cmtState d k.val → s.cmtState d k.val ≤ 3 →
      begun (s.stroke d) (s.commitStroke d k.val) = true →
      let after := fun (t : State) => ((t.noticeLate d (s.cmtJob d k.val) (s.stepOf d k.val)).rejudge d).startAll d
      (∀ v, (s.commit d k.val).decision = none → (s.commit d k.val).held = some v →
        exec (.commitStroke d k) s = .next (after (if v.1 = true ∧ (s.commit d k.val).relaid = false then s.flip d k.val
          else s.abortStep d k.val (if v.1 then 0x06 else v.2.toNat))))
      ∧ ((s.commit d k.val).decision = none → (s.commit d k.val).held = none →
          ∃ t : State, exec (.commitStroke d k) s = .next (after t) ∧ t.cmtState d k.val = 4 ∧ t.mem = s.mem
            ∧ (t.die d).log = s.logWith d 0x0502 (s.commitStroke d k.val)
            ∧ (∀ e w, s.rootOf (s.cmtJob d k.val) = some e → s.isMe d e = true →
                s.keptAnswer d k.val (s.cmtJob d k.val) (BitVec.ofNat 32 (s.stepOf d k.val)) (BitVec.ofNat 8 (s.attempt d k.val)) = some w →
                (t.commit d k.val).held = some w))
      ∧ (∀ v, (s.commit d k.val).decision = some v →
          ∃ t : State, exec (.commitStroke d k) s = .next (after (t.abortStep d k.val (if v.1 then 0x09 else v.2.toNat)))
            ∧ t.mem = s.mem ∧ t.cmtState d k.val = s.cmtState d k.val ∧ t.attempt d k.val = s.attempt d k.val))
  ∧ (∀ (s : State) (d : DieIx) (k : Nat), k < 32 →
      let t := s.flip d k
      bitAt (t.reg d (rUpdSet k)) 28 = !bitAt (s.reg d (rUpdSet k)) 28 ∧ t.rf d (rUpdStep k) 0 32 = s.stepOf d k ∧ t.cmtState d k = 0
      ∧ t.rf d (rCmtStat k) 16 8 = 0 ∧ (t.commit d k).held = none)
  ∧ (∀ (s : State) (d : DieIx) (k cause : Nat), k < 32 →
      let t := s.abortStep d k cause
      let reps := min (s.rf d (rCmtStat k) 16 8 + 1) 255
      t.cmtState d k = (if s.settings.repeatMax < reps then 5 else 0) ∧ t.attempt d k = (s.attempt d k + 1) % 256 ∧ t.rf d (rCmtStat k) 16 8 = reps
      ∧ bitAt (t.reg d (rUpdSet k)) 28 = bitAt (s.reg d (rUpdSet k)) 28 ∧ t.reg d (rUpdStep k) = s.reg d (rUpdStep k)
      ∧ (∀ b ∈ (t.die d).buckets, b.job ≠ s.cmtJob d k) ∧ (t.commit d k).held = none)
  ∧ (∀ (s : State) (d : DieIx) (k : CtxIx), Ready s d → s.cmtState d k.val = 4 → (s.commit d k.val).toBackup = false →
      4 ≤ (s.commit d k.val).silent →
      ∃ t, exec (.askBackupRoot d k) s = .next t ∧ t.mem = s.mem ∧ t.cmtState d k.val = 4 ∧ (t.commit d k.val).toBackup = true
        ∧ (t.commit d k.val).silent = 0)

/-- R367 to R370, R374 to R376, R378 and R379. -/
def Obligations.Reductions : Prop :=
  (∀ (s : State) (d : DieIx) (m : Msg) (kind : Nat) (upset : Word) (i : Instr),
    ((kind = 0x10 ∧ i = .contrib d m upset) ∨ (kind = 0x11 ∧ i = .partialMsg d m upset) ∨ (kind = 0x13 ∧ i = .scalePropose d m)
      ∨ (kind = 0x14 ∧ i = .scaleSet d m) ∨ (kind = 0x15 ∧ i = .scaleFix d m) ∨ (kind = 0x12 ∧ i = .result d m) ∨ (kind = 0x16 ∧ i = .gather d m)
      ∨ (kind = 0x20 ∧ i = .txCounts d m) ∨ (kind = 0x21 ∧ i = .txGrant d m) ∨ (kind = 0x22 ∧ i = .txRows d m) ∨ (kind = 0x23 ∧ i = .txReturn d m)) →
    Ready s d → m.mkind.toNat = kind → s.colGate d = .go →
    (∀ c, s.colDrop d m = some c → ∃ t, exec i s = .next t ∧ t.mem = s.mem ∧ (t.die d).reds = (s.die d).reds ∧ (t.die d).early = (s.die d).early
      ∧ t.rf d c.1 c.2 16 = min (s.rf d c.1 c.2 16 + 1) 0xFFFF)
    ∧ (s.colDrop d m = none → s.bucketDone d m = false → s.redOf d m = none → s.gatherOf d m = none → s.txOf d m = none →
        earlyBytes ((s.die d).early ++ [m]) ≤ 2 * 1024 * 1024 →
        ∃ t, exec i s = .next t ∧ t.mem = s.mem ∧ (t.die d).early = (s.die d).early ++ [m]))
  ∧ (∀ (s : State) (d : DieIx) (r : Running), Ready s d →
      Granted s d .col (fun r => decide (dKind r.desc = 0x50) && !s.colStarted d r.ident && !s.backwardLeft d r.desc) r → r.stats = [] →
      let x := r.desc
      (arFormat x = false → ∃ t, exec (.allreduce d) s = .next t ∧ Filed s t d .col r 0x07 r.hall r.detail)
      ∧ (arFormat x = true → arChunks x = 0 → ∃ v, exec (.allreduce d) s = .next v ∧ Filed s v d .col r 0x00 hallEmpty 0)
      ∧ (arFormat x = true → arChunks x ≠ 0 → s.colCtx d (dJob x) = none →
          ∃ t, exec (.allreduce d) s = .next t ∧ Filed s t d .col r 0x07 r.hall r.detail)
      ∧ (∀ k, arFormat x = true → arChunks x ≠ 0 → s.colCtx d (dJob x) = some k → s.colGate d = .go →
          let o := (s.granted d .col r).groupOf d k (aGroup x)
          (o.1 = none → ∃ v, exec (.allreduce d) s = .next v ∧ Filed s v d .col r 0x07 r.hall r.detail)
          ∧ (∀ g t, o = (some g, t) →
              let u := redNew r k g
              (t.redOk d r k u = false → ∃ v, exec (.allreduce d) s = .next v ∧ Filed s v d .col r 0x07 r.hall r.detail)
              ∧ (t.redOk d r k u = true → t.dieFenced d = true → ∃ v, exec (.allreduce d) s = .next v ∧ Filed s v d .col r 0x0F r.hall r.detail)
              ∧ (t.redOk d r k u = true → t.dieFenced d = false → t.colMatches d k x = false →
                  ∃ v, exec (.allreduce d) s = .next v ∧ Filed s v d .col r 0x06 r.hall r.detail ∧ v.mem = t.mem)
              ∧ (t.redOk d r k u = true → t.dieFenced d = false → t.colMatches d k x = true →
                  exec (.allreduce d) s = .next ((t.modCommit d k (fun c => { c with
                      buckets := c.buckets ++ [aBucket x], tables := c.tables ++ [(opPlace x 40, arChunks x)] })).redWork d r k u)))))
  ∧ (∀ (s : State) (d : DieIx), Ready s d →
      (∀ r ∈ (s.queue d .col).running, dKind r.desc = 0x50 → s.colStarted d r.ident = true ∨ s.backwardLeft d r.desc = true) →
      exec (.allreduce d) s = .next s)
  ∧ (∀ (s : State) (d : DieIx) (m : Msg) (upset : Word) (u : RedRun) (r : Running), Ready s d → s.colGate d = .go → s.colDrop d m = none →
      s.bucketDone d m = false → s.redOf d m = some (u, r) → u.late (s.stroke d) m.mkind.toNat = false →
      (s.awaitsScale d r u m = true → ((s.takeMsg d m).wake d).earlyFull d m = false) →
      let t0 := (s.takeMsg d m).wake d
      let t := if s.awaitsScale d r u m then (t0.holdEarly d m).getD t0 else t0
      let done := fun (w : RW × RedOut) => redSettle d (w.1.1.sendOut d w.1.2 w.2, w.1.2)
      (m.mkind = 0x10 → exec (.contrib d m upset) s = .next (done (redContrib d r m upset (t, u))))
      ∧ (m.mkind = 0x11 → exec (.partialMsg d m upset) s = .next (done (redPartial d r m upset (t, u))))
      ∧ (m.mkind = 0x13 → exec (.scalePropose d m) s = .next (done (redProposal d r m (t, u))))
      ∧ (m.mkind = 0x14 → exec (.scaleSet d m) s = .next ((done (redSet d r m (t, u))).redEarly d ((t.colCtx d m.job).getD 0) (msgBucket m)))
      ∧ (m.mkind = 0x15 → exec (.scaleFix d m) s = .next (done (redFix d r m (t, u)))))
  ∧ (∀ (d : DieIx) (r : Running) (m : Msg) (upset : Word) (w : RW) (j : Nat) (codes : List Int) (bytes : List Byte) (t : ChunkTail),
      let src := msgSrcIdx m
      let poison := msgPoisoned m
      let c := w.2.chunk j
      let o := redInput d r m upset w j codes bytes t
      let c' := o.1.2.chunk j
      let e := w.1.redScale d r j
      let p := workPlace r w.2 j
      j < w.2.chunks.length → w.2.sums j = true → w.2.others.contains src = true → c.inputs.contains src = false → c.summed = false →
      (∃ i ∈ w.2.others, i ≠ src ∧ c.inputs.contains i = false) →
      c'.inputs = c.inputs ++ [src] ∧ c'.summed = false
      ∧ (t.failed = true → o.1.1 = w.1 ∧ (c'.failed || c'.missing) = true)
      ∧ (t.failed = false → poison = false → t.fits bytes codes = false → c'.failed = true ∧ o.1.1.mem = w.1.mem
          ∧ (c.counted = false → c'.counted = true ∧ o.1.1.rf d rColFail 16 16 = min (w.1.rf d rColFail 16 16 + 1) 0xFFFF)
          ∧ (c.counted = true → o.1.1 = w.1))
      ∧ (t.failed = false → (poison = true ∨ t.fits bytes codes = true) → (t.scale ≠ scaleOf e ∨ scaleOf e = 255) →
          o.1.1 = w.1.countAttempt d ∧ c'.missing = true
          ∧ o.2.fixes = [⟨src, j, 1, leBytes 1 (scaleOf e) ++ leBytes 1 (if satSeen e then 1 else 0), false⟩])
      ∧ (t.failed = false → t.scale = scaleOf e → scaleOf e ≠ 255 → (poison = true ∨ t.fits bytes codes = true) →
          c'.cover = c.cover + t.cover ∧ c'.sums = (c.sums + t.sum) % 2 ^ 32 ∧ c'.emax = maxEmax c.emax t.emax
          ∧ (codes.length = 896 → upset = 0 → ∀ i, i < 896 →
              leNat (o.1.1.peek (memKey d (p / 2 ^ 39) (p % 2 ^ 39) + 4 * i) 4)
                = ((if c.cover = 0 then codes.getD i 0
                    else (partialInts (w.1.peek (memKey d (p / 2 ^ 39) (p % 2 ^ 39)) 3584)).getD i 0 + codes.getD i 0) % 2 ^ 32).toNat)))
  ∧ (∀ (e : Int) (dflt : Nat), scaleFrom (some e) dflt = (if e < -122 then 0 else if 132 < e then 254 else (e + 122).toNat) ∧ scaleFrom none dflt = dflt)
  ∧ (∀ (d : DieIx) (r : Running) (m : Msg) (w : RW), msgCount m = 1 →
      let j := msgChunk0 m
      let e := w.1.redScale d r j
      (w.2.fitsMsg m 2 = true →
        (redFix d r m w).1.1.redScale d r j = setBit (setBit (setFld e 0 8 (byteAt m.data 0).toNat) 17 (bitAt (byteAt m.data 1) 0)) 16 false
        ∧ (w.2.owner j = w.2.my → scaleOf e ≠ 255 → (redProposal d r m w).2.answers = [⟨msgSrcIdx m, j, 1, leBytes 1 (scaleOf e), false⟩]
            ∧ (redProposal d r m w).1 = w)))
  ∧ (∀ (s : State) (d : DieIx) (u : RedRun), Ready s d → (s.die d).reds = [u] →
      (begun (s.stroke d) u.dc = true →
        exec (.contributionDeadline d) s = .next (redSettle d ((List.range u.chunks.length).foldl (redCut d) (s, u))))
      ∧ (begun (s.stroke d) u.dc = false → exec (.contributionDeadline d) s = .next s))
  ∧ (∀ (d : DieIx) (w : RW) (j : Nat), j < w.2.chunks.length → w.2.sums j = true → (w.2.chunk j).summed = false →
      let c := (redCut d w j).2.chunk j
      c.missing = true ∧ c.summed = true ∧ c.got = (if w.2.owner j = w.2.my then 3 else (w.2.chunk j).got) ∧ (redCut d w j).1.mem = w.1.mem)

/-- R371 to R373, R379 and R384 to R389. -/
def Obligations.GathersAndExchanges : Prop :=
  (∀ (s : State) (d : DieIx) (bcast : Bool) (r : Running) (k : Nat) (g : Group) (t : State), Ready s d →
    let i := if bcast then Instr.broadcast d else .allgather d
    let x := r.desc
    Granted s d .col (fun r => decide (dKind r.desc = if bcast then 0x52 else 0x51) && !s.colStarted d r.ident) r → r.stats = [] →
    gFormat bcast x = true →
    let sends := !bcast || decide (gRoot x = g.my)
    (gLen x = 0 → ∃ v, exec i s = .next v ∧ Filed s v d .col r 0x00 hallEmpty 0)
    ∧ (gLen x ≠ 0 → s.colCtx d (dJob x) = some k → s.colGate d = .go → (s.granted d .col r).groupOf d k (aGroup x) = (some g, t) → t.dieFenced d = false →
        t.colMatches d k x = true → (bcast = true → gRoot x < g.members.length) → (sends = true → t.ownClear d (dAddr x 24) (gLen x) = true) →
        t.ownClear d (dAddr x 32) (if bcast then gLen x else gLen x * g.members.length) = true →
        exec i s = .next (t.gatherWork d r sends k (gatherNew bcast r k g))))
  ∧ (∀ (s : State) (d : DieIx) (m : Msg) (u : GatherRun), Ready s d → s.colGate d = .go → s.colDrop d m = none → s.gatherOf d m = some u →
      let t := (s.takeMsg d m).wake d
      (m.mkind = 0x16 → s.bucketDone d m = false → exec (.gather d m) s = .next (t.gatherTake d u m))
      ∧ (m.mkind = 0x12 → s.bucketDone d m = false → exec (.result d m) s = .next (t.gatherTake d u m)))
  ∧ (∀ (s : State) (d : DieIx) (m : Msg) (u : GatherRun),
      begun (s.stroke d) u.dr = false → msgGroup m = u.group → u.shards.contains (msgSrcIdx m) = true → m.mkind = 0x16 →
      u.pieces.any (fun q => decide (q.1 = msgSrcIdx m ∧ q.2.1 = msgOffset m)) = false → (piecesOf u.len).any (fun p => decide (p.1 = msgOffset m)) = true →
      m.data.length = min 4032 (u.len - msgOffset m) → msgPoisoned m = false →
      let p := u.place (msgSrcIdx m) + msgOffset m
      let ends := fun (good : Bool) => ({ u with pieces := u.pieces ++ [(msgSrcIdx m, msgOffset m, good)] } : GatherRun).complete
      (u.taint = true ∨ dataCheck m.data = msgCheck m → ends true = false ∨ u.fails = 0 → ∀ k, k < m.data.length →
        SMap.get 0 (s.gatherTake d u m).mem.cells (memKey d (p / 2 ^ 39) (p % 2 ^ 39) + k) = m.data.getD k 0)
      ∧ (u.taint = false → dataCheck m.data ≠ msgCheck m → (ends false = false → (s.gatherTake d u m).mem.cells = s.mem.cells)
          ∧ (s.gatherTake d u m).rf d rColFail 0 16 = min (s.rf d rColFail 0 16 + 1) 0xFFFF))
  ∧ (∀ (s : State) (d : DieIx) (m : Msg) (u : RedRun) (r : Running), Ready s d → s.colGate d = .go → s.colDrop d m = none → s.bucketDone d m = false →
      m.mkind = 0x12 → s.gatherOf d m = none → s.redOf d m = some (u, r) → u.late (s.stroke d) 0x12 = false →
      let w := redResults d r m ((s.takeMsg d m).wake d, u)
      exec (.result d m) s = .next (redSettle d (w.1.1.sendOut d w.1.2 w.2, w.1.2)))
  ∧ (∀ (d : DieIx) (r : Running) (m : Msg) (w : RW) (j : Nat) (data : List Byte), j < w.2.chunks.length → (w.2.chunk j).got = 0 → data.length = 940 →
      msgPoisoned m = false →
      let good := (chunkTailOf (data.drop 924)).fits (data.take 924) (chunkCodes (data.take 924))
      let o := redTake d r m w j data
      let p := opPlace r.desc 32
      (good = true → (o.2.chunk j).got = 1 ∧ (p / 2 ^ 39 = 0 → opPlace r.desc 40 / 2 ^ 39 = 1 → p % 2 ^ 39 + 924 * (j + 1) ≤ 2 ^ 39 → ∀ k, k < 924 →
          SMap.get 0 o.1.mem.cells (memKey d (p / 2 ^ 39) (p % 2 ^ 39 + 924 * j) + k) = data.getD k 0))
      ∧ (good = false → (o.2.chunk j).got = 2 ∧ o.2.fails = w.2.fails + 1 ∧ o.1.mem = w.1.mem
          ∧ o.1.rf d rColFail 0 16 = min (w.1.rf d rColFail 0 16 + 1) 0xFFFF))
  ∧ (∀ (s : State) (d : DieIx) (combine : Bool) (r : Running), Ready s d →
      let i := if combine then Instr.combine d else .dispatch d
      let x := r.desc
      Granted s d .txe (fun r => decide (dKind r.desc = if combine then 0x61 else 0x60) && !s.txStarted d r.ident) r → r.stats = [] →
      txFormat combine x = true → s.ownClear d (dAddr x 24) 128 = true → s.colGate d = .go →
      let e := (s.granted d .txe r).readAt d (dJob x) (opPlace x 24) 128
      let b := e.bytes
      xeFormat b = true →
      (xeTok b = 0 → ∃ v, exec i s = .next v ∧ Filed s v d .txe r 0x00 0 0)
      ∧ (∀ k g t, xeTok b ≠ 0 → e.state.colCtx d (dJob x) = some k → e.state.colGate d = .go →
          e.state.groupOf d k (xeGroup b) = (some g, t) →
          t.ownClear d (addrOf (xeTable b)) (16 * xeExp b) = true → t.ownClear d (addrOf (xeRoute b)) (2 * xeSlots b) = true →
          let tb := t.readAt d (dJob x) (xeTable b % 2 ^ 47) (16 * xeExp b)
          let rt := tb.state.readAt d (dJob x) (xeRoute b % 2 ^ 47) (2 * xeSlots b)
          let u := txNew combine r k g b tb.bytes rt.bytes (g.bad || e.poison.any id || tb.poison.any id || rt.poison.any id)
          tableOk tb.bytes (xeExp b) g.members.length = true → rt.state.txOk d u = true → rt.state.dieFenced d = false → rt.state.colMatches d k x = true →
          (combine = false → u.replay = false → exec i s = .next (rt.state.txWork d k u))
          ∧ (combine = true ∨ u.replay = true →
              let pl := rt.state.readAt d (dJob x) (xePlan b % 2 ^ 47) (planSize u.nslots (u.locals u.my) u.size)
              let bad := pl.poison.any id
              let u' : TxRun := { u with poison := u.poison || bad, taint := u.taint || bad }
              (∀ v, u'.withPlan x (rt.state.rf d (rCmtStat k) 24 8) pl.bytes = some v → exec i s = .next (pl.state.txWork d k v))
              ∧ (u'.withPlan x (rt.state.rf d (rCmtStat k) 24 8) pl.bytes = none →
                  ∃ v, exec i s = .next v ∧ Filed s v d .txe r 0x07 r.hall r.detail))))
  ∧ (∀ (s : State) (d : DieIx) (m : Msg) (u : TxRun), Ready s d → s.colGate d = .go → s.colDrop d m = none → s.txOf d m = some u →
      begun (s.stroke d) u.dr = false → u.already m = false → msgSrcIdx m < u.size →
      let t := (s.takeMsg d m).wake d
      let settle := fun (w : State × TxRun) => w.1.txSettle d w.2
      (m.mkind = 0x20 → exec (.txCounts d m) s = .next (settle (t.txCounts d u m)))
      ∧ (m.mkind = 0x21 → exec (.txGrant d m) s = .next (settle (t.txGrant d u m)))
      ∧ (m.mkind = 0x22 → exec (.txRows d m) s = .next (settle (t.txData d u m)))
      ∧ (m.mkind = 0x23 → exec (.txReturn d m) s = .next (settle (t.txData d u m))))
  ∧ (∀ (s : State) (d : DieIx) (m : Msg) (u : TxRun) (e : Nat × Nat × Nat),
      u.expect.find? (fun e => decide (e.1 = msgBucket m ∧ e.2.1 = msgSrcIdx m)) = some e → msgOffset m + m.data.length ≤ e.2.2 →
      msgPoisoned m = false → dataCheck m.data ≠ msgCheck m →
      (s.txData d u m).1.mem = s.mem ∧ (s.txData d u m).2.fails = u.fails + 1
        ∧ (s.txData d u m).1.rf d rTxeFail 16 16 = min (s.rf d rTxeFail 16 16 + 1) 0xFFFF)
  ∧ (∀ (cap rot g : Nat) (n : Nat → Nat) (k : Nat), k < g →
      let l := placeSources cap rot g n
      let e := fun (j : Nat) => l.getD j (0, 0, 0)
      l.length = g ∧ (e k).1 = (rot + k) % g ∧ (e k).2.2 = min (n ((rot + k) % g)) (cap - (e k).2.1)
      ∧ (e 0).2.1 = 0 ∧ (k + 1 < g → (e (k + 1)).2.1 = (e k).2.1 + (e k).2.2))
  ∧ (∀ (s : State) (d : DieIx), Ready s d →
      let begunAll := (∀ y ∈ (s.queue d .col).running, s.colStarted d y.ident = true) ∧ (∀ y ∈ (s.queue d .txe).running, s.txStarted d y.ident = true)
      ((s.die d).reds = [] → (s.die d).gathers = [] → (s.die d).exchanges = [] →
          (∀ y ∈ (s.queue d .col).running, begun (s.stroke d) (deadlineBase y + dn y.desc 61 1) = false) →
          (∀ y ∈ (s.queue d .txe).running, begun (s.stroke d) (deadlineBase y + dn y.desc 33 1) = false) → exec (.resultDeadline d) s = .next s)
      ∧ (∀ r, (s.queue d .col).running = [r] → s.colStarted d r.ident = false → begun (s.stroke d) (deadlineBase r + dn r.desc 61 1) = true →
          dKind r.desc = 0x50 ∨ dKind r.desc = 0x51 ∨ dKind r.desc = 0x52 →
          ∃ t, exec (.resultDeadline d) s = .next t ∧ Filed s t d .col r 0x09 hallEmpty
            (BitVec.ofNat 32 (if dKind r.desc = 0x50 then min (arChunks r.desc) 65535 * 65536 else 0)))
      ∧ (∀ u r, begunAll → (s.die d).reds = [u] → (s.die d).gathers = [] → (s.die d).exchanges = [] → begun (s.stroke d) u.dr = true → dKind r.desc = 0x50 →
          (s.queue d .col).running.find? (fun y => decide (y.ident = u.ident)) = some r →
          ∃ t, exec (.resultDeadline d) s = .next t ∧ Filed s t d .col r (pickStatus u.statuses) u.hall
            (BitVec.ofNat 32 (min (u.chunks.filter (fun c => decide (c.got = 0 ∨ c.got = 3))).length 65535 * 65536
              + min (u.chunks.filter (fun c => decide (c.got = 2))).length 65535)))
      ∧ (∀ u r, begunAll → (s.die d).reds = [] → (s.die d).gathers = [u] → (s.die d).exchanges = [] → begun (s.stroke d) u.dr = true →
          dKind r.desc = 0x51 ∨ dKind r.desc = 0x52 → (s.queue d .col).running.find? (fun y => decide (y.ident = u.ident)) = some r →
          ∃ t, exec (.resultDeadline d) s = .next t ∧ Filed s t d .col r (pickStatus u.statuses) u.hall 0)
      ∧ (∀ u r, begunAll → (s.die d).reds = [] → (s.die d).gathers = [] → (s.die d).exchanges = [u] → begun (s.stroke d) u.dr = true →
          dKind r.desc = 0x60 ∨ dKind r.desc = 0x61 → (s.queue d .txe).running.find? (fun y => decide (y.ident = u.ident)) = some r →
          ∃ t, exec (.resultDeadline d) s = .next t ∧ Filed s t d .txe r
            (pickStatus ((if u.poison then [0x02] else []) ++ (if u.fails ≠ 0 then [0x01] else []) ++ (if u.complete then [] else [0x09]))) 0
            (BitVec.ofNat 32 (min u.dropped (2 ^ 32 - 1)))))

/-- R404 to R410, R418 to R420, R425 and R426. -/
def Obligations.DomainResets : Prop :=
  (∀ (s : State) (d : DieIx) (c : CoreIx) (e : Fin 3) (q : Fin 4) (cause : Fin 5), Ready s d →
    exec (.engineReset d c e cause) s = .next (s.startReset d (.engine c e) cause.val false)
    ∧ exec (.coreReset d c cause) s = .next (s.startReset d (.core c) cause.val false)
    ∧ exec (.quadrantReset d q cause) s = .next (s.startReset d (.quad q) cause.val false)
    ∧ exec (.dieReset d cause) s = .next (s.startReset d .die cause.val false)
    ∧ exec (.missingStrokeReport d) s = .next (s.startReset d .die 0 false))
  ∧ (∀ (s : State) (d : DieIx) (u : HungUnit), Ready s d →
      let v := canonUnit u
      (s.hung d v = true → exec (.hang d u) s = .next ((s.logEvent d 0x0A01 0 (s.hungDetail d v)).startReset d (hangDomain u) 0 false))
      ∧ (s.hung d v = false → exec (.hang d u) s = .next s)
      ∧ (s.hung d v = true ↔ s.unitPends d v = true ∧ (s.die d).timer.cycle = 0
          ∧ ∃ w ∈ (s.die d).watch, w.unit = v ∧ s.rf d rHltHangCfg 0 8 ≤ w.strokes))
  ∧ (∀ (s : State) (d : DieIx) (v : Word), Ready s d →
      (∀ e, ∃ t, exec (.hltResetCtl d (.ep e) v) s = .next t ∧ t.reg d rHltResetCtl = s.reg d rHltResetCtl ∧ (t.die d).resets = (s.die d).resets)
      ∧ (∀ m : Domain, bitAt v 31 = true → fld v 0 2 < 3 →
          ((fld v 28 3 = 1 ∧ ∃ (c : CoreIx) (e : Fin 3), fld v 8 6 = c.val ∧ fld v 0 2 = e.val ∧ m = .engine c e)
            ∨ (fld v 28 3 = 2 ∧ ∃ c : CoreIx, fld v 8 6 = c.val ∧ m = .core c)
            ∨ (fld v 28 3 = 3 ∧ ∃ q : Fin 4, fld v 4 2 = q.val ∧ m = .quad q) ∨ (fld v 28 3 = 4 ∧ m = .die)) →
          ∃ w : Word, exec (.hltResetCtl d .pelbex v) s = .next ((s.setReg d rHltResetCtl w).startReset d m 2 (bitAt v 27)))
      ∧ (bitAt v 31 = false ∨ fld v 28 3 = 0 ∨ 4 < fld v 28 3 ∨ fld v 0 2 = 3 ∨ (fld v 28 3 ≤ 2 ∧ 48 ≤ fld v 8 6) →
          ∃ w : Word, exec (.hltResetCtl d .pelbex v) s = .next (s.setReg d rHltResetCtl w)))
  ∧ (∀ (s : State) (d : DieIx) (m : Domain) (cause : Nat) (noCapture : Bool),
      let t := s.startReset d m cause noCapture
      ((s.die d).resets.any (fun r => domIn r.dom m) = true → t = s)
      ∧ ((s.die d).resets.any (fun r => domIn r.dom m) = false → (s.die d).resets.any (fun r => domIn m r.dom) = false →
          (∃ run, (t.die d).resets = (s.die d).resets ++ [run] ∧ run.dom = m ∧ run.cause = cause ∧ run.toFence = false
            ∧ run.trunc = (!noCapture && !s.hbmServes d)
            ∧ run.discarded.map (fun p => (p.1, p.2.tag)) = (s.discardedIn d m).map (fun p => (p.1, BitVec.ofNat 16 (dTag p.2.1)))
            ∧ ((∀ p ∈ s.discardedIn d m, ∀ r, p.2.2 = some r → [0x07, 0x0F, 0x05].all (fun x => !r.stats.contains x) = true) →
                ∀ p ∈ run.discarded, p.2.status = 0x06))
          ∧ bitAt (t.reg d rHltStatus) 31 = true
          ∧ (∀ c, m = .engine c 0 → (t.core d c).arr = MxArray.reset ∧ (t.core d c).proc = (s.core d c).proc)
          ∧ (∀ c, m = .engine c 1 → (∃ n, (t.core d c).vec = lostVec n) ∧ (t.core d c).arr = (s.core d c).arr)
          ∧ (∀ c, m = .engine c 2 → (t.core d c).vec = (s.core d c).vec ∧ (t.core d c).arr = (s.core d c).arr ∧ (t.core d c).proc = (s.core d c).proc)
          ∧ (∀ c, m = .core c → (t.core d c).arr = MxArray.reset ∧ (t.core d c).proc.running = false ∧ (t.core d c).recovering = true
              ∧ (∃ n, (t.core d c).proc = lostProc n ∧ (t.core d c).vec = lostVec n)
              ∧ ∃ n, ∀ k, k < 0x400000 → SMap.get 0 t.mem.cells (memKey d 1 (spBase c) + k) = Config.lostByte n (memKey d 1 (spBase c) + k))))
  ∧ (∀ (s : State) (d : DieIx) (m : Domain) (us : Nat) (found : Retrain) (r : ResetRun), Ready s d →
      (s.die d).resets.find? (fun y => decide (y.dom = m)) = some r → m ≠ .die →
      let stat := fun (outcome : Nat) => BitVec.ofNat 32 (outcome * 2 ^ 28 + domKind m * 2 ^ 25 + (if r.trunc then 2 ^ 24 else 0) + r.cause * 2 ^ 20 + min us 0xFFFFF)
      ((r.toFence || s.fencesAfter d m) = false →
          ∃ v : State, exec (.resetComplete (.domain d m found) us) s = .next (v.startAll d) ∧ (v.die d).resets = (s.die d).resets.filter (fun y => decide (y.dom ≠ m))
            ∧ v.reg d rHltResetStat = stat 1
            ∧ v.mem = s.mem
            ∧ (∀ c, m = .core c → (v.core d c).recovering = false)
            ∧ (∀ q, ∃ l, (v.queue d q).done = (s.queue d q).done ++ l
                ∧ l.map (fun x => x.status) = (r.discarded.filter (fun p => decide (p.1 = q))).map (fun p => p.2.status)))
      ∧ ((r.toFence || s.fencesAfter d m) = true →
          ∃ v : State, exec (.resetComplete (.domain d m found) us) s = .next (v.fence d m r.capture) ∧ (v.die d).resets = (s.die d).resets.filter (fun y => decide (y.dom ≠ m))
            ∧ v.reg d rHltResetStat = stat 3 ∧ v.mem = s.mem))
  ∧ (∀ (s : State) (d : DieIx) (us : Nat) (found : Retrain), Ready s d → (s.die d).resets.any (fun y => decide (y.dom = .die)) = true →
      let u := s.findLanes d found.lanes
      (found.fail ||| u.lanesOver d = 0 → exec (.resetComplete (.domain d .die found) us) s = .next (u.completeReset d .die us))
      ∧ (found.fail ||| u.lanesOver d ≠ 0 → ∃ t, exec (.resetComplete (.domain d .die found) us) s = .next t ∧ t.dieFenced d = true))
  ∧ (∀ (s : State) (d : DieIx) (m : Domain) (us : Nat) (found : Retrain), Ready s d → (s.die d).resets.find? (fun y => decide (y.dom = m)) = none →
      exec (.resetComplete (.domain d m found) us) s = .next s ∧ exec (.resetTimeout d m) s = .next s)
  ∧ (∀ (s : State) (d : DieIx) (c : CoreIx) (q : Fin 4),
      (s.setFence d (.core c)).coreFenced d c = true ∧ ((s.setFence d (.engine c 0)).core d c).fenceArr = true
      ∧ ((s.setFence d (.engine c 1)).core d c).fenceVec = true ∧ (s.setFence d (.engine c 2)).dmaFenced d c = true
      ∧ bitAt ((s.setFence d (.quad q)).reg d rHltFenceDie) q.val = true ∧ (s.setFence d .die).dieFenced d = true)
  ∧ (∀ (s : State) (d : DieIx) (m : Domain) (r : ResetRun), Ready s d → (s.die d).resets.find? (fun y => decide (y.dom = m)) = some r →
      ∃ v : State, (∀ p, domParent m = some p → exec (.resetTimeout d m) s = .next (v.startReset d p 1 true))
        ∧ (domParent m = none → exec (.resetTimeout d m) s = .next (v.warmReset 1 [(d, r.capture)])) ∧ v.mem = s.mem
        ∧ v.reg d rHltResetStat = BitVec.ofNat 32 (2 * 2 ^ 28 + domKind m * 2 ^ 25 + (if r.trunc then 2 ^ 24 else 0) + r.cause * 2 ^ 20)
        ∧ (v.die d).resets = (s.die d).resets)
  ∧ (∀ (s : State) (d : DieIx), Ready s d →
      ∃ t, exec (.ucieLinkFailure d) s = .next t ∧ t.dieFenced d = true ∧ (∀ r ∈ (t.die d).resets, r.dom ≠ .die))

/-- R94, R406, R407, R409, R412, R414 to R416 and R418. -/
def Obligations.ModuleResets : Prop :=
  (∀ (s : State) (cause : Fin 5), exec (.moduleWarmReset cause) s = .next (s.warmReset cause.val []) ∧ exec .watchdog s = .next (s.warmReset 0 []))
  ∧ (∀ (s : State) (cause : Nat) (f : List (DieIx × Nat)),
      let tags := fun (d : DieIx) (q : QId) => (s.queue d q).done.map (fun r => r.tag)
        ++ (((s.die d).resets.flatMap (fun r => r.discarded)).filter (fun p => decide (p.1 = q))).map (fun p => p.2.tag)
        ++ (discardedOf (s.queue d q) none).map (fun x => (BitVec.ofNat 16 (dTag x.1) : BitVec 16))
      (s.faulted = true ∨ s.power.standby = false → s.warmReset cause f = s)
      ∧ (∀ w, s.faulted = false → s.power.standby = true → s.warm = some w → s.warmReset cause f = { s with warm := some { w with fences := w.fences ++ f } })
      ∧ (s.faulted = false → s.power.standby = true → s.warm = none →
          (∃ lost, (s.warmReset cause f).warm = some ⟨cause, f, lost⟩
              ∧ lost.map (fun p => (p.die, p.record.tag)) = (s.allDies.filter (fun d => !(s.die d).held)).flatMap (fun d =>
                  allQueues.flatMap (fun q => (tags d q).map (fun x => (d, x)))))
          ∧ (s.warmReset cause f).jobs = [] ∧ (s.warmReset cause f).board = ⟨false, false, 0, false⟩ ∧ (∀ q, ((s.warmReset cause f).hostQ q).running = [])
          ∧ ∀ d, s.present d = true → ((s.warmReset cause f).die d).held = true))
  ∧ (∀ (s : State) (b : BootIn) (us : Nat),
      (s.warm = none ∨ s.power.modResetLow = true → exec (.resetComplete (.module b) us) s = .next s)
      ∧ (∀ w, s.warm = some w → s.power.modResetLow = false →
          exec (.resetComplete (.module b) us) s = .next (w.fences.foldl (fun t p => if (t.die p.1).held then t else t.fence p.1 .die p.2)
            (w.lost.foldl State.writeLost (({ s with warm := none }).bootModule (decide (s.pf rPwrLpStat 0 2 = 3)) b)))))
  ∧ (∀ s : State, (s.warm = none → exec .warmResetTimeout s = .next s)
      ∧ (s.warm ≠ none → ∃ t, exec .warmResetTimeout s = .next t ∧ t.warm = none ∧ t.faulted = true ∧ t.pf rPwrStatus 28 3 = 4
          ∧ t.flash.outOfService = true ∧ ∀ d, s.present d = true → (t.die d).held = true))
  ∧ (∀ (s : State) (d : DieIx) (m : Msg), Ready s d → m.mkind = 0x32 →
      (s.staleMsg d m = false →
        ∃ t, exec (.resetNotice d m) s = .next t ∧ t.mem = s.mem ∧ m.job ∈ (t.die d).notices
          ∧ (∀ k, s.ctxOf d m.job = some k → k < 32 → s.cmtState d k = 1 → (t.commit d k).notice = true)
          ∧ (m.src.toNat / 512 = s.moduleNo d → leNat (slice m.spec 0 1) ≤ 4 →
              t.announcedTag d (announceKey m.src (leNat (slice m.spec 0 1)) (leNat (slice m.spec 2 1) % 64) (leNat (slice m.spec 3 1))) = some (byteAt m.spec 1)))
      ∧ (s.staleMsg d m = true →
        ∃ t, exec (.resetNotice d m) s = .next t ∧ t.mem = s.mem ∧ (t.die d).announced = (s.die d).announced ∧ (t.die d).notices = (s.die d).notices
          ∧ t.rf d rHltStale 0 32 = min (s.rf d rHltStale 0 32 + 1) (2 ^ 32 - 1)))
  ∧ (∀ (s : State) (d : DieIx) (k : CtxIx) (final : Bool), Ready s d → bitAt (s.die d).returning k.val = true →
      (s.die d).resets.any (fun r => decide (r.dom = .die)) = false →
      let c := s.commit d k.val
      let alone := ((s.sortedMembers (s.cmtJob d k.val)).take 2).all (s.isMe d)
      (∀ v, c.held = some v → ∃ t, exec (.memberReturn d k final) s = .next t ∧ t.cmtState d k.val = 0 ∧ bitAt (t.die d).returning k.val = false
        ∧ (t.commit d k.val).held = none
        ∧ (v.1 = true → bitAt (t.reg d (rUpdSet k.val)) 28 = !bitAt (s.reg d (rUpdSet k.val)) 28 ∧ t.rf d (rUpdStep k.val) 0 32 = s.stepOf d k.val
            ∧ t.rf d (rCmtStat k.val) 16 8 = 0)
        ∧ (v.1 = false → t.reg d (rUpdSet k.val) = s.reg d (rUpdSet k.val) ∧ t.reg d (rUpdStep k.val) = s.reg d (rUpdStep k.val)
            ∧ t.attempt d k.val = (s.attempt d k.val + 1) % 256 ∧ t.rf d (rCmtStat k.val) 16 8 = min (s.rf d (rCmtStat k.val) 16 8 + 1) 255))
      ∧ (c.held = none → alone = true → ∃ t, exec (.memberReturn d k final) s = .next t ∧ bitAt (t.die d).returning k.val = false ∧ (t.die d).regs = (s.die d).regs)
      ∧ (c.held = none → alone = false → final = false ∨ c.reported = true → exec (.memberReturn d k final) s = .next s)
      ∧ (c.held = none → alone = false → final = true → c.toBackup = true → 4 ≤ c.silent → c.reported = false →
          ∃ t, exec (.memberReturn d k final) s = .next t ∧ (t.commit d k.val).reported = true ∧ bitAt (t.die d).returning k.val = true ∧ (t.die d).regs = (s.die d).regs))
  ∧ (∀ (s : State) (d : DieIx) (k : CtxIx) (final : Bool), Ready s d → bitAt (s.die d).returning k.val = false →
      exec (.memberReturn d k final) s = .next s)

/-- R437, R438, R442 to R446 and R452. -/
def Obligations.HealthController : Prop :=
  (∀ (s : State) (d : DieIx) (i : Nat) (own nb : List Upset), Ready s d →
    ((s.die d).replays.find? (fun r => r.index == i) = none → exec (.replay d i own nb) s = .next s)
    ∧ (∀ r, (s.die d).replays.find? (fun r => r.index == i) = some r → s.hbmServes d = true →
        let snap := (s.die d).assay.snaps.find? (fun p => decide (p.index = i ∧ p.slot = r.slot) && bitAt (s.reg d rAsyQstat) p.slot)
        (snap = none → ∃ t, exec (.replay d i own nb) s = .next t ∧ t.rf d rAsyReplay 24 8 = min (s.rf d rAsyReplay 24 8 + 1) 255
          ∧ (t.die d).replays = (s.die d).replays.filter (fun r => r.index != i))
        ∧ (∀ p, snap = some p → s.lentIdle d p.core = true → (∀ k, s.neighbour d p.core = some k → s.lentIdle d k = true) →
            exec (.replay d i own nb) s = .next (s.replayBoth d p (s.neighbour d p.core) own nb))
        ∧ (∀ p, snap = some p → s.lentIdle d p.core = false ∨ (∃ k, s.neighbour d p.core = some k ∧ s.lentIdle d k = false) →
            exec (.replay d i own nb) s = .next s)))
  ∧ (∀ (s : State) (d : DieIx) (p : Snap) (c : CheckRun) (own nb : ReplayOut) (k : Nat),
      let t := s.judgeReplay d p c own (some (k, nb))
      let differ := (List.range own.digests.length).any (fun j => decide (own.digests.getD j 0 ≠ nb.digests.getD j 0))
      (own.fail = true → nb.fail = false → ∃ v : State, t = v.resetToFence d (.engine (coreIx p.core) 0)
        ∧ v.rf d rAsyReplay 8 8 = min (s.rf d rAsyReplay 8 8 + 1) 255 ∧ (v.die d).replays = (s.die d).replays.filter (fun r => r.index != p.index))
      ∧ (nb.fail = true ∨ (own.fail = false ∧ differ = true) → t.rf d rAsyReplay 16 8 = min (s.rf d rAsyReplay 16 8 + 1) 255 ∧ t.flash.library = s.flash.library)
      ∧ (own.fail = false → nb.fail = false → differ = false → t.rf d rAsyReplay 0 8 = min (s.rf d rAsyReplay 0 8 + 1) 255
          ∧ t.flash.library = s.flash.library))
  ∧ (∀ (s : State) (d : DieIx), Ready s d → ∃ t, exec (.replayClaim d) s = .next t ∧ t.mem = s.mem
      ∧ (t.die d).assay = (s.die d).assay ∧ (t.die d).cores = (s.die d).cores
      ∧ (∀ r ∈ (s.die d).replays, { r with claim := r.claim || (decide (r.slot ≠ 0xFF) && begun (s.stroke d) (r.since.toNat + s.rf d rAsyCfg 16 8)) } ∈ (t.die d).replays))
  ∧ (∀ (s : State) (d : DieIx), let t := s.claimReplays d
      (∀ p ∈ (s.die d).assay.lends, p ∈ (t.die d).assay.lends) ∧ (∀ r ∈ (t.die d).replays, r.claim = false)
      ∧ (∀ r ∈ (s.die d).replays, r.claim = true → r.slot ≠ 0xFF → ∀ c, c = r.core ∨ s.neighbour d r.core = some c → s.arrayFenced d c = false →
          ∃ p ∈ (t.die d).assay.lends, p.1 = c))
  ∧ (∀ (s : State) (d : DieIx) (u : AssayUnit) (o : UnitRun), Ready s d →
      let on := s.unitDue d u
      ((s.die d).replays = [] → (s.die d).assay.urgent = [] → on = (bitAt (s.reg d rAsyCfg) 31 || (s.die d).assay.pass.isSome))
      ∧ ((s.die d).replays = [] → (s.die d).assay.urgent.contains u = true → on = true)
      ∧ (∀ c r, unitCore u = some c → r ∈ (s.die d).replays → r.slot ≠ 0xFF → c.val = r.core ∨ s.neighbour d r.core = some c.val → on = false)
      ∧ (∀ y ∈ (s.die d).assay.urgent, (s.assayUnits d).contains y = true → s.unitLent d y = true → (s.die d).assay.urgent.contains u = false → on = false)
      ∧ (∀ fail again, on = false ∨ (s.assayUnits d).contains u = false ∨ s.unitLent d u = false → exec (.assayUnit d u fail again o) s = .next s)
      ∧ (∀ ups fail, (∀ i c, u ≠ .library i c) → (∀ n, u ≠ .table n) → s.unitFails d u ups fail = fail)
      ∧ (∀ fail again, on = true → (s.assayUnits d).contains u = true → s.unitLent d u = true → s.testServes d u = true →
          let first := s.unitFails d u o.ups fail
          let second := s.unitFails d u o.again again
          (first = false → ∃ t, exec (.assayUnit d u fail again o) s = .next t ∧ (∀ a, SMap.get 0 t.mem.cells a = SMap.get 0 s.mem.cells a)
            ∧ (t.die d).assay.lastRun.head? = some (u, s.nominal d) ∧ t.rf d rAsyFail 0 16 = s.rf d rAsyFail 0 16
            ∧ ((t.die d).assay.covered.contains u = true ∨ t.rf d rAsyPasses 0 32 = min (s.rf d rAsyPasses 0 32 + 1) 0xFFFFFFFF))
          ∧ (first = true → second = false → ∃ t, exec (.assayUnit d u fail again o) s = .next t
            ∧ (∀ a, SMap.get 0 t.mem.cells a = SMap.get 0 s.mem.cells a) ∧ t.rf d rAsyFail 0 16 = min (s.rf d rAsyFail 0 16 + 1) 0xFFFF)
          ∧ (first = true → second = true → ∃ (t : State) (num : Nat),
              exec (.assayUnit d u fail again o) s = .next ((t.fenceUnit d u).unitEvent d (s.endpoint d (((unitCore u).map (fun c => c.val)).getD 63)) 5 num)
              ∧ t.rf d rAsyFail 0 16 = min (s.rf d rAsyFail 0 16 + 2) 0xFFFF)))
  ∧ (∀ (s : State) (d : DieIx), Ready s d →
      (s.assayAge d < 2 * s.rf d rAsyCfg 0 8 → exec (.starved d) s = .next s)
      ∧ (2 * s.rf d rAsyCfg 0 8 ≤ s.assayAge d → (s.die d).assay.starvedAt = none →
          ∃ t, exec (.starved d) s = .next t ∧ bitAt (t.reg d rAsyStatus) 31 = true ∧ t.mem = s.mem
            ∧ (t.die d).assay.starvedAt = some (s.nominal d / (940 * 3600000000))))
  ∧ (∀ (s : State) (d : DieIx) (fails : List TestFail) (r : Running), Ready s d → Picks s d .hlt (fun r => decide (dKind r.desc = 0xA0)) r → r.stats = [] →
      let x := r.desc
      let named := (List.range 48).filter (fun c => decide (hCores x / 2 ^ c % 2 = 1))
      ((s.die d).assay.touch = none → dAddrOk x 24 = true → dn x 39 1 = 0 → dn x 42 22 = 0 → hScope x < 32 →
        (hCores x = 0 ∨ hScope x = 0 → ∃ t, exec (.touchstone d fails) s = .next t ∧ Filed s t d .hlt r 0x00 hallEmpty 0)
        ∧ (hCores x ≠ 0 → hScope x ≠ 0 → (locOf (dAddr x 24)).region = 0 → s.ownClear d (dAddr x 24) 832 = true → s.dieFenced d = false → named.any (fun c => s.coreFenced d (coreIx c)) = false →
            ∃ t, exec (.touchstone d fails) s = .next t ∧ t.mem = s.mem ∧ (t.die d).assay.touch = some ⟨r.ident, s.stroke d, named, []⟩
              ∧ (∀ c ∈ named, (c, none) ∈ (t.die d).assay.lends)))
      ∧ (∀ u, (s.die d).assay.touch = some u → s.hbmServes d = true →
          (u.todo.all (fun c => !(s.core d (coreIx c)).queue.running.isEmpty) = true → exec (.touchstone d fails) s = .next s)
          ∧ (∀ c, u.todo.find? (fun c => (s.core d (coreIx c)).queue.running.isEmpty) = some c →
              let w := s.touchCore d x u c fails
              exec (.touchstone d fails) s = .next (if w.2.todo = [] then w.1.touchEnd d r w.2 else w.1.setTouch d (some w.2))
              ∧ w.2.todo = u.todo.filter (fun k => k != c))))
  ∧ (∀ (s : State) (d : DieIx) (r : Running) (u : Touch), r.stats = [] → dKind r.desc = 0xA0 →
      let bad := u.results.filter (fun e => decide (e.2.2.1 ≠ 0))
      let skipped := u.todo.length * (s.touchTests d r.desc).length
      ∃ word, Filed s (s.touchEnd d r u) d .hlt r (if bad ≠ [] then 0x01 else if skipped ≠ 0 then 0x09 else 0x00) word (BitVec.ofNat 32 skipped))
  ∧ (∀ (s : State) (d : DieIx) (r : Running), Ready s d → Picks s d .hlt (fun r => decide (dKind r.desc = 0xA1)) r → r.stats = [] →
      let x := r.desc
      ((s.die d).assay.pass = none → (dn x 24 16 ≠ 0 ∨ dn x 42 22 ≠ 0) → ∃ t, exec (.assayPass d) s = .next t ∧ Filed s t d .hlt r 0x07 r.hall r.detail)
      ∧ ((s.die d).assay.pass = none → dn x 24 16 = 0 → dn x 42 22 = 0 → s.dieFenced d = false →
          ∃ t, exec (.assayPass d) s = .next t ∧ t.mem = s.mem ∧ (t.die d).assay.pass = some ⟨r.ident, s.stroke d, s.assayUnits d, 0, 0⟩)
      ∧ (∀ p, (s.die d).assay.pass = some p → p.left ≠ [] → exec (.assayPass d) s = .next s)
      ∧ (∀ p, (s.die d).assay.pass = some p → p.left = [] →
          ∃ t, exec (.assayPass d) s = .next t ∧ Filed s t d .hlt r 0x00
            (hallWord 6 (decide (p.fails ≠ 0)) (if p.fails = 0 then 0 else p.first) (if p.fails = 0 then devNone else 0) p.fails) 0))
  ∧ (∀ (s : State) (d : DieIx) (r : Running), Ready s d → (s.queue d .hlt).running.head? = some r →
      (begun (s.stroke d) (r.started.toNat + hDeadline r.desc) = false → exec (.touchstoneDeadline d) s = .next s)
      ∧ (∀ u, begun (s.stroke d) (r.started.toNat + hDeadline r.desc) = true → (s.die d).assay.touch = some u → s.hbmServes d = true →
          exec (.touchstoneDeadline d) s = .next (s.touchEnd d r u))
      ∧ (∀ p, begun (s.stroke d) (r.started.toNat + hDeadline r.desc) = true → (s.die d).assay.touch = none → (s.die d).assay.pass = some p → p.left ≠ [] →
          dKind r.desc = 0xA1 → r.stats = [] → ∃ t word, exec (.touchstoneDeadline d) s = .next t ∧ Filed s t d .hlt r 0x09 word 0))
  ∧ (∀ (s : State) (d : DieIx) (v : Word), Ready s d →
      (∃ t, exec (.asyQfree d .pelbex v) s = .next t ∧ t.reg d rAsyQstat = s.reg d rAsyQstat &&& ~~~(v &&& 0xFFFF) ∧ t.mem = s.mem)
      ∧ (∀ e, ∃ t, exec (.asyQfree d (.ep e) v) s = .next t ∧ t.reg d rAsyQstat = s.reg d rAsyQstat ∧ t.mem = s.mem))

/-- R409, R475, R486 to R488, R490, R492 and R500. What of the slot of a cut write is erased is the model's choice (log 178). -/
def Obligations.PowerSequencing : Prop :=
  (∀ s : State,
      ((∀ q, (s.hostQ q).running = []) → s.cutFlash = s.flash)
      ∧ (∀ q c slot k, c ∈ (s.hostQ q).running → s.slotWritten c.desc = some slot → k < 0x10000 →
          SMap.get 0xFF s.cutFlash.cells (imageBase slot + k) = 0xFF))
  ∧ (∀ (s : State) (b : BootIn),
    (s.power.standby = true ∨ s.faulted = true → exec (.powerUp b) s = .next { s with power := { s.power with pwrEn := true } })
    ∧ (s.power.standby = false → s.faulted = false → s.power.modResetLow = false →
        ∃ v : State, exec (.powerUp b) s = .next (v.bootModule true b) ∧ v.power.standby = true ∧ v.power.rails = true ∧ v.power.pwrgood = true
          ∧ v.power.pwrEn = true ∧ v.mem = Mem.empty ∧ v.host = s.host ∧ v.fuses = s.fuses ∧ v.flash = s.cutFlash ∧ ∀ d, (v.die d).held = true)
    ∧ (s.power.standby = false → s.faulted = false → s.power.modResetLow = true →
        ∃ v, exec (.powerUp b) s = .next v ∧ v.power.rails = true ∧ v.warm = some ⟨4, [], []⟩ ∧ v.mem = Mem.empty ∧ ∀ d, (v.die d).held = true)
    ∧ (s.power.pwrEn = true → exec (.inputRestored b) s = exec (.powerUp b) s) ∧ (s.power.pwrEn = false → exec (.inputRestored b) s = .next s))
  ∧ (∀ s : State,
      let off := fun (t : State) => t.power.standby = false ∧ t.power.rails = false ∧ t.power.pwrgood = false ∧ t.mem = Mem.empty ∧ t.host = s.host
        ∧ t.fuses = s.fuses ∧ t.flash = s.cutFlash ∧ t.pending = s.pending ∧ t.jobs = [] ∧ ∀ d, t.die d = Die.reset d
      (s.faulted = true → exec .powerDownSequence s = .next { s with power := { s.power with pwrEn := false } })
      ∧ (s.faulted = false → ∃ t, exec .powerDownSequence s = .next t ∧ off t ∧ t.power.pwrEn = false ∧ t.faulted = false)
      ∧ (∃ t, exec .brownOut s = .next t ∧ off t ∧ t.power.pwrEn = s.power.pwrEn ∧ t.faulted = s.faulted)
      ∧ (∀ removed, s.faulted = true → (removed = true ∨ s.power.pwrEn = false) → ∃ t, exec (.faultClear removed) s = .next t ∧ off t ∧ t.faulted = false)
      ∧ (∀ removed, s.faulted = false ∨ (removed = false ∧ s.power.pwrEn = true) → exec (.faultClear removed) s = .next s))
  ∧ (∀ (s : State) (cause : Fin 3),
      (s.power.standby = false ∨ s.faulted = true → exec (.moduleTrip cause) s = .next s)
      ∧ (s.power.standby = true → s.faulted = false → ∃ t, exec (.moduleTrip cause) s = .next t ∧ t.faulted = true ∧ t.pf rPwrStatus 28 3 = cause.val + 1
          ∧ t.flash.outOfService = true ∧ t.power.rails = false ∧ t.power.pwrgood = false ∧ t.mem = Mem.empty ∧ t.jobs = []))
  ∧ (∀ s : State,
      (s.power.standby = false → exec .undervoltage s = .next s)
      ∧ (s.power.standby = true → ∃ t, exec .undervoltage s = .next t ∧ t.power.underVolt = true ∧ bitAt (t.preg rPwrStatus) 16 = true ∧ t.mem = s.mem)
      ∧ (∃ t, exec .undervoltageRelease s = .next t ∧ t.power.underVolt = false ∧ t.preg rPwrStatus = s.preg rPwrStatus ∧ t.mem = s.mem)
      ∧ (∀ low, ∃ t, exec (.throtN low) s = .next t ∧ t.power.throtLow = low ∧ t.mem = s.mem
          ∧ (low = true → s.power.standby = true → bitAt (t.preg rPwrStatus) 22 = true) ∧ (low = false → t.preg rPwrStatus = s.preg rPwrStatus))
      ∧ exec (.modResetN false) s = .next { s with power := { s.power with modResetLow := false } }
      ∧ exec (.modResetN true) s = .next (({ s with power := { s.power with modResetLow := true } }).warmReset 4 []))
  ∧ (∀ (s : State) (d : DieIx), s.present d = true →
      (s.power.rails = false ∨ bitAt s.power.railsOff d.val = true → exec (.dieTrip d) s = .next s)
      ∧ (s.power.rails = true → bitAt s.power.railsOff d.val = false →
          ∃ t, exec (.dieTrip d) s = .next t ∧ bitAt t.power.railsOff d.val = true ∧ t.dieFenced d = true ∧ (t.die d).held = true
            ∧ bitAt (t.preg rPwrStatus) (8 + d.val) = true ∧ bitAt (t.preg rPwrStatus) 19 = true
            ∧ ∀ k, k < 2 ^ 39 → SMap.get 0 t.mem.cells (memKey d 0 k) = 0))

/-- R489 to R491, R493 to R497, R501, R506 and R509. -/
def Obligations.ThermalAndLowPower : Prop :=
  (∀ (s : State) (d : DieIx) (v : BitVec 8), s.present d = true →
    (s.power.rails = false ∨ bitAt s.power.railsOff d.val = true → exec (.junctionReading d (some v)) s = .next s)
    ∧ (s.power.rails = true → bitAt s.power.railsOff d.val = false →
        ∃ t, exec (.junctionReading d (some v)) s = .next t ∧ t.pf (rPwrDie d.val) 8 8 = v.toNat ∧ t.mem = s.mem
          ∧ (∀ k : Fin 3, (105 < v.toNat → bitAt t.power.junction[d] k.val = true) ∧ (v.toNat ≤ 92 → bitAt t.power.junction[d] k.val = false))
          ∧ (95 < v.toNat → bitAt t.power.junction[d] 0 = true) ∧ (100 < v.toNat → bitAt t.power.junction[d] 1 = true)
          ∧ (v.toNat ≤ 97 → bitAt t.power.junction[d] 1 = false) ∧ (v.toNat ≤ 102 → bitAt t.power.junction[d] 2 = false)
          ∧ (97 < v.toNat → v.toNat ≤ 100 → bitAt t.power.junction[d] 1 = bitAt s.power.junction[d] 1)))
  ∧ (∀ (s : State) (i o : BitVec 8), s.power.standby = true →
      ∃ t, exec (.coolantReading (some i) (some o)) s = .next t ∧ t.pf rPwrCool 0 8 = i.toNat ∧ t.pf rPwrCool 8 8 = o.toNat ∧ t.mem = s.mem
        ∧ (40 < i.toNat → bitAt t.power.cool 0 = true) ∧ (i.toNat ≤ 38 → bitAt t.power.cool 0 = false)
        ∧ (45 < i.toNat ∨ 65 < o.toNat → bitAt t.power.cool 1 = true) ∧ (i.toNat ≤ 43 → o.toNat ≤ 62 → bitAt t.power.cool 1 = false)
        ∧ (40 < i.toNat ∨ 65 < o.toNat → bitAt (t.preg rPwrStatus) 18 = true))
  ∧ (∀ (s : State) (m : Measured) (p : BitVec 16), s.power.standby = true → m.pin = some p →
      ∃ t, exec (.capEvaluation m) s = .next t ∧ t.pf rPwrPin 0 16 = p.toNat ∧ t.preg rPwrVin = m.iin ++ m.vin ∧ t.mem = s.mem
        ∧ (bitAt (s.preg rPwrCap) 31 = false → t.pf rPwrCap 16 2 = 0)
        ∧ (bitAt (s.preg rPwrCap) 31 = true → s.pf rPwrCap 0 16 < p.toNat → t.pf rPwrCap 16 2 = min 3 (s.pf rPwrCap 16 2 + 1)
            ∧ bitAt (t.preg rPwrStatus) 17 = true)
        ∧ (bitAt (s.preg rPwrCap) 31 = true → p.toNat ≤ s.pf rPwrCap 0 16 → s.power.capGood < 9 → t.pf rPwrCap 16 2 = s.pf rPwrCap 16 2))
  ∧ (∀ (s : State) (v : Word),
      (s.power.standby = false → exec (.pwrCap v) s = .next s)
      ∧ (s.power.standby = true → ∃ t, exec (.pwrCap v) s = .next t ∧ bitAt (t.preg rPwrCap) 31 = bitAt v 31 ∧ t.mem = s.mem
          ∧ t.pf rPwrCap 0 16 = (if fld v 0 16 < capFloor s.fuses.variant then s.pf rPwrCap 0 16 else fld v 0 16)))
  ∧ (∀ (s : State) (d : DieIx), Ready s d →
      (s.lpState d = 0 → s.pf rPwrLpCfg 0 16 ≠ 0 → s.pf rPwrLpCfg 0 16 ≤ s.power.idle[d] →
        ∃ t, exec (.a1Entry d) s = .next t ∧ t.lpState d = 1 ∧ t.mem = s.mem ∧ t.dies = s.dies)
      ∧ (s.pf rPwrLpCfg 0 16 = 0 ∨ s.power.idle[d] < s.pf rPwrLpCfg 0 16 → exec (.a1Entry d) s = .next s))
  ∧ (∀ (s : State) (mask : BitVec 8) (busy : Bool) (b : BootIn) (i : Instr),
      (i = .a0Request mask busy b ∨ i = .a2Entry mask busy ∨ i = .a3Entry mask busy) →
      (s.power.standby = false ∨ s.faulted = true → exec i s = .next s)
      ∧ (s.power.standby = true → s.faulted = false → s.pf rPelBoot 28 4 ≠ 3 → ∃ t, exec i s = .next t ∧ t.pf rPwrLpStat 30 2 = 2 ∧ t.mem = s.mem ∧ t.dies = s.dies)
      ∧ (s.power.standby = true → s.faulted = false → s.pf rPelBoot 28 4 = 3 → busy = true →
          ∃ t, exec i s = .next t ∧ t.pf rPwrLpStat 30 2 = 3 ∧ t.mem = s.mem ∧ t.dies = s.dies))
  ∧ (∀ (s : State) (mask : BitVec 8) (b : BootIn), s.power.standby = true → s.faulted = false → s.pf rPelBoot 28 4 = 3 →
      ((s.lpDies mask).any (fun d => s.jobAssigned d) = true → ∃ t, exec (.a2Entry mask false) s = .next t ∧ t.pf rPwrLpStat 30 2 = 2 ∧ t.dies = s.dies)
      ∧ ((s.lpDies mask).any (fun d => s.jobAssigned d) = false → s.lpState firstDie ≠ 3 →
          ∃ t, exec (.a2Entry mask false) s = .next t ∧ t.pf rPwrLpStat 30 2 = 1 ∧ ∀ d ∈ s.lpDies mask, (s.die d).held = false → t.lpState d = 2)
      ∧ (s.jobs ≠ [] ∨ s.allDies.any (fun d => !bitAt mask d.val) = true → ∃ t, exec (.a3Entry mask false) s = .next t ∧ t.pf rPwrLpStat 30 2 = 2 ∧ t.dies = s.dies)
      ∧ (s.jobs = [] → s.allDies.any (fun d => !bitAt mask d.val) = false → s.lpState firstDie ≠ 3 →
          ∃ t, exec (.a3Entry mask false) s = .next t ∧ t.pf rPwrLpStat 30 2 = 1 ∧ t.power.rails = false ∧ t.mem = Mem.empty
            ∧ ∀ d, s.present d = true → t.lpState d = 3)
      ∧ ((s.lpDies mask).any (fun d => s.dieFenced d || s.fenceListed d) = true ∨ s.flash.outOfService = true →
          ∃ t, exec (.a0Request mask false b) s = .next t ∧ t.pf rPwrLpStat 30 2 = 2 ∧ t.dies = s.dies)
      ∧ (s.lpState firstDie ≠ 3 → (s.lpDies mask).any (fun d => s.dieFenced d || s.fenceListed d) = false → s.flash.outOfService = false → b.fail92 = [] → b.lanes = [] → (∀ d, s.lanesOver d = 0) →
          ∃ t, exec (.a0Request mask false b) s = .next t ∧ t.pf rPwrLpStat 30 2 = 1 ∧ ∀ d ∈ s.lpDies mask, t.lpState d = 0))
  ∧ (∀ (s : State) (off : BitVec 16) (v : Word) (busy : Bool) (b : BootIn) (n : Nat), s.power.standby = true →
      (∃ t, exec (.i3cPrivateRead n) s = .next t ∧ t.power.i3cOut = (List.range n).map (fun i => s.i3cWord (s.power.i3cOff.toNat + 4 * i)) ∧ t.mem = s.mem
        ∧ t.dies = s.dies)
      ∧ (blkPWR + off.toNat = rPwrStatus → off.toNat % 4 = 0 → off.toNat < 0x1000 →
          ∃ t, exec (.i3cPrivateWrite off [v] busy b) s = .next t ∧ t.power.i3cOff = off ∧ t.preg rPwrStatus = s.preg rPwrStatus &&& ~~~(v &&& 0x00FF0000)
            ∧ t.mem = s.mem)
      ∧ (∀ o, o % 4 = 0 → o < 0x1000 → s.i3cWord o = s.preg (blkPWR + o)))

/-- R92, R465, R466, R468 to R471, R480 to R482 and R484. -/
def Obligations.HostQueues : Prop :=
  (∀ (s : State) (q : Fin 64) (tail : BitVec 12) (descs : List (Desc × Bool)),
    let x := s.hostQ q
    let n := (tail.toNat + 2 ^ x.sqLog - x.head) % 2 ^ x.sqLog
    let new := (List.range n).map (fun i => descs.getD i (0, false))
    (x.enabled = false ∨ 2 ^ x.sqLog ≤ tail.toNat ∨ (s.bootState ≠ 3 ∧ s.bootState ≠ 4) → exec (.pelSqTail q tail descs) s = .next s.doorbellIgnored)
    ∧ (x.enabled = true → tail.toNat < 2 ^ x.sqLog → (s.bootState = 3 ∨ s.bootState = 4) →
        (x.target = none → ∃ v : State, exec (.pelSqTail q tail descs) s = .next (v.startHost q) ∧ (v.hostQ q).head = tail.toNat ∧ v.dies = s.dies
          ∧ (v.hostQ q).entries = x.entries ++ (new.zipIdx).map (fun p => ⟨x.nextIdent + p.2, p.1.1, p.1.2⟩) ∧ (v.hostQ q).nextIdent = x.nextIdent + n
          ∧ (∀ p, p ≠ q → v.hostQ p = s.hostQ p))
        ∧ (∀ d e, x.target = some (d, e) → ∃ v : State, exec (.pelSqTail q tail descs) s = .next (new.foldl (fun t p => t.push d e p.1 p.2) v)
          ∧ (v.hostQ q).head = tail.toNat ∧ (v.hostQ q).entries = x.entries ∧ v.dies = s.dies)))
  ∧ (∀ (s : State) (q : Fin 64) (head : BitVec 16),
      let x := s.hostQ q
      (x.enabled = false ∨ 2 ^ x.cqLog < (x.cqTail + 65536 - head.toNat) % 65536 → exec (.pelCqHead q head) s = .next s.doorbellIgnored)
      ∧ (x.enabled = true → (x.cqTail + 65536 - head.toNat) % 65536 ≤ 2 ^ x.cqLog → x.hold = [] → x.lost = 0 → x.ringed = [] →
          ∃ t, exec (.pelCqHead q head) s = .next t ∧ t.hostQ q = { x with cqHead := head.toNat } ∧ t.host = s.host ∧ t.mem = s.mem))
  ∧ (∀ (s : State) (q : Fin 64) (c : HostCmd) (r : Result),
      let x := s.hostQ q
      let t := s.hostFinish q c r
      let rec' : Completion := { stamp := s.stamp firstDie, tag := BitVec.ofNat 16 (dTag c.desc), status := BitVec.ofNat 8 (pickStatus r.statuses)
                                 cflags := r.cflags, kind := BitVec.ofNat 8 (dKind c.desc), source := s.endpoint firstDie 63, hallmark := r.hallmark
                                 job := dJob c.desc, epoch := BitVec.ofNat 8 (dEpoch c.desc), gen := s.dieGen firstDie
                                 step := BitVec.ofNat 32 (dStep c.desc), detail := r.detail, irq := dIrq c.desc }
      x.entries = [] → x.hold = [] → x.lost = 0 →
      (t.hostQ q).running = x.running.filter (fun y => y.ident != c.ident)
      ∧ (x.enabled = true → x.full = false → s.pcieUp = true →
          (t.hostQ q).cqTail = (x.cqTail + 1) % 65536 ∧ (t.hostQ q).hold = [] ∧ t.msix = (if dIrq c.desc then s.msix ++ [x.vector] else s.msix)
          ∧ ∀ k, k < 32 → SMap.get 0 t.host.cells (x.base + 32 * (x.cqTail % 2 ^ x.cqLog) + k)
              = (rec'.bytes (decide (x.cqTail / 2 ^ x.cqLog % 2 = 0))).getD k 0)
      ∧ (x.enabled = false ∨ x.full = true ∨ s.pcieUp = false → (t.hostQ q).hold = [rec'] ∧ t.host = s.host))
  ∧ (∀ (s : State) (q : Fin 64),
      ((s.hostQ q).running = [] → exec (.nop q) s = .next s ∧ exec (.queueBind q) s = .next s)
      ∧ (∀ c, (s.hostQ q).running.find? (fun c => isKind 0xF0 c.desc) = some c →
          exec (.nop q) s = .next (s.hostFinish q c (if restZero c.desc 24 = true then Result.ok else .err 0x07))))
  ∧ (∀ (s : State) (q : Fin 64) (c : HostCmd), (s.hostQ q).running.find? (fun c => isKind 0xF1 c.desc) = some c →
      let x := c.desc
      let i : Fin 64 := ⟨hbyte x 24 % 64, Nat.mod_lt _ (by decide)⟩
      (hbyte x 24 = 0 ∨ 63 < hbyte x 24 ∨ 1 < hbyte x 25 ∨ restZero x 40 = false → exec (.queueBind q) s = .next (s.hostFinish q c (.err 0x07)))
      ∧ (1 ≤ hbyte x 24 → hbyte x 24 ≤ 63 → restZero x 40 = true →
          (hbyte x 25 = 0 → ∃ v : State, exec (.queueBind q) s = .next (v.hostFinish q c Result.ok) ∧ (v.hostQ i).enabled = false
            ∧ (∀ p, p ≠ i → v.hostQ p = s.hostQ p) ∧ v.dies = s.dies)
          ∧ (hbyte x 25 = 1 → hbyte x 37 = 0 → 4 ≤ hbyte x 26 → hbyte x 26 ≤ 12 → 4 ≤ hbyte x 27 → hbyte x 27 ≤ 15 → dn x 28 8 % 32 = 0 → hbyte x 36 ≤ 63 →
              ∃ v : State, exec (.queueBind q) s = .next (v.hostFinish q c Result.ok) ∧ (v.hostQ i).enabled = true ∧ (v.hostQ i).sqLog = hbyte x 26
                ∧ (v.hostQ i).cqLog = hbyte x 27 ∧ (v.hostQ i).base = dn x 28 8 ∧ (v.hostQ i).vector = hbyte x 36 ∧ (v.hostQ i).target = none
                ∧ (v.hostQ i).entries = [] ∧ (∀ p, p ≠ i → v.hostQ p = s.hostQ p) ∧ v.dies = s.dies)))
  ∧ (∀ (s : State) (v : Word) (w : DWord),
      let x := s.hostQ 0
      (x.enabled = true → bitAt v 31 = true → exec (.pelAqCtl v) s = .next s)
      ∧ (x.enabled = true → bitAt v 31 = false → ∃ t, exec (.pelAqCtl v) s = .next t ∧ (t.hostQ 0).enabled = false ∧ (t.hostQ 0).entries = [] ∧ t.dies = s.dies)
      ∧ (x.enabled = false → bitAt v 31 = true → 4 ≤ fld v 0 8 → fld v 0 8 ≤ 12 → 4 ≤ fld v 8 8 → fld v 8 8 ≤ 15 →
          ∃ t : State, exec (.pelAqCtl v) s = .next (t.flushCq 0) ∧ (t.hostQ 0).enabled = true ∧ (t.hostQ 0).sqLog = fld v 0 8 ∧ (t.hostQ 0).cqLog = fld v 8 8
            ∧ (t.hostQ 0).head = 0 ∧ (t.hostQ 0).cqTail = 0 ∧ (t.hostQ 0).base = ((s.preg (rPelAcq + 4)) ++ (s.preg rPelAcq)).toNat)
      ∧ (x.enabled = true → exec (.pelAcqBase w) s = .next s)
      ∧ (x.enabled = false → ∃ t, exec (.pelAcqBase w) s = .next t ∧ t.preg rPelAcq = w.setWidth 32 &&& 0xFFFFFFE0 ∧ t.preg (rPelAcq + 4) = (w >>> 32).setWidth 32
          ∧ t.hostQs = s.hostQs))
  ∧ (∀ (s : State) (gen : Fin 6) (width : BitVec 8) (flit : Bool),
      (∃ t, exec (.pcieLinkUp gen width flit) s = .next t ∧ t.pf rPelPcie 24 4 = gen.val + 1 ∧ t.pf rPelPcie 16 8 = width.toNat ∧ t.pcieUp = true ∧ t.mem = s.mem
        ∧ bitAt (t.preg rPelPcie) 14 = decide (gen.val < 5 ∨ width.toNat < 8))
      ∧ (∀ down, ∃ t, exec (.hostInterfaceReset down) s = .next t ∧ (∀ q, q ≠ 0 → (t.hostQ q).enabled = false) ∧ (t.hostQ 0).entries = [] ∧ t.mem = s.mem
          ∧ (down = true → t.pcieUp = false)))

/-- R272, R394, R401 and R472 to R474. -/
def Obligations.HostJobs : Prop :=
  (∀ (s : State) (q : Fin 64) (c : HostCmd), (s.hostQ q).running.find? (fun c => isKind 0xF2 c.desc) = some c →
    let x := c.desc
    let l := s.memberList (dn x 24 8) (dn x 32 4)
    let ds := s.listedDies l
    let n := jcNctx x
    let need := n * (jcStash x * 65536 + arrayBytes (jcRowsK x) (jcLayers x))
    let top := s.allocTop ds
    hbyte x 48 ≤ 1 → restZero x 49 = true →
    (jcGap x = 0 ∨ 8 < jcGap x ∨ 16 < n → exec (.jobCreate q) s = .next (s.hostFinish q c (.err 0x07)))
    ∧ (1 ≤ jcGap x → jcGap x ≤ 8 → n ≤ 16 → dn x 32 4 = 0 ∨ n = 0 → exec (.jobCreate q) s = .next (s.hostFinish q c Result.ok))
    ∧ (dn x 32 4 ≠ 0 → n ≠ 0 → s.jobRec (dJob x) ≠ none → exec (.jobCreate q) s = .next (s.hostFinish q c (.err 0x07)))
    ∧ (∀ k, dn x 32 4 ≠ 0 → n ≠ 0 → n ≤ 16 → 1 ≤ jcGap x → jcGap x ≤ 8 → s.jobRec (dJob x) = none → ds ≠ [] → n ≤ ((s.freeBils ds).take n).length →
        need ≤ top → jcStash x < 2 ^ 22 → s.freeCtx ds = some k → ds.any (fun d => s.dieFenced d || (s.die d).held || s.parked d) = false →
        ∃ v : State, exec (.jobCreate q) s = .next (v.hostFinish q c { Result.ok with detail := BitVec.ofNat 32 ((top - need) / 65536) })
          ∧ (∃ j, v.jobs = s.jobs ++ [j] ∧ j.job = dJob x ∧ j.ctx = k ∧ j.dies = ds ∧ j.members = l ∧ j.low = top - need ∧ j.top = top ∧ j.plan = none ∧ j.tables = [])
          ∧ (∀ d ∈ ds, v.reg d (rUpdSet k) = BitVec.ofNat 32 (2 ^ 31 + (dJob x).toNat) ∧ v.cmtState d k = 0
              ∧ v.colEpoch d k = dEpoch x % 256 ∧ v.colJob d k = dJob x ∧ v.rf d (rCmtCtl k) 8 4 = jcGap x)
          ∧ (∀ d, d ∉ ds → v.die d = s.die d) ∧ v.mem = s.mem))
  ∧ (∀ (s : State) (q : Fin 64) (c : HostCmd),
      (s.hostQ q).running.find? (fun c => isKind 0xF3 c.desc && !s.accepted q c) = some c →
      let x := c.desc
      let a := dAddr x 24
      let p := (s.readPlan (dJob x) a).1
      let t := (s.readPlan (dJob x) a).2
      let sized (j : Job) := decide (dn x 60 4 = 0xFFFFFFFF) || (s.restash j (dn x 60 4)).isSome
      hbyte x 36 ≤ 1 → dn x 38 2 = 0 → dn x 45 3 = 0 → dAddrOk x 24 = true →
      (jsSteps x = 0 ∨ (jsNew x = true ∧ dn x 48 8 ≠ 0 ∧ dn x 56 4 = 0) → exec (.jobStart q) s = .next (s.hostFinish q c Result.ok))
      ∧ (jsSteps x ≠ 0 → ¬ (jsNew x = true ∧ dn x 48 8 ≠ 0 ∧ dn x 56 4 = 0) →
          (s.jobRec (dJob x) = none → exec (.jobStart q) s = .next (s.hostFinish q c (.err 0x07)))
          ∧ (∀ j, s.jobRec (dJob x) = some j →
              (s.planService a = true → exec (.jobStart q) s = .next ((s.countService true).hostFinish q c (.err 0x07)))
              ∧ (s.planService a = false → s.planOk j p (jsSteps x) = false ∨ (jsNew x = true ∧ sized j = false) →
                  exec (.jobStart q) s = .next (t.hostFinish q c (.err 0x07)))
              ∧ (s.planService a = false → s.planOk j p (jsSteps x) = true → (jsNew x = true → sized j = true) → j.plan = none →
                  ∃ run, exec (.jobStart q) s
                      = .next ((if jsNew x then t.writeNext j (dn x 37 1) (dn x 40 5) else t).setJob { j with plan := some run })
                    ∧ run.steps = jsSteps x ∧ run.done = 0 ∧ run.ident = c.ident ∧ run.queue = q.val ∧ run.place = a ∧ run.start = none
                    ∧ run.poison = p.poison ∧ run.epoch = (if jsNew x then some (dn x 37 1, dn x 40 5) else none)))))
  ∧ (∀ (s : State) (job : BitVec 12),
      (s.jobRec job = none → exec (.planStep job) s = .next s)
      ∧ (∀ j, s.jobRec job = some j →
          (j.plan = none → exec (.planStep job) s = .next s)
          ∧ (∀ p, j.plan = some p → p.start ≠ none → (s.jobDies j).any (fun d => decide (s.cmtState d j.ctx ≠ 0)) = true → exec (.planStep job) s = .next s)
          ∧ (∀ p, j.plan = some p → p.start = none → j.next = none → p.steps ≤ p.done →
              exec (.planStep job) s = .next ((s.setJob { j with plan := none }).finishPlan p []))
          ∧ (∀ p d0 ds, j.plan = some p → p.start = none → j.next = none → p.done < p.steps → p.epoch = none → s.jobDies j = d0 :: ds →
              (d0 :: ds).any (fun d => decide (s.cmtState d j.ctx ≠ 0)) = false →
              exec (.planStep job) s = .next ((s.setJob { j with plan := some p }).beginStep { j with plan := some p } p (d0 :: ds) d0
                (((s.stroke d0).toNat + 2) % 2 ^ 40)))
          ∧ (∀ p n c, j.plan = some p → p.start ≠ none → s.jobDies j ≠ [] → (s.jobDies j).all (fun d => decide (s.cmtState d j.ctx = 0)) = true →
              (s.jobDies j).all (fun d => decide (s.rf d (rCmtStat j.ctx) 16 8 = 0)) = true → j.next = none → p.done + 1 = n → n = p.steps →
              (s.hostQ ⟨p.queue % 64, Nat.mod_lt _ (by decide)⟩).running.find? (fun c => decide (c.ident = p.ident)) = some c →
              ∃ v : State, exec (.planStep job) s = .next (v.hostFinish ⟨p.queue % 64, Nat.mod_lt _ (by decide)⟩ c ⟨if p.poison then [2] else [], 0, 0, BitVec.ofNat 32 n⟩)
                ∧ v.dies = s.dies ∧ v.mem = s.mem ∧ ∀ k ∈ v.jobs, k.job = job → k.plan = none)))
  ∧ (∀ (s : State) (q : Fin 64) (c : HostCmd), (s.hostQ q).running.find? (fun c => isKind 0xF4 c.desc) = some c →
      (s.jobRec (dJob c.desc) = none → exec (.jobResume q) s = .next (s.hostFinish q c (.err 0x07)))
      ∧ (∀ j, s.jobRec (dJob c.desc) = some j → restZero c.desc 24 = true → j.bils = [] →
          let hs := (s.jobDies j).filter (fun d => decide (s.cmtState d j.ctx = 5))
          (hs = [] → exec (.jobResume q) s = .next (s.hostFinish q c (.err 0x07)))
          ∧ (hs ≠ [] → j.ctx < 32 → ∃ v : State, exec (.jobResume q) s = .next (v.hostFinish q c Result.ok) ∧ v.mem = s.mem
              ∧ ∀ d ∈ hs, v.cmtState d j.ctx = 0 ∧ v.rf d (rCmtStat j.ctx) 16 8 = 0 ∧ v.attempt d j.ctx = s.attempt d j.ctx)))
  ∧ (∀ (s : State) (q : Fin 64) (c : HostCmd), (s.hostQ q).running.find? (fun c => isKind 0xF5 c.desc) = some c →
      (s.jobRec (dJob c.desc) = none → exec (.jobTeardown q) s = .next (s.hostFinish q c (.err 0x07)))
      ∧ (∀ j, s.jobRec (dJob c.desc) = some j → restZero c.desc 24 = true → j.ctx < 32 → (∀ e, (∀ u, (s.die e).solve = some u → u.slot < 64) ∧ ∀ p ∈ (s.die e).slots, p.1 < 64) →
          ∃ v : State, exec (.jobTeardown q) s = .next (v.hostFinish q c Result.ok) ∧ (∀ k ∈ v.jobs, k.job ≠ dJob c.desc)
            ∧ ∀ d ∈ s.jobDies j, v.reg d (rUpdSet j.ctx) = 0 ∧ v.cmtState d j.ctx = 0 ∧ v.reg d (rColCtx j.ctx 0) = 0))

/-- R313, R417, R419, R425, R440, R463, R464, R475, R478 and R544. -/
def Obligations.HostServices : Prop :=
  (∀ (s : State) (q : Fin 64) (c : HostCmd), (s.hostQ q).running.find? (fun c => isKind 0xF6 c.desc) = some c →
    let x := c.desc
    let l := locOf (hcBoard x)
    let d := dieIx l.die
    let n := hcBytes x
    (hostCopyFormat x = false → exec (.hostCopy q) s = .next (s.hostFinish q c (.err 0x07)))
    ∧ (hostCopyFormat x = true → n = 0 → exec (.hostCopy q) s = .next (s.hostFinish q c Result.ok))
    ∧ (hostCopyFormat x = true → n ≠ 0 → s.hostCopyOk x = false → ∃ v : State, exec (.hostCopy q) s = .next (v.hostFinish q c (.err 0x07)) ∧ v.mem = s.mem ∧ v.host = s.host)
    ∧ (hostCopyFormat x = true → n ≠ 0 → s.hostCopyOk x = true → s.dieFenced d = true → exec (.hostCopy q) s = .next (s.hostFinish q c (.err 0x0F)))
    ∧ (hostCopyFormat x = true → n ≠ 0 → s.hostCopyOk x = true → s.dieFenced d = false →
        (s.die d).held = true ∨ (l.region = 0 ∧ s.hbmServes d = false) ∨ s.bankBusy d l = true → exec (.hostCopy q) s = .next s)
    ∧ (hostCopyFormat x = true → n ≠ 0 → s.hostCopyOk x = true → s.dieFenced d = false → (s.die d).held = false → l.region = 0 → s.hbmServes d = true →
        (hcToHost x = true → ∃ v : State, exec (.hostCopy q) s = .next (v.hostFinish q c (if (s.poisonOf 0 (memKey d 0 l.off) n).any id then .err 0x02 else Result.ok))
          ∧ v.mem.cells = s.mem.cells
          ∧ ∀ k, k < n → SMap.get 0 v.host.cells (hcHost x + k)
              = (if (s.poisonOf 0 (memKey d 0 l.off) n).getD k false then SMap.get 0 s.host.cells (hcHost x + k) else SMap.get 0 s.mem.cells (memKey d 0 l.off + k)))
        ∧ (hcToHost x = false → s.bucketHit d (dJob x) l.off n none = .none → ∃ v : State, exec (.hostCopy q) s = .next (v.hostFinish q c Result.ok) ∧ v.host = s.host
          ∧ (∀ k, k < n → SMap.get 0 v.mem.cells (memKey d 0 l.off + k) = SMap.get 0 s.host.cells (hcHost x + k))
          ∧ (∀ a, (a < memKey d 0 l.off ∨ memKey d 0 l.off + n ≤ a) → SMap.get 0 v.mem.cells a = SMap.get 0 s.mem.cells a))))
  ∧ (∀ (s : State) (q : Fin 64) (c : HostCmd), (s.hostQ q).running.find? (fun c => isKind 0xF7 c.desc) = some c → restZero c.desc 41 = true →
      (hbyte c.desc 40 = 0 → ∃ v : State, exec (.attest q) s = .next (v.hostFinish q c Result.ok) ∧ v.mem = s.mem ∧ v.dies = s.dies
        ∧ ∀ k, k < 16 → SMap.get 0 v.host.cells (dn c.desc 24 8 + k)
            = (leBytes 4 0x54545441 ++ leBytes 4 100096 ++ leBytes 8 s.fuses.serial.toNat).getD k 0)
      ∧ (1 < hbyte c.desc 40 → exec (.attest q) s = .next (s.hostFinish q c (.err 0x07))))
  ∧ (∀ (s : State) (q : Fin 64) (c : HostCmd), (s.hostQ q).running.find? (fun c => isKind 0xF8 c.desc) = some c → restZero c.desc 41 = true →
      (dn c.desc 32 4 ≠ 0 → s.bootState ≠ 4 → hbyte c.desc 40 = s.boot.image → exec (.imageWrite q) s = .next (s.hostFinish q c (.err 0x07)))
      ∧ (hbyte c.desc 40 ≤ 1 → hbyte c.desc 40 ≠ s.boot.image → dn c.desc 36 4 + dn c.desc 32 4 ≤ 0x3000000 →
          ∃ v : State, exec (.imageWrite q) s = .next (v.hostFinish q c Result.ok) ∧ v.mem = s.mem ∧ v.dies = s.dies ∧ v.fuses = s.fuses))
  ∧ (∀ (s : State) (q : Fin 64) (bad : Bool) (c : HostCmd), (s.hostQ q).running.find? (fun c => isKind 0xF9 c.desc) = some c →
      let slot := hbyte c.desc 24
      let k := s.checkImage slot bad
      slot ≤ 1 → restZero c.desc 26 = true →
      (hbyte c.desc 25 = 0 → k.cause ≠ 0 → exec (.imageSelect q bad) s = .next (s.hostFinish q c { Result.err 0x01 with detail := BitVec.ofNat 32 k.cause }))
      ∧ (hbyte c.desc 25 = 0 → k.cause = 0 → exec (.imageSelect q bad) s = .next ((s.writeBootRec slot false 0).hostFinish q c Result.ok))
      ∧ (hbyte c.desc 25 = 2 → bitAt (s.preg rPelBoot) 26 = true → slot = s.boot.image → k.cause = 0 →
          ∃ v : State, exec (.imageSelect q bad) s = .next (v.hostFinish q c Result.ok) ∧ v.fuses.svn = max s.fuses.svn k.svn
            ∧ v.pf rPelBoot 26 1 = 0 ∧ v.dies = s.dies)
      ∧ (hbyte c.desc 25 = 2 → slot ≠ s.boot.image → exec (.imageSelect q bad) s = .next (s.hostFinish q c (.err 0x07))))
  ∧ (∀ (s : State) (q : Fin 64) (res : List Repair) (op : Nat) (c : HostCmd) (i : Instr),
      ((op = 1 ∧ i = .serviceModuleWarmReset q) ∨ (op = 2 ∧ i = .clearEscalationCounters q) ∨ (op = 3 ∧ i = .eraseLibrary q)
        ∨ (op = 4 ∧ i = .servicePortReenable q) ∨ (op = 5 ∧ i = .hbmRepairRun q res) ∨ (op = 6 ∧ i = .serviceDomainReset q)
        ∨ (op = 7 ∧ i = .ownerKeyEnrolment q) ∨ (op = 8 ∧ i = .ownerKeyRevocation q)) →
      let x := c.desc
      let zeroFrom := if op ≤ 3 then 25 else if op = 4 then 27 else if op = 5 ∨ op = 8 then 26 else 30
      ((s.hostQ q).running = [] → exec i s = .next s)
      ∧ ((s.hostQ q).running.find? (fun c => isService op c.desc) = some c →
          (op ≠ 7 → restZero x zeroFrom = false → exec i s = .next (s.hostFinish q c (.err 0x07)))
          ∧ (op = 1 → restZero x 25 = true → exec i s = .next ((s.serviceDone q c).warmReset 2 []))
          ∧ (op = 2 → restZero x 25 = true → ∃ v : State, exec i s = .next (v.serviceDone q c) ∧ v.flash.escalations = [] ∧ v.flash.fences = []
              ∧ v.flash.outOfService = false ∧ v.mem = s.mem)
          ∧ (op = 3 → restZero x 25 = true → ∃ v : State, exec i s = .next (v.serviceDone q c) ∧ v.flash.library = [] ∧ v.mem = s.mem)
          ∧ (op = 4 → restZero x 27 = true → hbyte x 25 < s.dieCount → hbyte x 26 < 7 → portExists s.fuses.variant (hbyte x 25) (hbyte x 26) = true →
              (s.die (dieIx (hbyte x 25))).held = false →
              exec i s = .next ((s.reenablePort (dieIx (hbyte x 25)) (portIx (hbyte x 26)) .pelbex).serviceDone q c))
          ∧ (op = 5 → restZero x 26 = true → hbyte x 25 < 2 ^ s.dieCount →
              exec i s = .next (((s.allDies.filter (fun d => decide (hbyte x 25 / 2 ^ d.val % 2 = 1))).foldl (fun t d => t.repairDie d res) s).serviceDone q c))
          ∧ (op = 6 → restZero x 30 = true → hbyte x 25 < s.dieCount → (s.die (dieIx (hbyte x 25))).held = false →
              exec i s = .next ((s.resetCtl (dieIx (hbyte x 25)) .pelbex (BitVec.ofNat 32 (dn x 26 4))).serviceDone q c))
          ∧ (op = 7 → hbyte x 25 ≤ 3 → dn x 26 6 = 0 → s.fuses.owners.length = 4 →
              ((s.fuses.owners.getD (hbyte x 25) (none, false)).1.isSome = true → exec i s = .next (s.hostFinish q c (.err 0x07)))
              ∧ ((s.fuses.owners.getD (hbyte x 25) (none, false)).1 = none → ∃ v : State, exec i s = .next (v.serviceDone q c) ∧ v.dies = s.dies
                  ∧ (v.fuses.owners.getD (hbyte x 25) (none, false)).1 = some (BitVec.ofNat 256 (dn x 32 32))
                  ∧ ∀ k, k ≠ hbyte x 25 → v.fuses.owners.getD k (none, false) = s.fuses.owners.getD k (none, false)))
          ∧ (op = 8 → hbyte x 25 ≤ 3 → restZero x 26 = true → s.fuses.owners.length = 4 →
              (s.boot.owner = some (hbyte x 25) → exec i s = .next (s.hostFinish q c (.err 0x07)))
              ∧ (s.boot.owner ≠ some (hbyte x 25) → ∃ v : State, exec i s = .next (v.serviceDone q c) ∧ v.dies = s.dies
                  ∧ v.fuses.owners.getD (hbyte x 25) (none, false) = ((s.fuses.owners.getD (hbyte x 25) (none, false)).1, true)))))
  ∧ (∀ (s : State) (d : DieIx) (res : List Repair),
      let t := s.repairDie d res
      (s.jobAssigned d = true ∨ (s.die d).held = true ∨ s.dieFenced d = true → t = s)
      ∧ (s.jobAssigned d = false → (s.die d).held = false → s.dieFenced d = false →
          bitAt (t.reg d rHbmTestCtl) 1 = false ∧ bitAt (t.reg d rHbmStatus) 3 = false
          ∧ ((∀ e : Fin 16, isCandidate (s.reg64 d (rEccRowlog e.val)) = false) → t.mem = s.mem ∧ t.flash = s.flash ∧ (t.die d).log = (s.die d).log)))
  ∧ (∀ s : State, exec (.selfCheck true) s = .next s ∧ exec (.selfCheck false) s = .next (s.warmReset 3 []))

/-- The queue of waiting commands; the cycle that passes on an empty queue (R29) is the model's choice, log entry 60. -/
def Obligations.StepRunsFrontCommand : Prop :=
  (∀ (s : State) (c : Instr) (cs : List Instr), step { s with pending := c :: cs } = exec c { s with pending := cs })
  ∧ (∀ s : State, s.pending = [] → ∃ t, step s = .next t ∧ t.pending = [] ∧ t.mem = s.mem ∧ t.host = s.host ∧ t.pelRegs = s.pelRegs
      ∧ t.settings = s.settings ∧ ∀ d : DieIx, (t.die d).regs = (s.die d).regs ∧ (t.die d).timer.stroke = (s.die d).timer.stroke)
  ∧ (∀ (s : State) (nbits w : Nat), Sys2Proof.decodeTableWord nbits w = none ∧ s.withFetchWord nbits w = s)

/-- What every step keeps, from every state. -/
def Obligations.EveryStepKeeps : Prop :=
  ∀ s : State,
    ((∃ t, step s = .next t) ∨ (∃ d : DieIx, s.present d = false ∧ step s = .fault (.absentDie d)))
    ∧ ((∀ d, s.present d = true) → ∀ i : Instr, ∃ t, exec i s = .next t)
    ∧ ∀ t, step s = .next t →
      t.pending = s.pending.tail
      ∧ t.fuses.variant = s.fuses.variant ∧ t.fuses.serial = s.fuses.serial ∧ s.fuses.svn ≤ t.fuses.svn
      ∧ (s.mem.wf → t.mem.wf) ∧ (s.host.wf → t.host.wf)

/-- The reset values of the register tables. -/
def Obligations.ResetState : Prop :=
  MemoriesWf State.reset ∧ State.reset.mem = Mem.empty ∧ State.reset.pending = []
  ∧ ∀ d : DieIx, (State.reset.die d).held = true
    ∧ State.reset.regView d rColAlg = 0x01000002 ∧ State.reset.regView d rHltHangCfg = 0x00000008 ∧ State.reset.regView d rHltEscCfg = 0x18230258
    ∧ State.reset.regView d rAsyCfg = 0x80400218 ∧ State.reset.regView d rUpdSrCtl = 0x00000300 ∧ State.reset.regView d (blkID + 0x10) = 1
    ∧ State.reset.regView d rStkStepNow = 0x03AC0000
    ∧ (∀ k : CtxIx, State.reset.regView d (rCmtCtl k) = 0x00000100)
    ∧ ∀ c : CoreIx, State.reset.regView d (rCoreCtl c) = 0x00000400 ∧ State.reset.regView d (blkCORE c + 0x18) = 0x0000000A
      ∧ State.reset.regView d (rMxStatus c) = 0x000000F0 ∧ State.reset.regView d (rVxId c) = 0x00000200
      ∧ (State.reset.core d c).proc.running = false ∧ (State.reset.core d c).queue.entries = [] ∧ (State.reset.core d c).queue.running = []

/-- R366: ranks, parents and children of a forwarding tree. -/
def Obligations.ForwardingTree : Prop :=
  ∀ (F g r i : Nat), 0 < F → r < g → i < g →
    (treeRank g r i < g ∧ (treeRank g r i + r) % g = i)
    ∧ (treeRank g r i = 0 → treeParent F g r i = none)
    ∧ (0 < treeRank g r i → ∃ p, treeParent F g r i = some p ∧ p < g ∧ treeRank g r p = (treeRank g r i - 1) / F)
    ∧ ((treeChildren F g r i).map (treeRank g r) = (List.range F).filterMap (fun k =>
        if F * treeRank g r i + 1 + k < g then some (F * treeRank g r i + 1 + k) else none))
    ∧ (∀ j, j < g → (j ∈ treeChildren F g r i ↔ treeParent F g r j = some i))

/-- R48, of the conversions that every unit uses. -/
def Obligations.Wf16Numbers : Prop :=
  (∀ b, b < 65536 →
    (b / 128 % 256 = 0 → decodeScalar .wf16 b = .fin (decide (32768 ≤ b)) 0 0)
    ∧ (b / 128 % 256 = 255 → decodeScalar .wf16 b = .nan))
  ∧ (∀ (m : Rnd) (v : Fpv) (g : Gen),
    let w := (encodeScalar .wf16 m v g).bits
    w < 65536 ∧ (w / 128 % 256 = 255 → w = 0x7FC0) ∧ (w / 128 % 256 = 0 → w % 128 = 0) ∧ (v = .nan → w = 0x7FC0))
end

