-- ==== Sys2Proof/Laws/SMap.lean ====
section
/-! SUPPORT. Sparse tables: read after write, and the canonical form that every write keeps. -/

namespace Sys2Proof.Machine

namespace SMap

variable {α : Type}

theorem get_insert_same (d : α) (k : Nat) (v : α) (m : List (Nat × α)) (h : ∀ p ∈ m, p.1 ≠ k) :
    SMap.get d (SMap.insert k v m) k = v := by
  induction m with
  | nil => simp [SMap.insert, SMap.get]
  | cons p m ih =>
    obtain ⟨j, w⟩ := p
    have hj : j ≠ k := h (j, w) (by simp)
    simp only [SMap.insert]
    split
    · simp [SMap.get]
    · simp [SMap.get, hj, ih (fun q hq => h q (List.mem_cons_of_mem _ hq))]

theorem get_insert_other (d : α) (k j : Nat) (v : α) (m : List (Nat × α)) (h : j ≠ k) :
    SMap.get d (SMap.insert k v m) j = SMap.get d m j := by
  induction m with
  | nil => simp [SMap.insert, SMap.get, Ne.symm h]
  | cons p m ih =>
    obtain ⟨i, w⟩ := p
    simp only [SMap.insert]
    split
    · simp [SMap.get, Ne.symm h]
    · simp [SMap.get, ih]

theorem get_erase_same (d : α) (k : Nat) (m : List (Nat × α)) : SMap.get d (SMap.erase k m) k = d := by
  induction m with
  | nil => simp [SMap.erase, SMap.get]
  | cons p m ih =>
    obtain ⟨j, w⟩ := p
    unfold SMap.erase at ih ⊢
    by_cases hj : j = k
    · simp [hj, ih]
    · simp [hj, SMap.get, ih]

theorem get_erase_other (d : α) (k j : Nat) (m : List (Nat × α)) (h : j ≠ k) :
    SMap.get d (SMap.erase k m) j = SMap.get d m j := by
  induction m with
  | nil => simp [SMap.erase, SMap.get]
  | cons p m ih =>
    obtain ⟨i, w⟩ := p
    unfold SMap.erase at ih ⊢
    by_cases hi : i = k
    · simp [hi, SMap.get, ih, Ne.symm h]
    · rw [List.filter_cons_of_pos (by simpa using hi)]
      simp [SMap.get, ih]

variable [DecidableEq α]

/-- A read after a write to the same key. -/
@[simp] theorem get_set_same (d : α) (m : List (Nat × α)) (k : Nat) (v : α) : SMap.get d (SMap.set d m k v) k = v := by
  unfold SMap.set
  split
  · rename_i h; rw [get_erase_same, h]
  · apply get_insert_same
    intro p hp
    simpa [SMap.erase] using (List.mem_filter.mp hp).2

/-- A write leaves every other key alone. -/
theorem get_set_other (d : α) (m : List (Nat × α)) (k j : Nat) (v : α) (h : j ≠ k) :
    SMap.get d (SMap.set d m k v) j = SMap.get d m j := by
  unfold SMap.set
  split
  · exact get_erase_other d k j m h
  · rw [get_insert_other d k j v _ h, get_erase_other d k j m h]

omit [DecidableEq α] in
theorem sortedFrom_mono (m : List (Nat × α)) {b b' : Nat} (h : b' ≤ b) (hs : SMap.sortedFrom b m = true) :
    SMap.sortedFrom b' m = true := by
  cases m with
  | nil => rfl
  | cons p m => obtain ⟨j, w⟩ := p; simp [SMap.sortedFrom] at hs ⊢; exact ⟨by omega, hs.2⟩

omit [DecidableEq α] in
theorem sortedFrom_filter (f : Nat × α → Bool) (m : List (Nat × α)) (b : Nat) (hs : SMap.sortedFrom b m = true) :
    SMap.sortedFrom b (m.filter f) = true := by
  induction m generalizing b with
  | nil => rfl
  | cons p m ih =>
    obtain ⟨j, w⟩ := p
    simp only [SMap.sortedFrom, Bool.and_eq_true, decide_eq_true_eq] at hs
    simp only [List.filter]
    split
    · simp [SMap.sortedFrom, hs.1, ih _ hs.2]
    · exact sortedFrom_mono _ (by omega) (ih _ hs.2)

omit [DecidableEq α] in
theorem sortedFrom_insert (k : Nat) (v : α) (m : List (Nat × α)) (b : Nat) (hb : b ≤ k) (hne : ∀ p ∈ m, p.1 ≠ k)
    (hs : SMap.sortedFrom b m = true) : SMap.sortedFrom b (SMap.insert k v m) = true := by
  induction m generalizing b with
  | nil => simp [SMap.insert, SMap.sortedFrom, hb]
  | cons p m ih =>
    obtain ⟨j, w⟩ := p
    have hj : j ≠ k := hne (j, w) (by simp)
    simp only [SMap.sortedFrom, Bool.and_eq_true, decide_eq_true_eq] at hs
    simp only [SMap.insert]
    split
    · rename_i h; simp [SMap.sortedFrom, hb, hs.2]; omega
    · rename_i h
      simp [SMap.sortedFrom, hs.1]
      exact ih _ (by omega) (fun q hq => hne q (List.mem_cons_of_mem _ hq)) hs.2

omit [DecidableEq α] in
theorem mem_insert {k : Nat} {v : α} {m : List (Nat × α)} {p : Nat × α} (h : p ∈ SMap.insert k v m) :
    p = (k, v) ∨ p ∈ m := by
  induction m with
  | nil => simp [SMap.insert] at h; exact .inl h
  | cons q m ih =>
    obtain ⟨j, w⟩ := q
    simp only [SMap.insert] at h
    split at h
    · simpa using h
    · rcases List.mem_cons.mp h with h | h
      · exact .inr (by simp [h])
      · rcases ih h with h | h
        · exact .inl h
        · exact .inr (List.mem_cons_of_mem _ h)

omit [DecidableEq α] in
/-- Two rising lists, the second from a bound on that the first stays below, are one rising list. -/
theorem sortedFrom_append (l m : List (Nat × α)) (b c : Nat) (hb : b ≤ c) (hl : SMap.sortedFrom b l = true)
    (hc : ∀ p ∈ l, p.1 < c) (hm : SMap.sortedFrom c m = true) : SMap.sortedFrom b (l ++ m) = true := by
  induction l generalizing b with
  | nil => exact sortedFrom_mono m hb hm
  | cons p l ih =>
    obtain ⟨j, w⟩ := p
    simp only [SMap.sortedFrom, List.cons_append, Bool.and_eq_true, decide_eq_true_eq] at hl ⊢
    exact ⟨hl.1, ih (j + 1) (hc (j, w) (by simp)) hl.2 (fun q hq => hc q (List.mem_cons_of_mem _ hq))⟩

omit [DecidableEq α] in
/-- A rising list without the keys below a bound rises from that bound on. -/
theorem sortedFrom_ge (m : List (Nat × α)) (b c : Nat) (hs : SMap.sortedFrom b m = true) (hc : ∀ p ∈ m, c ≤ p.1) :
    SMap.sortedFrom c m = true := by
  cases m with
  | nil => rfl
  | cons p m =>
    obtain ⟨j, w⟩ := p
    simp only [SMap.sortedFrom, Bool.and_eq_true, decide_eq_true_eq] at hs ⊢
    exact ⟨hc (j, w) (by simp), hs.2⟩

/-- Taking entries out keeps the canonical form. -/
theorem wf_filter (d : Nat → α) (f : Nat × α → Bool) (m : List (Nat × α)) (h : SMap.wf d m = true) :
    SMap.wf d (m.filter f) = true := by
  simp only [SMap.wf, Bool.and_eq_true, List.all_eq_true] at h ⊢
  exact ⟨sortedFrom_filter f m 0 h.1, fun p hp => h.2 p (List.mem_filter.mp hp).1⟩

/-- A write keeps the canonical form. -/
theorem wf_set (d : Nat → α) (m : List (Nat × α)) (k : Nat) (v : α) (h : SMap.wf d m = true) :
    SMap.wf d (SMap.set (d k) m k v) = true := by
  unfold SMap.set
  have he : SMap.wf d (SMap.erase k m) = true := wf_filter d _ m h
  split
  · exact he
  · rename_i hv
    simp only [SMap.wf, Bool.and_eq_true, List.all_eq_true] at he ⊢
    refine ⟨sortedFrom_insert k v _ 0 (by omega) ?_ he.1, ?_⟩
    · intro p hp
      simpa [SMap.erase] using (List.mem_filter.mp hp).2
    · intro p hp
      rcases mem_insert hp with rfl | hp
      · simpa using hv
      · exact he.2 p hp

end SMap

end Sys2Proof.Machine
end

