-- ==== Sys2Proof/Laws/Keeps.lean ====
section
/-! SUPPORT. What every operation keeps: the queue of commands, the fused variant and serial, the canonical form of both memories, and
a fused version that never falls. One lemma per operation says that it keeps all of this. -/

namespace Sys2Proof.Machine

/-- From r to s the queue, the variant and the serial number stay, the fused version does not fall, and a canonical memory stays
canonical. -/
structure Keeps (r s : State) : Prop where
  pending : s.pending = r.pending
  variant : s.fuses.variant = r.fuses.variant
  serial : s.fuses.serial = r.fuses.serial
  svn : r.fuses.svn ≤ s.fuses.svn
  mem : r.mem.wf → s.mem.wf
  host : r.host.wf → s.host.wf

theorem Keeps.refl (r : State) : Keeps r r := ⟨rfl, rfl, rfl, Nat.le_refl _, id, id⟩

theorem Keeps.trans {r s t : State} (h : Keeps r s) (k : Keeps s t) : Keeps r t :=
  ⟨k.pending.trans h.pending, k.variant.trans h.variant, k.serial.trans h.serial, Nat.le_trans h.svn k.svn, k.mem ∘ h.mem, k.host ∘ h.host⟩

theorem Keeps.ite {r a b : State} {c : Prop} [Decidable c] (ha : Keeps r a) (hb : Keeps r b) : Keeps r (if c then a else b) := by
  split
  · exact ha
  · exact hb

/-- A change of other fields. -/
theorem Keeps.upd {r s : State} (h : Keeps r s) (dies) (pelRegs) (irqs) (draws) (settings) (board) (flash) (jobs) (power) (hostQs)
    (eventSeq) (msix) (boot) (warm) (pelLog) (pelCapture) (collected) :
    Keeps r ⟨dies, s.mem, s.host, pelRegs, s.fuses, irqs, draws, settings, board, flash, jobs, power, hostQs, eventSeq, msix, boot, warm,
      pelLog, pelCapture, collected, s.pending⟩ := ⟨h.pending, h.variant, h.serial, h.svn, h.mem, h.host⟩

/-- A change of the memory that keeps its canonical form. -/
theorem Keeps.updMem {r s : State} (h : Keeps r s) (m : Mem) (hm : s.mem.wf → m.wf) : Keeps r { s with mem := m } :=
  ⟨h.pending, h.variant, h.serial, h.svn, hm ∘ h.mem, h.host⟩

/-- What a fold over a list keeps when every step keeps it. -/
theorem fold_inv {α β : Type} (P : β → Prop) (f : β → α → β) (l : List α) (b : β) (hb : P b) (hf : ∀ b a, P b → P (f b a)) :
    P (l.foldl f b) := by
  induction l generalizing b with
  | nil => exact hb
  | cons a l ih => exact ih _ (hf b a hb)

theorem Keeps.fold {α : Type} {r s : State} {f : State → α → State} {l : List α} (h : Keeps r s)
    (hf : ∀ t a, Keeps r t → Keeps r (f t a)) : Keeps r (l.foldl f s) := fold_inv (Keeps r) f l s h hf

theorem Keeps.fold1 {α β : Type} {r : State} {f : State × β → α → State × β} {l : List α} {b : State × β} (h : Keeps r b.1)
    (hf : ∀ t a, Keeps r t.1 → Keeps r (f t a).1) : Keeps r (l.foldl f b).1 := fold_inv (fun t => Keeps r t.1) f l b h hf

theorem Keeps.fold2 {α β : Type} {r : State} {f : β × State → α → β × State} {l : List α} {b : β × State} (h : Keeps r b.2)
    (hf : ∀ t a, Keeps r t.2 → Keeps r (f t a).2) : Keeps r (l.foldl f b).2 := fold_inv (fun t => Keeps r t.2) f l b h hf

theorem Keeps.fold3 {α β γ : Type} {r : State} {f : β × γ × State → α → β × γ × State} {l : List α} {b : β × γ × State}
    (h : Keeps r b.2.2) (hf : ∀ t a, Keeps r t.2.2 → Keeps r (f t a).2.2) : Keeps r (l.foldl f b).2.2 :=
  fold_inv (fun t => Keeps r t.2.2) f l b h hf

/-- Writing one byte after another into cells keeps their canonical form. -/
theorem wf_fold_set {β : Type} (l : List β) (k : β → Nat) (v : β → BitVec 8) (cs : List (Nat × BitVec 8))
    (h : SMap.wf (fun _ => (0 : BitVec 8)) cs = true) :
    SMap.wf (fun _ => (0 : BitVec 8)) (l.foldl (fun m p => SMap.set 0 m (k p) (v p)) cs) = true :=
  fold_inv (fun m => SMap.wf (fun _ => (0 : BitVec 8)) m = true) _ l cs h (fun m p hm => SMap.wf_set (fun _ => 0) m (k p) (v p) hm)

theorem wf_pokeCells (bs : List Byte) (cs : List (Nat × BitVec 8)) (k : Nat) (h : SMap.wf (fun _ => (0 : BitVec 8)) cs = true) :
    SMap.wf (fun _ => (0 : BitVec 8)) (pokeCells cs k bs) = true := by
  induction bs generalizing cs k with
  | nil => exact h
  | cons b bs ih => exact ih _ _ (SMap.wf_set (fun _ => 0) cs k b h)

theorem wf_setMark (ms : List (Nat × Mark)) (k : Nat) (m : Mark) (h : SMap.wf (fun _ => Mark.clean) ms = true) :
    SMap.wf (fun _ => Mark.clean) (setMark ms k m) = true := SMap.wf_set (fun _ => Mark.clean) ms k m h

theorem wf_foldMark {β : Type} (l : List β) (k : β → Nat) (v : β → Mark) (ms : List (Nat × Mark))
    (h : SMap.wf (fun _ => Mark.clean) ms = true) :
    SMap.wf (fun _ => Mark.clean) (l.foldl (fun m p => setMark m (k p) (v p)) ms) = true :=
  fold_inv (fun m => SMap.wf (fun _ => Mark.clean) m = true) _ l ms h (fun m p hm => wf_setMark m (k p) (v p) hm)

/-- A protection word takes a mark. -/
theorem Keeps.mark {r s : State} (h : Keeps r s) (k : Nat) (m : Mark) :
    Keeps r { s with mem := ⟨s.mem.cells, setMark s.mem.marks k m⟩ } :=
  h.updMem _ (fun w => ⟨w.1, wf_setMark _ _ _ w.2⟩)

/-- Bytes written into the cells, the marks as they are. -/
theorem Keeps.poke {r s : State} (h : Keeps r s) (k : Nat) (bs : List Byte) :
    Keeps r { s with mem := ⟨pokeCells s.mem.cells k bs, s.mem.marks⟩ } :=
  h.updMem _ (fun w => ⟨wf_pokeCells _ _ _ w.1, w.2⟩)

/-- A list over the numbers below n, a step of w apart from a key on, rises. -/
theorem sortedFrom_range {α : Type} (n w key : Nat) (hw : 0 < w) (f : Nat → α) :
    SMap.sortedFrom key ((List.range n).map (fun i => (key + w * i, f i))) = true := by
  induction n generalizing key f with
  | zero => rfl
  | succ n ih =>
    rw [List.range_succ_eq_map, List.map_cons, List.map_map]
    simp only [SMap.sortedFrom, Bool.and_eq_true, decide_eq_true_eq]
    refine ⟨by omega, ?_⟩
    have h := SMap.sortedFrom_mono _ (show key + w * 0 + 1 ≤ key + w by omega) (ih (key + w) (fun i => f (i + 1)))
    have he : ((fun i => (key + w * i, f i)) ∘ Nat.succ) = fun i => (key + w + w * i, f (i + 1)) := by
      funext i
      simp only [Function.comp_apply, Nat.succ_eq_add_one, Nat.mul_add, Nat.mul_one]
      congr 1
      omega
    rw [he]
    exact h

/-- What takes the place of a range of a canonical table, rising inside the range and with no default, leaves the table canonical. -/
theorem wf_spliceAt {α : Type} [DecidableEq α] (d : α) (l new : List (Nat × α)) (key n : Nat) (h : SMap.wf (fun _ => d) l = true)
    (hs : SMap.sortedFrom key new = true) (hk : ∀ p ∈ new, p.1 < key + n) (hd : ∀ p ∈ new, p.2 ≠ d) :
    SMap.wf (fun _ => d) (spliceAt l new key n) = true := by
  simp only [SMap.wf, Bool.and_eq_true, List.all_eq_true] at h ⊢
  have hr : SMap.sortedFrom (key + n) (l.filter (fun p => decide (p.1 ≥ key + n))) = true :=
    SMap.sortedFrom_ge _ 0 _ (SMap.sortedFrom_filter _ l 0 h.1) (fun p hp => by simpa using (List.mem_filter.mp hp).2)
  constructor
  · unfold spliceAt
    rw [List.append_assoc]
    refine SMap.sortedFrom_append _ _ 0 key (Nat.zero_le _) (SMap.sortedFrom_filter _ l 0 h.1)
      (fun p hp => by simpa using (List.mem_filter.mp hp).2) ?_
    exact SMap.sortedFrom_append _ _ key (key + n) (Nat.le_add_right _ _) hs hk hr
  · intro p hp
    simp only [spliceAt, List.mem_append] at hp
    rcases hp with (hp | hp) | hp
    · exact h.2 p (List.mem_filter.mp hp).1
    · simpa using hd p hp
    · exact h.2 p (List.mem_filter.mp hp).1

/-- The lost bytes of a range stand in it, in order, and none of them is what an unlisted address reads as. -/
theorem wf_lostCells (cs : List (Nat × BitVec 8)) (m key n : Nat) (h : SMap.wf (fun _ => (0 : BitVec 8)) cs = true) :
    SMap.wf (fun _ => (0 : BitVec 8)) (spliceAt cs (lostCells m key n) key n) = true := by
  apply wf_spliceAt 0 cs _ key n h
  · have hr := sortedFrom_range n 1 key Nat.one_pos (fun i => Config.lostByte m (key + i))
    simp only [Nat.one_mul] at hr
    exact SMap.sortedFrom_filter _ _ _ hr
  · intro p hp
    obtain ⟨i, hi, rfl⟩ := List.mem_map.mp (List.mem_filter.mp hp).1
    have := List.mem_range.mp hi
    dsimp only; omega
  · intro p hp
    simpa using (List.mem_filter.mp hp).2

theorem sortedFrom_filterMap {α β : Type} (f : Nat × α → Option (Nat × β)) (hf : ∀ p q, f p = some q → q.1 = p.1) (l : List (Nat × α))
    (b : Nat) (h : SMap.sortedFrom b l = true) : SMap.sortedFrom b (l.filterMap f) = true := by
  induction l generalizing b with
  | nil => rfl
  | cons p l ih =>
    obtain ⟨j, w⟩ := p
    simp only [SMap.sortedFrom, Bool.and_eq_true, decide_eq_true_eq] at h
    cases e : f (j, w) with
    | none => rw [List.filterMap_cons_none e]; exact SMap.sortedFrom_mono _ (by omega) (ih _ h.2)
    | some q =>
      rw [List.filterMap_cons_some e]
      obtain ⟨k, v⟩ := q
      have hk : k = j := hf _ _ e
      subst hk
      simp only [SMap.sortedFrom, Bool.and_eq_true, decide_eq_true_eq]
      exact ⟨h.1, ih _ h.2⟩

/-- The marks of a lost range stand in it, in order, and none of them is clean. -/
theorem wf_lostMarks (ms : List (Nat × Mark)) (m key n : Nat) (h : SMap.wf (fun _ => Mark.clean) ms = true) :
    SMap.wf (fun _ => Mark.clean) (spliceAt ms (lostMarks m key n) key n) = true := by
  have hm : ∀ p ∈ lostMarks m key n, (∃ i, i < n / 8 ∧ p.1 = key + 8 * i) ∧ p.2 ≠ .clean := by
    intro p hp
    obtain ⟨q, hq, he⟩ := List.mem_filterMap.mp hp
    obtain ⟨i, hi, rfl⟩ := List.mem_map.mp hq
    dsimp only at he
    split at he
    · cases he
    · cases he; exact ⟨⟨i, List.mem_range.mp hi, rfl⟩, by simp⟩
  apply wf_spliceAt .clean ms _ key n h
  · refine sortedFrom_filterMap _ ?_ _ _ (sortedFrom_range (n / 8) 8 key (by omega) (fun i => Config.lostCheck m (key + 8 * i)))
    intro p q e
    split at e
    · cases e
    · cases e; rfl
  · intro p hp
    obtain ⟨⟨i, hi, he⟩, -⟩ := hm p hp
    omega
  · exact fun p hp => (hm p hp).2

/-- What every command answers: a next state that keeps all of this, or the fault that names an absent die. -/
def Lawful (r : State) : Host.Outcome State Fault Refusal → Prop
  | .next t => Keeps r t
  | .fault f => ∃ d : DieIx, r.present d = false ∧ f = .absentDie d
  | .refused _ => False

theorem Lawful.next {r t : State} (h : Keeps r t) : Lawful r (.next t) := h

theorem Lawful.onDie {d : DieIx} {s : State} {k : State → State} (h : Keeps s (k s)) : Lawful s (onDie d s k) := by
  unfold Machine.onDie
  split
  · split
    · exact Keeps.refl s
    · exact h
  · rename_i hp
    exact ⟨d, by simpa using hp, rfl⟩

end Sys2Proof.Machine
end

