-- ==== Sys2Proof/Laws/KeepsBase.lean ====
section
/-! SUPPORT. That every operation keeps what Keeps states: the operations on dies, queues, ports, resets, memories and registers. -/

namespace Sys2Proof.Machine

theorem State.setDie_keeps {r0 : State} (s : State) (d : DieIx) (x : Die) (hs : Keeps r0 s) : Keeps r0 (State.setDie s d x) := by
  unfold State.setDie
  repeat' first
    | with_reducible assumption
    | with_reducible exact Keeps.refl _
    | intro _
    | with_reducible apply Keeps.ite
    | split
    | dsimp only
    | with_reducible apply Keeps.upd

theorem State.modDie_keeps {r0 : State} (s : State) (d : DieIx) (f : Die → Die) (hs : Keeps r0 s) : Keeps r0 (State.modDie s d f) := by
  unfold State.modDie
  repeat' first
    | with_reducible assumption
    | with_reducible exact Keeps.refl _
    | intro _
    | with_reducible apply State.setDie_keeps

theorem State.setCore_keeps {r0 : State} (s : State) (d : DieIx) (c : CoreIx) (y : Core) (hs : Keeps r0 s) : Keeps r0 (State.setCore s d c y) := by
  unfold State.setCore
  repeat' first
    | with_reducible assumption
    | with_reducible exact Keeps.refl _
    | intro _
    | with_reducible apply State.modDie_keeps

theorem State.modCore_keeps {r0 : State} (s : State) (d : DieIx) (c : CoreIx) (f : Core → Core) (hs : Keeps r0 s) : Keeps r0 (State.modCore s d c f) := by
  unfold State.modCore
  repeat' first
    | with_reducible assumption
    | with_reducible exact Keeps.refl _
    | intro _
    | with_reducible apply State.setCore_keeps

theorem State.setReg_keeps {r0 : State} (s : State) (d : DieIx) (off : Nat) (v : Word) (hs : Keeps r0 s) : Keeps r0 (State.setReg s d off v) := by
  unfold State.setReg
  repeat' first
    | with_reducible assumption
    | with_reducible exact Keeps.refl _
    | intro _
    | with_reducible apply State.modDie_keeps

theorem State.modReg_keeps {r0 : State} (s : State) (d : DieIx) (off : Nat) (f : Word → Word) (hs : Keeps r0 s) : Keeps r0 (State.modReg s d off f) := by
  unfold State.modReg
  repeat' first
    | with_reducible assumption
    | with_reducible exact Keeps.refl _
    | intro _
    | with_reducible apply State.setReg_keeps

theorem State.setRf_keeps {r0 : State} (s : State) (d : DieIx) (off : Nat) (lo : Nat) (len : Nat) (v : Nat) (hs : Keeps r0 s) : Keeps r0 (State.setRf s d off lo len v) := by
  unfold State.setRf
  repeat' first
    | with_reducible assumption
    | with_reducible exact Keeps.refl _
    | intro _
    | with_reducible apply State.modReg_keeps

theorem State.setReg64_keeps {r0 : State} (s : State) (d : DieIx) (off : Nat) (v : DWord) (hs : Keeps r0 s) : Keeps r0 (State.setReg64 s d off v) := by
  unfold State.setReg64
  repeat' first
    | with_reducible assumption
    | with_reducible exact Keeps.refl _
    | intro _
    | with_reducible apply State.setReg_keeps

theorem State.addSat_keeps {r0 : State} (s : State) (d : DieIx) (off : Nat) (lo : Nat) (len : Nat) (k : Nat) (hs : Keeps r0 s) : Keeps r0 (State.addSat s d off lo len k) := by
  unfold State.addSat
  repeat' first
    | with_reducible assumption
    | with_reducible exact Keeps.refl _
    | intro _
    | with_reducible apply State.setRf_keeps

theorem State.setPreg_keeps {r0 : State} (s : State) (off : Nat) (v : Word) (hs : Keeps r0 s) : Keeps r0 (State.setPreg s off v) := by
  unfold State.setPreg
  repeat' first
    | with_reducible assumption
    | with_reducible exact Keeps.refl _
    | intro _
    | with_reducible apply Keeps.ite
    | split
    | dsimp only
    | with_reducible apply Keeps.upd

theorem State.setPf_keeps {r0 : State} (s : State) (off : Nat) (lo : Nat) (len : Nat) (v : Nat) (hs : Keeps r0 s) : Keeps r0 (State.setPf s off lo len v) := by
  unfold State.setPf
  repeat' first
    | with_reducible assumption
    | with_reducible exact Keeps.refl _
    | intro _
    | with_reducible apply State.setPreg_keeps

theorem State.pelCount_keeps {r0 : State} (s : State) (lo : Nat) (hs : Keeps r0 s) : Keeps r0 (State.pelCount s lo) := by
  unfold State.pelCount
  repeat' first
    | with_reducible assumption
    | with_reducible exact Keeps.refl _
    | intro _
    | with_reducible apply State.setPf_keeps

theorem State.drawFree_keeps {r0 : State} (s : State) (hs : Keeps r0 s) : Keeps r0 (State.drawFree s) := by
  unfold State.drawFree
  repeat' first
    | with_reducible assumption
    | with_reducible exact Keeps.refl _
    | intro _
    | with_reducible apply Keeps.ite
    | split
    | dsimp only
    | with_reducible apply Keeps.upd

theorem State.logFrom_keeps {r0 : State} (s : State) (d : DieIx) (src : Endpoint) (gen : BitVec 8) (code : Nat) (status : Nat) (detail : Nat) (sent : Option DWord) (hs : Keeps r0 s) : Keeps r0 (State.logFrom s d src gen code status detail sent) := by
  unfold State.logFrom
  repeat' first
    | with_reducible assumption
    | with_reducible exact Keeps.refl _
    | intro _
    | with_reducible apply State.modDie_keeps

theorem State.logEvent_keeps {r0 : State} (s : State) (d : DieIx) (code : Nat) (status : Nat) (detail : Nat) (hs : Keeps r0 s) : Keeps r0 (State.logEvent s d code status detail) := by
  unfold State.logEvent
  repeat' first
    | with_reducible assumption
    | with_reducible exact Keeps.refl _
    | intro _
    | with_reducible apply State.logFrom_keeps

theorem State.logCaused_keeps {r0 : State} (s : State) (d : DieIx) (m : Msg) (code : Nat) (status : Nat) (detail : Nat) (hs : Keeps r0 s) : Keeps r0 (State.logCaused s d m code status detail) := by
  unfold State.logCaused
  repeat' first
    | with_reducible assumption
    | with_reducible exact Keeps.refl _
    | intro _
    | with_reducible apply State.logFrom_keeps

theorem State.causedBy_keeps {r0 : State} (s : State) (d : DieIx) (from0 : Nat) (m : Msg) (hs : Keeps r0 s) : Keeps r0 (State.causedBy s d from0 m) := by
  unfold State.causedBy
  repeat' first
    | with_reducible assumption
    | with_reducible exact Keeps.refl _
    | intro _
    | with_reducible apply State.modDie_keeps

theorem State.raise_keeps {r0 : State} (s : State) (i : Irq) (hs : Keeps r0 s) : Keeps r0 (State.raise s i) := by
  unfold State.raise
  repeat' first
    | with_reducible assumption
    | with_reducible exact Keeps.refl _
    | intro _
    | with_reducible apply Keeps.ite
    | split
    | dsimp only
    | with_reducible apply Keeps.upd

theorem State.setHostQ_keeps {r0 : State} (s : State) (q : Fin 64) (x : HostQ) (hs : Keeps r0 s) : Keeps r0 (State.setHostQ s q x) := by
  unfold State.setHostQ
  repeat' first
    | with_reducible assumption
    | with_reducible exact Keeps.refl _
    | intro _
    | with_reducible apply Keeps.ite
    | split
    | dsimp only
    | with_reducible apply Keeps.upd

theorem State.pokeHost_keeps {r0 : State} (s : State) (a : Nat) (bs : List Byte) (hs : Keeps r0 s) : Keeps r0 (State.pokeHost s a bs) :=
  ⟨hs.pending, hs.variant, hs.serial, hs.svn, hs.mem, fun h => ⟨wf_fold_set _ _ _ _ (hs.host h).1, (hs.host h).2⟩⟩

theorem State.writeCq_keeps {r0 u : State} {s : State}{q : Fin 64} (e : State.writeCq s q = some u) (hs : Keeps r0 s) : Keeps r0 u := by
  unfold State.writeCq at e
  (try dsimp only at e)
  repeat' (first | (split at e) | cases e)
  repeat' first
    | with_reducible assumption
    | with_reducible exact Keeps.refl _
    | intro _
    | with_reducible apply State.setHostQ_keeps
    | with_reducible apply State.pokeHost_keeps
    | with_reducible apply Keeps.ite
    | split
    | dsimp only
    | with_reducible apply Keeps.upd

theorem State.flushCqN_keeps {r0 : State} (s : State) (q : Fin 64) (n : Nat) (hs : Keeps r0 s) : Keeps r0 (State.flushCqN s q n) := by
  induction n generalizing s with
  | zero => exact hs
  | succ n ih =>
    unfold State.flushCqN
    split
    · exact hs
    · exact ih _ (State.writeCq_keeps (by assumption) hs)

theorem State.flushCq_keeps {r0 : State} (s : State) (q : Fin 64) (hs : Keeps r0 s) : Keeps r0 (State.flushCq s q) := by
  unfold State.flushCq
  dsimp only
  have ht := State.flushCqN_keeps s q ((s.hostQ q).hold.length + 1) hs
  generalize s.flushCqN q ((s.hostQ q).hold.length + 1) = t at ht
  split
  · exact State.flushCqN_keeps _ _ _ ((State.setHostQ_keeps t q _ ht).upd ..)
  · exact ht

theorem State.postCq_keeps {r0 : State} (s : State) (q : Fin 64) (r : Completion) (hs : Keeps r0 s) : Keeps r0 (State.postCq s q r) := by
  unfold State.postCq
  repeat' first
    | with_reducible assumption
    | with_reducible exact Keeps.refl _
    | intro _
    | with_reducible apply State.pelCount_keeps
    | with_reducible apply State.setHostQ_keeps
    | with_reducible apply State.flushCq_keeps
    | with_reducible apply Keeps.ite

theorem State.hostEvent_keeps {r0 : State} (s : State) (d : DieIx) (src : Endpoint) (status : Nat) (job : BitVec 12) (epoch : BitVec 8) (step : Word) (hall : Word) (type : Nat) (data : Nat) (hs : Keeps r0 s) : Keeps r0 (State.hostEvent s d src status job epoch step hall type data) := by
  unfold State.hostEvent
  repeat' first
    | with_reducible assumption
    | with_reducible exact Keeps.refl _
    | intro _
    | with_reducible apply State.postCq_keeps
    | with_reducible apply Keeps.ite
    | split
    | dsimp only
    | with_reducible apply Keeps.upd

theorem State.unitEvent_keeps {r0 : State} (s : State) (d : DieIx) (src : Endpoint) (type : Nat) (data : Nat) (hs : Keeps r0 s) : Keeps r0 (State.unitEvent s d src type data) := by
  unfold State.unitEvent
  repeat' first
    | with_reducible assumption
    | with_reducible exact Keeps.refl _
    | intro _
    | with_reducible apply State.hostEvent_keeps

theorem State.logIgnored_keeps {r0 : State} (s : State) (d : DieIx) (off : Nat) (reason : Nat) (hs : Keeps r0 s) : Keeps r0 (State.logIgnored s d off reason) := by
  unfold State.logIgnored
  repeat' first
    | with_reducible assumption
    | with_reducible exact Keeps.refl _
    | intro _
    | with_reducible apply State.logEvent_keeps

theorem State.eccEvent_keeps {r0 : State} (s : State) (d : DieIx) (n : Nat) (addr : Nat) (hs : Keeps r0 s) : Keeps r0 (State.eccEvent s d n addr) := by
  unfold State.eccEvent
  repeat' first
    | with_reducible assumption
    | with_reducible exact Keeps.refl _
    | intro _
    | with_reducible apply State.modDie_keeps
    | with_reducible apply State.modReg_keeps
    | with_reducible apply State.addSat_keeps
    | with_reducible apply State.logEvent_keeps
    | with_reducible apply State.raise_keeps
    | with_reducible apply State.unitEvent_keeps
    | with_reducible apply Keeps.ite

theorem State.rowLog_keeps {r0 : State} (s : State) (d : DieIx) (off : Nat) (unc : Bool) (hs : Keeps r0 s) : Keeps r0 (State.rowLog s d off unc) := by
  unfold State.rowLog
  repeat' first
    | with_reducible assumption
    | with_reducible exact Keeps.refl _
    | intro _
    | with_reducible apply State.modDie_keeps
    | with_reducible apply State.modReg_keeps
    | with_reducible apply State.setReg64_keeps
    | with_reducible apply Keeps.fold
    | with_reducible apply Keeps.fold1
    | with_reducible apply Keeps.fold2
    | with_reducible apply Keeps.fold3
    | with_reducible apply Keeps.ite
    | split
    | dsimp only

theorem State.testRead_keeps {r0 : State} (s : State) (d : DieIx) (f : Found) (hs : Keeps r0 s) : Keeps r0 (State.testRead s d f) := by
  unfold State.testRead
  repeat' first
    | with_reducible assumption
    | with_reducible exact Keeps.refl _
    | intro _
    | with_reducible apply State.setReg_keeps

theorem State.readWord_keeps {r0 : State} (s : State) (a : Access) (d : DieIx) (region : Nat) (key : Nat) (m : Mark) (hs : Keeps r0 s) : Keeps r0 (State.readWord s a d region key m) := by
  unfold State.readWord
  repeat' first
    | with_reducible assumption
    | with_reducible exact Keeps.refl _
    | intro _
    | with_reducible apply State.modDie_keeps
    | with_reducible apply State.addSat_keeps
    | with_reducible apply State.logEvent_keeps
    | with_reducible apply State.eccEvent_keeps
    | with_reducible apply State.rowLog_keeps
    | with_reducible apply State.testRead_keeps
    | with_reducible apply Keeps.ite

theorem State.hbmCount_keeps {r0 : State} (s : State) (d : DieIx) (region : Nat) (off : Nat) (n : Nat) (reg : Nat) (hs : Keeps r0 s) : Keeps r0 (State.hbmCount s d region off n reg) := by
  unfold State.hbmCount
  repeat' first
    | with_reducible assumption
    | with_reducible exact Keeps.refl _
    | intro _
    | with_reducible apply State.modDie_keeps
    | with_reducible apply State.setReg64_keeps
    | with_reducible apply Keeps.fold
    | with_reducible apply Keeps.fold1
    | with_reducible apply Keeps.fold2
    | with_reducible apply Keeps.fold3
    | with_reducible apply Keeps.ite

theorem State.memRead_keeps {r0 : State} (s : State) (a : Access) (d : DieIx) (region : Nat) (off : Nat) (n : Nat) (hs : Keeps r0 s) : Keeps r0 (State.memRead s a d region off n).state := by
  unfold State.memRead
  repeat' first
    | with_reducible assumption
    | with_reducible exact Keeps.refl _
    | intro _
    | with_reducible apply State.testRead_keeps
    | with_reducible apply State.readWord_keeps
    | with_reducible apply State.hbmCount_keeps
    | with_reducible apply Keeps.fold
    | with_reducible apply Keeps.fold1
    | with_reducible apply Keeps.fold2
    | with_reducible apply Keeps.fold3
    | with_reducible apply Keeps.ite

theorem State.memWrite_keeps {r0 : State} (s : State) (a : Access) (d : DieIx) (region : Nat) (off : Nat) (bs : List Byte) (ps : List Bool)
    (hs : Keeps r0 s) : Keeps r0 (State.memWrite s a d region off bs ps) := by
  unfold State.memWrite
  dsimp only
  split
  · exact hs
  · have h1 : Keeps r0 (((s.marksIn region (memKey d region off) bs.length).filter (fun p => decide (p.1 < memKey d region off) ||
        decide (p.1 + wordSize region > memKey d region off + bs.length))).foldl (fun t p => t.readWord a d region p.1 p.2) s) :=
      hs.fold (fun t p ht => State.readWord_keeps _ _ _ _ _ _ ht)
    have hmk : ∀ (ms : List (Nat × Mark)) (g : Nat × Mark → Bool) (l : List (Nat × Mark)) (w : List Nat) (c : Bool) (k : Nat)
        (f : List (Nat × Mark) → Mark), SMap.wf (fun _ => Mark.clean) ms = true → SMap.wf (fun _ => Mark.clean)
          (if c = true then setMark (w.foldl (fun ms k => setMark ms k .poison) (l.foldl (fun ms p => setMark ms p.1 .poison) (ms.filter g))) k
              (f (w.foldl (fun ms k => setMark ms k .poison) (l.foldl (fun ms p => setMark ms p.1 .poison) (ms.filter g))))
            else w.foldl (fun ms k => setMark ms k .poison) (l.foldl (fun ms p => setMark ms p.1 .poison) (ms.filter g))) = true := by
      intro ms g l w c k f h
      have h2 := wf_foldMark w (fun k => k) (fun _ => .poison) _ (wf_foldMark l (fun p => p.1) (fun _ => .poison) _ (SMap.wf_filter _ g ms h))
      split
      · exact wf_setMark _ _ _ h2
      · exact h2
    apply State.hbmCount_keeps
    repeat' first
      | apply Keeps.ite
      | apply State.setReg64_keeps
      | apply State.modReg_keeps
      | apply State.modDie_keeps
    all_goals exact h1.updMem _ (fun h => ⟨wf_pokeCells _ _ _ h.1, hmk _ _ _ _ _ _ (fun ms => flipMark _ (SMap.get .clean ms _) _ _) h.2⟩)

theorem State.poisonWord_keeps {r0 : State} (s : State) (key : Nat) (hs : Keeps r0 s) : Keeps r0 (State.poisonWord s key) := hs.mark _ _

theorem State.writeBackWord_keeps {r0 : State} (s : State) (d : DieIx) (key : Nat) (hs : Keeps r0 s) : Keeps r0 (State.writeBackWord s d key) := by
  unfold State.writeBackWord
  repeat' first
    | with_reducible assumption
    | with_reducible exact Keeps.refl _
    | intro _
    | with_reducible apply State.hbmCount_keeps
    | with_reducible apply State.poisonWord_keeps

theorem State.writeBackAll_keeps {r0 : State} (s : State) (d : DieIx) (hs : Keeps r0 s) : Keeps r0 (State.writeBackAll s d) := by
  unfold State.writeBackAll
  repeat' first
    | with_reducible assumption
    | with_reducible exact Keeps.refl _
    | intro _
    | with_reducible apply State.modDie_keeps
    | with_reducible apply State.writeBackWord_keeps
    | with_reducible apply Keeps.fold

theorem State.eraseMem_keeps {r0 : State} (s : State) (key : Nat) (n : Nat) (hs : Keeps r0 s) : Keeps r0 (State.eraseMem s key n) :=
  hs.updMem _ (fun h => ⟨SMap.wf_filter _ _ _ h.1, SMap.wf_filter _ _ _ h.2⟩)

theorem State.loseMem_keeps {r0 : State} (s : State) (key : Nat) (n : Nat) (hs : Keeps r0 s) : Keeps r0 (State.loseMem s key n) :=
  (State.drawFree_keeps s hs).updMem _ (fun h => ⟨wf_lostCells _ _ _ _ h.1, wf_lostMarks _ _ _ _ h.2⟩)

theorem State.regsToReset_keeps {r0 : State} (s : State) (d : DieIx) (lo : Nat) (hi : Nat) (hs : Keeps r0 s) : Keeps r0 (State.regsToReset s d lo hi) := by
  unfold State.regsToReset
  repeat' first
    | with_reducible assumption
    | with_reducible exact Keeps.refl _
    | intro _
    | with_reducible apply State.modDie_keeps

theorem State.setQueue_keeps {r0 : State} (s : State) (d : DieIx) (q : QId) (x : CmdQueue) (hs : Keeps r0 s) : Keeps r0 (State.setQueue s d q x) := by
  unfold State.setQueue
  repeat' first
    | with_reducible assumption
    | with_reducible exact Keeps.refl _
    | intro _
    | with_reducible apply State.modDie_keeps
    | with_reducible apply State.modCore_keeps
    | with_reducible apply Keeps.ite
    | split

theorem State.modQueue_keeps {r0 : State} (s : State) (d : DieIx) (q : QId) (f : CmdQueue → CmdQueue) (hs : Keeps r0 s) : Keeps r0 (State.modQueue s d q f) := by
  unfold State.modQueue
  repeat' first
    | with_reducible assumption
    | with_reducible exact Keeps.refl _
    | intro _
    | with_reducible apply State.setQueue_keeps

theorem State.wake_keeps {r0 : State} (s : State) (d : DieIx) (hs : Keeps r0 s) : Keeps r0 (State.wake s d) := by
  unfold State.wake
  repeat' first
    | with_reducible assumption
    | with_reducible exact Keeps.refl _
    | intro _
    | with_reducible apply State.setPf_keeps
    | with_reducible apply Keeps.ite

theorem State.capture_keeps {r0 : State} (s : State) (d : DieIx) (src : Nat) (hs : Keeps r0 s) : Keeps r0 (State.capture s d src) := by
  unfold State.capture
  repeat' first
    | with_reducible assumption
    | with_reducible exact Keeps.refl _
    | intro _
    | with_reducible apply State.setReg_keeps
    | with_reducible apply State.setReg64_keeps
    | with_reducible apply Keeps.fold
    | with_reducible apply Keeps.fold1
    | with_reducible apply Keeps.fold2
    | with_reducible apply Keeps.fold3
    | with_reducible apply Keeps.ite

theorem State.modCommit_keeps {r0 : State} (s : State) (d : DieIx) (k : Nat) (f : Commit → Commit) (hs : Keeps r0 s) : Keeps r0 (State.modCommit s d k f) := by
  unfold State.modCommit
  repeat' first
    | with_reducible assumption
    | with_reducible exact Keeps.refl _
    | intro _
    | with_reducible apply State.modDie_keeps

theorem State.noteDone_keeps {r0 : State} (s : State) (d : DieIx) (job : BitVec 12) (step : Nat) (kind : Nat) (st : Nat) (hs : Keeps r0 s) : Keeps r0 (State.noteDone s d job step kind st) := by
  unfold State.noteDone
  repeat' first
    | with_reducible assumption
    | with_reducible exact Keeps.refl _
    | intro _
    | with_reducible apply State.modCommit_keeps
    | with_reducible apply Keeps.ite
    | split

theorem State.noteBucket_keeps {r0 : State} (s : State) (d : DieIx) (desc : Desc) (hs : Keeps r0 s) : Keeps r0 (State.noteBucket s d desc) := by
  unfold State.noteBucket
  repeat' first
    | with_reducible assumption
    | with_reducible exact Keeps.refl _
    | intro _
    | with_reducible apply State.modCommit_keeps
    | with_reducible apply Keeps.ite
    | split

theorem State.noteCommit_keeps {r0 : State} (s : State) (d : DieIx) (desc : Desc) (st : Nat) (hs : Keeps r0 s) : Keeps r0 (State.noteCommit s d desc st) := by
  unfold State.noteCommit
  repeat' first
    | with_reducible assumption
    | with_reducible exact Keeps.refl _
    | intro _
    | with_reducible apply State.noteDone_keeps
    | with_reducible apply State.noteBucket_keeps

theorem State.noteNotice_keeps {r0 : State} (s : State) (d : DieIx) (job : BitVec 12) (hs : Keeps r0 s) : Keeps r0 (State.noteNotice s d job) := by
  unfold State.noteNotice
  repeat' first
    | with_reducible assumption
    | with_reducible exact Keeps.refl _
    | intro _
    | with_reducible apply State.modDie_keeps
    | with_reducible apply State.modCommit_keeps
    | with_reducible apply Keeps.ite
    | split
    | dsimp only

theorem State.logDropped_keeps {r0 : State} (s : State) (d : DieIx) (q : QId) (desc : Desc) (all : List Nat) (hs : Keeps r0 s) : Keeps r0 (State.logDropped s d q desc all) := by
  unfold State.logDropped
  repeat' first
    | with_reducible assumption
    | with_reducible exact Keeps.refl _
    | intro _
    | with_reducible apply State.logFrom_keeps
    | with_reducible apply Keeps.fold
    | with_reducible apply Keeps.fold1
    | with_reducible apply Keeps.fold2
    | with_reducible apply Keeps.fold3
    | with_reducible apply Keeps.ite

theorem State.record_keeps {r0 : State} (s : State) (d : DieIx) (q : QId) (desc : Desc) (ident : Nat) (released : Option Stroke) (r : Result) (hs : Keeps r0 s) : Keeps r0 (State.record s d q desc ident released r) := by
  unfold State.record
  repeat' first
    | with_reducible assumption
    | with_reducible exact Keeps.refl _
    | intro _
    | with_reducible apply State.modCore_keeps
    | with_reducible apply State.addSat_keeps
    | with_reducible apply State.modQueue_keeps
    | with_reducible apply State.capture_keeps
    | with_reducible apply State.noteCommit_keeps
    | with_reducible apply State.logDropped_keeps
    | with_reducible apply Keeps.ite
    | split

theorem State.claimCores_keeps {r0 : State} (s : State) (d : DieIx) (k : Nat) (mask : Nat) (hs : Keeps r0 s) : Keeps r0 (State.claimCores s d k mask) := by
  unfold State.claimCores
  repeat' first
    | with_reducible assumption
    | with_reducible exact Keeps.refl _
    | intro _
    | with_reducible apply State.setReg_keeps
    | with_reducible apply Keeps.fold

theorem State.claimAt_keeps {r0 : State} (s : State) (d : DieIx) (q : QId) (x : Desc) (hs : Keeps r0 s) : Keeps r0 (State.claimAt s d q x) := by
  unfold State.claimAt
  repeat' first
    | with_reducible assumption
    | with_reducible exact Keeps.refl _
    | intro _
    | with_reducible apply State.claimCores_keeps
    | with_reducible apply Keeps.ite
    | split

theorem State.startHead_keeps {r0 u : State} {s : State}{d : DieIx}{q : QId} (e : State.startHead s d q = some u) (hs : Keeps r0 s) : Keeps r0 u := by
  unfold State.startHead at e
  (try dsimp only at e)
  repeat' (first | (split at e) | cases e)
  repeat' first
    | with_reducible assumption
    | with_reducible exact Keeps.refl _
    | intro _
    | with_reducible apply State.setQueue_keeps
    | with_reducible apply State.modQueue_keeps
    | with_reducible apply State.record_keeps
    | with_reducible apply State.claimAt_keeps

theorem State.startReady_keeps {r0 : State} (s : State) (d : DieIx) (q : QId) (n : Nat) (hs : Keeps r0 s) : Keeps r0 (State.startReady s d q n) := by
  induction n generalizing s with
  | zero => exact hs
  | succ n ih =>
    unfold State.startReady
    split
    · exact hs
    · exact ih _ (State.startHead_keeps (by assumption) hs)

theorem State.startQueue_keeps {r0 : State} (s : State) (d : DieIx) (q : QId) (hs : Keeps r0 s) : Keeps r0 (State.startQueue s d q) := by
  unfold State.startQueue
  repeat' first
    | with_reducible assumption
    | with_reducible exact Keeps.refl _
    | intro _
    | with_reducible apply State.startReady_keeps

theorem State.startAll_keeps {r0 : State} (s : State) (d : DieIx) (hs : Keeps r0 s) : Keeps r0 (State.startAll s d) := by
  unfold State.startAll
  repeat' first
    | with_reducible assumption
    | with_reducible exact Keeps.refl _
    | intro _
    | with_reducible apply State.startQueue_keeps
    | with_reducible apply Keeps.fold

theorem State.push_keeps {r0 : State} (s : State) (d : DieIx) (q : QId) (desc : Desc) (poison : Bool) (fw : Bool := false) (hs : Keeps r0 s) : Keeps r0 (State.push s d q desc poison fw) := by
  unfold State.push
  repeat' first
    | with_reducible assumption
    | with_reducible exact Keeps.refl _
    | intro _
    | with_reducible apply State.modQueue_keeps
    | with_reducible apply State.wake_keeps
    | with_reducible apply State.startQueue_keeps

theorem State.releaseQueue_keeps {r0 : State} (s : State) (d : DieIx) (q : QId) (hs : Keeps r0 s) : Keeps r0 (State.releaseQueue s d q) := by
  unfold State.releaseQueue
  repeat' first
    | with_reducible assumption
    | with_reducible exact Keeps.refl _
    | intro _
    | with_reducible apply State.addSat_keeps
    | with_reducible apply State.setQueue_keeps
    | with_reducible apply Keeps.ite

theorem State.releaseAll_keeps {r0 : State} (s : State) (d : DieIx) (hs : Keeps r0 s) : Keeps r0 (State.releaseAll s d) := by
  unfold State.releaseAll
  repeat' first
    | with_reducible assumption
    | with_reducible exact Keeps.refl _
    | intro _
    | with_reducible apply State.releaseQueue_keeps
    | with_reducible apply Keeps.fold

theorem State.haltProc_keeps {r0 : State} (s : State) (d : DieIx) (c : CoreIx) (hs : Keeps r0 s) : Keeps r0 (State.haltProc s d c) := by
  unfold State.haltProc
  repeat' first
    | with_reducible assumption
    | with_reducible exact Keeps.refl _
    | intro _
    | with_reducible apply State.modCore_keeps

theorem State.spoilClaim_keeps {r0 : State} (s : State) (d : DieIx) (e : DieIx) (k : Nat) (hs : Keeps r0 s) : Keeps r0 (State.spoilClaim s d e k) := by
  unfold State.spoilClaim
  repeat' first
    | with_reducible assumption
    | with_reducible exact Keeps.refl _
    | intro _
    | with_reducible apply State.loseMem_keeps
    | with_reducible apply Keeps.fold

theorem State.releaseClaim_keeps {r0 : State} (s : State) (e : DieIx) (hs : Keeps r0 s) : Keeps r0 (State.releaseClaim s e) := by
  unfold State.releaseClaim
  repeat' first
    | with_reducible assumption
    | with_reducible exact Keeps.refl _
    | intro _
    | with_reducible apply State.setReg_keeps

theorem State.cruEnd_keeps {r0 : State} (s : State) (d : DieIx) (r : Running) (hs : Keeps r0 s) : Keeps r0 (State.cruEnd s d r) := by
  unfold State.cruEnd
  repeat' first
    | with_reducible assumption
    | with_reducible exact Keeps.refl _
    | intro _
    | with_reducible apply State.modDie_keeps
    | with_reducible apply State.spoilClaim_keeps
    | with_reducible apply State.releaseClaim_keeps
    | with_reducible apply Keeps.fold
    | with_reducible apply Keeps.fold1
    | with_reducible apply Keeps.fold2
    | with_reducible apply Keeps.fold3
    | with_reducible apply Keeps.ite

theorem State.startAfter_keeps {r0 : State} (s : State) (q : QId) (hs : Keeps r0 s) : Keeps r0 (State.startAfter s q) := by
  unfold State.startAfter
  repeat' first
    | with_reducible assumption
    | with_reducible exact Keeps.refl _
    | intro _
    | with_reducible apply State.startAll_keeps
    | with_reducible apply Keeps.fold
    | with_reducible apply Keeps.fold1
    | with_reducible apply Keeps.fold2
    | with_reducible apply Keeps.fold3
    | with_reducible apply Keeps.ite
    | split

theorem State.setLends_keeps {r0 : State} (s : State) (d : DieIx) (l : List (Nat × Option Stroke)) (hs : Keeps r0 s) : Keeps r0 (State.setLends s d l) := by
  unfold State.setLends
  repeat' first
    | with_reducible assumption
    | with_reducible exact Keeps.refl _
    | intro _
    | with_reducible apply State.modDie_keeps
    | with_reducible apply State.setReg_keeps
    | with_reducible apply State.setRf_keeps

theorem State.hltEnd_keeps {r0 : State} (s : State) (d : DieIx) (hs : Keeps r0 s) : Keeps r0 (State.hltEnd s d) := by
  unfold State.hltEnd
  repeat' first
    | with_reducible assumption
    | with_reducible exact Keeps.refl _
    | intro _
    | with_reducible apply State.modDie_keeps
    | with_reducible apply State.setLends_keeps

theorem State.finish_keeps {r0 : State} (s : State) (d : DieIx) (q : QId) (r : Running) (res : Result) (hs : Keeps r0 s) : Keeps r0 (State.finish s d q r res) := by
  unfold State.finish
  repeat' first
    | with_reducible assumption
    | with_reducible exact Keeps.refl _
    | intro _
    | with_reducible apply State.modDie_keeps
    | with_reducible apply State.modCore_keeps
    | with_reducible apply State.modQueue_keeps
    | with_reducible apply State.record_keeps
    | with_reducible apply State.startQueue_keeps
    | with_reducible apply State.cruEnd_keeps
    | with_reducible apply State.startAfter_keeps
    | with_reducible apply State.hltEnd_keeps
    | with_reducible apply Keeps.ite
    | split

theorem withRunning_keeps {r0 : State} (s : State) (d : DieIx) (q : QId) (kind : Nat) (k : Running → State) (hs : Keeps r0 s) (hk : ∀ x, Keeps r0 (k x)) : Keeps r0 (withRunning s d q kind k) := by
  unfold withRunning
  repeat' first
    | with_reducible assumption
    | with_reducible exact Keeps.refl _
    | intro _
    | with_reducible apply State.finish_keeps
    | with_reducible apply hk
    | with_reducible apply Keeps.ite
    | split

theorem State.modLink_keeps {r0 : State} (s : State) (d : DieIx) (l : LinkIx) (f : Port → Port) (hs : Keeps r0 s) : Keeps r0 (State.modLink s d l f) := by
  unfold State.modLink
  repeat' first
    | with_reducible assumption
    | with_reducible exact Keeps.refl _
    | intro _
    | with_reducible apply State.modDie_keeps

theorem State.modPort_keeps {r0 : State} (s : State) (d : DieIx) (p : PortIx) (f : Port → Port) (hs : Keeps r0 s) : Keeps r0 (State.modPort s d p f) := by
  unfold State.modPort
  repeat' first
    | with_reducible assumption
    | with_reducible exact Keeps.refl _
    | intro _
    | with_reducible apply State.modLink_keeps

theorem State.setPstate_keeps {r0 : State} (s : State) (d : DieIx) (p : PortIx) (v : Nat) (hs : Keeps r0 s) : Keeps r0 (State.setPstate s d p v) := by
  unfold State.setPstate
  repeat' first
    | with_reducible assumption
    | with_reducible exact Keeps.refl _
    | intro _
    | with_reducible apply State.setRf_keeps

theorem State.setCause_keeps {r0 : State} (s : State) (d : DieIx) (p : PortIx) (v : Nat) (hs : Keeps r0 s) : Keeps r0 (State.setCause s d p v) := by
  unfold State.setCause
  repeat' first
    | with_reducible assumption
    | with_reducible exact Keeps.refl _
    | intro _
    | with_reducible apply State.setRf_keeps

theorem State.pumpLink_keeps {r0 : State} (s : State) (d : DieIx) (l : LinkIx) (hs : Keeps r0 s) : Keeps r0 (State.pumpLink s d l) := by
  unfold State.pumpLink
  repeat' first
    | with_reducible assumption
    | with_reducible exact Keeps.refl _
    | intro _
    | with_reducible apply State.modLink_keeps
    | with_reducible apply Keeps.ite

theorem State.sendMsg_keeps {r0 : State} (s : State) (d : DieIx) (m : Msg) (hs : Keeps r0 s) : Keeps r0 (State.sendMsg s d m) := by
  unfold State.sendMsg
  repeat' first
    | with_reducible assumption
    | with_reducible exact Keeps.refl _
    | intro _
    | with_reducible apply State.modDie_keeps
    | with_reducible apply State.modLink_keeps
    | with_reducible apply State.pumpLink_keeps
    | with_reducible apply Keeps.ite
    | split

theorem State.takeMsg_keeps {r0 : State} (s : State) (d : DieIx) (m : Msg) (hs : Keeps r0 s) : Keeps r0 (State.takeMsg s d m) := by
  unfold State.takeMsg
  repeat' first
    | with_reducible assumption
    | with_reducible exact Keeps.refl _
    | intro _
    | with_reducible apply State.modDie_keeps

theorem State.rxFrame_keeps {r0 : State} (s : State) (d : DieIx) (l : LinkIx) (f : List Byte) (hs : Keeps r0 s) : Keeps r0 (State.rxFrame s d l f).1 := by
  unfold State.rxFrame
  repeat' first
    | with_reducible assumption
    | with_reducible exact Keeps.refl _
    | intro _
    | with_reducible apply State.addSat_keeps
    | with_reducible apply State.modLink_keeps
    | with_reducible apply State.pumpLink_keeps
    | with_reducible apply State.retain_keeps
    | with_reducible apply Keeps.ite
    | split

theorem State.seePeer_keeps {r0 : State} (s : State) (d : DieIx) (src : Endpoint) (hs : Keeps r0 s) : Keeps r0 (State.seePeer s d src) := by
  unfold State.seePeer
  repeat' first
    | with_reducible assumption
    | with_reducible exact Keeps.refl _
    | intro _
    | with_reducible apply State.modDie_keeps

theorem State.countDiscard_keeps {r0 : State} (s : State) (d : DieIx) (hs : Keeps r0 s) : Keeps r0 (State.countDiscard s d) := by
  unfold State.countDiscard
  repeat' first
    | with_reducible assumption
    | with_reducible exact Keeps.refl _
    | intro _
    | with_reducible apply State.modDie_keeps

theorem State.deliver_keeps {r0 : State} (s : State) (d : DieIx) (m : Msg) (hs : Keeps r0 s) : Keeps r0 (State.deliver s d m) := by
  unfold State.deliver
  repeat' first
    | with_reducible assumption
    | with_reducible exact Keeps.refl _
    | intro _
    | with_reducible apply State.modDie_keeps
    | with_reducible apply State.wake_keeps
    | with_reducible apply State.sendMsg_keeps
    | with_reducible apply State.seePeer_keeps
    | with_reducible apply State.countDiscard_keeps
    | with_reducible apply Keeps.ite

theorem State.rxData_keeps {r0 : State} (s : State) (d : DieIx) (l : LinkIx) (f : List Byte) (hs : Keeps r0 s) : Keeps r0 (State.rxData s d l f) := by
  unfold State.rxData
  repeat' first
    | with_reducible assumption
    | with_reducible exact Keeps.refl _
    | intro _
    | with_reducible apply State.drawFree_keeps
    | with_reducible apply State.modLink_keeps
    | with_reducible apply State.rxFrame_keeps
    | with_reducible apply State.countDiscard_keeps
    | with_reducible apply State.deliver_keeps
    | with_reducible apply Keeps.ite
    | split

theorem State.clearPort_keeps {r0 : State} (s : State) (d : DieIx) (p : PortIx) (hs : Keeps r0 s) : Keeps r0 (State.clearPort s d p) := by
  unfold State.clearPort
  repeat' first
    | with_reducible assumption
    | with_reducible exact Keeps.refl _
    | intro _
    | with_reducible apply State.modLink_keeps
    | with_reducible apply Keeps.fold

theorem State.discDone_keeps {r0 : State} (s : State) (d : DieIx) (hs : Keeps r0 s) : Keeps r0 (State.discDone s d) := by
  unfold State.discDone
  repeat' first
    | with_reducible assumption
    | with_reducible exact Keeps.refl _
    | intro _
    | with_reducible apply State.modReg_keeps

theorem State.linkDown_keeps {r0 : State} (s : State) (d : DieIx) (p : PortIx) (cause : Nat) (hs : Keeps r0 s) : Keeps r0 (State.linkDown s d p cause) := by
  unfold State.linkDown
  repeat' first
    | with_reducible assumption
    | with_reducible exact Keeps.refl _
    | intro _
    | with_reducible apply State.modReg_keeps
    | with_reducible apply State.addSat_keeps
    | with_reducible apply State.logEvent_keeps
    | with_reducible apply State.modPort_keeps
    | with_reducible apply State.setPstate_keeps
    | with_reducible apply State.setCause_keeps
    | with_reducible apply State.clearPort_keeps
    | with_reducible apply State.discDone_keeps
    | with_reducible apply Keeps.ite

theorem State.portEvent_keeps {r0 : State} (s : State) (d : DieIx) (p : PortIx) (cause : Nat) (hs : Keeps r0 s) : Keeps r0 (State.portEvent s d p cause) := by
  unfold State.portEvent
  repeat' first
    | with_reducible assumption
    | with_reducible exact Keeps.refl _
    | intro _
    | with_reducible apply State.unitEvent_keeps

theorem State.rejectPort_keeps {r0 : State} (s : State) (d : DieIx) (p : PortIx) (cause : Nat) (hs : Keeps r0 s) : Keeps r0 (State.rejectPort s d p cause) := by
  unfold State.rejectPort
  repeat' first
    | with_reducible assumption
    | with_reducible exact Keeps.refl _
    | intro _
    | with_reducible apply State.logEvent_keeps
    | with_reducible apply State.setPstate_keeps
    | with_reducible apply State.setCause_keeps
    | with_reducible apply State.clearPort_keeps
    | with_reducible apply State.discDone_keeps
    | with_reducible apply State.portEvent_keeps

theorem State.trainPort_keeps {r0 : State} (s : State) (d : DieIx) (p : PortIx) (hs : Keeps r0 s) : Keeps r0 (State.trainPort s d p) := by
  unfold State.trainPort
  repeat' first
    | with_reducible assumption
    | with_reducible exact Keeps.refl _
    | intro _
    | with_reducible apply State.setPstate_keeps
    | with_reducible apply State.clearPort_keeps
    | with_reducible apply State.discDone_keeps

theorem State.sendHello_keeps {r0 : State} (s : State) (d : DieIx) (p : PortIx) (hs : Keeps r0 s) : Keeps r0 (State.sendHello s d p) := by
  unfold State.sendHello
  repeat' first
    | with_reducible assumption
    | with_reducible exact Keeps.refl _
    | intro _
    | with_reducible apply State.modPort_keeps

theorem State.sendEcho_keeps {r0 : State} (s : State) (d : DieIx) (p : PortIx) (hs : Keeps r0 s) : Keeps r0 (State.sendEcho s d p) := by
  unfold State.sendEcho
  repeat' first
    | with_reducible assumption
    | with_reducible exact Keeps.refl _
    | intro _
    | with_reducible apply State.modPort_keeps

theorem State.grant_keeps {r0 : State} (s : State) (d : DieIx) (p : PortIx) (hs : Keeps r0 s) : Keeps r0 (State.grant s d p) := by
  unfold State.grant
  repeat' first
    | with_reducible assumption
    | with_reducible exact Keeps.refl _
    | intro _
    | with_reducible apply State.setReg_keeps
    | with_reducible apply State.modLink_keeps
    | with_reducible apply State.setPstate_keeps
    | with_reducible apply State.discDone_keeps
    | with_reducible apply Keeps.fold
    | with_reducible apply Keeps.fold1
    | with_reducible apply Keeps.fold2
    | with_reducible apply Keeps.fold3
    | with_reducible apply Keeps.ite
    | split
    | dsimp only

theorem State.discFrame_keeps {r0 : State} (s : State) (d : DieIx) (p : PortIx) (f : List Byte) (sub : Nat) (k : State → State) (hs : Keeps r0 s) (hk : ∀ t, Keeps r0 t → Keeps r0 (k t)) : Keeps r0 (State.discFrame s d p f sub k) := by
  unfold State.discFrame
  repeat' first
    | with_reducible assumption
    | with_reducible exact Keeps.refl _
    | intro _
    | with_reducible apply State.rxFrame_keeps
    | with_reducible apply hk
    | with_reducible apply Keeps.ite

theorem State.rxHello_keeps {r0 : State} (s : State) (d : DieIx) (p : PortIx) (f : List Byte) (hs : Keeps r0 s) : Keeps r0 (State.rxHello s d p f) := by
  unfold State.rxHello
  repeat' first
    | with_reducible assumption
    | with_reducible exact Keeps.refl _
    | intro _
    | with_reducible apply State.logEvent_keeps
    | with_reducible apply State.modPort_keeps
    | with_reducible apply State.setPstate_keeps
    | with_reducible apply State.clearPort_keeps
    | with_reducible apply State.discDone_keeps
    | with_reducible apply State.sendHello_keeps
    | with_reducible apply State.sendEcho_keeps
    | with_reducible apply State.discFrame_keeps
    | with_reducible apply Keeps.ite

theorem State.rxEcho_keeps {r0 : State} (s : State) (d : DieIx) (p : PortIx) (f : List Byte) (hs : Keeps r0 s) : Keeps r0 (State.rxEcho s d p f) := by
  unfold State.rxEcho
  repeat' first
    | with_reducible assumption
    | with_reducible exact Keeps.refl _
    | intro _
    | with_reducible apply State.modPort_keeps
    | with_reducible apply State.discFrame_keeps

theorem State.showSelfFail_keeps {r0 : State} (s : State) (hs : Keeps r0 s) : Keeps r0 (State.showSelfFail s) := by
  unfold State.showSelfFail
  repeat' first
    | with_reducible assumption
    | with_reducible exact Keeps.refl _
    | intro _
    | with_reducible apply State.modReg_keeps
    | with_reducible apply Keeps.fold
    | with_reducible apply Keeps.fold1
    | with_reducible apply Keeps.fold2
    | with_reducible apply Keeps.fold3
    | with_reducible apply Keeps.ite

theorem State.rxEchoReply_keeps {r0 : State} (s : State) (d : DieIx) (p : PortIx) (f : List Byte) (hs : Keeps r0 s) : Keeps r0 (State.rxEchoReply s d p f) := by
  unfold State.rxEchoReply
  repeat' first
    | with_reducible assumption
    | with_reducible exact Keeps.refl _
    | intro _
    | with_reducible apply State.setReg_keeps
    | with_reducible apply State.modReg_keeps
    | with_reducible apply State.logEvent_keeps
    | with_reducible apply State.modPort_keeps
    | with_reducible apply State.portEvent_keeps
    | with_reducible apply State.rejectPort_keeps
    | with_reducible apply State.sendEcho_keeps
    | with_reducible apply State.grant_keeps
    | with_reducible apply State.discFrame_keeps
    | with_reducible apply State.showSelfFail_keeps
    | with_reducible apply Keeps.ite
    | split

theorem State.rxAccept_keeps {r0 : State} (s : State) (d : DieIx) (p : PortIx) (f : List Byte) (hs : Keeps r0 s) : Keeps r0 (State.rxAccept s d p f) := by
  unfold State.rxAccept
  repeat' first
    | with_reducible assumption
    | with_reducible exact Keeps.refl _
    | intro _
    | with_reducible apply State.modPort_keeps
    | with_reducible apply State.grant_keeps
    | with_reducible apply State.discFrame_keeps

theorem State.rxReject_keeps {r0 : State} (s : State) (d : DieIx) (p : PortIx) (f : List Byte) (hs : Keeps r0 s) : Keeps r0 (State.rxReject s d p f) := by
  unfold State.rxReject
  repeat' first
    | with_reducible assumption
    | with_reducible exact Keeps.refl _
    | intro _
    | with_reducible apply State.rejectPort_keeps
    | with_reducible apply State.discFrame_keeps

theorem State.routeChange_keeps {r0 : State} (s : State) (d : DieIx) (hs : Keeps r0 s) : Keeps r0 (State.routeChange s d) := by
  unfold State.routeChange
  repeat' first
    | with_reducible assumption
    | with_reducible exact Keeps.refl _
    | intro _
    | with_reducible apply State.modDie_keeps
    | with_reducible apply Keeps.fold
    | with_reducible apply Keeps.fold1
    | with_reducible apply Keeps.fold2
    | with_reducible apply Keeps.fold3
    | with_reducible apply Keeps.ite

theorem State.sendBoardPresence_keeps {r0 : State} (s : State) (d : DieIx) (hs : Keeps r0 s) : Keeps r0 (State.sendBoardPresence s d) := by
  unfold State.sendBoardPresence
  repeat' first
    | with_reducible assumption
    | with_reducible exact Keeps.refl _
    | intro _
    | with_reducible apply State.sendMsg_keeps
    | with_reducible apply Keeps.fold
    | with_reducible apply Keeps.fold1
    | with_reducible apply Keeps.fold2
    | with_reducible apply Keeps.fold3
    | with_reducible apply Keeps.ite
    | split

theorem State.boardBoundary_keeps {r0 : State} (s : State) (d : DieIx) (hs : Keeps r0 s) : Keeps r0 (State.boardBoundary s d) := by
  unfold State.boardBoundary
  repeat' first
    | with_reducible assumption
    | with_reducible exact Keeps.refl _
    | intro _
    | with_reducible apply State.modReg_keeps
    | with_reducible apply State.sendBoardPresence_keeps
    | with_reducible apply Keeps.fold
    | with_reducible apply Keeps.fold1
    | with_reducible apply Keeps.fold2
    | with_reducible apply Keeps.fold3
    | with_reducible apply Keeps.ite
    | split
    | dsimp only
    | with_reducible apply Keeps.upd

theorem bumpQuad_keeps {r0 : State} (s : State) (d : DieIx) (q : Nat) (hs : Keeps r0 s) : Keeps r0 (bumpQuad s d q) := by
  unfold bumpQuad
  repeat' first
    | with_reducible assumption
    | with_reducible exact Keeps.refl _
    | intro _
    | with_reducible apply State.setRf_keeps

theorem State.bumpTags_keeps {r0 : State} (s : State) (d : DieIx) (m : Domain) (hs : Keeps r0 s) : Keeps r0 (State.bumpTags s d m) := by
  unfold State.bumpTags
  repeat' first
    | with_reducible assumption
    | with_reducible exact Keeps.refl _
    | intro _
    | with_reducible apply State.modCore_keeps
    | with_reducible apply State.setRf_keeps
    | with_reducible apply bumpQuad_keeps
    | with_reducible apply Keeps.fold
    | with_reducible apply Keeps.fold1
    | with_reducible apply Keeps.fold2
    | with_reducible apply Keeps.fold3
    | with_reducible apply Keeps.ite
    | split

theorem State.setAnnounced_keeps {r0 : State} (s : State) (d : DieIx) (key : Nat) (t : BitVec 8) (hs : Keeps r0 s) : Keeps r0 (State.setAnnounced s d key t) := by
  unfold State.setAnnounced
  repeat' first
    | with_reducible assumption
    | with_reducible exact Keeps.refl _
    | intro _
    | with_reducible apply State.modDie_keeps

theorem State.sendNotices_keeps {r0 : State} (s : State) (d : DieIx) (m : Domain) (hs : Keeps r0 s) : Keeps r0 (State.sendNotices s d m) := by
  unfold State.sendNotices
  repeat' first
    | with_reducible assumption
    | with_reducible exact Keeps.refl _
    | intro _
    | with_reducible apply State.noteNotice_keeps
    | with_reducible apply State.sendMsg_keeps
    | with_reducible apply Keeps.fold

theorem State.copyRaw_keeps {r0 : State} (s : State) (d : DieIx) (srcRegion : Nat) (srcOff : Nat) (dstOff : Nat) (n : Nat) (hs : Keeps r0 s) : Keeps r0 (State.copyRaw s d srcRegion srcOff dstOff n) := by
  unfold State.copyRaw
  repeat' first
    | with_reducible assumption
    | with_reducible exact Keeps.refl _
    | intro _
    | with_reducible apply State.memRead_keeps
    | with_reducible apply State.memWrite_keeps

theorem State.putCapture_keeps {r0 : State} (s : State) (d : DieIx) (off : Nat) (bs : List Byte) (hs : Keeps r0 s) : Keeps r0 (State.putCapture s d off bs) := by
  unfold State.putCapture
  repeat' first
    | with_reducible assumption
    | with_reducible exact Keeps.refl _
    | intro _
    | with_reducible apply State.memWrite_keeps

theorem State.capture411_keeps {r0 : State} (s : State) (d : DieIx) (m : Domain) (kind : Nat) (cause : Nat) (gen : BitVec 8) (trunc : Bool) (hs : Keeps r0 s) : Keeps r0 (State.capture411 s d m kind cause gen trunc).1 := by
  unfold State.capture411
  repeat' first
    | with_reducible assumption
    | with_reducible exact Keeps.refl _
    | intro _
    | with_reducible apply State.modDie_keeps
    | with_reducible apply State.setReg64_keeps
    | with_reducible apply State.copyRaw_keeps
    | with_reducible apply State.putCapture_keeps
    | with_reducible apply Keeps.fold
    | with_reducible apply Keeps.fold1
    | with_reducible apply Keeps.fold2
    | with_reducible apply Keeps.fold3
    | with_reducible apply Keeps.ite
    | split

theorem State.modHbm_keeps {r0 : State} (s : State) (d : DieIx) (f : HbmCtl → HbmCtl) (hs : Keeps r0 s) : Keeps r0 (State.modHbm s d f) := by
  unfold State.modHbm
  repeat' first
    | with_reducible assumption
    | with_reducible exact Keeps.refl _
    | intro _
    | with_reducible apply State.modDie_keeps

theorem State.holdHbm_keeps {r0 : State} (s : State) (d : DieIx) (hold : Bool) (hs : Keeps r0 s) : Keeps r0 (State.holdHbm s d hold) := by
  unfold State.holdHbm
  repeat' first
    | with_reducible assumption
    | with_reducible exact Keeps.refl _
    | intro _
    | with_reducible apply State.modReg_keeps

theorem State.selfRefresh_keeps {r0 : State} (s : State) (d : DieIx) (hs : Keeps r0 s) : Keeps r0 (State.selfRefresh s d) := by
  unfold State.selfRefresh
  repeat' first
    | with_reducible assumption
    | with_reducible exact Keeps.refl _
    | intro _
    | with_reducible apply State.modReg_keeps
    | with_reducible apply State.setRf_keeps
    | with_reducible apply State.writeBackAll_keeps
    | with_reducible apply State.modHbm_keeps
    | with_reducible apply Keeps.fold

theorem State.loseRepair_keeps {r0 : State} (s : State) (d : DieIx) (hs : Keeps r0 s) : Keeps r0 (State.loseRepair s d) := by
  unfold State.loseRepair
  split
  · exact hs
  · apply State.drawFree_keeps
    apply hs.fold
    intro t g ht
    with_reducible exact ht.poke _ _

theorem State.findLanes_keeps {r0 : State} (s : State) (d : DieIx) (l : List (Fin 4 × Fin 48)) (hs : Keeps r0 s) : Keeps r0 (State.findLanes s d l) := by
  unfold State.findLanes
  repeat' first
    | with_reducible assumption
    | with_reducible exact Keeps.refl _
    | intro _
    | with_reducible apply State.modHbm_keeps

theorem State.hbmTrain_keeps {r0 : State} (s : State) (d : DieIx) (named : BitVec 4) (hs : Keeps r0 s) : Keeps r0 (State.hbmTrain s d named) := by
  unfold State.hbmTrain
  repeat' first
    | with_reducible assumption
    | with_reducible exact Keeps.refl _
    | intro _
    | with_reducible apply State.modReg_keeps
    | with_reducible apply State.setRf_keeps
    | with_reducible apply Keeps.fold

theorem State.hbmFullTrain_keeps {r0 : State} (s : State) (d : DieIx) (fail92 : BitVec 4) (fail80 : BitVec 4) (hs : Keeps r0 s) : Keeps r0 (State.hbmFullTrain s d fail92 fail80) := by
  unfold State.hbmFullTrain
  repeat' first
    | with_reducible assumption
    | with_reducible exact Keeps.refl _
    | intro _
    | with_reducible apply State.setRf_keeps
    | with_reducible apply State.logEvent_keeps
    | with_reducible apply State.hbmTrain_keeps
    | with_reducible apply Keeps.ite

theorem State.dropHeld_keeps {r0 : State} (s : State) (d : DieIx) (inside : Nat → Bool) (hs : Keeps r0 s) : Keeps r0 (State.dropHeld s d inside) := by
  unfold State.dropHeld
  repeat' first
    | with_reducible assumption
    | with_reducible exact Keeps.refl _
    | intro _
    | with_reducible apply State.modDie_keeps

theorem State.resetCoreState_keeps {r0 : State} (s : State) (d : DieIx) (c : CoreIx) (hs : Keeps r0 s) : Keeps r0 (State.resetCoreState s d c) := by
  unfold State.resetCoreState
  repeat' first
    | with_reducible assumption
    | with_reducible exact Keeps.refl _
    | intro _
    | with_reducible apply State.modCore_keeps
    | with_reducible apply State.drawFree_keeps
    | with_reducible apply State.loseMem_keeps
    | with_reducible apply State.regsToReset_keeps
    | with_reducible apply State.dropHeld_keeps

theorem State.resetRowEngine_keeps {r0 : State} (s : State) (d : DieIx) (q : Fin 4) (hs : Keeps r0 s) : Keeps r0 (State.resetRowEngine s d q) := by
  unfold State.resetRowEngine
  repeat' first
    | with_reducible assumption
    | with_reducible exact Keeps.refl _
    | intro _
    | with_reducible apply State.modDie_keeps
    | with_reducible apply State.loseMem_keeps
    | with_reducible apply State.dropHeld_keeps

theorem State.interruptSlot_keeps {r0 : State} (s : State) (mask : Nat) (k : Nat) (hs : Keeps r0 s) : Keeps r0 (State.interruptSlot s mask k) := by
  unfold State.interruptSlot
  repeat' first
    | with_reducible assumption
    | with_reducible exact Keeps.refl _
    | intro _
    | with_reducible apply State.modReg_keeps
    | with_reducible apply Keeps.fold

theorem State.resetSolve_keeps {r0 : State} (s : State) (d : DieIx) (hs : Keeps r0 s) : Keeps r0 (State.resetSolve s d) := by
  unfold State.resetSolve
  repeat' first
    | with_reducible assumption
    | with_reducible exact Keeps.refl _
    | intro _
    | with_reducible apply State.cruEnd_keeps
    | with_reducible apply State.interruptSlot_keeps
    | with_reducible apply Keeps.fold
    | with_reducible apply Keeps.fold1
    | with_reducible apply Keeps.fold2
    | with_reducible apply Keeps.fold3
    | with_reducible apply Keeps.ite
    | split

theorem State.resetUncoreParts_keeps {r0 : State} (s : State) (d : DieIx) (hs : Keeps r0 s) : Keeps r0 (State.resetUncoreParts s d) := by
  unfold State.resetUncoreParts
  repeat' first
    | with_reducible assumption
    | with_reducible exact Keeps.refl _
    | intro _
    | with_reducible apply State.modDie_keeps
    | with_reducible apply State.setReg_keeps
    | with_reducible apply State.setLends_keeps
    | with_reducible apply Keeps.fold

theorem State.resetUncore_keeps {r0 : State} (s : State) (d : DieIx) (hs : Keeps r0 s) : Keeps r0 (State.resetUncore s d) := by
  unfold State.resetUncore
  repeat' first
    | with_reducible assumption
    | with_reducible exact Keeps.refl _
    | intro _
    | with_reducible apply State.modDie_keeps
    | with_reducible apply State.setRf_keeps
    | with_reducible apply State.loseMem_keeps
    | with_reducible apply State.regsToReset_keeps
    | with_reducible apply State.holdHbm_keeps
    | with_reducible apply State.loseRepair_keeps
    | with_reducible apply State.resetUncoreParts_keeps
    | with_reducible apply Keeps.ite

theorem State.mixAt_keeps {r0 : State} (s : State) (d : DieIx) (region : Nat) (off : Nat) (n : Nat) (hs : Keeps r0 s) :
    Keeps r0 (State.mixAt s d region off n) :=
  (State.drawFree_keeps s hs).updMem _ (fun h => ⟨wf_lostCells _ _ _ _ h.1,
    fold_inv (fun m => SMap.wf (fun _ => Mark.clean) m = true) _ _ _ h.2 (fun m k hm => by
      split
      · exact hm
      · exact SMap.wf_set (fun _ => Mark.clean) m k .poison hm)⟩)

theorem State.mixMul_keeps {r0 : State} (s : State) (d : DieIx) (c : CoreIx) (r : Running) (hs : Keeps r0 s) : Keeps r0 (State.mixMul s d c r) := by
  unfold State.mixMul
  repeat' first
    | with_reducible assumption
    | with_reducible exact Keeps.refl _
    | intro _
    | with_reducible apply State.mixAt_keeps
    | with_reducible apply RowAcc.run_keeps
    | with_reducible apply Keeps.fold
    | with_reducible apply Keeps.fold1
    | with_reducible apply Keeps.fold2
    | with_reducible apply Keeps.fold3
    | with_reducible apply Keeps.ite
    | split

theorem State.mixMuls_keeps {r0 : State} (s : State) (d : DieIx) (m : Domain) (hs : Keeps r0 s) : Keeps r0 (State.mixMuls s d m) := by
  unfold State.mixMuls
  repeat' first
    | with_reducible assumption
    | with_reducible exact Keeps.refl _
    | intro _
    | with_reducible apply State.mixMul_keeps
    | with_reducible apply Keeps.fold

theorem State.applyReset_keeps {r0 : State} (s' : State) (d : DieIx) (m : Domain) (hs' : Keeps r0 s') : Keeps r0 (State.applyReset s' d m) := by
  unfold State.applyReset
  repeat' first
    | with_reducible assumption
    | with_reducible exact Keeps.refl _
    | intro _
    | with_reducible apply State.modCore_keeps
    | with_reducible apply State.modReg_keeps
    | with_reducible apply State.drawFree_keeps
    | with_reducible apply State.modQueue_keeps
    | with_reducible apply State.linkDown_keeps
    | with_reducible apply State.selfRefresh_keeps
    | with_reducible apply State.resetCoreState_keeps
    | with_reducible apply State.resetRowEngine_keeps
    | with_reducible apply State.resetSolve_keeps
    | with_reducible apply State.resetUncore_keeps
    | with_reducible apply State.mixMuls_keeps
    | with_reducible apply Keeps.fold
    | with_reducible apply Keeps.fold1
    | with_reducible apply Keeps.fold2
    | with_reducible apply Keeps.fold3
    | with_reducible apply Keeps.ite
    | split

theorem State.parkCoreState_keeps {r0 : State} (s : State) (d : DieIx) (c : CoreIx) (hs : Keeps r0 s) : Keeps r0 (State.parkCoreState s d c) := by
  unfold State.parkCoreState
  repeat' first
    | with_reducible assumption
    | with_reducible exact Keeps.refl _
    | intro _
    | with_reducible apply State.modCore_keeps
    | with_reducible apply State.drawFree_keeps
    | with_reducible apply State.loseMem_keeps
    | with_reducible apply State.regsToReset_keeps
    | with_reducible apply State.dropHeld_keeps

theorem State.endAll_keeps {r0 : State} (s : State) (d : DieIx) (hs : Keeps r0 s) : Keeps r0 (State.endAll s d) := by
  unfold State.endAll
  repeat' first
    | with_reducible assumption
    | with_reducible exact Keeps.refl _
    | intro _
    | with_reducible apply State.startQueue_keeps
    | with_reducible apply State.finish_keeps
    | with_reducible apply Keeps.fold

theorem State.parkDie_keeps {r0 : State} (s : State) (d : DieIx) (hs : Keeps r0 s) : Keeps r0 (State.parkDie s d) := by
  unfold State.parkDie
  repeat' first
    | with_reducible assumption
    | with_reducible exact Keeps.refl _
    | intro _
    | with_reducible apply State.modDie_keeps
    | with_reducible apply State.setPf_keeps
    | with_reducible apply State.regsToReset_keeps
    | with_reducible apply State.setLends_keeps
    | with_reducible apply State.selfRefresh_keeps
    | with_reducible apply State.resetRowEngine_keeps
    | with_reducible apply State.parkCoreState_keeps
    | with_reducible apply State.endAll_keeps
    | with_reducible apply Keeps.fold

theorem State.countReset_keeps {r0 : State} (s : State) (d : DieIx) (m : Domain) (hs : Keeps r0 s) : Keeps r0 (State.countReset s d m) := by
  unfold State.countReset
  repeat' first
    | with_reducible assumption
    | with_reducible exact Keeps.refl _
    | intro _
    | with_reducible apply Keeps.ite
    | split
    | dsimp only
    | with_reducible apply Keeps.upd

theorem State.countModule_keeps {r0 : State} (s : State) (hs : Keeps r0 s) : Keeps r0 (State.countModule s) := by
  unfold State.countModule
  repeat' first
    | with_reducible assumption
    | with_reducible exact Keeps.refl _
    | intro _
    | with_reducible apply Keeps.ite
    | split
    | dsimp only
    | with_reducible apply Keeps.upd

theorem State.setFence_keeps {r0 : State} (s : State) (d : DieIx) (m : Domain) (hs : Keeps r0 s) : Keeps r0 (State.setFence s d m) := by
  unfold State.setFence
  repeat' first
    | with_reducible assumption
    | with_reducible exact Keeps.refl _
    | intro _
    | with_reducible apply State.modCore_keeps
    | with_reducible apply State.modReg_keeps
    | with_reducible apply State.setPstate_keeps
    | with_reducible apply State.clearPort_keeps
    | with_reducible apply Keeps.fold
    | with_reducible apply Keeps.fold1
    | with_reducible apply Keeps.fold2
    | with_reducible apply Keeps.fold3
    | with_reducible apply Keeps.ite
    | split

theorem State.outOfService_keeps {r0 : State} (s : State) (hs : Keeps r0 s) : Keeps r0 (State.outOfService s) := by
  unfold State.outOfService
  repeat' first
    | with_reducible assumption
    | with_reducible exact Keeps.refl _
    | intro _
    | with_reducible apply State.modReg_keeps
    | with_reducible apply State.drawFree_keeps
    | with_reducible apply State.unitEvent_keeps
    | with_reducible apply State.parkDie_keeps
    | with_reducible apply Keeps.fold
    | with_reducible apply Keeps.fold1
    | with_reducible apply Keeps.fold2
    | with_reducible apply Keeps.fold3
    | with_reducible apply Keeps.ite
    | split
    | dsimp only
    | with_reducible apply Keeps.upd

theorem State.fence_keeps {r0 : State} (s : State) (d : DieIx) (m : Domain) (captureOff : Nat) (hs : Keeps r0 s) : Keeps r0 (State.fence s d m captureOff) := by
  unfold State.fence
  repeat' first
    | with_reducible assumption
    | with_reducible exact Keeps.refl _
    | intro _
    | with_reducible apply State.logFrom_keeps
    | with_reducible apply State.hostEvent_keeps
    | with_reducible apply State.setFence_keeps
    | with_reducible apply State.outOfService_keeps
    | with_reducible apply Keeps.ite
    | split
    | dsimp only
    | with_reducible apply Keeps.upd

theorem State.resetStatus_keeps {r0 : State} (s : State) (d : DieIx) (hs : Keeps r0 s) : Keeps r0 (State.resetStatus s d) := by
  unfold State.resetStatus
  repeat' first
    | with_reducible assumption
    | with_reducible exact Keeps.refl _
    | intro _
    | with_reducible apply State.modReg_keeps

theorem State.startReset_keeps {r0 : State} (s : State) (d : DieIx) (m : Domain) (cause : Nat) (noCapture : Bool) (hs : Keeps r0 s) : Keeps r0 (State.startReset s d m cause noCapture) := by
  unfold State.startReset
  repeat' first
    | with_reducible assumption
    | with_reducible exact Keeps.refl _
    | intro _
    | with_reducible apply State.modDie_keeps
    | with_reducible apply State.logFrom_keeps
    | with_reducible apply State.capture_keeps
    | with_reducible apply State.bumpTags_keeps
    | with_reducible apply State.sendNotices_keeps
    | with_reducible apply State.capture411_keeps
    | with_reducible apply State.applyReset_keeps
    | with_reducible apply State.countReset_keeps
    | with_reducible apply State.fence_keeps
    | with_reducible apply State.resetStatus_keeps
    | with_reducible apply Keeps.fold
    | with_reducible apply Keeps.fold1
    | with_reducible apply Keeps.fold2
    | with_reducible apply Keeps.fold3
    | with_reducible apply Keeps.ite
    | split

theorem State.resetToFence_keeps {r0 : State} (s : State) (d : DieIx) (m : Domain) (hs : Keeps r0 s) : Keeps r0 (State.resetToFence s d m) := by
  unfold State.resetToFence
  repeat' first
    | with_reducible assumption
    | with_reducible exact Keeps.refl _
    | intro _
    | with_reducible apply State.modDie_keeps
    | with_reducible apply State.startReset_keeps

theorem State.settlePushed_keeps {r0 : State} (s : State) (d : DieIx) (q : QId) (hs : Keeps r0 s) : Keeps r0 (State.settlePushed s d q) := by
  unfold State.settlePushed
  repeat' first
    | with_reducible assumption
    | with_reducible exact Keeps.refl _
    | intro _
    | with_reducible apply State.modCore_keeps
    | with_reducible apply Keeps.ite
    | split

theorem State.abortRecords_keeps {r0 : State} (s : State) (d : DieIx) (l : List (QId × Completion)) (hs : Keeps r0 s) : Keeps r0 (State.abortRecords s d l) := by
  unfold State.abortRecords
  repeat' first
    | with_reducible assumption
    | with_reducible exact Keeps.refl _
    | intro _
    | with_reducible apply State.modQueue_keeps
    | with_reducible apply State.noteDone_keeps
    | with_reducible apply State.settlePushed_keeps
    | with_reducible apply RowAcc.step_keeps
    | with_reducible apply Keeps.fold

theorem State.backInService_keeps {r0 : State} (s : State) (d : DieIx) (m : Domain) (hs : Keeps r0 s) : Keeps r0 (State.backInService s d m) := by
  unfold State.backInService
  repeat' first
    | with_reducible assumption
    | with_reducible exact Keeps.refl _
    | intro _
    | with_reducible apply State.modCore_keeps
    | with_reducible apply State.modQueue_keeps
    | with_reducible apply State.trainPort_keeps
    | with_reducible apply State.hbmTrain_keeps
    | with_reducible apply Keeps.fold
    | with_reducible apply Keeps.fold1
    | with_reducible apply Keeps.fold2
    | with_reducible apply Keeps.fold3
    | with_reducible apply Keeps.ite
    | split

theorem State.restoreJobs_keeps {r0 : State} (s : State) (d : DieIx) (hs : Keeps r0 s) : Keeps r0 (State.restoreJobs s d) := by
  unfold State.restoreJobs
  repeat' first
    | with_reducible assumption
    | with_reducible exact Keeps.refl _
    | intro _
    | with_reducible apply State.modDie_keeps
    | with_reducible apply State.setRf_keeps
    | with_reducible apply State.sendMsg_keeps
    | with_reducible apply Keeps.fold
    | with_reducible apply Keeps.fold1
    | with_reducible apply Keeps.fold2
    | with_reducible apply Keeps.fold3
    | with_reducible apply Keeps.ite
    | split
    | dsimp only

theorem State.completeReset_keeps {r0 : State} (s : State) (d : DieIx) (m : Domain) (us : Nat) (hs : Keeps r0 s) : Keeps r0 (State.completeReset s d m us) := by
  unfold State.completeReset
  repeat' first
    | with_reducible assumption
    | with_reducible exact Keeps.refl _
    | intro _
    | with_reducible apply State.modDie_keeps
    | with_reducible apply State.setReg_keeps
    | with_reducible apply State.logFrom_keeps
    | with_reducible apply State.capture_keeps
    | with_reducible apply State.startAll_keeps
    | with_reducible apply State.fence_keeps
    | with_reducible apply State.resetStatus_keeps
    | with_reducible apply State.abortRecords_keeps
    | with_reducible apply State.backInService_keeps
    | with_reducible apply State.restoreJobs_keeps
    | with_reducible apply Keeps.ite
    | split

theorem State.escalate_keeps {r0 : State} (s : State) (d : DieIx) (m : Domain) (hs : Keeps r0 s) : Keeps r0 (State.escalate s d m).1 := by
  unfold State.escalate
  repeat' first
    | with_reducible assumption
    | with_reducible exact Keeps.refl _
    | intro _
    | with_reducible apply State.setReg_keeps
    | with_reducible apply State.logFrom_keeps
    | with_reducible apply State.startReset_keeps
    | with_reducible apply Keeps.ite
    | split

theorem State.throttleDie_keeps {r0 : State} (s : State) (d : DieIx) (hs : Keeps r0 s) : Keeps r0 (State.throttleDie s d) := by
  unfold State.throttleDie
  repeat' first
    | with_reducible assumption
    | with_reducible exact Keeps.refl _
    | intro _
    | with_reducible apply State.setPf_keeps
    | with_reducible apply Keeps.ite
    | split
    | dsimp only
    | with_reducible apply Keeps.upd

theorem State.throttleAll_keeps {r0 : State} (s : State) (hs : Keeps r0 s) : Keeps r0 (State.throttleAll s) := by
  unfold State.throttleAll
  repeat' first
    | with_reducible assumption
    | with_reducible exact Keeps.refl _
    | intro _
    | with_reducible apply State.throttleDie_keeps
    | with_reducible apply Keeps.fold

theorem State.alert_keeps {r0 : State} (s : State) (n : Nat) (hs : Keeps r0 s) : Keeps r0 (State.alert s n) := by
  unfold State.alert
  repeat' first
    | with_reducible assumption
    | with_reducible exact Keeps.refl _
    | intro _
    | with_reducible apply State.setPreg_keeps

theorem State.setSensorFails_keeps {r0 : State} (s : State) (k : Nat) (v : Nat) (hs : Keeps r0 s) : Keeps r0 (State.setSensorFails s k v) := by
  unfold State.setSensorFails
  repeat' first
    | with_reducible assumption
    | with_reducible exact Keeps.refl _
    | intro _
    | with_reducible apply Keeps.ite
    | split
    | dsimp only
    | with_reducible apply Keeps.upd

theorem State.sensed_keeps {r0 : State} (s : State) (k : Nat) (v : Option Nat) (hs : Keeps r0 s) : Keeps r0 (State.sensed s k v).1 := by
  unfold State.sensed
  repeat' first
    | with_reducible assumption
    | with_reducible exact Keeps.refl _
    | intro _
    | with_reducible apply State.alert_keeps
    | with_reducible apply State.setSensorFails_keeps
    | with_reducible apply Keeps.ite
    | split

theorem State.setPostponed_keeps {r0 : State} (s : State) (d : DieIx) (pc : Nat) (v : Nat) (hs : Keeps r0 s) : Keeps r0 (State.setPostponed s d pc v) := by
  unfold State.setPostponed
  repeat' first
    | with_reducible assumption
    | with_reducible exact Keeps.refl _
    | intro _
    | with_reducible apply State.modHbm_keeps

theorem State.refreshBank_keeps {r0 : State} (s : State) (d : DieIx) (pc : Nat) (hs : Keeps r0 s) : Keeps r0 (State.refreshBank s d pc) := by
  unfold State.refreshBank
  repeat' first
    | with_reducible assumption
    | with_reducible exact Keeps.refl _
    | intro _
    | with_reducible apply State.drawFree_keeps
    | with_reducible apply State.modHbm_keeps

theorem State.maintain_keeps {r0 : State} (s : State) (d : DieIx) (pc : Fin 128) (waits : Bool) (hs : Keeps r0 s) : Keeps r0 (State.maintain s d pc waits) := by
  unfold State.maintain
  repeat' first
    | with_reducible assumption
    | with_reducible exact Keeps.refl _
    | intro _
    | with_reducible apply State.modHbm_keeps
    | with_reducible apply State.setPostponed_keeps
    | with_reducible apply State.refreshBank_keeps
    | with_reducible apply Keeps.ite

theorem execRefresh_keeps (d : DieIx) (pc : Fin 128) (waits : Bool) (s : State) : Lawful s (execRefresh d pc waits s) := by
  unfold execRefresh
  repeat' first
    | with_reducible apply Lawful.onDie
    | with_reducible apply Lawful.next
    | with_reducible assumption
    | with_reducible exact Keeps.refl _
    | intro _
    | with_reducible apply State.maintain_keeps

theorem execRfm_keeps (d : DieIx) (pc : Fin 128) (waits : Bool) (s : State) : Lawful s (execRfm d pc waits s) := by
  unfold execRfm
  repeat' first
    | with_reducible apply Lawful.onDie
    | with_reducible apply Lawful.next
    | with_reducible assumption
    | with_reducible exact Keeps.refl _
    | intro _
    | with_reducible apply State.modHbm_keeps
    | with_reducible apply State.maintain_keeps
    | with_reducible apply Keeps.ite

theorem execPhaseUpdate_keeps (d : DieIx) (s : State) : Lawful s (execPhaseUpdate d s) := by
  unfold execPhaseUpdate
  repeat' first
    | with_reducible apply Lawful.onDie
    | with_reducible apply Lawful.next
    | with_reducible assumption
    | with_reducible exact Keeps.refl _
    | intro _
    | with_reducible apply State.modHbm_keeps
    | with_reducible apply Keeps.ite

theorem execHbmPowerDown_keeps (d : DieIx) (ch : Fin 64) (s : State) : Lawful s (execHbmPowerDown d ch s) := by
  unfold execHbmPowerDown
  repeat' first
    | with_reducible apply Lawful.onDie
    | with_reducible apply Lawful.next
    | with_reducible assumption
    | with_reducible exact Keeps.refl _
    | intro _
    | with_reducible apply State.modHbm_keeps
    | with_reducible apply Keeps.ite

theorem execPromotion_keeps (d : DieIx) (pc : Fin 128) (slot : Fin 64) (kind : Fin 10) (s : State) : Lawful s (execPromotion d pc slot kind s) := by
  unfold execPromotion
  repeat' first
    | with_reducible apply Lawful.onDie
    | with_reducible apply Lawful.next
    | with_reducible assumption
    | with_reducible exact Keeps.refl _
    | intro _
    | with_reducible apply State.modHbm_keeps
    | with_reducible apply Keeps.ite

theorem State.stackTemp_keeps {r0 : State} (s : State) (d : DieIx) (k : Fin 4) (temp : Nat) (hs : Keeps r0 s) : Keeps r0 (State.stackTemp s d k temp) := by
  unfold State.stackTemp
  repeat' first
    | with_reducible assumption
    | with_reducible exact Keeps.refl _
    | intro _
    | with_reducible apply State.modReg_keeps
    | with_reducible apply State.raise_keeps
    | with_reducible apply State.throttleDie_keeps
    | with_reducible apply Keeps.ite

theorem execTemperatureReading_keeps (d : DieIx) (k : Fin 4) (temp : Option (BitVec 8)) (s : State) : Lawful s (execTemperatureReading d k temp s) := by
  unfold execTemperatureReading
  repeat' first
    | with_reducible apply Lawful.onDie
    | with_reducible apply Lawful.next
    | with_reducible assumption
    | with_reducible exact Keeps.refl _
    | intro _
    | with_reducible apply State.modHbm_keeps
    | with_reducible apply State.stackTemp_keeps
    | with_reducible apply Keeps.ite
    | split
    | dsimp only

theorem execHbmLaneFailure_keeps (d : DieIx) (k : Fin 4) (ca : Bool) (idx : Fin 32) (s : State) : Lawful s (execHbmLaneFailure d k ca idx s) := by
  unfold execHbmLaneFailure
  repeat' first
    | with_reducible apply Lawful.onDie
    | with_reducible apply Lawful.next
    | with_reducible assumption
    | with_reducible exact Keeps.refl _
    | intro _
    | with_reducible apply State.modReg_keeps
    | with_reducible apply State.setReg64_keeps
    | with_reducible apply State.logEvent_keeps
    | with_reducible apply State.modHbm_keeps

theorem State.testResult_keeps {r0 : State} (s : State) (d : DieIx) (r : Nat) (hs : Keeps r0 s) : Keeps r0 (State.testResult s d r) := by
  unfold State.testResult
  repeat' first
    | with_reducible assumption
    | with_reducible exact Keeps.refl _
    | intro _
    | with_reducible apply State.modReg_keeps

theorem State.testGo_keeps {r0 : State} (s : State) (d : DieIx) (hs : Keeps r0 s) : Keeps r0 (State.testGo s d) := by
  unfold State.testGo
  repeat' first
    | with_reducible assumption
    | with_reducible exact Keeps.refl _
    | intro _
    | with_reducible apply State.modReg_keeps
    | with_reducible apply State.modHbm_keeps
    | with_reducible apply State.testResult_keeps
    | with_reducible apply Keeps.ite

theorem State.setTestHold_keeps {r0 : State} (s : State) (d : DieIx) (i : Issuer) (hold : Bool) (hs : Keeps r0 s) : Keeps r0 (State.setTestHold s d i hold) := by
  unfold State.setTestHold
  repeat' first
    | with_reducible assumption
    | with_reducible exact Keeps.refl _
    | intro _
    | with_reducible apply State.logIgnored_keeps
    | with_reducible apply State.holdHbm_keeps
    | with_reducible apply Keeps.ite

theorem execHbmTestGo_keeps (d : DieIx) (s : State) : Lawful s (execHbmTestGo d s) := by
  unfold execHbmTestGo
  repeat' first
    | with_reducible apply Lawful.onDie
    | with_reducible apply Lawful.next
    | with_reducible assumption
    | with_reducible exact Keeps.refl _
    | intro _
    | with_reducible apply State.testGo_keeps

theorem execTestHold_keeps (d : DieIx) (i : Issuer) (hold : Bool) (s : State) : Lawful s (execTestHold d i hold s) := by
  unfold execTestHold
  repeat' first
    | with_reducible apply Lawful.onDie
    | with_reducible apply Lawful.next
    | with_reducible assumption
    | with_reducible exact Keeps.refl _
    | intro _
    | with_reducible apply State.logIgnored_keeps
    | with_reducible apply State.setTestHold_keeps
    | with_reducible apply Keeps.ite

theorem State.shiftImage_keeps {r0 : State} (s : State) (d : DieIx) (instr : BitVec 8) (len : Nat) (hs : Keeps r0 s) : Keeps r0 (State.shiftImage s d instr len) := by
  unfold State.shiftImage
  repeat' first
    | with_reducible assumption
    | with_reducible exact Keeps.refl _
    | intro _
    | with_reducible apply State.modReg_keeps
    | with_reducible apply State.drawFree_keeps
    | with_reducible apply Keeps.fold

theorem execWrapperOperationEnd_keeps (d : DieIx) (err : Bool) (s : State) : Lawful s (execWrapperOperationEnd d err s) := by
  unfold execWrapperOperationEnd
  repeat' first
    | with_reducible apply Lawful.onDie
    | with_reducible apply Lawful.next
    | with_reducible assumption
    | with_reducible exact Keeps.refl _
    | intro _
    | with_reducible apply State.modHbm_keeps
    | with_reducible apply State.testResult_keeps
    | with_reducible apply State.shiftImage_keeps
    | with_reducible apply Keeps.ite
    | split

theorem execTestPortAccess_keeps (d : DieIx) (k : Fin 4) (take : Bool) (s : State) : Lawful s (execTestPortAccess d k take s) := by
  unfold execTestPortAccess
  repeat' first
    | with_reducible apply Lawful.onDie
    | with_reducible apply Lawful.next
    | with_reducible assumption
    | with_reducible exact Keeps.refl _
    | intro _
    | with_reducible apply State.modHbm_keeps
    | with_reducible apply State.testResult_keeps
    | with_reducible apply Keeps.ite

theorem execPoisonWriteBack_keeps (d : DieIx) (s : State) : Lawful s (execPoisonWriteBack d s) := by
  unfold execPoisonWriteBack
  repeat' first
    | with_reducible apply Lawful.onDie
    | with_reducible apply Lawful.next
    | with_reducible assumption
    | with_reducible exact Keeps.refl _
    | intro _
    | with_reducible apply State.modDie_keeps
    | with_reducible apply State.writeBackWord_keeps
    | with_reducible apply Keeps.ite
    | split

theorem State.scrubLine_keeps {r0 : State} (s : State) (d : DieIx) (off : Nat) (hs : Keeps r0 s) : Keeps r0 (State.scrubLine s d off) := by
  unfold State.scrubLine
  dsimp only
  split
  · exact (State.modDie_keeps _ _ _ (State.rowLog_keeps _ _ _ _ (State.eccEvent_keeps _ _ _ _ hs))).mark _ _
  · exact (State.modDie_keeps _ _ _ (State.rowLog_keeps _ _ _ _ (State.logEvent_keeps _ _ _ _ _ (State.eccEvent_keeps _ _ _ _ hs)))).mark _ _
  · exact hs

theorem execScrub_keeps (d : DieIx) (data : BitVec 512) (check : BitVec 32) (s : State) : Lawful s (execScrub d data check s) := by
  unfold execScrub
  apply Lawful.onDie
  dsimp only
  split
  · exact Keeps.refl s
  · exact State.modDie_keeps _ _ _ (State.scrubLine_keeps _ _ _ ((Keeps.refl s).mark _ _))

theorem execLeak_keeps (d : DieIx) (n : Fin 10) (s : State) : Lawful s (execLeak d n s) := by
  unfold execLeak
  repeat' first
    | with_reducible apply Lawful.onDie
    | with_reducible apply Lawful.next
    | with_reducible assumption
    | with_reducible exact Keeps.refl _
    | intro _
    | with_reducible apply State.modDie_keeps
    | with_reducible apply State.setRf_keeps
    | with_reducible apply Keeps.ite

theorem State.flipArm_keeps {r0 : State} (s : State) (d : DieIx) (hs : Keeps r0 s) : Keeps r0 (State.flipArm s d) := by
  unfold State.flipArm
  repeat' first
    | with_reducible assumption
    | with_reducible exact Keeps.refl _
    | intro _
    | with_reducible apply State.modReg_keeps
    | with_reducible apply State.logIgnored_keeps
    | with_reducible apply Keeps.ite

theorem execFlipArm_keeps (d : DieIx) (i : Issuer) (s : State) : Lawful s (execFlipArm d i s) := by
  unfold execFlipArm
  repeat' first
    | with_reducible apply Lawful.onDie
    | with_reducible apply Lawful.next
    | with_reducible assumption
    | with_reducible exact Keeps.refl _
    | intro _
    | with_reducible apply State.logIgnored_keeps
    | with_reducible apply State.flipArm_keeps
    | with_reducible apply Keeps.ite
    | split

theorem execEccRowlog_keeps (d : DieIx) (e : Fin 16) (valid : Bool) (s : State) : Lawful s (execEccRowlog d e valid s) := by
  unfold execEccRowlog
  repeat' first
    | with_reducible apply Lawful.onDie
    | with_reducible apply Lawful.next
    | with_reducible assumption
    | with_reducible exact Keeps.refl _
    | intro _
    | with_reducible apply State.modReg_keeps
    | with_reducible apply Keeps.ite

theorem State.advanceHead_keeps {r0 : State} (s : State) (d : DieIx) (q : QId) (hs : Keeps r0 s) : Keeps r0 (State.advanceHead s d q) := by
  unfold State.advanceHead
  repeat' first
    | with_reducible assumption
    | with_reducible exact Keeps.refl _
    | intro _
    | with_reducible apply State.setRf_keeps

theorem State.putRing_keeps {r0 : State} (s : State) (d : DieIx) (l : Loc) (bs : List Byte) (job : BitVec 12) (hs : Keeps r0 s) : Keeps r0 (State.putRing s d l bs job) := by
  unfold State.putRing
  repeat' first
    | with_reducible assumption
    | with_reducible exact Keeps.refl _
    | intro _
    | with_reducible apply State.memWrite_keeps
    | with_reducible apply State.sendMsg_keeps
    | with_reducible apply Keeps.ite

theorem State.loseRecord_keeps {r0 : State} (s : State) (d : DieIx) (r : Completion) (hs : Keeps r0 s) : Keeps r0 (State.loseRecord s d r) := by
  unfold State.loseRecord
  repeat' first
    | with_reducible assumption
    | with_reducible exact Keeps.refl _
    | intro _
    | with_reducible apply State.modDie_keeps
    | with_reducible apply State.pelCount_keeps

theorem State.writeRecord_keeps {r0 : State} (s : State) (d : DieIx) (q : QId) (r : Completion) (hs : Keeps r0 s) : Keeps r0 (State.writeRecord s d q r) := by
  unfold State.writeRecord
  repeat' first
    | with_reducible assumption
    | with_reducible exact Keeps.refl _
    | intro _
    | with_reducible apply State.raise_keeps
    | with_reducible apply State.advanceHead_keeps
    | with_reducible apply State.putRing_keeps
    | with_reducible apply State.loseRecord_keeps
    | with_reducible apply Keeps.ite

theorem State.consume_keeps {r0 : State} (s : State) (d : DieIx) (q : QId) (hs : Keeps r0 s) : Keeps r0 (State.consume s d q) := by
  unfold State.consume
  repeat' first
    | with_reducible assumption
    | with_reducible exact Keeps.refl _
    | intro _
    | with_reducible apply State.setRf_keeps

theorem State.forward_keeps {r0 : State} (s : State) (d : DieIx) (q : QId) (l : Loc) (r : Completion) (hs : Keeps r0 s) : Keeps r0 (State.forward s d q l r) := by
  unfold State.forward
  repeat' first
    | with_reducible assumption
    | with_reducible exact Keeps.refl _
    | intro _
    | with_reducible apply State.pelCount_keeps
    | with_reducible apply State.setHostQ_keeps
    | with_reducible apply State.postCq_keeps
    | with_reducible apply State.consume_keeps
    | with_reducible apply Keeps.ite
    | split

theorem State.flushRecord_keeps {r0 : State} (s : State) (d : DieIx) (q : QId) (hs : Keeps r0 s) : Keeps r0 (State.flushRecord s d q) := by
  unfold State.flushRecord
  repeat' first
    | with_reducible assumption
    | with_reducible exact Keeps.refl _
    | intro _
    | with_reducible apply State.modQueue_keeps
    | with_reducible apply State.startQueue_keeps
    | with_reducible apply State.writeRecord_keeps
    | with_reducible apply State.forward_keeps
    | with_reducible apply Keeps.ite
    | split

theorem State.drainRing_keeps {r0 : State} (s : State) (i : Fin 64) (n : Nat) (hs : Keeps r0 s) : Keeps r0 (State.drainRing s i n) := by
  induction n generalizing s with
  | zero => exact hs
  | succ n ih =>
    unfold State.drainRing
    split
    · split
      · exact ih _ (State.startQueue_keeps _ _ _ (State.postCq_keeps _ _ _ (State.consume_keeps _ _ _ (State.setHostQ_keeps _ _ _ hs))))
      · exact hs
    · exact hs

theorem execCompletionRecord_keeps (d : DieIx) (q : QId) (s : State) : Lawful s (execCompletionRecord d q s) := by
  unfold execCompletionRecord
  repeat' first
    | with_reducible apply Lawful.onDie
    | with_reducible apply Lawful.next
    | with_reducible assumption
    | with_reducible exact Keeps.refl _
    | intro _
    | with_reducible apply State.flushRecord_keeps

theorem State.fillWindow_keeps {r0 : State} (s : State) (d : DieIx) (q : QId) (c : Claim) (w : WindowWrite) (hs : Keeps r0 s) : Keeps r0 (State.fillWindow s d q c w) := by
  unfold State.fillWindow
  repeat' first
    | with_reducible assumption
    | with_reducible exact Keeps.refl _
    | intro _
    | with_reducible apply State.modQueue_keeps
    | with_reducible apply State.push_keeps
    | with_reducible apply Keeps.ite

theorem State.windowOne_keeps {r0 : State} (s : State) (d : DieIx) (q : QId) (w : WindowWrite) (hs : Keeps r0 s) : Keeps r0 (State.windowOne s d q w) := by
  unfold State.windowOne
  repeat' first
    | with_reducible assumption
    | with_reducible exact Keeps.refl _
    | intro _
    | with_reducible apply State.modQueue_keeps
    | with_reducible apply State.fillWindow_keeps
    | with_reducible apply Keeps.ite
    | split

theorem State.drainHeld_keeps {r0 : State} (s : State) (d : DieIx) (q : QId) (n : Nat) (hs : Keeps r0 s) : Keeps r0 (State.drainHeld s d q n) := by
  induction n generalizing s with
  | zero => exact hs
  | succ n ih =>
    unfold State.drainHeld
    split
    · exact hs
    · exact ih _ (State.windowOne_keeps _ _ _ _ (State.modQueue_keeps _ _ _ _ hs))

theorem State.windowWrite_keeps {r0 : State} (s : State) (d : DieIx) (q : QId) (i : Issuer) (off : Nat) (data : List Byte) (poison : Bool) (hs : Keeps r0 s) : Keeps r0 (State.windowWrite s d q i off data poison) := by
  unfold State.windowWrite
  repeat' first
    | with_reducible assumption
    | with_reducible exact Keeps.refl _
    | intro _
    | with_reducible apply State.windowOne_keeps
    | with_reducible apply State.drainHeld_keeps
    | with_reducible apply Keeps.ite

theorem execQueueWindowWrite_keeps (d : DieIx) (q : QId) (i : Issuer) (off : Fin 64) (data : List Byte) (s : State) : Lawful s (execQueueWindowWrite d q i off data s) := by
  unfold execQueueWindowWrite
  repeat' first
    | with_reducible apply Lawful.onDie
    | with_reducible apply Lawful.next
    | with_reducible assumption
    | with_reducible exact Keeps.refl _
    | intro _
    | with_reducible apply State.windowWrite_keeps

theorem execPartialDescriptorDiscard_keeps (d : DieIx) (q : QId) (s : State) : Lawful s (execPartialDescriptorDiscard d q s) := by
  unfold execPartialDescriptorDiscard
  repeat' first
    | with_reducible apply Lawful.onDie
    | with_reducible apply Lawful.next
    | with_reducible assumption
    | with_reducible exact Keeps.refl _
    | intro _
    | with_reducible apply State.logEvent_keeps
    | with_reducible apply State.modQueue_keeps
    | with_reducible apply State.drainHeld_keeps
    | with_reducible apply Keeps.ite
    | split

theorem State.ringBase_keeps {r0 : State} (s : State) (d : DieIx) (q : QId) (v : DWord) (hs : Keeps r0 s) : Keeps r0 (State.ringBase s d q v) := by
  unfold State.ringBase
  repeat' first
    | with_reducible assumption
    | with_reducible exact Keeps.refl _
    | intro _
    | with_reducible apply State.setReg_keeps
    | with_reducible apply State.setReg64_keeps
    | with_reducible apply State.logIgnored_keeps
    | with_reducible apply Keeps.ite

theorem State.ringCtl_keeps {r0 : State} (s : State) (d : DieIx) (q : QId) (v : Word) (hs : Keeps r0 s) : Keeps r0 (State.ringCtl s d q v) := by
  unfold State.ringCtl
  repeat' first
    | with_reducible assumption
    | with_reducible exact Keeps.refl _
    | intro _
    | with_reducible apply State.setReg_keeps
    | with_reducible apply State.logIgnored_keeps
    | with_reducible apply Keeps.ite

theorem State.ringTail_keeps {r0 : State} (s : State) (d : DieIx) (q : QId) (v : Word) (hs : Keeps r0 s) : Keeps r0 (State.ringTail s d q v) := by
  unfold State.ringTail
  repeat' first
    | with_reducible assumption
    | with_reducible exact Keeps.refl _
    | intro _
    | with_reducible apply State.setRf_keeps
    | with_reducible apply State.logIgnored_keeps
    | with_reducible apply State.startQueue_keeps
    | with_reducible apply Keeps.ite

theorem State.resumeCore_keeps {r0 : State} (s : State) (d : DieIx) (c : CoreIx) (hs : Keeps r0 s) : Keeps r0 (State.resumeCore s d c) := by
  unfold State.resumeCore
  repeat' first
    | with_reducible assumption
    | with_reducible exact Keeps.refl _
    | intro _
    | with_reducible apply State.modCore_keeps
    | with_reducible apply State.startQueue_keeps
    | with_reducible apply Keeps.ite

theorem State.snapCore_keeps {r0 : State} (s : State) (d : DieIx) (c : CoreIx) (hs : Keeps r0 s) : Keeps r0 (State.snapCore s d c) := by
  unfold State.snapCore
  repeat' first
    | with_reducible assumption
    | with_reducible exact Keeps.refl _
    | intro _
    | with_reducible apply State.modCore_keeps

theorem State.reseedCore_keeps {r0 : State} (s : State) (d : DieIx) (c : CoreIx) (hs : Keeps r0 s) : Keeps r0 (State.reseedCore s d c) := by
  unfold State.reseedCore
  repeat' first
    | with_reducible assumption
    | with_reducible exact Keeps.refl _
    | intro _
    | with_reducible apply State.modCore_keeps

theorem State.bilCtxWrite_keeps {r0 : State} (s : State) (d : DieIx) (i : Issuer) (c : Nat) (w : Nat) (v : Word) (hs : Keeps r0 s) : Keeps r0 (State.bilCtxWrite s d i c w v) := by
  unfold State.bilCtxWrite
  repeat' first
    | with_reducible assumption
    | with_reducible exact Keeps.refl _
    | intro _
    | with_reducible apply State.setReg_keeps
    | with_reducible apply State.logIgnored_keeps
    | with_reducible apply Keeps.ite

theorem State.rowCtxWrite_keeps {r0 : State} (s : State) (d : DieIx) (i : Issuer) (c : Nat) (off : Nat) (v : Word) (hs : Keeps r0 s) : Keeps r0 (State.rowCtxWrite s d i c off v) := by
  unfold State.rowCtxWrite
  repeat' first
    | with_reducible assumption
    | with_reducible exact Keeps.refl _
    | intro _
    | with_reducible apply State.setReg_keeps
    | with_reducible apply State.logIgnored_keeps
    | with_reducible apply Keeps.ite

theorem State.updSetWrite_keeps {r0 : State} (s : State) (d : DieIx) (i : Issuer) (k : Nat) (v : Word) (hs : Keeps r0 s) : Keeps r0 (State.updSetWrite s d i k v) := by
  unfold State.updSetWrite
  repeat' first
    | with_reducible assumption
    | with_reducible exact Keeps.refl _
    | intro _
    | with_reducible apply State.setReg_keeps
    | with_reducible apply State.logIgnored_keeps
    | with_reducible apply Keeps.ite

theorem State.reseedUpdate_keeps {r0 : State} (s : State) (d : DieIx) (hs : Keeps r0 s) : Keeps r0 (State.reseedUpdate s d) := by
  unfold State.reseedUpdate
  repeat' first
    | with_reducible assumption
    | with_reducible exact Keeps.refl _
    | intro _
    | with_reducible apply State.modDie_keeps

theorem State.reseedBucket_keeps {r0 : State} (s : State) (d : DieIx) (hs : Keeps r0 s) : Keeps r0 (State.reseedBucket s d) := by
  unfold State.reseedBucket
  repeat' first
    | with_reducible assumption
    | with_reducible exact Keeps.refl _
    | intro _
    | with_reducible apply State.modDie_keeps

theorem State.reseedReduction_keeps {r0 : State} (s : State) (d : DieIx) (hs : Keeps r0 s) : Keeps r0 (State.reseedReduction s d) := by
  unfold State.reseedReduction
  repeat' first
    | with_reducible assumption
    | with_reducible exact Keeps.refl _
    | intro _
    | with_reducible apply State.modDie_keeps

theorem State.setCmtState_keeps {r0 : State} (s : State) (d : DieIx) (k : Nat) (v : Nat) (hs : Keeps r0 s) : Keeps r0 (State.setCmtState s d k v) := by
  unfold State.setCmtState
  repeat' first
    | with_reducible assumption
    | with_reducible exact Keeps.refl _
    | intro _
    | with_reducible apply State.setRf_keeps

theorem State.armCtx_keeps {r0 : State} (s : State) (d : DieIx) (k : Nat) (hs : Keeps r0 s) : Keeps r0 (State.armCtx s d k) := by
  unfold State.armCtx
  repeat' first
    | with_reducible assumption
    | with_reducible exact Keeps.refl _
    | intro _
    | with_reducible apply State.modDie_keeps
    | with_reducible apply State.logIgnored_keeps
    | with_reducible apply State.modCommit_keeps
    | with_reducible apply State.setCmtState_keeps
    | with_reducible apply Keeps.ite

theorem State.vetoCtx_keeps {r0 : State} (s : State) (d : DieIx) (k : Nat) (hs : Keeps r0 s) : Keeps r0 (State.vetoCtx s d k) := by
  unfold State.vetoCtx
  repeat' first
    | with_reducible assumption
    | with_reducible exact Keeps.refl _
    | intro _
    | with_reducible apply State.modDie_keeps
    | with_reducible apply Keeps.ite

theorem State.cmtCtlWrite_keeps {r0 : State} (s : State) (d : DieIx) (k : Nat) (v : Word) (hs : Keeps r0 s) : Keeps r0 (State.cmtCtlWrite s d k v) := by
  unfold State.cmtCtlWrite
  repeat' first
    | with_reducible assumption
    | with_reducible exact Keeps.refl _
    | intro _
    | with_reducible apply State.setReg_keeps
    | with_reducible apply State.armCtx_keeps
    | with_reducible apply State.vetoCtx_keeps
    | with_reducible apply Keeps.ite

theorem State.cmtStrokeWrite_keeps {r0 : State} (s : State) (d : DieIx) (k : Nat) (off : Nat) (v : Word) (hs : Keeps r0 s) : Keeps r0 (State.cmtStrokeWrite s d k off v) := by
  unfold State.cmtStrokeWrite
  repeat' first
    | with_reducible assumption
    | with_reducible exact Keeps.refl _
    | intro _
    | with_reducible apply State.setReg_keeps
    | with_reducible apply State.logIgnored_keeps
    | with_reducible apply Keeps.ite

theorem State.colCtxWrite_keeps {r0 : State} (s : State) (d : DieIx) (i : Issuer) (k : Nat) (w : Nat) (v : Word) (hs : Keeps r0 s) : Keeps r0 (State.colCtxWrite s d i k w v) := by
  unfold State.colCtxWrite
  repeat' first
    | with_reducible assumption
    | with_reducible exact Keeps.refl _
    | intro _
    | with_reducible apply State.setReg_keeps
    | with_reducible apply State.logIgnored_keeps
    | with_reducible apply Keeps.ite

theorem State.colGrpBase_keeps {r0 : State} (s : State) (d : DieIx) (i : Issuer) (k : Nat) (v : DWord) (hs : Keeps r0 s) : Keeps r0 (State.colGrpBase s d i k v) := by
  unfold State.colGrpBase
  repeat' first
    | with_reducible assumption
    | with_reducible exact Keeps.refl _
    | intro _
    | with_reducible apply State.setReg64_keeps
    | with_reducible apply State.logIgnored_keeps
    | with_reducible apply Keeps.ite

theorem State.resetCtl_keeps {r0 : State} (s : State) (d : DieIx) (i : Issuer) (v : Word) (hs : Keeps r0 s) : Keeps r0 (State.resetCtl s d i v) := by
  unfold State.resetCtl
  repeat' first
    | with_reducible assumption
    | with_reducible exact Keeps.refl _
    | intro _
    | with_reducible apply State.setReg_keeps
    | with_reducible apply State.logIgnored_keeps
    | with_reducible apply State.startReset_keeps
    | with_reducible apply Keeps.ite

theorem State.qfree_keeps {r0 : State} (s : State) (d : DieIx) (i : Issuer) (v : Word) (hs : Keeps r0 s) : Keeps r0 (State.qfree s d i v) := by
  unfold State.qfree
  repeat' first
    | with_reducible assumption
    | with_reducible exact Keeps.refl _
    | intro _
    | with_reducible apply State.modReg_keeps
    | with_reducible apply State.logIgnored_keeps
    | with_reducible apply Keeps.ite

theorem State.reenablePort_keeps {r0 : State} (s : State) (d : DieIx) (p : PortIx) (i : Issuer) (hs : Keeps r0 s) : Keeps r0 (State.reenablePort s d p i) := by
  unfold State.reenablePort
  repeat' first
    | with_reducible assumption
    | with_reducible exact Keeps.refl _
    | intro _
    | with_reducible apply State.logIgnored_keeps
    | with_reducible apply State.modPort_keeps
    | with_reducible apply State.trainPort_keeps
    | with_reducible apply Keeps.ite

theorem State.disablePort_keeps {r0 : State} (s : State) (d : DieIx) (p : PortIx) (i : Issuer) (on : Bool) (hs : Keeps r0 s) : Keeps r0 (State.disablePort s d p i on) := by
  unfold State.disablePort
  repeat' first
    | with_reducible assumption
    | with_reducible exact Keeps.refl _
    | intro _
    | with_reducible apply State.modReg_keeps
    | with_reducible apply State.logIgnored_keeps
    | with_reducible apply State.modPort_keeps
    | with_reducible apply State.setPstate_keeps
    | with_reducible apply State.setCause_keeps
    | with_reducible apply State.discDone_keeps
    | with_reducible apply State.linkDown_keeps
    | with_reducible apply State.trainPort_keeps
    | with_reducible apply Keeps.ite

theorem State.capCtlWrite_keeps {r0 : State} (s : State) (d : DieIx) (v : Word) (hs : Keeps r0 s) : Keeps r0 (State.capCtlWrite s d v) := by
  unfold State.capCtlWrite
  repeat' first
    | with_reducible assumption
    | with_reducible exact Keeps.refl _
    | intro _
    | with_reducible apply State.setReg_keeps
    | with_reducible apply State.modReg_keeps
    | with_reducible apply State.setReg64_keeps
    | with_reducible apply Keeps.fold
    | with_reducible apply Keeps.fold1
    | with_reducible apply Keeps.fold2
    | with_reducible apply Keeps.fold3
    | with_reducible apply Keeps.ite

theorem State.testCtlWrite_keeps {r0 : State} (s : State) (d : DieIx) (i : Issuer) (v : Word) (hs : Keeps r0 s) : Keeps r0 (State.testCtlWrite s d i v) := by
  unfold State.testCtlWrite
  repeat' first
    | with_reducible assumption
    | with_reducible exact Keeps.refl _
    | intro _
    | with_reducible apply State.modReg_keeps
    | with_reducible apply State.logIgnored_keeps
    | with_reducible apply State.testGo_keeps
    | with_reducible apply State.setTestHold_keeps
    | with_reducible apply Keeps.ite

theorem State.stkStatusWrite_keeps {r0 : State} (s : State) (d : DieIx) (k : Nat) (v : Word) (hs : Keeps r0 s) : Keeps r0 (State.stkStatusWrite s d k v) := by
  unfold State.stkStatusWrite
  repeat' first
    | with_reducible assumption
    | with_reducible exact Keeps.refl _
    | intro _
    | with_reducible apply State.modReg_keeps
    | with_reducible apply State.setReg64_keeps

theorem State.plainWrite_keeps {r0 : State} (s : State) (d : DieIx) (i : Issuer) (off : Nat) (v : Word) (hs : Keeps r0 s) : Keeps r0 (State.plainWrite s d i off v) := by
  unfold State.plainWrite
  repeat' first
    | with_reducible assumption
    | with_reducible exact Keeps.refl _
    | intro _
    | with_reducible apply State.setReg_keeps
    | with_reducible apply State.pelCount_keeps
    | with_reducible apply State.logIgnored_keeps
    | with_reducible apply Keeps.ite

theorem State.qosWrite_keeps {r0 : State} (s : State) (d : DieIx) (i : Issuer) (v : Word) (hs : Keeps r0 s) : Keeps r0 (State.qosWrite s d i v) := by
  unfold State.qosWrite
  repeat' first
    | with_reducible assumption
    | with_reducible exact Keeps.refl _
    | intro _
    | with_reducible apply State.modHbm_keeps
    | with_reducible apply State.plainWrite_keeps

theorem State.wideWrite_keeps {r0 : State} (s : State) (d : DieIx) (i : Issuer) (off : Nat) (v : DWord) (hs : Keeps r0 s) : Keeps r0 (State.wideWrite s d i off v) := by
  unfold State.wideWrite
  repeat' first
    | with_reducible assumption
    | with_reducible exact Keeps.refl _
    | intro _
    | with_reducible apply State.modReg_keeps
    | with_reducible apply State.ringBase_keeps
    | with_reducible apply State.colGrpBase_keeps
    | with_reducible apply State.plainWrite_keeps
    | with_reducible apply Keeps.ite
    | split

theorem State.wordWrite_keeps {r0 : State} (s : State) (d : DieIx) (i : Issuer) (off : Nat) (v : Word) (hs : Keeps r0 s) : Keeps r0 (State.wordWrite s d i off v) := by
  unfold State.wordWrite
  repeat' first
    | with_reducible assumption
    | with_reducible exact Keeps.refl _
    | intro _
    | with_reducible apply State.setReg_keeps
    | with_reducible apply State.setRf_keeps
    | with_reducible apply State.logIgnored_keeps
    | with_reducible apply State.flipArm_keeps
    | with_reducible apply State.ringCtl_keeps
    | with_reducible apply State.ringTail_keeps
    | with_reducible apply State.resumeCore_keeps
    | with_reducible apply State.snapCore_keeps
    | with_reducible apply State.reseedCore_keeps
    | with_reducible apply State.bilCtxWrite_keeps
    | with_reducible apply State.rowCtxWrite_keeps
    | with_reducible apply State.updSetWrite_keeps
    | with_reducible apply State.reseedUpdate_keeps
    | with_reducible apply State.reseedBucket_keeps
    | with_reducible apply State.reseedReduction_keeps
    | with_reducible apply State.cmtCtlWrite_keeps
    | with_reducible apply State.cmtStrokeWrite_keeps
    | with_reducible apply State.colCtxWrite_keeps
    | with_reducible apply State.resetCtl_keeps
    | with_reducible apply State.qfree_keeps
    | with_reducible apply State.reenablePort_keeps
    | with_reducible apply State.disablePort_keeps
    | with_reducible apply State.capCtlWrite_keeps
    | with_reducible apply State.testCtlWrite_keeps
    | with_reducible apply State.stkStatusWrite_keeps
    | with_reducible apply State.plainWrite_keeps
    | with_reducible apply State.qosWrite_keeps
    | with_reducible apply Keeps.ite
    | split

theorem State.writeReg4_keeps {r0 : State} (s : State) (d : DieIx) (i : Issuer) (off : Nat) (v : Word) (poison : Bool) (hs : Keeps r0 s) : Keeps r0 (State.writeReg4 s d i off v poison) := by
  unfold State.writeReg4
  repeat' first
    | with_reducible assumption
    | with_reducible exact Keeps.refl _
    | intro _
    | with_reducible apply State.modDie_keeps
    | with_reducible apply State.windowWrite_keeps
    | with_reducible apply State.wideWrite_keeps
    | with_reducible apply State.wordWrite_keeps
    | with_reducible apply Keeps.ite
    | split

theorem State.writeReg8_keeps {r0 : State} (s : State) (d : DieIx) (i : Issuer) (off : Nat) (v : DWord) (poison : Bool) (hs : Keeps r0 s) : Keeps r0 (State.writeReg8 s d i off v poison) := by
  unfold State.writeReg8
  repeat' first
    | with_reducible assumption
    | with_reducible exact Keeps.refl _
    | intro _
    | with_reducible apply State.windowWrite_keeps
    | with_reducible apply State.wideWrite_keeps
    | with_reducible apply State.writeReg4_keeps
    | with_reducible apply Keeps.ite
    | split

theorem State.readReg4_keeps {r0 : State} (s : State) (d : DieIx) (i : Issuer) (off : Nat) (hs : Keeps r0 s) : Keeps r0 (State.readReg4 s d i off).2 := by
  unfold State.readReg4
  repeat' first
    | with_reducible assumption
    | with_reducible exact Keeps.refl _
    | intro _
    | with_reducible apply State.modDie_keeps
    | with_reducible apply Keeps.ite
    | split

theorem execRegisterWrite_keeps (d : DieIx) (i : Issuer) (off : Fin 1048576) (v : Word) (high : Option Word) (s : State) : Lawful s (execRegisterWrite d i off v high s) := by
  unfold execRegisterWrite
  repeat' first
    | with_reducible apply Lawful.onDie
    | with_reducible apply Lawful.next
    | with_reducible assumption
    | with_reducible exact Keeps.refl _
    | intro _
    | with_reducible apply State.writeReg4_keeps
    | with_reducible apply State.writeReg8_keeps
    | with_reducible apply Keeps.ite
    | split

theorem execCoreCrBase_keeps (d : DieIx) (c : CoreIx) (v : DWord) (s : State) : Lawful s (execCoreCrBase d c v s) := by
  unfold execCoreCrBase
  repeat' first
    | with_reducible apply Lawful.onDie
    | with_reducible apply Lawful.next
    | with_reducible assumption
    | with_reducible exact Keeps.refl _
    | intro _
    | with_reducible apply State.ringBase_keeps

theorem execCoreCrCtl_keeps (d : DieIx) (c : CoreIx) (v : Word) (s : State) : Lawful s (execCoreCrCtl d c v s) := by
  unfold execCoreCrCtl
  repeat' first
    | with_reducible apply Lawful.onDie
    | with_reducible apply Lawful.next
    | with_reducible assumption
    | with_reducible exact Keeps.refl _
    | intro _
    | with_reducible apply State.ringCtl_keeps

theorem execCoreCrPtr_keeps (d : DieIx) (c : CoreIx) (v : Word) (s : State) : Lawful s (execCoreCrPtr d c v s) := by
  unfold execCoreCrPtr
  repeat' first
    | with_reducible apply Lawful.onDie
    | with_reducible apply Lawful.next
    | with_reducible assumption
    | with_reducible exact Keeps.refl _
    | intro _
    | with_reducible apply State.ringTail_keeps

theorem execSnap_keeps (d : DieIx) (c : CoreIx) (s : State) : Lawful s (execSnap d c s) := by
  unfold execSnap
  repeat' first
    | with_reducible apply Lawful.onDie
    | with_reducible apply Lawful.next
    | with_reducible assumption
    | with_reducible exact Keeps.refl _
    | intro _
    | with_reducible apply State.snapCore_keeps

theorem execReseed_keeps (d : DieIx) (c : CoreIx) (s : State) : Lawful s (execReseed d c s) := by
  unfold execReseed
  repeat' first
    | with_reducible apply Lawful.onDie
    | with_reducible apply Lawful.next
    | with_reducible assumption
    | with_reducible exact Keeps.refl _
    | intro _
    | with_reducible apply State.reseedCore_keeps

theorem execResume_keeps (d : DieIx) (c : CoreIx) (s : State) : Lawful s (execResume d c s) := by
  unfold execResume
  repeat' first
    | with_reducible apply Lawful.onDie
    | with_reducible apply Lawful.next
    | with_reducible assumption
    | with_reducible exact Keeps.refl _
    | intro _
    | with_reducible apply State.resumeCore_keeps

theorem execBilCtxCfg_keeps (d : DieIx) (i : Issuer) (c : Fin 16) (v : Word) (s : State) : Lawful s (execBilCtxCfg d i c v s) := by
  unfold execBilCtxCfg
  repeat' first
    | with_reducible apply Lawful.onDie
    | with_reducible apply Lawful.next
    | with_reducible assumption
    | with_reducible exact Keeps.refl _
    | intro _
    | with_reducible apply State.bilCtxWrite_keeps

theorem execBilCtxBase_keeps (d : DieIx) (i : Issuer) (c : Fin 16) (v : Word) (s : State) : Lawful s (execBilCtxBase d i c v s) := by
  unfold execBilCtxBase
  repeat' first
    | with_reducible apply Lawful.onDie
    | with_reducible apply Lawful.next
    | with_reducible assumption
    | with_reducible exact Keeps.refl _
    | intro _
    | with_reducible apply State.bilCtxWrite_keeps

theorem execBilCtxSize_keeps (d : DieIx) (i : Issuer) (c : Fin 16) (v : Word) (s : State) : Lawful s (execBilCtxSize d i c v s) := by
  unfold execBilCtxSize
  repeat' first
    | with_reducible apply Lawful.onDie
    | with_reducible apply Lawful.next
    | with_reducible assumption
    | with_reducible exact Keeps.refl _
    | intro _
    | with_reducible apply State.bilCtxWrite_keeps

theorem execRowCtxBase_keeps (d : DieIx) (i : Issuer) (c : Fin 16) (v : Word) (s : State) : Lawful s (execRowCtxBase d i c v s) := by
  unfold execRowCtxBase
  repeat' first
    | with_reducible apply Lawful.onDie
    | with_reducible apply Lawful.next
    | with_reducible assumption
    | with_reducible exact Keeps.refl _
    | intro _
    | with_reducible apply State.rowCtxWrite_keeps

theorem execRowCtxGeom_keeps (d : DieIx) (i : Issuer) (c : Fin 16) (v : Word) (s : State) : Lawful s (execRowCtxGeom d i c v s) := by
  unfold execRowCtxGeom
  repeat' first
    | with_reducible apply Lawful.onDie
    | with_reducible apply Lawful.next
    | with_reducible assumption
    | with_reducible exact Keeps.refl _
    | intro _
    | with_reducible apply State.rowCtxWrite_keeps

theorem execUpdSet_keeps (d : DieIx) (i : Issuer) (k : CtxIx) (v : Word) (s : State) : Lawful s (execUpdSet d i k v s) := by
  unfold execUpdSet
  repeat' first
    | with_reducible apply Lawful.onDie
    | with_reducible apply Lawful.next
    | with_reducible assumption
    | with_reducible exact Keeps.refl _
    | intro _
    | with_reducible apply State.updSetWrite_keeps

theorem execUpdReseed_keeps (d : DieIx) (s : State) : Lawful s (execUpdReseed d s) := by
  unfold execUpdReseed
  repeat' first
    | with_reducible apply Lawful.onDie
    | with_reducible apply Lawful.next
    | with_reducible assumption
    | with_reducible exact Keeps.refl _
    | intro _
    | with_reducible apply State.reseedUpdate_keeps

theorem execBktReseed_keeps (d : DieIx) (s : State) : Lawful s (execBktReseed d s) := by
  unfold execBktReseed
  repeat' first
    | with_reducible apply Lawful.onDie
    | with_reducible apply Lawful.next
    | with_reducible assumption
    | with_reducible exact Keeps.refl _
    | intro _
    | with_reducible apply State.reseedBucket_keeps

theorem execColReseed_keeps (d : DieIx) (s : State) : Lawful s (execColReseed d s) := by
  unfold execColReseed
  repeat' first
    | with_reducible apply Lawful.onDie
    | with_reducible apply Lawful.next
    | with_reducible assumption
    | with_reducible exact Keeps.refl _
    | intro _
    | with_reducible apply State.reseedReduction_keeps

theorem execArm_keeps (d : DieIx) (k : CtxIx) (s : State) : Lawful s (execArm d k s) := by
  unfold execArm
  repeat' first
    | with_reducible apply Lawful.onDie
    | with_reducible apply Lawful.next
    | with_reducible assumption
    | with_reducible exact Keeps.refl _
    | intro _
    | with_reducible apply State.armCtx_keeps

theorem execVeto_keeps (d : DieIx) (k : CtxIx) (s : State) : Lawful s (execVeto d k s) := by
  unfold execVeto
  repeat' first
    | with_reducible apply Lawful.onDie
    | with_reducible apply Lawful.next
    | with_reducible assumption
    | with_reducible exact Keeps.refl _
    | intro _
    | with_reducible apply State.vetoCtx_keeps

theorem execUpdCmtC_keeps (d : DieIx) (k : CtxIx) (hi : Bool) (v : Word) (s : State) : Lawful s (execUpdCmtC d k hi v s) := by
  unfold execUpdCmtC
  repeat' first
    | with_reducible apply Lawful.onDie
    | with_reducible apply Lawful.next
    | with_reducible assumption
    | with_reducible exact Keeps.refl _
    | intro _
    | with_reducible apply State.cmtStrokeWrite_keeps

theorem execColCtxCfg_keeps (d : DieIx) (i : Issuer) (k : CtxIx) (v : Word) (s : State) : Lawful s (execColCtxCfg d i k v s) := by
  unfold execColCtxCfg
  repeat' first
    | with_reducible apply Lawful.onDie
    | with_reducible apply Lawful.next
    | with_reducible assumption
    | with_reducible exact Keeps.refl _
    | intro _
    | with_reducible apply State.colCtxWrite_keeps

theorem execColCtxNext_keeps (d : DieIx) (i : Issuer) (k : CtxIx) (v : Word) (s : State) : Lawful s (execColCtxNext d i k v s) := by
  unfold execColCtxNext
  repeat' first
    | with_reducible apply Lawful.onDie
    | with_reducible apply Lawful.next
    | with_reducible assumption
    | with_reducible exact Keeps.refl _
    | intro _
    | with_reducible apply State.colCtxWrite_keeps

theorem execColCtxAtLo_keeps (d : DieIx) (i : Issuer) (k : CtxIx) (v : Word) (s : State) : Lawful s (execColCtxAtLo d i k v s) := by
  unfold execColCtxAtLo
  repeat' first
    | with_reducible apply Lawful.onDie
    | with_reducible apply Lawful.next
    | with_reducible assumption
    | with_reducible exact Keeps.refl _
    | intro _
    | with_reducible apply State.colCtxWrite_keeps

theorem execColCtxGrpBase_keeps (d : DieIx) (i : Issuer) (k : CtxIx) (v : DWord) (s : State) : Lawful s (execColCtxGrpBase d i k v s) := by
  unfold execColCtxGrpBase
  repeat' first
    | with_reducible apply Lawful.onDie
    | with_reducible apply Lawful.next
    | with_reducible assumption
    | with_reducible exact Keeps.refl _
    | intro _
    | with_reducible apply State.colGrpBase_keeps

theorem execColAlg_keeps (d : DieIx) (i : Issuer) (v : Word) (s : State) : Lawful s (execColAlg d i v s) := by
  unfold execColAlg
  repeat' first
    | with_reducible apply Lawful.onDie
    | with_reducible apply Lawful.next
    | with_reducible assumption
    | with_reducible exact Keeps.refl _
    | intro _
    | with_reducible apply State.plainWrite_keeps

theorem execHltResetCtl_keeps (d : DieIx) (i : Issuer) (v : Word) (s : State) : Lawful s (execHltResetCtl d i v s) := by
  unfold execHltResetCtl
  repeat' first
    | with_reducible apply Lawful.onDie
    | with_reducible apply Lawful.next
    | with_reducible assumption
    | with_reducible exact Keeps.refl _
    | intro _
    | with_reducible apply State.resetCtl_keeps

theorem execAsyQfree_keeps (d : DieIx) (i : Issuer) (v : Word) (s : State) : Lawful s (execAsyQfree d i v s) := by
  unfold execAsyQfree
  repeat' first
    | with_reducible apply Lawful.onDie
    | with_reducible apply Lawful.next
    | with_reducible assumption
    | with_reducible exact Keeps.refl _
    | intro _
    | with_reducible apply State.qfree_keeps

theorem execReenable_keeps (d : DieIx) (p : PortIx) (i : Issuer) (s : State) : Lawful s (execReenable d p i s) := by
  unfold execReenable
  repeat' first
    | with_reducible apply Lawful.onDie
    | with_reducible apply Lawful.next
    | with_reducible assumption
    | with_reducible exact Keeps.refl _
    | intro _
    | with_reducible apply State.reenablePort_keeps

theorem execDisable_keeps (d : DieIx) (p : PortIx) (i : Issuer) (on : Bool) (s : State) : Lawful s (execDisable d p i on s) := by
  unfold execDisable
  repeat' first
    | with_reducible apply Lawful.onDie
    | with_reducible apply Lawful.next
    | with_reducible assumption
    | with_reducible exact Keeps.refl _
    | intro _
    | with_reducible apply State.disablePort_keeps

theorem execStkCapCtl_keeps (d : DieIx) (v : Word) (s : State) : Lawful s (execStkCapCtl d v s) := by
  unfold execStkCapCtl
  repeat' first
    | with_reducible apply Lawful.onDie
    | with_reducible apply Lawful.next
    | with_reducible assumption
    | with_reducible exact Keeps.refl _
    | intro _
    | with_reducible apply State.capCtlWrite_keeps

end Sys2Proof.Machine
end

