-- ==== Sys2Proof/Laws/KeepsCores.lean ====
section
/-! SUPPORT. That every operation keeps what Keeps states: accesses and the units of a core, with the billet stack. -/

namespace Sys2Proof.Machine

theorem State.accumulate_keeps {r0 : State} (s : State) (a : Access) (d : DieIx) (b : Bucket) (off : Nat) (bs : List Byte) (ps : List Bool) (hs : Keeps r0 s) : Keeps r0 (State.accumulate s a d b off bs ps) := by
  unfold State.accumulate
  repeat' first
    | with_reducible assumption
    | with_reducible exact Keeps.refl _
    | intro _
    | with_reducible apply State.modDie_keeps
    | with_reducible apply State.memRead_keeps
    | with_reducible apply State.memWrite_keeps

theorem State.writeLocal_keeps {r0 : State} (s : State) (a : Access) (d : DieIx) (region : Nat) (off : Nat) (bs : List Byte) (ps : List Bool) (hs : Keeps r0 s) : Keeps r0 (State.writeLocal s a d region off bs ps) := by
  unfold State.writeLocal
  repeat' first
    | with_reducible assumption
    | with_reducible exact Keeps.refl _
    | intro _
    | with_reducible apply State.memWrite_keeps
    | with_reducible apply State.accumulate_keeps
    | with_reducible apply Keeps.ite
    | split

theorem State.countService_keeps {r0 : State} (s : State) (hit : Bool) (hs : Keeps r0 s) : Keeps r0 (State.countService s hit) := by
  unfold State.countService
  repeat' first
    | with_reducible assumption
    | with_reducible exact Keeps.refl _
    | intro _
    | with_reducible apply State.pelCount_keeps
    | with_reducible apply Keeps.ite

theorem State.sendReq_keeps {r0 : State} (s : State) (d : DieIx) (q : QId) (r : Running) (write : Bool) (a : BoardAddr) (len : Nat) (data : List Byte) (ps : List Bool) (hs : Keeps r0 s) : Keeps r0 (State.sendReq s d q r write a len data ps) := by
  unfold State.sendReq
  repeat' first
    | with_reducible assumption
    | with_reducible exact Keeps.refl _
    | intro _
    | with_reducible apply State.modDie_keeps
    | with_reducible apply State.sendMsg_keeps

theorem State.readRegs_keeps {r0 : State} (s : State) (d : DieIx) (i : Issuer) (n off : Nat) (hs : Keeps r0 s) :
    Keeps r0 (State.readRegs s d i n off).2 := by
  induction n generalizing s off with
  | zero => exact hs
  | succ n ih => exact ih _ _ (State.readReg4_keeps _ _ _ _ hs)

theorem State.writeRegs_keeps {r0 : State} (s : State) (d : DieIx) (i : Issuer) (n off : Nat) (bs : List Byte) (ps : List Bool) (hs : Keeps r0 s) :
    Keeps r0 (State.writeRegs s d i n off bs ps) := by
  induction n generalizing s off bs ps with
  | zero => exact hs
  | succ n ih => exact ih _ _ _ _ (State.writeReg4_keeps _ _ _ _ _ _ hs)

/-- What a read that is attempted leaves. -/
def Fetch.Keeps (r : State) : Fetch → Prop
  | .data _ _ t => Machine.Keeps r t
  | .wait t => Machine.Keeps r t
  | .stop _ => True

theorem State.fetch_all {r0 : State} (s : State) (d : DieIx) (q : QId) (r : Running) (a : BoardAddr) (n : Nat) (hs : Keeps r0 s) :
    (s.fetch d q r a n).Keeps r0 := by
  unfold State.fetch
  dsimp only
  split
  · exact hs
  split
  · split
    · trivial
    · exact hs
    · split
      · exact State.readRegs_keeps _ _ _ _ _ hs
      · exact State.memRead_keeps _ _ _ _ _ _ hs
  · split
    · split
      · exact hs
      · exact hs
    split
    · trivial
    · exact Keeps.fold hs (fun t p ht => State.sendReq_keeps _ _ _ _ _ _ _ _ _ ht)

theorem State.fetch_data {r0 s t : State} {d : DieIx} {q : QId} {r : Running} {a : BoardAddr} {n : Nat} {bs : List Byte} {ms : List Bool}
    (e : s.fetch d q r a n = .data bs ms t) (hs : Keeps r0 s) : Keeps r0 t := by
  have h := State.fetch_all s d q r a n hs
  rw [e] at h; exact h

theorem State.fetch_wait {r0 s t : State} {d : DieIx} {q : QId} {r : Running} {a : BoardAddr} {n : Nat}
    (e : s.fetch d q r a n = .wait t) (hs : Keeps r0 s) : Keeps r0 t := by
  have h := State.fetch_all s d q r a n hs
  rw [e] at h; exact h

theorem State.ask_keeps {r0 : State} (s : State) (d : DieIx) (q : QId) (r : Running) (l : List (BoardAddr × Nat)) (hs : Keeps r0 s) :
    Keeps r0 (State.ask s d q r l).1 := by
  unfold State.ask
  apply Keeps.fold1 hs
  intro t a ht
  repeat' split
  · exact ht
  · exact ht
  · exact State.fetch_wait (by assumption) ht
  · exact ht

/-- What a read of several places leaves. -/
def FetchAll.Keeps (r : State) : FetchAll → Prop
  | .data _ t => Machine.Keeps r t
  | .wait t => Machine.Keeps r t
  | .stop _ => True

theorem State.fetchEach_all {r0 : State} (s : State) (d : DieIx) (q : QId) (r : Running) (l : List (BoardAddr × Nat)) (hs : Keeps r0 s) :
    (State.fetchEach d q r l s).Keeps r0 := by
  induction l generalizing s with
  | nil => exact hs
  | cons p ps ih =>
    unfold State.fetchEach
    split
    · trivial
    · exact State.fetch_wait (by assumption) hs
    · rename_i t e
      have h := ih _ (State.fetch_data e hs)
      split
      · rename_i e2; rw [e2] at h; exact h
      · exact h

theorem State.fetchAll_all {r0 : State} (s : State) (d : DieIx) (q : QId) (r : Running) (l : List (BoardAddr × Nat)) (hs : Keeps r0 s) :
    (s.fetchAll d q r l).Keeps r0 := by
  unfold State.fetchAll
  dsimp only
  split
  · exact State.fetchEach_all _ _ _ _ _ hs
  · exact State.ask_keeps _ _ _ _ _ hs

theorem State.fetchAll_data {r0 s t : State} {d : DieIx} {q : QId} {r : Running} {l : List (BoardAddr × Nat)} {bs : List (List Byte × List Bool)}
    (e : s.fetchAll d q r l = .data bs t) (hs : Keeps r0 s) : Keeps r0 t := by
  have h := State.fetchAll_all s d q r l hs
  rw [e] at h; exact h

theorem State.fetchAll_wait {r0 s t : State} {d : DieIx} {q : QId} {r : Running} {l : List (BoardAddr × Nat)}
    (e : s.fetchAll d q r l = .wait t) (hs : Keeps r0 s) : Keeps r0 t := by
  have h := State.fetchAll_all s d q r l hs
  rw [e] at h; exact h

theorem State.put_keeps {r0 : State} (s : State) (d : DieIx) (q : QId) (r : Running) (a : BoardAddr) (bs : List Byte) (ps : List Bool) (hs : Keeps r0 s) : Keeps r0 (State.put s d q r a bs ps) := by
  unfold State.put
  repeat' first
    | with_reducible assumption
    | with_reducible exact Keeps.refl _
    | intro _
    | with_reducible apply State.writeLocal_keeps
    | with_reducible apply State.sendReq_keeps
    | with_reducible apply State.writeRegs_keeps
    | with_reducible apply Keeps.fold
    | with_reducible apply Keeps.fold1
    | with_reducible apply Keeps.fold2
    | with_reducible apply Keeps.fold3
    | with_reducible apply Keeps.ite

theorem State.putAll_keeps {r0 : State} (s : State) (d : DieIx) (q : QId) (r : Running) (l : List (BoardAddr × List Byte × List Bool)) (hs : Keeps r0 s) : Keeps r0 (State.putAll s d q r l) := by
  unfold State.putAll
  repeat' first
    | with_reducible assumption
    | with_reducible exact Keeps.refl _
    | intro _
    | with_reducible apply State.put_keeps
    | with_reducible apply Keeps.fold

theorem State.dropReqs_keeps {r0 : State} (s : State) (d : DieIx) (q : QId) (r : Running) (hs : Keeps r0 s) : Keeps r0 (State.dropReqs s d q r) := by
  unfold State.dropReqs
  repeat' first
    | with_reducible assumption
    | with_reducible exact Keeps.refl _
    | intro _
    | with_reducible apply State.modDie_keeps

theorem State.dropReads_keeps {r0 : State} (s : State) (d : DieIx) (q : QId) (r : Running) (hs : Keeps r0 s) : Keeps r0 (State.dropReads s d q r) := by
  unfold State.dropReads
  repeat' first
    | with_reducible assumption
    | with_reducible exact Keeps.refl _
    | intro _
    | with_reducible apply State.modDie_keeps

theorem State.setRunning_keeps {r0 : State} (s : State) (d : DieIx) (q : QId) (r : Running) (hs : Keeps r0 s) : Keeps r0 (State.setRunning s d q r) := by
  unfold State.setRunning
  repeat' first
    | with_reducible assumption
    | with_reducible exact Keeps.refl _
    | intro _
    | with_reducible apply State.modQueue_keeps

theorem State.setSeg_keeps {r0 : State} (s : State) (d : DieIx) (c : Nat) (top : Nat) (depth : Nat) (hs : Keeps r0 s) : Keeps r0 (State.setSeg s d c top depth) := by
  unfold State.setSeg
  repeat' first
    | with_reducible assumption
    | with_reducible exact Keeps.refl _
    | intro _
    | with_reducible apply State.setReg_keeps
    | with_reducible apply Keeps.ite

theorem State.unpop_keeps {r0 : State} (s : State) (d : DieIx) (r : Running) (hs : Keeps r0 s) : Keeps r0 (State.unpop s d r) := by
  unfold State.unpop
  repeat' first
    | with_reducible assumption
    | with_reducible exact Keeps.refl _
    | intro _
    | with_reducible apply State.setSeg_keeps
    | with_reducible apply Keeps.ite

theorem State.stopEarly_keeps {r0 : State} (s : State) (d : DieIx) (q : QId) (r : Running) (st : Nat) (hs : Keeps r0 s) : Keeps r0 (State.stopEarly s d q r st) := by
  unfold State.stopEarly
  repeat' first
    | with_reducible assumption
    | with_reducible exact Keeps.refl _
    | intro _
    | with_reducible apply State.finish_keeps
    | with_reducible apply State.unpop_keeps

theorem State.settle_keeps {r0 : State} (s : State) (d : DieIx) (q : QId) (r : Running) (hs : Keeps r0 s) : Keeps r0 (State.settle s d q r) := by
  unfold State.settle
  repeat' first
    | with_reducible assumption
    | with_reducible exact Keeps.refl _
    | intro _
    | with_reducible apply State.finish_keeps
    | with_reducible apply State.setRunning_keeps
    | with_reducible apply State.stopEarly_keeps
    | with_reducible apply Keeps.ite

theorem withEngine_keeps {r0 : State} (s : State) (d : DieIx) (q : QId) (kind : Nat) (k : Running → State) (hs : Keeps r0 s) (hk : ∀ x, Keeps r0 (k x)) : Keeps r0 (withEngine s d q kind k) := by
  unfold withEngine
  repeat' first
    | with_reducible assumption
    | with_reducible exact Keeps.refl _
    | intro _
    | with_reducible apply withRunning_keeps
    | with_reducible apply State.settle_keeps
    | with_reducible apply hk
    | with_reducible apply Keeps.ite

theorem withPick_keeps {r0 : State} (s : State) (d : DieIx) (q : QId) (pick : Running → Bool) (k : Running → State) (hs : Keeps r0 s) (hk : ∀ x, Keeps r0 (k x)) : Keeps r0 (withPick s d q pick k) := by
  unfold withPick
  repeat' first
    | with_reducible assumption
    | with_reducible exact Keeps.refl _
    | intro _
    | with_reducible apply State.finish_keeps
    | with_reducible apply State.settle_keeps
    | with_reducible apply hk
    | with_reducible apply Keeps.ite
    | split

theorem execReplyTimeout_keeps (d : DieIx) (q : QId) (s : State) : Lawful s (execReplyTimeout d q s) := by
  unfold execReplyTimeout
  repeat' first
    | with_reducible apply Lawful.onDie
    | with_reducible apply Lawful.next
    | with_reducible assumption
    | with_reducible exact Keeps.refl _
    | intro _
    | with_reducible apply State.modDie_keeps
    | with_reducible apply State.stopEarly_keeps
    | with_reducible apply State.reply_keeps
    | with_reducible apply Keeps.ite
    | split

theorem State.dropRequest_keeps {r0 u : State} {s : State}{d : DieIx}{m : Msg} (e : State.dropRequest s d m = some u) (hs : Keeps r0 s) : Keeps r0 u := by
  unfold State.dropRequest at e
  (try dsimp only at e)
  repeat' (first | (split at e) | cases e)
  repeat' first
    | with_reducible assumption
    | with_reducible exact Keeps.refl _
    | intro _
    | with_reducible apply State.addSat_keeps

theorem State.reply_keeps {r0 : State} (s : State) (d : DieIx) (m : Msg) (kind : Nat) (st : Nat) (data : List Byte) (ps : List Bool) (hs : Keeps r0 s) : Keeps r0 (State.reply s d m kind st data ps) := by
  unfold State.reply
  repeat' first
    | with_reducible assumption
    | with_reducible exact Keeps.refl _
    | intro _
    | with_reducible apply State.sendMsg_keeps

theorem State.serveRead_keeps {r0 : State} (s : State) (d : DieIx) (m : Msg) (hs : Keeps r0 s) : Keeps r0 (State.serveRead s d m) := by
  unfold State.serveRead
  repeat' first
    | with_reducible assumption
    | with_reducible exact Keeps.refl _
    | intro _
    | with_reducible apply State.pelCount_keeps
    | with_reducible apply State.causedBy_keeps
    | with_reducible apply State.memRead_keeps
    | with_reducible apply State.wake_keeps
    | with_reducible apply State.takeMsg_keeps
    | with_reducible apply State.readRegs_keeps
    | (with_reducible refine State.dropRequest_keeps (by assumption) ?_)
    | with_reducible apply State.reply_keeps
    | with_reducible apply Keeps.ite
    | split
    | dsimp only

theorem State.serveWrite_keeps {r0 : State} (s : State) (d : DieIx) (m : Msg) (hs : Keeps r0 s) : Keeps r0 (State.serveWrite s d m) := by
  unfold State.serveWrite
  repeat' first
    | with_reducible assumption
    | with_reducible exact Keeps.refl _
    | intro _
    | with_reducible apply State.pelCount_keeps
    | with_reducible apply State.causedBy_keeps
    | with_reducible apply State.wake_keeps
    | with_reducible apply State.takeMsg_keeps
    | with_reducible apply State.writeLocal_keeps
    | with_reducible apply State.writeRegs_keeps
    | (with_reducible refine State.dropRequest_keeps (by assumption) ?_)
    | with_reducible apply State.reply_keeps
    | with_reducible apply Keeps.ite
    | split
    | dsimp only

theorem execReadReq_keeps (d : DieIx) (m : Msg) (s : State) : Lawful s (execReadReq d m s) := by
  unfold execReadReq
  repeat' first
    | with_reducible apply Lawful.onDie
    | with_reducible apply Lawful.next
    | with_reducible assumption
    | with_reducible exact Keeps.refl _
    | intro _
    | with_reducible apply State.serveRead_keeps
    | with_reducible apply Keeps.ite

theorem execWriteReq_keeps (d : DieIx) (m : Msg) (s : State) : Lawful s (execWriteReq d m s) := by
  unfold execWriteReq
  repeat' first
    | with_reducible apply Lawful.onDie
    | with_reducible apply Lawful.next
    | with_reducible assumption
    | with_reducible exact Keeps.refl _
    | intro _
    | with_reducible apply State.serveWrite_keeps
    | with_reducible apply Keeps.ite

theorem State.takeReply_keeps {r0 : State} (s : State) (d : DieIx) (m : Msg) (write : Bool) (hs : Keeps r0 s) : Keeps r0 (State.takeReply s d m write) := by
  unfold State.takeReply
  repeat' first
    | with_reducible assumption
    | with_reducible exact Keeps.refl _
    | intro _
    | with_reducible apply State.modDie_keeps
    | with_reducible apply State.addSat_keeps
    | with_reducible apply State.takeMsg_keeps
    | with_reducible apply State.stopEarly_keeps
    | with_reducible apply State.reply_keeps
    | with_reducible apply Keeps.ite
    | split

theorem execReadReply_keeps (d : DieIx) (m : Msg) (s : State) : Lawful s (execReadReply d m s) := by
  unfold execReadReply
  repeat' first
    | with_reducible apply Lawful.onDie
    | with_reducible apply Lawful.next
    | with_reducible assumption
    | with_reducible exact Keeps.refl _
    | intro _
    | with_reducible apply State.takeReply_keeps
    | with_reducible apply Keeps.ite

theorem execWriteAck_keeps (d : DieIx) (m : Msg) (s : State) : Lawful s (execWriteAck d m s) := by
  unfold execWriteAck
  repeat' first
    | with_reducible apply Lawful.onDie
    | with_reducible apply Lawful.next
    | with_reducible assumption
    | with_reducible exact Keeps.refl _
    | intro _
    | with_reducible apply State.takeReply_keeps
    | with_reducible apply Keeps.ite

theorem State.dmaRows_keeps {r0 : State} (d : DieIx) (c : CoreIx) (j : DmaJob) (n : Nat) (s : State) (r : Running) (hs : Keeps r0 s) :
    Keeps r0 (State.dmaRows d c j n s r) := by
  induction n generalizing s r with
  | zero => exact State.finish_keeps _ _ _ _ _ hs
  | succ n ih =>
    unfold State.dmaRows
    dsimp only
    split
    · split
      · exact hs
      · exact ih _ _ (State.setRunning_keeps _ _ _ _ (State.dropReqs_keeps _ _ _ _ hs))
    · split
      · exact State.stopEarly_keeps _ _ _ _ _ hs
      · exact hs
      · have hk : (if j.src.isNone then Fetch.data [] [] s else s.fetch d (.core c) r (dmaSrcRow r.desc r.rows) j.srow).Keeps r0 := by
          split
          · exact hs
          · exact State.fetch_all _ _ _ _ _ _ hs
        split
        · exact State.stopEarly_keeps _ _ _ _ _ hs
        · rename_i e; rw [e] at hk; exact hk
        · rename_i t e
          rw [e] at hk
          have h1 : Keeps r0 t := hk
          split
          · exact State.stopEarly_keeps _ _ _ _ _ hs
          split
          · exact ih _ _ (State.setRunning_keeps _ _ _ _ (State.dropReqs_keeps _ _ _ _ (State.put_keeps _ _ _ _ _ _ _ (State.modCore_keeps _ _ _ _ h1))))
          · exact State.setRunning_keeps _ _ _ _ (State.put_keeps _ _ _ _ _ _ _ (State.modCore_keeps _ _ _ _ h1))

theorem State.dmaRun_keeps {r0 : State} (s : State) (d : DieIx) (c : CoreIx) (judge : Desc → Judged DmaJob) (r : Running) (hs : Keeps r0 s) : Keeps r0 (State.dmaRun s d c judge r) := by
  unfold State.dmaRun
  repeat' first
    | with_reducible assumption
    | with_reducible exact Keeps.refl _
    | intro _
    | with_reducible apply State.finish_keeps
    | with_reducible apply State.countService_keeps
    | with_reducible apply State.stopEarly_keeps
    | with_reducible apply State.dmaRows_keeps
    | with_reducible apply Keeps.ite
    | split

theorem execCopy_keeps (d : DieIx) (c : CoreIx) (s : State) : Lawful s (execCopy d c s) := by
  unfold execCopy
  repeat' first
    | with_reducible apply Lawful.onDie
    | with_reducible apply Lawful.next
    | with_reducible assumption
    | with_reducible exact Keeps.refl _
    | intro _
    | with_reducible apply withEngine_keeps
    | with_reducible apply State.dmaRun_keeps

theorem execFill_keeps (d : DieIx) (c : CoreIx) (s : State) : Lawful s (execFill d c s) := by
  unfold execFill
  repeat' first
    | with_reducible apply Lawful.onDie
    | with_reducible apply Lawful.next
    | with_reducible assumption
    | with_reducible exact Keeps.refl _
    | intro _
    | with_reducible apply withEngine_keeps
    | with_reducible apply State.dmaRun_keeps

theorem State.endKernel_keeps {r0 : State} (s : State) (d : DieIx) (c : CoreIx) (stats : List Nat) (detail : Word) (hs : Keeps r0 s) :
    Keeps r0 (State.endKernel s d c stats detail) := by
  unfold State.endKernel
  split
  · exact State.haltProc_keeps _ _ _ hs
  · exact State.finish_keeps _ _ _ _ _ (State.haltProc_keeps _ _ _ hs)

theorem State.noteTrap_keeps {r0 : State} (s : State) (d : DieIx) (c : CoreIx) (t : Trap) (hs : Keeps r0 s) : Keeps r0 (State.noteTrap s d c t) := by
  unfold State.noteTrap
  repeat' first
    | with_reducible assumption
    | with_reducible exact Keeps.refl _
    | intro _
    | with_reducible apply State.modCore_keeps
    | with_reducible apply State.setReg_keeps
    | with_reducible apply Keeps.ite

theorem State.takeTrap_keeps {r0 : State} (s : State) (d : DieIx) (c : CoreIx) (t : Trap) (hs : Keeps r0 s) : Keeps r0 (State.takeTrap s d c t) := by
  unfold State.takeTrap
  repeat' first
    | with_reducible assumption
    | with_reducible exact Keeps.refl _
    | intro _
    | with_reducible apply State.modCore_keeps
    | with_reducible apply State.drawFree_keeps
    | with_reducible apply State.capture411_keeps
    | with_reducible apply State.endKernel_keeps
    | with_reducible apply State.noteTrap_keeps
    | with_reducible apply Keeps.ite

theorem State.kernelStart_keeps {r0 : State} (s : State) (d : DieIx) (c : CoreIx) (r : Running) (hs : Keeps r0 s) : Keeps r0 (State.kernelStart s d c r) := by
  unfold State.kernelStart
  repeat' first
    | with_reducible assumption
    | with_reducible exact Keeps.refl _
    | intro _
    | with_reducible apply State.modCore_keeps
    | with_reducible apply State.drawFree_keeps
    | with_reducible apply State.stopEarly_keeps
    | with_reducible apply Keeps.ite

theorem execKernel_keeps (d : DieIx) (c : CoreIx) (s : State) : Lawful s (execKernel d c s) := by
  unfold execKernel
  repeat' first
    | with_reducible apply Lawful.onDie
    | with_reducible apply Lawful.next
    | with_reducible assumption
    | with_reducible exact Keeps.refl _
    | intro _
    | with_reducible apply withEngine_keeps
    | with_reducible apply State.kernelStart_keeps

/-- What an instruction leaves, however it ends. -/
def Eff.Keeps (r : State) : Eff → Prop
  | .ok t => Machine.Keeps r t
  | .jump t _ => Machine.Keeps r t
  | .stall _ => True
  | .fin t _ => Machine.Keeps r t
  | .trap _ => True
  | .trapIn t _ => Machine.Keeps r t

theorem Eff.keeps_ok {r t : State} (h : Machine.Keeps r t) : Eff.Keeps r (.ok t) := h
theorem Eff.keeps_jump {r t : State} {pc : DWord} (h : Machine.Keeps r t) : Eff.Keeps r (.jump t pc) := h
theorem Eff.keeps_fin {r t : State} {x : Word} (h : Machine.Keeps r t) : Eff.Keeps r (.fin t x) := h
theorem Eff.keeps_stall {r : State} {x : Stall} : Eff.Keeps r (.stall x) := trivial
theorem Eff.keeps_trapIn {r t : State} {x : Trap} (h : Machine.Keeps r t) : Eff.Keeps r (.trapIn t x) := h
theorem Eff.keeps_trap {r : State} {x : Trap} : Eff.Keeps r (.trap x) := trivial

theorem State.insn_keeps {r0 : State} (s : State) (d : DieIx) (c : CoreIx) (i : Instr) (body : State → Eff) (hs : Keeps r0 s)
    (hbody : ∀ t, Keeps r0 t → Eff.Keeps r0 (body t)) : Keeps r0 (State.insn s d c i body) := by
  unfold State.insn
  dsimp only
  split
  · exact hs
  split
  · exact State.takeTrap_keeps _ _ _ _ hs
  split
  · exact State.takeTrap_keeps _ _ _ _ hs
  have hm := State.memRead_keeps (r0 := r0) s (s.kernelAccess d c) d 1 (spBase c.val + (s.core d c).proc.pc.toNat) 4 hs
  split
  · exact State.takeTrap_keeps _ _ _ _ hm
  split
  · exact State.takeTrap_keeps _ _ _ _ hm
  split
  · exact hs
  split
  · exact State.takeTrap_keeps _ _ _ _ hm
  have hb := hbody _ hm
  split
  · rename_i e; rw [e] at hb; exact State.modCore_keeps _ _ _ _ hb
  · rename_i e; rw [e] at hb; exact State.modCore_keeps _ _ _ _ hb
  · exact State.modCore_keeps _ _ _ _ hs
  · rename_i e; rw [e] at hb; exact State.endKernel_keeps _ _ _ _ _ hb
  · exact State.takeTrap_keeps _ _ _ _ hm
  · rename_i e; rw [e] at hb; exact State.takeTrap_keeps _ _ _ _ hb

theorem execIntegerInstruction_keeps (d : DieIx) (c : CoreIx) (op : IntOp) (rd : Fin 32) (rs1 : Fin 32) (src : IntSrc) (s : State) : Lawful s (execIntegerInstruction d c op rd rs1 src s) := by
  unfold execIntegerInstruction
  repeat' first
    | with_reducible apply Lawful.onDie
    | with_reducible apply Lawful.next
    | with_reducible assumption
    | with_reducible exact Keeps.refl _
    | intro _
    | with_reducible apply State.modCore_keeps
    | with_reducible apply State.insn_keeps
    | with_reducible apply Eff.keeps_ok

theorem execScalarLoad_keeps (d : DieIx) (c : CoreIx) (size : Fin 4) (fp : Bool) (signed : Bool) (rd : Fin 32) (rs1 : Fin 32) (off : BitVec 16) (s : State) : Lawful s (execScalarLoad d c size fp signed rd rs1 off s) := by
  unfold execScalarLoad
  repeat' first
    | with_reducible apply Lawful.onDie
    | with_reducible apply Lawful.next
    | with_reducible assumption
    | with_reducible exact Keeps.refl _
    | intro _
    | with_reducible apply State.modCore_keeps
    | with_reducible apply State.drawFree_keeps
    | with_reducible apply State.memRead_keeps
    | with_reducible apply State.insn_keeps
    | with_reducible apply Eff.keeps_ok
    | with_reducible apply Eff.keeps_jump
    | with_reducible apply Eff.keeps_fin
    | with_reducible apply Eff.keeps_stall
    | with_reducible apply Eff.keeps_trapIn
    | with_reducible apply Eff.keeps_trap
    | with_reducible apply Keeps.ite
    | split
    | dsimp only

theorem execScalarStore_keeps (d : DieIx) (c : CoreIx) (size : Fin 4) (fp : Bool) (rs2 : Fin 32) (rs1 : Fin 32) (off : BitVec 16) (s : State) : Lawful s (execScalarStore d c size fp rs2 rs1 off s) := by
  unfold execScalarStore
  repeat' first
    | with_reducible apply Lawful.onDie
    | with_reducible apply Lawful.next
    | with_reducible assumption
    | with_reducible exact Keeps.refl _
    | intro _
    | with_reducible apply State.memWrite_keeps
    | with_reducible apply State.insn_keeps
    | with_reducible apply Eff.keeps_ok
    | with_reducible apply Eff.keeps_jump
    | with_reducible apply Eff.keeps_fin
    | with_reducible apply Eff.keeps_stall
    | with_reducible apply Eff.keeps_trapIn
    | with_reducible apply Eff.keeps_trap
    | with_reducible apply Keeps.ite
    | split
    | dsimp only

theorem execConditionalBranch_keeps (d : DieIx) (c : CoreIx) (cond : BrCond) (rs1 : Fin 32) (rs2 : Fin 32) (off : BitVec 16) (s : State) : Lawful s (execConditionalBranch d c cond rs1 rs2 off s) := by
  unfold execConditionalBranch
  repeat' first
    | with_reducible apply Lawful.onDie
    | with_reducible apply Lawful.next
    | with_reducible assumption
    | with_reducible exact Keeps.refl _
    | intro _
    | with_reducible apply State.insn_keeps
    | with_reducible apply Eff.keeps_ok
    | with_reducible apply Eff.keeps_jump
    | with_reducible apply Eff.keeps_fin
    | with_reducible apply Eff.keeps_stall
    | with_reducible apply Eff.keeps_trapIn
    | with_reducible apply Eff.keeps_trap
    | with_reducible apply Keeps.ite
    | split
    | dsimp only

theorem execCall_keeps (d : DieIx) (c : CoreIx) (rd : Fin 32) (off : BitVec 21) (s : State) : Lawful s (execCall d c rd off s) := by
  unfold execCall
  repeat' first
    | with_reducible apply Lawful.onDie
    | with_reducible apply Lawful.next
    | with_reducible assumption
    | with_reducible exact Keeps.refl _
    | intro _
    | with_reducible apply State.modCore_keeps
    | with_reducible apply State.insn_keeps
    | with_reducible apply Eff.keeps_ok
    | with_reducible apply Eff.keeps_jump

theorem execCallr_keeps (d : DieIx) (c : CoreIx) (rd : Fin 32) (rs1 : Fin 32) (s : State) : Lawful s (execCallr d c rd rs1 s) := by
  unfold execCallr
  repeat' first
    | with_reducible apply Lawful.onDie
    | with_reducible apply Lawful.next
    | with_reducible assumption
    | with_reducible exact Keeps.refl _
    | intro _
    | with_reducible apply State.modCore_keeps
    | with_reducible apply State.insn_keeps
    | with_reducible apply Eff.keeps_ok
    | with_reducible apply Eff.keeps_jump

theorem execScalarFp_keeps (d : DieIx) (c : CoreIx) (op : FpOp) (dbl : Bool) (rd : Fin 32) (rs1 : Fin 32) (rs2 : Fin 32) (rs3 : Fin 32) (s : State) : Lawful s (execScalarFp d c op dbl rd rs1 rs2 rs3 s) := by
  unfold execScalarFp
  repeat' first
    | with_reducible apply Lawful.onDie
    | with_reducible apply Lawful.next
    | with_reducible assumption
    | with_reducible exact Keeps.refl _
    | intro _
    | with_reducible apply State.modCore_keeps
    | with_reducible apply State.drawFree_keeps
    | with_reducible apply State.insn_keeps
    | with_reducible apply Eff.keeps_ok
    | with_reducible apply Eff.keeps_jump
    | with_reducible apply Eff.keeps_fin
    | with_reducible apply Eff.keeps_stall
    | with_reducible apply Eff.keeps_trapIn
    | with_reducible apply Eff.keeps_trap
    | with_reducible apply Keeps.ite
    | split
    | dsimp only

theorem execCtlrd_keeps (d : DieIx) (c : CoreIx) (rd : Fin 32) (num : BitVec 11) (s : State) : Lawful s (execCtlrd d c rd num s) := by
  unfold execCtlrd
  repeat' first
    | with_reducible apply Lawful.onDie
    | with_reducible apply Lawful.next
    | with_reducible assumption
    | with_reducible exact Keeps.refl _
    | intro _
    | with_reducible apply State.modCore_keeps
    | with_reducible apply State.insn_keeps
    | with_reducible apply Eff.keeps_ok
    | with_reducible apply Eff.keeps_jump
    | with_reducible apply Eff.keeps_fin
    | with_reducible apply Eff.keeps_stall
    | with_reducible apply Eff.keeps_trapIn
    | with_reducible apply Eff.keeps_trap
    | with_reducible apply Keeps.ite
    | split

theorem execCtlwr_keeps (d : DieIx) (c : CoreIx) (rs1 : Fin 32) (num : BitVec 11) (s : State) : Lawful s (execCtlwr d c rs1 num s) := by
  unfold execCtlwr
  repeat' first
    | with_reducible apply Lawful.onDie
    | with_reducible apply Lawful.next
    | with_reducible assumption
    | with_reducible exact Keeps.refl _
    | intro _
    | with_reducible apply State.modCore_keeps
    | with_reducible apply State.insn_keeps
    | with_reducible apply Eff.keeps_ok
    | with_reducible apply Eff.keeps_jump
    | with_reducible apply Eff.keeps_fin
    | with_reducible apply Eff.keeps_stall
    | with_reducible apply Eff.keeps_trapIn
    | with_reducible apply Eff.keeps_trap
    | with_reducible apply Keeps.ite
    | split
    | dsimp only

theorem execCpush_keeps (d : DieIx) (c : CoreIx) (rs1 : Fin 32) (s : State) : Lawful s (execCpush d c rs1 s) := by
  unfold execCpush
  repeat' first
    | with_reducible apply Lawful.onDie
    | with_reducible apply Lawful.next
    | with_reducible assumption
    | with_reducible exact Keeps.refl _
    | intro _
    | with_reducible apply State.modCore_keeps
    | with_reducible apply State.memRead_keeps
    | with_reducible apply State.windowWrite_keeps
    | with_reducible apply State.insn_keeps
    | with_reducible apply Eff.keeps_ok
    | with_reducible apply Eff.keeps_jump
    | with_reducible apply Eff.keeps_fin
    | with_reducible apply Eff.keeps_stall
    | with_reducible apply Eff.keeps_trapIn
    | with_reducible apply Eff.keeps_trap
    | with_reducible apply Keeps.ite
    | split
    | dsimp only

theorem execWaitstroke_keeps (d : DieIx) (c : CoreIx) (s : State) : Lawful s (execWaitstroke d c s) := by
  unfold execWaitstroke
  repeat' first
    | with_reducible apply Lawful.onDie
    | with_reducible apply Lawful.next
    | with_reducible assumption
    | with_reducible exact Keeps.refl _
    | intro _
    | with_reducible apply State.modCore_keeps
    | with_reducible apply State.insn_keeps
    | with_reducible apply Eff.keeps_ok

theorem execBrk_keeps (d : DieIx) (c : CoreIx) (s : State) : Lawful s (execBrk d c s) := by
  unfold execBrk
  repeat' first
    | with_reducible apply Lawful.onDie
    | with_reducible apply Lawful.next
    | with_reducible assumption
    | with_reducible exact Keeps.refl _
    | intro _
    | with_reducible apply State.insn_keeps
    | with_reducible apply Eff.keeps_ok
    | with_reducible apply Eff.keeps_jump
    | with_reducible apply Eff.keeps_fin
    | with_reducible apply Eff.keeps_stall
    | with_reducible apply Eff.keeps_trapIn
    | with_reducible apply Eff.keeps_trap

theorem execEndK_keeps (d : DieIx) (c : CoreIx) (rs1 : Fin 32) (s : State) : Lawful s (execEndK d c rs1 s) := by
  unfold execEndK
  repeat' first
    | with_reducible apply Lawful.onDie
    | with_reducible apply Lawful.next
    | with_reducible assumption
    | with_reducible exact Keeps.refl _
    | intro _
    | with_reducible apply State.insn_keeps
    | with_reducible apply Eff.keeps_ok
    | with_reducible apply Eff.keeps_jump
    | with_reducible apply Eff.keeps_fin

theorem execMxwait_keeps (d : DieIx) (c : CoreIx) (rd : Fin 32) (imm : BitVec 16) (s : State) : Lawful s (execMxwait d c rd imm s) := by
  unfold execMxwait
  repeat' first
    | with_reducible apply Lawful.onDie
    | with_reducible apply Lawful.next
    | with_reducible assumption
    | with_reducible exact Keeps.refl _
    | intro _
    | with_reducible apply State.modCore_keeps
    | with_reducible apply State.insn_keeps
    | with_reducible apply Eff.keeps_ok
    | with_reducible apply Eff.keeps_jump
    | with_reducible apply Eff.keeps_fin
    | with_reducible apply Eff.keeps_stall
    | with_reducible apply Eff.keeps_trapIn
    | with_reducible apply Eff.keeps_trap
    | with_reducible apply Keeps.ite
    | split
    | dsimp only

theorem execMxlat_keeps (d : DieIx) (c : CoreIx) (rd : Fin 32) (s : State) : Lawful s (execMxlat d c rd s) := by
  unfold execMxlat
  repeat' first
    | with_reducible apply Lawful.onDie
    | with_reducible apply Lawful.next
    | with_reducible assumption
    | with_reducible exact Keeps.refl _
    | intro _
    | with_reducible apply State.modCore_keeps
    | with_reducible apply State.insn_keeps
    | with_reducible apply Eff.keeps_ok

theorem State.readValues_keeps {r0 : State} (s : State) (c : CruSlot) (hs : Keeps r0 s) : Keeps r0 (State.readValues s c).2.2 := by
  unfold State.readValues
  repeat' first
    | with_reducible assumption
    | with_reducible exact Keeps.refl _
    | intro _
    | with_reducible apply State.memRead_keeps
    | with_reducible apply Keeps.fold
    | with_reducible apply Keeps.fold1
    | with_reducible apply Keeps.fold2
    | with_reducible apply Keeps.fold3

theorem State.pushEntry_keeps {r0 : State} (s : State) (d : DieIx) (r : Running) (sf : Fmt) (rows : List (List Byte × List Bool)) (hs : Keeps r0 s) : Keeps r0 (State.pushEntry s d r sf rows) := by
  unfold State.pushEntry
  repeat' first
    | with_reducible assumption
    | with_reducible exact Keeps.refl _
    | intro _
    | with_reducible apply State.modDie_keeps
    | with_reducible apply State.memWrite_keeps
    | with_reducible apply State.finish_keeps
    | with_reducible apply State.setSeg_keeps

theorem State.pushRun_keeps {r0 : State} (s : State) (d : DieIx) (r : Running) (hs : Keeps r0 s) : Keeps r0 (State.pushRun s d r) := by
  unfold State.pushRun
  repeat' first
    | with_reducible assumption
    | with_reducible exact Keeps.refl _
    | intro _
    | with_reducible apply State.addSat_keeps
    | with_reducible apply State.finish_keeps
    | with_reducible apply State.countService_keeps
    | with_reducible apply State.stopEarly_keeps
    | with_reducible apply State.pushEntry_keeps
    | (with_reducible refine State.fetchAll_data (by assumption) ?_)
    | (with_reducible refine State.fetchAll_wait (by assumption) ?_)
    | with_reducible apply Keeps.ite
    | split
    | dsimp only

theorem execPush_keeps (d : DieIx) (c : Fin 16) (s : State) : Lawful s (execPush d c s) := by
  unfold execPush
  repeat' first
    | with_reducible apply Lawful.onDie
    | with_reducible apply Lawful.next
    | with_reducible assumption
    | with_reducible exact Keeps.refl _
    | intro _
    | with_reducible apply withPick_keeps
    | with_reducible apply State.pushRun_keeps

theorem State.topTrailer_keeps {r0 : State} (s : State) (d : DieIx) (c : Nat) (job : BitVec 12) (hs : Keeps r0 s) : Keeps r0 (State.topTrailer s d c job).2.2 := by
  unfold State.topTrailer
  repeat' first
    | with_reducible assumption
    | with_reducible exact Keeps.refl _
    | intro _
    | with_reducible apply State.memRead_keeps

theorem State.dropTop_keeps {r0 : State} (s : State) (d : DieIx) (c : Nat) (t : Trailer) (hs : Keeps r0 s) : Keeps r0 (State.dropTop s d c t) := by
  unfold State.dropTop
  repeat' first
    | with_reducible assumption
    | with_reducible exact Keeps.refl _
    | intro _
    | with_reducible apply State.setSeg_keeps

theorem State.popEntry_keeps {r0 : State} (s : State) (d : DieIx) (r : Running) (tr : Trailer) (df : Fmt) (hs : Keeps r0 s) : Keeps r0 (State.popEntry s d r tr df) := by
  unfold State.popEntry
  repeat' first
    | with_reducible assumption
    | with_reducible exact Keeps.refl _
    | intro _
    | with_reducible apply State.modDie_keeps
    | with_reducible apply State.memRead_keeps
    | with_reducible apply State.putAll_keeps
    | with_reducible apply State.settle_keeps
    | with_reducible apply State.dropTop_keeps

theorem State.popRun_keeps {r0 : State} (s : State) (d : DieIx) (r : Running) (hs : Keeps r0 s) : Keeps r0 (State.popRun s d r) := by
  unfold State.popRun
  repeat' first
    | with_reducible assumption
    | with_reducible exact Keeps.refl _
    | intro _
    | with_reducible apply State.addSat_keeps
    | with_reducible apply State.finish_keeps
    | with_reducible apply State.countService_keeps
    | with_reducible apply State.stopEarly_keeps
    | with_reducible apply State.topTrailer_keeps
    | with_reducible apply State.popEntry_keeps
    | with_reducible apply Keeps.ite
    | split
    | dsimp only

theorem execPop_keeps (d : DieIx) (c : Fin 16) (s : State) : Lawful s (execPop d c s) := by
  unfold execPop
  repeat' first
    | with_reducible apply Lawful.onDie
    | with_reducible apply Lawful.next
    | with_reducible assumption
    | with_reducible exact Keeps.refl _
    | intro _
    | with_reducible apply withPick_keeps
    | with_reducible apply State.popRun_keeps

theorem State.clearRun_keeps {r0 : State} (s : State) (d : DieIx) (r : Running) (hs : Keeps r0 s) : Keeps r0 (State.clearRun s d r) := by
  unfold State.clearRun
  repeat' first
    | with_reducible assumption
    | with_reducible exact Keeps.refl _
    | intro _
    | with_reducible apply State.finish_keeps
    | with_reducible apply State.countService_keeps
    | with_reducible apply State.setSeg_keeps
    | with_reducible apply State.stopEarly_keeps
    | with_reducible apply Keeps.ite

theorem execClear_keeps (d : DieIx) (c : Fin 16) (s : State) : Lawful s (execClear d c s) := by
  unfold execClear
  repeat' first
    | with_reducible apply Lawful.onDie
    | with_reducible apply Lawful.next
    | with_reducible assumption
    | with_reducible exact Keeps.refl _
    | intro _
    | with_reducible apply withPick_keeps
    | with_reducible apply State.clearRun_keeps

theorem State.rechunkRun_keeps {r0 : State} (s : State) (d : DieIx) (r : Running) (hs : Keeps r0 s) : Keeps r0 (State.rechunkRun s d r) := by
  unfold State.rechunkRun
  repeat' first
    | with_reducible assumption
    | with_reducible exact Keeps.refl _
    | intro _
    | with_reducible apply State.modDie_keeps
    | with_reducible apply State.finish_keeps
    | with_reducible apply State.countService_keeps
    | with_reducible apply State.putAll_keeps
    | with_reducible apply State.dropReqs_keeps
    | with_reducible apply State.stopEarly_keeps
    | with_reducible apply State.settle_keeps
    | (with_reducible refine State.fetchAll_data (by assumption) ?_)
    | (with_reducible refine State.fetchAll_wait (by assumption) ?_)
    | with_reducible apply Keeps.ite
    | split
    | dsimp only

theorem execRechunk_keeps (d : DieIx) (s : State) : Lawful s (execRechunk d s) := by
  unfold execRechunk
  repeat' first
    | with_reducible apply Lawful.onDie
    | with_reducible apply Lawful.next
    | with_reducible assumption
    | with_reducible exact Keeps.refl _
    | intro _
    | with_reducible apply withPick_keeps
    | with_reducible apply State.rechunkRun_keeps

theorem State.setTblState_keeps {r0 : State} (s : State) (d : DieIx) (k : Nat) (v : Nat) (hs : Keeps r0 s) : Keeps r0 (State.setTblState s d k v) := by
  unfold State.setTblState
  repeat' first
    | with_reducible assumption
    | with_reducible exact Keeps.refl _
    | intro _
    | with_reducible apply State.setRf_keeps

theorem State.setTblImage_keeps {r0 : State} (s : State) (d : DieIx) (k : Nat) (b : List Byte) (hs : Keeps r0 s) : Keeps r0 (State.setTblImage s d k b) := by
  unfold State.setTblImage
  repeat' first
    | with_reducible assumption
    | with_reducible exact Keeps.refl _
    | intro _
    | with_reducible apply State.modDie_keeps

theorem State.tableRun_keeps {r0 : State} (s : State) (d : DieIx) (r : Running) (hs : Keeps r0 s) : Keeps r0 (State.tableRun s d r) := by
  unfold State.tableRun
  repeat' first
    | with_reducible assumption
    | with_reducible exact Keeps.refl _
    | intro _
    | with_reducible apply State.finish_keeps
    | with_reducible apply State.countService_keeps
    | with_reducible apply State.stopEarly_keeps
    | with_reducible apply State.setTblState_keeps
    | with_reducible apply State.setTblImage_keeps
    | (with_reducible refine State.fetch_data (by assumption) ?_)
    | (with_reducible refine State.fetch_wait (by assumption) ?_)
    | with_reducible apply Keeps.ite
    | split

theorem execTableLoad_keeps (d : DieIx) (k : Fin 32) (s : State) : Lawful s (execTableLoad d k s) := by
  unfold execTableLoad
  repeat' first
    | with_reducible apply Lawful.onDie
    | with_reducible apply Lawful.next
    | with_reducible assumption
    | with_reducible exact Keeps.refl _
    | intro _
    | with_reducible apply withPick_keeps
    | with_reducible apply State.tableRun_keeps

theorem State.quarantine_keeps {r0 : State} (s : State) (d : DieIx) (core : Nat) (src : Endpoint) (x : Desc) (word : Word) (ops : Option (List Byte × List Bool)) (flags : Nat) (hs : Keeps r0 s) : Keeps r0 (State.quarantine s d core src x word ops flags) := by
  unfold State.quarantine
  repeat' first
    | with_reducible assumption
    | with_reducible exact Keeps.refl _
    | intro _
    | with_reducible apply State.modDie_keeps
    | with_reducible apply State.modReg_keeps
    | with_reducible apply State.setRf_keeps
    | with_reducible apply State.logEvent_keeps
    | with_reducible apply State.hostEvent_keeps
    | with_reducible apply State.unitEvent_keeps
    | with_reducible apply State.memWrite_keeps
    | with_reducible apply Keeps.ite
    | split

theorem State.noteSnap_keeps {r0 : State} (s : State) (d : DieIx) (job : BitVec 12) (fmt : Fmt) (diag : Bool) (ncols : Nat) (klen : Nat) (hs : Keeps r0 s) : Keeps r0 (State.noteSnap s d job fmt diag ncols klen) := by
  unfold State.noteSnap
  repeat' first
    | with_reducible assumption
    | with_reducible exact Keeps.refl _
    | intro _
    | with_reducible apply State.modDie_keeps
    | with_reducible apply Keeps.ite
    | split

theorem State.classify_keeps {r0 : State} (s : State) (d : DieIx) (idx : Nat) (v : Verdict) (hs : Keeps r0 s) : Keeps r0 (State.classify s d idx v) := by
  unfold State.classify
  repeat' first
    | with_reducible assumption
    | with_reducible exact Keeps.refl _
    | intro _
    | with_reducible apply State.modDie_keeps
    | with_reducible apply State.addSat_keeps
    | with_reducible apply State.logEvent_keeps
    | with_reducible apply State.unitEvent_keeps
    | with_reducible apply State.memWrite_keeps

theorem State.publishLib_keeps {r0 : State} (s : State) (hs : Keeps r0 s) : Keeps r0 (State.publishLib s) := by
  unfold State.publishLib
  repeat' first
    | with_reducible assumption
    | with_reducible exact Keeps.refl _
    | intro _
    | with_reducible apply State.setReg_keeps
    | with_reducible apply Keeps.fold

theorem State.testFirst_keeps {r0 : State} (s : State) (d : DieIx) (l : List AssayUnit) (hs : Keeps r0 s) : Keeps r0 (State.testFirst s d l) := by
  unfold State.testFirst
  repeat' first
    | with_reducible assumption
    | with_reducible exact Keeps.refl _
    | intro _
    | with_reducible apply State.modDie_keeps

theorem State.testArrays_keeps {r0 : State} (s : State) (d : DieIx) (l : List Nat) (hs : Keeps r0 s) : Keeps r0 (State.testArrays s d l) := by
  unfold State.testArrays
  repeat' first
    | with_reducible assumption
    | with_reducible exact Keeps.refl _
    | intro _
    | with_reducible apply State.testFirst_keeps

theorem State.addLibrary_keeps {r0 : State} (s : State) (d : DieIx) (e : List Byte) (hs : Keeps r0 s) : Keeps r0 (State.addLibrary s d e) := by
  unfold State.addLibrary
  repeat' first
    | with_reducible assumption
    | with_reducible exact Keeps.refl _
    | intro _
    | with_reducible apply State.modReg_keeps
    | with_reducible apply State.logEvent_keeps
    | with_reducible apply State.unitEvent_keeps
    | with_reducible apply State.publishLib_keeps
    | with_reducible apply Keeps.ite
    | split
    | dsimp only
    | with_reducible apply Keeps.upd

theorem State.loadRun_keeps {r0 : State} (s : State) (d : DieIx) (c : CoreIx) (r : Running) (hs : Keeps r0 s) : Keeps r0 (State.loadRun s d c r) := by
  unfold State.loadRun
  repeat' first
    | with_reducible assumption
    | with_reducible exact Keeps.refl _
    | intro _
    | with_reducible apply State.modCore_keeps
    | with_reducible apply State.finish_keeps
    | with_reducible apply State.countService_keeps
    | with_reducible apply State.stopEarly_keeps
    | (with_reducible refine State.fetchAll_data (by assumption) ?_)
    | (with_reducible refine State.fetchAll_wait (by assumption) ?_)
    | with_reducible apply Keeps.ite
    | split
    | dsimp only

theorem execLoad_keeps (d : DieIx) (c : CoreIx) (s : State) : Lawful s (execLoad d c s) := by
  unfold execLoad
  repeat' first
    | with_reducible apply Lawful.onDie
    | with_reducible apply Lawful.next
    | with_reducible assumption
    | with_reducible exact Keeps.refl _
    | intro _
    | with_reducible apply withEngine_keeps
    | with_reducible apply State.loadRun_keeps

theorem State.drainMiss_keeps {r0 : State} (s : State) (d : DieIx) (c : CoreIx) (r : Running) (found : Nat) (hs : Keeps r0 s) : Keeps r0 (State.drainMiss s d c r found) := by
  unfold State.drainMiss
  repeat' first
    | with_reducible assumption
    | with_reducible exact Keeps.refl _
    | intro _
    | with_reducible apply State.addSat_keeps
    | with_reducible apply State.logEvent_keeps
    | with_reducible apply State.stopEarly_keeps

theorem State.drainArrive_keeps {r0 : State} (s : State) (d : DieIx) (c : CoreIx) (ident : Nat) (ctx : Nat) (hs : Keeps r0 s) : Keeps r0 (State.drainArrive s d c ident ctx) := by
  unfold State.drainArrive
  repeat' first
    | with_reducible assumption
    | with_reducible exact Keeps.refl _
    | intro _
    | with_reducible apply State.modDie_keeps

theorem State.drainLeave_keeps {r0 : State} (s : State) (d : DieIx) (c : CoreIx) (ident : Nat) (hs : Keeps r0 s) : Keeps r0 (State.drainLeave s d c ident) := by
  unfold State.drainLeave
  repeat' first
    | with_reducible assumption
    | with_reducible exact Keeps.refl _
    | intro _
    | with_reducible apply State.modDie_keeps
    | with_reducible apply State.startQueue_keeps

theorem State.popDrain_keeps {r0 : State} (s : State) (d : DieIx) (c : CoreIx) (r : Running) (t : Trailer) (tbl : Option Nat) (formula : Nat) (hs : Keeps r0 s) : Keeps r0 (State.popDrain s d c r t tbl formula) := by
  unfold State.popDrain
  repeat' first
    | with_reducible assumption
    | with_reducible exact Keeps.refl _
    | intro _
    | with_reducible apply State.modCore_keeps
    | with_reducible apply State.memRead_keeps
    | with_reducible apply State.dropTop_keeps
    | with_reducible apply State.drainLeave_keeps

theorem State.drainPop_keeps {r0 : State} (s0 : State) (d : DieIx) (c : CoreIx) (r : Running) (hs0 : Keeps r0 s0) : Keeps r0 (State.drainPop s0 d c r) := by
  unfold State.drainPop
  repeat' first
    | with_reducible assumption
    | with_reducible exact Keeps.refl _
    | intro _
    | with_reducible apply State.addSat_keeps
    | with_reducible apply State.finish_keeps
    | with_reducible apply State.countService_keeps
    | with_reducible apply State.setRunning_keeps
    | with_reducible apply State.stopEarly_keeps
    | with_reducible apply State.topTrailer_keeps
    | with_reducible apply State.drainMiss_keeps
    | with_reducible apply State.drainArrive_keeps
    | with_reducible apply State.popDrain_keeps
    | with_reducible apply Keeps.ite
    | split
    | dsimp only

theorem execDrainPop_keeps (d : DieIx) (c : CoreIx) (s : State) : Lawful s (execDrainPop d c s) := by
  unfold execDrainPop
  repeat' first
    | with_reducible apply Lawful.onDie
    | with_reducible apply Lawful.next
    | with_reducible assumption
    | with_reducible exact Keeps.refl _
    | intro _
    | with_reducible apply withPick_keeps
    | with_reducible apply State.drainPop_keeps
    | with_reducible apply Keeps.ite

theorem execTableWaitTimeout_keeps (d : DieIx) (c : CoreIx) (s : State) : Lawful s (execTableWaitTimeout d c s) := by
  unfold execTableWaitTimeout
  repeat' first
    | with_reducible apply Lawful.onDie
    | with_reducible apply Lawful.next
    | with_reducible assumption
    | with_reducible exact Keeps.refl _
    | intro _
    | with_reducible apply State.stopEarly_keeps
    | with_reducible apply withPick_keeps
    | with_reducible apply Keeps.ite
    | split

theorem DrainAcc.line_keeps {r0 : State} (a : DrainAcc) (d : DieIx) (c : CoreIx) (x : Desc) (f : Fmt) (line col : Nat) (sums : List MxSum)
    (ha : Keeps r0 a.s) : Keeps r0 (DrainAcc.line a d c x f line col sums).2.s := by
  unfold DrainAcc.line
  dsimp only
  have h1 : ∀ (b : Bool) (y : ReadOut), Keeps r0 y.state → Keeps r0 (if b = true then y.state else a.s) :=
    fun b y hy => Keeps.ite hy ha
  have hr := State.memRead_keeps (r0 := r0) a.s ⟨d, dJob x, false⟩ d 1 (lineOff c line) (sums.length * f.elemBytes) ha
  split
  · exact h1 _ _ hr
  · exact State.modCore_keeps _ _ _ _ (State.memWrite_keeps _ _ _ _ _ _ _ (h1 _ _ hr))

theorem DrainAcc.lines_keeps {r0 : State} (d : DieIx) (c : CoreIx) (x : Desc) (f : Fmt) (per line col n : Nat) (l : List (Option MxSum))
    (a : DrainAcc) (ha : Keeps r0 a.s) : Keeps r0 (DrainAcc.lines d c x f per line col n l a).2.s := by
  induction n generalizing line col l a with
  | zero => exact ha
  | succ n ih =>
    unfold DrainAcc.lines
    dsimp only
    split
    · exact ih _ _ _ _ ha
    · exact ih _ _ _ _ (DrainAcc.line_keeps _ _ _ _ _ _ _ _ ha)

theorem DrainAcc.spans_keeps {r0 : State} (d : DieIx) (q : QId) (r : Running) (f ofm : Fmt) (row : Nat) (l : List (Nat × List DrainVal))
    (a : DrainAcc) (ha : Keeps r0 a.s) : Keeps r0 (DrainAcc.spans d q r f ofm row l a).s := by
  induction l generalizing a with
  | nil => exact ha
  | cons p ps ih =>
    unfold DrainAcc.spans
    exact ih _ (State.put_keeps _ _ _ _ _ _ _ ha)

theorem DrainAcc.row_keeps {r0 : State} (a : DrainAcc) (d : DieIx) (c : CoreIx) (r : Running) (st : Stationary) (ofm : Fmt)
    (p : Nat × List (Option MxSum)) (ha : Keeps r0 a.s) : Keeps r0 (DrainAcc.row a d c r st ofm p).s := by
  unfold DrainAcc.row
  extract_lets x f nl o
  have ho : Keeps r0 o.2.s := DrainAcc.lines_keeps _ _ _ _ _ _ _ _ _ _ ha
  split
  · exact ho
  · exact DrainAcc.spans_keeps _ _ _ _ _ _ _ _ ho

theorem State.readRows_keeps {r0 : State} (a : Access) (d : DieIx) (c : CoreIx) (x : Desc) (len : Nat) (l : List Nat) (s : State) (hs : Keeps r0 s) :
    Keeps r0 (State.readRows a d c x len l s).2 := by
  induction l generalizing s with
  | nil => exact hs
  | cons p ps ih => exact ih _ (State.memRead_keeps _ _ _ _ _ _ hs)

theorem State.mxSnapshot_keeps {r0 : State} (s : State) (d : DieIx) (c : CoreIx) (x : Desc) (st : Stationary) (af : Fmt) (hs : Keeps r0 s) :
    Keeps r0 (State.mxSnapshot s d c x st af).2 := by
  unfold State.mxSnapshot
  apply State.drawFree_keeps
  apply Keeps.fold2
  · exact State.readRows_keeps _ _ _ _ _ _ _ (State.memRead_keeps _ _ _ _ _ _ hs)
  · intro t n ht
    dsimp only
    split
    · exact State.memRead_keeps _ _ _ _ _ _ ht
    · exact ht

theorem State.mulFail_keeps {r0 : State} (s : State) (d : DieIx) (c : CoreIx) (r : Running) (st : Stationary) (hs : Keeps r0 s) : Keeps r0 (State.mulFail s d c r st) := by
  unfold State.mulFail
  repeat' first
    | with_reducible assumption
    | with_reducible exact Keeps.refl _
    | intro _
    | with_reducible apply State.addSat_keeps
    | with_reducible apply State.quarantine_keeps
    | with_reducible apply State.noteSnap_keeps
    | with_reducible apply State.mxSnapshot_keeps
    | with_reducible apply Keeps.ite
    | split

theorem State.poisonOut_keeps {r0 : State} (s : State) (d : DieIx) (q : QId) (r : Running) (p : BoardAddr × List Byte) (hs : Keeps r0 s) : Keeps r0 (State.poisonOut s d q r p) := by
  unfold State.poisonOut
  repeat' first
    | with_reducible assumption
    | with_reducible exact Keeps.refl _
    | intro _
    | with_reducible apply State.memWrite_keeps
    | with_reducible apply State.put_keeps
    | with_reducible apply Keeps.ite

theorem State.mulEnd_keeps {r0 : State} (s : State) (d : DieIx) (c : CoreIx) (r : Running) (hs : Keeps r0 s) : Keeps r0 (State.mulEnd s d c r) := by
  unfold State.mulEnd
  repeat' first
    | with_reducible assumption
    | with_reducible exact Keeps.refl _
    | intro _
    | with_reducible apply State.finish_keeps
    | with_reducible apply State.dropReqs_keeps
    | with_reducible apply State.setRunning_keeps
    | with_reducible apply State.stopEarly_keeps
    | with_reducible apply State.mulFail_keeps
    | with_reducible apply State.poisonOut_keeps
    | with_reducible apply Keeps.fold
    | with_reducible apply Keeps.fold1
    | with_reducible apply Keeps.fold2
    | with_reducible apply Keeps.fold3
    | with_reducible apply Keeps.ite
    | split

theorem State.mulMask_keeps {r0 : State} (s : State) (d : DieIx) (c : CoreIx) (r : Running) (ncols : Nat) (hs : Keeps r0 s) : Keeps r0 (State.mulMask s d c r ncols).2 := by
  unfold State.mulMask
  repeat' first
    | with_reducible assumption
    | with_reducible exact Keeps.refl _
    | intro _
    | with_reducible apply State.memRead_keeps

theorem State.feedTile_keeps {r0 : State} (s : State) (d : DieIx) (c : CoreIx) (r : Running) (af : Fmt) (parity : List (Nat × Nat))
    (ups : List Upset) (m : MulRun) (hs : Keeps r0 s) : Keeps r0 (State.feedTile s d c r af parity ups m).2 :=
  State.readRows_keeps _ _ _ _ _ _ _ hs

theorem State.drainTile_keeps {r0 : State} (s : State) (d : DieIx) (c : CoreIx) (r : Running) (ofm : Fmt) (m : MulRun) (hs : Keeps r0 s) :
    Keeps r0 (State.drainTile s d c r ofm m).s :=
  fold_inv (fun (a : DrainAcc) => Keeps r0 a.s) _ _ _ hs (fun a p ha => DrainAcc.row_keeps _ _ _ _ _ _ _ ha)

theorem State.mulCheck_keeps {r0 : State} (s : State) (d : DieIx) (c : CoreIx) (r : Running) (af : Fmt) (m : MulRun) (hs : Keeps r0 s) :
    Keeps r0 (State.mulCheck s d c r af m) :=
  State.mulEnd_keeps _ _ _ _ (State.setRunning_keeps _ _ _ _ (State.modCore_keeps _ _ _ _ (State.drawFree_keeps _ hs)))

theorem State.mulTiles_keeps {r0 : State} (d : DieIx) (c : CoreIx) (af ofm : Fmt) (parity : List (Nat × Nat)) (ups : List Upset) (n : Nat)
    (r : Running) (m : MulRun) (s : State) (hs : Keeps r0 s) : Keeps r0 (State.mulTiles d c af ofm parity ups n r m s) := by
  induction n generalizing r m s with
  | zero => exact hs
  | succ n ih =>
    unfold State.mulTiles
    extract_lets q hold f o k r1 src m1 s1
    split
    · split
      · exact State.stopEarly_keeps _ _ _ _ _ hs
      · rename_i t e
        exact State.modCore_keeps _ _ _ _ (State.fetchAll_wait e hs)
      · rename_i l t e
        exact ih _ _ _ (State.dropReads_keeps _ _ _ _ (State.fetchAll_data e hs))
    · have h1 : Keeps r0 s1 := State.setRunning_keeps _ _ _ _ (State.modCore_keeps _ _ _ _
        (State.drainTile_keeps _ _ _ _ _ _ (State.feedTile_keeps _ _ _ _ _ _ _ _ hs)))
      split
      · exact ih _ _ _ h1
      · exact State.mulCheck_keeps _ _ _ _ _ _ h1

theorem State.mulBegin_keeps {r0 : State} (s : State) (d : DieIx) (c : CoreIx) (r : Running) (st : Stationary) (af ofm : Fmt)
    (parity : List (Nat × Nat)) (ups : List Upset) (hs : Keeps r0 s) : Keeps r0 (State.mulBegin s d c r st af ofm parity ups) := by
  unfold State.mulBegin
  extract_lets q x m wrong t pair0
  have hm : Keeps r0 m.2 := State.mulMask_keeps _ _ _ _ _ hs
  split
  · exact State.stopEarly_keeps _ _ _ _ _ hs
  · exact State.mulTiles_keeps _ _ _ _ _ _ _ _ _ _ (Keeps.ite (State.modCore_keeps _ _ _ _ hm) hm)

theorem State.mulRun_keeps {r0 : State} (s : State) (d : DieIx) (c : CoreIx) (parity : List (Nat × Nat)) (ups : List Upset) (r : Running)
    (hs : Keeps r0 s) : Keeps r0 (State.mulRun s d c parity ups r) := by
  unfold State.mulRun
  dsimp only
  split
  · exact State.mulTiles_keeps _ _ _ _ _ _ _ _ _ _ hs
  · split
    · exact State.finish_keeps _ _ _ _ _ (State.countService_keeps _ _ hs)
    · exact hs
    · split
      · exact hs
      · split
        · exact State.stopEarly_keeps _ _ _ _ _ hs
        · exact hs
        · exact State.mulBegin_keeps _ _ _ _ _ _ _ _ _ hs

theorem withMul_keeps {r0 : State} (s : State) (d : DieIx) (c : CoreIx) (kind : Nat) (k : Running → State) (hs : Keeps r0 s) (hk : ∀ x, Keeps r0 (k x)) : Keeps r0 (withMul s d c kind k) := by
  unfold withMul
  repeat' first
    | with_reducible assumption
    | with_reducible exact Keeps.refl _
    | intro _
    | with_reducible apply State.finish_keeps
    | with_reducible apply State.mulEnd_keeps
    | with_reducible apply hk
    | with_reducible apply Keeps.ite
    | split
    | dsimp only

theorem execMul_keeps (d : DieIx) (c : CoreIx) (parity : List (Nat × Nat)) (ups : List Upset) (s : State) : Lawful s (execMul d c parity ups s) := by
  unfold execMul
  repeat' first
    | with_reducible apply Lawful.onDie
    | with_reducible apply Lawful.next
    | with_reducible assumption
    | with_reducible exact Keeps.refl _
    | intro _
    | with_reducible apply State.mulRun_keeps
    | with_reducible apply withMul_keeps

theorem execDiag_keeps (d : DieIx) (c : CoreIx) (parity : List (Nat × Nat)) (ups : List Upset) (s : State) : Lawful s (execDiag d c parity ups s) := by
  unfold execDiag
  repeat' first
    | with_reducible apply Lawful.onDie
    | with_reducible apply Lawful.next
    | with_reducible assumption
    | with_reducible exact Keeps.refl _
    | intro _
    | with_reducible apply State.mulRun_keeps
    | with_reducible apply withMul_keeps

theorem State.vxPoison_keeps {r0 : State} (s : State) (d : DieIx) (c : CoreIx) (bad : Bool) (hs : Keeps r0 s) : Keeps r0 (State.vxPoison s d c bad) := by
  unfold State.vxPoison
  repeat' first
    | with_reducible assumption
    | with_reducible exact Keeps.refl _
    | intro _
    | with_reducible apply State.addSat_keeps
    | with_reducible apply Keeps.ite

theorem State.vwrite_keeps {r0 : State} (s : State) (d : DieIx) (c : CoreIx) (vd : Fin 32) (w : Fin 4) (l : List VOut) (flags : DWord) (g : Gen) (hs : Keeps r0 s) : Keeps r0 (State.vwrite s d c vd w l flags g) := by
  unfold State.vwrite
  repeat' first
    | with_reducible assumption
    | with_reducible exact Keeps.refl _
    | intro _
    | with_reducible apply State.modCore_keeps
    | with_reducible apply State.vxPoison_keeps

theorem State.vinsn_keeps {r0 : State} (s : State) (d : DieIx) (c : CoreIx) (i : Instr) (legal : Bool) (body : State → Eff) (hs : Keeps r0 s) (hbody : ∀ t, Keeps r0 t → Eff.Keeps r0 (body t)) : Keeps r0 (State.vinsn s d c i legal body) := by
  unfold State.vinsn
  repeat' first
    | with_reducible assumption
    | with_reducible exact Keeps.refl _
    | intro _
    | with_reducible apply State.insn_keeps
    | with_reducible apply hbody
    | with_reducible apply Eff.keeps_ok
    | with_reducible apply Eff.keeps_jump
    | with_reducible apply Eff.keeps_fin
    | with_reducible apply Eff.keeps_stall
    | with_reducible apply Eff.keeps_trapIn
    | with_reducible apply Eff.keeps_trap
    | with_reducible apply Keeps.ite
    | split

theorem vbad_keeps {r0 : State}   : Eff.Keeps r0 (vbad) := by
  unfold vbad
  repeat' first
    | with_reducible assumption
    | with_reducible exact Keeps.refl _
    | intro _
    | with_reducible apply Eff.keeps_ok
    | with_reducible apply Eff.keeps_jump
    | with_reducible apply Eff.keeps_fin
    | with_reducible apply Eff.keeps_stall
    | with_reducible apply Eff.keeps_trapIn
    | with_reducible apply Eff.keeps_trap

theorem State.vfArith_keeps {r0 : State} (s : State) (d : DieIx) (c : CoreIx) (vd : Fin 32) (w : Fin 4) (pg : Fin 8) (ops : Core → Nat → List VEl) (op : Fmt → Rnd → List Nat → Gen → FpOut) (hs : Keeps r0 s) : Eff.Keeps r0 (State.vfArith s d c vd w pg ops op) := by
  unfold State.vfArith
  repeat' first
    | with_reducible assumption
    | with_reducible exact Keeps.refl _
    | intro _
    | with_reducible apply State.vwrite_keeps
    | with_reducible apply vbad_keeps
    | with_reducible apply Eff.keeps_ok
    | with_reducible apply Eff.keeps_jump
    | with_reducible apply Eff.keeps_fin
    | with_reducible apply Eff.keeps_stall
    | with_reducible apply Eff.keeps_trapIn
    | with_reducible apply Eff.keeps_trap
    | with_reducible apply Keeps.ite
    | split

theorem State.viArith_keeps {r0 : State} (s : State) (d : DieIx) (c : CoreIx) (vd : Fin 32) (w : Fin 4) (pg : Fin 8) (ops : Core → Nat → List VEl) (op : Nat → Nat → Nat) (hs : Keeps r0 s) : Eff.Keeps r0 (State.viArith s d c vd w pg ops op) := by
  unfold State.viArith
  repeat' first
    | with_reducible assumption
    | with_reducible exact Keeps.refl _
    | intro _
    | with_reducible apply State.vwrite_keeps
    | with_reducible apply Eff.keeps_ok

theorem State.vcmp_keeps {r0 : State} (s : State) (d : DieIx) (c : CoreIx) (vd : Fin 32) (w : Fin 4) (pg : Fin 8) (ops : Core → Nat → List VEl) (test : Nat → Nat → Bool × BitVec 8) (hs : Keeps r0 s) : Eff.Keeps r0 (State.vcmp s d c vd w pg ops test) := by
  unfold State.vcmp
  repeat' first
    | with_reducible assumption
    | with_reducible exact Keeps.refl _
    | intro _
    | with_reducible apply State.modCore_keeps
    | with_reducible apply Eff.keeps_ok
    | with_reducible apply Eff.keeps_jump
    | with_reducible apply Eff.keeps_fin
    | with_reducible apply Eff.keeps_stall
    | with_reducible apply Eff.keeps_trapIn
    | with_reducible apply Eff.keeps_trap
    | with_reducible apply Keeps.fold
    | with_reducible apply Keeps.fold1
    | with_reducible apply Keeps.fold2
    | with_reducible apply Keeps.fold3
    | with_reducible apply Keeps.ite
    | split
    | dsimp only

theorem State.vfCmp_keeps {r0 : State} (s : State) (d : DieIx) (c : CoreIx) (o : FCmp) (vd : Fin 32) (vs1 : Fin 32) (vs2 : Fin 32) (w : Fin 4) (pg : Fin 8) (scal : Bool) (hs : Keeps r0 s) : Eff.Keeps r0 (State.vfCmp s d c o vd vs1 vs2 w pg scal) := by
  unfold State.vfCmp
  repeat' first
    | with_reducible assumption
    | with_reducible exact Keeps.refl _
    | intro _
    | with_reducible apply vbad_keeps
    | with_reducible apply State.vcmp_keeps
    | with_reducible apply Eff.keeps_ok
    | with_reducible apply Eff.keeps_jump
    | with_reducible apply Eff.keeps_fin
    | with_reducible apply Eff.keeps_stall
    | with_reducible apply Eff.keeps_trapIn
    | with_reducible apply Eff.keeps_trap
    | with_reducible apply Keeps.ite
    | split

theorem State.vreduce_keeps {r0 : State} (s : State) (d : DieIx) (c : CoreIx) (vd : Fin 32) (w : Fin 4) (pg : Fin 8) (srcs : Core → List VEl) (run : Core → List Nat → Gen → Nat × DWord × Gen) (hs : Keeps r0 s) : Eff.Keeps r0 (State.vreduce s d c vd w pg srcs run) := by
  unfold State.vreduce
  repeat' first
    | with_reducible assumption
    | with_reducible exact Keeps.refl _
    | intro _
    | with_reducible apply State.vwrite_keeps
    | with_reducible apply Eff.keeps_ok
    | with_reducible apply Eff.keeps_jump
    | with_reducible apply Eff.keeps_fin
    | with_reducible apply Eff.keeps_stall
    | with_reducible apply Eff.keeps_trapIn
    | with_reducible apply Eff.keeps_trap
    | with_reducible apply Keeps.ite
    | split
    | dsimp only

theorem execVfadd_keeps (d : DieIx) (c : CoreIx) (vd : Fin 32) (vs1 : Fin 32) (vs2 : Fin 32) (w : Fin 4) (pg : Fin 8) (scal : Bool) (s : State) : Lawful s (execVfadd d c vd vs1 vs2 w pg scal s) := by
  unfold execVfadd
  repeat' first
    | with_reducible apply Lawful.onDie
    | with_reducible apply Lawful.next
    | with_reducible assumption
    | with_reducible exact Keeps.refl _
    | intro _
    | with_reducible apply State.vinsn_keeps
    | with_reducible apply State.vfArith_keeps

theorem execVfsub_keeps (d : DieIx) (c : CoreIx) (vd : Fin 32) (vs1 : Fin 32) (vs2 : Fin 32) (w : Fin 4) (pg : Fin 8) (scal : Bool) (s : State) : Lawful s (execVfsub d c vd vs1 vs2 w pg scal s) := by
  unfold execVfsub
  repeat' first
    | with_reducible apply Lawful.onDie
    | with_reducible apply Lawful.next
    | with_reducible assumption
    | with_reducible exact Keeps.refl _
    | intro _
    | with_reducible apply State.vinsn_keeps
    | with_reducible apply State.vfArith_keeps

theorem execVfmul_keeps (d : DieIx) (c : CoreIx) (vd : Fin 32) (vs1 : Fin 32) (vs2 : Fin 32) (w : Fin 4) (pg : Fin 8) (scal : Bool) (s : State) : Lawful s (execVfmul d c vd vs1 vs2 w pg scal s) := by
  unfold execVfmul
  repeat' first
    | with_reducible apply Lawful.onDie
    | with_reducible apply Lawful.next
    | with_reducible assumption
    | with_reducible exact Keeps.refl _
    | intro _
    | with_reducible apply State.vinsn_keeps
    | with_reducible apply State.vfArith_keeps

theorem execVfdiv_keeps (d : DieIx) (c : CoreIx) (vd : Fin 32) (vs1 : Fin 32) (vs2 : Fin 32) (w : Fin 4) (pg : Fin 8) (scal : Bool) (s : State) : Lawful s (execVfdiv d c vd vs1 vs2 w pg scal s) := by
  unfold execVfdiv
  repeat' first
    | with_reducible apply Lawful.onDie
    | with_reducible apply Lawful.next
    | with_reducible assumption
    | with_reducible exact Keeps.refl _
    | intro _
    | with_reducible apply State.vinsn_keeps
    | with_reducible apply State.vfArith_keeps

theorem execVfsqrt_keeps (d : DieIx) (c : CoreIx) (vd : Fin 32) (vs1 : Fin 32) (vs2 : Fin 32) (w : Fin 4) (pg : Fin 8) (scal : Bool) (s : State) : Lawful s (execVfsqrt d c vd vs1 vs2 w pg scal s) := by
  unfold execVfsqrt
  repeat' first
    | with_reducible apply Lawful.onDie
    | with_reducible apply Lawful.next
    | with_reducible assumption
    | with_reducible exact Keeps.refl _
    | intro _
    | with_reducible apply State.vinsn_keeps
    | with_reducible apply State.vfArith_keeps

theorem execVfmin_keeps (d : DieIx) (c : CoreIx) (vd : Fin 32) (vs1 : Fin 32) (vs2 : Fin 32) (w : Fin 4) (pg : Fin 8) (scal : Bool) (s : State) : Lawful s (execVfmin d c vd vs1 vs2 w pg scal s) := by
  unfold execVfmin
  repeat' first
    | with_reducible apply Lawful.onDie
    | with_reducible apply Lawful.next
    | with_reducible assumption
    | with_reducible exact Keeps.refl _
    | intro _
    | with_reducible apply State.vinsn_keeps
    | with_reducible apply State.vfArith_keeps

theorem execVfmax_keeps (d : DieIx) (c : CoreIx) (vd : Fin 32) (vs1 : Fin 32) (vs2 : Fin 32) (w : Fin 4) (pg : Fin 8) (scal : Bool) (s : State) : Lawful s (execVfmax d c vd vs1 vs2 w pg scal s) := by
  unfold execVfmax
  repeat' first
    | with_reducible apply Lawful.onDie
    | with_reducible apply Lawful.next
    | with_reducible assumption
    | with_reducible exact Keeps.refl _
    | intro _
    | with_reducible apply State.vinsn_keeps
    | with_reducible apply State.vfArith_keeps

theorem execVffma_keeps (d : DieIx) (c : CoreIx) (vd : Fin 32) (vs1 : Fin 32) (vs2 : Fin 32) (w : Fin 4) (pg : Fin 8) (scal : Bool) (s : State) : Lawful s (execVffma d c vd vs1 vs2 w pg scal s) := by
  unfold execVffma
  repeat' first
    | with_reducible apply Lawful.onDie
    | with_reducible apply Lawful.next
    | with_reducible assumption
    | with_reducible exact Keeps.refl _
    | intro _
    | with_reducible apply State.vinsn_keeps
    | with_reducible apply State.vfArith_keeps

theorem execVffms_keeps (d : DieIx) (c : CoreIx) (vd : Fin 32) (vs1 : Fin 32) (vs2 : Fin 32) (w : Fin 4) (pg : Fin 8) (scal : Bool) (s : State) : Lawful s (execVffms d c vd vs1 vs2 w pg scal s) := by
  unfold execVffms
  repeat' first
    | with_reducible apply Lawful.onDie
    | with_reducible apply Lawful.next
    | with_reducible assumption
    | with_reducible exact Keeps.refl _
    | intro _
    | with_reducible apply State.vinsn_keeps
    | with_reducible apply State.vfArith_keeps

theorem execVffnma_keeps (d : DieIx) (c : CoreIx) (vd : Fin 32) (vs1 : Fin 32) (vs2 : Fin 32) (w : Fin 4) (pg : Fin 8) (scal : Bool) (s : State) : Lawful s (execVffnma d c vd vs1 vs2 w pg scal s) := by
  unfold execVffnma
  repeat' first
    | with_reducible apply Lawful.onDie
    | with_reducible apply Lawful.next
    | with_reducible assumption
    | with_reducible exact Keeps.refl _
    | intro _
    | with_reducible apply State.vinsn_keeps
    | with_reducible apply State.vfArith_keeps

theorem execVfabs_keeps (d : DieIx) (c : CoreIx) (vd : Fin 32) (vs1 : Fin 32) (vs2 : Fin 32) (w : Fin 4) (pg : Fin 8) (scal : Bool) (s : State) : Lawful s (execVfabs d c vd vs1 vs2 w pg scal s) := by
  unfold execVfabs
  repeat' first
    | with_reducible apply Lawful.onDie
    | with_reducible apply Lawful.next
    | with_reducible assumption
    | with_reducible exact Keeps.refl _
    | intro _
    | with_reducible apply State.vinsn_keeps
    | with_reducible apply State.vfArith_keeps

theorem execVfneg_keeps (d : DieIx) (c : CoreIx) (vd : Fin 32) (vs1 : Fin 32) (vs2 : Fin 32) (w : Fin 4) (pg : Fin 8) (scal : Bool) (s : State) : Lawful s (execVfneg d c vd vs1 vs2 w pg scal s) := by
  unfold execVfneg
  repeat' first
    | with_reducible apply Lawful.onDie
    | with_reducible apply Lawful.next
    | with_reducible assumption
    | with_reducible exact Keeps.refl _
    | intro _
    | with_reducible apply State.vinsn_keeps
    | with_reducible apply State.vfArith_keeps

theorem execVfsgnj_keeps (d : DieIx) (c : CoreIx) (vd : Fin 32) (vs1 : Fin 32) (vs2 : Fin 32) (w : Fin 4) (pg : Fin 8) (scal : Bool) (s : State) : Lawful s (execVfsgnj d c vd vs1 vs2 w pg scal s) := by
  unfold execVfsgnj
  repeat' first
    | with_reducible apply Lawful.onDie
    | with_reducible apply Lawful.next
    | with_reducible assumption
    | with_reducible exact Keeps.refl _
    | intro _
    | with_reducible apply State.vinsn_keeps
    | with_reducible apply State.vfArith_keeps

theorem execVfeq_keeps (d : DieIx) (c : CoreIx) (vd : Fin 32) (vs1 : Fin 32) (vs2 : Fin 32) (w : Fin 4) (pg : Fin 8) (scal : Bool) (s : State) : Lawful s (execVfeq d c vd vs1 vs2 w pg scal s) := by
  unfold execVfeq
  repeat' first
    | with_reducible apply Lawful.onDie
    | with_reducible apply Lawful.next
    | with_reducible assumption
    | with_reducible exact Keeps.refl _
    | intro _
    | with_reducible apply State.vinsn_keeps
    | with_reducible apply State.vfCmp_keeps

theorem execVflt_keeps (d : DieIx) (c : CoreIx) (vd : Fin 32) (vs1 : Fin 32) (vs2 : Fin 32) (w : Fin 4) (pg : Fin 8) (scal : Bool) (s : State) : Lawful s (execVflt d c vd vs1 vs2 w pg scal s) := by
  unfold execVflt
  repeat' first
    | with_reducible apply Lawful.onDie
    | with_reducible apply Lawful.next
    | with_reducible assumption
    | with_reducible exact Keeps.refl _
    | intro _
    | with_reducible apply State.vinsn_keeps
    | with_reducible apply State.vfCmp_keeps

theorem execVfle_keeps (d : DieIx) (c : CoreIx) (vd : Fin 32) (vs1 : Fin 32) (vs2 : Fin 32) (w : Fin 4) (pg : Fin 8) (scal : Bool) (s : State) : Lawful s (execVfle d c vd vs1 vs2 w pg scal s) := by
  unfold execVfle
  repeat' first
    | with_reducible apply Lawful.onDie
    | with_reducible apply Lawful.next
    | with_reducible assumption
    | with_reducible exact Keeps.refl _
    | intro _
    | with_reducible apply State.vinsn_keeps
    | with_reducible apply State.vfCmp_keeps

theorem execVfunord_keeps (d : DieIx) (c : CoreIx) (vd : Fin 32) (vs1 : Fin 32) (vs2 : Fin 32) (w : Fin 4) (pg : Fin 8) (scal : Bool) (s : State) : Lawful s (execVfunord d c vd vs1 vs2 w pg scal s) := by
  unfold execVfunord
  repeat' first
    | with_reducible apply Lawful.onDie
    | with_reducible apply Lawful.next
    | with_reducible assumption
    | with_reducible exact Keeps.refl _
    | intro _
    | with_reducible apply State.vinsn_keeps
    | with_reducible apply State.vfCmp_keeps

theorem execVf2i_keeps (d : DieIx) (c : CoreIx) (vd : Fin 32) (vs1 : Fin 32) (vs2 : Fin 32) (w : Fin 4) (pg : Fin 8) (scal : Bool) (s : State) : Lawful s (execVf2i d c vd vs1 vs2 w pg scal s) := by
  unfold execVf2i
  repeat' first
    | with_reducible apply Lawful.onDie
    | with_reducible apply Lawful.next
    | with_reducible assumption
    | with_reducible exact Keeps.refl _
    | intro _
    | with_reducible apply State.vwrite_keeps
    | with_reducible apply State.vinsn_keeps
    | with_reducible apply vbad_keeps
    | with_reducible apply Eff.keeps_ok
    | with_reducible apply Eff.keeps_jump
    | with_reducible apply Eff.keeps_fin
    | with_reducible apply Eff.keeps_stall
    | with_reducible apply Eff.keeps_trapIn
    | with_reducible apply Eff.keeps_trap
    | with_reducible apply Keeps.ite
    | split

theorem execVi2f_keeps (d : DieIx) (c : CoreIx) (vd : Fin 32) (vs1 : Fin 32) (vs2 : Fin 32) (w : Fin 4) (pg : Fin 8) (scal : Bool) (s : State) : Lawful s (execVi2f d c vd vs1 vs2 w pg scal s) := by
  unfold execVi2f
  repeat' first
    | with_reducible apply Lawful.onDie
    | with_reducible apply Lawful.next
    | with_reducible assumption
    | with_reducible exact Keeps.refl _
    | intro _
    | with_reducible apply State.vinsn_keeps
    | with_reducible apply State.vfArith_keeps

theorem execVfsumt_keeps (d : DieIx) (c : CoreIx) (vd : Fin 32) (vs1 : Fin 32) (vs2 : Fin 32) (w : Fin 4) (pg : Fin 8) (scal : Bool) (s : State) : Lawful s (execVfsumt d c vd vs1 vs2 w pg scal s) := by
  unfold execVfsumt
  repeat' first
    | with_reducible apply Lawful.onDie
    | with_reducible apply Lawful.next
    | with_reducible assumption
    | with_reducible exact Keeps.refl _
    | intro _
    | with_reducible apply State.vinsn_keeps
    | with_reducible apply vbad_keeps
    | with_reducible apply State.vreduce_keeps
    | with_reducible apply Eff.keeps_ok
    | with_reducible apply Eff.keeps_jump
    | with_reducible apply Eff.keeps_fin
    | with_reducible apply Eff.keeps_stall
    | with_reducible apply Eff.keeps_trapIn
    | with_reducible apply Eff.keeps_trap
    | with_reducible apply Keeps.ite
    | split

theorem execVfsums_keeps (d : DieIx) (c : CoreIx) (vd : Fin 32) (vs1 : Fin 32) (vs2 : Fin 32) (w : Fin 4) (pg : Fin 8) (scal : Bool) (s : State) : Lawful s (execVfsums d c vd vs1 vs2 w pg scal s) := by
  unfold execVfsums
  repeat' first
    | with_reducible apply Lawful.onDie
    | with_reducible apply Lawful.next
    | with_reducible assumption
    | with_reducible exact Keeps.refl _
    | intro _
    | with_reducible apply State.vinsn_keeps
    | with_reducible apply vbad_keeps
    | with_reducible apply State.vreduce_keeps
    | with_reducible apply Eff.keeps_ok
    | with_reducible apply Eff.keeps_jump
    | with_reducible apply Eff.keeps_fin
    | with_reducible apply Eff.keeps_stall
    | with_reducible apply Eff.keeps_trapIn
    | with_reducible apply Eff.keeps_trap
    | with_reducible apply Keeps.ite
    | split

theorem execVfmaxr_keeps (d : DieIx) (c : CoreIx) (vd : Fin 32) (vs1 : Fin 32) (vs2 : Fin 32) (w : Fin 4) (pg : Fin 8) (scal : Bool) (s : State) : Lawful s (execVfmaxr d c vd vs1 vs2 w pg scal s) := by
  unfold execVfmaxr
  repeat' first
    | with_reducible apply Lawful.onDie
    | with_reducible apply Lawful.next
    | with_reducible assumption
    | with_reducible exact Keeps.refl _
    | intro _
    | with_reducible apply State.vinsn_keeps
    | with_reducible apply vbad_keeps
    | with_reducible apply State.vreduce_keeps
    | with_reducible apply Eff.keeps_ok
    | with_reducible apply Eff.keeps_jump
    | with_reducible apply Eff.keeps_fin
    | with_reducible apply Eff.keeps_stall
    | with_reducible apply Eff.keeps_trapIn
    | with_reducible apply Eff.keeps_trap
    | with_reducible apply Keeps.ite
    | split

theorem execVfminr_keeps (d : DieIx) (c : CoreIx) (vd : Fin 32) (vs1 : Fin 32) (vs2 : Fin 32) (w : Fin 4) (pg : Fin 8) (scal : Bool) (s : State) : Lawful s (execVfminr d c vd vs1 vs2 w pg scal s) := by
  unfold execVfminr
  repeat' first
    | with_reducible apply Lawful.onDie
    | with_reducible apply Lawful.next
    | with_reducible assumption
    | with_reducible exact Keeps.refl _
    | intro _
    | with_reducible apply State.vinsn_keeps
    | with_reducible apply vbad_keeps
    | with_reducible apply State.vreduce_keeps
    | with_reducible apply Eff.keeps_ok
    | with_reducible apply Eff.keeps_jump
    | with_reducible apply Eff.keeps_fin
    | with_reducible apply Eff.keeps_stall
    | with_reducible apply Eff.keeps_trapIn
    | with_reducible apply Eff.keeps_trap
    | with_reducible apply Keeps.ite
    | split

theorem execVadd_keeps (d : DieIx) (c : CoreIx) (vd : Fin 32) (vs1 : Fin 32) (vs2 : Fin 32) (w : Fin 4) (pg : Fin 8) (scal : Bool) (s : State) : Lawful s (execVadd d c vd vs1 vs2 w pg scal s) := by
  unfold execVadd
  repeat' first
    | with_reducible apply Lawful.onDie
    | with_reducible apply Lawful.next
    | with_reducible assumption
    | with_reducible exact Keeps.refl _
    | intro _
    | with_reducible apply State.vinsn_keeps
    | with_reducible apply State.viArith_keeps

theorem execVsub_keeps (d : DieIx) (c : CoreIx) (vd : Fin 32) (vs1 : Fin 32) (vs2 : Fin 32) (w : Fin 4) (pg : Fin 8) (scal : Bool) (s : State) : Lawful s (execVsub d c vd vs1 vs2 w pg scal s) := by
  unfold execVsub
  repeat' first
    | with_reducible apply Lawful.onDie
    | with_reducible apply Lawful.next
    | with_reducible assumption
    | with_reducible exact Keeps.refl _
    | intro _
    | with_reducible apply State.vinsn_keeps
    | with_reducible apply State.viArith_keeps

theorem execVmul_keeps (d : DieIx) (c : CoreIx) (vd : Fin 32) (vs1 : Fin 32) (vs2 : Fin 32) (w : Fin 4) (pg : Fin 8) (scal : Bool) (s : State) : Lawful s (execVmul d c vd vs1 vs2 w pg scal s) := by
  unfold execVmul
  repeat' first
    | with_reducible apply Lawful.onDie
    | with_reducible apply Lawful.next
    | with_reducible assumption
    | with_reducible exact Keeps.refl _
    | intro _
    | with_reducible apply State.vinsn_keeps
    | with_reducible apply State.viArith_keeps

theorem execVand_keeps (d : DieIx) (c : CoreIx) (vd : Fin 32) (vs1 : Fin 32) (vs2 : Fin 32) (w : Fin 4) (pg : Fin 8) (scal : Bool) (s : State) : Lawful s (execVand d c vd vs1 vs2 w pg scal s) := by
  unfold execVand
  repeat' first
    | with_reducible apply Lawful.onDie
    | with_reducible apply Lawful.next
    | with_reducible assumption
    | with_reducible exact Keeps.refl _
    | intro _
    | with_reducible apply State.vinsn_keeps
    | with_reducible apply State.viArith_keeps

theorem execVor_keeps (d : DieIx) (c : CoreIx) (vd : Fin 32) (vs1 : Fin 32) (vs2 : Fin 32) (w : Fin 4) (pg : Fin 8) (scal : Bool) (s : State) : Lawful s (execVor d c vd vs1 vs2 w pg scal s) := by
  unfold execVor
  repeat' first
    | with_reducible apply Lawful.onDie
    | with_reducible apply Lawful.next
    | with_reducible assumption
    | with_reducible exact Keeps.refl _
    | intro _
    | with_reducible apply State.vinsn_keeps
    | with_reducible apply State.viArith_keeps

theorem execVxor_keeps (d : DieIx) (c : CoreIx) (vd : Fin 32) (vs1 : Fin 32) (vs2 : Fin 32) (w : Fin 4) (pg : Fin 8) (scal : Bool) (s : State) : Lawful s (execVxor d c vd vs1 vs2 w pg scal s) := by
  unfold execVxor
  repeat' first
    | with_reducible apply Lawful.onDie
    | with_reducible apply Lawful.next
    | with_reducible assumption
    | with_reducible exact Keeps.refl _
    | intro _
    | with_reducible apply State.vinsn_keeps
    | with_reducible apply State.viArith_keeps

theorem execVsll_keeps (d : DieIx) (c : CoreIx) (vd : Fin 32) (vs1 : Fin 32) (vs2 : Fin 32) (w : Fin 4) (pg : Fin 8) (scal : Bool) (s : State) : Lawful s (execVsll d c vd vs1 vs2 w pg scal s) := by
  unfold execVsll
  repeat' first
    | with_reducible apply Lawful.onDie
    | with_reducible apply Lawful.next
    | with_reducible assumption
    | with_reducible exact Keeps.refl _
    | intro _
    | with_reducible apply State.vinsn_keeps
    | with_reducible apply State.viArith_keeps

theorem execVsrl_keeps (d : DieIx) (c : CoreIx) (vd : Fin 32) (vs1 : Fin 32) (vs2 : Fin 32) (w : Fin 4) (pg : Fin 8) (scal : Bool) (s : State) : Lawful s (execVsrl d c vd vs1 vs2 w pg scal s) := by
  unfold execVsrl
  repeat' first
    | with_reducible apply Lawful.onDie
    | with_reducible apply Lawful.next
    | with_reducible assumption
    | with_reducible exact Keeps.refl _
    | intro _
    | with_reducible apply State.vinsn_keeps
    | with_reducible apply State.viArith_keeps

theorem execVsra_keeps (d : DieIx) (c : CoreIx) (vd : Fin 32) (vs1 : Fin 32) (vs2 : Fin 32) (w : Fin 4) (pg : Fin 8) (scal : Bool) (s : State) : Lawful s (execVsra d c vd vs1 vs2 w pg scal s) := by
  unfold execVsra
  repeat' first
    | with_reducible apply Lawful.onDie
    | with_reducible apply Lawful.next
    | with_reducible assumption
    | with_reducible exact Keeps.refl _
    | intro _
    | with_reducible apply State.vinsn_keeps
    | with_reducible apply State.viArith_keeps

theorem execVmin_keeps (d : DieIx) (c : CoreIx) (vd : Fin 32) (vs1 : Fin 32) (vs2 : Fin 32) (w : Fin 4) (pg : Fin 8) (scal : Bool) (s : State) : Lawful s (execVmin d c vd vs1 vs2 w pg scal s) := by
  unfold execVmin
  repeat' first
    | with_reducible apply Lawful.onDie
    | with_reducible apply Lawful.next
    | with_reducible assumption
    | with_reducible exact Keeps.refl _
    | intro _
    | with_reducible apply State.vinsn_keeps
    | with_reducible apply State.viArith_keeps

theorem execVmax_keeps (d : DieIx) (c : CoreIx) (vd : Fin 32) (vs1 : Fin 32) (vs2 : Fin 32) (w : Fin 4) (pg : Fin 8) (scal : Bool) (s : State) : Lawful s (execVmax d c vd vs1 vs2 w pg scal s) := by
  unfold execVmax
  repeat' first
    | with_reducible apply Lawful.onDie
    | with_reducible apply Lawful.next
    | with_reducible assumption
    | with_reducible exact Keeps.refl _
    | intro _
    | with_reducible apply State.vinsn_keeps
    | with_reducible apply State.viArith_keeps

theorem execVminu_keeps (d : DieIx) (c : CoreIx) (vd : Fin 32) (vs1 : Fin 32) (vs2 : Fin 32) (w : Fin 4) (pg : Fin 8) (scal : Bool) (s : State) : Lawful s (execVminu d c vd vs1 vs2 w pg scal s) := by
  unfold execVminu
  repeat' first
    | with_reducible apply Lawful.onDie
    | with_reducible apply Lawful.next
    | with_reducible assumption
    | with_reducible exact Keeps.refl _
    | intro _
    | with_reducible apply State.vinsn_keeps
    | with_reducible apply State.viArith_keeps

theorem execVmaxu_keeps (d : DieIx) (c : CoreIx) (vd : Fin 32) (vs1 : Fin 32) (vs2 : Fin 32) (w : Fin 4) (pg : Fin 8) (scal : Bool) (s : State) : Lawful s (execVmaxu d c vd vs1 vs2 w pg scal s) := by
  unfold execVmaxu
  repeat' first
    | with_reducible apply Lawful.onDie
    | with_reducible apply Lawful.next
    | with_reducible assumption
    | with_reducible exact Keeps.refl _
    | intro _
    | with_reducible apply State.vinsn_keeps
    | with_reducible apply State.viArith_keeps

theorem execVeq_keeps (d : DieIx) (c : CoreIx) (vd : Fin 32) (vs1 : Fin 32) (vs2 : Fin 32) (w : Fin 4) (pg : Fin 8) (scal : Bool) (s : State) : Lawful s (execVeq d c vd vs1 vs2 w pg scal s) := by
  unfold execVeq
  repeat' first
    | with_reducible apply Lawful.onDie
    | with_reducible apply Lawful.next
    | with_reducible assumption
    | with_reducible exact Keeps.refl _
    | intro _
    | with_reducible apply State.vinsn_keeps
    | with_reducible apply State.vcmp_keeps

theorem execVlt_keeps (d : DieIx) (c : CoreIx) (vd : Fin 32) (vs1 : Fin 32) (vs2 : Fin 32) (w : Fin 4) (pg : Fin 8) (scal : Bool) (s : State) : Lawful s (execVlt d c vd vs1 vs2 w pg scal s) := by
  unfold execVlt
  repeat' first
    | with_reducible apply Lawful.onDie
    | with_reducible apply Lawful.next
    | with_reducible assumption
    | with_reducible exact Keeps.refl _
    | intro _
    | with_reducible apply State.vinsn_keeps
    | with_reducible apply State.vcmp_keeps

theorem execVltu_keeps (d : DieIx) (c : CoreIx) (vd : Fin 32) (vs1 : Fin 32) (vs2 : Fin 32) (w : Fin 4) (pg : Fin 8) (scal : Bool) (s : State) : Lawful s (execVltu d c vd vs1 vs2 w pg scal s) := by
  unfold execVltu
  repeat' first
    | with_reducible apply Lawful.onDie
    | with_reducible apply Lawful.next
    | with_reducible assumption
    | with_reducible exact Keeps.refl _
    | intro _
    | with_reducible apply State.vinsn_keeps
    | with_reducible apply State.vcmp_keeps

theorem execVsumt_keeps (d : DieIx) (c : CoreIx) (vd : Fin 32) (vs1 : Fin 32) (vs2 : Fin 32) (w : Fin 4) (pg : Fin 8) (scal : Bool) (s : State) : Lawful s (execVsumt d c vd vs1 vs2 w pg scal s) := by
  unfold execVsumt
  repeat' first
    | with_reducible apply Lawful.onDie
    | with_reducible apply Lawful.next
    | with_reducible assumption
    | with_reducible exact Keeps.refl _
    | intro _
    | with_reducible apply State.vinsn_keeps
    | with_reducible apply State.vreduce_keeps

theorem execVmaxr_keeps (d : DieIx) (c : CoreIx) (vd : Fin 32) (vs1 : Fin 32) (vs2 : Fin 32) (w : Fin 4) (pg : Fin 8) (scal : Bool) (s : State) : Lawful s (execVmaxr d c vd vs1 vs2 w pg scal s) := by
  unfold execVmaxr
  repeat' first
    | with_reducible apply Lawful.onDie
    | with_reducible apply Lawful.next
    | with_reducible assumption
    | with_reducible exact Keeps.refl _
    | intro _
    | with_reducible apply State.vinsn_keeps
    | with_reducible apply State.vreduce_keeps

theorem execVminr_keeps (d : DieIx) (c : CoreIx) (vd : Fin 32) (vs1 : Fin 32) (vs2 : Fin 32) (w : Fin 4) (pg : Fin 8) (scal : Bool) (s : State) : Lawful s (execVminr d c vd vs1 vs2 w pg scal s) := by
  unfold execVminr
  repeat' first
    | with_reducible apply Lawful.onDie
    | with_reducible apply Lawful.next
    | with_reducible assumption
    | with_reducible exact Keeps.refl _
    | intro _
    | with_reducible apply State.vinsn_keeps
    | with_reducible apply State.vreduce_keeps

theorem execVsel_keeps (d : DieIx) (c : CoreIx) (vd : Fin 32) (vs1 : Fin 32) (vs2 : Fin 32) (w : Fin 4) (pg : Fin 8) (scal : Bool) (s : State) : Lawful s (execVsel d c vd vs1 vs2 w pg scal s) := by
  unfold execVsel
  repeat' first
    | with_reducible apply Lawful.onDie
    | with_reducible apply Lawful.next
    | with_reducible assumption
    | with_reducible exact Keeps.refl _
    | intro _
    | with_reducible apply State.vwrite_keeps
    | with_reducible apply State.vinsn_keeps
    | with_reducible apply Eff.keeps_ok

theorem execVcopy_keeps (d : DieIx) (c : CoreIx) (vd : Fin 32) (vs1 : Fin 32) (vs2 : Fin 32) (w : Fin 4) (pg : Fin 8) (scal : Bool) (s : State) : Lawful s (execVcopy d c vd vs1 vs2 w pg scal s) := by
  unfold execVcopy
  repeat' first
    | with_reducible apply Lawful.onDie
    | with_reducible apply Lawful.next
    | with_reducible assumption
    | with_reducible exact Keeps.refl _
    | intro _
    | with_reducible apply State.vwrite_keeps
    | with_reducible apply State.vinsn_keeps
    | with_reducible apply Eff.keeps_ok

theorem execVindex_keeps (d : DieIx) (c : CoreIx) (vd : Fin 32) (vs1 : Fin 32) (vs2 : Fin 32) (w : Fin 4) (pg : Fin 8) (scal : Bool) (s : State) : Lawful s (execVindex d c vd vs1 vs2 w pg scal s) := by
  unfold execVindex
  repeat' first
    | with_reducible apply Lawful.onDie
    | with_reducible apply Lawful.next
    | with_reducible assumption
    | with_reducible exact Keeps.refl _
    | intro _
    | with_reducible apply State.vwrite_keeps
    | with_reducible apply State.vinsn_keeps
    | with_reducible apply Eff.keeps_ok

theorem execVtog_keeps (d : DieIx) (c : CoreIx) (rd : Fin 32) (vs1 : Fin 32) (vs2 : Fin 32) (w : Fin 4) (pg : Fin 8) (scal : Bool) (s : State) : Lawful s (execVtog d c rd vs1 vs2 w pg scal s) := by
  unfold execVtog
  repeat' first
    | with_reducible apply Lawful.onDie
    | with_reducible apply Lawful.next
    | with_reducible assumption
    | with_reducible exact Keeps.refl _
    | intro _
    | with_reducible apply State.modCore_keeps
    | with_reducible apply State.vinsn_keeps
    | with_reducible apply Eff.keeps_ok
    | with_reducible apply Eff.keeps_jump
    | with_reducible apply Eff.keeps_fin
    | with_reducible apply Eff.keeps_stall
    | with_reducible apply Eff.keeps_trapIn
    | with_reducible apply Eff.keeps_trap
    | with_reducible apply Keeps.ite
    | split
    | dsimp only

theorem execVshu_keeps (d : DieIx) (c : CoreIx) (vd : Fin 32) (vs1 : Fin 32) (vs2 : Fin 32) (w : Fin 4) (pg : Fin 8) (scal : Bool) (s : State) : Lawful s (execVshu d c vd vs1 vs2 w pg scal s) := by
  unfold execVshu
  repeat' first
    | with_reducible apply Lawful.onDie
    | with_reducible apply Lawful.next
    | with_reducible assumption
    | with_reducible exact Keeps.refl _
    | intro _
    | with_reducible apply State.vwrite_keeps
    | with_reducible apply State.vinsn_keeps
    | with_reducible apply vbad_keeps
    | with_reducible apply Eff.keeps_ok
    | with_reducible apply Eff.keeps_jump
    | with_reducible apply Eff.keeps_fin
    | with_reducible apply Eff.keeps_stall
    | with_reducible apply Eff.keeps_trapIn
    | with_reducible apply Eff.keeps_trap
    | with_reducible apply Keeps.ite
    | split

theorem execVshd_keeps (d : DieIx) (c : CoreIx) (vd : Fin 32) (vs1 : Fin 32) (vs2 : Fin 32) (w : Fin 4) (pg : Fin 8) (scal : Bool) (s : State) : Lawful s (execVshd d c vd vs1 vs2 w pg scal s) := by
  unfold execVshd
  repeat' first
    | with_reducible apply Lawful.onDie
    | with_reducible apply Lawful.next
    | with_reducible assumption
    | with_reducible exact Keeps.refl _
    | intro _
    | with_reducible apply State.vwrite_keeps
    | with_reducible apply State.vinsn_keeps
    | with_reducible apply vbad_keeps
    | with_reducible apply Eff.keeps_ok
    | with_reducible apply Eff.keeps_jump
    | with_reducible apply Eff.keeps_fin
    | with_reducible apply Eff.keeps_stall
    | with_reducible apply Eff.keeps_trapIn
    | with_reducible apply Eff.keeps_trap
    | with_reducible apply Keeps.ite
    | split

theorem execVpack_keeps (d : DieIx) (c : CoreIx) (vd : Fin 32) (vs1 : Fin 32) (vs2 : Fin 32) (w : Fin 4) (pg : Fin 8) (scal : Bool) (s : State) : Lawful s (execVpack d c vd vs1 vs2 w pg scal s) := by
  unfold execVpack
  repeat' first
    | with_reducible apply Lawful.onDie
    | with_reducible apply Lawful.next
    | with_reducible assumption
    | with_reducible exact Keeps.refl _
    | intro _
    | with_reducible apply State.vwrite_keeps
    | with_reducible apply State.vinsn_keeps
    | with_reducible apply Eff.keeps_ok

theorem execPand_keeps (d : DieIx) (c : CoreIx) (pd : Fin 32) (ps1 : Fin 32) (ps2 : Fin 32) (w : Fin 4) (pg : Fin 8) (s : State) : Lawful s (execPand d c pd ps1 ps2 w pg s) := by
  unfold execPand
  repeat' first
    | with_reducible apply Lawful.onDie
    | with_reducible apply Lawful.next
    | with_reducible assumption
    | with_reducible exact Keeps.refl _
    | intro _
    | with_reducible apply State.modCore_keeps
    | with_reducible apply State.vinsn_keeps
    | with_reducible apply Eff.keeps_ok

theorem execPor_keeps (d : DieIx) (c : CoreIx) (pd : Fin 32) (ps1 : Fin 32) (ps2 : Fin 32) (w : Fin 4) (pg : Fin 8) (s : State) : Lawful s (execPor d c pd ps1 ps2 w pg s) := by
  unfold execPor
  repeat' first
    | with_reducible apply Lawful.onDie
    | with_reducible apply Lawful.next
    | with_reducible assumption
    | with_reducible exact Keeps.refl _
    | intro _
    | with_reducible apply State.modCore_keeps
    | with_reducible apply State.vinsn_keeps
    | with_reducible apply Eff.keeps_ok

theorem execPxor_keeps (d : DieIx) (c : CoreIx) (pd : Fin 32) (ps1 : Fin 32) (ps2 : Fin 32) (w : Fin 4) (pg : Fin 8) (s : State) : Lawful s (execPxor d c pd ps1 ps2 w pg s) := by
  unfold execPxor
  repeat' first
    | with_reducible apply Lawful.onDie
    | with_reducible apply Lawful.next
    | with_reducible assumption
    | with_reducible exact Keeps.refl _
    | intro _
    | with_reducible apply State.modCore_keeps
    | with_reducible apply State.vinsn_keeps
    | with_reducible apply Eff.keeps_ok

theorem execPandn_keeps (d : DieIx) (c : CoreIx) (pd : Fin 32) (ps1 : Fin 32) (ps2 : Fin 32) (w : Fin 4) (pg : Fin 8) (s : State) : Lawful s (execPandn d c pd ps1 ps2 w pg s) := by
  unfold execPandn
  repeat' first
    | with_reducible apply Lawful.onDie
    | with_reducible apply Lawful.next
    | with_reducible assumption
    | with_reducible exact Keeps.refl _
    | intro _
    | with_reducible apply State.modCore_keeps
    | with_reducible apply State.vinsn_keeps
    | with_reducible apply Eff.keeps_ok

theorem execPset_keeps (d : DieIx) (c : CoreIx) (pd : Fin 32) (ps1 : Fin 32) (ps2 : Fin 32) (w : Fin 4) (pg : Fin 8) (s : State) : Lawful s (execPset d c pd ps1 ps2 w pg s) := by
  unfold execPset
  repeat' first
    | with_reducible apply Lawful.onDie
    | with_reducible apply Lawful.next
    | with_reducible assumption
    | with_reducible exact Keeps.refl _
    | intro _
    | with_reducible apply State.modCore_keeps
    | with_reducible apply State.vinsn_keeps
    | with_reducible apply Eff.keeps_ok

theorem execPclr_keeps (d : DieIx) (c : CoreIx) (pd : Fin 32) (ps1 : Fin 32) (ps2 : Fin 32) (w : Fin 4) (pg : Fin 8) (s : State) : Lawful s (execPclr d c pd ps1 ps2 w pg s) := by
  unfold execPclr
  repeat' first
    | with_reducible apply Lawful.onDie
    | with_reducible apply Lawful.next
    | with_reducible assumption
    | with_reducible exact Keeps.refl _
    | intro _
    | with_reducible apply State.modCore_keeps
    | with_reducible apply State.vinsn_keeps
    | with_reducible apply Eff.keeps_ok

theorem execPpop_keeps (d : DieIx) (c : CoreIx) (rd : Fin 32) (ps1 : Fin 32) (ps2 : Fin 32) (w : Fin 4) (pg : Fin 8) (s : State) : Lawful s (execPpop d c rd ps1 ps2 w pg s) := by
  unfold execPpop
  repeat' first
    | with_reducible apply Lawful.onDie
    | with_reducible apply Lawful.next
    | with_reducible assumption
    | with_reducible exact Keeps.refl _
    | intro _
    | with_reducible apply State.modCore_keeps
    | with_reducible apply State.vinsn_keeps
    | with_reducible apply Eff.keeps_ok

theorem execPlow_keeps (d : DieIx) (c : CoreIx) (rd : Fin 32) (ps1 : Fin 32) (ps2 : Fin 32) (w : Fin 4) (pg : Fin 8) (s : State) : Lawful s (execPlow d c rd ps1 ps2 w pg s) := by
  unfold execPlow
  repeat' first
    | with_reducible apply Lawful.onDie
    | with_reducible apply Lawful.next
    | with_reducible assumption
    | with_reducible exact Keeps.refl _
    | intro _
    | with_reducible apply State.modCore_keeps
    | with_reducible apply State.vinsn_keeps
    | with_reducible apply Eff.keeps_ok

theorem execSetvl_keeps (d : DieIx) (c : CoreIx) (rd : Fin 32) (rs1 : Fin 32) (imm : BitVec 11) (s : State) : Lawful s (execSetvl d c rd rs1 imm s) := by
  unfold execSetvl
  repeat' first
    | with_reducible apply Lawful.onDie
    | with_reducible apply Lawful.next
    | with_reducible assumption
    | with_reducible exact Keeps.refl _
    | intro _
    | with_reducible apply State.modCore_keeps
    | with_reducible apply State.vinsn_keeps
    | with_reducible apply Eff.keeps_ok

theorem execSetvfull_keeps (d : DieIx) (c : CoreIx) (rd : Fin 32) (rs1 : Fin 32) (imm : BitVec 11) (s : State) : Lawful s (execSetvfull d c rd rs1 imm s) := by
  unfold execSetvfull
  repeat' first
    | with_reducible apply Lawful.onDie
    | with_reducible apply Lawful.next
    | with_reducible assumption
    | with_reducible exact Keeps.refl _
    | intro _
    | with_reducible apply State.modCore_keeps
    | with_reducible apply State.vinsn_keeps
    | with_reducible apply Eff.keeps_ok

theorem execVstatrd_keeps (d : DieIx) (c : CoreIx) (rd : Fin 32) (rs1 : Fin 32) (imm : BitVec 11) (s : State) : Lawful s (execVstatrd d c rd rs1 imm s) := by
  unfold execVstatrd
  repeat' first
    | with_reducible apply Lawful.onDie
    | with_reducible apply Lawful.next
    | with_reducible assumption
    | with_reducible exact Keeps.refl _
    | intro _
    | with_reducible apply State.modCore_keeps
    | with_reducible apply State.vinsn_keeps
    | with_reducible apply vbad_keeps
    | with_reducible apply Eff.keeps_ok
    | with_reducible apply Eff.keeps_jump
    | with_reducible apply Eff.keeps_fin
    | with_reducible apply Eff.keeps_stall
    | with_reducible apply Eff.keeps_trapIn
    | with_reducible apply Eff.keeps_trap
    | with_reducible apply Keeps.ite
    | split

theorem execVstatwr_keeps (d : DieIx) (c : CoreIx) (rd : Fin 32) (rs1 : Fin 32) (imm : BitVec 11) (s : State) : Lawful s (execVstatwr d c rd rs1 imm s) := by
  unfold execVstatwr
  repeat' first
    | with_reducible apply Lawful.onDie
    | with_reducible apply Lawful.next
    | with_reducible assumption
    | with_reducible exact Keeps.refl _
    | intro _
    | with_reducible apply State.modCore_keeps
    | with_reducible apply State.vinsn_keeps
    | with_reducible apply vbad_keeps
    | with_reducible apply Eff.keeps_ok
    | with_reducible apply Eff.keeps_jump
    | with_reducible apply Eff.keeps_fin
    | with_reducible apply Eff.keeps_stall
    | with_reducible apply Eff.keeps_trapIn
    | with_reducible apply Eff.keeps_trap
    | with_reducible apply Keeps.ite
    | split
    | dsimp only

theorem execVfence_keeps (d : DieIx) (c : CoreIx) (rd : Fin 32) (rs1 : Fin 32) (imm : BitVec 11) (s : State) : Lawful s (execVfence d c rd rs1 imm s) := by
  unfold execVfence
  repeat' first
    | with_reducible apply Lawful.onDie
    | with_reducible apply Lawful.next
    | with_reducible assumption
    | with_reducible exact Keeps.refl _
    | intro _
    | with_reducible apply State.vinsn_keeps
    | with_reducible apply Eff.keeps_ok

theorem State.vread_keeps {r0 : State} (s : State) (d : DieIx) (c : CoreIx) (a : Nat) (f : Fmt) (idx : List Nat) (hs : Keeps r0 s) : Keeps r0 (State.vread s d c a f idx).2 := by
  unfold State.vread
  repeat' first
    | with_reducible assumption
    | with_reducible exact Keeps.refl _
    | intro _
    | with_reducible apply State.memRead_keeps
    | with_reducible apply Keeps.fold

theorem State.vload_keeps {r0 : State} (s : State) (d : DieIx) (c : CoreIx) (vd : Fin 32) (w : Fin 4) (f : Fmt) (r : RegType) (a : Nat) (e0 : Nat) (idx : List Nat) (hs : Keeps r0 s) : Keeps r0 (State.vload s d c vd w f r a e0 idx) := by
  unfold State.vload
  repeat' first
    | with_reducible assumption
    | with_reducible exact Keeps.refl _
    | intro _
    | with_reducible apply State.vwrite_keeps
    | with_reducible apply State.vread_keeps

theorem execVld_keeps (d : DieIx) (c : CoreIx) (vd : Fin 32) (rs1 : Fin 32) (rs2 : Fin 32) (w : Fin 4) (pg : Fin 8) (fmt : Fin 16) (rt : Bool) (impose : Bool) (s : State) : Lawful s (execVld d c vd rs1 rs2 w pg fmt rt impose s) := by
  unfold execVld
  repeat' first
    | with_reducible apply Lawful.onDie
    | with_reducible apply Lawful.next
    | with_reducible assumption
    | with_reducible exact Keeps.refl _
    | intro _
    | with_reducible apply State.vinsn_keeps
    | with_reducible apply vbad_keeps
    | with_reducible apply State.vload_keeps
    | with_reducible apply Eff.keeps_ok
    | with_reducible apply Eff.keeps_jump
    | with_reducible apply Eff.keeps_fin
    | with_reducible apply Eff.keeps_stall
    | with_reducible apply Eff.keeps_trapIn
    | with_reducible apply Eff.keeps_trap
    | with_reducible apply Keeps.ite
    | split
    | dsimp only

theorem execVldff_keeps (d : DieIx) (c : CoreIx) (vd : Fin 32) (rs1 : Fin 32) (rs2 : Fin 32) (w : Fin 4) (pg : Fin 8) (fmt : Fin 16) (rt : Bool) (impose : Bool) (s : State) : Lawful s (execVldff d c vd rs1 rs2 w pg fmt rt impose s) := by
  unfold execVldff
  repeat' first
    | with_reducible apply Lawful.onDie
    | with_reducible apply Lawful.next
    | with_reducible assumption
    | with_reducible exact Keeps.refl _
    | intro _
    | with_reducible apply State.modCore_keeps
    | with_reducible apply State.vinsn_keeps
    | with_reducible apply vbad_keeps
    | with_reducible apply State.vload_keeps
    | with_reducible apply Eff.keeps_ok
    | with_reducible apply Eff.keeps_jump
    | with_reducible apply Eff.keeps_fin
    | with_reducible apply Eff.keeps_stall
    | with_reducible apply Eff.keeps_trapIn
    | with_reducible apply Eff.keeps_trap
    | with_reducible apply Keeps.ite
    | split
    | dsimp only

theorem State.vstore_keeps {r0 : State} (s : State) (d : DieIx) (c : CoreIx) (f : Fmt) (a : Nat) (l : List (Nat × Enc × Bool)) (hs : Keeps r0 s) : Keeps r0 (State.vstore s d c f a l) := by
  unfold State.vstore
  repeat' first
    | with_reducible assumption
    | with_reducible exact Keeps.refl _
    | intro _
    | with_reducible apply State.memWrite_keeps
    | with_reducible apply Keeps.fold

theorem State.vstoreBlock_keeps {r0 : State} (s : State) (d : DieIx) (c : CoreIx) (vs : Fin 32) (w : Fin 4) (f : Fmt) (r : RegType) (a : Nat) (imposed : Option Nat) (hs : Keeps r0 s) : Keeps r0 (State.vstoreBlock s d c vs w f r a imposed) := by
  unfold State.vstoreBlock
  repeat' first
    | with_reducible assumption
    | with_reducible exact Keeps.refl _
    | intro _
    | with_reducible apply State.modCore_keeps
    | with_reducible apply State.memWrite_keeps
    | with_reducible apply State.vxPoison_keeps

theorem execVst_keeps (d : DieIx) (c : CoreIx) (vs : Fin 32) (rs1 : Fin 32) (rs2 : Fin 32) (w : Fin 4) (pg : Fin 8) (fmt : Fin 16) (rt : Bool) (impose : Bool) (s : State) : Lawful s (execVst d c vs rs1 rs2 w pg fmt rt impose s) := by
  unfold execVst
  repeat' first
    | with_reducible apply Lawful.onDie
    | with_reducible apply Lawful.next
    | with_reducible assumption
    | with_reducible exact Keeps.refl _
    | intro _
    | with_reducible apply State.modCore_keeps
    | with_reducible apply State.vxPoison_keeps
    | with_reducible apply State.vinsn_keeps
    | with_reducible apply vbad_keeps
    | with_reducible apply State.vstore_keeps
    | with_reducible apply State.vstoreBlock_keeps
    | with_reducible apply Eff.keeps_ok
    | with_reducible apply Eff.keeps_jump
    | with_reducible apply Eff.keeps_fin
    | with_reducible apply Eff.keeps_stall
    | with_reducible apply Eff.keeps_trapIn
    | with_reducible apply Eff.keeps_trap
    | with_reducible apply Keeps.ite
    | split
    | dsimp only

set_option maxRecDepth 8192 in
theorem execVslice_keeps (d : DieIx) (c : CoreIx) (rd : Fin 32) (rs1 : Fin 32) (imm : BitVec 11) (s : State) : Lawful s (execVslice d c rd rs1 imm s) := by
  unfold execVslice
  repeat' first
    | with_reducible apply Lawful.onDie
    | with_reducible apply Lawful.next
    | with_reducible assumption
    | with_reducible exact Keeps.refl _
    | with_reducible apply State.modCore_keeps
    | with_reducible apply State.memRead_keeps
    | with_reducible apply State.memWrite_keeps
    | with_reducible apply State.vxPoison_keeps
    | with_reducible apply State.vinsn_keeps
    | with_reducible apply Eff.keeps_ok
    | with_reducible apply Eff.keeps_jump
    | with_reducible apply Eff.keeps_fin
    | with_reducible apply Eff.keeps_stall
    | with_reducible apply Eff.keeps_trapIn
    | with_reducible apply Eff.keeps_trap
    | with_reducible apply Keeps.ite
    | intro _
    | split
    | dsimp only

end Sys2Proof.Machine
end

