-- ==== Sys2Proof/Laws/KeepsEngines.lean ====
section
/-! SUPPORT. That every operation keeps what Keeps states: the uncore engines and the commit. -/

namespace Sys2Proof.Machine

theorem State.setWins_keeps {r0 : State} (s : State) (d : DieIx) (q : Fin 4) (l : List RowWin) (hs : Keeps r0 s) : Keeps r0 (State.setWins s d q l) := by
  unfold State.setWins
  repeat' first
    | with_reducible assumption
    | with_reducible exact Keeps.refl _
    | intro _
    | with_reducible apply State.modDie_keeps

theorem State.writeBack_keeps {r0 : State} (s : State) (d : DieIx) (w : RowWin) (hs : Keeps r0 s) : Keeps r0 (State.writeBack s d w) := by
  unfold State.writeBack
  repeat' first
    | with_reducible assumption
    | with_reducible exact Keeps.refl _
    | intro _
    | with_reducible apply State.memWrite_keeps
    | with_reducible apply Keeps.fold

theorem State.fillWin_keeps {r0 : State} (s : State) (d : DieIx) (job : BitVec 12) (ctx : Nat) (layer : Nat) (block : Nat) (hs : Keeps r0 s) : Keeps r0 (State.fillWin s d job ctx layer block).2 := by
  unfold State.fillWin
  repeat' first
    | with_reducible assumption
    | with_reducible exact Keeps.refl _
    | intro _
    | with_reducible apply State.memRead_keeps

theorem State.evict_keeps {r0 : State} (s : State) (d : DieIx) (q : Fin 4) (hs : Keeps r0 s) : Keeps r0 (State.evict s d q) := by
  unfold State.evict
  repeat' first
    | with_reducible assumption
    | with_reducible exact Keeps.refl _
    | intro _
    | with_reducible apply State.setWins_keeps
    | with_reducible apply State.writeBack_keeps
    | with_reducible apply Keeps.fold
    | with_reducible apply Keeps.fold1
    | with_reducible apply Keeps.fold2
    | with_reducible apply Keeps.fold3
    | with_reducible apply Keeps.ite
    | split

theorem State.modWin_keeps {r0 : State} (s : State) (d : DieIx) (q : Fin 4) (ctx : Nat) (layer : Nat) (block : Nat) (f : RowWin → RowWin) (hs : Keeps r0 s) : Keeps r0 (State.modWin s d q ctx layer block f) := by
  unfold State.modWin
  repeat' first
    | with_reducible assumption
    | with_reducible exact Keeps.refl _
    | intro _
    | with_reducible apply State.modDie_keeps
    | with_reducible apply State.setWins_keeps

theorem State.bindWin_keeps {r0 : State} (s : State) (d : DieIx) (q : Fin 4) (job : BitVec 12) (ctx : Nat) (layer : Nat) (block : Nat) (fwd : Bool) (hs : Keeps r0 s) : Keeps r0 (State.bindWin s d q job ctx layer block fwd) := by
  unfold State.bindWin
  repeat' first
    | with_reducible assumption
    | with_reducible exact Keeps.refl _
    | intro _
    | with_reducible apply State.addSat_keeps
    | with_reducible apply State.setWins_keeps
    | with_reducible apply State.fillWin_keeps
    | with_reducible apply State.evict_keeps
    | with_reducible apply State.modWin_keeps
    | with_reducible apply Keeps.ite
    | split

theorem State.putStat_keeps {r0 : State} (s : State) (d : DieIx) (q : Fin 4) (ctx : Nat) (layer : Nat) (row : Nat) (v : Stat) (poison : Bool) (hs : Keeps r0 s) : Keeps r0 (State.putStat s d q ctx layer row v poison) := by
  unfold State.putStat
  repeat' first
    | with_reducible assumption
    | with_reducible exact Keeps.refl _
    | intro _
    | with_reducible apply State.modWin_keeps

theorem State.getStat_keeps {r0 : State} (s : State) (d : DieIx) (q : Fin 4) (job : BitVec 12) (ctx : Nat) (layer : Nat) (row : Nat) (hs : Keeps r0 s) : Keeps r0 (State.getStat s d q job ctx layer row).2.2 := by
  unfold State.getStat
  repeat' first
    | with_reducible assumption
    | with_reducible exact Keeps.refl _
    | intro _
    | with_reducible apply State.memRead_keeps
    | with_reducible apply State.modWin_keeps
    | with_reducible apply Keeps.ite
    | split

theorem State.leaveWins_keeps {r0 : State} (s : State) (d : DieIx) (q : Fin 4) (ctx : Nat) (back : Bool) (hs : Keeps r0 s) : Keeps r0 (State.leaveWins s d q ctx back) := by
  unfold State.leaveWins
  repeat' first
    | with_reducible assumption
    | with_reducible exact Keeps.refl _
    | intro _
    | with_reducible apply State.setWins_keeps
    | with_reducible apply State.writeBack_keeps
    | with_reducible apply Keeps.fold
    | with_reducible apply Keeps.fold1
    | with_reducible apply Keeps.fold2
    | with_reducible apply Keeps.fold3
    | with_reducible apply Keeps.ite

theorem RowAcc.step_keeps {r0 : State} (a : RowAcc) (d : DieIx) (q : Fin 4) (x : Desc) (inf : Fmt) (ofm : Fmt) (p : RowParam) (row : Nat) (xb : List Byte × List Bool) (dyb : List Byte × List Bool) (ha : Keeps r0 a.s) : Keeps r0 (RowAcc.step a d q x inf ofm p row xb dyb).s := by
  unfold RowAcc.step
  repeat' first
    | with_reducible assumption
    | with_reducible exact Keeps.refl _
    | intro _
    | with_reducible apply State.drawFree_keeps
    | with_reducible apply State.bindWin_keeps
    | with_reducible apply State.putStat_keeps
    | with_reducible apply State.getStat_keeps
    | with_reducible apply Keeps.ite
    | split

theorem RowAcc.run_keeps {r0 : State} (d : DieIx) (q : Fin 4) (x : Desc) (inf ofm : Fmt) (p : RowParam) (n : Nat)
    (xs dys : List (List Byte × List Bool)) (a : RowAcc) (ha : Keeps r0 a.s) : Keeps r0 (RowAcc.run d q x inf ofm p n xs dys a).s := by
  induction xs generalizing n dys a with
  | nil => exact ha
  | cons b xs ih =>
    unfold RowAcc.run
    exact ih _ _ _ (RowAcc.step_keeps _ _ _ _ _ _ _ _ _ _ ha)

theorem State.rowWork_keeps {r0 : State} (s : State) (d : DieIx) (q : Fin 4) (r : Running) (inf : Fmt) (ofm : Fmt) (l : List (List Byte × List Bool)) (hs : Keeps r0 s) : Keeps r0 (State.rowWork s d q r inf ofm l) := by
  unfold State.rowWork
  repeat' first
    | with_reducible assumption
    | with_reducible exact Keeps.refl _
    | intro _
    | with_reducible apply State.put_keeps
    | with_reducible apply State.putAll_keeps
    | with_reducible apply State.dropReads_keeps
    | with_reducible apply State.settle_keeps
    | with_reducible apply RowAcc.run_keeps
    | with_reducible apply Keeps.ite

theorem State.rowRun_keeps {r0 : State} (s : State) (d : DieIx) (q : Fin 4) (r : Running) (hs : Keeps r0 s) : Keeps r0 (State.rowRun s d q r) := by
  unfold State.rowRun
  repeat' first
    | with_reducible assumption
    | with_reducible exact Keeps.refl _
    | intro _
    | with_reducible apply State.finish_keeps
    | with_reducible apply State.countService_keeps
    | with_reducible apply State.stopEarly_keeps
    | with_reducible apply State.rowWork_keeps
    | (with_reducible refine State.fetchAll_data (by assumption) ?_)
    | (with_reducible refine State.fetchAll_wait (by assumption) ?_)
    | with_reducible apply Keeps.ite
    | split
    | dsimp only

theorem execSoftmaxFwd_keeps (d : DieIx) (q : Fin 4) (s : State) : Lawful s (execSoftmaxFwd d q s) := by
  unfold execSoftmaxFwd
  repeat' first
    | with_reducible apply Lawful.onDie
    | with_reducible apply Lawful.next
    | with_reducible assumption
    | with_reducible exact Keeps.refl _
    | intro _
    | with_reducible apply withEngine_keeps
    | with_reducible apply State.rowRun_keeps

theorem execNormFwd_keeps (d : DieIx) (q : Fin 4) (s : State) : Lawful s (execNormFwd d q s) := by
  unfold execNormFwd
  repeat' first
    | with_reducible apply Lawful.onDie
    | with_reducible apply Lawful.next
    | with_reducible assumption
    | with_reducible exact Keeps.refl _
    | intro _
    | with_reducible apply withEngine_keeps
    | with_reducible apply State.rowRun_keeps

theorem execSoftmaxBwd_keeps (d : DieIx) (q : Fin 4) (s : State) : Lawful s (execSoftmaxBwd d q s) := by
  unfold execSoftmaxBwd
  repeat' first
    | with_reducible apply Lawful.onDie
    | with_reducible apply Lawful.next
    | with_reducible assumption
    | with_reducible exact Keeps.refl _
    | intro _
    | with_reducible apply withEngine_keeps
    | with_reducible apply State.rowRun_keeps

theorem execNormBwd_keeps (d : DieIx) (q : Fin 4) (s : State) : Lawful s (execNormBwd d q s) := by
  unfold execNormBwd
  repeat' first
    | with_reducible apply Lawful.onDie
    | with_reducible apply Lawful.next
    | with_reducible assumption
    | with_reducible exact Keeps.refl _
    | intro _
    | with_reducible apply withEngine_keeps
    | with_reducible apply State.rowRun_keeps

theorem State.leaveRun_keeps {r0 : State} (s : State) (d : DieIx) (q : Fin 4) (back : Bool) (r : Running) (hs : Keeps r0 s) : Keeps r0 (State.leaveRun s d q back r) := by
  unfold State.leaveRun
  repeat' first
    | with_reducible assumption
    | with_reducible exact Keeps.refl _
    | intro _
    | with_reducible apply State.finish_keeps
    | with_reducible apply State.countService_keeps
    | with_reducible apply State.stopEarly_keeps
    | with_reducible apply State.leaveWins_keeps
    | with_reducible apply Keeps.ite

theorem execFlush_keeps (d : DieIx) (q : Fin 4) (s : State) : Lawful s (execFlush d q s) := by
  unfold execFlush
  repeat' first
    | with_reducible apply Lawful.onDie
    | with_reducible apply Lawful.next
    | with_reducible assumption
    | with_reducible exact Keeps.refl _
    | intro _
    | with_reducible apply withEngine_keeps
    | with_reducible apply State.leaveRun_keeps

theorem execDrop_keeps (d : DieIx) (q : Fin 4) (s : State) : Lawful s (execDrop d q s) := by
  unfold execDrop
  repeat' first
    | with_reducible apply Lawful.onDie
    | with_reducible apply Lawful.next
    | with_reducible assumption
    | with_reducible exact Keeps.refl _
    | intro _
    | with_reducible apply withEngine_keeps
    | with_reducible apply State.leaveRun_keeps

/-- Ranges of both tables are taken out. -/
theorem Keeps.cut {r s : State} (h : Keeps r s) (f : Nat × BitVec 8 → Bool) (g : Nat × Mark → Bool) :
    Keeps r { s with mem := ⟨s.mem.cells.filter f, s.mem.marks.filter g⟩ } :=
  h.updMem _ (fun w => ⟨SMap.wf_filter _ _ _ w.1, SMap.wf_filter _ _ _ w.2⟩)

theorem State.zeroRange_keeps {r0 : State} (s : State) (d : DieIx) (off : Nat) (n : Nat) (hs : Keeps r0 s) : Keeps r0 (State.zeroRange s d off n) :=
  State.hbmCount_keeps _ _ _ _ _ _ (State.modDie_keeps _ _ _ (hs.cut _ _))

theorem State.openRun_keeps {r0 : State} (s : State) (d : DieIx) (r : Running) (hs : Keeps r0 s) : Keeps r0 (State.openRun s d r) := by
  unfold State.openRun
  repeat' first
    | with_reducible assumption
    | with_reducible exact Keeps.refl _
    | intro _
    | with_reducible apply State.modDie_keeps
    | with_reducible apply State.finish_keeps
    | with_reducible apply State.countService_keeps
    | with_reducible apply State.stopEarly_keeps
    | with_reducible apply State.zeroRange_keeps
    | with_reducible apply Keeps.ite
    | split
    | dsimp only

theorem execBucketOpen_keeps (d : DieIx) (s : State) : Lawful s (execBucketOpen d s) := by
  unfold execBucketOpen
  repeat' first
    | with_reducible apply Lawful.onDie
    | with_reducible apply Lawful.next
    | with_reducible assumption
    | with_reducible exact Keeps.refl _
    | intro _
    | with_reducible apply withEngine_keeps
    | with_reducible apply State.openRun_keeps

theorem State.closeRun_keeps {r0 : State} (s : State) (d : DieIx) (r : Running) (hs : Keeps r0 s) : Keeps r0 (State.closeRun s d r) := by
  unfold State.closeRun
  repeat' first
    | with_reducible assumption
    | with_reducible exact Keeps.refl _
    | intro _
    | with_reducible apply State.modDie_keeps
    | with_reducible apply State.finish_keeps
    | with_reducible apply State.stopEarly_keeps
    | with_reducible apply DrainAcc.lines_keeps
    | with_reducible apply Keeps.ite
    | split
    | dsimp only

theorem execBucketClose_keeps (d : DieIx) (s : State) : Lawful s (execBucketClose d s) := by
  unfold execBucketClose
  repeat' first
    | with_reducible apply Lawful.onDie
    | with_reducible apply Lawful.next
    | with_reducible assumption
    | with_reducible exact Keeps.refl _
    | intro _
    | with_reducible apply withEngine_keeps
    | with_reducible apply State.closeRun_keeps

theorem State.updWork_keeps {r0 : State} (s : State) (d : DieIx) (r : Running) (u : UpdRec) (inactive : Nat) (row0 : Nat) (rows : Nat) (mb : List Byte × List Bool) (l : List (List Byte × List Bool)) (hs : Keeps r0 s) : Keeps r0 (State.updWork s d r u inactive row0 rows mb l) := by
  unfold State.updWork
  repeat' first
    | with_reducible assumption
    | with_reducible exact Keeps.refl _
    | intro _
    | with_reducible apply State.modDie_keeps
    | with_reducible apply State.putAll_keeps
    | with_reducible apply State.dropReads_keeps
    | with_reducible apply State.settle_keeps

theorem State.updRecord_keeps {r0 : State} (s : State) (d : DieIx) (r : Running) (k : Nat) (row0 : Nat) (rows : Nat) (wrongStep : Bool) (rb : List Byte × List Bool) (hs : Keeps r0 s) : Keeps r0 (State.updRecord s d r k row0 rows wrongStep rb) := by
  unfold State.updRecord
  repeat' first
    | with_reducible assumption
    | with_reducible exact Keeps.refl _
    | intro _
    | with_reducible apply State.finish_keeps
    | with_reducible apply State.countService_keeps
    | with_reducible apply State.stopEarly_keeps
    | with_reducible apply State.updWork_keeps
    | (with_reducible refine State.fetchAll_data (by assumption) ?_)
    | (with_reducible refine State.fetchAll_wait (by assumption) ?_)
    | with_reducible apply Keeps.ite
    | split
    | dsimp only

theorem State.updRun_keeps {r0 : State} (s : State) (d : DieIx) (r : Running) (hs : Keeps r0 s) : Keeps r0 (State.updRun s d r) := by
  unfold State.updRun
  repeat' first
    | with_reducible assumption
    | with_reducible exact Keeps.refl _
    | intro _
    | with_reducible apply State.finish_keeps
    | with_reducible apply State.countService_keeps
    | with_reducible apply State.stopEarly_keeps
    | with_reducible apply State.updRecord_keeps
    | (with_reducible refine State.fetchAll_data (by assumption) ?_)
    | (with_reducible refine State.fetchAll_wait (by assumption) ?_)
    | with_reducible apply Keeps.ite
    | split

theorem execUpdate_keeps (d : DieIx) (s : State) : Lawful s (execUpdate d s) := by
  unfold execUpdate
  repeat' first
    | with_reducible apply Lawful.onDie
    | with_reducible apply Lawful.next
    | with_reducible assumption
    | with_reducible exact Keeps.refl _
    | intro _
    | with_reducible apply withEngine_keeps
    | with_reducible apply State.updRun_keeps

theorem withCru_keeps {r0 : State} (s : State) (d : DieIx) (kind : Nat) (k : Running → State) (hs : Keeps r0 s) (hk : ∀ x, Keeps r0 (k x)) : Keeps r0 (withCru s d kind k) := by
  unfold withCru
  repeat' first
    | with_reducible assumption
    | with_reducible exact Keeps.refl _
    | intro _
    | with_reducible apply withEngine_keeps
    | with_reducible apply hk
    | with_reducible apply Keeps.ite

theorem State.setSlotState_keeps {r0 : State} (s : State) (m : Nat) (k : Nat) (v : Nat) (hs : Keeps r0 s) : Keeps r0 (State.setSlotState s m k v) := by
  unfold State.setSlotState
  repeat' first
    | with_reducible assumption
    | with_reducible exact Keeps.refl _
    | intro _
    | with_reducible apply State.setRf_keeps
    | with_reducible apply Keeps.fold

theorem State.setSlot_keeps {r0 : State} (s : State) (k : Nat) (c : CruSlot) (hs : Keeps r0 s) : Keeps r0 (State.setSlot s k c) := by
  unfold State.setSlot
  repeat' first
    | with_reducible assumption
    | with_reducible exact Keeps.refl _
    | intro _
    | with_reducible apply State.modDie_keeps
    | with_reducible apply Keeps.fold

theorem State.storeWrite_keeps {r0 : State} (s : State) (e : DieIx) (c : CruSlot) (off : Nat) (bs : List Byte) (bad : Bool) (hs : Keeps r0 s) : Keeps r0 (State.storeWrite s e c off bs bad) := by
  unfold State.storeWrite
  repeat' first
    | with_reducible assumption
    | with_reducible exact Keeps.refl _
    | intro _
    | with_reducible apply State.memWrite_keeps

theorem State.storeImage_keeps {r0 : State} (s : State) (e : DieIx) (c : CruSlot) (b : List Byte) (ps : List Bool) (hs : Keeps r0 s) : Keeps r0 (State.storeImage s e c b ps) := by
  unfold State.storeImage
  repeat' first
    | with_reducible assumption
    | with_reducible exact Keeps.refl _
    | intro _
    | with_reducible apply State.memWrite_keeps

theorem State.loadSlot_keeps {r0 : State} (s : State) (d : DieIx) (r : Running) (b : List Byte) (ps : List Bool) (hs : Keeps r0 s) : Keeps r0 (State.loadSlot s d r b ps) := by
  unfold State.loadSlot
  repeat' first
    | with_reducible assumption
    | with_reducible exact Keeps.refl _
    | intro _
    | with_reducible apply State.modReg_keeps
    | with_reducible apply State.finish_keeps
    | with_reducible apply State.setSlot_keeps
    | with_reducible apply State.storeImage_keeps
    | with_reducible apply Keeps.fold

theorem State.structLoad_keeps {r0 : State} (s : State) (d : DieIx) (r : Running) (hs : Keeps r0 s) : Keeps r0 (State.structLoad s d r) := by
  unfold State.structLoad
  repeat' first
    | with_reducible assumption
    | with_reducible exact Keeps.refl _
    | intro _
    | with_reducible apply State.countService_keeps
    | with_reducible apply State.stopEarly_keeps
    | with_reducible apply State.loadSlot_keeps
    | (with_reducible refine State.fetchAll_data (by assumption) ?_)
    | (with_reducible refine State.fetchAll_wait (by assumption) ?_)
    | with_reducible apply Keeps.ite
    | split

theorem execStructLoad_keeps (d : DieIx) (s : State) : Lawful s (execStructLoad d s) := by
  unfold execStructLoad
  repeat' first
    | with_reducible apply Lawful.onDie
    | with_reducible apply Lawful.next
    | with_reducible assumption
    | with_reducible exact Keeps.refl _
    | intro _
    | with_reducible apply withCru_keeps
    | with_reducible apply State.structLoad_keeps

theorem State.freeSlotOf_keeps {r0 : State} (s : State) (k : Nat) (c : CruSlot) (hs : Keeps r0 s) : Keeps r0 (State.freeSlotOf s k c) := by
  unfold State.freeSlotOf
  repeat' first
    | with_reducible assumption
    | with_reducible exact Keeps.refl _
    | intro _
    | with_reducible apply State.modDie_keeps
    | with_reducible apply State.setReg_keeps
    | with_reducible apply Keeps.fold

theorem State.structFree_keeps {r0 : State} (s : State) (d : DieIx) (r : Running) (hs : Keeps r0 s) : Keeps r0 (State.structFree s d r) := by
  unfold State.structFree
  repeat' first
    | with_reducible assumption
    | with_reducible exact Keeps.refl _
    | intro _
    | with_reducible apply State.finish_keeps
    | with_reducible apply State.stopEarly_keeps
    | with_reducible apply State.freeSlotOf_keeps
    | with_reducible apply Keeps.ite
    | split

theorem execStructFree_keeps (d : DieIx) (s : State) : Lawful s (execStructFree d s) := by
  unfold execStructFree
  repeat' first
    | with_reducible apply Lawful.onDie
    | with_reducible apply Lawful.next
    | with_reducible assumption
    | with_reducible exact Keeps.refl _
    | intro _
    | with_reducible apply withCru_keeps
    | with_reducible apply State.structFree_keeps

theorem applyValues_keeps {r0 : State} (c : CruSlot) (l : List ValEntry) (s : State) (hs : Keeps r0 s) : Keeps r0 (applyValues c l s).2.2 := by
  induction l generalizing s with
  | nil => exact hs
  | cons v vs ih =>
    unfold applyValues
    dsimp only
    split
    · exact hs
    split
    · exact hs
    · exact ih _ (State.storeWrite_keeps _ _ _ _ _ _ hs)

theorem State.valuesCount_keeps {r0 : State} (s : State) (k : Nat) (c : CruSlot) (complete : Bool) (hs : Keeps r0 s) : Keeps r0 (State.valuesCount s k c complete) := by
  unfold State.valuesCount
  repeat' first
    | with_reducible assumption
    | with_reducible exact Keeps.refl _
    | intro _
    | with_reducible apply State.modReg_keeps
    | with_reducible apply State.setRf_keeps
    | with_reducible apply Keeps.fold
    | with_reducible apply Keeps.fold1
    | with_reducible apply Keeps.fold2
    | with_reducible apply Keeps.fold3
    | with_reducible apply Keeps.ite

theorem State.valuesWork_keeps {r0 : State} (s : State) (d : DieIx) (r : Running) (c : CruSlot) (dense : Bool) (n : Nat) (m : Nat) (l : List Byte × List Bool) (hs : Keeps r0 s) : Keeps r0 (State.valuesWork s d r c dense n m l) := by
  unfold State.valuesWork
  repeat' first
    | with_reducible assumption
    | with_reducible exact Keeps.refl _
    | intro _
    | with_reducible apply State.finish_keeps
    | with_reducible apply State.setRunning_keeps
    | with_reducible apply applyValues_keeps
    | with_reducible apply State.valuesCount_keeps
    | with_reducible apply Keeps.ite

theorem State.valuesRun_keeps {r0 : State} (s : State) (d : DieIx) (r : Running) (hs : Keeps r0 s) : Keeps r0 (State.valuesRun s d r) := by
  unfold State.valuesRun
  repeat' first
    | with_reducible assumption
    | with_reducible exact Keeps.refl _
    | intro _
    | with_reducible apply State.finish_keeps
    | with_reducible apply State.countService_keeps
    | with_reducible apply State.stopEarly_keeps
    | with_reducible apply State.valuesWork_keeps
    | (with_reducible refine State.fetchAll_data (by assumption) ?_)
    | (with_reducible refine State.fetchAll_wait (by assumption) ?_)
    | with_reducible apply Keeps.ite
    | split
    | dsimp only

theorem execValues_keeps (d : DieIx) (s : State) : Lawful s (execValues d s) := by
  unfold execValues
  repeat' first
    | with_reducible apply Lawful.onDie
    | with_reducible apply Lawful.next
    | with_reducible assumption
    | with_reducible exact Keeps.refl _
    | intro _
    | with_reducible apply withCru_keeps
    | with_reducible apply State.valuesRun_keeps

theorem State.newVector_keeps {r0 : State} (s : State) (hs : Keeps r0 s) : Keeps r0 (State.newVector s).2 := by
  unfold State.newVector
  repeat' first
    | with_reducible assumption
    | with_reducible exact Keeps.refl _
    | intro _
    | with_reducible apply State.drawFree_keeps

theorem State.newValue_keeps {r0 : State} (s : State) (hs : Keeps r0 s) : Keeps r0 (State.newValue s).2 := by
  unfold State.newValue
  repeat' first
    | with_reducible assumption
    | with_reducible exact Keeps.refl _
    | intro _
    | with_reducible apply State.drawFree_keeps

theorem State.iterate_keeps {r0 : State} (s : State) (kind : Nat) (c : CruSlot) (u : CruRun) (xs : List Nat) (hs : Keeps r0 s) : Keeps r0 (State.iterate s kind c u xs).2 := by
  unfold State.iterate
  repeat' first
    | with_reducible assumption
    | with_reducible exact Keeps.refl _
    | intro _
    | with_reducible apply State.drawFree_keeps
    | with_reducible apply State.readValues_keeps

theorem Keeps.ite2 {r0 : State} {α : Type} {c : Prop} [Decidable c] {a b : α × State} (ha : Keeps r0 a.2) (hb : Keeps r0 b.2) :
    Keeps r0 (if c then a else b).2 := by
  split
  · exact ha
  · exact hb

theorem State.decideNext_keeps {r0 : State} (s : State) (d : DieIx) (kind : Nat) (b : List Byte) (old : List DWord) (u : CruRun) (hs : Keeps r0 s) :
    Keeps r0 (State.decideNext s d kind b old u).2 := by
  unfold State.decideNext
  exact Keeps.ite2 hs (Keeps.ite2 hs (Keeps.ite2 hs (Keeps.ite2 (State.addSat_keeps _ _ _ _ _ _ hs) hs)))

theorem State.classNorm_keeps {r0 : State} (s : State) (kind : Nat) (c : CruSlot) (u : CruRun) (hs : Keeps r0 s) : Keeps r0 (State.classNorm s kind c u).2 := by
  unfold State.classNorm
  repeat' first
    | with_reducible assumption
    | with_reducible exact Keeps.refl _
    | intro _
    | with_reducible apply State.drawFree_keeps
    | with_reducible apply State.readValues_keeps

theorem State.factored_keeps {r0 : State} (s : State) (kind : Nat) (c : CruSlot) (u : CruRun) (hs : Keeps r0 s) : Keeps r0 (State.factored s kind c u).2 := by
  unfold State.factored
  repeat' first
    | with_reducible assumption
    | with_reducible exact Keeps.refl _
    | intro _
    | with_reducible apply State.setReg_keeps
    | with_reducible apply State.modReg_keeps
    | with_reducible apply State.drawFree_keeps
    | with_reducible apply State.readValues_keeps
    | with_reducible apply State.setSlot_keeps
    | with_reducible apply State.storeWrite_keeps
    | with_reducible apply Keeps.fold

theorem State.substituted_keeps {r0 : State} (s : State) (d : DieIx) (kind : Nat) (c : CruSlot) (u : CruRun) (hs : Keeps r0 s) : Keeps r0 (State.substituted s d kind c u).2 := by
  unfold State.substituted
  repeat' first
    | with_reducible assumption
    | with_reducible exact Keeps.refl _
    | intro _
    | with_reducible apply State.drawFree_keeps
    | with_reducible apply State.iterate_keeps

theorem State.iterated_keeps {r0 : State} (s : State) (d : DieIx) (kind : Nat) (method : Nat) (c : CruSlot) (u : CruRun) (hs : Keeps r0 s) : Keeps r0 (State.iterated s d kind method c u).2 := by
  unfold State.iterated
  repeat' first
    | with_reducible assumption
    | with_reducible exact Keeps.refl _
    | intro _
    | with_reducible apply State.drawFree_keeps
    | with_reducible apply State.readValues_keeps
    | with_reducible apply State.iterate_keeps

theorem State.gradient_keeps {r0 : State} (s : State) (d : DieIx) (r : Running) (c : CruSlot) (u : CruRun) (hs : Keeps r0 s) : Keeps r0 (State.gradient s d r c u).2 := by
  unfold State.gradient
  repeat' first
    | with_reducible assumption
    | with_reducible exact Keeps.refl _
    | intro _
    | with_reducible apply State.drawFree_keeps
    | with_reducible apply State.put_keeps

theorem State.ipmClass_keeps {r0 : State} (s : State) (c : CruSlot) (u : CruRun) (left : Nat) (hs : Keeps r0 s) : Keeps r0 (State.ipmClass s c u left).2 := by
  unfold State.ipmClass
  repeat' first
    | with_reducible assumption
    | with_reducible exact Keeps.refl _
    | intro _
    | with_reducible apply State.drawFree_keeps
    | with_reducible apply State.readValues_keeps
    | with_reducible apply Keeps.ite
    | split

theorem State.ipmSolve_keeps {r0 : State} (s : State) (d : DieIx) (c : CruSlot) (u : CruRun) (left : Nat) (hs : Keeps r0 s) : Keeps r0 (State.ipmSolve s d c u left).2 := by
  unfold State.ipmSolve
  repeat' first
    | with_reducible assumption
    | with_reducible exact Keeps.refl _
    | intro _
    | with_reducible apply State.drawFree_keeps

theorem State.checked_keeps {r0 : State} (s : State) (kind : Nat) (c : CruSlot) (u : CruRun) (hs : Keeps r0 s) : Keeps r0 (State.checked s kind c u).2 := by
  unfold State.checked
  repeat' first
    | with_reducible assumption
    | with_reducible exact Keeps.refl _
    | intro _
    | with_reducible apply State.drawFree_keeps
    | with_reducible apply State.readValues_keeps
    | with_reducible apply Keeps.ite
    | split

theorem State.endClass_keeps {r0 : State} (s : State) (d : DieIx) (r : Running) (c : CruSlot) (u : CruRun) (hs : Keeps r0 s) : Keeps r0 (State.endClass s d r c u).2.2 := by
  unfold State.endClass
  repeat' first
    | with_reducible assumption
    | with_reducible exact Keeps.refl _
    | intro _
    | with_reducible apply State.decideNext_keeps
    | with_reducible apply State.classNorm_keeps
    | with_reducible apply State.factored_keeps
    | with_reducible apply State.substituted_keeps
    | with_reducible apply State.iterated_keeps
    | with_reducible apply State.gradient_keeps
    | with_reducible apply State.ipmClass_keeps
    | with_reducible apply State.ipmSolve_keeps
    | with_reducible apply State.checked_keeps
    | with_reducible apply Keeps.ite
    | split
    | dsimp only

theorem State.beginClass_keeps {r0 : State} (s : State) (c : CruSlot) (u : CruRun) (hs : Keeps r0 s) : Keeps r0 (State.beginClass s c u) := by
  unfold State.beginClass
  repeat' first
    | with_reducible assumption
    | with_reducible exact Keeps.refl _
    | intro _
    | with_reducible apply State.storeWrite_keeps
    | with_reducible apply Keeps.fold
    | with_reducible apply Keeps.fold1
    | with_reducible apply Keeps.fold2
    | with_reducible apply Keeps.fold3
    | with_reducible apply Keeps.ite

theorem State.cruAdvance_keeps {r0 : State} (d : DieIx) (c : CruSlot) (n : Nat) (u : CruRun) (r : Running) (s : State) (hs : Keeps r0 s) :
    Keeps r0 (State.cruAdvance d c n u r s).2.2 := by
  induction n generalizing u r s with
  | zero => exact hs
  | succ n ih =>
    unfold State.cruAdvance
    dsimp only
    split
    · exact hs
    · exact ih _ _ _ (State.beginClass_keeps _ _ _ (State.endClass_keeps _ _ _ _ _ hs))

theorem State.setSolve_keeps {r0 : State} (s : State) (d : DieIx) (u : CruRun) (hs : Keeps r0 s) : Keeps r0 (State.setSolve s d u) := by
  unfold State.setSolve
  repeat' first
    | with_reducible assumption
    | with_reducible exact Keeps.refl _
    | intro _
    | with_reducible apply State.modDie_keeps

theorem State.cruStore_keeps {r0 : State} (s : State) (d : DieIx) (c : CruSlot) (u : CruRun) (r : Running) (hs : Keeps r0 s) : Keeps r0 (State.cruStore s d c u r) := by
  unfold State.cruStore
  repeat' first
    | with_reducible assumption
    | with_reducible exact Keeps.refl _
    | intro _
    | with_reducible apply State.setRunning_keeps
    | with_reducible apply State.cruAdvance_keeps
    | with_reducible apply State.setSolve_keeps

theorem State.solveBegin_keeps {r0 : State} (s : State) (d : DieIx) (r : Running) (c : CruSlot) (l : List (List Byte × List Bool)) (hs : Keeps r0 s) : Keeps r0 (State.solveBegin s d r c l) := by
  unfold State.solveBegin
  repeat' first
    | with_reducible assumption
    | with_reducible exact Keeps.refl _
    | intro _
    | with_reducible apply State.addSat_keeps
    | with_reducible apply State.logEvent_keeps
    | with_reducible apply State.dropReads_keeps
    | with_reducible apply State.iterate_keeps
    | with_reducible apply State.decideNext_keeps
    | with_reducible apply State.classNorm_keeps
    | with_reducible apply State.beginClass_keeps
    | with_reducible apply State.cruStore_keeps
    | with_reducible apply Keeps.ite

theorem State.solveStart_keeps {r0 : State} (s : State) (d : DieIx) (r : Running) (hs : Keeps r0 s) : Keeps r0 (State.solveStart s d r) := by
  unfold State.solveStart
  repeat' first
    | with_reducible assumption
    | with_reducible exact Keeps.refl _
    | intro _
    | with_reducible apply State.finish_keeps
    | with_reducible apply State.countService_keeps
    | with_reducible apply State.stopEarly_keeps
    | with_reducible apply State.solveBegin_keeps
    | (with_reducible refine State.fetchAll_data (by assumption) ?_)
    | (with_reducible refine State.fetchAll_wait (by assumption) ?_)
    | with_reducible apply Keeps.ite
    | split
    | dsimp only

theorem State.retain_keeps {r0 : State} (s : State) (u : CruRun) (c : CruSlot) (cols : List Byte) (hs : Keeps r0 s) : Keeps r0 (State.retain s u c cols) := by
  unfold State.retain
  repeat' first
    | with_reducible assumption
    | with_reducible exact Keeps.refl _
    | intro _
    | with_reducible apply State.modReg_keeps
    | with_reducible apply State.setSlot_keeps
    | with_reducible apply State.storeWrite_keeps
    | with_reducible apply State.newVector_keeps
    | with_reducible apply Keeps.fold

theorem State.cruInterrupt_keeps {r0 : State} (s : State) (kind : Nat) (u : CruRun) (hs : Keeps r0 s) : Keeps r0 (State.cruInterrupt s kind u) := by
  unfold State.cruInterrupt
  repeat' first
    | with_reducible assumption
    | with_reducible exact Keeps.refl _
    | intro _
    | with_reducible apply State.interruptSlot_keeps
    | with_reducible apply Keeps.ite

theorem State.cruFences_keeps {r0 : State} (s : State) (l : List (Nat × Nat)) (hs : Keeps r0 s) : Keeps r0 (State.cruFences s l) := by
  unfold State.cruFences
  repeat' first
    | with_reducible assumption
    | with_reducible exact Keeps.refl _
    | intro _
    | with_reducible apply State.resetToFence_keeps
    | with_reducible apply Keeps.fold

theorem State.solveNone_keeps {r0 : State} (s : State) (d : DieIx) (r : Running) (c : CruSlot) (u : CruRun) (out : Nat) (st : Nat) (hall : Word) (hs : Keeps r0 s) : Keeps r0 (State.solveNone s d r c u out st hall) := by
  unfold State.solveNone
  repeat' first
    | with_reducible assumption
    | with_reducible exact Keeps.refl _
    | intro _
    | with_reducible apply State.drawFree_keeps
    | with_reducible apply State.put_keeps
    | with_reducible apply State.settle_keeps
    | with_reducible apply State.cruInterrupt_keeps
    | with_reducible apply State.cruFences_keeps

theorem State.testCores_keeps {r0 : State} (s : State) (c : CruSlot) (hs : Keeps r0 s) : Keeps r0 (State.testCores s c) := by
  unfold State.testCores
  repeat' first
    | with_reducible assumption
    | with_reducible exact Keeps.refl _
    | intro _
    | with_reducible apply State.testFirst_keeps
    | with_reducible apply Keeps.fold

theorem State.solveEnd_keeps {r0 : State} (s : State) (d : DieIx) (r : Running) (c : CruSlot) (u : CruRun) (faults : List Deviation) (hs : Keeps r0 s) : Keeps r0 (State.solveEnd s d r c u faults) := by
  unfold State.solveEnd
  repeat' first
    | with_reducible assumption
    | with_reducible exact Keeps.refl _
    | intro _
    | with_reducible apply State.drawFree_keeps
    | with_reducible apply State.logEvent_keeps
    | with_reducible apply State.put_keeps
    | with_reducible apply State.settle_keeps
    | with_reducible apply State.quarantine_keeps
    | with_reducible apply State.retain_keeps
    | with_reducible apply State.cruFences_keeps
    | with_reducible apply State.testCores_keeps
    | with_reducible apply Keeps.ite

theorem State.solveRun_keeps {r0 : State} (s : State) (d : DieIx) (faults : List Deviation) (r : Running) (hs : Keeps r0 s) : Keeps r0 (State.solveRun s d faults r) := by
  unfold State.solveRun
  repeat' first
    | with_reducible assumption
    | with_reducible exact Keeps.refl _
    | intro _
    | with_reducible apply State.solveStart_keeps
    | with_reducible apply State.solveEnd_keeps
    | with_reducible apply Keeps.ite
    | split

theorem execFactorSolve_keeps (d : DieIx) (faults : List Deviation) (s : State) : Lawful s (execFactorSolve d faults s) := by
  unfold execFactorSolve
  repeat' first
    | with_reducible apply Lawful.onDie
    | with_reducible apply Lawful.next
    | with_reducible assumption
    | with_reducible exact Keeps.refl _
    | intro _
    | with_reducible apply withCru_keeps
    | with_reducible apply State.solveRun_keeps

theorem execSolve_keeps (d : DieIx) (faults : List Deviation) (s : State) : Lawful s (execSolve d faults s) := by
  unfold execSolve
  repeat' first
    | with_reducible apply Lawful.onDie
    | with_reducible apply Lawful.next
    | with_reducible assumption
    | with_reducible exact Keeps.refl _
    | intro _
    | with_reducible apply withCru_keeps
    | with_reducible apply State.solveRun_keeps

theorem execRefine_keeps (d : DieIx) (faults : List Deviation) (s : State) : Lawful s (execRefine d faults s) := by
  unfold execRefine
  repeat' first
    | with_reducible apply Lawful.onDie
    | with_reducible apply Lawful.next
    | with_reducible assumption
    | with_reducible exact Keeps.refl _
    | intro _
    | with_reducible apply withCru_keeps
    | with_reducible apply State.solveRun_keeps

theorem execAdjoint_keeps (d : DieIx) (faults : List Deviation) (s : State) : Lawful s (execAdjoint d faults s) := by
  unfold execAdjoint
  repeat' first
    | with_reducible apply Lawful.onDie
    | with_reducible apply Lawful.next
    | with_reducible assumption
    | with_reducible exact Keeps.refl _
    | intro _
    | with_reducible apply withCru_keeps
    | with_reducible apply State.solveRun_keeps

theorem execIpmStep_keeps (d : DieIx) (faults : List Deviation) (s : State) : Lawful s (execIpmStep d faults s) := by
  unfold execIpmStep
  repeat' first
    | with_reducible apply Lawful.onDie
    | with_reducible apply Lawful.next
    | with_reducible assumption
    | with_reducible exact Keeps.refl _
    | intro _
    | with_reducible apply withCru_keeps
    | with_reducible apply State.solveRun_keeps

theorem withSolve_keeps {r0 : State} (s : State) (d : DieIx) (k : Running → CruSlot → CruRun → State) (hs : Keeps r0 s) (hk : ∀ x y z, Keeps r0 (k x y z)) : Keeps r0 (withSolve s d k) := by
  unfold withSolve
  repeat' first
    | with_reducible assumption
    | with_reducible exact Keeps.refl _
    | intro _
    | with_reducible apply hk
    | with_reducible apply Keeps.ite
    | split

theorem State.sendPhaseDone_keeps {r0 : State} (s : State) (d : DieIx) (e : DieIx) (c : CruSlot) (slot : Nat) (phase : Nat) (hs : Keeps r0 s) : Keeps r0 (State.sendPhaseDone s d e c slot phase) := by
  unfold State.sendPhaseDone
  repeat' first
    | with_reducible assumption
    | with_reducible exact Keeps.refl _
    | intro _
    | with_reducible apply State.sendMsg_keeps

theorem State.phaseBegin_keeps {r0 : State} (s : State) (d : DieIx) (r : Running) (c : CruSlot) (u : CruRun) (hs : Keeps r0 s) : Keeps r0 (State.phaseBegin s d r c u) := by
  unfold State.phaseBegin
  repeat' first
    | with_reducible assumption
    | with_reducible exact Keeps.refl _
    | intro _
    | with_reducible apply State.setSolve_keeps
    | with_reducible apply State.cruStore_keeps
    | with_reducible apply State.sendPhaseDone_keeps
    | with_reducible apply Keeps.fold
    | with_reducible apply Keeps.fold1
    | with_reducible apply Keeps.fold2
    | with_reducible apply Keeps.fold3
    | with_reducible apply Keeps.ite
    | split

theorem execPhase_keeps (d : DieIx) (s : State) : Lawful s (execPhase d s) := by
  unfold execPhase
  repeat' first
    | with_reducible apply Lawful.onDie
    | with_reducible apply Lawful.next
    | with_reducible assumption
    | with_reducible exact Keeps.refl _
    | intro _
    | with_reducible apply withSolve_keeps
    | with_reducible apply State.phaseBegin_keeps

theorem State.taskEffect_keeps {r0 : State} (s : State) (c : CruSlot) (t : TaskRec) (hs : Keeps r0 s) : Keeps r0 (State.taskEffect s c t).1 := by
  unfold State.taskEffect
  repeat' first
    | with_reducible assumption
    | with_reducible exact Keeps.refl _
    | intro _
    | with_reducible apply State.memRead_keeps
    | with_reducible apply State.memWrite_keeps
    | with_reducible apply State.storeWrite_keeps
    | with_reducible apply State.newVector_keeps
    | with_reducible apply Keeps.ite
    | split

theorem State.reissue_keeps {r0 : State} (s : State) (r : Running) (c : CruSlot) (u : CruRun) (t : TaskRec) (how : Nat) (hs : Keeps r0 s) : Keeps r0 (State.reissue s r c u t how).2 := by
  unfold State.reissue
  repeat' first
    | with_reducible assumption
    | with_reducible exact Keeps.refl _
    | intro _
    | with_reducible apply State.drawFree_keeps
    | with_reducible apply State.memRead_keeps
    | with_reducible apply State.quarantine_keeps
    | with_reducible apply State.classify_keeps
    | with_reducible apply State.testArrays_keeps
    | with_reducible apply State.addLibrary_keeps
    | with_reducible apply Keeps.ite

theorem State.taskDone_keeps {r0 : State} (s : State) (d : DieIx) (i : Nat) (how : Nat) (r : Running) (c : CruSlot) (u : CruRun) (hs : Keeps r0 s) : Keeps r0 (State.taskDone s d i how r c u) := by
  unfold State.taskDone
  repeat' first
    | with_reducible assumption
    | with_reducible exact Keeps.refl _
    | intro _
    | with_reducible apply State.setSolve_keeps
    | with_reducible apply State.solveNone_keeps
    | with_reducible apply State.sendPhaseDone_keeps
    | with_reducible apply State.taskEffect_keeps
    | with_reducible apply State.reissue_keeps
    | with_reducible apply Keeps.ite
    | split

theorem execCrucibleTask_keeps (d : DieIx) (i : Nat) (how : Fin 4) (s : State) : Lawful s (execCrucibleTask d i how s) := by
  unfold execCrucibleTask
  repeat' first
    | with_reducible apply Lawful.onDie
    | with_reducible apply Lawful.next
    | with_reducible assumption
    | with_reducible exact Keeps.refl _
    | intro _
    | with_reducible apply withSolve_keeps
    | with_reducible apply State.taskDone_keeps

theorem State.phaseFrame_keeps {r0 : State} (s : State) (d : DieIx) (e : DieIx) (r : Running) (c : CruSlot) (u : CruRun) (hs : Keeps r0 s) : Keeps r0 (State.phaseFrame s d e r c u) := by
  unfold State.phaseFrame
  repeat' first
    | with_reducible assumption
    | with_reducible exact Keeps.refl _
    | intro _
    | with_reducible apply State.addSat_keeps
    | with_reducible apply State.setSolve_keeps
    | with_reducible apply State.cruStore_keeps
    | with_reducible apply Keeps.ite
    | split

theorem execPhaseDone_keeps (d : DieIx) (m : Msg) (s : State) : Lawful s (execPhaseDone d m s) := by
  unfold execPhaseDone
  repeat' first
    | with_reducible apply Lawful.onDie
    | with_reducible apply Lawful.next
    | with_reducible assumption
    | with_reducible exact Keeps.refl _
    | intro _
    | with_reducible apply State.wake_keeps
    | with_reducible apply State.takeMsg_keeps
    | (with_reducible refine State.dropRequest_keeps (by assumption) ?_)
    | with_reducible apply withSolve_keeps
    | with_reducible apply State.phaseFrame_keeps
    | with_reducible apply Keeps.ite
    | split
    | dsimp only

theorem State.cutoff_keeps {r0 : State} (s : State) (d : DieIx) (r : Running) (c : CruSlot) (u : CruRun) (hs : Keeps r0 s) : Keeps r0 (State.cutoff s d r c u) := by
  unfold State.cutoff
  repeat' first
    | with_reducible assumption
    | with_reducible exact Keeps.refl _
    | intro _
    | with_reducible apply State.addSat_keeps
    | with_reducible apply State.newVector_keeps
    | with_reducible apply State.cruStore_keeps
    | with_reducible apply State.cruInterrupt_keeps
    | with_reducible apply State.solveNone_keeps
    | with_reducible apply Keeps.ite
    | split

theorem execCutoff_keeps (d : DieIx) (s : State) : Lawful s (execCutoff d s) := by
  unfold execCutoff
  repeat' first
    | with_reducible apply Lawful.onDie
    | with_reducible apply Lawful.next
    | with_reducible assumption
    | with_reducible exact Keeps.refl _
    | intro _
    | with_reducible apply withSolve_keeps
    | with_reducible apply State.cutoff_keeps

theorem State.cutValues_keeps {r0 : State} (s : State) (d : DieIx) (r : Running) (hs : Keeps r0 s) : Keeps r0 (State.cutValues s d r) := by
  unfold State.cutValues
  repeat' first
    | with_reducible assumption
    | with_reducible exact Keeps.refl _
    | intro _
    | with_reducible apply State.stopEarly_keeps
    | with_reducible apply State.valuesCount_keeps
    | with_reducible apply Keeps.ite
    | split

theorem State.cruStop_keeps {r0 : State} (s : State) (d : DieIx) (r : Running) (hs : Keeps r0 s) : Keeps r0 (State.cruStop s d r) := by
  unfold State.cruStop
  repeat' first
    | with_reducible assumption
    | with_reducible exact Keeps.refl _
    | intro _
    | with_reducible apply State.drawFree_keeps
    | with_reducible apply State.finish_keeps
    | with_reducible apply State.cruInterrupt_keeps
    | with_reducible apply State.cruFences_keeps
    | with_reducible apply State.cutValues_keeps
    | with_reducible apply Keeps.ite
    | split

theorem State.cruBoundary_keeps {r0 : State} (s : State) (d : DieIx) (hs : Keeps r0 s) : Keeps r0 (State.cruBoundary s d) := by
  unfold State.cruBoundary
  repeat' first
    | with_reducible assumption
    | with_reducible exact Keeps.refl _
    | intro _
    | with_reducible apply State.cruStop_keeps
    | with_reducible apply Keeps.fold
    | with_reducible apply Keeps.fold1
    | with_reducible apply Keeps.fold2
    | with_reducible apply Keeps.fold3
    | with_reducible apply Keeps.ite

theorem State.groupEntry_keeps {r0 : State} (s : State) (d : DieIx) (k : Nat) (g : Nat) (hs : Keeps r0 s) : Keeps r0 (State.groupEntry s d k g).state := by
  unfold State.groupEntry
  repeat' first
    | with_reducible assumption
    | with_reducible exact Keeps.refl _
    | intro _
    | with_reducible apply State.memRead_keeps

theorem State.groupOf_keeps {r0 : State} (s : State) (d : DieIx) (k : Nat) (g : Nat) (hs : Keeps r0 s) : Keeps r0 (State.groupOf s d k g).2 := by
  unfold State.groupOf
  repeat' first
    | with_reducible assumption
    | with_reducible exact Keeps.refl _
    | intro _
    | with_reducible apply State.memRead_keeps
    | with_reducible apply State.countService_keeps
    | with_reducible apply State.groupEntry_keeps
    | with_reducible apply Keeps.ite
    | split
    | dsimp only

theorem State.sendCol_keeps {r0 : State} (s : State) (d : DieIx) (k : Nat) (kind : Nat) (dst : Endpoint) (spec : List Byte) (data : List Byte) (marks : DWord) (hs : Keeps r0 s) : Keeps r0 (State.sendCol s d k kind dst spec data marks) := by
  unfold State.sendCol
  repeat' first
    | with_reducible assumption
    | with_reducible exact Keeps.refl _
    | intro _
    | with_reducible apply State.sendMsg_keeps

theorem State.countLate_keeps {r0 : State} (s : State) (d : DieIx) (hs : Keeps r0 s) : Keeps r0 (State.countLate s d) := by
  unfold State.countLate
  repeat' first
    | with_reducible assumption
    | with_reducible exact Keeps.refl _
    | intro _
    | with_reducible apply State.addSat_keeps

theorem State.countAttempt_keeps {r0 : State} (s : State) (d : DieIx) (hs : Keeps r0 s) : Keeps r0 (State.countAttempt s d) := by
  unfold State.countAttempt
  repeat' first
    | with_reducible assumption
    | with_reducible exact Keeps.refl _
    | intro _
    | with_reducible apply State.addSat_keeps

theorem withGrant_keeps {r0 : State} (s : State) (d : DieIx) (q : QId) (pick : Running → Bool) (k : Running → State → State)
    (hs : Keeps r0 s) (hk : ∀ x t, Keeps r0 t → Keeps r0 (k x t)) : Keeps r0 (withGrant s d q pick k) := by
  unfold withGrant
  dsimp only
  split
  · exact hs
  · exact withPick_keeps _ _ _ _ _ (State.modDie_keeps _ _ _ hs) (fun x => hk x _ (State.modDie_keeps _ _ _ hs))

theorem State.addPeers_keeps {r0 : State} (s : State) (d : DieIx) (job : BitVec 12) (l : List Endpoint) (hs : Keeps r0 s) : Keeps r0 (State.addPeers s d job l) := by
  unfold State.addPeers
  repeat' first
    | with_reducible assumption
    | with_reducible exact Keeps.refl _
    | intro _
    | with_reducible apply State.modDie_keeps

theorem State.holdEarly_keeps {r0 u s : State} {d : DieIx} {m : Msg} (e : s.holdEarly d m = some u) (hs : Keeps r0 s) : Keeps r0 u := by
  unfold State.holdEarly at e
  split at e
  · cases e; exact State.modDie_keeps _ _ _ hs
  · cases e

theorem State.holdEarly_getD {r0 s t : State} {d : DieIx} {m : Msg} (hs : Keeps r0 s) (ht : Keeps r0 t) : Keeps r0 ((s.holdEarly d m).getD t) := by
  cases e : s.holdEarly d m with
  | none => exact ht
  | some u => exact State.holdEarly_keeps e hs

theorem State.rejudge_keeps {r0 : State} (s : State) (d : DieIx) (hs : Keeps r0 s) : Keeps r0 (State.rejudge s d) := by
  unfold State.rejudge
  repeat' first
    | with_reducible assumption
    | with_reducible exact Keeps.refl _
    | intro _
    | with_reducible apply State.modDie_keeps
    | with_reducible apply State.addSat_keeps
    | with_reducible apply Keeps.fold
    | with_reducible apply Keeps.fold1
    | with_reducible apply Keeps.fold2
    | with_reducible apply Keeps.fold3
    | with_reducible apply Keeps.ite
    | split

theorem State.readScale_keeps {r0 : State} (s : State) (d : DieIx) (job : BitVec 12) (base : Nat) (j : Nat) (hs : Keeps r0 s) : Keeps r0 (State.readScale s d job base j).2.2 := by
  unfold State.readScale
  repeat' first
    | with_reducible assumption
    | with_reducible exact Keeps.refl _
    | intro _
    | with_reducible apply State.memRead_keeps

theorem State.setScaleEntry_keeps {r0 : State} (s : State) (d : DieIx) (job : BitVec 12) (base : Nat) (j : Nat) (w : Word) (hs : Keeps r0 s) : Keeps r0 (State.setScaleEntry s d job base j w) := by
  unfold State.setScaleEntry
  repeat' first
    | with_reducible assumption
    | with_reducible exact Keeps.refl _
    | intro _
    | with_reducible apply State.memWrite_keeps

theorem State.scaleTables_keeps {r0 : State} (s : State) (d : DieIx) (k : Nat) (yes : Bool) (hs : Keeps r0 s) : Keeps r0 (State.scaleTables s d k yes) := by
  unfold State.scaleTables
  repeat' first
    | with_reducible assumption
    | with_reducible exact Keeps.refl _
    | intro _
    | with_reducible apply State.modCommit_keeps
    | with_reducible apply State.readScale_keeps
    | with_reducible apply State.setScaleEntry_keeps
    | with_reducible apply Keeps.fold

theorem State.sendCmt_keeps {r0 : State} (s : State) (d : DieIx) (k : Nat) (kind : Nat) (dst : Endpoint) (yes : Bool) (cause : Nat) (step : Nat) (att : Nat) (hs : Keeps r0 s) : Keeps r0 (State.sendCmt s d k kind dst yes cause step att) := by
  unfold State.sendCmt
  repeat' first
    | with_reducible assumption
    | with_reducible exact Keeps.refl _
    | intro _
    | with_reducible apply State.sendMsg_keeps

theorem State.recordVote_keeps {r0 : State} (s : State) (d : DieIx) (k : Nat) (src : Endpoint) (yes : Bool) (cause : Nat) (hs : Keeps r0 s) : Keeps r0 (State.recordVote s d k src yes cause) := by
  unfold State.recordVote
  repeat' first
    | with_reducible assumption
    | with_reducible exact Keeps.refl _
    | intro _
    | with_reducible apply State.modCommit_keeps

theorem State.castVote_keeps {r0 : State} (s : State) (d : DieIx) (k : Nat) (e : Option Endpoint) (cause : Nat) (hs : Keeps r0 s) : Keeps r0 (State.castVote s d k e cause) := by
  unfold State.castVote
  repeat' first
    | with_reducible assumption
    | with_reducible exact Keeps.refl _
    | intro _
    | with_reducible apply State.sendCmt_keeps
    | with_reducible apply State.recordVote_keeps
    | with_reducible apply Keeps.ite
    | split

theorem execVoteCutoff_keeps (d : DieIx) (k : CtxIx) (s : State) : Lawful s (execVoteCutoff d k s) := by
  unfold execVoteCutoff
  repeat' first
    | with_reducible apply Lawful.onDie
    | with_reducible apply Lawful.next
    | with_reducible assumption
    | with_reducible exact Keeps.refl _
    | intro _
    | with_reducible apply State.setRf_keeps
    | with_reducible apply State.setCmtState_keeps
    | with_reducible apply State.castVote_keeps
    | with_reducible apply Keeps.ite

theorem State.dropVote_keeps {r0 : State} (s : State) (d : DieIx) (m : Msg) (hs : Keeps r0 s) : Keeps r0 (State.dropVote s d m) := by
  unfold State.dropVote
  repeat' first
    | with_reducible assumption
    | with_reducible exact Keeps.refl _
    | intro _
    | with_reducible apply State.logCaused_keeps
    | with_reducible apply State.countAttempt_keeps

theorem execVote_keeps (d : DieIx) (m : Msg) (s : State) : Lawful s (execVote d m s) := by
  unfold execVote
  repeat' first
    | with_reducible apply Lawful.onDie
    | with_reducible apply Lawful.next
    | with_reducible assumption
    | with_reducible exact Keeps.refl _
    | intro _
    | with_reducible apply State.addSat_keeps
    | with_reducible apply State.wake_keeps
    | with_reducible apply State.takeMsg_keeps
    | with_reducible apply State.recordVote_keeps
    | with_reducible apply State.dropVote_keeps
    | with_reducible apply Keeps.ite
    | split
    | dsimp only

theorem State.keep_keeps {r0 : State} (s : State) (d : DieIx) (k : Nat) (step : Nat) (att : Nat) (yes : Bool) (cause : BitVec 8) (hs : Keeps r0 s) : Keeps r0 (State.keep s d k step att yes cause) := by
  unfold State.keep
  repeat' first
    | with_reducible assumption
    | with_reducible exact Keeps.refl _
    | intro _
    | with_reducible apply State.modCommit_keeps

theorem State.broadcastVerdict_keeps {r0 : State} (s : State) (d : DieIx) (k : Nat) (v : Bool × BitVec 8) (hs : Keeps r0 s) : Keeps r0 (State.broadcastVerdict s d k v) := by
  unfold State.broadcastVerdict
  repeat' first
    | with_reducible assumption
    | with_reducible exact Keeps.refl _
    | intro _
    | with_reducible apply State.modCommit_keeps
    | with_reducible apply State.sendCmt_keeps
    | with_reducible apply State.keep_keeps
    | with_reducible apply Keeps.fold
    | with_reducible apply Keeps.fold1
    | with_reducible apply Keeps.fold2
    | with_reducible apply Keeps.fold3
    | with_reducible apply Keeps.ite

theorem execRootDecision_keeps (d : DieIx) (k : CtxIx) (s : State) : Lawful s (execRootDecision d k s) := by
  unfold execRootDecision
  repeat' first
    | with_reducible apply Lawful.onDie
    | with_reducible apply Lawful.next
    | with_reducible assumption
    | with_reducible exact Keeps.refl _
    | intro _
    | with_reducible apply State.modCommit_keeps
    | with_reducible apply State.sendCmt_keeps
    | with_reducible apply State.broadcastVerdict_keeps
    | with_reducible apply Keeps.ite
    | split

theorem State.takeVerdict_keeps {r0 : State} (s : State) (d : DieIx) (k : Nat) (m : Msg) (hs : Keeps r0 s) : Keeps r0 (State.takeVerdict s d k m) := by
  unfold State.takeVerdict
  repeat' first
    | with_reducible assumption
    | with_reducible exact Keeps.refl _
    | intro _
    | with_reducible apply State.modCommit_keeps
    | with_reducible apply RowAcc.step_keeps
    | with_reducible apply State.sendCmt_keeps
    | with_reducible apply State.keep_keeps
    | with_reducible apply Keeps.ite

theorem execVerdict_keeps (d : DieIx) (m : Msg) (s : State) : Lawful s (execVerdict d m s) := by
  unfold execVerdict
  repeat' first
    | with_reducible apply Lawful.onDie
    | with_reducible apply Lawful.next
    | with_reducible assumption
    | with_reducible exact Keeps.refl _
    | intro _
    | with_reducible apply State.addSat_keeps
    | with_reducible apply State.wake_keeps
    | with_reducible apply State.modCommit_keeps
    | with_reducible apply State.takeMsg_keeps
    | with_reducible apply State.dropVote_keeps
    | with_reducible apply State.takeVerdict_keeps
    | with_reducible apply Keeps.ite
    | split
    | dsimp only

theorem execVerdictAck_keeps (d : DieIx) (m : Msg) (s : State) : Lawful s (execVerdictAck d m s) := by
  unfold execVerdictAck
  repeat' first
    | with_reducible apply Lawful.onDie
    | with_reducible apply Lawful.next
    | with_reducible assumption
    | with_reducible exact Keeps.refl _
    | intro _
    | with_reducible apply State.addSat_keeps
    | with_reducible apply State.wake_keeps
    | with_reducible apply State.takeMsg_keeps
    | with_reducible apply State.broadcastVerdict_keeps
    | with_reducible apply Keeps.ite
    | split

theorem execVerdictQuery_keeps (d : DieIx) (m : Msg) (s : State) : Lawful s (execVerdictQuery d m s) := by
  unfold execVerdictQuery
  repeat' first
    | with_reducible apply Lawful.onDie
    | with_reducible apply Lawful.next
    | with_reducible assumption
    | with_reducible exact Keeps.refl _
    | intro _
    | with_reducible apply State.addSat_keeps
    | with_reducible apply State.wake_keeps
    | with_reducible apply State.takeMsg_keeps
    | with_reducible apply RowAcc.step_keeps
    | with_reducible apply State.sendCmt_keeps
    | with_reducible apply State.keep_keeps
    | with_reducible apply Keeps.ite
    | split
    | dsimp only

theorem State.stopRunning_keeps {r0 : State} (s : State) (d : DieIx) (q : QId) (r : Running) (st : Nat) (hs : Keeps r0 s) : Keeps r0 (State.stopRunning s d q r st) := by
  unfold State.stopRunning
  repeat' first
    | with_reducible assumption
    | with_reducible exact Keeps.refl _
    | intro _
    | with_reducible apply State.modDie_keeps
    | with_reducible apply State.haltProc_keeps
    | with_reducible apply State.setRunning_keeps
    | with_reducible apply State.stopEarly_keeps
    | with_reducible apply Keeps.ite
    | split

theorem State.abortCru_keeps {r0 : State} (s : State) (d : DieIx) (st : Nat) (pick : Desc → Bool) (hs : Keeps r0 s) : Keeps r0 (State.abortCru s d st pick) := by
  unfold State.abortCru
  repeat' first
    | with_reducible assumption
    | with_reducible exact Keeps.refl _
    | intro _
    | with_reducible apply State.setQueue_keeps
    | with_reducible apply State.startQueue_keeps
    | with_reducible apply State.stopRunning_keeps
    | with_reducible apply Keeps.fold

theorem State.abortQueue_keeps {r0 : State} (s : State) (d : DieIx) (q : QId) (st : Nat) (pick : Desc → Bool) (hs : Keeps r0 s) : Keeps r0 (State.abortQueue s d q st pick) := by
  unfold State.abortQueue
  repeat' first
    | with_reducible assumption
    | with_reducible exact Keeps.refl _
    | intro _
    | with_reducible apply State.setQueue_keeps
    | with_reducible apply State.record_keeps
    | with_reducible apply State.startQueue_keeps
    | with_reducible apply State.stopRunning_keeps
    | with_reducible apply State.abortCru_keeps
    | with_reducible apply Keeps.fold
    | with_reducible apply Keeps.fold1
    | with_reducible apply Keeps.fold2
    | with_reducible apply Keeps.fold3
    | with_reducible apply Keeps.ite

theorem State.flip_keeps {r0 : State} (s : State) (d : DieIx) (k : Nat) (hs : Keeps r0 s) : Keeps r0 (State.flip s d k) := by
  unfold State.flip
  repeat' first
    | with_reducible assumption
    | with_reducible exact Keeps.refl _
    | intro _
    | with_reducible apply State.setReg_keeps
    | with_reducible apply State.modReg_keeps
    | with_reducible apply State.setRf_keeps
    | with_reducible apply State.modCommit_keeps
    | with_reducible apply State.setCmtState_keeps
    | with_reducible apply State.scaleTables_keeps

theorem State.abortStep_keeps {r0 : State} (s : State) (d : DieIx) (k : Nat) (cause : Nat) (hs : Keeps r0 s) : Keeps r0 (State.abortStep s d k cause) := by
  unfold State.abortStep
  repeat' first
    | with_reducible assumption
    | with_reducible exact Keeps.refl _
    | intro _
    | with_reducible apply State.modDie_keeps
    | with_reducible apply State.setRf_keeps
    | with_reducible apply State.logEvent_keeps
    | with_reducible apply State.hostEvent_keeps
    | with_reducible apply State.modCommit_keeps
    | with_reducible apply State.setCmtState_keeps
    | with_reducible apply State.scaleTables_keeps
    | with_reducible apply State.abortQueue_keeps
    | with_reducible apply Keeps.fold
    | with_reducible apply Keeps.fold1
    | with_reducible apply Keeps.fold2
    | with_reducible apply Keeps.fold3
    | with_reducible apply Keeps.ite

theorem State.applyVerdict_keeps {r0 : State} (s : State) (d : DieIx) (k : Nat) (hs : Keeps r0 s) : Keeps r0 (State.applyVerdict s d k) := by
  unfold State.applyVerdict
  repeat' first
    | with_reducible assumption
    | with_reducible exact Keeps.refl _
    | intro _
    | with_reducible apply State.flip_keeps
    | with_reducible apply State.abortStep_keeps
    | with_reducible apply Keeps.ite
    | split

theorem State.noticeJob_keeps {r0 : State} (s : State) (d : DieIx) (job : BitVec 12) (step : Option Nat) (hs : Keeps r0 s) : Keeps r0 (State.noticeJob s d job step) := by
  unfold State.noticeJob
  repeat' first
    | with_reducible assumption
    | with_reducible exact Keeps.refl _
    | intro _
    | with_reducible apply State.abortQueue_keeps

theorem State.noticeBoundary_keeps {r0 : State} (s : State) (d : DieIx) (hs : Keeps r0 s) : Keeps r0 (State.noticeBoundary s d) := by
  unfold State.noticeBoundary
  repeat' first
    | with_reducible assumption
    | with_reducible exact Keeps.refl _
    | intro _
    | with_reducible apply State.modDie_keeps
    | with_reducible apply State.noticeJob_keeps
    | with_reducible apply Keeps.fold

theorem State.noticeLate_keeps {r0 : State} (s : State) (d : DieIx) (job : BitVec 12) (step : Nat) (hs : Keeps r0 s) : Keeps r0 (State.noticeLate s d job step) := by
  unfold State.noticeLate
  repeat' first
    | with_reducible assumption
    | with_reducible exact Keeps.refl _
    | intro _
    | with_reducible apply State.modDie_keeps
    | with_reducible apply State.noticeJob_keeps
    | with_reducible apply Keeps.ite

theorem State.askVerdict_keeps {r0 : State} (s : State) (d : DieIx) (k : Nat) (hs : Keeps r0 s) : Keeps r0 (State.askVerdict s d k) := by
  unfold State.askVerdict
  repeat' first
    | with_reducible assumption
    | with_reducible exact Keeps.refl _
    | intro _
    | with_reducible apply State.modCommit_keeps
    | with_reducible apply State.sendCmt_keeps
    | with_reducible apply State.keep_keeps
    | with_reducible apply Keeps.ite
    | split
    | dsimp only

theorem State.becomeUndecided_keeps {r0 : State} (s : State) (d : DieIx) (k : Nat) (hs : Keeps r0 s) : Keeps r0 (State.becomeUndecided s d k) := by
  unfold State.becomeUndecided
  repeat' first
    | with_reducible assumption
    | with_reducible exact Keeps.refl _
    | intro _
    | with_reducible apply State.logEvent_keeps
    | with_reducible apply State.modCommit_keeps
    | with_reducible apply State.setCmtState_keeps
    | with_reducible apply State.askVerdict_keeps

theorem execCommitStroke_keeps (d : DieIx) (k : CtxIx) (s : State) : Lawful s (execCommitStroke d k s) := by
  unfold execCommitStroke
  repeat' first
    | with_reducible apply Lawful.onDie
    | with_reducible apply Lawful.next
    | with_reducible assumption
    | with_reducible exact Keeps.refl _
    | intro _
    | with_reducible apply State.startAll_keeps
    | with_reducible apply State.rejudge_keeps
    | with_reducible apply State.broadcastVerdict_keeps
    | with_reducible apply State.applyVerdict_keeps
    | with_reducible apply State.noticeLate_keeps
    | with_reducible apply State.becomeUndecided_keeps
    | with_reducible apply Keeps.ite
    | split

theorem execAskBackupRoot_keeps (d : DieIx) (k : CtxIx) (s : State) : Lawful s (execAskBackupRoot d k s) := by
  unfold execAskBackupRoot
  repeat' first
    | with_reducible apply Lawful.onDie
    | with_reducible apply Lawful.next
    | with_reducible assumption
    | with_reducible exact Keeps.refl _
    | intro _
    | with_reducible apply State.modCommit_keeps
    | with_reducible apply State.askVerdict_keeps
    | with_reducible apply Keeps.ite

theorem State.returnBoundary_keeps {r0 : State} (s : State) (d : DieIx) (k : Nat) (hs : Keeps r0 s) : Keeps r0 (State.returnBoundary s d k) := by
  unfold State.returnBoundary
  repeat' first
    | with_reducible assumption
    | with_reducible exact Keeps.refl _
    | intro _
    | with_reducible apply State.modCommit_keeps
    | with_reducible apply State.sendCmt_keeps
    | with_reducible apply Keeps.ite
    | split
    | dsimp only

theorem State.commitBoundary_keeps {r0 : State} (s : State) (d : DieIx) (k : Nat) (hs : Keeps r0 s) : Keeps r0 (State.commitBoundary s d k) := by
  unfold State.commitBoundary
  repeat' first
    | with_reducible assumption
    | with_reducible exact Keeps.refl _
    | intro _
    | with_reducible apply State.logEvent_keeps
    | with_reducible apply State.hostEvent_keeps
    | with_reducible apply State.modCommit_keeps
    | with_reducible apply State.applyVerdict_keeps
    | with_reducible apply State.askVerdict_keeps
    | with_reducible apply State.returnBoundary_keeps
    | with_reducible apply Keeps.ite

theorem State.sendParcels_keeps {r0 : State} (s : State) (d : DieIx) (u : RedRun) (kind : Nat) (most : Nat) (ps : List Parcel) (hs : Keeps r0 s) : Keeps r0 (State.sendParcels s d u kind most ps) := by
  unfold State.sendParcels
  repeat' first
    | with_reducible assumption
    | with_reducible exact Keeps.refl _
    | intro _
    | with_reducible apply State.sendCol_keeps
    | with_reducible apply Keeps.fold

theorem State.sendDown_keeps {r0 : State} (s : State) (d : DieIx) (u : RedRun) (j : Nat) (data : List Byte) (poison : Bool) (hs : Keeps r0 s) : Keeps r0 (State.sendDown s d u j data poison) := by
  unfold State.sendDown
  repeat' first
    | with_reducible assumption
    | with_reducible exact Keeps.refl _
    | intro _
    | with_reducible apply State.sendParcels_keeps

theorem State.setRedScale_keeps {r0 : State} (s : State) (d : DieIx) (r : Running) (j : Nat) (f : Word → Word) (hs : Keeps r0 s) : Keeps r0 (State.setRedScale s d r j f) := by
  unfold State.setRedScale
  repeat' first
    | with_reducible assumption
    | with_reducible exact Keeps.refl _
    | intro _
    | with_reducible apply State.setScaleEntry_keeps

theorem State.seeSat_keeps {r0 : State} (s : State) (d : DieIx) (r : Running) (j : Nat) (sat : Bool) (hs : Keeps r0 s) : Keeps r0 (State.seeSat s d r j sat) := by
  unfold State.seeSat
  repeat' first
    | with_reducible assumption
    | with_reducible exact Keeps.refl _
    | intro _
    | with_reducible apply State.setRedScale_keeps
    | with_reducible apply Keeps.ite

theorem State.addFlags_keeps {r0 : State} (s : State) (d : DieIx) (q : QId) (ident : Nat) (fl : BitVec 8) (hs : Keeps r0 s) : Keeps r0 (State.addFlags s d q ident fl) := by
  unfold State.addFlags
  repeat' first
    | with_reducible assumption
    | with_reducible exact Keeps.refl _
    | intro _
    | with_reducible apply State.modQueue_keeps

theorem State.srcChunk_keeps {r0 : State} (s : State) (d : DieIx) (r : Running) (j : Nat) (hs : Keeps r0 s) : Keeps r0 (State.srcChunk s d r j).2 := by
  unfold State.srcChunk
  repeat' first
    | with_reducible assumption
    | with_reducible exact Keeps.refl _
    | intro _
    | with_reducible apply State.memRead_keeps

theorem State.quantiseChunk_keeps {r0 : State} (s : State) (d : DieIx) (r : Running) (j : Nat) (scale : Nat) (hs : Keeps r0 s) : Keeps r0 (State.quantiseChunk s d r j scale).2 := by
  unfold State.quantiseChunk
  repeat' first
    | with_reducible assumption
    | with_reducible exact Keeps.refl _
    | intro _
    | with_reducible apply State.modDie_keeps
    | with_reducible apply State.addFlags_keeps
    | with_reducible apply State.srcChunk_keeps

theorem redNotice_keeps {r0 : State} (d : DieIx) (w : RW) (j : Nat) (missing : Bool) (hw : Keeps r0 w.1) : Keeps r0 (redNotice d w j missing).1 := by
  unfold redNotice
  repeat' first
    | with_reducible assumption
    | with_reducible exact Keeps.refl _
    | intro _
    | with_reducible apply State.sendParcels_keeps
    | with_reducible apply State.sendDown_keeps
    | with_reducible apply Keeps.ite
    | split
    | dsimp only

theorem redFail_keeps {r0 : State} (d : DieIx) (w : RW) (j : Nat) (dev : Nat) (sent : Option DWord) (hw : Keeps r0 w.1) : Keeps r0 (redFail d w j dev sent).1 := by
  unfold redFail
  repeat' first
    | with_reducible assumption
    | with_reducible exact Keeps.refl _
    | intro _
    | with_reducible apply State.addSat_keeps
    | with_reducible apply State.logFrom_keeps
    | with_reducible apply Keeps.ite
    | split

theorem redKeep_keeps {r0 : State} (d : DieIx) (r : Running) (w : RW) (j : Nat) (bs : List Byte) (marks : List Bool) (t : ChunkTail) (poison : Bool) (hw : Keeps r0 w.1) : Keeps r0 (redKeep d r w j bs marks t poison).1 := by
  unfold redKeep
  repeat' first
    | with_reducible assumption
    | with_reducible exact Keeps.refl _
    | intro _
    | with_reducible apply State.memWrite_keeps
    | with_reducible apply State.setRedScale_keeps
    | with_reducible apply State.seeSat_keeps
    | with_reducible apply Keeps.ite

theorem redResult_keeps {r0 : State} (d : DieIx) (r : Running) (w : RW) (j : Nat) (ints : List Int) (hw : Keeps r0 w.1) : Keeps r0 (redResult d r w j ints).1 := by
  unfold redResult
  repeat' first
    | with_reducible assumption
    | with_reducible exact Keeps.refl _
    | intro _
    | with_reducible apply State.modDie_keeps
    | with_reducible apply State.sendDown_keeps
    | with_reducible apply State.addFlags_keeps
    | with_reducible apply redKeep_keeps

theorem redSum_keeps {r0 : State} (d : DieIx) (r : Running) (w : RW) (j : Nat) (hw : Keeps r0 w.1) : Keeps r0 (redSum d r w j).1 := by
  unfold redSum
  repeat' first
    | with_reducible assumption
    | with_reducible exact Keeps.refl _
    | intro _
    | with_reducible apply State.memRead_keeps
    | with_reducible apply State.sendParcels_keeps
    | with_reducible apply redNotice_keeps
    | with_reducible apply redFail_keeps
    | with_reducible apply redResult_keeps
    | with_reducible apply Keeps.ite
    | split
    | dsimp only

theorem redAdd_keeps {r0 : State} (d : DieIx) (r : Running) (w : RW) (j : Nat) (codes : List Int) (t : ChunkTail) (poison : Bool) (upset : Word) (hw : Keeps r0 w.1) : Keeps r0 (redAdd d r w j codes t poison upset).1 := by
  unfold redAdd
  repeat' first
    | with_reducible assumption
    | with_reducible exact Keeps.refl _
    | intro _
    | with_reducible apply State.memRead_keeps
    | with_reducible apply State.memWrite_keeps
    | with_reducible apply Keeps.ite

theorem redOwn_keeps {r0 : State} (d : DieIx) (r : Running) (w : RW) (j : Nat) (hw : Keeps r0 w.1) : Keeps r0 (redOwn d r w j).1.1 := by
  unfold redOwn
  repeat' first
    | with_reducible assumption
    | with_reducible exact Keeps.refl _
    | intro _
    | with_reducible apply State.seeSat_keeps
    | with_reducible apply State.quantiseChunk_keeps
    | with_reducible apply redSum_keeps
    | with_reducible apply redAdd_keeps
    | with_reducible apply Keeps.ite
    | split
    | dsimp only

theorem redPropose_keeps {r0 : State} (d : DieIx) (r : Running) (w : RW) (j : Nat) (idx : Nat) (e : Option Int) (hw : Keeps r0 w.1) : Keeps r0 (redPropose d r w j idx e).1.1 := by
  unfold redPropose
  repeat' first
    | with_reducible assumption
    | with_reducible exact Keeps.refl _
    | intro _
    | with_reducible apply State.setRedScale_keeps
    | with_reducible apply redOwn_keeps
    | with_reducible apply Keeps.ite
    | split
    | dsimp only

theorem State.sendOut_keeps {r0 : State} (s : State) (d : DieIx) (u : RedRun) (o : RedOut) (hs : Keeps r0 s) : Keeps r0 (State.sendOut s d u o) := by
  unfold State.sendOut
  repeat' first
    | with_reducible assumption
    | with_reducible exact Keeps.refl _
    | intro _
    | with_reducible apply State.sendParcels_keeps

theorem redEach_keeps {r0 : State} (f : RW → Nat → RW × RedOut) (js : List Nat) (w : RW) (hf : ∀ w i, Keeps r0 w.1 → Keeps r0 (f w i).1.1)
    (hw : Keeps r0 w.1) : Keeps r0 (redEach f js w).1.1 :=
  fold_inv (fun (a : RW × RedOut) => Keeps r0 a.1.1) _ js _ hw (fun a j ha => hf _ _ ha)

theorem redBegin_keeps {r0 : State} (d : DieIx) (r : Running) (w : RW) (j : Nat) (hw : Keeps r0 w.1) : Keeps r0 (redBegin d r w j).1.1 := by
  unfold redBegin
  repeat' first
    | with_reducible assumption
    | with_reducible exact Keeps.refl _
    | intro _
    | with_reducible apply State.srcChunk_keeps
    | with_reducible apply redOwn_keeps
    | with_reducible apply redPropose_keeps
    | with_reducible apply Keeps.ite
    | split

theorem State.saveRed_keeps {r0 : State} (s : State) (d : DieIx) (u : RedRun) (hs : Keeps r0 s) : Keeps r0 (State.saveRed s d u) := by
  unfold State.saveRed
  repeat' first
    | with_reducible assumption
    | with_reducible exact Keeps.refl _
    | intro _
    | with_reducible apply State.modDie_keeps

theorem State.bucketOver_keeps {r0 : State} (s : State) (d : DieIx) (k : Nat) (bucket : Nat) (sts : List Nat) (hs : Keeps r0 s) : Keeps r0 (State.bucketOver s d k bucket sts) := by
  unfold State.bucketOver
  repeat' first
    | with_reducible assumption
    | with_reducible exact Keeps.refl _
    | intro _
    | with_reducible apply State.modCommit_keeps

theorem State.redFinish_keeps {r0 : State} (s : State) (d : DieIx) (u : RedRun) (hs : Keeps r0 s) : Keeps r0 (State.redFinish s d u) := by
  unfold State.redFinish
  repeat' first
    | with_reducible assumption
    | with_reducible exact Keeps.refl _
    | intro _
    | with_reducible apply State.finish_keeps
    | with_reducible apply State.quarantine_keeps
    | with_reducible apply State.bucketOver_keeps
    | with_reducible apply Keeps.ite
    | split

theorem redSettle_keeps {r0 : State} (d : DieIx) (w : RW) (hw : Keeps r0 w.1) : Keeps r0 (redSettle d w) := by
  unfold redSettle
  repeat' first
    | with_reducible assumption
    | with_reducible exact Keeps.refl _
    | intro _
    | with_reducible apply State.saveRed_keeps
    | with_reducible apply State.redFinish_keeps
    | with_reducible apply Keeps.ite

theorem redInput_keeps {r0 : State} (d : DieIx) (r : Running) (m : Msg) (upset : Word) (w : RW) (j : Nat) (codes : List Int) (bytes : List Byte) (t : ChunkTail) (hw : Keeps r0 w.1) : Keeps r0 (redInput d r m upset w j codes bytes t).1.1 := by
  unfold redInput
  repeat' first
    | with_reducible assumption
    | with_reducible exact Keeps.refl _
    | intro _
    | with_reducible apply State.countAttempt_keeps
    | with_reducible apply redFail_keeps
    | with_reducible apply redSum_keeps
    | with_reducible apply redAdd_keeps
    | with_reducible apply Keeps.ite
    | split
    | dsimp only

theorem redContrib_keeps {r0 : State} (d : DieIx) (r : Running) (m : Msg) (upset : Word) (w : RW) (hw : Keeps r0 w.1) : Keeps r0 (redContrib d r m upset w).1.1 := by
  unfold redContrib
  repeat' first
    | with_reducible assumption
    | with_reducible exact Keeps.refl _
    | intro _
    | with_reducible apply redEach_keeps
    | with_reducible apply redInput_keeps
    | with_reducible apply Keeps.ite
    | split

theorem redPartial_keeps {r0 : State} (d : DieIx) (r : Running) (m : Msg) (upset : Word) (w : RW) (hw : Keeps r0 w.1) : Keeps r0 (redPartial d r m upset w).1.1 := by
  unfold redPartial
  repeat' first
    | with_reducible assumption
    | with_reducible exact Keeps.refl _
    | intro _
    | with_reducible apply State.seeSat_keeps
    | with_reducible apply redInput_keeps
    | with_reducible apply Keeps.ite
    | split
    | dsimp only

theorem redTake_keeps {r0 : State} (d : DieIx) (r : Running) (m : Msg) (w : RW) (j : Nat) (data : List Byte) (hw : Keeps r0 w.1) : Keeps r0 (redTake d r m w j data).1 := by
  unfold redTake
  repeat' first
    | with_reducible assumption
    | with_reducible exact Keeps.refl _
    | intro _
    | with_reducible apply State.addSat_keeps
    | with_reducible apply State.logCaused_keeps
    | with_reducible apply State.sendDown_keeps
    | with_reducible apply redKeep_keeps
    | with_reducible apply Keeps.ite
    | split
    | dsimp only

theorem redResults_keeps {r0 : State} (d : DieIx) (r : Running) (m : Msg) (w : RW) (hw : Keeps r0 w.1) : Keeps r0 (redResults d r m w).1.1 := by
  unfold redResults
  repeat' first
    | with_reducible assumption
    | with_reducible exact Keeps.refl _
    | intro _
    | with_reducible apply redEach_keeps
    | with_reducible apply redInput_keeps
    | with_reducible apply redTake_keeps
    | with_reducible apply Keeps.ite
    | split

theorem redProposal_keeps {r0 : State} (d : DieIx) (r : Running) (m : Msg) (w : RW) (hw : Keeps r0 w.1) : Keeps r0 (redProposal d r m w).1.1 := by
  unfold redProposal
  repeat' first
    | with_reducible assumption
    | with_reducible exact Keeps.refl _
    | intro _
    | with_reducible apply redPropose_keeps
    | with_reducible apply redEach_keeps
    | with_reducible apply Keeps.ite
    | split
    | dsimp only

theorem redSet_keeps {r0 : State} (d : DieIx) (r : Running) (m : Msg) (w : RW) (hw : Keeps r0 w.1) : Keeps r0 (redSet d r m w).1.1 := by
  unfold redSet
  repeat' first
    | with_reducible assumption
    | with_reducible exact Keeps.refl _
    | intro _
    | with_reducible apply State.setRedScale_keeps
    | with_reducible apply redOwn_keeps
    | with_reducible apply redEach_keeps
    | with_reducible apply Keeps.ite
    | split

theorem redFix_keeps {r0 : State} (d : DieIx) (r : Running) (m : Msg) (w : RW) (hw : Keeps r0 w.1) : Keeps r0 (redFix d r m w).1.1 := by
  unfold redFix
  repeat' first
    | with_reducible assumption
    | with_reducible exact Keeps.refl _
    | intro _
    | with_reducible apply State.setRedScale_keeps
    | with_reducible apply redEach_keeps
    | with_reducible apply Keeps.ite
    | split

theorem State.redHandle_keeps {r0 : State} (s : State) (d : DieIx) (m : Msg) (upset : Word) (hs : Keeps r0 s) :
    Keeps r0 (State.redHandle s d m upset) := by
  unfold State.redHandle
  split
  · exact hs
  rename_i p e
  dsimp only
  split
  · exact State.countLate_keeps _ _ hs
  have ht : Keeps r0 (if s.awaitsScale d p.2 p.1 m then (s.holdEarly d m).getD s else s) := Keeps.ite (State.holdEarly_getD hs hs) hs
  apply redSettle_keeps
  apply State.sendOut_keeps
  split
  · exact redContrib_keeps _ _ _ _ _ ht
  · exact redPartial_keeps _ _ _ _ _ ht
  · exact redResults_keeps _ _ _ _ ht
  · exact redProposal_keeps _ _ _ _ ht
  · exact redSet_keeps _ _ _ _ ht
  · exact redFix_keeps _ _ _ _ ht
  · exact ht

theorem State.redEarly_keeps {r0 : State} (s : State) (d : DieIx) (k : Nat) (bucket : Nat) (hs : Keeps r0 s) : Keeps r0 (State.redEarly s d k bucket) := by
  unfold State.redEarly
  repeat' first
    | with_reducible assumption
    | with_reducible exact Keeps.refl _
    | intro _
    | with_reducible apply State.modDie_keeps
    | with_reducible apply State.redHandle_keeps
    | with_reducible apply Keeps.fold

theorem State.colReceive_keeps {r0 : State} (s : State) (d : DieIx) (kind : Nat) (m : Msg) (runs : Bool) (holds : Bool) (k : State → State) (hs : Keeps r0 s) (hk : ∀ t, Keeps r0 t → Keeps r0 (k t)) : Keeps r0 (State.colReceive s d kind m runs holds k) := by
  unfold State.colReceive
  repeat' first
    | with_reducible assumption
    | with_reducible exact Keeps.refl _
    | intro _
    | with_reducible apply State.addSat_keeps
    | with_reducible apply State.wake_keeps
    | with_reducible apply State.takeMsg_keeps
    | with_reducible apply State.countLate_keeps
    | (with_reducible refine State.holdEarly_keeps (by assumption) ?_)
    | with_reducible apply State.holdEarly_getD
    | with_reducible apply hk
    | with_reducible apply Keeps.ite
    | split

theorem State.redMessage_keeps {r0 : State} (s : State) (d : DieIx) (kind : Nat) (m : Msg) (upset : Word) (hs : Keeps r0 s) : Keeps r0 (State.redMessage s d kind m upset) := by
  unfold State.redMessage
  repeat' first
    | with_reducible assumption
    | with_reducible exact Keeps.refl _
    | intro _
    | with_reducible apply State.redHandle_keeps
    | with_reducible apply State.redEarly_keeps
    | with_reducible apply State.colReceive_keeps
    | with_reducible apply Keeps.ite

theorem execContrib_keeps (d : DieIx) (m : Msg) (upset : Word) (s : State) : Lawful s (execContrib d m upset s) := by
  unfold execContrib
  repeat' first
    | with_reducible apply Lawful.onDie
    | with_reducible apply Lawful.next
    | with_reducible assumption
    | with_reducible exact Keeps.refl _
    | intro _
    | with_reducible apply State.redMessage_keeps

theorem execPartialMsg_keeps (d : DieIx) (m : Msg) (upset : Word) (s : State) : Lawful s (execPartialMsg d m upset s) := by
  unfold execPartialMsg
  repeat' first
    | with_reducible apply Lawful.onDie
    | with_reducible apply Lawful.next
    | with_reducible assumption
    | with_reducible exact Keeps.refl _
    | intro _
    | with_reducible apply State.redMessage_keeps

theorem execScalePropose_keeps (d : DieIx) (m : Msg) (s : State) : Lawful s (execScalePropose d m s) := by
  unfold execScalePropose
  repeat' first
    | with_reducible apply Lawful.onDie
    | with_reducible apply Lawful.next
    | with_reducible assumption
    | with_reducible exact Keeps.refl _
    | intro _
    | with_reducible apply State.redMessage_keeps

theorem execScaleSet_keeps (d : DieIx) (m : Msg) (s : State) : Lawful s (execScaleSet d m s) := by
  unfold execScaleSet
  repeat' first
    | with_reducible apply Lawful.onDie
    | with_reducible apply Lawful.next
    | with_reducible assumption
    | with_reducible exact Keeps.refl _
    | intro _
    | with_reducible apply State.redMessage_keeps

theorem execScaleFix_keeps (d : DieIx) (m : Msg) (s : State) : Lawful s (execScaleFix d m s) := by
  unfold execScaleFix
  repeat' first
    | with_reducible apply Lawful.onDie
    | with_reducible apply Lawful.next
    | with_reducible assumption
    | with_reducible exact Keeps.refl _
    | intro _
    | with_reducible apply State.redMessage_keeps

theorem State.colGo_keeps {r0 : State} (s : State) (d : DieIx) (q : QId) (r : Running) (c : Nat) (k : State → State) (hs : Keeps r0 s) (hk : ∀ t, Keeps r0 t → Keeps r0 (k t)) : Keeps r0 (State.colGo s d q r c k) := by
  unfold State.colGo
  repeat' first
    | with_reducible assumption
    | with_reducible exact Keeps.refl _
    | intro _
    | with_reducible apply State.stopEarly_keeps
    | with_reducible apply hk
    | with_reducible apply Keeps.ite

theorem State.colBegin_keeps {r0 : State} (s : State) (d : DieIx) (q : QId) (r : Running) (group : Nat) (ok : Bool) (noop : Bool)
    (k : Nat → Group → State → State) (hs : Keeps r0 s) (hk : ∀ a b t, Keeps r0 t → Keeps r0 (k a b t)) :
    Keeps r0 (State.colBegin s d q r group ok noop k) := by
  unfold State.colBegin
  refine Keeps.ite (State.stopEarly_keeps _ _ _ _ _ hs) (Keeps.ite (State.finish_keeps _ _ _ _ _ hs) ?_)
  split
  · exact State.stopEarly_keeps _ _ _ _ _ hs
  rename_i c _
  split
  · exact State.stopEarly_keeps _ _ _ _ _ hs
  · exact hs
  have hg := State.groupOf_keeps s d c group hs
  generalize s.groupOf d c group = p at hg
  rcases p with ⟨_ | g, t⟩
  · exact State.stopEarly_keeps _ _ _ _ _ hg
  · exact hk _ _ _ hg

theorem State.redTable_keeps {r0 : State} (s : State) (d : DieIx) (r : Running) (u : RedRun) (hs : Keeps r0 s) : Keeps r0 (State.redTable s d r u).1 := by
  unfold State.redTable
  repeat' first
    | with_reducible assumption
    | with_reducible exact Keeps.refl _
    | intro _
    | with_reducible apply State.readScale_keeps
    | with_reducible apply Keeps.fold
    | with_reducible apply Keeps.fold1

theorem State.redWork_keeps {r0 : State} (s : State) (d : DieIx) (r : Running) (k : Nat) (u : RedRun) (hs : Keeps r0 s) : Keeps r0 (State.redWork s d r k u) := by
  unfold State.redWork
  repeat' first
    | with_reducible assumption
    | with_reducible exact Keeps.refl _
    | intro _
    | with_reducible apply State.modDie_keeps
    | with_reducible apply State.addPeers_keeps
    | with_reducible apply State.sendOut_keeps
    | with_reducible apply redEach_keeps
    | with_reducible apply redBegin_keeps
    | with_reducible apply redSettle_keeps
    | with_reducible apply State.redEarly_keeps
    | with_reducible apply State.redTable_keeps

theorem State.redStart_keeps {r0 : State} (s : State) (d : DieIx) (r : Running) (hs : Keeps r0 s) : Keeps r0 (State.redStart s d r) := by
  unfold State.redStart
  repeat' first
    | with_reducible assumption
    | with_reducible exact Keeps.refl _
    | intro _
    | with_reducible apply State.modCommit_keeps
    | with_reducible apply State.countService_keeps
    | with_reducible apply State.stopEarly_keeps
    | with_reducible apply State.colGo_keeps
    | with_reducible apply State.colBegin_keeps
    | with_reducible apply State.redWork_keeps
    | with_reducible apply Keeps.ite

theorem execAllreduce_keeps (d : DieIx) (s : State) : Lawful s (execAllreduce d s) := by
  unfold execAllreduce
  repeat' first
    | with_reducible apply Lawful.onDie
    | with_reducible apply Lawful.next
    | with_reducible assumption
    | with_reducible exact Keeps.refl _
    | intro _
    | with_reducible apply withGrant_keeps
    | with_reducible apply State.redStart_keeps

theorem redCut_keeps {r0 : State} (d : DieIx) (w : RW) (j : Nat) (hw : Keeps r0 w.1) : Keeps r0 (redCut d w j).1 := by
  unfold redCut
  repeat' first
    | with_reducible assumption
    | with_reducible exact Keeps.refl _
    | intro _
    | with_reducible apply redNotice_keeps
    | with_reducible apply Keeps.ite
    | split
    | dsimp only

theorem execContributionDeadline_keeps (d : DieIx) (s : State) : Lawful s (execContributionDeadline d s) := by
  unfold execContributionDeadline
  repeat' first
    | with_reducible apply Lawful.onDie
    | with_reducible apply Lawful.next
    | with_reducible assumption
    | with_reducible exact Keeps.refl _
    | intro _
    | with_reducible apply redSettle_keeps
    | with_reducible apply redCut_keeps
    | with_reducible apply Keeps.fold
    | with_reducible apply Keeps.fold1

theorem State.colUnbegun_keeps {r0 : State} (s : State) (d : DieIx) (hs : Keeps r0 s) : Keeps r0 (State.colUnbegun s d) := by
  unfold State.colUnbegun
  repeat' first
    | with_reducible assumption
    | with_reducible exact Keeps.refl _
    | intro _
    | with_reducible apply State.finish_keeps
    | with_reducible apply State.bucketOver_keeps
    | with_reducible apply Keeps.fold
    | with_reducible apply Keeps.fold1
    | with_reducible apply Keeps.fold2
    | with_reducible apply Keeps.fold3
    | with_reducible apply Keeps.ite
    | split

theorem State.redDeadline_keeps {r0 : State} (s : State) (d : DieIx) (hs : Keeps r0 s) : Keeps r0 (State.redDeadline s d) := by
  unfold State.redDeadline
  repeat' first
    | with_reducible assumption
    | with_reducible exact Keeps.refl _
    | intro _
    | with_reducible apply State.redFinish_keeps
    | with_reducible apply State.colUnbegun_keeps
    | with_reducible apply Keeps.fold

theorem State.saveGather_keeps {r0 : State} (s : State) (d : DieIx) (u : GatherRun) (hs : Keeps r0 s) : Keeps r0 (State.saveGather s d u) := by
  unfold State.saveGather
  repeat' first
    | with_reducible assumption
    | with_reducible exact Keeps.refl _
    | intro _
    | with_reducible apply State.modDie_keeps

theorem State.sendShard_keeps {r0 : State} (s : State) (d : DieIx) (u : GatherRun) (kind : Nat) (shard : Nat) (off : Nat) (data : List Byte) (marks : DWord) (hs : Keeps r0 s) : Keeps r0 (State.sendShard s d u kind shard off data marks) := by
  unfold State.sendShard
  repeat' first
    | with_reducible assumption
    | with_reducible exact Keeps.refl _
    | intro _
    | with_reducible apply State.sendCol_keeps
    | with_reducible apply Keeps.fold

theorem State.gatherFinish_keeps {r0 : State} (s : State) (d : DieIx) (u : GatherRun) (hs : Keeps r0 s) : Keeps r0 (State.gatherFinish s d u) := by
  unfold State.gatherFinish
  repeat' first
    | with_reducible assumption
    | with_reducible exact Keeps.refl _
    | intro _
    | with_reducible apply State.finish_keeps
    | with_reducible apply State.quarantine_keeps
    | with_reducible apply State.bucketOver_keeps
    | with_reducible apply Keeps.ite
    | split

theorem State.gatherSettle_keeps {r0 : State} (s : State) (d : DieIx) (u : GatherRun) (hs : Keeps r0 s) : Keeps r0 (State.gatherSettle s d u) := by
  unfold State.gatherSettle
  repeat' first
    | with_reducible assumption
    | with_reducible exact Keeps.refl _
    | intro _
    | with_reducible apply State.saveGather_keeps
    | with_reducible apply State.gatherFinish_keeps
    | with_reducible apply Keeps.ite

theorem State.writeAt_keeps {r0 : State} (s : State) (d : DieIx) (job : BitVec 12) (place : Nat) (bs : List Byte) (ps : List Bool) (hs : Keeps r0 s) : Keeps r0 (State.writeAt s d job place bs ps) := by
  unfold State.writeAt
  repeat' first
    | with_reducible assumption
    | with_reducible exact Keeps.refl _
    | intro _
    | with_reducible apply State.memWrite_keeps

theorem State.gatherTake_keeps {r0 : State} (s : State) (d : DieIx) (u : GatherRun) (m : Msg) (hs : Keeps r0 s) : Keeps r0 (State.gatherTake s d u m) := by
  unfold State.gatherTake
  repeat' first
    | with_reducible assumption
    | with_reducible exact Keeps.refl _
    | intro _
    | with_reducible apply State.addSat_keeps
    | with_reducible apply State.logCaused_keeps
    | with_reducible apply State.countLate_keeps
    | with_reducible apply State.sendShard_keeps
    | with_reducible apply State.gatherSettle_keeps
    | with_reducible apply State.writeAt_keeps
    | with_reducible apply Keeps.ite

theorem State.gatherEarly_keeps {r0 : State} (s : State) (d : DieIx) (k : Nat) (bucket : Nat) (hs : Keeps r0 s) : Keeps r0 (State.gatherEarly s d k bucket) := by
  unfold State.gatherEarly
  repeat' first
    | with_reducible assumption
    | with_reducible exact Keeps.refl _
    | intro _
    | with_reducible apply State.modDie_keeps
    | with_reducible apply State.gatherTake_keeps
    | with_reducible apply Keeps.fold
    | with_reducible apply Keeps.fold1
    | with_reducible apply Keeps.fold2
    | with_reducible apply Keeps.fold3
    | with_reducible apply Keeps.ite
    | split
    | dsimp only

theorem execGather_keeps (d : DieIx) (m : Msg) (s : State) : Lawful s (execGather d m s) := by
  unfold execGather
  repeat' first
    | with_reducible apply Lawful.onDie
    | with_reducible apply Lawful.next
    | with_reducible assumption
    | with_reducible exact Keeps.refl _
    | intro _
    | with_reducible apply State.colReceive_keeps
    | with_reducible apply State.gatherTake_keeps
    | with_reducible apply Keeps.ite
    | split

theorem execResult_keeps (d : DieIx) (m : Msg) (s : State) : Lawful s (execResult d m s) := by
  unfold execResult
  repeat' first
    | with_reducible apply Lawful.onDie
    | with_reducible apply Lawful.next
    | with_reducible assumption
    | with_reducible exact Keeps.refl _
    | intro _
    | with_reducible apply State.colReceive_keeps
    | with_reducible apply State.redMessage_keeps
    | with_reducible apply State.gatherTake_keeps
    | with_reducible apply Keeps.ite
    | split

theorem State.readAt_keeps {r0 : State} (s : State) (d : DieIx) (job : BitVec 12) (place : Nat) (n : Nat) (hs : Keeps r0 s) : Keeps r0 (State.readAt s d job place n).state := by
  unfold State.readAt
  repeat' first
    | with_reducible assumption
    | with_reducible exact Keeps.refl _
    | intro _
    | with_reducible apply State.memRead_keeps

theorem State.sendOwn_keeps {r0 : State} (s : State) (d : DieIx) (u : GatherRun) (bs : List Byte) (ps : List Bool) (hs : Keeps r0 s) : Keeps r0 (State.sendOwn s d u bs ps) := by
  unfold State.sendOwn
  repeat' first
    | with_reducible assumption
    | with_reducible exact Keeps.refl _
    | intro _
    | with_reducible apply State.sendShard_keeps
    | with_reducible apply Keeps.fold

theorem State.gatherWork_keeps {r0 : State} (s : State) (d : DieIx) (r : Running) (sends : Bool) (k : Nat) (u : GatherRun) (hs : Keeps r0 s) : Keeps r0 (State.gatherWork s d r sends k u) := by
  unfold State.gatherWork
  repeat' first
    | with_reducible assumption
    | with_reducible exact Keeps.refl _
    | intro _
    | with_reducible apply State.modDie_keeps
    | with_reducible apply State.addPeers_keeps
    | with_reducible apply State.gatherSettle_keeps
    | with_reducible apply State.writeAt_keeps
    | with_reducible apply State.gatherEarly_keeps
    | with_reducible apply State.readAt_keeps
    | with_reducible apply State.sendOwn_keeps
    | with_reducible apply Keeps.ite

theorem State.gatherStart_keeps {r0 : State} (s : State) (d : DieIx) (bcast : Bool) (r : Running) (hs : Keeps r0 s) : Keeps r0 (State.gatherStart s d bcast r) := by
  unfold State.gatherStart
  repeat' first
    | with_reducible assumption
    | with_reducible exact Keeps.refl _
    | intro _
    | with_reducible apply State.countService_keeps
    | with_reducible apply State.stopEarly_keeps
    | with_reducible apply State.colGo_keeps
    | with_reducible apply State.colBegin_keeps
    | with_reducible apply State.gatherWork_keeps
    | with_reducible apply Keeps.ite

theorem execAllgather_keeps (d : DieIx) (s : State) : Lawful s (execAllgather d s) := by
  unfold execAllgather
  repeat' first
    | with_reducible apply Lawful.onDie
    | with_reducible apply Lawful.next
    | with_reducible assumption
    | with_reducible exact Keeps.refl _
    | intro _
    | with_reducible apply withGrant_keeps
    | with_reducible apply State.gatherStart_keeps

theorem execBroadcast_keeps (d : DieIx) (s : State) : Lawful s (execBroadcast d s) := by
  unfold execBroadcast
  repeat' first
    | with_reducible apply Lawful.onDie
    | with_reducible apply Lawful.next
    | with_reducible assumption
    | with_reducible exact Keeps.refl _
    | intro _
    | with_reducible apply withGrant_keeps
    | with_reducible apply State.gatherStart_keeps

theorem State.gatherDeadline_keeps {r0 : State} (s : State) (d : DieIx) (hs : Keeps r0 s) : Keeps r0 (State.gatherDeadline s d) := by
  unfold State.gatherDeadline
  repeat' first
    | with_reducible assumption
    | with_reducible exact Keeps.refl _
    | intro _
    | with_reducible apply State.gatherFinish_keeps
    | with_reducible apply Keeps.fold

theorem State.saveTx_keeps {r0 : State} (s : State) (d : DieIx) (u : TxRun) (hs : Keeps r0 s) : Keeps r0 (State.saveTx s d u) := by
  unfold State.saveTx
  repeat' first
    | with_reducible assumption
    | with_reducible exact Keeps.refl _
    | intro _
    | with_reducible apply State.modDie_keeps

theorem State.sendTx_keeps {r0 : State} (s : State) (d : DieIx) (u : TxRun) (kind : Nat) (dst : Nat) (loc : Nat) (count : Nat) (off : Nat) (data : List Byte) (marks : DWord) (hs : Keeps r0 s) : Keeps r0 (State.sendTx s d u kind dst loc count off data marks) := by
  unfold State.sendTx
  repeat' first
    | with_reducible assumption
    | with_reducible exact Keeps.refl _
    | intro _
    | with_reducible apply State.sendCol_keeps

theorem State.sendList_keeps {r0 : State} (s : State) (d : DieIx) (u : TxRun) (kind : Nat) (dst : Nat) (n : Nat) (data : List Byte) (hs : Keeps r0 s) : Keeps r0 (State.sendList s d u kind dst n data) := by
  unfold State.sendList
  repeat' first
    | with_reducible assumption
    | with_reducible exact Keeps.refl _
    | intro _
    | with_reducible apply State.sendTx_keeps
    | with_reducible apply Keeps.fold

theorem State.sendRange_keeps {r0 : State} (s : State) (d : DieIx) (u : TxRun) (kind : Nat) (dst : Nat) (loc : Nat) (bs : List Byte) (ps : List Bool) (hs : Keeps r0 s) : Keeps r0 (State.sendRange s d u kind dst loc bs ps) := by
  unfold State.sendRange
  repeat' first
    | with_reducible assumption
    | with_reducible exact Keeps.refl _
    | intro _
    | with_reducible apply State.sendTx_keeps
    | with_reducible apply Keeps.fold

theorem State.takeRows_keeps {r0 : State} (s : State) (d : DieIx) (u : TxRun) (l : Nat) (i : Nat) (off : Nat) (bs : List Byte) (ps : List Bool) (hs : Keeps r0 s) : Keeps r0 (State.takeRows s d u l i off bs ps).1 := by
  unfold State.takeRows
  repeat' first
    | with_reducible assumption
    | with_reducible exact Keeps.refl _
    | intro _
    | with_reducible apply DrainAcc.row_keeps
    | with_reducible apply State.writeAt_keeps

theorem State.takeReturn_keeps {r0 : State} (s : State) (d : DieIx) (u : TxRun) (l : Nat) (o : Nat) (off : Nat) (bs : List Byte) (ps : List Bool) (hs : Keeps r0 s) : Keeps r0 (State.takeReturn s d u l o off bs ps).1 := by
  unfold State.takeReturn
  repeat' first
    | with_reducible assumption
    | with_reducible exact Keeps.refl _
    | intro _
    | with_reducible apply State.record_keeps
    | with_reducible apply DrainAcc.row_keeps
    | with_reducible apply State.writeAt_keeps
    | with_reducible apply Keeps.fold

theorem State.slotRows_keeps {r0 : State} (s : State) (d : DieIx) (u : TxRun) (l : List Nat) (hs : Keeps r0 s) : Keeps r0 (State.slotRows s d u l).2 := by
  unfold State.slotRows
  repeat' first
    | with_reducible assumption
    | with_reducible exact Keeps.refl _
    | intro _
    | with_reducible apply State.record_keeps
    | with_reducible apply DrainAcc.row_keeps
    | with_reducible apply State.readAt_keeps
    | with_reducible apply Keeps.fold
    | with_reducible apply Keeps.fold1
    | with_reducible apply Keeps.fold2

theorem State.sendRows_keeps {r0 : State} (s : State) (d : DieIx) (u : TxRun) (o : Nat) (l : Nat) (hs : Keeps r0 s) : Keeps r0 (State.sendRows s d u o l).1 := by
  unfold State.sendRows
  repeat' first
    | with_reducible assumption
    | with_reducible exact Keeps.refl _
    | intro _
    | with_reducible apply State.sendRange_keeps
    | with_reducible apply State.takeRows_keeps
    | with_reducible apply State.slotRows_keeps
    | with_reducible apply Keeps.ite
    | split
    | dsimp only

theorem State.useGrants_keeps {r0 : State} (s : State) (d : DieIx) (u : TxRun) (o : Nat) (hs : Keeps r0 s) : Keeps r0 (State.useGrants s d u o).1 := by
  unfold State.useGrants
  repeat' first
    | with_reducible assumption
    | with_reducible exact Keeps.refl _
    | intro _
    | with_reducible apply State.addSat_keeps
    | with_reducible apply State.sendRows_keeps
    | with_reducible apply Keeps.fold
    | with_reducible apply Keeps.fold1
    | with_reducible apply Keeps.fold2
    | with_reducible apply Keeps.fold3
    | with_reducible apply Keeps.ite
    | split

theorem State.grantAll_keeps {r0 : State} (s : State) (d : DieIx) (u : TxRun) (hs : Keeps r0 s) : Keeps r0 (State.grantAll s d u).1 := by
  unfold State.grantAll
  repeat' first
    | with_reducible assumption
    | with_reducible exact Keeps.refl _
    | intro _
    | with_reducible apply State.record_keeps
    | with_reducible apply State.sendList_keeps
    | with_reducible apply State.useGrants_keeps
    | with_reducible apply Keeps.fold
    | with_reducible apply Keeps.fold1
    | with_reducible apply Keeps.fold2
    | with_reducible apply Keeps.fold3
    | with_reducible apply Keeps.ite
    | split
    | dsimp only

theorem State.planWrite_keeps {r0 : State} (s : State) (d : DieIx) (x : Desc) (u : TxRun) (hs : Keeps r0 s) : Keeps r0 (State.planWrite s d x u).1 := by
  unfold State.planWrite
  repeat' first
    | with_reducible assumption
    | with_reducible exact Keeps.refl _
    | intro _
    | with_reducible apply State.record_keeps
    | with_reducible apply State.writeAt_keeps
    | with_reducible apply Keeps.ite
    | split

theorem State.txFinish_keeps {r0 : State} (s : State) (d : DieIx) (u : TxRun) (hs : Keeps r0 s) : Keeps r0 (State.txFinish s d u) := by
  unfold State.txFinish
  repeat' first
    | with_reducible assumption
    | with_reducible exact Keeps.refl _
    | intro _
    | with_reducible apply State.addSat_keeps
    | with_reducible apply State.finish_keeps
    | with_reducible apply Keeps.ite
    | split

theorem State.txSettle_keeps {r0 : State} (s : State) (d : DieIx) (u : TxRun) (hs : Keeps r0 s) : Keeps r0 (State.txSettle s d u) := by
  unfold State.txSettle
  repeat' first
    | with_reducible assumption
    | with_reducible exact Keeps.refl _
    | intro _
    | with_reducible apply State.saveTx_keeps
    | with_reducible apply State.planWrite_keeps
    | with_reducible apply State.txFinish_keeps
    | with_reducible apply Keeps.ite
    | split

theorem State.txCounts_keeps {r0 : State} (s : State) (d : DieIx) (u : TxRun) (m : Msg) (hs : Keeps r0 s) : Keeps r0 (State.txCounts s d u m).1 := by
  unfold State.txCounts
  repeat' first
    | with_reducible assumption
    | with_reducible exact Keeps.refl _
    | intro _
    | with_reducible apply State.grantAll_keeps
    | with_reducible apply Keeps.ite
    | split
    | dsimp only

theorem State.txGrant_keeps {r0 : State} (s : State) (d : DieIx) (u : TxRun) (m : Msg) (hs : Keeps r0 s) : Keeps r0 (State.txGrant s d u m).1 := by
  unfold State.txGrant
  repeat' first
    | with_reducible assumption
    | with_reducible exact Keeps.refl _
    | intro _
    | with_reducible apply State.useGrants_keeps
    | with_reducible apply Keeps.ite
    | split
    | dsimp only

theorem State.txData_keeps {r0 : State} (s : State) (d : DieIx) (u : TxRun) (m : Msg) (hs : Keeps r0 s) : Keeps r0 (State.txData s d u m).1 := by
  unfold State.txData
  repeat' first
    | with_reducible assumption
    | with_reducible exact Keeps.refl _
    | intro _
    | with_reducible apply State.addSat_keeps
    | with_reducible apply State.takeRows_keeps
    | with_reducible apply State.takeReturn_keeps
    | with_reducible apply Keeps.ite
    | split
    | dsimp only

theorem State.txHandle_keeps {r0 : State} (s : State) (d : DieIx) (m : Msg) (hs : Keeps r0 s) : Keeps r0 (State.txHandle s d m) := by
  unfold State.txHandle
  repeat' first
    | with_reducible assumption
    | with_reducible exact Keeps.refl _
    | intro _
    | with_reducible apply State.countLate_keeps
    | (with_reducible refine State.holdEarly_keeps (by assumption) ?_)
    | with_reducible apply State.txSettle_keeps
    | with_reducible apply State.txCounts_keeps
    | with_reducible apply State.txGrant_keeps
    | with_reducible apply State.txData_keeps
    | with_reducible apply State.holdEarly_getD
    | with_reducible apply Keeps.ite
    | split

theorem State.txReceive_keeps {r0 : State} (s : State) (d : DieIx) (kind : Nat) (m : Msg) (hs : Keeps r0 s) : Keeps r0 (State.txReceive s d kind m) := by
  unfold State.txReceive
  repeat' first
    | with_reducible assumption
    | with_reducible exact Keeps.refl _
    | intro _
    | with_reducible apply State.addSat_keeps
    | with_reducible apply State.wake_keeps
    | with_reducible apply State.takeMsg_keeps
    | (with_reducible refine State.holdEarly_keeps (by assumption) ?_)
    | with_reducible apply State.txHandle_keeps
    | with_reducible apply State.holdEarly_getD
    | with_reducible apply Keeps.ite
    | split

theorem State.txEarly_keeps {r0 : State} (s : State) (d : DieIx) (k : Nat) (group : Nat) (combine : Bool) (hs : Keeps r0 s) : Keeps r0 (State.txEarly s d k group combine) := by
  unfold State.txEarly
  repeat' first
    | with_reducible assumption
    | with_reducible exact Keeps.refl _
    | intro _
    | with_reducible apply State.modDie_keeps
    | with_reducible apply State.txHandle_keeps
    | with_reducible apply Keeps.fold

theorem execTxCounts_keeps (d : DieIx) (m : Msg) (s : State) : Lawful s (execTxCounts d m s) := by
  unfold execTxCounts
  repeat' first
    | with_reducible apply Lawful.onDie
    | with_reducible apply Lawful.next
    | with_reducible assumption
    | with_reducible exact Keeps.refl _
    | intro _
    | with_reducible apply State.txReceive_keeps

theorem execTxGrant_keeps (d : DieIx) (m : Msg) (s : State) : Lawful s (execTxGrant d m s) := by
  unfold execTxGrant
  repeat' first
    | with_reducible apply Lawful.onDie
    | with_reducible apply Lawful.next
    | with_reducible assumption
    | with_reducible exact Keeps.refl _
    | intro _
    | with_reducible apply State.txReceive_keeps

theorem execTxRows_keeps (d : DieIx) (m : Msg) (s : State) : Lawful s (execTxRows d m s) := by
  unfold execTxRows
  repeat' first
    | with_reducible apply Lawful.onDie
    | with_reducible apply Lawful.next
    | with_reducible assumption
    | with_reducible exact Keeps.refl _
    | intro _
    | with_reducible apply State.txReceive_keeps

theorem execTxReturn_keeps (d : DieIx) (m : Msg) (s : State) : Lawful s (execTxReturn d m s) := by
  unfold execTxReturn
  repeat' first
    | with_reducible apply Lawful.onDie
    | with_reducible apply Lawful.next
    | with_reducible assumption
    | with_reducible exact Keeps.refl _
    | intro _
    | with_reducible apply State.txReceive_keeps

theorem State.dispatchBegin_keeps {r0 : State} (s : State) (d : DieIx) (u : TxRun) (hs : Keeps r0 s) : Keeps r0 (State.dispatchBegin s d u).1 := by
  unfold State.dispatchBegin
  repeat' first
    | with_reducible assumption
    | with_reducible exact Keeps.refl _
    | intro _
    | with_reducible apply State.sendList_keeps
    | with_reducible apply State.sendRows_keeps
    | with_reducible apply State.grantAll_keeps
    | with_reducible apply Keeps.fold
    | with_reducible apply Keeps.fold1
    | with_reducible apply Keeps.fold2
    | with_reducible apply Keeps.fold3
    | with_reducible apply Keeps.ite
    | split

theorem State.combineBegin_keeps {r0 : State} (s : State) (d : DieIx) (u : TxRun) (hs : Keeps r0 s) : Keeps r0 (State.combineBegin s d u).1 := by
  unfold State.combineBegin
  repeat' first
    | with_reducible assumption
    | with_reducible exact Keeps.refl _
    | intro _
    | with_reducible apply State.record_keeps
    | with_reducible apply DrainAcc.row_keeps
    | with_reducible apply State.writeAt_keeps
    | with_reducible apply State.readAt_keeps
    | with_reducible apply State.sendRange_keeps
    | with_reducible apply State.takeReturn_keeps
    | with_reducible apply Keeps.fold
    | with_reducible apply Keeps.fold1
    | with_reducible apply Keeps.fold2
    | with_reducible apply Keeps.fold3
    | with_reducible apply Keeps.ite
    | split

theorem State.txWork_keeps {r0 : State} (s : State) (d : DieIx) (k : Nat) (v : TxRun) (hs : Keeps r0 s) : Keeps r0 (State.txWork s d k v) := by
  unfold State.txWork
  repeat' first
    | with_reducible assumption
    | with_reducible exact Keeps.refl _
    | intro _
    | with_reducible apply State.modDie_keeps
    | with_reducible apply State.addPeers_keeps
    | with_reducible apply State.txSettle_keeps
    | with_reducible apply State.txEarly_keeps
    | with_reducible apply State.dispatchBegin_keeps
    | with_reducible apply State.combineBegin_keeps
    | with_reducible apply Keeps.ite
    | split

theorem State.txBegin_keeps {r0 : State} (s : State) (d : DieIx) (x : Desc) (k : Nat) (u : TxRun) (stop : State → State) (hs : Keeps r0 s) (hstop : ∀ t, Keeps r0 t → Keeps r0 (stop t)) : Keeps r0 (State.txBegin s d x k u stop) := by
  unfold State.txBegin
  repeat' first
    | with_reducible assumption
    | with_reducible exact Keeps.refl _
    | intro _
    | with_reducible apply State.record_keeps
    | with_reducible apply State.readAt_keeps
    | with_reducible apply State.txWork_keeps
    | with_reducible apply hstop
    | with_reducible apply Keeps.ite
    | split
    | dsimp only

theorem State.txStart_keeps {r0 : State} (s : State) (d : DieIx) (combine : Bool) (r : Running) (hs : Keeps r0 s) : Keeps r0 (State.txStart s d combine r) := by
  unfold State.txStart
  repeat' first
    | with_reducible assumption
    | with_reducible exact Keeps.refl _
    | intro _
    | with_reducible apply State.countService_keeps
    | with_reducible apply State.stopEarly_keeps
    | with_reducible apply State.colGo_keeps
    | with_reducible apply State.colBegin_keeps
    | with_reducible apply State.readAt_keeps
    | with_reducible apply State.txBegin_keeps
    | with_reducible apply Keeps.ite
    | split

theorem execDispatch_keeps (d : DieIx) (s : State) : Lawful s (execDispatch d s) := by
  unfold execDispatch
  repeat' first
    | with_reducible apply Lawful.onDie
    | with_reducible apply Lawful.next
    | with_reducible assumption
    | with_reducible exact Keeps.refl _
    | intro _
    | with_reducible apply withGrant_keeps
    | with_reducible apply State.txStart_keeps

theorem execCombine_keeps (d : DieIx) (s : State) : Lawful s (execCombine d s) := by
  unfold execCombine
  repeat' first
    | with_reducible apply Lawful.onDie
    | with_reducible apply Lawful.next
    | with_reducible assumption
    | with_reducible exact Keeps.refl _
    | intro _
    | with_reducible apply withGrant_keeps
    | with_reducible apply State.txStart_keeps

theorem State.txUnbegun_keeps {r0 : State} (s : State) (d : DieIx) (hs : Keeps r0 s) : Keeps r0 (State.txUnbegun s d) := by
  unfold State.txUnbegun
  repeat' first
    | with_reducible assumption
    | with_reducible exact Keeps.refl _
    | intro _
    | with_reducible apply State.addSat_keeps
    | with_reducible apply State.finish_keeps
    | with_reducible apply Keeps.fold

theorem execResultDeadline_keeps (d : DieIx) (s : State) : Lawful s (execResultDeadline d s) := by
  unfold execResultDeadline
  repeat' first
    | with_reducible apply Lawful.onDie
    | with_reducible apply Lawful.next
    | with_reducible assumption
    | with_reducible exact Keeps.refl _
    | intro _
    | with_reducible apply State.redDeadline_keeps
    | with_reducible apply State.gatherDeadline_keeps
    | with_reducible apply State.txFinish_keeps
    | with_reducible apply State.txUnbegun_keeps
    | with_reducible apply Keeps.fold

end Sys2Proof.Machine
end

