-- ==== Sys2Proof/Laws/KeepsModule.lean ====
section
/-! SUPPORT. That every operation keeps what Keeps states: the health controller, links, strokes, boot, power, the host and jobs. -/

namespace Sys2Proof.Machine

theorem State.readSnap_keeps {r0 : State} (s : State) (d : DieIx) (p : Snap) (hs : Keeps r0 s) : Keeps r0 (State.readSnap s d p).2 := by
  unfold State.readSnap
  repeat' first
    | with_reducible assumption
    | with_reducible exact Keeps.refl _
    | intro _
    | with_reducible apply State.memRead_keeps

theorem State.setDigests_keeps {r0 : State} (s : State) (d : DieIx) (slot : Nat) (l : List Word) (hs : Keeps r0 s) : Keeps r0 (State.setDigests s d slot l) := by
  unfold State.setDigests
  repeat' first
    | with_reducible assumption
    | with_reducible exact Keeps.refl _
    | intro _
    | with_reducible apply State.modDie_keeps

theorem State.judgeReplay_keeps {r0 : State} (s : State) (d : DieIx) (p : Snap) (k : CheckRun) (own : ReplayOut)
    (nb : Option (Nat × ReplayOut)) (hs : Keeps r0 s) : Keeps r0 (State.judgeReplay s d p k own nb) := by
  unfold State.judgeReplay
  extract_lets v src entry w s1 s2
  have h0 : Keeps r0 s.drawFree := State.drawFree_keeps _ hs
  have h2 : Keeps r0 s2 := State.setDigests_keeps _ _ _ _ (State.classify_keeps _ _ _ _ (Keeps.ite (State.addLibrary_keeps _ _ _ h0) h0))
  split
  · exact State.resetToFence_keeps _ _ _ h2
  split
  · exact State.testArrays_keeps _ _ _ h2
  · exact h2

theorem State.replayBoth_keeps {r0 : State} (s : State) (d : DieIx) (p : Snap) (nb : Option Nat) (own next : List Upset) (hs : Keeps r0 s) :
    Keeps r0 (State.replayBoth s d p nb own next) := by
  unfold State.replayBoth
  extract_lets a
  have ha : Keeps r0 a.2 := State.readSnap_keeps _ _ _ hs
  split
  · exact State.judgeReplay_keeps _ _ _ _ _ _ ha
  · exact State.judgeReplay_keeps _ _ _ _ _ _ (State.readSnap_keeps _ _ _ ha)

theorem execReplay_keeps (d : DieIx) (i : Nat) (own : List Upset) (nb : List Upset) (s : State) : Lawful s (execReplay d i own nb s) := by
  unfold execReplay
  repeat' first
    | with_reducible apply Lawful.onDie
    | with_reducible apply Lawful.next
    | with_reducible assumption
    | with_reducible exact Keeps.refl _
    | intro _
    | with_reducible apply State.classify_keeps
    | with_reducible apply State.replayBoth_keeps
    | with_reducible apply Keeps.ite
    | split

theorem execReplayClaim_keeps (d : DieIx) (s : State) : Lawful s (execReplayClaim d s) := by
  unfold execReplayClaim
  repeat' first
    | with_reducible apply Lawful.onDie
    | with_reducible apply Lawful.next
    | with_reducible assumption
    | with_reducible exact Keeps.refl _
    | intro _
    | with_reducible apply State.modDie_keeps

theorem State.claimReplays_keeps {r0 : State} (s : State) (d : DieIx) (hs : Keeps r0 s) : Keeps r0 (State.claimReplays s d) := by
  unfold State.claimReplays
  repeat' first
    | with_reducible assumption
    | with_reducible exact Keeps.refl _
    | intro _
    | with_reducible apply State.modDie_keeps
    | with_reducible apply State.setLends_keeps

theorem State.assayBoundary_keeps {r0 : State} (s : State) (d : DieIx) (b : BoundaryIn) (hs : Keeps r0 s) : Keeps r0 (State.assayBoundary s d b) := by
  unfold State.assayBoundary
  repeat' first
    | with_reducible assumption
    | with_reducible exact Keeps.refl _
    | intro _
    | with_reducible apply State.modDie_keeps
    | with_reducible apply State.addSat_keeps
    | with_reducible apply State.setLends_keeps
    | with_reducible apply State.claimReplays_keeps

theorem State.dieFault_keeps {r0 : State} (s : State) (d : DieIx) (hs : Keeps r0 s) : Keeps r0 (State.dieFault s d) := by
  unfold State.dieFault
  repeat' first
    | with_reducible assumption
    | with_reducible exact Keeps.refl _
    | intro _
    | with_reducible apply State.modDie_keeps
    | with_reducible apply State.startReset_keeps
    | with_reducible apply State.completeReset_keeps

theorem State.coverUnit_keeps {r0 : State} (s : State) (d : DieIx) (u : AssayUnit) (hs : Keeps r0 s) : Keeps r0 (State.coverUnit s d u) := by
  unfold State.coverUnit
  repeat' first
    | with_reducible assumption
    | with_reducible exact Keeps.refl _
    | intro _
    | with_reducible apply State.modDie_keeps
    | with_reducible apply State.setRf_keeps
    | with_reducible apply State.addSat_keeps
    | with_reducible apply Keeps.ite

theorem State.fenceUnit_keeps {r0 : State} (s : State) (d : DieIx) (u : AssayUnit) (hs : Keeps r0 s) : Keeps r0 (State.fenceUnit s d u) := by
  unfold State.fenceUnit
  repeat' first
    | with_reducible assumption
    | with_reducible exact Keeps.refl _
    | intro _
    | with_reducible apply State.resetToFence_keeps
    | with_reducible apply State.setTblState_keeps
    | with_reducible apply DrainAcc.row_keeps
    | with_reducible apply State.dieFault_keeps
    | with_reducible apply Keeps.ite
    | split

theorem State.unitFailed_keeps {r0 : State} (s : State) (d : DieIx) (u : AssayUnit) (again : Bool) (o : TestData) (hs : Keeps r0 s) : Keeps r0 (State.unitFailed s d u again o) := by
  unfold State.unitFailed
  repeat' first
    | with_reducible assumption
    | with_reducible exact Keeps.refl _
    | intro _
    | with_reducible apply State.modDie_keeps
    | with_reducible apply State.addSat_keeps
    | with_reducible apply State.drawFree_keeps
    | with_reducible apply State.logEvent_keeps
    | with_reducible apply State.unitEvent_keeps
    | with_reducible apply State.addLibrary_keeps
    | with_reducible apply State.fenceUnit_keeps
    | with_reducible apply Keeps.ite
    | split

theorem State.flipStep_keeps {r0 : State} (s : State) (d : DieIx) (w : TestWord) (bs : List Byte) (poison : Bool) (data : DWord) (chk : Word) (hs : Keeps r0 s) : Keeps r0 (State.flipStep s d w bs poison data chk) := by
  unfold State.flipStep
  repeat' first
    | with_reducible assumption
    | with_reducible exact Keeps.refl _
    | intro _
    | with_reducible apply State.modDie_keeps
    | with_reducible apply State.setReg_keeps
    | with_reducible apply State.setReg64_keeps
    | with_reducible apply State.memRead_keeps
    | with_reducible apply State.memWrite_keeps
    | with_reducible apply State.writeBackWord_keeps
    | with_reducible apply State.flipArm_keeps
    | with_reducible apply Keeps.ite

theorem State.checkerTest_keeps {r0 : State} (s : State) (d : DieIx) (u : AssayUnit) (hs : Keeps r0 s) : Keeps r0 (State.checkerTest s d u) := by
  unfold State.checkerTest
  repeat' first
    | with_reducible assumption
    | with_reducible exact Keeps.refl _
    | intro _
    | with_reducible apply State.setRf_keeps
    | with_reducible apply State.setReg64_keeps
    | with_reducible apply State.drawFree_keeps
    | with_reducible apply State.memRead_keeps
    | with_reducible apply State.memWrite_keeps
    | with_reducible apply State.flipStep_keeps
    | with_reducible apply Keeps.ite
    | split

theorem execAssayUnit_keeps (d : DieIx) (u : AssayUnit) (fail : Bool) (again : Bool) (o : UnitRun) (s : State) : Lawful s (execAssayUnit d u fail again o s) := by
  unfold execAssayUnit
  repeat' first
    | with_reducible apply Lawful.onDie
    | with_reducible apply Lawful.next
    | with_reducible assumption
    | with_reducible exact Keeps.refl _
    | intro _
    | with_reducible apply State.coverUnit_keeps
    | with_reducible apply State.unitFailed_keeps
    | with_reducible apply State.checkerTest_keeps
    | with_reducible apply Keeps.ite

theorem execStarved_keeps (d : DieIx) (s : State) : Lawful s (execStarved d s) := by
  unfold execStarved
  repeat' first
    | with_reducible apply Lawful.onDie
    | with_reducible apply Lawful.next
    | with_reducible assumption
    | with_reducible exact Keeps.refl _
    | intro _
    | with_reducible apply State.modDie_keeps
    | with_reducible apply State.modReg_keeps
    | with_reducible apply State.unitEvent_keeps
    | with_reducible apply Keeps.ite

theorem State.touchTest_keeps {r0 : State} (s : State) (d : DieIx) (c : Nat) (nb : Option Nat) (t : TouchTest) (f : Option TestFail) (hs : Keeps r0 s) : Keeps r0 (State.touchTest s d c nb t f).2 := by
  unfold State.touchTest
  repeat' first
    | with_reducible assumption
    | with_reducible exact Keeps.refl _
    | intro _
    | with_reducible apply State.drawFree_keeps
    | with_reducible apply State.readSnap_keeps
    | with_reducible apply Keeps.ite
    | split

theorem State.touchFail_keeps {r0 : State} (s : State) (d : DieIx) (c : Nat) (nb : Option Nat) (t : TouchTest) (v : TestVerdict) (hs : Keeps r0 s) : Keeps r0 (State.touchFail s d c nb t v) := by
  unfold State.touchFail
  repeat' first
    | with_reducible assumption
    | with_reducible exact Keeps.refl _
    | intro _
    | with_reducible apply State.addSat_keeps
    | with_reducible apply State.resetToFence_keeps
    | with_reducible apply State.classify_keeps
    | with_reducible apply State.testArrays_keeps
    | with_reducible apply State.addLibrary_keeps
    | with_reducible apply Keeps.ite
    | split

theorem State.touchCore_keeps {r0 : State} (s : State) (d : DieIx) (x : Desc) (t : Touch) (c : Nat) (fails : List TestFail) (hs : Keeps r0 s) :
    Keeps r0 (State.touchCore s d x t c fails).1 := by
  unfold State.touchCore
  refine fold_inv (fun (a : CoreRun) => Keeps r0 a.s) _ _ _ hs (fun a p ha => ?_)
  have h := State.touchTest_keeps a.s d c (((List.range 47).map (fun i => (c + 1 + i) % 48)).find? (fun k => decide (hCores x / 2 ^ k % 2 = 1)))
    p.1 (fails.find? (fun f => f.test == p.2)) ha
  dsimp only
  split
  · exact h
  · exact State.touchFail_keeps _ _ _ _ _ _ h

theorem State.touchEnd_keeps {r0 : State} (s : State) (d : DieIx) (r : Running) (t : Touch) (hs : Keeps r0 s) : Keeps r0 (State.touchEnd s d r t) := by
  unfold State.touchEnd
  repeat' first
    | with_reducible assumption
    | with_reducible exact Keeps.refl _
    | intro _
    | with_reducible apply State.finish_keeps
    | with_reducible apply State.writeAt_keeps

theorem State.setTouch_keeps {r0 : State} (s : State) (d : DieIx) (t : Option Touch) (hs : Keeps r0 s) : Keeps r0 (State.setTouch s d t) := by
  unfold State.setTouch
  repeat' first
    | with_reducible assumption
    | with_reducible exact Keeps.refl _
    | intro _
    | with_reducible apply State.modDie_keeps

theorem State.touchStart_keeps {r0 : State} (s : State) (d : DieIx) (r : Running) (hs : Keeps r0 s) : Keeps r0 (State.touchStart s d r) := by
  unfold State.touchStart
  repeat' first
    | with_reducible assumption
    | with_reducible exact Keeps.refl _
    | intro _
    | with_reducible apply State.setLends_keeps
    | with_reducible apply State.finish_keeps
    | with_reducible apply State.countService_keeps
    | with_reducible apply State.stopEarly_keeps
    | with_reducible apply State.setTouch_keeps
    | with_reducible apply Keeps.ite

theorem execTouchstone_keeps (d : DieIx) (fails : List TestFail) (s : State) : Lawful s (execTouchstone d fails s) := by
  unfold execTouchstone
  repeat' first
    | with_reducible apply Lawful.onDie
    | with_reducible apply Lawful.next
    | with_reducible assumption
    | with_reducible exact Keeps.refl _
    | intro _
    | with_reducible apply withPick_keeps
    | with_reducible apply State.touchCore_keeps
    | with_reducible apply State.touchEnd_keeps
    | with_reducible apply State.setTouch_keeps
    | with_reducible apply State.touchStart_keeps
    | with_reducible apply Keeps.ite
    | split

theorem State.passEnd_keeps {r0 : State} (s : State) (d : DieIx) (r : Running) (p : PassRun) (hs : Keeps r0 s) : Keeps r0 (State.passEnd s d r p) := by
  unfold State.passEnd
  repeat' first
    | with_reducible assumption
    | with_reducible exact Keeps.refl _
    | intro _
    | with_reducible apply State.finish_keeps

theorem execAssayPass_keeps (d : DieIx) (s : State) : Lawful s (execAssayPass d s) := by
  unfold execAssayPass
  repeat' first
    | with_reducible apply Lawful.onDie
    | with_reducible apply Lawful.next
    | with_reducible assumption
    | with_reducible exact Keeps.refl _
    | intro _
    | with_reducible apply State.modDie_keeps
    | with_reducible apply State.stopEarly_keeps
    | with_reducible apply withPick_keeps
    | with_reducible apply State.passEnd_keeps
    | with_reducible apply Keeps.ite
    | split

theorem execTouchstoneDeadline_keeps (d : DieIx) (s : State) : Lawful s (execTouchstoneDeadline d s) := by
  unfold execTouchstoneDeadline
  repeat' first
    | with_reducible apply Lawful.onDie
    | with_reducible apply Lawful.next
    | with_reducible assumption
    | with_reducible exact Keeps.refl _
    | intro _
    | with_reducible apply State.touchEnd_keeps
    | with_reducible apply State.passEnd_keeps
    | with_reducible apply Keeps.ite
    | split

theorem State.bufferError_keeps {r0 : State} (s : State) (d : DieIx) (hs : Keeps r0 s) : Keeps r0 (State.bufferError s d) := by
  unfold State.bufferError
  repeat' first
    | with_reducible assumption
    | with_reducible exact Keeps.refl _
    | intro _
    | with_reducible apply State.drawFree_keeps
    | with_reducible apply State.logEvent_keeps
    | with_reducible apply State.eccEvent_keeps

theorem execData_keeps (d : DieIx) (l : LinkIx) (r : Received) (s : State) : Lawful s (execData d l r s) := by
  unfold execData
  repeat' first
    | with_reducible apply Lawful.onDie
    | with_reducible apply Lawful.next
    | with_reducible assumption
    | with_reducible exact Keeps.refl _
    | intro _
    | with_reducible apply State.rxData_keeps
    | with_reducible apply State.bufferError_keeps
    | with_reducible apply Keeps.ite

theorem State.rxType_keeps {r0 : State} (s : State) (d : DieIx) (l : LinkIx) (type : Nat) (f : List Byte) (hs : Keeps r0 s) : Keeps r0 (State.rxType s d l type f) := by
  unfold State.rxType
  repeat' first
    | with_reducible assumption
    | with_reducible exact Keeps.refl _
    | intro _
    | with_reducible apply State.rxFrame_keeps
    | with_reducible apply Keeps.ite

theorem execAck_keeps (d : DieIx) (l : LinkIx) (frame : List Byte) (s : State) : Lawful s (execAck d l frame s) := by
  unfold execAck
  repeat' first
    | with_reducible apply Lawful.onDie
    | with_reducible apply Lawful.next
    | with_reducible assumption
    | with_reducible exact Keeps.refl _
    | intro _
    | with_reducible apply State.rxType_keeps

theorem execHeartbeat_keeps (d : DieIx) (l : LinkIx) (frame : List Byte) (s : State) : Lawful s (execHeartbeat d l frame s) := by
  unfold execHeartbeat
  repeat' first
    | with_reducible apply Lawful.onDie
    | with_reducible apply Lawful.next
    | with_reducible assumption
    | with_reducible exact Keeps.refl _
    | intro _
    | with_reducible apply State.rxType_keeps

theorem execFrameInterval_keeps (d : DieIx) (l : LinkIx) (s : State) : Lawful s (execFrameInterval d l s) := by
  unfold execFrameInterval
  repeat' first
    | with_reducible apply Lawful.onDie
    | with_reducible apply Lawful.next
    | with_reducible assumption
    | with_reducible exact Keeps.refl _
    | intro _
    | with_reducible apply State.modLink_keeps
    | with_reducible apply Keeps.ite

theorem execRetransmission_keeps (d : DieIx) (r : Resend) (s : State) : Lawful s (execRetransmission d r s) := by
  unfold execRetransmission
  repeat' first
    | with_reducible apply Lawful.onDie
    | with_reducible apply Lawful.next
    | with_reducible assumption
    | with_reducible exact Keeps.refl _
    | intro _
    | with_reducible apply State.addSat_keeps
    | with_reducible apply State.modLink_keeps
    | with_reducible apply State.linkDown_keeps
    | with_reducible apply State.retain_keeps
    | with_reducible apply State.bufferError_keeps
    | with_reducible apply Keeps.ite
    | split

theorem execSilence_keeps (d : DieIx) (l : LinkIx) (s : State) : Lawful s (execSilence d l s) := by
  unfold execSilence
  repeat' first
    | with_reducible apply Lawful.onDie
    | with_reducible apply Lawful.next
    | with_reducible assumption
    | with_reducible exact Keeps.refl _
    | intro _
    | with_reducible apply State.linkDown_keeps
    | with_reducible apply Keeps.ite

theorem execLinkLaneFailure_keeps (d : DieIx) (p : PortIx) (s : State) : Lawful s (execLinkLaneFailure d p s) := by
  unfold execLinkLaneFailure
  repeat' first
    | with_reducible apply Lawful.onDie
    | with_reducible apply Lawful.next
    | with_reducible assumption
    | with_reducible exact Keeps.refl _
    | intro _
    | with_reducible apply State.drawFree_keeps
    | with_reducible apply State.linkDown_keeps
    | with_reducible apply Keeps.ite

theorem execPortTraining_keeps (d : DieIx) (p : PortIx) (lanes : Nat) (s : State) : Lawful s (execPortTraining d p lanes s) := by
  unfold execPortTraining
  repeat' first
    | with_reducible apply Lawful.onDie
    | with_reducible apply Lawful.next
    | with_reducible assumption
    | with_reducible exact Keeps.refl _
    | intro _
    | with_reducible apply State.modReg_keeps
    | with_reducible apply State.modPort_keeps
    | with_reducible apply State.setPstate_keeps
    | with_reducible apply State.sendHello_keeps
    | with_reducible apply Keeps.ite

theorem execRetrain_keeps (d : DieIx) (p : PortIx) (s : State) : Lawful s (execRetrain d p s) := by
  unfold execRetrain
  repeat' first
    | with_reducible apply Lawful.onDie
    | with_reducible apply Lawful.next
    | with_reducible assumption
    | with_reducible exact Keeps.refl _
    | intro _
    | with_reducible apply State.logEvent_keeps
    | with_reducible apply State.modPort_keeps
    | with_reducible apply State.setCause_keeps
    | with_reducible apply State.trainPort_keeps
    | with_reducible apply Keeps.ite

theorem execHello_keeps (d : DieIx) (p : PortIx) (frame : List Byte) (s : State) : Lawful s (execHello d p frame s) := by
  unfold execHello
  repeat' first
    | with_reducible apply Lawful.onDie
    | with_reducible apply Lawful.next
    | with_reducible assumption
    | with_reducible exact Keeps.refl _
    | intro _
    | with_reducible apply State.rxHello_keeps

theorem execHelloInterval_keeps (d : DieIx) (p : PortIx) (s : State) : Lawful s (execHelloInterval d p s) := by
  unfold execHelloInterval
  repeat' first
    | with_reducible apply Lawful.onDie
    | with_reducible apply Lawful.next
    | with_reducible assumption
    | with_reducible exact Keeps.refl _
    | intro _
    | with_reducible apply State.sendHello_keeps
    | with_reducible apply Keeps.ite

theorem execHelloTimeout_keeps (d : DieIx) (p : PortIx) (s : State) : Lawful s (execHelloTimeout d p s) := by
  unfold execHelloTimeout
  repeat' first
    | with_reducible apply Lawful.onDie
    | with_reducible apply Lawful.next
    | with_reducible assumption
    | with_reducible exact Keeps.refl _
    | intro _
    | with_reducible apply State.trainPort_keeps
    | with_reducible apply Keeps.ite

theorem execEcho_keeps (d : DieIx) (p : PortIx) (frame : List Byte) (s : State) : Lawful s (execEcho d p frame s) := by
  unfold execEcho
  repeat' first
    | with_reducible apply Lawful.onDie
    | with_reducible apply Lawful.next
    | with_reducible assumption
    | with_reducible exact Keeps.refl _
    | intro _
    | with_reducible apply State.rxEcho_keeps

theorem execEchoReply_keeps (d : DieIx) (p : PortIx) (frame : List Byte) (s : State) : Lawful s (execEchoReply d p frame s) := by
  unfold execEchoReply
  repeat' first
    | with_reducible apply Lawful.onDie
    | with_reducible apply Lawful.next
    | with_reducible assumption
    | with_reducible exact Keeps.refl _
    | intro _
    | with_reducible apply State.rxEchoReply_keeps

theorem execAccept_keeps (d : DieIx) (p : PortIx) (frame : List Byte) (s : State) : Lawful s (execAccept d p frame s) := by
  unfold execAccept
  repeat' first
    | with_reducible apply Lawful.onDie
    | with_reducible apply Lawful.next
    | with_reducible assumption
    | with_reducible exact Keeps.refl _
    | intro _
    | with_reducible apply State.rxAccept_keeps

theorem execReject_keeps (d : DieIx) (p : PortIx) (frame : List Byte) (s : State) : Lawful s (execReject d p frame s) := by
  unfold execReject
  repeat' first
    | with_reducible apply Lawful.onDie
    | with_reducible apply Lawful.next
    | with_reducible assumption
    | with_reducible exact Keeps.refl _
    | intro _
    | with_reducible apply State.rxReject_keeps

theorem execBoardPresence_keeps (d : DieIx) (m : Msg) (s : State) : Lawful s (execBoardPresence d m s) := by
  unfold execBoardPresence
  repeat' first
    | with_reducible apply Lawful.onDie
    | with_reducible apply Lawful.next
    | with_reducible assumption
    | with_reducible exact Keeps.refl _
    | intro _
    | with_reducible apply State.addSat_keeps
    | with_reducible apply State.wake_keeps
    | with_reducible apply State.takeMsg_keeps
    | with_reducible apply Keeps.ite
    | split
    | dsimp only
    | with_reducible apply Keeps.upd

theorem execBoardMaster_keeps (s : State) : Lawful s (execBoardMaster s) := by
  unfold execBoardMaster
  repeat' first
    | with_reducible apply Lawful.onDie
    | with_reducible apply Lawful.next
    | with_reducible assumption
    | with_reducible exact Keeps.refl _
    | intro _
    | with_reducible apply State.modReg_keeps
    | with_reducible apply Keeps.fold
    | with_reducible apply Keeps.fold1
    | with_reducible apply Keeps.fold2
    | with_reducible apply Keeps.fold3
    | with_reducible apply Keeps.ite
    | split
    | dsimp only
    | with_reducible apply Keeps.upd

theorem execUcieLinkFailure_keeps (d : DieIx) (s : State) : Lawful s (execUcieLinkFailure d s) := by
  unfold execUcieLinkFailure
  repeat' first
    | with_reducible apply Lawful.onDie
    | with_reducible apply Lawful.next
    | with_reducible assumption
    | with_reducible exact Keeps.refl _
    | intro _
    | with_reducible apply State.setPstate_keeps
    | with_reducible apply State.dieFault_keeps

theorem State.watchBoundary_keeps {r0 : State} (s : State) (d : DieIx) (t : Stroke) (hs : Keeps r0 s) : Keeps r0 (State.watchBoundary s d t) := by
  unfold State.watchBoundary
  repeat' first
    | with_reducible assumption
    | with_reducible exact Keeps.refl _
    | intro _
    | with_reducible apply State.modDie_keeps

theorem State.modTimer_keeps {r0 : State} (s : State) (d : DieIx) (f : Timer → Timer) (hs : Keeps r0 s) : Keeps r0 (State.modTimer s d f) := by
  unfold State.modTimer
  repeat' first
    | with_reducible assumption
    | with_reducible exact Keeps.refl _
    | intro _
    | with_reducible apply State.modDie_keeps

theorem State.accrue_keeps {r0 : State} (s : State) (d : DieIx) (n : Nat) (hs : Keeps r0 s) : Keeps r0 (State.accrue s d n) := by
  unfold State.accrue
  repeat' first
    | with_reducible assumption
    | with_reducible exact Keeps.refl _
    | intro _
    | with_reducible apply State.modDie_keeps
    | with_reducible apply Keeps.ite

theorem State.tickDie_keeps {r0 : State} (s : State) (d : DieIx) (hs : Keeps r0 s) : Keeps r0 (State.tickDie s d) := by
  unfold State.tickDie
  repeat' first
    | with_reducible assumption
    | with_reducible exact Keeps.refl _
    | intro _
    | with_reducible apply State.modTimer_keeps
    | with_reducible apply State.accrue_keeps
    | with_reducible apply Keeps.ite

theorem State.tick_keeps {r0 : State} (s : State) (hs : Keeps r0 s) : Keeps r0 (State.tick s) := by
  unfold State.tick
  repeat' first
    | with_reducible assumption
    | with_reducible exact Keeps.refl _
    | intro _
    | with_reducible apply State.tickDie_keeps
    | with_reducible apply Keeps.fold

theorem State.sendStrokeFrames_keeps {r0 : State} (s : State) (d : DieIx) (hs : Keeps r0 s) : Keeps r0 (State.sendStrokeFrames s d) := by
  unfold State.sendStrokeFrames
  repeat' first
    | with_reducible assumption
    | with_reducible exact Keeps.refl _
    | intro _
    | with_reducible apply State.modPort_keeps
    | with_reducible apply Keeps.fold
    | with_reducible apply Keeps.fold1
    | with_reducible apply Keeps.fold2
    | with_reducible apply Keeps.fold3
    | with_reducible apply Keeps.ite

theorem State.measure_keeps {r0 : State} (s : State) (d : DieIx) (delay : Nat) (pulse : Bool) (board : Bool) (hs : Keeps r0 s) : Keeps r0 (State.measure s d delay pulse board) := by
  unfold State.measure
  repeat' first
    | with_reducible assumption
    | with_reducible exact Keeps.refl _
    | intro _
    | with_reducible apply State.modTimer_keeps
    | with_reducible apply Keeps.ite

theorem State.changeover_keeps {r0 : State} (s : State) (d : DieIx) (master : BitVec 14) (hs : Keeps r0 s) : Keeps r0 (State.changeover s d master) := by
  unfold State.changeover
  repeat' first
    | with_reducible assumption
    | with_reducible exact Keeps.refl _
    | intro _
    | with_reducible apply State.modReg_keeps
    | with_reducible apply State.logEvent_keeps
    | with_reducible apply State.modTimer_keeps
    | with_reducible apply Keeps.ite

theorem State.changeoverAll_keeps {r0 : State} (s : State) (master : BitVec 14) (hs : Keeps r0 s) : Keeps r0 (State.changeoverAll s master) := by
  unfold State.changeoverAll
  repeat' first
    | with_reducible assumption
    | with_reducible exact Keeps.refl _
    | intro _
    | with_reducible apply State.changeover_keeps
    | with_reducible apply Keeps.fold
    | with_reducible apply Keeps.fold1
    | with_reducible apply Keeps.fold2
    | with_reducible apply Keeps.fold3
    | with_reducible apply Keeps.ite

theorem State.followFrame_keeps {r0 : State} (s : State) (d : DieIx) (delay : Nat) (board : Bool) (master : BitVec 14) (n : Stroke) (hs : Keeps r0 s) : Keeps r0 (State.followFrame s d delay board master n) := by
  unfold State.followFrame
  repeat' first
    | with_reducible assumption
    | with_reducible exact Keeps.refl _
    | intro _
    | with_reducible apply State.modReg_keeps
    | with_reducible apply State.modTimer_keeps
    | with_reducible apply State.measure_keeps

theorem State.strokeFrame_keeps {r0 : State} (s : State) (d : DieIx) (p : PortIx) (pay : List Byte) (hs : Keeps r0 s) : Keeps r0 (State.strokeFrame s d p pay) := by
  unfold State.strokeFrame
  repeat' first
    | with_reducible assumption
    | with_reducible exact Keeps.refl _
    | intro _
    | with_reducible apply State.changeoverAll_keeps
    | with_reducible apply State.followFrame_keeps
    | with_reducible apply Keeps.fold
    | with_reducible apply Keeps.fold1
    | with_reducible apply Keeps.fold2
    | with_reducible apply Keeps.fold3
    | with_reducible apply Keeps.ite

theorem execStrokeFrame_keeps (d : DieIx) (p : PortIx) (frame : List Byte) (s : State) : Lawful s (execStrokeFrame d p frame s) := by
  unfold execStrokeFrame
  repeat' first
    | with_reducible apply Lawful.onDie
    | with_reducible apply Lawful.next
    | with_reducible assumption
    | with_reducible exact Keeps.refl _
    | intro _
    | with_reducible apply State.capture_keeps
    | with_reducible apply State.rxFrame_keeps
    | with_reducible apply State.strokeFrame_keeps
    | with_reducible apply Keeps.ite

theorem execStrokeIn_keeps (s : State) : Lawful s (execStrokeIn s) := by
  unfold execStrokeIn
  repeat' first
    | with_reducible apply Lawful.onDie
    | with_reducible apply Lawful.next
    | with_reducible assumption
    | with_reducible exact Keeps.refl _
    | intro _
    | with_reducible apply State.capture_keeps
    | with_reducible apply State.measure_keeps
    | with_reducible apply Keeps.fold
    | with_reducible apply Keeps.fold1
    | with_reducible apply Keeps.fold2
    | with_reducible apply Keeps.fold3
    | with_reducible apply Keeps.ite

theorem execBackupTakeover_keeps (d : DieIx) (s : State) : Lawful s (execBackupTakeover d s) := by
  unfold execBackupTakeover
  repeat' first
    | with_reducible apply Lawful.onDie
    | with_reducible apply Lawful.next
    | with_reducible assumption
    | with_reducible exact Keeps.refl _
    | intro _
    | with_reducible apply State.changeoverAll_keeps
    | with_reducible apply Keeps.ite

theorem execFreeRun_keeps (d : DieIx) (s : State) : Lawful s (execFreeRun d s) := by
  unfold execFreeRun
  repeat' first
    | with_reducible apply Lawful.onDie
    | with_reducible apply Lawful.next
    | with_reducible assumption
    | with_reducible exact Keeps.refl _
    | intro _
    | with_reducible apply State.modReg_keeps
    | with_reducible apply Keeps.ite

theorem execLossOfLock_keeps (d : DieIx) (s : State) : Lawful s (execLossOfLock d s) := by
  unfold execLossOfLock
  repeat' first
    | with_reducible apply Lawful.onDie
    | with_reducible apply Lawful.next
    | with_reducible assumption
    | with_reducible exact Keeps.refl _
    | intro _
    | with_reducible apply State.modReg_keeps
    | with_reducible apply State.logEvent_keeps
    | with_reducible apply State.capture_keeps
    | with_reducible apply Keeps.ite

theorem execRelock_keeps (d : DieIx) (s : State) : Lawful s (execRelock d s) := by
  unfold execRelock
  repeat' first
    | with_reducible apply Lawful.onDie
    | with_reducible apply Lawful.next
    | with_reducible assumption
    | with_reducible exact Keeps.refl _
    | intro _
    | with_reducible apply State.modTimer_keeps
    | with_reducible apply Keeps.ite

theorem State.endRelock_keeps {r0 : State} (s : State) (d : DieIx) (hs : Keeps r0 s) : Keeps r0 (State.endRelock s d) := by
  unfold State.endRelock
  repeat' first
    | with_reducible assumption
    | with_reducible exact Keeps.refl _
    | intro _
    | with_reducible apply State.modReg_keeps
    | with_reducible apply State.logEvent_keeps
    | with_reducible apply State.modTimer_keeps
    | with_reducible apply Keeps.ite

theorem execStrokeWrap_keeps (s : State) : Lawful s (execStrokeWrap s) := by
  unfold execStrokeWrap
  repeat' first
    | with_reducible apply Lawful.onDie
    | with_reducible apply Lawful.next
    | with_reducible assumption
    | with_reducible exact Keeps.refl _
    | intro _
    | with_reducible apply State.setReg_keeps
    | with_reducible apply State.logEvent_keeps
    | with_reducible apply State.modTimer_keeps
    | with_reducible apply Keeps.fold
    | with_reducible apply Keeps.fold1
    | with_reducible apply Keeps.fold2
    | with_reducible apply Keeps.fold3
    | with_reducible apply Keeps.ite

theorem State.showNotice_keeps {r0 : State} (s : State) (d : DieIx) (hs : Keeps r0 s) : Keeps r0 (State.showNotice s d) := by
  unfold State.showNotice
  repeat' first
    | with_reducible assumption
    | with_reducible exact Keeps.refl _
    | intro _
    | with_reducible apply State.modReg_keeps
    | with_reducible apply State.setReg64_keeps
    | with_reducible apply Keeps.fold
    | with_reducible apply Keeps.fold1
    | with_reducible apply Keeps.fold2
    | with_reducible apply Keeps.fold3
    | with_reducible apply Keeps.ite
    | split

theorem execThrottleNotice_keeps (d : DieIx) (step : BitVec 2) (eff : Stroke) (s : State) : Lawful s (execThrottleNotice d step eff s) := by
  unfold execThrottleNotice
  repeat' first
    | with_reducible apply Lawful.onDie
    | with_reducible apply Lawful.next
    | with_reducible assumption
    | with_reducible exact Keeps.refl _
    | intro _
    | with_reducible apply State.logEvent_keeps
    | with_reducible apply State.modTimer_keeps
    | with_reducible apply State.showNotice_keeps
    | with_reducible apply Keeps.ite
    | split
    | dsimp only
    | with_reducible apply Keeps.upd

theorem State.throttleBoundary_keeps {r0 : State} (s : State) (d : DieIx) (hs : Keeps r0 s) : Keeps r0 (State.throttleBoundary s d) := by
  unfold State.throttleBoundary
  repeat' first
    | with_reducible assumption
    | with_reducible exact Keeps.refl _
    | intro _
    | with_reducible apply State.setReg_keeps
    | with_reducible apply State.logEvent_keeps
    | with_reducible apply State.modTimer_keeps
    | with_reducible apply State.showNotice_keeps
    | with_reducible apply Keeps.fold
    | with_reducible apply Keeps.fold1
    | with_reducible apply Keeps.fold2
    | with_reducible apply Keeps.fold3
    | with_reducible apply Keeps.ite
    | split
    | dsimp only

theorem State.seeded_keeps {r0 : State} (s : State) (d : DieIx) (ctl : Nat) (bit : Nat) (off : Nat) (fuse : Bool) (hs : Keeps r0 s) : Keeps r0 (State.seeded s d ctl bit off fuse) := by
  unfold State.seeded
  repeat' first
    | with_reducible assumption
    | with_reducible exact Keeps.refl _
    | intro _
    | with_reducible apply State.modReg_keeps
    | with_reducible apply State.setReg64_keeps
    | with_reducible apply State.logEvent_keeps
    | with_reducible apply Keeps.ite

theorem State.seedCore_keeps {r0 : State} (s : State) (d : DieIx) (c : CoreIx) (hs : Keeps r0 s) : Keeps r0 (State.seedCore s d c) := by
  unfold State.seedCore
  repeat' first
    | with_reducible assumption
    | with_reducible exact Keeps.refl _
    | intro _
    | with_reducible apply State.modCore_keeps
    | with_reducible apply State.seeded_keeps
    | with_reducible apply Keeps.ite

theorem State.seedBoundary_keeps {r0 : State} (s : State) (d : DieIx) (hs : Keeps r0 s) : Keeps r0 (State.seedBoundary s d) := by
  unfold State.seedBoundary
  repeat' first
    | with_reducible assumption
    | with_reducible exact Keeps.refl _
    | intro _
    | with_reducible apply State.modDie_keeps
    | with_reducible apply State.seeded_keeps
    | with_reducible apply State.seedCore_keeps
    | with_reducible apply Keeps.fold
    | with_reducible apply Keeps.fold1
    | with_reducible apply Keeps.fold2
    | with_reducible apply Keeps.fold3
    | with_reducible apply Keeps.ite

theorem State.epochBoundary_keeps {r0 : State} (s : State) (d : DieIx) (k : Nat) (hs : Keeps r0 s) : Keeps r0 (State.epochBoundary s d k) := by
  unfold State.epochBoundary
  repeat' first
    | with_reducible assumption
    | with_reducible exact Keeps.refl _
    | intro _
    | with_reducible apply State.modReg_keeps
    | with_reducible apply State.setRf_keeps
    | with_reducible apply State.modCommit_keeps
    | with_reducible apply State.abortQueue_keeps
    | with_reducible apply Keeps.ite
    | split
    | dsimp only

theorem State.presenceBoundary_keeps {r0 : State} (s : State) (d : DieIx) (hs : Keeps r0 s) : Keeps r0 (State.presenceBoundary s d) := by
  unfold State.presenceBoundary
  repeat' first
    | with_reducible assumption
    | with_reducible exact Keeps.refl _
    | intro _
    | with_reducible apply State.modDie_keeps
    | with_reducible apply State.sendMsg_keeps
    | with_reducible apply Keeps.fold

theorem execPresence_keeps (d : DieIx) (m : Msg) (s : State) : Lawful s (execPresence d m s) := by
  unfold execPresence
  repeat' first
    | with_reducible apply Lawful.onDie
    | with_reducible apply Lawful.next
    | with_reducible assumption
    | with_reducible exact Keeps.refl _
    | intro _
    | with_reducible apply State.addSat_keeps
    | with_reducible apply State.wake_keeps
    | with_reducible apply State.takeMsg_keeps
    | with_reducible apply State.seePeer_keeps
    | with_reducible apply Keeps.ite

theorem State.markAbsent_keeps {r0 : State} (s : State) (d : DieIx) (job : BitVec 12) (e : Endpoint) (hs : Keeps r0 s) : Keeps r0 (State.markAbsent s d job e) := by
  unfold State.markAbsent
  repeat' first
    | with_reducible assumption
    | with_reducible exact Keeps.refl _
    | intro _
    | with_reducible apply State.modDie_keeps

theorem execAbsenceDeclared_keeps (d : DieIx) (peer : Endpoint) (s : State) : Lawful s (execAbsenceDeclared d peer s) := by
  unfold execAbsenceDeclared
  repeat' first
    | with_reducible apply Lawful.onDie
    | with_reducible apply Lawful.next
    | with_reducible assumption
    | with_reducible exact Keeps.refl _
    | intro _
    | with_reducible apply State.noteNotice_keeps
    | with_reducible apply State.sendMsg_keeps
    | with_reducible apply State.markAbsent_keeps
    | with_reducible apply Keeps.fold

theorem execAbsenceNotice_keeps (d : DieIx) (m : Msg) (s : State) : Lawful s (execAbsenceNotice d m s) := by
  unfold execAbsenceNotice
  repeat' first
    | with_reducible apply Lawful.onDie
    | with_reducible apply Lawful.next
    | with_reducible assumption
    | with_reducible exact Keeps.refl _
    | intro _
    | with_reducible apply State.addSat_keeps
    | with_reducible apply State.wake_keeps
    | with_reducible apply State.noteNotice_keeps
    | with_reducible apply State.takeMsg_keeps
    | with_reducible apply State.markAbsent_keeps
    | with_reducible apply Keeps.ite

theorem State.timerBoundary_keeps {r0 : State} (s : State) (d : DieIx) (hs : Keeps r0 s) : Keeps r0 (State.timerBoundary s d) := by
  unfold State.timerBoundary
  repeat' first
    | with_reducible assumption
    | with_reducible exact Keeps.refl _
    | intro _
    | with_reducible apply State.setRf_keeps
    | with_reducible apply State.addSat_keeps
    | with_reducible apply State.logEvent_keeps
    | with_reducible apply State.abortStep_keeps
    | with_reducible apply State.modTimer_keeps
    | with_reducible apply State.accrue_keeps
    | with_reducible apply State.endRelock_keeps
    | with_reducible apply Keeps.fold
    | with_reducible apply Keeps.fold1
    | with_reducible apply Keeps.fold2
    | with_reducible apply Keeps.fold3
    | with_reducible apply Keeps.ite
    | split
    | dsimp only

theorem State.wakeWaiters_keeps {r0 : State} (s : State) (d : DieIx) (hs : Keeps r0 s) : Keeps r0 (State.wakeWaiters s d) := by
  unfold State.wakeWaiters
  repeat' first
    | with_reducible assumption
    | with_reducible exact Keeps.refl _
    | intro _
    | with_reducible apply State.modDie_keeps

theorem State.idleBoundary_keeps {r0 : State} (s : State) (d : DieIx) (hs : Keeps r0 s) : Keeps r0 (State.idleBoundary s d) := by
  unfold State.idleBoundary
  repeat' first
    | with_reducible assumption
    | with_reducible exact Keeps.refl _
    | intro _
    | with_reducible apply Keeps.ite
    | split
    | dsimp only
    | with_reducible apply Keeps.upd

theorem State.boundaryActions_keeps {r0 : State} (s : State) (d : DieIx) (b : BoundaryIn) (hs : Keeps r0 s) : Keeps r0 (State.boundaryActions s d b) := by
  unfold State.boundaryActions
  repeat' first
    | with_reducible assumption
    | with_reducible exact Keeps.refl _
    | intro _
    | with_reducible apply State.startAll_keeps
    | with_reducible apply State.releaseAll_keeps
    | with_reducible apply State.routeChange_keeps
    | with_reducible apply State.boardBoundary_keeps
    | with_reducible apply State.cruBoundary_keeps
    | with_reducible apply State.rejudge_keeps
    | with_reducible apply State.noticeBoundary_keeps
    | with_reducible apply State.commitBoundary_keeps
    | with_reducible apply State.assayBoundary_keeps
    | with_reducible apply State.sendStrokeFrames_keeps
    | with_reducible apply State.throttleBoundary_keeps
    | with_reducible apply State.seedBoundary_keeps
    | with_reducible apply State.epochBoundary_keeps
    | with_reducible apply State.presenceBoundary_keeps
    | with_reducible apply State.wakeWaiters_keeps
    | with_reducible apply State.idleBoundary_keeps
    | with_reducible apply Keeps.fold
    | with_reducible apply Keeps.fold1
    | with_reducible apply Keeps.fold2
    | with_reducible apply Keeps.fold3
    | with_reducible apply Keeps.ite

theorem execStrokeBoundary_keeps (d : DieIx) (b : BoundaryIn) (s : State) : Lawful s (execStrokeBoundary d b s) := by
  unfold execStrokeBoundary
  repeat' first
    | with_reducible apply Lawful.onDie
    | with_reducible apply Lawful.next
    | with_reducible assumption
    | with_reducible exact Keeps.refl _
    | intro _
    | with_reducible apply State.watchBoundary_keeps
    | with_reducible apply State.timerBoundary_keeps
    | with_reducible apply State.boundaryActions_keeps

theorem State.logPelbex_keeps {r0 : State} (s : State) (code : Nat) (detail : Nat) (hs : Keeps r0 s) : Keeps r0 (State.logPelbex s code detail) := by
  unfold State.logPelbex
  repeat' first
    | with_reducible assumption
    | with_reducible exact Keeps.refl _
    | intro _
    | with_reducible apply Keeps.ite
    | split
    | dsimp only
    | with_reducible apply Keeps.upd

theorem State.flashWrite_keeps {r0 : State} (s : State) (off : Nat) (bs : List Byte) (hs : Keeps r0 s) : Keeps r0 (State.flashWrite s off bs) := by
  unfold State.flashWrite
  repeat' first
    | with_reducible assumption
    | with_reducible exact Keeps.refl _
    | intro _
    | with_reducible apply Keeps.fold
    | with_reducible apply Keeps.fold1
    | with_reducible apply Keeps.fold2
    | with_reducible apply Keeps.fold3
    | with_reducible apply Keeps.ite
    | split
    | dsimp only
    | with_reducible apply Keeps.upd

theorem State.writeBootRec_keeps {r0 : State} (s : State) (prefer : Nat) (trial : Bool) (tries : Nat) (hs : Keeps r0 s) : Keeps r0 (State.writeBootRec s prefer trial tries) := by
  unfold State.writeBootRec
  repeat' first
    | with_reducible assumption
    | with_reducible exact Keeps.refl _
    | intro _
    | with_reducible apply State.flashWrite_keeps

theorem State.rom_keeps {r0 : State} (s : State) (badA : Bool) (badB : Bool) (hs : Keeps r0 s) : Keeps r0 (State.rom s badA badB).1 := by
  unfold State.rom
  repeat' first
    | with_reducible assumption
    | with_reducible exact Keeps.refl _
    | intro _
    | with_reducible apply State.writeBootRec_keeps
    | with_reducible apply Keeps.ite
    | split
    | dsimp only

theorem State.hostReset_keeps {r0 : State} (s : State) (hs : Keeps r0 s) : Keeps r0 (State.hostReset s) := by
  unfold State.hostReset
  repeat' first
    | with_reducible assumption
    | with_reducible exact Keeps.refl _
    | intro _
    | with_reducible apply State.setPreg_keeps
    | with_reducible apply Keeps.ite
    | split
    | dsimp only
    | with_reducible apply Keeps.upd

theorem State.loseHost_keeps {r0 : State} (s : State) (hs : Keeps r0 s) : Keeps r0 (State.loseHost s) := by
  unfold State.loseHost
  repeat' first
    | with_reducible assumption
    | with_reducible exact Keeps.refl _
    | intro _
    | with_reducible apply State.hostReset_keeps
    | with_reducible apply Keeps.ite
    | split
    | dsimp only
    | with_reducible apply Keeps.upd

theorem State.powerDefaults_keeps {r0 : State} (s : State) (hs : Keeps r0 s) : Keeps r0 (State.powerDefaults s) := by
  unfold State.powerDefaults
  repeat' first
    | with_reducible assumption
    | with_reducible exact Keeps.refl _
    | intro _
    | with_reducible apply State.setPreg_keeps
    | with_reducible apply Keeps.ite
    | split
    | dsimp only
    | with_reducible apply Keeps.upd

theorem State.pcieDown_keeps {r0 : State} (s : State) (hs : Keeps r0 s) : Keeps r0 (State.pcieDown s) := by
  unfold State.pcieDown
  repeat' first
    | with_reducible assumption
    | with_reducible exact Keeps.refl _
    | intro _
    | with_reducible apply State.setPreg_keeps

theorem State.loseCores_keeps {r0 : State} (s : State) (d : DieIx) (hs : Keeps r0 s) : Keeps r0 (State.loseCores s d) := by
  unfold State.loseCores
  repeat' first
    | with_reducible assumption
    | with_reducible exact Keeps.refl _
    | intro _
    | with_reducible apply State.modCore_keeps
    | with_reducible apply State.drawFree_keeps
    | with_reducible apply State.loseMem_keeps
    | with_reducible apply Keeps.fold

theorem State.repairRow_keeps {r0 : State} (s : State) (d : DieIx) (e : Fin 16) (outcome : Nat) (hs : Keeps r0 s) : Keeps r0 (State.repairRow s d e outcome) := by
  unfold State.repairRow
  repeat' first
    | with_reducible assumption
    | with_reducible exact Keeps.refl _
    | intro _
    | with_reducible apply State.setReg64_keeps
    | with_reducible apply State.logEvent_keeps
    | with_reducible apply State.unitEvent_keeps
    | with_reducible apply State.memWrite_keeps
    | with_reducible apply Keeps.fold
    | with_reducible apply Keeps.fold1
    | with_reducible apply Keeps.fold2
    | with_reducible apply Keeps.fold3
    | with_reducible apply Keeps.ite
    | split
    | dsimp only
    | with_reducible apply Keeps.upd

theorem State.repairDie_keeps {r0 : State} (s : State) (d : DieIx) (res : List Repair) (hs : Keeps r0 s) :
    Keeps r0 (State.repairDie s d res) := by
  unfold State.repairDie
  refine Keeps.ite hs (State.holdHbm_keeps _ _ _ (Keeps.fold (State.holdHbm_keeps _ _ _ hs) ?_))
  intro t e ht
  exact Keeps.ite (State.repairRow_keeps _ _ _ _ ht) ht

theorem State.releaseDie_keeps {r0 : State} (s : State) (d : DieIx) (hs : Keeps r0 s) : Keeps r0 (State.releaseDie s d) := by
  unfold State.releaseDie
  repeat' first
    | with_reducible assumption
    | with_reducible exact Keeps.refl _
    | intro _
    | with_reducible apply State.modDie_keeps
    | with_reducible apply State.setReg_keeps
    | with_reducible apply Keeps.fold
    | with_reducible apply Keeps.fold1
    | with_reducible apply Keeps.fold2
    | with_reducible apply Keeps.fold3
    | with_reducible apply Keeps.ite

theorem State.trainDie_keeps {r0 : State} (s : State) (d : DieIx) (full : Bool) (fail92 : BitVec 4) (fail80 : BitVec 4) (lanes : List (Fin 4 × Fin 48)) (hs : Keeps r0 s) : Keeps r0 (State.trainDie s d full fail92 fail80 lanes) := by
  unfold State.trainDie
  repeat' first
    | with_reducible assumption
    | with_reducible exact Keeps.refl _
    | intro _
    | with_reducible apply State.setReg64_keeps
    | with_reducible apply State.eraseMem_keeps
    | with_reducible apply State.findLanes_keeps
    | with_reducible apply State.hbmTrain_keeps
    | with_reducible apply State.hbmFullTrain_keeps
    | with_reducible apply Keeps.ite

theorem State.loadFences_keeps {r0 : State} (s : State) (d : DieIx) (hs : Keeps r0 s) : Keeps r0 (State.loadFences s d) := by
  unfold State.loadFences
  repeat' first
    | with_reducible assumption
    | with_reducible exact Keeps.refl _
    | intro _
    | with_reducible apply State.setFence_keeps
    | with_reducible apply Keeps.fold
    | with_reducible apply Keeps.fold1
    | with_reducible apply Keeps.fold2
    | with_reducible apply Keeps.fold3
    | with_reducible apply Keeps.ite
    | split

theorem State.programRings_keeps {r0 : State} (s : State) (d : DieIx) (hs : Keeps r0 s) : Keeps r0 (State.programRings s d) := by
  unfold State.programRings
  repeat' first
    | with_reducible assumption
    | with_reducible exact Keeps.refl _
    | intro _
    | with_reducible apply State.setReg_keeps
    | with_reducible apply State.setReg64_keeps
    | with_reducible apply Keeps.fold

theorem State.startPort_keeps {r0 : State} (s : State) (d : DieIx) (p : PortIx) (hs : Keeps r0 s) : Keeps r0 (State.startPort s d p) := by
  unfold State.startPort
  repeat' first
    | with_reducible assumption
    | with_reducible exact Keeps.refl _
    | intro _
    | with_reducible apply State.modPort_keeps
    | with_reducible apply State.setPstate_keeps
    | with_reducible apply State.setCause_keeps
    | with_reducible apply State.trainPort_keeps
    | with_reducible apply Keeps.ite

theorem State.startDie_keeps {r0 : State} (s : State) (d : DieIx) (hs : Keeps r0 s) : Keeps r0 (State.startDie s d) := by
  unfold State.startDie
  repeat' first
    | with_reducible assumption
    | with_reducible exact Keeps.refl _
    | intro _
    | with_reducible apply State.modReg_keeps
    | with_reducible apply State.discDone_keeps
    | with_reducible apply State.programRings_keeps
    | with_reducible apply State.startPort_keeps
    | with_reducible apply Keeps.fold

theorem State.bringUp_keeps {r0 : State} (s : State) (full : Bool) (b : BootIn) (hs : Keeps r0 s) : Keeps r0 (State.bringUp s full b) := by
  unfold State.bringUp
  repeat' first
    | with_reducible assumption
    | with_reducible exact Keeps.refl _
    | intro _
    | with_reducible apply State.setPf_keeps
    | with_reducible apply State.throttleAll_keeps
    | with_reducible apply State.publishLib_keeps
    | with_reducible apply State.dieFault_keeps
    | with_reducible apply State.loseCores_keeps
    | with_reducible apply State.releaseDie_keeps
    | with_reducible apply State.trainDie_keeps
    | with_reducible apply State.loadFences_keeps
    | with_reducible apply State.startDie_keeps
    | with_reducible apply Keeps.fold
    | with_reducible apply Keeps.fold1
    | with_reducible apply Keeps.fold2
    | with_reducible apply Keeps.fold3
    | with_reducible apply Keeps.ite
    | split
    | dsimp only
    | with_reducible apply Keeps.upd

theorem State.parkAll_keeps {r0 : State} (s : State) (hs : Keeps r0 s) : Keeps r0 (State.parkAll s) := by
  unfold State.parkAll
  repeat' first
    | with_reducible assumption
    | with_reducible exact Keeps.refl _
    | intro _
    | with_reducible apply State.modReg_keeps
    | with_reducible apply State.parkDie_keeps
    | with_reducible apply Keeps.fold

theorem State.ready_keeps {r0 : State} (s : State) (w : Word) (hs : Keeps r0 s) : Keeps r0 (State.ready s w) := by
  unfold State.ready
  repeat' first
    | with_reducible assumption
    | with_reducible exact Keeps.refl _
    | intro _
    | with_reducible apply State.setPreg_keeps
    | with_reducible apply State.unitEvent_keeps
    | with_reducible apply State.outOfService_keeps
    | with_reducible apply State.logPelbex_keeps
    | with_reducible apply State.parkAll_keeps
    | with_reducible apply Keeps.ite

theorem State.readSlot_keeps {r0 : State} (s : State) (hs : Keeps r0 s) : Keeps r0 (State.readSlot s) := by
  unfold State.readSlot
  repeat' first
    | with_reducible assumption
    | with_reducible exact Keeps.refl _
    | intro _
    | with_reducible apply State.setPreg_keeps
    | with_reducible apply State.alert_keeps
    | with_reducible apply Keeps.ite

theorem State.bootModule_keeps {r0 : State} (s : State) (full : Bool) (b : BootIn) (hs : Keeps r0 s) : Keeps r0 (State.bootModule s full b) := by
  unfold State.bootModule
  repeat' first
    | with_reducible assumption
    | with_reducible exact Keeps.refl _
    | intro _
    | with_reducible apply State.setPreg_keeps
    | with_reducible apply State.rom_keeps
    | with_reducible apply State.repairDie_keeps
    | with_reducible apply State.bringUp_keeps
    | with_reducible apply State.ready_keeps
    | with_reducible apply Keeps.fold
    | with_reducible apply Keeps.fold1
    | with_reducible apply Keeps.fold2
    | with_reducible apply Keeps.fold3
    | with_reducible apply Keeps.ite
    | split
    | dsimp only
    | with_reducible apply Keeps.upd

theorem execHang_keeps (d : DieIx) (u : HungUnit) (s : State) : Lawful s (execHang d u s) := by
  unfold execHang
  repeat' first
    | with_reducible apply Lawful.onDie
    | with_reducible apply Lawful.next
    | with_reducible assumption
    | with_reducible exact Keeps.refl _
    | intro _
    | with_reducible apply State.logEvent_keeps
    | with_reducible apply State.startReset_keeps
    | with_reducible apply Keeps.ite

theorem execMissingStrokeReport_keeps (d : DieIx) (s : State) : Lawful s (execMissingStrokeReport d s) := by
  unfold execMissingStrokeReport
  repeat' first
    | with_reducible apply Lawful.onDie
    | with_reducible apply Lawful.next
    | with_reducible assumption
    | with_reducible exact Keeps.refl _
    | intro _
    | with_reducible apply State.startReset_keeps

theorem execEngineReset_keeps (d : DieIx) (c : CoreIx) (e : Fin 3) (cause : Fin 5) (s : State) : Lawful s (execEngineReset d c e cause s) := by
  unfold execEngineReset
  repeat' first
    | with_reducible apply Lawful.onDie
    | with_reducible apply Lawful.next
    | with_reducible assumption
    | with_reducible exact Keeps.refl _
    | intro _
    | with_reducible apply State.startReset_keeps

theorem execCoreReset_keeps (d : DieIx) (c : CoreIx) (cause : Fin 5) (s : State) : Lawful s (execCoreReset d c cause s) := by
  unfold execCoreReset
  repeat' first
    | with_reducible apply Lawful.onDie
    | with_reducible apply Lawful.next
    | with_reducible assumption
    | with_reducible exact Keeps.refl _
    | intro _
    | with_reducible apply State.startReset_keeps

theorem execQuadrantReset_keeps (d : DieIx) (q : Fin 4) (cause : Fin 5) (s : State) : Lawful s (execQuadrantReset d q cause s) := by
  unfold execQuadrantReset
  repeat' first
    | with_reducible apply Lawful.onDie
    | with_reducible apply Lawful.next
    | with_reducible assumption
    | with_reducible exact Keeps.refl _
    | intro _
    | with_reducible apply State.startReset_keeps

theorem execDieReset_keeps (d : DieIx) (cause : Fin 5) (s : State) : Lawful s (execDieReset d cause s) := by
  unfold execDieReset
  repeat' first
    | with_reducible apply Lawful.onDie
    | with_reducible apply Lawful.next
    | with_reducible assumption
    | with_reducible exact Keeps.refl _
    | intro _
    | with_reducible apply State.startReset_keeps

theorem State.warmDie_keeps {r0 : State} (s0 : State) (d : DieIx) (cause : Nat) (second : Bool) (hs0 : Keeps r0 s0) : Keeps r0 (State.warmDie s0 d cause second) := by
  unfold State.warmDie
  repeat' first
    | with_reducible assumption
    | with_reducible exact Keeps.refl _
    | intro _
    | with_reducible apply State.logFrom_keeps
    | with_reducible apply State.capture_keeps
    | with_reducible apply State.bumpTags_keeps
    | with_reducible apply State.sendNotices_keeps
    | with_reducible apply State.capture411_keeps
    | with_reducible apply State.fence_keeps
    | with_reducible apply Keeps.fold
    | with_reducible apply Keeps.fold1
    | with_reducible apply Keeps.fold2
    | with_reducible apply Keeps.fold3
    | with_reducible apply Keeps.ite

theorem State.holdDie_keeps {r0 : State} (s : State) (d : DieIx) (hs : Keeps r0 s) : Keeps r0 (State.holdDie s d) := by
  unfold State.holdDie
  repeat' first
    | with_reducible assumption
    | with_reducible exact Keeps.refl _
    | intro _
    | with_reducible apply State.modDie_keeps
    | with_reducible apply State.loseCores_keeps

theorem State.writeLost_keeps {r0 : State} (s : State) (p : LostRec) (hs : Keeps r0 s) : Keeps r0 (State.writeLost s p) := by
  unfold State.writeLost
  repeat' first
    | with_reducible assumption
    | with_reducible exact Keeps.refl _
    | intro _
    | with_reducible apply State.record_keeps
    | with_reducible apply State.putRing_keeps
    | with_reducible apply State.loseRecord_keeps
    | with_reducible apply Keeps.ite

theorem State.warmReset_keeps {r0 : State} (s : State) (cause : Nat) (fences : List (DieIx × Nat)) (hs : Keeps r0 s) :
    Keeps r0 (State.warmReset s cause fences) := by
  unfold State.warmReset
  refine Keeps.ite hs ?_
  split
  · exact hs.upd ..
  · extract_lets ds src s0 s1 lost s2 s3 s4
    have h0 : Keeps r0 s0 := (State.countModule_keeps _ hs).upd ..
    have h1 : Keeps r0 s1 := Keeps.fold h0 (fun t d ht => Keeps.ite ht (State.warmDie_keeps _ _ _ _ ht))
    have h2 : Keeps r0 s2 := Keeps.fold h1 (fun t d ht => State.holdDie_keeps _ _ ht)
    have h3 : Keeps r0 s3 := State.readSlot_keeps _ (State.setPf_keeps _ _ _ _ _ (State.pcieDown_keeps _ (State.loseHost_keeps _ h2)))
    exact State.powerDefaults_keeps _ (h3.upd ..)

theorem execModuleWarmReset_keeps (cause : Fin 5) (s : State) : Lawful s (execModuleWarmReset cause s) := by
  unfold execModuleWarmReset
  repeat' first
    | with_reducible apply Lawful.onDie
    | with_reducible apply Lawful.next
    | with_reducible assumption
    | with_reducible exact Keeps.refl _
    | intro _
    | with_reducible apply State.warmReset_keeps

theorem execWatchdog_keeps (s : State) : Lawful s (execWatchdog s) := by
  unfold execWatchdog
  repeat' first
    | with_reducible apply Lawful.onDie
    | with_reducible apply Lawful.next
    | with_reducible assumption
    | with_reducible exact Keeps.refl _
    | intro _
    | with_reducible apply State.warmReset_keeps

theorem State.moduleDown_keeps {r0 : State} (s : State) (cause : Nat) (hs : Keeps r0 s) : Keeps r0 (State.moduleDown s cause) := by
  unfold State.moduleDown
  repeat' first
    | with_reducible assumption
    | with_reducible exact Keeps.refl _
    | intro _
    | with_reducible apply State.modDie_keeps
    | with_reducible apply State.setPreg_keeps
    | with_reducible apply State.outOfService_keeps
    | with_reducible apply State.alert_keeps
    | with_reducible apply Keeps.fold
    | with_reducible apply Keeps.fold1
    | with_reducible apply Keeps.fold2
    | with_reducible apply Keeps.fold3
    | with_reducible apply Keeps.ite
    | split
    | dsimp only
    | with_reducible apply Keeps.upd

theorem execWarmResetTimeout_keeps (s : State) : Lawful s (execWarmResetTimeout s) := by
  unfold execWarmResetTimeout
  repeat' first
    | with_reducible apply Lawful.onDie
    | with_reducible apply Lawful.next
    | with_reducible assumption
    | with_reducible exact Keeps.refl _
    | intro _
    | with_reducible apply State.moduleDown_keeps
    | with_reducible apply Keeps.ite

theorem State.warmComplete_keeps {r0 : State} (s : State) (b : BootIn) (hs : Keeps r0 s) : Keeps r0 (State.warmComplete s b) := by
  unfold State.warmComplete
  repeat' first
    | with_reducible assumption
    | with_reducible exact Keeps.refl _
    | intro _
    | with_reducible apply State.fence_keeps
    | with_reducible apply State.bootModule_keeps
    | with_reducible apply State.writeLost_keeps
    | with_reducible apply Keeps.fold
    | with_reducible apply Keeps.fold1
    | with_reducible apply Keeps.fold2
    | with_reducible apply Keeps.fold3
    | with_reducible apply Keeps.ite
    | split
    | dsimp only
    | with_reducible apply Keeps.upd

theorem execResetComplete_keeps (what : ResetOf) (us : Nat) (s : State) : Lawful s (execResetComplete what us s) := by
  unfold execResetComplete
  repeat' first
    | with_reducible apply Lawful.onDie
    | with_reducible apply Lawful.next
    | with_reducible assumption
    | with_reducible exact Keeps.refl _
    | intro _
    | with_reducible apply State.modDie_keeps
    | with_reducible apply State.findLanes_keeps
    | with_reducible apply State.hbmTrain_keeps
    | with_reducible apply State.completeReset_keeps
    | with_reducible apply State.warmComplete_keeps
    | with_reducible apply Keeps.ite
    | split

theorem execResetTimeout_keeps (d : DieIx) (dom : Domain) (s : State) : Lawful s (execResetTimeout d dom s) := by
  unfold execResetTimeout
  repeat' first
    | with_reducible apply Lawful.onDie
    | with_reducible apply Lawful.next
    | with_reducible assumption
    | with_reducible exact Keeps.refl _
    | intro _
    | with_reducible apply State.capture_keeps
    | with_reducible apply State.escalate_keeps
    | with_reducible apply State.warmReset_keeps
    | with_reducible apply Keeps.ite

theorem State.trimAnnounced_keeps {r0 : State} (s : State) (d : DieIx) (hs : Keeps r0 s) : Keeps r0 (State.trimAnnounced s d) := by
  unfold State.trimAnnounced
  repeat' first
    | with_reducible assumption
    | with_reducible exact Keeps.refl _
    | intro _
    | with_reducible apply State.modDie_keeps

theorem execResetNotice_keeps (d : DieIx) (m : Msg) (s : State) : Lawful s (execResetNotice d m s) := by
  unfold execResetNotice
  repeat' first
    | with_reducible apply Lawful.onDie
    | with_reducible apply Lawful.next
    | with_reducible assumption
    | with_reducible exact Keeps.refl _
    | intro _
    | with_reducible apply State.addSat_keeps
    | with_reducible apply State.wake_keeps
    | with_reducible apply State.noteNotice_keeps
    | with_reducible apply State.takeMsg_keeps
    | with_reducible apply State.setAnnounced_keeps
    | with_reducible apply State.trimAnnounced_keeps
    | with_reducible apply Keeps.ite

theorem State.restoreContext_keeps {r0 : State} (s : State) (d : DieIx) (k : Nat) (yes : Bool) (hs : Keeps r0 s) : Keeps r0 (State.restoreContext s d k yes) := by
  unfold State.restoreContext
  repeat' first
    | with_reducible assumption
    | with_reducible exact Keeps.refl _
    | intro _
    | with_reducible apply State.setReg_keeps
    | with_reducible apply State.modReg_keeps
    | with_reducible apply State.setRf_keeps
    | with_reducible apply State.modCommit_keeps
    | with_reducible apply State.setCmtState_keeps
    | with_reducible apply Keeps.ite

theorem State.returnMember_keeps {r0 : State} (s : State) (d : DieIx) (k : Nat) (step : Nat) (hs : Keeps r0 s) : Keeps r0 (State.returnMember s d k step) := by
  unfold State.returnMember
  repeat' first
    | with_reducible assumption
    | with_reducible exact Keeps.refl _
    | intro _
    | with_reducible apply State.modDie_keeps
    | with_reducible apply State.hostEvent_keeps

theorem execMemberReturn_keeps (d : DieIx) (k : CtxIx) (final : Bool) (s : State) : Lawful s (execMemberReturn d k final s) := by
  unfold execMemberReturn
  repeat' first
    | with_reducible apply Lawful.onDie
    | with_reducible apply Lawful.next
    | with_reducible assumption
    | with_reducible exact Keeps.refl _
    | intro _
    | with_reducible apply State.hostEvent_keeps
    | with_reducible apply State.modCommit_keeps
    | with_reducible apply State.restoreContext_keeps
    | with_reducible apply State.returnMember_keeps
    | with_reducible apply Keeps.ite
    | split
    | dsimp only

theorem wf_empty : Mem.empty.wf := ⟨rfl, rfl⟩

theorem State.dark_keeps {r0 : State} (s : State) (pwrEn : Bool) (hs : Keeps r0 s) : Keeps r0 (State.dark s pwrEn) :=
  State.setPreg_keeps _ _ _ ⟨hs.pending, hs.variant, hs.serial, hs.svn, fun _ => wf_empty, hs.host⟩

theorem Lawful.absent {s : State} {d : DieIx} (h : (!s.present d) = true) : Lawful s (.fault (.absentDie d)) := ⟨d, by simpa using h, rfl⟩

theorem State.powerOn_keeps {r0 : State} (s : State) (b : BootIn) (hs : Keeps r0 s) : Keeps r0 (State.powerOn s b) := by
  unfold State.powerOn
  repeat' first
    | with_reducible assumption
    | with_reducible exact Keeps.refl _
    | intro _
    | with_reducible apply State.setPf_keeps
    | with_reducible apply State.readSlot_keeps
    | with_reducible apply State.bootModule_keeps
    | with_reducible apply State.dark_keeps
    | with_reducible apply Keeps.ite
    | split
    | dsimp only
    | with_reducible apply Keeps.upd

theorem execPowerUp_keeps (b : BootIn) (s : State) : Lawful s (execPowerUp b s) := by
  unfold execPowerUp
  repeat' first
    | with_reducible apply Lawful.onDie
    | with_reducible apply Lawful.next
    | with_reducible assumption
    | with_reducible exact Keeps.refl _
    | intro _
    | with_reducible apply State.powerOn_keeps

theorem execPowerDownSequence_keeps (s : State) : Lawful s (execPowerDownSequence s) := by
  unfold execPowerDownSequence
  repeat' first
    | with_reducible apply Lawful.onDie
    | with_reducible apply Lawful.next
    | exact Lawful.absent (by assumption)
    | with_reducible assumption
    | with_reducible exact Keeps.refl _
    | intro _
    | with_reducible apply State.dark_keeps
    | with_reducible apply Keeps.ite
    | split
    | dsimp only
    | with_reducible apply Keeps.upd

theorem execBrownOut_keeps (s : State) : Lawful s (execBrownOut s) := by
  unfold execBrownOut
  repeat' first
    | with_reducible apply Lawful.onDie
    | with_reducible apply Lawful.next
    | with_reducible assumption
    | with_reducible exact Keeps.refl _
    | intro _
    | with_reducible apply State.dark_keeps

theorem execInputRestored_keeps (b : BootIn) (s : State) : Lawful s (execInputRestored b s) := by
  unfold execInputRestored
  repeat' first
    | with_reducible apply Lawful.onDie
    | with_reducible apply Lawful.next
    | with_reducible assumption
    | with_reducible exact Keeps.refl _
    | intro _
    | with_reducible apply State.powerOn_keeps
    | with_reducible apply Keeps.ite

theorem State.mainOff_keeps {r0 : State} (s : State) (hs : Keeps r0 s) : Keeps r0 (State.mainOff s) :=
  ⟨hs.pending, hs.variant, hs.serial, hs.svn, fun _ => wf_empty, hs.host⟩

theorem execModuleTrip_keeps (cause : Fin 3) (s : State) : Lawful s (execModuleTrip cause s) := by
  unfold execModuleTrip
  repeat' first
    | with_reducible apply Lawful.onDie
    | with_reducible apply Lawful.next
    | exact Lawful.absent (by assumption)
    | with_reducible assumption
    | with_reducible exact Keeps.refl _
    | intro _
    | with_reducible apply State.moduleDown_keeps
    | with_reducible apply State.mainOff_keeps
    | with_reducible apply Keeps.ite
    | split
    | dsimp only
    | with_reducible apply Keeps.upd

theorem execFaultClear_keeps (removed : Bool) (s : State) : Lawful s (execFaultClear removed s) := by
  unfold execFaultClear
  repeat' first
    | with_reducible apply Lawful.onDie
    | with_reducible apply Lawful.next
    | exact Lawful.absent (by assumption)
    | with_reducible assumption
    | with_reducible exact Keeps.refl _
    | intro _
    | with_reducible apply State.setPreg_keeps
    | with_reducible apply State.dark_keeps
    | with_reducible apply Keeps.ite

theorem State.rethrottle_keeps {r0 : State} (s : State) (hs : Keeps r0 s) : Keeps r0 (State.rethrottle s) := by
  unfold State.rethrottle
  repeat' first
    | with_reducible assumption
    | with_reducible exact Keeps.refl _
    | intro _
    | with_reducible apply State.throttleAll_keeps
    | with_reducible apply Keeps.ite

theorem execUndervoltage_keeps (s : State) : Lawful s (execUndervoltage s) := by
  unfold execUndervoltage
  repeat' first
    | with_reducible apply Lawful.onDie
    | with_reducible apply Lawful.next
    | with_reducible assumption
    | with_reducible exact Keeps.refl _
    | intro _
    | with_reducible apply State.alert_keeps
    | with_reducible apply State.rethrottle_keeps
    | with_reducible apply Keeps.ite
    | split
    | dsimp only
    | with_reducible apply Keeps.upd

theorem execUndervoltageRelease_keeps (s : State) : Lawful s (execUndervoltageRelease s) := by
  unfold execUndervoltageRelease
  repeat' first
    | with_reducible apply Lawful.onDie
    | with_reducible apply Lawful.next
    | with_reducible assumption
    | with_reducible exact Keeps.refl _
    | intro _
    | with_reducible apply State.rethrottle_keeps
    | with_reducible apply Keeps.ite
    | split
    | dsimp only
    | with_reducible apply Keeps.upd

theorem execThrotN_keeps (low : Bool) (s : State) : Lawful s (execThrotN low s) := by
  unfold execThrotN
  repeat' first
    | with_reducible apply Lawful.onDie
    | with_reducible apply Lawful.next
    | with_reducible assumption
    | with_reducible exact Keeps.refl _
    | intro _
    | with_reducible apply State.alert_keeps
    | with_reducible apply State.rethrottle_keeps
    | with_reducible apply Keeps.ite
    | split
    | dsimp only
    | with_reducible apply Keeps.upd

theorem execJunctionReading_keeps (d : DieIx) (temp : Option (BitVec 8)) (s : State) : Lawful s (execJunctionReading d temp s) := by
  unfold execJunctionReading
  repeat' first
    | with_reducible apply Lawful.onDie
    | with_reducible apply Lawful.next
    | exact Lawful.absent (by assumption)
    | with_reducible assumption
    | with_reducible exact Keeps.refl _
    | intro _
    | with_reducible apply State.setPf_keeps
    | with_reducible apply State.throttleDie_keeps
    | with_reducible apply State.sensed_keeps
    | with_reducible apply Keeps.ite
    | split
    | dsimp only
    | with_reducible apply Keeps.upd

theorem execCoolantReading_keeps (inlet : Option (BitVec 8)) (outlet : Option (BitVec 8)) (s : State) : Lawful s (execCoolantReading inlet outlet s) := by
  unfold execCoolantReading
  repeat' first
    | with_reducible apply Lawful.onDie
    | with_reducible apply Lawful.next
    | with_reducible assumption
    | with_reducible exact Keeps.refl _
    | intro _
    | with_reducible apply State.setPf_keeps
    | with_reducible apply State.alert_keeps
    | with_reducible apply State.sensed_keeps
    | with_reducible apply State.rethrottle_keeps
    | with_reducible apply Keeps.ite
    | split
    | dsimp only
    | with_reducible apply Keeps.upd

theorem execCapEvaluation_keeps (m : Measured) (s : State) : Lawful s (execCapEvaluation m s) := by
  unfold execCapEvaluation
  repeat' first
    | with_reducible apply Lawful.onDie
    | with_reducible apply Lawful.next
    | with_reducible assumption
    | with_reducible exact Keeps.refl _
    | intro _
    | with_reducible apply State.setPreg_keeps
    | with_reducible apply State.setPf_keeps
    | with_reducible apply State.alert_keeps
    | with_reducible apply State.sensed_keeps
    | with_reducible apply State.rethrottle_keeps
    | with_reducible apply Keeps.fold
    | with_reducible apply Keeps.fold1
    | with_reducible apply Keeps.fold2
    | with_reducible apply Keeps.fold3
    | with_reducible apply Keeps.ite
    | split
    | dsimp only
    | with_reducible apply Keeps.upd

theorem State.capWrite_keeps {r0 : State} (s : State) (v : Word) (hs : Keeps r0 s) : Keeps r0 (State.capWrite s v) := by
  unfold State.capWrite
  repeat' first
    | with_reducible assumption
    | with_reducible exact Keeps.refl _
    | intro _
    | with_reducible apply State.setPreg_keeps

theorem execPwrCap_keeps (v : Word) (s : State) : Lawful s (execPwrCap v s) := by
  unfold execPwrCap
  repeat' first
    | with_reducible apply Lawful.onDie
    | with_reducible apply Lawful.next
    | with_reducible assumption
    | with_reducible exact Keeps.refl _
    | intro _
    | with_reducible apply State.capWrite_keeps
    | with_reducible apply Keeps.ite

theorem State.tripNotices_keeps {r0 : State} (s : State) (d : DieIx) (hs : Keeps r0 s) : Keeps r0 (State.tripNotices s d) := by
  unfold State.tripNotices
  repeat' first
    | with_reducible assumption
    | with_reducible exact Keeps.refl _
    | intro _
    | with_reducible apply State.sendMsg_keeps
    | with_reducible apply Keeps.fold
    | with_reducible apply Keeps.fold1
    | with_reducible apply Keeps.fold2
    | with_reducible apply Keeps.fold3
    | with_reducible apply Keeps.ite
    | split

theorem execDieTrip_keeps (d : DieIx) (s : State) : Lawful s (execDieTrip d s) := by
  unfold execDieTrip
  repeat' first
    | with_reducible apply Lawful.onDie
    | with_reducible apply Lawful.next
    | exact Lawful.absent (by assumption)
    | with_reducible assumption
    | with_reducible exact Keeps.refl _
    | intro _
    | with_reducible apply State.setDie_keeps
    | with_reducible apply State.setReg_keeps
    | with_reducible apply State.setPreg_keeps
    | with_reducible apply State.eraseMem_keeps
    | with_reducible apply State.bumpTags_keeps
    | with_reducible apply State.setFence_keeps
    | with_reducible apply State.fence_keeps
    | with_reducible apply State.alert_keeps
    | with_reducible apply State.loseCores_keeps
    | with_reducible apply State.tripNotices_keeps
    | with_reducible apply Keeps.ite
    | split
    | dsimp only
    | with_reducible apply Keeps.upd

theorem execA1Entry_keeps (d : DieIx) (s : State) : Lawful s (execA1Entry d s) := by
  unfold execA1Entry
  repeat' first
    | with_reducible apply Lawful.onDie
    | with_reducible apply Lawful.next
    | with_reducible assumption
    | with_reducible exact Keeps.refl _
    | intro _
    | with_reducible apply State.setPf_keeps
    | with_reducible apply Keeps.ite

theorem State.lpResult_keeps {r0 : State} (s : State) (r : Nat) (hs : Keeps r0 s) : Keeps r0 (State.lpResult s r) := by
  unfold State.lpResult
  repeat' first
    | with_reducible assumption
    | with_reducible exact Keeps.refl _
    | intro _
    | with_reducible apply State.setPf_keeps

theorem State.lpGate_keeps {r0 : State} (s : State) (busy : Bool) (k : State → State) (hs : Keeps r0 s) (hk : ∀ t, Keeps r0 t → Keeps r0 (k t)) : Keeps r0 (State.lpGate s busy k) := by
  unfold State.lpGate
  repeat' first
    | with_reducible assumption
    | with_reducible exact Keeps.refl _
    | intro _
    | with_reducible apply State.lpResult_keeps
    | with_reducible apply hk
    | with_reducible apply Keeps.ite

theorem State.unpark_keeps {r0 : State} (s : State) (d : DieIx) (fail : BitVec 4) (lanes : List (Fin 4 × Fin 48)) (hs : Keeps r0 s) : Keeps r0 (State.unpark s d fail lanes) := by
  unfold State.unpark
  repeat' first
    | with_reducible assumption
    | with_reducible exact Keeps.refl _
    | intro _
    | with_reducible apply State.setPf_keeps
    | with_reducible apply State.startAll_keeps
    | with_reducible apply State.findLanes_keeps
    | with_reducible apply State.hbmTrain_keeps
    | with_reducible apply State.dieFault_keeps
    | with_reducible apply Keeps.ite

theorem State.toA0_keeps {r0 : State} (s : State) (mask : BitVec 8) (b : BootIn) (hs : Keeps r0 s) : Keeps r0 (State.toA0 s mask b) := by
  unfold State.toA0
  repeat' first
    | with_reducible assumption
    | with_reducible exact Keeps.refl _
    | intro _
    | with_reducible apply State.setPf_keeps
    | with_reducible apply State.outOfService_keeps
    | with_reducible apply State.powerDefaults_keeps
    | with_reducible apply State.bringUp_keeps
    | with_reducible apply State.ready_keeps
    | with_reducible apply State.lpResult_keeps
    | with_reducible apply State.unpark_keeps
    | with_reducible apply Keeps.fold
    | with_reducible apply Keeps.fold1
    | with_reducible apply Keeps.fold2
    | with_reducible apply Keeps.fold3
    | with_reducible apply Keeps.ite
    | split
    | dsimp only
    | with_reducible apply Keeps.upd

theorem State.toA2_keeps {r0 : State} (s : State) (mask : BitVec 8) (hs : Keeps r0 s) : Keeps r0 (State.toA2 s mask) := by
  unfold State.toA2
  repeat' first
    | with_reducible assumption
    | with_reducible exact Keeps.refl _
    | intro _
    | with_reducible apply State.parkDie_keeps
    | with_reducible apply State.lpResult_keeps
    | with_reducible apply Keeps.fold
    | with_reducible apply Keeps.fold1
    | with_reducible apply Keeps.fold2
    | with_reducible apply Keeps.fold3
    | with_reducible apply Keeps.ite

theorem State.toA3_keeps {r0 : State} (s : State) (mask : BitVec 8) (hs : Keeps r0 s) : Keeps r0 (State.toA3 s mask) := by
  unfold State.toA3
  dsimp only
  refine Keeps.ite (State.lpResult_keeps _ _ hs) (Keeps.ite (State.lpResult_keeps _ _ hs) (State.lpResult_keeps _ _ (Keeps.fold ?_
    (fun t d ht => State.setPf_keeps _ _ _ _ _ ht))))
  have h3 : ∀ x : State, Keeps r0 x → Keeps r0 { x with mem := Mem.empty, power := { x.power with rails := false, notices := [] } } :=
    fun x hx => ⟨hx.pending, hx.variant, hx.serial, hx.svn, fun _ => wf_empty, hx.host⟩
  exact h3 _ (State.pcieDown_keeps _ (State.hostReset_keeps _ (Keeps.fold (Keeps.fold (hs.upd ..) (fun t d ht => Keeps.ite ht (State.parkDie_keeps _ _ ht)))
    (fun t d ht => State.modDie_keeps _ _ _ (State.bumpTags_keeps _ _ _ ht)))))

theorem execA0Request_keeps (mask : BitVec 8) (busy : Bool) (b : BootIn) (s : State) : Lawful s (execA0Request mask busy b s) := by
  unfold execA0Request
  repeat' first
    | with_reducible apply Lawful.onDie
    | with_reducible apply Lawful.next
    | with_reducible assumption
    | with_reducible exact Keeps.refl _
    | intro _
    | with_reducible apply State.lpGate_keeps
    | with_reducible apply State.toA0_keeps

theorem execA2Entry_keeps (mask : BitVec 8) (busy : Bool) (s : State) : Lawful s (execA2Entry mask busy s) := by
  unfold execA2Entry
  repeat' first
    | with_reducible apply Lawful.onDie
    | with_reducible apply Lawful.next
    | with_reducible assumption
    | with_reducible exact Keeps.refl _
    | intro _
    | with_reducible apply State.lpGate_keeps
    | with_reducible apply State.toA2_keeps

theorem execA3Entry_keeps (mask : BitVec 8) (busy : Bool) (s : State) : Lawful s (execA3Entry mask busy s) := by
  unfold execA3Entry
  repeat' first
    | with_reducible apply Lawful.onDie
    | with_reducible apply Lawful.next
    | with_reducible assumption
    | with_reducible exact Keeps.refl _
    | intro _
    | with_reducible apply State.lpGate_keeps
    | with_reducible apply State.toA3_keeps

theorem execModResetN_keeps (low : Bool) (s : State) : Lawful s (execModResetN low s) := by
  unfold execModResetN
  repeat' first
    | with_reducible apply Lawful.onDie
    | with_reducible apply Lawful.next
    | with_reducible assumption
    | with_reducible exact Keeps.refl _
    | intro _
    | with_reducible apply State.warmReset_keeps
    | with_reducible apply Keeps.ite
    | split
    | dsimp only
    | with_reducible apply Keeps.upd

theorem State.pwrWrite_keeps {r0 : State} (s : State) (off : Nat) (v : Word) (busy : Bool) (b : BootIn) (hs : Keeps r0 s) : Keeps r0 (State.pwrWrite s off v busy b) := by
  unfold State.pwrWrite
  repeat' first
    | with_reducible assumption
    | with_reducible exact Keeps.refl _
    | intro _
    | with_reducible apply State.setPreg_keeps
    | with_reducible apply State.capWrite_keeps
    | with_reducible apply State.lpGate_keeps
    | with_reducible apply State.toA0_keeps
    | with_reducible apply State.toA2_keeps
    | with_reducible apply State.toA3_keeps
    | with_reducible apply Keeps.ite

theorem State.i3cPut_keeps {r0 : State} (busy : Bool) (b : BootIn) (o : Nat) (ws : List Word) (s : State) (hs : Keeps r0 s) :
    Keeps r0 (State.i3cPut busy b o ws s) := by
  induction ws generalizing o s with
  | nil => exact hs
  | cons w ws ih =>
    unfold State.i3cPut
    exact ih _ _ (Keeps.ite (State.pwrWrite_keeps _ _ _ _ _ hs) hs)

theorem execI3cPrivateWrite_keeps (off : BitVec 16) (data : List Word) (busy : Bool) (b : BootIn) (s : State) : Lawful s (execI3cPrivateWrite off data busy b s) := by
  unfold execI3cPrivateWrite
  repeat' first
    | with_reducible apply Lawful.onDie
    | with_reducible apply Lawful.next
    | with_reducible assumption
    | with_reducible exact Keeps.refl _
    | intro _
    | with_reducible apply State.i3cPut_keeps
    | with_reducible apply Keeps.ite
    | split
    | dsimp only
    | with_reducible apply Keeps.upd

theorem execI3cPrivateRead_keeps (n : Nat) (s : State) : Lawful s (execI3cPrivateRead n s) := by
  unfold execI3cPrivateRead
  repeat' first
    | with_reducible apply Lawful.onDie
    | with_reducible apply Lawful.next
    | with_reducible assumption
    | with_reducible exact Keeps.refl _
    | intro _
    | with_reducible apply Keeps.ite
    | split
    | dsimp only
    | with_reducible apply Keeps.upd

theorem State.hostRecord_keeps {r0 : State} (s : State) (q : Fin 64) (c : HostCmd) (r : Result) (hs : Keeps r0 s) : Keeps r0 (State.hostRecord s q c r) := by
  unfold State.hostRecord
  repeat' first
    | with_reducible assumption
    | with_reducible exact Keeps.refl _
    | intro _
    | with_reducible apply State.postCq_keeps

theorem State.startHostHead_keeps {r0 u : State} {s : State}{q : Fin 64} (e : State.startHostHead s q = some u) (hs : Keeps r0 s) : Keeps r0 u := by
  unfold State.startHostHead at e
  (try dsimp only at e)
  repeat' (first | (split at e) | cases e)
  repeat' first
    | with_reducible assumption
    | with_reducible exact Keeps.refl _
    | intro _
    | with_reducible apply State.setHostQ_keeps
    | with_reducible apply State.outOfService_keeps
    | with_reducible apply State.hostRecord_keeps

theorem State.startHostN_keeps {r0 : State} (s : State) (q : Fin 64) (n : Nat) (hs : Keeps r0 s) : Keeps r0 (State.startHostN s q n) := by
  induction n generalizing s with
  | zero => exact hs
  | succ n ih =>
    unfold State.startHostN
    split
    · exact hs
    · exact ih _ (State.startHostHead_keeps (by assumption) hs)

theorem State.startHost_keeps {r0 : State} (s : State) (q : Fin 64) (hs : Keeps r0 s) : Keeps r0 (State.startHost s q) := by
  unfold State.startHost
  repeat' first
    | with_reducible assumption
    | with_reducible exact Keeps.refl _
    | intro _
    | with_reducible apply State.startHostN_keeps

theorem State.hostFinish_keeps {r0 : State} (s : State) (q : Fin 64) (c : HostCmd) (r : Result) (hs : Keeps r0 s) : Keeps r0 (State.hostFinish s q c r) := by
  unfold State.hostFinish
  repeat' first
    | with_reducible assumption
    | with_reducible exact Keeps.refl _
    | intro _
    | with_reducible apply State.setHostQ_keeps
    | with_reducible apply State.hostRecord_keeps
    | with_reducible apply State.startHost_keeps

theorem State.hostBad_keeps {r0 : State} (s : State) (q : Fin 64) (c : HostCmd) (st : Nat) (hs : Keeps r0 s) : Keeps r0 (State.hostBad s q c st) := by
  unfold State.hostBad
  repeat' first
    | with_reducible assumption
    | with_reducible exact Keeps.refl _
    | intro _
    | with_reducible apply State.hostFinish_keeps

theorem Lawful.hostRun {s : State} {q : Fin 64} {p : Desc → Bool} {k : HostCmd → State} (h : ∀ c, Keeps s (k c)) : Lawful s (hostRun s q p k) := by
  unfold Machine.hostRun
  split
  · exact Keeps.refl s
  · exact h _

theorem State.doorbellIgnored_keeps {r0 : State} (s : State) (hs : Keeps r0 s) : Keeps r0 (State.doorbellIgnored s) := by
  unfold State.doorbellIgnored
  repeat' first
    | with_reducible assumption
    | with_reducible exact Keeps.refl _
    | intro _
    | with_reducible apply State.pelCount_keeps

theorem State.sqTail_keeps {r0 : State} (s : State) (q : Fin 64) (tail : Nat) (descs : List (Desc × Bool)) (hs : Keeps r0 s) : Keeps r0 (State.sqTail s q tail descs) := by
  unfold State.sqTail
  repeat' first
    | with_reducible assumption
    | with_reducible exact Keeps.refl _
    | intro _
    | with_reducible apply State.setHostQ_keeps
    | with_reducible apply State.push_keeps
    | with_reducible apply State.startHost_keeps
    | with_reducible apply State.doorbellIgnored_keeps
    | with_reducible apply Keeps.fold
    | with_reducible apply Keeps.fold1
    | with_reducible apply Keeps.fold2
    | with_reducible apply Keeps.fold3
    | with_reducible apply Keeps.ite
    | split

theorem execPelSqTail_keeps (q : Fin 64) (tail : BitVec 12) (descs : List (Desc × Bool)) (s : State) : Lawful s (execPelSqTail q tail descs s) := by
  unfold execPelSqTail
  repeat' first
    | with_reducible apply Lawful.onDie
    | with_reducible apply Lawful.next
    | with_reducible assumption
    | with_reducible exact Keeps.refl _
    | intro _
    | with_reducible apply State.sqTail_keeps

theorem execPelCqHead_keeps (q : Fin 64) (head : BitVec 16) (s : State) : Lawful s (execPelCqHead q head s) := by
  unfold execPelCqHead
  repeat' first
    | with_reducible apply Lawful.onDie
    | with_reducible apply Lawful.next
    | with_reducible assumption
    | with_reducible exact Keeps.refl _
    | intro _
    | with_reducible apply State.setHostQ_keeps
    | with_reducible apply State.flushCq_keeps
    | with_reducible apply State.drainRing_keeps
    | with_reducible apply State.doorbellIgnored_keeps
    | with_reducible apply Keeps.ite

theorem execPelAqCtl_keeps (v : Word) (s : State) : Lawful s (execPelAqCtl v s) := by
  unfold execPelAqCtl
  repeat' first
    | with_reducible apply Lawful.onDie
    | with_reducible apply Lawful.next
    | with_reducible assumption
    | with_reducible exact Keeps.refl _
    | intro _
    | with_reducible apply State.setPreg_keeps
    | with_reducible apply State.setHostQ_keeps
    | with_reducible apply State.flushCq_keeps
    | with_reducible apply Keeps.ite

theorem execPelAcqBase_keeps (v : DWord) (s : State) : Lawful s (execPelAcqBase v s) := by
  unfold execPelAcqBase
  repeat' first
    | with_reducible apply Lawful.onDie
    | with_reducible apply Lawful.next
    | with_reducible assumption
    | with_reducible exact Keeps.refl _
    | intro _
    | with_reducible apply State.setPreg_keeps
    | with_reducible apply Keeps.ite

theorem execHostInterfaceReset_keeps (linkDown : Bool) (s : State) : Lawful s (execHostInterfaceReset linkDown s) := by
  unfold execHostInterfaceReset
  repeat' first
    | with_reducible apply Lawful.onDie
    | with_reducible apply Lawful.next
    | with_reducible assumption
    | with_reducible exact Keeps.refl _
    | intro _
    | with_reducible apply State.hostReset_keeps
    | with_reducible apply State.pcieDown_keeps
    | with_reducible apply Keeps.ite

theorem execPcieLinkUp_keeps (gen : Fin 6) (width : BitVec 8) (flit : Bool) (s : State) : Lawful s (execPcieLinkUp gen width flit s) := by
  unfold execPcieLinkUp
  repeat' first
    | with_reducible apply Lawful.onDie
    | with_reducible apply Lawful.next
    | with_reducible assumption
    | with_reducible exact Keeps.refl _
    | intro _
    | with_reducible apply State.setPreg_keeps
    | with_reducible apply State.flushCq_keeps
    | with_reducible apply State.unitEvent_keeps
    | with_reducible apply Keeps.fold
    | with_reducible apply Keeps.fold1
    | with_reducible apply Keeps.fold2
    | with_reducible apply Keeps.fold3
    | with_reducible apply Keeps.ite

theorem execNop_keeps (q : Fin 64) (s : State) : Lawful s (execNop q s) := by
  unfold execNop
  repeat' first
    | with_reducible apply Lawful.onDie
    | with_reducible apply Lawful.next
    | with_reducible apply Lawful.hostRun
    | with_reducible assumption
    | with_reducible exact Keeps.refl _
    | intro _
    | with_reducible apply State.hostFinish_keeps
    | with_reducible apply State.hostBad_keeps
    | with_reducible apply Keeps.ite

theorem State.readPlan_keeps {r0 : State} (s : State) (job : BitVec 12) (a : BoardAddr) (hs : Keeps r0 s) : Keeps r0 (State.readPlan s job a).2 := by
  unfold State.readPlan
  repeat' first
    | with_reducible assumption
    | with_reducible exact Keeps.refl _
    | intro _
    | with_reducible apply State.memRead_keeps
    | with_reducible apply Keeps.ite

theorem State.queueBind_keeps {r0 : State} (s : State) (q : Fin 64) (c : HostCmd) (hs : Keeps r0 s) : Keeps r0 (State.queueBind s q c) := by
  unfold State.queueBind
  repeat' first
    | with_reducible assumption
    | with_reducible exact Keeps.refl _
    | intro _
    | with_reducible apply State.setHostQ_keeps
    | with_reducible apply State.hostFinish_keeps
    | with_reducible apply State.hostBad_keeps
    | with_reducible apply Keeps.ite
    | split

theorem execQueueBind_keeps (q : Fin 64) (s : State) : Lawful s (execQueueBind q s) := by
  unfold execQueueBind
  repeat' first
    | with_reducible apply Lawful.onDie
    | with_reducible apply Lawful.next
    | with_reducible apply Lawful.hostRun
    | with_reducible assumption
    | with_reducible exact Keeps.refl _
    | intro _
    | with_reducible apply State.queueBind_keeps

theorem State.hostCopyRun_keeps {r0 : State} (s : State) (q : Fin 64) (c : HostCmd) (hs : Keeps r0 s) : Keeps r0 (State.hostCopyRun s q c) := by
  unfold State.hostCopyRun
  repeat' first
    | with_reducible assumption
    | with_reducible exact Keeps.refl _
    | intro _
    | with_reducible apply State.pokeHost_keeps
    | with_reducible apply State.memRead_keeps
    | with_reducible apply State.writeLocal_keeps
    | with_reducible apply State.readRegs_keeps
    | with_reducible apply State.writeRegs_keeps
    | with_reducible apply State.hostFinish_keeps
    | with_reducible apply State.hostBad_keeps
    | with_reducible apply Keeps.fold
    | with_reducible apply Keeps.fold1
    | with_reducible apply Keeps.fold2
    | with_reducible apply Keeps.fold3
    | with_reducible apply Keeps.ite

theorem State.hostCopy_keeps {r0 : State} (s : State) (q : Fin 64) (c : HostCmd) (hs : Keeps r0 s) : Keeps r0 (State.hostCopy s q c) := by
  unfold State.hostCopy
  repeat' first
    | with_reducible assumption
    | with_reducible exact Keeps.refl _
    | intro _
    | with_reducible apply State.countService_keeps
    | with_reducible apply State.hostFinish_keeps
    | with_reducible apply State.hostBad_keeps
    | with_reducible apply State.hostCopyRun_keeps
    | with_reducible apply Keeps.ite

theorem execHostCopy_keeps (q : Fin 64) (s : State) : Lawful s (execHostCopy q s) := by
  unfold execHostCopy
  repeat' first
    | with_reducible apply Lawful.onDie
    | with_reducible apply Lawful.next
    | with_reducible apply Lawful.hostRun
    | with_reducible assumption
    | with_reducible exact Keeps.refl _
    | intro _
    | with_reducible apply State.hostCopy_keeps

theorem State.attest_keeps {r0 : State} (s : State) (q : Fin 64) (c : HostCmd) (hs : Keeps r0 s) : Keeps r0 (State.attest s q c) := by
  unfold State.attest
  repeat' first
    | with_reducible assumption
    | with_reducible exact Keeps.refl _
    | intro _
    | with_reducible apply State.pokeHost_keeps
    | with_reducible apply State.hostFinish_keeps
    | with_reducible apply State.hostBad_keeps
    | with_reducible apply Keeps.ite

theorem execAttest_keeps (q : Fin 64) (s : State) : Lawful s (execAttest q s) := by
  unfold execAttest
  repeat' first
    | with_reducible apply Lawful.onDie
    | with_reducible apply Lawful.next
    | with_reducible apply Lawful.hostRun
    | with_reducible assumption
    | with_reducible exact Keeps.refl _
    | intro _
    | with_reducible apply State.attest_keeps

theorem State.imageWrite_keeps {r0 : State} (s : State) (q : Fin 64) (c : HostCmd) (hs : Keeps r0 s) : Keeps r0 (State.imageWrite s q c) := by
  unfold State.imageWrite
  repeat' first
    | with_reducible assumption
    | with_reducible exact Keeps.refl _
    | intro _
    | with_reducible apply State.flashWrite_keeps
    | with_reducible apply State.hostFinish_keeps
    | with_reducible apply State.hostBad_keeps
    | with_reducible apply Keeps.ite
    | split
    | dsimp only
    | with_reducible apply Keeps.upd

theorem execImageWrite_keeps (q : Fin 64) (s : State) : Lawful s (execImageWrite q s) := by
  unfold execImageWrite
  repeat' first
    | with_reducible apply Lawful.onDie
    | with_reducible apply Lawful.next
    | with_reducible apply Lawful.hostRun
    | with_reducible assumption
    | with_reducible exact Keeps.refl _
    | intro _
    | with_reducible apply State.imageWrite_keeps

theorem State.imageSelect_keeps {r0 : State} (s : State) (q : Fin 64) (bad : Bool) (c : HostCmd) (hs : Keeps r0 s) :
    Keeps r0 (State.imageSelect s q bad c) := by
  unfold State.imageSelect
  dsimp only
  have hw := State.writeBootRec_keeps s (hbyte c.desc 24) false 0 hs
  refine Keeps.ite (State.hostBad_keeps _ _ _ _ hs) (Keeps.ite (State.hostFinish_keeps _ _ _ _ hs) (Keeps.ite (State.hostFinish_keeps _ _ _ _ ?_)
    (State.hostFinish_keeps _ _ _ _ (State.writeBootRec_keeps _ _ _ _ hs))))
  exact ⟨hw.pending, hs.variant, hs.serial, Nat.le_trans hs.svn (Nat.le_max_left _ _), hw.mem, hw.host⟩

theorem execImageSelect_keeps (q : Fin 64) (bad : Bool) (s : State) : Lawful s (execImageSelect q bad s) := by
  unfold execImageSelect
  repeat' first
    | with_reducible apply Lawful.onDie
    | with_reducible apply Lawful.next
    | with_reducible apply Lawful.hostRun
    | with_reducible assumption
    | with_reducible exact Keeps.refl _
    | intro _
    | with_reducible apply State.imageSelect_keeps

theorem State.serviceDone_keeps {r0 : State} (s : State) (q : Fin 64) (c : HostCmd) (hs : Keeps r0 s) : Keeps r0 (State.serviceDone s q c) := by
  unfold State.serviceDone
  repeat' first
    | with_reducible assumption
    | with_reducible exact Keeps.refl _
    | intro _
    | with_reducible apply State.logPelbex_keeps
    | with_reducible apply State.hostFinish_keeps

theorem execServiceModuleWarmReset_keeps (q : Fin 64) (s : State) : Lawful s (execServiceModuleWarmReset q s) := by
  unfold execServiceModuleWarmReset
  repeat' first
    | with_reducible apply Lawful.onDie
    | with_reducible apply Lawful.next
    | with_reducible apply Lawful.hostRun
    | with_reducible assumption
    | with_reducible exact Keeps.refl _
    | intro _
    | with_reducible apply State.warmReset_keeps
    | with_reducible apply State.hostBad_keeps
    | with_reducible apply State.serviceDone_keeps
    | with_reducible apply Keeps.ite

theorem execClearEscalationCounters_keeps (q : Fin 64) (s : State) : Lawful s (execClearEscalationCounters q s) := by
  unfold execClearEscalationCounters
  repeat' first
    | with_reducible apply Lawful.onDie
    | with_reducible apply Lawful.next
    | with_reducible apply Lawful.hostRun
    | with_reducible assumption
    | with_reducible exact Keeps.refl _
    | intro _
    | with_reducible apply State.modReg_keeps
    | with_reducible apply State.hostBad_keeps
    | with_reducible apply State.serviceDone_keeps
    | with_reducible apply Keeps.fold
    | with_reducible apply Keeps.fold1
    | with_reducible apply Keeps.fold2
    | with_reducible apply Keeps.fold3
    | with_reducible apply Keeps.ite
    | split
    | dsimp only
    | with_reducible apply Keeps.upd

theorem execEraseLibrary_keeps (q : Fin 64) (s : State) : Lawful s (execEraseLibrary q s) := by
  unfold execEraseLibrary
  repeat' first
    | with_reducible apply Lawful.onDie
    | with_reducible apply Lawful.next
    | with_reducible apply Lawful.hostRun
    | with_reducible assumption
    | with_reducible exact Keeps.refl _
    | intro _
    | with_reducible apply State.publishLib_keeps
    | with_reducible apply State.hostBad_keeps
    | with_reducible apply State.serviceDone_keeps
    | with_reducible apply Keeps.ite
    | split
    | dsimp only
    | with_reducible apply Keeps.upd

theorem execServicePortReenable_keeps (q : Fin 64) (s : State) : Lawful s (execServicePortReenable q s) := by
  unfold execServicePortReenable
  repeat' first
    | with_reducible apply Lawful.onDie
    | with_reducible apply Lawful.next
    | with_reducible apply Lawful.hostRun
    | with_reducible assumption
    | with_reducible exact Keeps.refl _
    | intro _
    | with_reducible apply State.reenablePort_keeps
    | with_reducible apply State.hostBad_keeps
    | with_reducible apply State.serviceDone_keeps
    | with_reducible apply Keeps.ite

theorem execHbmRepairRun_keeps (q : Fin 64) (res : List Repair) (s : State) : Lawful s (execHbmRepairRun q res s) := by
  unfold execHbmRepairRun
  repeat' first
    | with_reducible apply Lawful.onDie
    | with_reducible apply Lawful.next
    | with_reducible apply Lawful.hostRun
    | with_reducible assumption
    | with_reducible exact Keeps.refl _
    | intro _
    | with_reducible apply State.repairDie_keeps
    | with_reducible apply State.hostBad_keeps
    | with_reducible apply State.serviceDone_keeps
    | with_reducible apply Keeps.fold
    | with_reducible apply Keeps.fold1
    | with_reducible apply Keeps.fold2
    | with_reducible apply Keeps.fold3
    | with_reducible apply Keeps.ite

theorem execServiceDomainReset_keeps (q : Fin 64) (s : State) : Lawful s (execServiceDomainReset q s) := by
  unfold execServiceDomainReset
  repeat' first
    | with_reducible apply Lawful.onDie
    | with_reducible apply Lawful.next
    | with_reducible apply Lawful.hostRun
    | with_reducible assumption
    | with_reducible exact Keeps.refl _
    | intro _
    | with_reducible apply State.resetCtl_keeps
    | with_reducible apply State.hostBad_keeps
    | with_reducible apply State.serviceDone_keeps
    | with_reducible apply Keeps.ite

theorem State.setOwner_keeps {r0 : State} (s : State) (i : Nat) (o : Option (BitVec 256) × Bool) (hs : Keeps r0 s) : Keeps r0 (State.setOwner s i o) :=
  ⟨hs.pending, hs.variant, hs.serial, hs.svn, hs.mem, hs.host⟩

theorem execOwnerKeyEnrolment_keeps (q : Fin 64) (s : State) : Lawful s (execOwnerKeyEnrolment q s) := by
  unfold execOwnerKeyEnrolment
  repeat' first
    | with_reducible apply Lawful.onDie
    | with_reducible apply Lawful.next
    | with_reducible apply Lawful.hostRun
    | with_reducible assumption
    | with_reducible exact Keeps.refl _
    | intro _
    | with_reducible apply State.hostBad_keeps
    | with_reducible apply State.serviceDone_keeps
    | with_reducible apply State.setOwner_keeps
    | with_reducible apply Keeps.ite

theorem execOwnerKeyRevocation_keeps (q : Fin 64) (s : State) : Lawful s (execOwnerKeyRevocation q s) := by
  unfold execOwnerKeyRevocation
  repeat' first
    | with_reducible apply Lawful.onDie
    | with_reducible apply Lawful.next
    | with_reducible apply Lawful.hostRun
    | with_reducible assumption
    | with_reducible exact Keeps.refl _
    | intro _
    | with_reducible apply State.hostBad_keeps
    | with_reducible apply State.serviceDone_keeps
    | with_reducible apply State.setOwner_keeps
    | with_reducible apply Keeps.ite

theorem execSelfCheck_keeps (ok : Bool) (s : State) : Lawful s (execSelfCheck ok s) := by
  unfold execSelfCheck
  repeat' first
    | with_reducible apply Lawful.onDie
    | with_reducible apply Lawful.next
    | with_reducible assumption
    | with_reducible exact Keeps.refl _
    | intro _
    | with_reducible apply State.warmReset_keeps
    | with_reducible apply Keeps.ite

theorem State.setJob_keeps {r0 : State} (s : State) (j : Job) (hs : Keeps r0 s) : Keeps r0 (State.setJob s j) := by
  unfold State.setJob
  repeat' first
    | with_reducible assumption
    | with_reducible exact Keeps.refl _
    | intro _
    | with_reducible apply Keeps.ite
    | split
    | dsimp only
    | with_reducible apply Keeps.upd

theorem State.setBil_keeps {r0 : State} (s : State) (j : Job) (d : DieIx) (i : Nat) (c : Nat) (hs : Keeps r0 s) : Keeps r0 (State.setBil s j d i c) := by
  unfold State.setBil
  repeat' first
    | with_reducible assumption
    | with_reducible exact Keeps.refl _
    | intro _
    | with_reducible apply State.bilCtxWrite_keeps
    | with_reducible apply State.rowCtxWrite_keeps

theorem State.setBils_keeps {r0 : State} (s : State) (j : Job) (d : DieIx) (hs : Keeps r0 s) : Keeps r0 (State.setBils s j d) := by
  unfold State.setBils
  repeat' first
    | with_reducible assumption
    | with_reducible exact Keeps.refl _
    | intro _
    | with_reducible apply State.setBil_keeps
    | with_reducible apply Keeps.fold

theorem State.assign_keeps {r0 : State} (s : State) (j : Job) (epoch : Nat) (d : DieIx) (hs : Keeps r0 s) : Keeps r0 (State.assign s j epoch d) := by
  unfold State.assign
  repeat' first
    | with_reducible assumption
    | with_reducible exact Keeps.refl _
    | intro _
    | with_reducible apply State.setReg_keeps
    | with_reducible apply State.setRf_keeps
    | with_reducible apply State.modCommit_keeps
    | with_reducible apply State.setBils_keeps

theorem State.jobCreate_keeps {r0 : State} (s : State) (q : Fin 64) (c : HostCmd) (hs : Keeps r0 s) : Keeps r0 (State.jobCreate s q c) := by
  unfold State.jobCreate
  repeat' first
    | with_reducible assumption
    | with_reducible exact Keeps.refl _
    | intro _
    | with_reducible apply State.hostFinish_keeps
    | with_reducible apply State.hostBad_keeps
    | with_reducible apply State.assign_keeps
    | with_reducible apply Keeps.fold
    | with_reducible apply Keeps.fold1
    | with_reducible apply Keeps.fold2
    | with_reducible apply Keeps.fold3
    | with_reducible apply Keeps.ite
    | split
    | dsimp only
    | with_reducible apply Keeps.upd

theorem execJobCreate_keeps (q : Fin 64) (s : State) : Lawful s (execJobCreate q s) := by
  unfold execJobCreate
  repeat' first
    | with_reducible apply Lawful.onDie
    | with_reducible apply Lawful.next
    | with_reducible apply Lawful.hostRun
    | with_reducible assumption
    | with_reducible exact Keeps.refl _
    | intro _
    | with_reducible apply State.jobCreate_keeps

theorem State.finishPlan_keeps {r0 : State} (s : State) (p : PlanRun) (sts : List Nat) (hs : Keeps r0 s) : Keeps r0 (State.finishPlan s p sts) := by
  unfold State.finishPlan
  repeat' first
    | with_reducible assumption
    | with_reducible exact Keeps.refl _
    | intro _
    | with_reducible apply State.hostFinish_keeps
    | with_reducible apply Keeps.ite
    | split
    | dsimp only

theorem State.writeNext_keeps {r0 : State} (s : State) (j : Job) (epoch : Nat) (change : Nat) (hs : Keeps r0 s) : Keeps r0 (State.writeNext s j epoch change) := by
  unfold State.writeNext
  repeat' first
    | with_reducible assumption
    | with_reducible exact Keeps.refl _
    | intro _
    | with_reducible apply State.colCtxWrite_keeps
    | with_reducible apply Keeps.fold

theorem State.jobStart_keeps {r0 : State} (s : State) (q : Fin 64) (c : HostCmd) (hs : Keeps r0 s) : Keeps r0 (State.jobStart s q c) := by
  unfold State.jobStart
  repeat' first
    | with_reducible assumption
    | with_reducible exact Keeps.refl _
    | intro _
    | with_reducible apply State.countService_keeps
    | with_reducible apply State.hostFinish_keeps
    | with_reducible apply State.hostBad_keeps
    | with_reducible apply State.readPlan_keeps
    | with_reducible apply State.setJob_keeps
    | with_reducible apply State.finishPlan_keeps
    | with_reducible apply State.writeNext_keeps
    | with_reducible apply Keeps.ite
    | split

theorem execJobStart_keeps (q : Fin 64) (s : State) : Lawful s (execJobStart q s) := by
  unfold execJobStart
  repeat' first
    | with_reducible apply Lawful.onDie
    | with_reducible apply Lawful.next
    | with_reducible assumption
    | with_reducible exact Keeps.refl _
    | intro _
    | with_reducible apply State.jobStart_keeps
    | with_reducible apply Keeps.ite
    | split

theorem State.repeatDuties_keeps {r0 : State} (s : State) (j : Job) (hs : Keeps r0 s) : Keeps r0 (State.repeatDuties s j) := by
  unfold State.repeatDuties
  repeat' first
    | with_reducible assumption
    | with_reducible exact Keeps.refl _
    | intro _
    | with_reducible apply State.setSeg_keeps
    | with_reducible apply State.leaveWins_keeps
    | with_reducible apply Keeps.fold

theorem State.fillScales_keeps {r0 : State} (s : State) (j : Job) (p : Plan) (hs : Keeps r0 s) : Keeps r0 (State.fillScales s j p) := by
  unfold State.fillScales
  repeat' first
    | with_reducible assumption
    | with_reducible exact Keeps.refl _
    | intro _
    | with_reducible apply State.setScaleEntry_keeps
    | with_reducible apply Keeps.fold

theorem State.newLayout_keeps {r0 : State} (s : State) (j : Job) (p : PlanRun) (hs : Keeps r0 s) : Keeps r0 (State.newLayout s j p).1 := by
  unfold State.newLayout
  repeat' first
    | with_reducible assumption
    | with_reducible exact Keeps.refl _
    | intro _
    | with_reducible apply State.setBils_keeps
    | with_reducible apply State.repeatDuties_keeps
    | with_reducible apply State.fillScales_keeps
    | with_reducible apply Keeps.fold

theorem State.armDie_keeps {r0 : State} (s : State) (j : Job) (es : List PlanEntry) (c : Nat) (d : DieIx) (hs : Keeps r0 s) : Keeps r0 (State.armDie s j es c d) := by
  unfold State.armDie
  repeat' first
    | with_reducible assumption
    | with_reducible exact Keeps.refl _
    | intro _
    | with_reducible apply State.setRf_keeps
    | with_reducible apply State.armCtx_keeps
    | with_reducible apply State.cmtStrokeWrite_keeps

theorem State.beginStep_keeps {r0 : State} (s : State) (j : Job) (p : PlanRun) (ds : List DieIx) (d0 : DieIx) (start : Nat) (hs : Keeps r0 s) : Keeps r0 (State.beginStep s j p ds d0 start) := by
  unfold State.beginStep
  repeat' first
    | with_reducible assumption
    | with_reducible exact Keeps.refl _
    | intro _
    | with_reducible apply State.push_keeps
    | with_reducible apply State.readPlan_keeps
    | with_reducible apply State.setJob_keeps
    | with_reducible apply State.armDie_keeps
    | with_reducible apply Keeps.fold
    | with_reducible apply Keeps.fold1
    | with_reducible apply Keeps.fold2
    | with_reducible apply Keeps.fold3
    | with_reducible apply Keeps.ite
    | split

theorem State.tryBegin_keeps {r0 : State} (s : State) (j : Job) (p : PlanRun) (after : Option Nat) (hs : Keeps r0 s) : Keeps r0 (State.tryBegin s j p after) := by
  unfold State.tryBegin
  repeat' first
    | with_reducible assumption
    | with_reducible exact Keeps.refl _
    | intro _
    | with_reducible apply State.newLayout_keeps
    | with_reducible apply State.beginStep_keeps
    | with_reducible apply Keeps.ite
    | split
    | dsimp only

theorem State.nextStep_keeps {r0 : State} (s : State) (j : Job) (p : PlanRun) (after : Option Nat) (hs : Keeps r0 s) : Keeps r0 (State.nextStep s j p after) := by
  unfold State.nextStep
  repeat' first
    | with_reducible assumption
    | with_reducible exact Keeps.refl _
    | intro _
    | with_reducible apply State.setJob_keeps
    | with_reducible apply State.finishPlan_keeps
    | with_reducible apply State.tryBegin_keeps
    | with_reducible apply Keeps.ite
    | split

theorem State.planStep_keeps {r0 : State} (s : State) (j : Job) (p : PlanRun) (hs : Keeps r0 s) : Keeps r0 (State.planStep s j p) := by
  unfold State.planStep
  repeat' first
    | with_reducible assumption
    | with_reducible exact Keeps.refl _
    | intro _
    | with_reducible apply State.repeatDuties_keeps
    | with_reducible apply State.nextStep_keeps
    | with_reducible apply Keeps.ite
    | split

theorem execPlanStep_keeps (job : BitVec 12) (s : State) : Lawful s (execPlanStep job s) := by
  unfold execPlanStep
  repeat' first
    | with_reducible apply Lawful.onDie
    | with_reducible apply Lawful.next
    | with_reducible assumption
    | with_reducible exact Keeps.refl _
    | intro _
    | with_reducible apply State.planStep_keeps
    | with_reducible apply Keeps.ite
    | split

theorem State.jobResume_keeps {r0 : State} (s : State) (q : Fin 64) (c : HostCmd) (hs : Keeps r0 s) : Keeps r0 (State.jobResume s q c) := by
  unfold State.jobResume
  repeat' first
    | with_reducible assumption
    | with_reducible exact Keeps.refl _
    | intro _
    | with_reducible apply State.setRf_keeps
    | with_reducible apply State.setCmtState_keeps
    | with_reducible apply State.hostFinish_keeps
    | with_reducible apply State.hostBad_keeps
    | with_reducible apply State.setJob_keeps
    | with_reducible apply State.repeatDuties_keeps
    | with_reducible apply Keeps.fold
    | with_reducible apply Keeps.fold1
    | with_reducible apply Keeps.fold2
    | with_reducible apply Keeps.fold3
    | with_reducible apply Keeps.ite
    | split

theorem execJobResume_keeps (q : Fin 64) (s : State) : Lawful s (execJobResume q s) := by
  unfold execJobResume
  repeat' first
    | with_reducible apply Lawful.onDie
    | with_reducible apply Lawful.next
    | with_reducible apply Lawful.hostRun
    | with_reducible assumption
    | with_reducible exact Keeps.refl _
    | intro _
    | with_reducible apply State.jobResume_keeps

theorem State.unassign_keeps {r0 : State} (s : State) (j : Job) (d : DieIx) (hs : Keeps r0 s) : Keeps r0 (State.unassign s j d) := by
  unfold State.unassign
  repeat' first
    | with_reducible assumption
    | with_reducible exact Keeps.refl _
    | intro _
    | with_reducible apply State.modDie_keeps
    | with_reducible apply State.setReg_keeps
    | with_reducible apply State.modCommit_keeps
    | with_reducible apply State.leaveWins_keeps
    | with_reducible apply State.freeSlotOf_keeps
    | with_reducible apply State.cruStop_keeps
    | with_reducible apply State.abortQueue_keeps
    | with_reducible apply State.abortStep_keeps
    | with_reducible apply Keeps.fold
    | with_reducible apply Keeps.fold1
    | with_reducible apply Keeps.fold2
    | with_reducible apply Keeps.fold3
    | with_reducible apply Keeps.ite

theorem State.jobTeardown_keeps {r0 : State} (s : State) (q : Fin 64) (c : HostCmd) (hs : Keeps r0 s) : Keeps r0 (State.jobTeardown s q c) := by
  unfold State.jobTeardown
  repeat' first
    | with_reducible assumption
    | with_reducible exact Keeps.refl _
    | intro _
    | with_reducible apply State.hostFinish_keeps
    | with_reducible apply State.hostBad_keeps
    | with_reducible apply State.finishPlan_keeps
    | with_reducible apply State.unassign_keeps
    | with_reducible apply Keeps.fold
    | with_reducible apply Keeps.fold1
    | with_reducible apply Keeps.fold2
    | with_reducible apply Keeps.fold3
    | with_reducible apply Keeps.ite
    | split
    | dsimp only
    | with_reducible apply Keeps.upd

theorem execJobTeardown_keeps (q : Fin 64) (s : State) : Lawful s (execJobTeardown q s) := by
  unfold execJobTeardown
  repeat' first
    | with_reducible apply Lawful.onDie
    | with_reducible apply Lawful.next
    | with_reducible apply Lawful.hostRun
    | with_reducible assumption
    | with_reducible exact Keeps.refl _
    | intro _
    | with_reducible apply State.jobTeardown_keeps

end Sys2Proof.Machine
end

