-- ==== Sys2Proof/Laws/State.lean ====
section
/-! SUPPORT. What each named update of the state leaves alone, one lemma per field, and what it sets. -/

namespace Sys2Proof.Machine

@[simp] theorem State.setDie_mem (s : State) (d : DieIx) (x : Die) : (s.setDie d x).mem = s.mem := rfl
@[simp] theorem State.setDie_host (s : State) (d : DieIx) (x : Die) : (s.setDie d x).host = s.host := rfl
@[simp] theorem State.setDie_pelRegs (s : State) (d : DieIx) (x : Die) : (s.setDie d x).pelRegs = s.pelRegs := rfl
@[simp] theorem State.setDie_fuses (s : State) (d : DieIx) (x : Die) : (s.setDie d x).fuses = s.fuses := rfl
@[simp] theorem State.setDie_irqs (s : State) (d : DieIx) (x : Die) : (s.setDie d x).irqs = s.irqs := rfl
@[simp] theorem State.setDie_draws (s : State) (d : DieIx) (x : Die) : (s.setDie d x).draws = s.draws := rfl
@[simp] theorem State.setDie_settings (s : State) (d : DieIx) (x : Die) : (s.setDie d x).settings = s.settings := rfl
@[simp] theorem State.setDie_board (s : State) (d : DieIx) (x : Die) : (s.setDie d x).board = s.board := rfl
@[simp] theorem State.setDie_flash (s : State) (d : DieIx) (x : Die) : (s.setDie d x).flash = s.flash := rfl
@[simp] theorem State.setDie_jobs (s : State) (d : DieIx) (x : Die) : (s.setDie d x).jobs = s.jobs := rfl
@[simp] theorem State.setDie_power (s : State) (d : DieIx) (x : Die) : (s.setDie d x).power = s.power := rfl
@[simp] theorem State.setDie_hostQs (s : State) (d : DieIx) (x : Die) : (s.setDie d x).hostQs = s.hostQs := rfl
@[simp] theorem State.setDie_eventSeq (s : State) (d : DieIx) (x : Die) : (s.setDie d x).eventSeq = s.eventSeq := rfl
@[simp] theorem State.setDie_msix (s : State) (d : DieIx) (x : Die) : (s.setDie d x).msix = s.msix := rfl
@[simp] theorem State.setDie_boot (s : State) (d : DieIx) (x : Die) : (s.setDie d x).boot = s.boot := rfl
@[simp] theorem State.setDie_warm (s : State) (d : DieIx) (x : Die) : (s.setDie d x).warm = s.warm := rfl
@[simp] theorem State.setDie_pelLog (s : State) (d : DieIx) (x : Die) : (s.setDie d x).pelLog = s.pelLog := rfl
@[simp] theorem State.setDie_pelCapture (s : State) (d : DieIx) (x : Die) : (s.setDie d x).pelCapture = s.pelCapture := rfl
@[simp] theorem State.setDie_collected (s : State) (d : DieIx) (x : Die) : (s.setDie d x).collected = s.collected := rfl
@[simp] theorem State.setDie_pending (s : State) (d : DieIx) (x : Die) : (s.setDie d x).pending = s.pending := rfl
@[simp] theorem State.modDie_mem (s : State) (d : DieIx) (f : Die → Die) : (s.modDie d f).mem = s.mem := rfl
@[simp] theorem State.modDie_host (s : State) (d : DieIx) (f : Die → Die) : (s.modDie d f).host = s.host := rfl
@[simp] theorem State.modDie_pelRegs (s : State) (d : DieIx) (f : Die → Die) : (s.modDie d f).pelRegs = s.pelRegs := rfl
@[simp] theorem State.modDie_fuses (s : State) (d : DieIx) (f : Die → Die) : (s.modDie d f).fuses = s.fuses := rfl
@[simp] theorem State.modDie_irqs (s : State) (d : DieIx) (f : Die → Die) : (s.modDie d f).irqs = s.irqs := rfl
@[simp] theorem State.modDie_draws (s : State) (d : DieIx) (f : Die → Die) : (s.modDie d f).draws = s.draws := rfl
@[simp] theorem State.modDie_settings (s : State) (d : DieIx) (f : Die → Die) : (s.modDie d f).settings = s.settings := rfl
@[simp] theorem State.modDie_board (s : State) (d : DieIx) (f : Die → Die) : (s.modDie d f).board = s.board := rfl
@[simp] theorem State.modDie_flash (s : State) (d : DieIx) (f : Die → Die) : (s.modDie d f).flash = s.flash := rfl
@[simp] theorem State.modDie_jobs (s : State) (d : DieIx) (f : Die → Die) : (s.modDie d f).jobs = s.jobs := rfl
@[simp] theorem State.modDie_power (s : State) (d : DieIx) (f : Die → Die) : (s.modDie d f).power = s.power := rfl
@[simp] theorem State.modDie_hostQs (s : State) (d : DieIx) (f : Die → Die) : (s.modDie d f).hostQs = s.hostQs := rfl
@[simp] theorem State.modDie_eventSeq (s : State) (d : DieIx) (f : Die → Die) : (s.modDie d f).eventSeq = s.eventSeq := rfl
@[simp] theorem State.modDie_msix (s : State) (d : DieIx) (f : Die → Die) : (s.modDie d f).msix = s.msix := rfl
@[simp] theorem State.modDie_boot (s : State) (d : DieIx) (f : Die → Die) : (s.modDie d f).boot = s.boot := rfl
@[simp] theorem State.modDie_warm (s : State) (d : DieIx) (f : Die → Die) : (s.modDie d f).warm = s.warm := rfl
@[simp] theorem State.modDie_pelLog (s : State) (d : DieIx) (f : Die → Die) : (s.modDie d f).pelLog = s.pelLog := rfl
@[simp] theorem State.modDie_pelCapture (s : State) (d : DieIx) (f : Die → Die) : (s.modDie d f).pelCapture = s.pelCapture := rfl
@[simp] theorem State.modDie_collected (s : State) (d : DieIx) (f : Die → Die) : (s.modDie d f).collected = s.collected := rfl
@[simp] theorem State.modDie_pending (s : State) (d : DieIx) (f : Die → Die) : (s.modDie d f).pending = s.pending := rfl
@[simp] theorem State.setCore_mem (s : State) (d : DieIx) (c : CoreIx) (y : Core) : (s.setCore d c y).mem = s.mem := rfl
@[simp] theorem State.setCore_host (s : State) (d : DieIx) (c : CoreIx) (y : Core) : (s.setCore d c y).host = s.host := rfl
@[simp] theorem State.setCore_pelRegs (s : State) (d : DieIx) (c : CoreIx) (y : Core) : (s.setCore d c y).pelRegs = s.pelRegs := rfl
@[simp] theorem State.setCore_fuses (s : State) (d : DieIx) (c : CoreIx) (y : Core) : (s.setCore d c y).fuses = s.fuses := rfl
@[simp] theorem State.setCore_irqs (s : State) (d : DieIx) (c : CoreIx) (y : Core) : (s.setCore d c y).irqs = s.irqs := rfl
@[simp] theorem State.setCore_draws (s : State) (d : DieIx) (c : CoreIx) (y : Core) : (s.setCore d c y).draws = s.draws := rfl
@[simp] theorem State.setCore_settings (s : State) (d : DieIx) (c : CoreIx) (y : Core) : (s.setCore d c y).settings = s.settings := rfl
@[simp] theorem State.setCore_board (s : State) (d : DieIx) (c : CoreIx) (y : Core) : (s.setCore d c y).board = s.board := rfl
@[simp] theorem State.setCore_flash (s : State) (d : DieIx) (c : CoreIx) (y : Core) : (s.setCore d c y).flash = s.flash := rfl
@[simp] theorem State.setCore_jobs (s : State) (d : DieIx) (c : CoreIx) (y : Core) : (s.setCore d c y).jobs = s.jobs := rfl
@[simp] theorem State.setCore_power (s : State) (d : DieIx) (c : CoreIx) (y : Core) : (s.setCore d c y).power = s.power := rfl
@[simp] theorem State.setCore_hostQs (s : State) (d : DieIx) (c : CoreIx) (y : Core) : (s.setCore d c y).hostQs = s.hostQs := rfl
@[simp] theorem State.setCore_eventSeq (s : State) (d : DieIx) (c : CoreIx) (y : Core) : (s.setCore d c y).eventSeq = s.eventSeq := rfl
@[simp] theorem State.setCore_msix (s : State) (d : DieIx) (c : CoreIx) (y : Core) : (s.setCore d c y).msix = s.msix := rfl
@[simp] theorem State.setCore_boot (s : State) (d : DieIx) (c : CoreIx) (y : Core) : (s.setCore d c y).boot = s.boot := rfl
@[simp] theorem State.setCore_warm (s : State) (d : DieIx) (c : CoreIx) (y : Core) : (s.setCore d c y).warm = s.warm := rfl
@[simp] theorem State.setCore_pelLog (s : State) (d : DieIx) (c : CoreIx) (y : Core) : (s.setCore d c y).pelLog = s.pelLog := rfl
@[simp] theorem State.setCore_pelCapture (s : State) (d : DieIx) (c : CoreIx) (y : Core) : (s.setCore d c y).pelCapture = s.pelCapture := rfl
@[simp] theorem State.setCore_collected (s : State) (d : DieIx) (c : CoreIx) (y : Core) : (s.setCore d c y).collected = s.collected := rfl
@[simp] theorem State.setCore_pending (s : State) (d : DieIx) (c : CoreIx) (y : Core) : (s.setCore d c y).pending = s.pending := rfl
@[simp] theorem State.modCore_mem (s : State) (d : DieIx) (c : CoreIx) (f : Core → Core) : (s.modCore d c f).mem = s.mem := rfl
@[simp] theorem State.modCore_host (s : State) (d : DieIx) (c : CoreIx) (f : Core → Core) : (s.modCore d c f).host = s.host := rfl
@[simp] theorem State.modCore_pelRegs (s : State) (d : DieIx) (c : CoreIx) (f : Core → Core) : (s.modCore d c f).pelRegs = s.pelRegs := rfl
@[simp] theorem State.modCore_fuses (s : State) (d : DieIx) (c : CoreIx) (f : Core → Core) : (s.modCore d c f).fuses = s.fuses := rfl
@[simp] theorem State.modCore_irqs (s : State) (d : DieIx) (c : CoreIx) (f : Core → Core) : (s.modCore d c f).irqs = s.irqs := rfl
@[simp] theorem State.modCore_draws (s : State) (d : DieIx) (c : CoreIx) (f : Core → Core) : (s.modCore d c f).draws = s.draws := rfl
@[simp] theorem State.modCore_settings (s : State) (d : DieIx) (c : CoreIx) (f : Core → Core) : (s.modCore d c f).settings = s.settings := rfl
@[simp] theorem State.modCore_board (s : State) (d : DieIx) (c : CoreIx) (f : Core → Core) : (s.modCore d c f).board = s.board := rfl
@[simp] theorem State.modCore_flash (s : State) (d : DieIx) (c : CoreIx) (f : Core → Core) : (s.modCore d c f).flash = s.flash := rfl
@[simp] theorem State.modCore_jobs (s : State) (d : DieIx) (c : CoreIx) (f : Core → Core) : (s.modCore d c f).jobs = s.jobs := rfl
@[simp] theorem State.modCore_power (s : State) (d : DieIx) (c : CoreIx) (f : Core → Core) : (s.modCore d c f).power = s.power := rfl
@[simp] theorem State.modCore_hostQs (s : State) (d : DieIx) (c : CoreIx) (f : Core → Core) : (s.modCore d c f).hostQs = s.hostQs := rfl
@[simp] theorem State.modCore_eventSeq (s : State) (d : DieIx) (c : CoreIx) (f : Core → Core) : (s.modCore d c f).eventSeq = s.eventSeq := rfl
@[simp] theorem State.modCore_msix (s : State) (d : DieIx) (c : CoreIx) (f : Core → Core) : (s.modCore d c f).msix = s.msix := rfl
@[simp] theorem State.modCore_boot (s : State) (d : DieIx) (c : CoreIx) (f : Core → Core) : (s.modCore d c f).boot = s.boot := rfl
@[simp] theorem State.modCore_warm (s : State) (d : DieIx) (c : CoreIx) (f : Core → Core) : (s.modCore d c f).warm = s.warm := rfl
@[simp] theorem State.modCore_pelLog (s : State) (d : DieIx) (c : CoreIx) (f : Core → Core) : (s.modCore d c f).pelLog = s.pelLog := rfl
@[simp] theorem State.modCore_pelCapture (s : State) (d : DieIx) (c : CoreIx) (f : Core → Core) : (s.modCore d c f).pelCapture = s.pelCapture := rfl
@[simp] theorem State.modCore_collected (s : State) (d : DieIx) (c : CoreIx) (f : Core → Core) : (s.modCore d c f).collected = s.collected := rfl
@[simp] theorem State.modCore_pending (s : State) (d : DieIx) (c : CoreIx) (f : Core → Core) : (s.modCore d c f).pending = s.pending := rfl
@[simp] theorem State.setReg_mem (s : State) (d : DieIx) (off : Nat) (v : Word) : (s.setReg d off v).mem = s.mem := rfl
@[simp] theorem State.setReg_host (s : State) (d : DieIx) (off : Nat) (v : Word) : (s.setReg d off v).host = s.host := rfl
@[simp] theorem State.setReg_pelRegs (s : State) (d : DieIx) (off : Nat) (v : Word) : (s.setReg d off v).pelRegs = s.pelRegs := rfl
@[simp] theorem State.setReg_fuses (s : State) (d : DieIx) (off : Nat) (v : Word) : (s.setReg d off v).fuses = s.fuses := rfl
@[simp] theorem State.setReg_irqs (s : State) (d : DieIx) (off : Nat) (v : Word) : (s.setReg d off v).irqs = s.irqs := rfl
@[simp] theorem State.setReg_draws (s : State) (d : DieIx) (off : Nat) (v : Word) : (s.setReg d off v).draws = s.draws := rfl
@[simp] theorem State.setReg_settings (s : State) (d : DieIx) (off : Nat) (v : Word) : (s.setReg d off v).settings = s.settings := rfl
@[simp] theorem State.setReg_board (s : State) (d : DieIx) (off : Nat) (v : Word) : (s.setReg d off v).board = s.board := rfl
@[simp] theorem State.setReg_flash (s : State) (d : DieIx) (off : Nat) (v : Word) : (s.setReg d off v).flash = s.flash := rfl
@[simp] theorem State.setReg_jobs (s : State) (d : DieIx) (off : Nat) (v : Word) : (s.setReg d off v).jobs = s.jobs := rfl
@[simp] theorem State.setReg_power (s : State) (d : DieIx) (off : Nat) (v : Word) : (s.setReg d off v).power = s.power := rfl
@[simp] theorem State.setReg_hostQs (s : State) (d : DieIx) (off : Nat) (v : Word) : (s.setReg d off v).hostQs = s.hostQs := rfl
@[simp] theorem State.setReg_eventSeq (s : State) (d : DieIx) (off : Nat) (v : Word) : (s.setReg d off v).eventSeq = s.eventSeq := rfl
@[simp] theorem State.setReg_msix (s : State) (d : DieIx) (off : Nat) (v : Word) : (s.setReg d off v).msix = s.msix := rfl
@[simp] theorem State.setReg_boot (s : State) (d : DieIx) (off : Nat) (v : Word) : (s.setReg d off v).boot = s.boot := rfl
@[simp] theorem State.setReg_warm (s : State) (d : DieIx) (off : Nat) (v : Word) : (s.setReg d off v).warm = s.warm := rfl
@[simp] theorem State.setReg_pelLog (s : State) (d : DieIx) (off : Nat) (v : Word) : (s.setReg d off v).pelLog = s.pelLog := rfl
@[simp] theorem State.setReg_pelCapture (s : State) (d : DieIx) (off : Nat) (v : Word) : (s.setReg d off v).pelCapture = s.pelCapture := rfl
@[simp] theorem State.setReg_collected (s : State) (d : DieIx) (off : Nat) (v : Word) : (s.setReg d off v).collected = s.collected := rfl
@[simp] theorem State.setReg_pending (s : State) (d : DieIx) (off : Nat) (v : Word) : (s.setReg d off v).pending = s.pending := rfl
@[simp] theorem State.modReg_mem (s : State) (d : DieIx) (off : Nat) (f : Word → Word) : (s.modReg d off f).mem = s.mem := rfl
@[simp] theorem State.modReg_host (s : State) (d : DieIx) (off : Nat) (f : Word → Word) : (s.modReg d off f).host = s.host := rfl
@[simp] theorem State.modReg_pelRegs (s : State) (d : DieIx) (off : Nat) (f : Word → Word) : (s.modReg d off f).pelRegs = s.pelRegs := rfl
@[simp] theorem State.modReg_fuses (s : State) (d : DieIx) (off : Nat) (f : Word → Word) : (s.modReg d off f).fuses = s.fuses := rfl
@[simp] theorem State.modReg_irqs (s : State) (d : DieIx) (off : Nat) (f : Word → Word) : (s.modReg d off f).irqs = s.irqs := rfl
@[simp] theorem State.modReg_draws (s : State) (d : DieIx) (off : Nat) (f : Word → Word) : (s.modReg d off f).draws = s.draws := rfl
@[simp] theorem State.modReg_settings (s : State) (d : DieIx) (off : Nat) (f : Word → Word) : (s.modReg d off f).settings = s.settings := rfl
@[simp] theorem State.modReg_board (s : State) (d : DieIx) (off : Nat) (f : Word → Word) : (s.modReg d off f).board = s.board := rfl
@[simp] theorem State.modReg_flash (s : State) (d : DieIx) (off : Nat) (f : Word → Word) : (s.modReg d off f).flash = s.flash := rfl
@[simp] theorem State.modReg_jobs (s : State) (d : DieIx) (off : Nat) (f : Word → Word) : (s.modReg d off f).jobs = s.jobs := rfl
@[simp] theorem State.modReg_power (s : State) (d : DieIx) (off : Nat) (f : Word → Word) : (s.modReg d off f).power = s.power := rfl
@[simp] theorem State.modReg_hostQs (s : State) (d : DieIx) (off : Nat) (f : Word → Word) : (s.modReg d off f).hostQs = s.hostQs := rfl
@[simp] theorem State.modReg_eventSeq (s : State) (d : DieIx) (off : Nat) (f : Word → Word) : (s.modReg d off f).eventSeq = s.eventSeq := rfl
@[simp] theorem State.modReg_msix (s : State) (d : DieIx) (off : Nat) (f : Word → Word) : (s.modReg d off f).msix = s.msix := rfl
@[simp] theorem State.modReg_boot (s : State) (d : DieIx) (off : Nat) (f : Word → Word) : (s.modReg d off f).boot = s.boot := rfl
@[simp] theorem State.modReg_warm (s : State) (d : DieIx) (off : Nat) (f : Word → Word) : (s.modReg d off f).warm = s.warm := rfl
@[simp] theorem State.modReg_pelLog (s : State) (d : DieIx) (off : Nat) (f : Word → Word) : (s.modReg d off f).pelLog = s.pelLog := rfl
@[simp] theorem State.modReg_pelCapture (s : State) (d : DieIx) (off : Nat) (f : Word → Word) : (s.modReg d off f).pelCapture = s.pelCapture := rfl
@[simp] theorem State.modReg_collected (s : State) (d : DieIx) (off : Nat) (f : Word → Word) : (s.modReg d off f).collected = s.collected := rfl
@[simp] theorem State.modReg_pending (s : State) (d : DieIx) (off : Nat) (f : Word → Word) : (s.modReg d off f).pending = s.pending := rfl
@[simp] theorem State.setRf_mem (s : State) (d : DieIx) (off lo len v : Nat) : (s.setRf d off lo len v).mem = s.mem := rfl
@[simp] theorem State.setRf_host (s : State) (d : DieIx) (off lo len v : Nat) : (s.setRf d off lo len v).host = s.host := rfl
@[simp] theorem State.setRf_pelRegs (s : State) (d : DieIx) (off lo len v : Nat) : (s.setRf d off lo len v).pelRegs = s.pelRegs := rfl
@[simp] theorem State.setRf_fuses (s : State) (d : DieIx) (off lo len v : Nat) : (s.setRf d off lo len v).fuses = s.fuses := rfl
@[simp] theorem State.setRf_irqs (s : State) (d : DieIx) (off lo len v : Nat) : (s.setRf d off lo len v).irqs = s.irqs := rfl
@[simp] theorem State.setRf_draws (s : State) (d : DieIx) (off lo len v : Nat) : (s.setRf d off lo len v).draws = s.draws := rfl
@[simp] theorem State.setRf_settings (s : State) (d : DieIx) (off lo len v : Nat) : (s.setRf d off lo len v).settings = s.settings := rfl
@[simp] theorem State.setRf_board (s : State) (d : DieIx) (off lo len v : Nat) : (s.setRf d off lo len v).board = s.board := rfl
@[simp] theorem State.setRf_flash (s : State) (d : DieIx) (off lo len v : Nat) : (s.setRf d off lo len v).flash = s.flash := rfl
@[simp] theorem State.setRf_jobs (s : State) (d : DieIx) (off lo len v : Nat) : (s.setRf d off lo len v).jobs = s.jobs := rfl
@[simp] theorem State.setRf_power (s : State) (d : DieIx) (off lo len v : Nat) : (s.setRf d off lo len v).power = s.power := rfl
@[simp] theorem State.setRf_hostQs (s : State) (d : DieIx) (off lo len v : Nat) : (s.setRf d off lo len v).hostQs = s.hostQs := rfl
@[simp] theorem State.setRf_eventSeq (s : State) (d : DieIx) (off lo len v : Nat) : (s.setRf d off lo len v).eventSeq = s.eventSeq := rfl
@[simp] theorem State.setRf_msix (s : State) (d : DieIx) (off lo len v : Nat) : (s.setRf d off lo len v).msix = s.msix := rfl
@[simp] theorem State.setRf_boot (s : State) (d : DieIx) (off lo len v : Nat) : (s.setRf d off lo len v).boot = s.boot := rfl
@[simp] theorem State.setRf_warm (s : State) (d : DieIx) (off lo len v : Nat) : (s.setRf d off lo len v).warm = s.warm := rfl
@[simp] theorem State.setRf_pelLog (s : State) (d : DieIx) (off lo len v : Nat) : (s.setRf d off lo len v).pelLog = s.pelLog := rfl
@[simp] theorem State.setRf_pelCapture (s : State) (d : DieIx) (off lo len v : Nat) : (s.setRf d off lo len v).pelCapture = s.pelCapture := rfl
@[simp] theorem State.setRf_collected (s : State) (d : DieIx) (off lo len v : Nat) : (s.setRf d off lo len v).collected = s.collected := rfl
@[simp] theorem State.setRf_pending (s : State) (d : DieIx) (off lo len v : Nat) : (s.setRf d off lo len v).pending = s.pending := rfl
@[simp] theorem State.setReg64_mem (s : State) (d : DieIx) (off : Nat) (v : DWord) : (s.setReg64 d off v).mem = s.mem := rfl
@[simp] theorem State.setReg64_host (s : State) (d : DieIx) (off : Nat) (v : DWord) : (s.setReg64 d off v).host = s.host := rfl
@[simp] theorem State.setReg64_pelRegs (s : State) (d : DieIx) (off : Nat) (v : DWord) : (s.setReg64 d off v).pelRegs = s.pelRegs := rfl
@[simp] theorem State.setReg64_fuses (s : State) (d : DieIx) (off : Nat) (v : DWord) : (s.setReg64 d off v).fuses = s.fuses := rfl
@[simp] theorem State.setReg64_irqs (s : State) (d : DieIx) (off : Nat) (v : DWord) : (s.setReg64 d off v).irqs = s.irqs := rfl
@[simp] theorem State.setReg64_draws (s : State) (d : DieIx) (off : Nat) (v : DWord) : (s.setReg64 d off v).draws = s.draws := rfl
@[simp] theorem State.setReg64_settings (s : State) (d : DieIx) (off : Nat) (v : DWord) : (s.setReg64 d off v).settings = s.settings := rfl
@[simp] theorem State.setReg64_board (s : State) (d : DieIx) (off : Nat) (v : DWord) : (s.setReg64 d off v).board = s.board := rfl
@[simp] theorem State.setReg64_flash (s : State) (d : DieIx) (off : Nat) (v : DWord) : (s.setReg64 d off v).flash = s.flash := rfl
@[simp] theorem State.setReg64_jobs (s : State) (d : DieIx) (off : Nat) (v : DWord) : (s.setReg64 d off v).jobs = s.jobs := rfl
@[simp] theorem State.setReg64_power (s : State) (d : DieIx) (off : Nat) (v : DWord) : (s.setReg64 d off v).power = s.power := rfl
@[simp] theorem State.setReg64_hostQs (s : State) (d : DieIx) (off : Nat) (v : DWord) : (s.setReg64 d off v).hostQs = s.hostQs := rfl
@[simp] theorem State.setReg64_eventSeq (s : State) (d : DieIx) (off : Nat) (v : DWord) : (s.setReg64 d off v).eventSeq = s.eventSeq := rfl
@[simp] theorem State.setReg64_msix (s : State) (d : DieIx) (off : Nat) (v : DWord) : (s.setReg64 d off v).msix = s.msix := rfl
@[simp] theorem State.setReg64_boot (s : State) (d : DieIx) (off : Nat) (v : DWord) : (s.setReg64 d off v).boot = s.boot := rfl
@[simp] theorem State.setReg64_warm (s : State) (d : DieIx) (off : Nat) (v : DWord) : (s.setReg64 d off v).warm = s.warm := rfl
@[simp] theorem State.setReg64_pelLog (s : State) (d : DieIx) (off : Nat) (v : DWord) : (s.setReg64 d off v).pelLog = s.pelLog := rfl
@[simp] theorem State.setReg64_pelCapture (s : State) (d : DieIx) (off : Nat) (v : DWord) : (s.setReg64 d off v).pelCapture = s.pelCapture := rfl
@[simp] theorem State.setReg64_collected (s : State) (d : DieIx) (off : Nat) (v : DWord) : (s.setReg64 d off v).collected = s.collected := rfl
@[simp] theorem State.setReg64_pending (s : State) (d : DieIx) (off : Nat) (v : DWord) : (s.setReg64 d off v).pending = s.pending := rfl
@[simp] theorem State.addSat_mem (s : State) (d : DieIx) (off lo len k : Nat) : (s.addSat d off lo len k).mem = s.mem := rfl
@[simp] theorem State.addSat_host (s : State) (d : DieIx) (off lo len k : Nat) : (s.addSat d off lo len k).host = s.host := rfl
@[simp] theorem State.addSat_pelRegs (s : State) (d : DieIx) (off lo len k : Nat) : (s.addSat d off lo len k).pelRegs = s.pelRegs := rfl
@[simp] theorem State.addSat_fuses (s : State) (d : DieIx) (off lo len k : Nat) : (s.addSat d off lo len k).fuses = s.fuses := rfl
@[simp] theorem State.addSat_irqs (s : State) (d : DieIx) (off lo len k : Nat) : (s.addSat d off lo len k).irqs = s.irqs := rfl
@[simp] theorem State.addSat_draws (s : State) (d : DieIx) (off lo len k : Nat) : (s.addSat d off lo len k).draws = s.draws := rfl
@[simp] theorem State.addSat_settings (s : State) (d : DieIx) (off lo len k : Nat) : (s.addSat d off lo len k).settings = s.settings := rfl
@[simp] theorem State.addSat_board (s : State) (d : DieIx) (off lo len k : Nat) : (s.addSat d off lo len k).board = s.board := rfl
@[simp] theorem State.addSat_flash (s : State) (d : DieIx) (off lo len k : Nat) : (s.addSat d off lo len k).flash = s.flash := rfl
@[simp] theorem State.addSat_jobs (s : State) (d : DieIx) (off lo len k : Nat) : (s.addSat d off lo len k).jobs = s.jobs := rfl
@[simp] theorem State.addSat_power (s : State) (d : DieIx) (off lo len k : Nat) : (s.addSat d off lo len k).power = s.power := rfl
@[simp] theorem State.addSat_hostQs (s : State) (d : DieIx) (off lo len k : Nat) : (s.addSat d off lo len k).hostQs = s.hostQs := rfl
@[simp] theorem State.addSat_eventSeq (s : State) (d : DieIx) (off lo len k : Nat) : (s.addSat d off lo len k).eventSeq = s.eventSeq := rfl
@[simp] theorem State.addSat_msix (s : State) (d : DieIx) (off lo len k : Nat) : (s.addSat d off lo len k).msix = s.msix := rfl
@[simp] theorem State.addSat_boot (s : State) (d : DieIx) (off lo len k : Nat) : (s.addSat d off lo len k).boot = s.boot := rfl
@[simp] theorem State.addSat_warm (s : State) (d : DieIx) (off lo len k : Nat) : (s.addSat d off lo len k).warm = s.warm := rfl
@[simp] theorem State.addSat_pelLog (s : State) (d : DieIx) (off lo len k : Nat) : (s.addSat d off lo len k).pelLog = s.pelLog := rfl
@[simp] theorem State.addSat_pelCapture (s : State) (d : DieIx) (off lo len k : Nat) : (s.addSat d off lo len k).pelCapture = s.pelCapture := rfl
@[simp] theorem State.addSat_collected (s : State) (d : DieIx) (off lo len k : Nat) : (s.addSat d off lo len k).collected = s.collected := rfl
@[simp] theorem State.addSat_pending (s : State) (d : DieIx) (off lo len k : Nat) : (s.addSat d off lo len k).pending = s.pending := rfl
@[simp] theorem State.setPreg_dies (s : State) (off : Nat) (v : Word) : (s.setPreg off v).dies = s.dies := rfl
@[simp] theorem State.setPreg_mem (s : State) (off : Nat) (v : Word) : (s.setPreg off v).mem = s.mem := rfl
@[simp] theorem State.setPreg_host (s : State) (off : Nat) (v : Word) : (s.setPreg off v).host = s.host := rfl
@[simp] theorem State.setPreg_fuses (s : State) (off : Nat) (v : Word) : (s.setPreg off v).fuses = s.fuses := rfl
@[simp] theorem State.setPreg_irqs (s : State) (off : Nat) (v : Word) : (s.setPreg off v).irqs = s.irqs := rfl
@[simp] theorem State.setPreg_draws (s : State) (off : Nat) (v : Word) : (s.setPreg off v).draws = s.draws := rfl
@[simp] theorem State.setPreg_settings (s : State) (off : Nat) (v : Word) : (s.setPreg off v).settings = s.settings := rfl
@[simp] theorem State.setPreg_board (s : State) (off : Nat) (v : Word) : (s.setPreg off v).board = s.board := rfl
@[simp] theorem State.setPreg_flash (s : State) (off : Nat) (v : Word) : (s.setPreg off v).flash = s.flash := rfl
@[simp] theorem State.setPreg_jobs (s : State) (off : Nat) (v : Word) : (s.setPreg off v).jobs = s.jobs := rfl
@[simp] theorem State.setPreg_power (s : State) (off : Nat) (v : Word) : (s.setPreg off v).power = s.power := rfl
@[simp] theorem State.setPreg_hostQs (s : State) (off : Nat) (v : Word) : (s.setPreg off v).hostQs = s.hostQs := rfl
@[simp] theorem State.setPreg_eventSeq (s : State) (off : Nat) (v : Word) : (s.setPreg off v).eventSeq = s.eventSeq := rfl
@[simp] theorem State.setPreg_msix (s : State) (off : Nat) (v : Word) : (s.setPreg off v).msix = s.msix := rfl
@[simp] theorem State.setPreg_boot (s : State) (off : Nat) (v : Word) : (s.setPreg off v).boot = s.boot := rfl
@[simp] theorem State.setPreg_warm (s : State) (off : Nat) (v : Word) : (s.setPreg off v).warm = s.warm := rfl
@[simp] theorem State.setPreg_pelLog (s : State) (off : Nat) (v : Word) : (s.setPreg off v).pelLog = s.pelLog := rfl
@[simp] theorem State.setPreg_pelCapture (s : State) (off : Nat) (v : Word) : (s.setPreg off v).pelCapture = s.pelCapture := rfl
@[simp] theorem State.setPreg_collected (s : State) (off : Nat) (v : Word) : (s.setPreg off v).collected = s.collected := rfl
@[simp] theorem State.setPreg_pending (s : State) (off : Nat) (v : Word) : (s.setPreg off v).pending = s.pending := rfl
@[simp] theorem State.setPf_dies (s : State) (off lo len v : Nat) : (s.setPf off lo len v).dies = s.dies := rfl
@[simp] theorem State.setPf_mem (s : State) (off lo len v : Nat) : (s.setPf off lo len v).mem = s.mem := rfl
@[simp] theorem State.setPf_host (s : State) (off lo len v : Nat) : (s.setPf off lo len v).host = s.host := rfl
@[simp] theorem State.setPf_fuses (s : State) (off lo len v : Nat) : (s.setPf off lo len v).fuses = s.fuses := rfl
@[simp] theorem State.setPf_irqs (s : State) (off lo len v : Nat) : (s.setPf off lo len v).irqs = s.irqs := rfl
@[simp] theorem State.setPf_draws (s : State) (off lo len v : Nat) : (s.setPf off lo len v).draws = s.draws := rfl
@[simp] theorem State.setPf_settings (s : State) (off lo len v : Nat) : (s.setPf off lo len v).settings = s.settings := rfl
@[simp] theorem State.setPf_board (s : State) (off lo len v : Nat) : (s.setPf off lo len v).board = s.board := rfl
@[simp] theorem State.setPf_flash (s : State) (off lo len v : Nat) : (s.setPf off lo len v).flash = s.flash := rfl
@[simp] theorem State.setPf_jobs (s : State) (off lo len v : Nat) : (s.setPf off lo len v).jobs = s.jobs := rfl
@[simp] theorem State.setPf_power (s : State) (off lo len v : Nat) : (s.setPf off lo len v).power = s.power := rfl
@[simp] theorem State.setPf_hostQs (s : State) (off lo len v : Nat) : (s.setPf off lo len v).hostQs = s.hostQs := rfl
@[simp] theorem State.setPf_eventSeq (s : State) (off lo len v : Nat) : (s.setPf off lo len v).eventSeq = s.eventSeq := rfl
@[simp] theorem State.setPf_msix (s : State) (off lo len v : Nat) : (s.setPf off lo len v).msix = s.msix := rfl
@[simp] theorem State.setPf_boot (s : State) (off lo len v : Nat) : (s.setPf off lo len v).boot = s.boot := rfl
@[simp] theorem State.setPf_warm (s : State) (off lo len v : Nat) : (s.setPf off lo len v).warm = s.warm := rfl
@[simp] theorem State.setPf_pelLog (s : State) (off lo len v : Nat) : (s.setPf off lo len v).pelLog = s.pelLog := rfl
@[simp] theorem State.setPf_pelCapture (s : State) (off lo len v : Nat) : (s.setPf off lo len v).pelCapture = s.pelCapture := rfl
@[simp] theorem State.setPf_collected (s : State) (off lo len v : Nat) : (s.setPf off lo len v).collected = s.collected := rfl
@[simp] theorem State.setPf_pending (s : State) (off lo len v : Nat) : (s.setPf off lo len v).pending = s.pending := rfl
@[simp] theorem State.pelCount_dies (s : State) (lo : Nat) : (s.pelCount lo).dies = s.dies := rfl
@[simp] theorem State.pelCount_mem (s : State) (lo : Nat) : (s.pelCount lo).mem = s.mem := rfl
@[simp] theorem State.pelCount_host (s : State) (lo : Nat) : (s.pelCount lo).host = s.host := rfl
@[simp] theorem State.pelCount_fuses (s : State) (lo : Nat) : (s.pelCount lo).fuses = s.fuses := rfl
@[simp] theorem State.pelCount_irqs (s : State) (lo : Nat) : (s.pelCount lo).irqs = s.irqs := rfl
@[simp] theorem State.pelCount_draws (s : State) (lo : Nat) : (s.pelCount lo).draws = s.draws := rfl
@[simp] theorem State.pelCount_settings (s : State) (lo : Nat) : (s.pelCount lo).settings = s.settings := rfl
@[simp] theorem State.pelCount_board (s : State) (lo : Nat) : (s.pelCount lo).board = s.board := rfl
@[simp] theorem State.pelCount_flash (s : State) (lo : Nat) : (s.pelCount lo).flash = s.flash := rfl
@[simp] theorem State.pelCount_jobs (s : State) (lo : Nat) : (s.pelCount lo).jobs = s.jobs := rfl
@[simp] theorem State.pelCount_power (s : State) (lo : Nat) : (s.pelCount lo).power = s.power := rfl
@[simp] theorem State.pelCount_hostQs (s : State) (lo : Nat) : (s.pelCount lo).hostQs = s.hostQs := rfl
@[simp] theorem State.pelCount_eventSeq (s : State) (lo : Nat) : (s.pelCount lo).eventSeq = s.eventSeq := rfl
@[simp] theorem State.pelCount_msix (s : State) (lo : Nat) : (s.pelCount lo).msix = s.msix := rfl
@[simp] theorem State.pelCount_boot (s : State) (lo : Nat) : (s.pelCount lo).boot = s.boot := rfl
@[simp] theorem State.pelCount_warm (s : State) (lo : Nat) : (s.pelCount lo).warm = s.warm := rfl
@[simp] theorem State.pelCount_pelLog (s : State) (lo : Nat) : (s.pelCount lo).pelLog = s.pelLog := rfl
@[simp] theorem State.pelCount_pelCapture (s : State) (lo : Nat) : (s.pelCount lo).pelCapture = s.pelCapture := rfl
@[simp] theorem State.pelCount_collected (s : State) (lo : Nat) : (s.pelCount lo).collected = s.collected := rfl
@[simp] theorem State.pelCount_pending (s : State) (lo : Nat) : (s.pelCount lo).pending = s.pending := rfl
@[simp] theorem State.drawFree_dies (s : State) : (s.drawFree).dies = s.dies := rfl
@[simp] theorem State.drawFree_mem (s : State) : (s.drawFree).mem = s.mem := rfl
@[simp] theorem State.drawFree_host (s : State) : (s.drawFree).host = s.host := rfl
@[simp] theorem State.drawFree_pelRegs (s : State) : (s.drawFree).pelRegs = s.pelRegs := rfl
@[simp] theorem State.drawFree_fuses (s : State) : (s.drawFree).fuses = s.fuses := rfl
@[simp] theorem State.drawFree_irqs (s : State) : (s.drawFree).irqs = s.irqs := rfl
@[simp] theorem State.drawFree_settings (s : State) : (s.drawFree).settings = s.settings := rfl
@[simp] theorem State.drawFree_board (s : State) : (s.drawFree).board = s.board := rfl
@[simp] theorem State.drawFree_flash (s : State) : (s.drawFree).flash = s.flash := rfl
@[simp] theorem State.drawFree_jobs (s : State) : (s.drawFree).jobs = s.jobs := rfl
@[simp] theorem State.drawFree_power (s : State) : (s.drawFree).power = s.power := rfl
@[simp] theorem State.drawFree_hostQs (s : State) : (s.drawFree).hostQs = s.hostQs := rfl
@[simp] theorem State.drawFree_eventSeq (s : State) : (s.drawFree).eventSeq = s.eventSeq := rfl
@[simp] theorem State.drawFree_msix (s : State) : (s.drawFree).msix = s.msix := rfl
@[simp] theorem State.drawFree_boot (s : State) : (s.drawFree).boot = s.boot := rfl
@[simp] theorem State.drawFree_warm (s : State) : (s.drawFree).warm = s.warm := rfl
@[simp] theorem State.drawFree_pelLog (s : State) : (s.drawFree).pelLog = s.pelLog := rfl
@[simp] theorem State.drawFree_pelCapture (s : State) : (s.drawFree).pelCapture = s.pelCapture := rfl
@[simp] theorem State.drawFree_collected (s : State) : (s.drawFree).collected = s.collected := rfl
@[simp] theorem State.drawFree_pending (s : State) : (s.drawFree).pending = s.pending := rfl
@[simp] theorem State.raise_dies (s : State) (i : Irq) : (s.raise i).dies = s.dies := rfl
@[simp] theorem State.raise_mem (s : State) (i : Irq) : (s.raise i).mem = s.mem := rfl
@[simp] theorem State.raise_host (s : State) (i : Irq) : (s.raise i).host = s.host := rfl
@[simp] theorem State.raise_pelRegs (s : State) (i : Irq) : (s.raise i).pelRegs = s.pelRegs := rfl
@[simp] theorem State.raise_fuses (s : State) (i : Irq) : (s.raise i).fuses = s.fuses := rfl
@[simp] theorem State.raise_draws (s : State) (i : Irq) : (s.raise i).draws = s.draws := rfl
@[simp] theorem State.raise_settings (s : State) (i : Irq) : (s.raise i).settings = s.settings := rfl
@[simp] theorem State.raise_board (s : State) (i : Irq) : (s.raise i).board = s.board := rfl
@[simp] theorem State.raise_flash (s : State) (i : Irq) : (s.raise i).flash = s.flash := rfl
@[simp] theorem State.raise_jobs (s : State) (i : Irq) : (s.raise i).jobs = s.jobs := rfl
@[simp] theorem State.raise_power (s : State) (i : Irq) : (s.raise i).power = s.power := rfl
@[simp] theorem State.raise_hostQs (s : State) (i : Irq) : (s.raise i).hostQs = s.hostQs := rfl
@[simp] theorem State.raise_eventSeq (s : State) (i : Irq) : (s.raise i).eventSeq = s.eventSeq := rfl
@[simp] theorem State.raise_msix (s : State) (i : Irq) : (s.raise i).msix = s.msix := rfl
@[simp] theorem State.raise_boot (s : State) (i : Irq) : (s.raise i).boot = s.boot := rfl
@[simp] theorem State.raise_warm (s : State) (i : Irq) : (s.raise i).warm = s.warm := rfl
@[simp] theorem State.raise_pelLog (s : State) (i : Irq) : (s.raise i).pelLog = s.pelLog := rfl
@[simp] theorem State.raise_pelCapture (s : State) (i : Irq) : (s.raise i).pelCapture = s.pelCapture := rfl
@[simp] theorem State.raise_collected (s : State) (i : Irq) : (s.raise i).collected = s.collected := rfl
@[simp] theorem State.raise_pending (s : State) (i : Irq) : (s.raise i).pending = s.pending := rfl
@[simp] theorem State.setHostQ_dies (s : State) (q : Fin 64) (x : HostQ) : (s.setHostQ q x).dies = s.dies := rfl
@[simp] theorem State.setHostQ_mem (s : State) (q : Fin 64) (x : HostQ) : (s.setHostQ q x).mem = s.mem := rfl
@[simp] theorem State.setHostQ_host (s : State) (q : Fin 64) (x : HostQ) : (s.setHostQ q x).host = s.host := rfl
@[simp] theorem State.setHostQ_pelRegs (s : State) (q : Fin 64) (x : HostQ) : (s.setHostQ q x).pelRegs = s.pelRegs := rfl
@[simp] theorem State.setHostQ_fuses (s : State) (q : Fin 64) (x : HostQ) : (s.setHostQ q x).fuses = s.fuses := rfl
@[simp] theorem State.setHostQ_irqs (s : State) (q : Fin 64) (x : HostQ) : (s.setHostQ q x).irqs = s.irqs := rfl
@[simp] theorem State.setHostQ_draws (s : State) (q : Fin 64) (x : HostQ) : (s.setHostQ q x).draws = s.draws := rfl
@[simp] theorem State.setHostQ_settings (s : State) (q : Fin 64) (x : HostQ) : (s.setHostQ q x).settings = s.settings := rfl
@[simp] theorem State.setHostQ_board (s : State) (q : Fin 64) (x : HostQ) : (s.setHostQ q x).board = s.board := rfl
@[simp] theorem State.setHostQ_flash (s : State) (q : Fin 64) (x : HostQ) : (s.setHostQ q x).flash = s.flash := rfl
@[simp] theorem State.setHostQ_jobs (s : State) (q : Fin 64) (x : HostQ) : (s.setHostQ q x).jobs = s.jobs := rfl
@[simp] theorem State.setHostQ_power (s : State) (q : Fin 64) (x : HostQ) : (s.setHostQ q x).power = s.power := rfl
@[simp] theorem State.setHostQ_eventSeq (s : State) (q : Fin 64) (x : HostQ) : (s.setHostQ q x).eventSeq = s.eventSeq := rfl
@[simp] theorem State.setHostQ_msix (s : State) (q : Fin 64) (x : HostQ) : (s.setHostQ q x).msix = s.msix := rfl
@[simp] theorem State.setHostQ_boot (s : State) (q : Fin 64) (x : HostQ) : (s.setHostQ q x).boot = s.boot := rfl
@[simp] theorem State.setHostQ_warm (s : State) (q : Fin 64) (x : HostQ) : (s.setHostQ q x).warm = s.warm := rfl
@[simp] theorem State.setHostQ_pelLog (s : State) (q : Fin 64) (x : HostQ) : (s.setHostQ q x).pelLog = s.pelLog := rfl
@[simp] theorem State.setHostQ_pelCapture (s : State) (q : Fin 64) (x : HostQ) : (s.setHostQ q x).pelCapture = s.pelCapture := rfl
@[simp] theorem State.setHostQ_collected (s : State) (q : Fin 64) (x : HostQ) : (s.setHostQ q x).collected = s.collected := rfl
@[simp] theorem State.setHostQ_pending (s : State) (q : Fin 64) (x : HostQ) : (s.setHostQ q x).pending = s.pending := rfl
@[simp] theorem State.pokeHost_dies (s : State) (a : Nat) (bs : List Byte) : (s.pokeHost a bs).dies = s.dies := rfl
@[simp] theorem State.pokeHost_mem (s : State) (a : Nat) (bs : List Byte) : (s.pokeHost a bs).mem = s.mem := rfl
@[simp] theorem State.pokeHost_pelRegs (s : State) (a : Nat) (bs : List Byte) : (s.pokeHost a bs).pelRegs = s.pelRegs := rfl
@[simp] theorem State.pokeHost_fuses (s : State) (a : Nat) (bs : List Byte) : (s.pokeHost a bs).fuses = s.fuses := rfl
@[simp] theorem State.pokeHost_irqs (s : State) (a : Nat) (bs : List Byte) : (s.pokeHost a bs).irqs = s.irqs := rfl
@[simp] theorem State.pokeHost_draws (s : State) (a : Nat) (bs : List Byte) : (s.pokeHost a bs).draws = s.draws := rfl
@[simp] theorem State.pokeHost_settings (s : State) (a : Nat) (bs : List Byte) : (s.pokeHost a bs).settings = s.settings := rfl
@[simp] theorem State.pokeHost_board (s : State) (a : Nat) (bs : List Byte) : (s.pokeHost a bs).board = s.board := rfl
@[simp] theorem State.pokeHost_flash (s : State) (a : Nat) (bs : List Byte) : (s.pokeHost a bs).flash = s.flash := rfl
@[simp] theorem State.pokeHost_jobs (s : State) (a : Nat) (bs : List Byte) : (s.pokeHost a bs).jobs = s.jobs := rfl
@[simp] theorem State.pokeHost_power (s : State) (a : Nat) (bs : List Byte) : (s.pokeHost a bs).power = s.power := rfl
@[simp] theorem State.pokeHost_hostQs (s : State) (a : Nat) (bs : List Byte) : (s.pokeHost a bs).hostQs = s.hostQs := rfl
@[simp] theorem State.pokeHost_eventSeq (s : State) (a : Nat) (bs : List Byte) : (s.pokeHost a bs).eventSeq = s.eventSeq := rfl
@[simp] theorem State.pokeHost_msix (s : State) (a : Nat) (bs : List Byte) : (s.pokeHost a bs).msix = s.msix := rfl
@[simp] theorem State.pokeHost_boot (s : State) (a : Nat) (bs : List Byte) : (s.pokeHost a bs).boot = s.boot := rfl
@[simp] theorem State.pokeHost_warm (s : State) (a : Nat) (bs : List Byte) : (s.pokeHost a bs).warm = s.warm := rfl
@[simp] theorem State.pokeHost_pelLog (s : State) (a : Nat) (bs : List Byte) : (s.pokeHost a bs).pelLog = s.pelLog := rfl
@[simp] theorem State.pokeHost_pelCapture (s : State) (a : Nat) (bs : List Byte) : (s.pokeHost a bs).pelCapture = s.pelCapture := rfl
@[simp] theorem State.pokeHost_collected (s : State) (a : Nat) (bs : List Byte) : (s.pokeHost a bs).collected = s.collected := rfl
@[simp] theorem State.pokeHost_pending (s : State) (a : Nat) (bs : List Byte) : (s.pokeHost a bs).pending = s.pending := rfl
@[simp] theorem State.logFrom_mem (s : State) (d : DieIx) (src : Endpoint) (gen : BitVec 8) (code status detail : Nat) (sent : Option DWord) : (s.logFrom d src gen code status detail sent).mem = s.mem := rfl
@[simp] theorem State.logFrom_host (s : State) (d : DieIx) (src : Endpoint) (gen : BitVec 8) (code status detail : Nat) (sent : Option DWord) : (s.logFrom d src gen code status detail sent).host = s.host := rfl
@[simp] theorem State.logFrom_pelRegs (s : State) (d : DieIx) (src : Endpoint) (gen : BitVec 8) (code status detail : Nat) (sent : Option DWord) : (s.logFrom d src gen code status detail sent).pelRegs = s.pelRegs := rfl
@[simp] theorem State.logFrom_fuses (s : State) (d : DieIx) (src : Endpoint) (gen : BitVec 8) (code status detail : Nat) (sent : Option DWord) : (s.logFrom d src gen code status detail sent).fuses = s.fuses := rfl
@[simp] theorem State.logFrom_irqs (s : State) (d : DieIx) (src : Endpoint) (gen : BitVec 8) (code status detail : Nat) (sent : Option DWord) : (s.logFrom d src gen code status detail sent).irqs = s.irqs := rfl
@[simp] theorem State.logFrom_draws (s : State) (d : DieIx) (src : Endpoint) (gen : BitVec 8) (code status detail : Nat) (sent : Option DWord) : (s.logFrom d src gen code status detail sent).draws = s.draws := rfl
@[simp] theorem State.logFrom_settings (s : State) (d : DieIx) (src : Endpoint) (gen : BitVec 8) (code status detail : Nat) (sent : Option DWord) : (s.logFrom d src gen code status detail sent).settings = s.settings := rfl
@[simp] theorem State.logFrom_board (s : State) (d : DieIx) (src : Endpoint) (gen : BitVec 8) (code status detail : Nat) (sent : Option DWord) : (s.logFrom d src gen code status detail sent).board = s.board := rfl
@[simp] theorem State.logFrom_flash (s : State) (d : DieIx) (src : Endpoint) (gen : BitVec 8) (code status detail : Nat) (sent : Option DWord) : (s.logFrom d src gen code status detail sent).flash = s.flash := rfl
@[simp] theorem State.logFrom_jobs (s : State) (d : DieIx) (src : Endpoint) (gen : BitVec 8) (code status detail : Nat) (sent : Option DWord) : (s.logFrom d src gen code status detail sent).jobs = s.jobs := rfl
@[simp] theorem State.logFrom_power (s : State) (d : DieIx) (src : Endpoint) (gen : BitVec 8) (code status detail : Nat) (sent : Option DWord) : (s.logFrom d src gen code status detail sent).power = s.power := rfl
@[simp] theorem State.logFrom_hostQs (s : State) (d : DieIx) (src : Endpoint) (gen : BitVec 8) (code status detail : Nat) (sent : Option DWord) : (s.logFrom d src gen code status detail sent).hostQs = s.hostQs := rfl
@[simp] theorem State.logFrom_eventSeq (s : State) (d : DieIx) (src : Endpoint) (gen : BitVec 8) (code status detail : Nat) (sent : Option DWord) : (s.logFrom d src gen code status detail sent).eventSeq = s.eventSeq := rfl
@[simp] theorem State.logFrom_msix (s : State) (d : DieIx) (src : Endpoint) (gen : BitVec 8) (code status detail : Nat) (sent : Option DWord) : (s.logFrom d src gen code status detail sent).msix = s.msix := rfl
@[simp] theorem State.logFrom_boot (s : State) (d : DieIx) (src : Endpoint) (gen : BitVec 8) (code status detail : Nat) (sent : Option DWord) : (s.logFrom d src gen code status detail sent).boot = s.boot := rfl
@[simp] theorem State.logFrom_warm (s : State) (d : DieIx) (src : Endpoint) (gen : BitVec 8) (code status detail : Nat) (sent : Option DWord) : (s.logFrom d src gen code status detail sent).warm = s.warm := rfl
@[simp] theorem State.logFrom_pelLog (s : State) (d : DieIx) (src : Endpoint) (gen : BitVec 8) (code status detail : Nat) (sent : Option DWord) : (s.logFrom d src gen code status detail sent).pelLog = s.pelLog := rfl
@[simp] theorem State.logFrom_pelCapture (s : State) (d : DieIx) (src : Endpoint) (gen : BitVec 8) (code status detail : Nat) (sent : Option DWord) : (s.logFrom d src gen code status detail sent).pelCapture = s.pelCapture := rfl
@[simp] theorem State.logFrom_collected (s : State) (d : DieIx) (src : Endpoint) (gen : BitVec 8) (code status detail : Nat) (sent : Option DWord) : (s.logFrom d src gen code status detail sent).collected = s.collected := rfl
@[simp] theorem State.logFrom_pending (s : State) (d : DieIx) (src : Endpoint) (gen : BitVec 8) (code status detail : Nat) (sent : Option DWord) : (s.logFrom d src gen code status detail sent).pending = s.pending := rfl
@[simp] theorem State.logEvent_mem (s : State) (d : DieIx) (code status detail : Nat) : (s.logEvent d code status detail).mem = s.mem := rfl
@[simp] theorem State.logEvent_host (s : State) (d : DieIx) (code status detail : Nat) : (s.logEvent d code status detail).host = s.host := rfl
@[simp] theorem State.logEvent_pelRegs (s : State) (d : DieIx) (code status detail : Nat) : (s.logEvent d code status detail).pelRegs = s.pelRegs := rfl
@[simp] theorem State.logEvent_fuses (s : State) (d : DieIx) (code status detail : Nat) : (s.logEvent d code status detail).fuses = s.fuses := rfl
@[simp] theorem State.logEvent_irqs (s : State) (d : DieIx) (code status detail : Nat) : (s.logEvent d code status detail).irqs = s.irqs := rfl
@[simp] theorem State.logEvent_draws (s : State) (d : DieIx) (code status detail : Nat) : (s.logEvent d code status detail).draws = s.draws := rfl
@[simp] theorem State.logEvent_settings (s : State) (d : DieIx) (code status detail : Nat) : (s.logEvent d code status detail).settings = s.settings := rfl
@[simp] theorem State.logEvent_board (s : State) (d : DieIx) (code status detail : Nat) : (s.logEvent d code status detail).board = s.board := rfl
@[simp] theorem State.logEvent_flash (s : State) (d : DieIx) (code status detail : Nat) : (s.logEvent d code status detail).flash = s.flash := rfl
@[simp] theorem State.logEvent_jobs (s : State) (d : DieIx) (code status detail : Nat) : (s.logEvent d code status detail).jobs = s.jobs := rfl
@[simp] theorem State.logEvent_power (s : State) (d : DieIx) (code status detail : Nat) : (s.logEvent d code status detail).power = s.power := rfl
@[simp] theorem State.logEvent_hostQs (s : State) (d : DieIx) (code status detail : Nat) : (s.logEvent d code status detail).hostQs = s.hostQs := rfl
@[simp] theorem State.logEvent_eventSeq (s : State) (d : DieIx) (code status detail : Nat) : (s.logEvent d code status detail).eventSeq = s.eventSeq := rfl
@[simp] theorem State.logEvent_msix (s : State) (d : DieIx) (code status detail : Nat) : (s.logEvent d code status detail).msix = s.msix := rfl
@[simp] theorem State.logEvent_boot (s : State) (d : DieIx) (code status detail : Nat) : (s.logEvent d code status detail).boot = s.boot := rfl
@[simp] theorem State.logEvent_warm (s : State) (d : DieIx) (code status detail : Nat) : (s.logEvent d code status detail).warm = s.warm := rfl
@[simp] theorem State.logEvent_pelLog (s : State) (d : DieIx) (code status detail : Nat) : (s.logEvent d code status detail).pelLog = s.pelLog := rfl
@[simp] theorem State.logEvent_pelCapture (s : State) (d : DieIx) (code status detail : Nat) : (s.logEvent d code status detail).pelCapture = s.pelCapture := rfl
@[simp] theorem State.logEvent_collected (s : State) (d : DieIx) (code status detail : Nat) : (s.logEvent d code status detail).collected = s.collected := rfl
@[simp] theorem State.logEvent_pending (s : State) (d : DieIx) (code status detail : Nat) : (s.logEvent d code status detail).pending = s.pending := rfl
@[simp] theorem State.logIgnored_mem (s : State) (d : DieIx) (off reason : Nat) : (s.logIgnored d off reason).mem = s.mem := rfl
@[simp] theorem State.logIgnored_host (s : State) (d : DieIx) (off reason : Nat) : (s.logIgnored d off reason).host = s.host := rfl
@[simp] theorem State.logIgnored_pelRegs (s : State) (d : DieIx) (off reason : Nat) : (s.logIgnored d off reason).pelRegs = s.pelRegs := rfl
@[simp] theorem State.logIgnored_fuses (s : State) (d : DieIx) (off reason : Nat) : (s.logIgnored d off reason).fuses = s.fuses := rfl
@[simp] theorem State.logIgnored_irqs (s : State) (d : DieIx) (off reason : Nat) : (s.logIgnored d off reason).irqs = s.irqs := rfl
@[simp] theorem State.logIgnored_draws (s : State) (d : DieIx) (off reason : Nat) : (s.logIgnored d off reason).draws = s.draws := rfl
@[simp] theorem State.logIgnored_settings (s : State) (d : DieIx) (off reason : Nat) : (s.logIgnored d off reason).settings = s.settings := rfl
@[simp] theorem State.logIgnored_board (s : State) (d : DieIx) (off reason : Nat) : (s.logIgnored d off reason).board = s.board := rfl
@[simp] theorem State.logIgnored_flash (s : State) (d : DieIx) (off reason : Nat) : (s.logIgnored d off reason).flash = s.flash := rfl
@[simp] theorem State.logIgnored_jobs (s : State) (d : DieIx) (off reason : Nat) : (s.logIgnored d off reason).jobs = s.jobs := rfl
@[simp] theorem State.logIgnored_power (s : State) (d : DieIx) (off reason : Nat) : (s.logIgnored d off reason).power = s.power := rfl
@[simp] theorem State.logIgnored_hostQs (s : State) (d : DieIx) (off reason : Nat) : (s.logIgnored d off reason).hostQs = s.hostQs := rfl
@[simp] theorem State.logIgnored_eventSeq (s : State) (d : DieIx) (off reason : Nat) : (s.logIgnored d off reason).eventSeq = s.eventSeq := rfl
@[simp] theorem State.logIgnored_msix (s : State) (d : DieIx) (off reason : Nat) : (s.logIgnored d off reason).msix = s.msix := rfl
@[simp] theorem State.logIgnored_boot (s : State) (d : DieIx) (off reason : Nat) : (s.logIgnored d off reason).boot = s.boot := rfl
@[simp] theorem State.logIgnored_warm (s : State) (d : DieIx) (off reason : Nat) : (s.logIgnored d off reason).warm = s.warm := rfl
@[simp] theorem State.logIgnored_pelLog (s : State) (d : DieIx) (off reason : Nat) : (s.logIgnored d off reason).pelLog = s.pelLog := rfl
@[simp] theorem State.logIgnored_pelCapture (s : State) (d : DieIx) (off reason : Nat) : (s.logIgnored d off reason).pelCapture = s.pelCapture := rfl
@[simp] theorem State.logIgnored_collected (s : State) (d : DieIx) (off reason : Nat) : (s.logIgnored d off reason).collected = s.collected := rfl
@[simp] theorem State.logIgnored_pending (s : State) (d : DieIx) (off reason : Nat) : (s.logIgnored d off reason).pending = s.pending := rfl
@[simp] theorem State.logCaused_mem (s : State) (d : DieIx) (m : Msg) (code status detail : Nat) : (s.logCaused d m code status detail).mem = s.mem := rfl
@[simp] theorem State.logCaused_host (s : State) (d : DieIx) (m : Msg) (code status detail : Nat) : (s.logCaused d m code status detail).host = s.host := rfl
@[simp] theorem State.logCaused_pelRegs (s : State) (d : DieIx) (m : Msg) (code status detail : Nat) : (s.logCaused d m code status detail).pelRegs = s.pelRegs := rfl
@[simp] theorem State.logCaused_fuses (s : State) (d : DieIx) (m : Msg) (code status detail : Nat) : (s.logCaused d m code status detail).fuses = s.fuses := rfl
@[simp] theorem State.logCaused_irqs (s : State) (d : DieIx) (m : Msg) (code status detail : Nat) : (s.logCaused d m code status detail).irqs = s.irqs := rfl
@[simp] theorem State.logCaused_draws (s : State) (d : DieIx) (m : Msg) (code status detail : Nat) : (s.logCaused d m code status detail).draws = s.draws := rfl
@[simp] theorem State.logCaused_settings (s : State) (d : DieIx) (m : Msg) (code status detail : Nat) : (s.logCaused d m code status detail).settings = s.settings := rfl
@[simp] theorem State.logCaused_board (s : State) (d : DieIx) (m : Msg) (code status detail : Nat) : (s.logCaused d m code status detail).board = s.board := rfl
@[simp] theorem State.logCaused_flash (s : State) (d : DieIx) (m : Msg) (code status detail : Nat) : (s.logCaused d m code status detail).flash = s.flash := rfl
@[simp] theorem State.logCaused_jobs (s : State) (d : DieIx) (m : Msg) (code status detail : Nat) : (s.logCaused d m code status detail).jobs = s.jobs := rfl
@[simp] theorem State.logCaused_power (s : State) (d : DieIx) (m : Msg) (code status detail : Nat) : (s.logCaused d m code status detail).power = s.power := rfl
@[simp] theorem State.logCaused_hostQs (s : State) (d : DieIx) (m : Msg) (code status detail : Nat) : (s.logCaused d m code status detail).hostQs = s.hostQs := rfl
@[simp] theorem State.logCaused_eventSeq (s : State) (d : DieIx) (m : Msg) (code status detail : Nat) : (s.logCaused d m code status detail).eventSeq = s.eventSeq := rfl
@[simp] theorem State.logCaused_msix (s : State) (d : DieIx) (m : Msg) (code status detail : Nat) : (s.logCaused d m code status detail).msix = s.msix := rfl
@[simp] theorem State.logCaused_boot (s : State) (d : DieIx) (m : Msg) (code status detail : Nat) : (s.logCaused d m code status detail).boot = s.boot := rfl
@[simp] theorem State.logCaused_warm (s : State) (d : DieIx) (m : Msg) (code status detail : Nat) : (s.logCaused d m code status detail).warm = s.warm := rfl
@[simp] theorem State.logCaused_pelLog (s : State) (d : DieIx) (m : Msg) (code status detail : Nat) : (s.logCaused d m code status detail).pelLog = s.pelLog := rfl
@[simp] theorem State.logCaused_pelCapture (s : State) (d : DieIx) (m : Msg) (code status detail : Nat) : (s.logCaused d m code status detail).pelCapture = s.pelCapture := rfl
@[simp] theorem State.logCaused_collected (s : State) (d : DieIx) (m : Msg) (code status detail : Nat) : (s.logCaused d m code status detail).collected = s.collected := rfl
@[simp] theorem State.logCaused_pending (s : State) (d : DieIx) (m : Msg) (code status detail : Nat) : (s.logCaused d m code status detail).pending = s.pending := rfl
@[simp] theorem State.poisonWord_dies (s : State) (key : Nat) : (s.poisonWord key).dies = s.dies := rfl
@[simp] theorem State.poisonWord_host (s : State) (key : Nat) : (s.poisonWord key).host = s.host := rfl
@[simp] theorem State.poisonWord_pelRegs (s : State) (key : Nat) : (s.poisonWord key).pelRegs = s.pelRegs := rfl
@[simp] theorem State.poisonWord_fuses (s : State) (key : Nat) : (s.poisonWord key).fuses = s.fuses := rfl
@[simp] theorem State.poisonWord_irqs (s : State) (key : Nat) : (s.poisonWord key).irqs = s.irqs := rfl
@[simp] theorem State.poisonWord_draws (s : State) (key : Nat) : (s.poisonWord key).draws = s.draws := rfl
@[simp] theorem State.poisonWord_settings (s : State) (key : Nat) : (s.poisonWord key).settings = s.settings := rfl
@[simp] theorem State.poisonWord_board (s : State) (key : Nat) : (s.poisonWord key).board = s.board := rfl
@[simp] theorem State.poisonWord_flash (s : State) (key : Nat) : (s.poisonWord key).flash = s.flash := rfl
@[simp] theorem State.poisonWord_jobs (s : State) (key : Nat) : (s.poisonWord key).jobs = s.jobs := rfl
@[simp] theorem State.poisonWord_power (s : State) (key : Nat) : (s.poisonWord key).power = s.power := rfl
@[simp] theorem State.poisonWord_hostQs (s : State) (key : Nat) : (s.poisonWord key).hostQs = s.hostQs := rfl
@[simp] theorem State.poisonWord_eventSeq (s : State) (key : Nat) : (s.poisonWord key).eventSeq = s.eventSeq := rfl
@[simp] theorem State.poisonWord_msix (s : State) (key : Nat) : (s.poisonWord key).msix = s.msix := rfl
@[simp] theorem State.poisonWord_boot (s : State) (key : Nat) : (s.poisonWord key).boot = s.boot := rfl
@[simp] theorem State.poisonWord_warm (s : State) (key : Nat) : (s.poisonWord key).warm = s.warm := rfl
@[simp] theorem State.poisonWord_pelLog (s : State) (key : Nat) : (s.poisonWord key).pelLog = s.pelLog := rfl
@[simp] theorem State.poisonWord_pelCapture (s : State) (key : Nat) : (s.poisonWord key).pelCapture = s.pelCapture := rfl
@[simp] theorem State.poisonWord_collected (s : State) (key : Nat) : (s.poisonWord key).collected = s.collected := rfl
@[simp] theorem State.poisonWord_pending (s : State) (key : Nat) : (s.poisonWord key).pending = s.pending := rfl
@[simp] theorem State.loseMem_dies (s : State) (key n : Nat) : (s.loseMem key n).dies = s.dies := rfl
@[simp] theorem State.loseMem_host (s : State) (key n : Nat) : (s.loseMem key n).host = s.host := rfl
@[simp] theorem State.loseMem_pelRegs (s : State) (key n : Nat) : (s.loseMem key n).pelRegs = s.pelRegs := rfl
@[simp] theorem State.loseMem_fuses (s : State) (key n : Nat) : (s.loseMem key n).fuses = s.fuses := rfl
@[simp] theorem State.loseMem_irqs (s : State) (key n : Nat) : (s.loseMem key n).irqs = s.irqs := rfl
@[simp] theorem State.loseMem_settings (s : State) (key n : Nat) : (s.loseMem key n).settings = s.settings := rfl
@[simp] theorem State.loseMem_board (s : State) (key n : Nat) : (s.loseMem key n).board = s.board := rfl
@[simp] theorem State.loseMem_flash (s : State) (key n : Nat) : (s.loseMem key n).flash = s.flash := rfl
@[simp] theorem State.loseMem_jobs (s : State) (key n : Nat) : (s.loseMem key n).jobs = s.jobs := rfl
@[simp] theorem State.loseMem_power (s : State) (key n : Nat) : (s.loseMem key n).power = s.power := rfl
@[simp] theorem State.loseMem_hostQs (s : State) (key n : Nat) : (s.loseMem key n).hostQs = s.hostQs := rfl
@[simp] theorem State.loseMem_eventSeq (s : State) (key n : Nat) : (s.loseMem key n).eventSeq = s.eventSeq := rfl
@[simp] theorem State.loseMem_msix (s : State) (key n : Nat) : (s.loseMem key n).msix = s.msix := rfl
@[simp] theorem State.loseMem_boot (s : State) (key n : Nat) : (s.loseMem key n).boot = s.boot := rfl
@[simp] theorem State.loseMem_warm (s : State) (key n : Nat) : (s.loseMem key n).warm = s.warm := rfl
@[simp] theorem State.loseMem_pelLog (s : State) (key n : Nat) : (s.loseMem key n).pelLog = s.pelLog := rfl
@[simp] theorem State.loseMem_pelCapture (s : State) (key n : Nat) : (s.loseMem key n).pelCapture = s.pelCapture := rfl
@[simp] theorem State.loseMem_collected (s : State) (key n : Nat) : (s.loseMem key n).collected = s.collected := rfl
@[simp] theorem State.loseMem_pending (s : State) (key n : Nat) : (s.loseMem key n).pending = s.pending := rfl
@[simp] theorem State.regsToReset_mem (s : State) (d : DieIx) (lo hi : Nat) : (s.regsToReset d lo hi).mem = s.mem := rfl
@[simp] theorem State.regsToReset_host (s : State) (d : DieIx) (lo hi : Nat) : (s.regsToReset d lo hi).host = s.host := rfl
@[simp] theorem State.regsToReset_pelRegs (s : State) (d : DieIx) (lo hi : Nat) : (s.regsToReset d lo hi).pelRegs = s.pelRegs := rfl
@[simp] theorem State.regsToReset_fuses (s : State) (d : DieIx) (lo hi : Nat) : (s.regsToReset d lo hi).fuses = s.fuses := rfl
@[simp] theorem State.regsToReset_irqs (s : State) (d : DieIx) (lo hi : Nat) : (s.regsToReset d lo hi).irqs = s.irqs := rfl
@[simp] theorem State.regsToReset_draws (s : State) (d : DieIx) (lo hi : Nat) : (s.regsToReset d lo hi).draws = s.draws := rfl
@[simp] theorem State.regsToReset_settings (s : State) (d : DieIx) (lo hi : Nat) : (s.regsToReset d lo hi).settings = s.settings := rfl
@[simp] theorem State.regsToReset_board (s : State) (d : DieIx) (lo hi : Nat) : (s.regsToReset d lo hi).board = s.board := rfl
@[simp] theorem State.regsToReset_flash (s : State) (d : DieIx) (lo hi : Nat) : (s.regsToReset d lo hi).flash = s.flash := rfl
@[simp] theorem State.regsToReset_jobs (s : State) (d : DieIx) (lo hi : Nat) : (s.regsToReset d lo hi).jobs = s.jobs := rfl
@[simp] theorem State.regsToReset_power (s : State) (d : DieIx) (lo hi : Nat) : (s.regsToReset d lo hi).power = s.power := rfl
@[simp] theorem State.regsToReset_hostQs (s : State) (d : DieIx) (lo hi : Nat) : (s.regsToReset d lo hi).hostQs = s.hostQs := rfl
@[simp] theorem State.regsToReset_eventSeq (s : State) (d : DieIx) (lo hi : Nat) : (s.regsToReset d lo hi).eventSeq = s.eventSeq := rfl
@[simp] theorem State.regsToReset_msix (s : State) (d : DieIx) (lo hi : Nat) : (s.regsToReset d lo hi).msix = s.msix := rfl
@[simp] theorem State.regsToReset_boot (s : State) (d : DieIx) (lo hi : Nat) : (s.regsToReset d lo hi).boot = s.boot := rfl
@[simp] theorem State.regsToReset_warm (s : State) (d : DieIx) (lo hi : Nat) : (s.regsToReset d lo hi).warm = s.warm := rfl
@[simp] theorem State.regsToReset_pelLog (s : State) (d : DieIx) (lo hi : Nat) : (s.regsToReset d lo hi).pelLog = s.pelLog := rfl
@[simp] theorem State.regsToReset_pelCapture (s : State) (d : DieIx) (lo hi : Nat) : (s.regsToReset d lo hi).pelCapture = s.pelCapture := rfl
@[simp] theorem State.regsToReset_collected (s : State) (d : DieIx) (lo hi : Nat) : (s.regsToReset d lo hi).collected = s.collected := rfl
@[simp] theorem State.regsToReset_pending (s : State) (d : DieIx) (lo hi : Nat) : (s.regsToReset d lo hi).pending = s.pending := rfl
@[simp] theorem Die.setReg_latched (x : Die) (off : Nat) (v : Word) : (x.setReg off v).latched = x.latched := rfl
@[simp] theorem Die.setReg_heldLow (x : Die) (off : Nat) (v : Word) : (x.setReg off v).heldLow = x.heldLow := rfl
@[simp] theorem Die.setReg_held (x : Die) (off : Nat) (v : Word) : (x.setReg off v).held = x.held := rfl
@[simp] theorem Die.setReg_timer (x : Die) (off : Nat) (v : Word) : (x.setReg off v).timer = x.timer := rfl
@[simp] theorem Die.setReg_log (x : Die) (off : Nat) (v : Word) : (x.setReg off v).log = x.log := rfl
@[simp] theorem Die.setReg_logNext (x : Die) (off : Nat) (v : Word) : (x.setReg off v).logNext = x.logNext := rfl
@[simp] theorem Die.setReg_uq (x : Die) (off : Nat) (v : Word) : (x.setReg off v).uq = x.uq := rfl
@[simp] theorem Die.setReg_cores (x : Die) (off : Nat) (v : Word) : (x.setReg off v).cores = x.cores := rfl
@[simp] theorem Die.setReg_outstanding (x : Die) (off : Nat) (v : Word) : (x.setReg off v).outstanding = x.outstanding := rfl
@[simp] theorem Die.setReg_nextReq (x : Die) (off : Nat) (v : Word) : (x.setReg off v).nextReq = x.nextReq := rfl
@[simp] theorem Die.setReg_genUpd (x : Die) (off : Nat) (v : Word) : (x.setReg off v).genUpd = x.genUpd := rfl
@[simp] theorem Die.setReg_genBkt (x : Die) (off : Nat) (v : Word) : (x.setReg off v).genBkt = x.genBkt := rfl
@[simp] theorem Die.setReg_genCol (x : Die) (off : Nat) (v : Word) : (x.setReg off v).genCol = x.genCol := rfl
@[simp] theorem Die.setReg_lbArmed (x : Die) (off : Nat) (v : Word) : (x.setReg off v).lbArmed = x.lbArmed := rfl
@[simp] theorem Die.setReg_rowAge (x : Die) (off : Nat) (v : Word) : (x.setReg off v).rowAge = x.rowAge := rfl
@[simp] theorem Die.setReg_rowNext (x : Die) (off : Nat) (v : Word) : (x.setReg off v).rowNext = x.rowNext := rfl
@[simp] theorem Die.setReg_writeBacks (x : Die) (off : Nat) (v : Word) : (x.setReg off v).writeBacks = x.writeBacks := rfl
@[simp] theorem Die.setReg_scrubPos (x : Die) (off : Nat) (v : Word) : (x.setReg off v).scrubPos = x.scrubPos := rfl
@[simp] theorem Die.setReg_ports (x : Die) (off : Nat) (v : Word) : (x.setReg off v).ports = x.ports := rfl
@[simp] theorem Die.setReg_inbox (x : Die) (off : Nat) (v : Word) : (x.setReg off v).inbox = x.inbox := rfl
@[simp] theorem Die.setReg_routeUp (x : Die) (off : Nat) (v : Word) : (x.setReg off v).routeUp = x.routeUp := rfl
@[simp] theorem Die.setReg_peers (x : Die) (off : Nat) (v : Word) : (x.setReg off v).peers = x.peers := rfl
@[simp] theorem Die.setReg_resets (x : Die) (off : Nat) (v : Word) : (x.setReg off v).resets = x.resets := rfl
@[simp] theorem Die.setReg_captures (x : Die) (off : Nat) (v : Word) : (x.setReg off v).captures = x.captures := rfl
@[simp] theorem Die.setReg_captureNext (x : Die) (off : Nat) (v : Word) : (x.setReg off v).captureNext = x.captureNext := rfl
@[simp] theorem Die.setReg_announced (x : Die) (off : Nat) (v : Word) : (x.setReg off v).announced = x.announced := rfl
@[simp] theorem Die.setReg_hbm (x : Die) (off : Nat) (v : Word) : (x.setReg off v).hbm = x.hbm := rfl
@[simp] theorem Die.setReg_rowWins (x : Die) (off : Nat) (v : Word) : (x.setReg off v).rowWins = x.rowWins := rfl
@[simp] theorem Die.setReg_rowClock (x : Die) (off : Nat) (v : Word) : (x.setReg off v).rowClock = x.rowClock := rfl
@[simp] theorem Die.setReg_buckets (x : Die) (off : Nat) (v : Word) : (x.setReg off v).buckets = x.buckets := rfl
@[simp] theorem Die.setReg_tables (x : Die) (off : Nat) (v : Word) : (x.setReg off v).tables = x.tables := rfl
@[simp] theorem Die.setReg_reseedUpd (x : Die) (off : Nat) (v : Word) : (x.setReg off v).reseedUpd = x.reseedUpd := rfl
@[simp] theorem Die.setReg_reseedBkt (x : Die) (off : Nat) (v : Word) : (x.setReg off v).reseedBkt = x.reseedBkt := rfl
@[simp] theorem Die.setReg_reseedCol (x : Die) (off : Nat) (v : Word) : (x.setReg off v).reseedCol = x.reseedCol := rfl
@[simp] theorem Die.setReg_vetoes (x : Die) (off : Nat) (v : Word) : (x.setReg off v).vetoes = x.vetoes := rfl
@[simp] theorem Die.setReg_slots (x : Die) (off : Nat) (v : Word) : (x.setReg off v).slots = x.slots := rfl
@[simp] theorem Die.setReg_replays (x : Die) (off : Nat) (v : Word) : (x.setReg off v).replays = x.replays := rfl
@[simp] theorem Die.setReg_solve (x : Die) (off : Nat) (v : Word) : (x.setReg off v).solve = x.solve := rfl
@[simp] theorem Die.setReg_commits (x : Die) (off : Nat) (v : Word) : (x.setReg off v).commits = x.commits := rfl
@[simp] theorem Die.setReg_reds (x : Die) (off : Nat) (v : Word) : (x.setReg off v).reds = x.reds := rfl
@[simp] theorem Die.setReg_gathers (x : Die) (off : Nat) (v : Word) : (x.setReg off v).gathers = x.gathers := rfl
@[simp] theorem Die.setReg_exchanges (x : Die) (off : Nat) (v : Word) : (x.setReg off v).exchanges = x.exchanges := rfl
@[simp] theorem Die.setReg_early (x : Die) (off : Nat) (v : Word) : (x.setReg off v).early = x.early := rfl
@[simp] theorem Die.setReg_colTurn (x : Die) (off : Nat) (v : Word) : (x.setReg off v).colTurn = x.colTurn := rfl
@[simp] theorem Die.setReg_txeTurn (x : Die) (off : Nat) (v : Word) : (x.setReg off v).txeTurn = x.txeTurn := rfl
@[simp] theorem Die.setReg_notices (x : Die) (off : Nat) (v : Word) : (x.setReg off v).notices = x.notices := rfl
@[simp] theorem Die.setReg_assay (x : Die) (off : Nat) (v : Word) : (x.setReg off v).assay = x.assay := rfl
@[simp] theorem Die.setReg_returning (x : Die) (off : Nat) (v : Word) : (x.setReg off v).returning = x.returning := rfl
@[simp] theorem Die.setReg_drains (x : Die) (off : Nat) (v : Word) : (x.setReg off v).drains = x.drains := rfl
@[simp] theorem Die.setReg_watch (x : Die) (off : Nat) (v : Word) : (x.setReg off v).watch = x.watch := rfl
@[simp] theorem Die.setReg_discards (x : Die) (off : Nat) (v : Word) : (x.setReg off v).discards = x.discards := rfl
@[simp] theorem Die.setReg_map (x : Die) (off : Nat) (v : Word) : (x.setReg off v).map = x.map := rfl
@[simp] theorem Die.setCore_regs (x : Die) (c : CoreIx) (y : Core) : (x.setCore c y).regs = x.regs := rfl
@[simp] theorem Die.setCore_latched (x : Die) (c : CoreIx) (y : Core) : (x.setCore c y).latched = x.latched := rfl
@[simp] theorem Die.setCore_heldLow (x : Die) (c : CoreIx) (y : Core) : (x.setCore c y).heldLow = x.heldLow := rfl
@[simp] theorem Die.setCore_held (x : Die) (c : CoreIx) (y : Core) : (x.setCore c y).held = x.held := rfl
@[simp] theorem Die.setCore_timer (x : Die) (c : CoreIx) (y : Core) : (x.setCore c y).timer = x.timer := rfl
@[simp] theorem Die.setCore_log (x : Die) (c : CoreIx) (y : Core) : (x.setCore c y).log = x.log := rfl
@[simp] theorem Die.setCore_logNext (x : Die) (c : CoreIx) (y : Core) : (x.setCore c y).logNext = x.logNext := rfl
@[simp] theorem Die.setCore_uq (x : Die) (c : CoreIx) (y : Core) : (x.setCore c y).uq = x.uq := rfl
@[simp] theorem Die.setCore_outstanding (x : Die) (c : CoreIx) (y : Core) : (x.setCore c y).outstanding = x.outstanding := rfl
@[simp] theorem Die.setCore_nextReq (x : Die) (c : CoreIx) (y : Core) : (x.setCore c y).nextReq = x.nextReq := rfl
@[simp] theorem Die.setCore_genUpd (x : Die) (c : CoreIx) (y : Core) : (x.setCore c y).genUpd = x.genUpd := rfl
@[simp] theorem Die.setCore_genBkt (x : Die) (c : CoreIx) (y : Core) : (x.setCore c y).genBkt = x.genBkt := rfl
@[simp] theorem Die.setCore_genCol (x : Die) (c : CoreIx) (y : Core) : (x.setCore c y).genCol = x.genCol := rfl
@[simp] theorem Die.setCore_lbArmed (x : Die) (c : CoreIx) (y : Core) : (x.setCore c y).lbArmed = x.lbArmed := rfl
@[simp] theorem Die.setCore_rowAge (x : Die) (c : CoreIx) (y : Core) : (x.setCore c y).rowAge = x.rowAge := rfl
@[simp] theorem Die.setCore_rowNext (x : Die) (c : CoreIx) (y : Core) : (x.setCore c y).rowNext = x.rowNext := rfl
@[simp] theorem Die.setCore_writeBacks (x : Die) (c : CoreIx) (y : Core) : (x.setCore c y).writeBacks = x.writeBacks := rfl
@[simp] theorem Die.setCore_scrubPos (x : Die) (c : CoreIx) (y : Core) : (x.setCore c y).scrubPos = x.scrubPos := rfl
@[simp] theorem Die.setCore_ports (x : Die) (c : CoreIx) (y : Core) : (x.setCore c y).ports = x.ports := rfl
@[simp] theorem Die.setCore_inbox (x : Die) (c : CoreIx) (y : Core) : (x.setCore c y).inbox = x.inbox := rfl
@[simp] theorem Die.setCore_routeUp (x : Die) (c : CoreIx) (y : Core) : (x.setCore c y).routeUp = x.routeUp := rfl
@[simp] theorem Die.setCore_peers (x : Die) (c : CoreIx) (y : Core) : (x.setCore c y).peers = x.peers := rfl
@[simp] theorem Die.setCore_resets (x : Die) (c : CoreIx) (y : Core) : (x.setCore c y).resets = x.resets := rfl
@[simp] theorem Die.setCore_captures (x : Die) (c : CoreIx) (y : Core) : (x.setCore c y).captures = x.captures := rfl
@[simp] theorem Die.setCore_captureNext (x : Die) (c : CoreIx) (y : Core) : (x.setCore c y).captureNext = x.captureNext := rfl
@[simp] theorem Die.setCore_announced (x : Die) (c : CoreIx) (y : Core) : (x.setCore c y).announced = x.announced := rfl
@[simp] theorem Die.setCore_hbm (x : Die) (c : CoreIx) (y : Core) : (x.setCore c y).hbm = x.hbm := rfl
@[simp] theorem Die.setCore_rowWins (x : Die) (c : CoreIx) (y : Core) : (x.setCore c y).rowWins = x.rowWins := rfl
@[simp] theorem Die.setCore_rowClock (x : Die) (c : CoreIx) (y : Core) : (x.setCore c y).rowClock = x.rowClock := rfl
@[simp] theorem Die.setCore_buckets (x : Die) (c : CoreIx) (y : Core) : (x.setCore c y).buckets = x.buckets := rfl
@[simp] theorem Die.setCore_tables (x : Die) (c : CoreIx) (y : Core) : (x.setCore c y).tables = x.tables := rfl
@[simp] theorem Die.setCore_reseedUpd (x : Die) (c : CoreIx) (y : Core) : (x.setCore c y).reseedUpd = x.reseedUpd := rfl
@[simp] theorem Die.setCore_reseedBkt (x : Die) (c : CoreIx) (y : Core) : (x.setCore c y).reseedBkt = x.reseedBkt := rfl
@[simp] theorem Die.setCore_reseedCol (x : Die) (c : CoreIx) (y : Core) : (x.setCore c y).reseedCol = x.reseedCol := rfl
@[simp] theorem Die.setCore_vetoes (x : Die) (c : CoreIx) (y : Core) : (x.setCore c y).vetoes = x.vetoes := rfl
@[simp] theorem Die.setCore_slots (x : Die) (c : CoreIx) (y : Core) : (x.setCore c y).slots = x.slots := rfl
@[simp] theorem Die.setCore_replays (x : Die) (c : CoreIx) (y : Core) : (x.setCore c y).replays = x.replays := rfl
@[simp] theorem Die.setCore_solve (x : Die) (c : CoreIx) (y : Core) : (x.setCore c y).solve = x.solve := rfl
@[simp] theorem Die.setCore_commits (x : Die) (c : CoreIx) (y : Core) : (x.setCore c y).commits = x.commits := rfl
@[simp] theorem Die.setCore_reds (x : Die) (c : CoreIx) (y : Core) : (x.setCore c y).reds = x.reds := rfl
@[simp] theorem Die.setCore_gathers (x : Die) (c : CoreIx) (y : Core) : (x.setCore c y).gathers = x.gathers := rfl
@[simp] theorem Die.setCore_exchanges (x : Die) (c : CoreIx) (y : Core) : (x.setCore c y).exchanges = x.exchanges := rfl
@[simp] theorem Die.setCore_early (x : Die) (c : CoreIx) (y : Core) : (x.setCore c y).early = x.early := rfl
@[simp] theorem Die.setCore_colTurn (x : Die) (c : CoreIx) (y : Core) : (x.setCore c y).colTurn = x.colTurn := rfl
@[simp] theorem Die.setCore_txeTurn (x : Die) (c : CoreIx) (y : Core) : (x.setCore c y).txeTurn = x.txeTurn := rfl
@[simp] theorem Die.setCore_notices (x : Die) (c : CoreIx) (y : Core) : (x.setCore c y).notices = x.notices := rfl
@[simp] theorem Die.setCore_assay (x : Die) (c : CoreIx) (y : Core) : (x.setCore c y).assay = x.assay := rfl
@[simp] theorem Die.setCore_returning (x : Die) (c : CoreIx) (y : Core) : (x.setCore c y).returning = x.returning := rfl
@[simp] theorem Die.setCore_drains (x : Die) (c : CoreIx) (y : Core) : (x.setCore c y).drains = x.drains := rfl
@[simp] theorem Die.setCore_watch (x : Die) (c : CoreIx) (y : Core) : (x.setCore c y).watch = x.watch := rfl
@[simp] theorem Die.setCore_discards (x : Die) (c : CoreIx) (y : Core) : (x.setCore c y).discards = x.discards := rfl
@[simp] theorem Die.setCore_map (x : Die) (c : CoreIx) (y : Core) : (x.setCore c y).map = x.map := rfl
@[simp] theorem Die.addLog_regs (x : Die) (e : LogEntry) : (x.addLog e).regs = x.regs := rfl
@[simp] theorem Die.addLog_latched (x : Die) (e : LogEntry) : (x.addLog e).latched = x.latched := rfl
@[simp] theorem Die.addLog_heldLow (x : Die) (e : LogEntry) : (x.addLog e).heldLow = x.heldLow := rfl
@[simp] theorem Die.addLog_held (x : Die) (e : LogEntry) : (x.addLog e).held = x.held := rfl
@[simp] theorem Die.addLog_timer (x : Die) (e : LogEntry) : (x.addLog e).timer = x.timer := rfl
@[simp] theorem Die.addLog_uq (x : Die) (e : LogEntry) : (x.addLog e).uq = x.uq := rfl
@[simp] theorem Die.addLog_cores (x : Die) (e : LogEntry) : (x.addLog e).cores = x.cores := rfl
@[simp] theorem Die.addLog_outstanding (x : Die) (e : LogEntry) : (x.addLog e).outstanding = x.outstanding := rfl
@[simp] theorem Die.addLog_nextReq (x : Die) (e : LogEntry) : (x.addLog e).nextReq = x.nextReq := rfl
@[simp] theorem Die.addLog_genUpd (x : Die) (e : LogEntry) : (x.addLog e).genUpd = x.genUpd := rfl
@[simp] theorem Die.addLog_genBkt (x : Die) (e : LogEntry) : (x.addLog e).genBkt = x.genBkt := rfl
@[simp] theorem Die.addLog_genCol (x : Die) (e : LogEntry) : (x.addLog e).genCol = x.genCol := rfl
@[simp] theorem Die.addLog_lbArmed (x : Die) (e : LogEntry) : (x.addLog e).lbArmed = x.lbArmed := rfl
@[simp] theorem Die.addLog_rowAge (x : Die) (e : LogEntry) : (x.addLog e).rowAge = x.rowAge := rfl
@[simp] theorem Die.addLog_rowNext (x : Die) (e : LogEntry) : (x.addLog e).rowNext = x.rowNext := rfl
@[simp] theorem Die.addLog_writeBacks (x : Die) (e : LogEntry) : (x.addLog e).writeBacks = x.writeBacks := rfl
@[simp] theorem Die.addLog_scrubPos (x : Die) (e : LogEntry) : (x.addLog e).scrubPos = x.scrubPos := rfl
@[simp] theorem Die.addLog_ports (x : Die) (e : LogEntry) : (x.addLog e).ports = x.ports := rfl
@[simp] theorem Die.addLog_inbox (x : Die) (e : LogEntry) : (x.addLog e).inbox = x.inbox := rfl
@[simp] theorem Die.addLog_routeUp (x : Die) (e : LogEntry) : (x.addLog e).routeUp = x.routeUp := rfl
@[simp] theorem Die.addLog_peers (x : Die) (e : LogEntry) : (x.addLog e).peers = x.peers := rfl
@[simp] theorem Die.addLog_resets (x : Die) (e : LogEntry) : (x.addLog e).resets = x.resets := rfl
@[simp] theorem Die.addLog_captures (x : Die) (e : LogEntry) : (x.addLog e).captures = x.captures := rfl
@[simp] theorem Die.addLog_captureNext (x : Die) (e : LogEntry) : (x.addLog e).captureNext = x.captureNext := rfl
@[simp] theorem Die.addLog_announced (x : Die) (e : LogEntry) : (x.addLog e).announced = x.announced := rfl
@[simp] theorem Die.addLog_hbm (x : Die) (e : LogEntry) : (x.addLog e).hbm = x.hbm := rfl
@[simp] theorem Die.addLog_rowWins (x : Die) (e : LogEntry) : (x.addLog e).rowWins = x.rowWins := rfl
@[simp] theorem Die.addLog_rowClock (x : Die) (e : LogEntry) : (x.addLog e).rowClock = x.rowClock := rfl
@[simp] theorem Die.addLog_buckets (x : Die) (e : LogEntry) : (x.addLog e).buckets = x.buckets := rfl
@[simp] theorem Die.addLog_tables (x : Die) (e : LogEntry) : (x.addLog e).tables = x.tables := rfl
@[simp] theorem Die.addLog_reseedUpd (x : Die) (e : LogEntry) : (x.addLog e).reseedUpd = x.reseedUpd := rfl
@[simp] theorem Die.addLog_reseedBkt (x : Die) (e : LogEntry) : (x.addLog e).reseedBkt = x.reseedBkt := rfl
@[simp] theorem Die.addLog_reseedCol (x : Die) (e : LogEntry) : (x.addLog e).reseedCol = x.reseedCol := rfl
@[simp] theorem Die.addLog_vetoes (x : Die) (e : LogEntry) : (x.addLog e).vetoes = x.vetoes := rfl
@[simp] theorem Die.addLog_slots (x : Die) (e : LogEntry) : (x.addLog e).slots = x.slots := rfl
@[simp] theorem Die.addLog_replays (x : Die) (e : LogEntry) : (x.addLog e).replays = x.replays := rfl
@[simp] theorem Die.addLog_solve (x : Die) (e : LogEntry) : (x.addLog e).solve = x.solve := rfl
@[simp] theorem Die.addLog_commits (x : Die) (e : LogEntry) : (x.addLog e).commits = x.commits := rfl
@[simp] theorem Die.addLog_reds (x : Die) (e : LogEntry) : (x.addLog e).reds = x.reds := rfl
@[simp] theorem Die.addLog_gathers (x : Die) (e : LogEntry) : (x.addLog e).gathers = x.gathers := rfl
@[simp] theorem Die.addLog_exchanges (x : Die) (e : LogEntry) : (x.addLog e).exchanges = x.exchanges := rfl
@[simp] theorem Die.addLog_early (x : Die) (e : LogEntry) : (x.addLog e).early = x.early := rfl
@[simp] theorem Die.addLog_colTurn (x : Die) (e : LogEntry) : (x.addLog e).colTurn = x.colTurn := rfl
@[simp] theorem Die.addLog_txeTurn (x : Die) (e : LogEntry) : (x.addLog e).txeTurn = x.txeTurn := rfl
@[simp] theorem Die.addLog_notices (x : Die) (e : LogEntry) : (x.addLog e).notices = x.notices := rfl
@[simp] theorem Die.addLog_assay (x : Die) (e : LogEntry) : (x.addLog e).assay = x.assay := rfl
@[simp] theorem Die.addLog_returning (x : Die) (e : LogEntry) : (x.addLog e).returning = x.returning := rfl
@[simp] theorem Die.addLog_drains (x : Die) (e : LogEntry) : (x.addLog e).drains = x.drains := rfl
@[simp] theorem Die.addLog_watch (x : Die) (e : LogEntry) : (x.addLog e).watch = x.watch := rfl
@[simp] theorem Die.addLog_discards (x : Die) (e : LogEntry) : (x.addLog e).discards = x.discards := rfl
@[simp] theorem Die.addLog_map (x : Die) (e : LogEntry) : (x.addLog e).map = x.map := rfl

/-! ### What a part reads after an update -/

@[simp] theorem State.die_setDie (s : State) (d : DieIx) (x : Die) : (s.setDie d x).die d = x := by
  simp [State.die, State.setDie]

theorem State.die_setDie_ne (s : State) (d e : DieIx) (x : Die) (h : e ≠ d) : (s.setDie d x).die e = s.die e := by
  have h' : d.val ≠ e.val := fun hv => h (Fin.ext hv.symm)
  simp [State.die, State.setDie, h']

@[simp] theorem State.die_modDie (s : State) (d : DieIx) (f : Die → Die) : (s.modDie d f).die d = f (s.die d) := by
  simp [State.modDie]

theorem State.die_modDie_ne (s : State) (d e : DieIx) (f : Die → Die) (h : e ≠ d) : (s.modDie d f).die e = s.die e :=
  State.die_setDie_ne s d e _ h

@[simp] theorem Die.core_setCore (x : Die) (c : CoreIx) (y : Core) : (x.setCore c y).core c = y := by
  simp [Die.core, Die.setCore]

theorem Die.core_setCore_ne (x : Die) (c k : CoreIx) (y : Core) (h : k ≠ c) : (x.setCore c y).core k = x.core k := by
  have h' : c.val ≠ k.val := fun hv => h (Fin.ext hv.symm)
  simp [Die.core, Die.setCore, h']

@[simp] theorem State.core_setCore (s : State) (d : DieIx) (c : CoreIx) (y : Core) : (s.setCore d c y).core d c = y := by
  simp [State.core, State.setCore]

theorem State.core_setCore_ne (s : State) (d : DieIx) (c k : CoreIx) (y : Core) (h : k ≠ c) :
    (s.setCore d c y).core d k = s.core d k := by
  simp [State.core, State.setCore, Die.core_setCore_ne _ c k y h]

@[simp] theorem State.core_modCore (s : State) (d : DieIx) (c : CoreIx) (f : Core → Core) :
    (s.modCore d c f).core d c = f (s.core d c) := by
  simp [State.modCore]

@[simp] theorem State.core_setDie (s : State) (d : DieIx) (c : CoreIx) (x : Die) : (s.setDie d x).core d c = x.core c := by
  simp [State.core]

@[simp] theorem State.present_setDie (s : State) (d e : DieIx) (x : Die) : (s.setDie d x).present e = s.present e := rfl
@[simp] theorem State.present_modDie (s : State) (d e : DieIx) (f : Die → Die) : (s.modDie d f).present e = s.present e := rfl

/-- Setting a die twice keeps the second. -/
@[simp] theorem State.setDie_setDie (s : State) (d : DieIx) (x y : Die) : (s.setDie d x).setDie d y = s.setDie d y := by
  simp [State.setDie]

theorem State.setDie_die (s : State) (d : DieIx) : s.setDie d (s.die d) = s := by
  simp [State.setDie, State.die]

end Sys2Proof.Machine
end

