-- ==== Sys2Proof/Laws/Queue.lean ====
section
/-! SUPPORT. Command queues: what the operations on them append and what they leave alone. -/

namespace Sys2Proof.Machine

/-- An update of a die that keeps its queues keeps every queue. -/
theorem State.queue_modDie (s : State) (d e : DieIx) (q : QId) (f : Die → Die) (hu : ∀ x, (f x).uq = x.uq)
    (hc : ∀ x, (f x).cores = x.cores) : (s.modDie e f).queue d q = s.queue d q := by
  by_cases h : d = e
  · subst h; cases q <;> simp [State.queue, State.core, Die.core, hu, hc]
  · cases q <;> simp [State.queue, State.core, State.die_modDie_ne s e d f h]

theorem State.queue_modCore (s : State) (d e : DieIx) (c : CoreIx) (q : QId) (f : Core → Core) (hf : ∀ k, (f k).queue = k.queue) :
    (s.modCore e c f).queue d q = s.queue d q := by
  by_cases h : d = e
  · subst h
    cases q
    case core k =>
      by_cases hk : k = c
      · subst hk; simp [State.queue, State.modCore, State.setCore, State.core, hf]
      · simp [State.queue, State.modCore, State.setCore, State.core, Die.core_setCore_ne _ c k _ hk]
    all_goals simp [State.queue, State.modCore, State.setCore]
  · cases q <;> simp [State.queue, State.modCore, State.setCore, State.core, State.die_modDie_ne s e d _ h]

@[simp] theorem State.queue_setReg (s : State) (d e : DieIx) (q : QId) (off : Nat) (v : Word) :
    (s.setReg e off v).queue d q = s.queue d q := State.queue_modDie s d e q _ (fun _ => rfl) (fun _ => rfl)

@[simp] theorem State.queue_setRf (s : State) (d e : DieIx) (q : QId) (off lo len v : Nat) :
    (s.setRf e off lo len v).queue d q = s.queue d q := State.queue_setReg s d e q off _

@[simp] theorem State.queue_addSat (s : State) (d e : DieIx) (q : QId) (off lo len k : Nat) :
    (s.addSat e off lo len k).queue d q = s.queue d q := State.queue_setRf s d e q off lo len _

@[simp] theorem State.queue_setReg64 (s : State) (d e : DieIx) (q : QId) (off : Nat) (v : DWord) :
    (s.setReg64 e off v).queue d q = s.queue d q := by simp [State.setReg64]

@[simp] theorem State.queue_logFrom (s : State) (d e : DieIx) (q : QId) (src : Endpoint) (gen : BitVec 8) (code st det : Nat)
    (sent : Option DWord) : (s.logFrom e src gen code st det sent).queue d q = s.queue d q :=
  State.queue_modDie s d e q _ (fun _ => rfl) (fun _ => rfl)

/-- The queue that was set reads as set. -/
@[simp] theorem State.queue_setQueue (s : State) (d : DieIx) (q : QId) (x : CmdQueue) : (s.setQueue d q x).queue d q = x := by
  cases q <;> simp [State.queue, State.setQueue]

@[simp] theorem State.queue_modQueue (s : State) (d : DieIx) (q : QId) (f : CmdQueue → CmdQueue) :
    (s.modQueue d q f).queue d q = f (s.queue d q) := by simp [State.modQueue]

/-- A fold of updates that keep a queue keeps it. -/
theorem State.queue_foldl {α : Type} (l : List α) (f : State → α → State) (d : DieIx) (q : QId) (s : State)
    (h : ∀ t x, (f t x).queue d q = t.queue d q) : (l.foldl f s).queue d q = s.queue d q := by
  induction l generalizing s with
  | nil => rfl
  | cons x l ih => rw [List.foldl_cons, ih, h]

@[simp] theorem State.queue_capture (s : State) (d e : DieIx) (q : QId) (src : Nat) : (s.capture e src).queue d q = s.queue d q := by
  unfold State.capture
  apply State.queue_foldl
  intro t n
  dsimp only
  split <;> simp

@[simp] theorem State.queue_logDropped (s : State) (d : DieIx) (q : QId) (desc : Desc) (all : List Nat) :
    (s.logDropped d q desc all).queue d q = s.queue d q := by
  unfold State.logDropped
  apply State.queue_foldl
  intro t n
  split <;> simp

@[simp] theorem State.queue_noteDone (s : State) (d e : DieIx) (q : QId) (job : BitVec 12) (step kind st : Nat) :
    (s.noteDone e job step kind st).queue d q = s.queue d q := by
  unfold State.noteDone
  split
  · rfl
  · split
    · rfl
    · exact State.queue_modDie _ d e q _ (fun _ => rfl) (fun _ => rfl)

@[simp] theorem State.queue_noteBucket (s : State) (d e : DieIx) (q : QId) (desc : Desc) :
    (s.noteBucket e desc).queue d q = s.queue d q := by
  unfold State.noteBucket
  split
  · rfl
  dsimp only
  split
  · rfl
  · exact State.queue_modDie _ d e q _ (fun _ => rfl) (fun _ => rfl)

@[simp] theorem State.queue_noteCommit (s : State) (d e : DieIx) (q : QId) (desc : Desc) (st : Nat) :
    (s.noteCommit e desc st).queue d q = s.queue d q := by
  simp [State.noteCommit]

/-- The status that a record carries (R38, R96). -/
def State.recordStatus (s : State) (d : DieIx) (desc : Desc) (released : Option Stroke) (r : Result) : Nat :=
  pickStatus (match released with
    | some rel => if !notJudged (dKind desc) && decide (s.stroke d ≠ rel) then r.statuses ++ [stOverrun] else r.statuses
    | none => r.statuses)

/-- A record is appended to the records that wait; nothing else of the queue changes. -/
theorem State.record_queue (s : State) (d : DieIx) (q : QId) (desc : Desc) (ident : Nat) (rel : Option Stroke) (r : Result) :
    (s.record d q desc ident rel r).queue d q =
      { s.queue d q with done := (s.queue d q).done ++ [mkCompletion s d q desc (s.recordStatus d desc rel r) r] } := by
  have hn : ∀ (k : Core) (st : Nat), (notePushed k ident st).queue = k.queue := by
    intro k st; unfold notePushed; split <;> rfl
  have hst : ∀ b : Bool, (match rel with
      | some x => !notJudged (dKind desc) && decide (s.stroke d ≠ x)
      | none => false) = b → s.recordStatus d desc rel r = pickStatus (if b then r.statuses ++ [stOverrun] else r.statuses) := by
    intro b hb
    unfold State.recordStatus
    cases rel with
    | none => simp at hb; subst hb; simp
    | some x => simp only at hb ⊢; rw [hb]
  have hq : ∀ b : Bool, (if b = true then (s.addSat d rStkOverrun 0 32 1).capture d 6 else s).queue d q = s.queue d q := by
    intro b; split <;> simp
  unfold State.record
  simp only [State.queue_noteCommit]
  cases q with
  | core c => rw [State.queue_modCore _ d d c _ _ (fun k => hn k _), State.queue_modQueue, State.queue_logDropped, hq, hst _ rfl] <;> cases rel <;> rfl
  | _ => rw [State.queue_modQueue, State.queue_logDropped, hq, hst _ rfl] <;> cases rel <;> rfl

@[simp] theorem State.queue_claimAt (s : State) (d e : DieIx) (q p : QId) (x : Desc) : (s.claimAt e p x).queue d q = s.queue d q := by
  unfold State.claimAt State.claimCores
  repeat' split
  all_goals first
    | rfl
    | (apply State.queue_foldl; intro t a; simp)

/-- Starting the head of a queue only appends to the records that wait. -/
theorem State.startHead_done (s t : State) (d : DieIx) (q : QId) (h : s.startHead d q = some t) :
    ∃ l, (t.queue d q).done = (s.queue d q).done ++ l := by
  cases hq : (s.queue d q).entries with
  | nil => simp [State.startHead, hq] at h
  | cons e es =>
    simp only [State.startHead, hq] at h
    repeat' split at h
    all_goals first
      | (simp at h; done)
      | (obtain rfl := Option.some.inj h
         first
         | exact ⟨_, by rw [State.record_queue]; simp [CmdQueue.refill]; rfl⟩
         | exact ⟨[], by simp [CmdQueue.refill]⟩)

theorem State.startReady_done (n : Nat) (s : State) (d : DieIx) (q : QId) :
    ∃ l, ((s.startReady d q n).queue d q).done = (s.queue d q).done ++ l := by
  induction n generalizing s with
  | zero => exact ⟨[], by simp [State.startReady]⟩
  | succ n ih =>
    simp only [State.startReady]
    split
    · exact ⟨[], by simp⟩
    · rename_i t ht
      obtain ⟨a, ha⟩ := State.startHead_done s t d q ht
      obtain ⟨b, hb⟩ := ih t
      exact ⟨a ++ b, by rw [hb, ha, List.append_assoc]⟩

/-- Starting what can start in a queue only appends to its records. -/
theorem State.startQueue_done (s : State) (d : DieIx) (q : QId) :
    ∃ l, ((s.startQueue d q).queue d q).done = (s.queue d q).done ++ l := State.startReady_done _ s d q

/-- Setting one queue leaves every other queue alone. -/
theorem State.queue_setQueue_ne (s : State) (d e : DieIx) (q p : QId) (x : CmdQueue) (h : ¬ (e = d ∧ p = q)) :
    (s.setQueue e p x).queue d q = s.queue d q := by
  by_cases hd : d = e
  · subst hd
    have hp : p ≠ q := fun hp => h ⟨rfl, hp⟩
    cases p with
    | core k =>
      cases q with
      | core c =>
        have hk : c ≠ k := fun hc => hp (by rw [hc])
        simp [State.queue, State.setQueue, State.modCore, State.core_setCore_ne _ d k c _ hk]
      | _ => simp [State.queue, State.setQueue, State.modCore, State.setCore]
    | row k =>
      cases q with
      | core c => simp [State.queue, State.setQueue, State.core, Die.core]
      | row c =>
        have hk : k.val ≠ c.val := fun hc => hp (by rw [Fin.ext hc])
        simp [State.queue, State.setQueue, qUncore]
        rw [Vector.getElem_set_ne]
        omega
      | _ => simp [State.queue, State.setQueue, qUncore] <;> (rw [Vector.getElem_set_ne]; omega)
    | _ =>
      cases q with
      | core c => simp [State.queue, State.setQueue, State.core, Die.core]
      | row c =>
        simp [State.queue, State.setQueue, qUncore]
        rw [Vector.getElem_set_ne]; omega
      | _ => first
        | (exact absurd rfl hp)
        | (simp [State.queue, State.setQueue, qUncore])
  · cases p <;> cases q <;> simp [State.queue, State.setQueue, State.modCore, State.setCore, State.core, State.die_modDie_ne s e d _ hd]

/-- The records of a queue after are those before with more behind them. -/
def DoneGrows (d : DieIx) (q : QId) (s t : State) : Prop := ∃ l, (t.queue d q).done = (s.queue d q).done ++ l

theorem DoneGrows.refl (d : DieIx) (q : QId) (s : State) : DoneGrows d q s s := ⟨[], by simp⟩

theorem DoneGrows.trans {d : DieIx} {q : QId} {s t u : State} (h : DoneGrows d q s t) (k : DoneGrows d q t u) :
    DoneGrows d q s u := by
  obtain ⟨a, ha⟩ := h
  obtain ⟨b, hb⟩ := k
  exact ⟨a ++ b, by rw [hb, ha, List.append_assoc]⟩

theorem DoneGrows.of_eq {d : DieIx} {q : QId} {s t : State} (h : t.queue d q = s.queue d q) : DoneGrows d q s t :=
  ⟨[], by simp [h]⟩

theorem DoneGrows.foldl {α : Type} {d : DieIx} {q : QId} (l : List α) (f : State → α → State) (h : ∀ t x, DoneGrows d q t (f t x))
    (s : State) : DoneGrows d q s (l.foldl f s) := by
  induction l generalizing s with
  | nil => exact .refl d q s
  | cons x l ih => exact (h s x).trans (ih _)

/-- Filing a record in one queue leaves every other queue alone. -/
theorem State.record_queue_ne (s : State) (d e : DieIx) (q p : QId) (desc : Desc) (ident : Nat) (rel : Option Stroke) (r : Result)
    (h : ¬ (e = d ∧ p = q)) : (s.record e p desc ident rel r).queue d q = s.queue d q := by
  have hn : ∀ (k : Core) (st : Nat), (notePushed k ident st).queue = k.queue := by
    intro k st; unfold notePushed; split <;> rfl
  have hq : ∀ b : Bool, (if b = true then (s.addSat e rStkOverrun 0 32 1).capture e 6 else s).queue d q = s.queue d q := by
    intro b; split <;> simp
  have hc : ∀ (t : State) (st : Nat), (t.noteCommit e desc st).queue d q = t.queue d q := by
    intro t st
    simp [State.noteCommit]
  have hl : ∀ (t : State) (all : List Nat), (t.logDropped e p desc all).queue d q = t.queue d q := by
    intro t all
    unfold State.logDropped
    apply State.queue_foldl
    intro u n
    split <;> simp
  unfold State.record
  simp only [hc]
  cases p with
  | core c => rw [State.queue_modCore _ d e c _ _ (fun k => hn k _), State.modQueue, State.queue_setQueue_ne _ d e q _ _ h, hl, hq]
  | _ => rw [State.modQueue, State.queue_setQueue_ne _ d e q _ _ h, hl, hq]

theorem State.startHead_grows (s t : State) (d e : DieIx) (q p : QId) (h : s.startHead e p = some t) : DoneGrows d q s t := by
  by_cases hp : e = d ∧ p = q
  · obtain ⟨rfl, rfl⟩ := hp; exact State.startHead_done s t e p h
  · apply DoneGrows.of_eq
    cases hq : (s.queue e p).entries with
    | nil => simp [State.startHead, hq] at h
    | cons x xs =>
      simp only [State.startHead, hq] at h
      repeat' split at h
      all_goals first
        | (simp at h; done)
        | (obtain rfl := Option.some.inj h
           first
           | (rw [State.record_queue_ne _ d e q p _ _ _ _ hp, State.queue_setQueue_ne _ d e q p _ hp])
           | (rw [State.queue_claimAt, State.modQueue, State.queue_setQueue_ne _ d e q p _ hp, State.queue_setQueue_ne _ d e q p _ hp]))

theorem State.startQueue_grows (s : State) (d e : DieIx) (q p : QId) : DoneGrows d q s (s.startQueue e p) := by
  have h : ∀ n (t : State), DoneGrows d q t (t.startReady e p n) := by
    intro n
    induction n with
    | zero => intro t; exact .refl d q t
    | succ n ih =>
      intro t
      simp only [State.startReady]
      split
      · exact .refl d q t
      · rename_i u hu
        exact (State.startHead_grows t u d e q p hu).trans (ih u)
  exact h _ s

theorem State.startAfter_grows (s : State) (d : DieIx) (q p : QId) : DoneGrows d q s (s.startAfter p) := by
  have hall : ∀ (t : State) (e : DieIx), DoneGrows d q t (if t.present e ∧ !(t.die e).held then t.startAll e else t) := by
    intro t e
    split
    · exact DoneGrows.foldl _ _ (fun u p => State.startQueue_grows u d e q p) t
    · exact .refl d q t
  cases p with
  | cru => exact DoneGrows.foldl _ _ hall s
  | hlt => exact DoneGrows.foldl _ _ hall s
  | _ => exact .refl d q s

@[simp] theorem State.queue_loseMem (s : State) (d : DieIx) (q : QId) (key n : Nat) : (s.loseMem key n).queue d q = s.queue d q := by
  cases q <;> rfl

@[simp] theorem State.queue_spoilClaim (s : State) (d e a : DieIx) (q : QId) (k : Nat) : (s.spoilClaim e a k).queue d q = s.queue d q := by
  unfold State.spoilClaim
  apply State.queue_foldl
  intro t c
  simp

@[simp] theorem State.queue_releaseClaim (s : State) (d e : DieIx) (q : QId) : (s.releaseClaim e).queue d q = s.queue d q := by
  simp [State.releaseClaim]

theorem State.queue_cruEnd (s : State) (d e : DieIx) (q : QId) (r : Running) : (s.cruEnd e r).queue d q = s.queue d q := by
  have hf : ∀ b : Bool, (if s.claims e r.desc then
      (cruDies (s.cruMask e r.desc)).foldl (fun t a =>
        (if b = true then t.spoilClaim e a (dAux r.desc % 64) else t).releaseClaim a) s
    else s).queue d q = s.queue d q := by
    intro b
    split
    · apply State.queue_foldl
      intro t a
      split <;> simp
    · rfl
  unfold State.cruEnd
  dsimp only
  split
  · refine Eq.trans (State.queue_modDie _ _ _ _ _ ?_ ?_) (by simpa using hf true) <;> (intro _; rfl)
  · simpa using hf false

theorem State.queue_hltEnd (s : State) (d e : DieIx) (q : QId) : (s.hltEnd e).queue d q = s.queue d q := by
  unfold State.hltEnd State.setLends
  simp only [State.queue_setRf, State.queue_setReg]
  rw [State.queue_modDie, State.queue_modDie] <;> intro _ <;> rfl

/-- An update that keeps the timer keeps the stroke. -/
theorem State.stroke_modDie (s : State) (d e : DieIx) (f : Die → Die) (h : ∀ x, (f x).timer = x.timer) :
    (s.modDie e f).stroke d = s.stroke d := by
  by_cases hd : d = e
  · subst hd; simp [State.stroke, h]
  · simp [State.stroke, State.die_modDie_ne s e d f hd]

@[simp] theorem State.stroke_setReg (s : State) (d e : DieIx) (off : Nat) (v : Word) : (s.setReg e off v).stroke d = s.stroke d :=
  State.stroke_modDie s d e _ (fun _ => rfl)

@[simp] theorem State.stroke_setRf (s : State) (d e : DieIx) (off lo len v : Nat) : (s.setRf e off lo len v).stroke d = s.stroke d :=
  State.stroke_setReg s d e off _

@[simp] theorem State.stroke_modCore (s : State) (d e : DieIx) (c : CoreIx) (f : Core → Core) :
    (s.modCore e c f).stroke d = s.stroke d := State.stroke_modDie s d e _ (fun _ => rfl)

@[simp] theorem State.stroke_setQueue (s : State) (d e : DieIx) (q : QId) (x : CmdQueue) :
    (s.setQueue e q x).stroke d = s.stroke d := by
  cases q with
  | core c => exact State.stroke_modCore s d e c _
  | _ => exact State.stroke_modDie s d e _ (fun _ => rfl)

@[simp] theorem State.stroke_modQueue (s : State) (d e : DieIx) (q : QId) (f : CmdQueue → CmdQueue) :
    (s.modQueue e q f).stroke d = s.stroke d := State.stroke_setQueue s d e q _

@[simp] theorem State.stroke_loseMem (s : State) (d : DieIx) (key n : Nat) : (s.loseMem key n).stroke d = s.stroke d := rfl

theorem State.stroke_foldl {α : Type} (l : List α) (f : State → α → State) (d : DieIx) (s : State)
    (h : ∀ t x, (f t x).stroke d = t.stroke d) : (l.foldl f s).stroke d = s.stroke d := by
  induction l generalizing s with
  | nil => rfl
  | cons x l ih => rw [List.foldl_cons, ih, h]

@[simp] theorem State.stroke_spoilClaim (s : State) (d e a : DieIx) (k : Nat) : (s.spoilClaim e a k).stroke d = s.stroke d := by
  unfold State.spoilClaim
  apply State.stroke_foldl
  intro t c
  simp

@[simp] theorem State.stroke_releaseClaim (s : State) (d e : DieIx) : (s.releaseClaim e).stroke d = s.stroke d := by
  simp [State.releaseClaim]

theorem State.stroke_cruEnd (s : State) (d e : DieIx) (r : Running) : (s.cruEnd e r).stroke d = s.stroke d := by
  have hf : ∀ b : Bool, (if s.claims e r.desc then
      (cruDies (s.cruMask e r.desc)).foldl (fun t a =>
        (if b = true then t.spoilClaim e a (dAux r.desc % 64) else t).releaseClaim a) s
    else s).stroke d = s.stroke d := by
    intro b
    split
    · apply State.stroke_foldl
      intro t a
      split <;> simp
    · rfl
  unfold State.cruEnd
  dsimp only
  split
  · refine Eq.trans (State.stroke_modDie _ _ _ _ ?_) (by simpa using hf true); (intro _; rfl)
  · simpa using hf false

theorem State.stroke_hltEnd (s : State) (d e : DieIx) : (s.hltEnd e).stroke d = s.stroke d := by
  unfold State.hltEnd State.setLends
  simp only [State.stroke_setRf, State.stroke_setReg]
  rw [State.stroke_modDie, State.stroke_modDie] <;> intro _ <;> rfl

/-- The record that a finished command leaves (R91): its place behind those that waited, its tag, kind, job and detail, and the status
by R38 and R96. -/
theorem State.finish_done (s : State) (d : DieIx) (q : QId) (r : Running) (res : Result) :
    ∃ x l, ((s.finish d q r res).queue d q).done = (s.queue d q).done ++ x :: l
      ∧ x.tag = BitVec.ofNat 16 (dTag r.desc) ∧ x.kind = BitVec.ofNat 8 (dKind r.desc) ∧ x.job = dJob r.desc
      ∧ x.epoch = BitVec.ofNat 8 (dEpoch r.desc) ∧ x.step = BitVec.ofNat 32 (dStep r.desc) ∧ x.irq = dIrq r.desc
      ∧ x.status = BitVec.ofNat 8 (s.recordStatus d r.desc (some r.released) res)
      ∧ x.cflags = res.cflags ∧ x.hallmark = res.hallmark ∧ x.detail = res.detail := by
  have key : ∀ (u : State), (u.queue d q).done = (s.queue d q).done → u.stroke d = s.stroke d →
      ∃ x l, ((((u.record d q r.desc r.ident (some r.released) res).startQueue d q).startAfter q).queue d q).done =
        (s.queue d q).done ++ x :: l
      ∧ x.tag = BitVec.ofNat 16 (dTag r.desc) ∧ x.kind = BitVec.ofNat 8 (dKind r.desc) ∧ x.job = dJob r.desc
      ∧ x.epoch = BitVec.ofNat 8 (dEpoch r.desc) ∧ x.step = BitVec.ofNat 32 (dStep r.desc) ∧ x.irq = dIrq r.desc
      ∧ x.status = BitVec.ofNat 8 (s.recordStatus d r.desc (some r.released) res)
      ∧ x.cflags = res.cflags ∧ x.hallmark = res.hallmark ∧ x.detail = res.detail := by
    intro u hu hs
    obtain ⟨a, ha⟩ := (State.startQueue_grows (u.record d q r.desc r.ident (some r.released) res) d d q q).trans
      (State.startAfter_grows _ d q q)
    rw [State.record_queue] at ha
    refine ⟨_, a, by rw [ha, hu]; simp; rfl, rfl, rfl, rfl, rfl, rfl, rfl, ?_, rfl, rfl, rfl⟩
    simp [mkCompletion, State.recordStatus, hs]
  unfold State.finish
  have h0 : ∀ (t : State), (t.queue d q).done = (s.queue d q).done → t.stroke d = s.stroke d →
      ((t.modQueue d q (fun x => { x with running := x.running.filter (fun y => y.ident != r.ident) })).queue d q).done =
        (s.queue d q).done := by
    intro t ht _; simp [ht]
  have hm : ∀ (t : State) (f : Die → Die), (∀ x, (f x).uq = x.uq) → (∀ x, (f x).cores = x.cores) →
      ((t.modDie d f).queue d q).done = (t.queue d q).done := by
    intro t f hu hc; rw [State.queue_modDie _ _ _ _ _ hu hc]
  have he : ∀ (t : State) (c : CoreIx), (t.modCore d c (fun k => dropStream r.ident (endCore r res k))).queue d q = t.queue d q := by
    intro t c
    apply State.queue_modCore
    intro k
    unfold dropStream endCore
    dsimp only
    repeat' split
    all_goals rfl
  have hs0 := State.stroke_modDie s d d (fun x =>
    { x with outstanding := x.outstanding.filter (fun o => !(decide (o.queue = qNum q) && decide (o.ident = r.ident))) }) (fun _ => rfl)
  have hq0 := h0 _ (hm s (fun x =>
    { x with outstanding := x.outstanding.filter (fun o => !(decide (o.queue = qNum q) && decide (o.ident = r.ident))) })
    (fun _ => rfl) (fun _ => rfl)) hs0
  apply key
  · cases q with
    | core c => dsimp only; refine Eq.trans (hm _ _ ?_ ?_) (by rw [he]; exact hq0) <;> (intro _; rfl)
    | cru => dsimp only; rw [State.queue_cruEnd]; exact hq0
    | hlt => dsimp only; rw [State.queue_hltEnd]; exact hq0
    | col => refine Eq.trans (hm _ _ ?_ ?_) hq0 <;> (intro _; rfl)
    | txe => refine Eq.trans (hm _ _ ?_ ?_) hq0 <;> (intro _; rfl)
    | _ => exact hq0
  · cases q with
    | core c => 
      dsimp only
      refine Eq.trans (State.stroke_modDie _ _ _ _ ?_) (by rw [State.stroke_modCore, State.stroke_modQueue]; exact hs0)
      intro _; rfl
    | cru => dsimp only; rw [State.stroke_cruEnd, State.stroke_modQueue]; exact hs0
    | hlt => dsimp only; rw [State.stroke_hltEnd, State.stroke_modQueue]; exact hs0
    | col =>
      refine Eq.trans (State.stroke_modDie _ _ _ _ ?_) ?_
      · intro _; rfl
      · rw [State.stroke_modQueue]; exact hs0
    | txe =>
      refine Eq.trans (State.stroke_modDie _ _ _ _ ?_) ?_
      · intro _; rfl
      · rw [State.stroke_modQueue]; exact hs0
    | _ => dsimp only; rw [State.stroke_modQueue]; exact hs0

end Sys2Proof.Machine
end

