-- ==== Sys2Proof/WellFormed.lean ====
section
/-! DEFINITION. Well-formed commands: operands whose type admits more than the manual's fields do. -/

namespace Sys2Proof

/-- A message has its 36 kind-specific bytes and at most 4,032 bytes of data (R335). -/
def Msg.wf (m : Msg) : Bool := decide (m.spec.length = 36) && decide (m.data.length ≤ 4032)

/-- A frame has a 32-byte header and up to 64 payload units of 64 bytes (R334). -/
def frameWf (f : List Byte) : Bool := decide (32 ≤ f.length) && decide (f.length ≤ 32 + 4096) && decide ((f.length - 32) % 64 = 0)

/-- Operands within the manual's bounds: a window write inside the window (R86), messages of the kind that the command names (R335),
frames (R334), lanes of a port (R333), words within the I3C offsets (R501), descriptors within a ring (R468). -/
def Instr.wf : Instr → Bool
  | .strokeFrame _ _ frame => frameWf frame
  | .presence _ m => m.wf && decide (m.mkind = 0x30)
  | .absenceNotice _ m => m.wf && decide (m.mkind = 0x31)
  | .queueWindowWrite _ _ _ off bs => decide (1 ≤ bs.length) && decide (off.val + bs.length ≤ 64)
  | .phaseDone _ m => m.wf && decide (m.mkind = 0x38)
  | .vote _ m => m.wf && decide (m.mkind = 0x33)
  | .verdict _ m => m.wf && decide (m.mkind = 0x34)
  | .verdictAck _ m => m.wf && decide (m.mkind = 0x35)
  | .verdictQuery _ m => m.wf && decide (m.mkind = 0x36)
  | .data _ _ frame => frameWf frame.frame
  | .ack _ _ frame => frameWf frame
  | .heartbeat _ _ frame => frameWf frame
  | .portTraining _ _ lanes => decide (lanes ≤ 16)
  | .hello _ _ frame => frameWf frame
  | .echo _ _ frame => frameWf frame
  | .echoReply _ _ frame => frameWf frame
  | .accept _ _ frame => frameWf frame
  | .reject _ _ frame => frameWf frame
  | .boardPresence _ m => m.wf && decide (m.mkind = 0x37)
  | .readReq _ m => m.wf && decide (m.mkind = 0x01)
  | .writeReq _ m => m.wf && decide (m.mkind = 0x02)
  | .readReply _ m => m.wf && decide (m.mkind = 0x03)
  | .writeAck _ m => m.wf && decide (m.mkind = 0x04)
  | .contrib _ m _ => m.wf && decide (m.mkind = 0x10)
  | .partialMsg _ m _ => m.wf && decide (m.mkind = 0x11)
  | .result _ m => m.wf && decide (m.mkind = 0x12)
  | .scalePropose _ m => m.wf && decide (m.mkind = 0x13)
  | .scaleSet _ m => m.wf && decide (m.mkind = 0x14)
  | .scaleFix _ m => m.wf && decide (m.mkind = 0x15)
  | .gather _ m => m.wf && decide (m.mkind = 0x16)
  | .txCounts _ m => m.wf && decide (m.mkind = 0x20)
  | .txGrant _ m => m.wf && decide (m.mkind = 0x21)
  | .txRows _ m => m.wf && decide (m.mkind = 0x22)
  | .txReturn _ m => m.wf && decide (m.mkind = 0x23)
  | .resetNotice _ m => m.wf && decide (m.mkind = 0x32)
  | .i3cPrivateWrite _ bs _ _ => decide (bs.length ≤ 2 ^ 14)
  | .i3cPrivateRead n => decide (n ≤ 2 ^ 14)
  | .pelSqTail _ _ descs => decide (descs.length < 4096)
  | .strokeBoundary .. | .lossOfLock .. | .relock .. | .strokeIn | .backupTakeover .. | .freeRun ..
  | .throttleNotice .. | .absenceDeclared .. | .strokeWrap | .partialDescriptorDiscard .. | .completionRecord .. | .kernel ..
  | .integerInstruction .. | .scalarLoad .. | .scalarStore .. | .conditionalBranch .. | .call .. | .callr ..
  | .scalarFp .. | .ctlrd .. | .ctlwr .. | .cpush .. | .waitstroke .. | .brk ..
  | .endK .. | .resume .. | .coreCrBase .. | .coreCrCtl .. | .coreCrPtr .. | .copy ..
  | .fill .. | .replyTimeout .. | .snap .. | .reseed .. | .load .. | .mul ..
  | .diag .. | .drainPop .. | .tableWaitTimeout .. | .mxwait .. | .mxlat .. | .setvl ..
  | .setvfull .. | .vstatrd .. | .vstatwr .. | .vslice .. | .vfence .. | .vld ..
  | .vst .. | .vldff .. | .vfadd .. | .vfsub .. | .vfmul .. | .vfdiv ..
  | .vfsqrt .. | .vfmin .. | .vfmax .. | .vffma .. | .vffms .. | .vffnma ..
  | .vfabs .. | .vfneg .. | .vfsgnj .. | .vfeq .. | .vflt .. | .vfle ..
  | .vfunord .. | .vf2i .. | .vi2f .. | .vfsumt .. | .vfsums .. | .vfmaxr ..
  | .vfminr .. | .vadd .. | .vsub .. | .vmul .. | .vand .. | .vor ..
  | .vxor .. | .vsll .. | .vsrl .. | .vsra .. | .vmin .. | .vmax ..
  | .vminu .. | .vmaxu .. | .veq .. | .vlt .. | .vltu .. | .vsumt ..
  | .vmaxr .. | .vminr .. | .vsel .. | .vcopy .. | .vindex .. | .vtog ..
  | .vshu .. | .vshd .. | .vpack .. | .pand .. | .por .. | .pxor ..
  | .pandn .. | .pset .. | .pclr .. | .ppop .. | .plow .. | .push ..
  | .pop .. | .clear .. | .rechunk .. | .tableLoad .. | .bilCtxCfg .. | .bilCtxBase ..
  | .bilCtxSize .. | .softmaxFwd .. | .normFwd .. | .softmaxBwd .. | .normBwd .. | .flush ..
  | .drop .. | .rowCtxBase .. | .rowCtxGeom .. | .update .. | .bucketOpen .. | .bucketClose ..
  | .updSet .. | .updReseed .. | .bktReseed .. | .structLoad .. | .structFree .. | .values ..
  | .factorSolve .. | .solve .. | .refine .. | .adjoint .. | .ipmStep .. | .phase ..
  | .crucibleTask .. | .cutoff .. | .arm .. | .veto .. | .updCmtC .. | .voteCutoff ..
  | .rootDecision .. | .commitStroke .. | .askBackupRoot .. | .refresh .. | .rfm .. | .phaseUpdate ..
  | .hbmPowerDown .. | .promotion .. | .temperatureReading .. | .hbmLaneFailure .. | .hbmTestGo .. | .testHold ..
  | .wrapperOperationEnd .. | .poisonWriteBack .. | .scrub .. | .leak .. | .flipArm .. | .eccRowlog ..
  | .frameInterval .. | .retransmission .. | .silence .. | .linkLaneFailure .. | .retrain .. | .helloInterval ..
  | .helloTimeout .. | .boardMaster | .reenable .. | .disable .. | .ucieLinkFailure .. | .allreduce ..
  | .allgather .. | .broadcast .. | .dispatch .. | .combine .. | .contributionDeadline .. | .resultDeadline ..
  | .colCtxCfg .. | .colCtxNext .. | .colCtxAtLo .. | .colCtxGrpBase .. | .colAlg .. | .colReseed ..
  | .hang .. | .missingStrokeReport .. | .watchdog | .engineReset .. | .coreReset .. | .quadrantReset ..
  | .dieReset .. | .moduleWarmReset .. | .resetComplete .. | .resetTimeout .. | .warmResetTimeout | .memberReturn ..
  | .hltResetCtl .. | .replay .. | .replayClaim .. | .assayUnit .. | .starved .. | .touchstone ..
  | .touchstoneDeadline .. | .assayPass .. | .asyQfree .. | .powerUp .. | .powerDownSequence | .undervoltage
  | .undervoltageRelease | .brownOut | .moduleTrip .. | .dieTrip .. | .junctionReading .. | .coolantReading ..
  | .capEvaluation .. | .throtN .. | .modResetN .. | .a1Entry .. | .a0Request .. | .a2Entry ..
  | .a3Entry .. | .pwrCap .. | .pelCqHead .. | .pelAqCtl .. | .pelAcqBase .. | .hostInterfaceReset ..
  | .nop .. | .queueBind .. | .jobCreate .. | .jobStart .. | .planStep .. | .jobResume ..
  | .jobTeardown .. | .hostCopy .. | .attest .. | .imageWrite .. | .imageSelect .. | .serviceModuleWarmReset ..
  | .clearEscalationCounters .. | .eraseLibrary .. | .servicePortReenable .. | .hbmRepairRun .. | .serviceDomainReset .. | .ownerKeyEnrolment ..
  | .ownerKeyRevocation .. | .selfCheck .. | .stkCapCtl .. | .registerWrite .. | .inputRestored .. | .faultClear ..
  | .pcieLinkUp .. | .testPortAccess .. => true

end Sys2Proof
end

