-- ==== Sys2Proof/Tests/Slice0.lean ====
section
/-! SUPPORT. Tests: ill-formed commands, words of the manual, steps on small states, and a witness for the hypotheses of every
obligation. -/

open Sys2Proof Sys2Proof.Machine
open Host (Outcome)
namespace Sys2Proof.Tests

set_option Elab.async false

/-- Every die out of reset. -/
def awake : State := { State.reset with dies := Vector.ofFn (fun d : Fin 8 => { Die.reset d with held := false }) }
theorem awake_ready (d : DieIx) : Ready awake d := by revert d; decide
/-- A kernel runs on core c of die 0 from offset pc. -/
def kernelAt (c : CoreIx) (pc : DWord) : State :=
  awake.modCore 0 c (fun k => { k with proc := { k.proc with running := true, pc := pc } })
/-- Word w stands at offset pc of core c's scratchpad. -/
def withWord (s : State) (c : CoreIx) (pc : Nat) (w : Nat) : State :=
  { s with mem := ⟨pokeCells s.mem.cells (memKey 0 1 (spBase c + pc)) (leBytes 4 w), s.mem.marks⟩ }
/-- A kernel runs on core c of die 0, word w its next instruction. -/
def kernelOn (c : CoreIx) (pc : DWord) (w : Nat) : State := withWord (kernelAt c pc) c pc.toNat w
/-- A kernel runs on core 0 of die 0 with a span of n bytes. -/
def spanOf (n : Nat) : State := (kernelAt 0 0).modCore 0 0 (fun k => { k with vec := { k.vec with span := n } })
/-- That kernel with word w as its next instruction. -/
def spanAt (n : Nat) (w : Nat) : State := withWord (spanOf n) 0 0 w
/-- A running command with a descriptor. -/
def runAs (x : Desc) : Running := ⟨5, x, 0, 0, false, 0, 0, [], 0, 0, false, none, none, [], false, 0⟩
/-- That command runs in queue q of die 0 of a state. -/
def runIn (s : State) (q : QId) (x : Desc) : State := s.modQueue 0 q (fun y => { y with running := [runAs x] })
/-- Die 0 with port p in a state. -/
def portIn (p : PortIx) (st : Nat) : State := awake.setPstate 0 p st
/-- A read request to die 0. -/
def readReq : Msg := ⟨0, 64, 63, 0, 0, 0, 1, 0, 0, List.replicate 36 0, [], 0⟩
/-- A message of a kind for die 0 with a kind-specific field. -/
def kindMsg (k : BitVec 8) (spec : List Byte) : Msg := { readReq with mkind := k, spec := spec }
/-- Descriptor of a COPY of 8 FP32 elements from scratchpad offset 0 to 0x40 of core 0 of die 0, or of a FILL there with a pattern. -/
def copyDesc (fill : Bool) (rows : Nat) : Desc :=
  setFld (setFld (setFld (setFld (setFld (setFld (0 : Desc) 0 8 (if fill then 0x11 else 0x10)) (8 * 24) 64 (if fill then 0x3F800000 else 2 ^ 39 + spBase 0))
    (8 * 32) 64 (2 ^ 39 + spBase 0 + 0x40)) (8 * 40) 32 8) (8 * 44) 32 rows) (8 * 56) 8 (if fill then 0x10 else 0x11)
/-- Die 0 has trained stacks. -/
def served : State := awake.setRf 0 rHbmStatus 4 4 15

/-! Ill-formed commands: one for each check. -/

/-- A message whose kind-specific part is too short. -/
def shortMsg (k : BitVec 8) : Msg := kindMsg k [0]
/-- A message with more than 4,032 bytes of data. -/
def longMsg : Msg := { kindMsg 0x30 (List.replicate 36 0) with data := List.replicate 4033 0 }
theorem test_wf_messages_0 : (Instr.presence 0 (shortMsg 0x30)).wf = false ∧ (Instr.presence 0 (kindMsg 0 (List.replicate 36 0))).wf = false ∧ (Instr.presence 0 (kindMsg 0x30 (List.replicate 36 0))).wf = true ∧
    (Instr.absenceNotice 0 (shortMsg 0x31)).wf = false ∧ (Instr.absenceNotice 0 (kindMsg 0 (List.replicate 36 0))).wf = false ∧ (Instr.absenceNotice 0 (kindMsg 0x31 (List.replicate 36 0))).wf = true ∧
    (Instr.phaseDone 0 (shortMsg 0x38)).wf = false ∧ (Instr.phaseDone 0 (kindMsg 0 (List.replicate 36 0))).wf = false ∧ (Instr.phaseDone 0 (kindMsg 0x38 (List.replicate 36 0))).wf = true ∧
    (Instr.vote 0 (shortMsg 0x33)).wf = false ∧ (Instr.vote 0 (kindMsg 0 (List.replicate 36 0))).wf = false ∧ (Instr.vote 0 (kindMsg 0x33 (List.replicate 36 0))).wf = true ∧
    (Instr.verdict 0 (shortMsg 0x34)).wf = false ∧ (Instr.verdict 0 (kindMsg 0 (List.replicate 36 0))).wf = false ∧ (Instr.verdict 0 (kindMsg 0x34 (List.replicate 36 0))).wf = true ∧
    (Instr.verdictAck 0 (shortMsg 0x35)).wf = false ∧ (Instr.verdictAck 0 (kindMsg 0 (List.replicate 36 0))).wf = false ∧ (Instr.verdictAck 0 (kindMsg 0x35 (List.replicate 36 0))).wf = true ∧
    (Instr.verdictQuery 0 (shortMsg 0x36)).wf = false ∧ (Instr.verdictQuery 0 (kindMsg 0 (List.replicate 36 0))).wf = false ∧ (Instr.verdictQuery 0 (kindMsg 0x36 (List.replicate 36 0))).wf = true ∧
    (Instr.boardPresence 0 (shortMsg 0x37)).wf = false ∧ (Instr.boardPresence 0 (kindMsg 0 (List.replicate 36 0))).wf = false ∧ (Instr.boardPresence 0 (kindMsg 0x37 (List.replicate 36 0))).wf = true ∧
    (Instr.readReq 0 (shortMsg 0x01)).wf = false ∧ (Instr.readReq 0 (kindMsg 0 (List.replicate 36 0))).wf = false ∧ (Instr.readReq 0 (kindMsg 0x01 (List.replicate 36 0))).wf = true := by decide +kernel
theorem test_wf_messages_1 : (Instr.writeReq 0 (shortMsg 0x02)).wf = false ∧ (Instr.writeReq 0 (kindMsg 0 (List.replicate 36 0))).wf = false ∧ (Instr.writeReq 0 (kindMsg 0x02 (List.replicate 36 0))).wf = true ∧
    (Instr.readReply 0 (shortMsg 0x03)).wf = false ∧ (Instr.readReply 0 (kindMsg 0 (List.replicate 36 0))).wf = false ∧ (Instr.readReply 0 (kindMsg 0x03 (List.replicate 36 0))).wf = true ∧
    (Instr.writeAck 0 (shortMsg 0x04)).wf = false ∧ (Instr.writeAck 0 (kindMsg 0 (List.replicate 36 0))).wf = false ∧ (Instr.writeAck 0 (kindMsg 0x04 (List.replicate 36 0))).wf = true ∧
    (Instr.contrib 0 (shortMsg 0x10) 0).wf = false ∧ (Instr.contrib 0 (kindMsg 0 (List.replicate 36 0)) 0).wf = false ∧ (Instr.contrib 0 (kindMsg 0x10 (List.replicate 36 0)) 0).wf = true ∧
    (Instr.partialMsg 0 (shortMsg 0x11) 0).wf = false ∧ (Instr.partialMsg 0 (kindMsg 0 (List.replicate 36 0)) 0).wf = false ∧ (Instr.partialMsg 0 (kindMsg 0x11 (List.replicate 36 0)) 0).wf = true ∧
    (Instr.result 0 (shortMsg 0x12)).wf = false ∧ (Instr.result 0 (kindMsg 0 (List.replicate 36 0))).wf = false ∧ (Instr.result 0 (kindMsg 0x12 (List.replicate 36 0))).wf = true ∧
    (Instr.scalePropose 0 (shortMsg 0x13)).wf = false ∧ (Instr.scalePropose 0 (kindMsg 0 (List.replicate 36 0))).wf = false ∧ (Instr.scalePropose 0 (kindMsg 0x13 (List.replicate 36 0))).wf = true ∧
    (Instr.scaleSet 0 (shortMsg 0x14)).wf = false ∧ (Instr.scaleSet 0 (kindMsg 0 (List.replicate 36 0))).wf = false ∧ (Instr.scaleSet 0 (kindMsg 0x14 (List.replicate 36 0))).wf = true ∧
    (Instr.scaleFix 0 (shortMsg 0x15)).wf = false ∧ (Instr.scaleFix 0 (kindMsg 0 (List.replicate 36 0))).wf = false ∧ (Instr.scaleFix 0 (kindMsg 0x15 (List.replicate 36 0))).wf = true := by decide +kernel
theorem test_wf_messages_2 : (Instr.gather 0 (shortMsg 0x16)).wf = false ∧ (Instr.gather 0 (kindMsg 0 (List.replicate 36 0))).wf = false ∧ (Instr.gather 0 (kindMsg 0x16 (List.replicate 36 0))).wf = true ∧
    (Instr.txCounts 0 (shortMsg 0x20)).wf = false ∧ (Instr.txCounts 0 (kindMsg 0 (List.replicate 36 0))).wf = false ∧ (Instr.txCounts 0 (kindMsg 0x20 (List.replicate 36 0))).wf = true ∧
    (Instr.txGrant 0 (shortMsg 0x21)).wf = false ∧ (Instr.txGrant 0 (kindMsg 0 (List.replicate 36 0))).wf = false ∧ (Instr.txGrant 0 (kindMsg 0x21 (List.replicate 36 0))).wf = true ∧
    (Instr.txRows 0 (shortMsg 0x22)).wf = false ∧ (Instr.txRows 0 (kindMsg 0 (List.replicate 36 0))).wf = false ∧ (Instr.txRows 0 (kindMsg 0x22 (List.replicate 36 0))).wf = true ∧
    (Instr.txReturn 0 (shortMsg 0x23)).wf = false ∧ (Instr.txReturn 0 (kindMsg 0 (List.replicate 36 0))).wf = false ∧ (Instr.txReturn 0 (kindMsg 0x23 (List.replicate 36 0))).wf = true ∧
    (Instr.resetNotice 0 (shortMsg 0x32)).wf = false ∧ (Instr.resetNotice 0 (kindMsg 0 (List.replicate 36 0))).wf = false ∧ (Instr.resetNotice 0 (kindMsg 0x32 (List.replicate 36 0))).wf = true := by decide +kernel
theorem test_wf_long : (Instr.presence 0 longMsg).wf = false := by decide +kernel
theorem test_wf_frames : (Instr.strokeFrame 0 4 (List.replicate 33 0)).wf = false ∧
    (Instr.data 0 4 ⟨List.replicate 33 0, false⟩).wf = false ∧
    (Instr.ack 0 4 (List.replicate 33 0)).wf = false ∧
    (Instr.heartbeat 0 4 (List.replicate 33 0)).wf = false ∧
    (Instr.hello 0 4 (List.replicate 33 0)).wf = false ∧
    (Instr.echo 0 4 (List.replicate 33 0)).wf = false ∧
    (Instr.echoReply 0 4 (List.replicate 33 0)).wf = false ∧
    (Instr.accept 0 4 (List.replicate 33 0)).wf = false ∧
    (Instr.reject 0 4 (List.replicate 33 0)).wf = false := by decide +kernel
theorem test_wf_frame_bounds : frameWf (List.replicate 31 0) = false ∧ frameWf (List.replicate 32 0) = true ∧ frameWf (List.replicate 4128 0) = true ∧
    frameWf (List.replicate 4192 0) = false := by decide +kernel
theorem test_wf_windows : (Instr.queueWindowWrite 0 (.core 0) .pelbex 0 []).wf = false ∧ (Instr.queueWindowWrite 0 (.core 0) .pelbex 63 [0, 0]).wf = false ∧
    (Instr.queueWindowWrite 0 (.core 0) .pelbex 63 [0]).wf = true := by decide +kernel
theorem test_wf_lanes : (Instr.portTraining 0 0 17).wf = false ∧ (Instr.portTraining 0 0 16).wf = true := by decide
theorem test_wf_i3c : (Instr.i3cPrivateRead 16385).wf = false ∧ (Instr.i3cPrivateRead 16384).wf = true := by decide
theorem test_wf_i3c_write (b : BootIn) (l : List Word) (h : 2 ^ 14 < l.length) : (Instr.i3cPrivateWrite 0 l false b).wf = false := by
  simpa [Instr.wf] using h
theorem test_wf_descriptors (l : List (Desc × Bool)) (h : 4096 ≤ l.length) : (Instr.pelSqTail 0 0 l).wf = false := by
  simpa [Instr.wf] using h

/-! Words of the manual. -/

/-- The worked example after R164: VFFMA.d v8, v1, v1. -/
theorem test_vffma_word : Decode.coreWord 0 0 0xA1010E07 = .ok (.vffma 0 0 8 1 1 3 0 false) := by rfl
/-- VI word written out field by field: opcode 101001, vd 00011, vs1 00001, vs2 00010, W 01, pg 101, S 1, VSUB 00001. -/
theorem test_vsub_word : Decode.coreWord 0 0 0b10100100011000010001001101100001 = .ok (.vsub 0 0 3 1 2 1 5 true) := by rfl
/-- VC word: SETVL with opcode 101011, vd 00001, vs1 00010, function 00000. -/
theorem test_setvl_word : Decode.coreWord 0 0 0b10101100001000100000000000000000 = .ok (.setvl 0 0 1 2 0) := by rfl
/-- VP word: PAND with opcode 101100, function 000000. -/
theorem test_pand_word : Decode.coreWord 0 0 0b10110000001000100001100000000000 = .ok (.pand 0 0 1 2 3 0 0) := by rfl
theorem test_reserved_word : Decode.coreWord 0 0 0b10111100000000000000000000000000 = .error (.opcode 0x2F) ∧
    Decode.coreWord 0 0 0b10110000000000000000000000000100 = .error (.function 4) := ⟨rfl, rfl⟩
theorem test_table_word (n w : Nat) : decodeTableWord n w = none := rfl

/-! ContextWrites -/

theorem wit_stackContextWrites_idle : Ready awake 0 ∧ awake.reg 0 (rBilCtx 15 3) = 0 ∧ awake.reg 0 (rBilCtx 15 4) = 0 ∧
    awake.ctxBusy 0 15 = false ∧ awake.rowBound 0 15 = false := by decide +kernel
theorem wit_stackContextWrites_busy : Ready (awake.setReg 0 (rBilCtx 0 3) 1) 0 ∧ (awake.setReg 0 (rBilCtx 0 3) 1).reg 0 (rBilCtx 0 3) ≠ 0 := by
  decide +kernel
theorem wit_jobContextWrites_idle : Ready awake 0 ∧ awake.colBusy 0 (awake.colJob 0 31) = false := by decide +kernel
theorem wit_jobContextWrites_alg : fld (0x01000004 : Word) 0 3 = 4 ∧ ¬ (fld (0x01000003 : Word) 0 3 = 1 ∨ fld (0x01000003 : Word) 0 3 = 2 ∨
    fld (0x01000003 : Word) 0 3 = 4) := by decide +kernel

/-! CommitContextArmsAndVetoes -/

/-- Context 31 valid, its commit stroke 100. -/
def armable : State := (awake.setReg 0 (rUpdSet 31) 0x80000001).setReg 0 (rCmtCLo 31) 100
theorem wit_commitContext_arm : Ready armable 0 ∧ (armable.reg 0 (rUpdSet 31)).getLsbD 31 = true ∧
    fld (armable.reg 0 (rCmtStat 31)) 0 4 = 0 ∧ begun (armable.stroke 0) (armable.cmtMinus 0 31 3) = false := by decide +kernel
theorem wit_commitContext_armed : fld ((armable.setReg 0 (rCmtStat 31) 1).reg 0 (rCmtStat 31)) 0 4 = 1 := by decide +kernel
theorem test_arm_then_veto :
    (match exec (.arm 0 31) armable with
     | .next t => (match exec (.veto 0 31) t with
        | .next u => decide (u.cmtState 0 31 = 1) && (u.die 0).vetoes.getLsbD 31
        | _ => false)
     | _ => false) = true := by decide +kernel

/-! CompletionRingWrites -/

theorem wit_completionRing_idle : Ready awake 0 ∧ (awake.core 0 47).queue.entries = [] ∧ (awake.core 0 47).queue.backlog = [] ∧
    (awake.core 0 47).queue.running = [] := by decide +kernel
theorem wit_completionRing_busy : ¬ ((awake.modCore 0 0 (fun k => { k with queue := { k.queue with entries := [⟨0, 0, none, false, false, false⟩] } })).core 0 0).queue.entries
    = [] := by decide +kernel
theorem wit_completionRing_size : 4 ≤ fld (4 : Word) 0 5 ∧ fld (15 : Word) 0 5 ≤ 15 := by decide +kernel
set_option maxRecDepth 8192 in
theorem wit_completionRing_tail : (awake.rf 0 (blkCORE 0 + 0x1C) 0 16 + 65536 - fld (0 : Word) 16 16) % 65536 ≤
    2 ^ awake.rf 0 (blkCORE 0 + 0x18) 0 5 ∧ 2 ^ awake.rf 0 (blkCORE 0 + 0x18) 0 5 < (awake.rf 0 (blkCORE 0 + 0x1C) 0 16 + 65536 -
      fld (0x00010000 : Word) 16 16) % 65536 := by decide +kernel

/-! ControlBitsAndRegisterWrites -/

theorem wit_controlBit_stopped : Ready (awake.modCore 7 47 (fun k => { k with proc := { k.proc with stopped := true } })) 7 ∧
    ((awake.modCore 7 47 (fun k => { k with proc := { k.proc with stopped := true } })).core 7 47).proc.stopped = true := by decide +kernel
theorem wit_registerWrite : Ready awake 0 ∧ rHltHangCfg < 1048576 ∧ fld (awake.reg 0 rHltHangCfg) 0 8 = 8 ∧ fld (7 : Word) 0 8 ≠ 8 ∧
    blkCORE 47 + 0x190 < 1048576 ∧ blkID < 1048576 ∧ windowOf 0x40010 = none ∧ (regSpec 0x40010).half = 1 := by decide +kernel
theorem test_capture : (match exec (.stkCapCtl 0 0x00010000) awake with
     | .next t => t.reg 0 rStkCapCtl
     | _ => 0) = 0x01000000 := by decide +kernel

/-! IntegerInstructionResults -/

theorem wit_integer_first : CanFetch (kernelOn 0 0 0x04220800) 0 0 ∧
    Spelt (kernelOn 0 0 0x04220800) 0 0 (.integerInstruction 0 0 .sub 1 2 (.reg 1)) := by decide +kernel
theorem wit_integer_last : CanFetch (kernelOn 47 0x3FFFFC 0x3FFF8000) 0 47 ∧
    Spelt (kernelOn 47 0x3FFFFC 0x3FFF8000) 0 47 (.integerInstruction 0 47 .xor 31 31 (.imm 0x8000)) := by decide +kernel
theorem wit_integer_shift : (63 : DWord).toNat < 64 := by decide +kernel
theorem wit_integer_divisor : (1 : DWord) ≠ 0 ∧ ¬ ((5 : DWord) = 0x8000000000000000 ∧ (1 : DWord) = 0xFFFFFFFFFFFFFFFF) := by decide +kernel
theorem test_add_writes_rd :
    (match exec (.integerInstruction 0 0 .add 3 0 (.imm 0xFFFF)) (kernelOn 0 8 0x0460FFFF) with
     | .next t => decide ((t.core 0 0).getG 3 = 0xFFFFFFFFFFFFFFFF ∧ (t.core 0 0).proc.pc = 12)
     | _ => false) = true := by decide +kernel

/-! ScalarMemoryAccess -/

theorem wit_scalarMemory_spelt : CanFetch (kernelOn 0 0 0x40410100) 0 0 ∧ Spelt (kernelOn 0 0 0x40410100) 0 0 (.scalarLoad 0 0 3 true false 2 1 0x100) ∧
    Spelt (kernelOn 0 0 0x40410100) 0 0 (.scalarStore 0 0 3 true 2 1 0x100) ∧ (kernelOn 0 0 0x40410100).marksIn 1 (memKey 0 1 (spBase 0 + 0x100)) 8 = [] := by
  decide +kernel
theorem wit_scalarMemory_scratchpad : (0x3FFFF8 : DWord).toNat % 2 ^ 3 = 0 ∧ (0x3FFFF8 : DWord).toNat + 2 ^ 3 ≤ 0x400000 ∧
    (kernelAt 0 0).marksIn 1 (memKey 0 1 (spBase 0 + 0x3FFFF8)) 8 = [] := by decide +kernel
theorem wit_scalarMemory_bank : (0x8FFFFF : DWord).toNat % 2 ^ 0 = 0 ∧ 0x800000 ≤ (0x8FFFFF : DWord).toNat ∧
    (0x8FFFFF : DWord).toNat + 2 ^ 0 ≤ 0x900000 ∧ (kernelAt 0 0).bankHeld 0 0 = false := by decide +kernel
theorem wit_scalarMemory_poison : ((kernelAt 0 0).core 0 0).vec.poison[(31 : Fin 32)].getLsbD 0 = false := by decide +kernel
set_option maxRecDepth 8192 in
theorem test_store_then_load :
    (match exec (.scalarStore 0 0 1 false 2 0 0x0100) (withWord ((kernelOn 0 0 0x40400100).modCore 0 0 (fun k => k.setG 2 0x1234)) 0 4 0x40600101) with
     | .next t => (match exec (.scalarLoad 0 0 0 false false 3 0 0x0101) t with
        | .next u => decide ((u.core 0 0).getG 3 = 0x12)
        | _ => false)
     | _ => false) = true := by decide +kernel

/-! BranchesAndCalls -/

theorem wit_branches : CanFetch (kernelOn 0 0x3FFFFC 0x60228000) 0 0 ∧ Spelt (kernelOn 0 0x3FFFFC 0x60228000) 0 0 (.conditionalBranch 0 0 .eq 1 2 0x8000) ∧
    ((kernelAt 0 0).core 0 0).getG 1 = ((kernelAt 0 0).core 0 0).getG 2 := by decide +kernel
theorem wit_branches_call : Spelt (kernelOn 0 0 0x70300000) 0 0 (.call 0 0 1 0x100000) ∧ Spelt (kernelOn 0 0 0x743F0000) 0 0 (.callr 0 0 1 31) := by
  decide +kernel
theorem test_branch_back :
    (match exec (.conditionalBranch 0 0 .geu 0 0 0xFFFF) (kernelOn 0 8 0x6000FFFF) with
     | .next t => decide ((t.core 0 0).proc.pc = 4)
     | _ => false) = true := by decide +kernel

/-! ScalarFloatingPoint -/

theorem wit_scalarFp_clean : CanFetch (kernelOn 0 0 0x80811000) 0 0 ∧ Spelt (kernelOn 0 0 0x80811000) 0 0 (.scalarFp 0 0 .fma true 4 1 2 3) ∧ ∀ r ∈ fpReads .fma 1 2 3, ((kernelAt 0 0).core 0 0).vec.poison[r].getLsbD 0 = false := by
  decide +kernel
theorem wit_scalarFp_poisoned : ∃ r ∈ fpReads .add 1 2 3, (((kernelAt 0 0).modCore 0 0 (fun k =>
    { k with vec := { k.vec with poison := k.vec.poison.set 2 1 } })).core 0 0).vec.poison[r].getLsbD 0 = true := by decide +kernel
/-- 1.5 + 2.25 = 3.75 in FP64. -/
theorem test_fp64_add : (fpEval .add true .rne 0x3FF8000000000000 0x4002000000000000 0 0).2 = 0 ∧
    (match (fpEval .add true .rne 0x3FF8000000000000 0x4002000000000000 0 0).1 with
     | .f b w => decide (b = 0x400E000000000000) && w
     | _ => false) = true := by decide +kernel

/-! ControlRegisterAccess -/

theorem wit_control_reserved : (0x041 : BitVec 11).toNat ∉ [0x020, 0x021, 0x022, 0x040, 0x060, 0x061] ∧
    (0x061 : BitVec 11).toNat ∈ [0x020, 0x021, 0x022, 0x060, 0x061] ∧ (0xFD : DWord).toNat % 8 ∈ [0, 1, 4, 5] ∧
    (0x02 : DWord).toNat % 8 ∉ [0, 1, 4, 5] := by decide +kernel
theorem wit_control_spelt : CanFetch (kernelOn 0 0 0xE0620040) 0 0 ∧ Spelt (kernelOn 0 0 0xE0620040) 0 0 (.ctlrd 0 0 3 0x040) ∧
    Spelt (kernelOn 0 0 0xE0620040) 0 0 (.ctlwr 0 0 2 0x040) ∧ Spelt (kernelOn 0 0 0xE0620040) 0 0 (.waitstroke 0 0) ∧
    Spelt (kernelOn 0 0 0xC0608000) 0 0 (.mxwait 0 0 3 0x8000) ∧ Spelt (kernelOn 0 0 0xC4600000) 0 0 (.mxlat 0 0 3) := by decide +kernel
theorem wit_control_mxwait : (0 : Int) ≤ (0 : BitVec 16).toInt ∧ ((kernelAt 0 0).core 0 0).pushed.length ≤ (0 : BitVec 16).toNat ∧
    (0x8000 : BitVec 16).toInt < 0 := by decide +kernel
theorem wit_control_mxwait_more : (0 : BitVec 16).toNat < (((kernelAt 0 0).modCore 0 0 (fun k => { k with pushed := [7] })).core 0 0).pushed.length := by
  decide +kernel

/-! KernelStartsAndEnds -/

theorem wit_kernel_start : Ready (runIn awake (.core 0) 1) 0 ∧ Runs (runIn awake (.core 0) 1) 0 (.core 0) 1 (runAs 1) ∧
    ((runIn awake (.core 0) 1).core 0 0).proc.running = false ∧ dn (1 : Desc) 48 8 = 0 ∧ dn (1 : Desc) 56 8 = 0 ∧
    (runIn awake (.core 0) 1).coreFenced 0 0 = false := by decide +kernel
theorem wit_kernel_end : CanFetch (runIn (kernelOn 0 4 0xE0050000) (.core 0) 1) 0 0 ∧ Runs (runIn (kernelOn 0 4 0xE0050000) (.core 0) 1) 0 (.core 0) 1 (runAs 1) ∧
    Spelt (runIn (kernelOn 0 4 0xE0050000) (.core 0) 1) 0 0 (.endK 0 0 5) ∧ Spelt (runIn (kernelOn 0 4 0xE0050000) (.core 0) 1) 0 0 (.brk 0 0) ∧
    fld ((runIn (kernelOn 0 4 0xE0050000) (.core 0) 1).core 0 0).vec.vstat 16 1 = 0 ∧ (runAs 1).stats = [] ∧
    fld ((runIn (kernelOn 0 4 0xE0050000) (.core 0) 1).reg 0 (rCoreCtl 0)) 1 1 = 0 := by decide +kernel
/-- A kernel at a CPUSH of the descriptor of a KERNEL at offset 0x40. -/
def pushing : State := { kernelOn 0 0 0xE0050000 with
  mem := ⟨pokeCells (kernelOn 0 0 0xE0050000).mem.cells (memKey 0 1 (spBase 0 + 0x40)) [1], []⟩ } |>.modCore 0 0 (fun k => k.setG 5 0x40)
theorem wit_kernel_cpush : CanFetch pushing 0 0 ∧ Spelt pushing 0 0 (.cpush 0 0 5) ∧ (pushing.core 0 0).queue.backlog = [] ∧
    (pushing.core 0 0).queue.claim = none ∧ (pushing.core 0 0).queue.held = [] ∧ (pushing.core 0 0).queue.entries = [] ∧
    pushing.marksIn 1 (memKey 0 1 (spBase 0 + 0x40)) 64 = [] ∧ pushing.parked 0 = false ∧ pushing.resets 0 (.core 0) 0 = false ∧
    headerOk (.core 0) (pushing.stroke 0) (setFld (descOf (pushing.peek (memKey 0 1 (spBase 0 + 0x40)) 64)) 40 8 0) = true := by decide +kernel
theorem wit_kernel_cpush_behind : ((pushing.modQueue 0 (.core 0) (fun x => { x with entries := [⟨0, 1, none, false, false, false⟩] })).core 0 0).queue.entries ≠ [] ∧
    ((pushing.modQueue 0 (.core 0) (fun x => { x with entries := [⟨0, 1, none, false, false, false⟩] })).startHead 0 (.core 0)).isNone = true := by decide +kernel
theorem wit_kernel_cpush_claimed : ((pushing.modQueue 0 (.core 0) (fun x => { x with claim := some ⟨.pelbex, 0, 1, 0, false⟩ })).core 0 0).queue.claim
    = some ⟨.pelbex, 0, 1, 0, false⟩ := by decide +kernel

/-! ExceptionsStopTheKernel -/

theorem wit_exceptions_align : CanFetch (kernelOn 0 0 0x44200001) 0 0 ∧ Spelt (kernelOn 0 0 0x44200001) 0 0 (.scalarLoad 0 0 1 false true 1 0 1) ∧
    Spelt (kernelOn 0 0 0x44200001) 0 0 (.scalarStore 0 0 1 false 1 0 1) ∧
    (((kernelAt 0 0).core 0 0).getG 0 + (1 : BitVec 16).signExtend 64).toNat % 2 ^ (1 : Fin 4).val ≠ 0 := by decide +kernel
theorem wit_exceptions_map : (((kernelAt 0 0).modCore 0 0 (fun k => k.setG 1 0x400000)).core 0 0).getG 1 = 0x400000 := by decide +kernel
theorem wit_exceptions_fetch : ((kernelAt 0 2).core 0 0).proc.pc.toNat % 4 ≠ 0 ∧ ((kernelAt 0 0x400000).core 0 0).proc.pc.toNat % 4 = 0 ∧
    0x400000 ≤ ((kernelAt 0 0x400000).core 0 0).proc.pc.toNat ∧ CanFetch (kernelAt 0 0) 0 0 ∧ Decode.illegalWord ((kernelAt 0 0).nextWord 0 0) = true := by
  decide +kernel
theorem wit_exceptions_taken : Runs (runIn (kernelAt 0 0) (.core 0) 1) 0 (.core 0) 1 (runAs 1) ∧
    fld ((runIn (kernelAt 0 0) (.core 0) 1).core 0 0).vec.vstat 16 1 = 0 ∧ trapIllegal.stats.length ≤ 1 ∧
    (∀ st ∈ trapIllegal.stats, st ∈ [0x02, 0x07, 0x0F]) ∧ fld ((runIn (kernelAt 0 0) (.core 0) 1).reg 0 (rCoreCtl 0)) 1 1 = 0 := by decide +kernel
theorem wit_exceptions_stop : fld (((runIn (kernelAt 0 0) (.core 0) 1).setReg 0 (rCoreCtl 0) 2).reg 0 (rCoreCtl 0)) 1 1 = 1 ∧
    Runs ((runIn (kernelAt 0 0) (.core 0) 1).setReg 0 (rCoreCtl 0) 2) 0 (.core 0) 1 (runAs 1) ∧
    (runIn (kernelAt 0 0) (.core 0) 1).parked 0 = false ∧ headerOk (.core 0) 0 1 = true := by decide +kernel

/-! VectorIntegerElements -/

theorem wit_vectorInteger : CanIssue (spanAt 512 0xA43F1601) 0 0 ∧ Spelt (spanAt 512 0xA43F1601) 0 0 (.vsub 0 0 1 31 2 3 0 false) ∧ IsActive (spanOf 512) 0 0 3 0 63 ∧ ((spanOf 512).core 0 0 |>.el 31 3 63).bad = false ∧
    ¬ IsActive (spanOf 504) 0 0 3 0 63 := by decide +kernel
theorem wit_vectorInteger_poison : (((spanOf 8).modCore 0 0 (fun k => { k with vec := { k.vec with poison := k.vec.poison.set 1 1 } })).core 0 0
    |>.el 1 3 0).bad = true := by decide +kernel
theorem wit_vectorInteger_shift : 63 < elemBits 3 := by decide +kernel

/-! VectorFloatElements -/

theorem wit_vectorFloat : CanIssue (spanAt 512 0xA0621222) 0 0 ∧ Spelt (spanAt 512 0xA0621222) 0 0 (.vfmul 0 0 3 2 2 1 0 true) ∧
    Spelt (spanAt 512 0xA062020A) 0 0 (.vfabs 0 0 3 2 0 1 0 false) ∧ Spelt (spanAt 512 0xA062000A) 0 0 (.vfabs 0 0 3 2 0 0 0 false) ∧ floatOf 1 = some .wf16 ∧ floatOf 3 = some .fp64 ∧ ((spanOf 512).core 0 0).vround ≠ .sr ∧
    IsActive (spanOf 512) 0 0 1 0 255 ∧ ((spanOf 512).core 0 0 |>.srcF 2 true 1 255).bad = false ∧ ¬ IsActive (spanOf 510) 0 0 1 0 255 := by decide +kernel
/-- 1.5 × 2 + 0.25 = 3.25 in FP32, and WF16 keeps 8 bits of 1 + 2⁻⁸ + 2⁻⁹. -/
theorem test_vector_formats : (elemFma .fma .fp32 .rne 0x3FC00000 0x40000000 0x3E800000 ⟨0, 0, false, 0⟩).bits = 0x40500000 ∧
    (elemBin .add .wf16 .rtz 0x3F80 0x3BC0 ⟨0, 0, false, 0⟩).bits = 0x3F80 := by decide +kernel

/-! VectorCompares -/

theorem wit_vectorCompare : CanIssue (spanAt 16 0xA4E1162E) 0 0 ∧ Spelt (spanAt 16 0xA4E1162E) 0 0 (.vlt 0 0 7 1 2 3 0 true) ∧
    Spelt (spanAt 16 0xA0E1160D) 0 0 (.vfeq 0 0 7 1 2 3 0 false) ∧ Spelt (spanAt 16 0xA101160D) 0 0 (.vfeq 0 0 8 1 2 3 0 false) ∧ (7 : Fin 32).val < 8 ∧
    ∀ i < 2, ((spanOf 16).core 0 0 |>.el 1 3 i).bad = false ∧ ((spanOf 16).core 0 0 |>.srcI 2 true 3 i).bad = false := by decide +kernel
theorem wit_vectorCompare_poison : IsActive ((spanOf 16).modCore 0 0 (fun k => { k with vec := { k.vec with poison := k.vec.poison.set 1 2 } })) 0 0 3 0 1 ∧
    (((spanOf 16).modCore 0 0 (fun k => { k with vec := { k.vec with poison := k.vec.poison.set 1 2 } })).core 0 0 |>.el 1 3 1).bad = true := by decide +kernel

/-! VectorReductions -/

theorem wit_vectorReduction : CanIssue (spanAt 24 0xA4010610) 0 0 ∧ Spelt (spanAt 24 0xA4010610) 0 0 (.vsumt 0 0 0 1 0 3 0 false) ∧
    Spelt (spanAt 24 0xA0010616) 0 0 (.vfmaxr 0 0 0 1 0 3 0 false) ∧ ((spanOf 24).core 0 0).vec.span ≤ 512 ∧ 0 < ((spanOf 24).core 0 0).count 3 ∧
    (∀ i ∈ (List.range (((spanOf 24).core 0 0).count 3)).filter (fun i => (((spanOf 24).core 0 0).pred 0).getLsbD i),
      ((spanOf 24).core 0 0 |>.el 1 3 i).bad = false) ∧ ((spanOf 24).core 0 0).vround ≠ .sr ∧ ((spanOf 24).core 0 0 |>.el 0 3 0).bad = false := by decide +kernel
theorem wit_vectorReduction_zero : ((spanOf 0).core 0 0).count 3 = 0 := by decide +kernel

/-! VectorMoves -/

theorem wit_vectorMoves : CanIssue (spanAt 512 0xA43F0038) 0 0 ∧ Spelt (spanAt 512 0xA43F0038) 0 0 (.vshd 0 0 1 31 0 0 0 true) ∧
    Spelt (spanAt 512 0xA43F0016) 0 0 (.vtog 0 0 1 31 0 0 0 false) ∧ ((spanOf 512).core 0 0).vec.span ≤ 512 ∧ ((spanOf 512).core 0 0 |>.el 31 0 0).bad = false := by decide +kernel
theorem wit_vectorMoves_poison : (((spanOf 8).modCore 0 0 (fun k => { k with vec := { k.vec with poison := k.vec.poison.set 1 1 } })).core 0 0
    |>.el 1 0 7).bad = true := by decide +kernel
theorem wit_vectorMoves_forms : Spelt (spanAt 512 0xA4220633) 0 0 (.vsel 0 0 1 2 0 3 0 true) ∧ Spelt (spanAt 512 0xA4201A14) 0 0 (.vcopy 0 0 1 0 3 1 0 false) ∧
    Spelt (spanAt 512 0xA4200015) 0 0 (.vindex 0 0 1 0 0 0 0 false) ∧ Spelt (spanAt 512 0xA4220637) 0 0 (.vshu 0 0 1 2 0 3 0 true) ∧
    Spelt (spanAt 512 0xA4220617) 0 0 (.vshu 0 0 1 2 0 3 0 false) ∧ Spelt (spanAt 512 0xA4220618) 0 0 (.vshd 0 0 1 2 0 3 0 false) ∧
    Spelt (spanAt 512 0xA4220619) 0 0 (.vpack 0 0 1 2 0 3 0 false) ∧ CanIssue (spanAt 512 0xA4220619) 0 0 := by decide +kernel

/-! PredicatesAndSpan -/

theorem wit_predicates : CanIssue (spanAt 512 0xB0221840) 0 0 ∧ Spelt (spanAt 512 0xB0221840) 0 0 (.pand 0 0 1 2 3 0 1) ∧
    Spelt (spanAt 512 0xB3E00010) 0 0 (.ppop 0 0 31 0 0 0 0) ∧ Spelt (spanAt 512 0xAFE50003) 0 0 (.setvl 0 0 31 5 3) ∧
    Spelt (spanAt 512 0xAC051801) 0 0 (.vstatwr 0 0 0 5 1) ∧ Spelt (spanAt 512 0xAC002800) 0 0 (.vfence 0 0 0 0 0) ∧ (roundCode ((0x105 : DWord).toNat % 8)).isSome = true ∧
    (roundCode ((7 : DWord).toNat % 8)).isNone = true := by decide +kernel
theorem test_setvl : (match exec (.setvl 0 0 3 4 2) ((kernelOn 0 0 0xAC640002).modCore 0 0 (fun k => k.setG 4 200)) with
    | .next t => decide ((t.core 0 0).vec.span = 512 ∧ (t.core 0 0).getG 3 = 128)
    | _ => false) = true := by decide +kernel

/-! VectorLoadsAndStores -/

theorem wit_vectorMemory : CanIssue (spanAt 8 0xA8200404) 0 0 ∧ Spelt (spanAt 8 0xA8200404) 0 0 (.vld 0 0 1 0 0 2 0 1 false false) ∧
    Spelt (spanAt 8 0xB8200404) 0 0 (.vldff 0 0 1 0 0 2 0 1 false false) ∧ Spelt (spanAt 8 0xB4200404) 0 0 (.vst 0 0 1 0 0 2 0 1 false false) ∧ ((spanOf 8).core 0 0).vec.span ≤ 512 ∧ Fmt.ofCode (1 : Fin 16) = some .fp32 ∧
    regType 2 false = some (.flt .fp32) ∧ ((spanOf 8).core 0 0).vround ≠ .sr ∧ (spanOf 8).marksIn 1 (memKey 0 1 (spBase 0)) 8 = [] ∧
    (∀ i < 2, localMapped (0 + (elPlace .fp32 i).1) (elPlace .fp32 i).2 = true) ∧ (∀ i < 2, ((spanOf 8).core 0 0 |>.el 0 2 i).bad = false) := by decide +kernel
theorem wit_vectorMemory_edge : localMapped (0x3FFFFC + (elPlace .fp32 0).1) (elPlace .fp32 0).2 = true ∧
    ¬ localMapped (0x3FFFFC + (elPlace .fp32 1).1) (elPlace .fp32 1).2 = true ∧ ¬ localMapped (0x900000 + (elPlace .fp32 0).1) (elPlace .fp32 0).2 = true := by
  decide +kernel
theorem wit_vectorMemory_block : Fmt.ofCode (6 : Fin 16) = some .wb6 ∧ Fmt.isBlock .wb6 = true ∧
    localMapped (0 + (elPlace .wb6 1).1) (elPlace .wb6 1).2 = true := by decide +kernel

/-! SliceAndIllegalVectors -/

theorem wit_slice : CanFetch (kernelOn 0 0 0xAC612002) 0 0 ∧ Spelt (kernelOn 0 0 0xAC612002) 0 0 (.vslice 0 0 3 1 2) ∧
    Spelt (kernelOn 0 0 0xAC612022) 0 0 (.vslice 0 0 3 1 0x22) ∧ (kernelAt 0 0).vecFenced 0 0 = false ∧ (kernelAt 0 0).vecResetting 0 0 = false ∧ localMapped 0 1024 = true ∧ localMapped 0x3FFC40 960 = true ∧
    (kernelAt 0 0).bankHeld 0 0 = false ∧ (kernelAt 0 0).marksIn 1 (memKey 0 1 (spBase 0)) 1024 = [] := by decide +kernel
theorem wit_slice_unmapped : localMapped 0x3FFC01 1024 = false ∧ localMapped 0x3FFC41 960 = false ∧
    ((kernelAt 0 0).modCore 0 0 (fun k => { k with fenceVec := true })).vecFenced 0 0 = true := by decide +kernel

/-! DataFramesInSequence -/

theorem wit_dataFrames : Ready (portIn 4 4) 0 ∧ (portIn 4 4).lstate 0 4 = 4 ∧ readReq.spec.length = 36 ∧ readReq.data.length ≤ 4032 ∧
    readReq.dst.toNat / 64 = (portIn 4 4).moduleNo 0 * 8 + (0 : DieIx).val ∧ knownKind readReq.mkind.toNat = true := by decide +kernel
theorem wit_dataFrames_bad : frameOk [] = false ∧ frameOk (2 :: List.replicate 31 0) = false ∧ bn (2 :: List.replicate 31 0) 0 1 = 2 ∧
    frameOk (3 :: List.replicate 31 0) = false ∧ bn (3 :: List.replicate 31 0) 0 1 = 3 := by decide +kernel
theorem wit_dataFrames_seq : (5 : BitVec 16) ≠ ((portIn 4 4).link 0 4).lastAcc + 1 := by decide +kernel
/-- The check value of CRC-32C over the digits 1 to 9. -/
theorem test_crc32c : crc32c [0x31, 0x32, 0x33, 0x34, 0x35, 0x36, 0x37, 0x38, 0x39] = 0xE3069283 := by decide +kernel

/-! LinkTimersAct -/

theorem wit_linkTimers_up : Ready (portIn 6 4) 0 ∧ (portIn 6 4).lstate 0 6 = 4 ∧ (portIn 6 4).retriesOut 0 6 = false ∧ (portIn 6 4).pstate 0 6 = 4 ∧ 4 ≤ (6 : PortIx).val ∧
    ((portIn 6 4).port 0 6).downs.length < 7 := by decide +kernel
theorem wit_linkTimers_limit : 7 ≤ ((((portIn 6 4).modPort 0 6 (fun x => { x with downs := [0, 1, 2, 3, 4, 5, 6] })).port 0 6).downs.filter
    (fun n => decide ((portIn 6 4).nominal 0 / 940 < n + 600000000))).length := by decide +kernel
theorem wit_linkTimers_retain : (((portIn 6 4).modLink 0 6 (fun x => { x with retain := [⟨0, 1, readReq, 3⟩] })).link 0 6).retain = [⟨0, 1, readReq, 3⟩] := by
  decide +kernel
theorem wit_linkTimers_down : (portIn 0 5).pstate 0 0 = 5 ∧ (portIn 0 2).pstate 0 0 = 2 ∧ ((portIn 0 2).port 0 0).failLogged = false ∧
    (portIn 0 5).dieFenced 0 = false ∧ ((portIn 0 5).die 0).resets = [] ∧ ((portIn 0 3).port 0 0).hello = none ∧ (portIn 0 3).pstate 0 0 = 3 := by
  decide +kernel
theorem wit_linkTimers_half : 2 * 4 = fullLanes (6 : PortIx) ∧ (16 : Nat) = fullLanes (4 : PortIx) := by decide +kernel

/-! DiscoveryOfPeers -/

set_option maxRecDepth 65536 in
theorem wit_discovery : Ready (portIn 0 3) 0 ∧ (portIn 0 3).pstate 0 0 = 3 ∧ (∀ sub ∈ [2, 3], frameOk (frameBytes 5 0 0 0 1 0 0 (echoPayload sub 0 0 0)) = true
    ∧ bn (frameBytes 5 0 0 0 1 0 0 (echoPayload sub 0 0 0)) 0 1 = 5 ∧ bn (frameBytes 5 0 0 0 1 0 0 (echoPayload sub 0 0 0)) 32 4 = sub) := by decide +kernel
set_option maxRecDepth 65536 in
theorem wit_discovery_verdict : ∀ sub ∈ [1, 4, 5], frameOk (frameBytes 5 0 0 0 1 0 0 (verdictPayload sub 7)) = true ∧
    bn (frameBytes 5 0 0 0 1 0 0 (verdictPayload sub 7)) 0 1 = 5 ∧ bn (frameBytes 5 0 0 0 1 0 0 (verdictPayload sub 7)) 32 4 = sub := by decide +kernel
/-- Die 0 has port 0 in discovery with the HELLO of die 1 and 63 echoes. -/
def echoed : State := (portIn 0 3).modPort 0 0 (fun x =>
  { x with hello := some ⟨0, 0, 1, 1, 0, 0, 16, 0, 4096, 0, 0⟩, echoes := List.replicate 63 5, sentAccept := true })
theorem wit_discovery_echoed : ((echoed).port 0 0).echoes.length = 63 ∧ ((echoed).port 0 0).hello = some ⟨0, 0, 1, 1, 0, 0, 16, 0, 4096, 0, 0⟩ ∧
    echoed.checkPeer 0 0 ⟨0, 0, 1, 1, 0, 0, 16, 0, 4096, 0, 0⟩ 0 = 0 ∧ echoed.checkPeer 0 0 ⟨0, 0, 2, 1, 0, 0, 16, 0, 4096, 0, 0⟩ 0 ≠ 0 ∧
    ((echoed).port 0 0).sentAccept = true := by decide +kernel

/-! BoardAndPortControl -/

theorem wit_boardControl : Ready awake 0 ∧ portExists awake.fuses.variant 0 6 = true ∧ awake.board.master = false ∧
    4 ≤ ({ awake with board := { awake.board with silent := 4 } } : State).board.silent := by decide +kernel
theorem wit_boardControl_disabled : ((portIn 5 1).setCause 0 5 9).pstate 0 5 = 1 ∧ ((portIn 5 1).setCause 0 5 9).rf 0 (rLnkPstat 5) 24 4 = 9 ∧
    ((portIn 5 1).setCause 0 5 11).rf 0 (rLnkPstat 5) 24 4 = 11 ∧ (portIn 5 1).dieFenced 0 = false ∧ bitAt ((portIn 5 1).reg 0 (rLnkPctl 5)) 0 = false ∧
    ((portIn 5 1).setReg 0 (rLnkPctl 5) 1).dieFenced 0 = false ∧ bitAt (((portIn 5 1).setReg 0 (rLnkPctl 5) 1).reg 0 (rLnkPctl 5)) 0 = true ∧
    ((portIn 5 1).setRf 0 rHltFenceDie 31 1 1).dieFenced 0 = true := by decide +kernel

/-! StrokeBoundaryCounts -/

theorem wit_strokeBoundary : Ready awake 0 ∧ awake.locked 0 = false ∧ (awake.die 0).timer.incoming = none ∧
    (∀ k < 32, awake.jobWork 0 k = false) := by decide +kernel
/-- Die 0 is locked and has seen stroke 9 in the frames. -/
def lockedAt9 : State := (awake.modReg 0 rStkLock (fun w => setBit w 31 true)).modTimer 0 (fun x => { x with incoming := some 9 })
/-- Core 0 of die 0 runs a kernel that the last boundary found where it is. -/
def stuck : State :=
  let s := runIn (kernelAt 0 0) (.core 0) (setFld 0 0 8 1)
  s.modDie 0 (fun x => { x with watch := [⟨.processor 0, s.progress 0 (.processor 0), 3⟩] })
theorem wit_strokeBoundary_watch : HungUnit.processor 0 ∈ hangUnits ∧ stuck.unitPends 0 (.processor 0) = true ∧ stuck.unitExempt 0 (.processor 0) 0 = false ∧
    (stuck.die 0).watch.find? (fun x => decide (x.unit = HungUnit.processor 0)) = some ⟨.processor 0, stuck.progress 0 (.processor 0), 3⟩ := by decide +kernel
theorem wit_strokeBoundary_adopts : Ready lockedAt9 0 ∧ lockedAt9.locked 0 = true ∧ (lockedAt9.die 0).timer.incoming = some 9 := by decide +kernel
theorem test_boundary_wraps : ((awake.modTimer 0 (fun x => { x with stroke := 0xFFFFFFFFFF })).timerBoundary 0).stroke 0 = 0 := by decide +kernel

/-! ThrottleNoticesTakeEffect -/

theorem wit_throttleNotice : Ready awake 0 ∧ begun (awake.stroke 0) ((2 : Stroke) - 1).toNat = false ∧
    begun (awake.stroke 0) ((1 : Stroke) - 1).toNat = true := by decide +kernel
/-- Two notices for the current stroke. -/
def noticed : State := awake.modTimer 0 (fun x => { x with notices := [(0, 1), (0, 2), (5, 3)] })
theorem wit_throttleBoundary : (noticed.die 0).timer.notices.filter (fun n => begun (noticed.stroke 0) n.1.toNat) = [(0, 1), (0, 2)] ∧
    noticed.stroke 0 = 0 := by decide +kernel
theorem test_slowest_step_wins : (noticed.throttleBoundary 0).rf 0 rStkStepNow 0 2 = 2 := by decide +kernel

/-! LockAndTimeMasters -/

theorem wit_lock_lost : let s := lockedAt9.modTimer 0 (fun x => { x with overLimit := 4, silent := 4 })
    Ready s 0 ∧ s.locked 0 = true ∧ 4 ≤ (s.die 0).timer.overLimit ∧ 4 ≤ (s.die 0).timer.silent := by decide +kernel
/-- Machine whose primary master is module 1 and whose backup is this module, and from which nothing has come for 4 strokes. -/
def backupWaits : State :=
  { awake with settings := { awake.settings with primary := 1, backup := 0 }
               dies := Vector.ofFn (fun d : Fin 8 =>
                 { Die.reset d with held := false, timer := { (Die.reset d).timer with silent := 4, master := 1 } }) }
theorem wit_takeover : let s := backupWaits.modReg 0 rStkLock (fun w => setBit w 31 true)
    Ready s 0 ∧ s.settings.backup.toNat = s.moduleNo 0 ∧ s.isTimeMaster 0 = false ∧ s.locked 0 = true ∧
    (∀ e, s.present e = true → (s.die e).timer.masterBackup = false ∧ ((s.die e).held = false → 4 ≤ (s.die e).timer.silent)) := by decide +kernel
theorem wit_relock : let s := awake.modTimer 0 (fun x => { x with relocking := true })
    (awake.die 0).timer.relocking = false ∧ (s.die 0).timer.relocking = true ∧ (s.die 0).timer.incoming = none := by decide +kernel
theorem wit_strokeFrame : (portIn 4 4).pstate 0 4 = 4 ∧ ((portIn 4 4).die 0).timer.masterBackup = false ∧ (portIn 4 4).board.master = false ∧
    (((portIn 4 4).modTimer 0 (fun x => { x with masterBackup := true })).die 0).timer.masterBackup = true := by decide +kernel
theorem wit_wrap : ((awake.modTimer 0 (fun x => { x with wrapped := true })).die 0).timer.wrapped = true ∧ awake.present 0 = true := by decide +kernel

/-! PresenceAndAbsence -/

/-- Die 0 with one peer, endpoint 127 of job 1, silent for n strokes. -/
def withPeer (n : Nat) : State := awake.modDie 0 (fun x => { x with peers := [⟨1, 127, n, false, false⟩] })
theorem wit_presence : Ready (withPeer 4) 0 ∧ ((withPeer 4).die 0).peers = [⟨1, 127, 4, false, false⟩] ∧
    (127 : Endpoint).toNat / 64 ≠ (withPeer 4).moduleNo 0 * 8 + (0 : DieIx).val ∧
    (∀ p ∈ ((withPeer 3).die 0).peers, p.endpoint = 127 → p.silent < 4 ∨ p.absent = true) ∧
    (kindMsg 0x30 []).mkind = 0x30 ∧
    (kindMsg 0x31 (leBytes 4 (127 : Endpoint).toNat)).spec.take 4 = leBytes 4 (127 : Endpoint).toNat ∧
    awake.moduleNo 0 * 8 + (0 : DieIx).val < 2 ^ 17 ∧ awake.staleMsg 0 (kindMsg 0x31 []) = false := by decide +kernel
theorem wit_absence_stale : (awake.modDie 0 (fun x => { x with announced := [(announceKey (kindMsg 0x31 []).src 4 0 0, 5)] })).staleMsg 0 (kindMsg 0x31 []) = true := by
  decide +kernel

/-! QueueWindowPushes -/

theorem wit_queueWindow_idle : Ready awake 0 ∧ (awake.queue 0 (.core 47)).claim = none ∧ (awake.queue 0 .hlt).held = [] ∧
    (awake.queue 0 (.row 3)).entries.length < 64 ∧ (awake.queue 0 .col).backlog = [] ∧ (List.replicate 64 (0 : Byte)).length = 64 := by decide +kernel
theorem wit_queueWindow_reset : awake.resets 0 .col 0 = false ∧
    ((awake.modDie 0 (fun x => { x with resets := [⟨.core 0, 0, 0, 0, false, false, []⟩] })).resets 0 (.core 0) 0 = true) := by decide +kernel
theorem wit_queueWindow_judged : let y := setFld (descOf (1 :: List.replicate 63 0)) 40 8 (awake.recvGen 0 (.core 47)).toNat
    (awake.queue 0 (.core 47)).entries = [] ∧ awake.parked 0 = false ∧ headerOk (.core 47) (awake.stroke 0) y = true ∧
    ((awake.modQueue 0 (.core 47) (fun x => { x with entries := [⟨0, 1, none, false, false, false⟩] })).startHead 0 (.core 47)).isNone = true := by decide +kernel
/-- Endpoint 5 has claimed the window of core 0 on die 0 in stroke n. -/
def claimed (n : Stroke) : State := awake.modQueue 0 (.core 0) (fun x => { x with claim := some ⟨.ep 5, 0, 8, n, false⟩ })
theorem wit_queueWindow_claimed : ((claimed 0).queue 0 (.core 0)).claim = some ⟨.ep 5, 0, 8, 0, false⟩ ∧ (Issuer.ep 5) ≠ .pelbex ∧
    ((claimed 0).queue 0 (.core 0)).held = [] ∧ isDue ((claimed 0).stroke 0) ((0 : Stroke).toNat + 2) = false ∧
    isDue (((claimed 0).modTimer 0 (fun x => { x with stroke := 2 })).stroke 0) ((0 : Stroke).toNat + 2) = true := by decide +kernel

/-! CompletionRecordsAreWritten -/

/-- A record waits in queue q of die 0, whose ring lies at HBM offset 0x1000. -/
def recordIn (q : QId) : State := (awake.modQueue 0 q (fun x => { x with done := [⟨0, 7, 0, 0, 1, 0, 0, 0, 0, 0, 0, 0, false⟩] })).setReg64 0 (qRing q) 0x1000
theorem wit_completionRecord : let s := recordIn (.core 0)
    let l := locOf (s.ringEntry 0 (.core 0))
    Ready s 0 ∧ s.ringFull 0 (.core 0) = false ∧ s.ringReachable 0 l = true ∧ l.slot = s.slot ∧
    s.marksIn l.region (memKey l.die l.region l.off) 32 = [] := by decide +kernel
theorem wit_completionRecord_full : (((recordIn (.core 0)).setReg 0 (qRing (.core 0) + 12) 1024)).ringFull 0 (.core 0) = true := by decide +kernel
theorem wit_completionRecord_away : let s := (recordIn (.core 0)).setReg 0 (qRing (.core 0) + 4) 0x40000
    s.ringFull 0 (.core 0) = false ∧ s.ringReachable 0 (locOf (s.ringEntry 0 (.core 0))) = false := by decide +kernel
/-- A COPY of core 0 runs whose read of another die has no reply. -/
def asked : State := (runIn awake (.core 0) 0x10).modDie 0 (fun x => { x with outstanding := [⟨0, 0, 5, false, 2 ^ 47, 4, 0, 127, 0, none⟩] })
theorem wit_replyTimeout : let s := asked.modTimer 0 (fun x => { x with stroke := 300 })
    Ready s 0 ∧ (∃ o, (s.die 0).outstanding.find? (fun o => decide (o.queue = qNum (.core 0)) && o.reply.isNone &&
      begun (s.stroke 0) (o.sent.toNat + s.rto 0 (.core 0))) = some o ∧ s.ownerOf 0 o = some (runAs 0x10)) := by
  refine ⟨by decide +kernel, _, by rfl, by decide +kernel⟩
theorem wit_replyTimeout_none : (asked.die 0).outstanding.find? (fun o => decide (o.queue = qNum (.core 0)) && o.reply.isNone &&
      begun (asked.stroke 0) (o.sent.toNat + asked.rto 0 (.core 0))) = none ∧
    asked.ownerOf 0 ⟨0, 0, 6, false, 2 ^ 47, 4, 0, 127, 0, none⟩ = none := by decide +kernel

/-! DmaCopiesAndFills -/

theorem wit_dma_judged : judgeCopy (copyDesc false 1) = .work ⟨some .fp32, .fp32, 32, 32⟩ ∧ judgeFill (copyDesc true 1) = .work ⟨none, .fp32, 0, 32⟩ ∧
    judgeCopy (copyDesc false 0) = .noop ∧ judgeFill (copyDesc true 0) = .noop ∧ judgeCopy (setFld (copyDesc false 1) (8 * 56) 8 0xFF) = .format ∧
    judgeFill (setFld (copyDesc true 1) (8 * 57) 8 1) = .format := by decide +kernel
theorem wit_dma_runs : let s := runIn (runIn awake (.core 0) (copyDesc false 1)) (.core 1) (copyDesc true 1)
    Ready s 0 ∧ Runs s 0 (.core 0) 0x10 (runAs (copyDesc false 1)) ∧ Runs s 0 (.core 1) 0x11 (runAs (copyDesc true 1)) ∧
    s.reqsOf 0 (.core 0) (runAs (copyDesc false 1)) = [] ∧ s.dmaFenced 0 0 = false ∧ (runAs (copyDesc false 1)).fw = false := by decide +kernel
theorem wit_dma_operands : let s := runIn awake (.core 0) (copyDesc false 1)
    let r := runAs (copyDesc false 1)
    dmaService r.desc ⟨some .fp32, .fp32, 32, 32⟩ = false ∧ s.dmaOk 0 r.desc ⟨some .fp32, .fp32, 32, 32⟩ = true ∧ cRows r.desc = 1 ∧
    s.isLocal 0 (dmaDstRow r.desc 0) = true ∧ s.isLocal 0 (dmaSrcRow r.desc 0) = true ∧ (locOf (dmaDstRow r.desc 0)).region = 1 ∧
    s.gate 0 (.core 0) r (dmaDstRow r.desc 0) = .go ∧ s.gate 0 (.core 0) r (dmaSrcRow r.desc 0) = .go ∧ s.mem.marks = [] := by decide +kernel
theorem wit_dma_bad : awake.dmaOk 0 (setFld (copyDesc false 1) (8 * 32) 64 (2 ^ 39 + 0x05000000)) ⟨some .fp32, .fp32, 32, 32⟩ = false ∧
    dmaService (setFld (copyDesc false 1) (8 * 32) 64 0x7E00000000) ⟨some .fp32, .fp32, 32, 32⟩ = true ∧
    (awake.setReg 0 rHltFenceDie 0x80000000).dmaFenced 0 0 = true := by decide +kernel

/-! RequestsAreServed -/

/-- A request for n bytes at scratchpad offset 0 of core 0 of die 0. -/
def spReq (k : BitVec 8) (n : Nat) (data : List Byte) : Msg :=
  { kindMsg k (leBytes 8 (2 ^ 39 + spBase 0) ++ leBytes 4 n ++ List.replicate 24 0) with data := data }
theorem wit_requests : Ready awake 0 ∧ (∀ m ∈ [spReq 1 4032 [], spReq 2 0 [1, 2]], awake.staleMsg 0 m = false ∧ awake.epochDrop 0 m = false ∧ awake.attemptDrop 0 m = false ∧
    awake.bankBusy 0 (locOf (msgAddr m)) = false ∧ awake.isLocal 0 (msgAddr m) = true ∧ (locOf (msgAddr m)).region = 1 ∧
    awake.storeHit 0 (locOf (msgAddr m)).off 2 = false ∧ awake.bucketHit 0 m.job (locOf (msgAddr m)).off 2 none = .none) := by decide +kernel
theorem wit_requests_decode : awake.decodes 0 (msgAddr (spReq 1 4032 [])) 4032 = true ∧ awake.decodes 0 (msgAddr (spReq 2 0 [1, 2])) 2 = true ∧
    msgField (spReq 1 4032 []) 36 4 = 4032 ∧ msgField (spReq 1 4033 []) 36 4 = 4033 := by decide +kernel
theorem wit_replies : let m : Msg := { spReq 3 0 [9] with dst := 0 }
    let o : Outstanding := ⟨0, 0, 5, false, msgAddr m, 1, 0, m.src, 0, none⟩
    let s := (runIn awake (.core 0) 0x10).modDie 0 (fun x => { x with outstanding := [o] })
    m.dst = s.qSource 0 (queueOfNum o.queue) ∧ o.gen = m.gen ∧ s.ownerOf 0 o = some (runAs 0x10) ∧ m.gen = s.execGen 0 (queueOfNum o.queue) (dKind (runAs 0x10).desc) ∧
    s.staleServer 0 m = false ∧ s.attemptDrop 0 m = false ∧ msgField m 36 1 = 0 := by decide +kernel

/-! StoredDataProtection -/

theorem wit_protection_log : (((Die.reset 0).addLog ⟨0, 0, 0x0701, 2, 3, none, 5⟩).logByte 12, ((Die.reset 0).addLog ⟨0, 0, 0x0701, 2, 3, none, 5⟩).logByte 44) =
    (0x01, 0) := by decide +kernel
theorem wit_protection_writeBack : ((awake.modDie 0 (fun x => { x with writeBacks := [64] })).die 0).writeBacks = [64] ∧ 64 / 2 ^ 39 % 256 = 0 ∧
    64 % 2 ^ 39 % 64 = 0 ∧ memKey 0 1 8 / 2 ^ 39 % 256 ≠ 0 := by decide +kernel
theorem wit_protection_scrub : Ready served 0 ∧ bitAt (served.reg 0 rEccScrub) 31 = true ∧ served.hbmServes 0 = true ∧
    (found true (flipMark true .clean 1 0)).cls = 1 ∧ (found true (flipMark true .poison 1 0)).cls = 3 := by decide +kernel
theorem wit_protection_leak : (served.rf 0 (rEccLbCfg 9) 16 16) ≠ 0 ∧ ((served.setReg 0 (rEccLbCfg 9) 8).rf 0 (rEccLbCfg 9) 16 16) = 0 ∧
    served.rf 0 (rEccLbLevel 9) 0 8 + 1 = served.rf 0 (rEccLbCfg 9) 0 8 ∧ (served.setReg 0 (rEccLbCfg 0) 0).rf 0 (rEccLbCfg 0) 0 8 = 0 ∧
    served.rf 0 (rEccLbLevel 0) 0 8 - 1 ≤ served.rf 0 (rEccLbCfg 0) 0 8 / 2 ∧
    ((served.setReg 0 (rEccLbLevel 0) 6).rf 0 (rEccLbCfg 0) 0 8 / 2 < (served.setReg 0 (rEccLbLevel 0) 6).rf 0 (rEccLbLevel 0) 0 8 - 1) := by decide +kernel
theorem wit_protection_write : ([0] : List Byte) ≠ [] ∧ memKey 0 1 7 < memKey 0 1 0 + wordSize 1 ∧ memKey 0 1 0 < memKey 0 1 7 + 1 := by decide +kernel

/-! FlipMaskAndRowLog -/

/-- The flip mask of die 0 names the first word of the scratchpad of core 0 with data bit 5. -/
def masked : State := (awake.setReg 0 rEccFlipCtl 0x1100).setReg64 0 rEccFlipData 0x20
theorem wit_flipMask : masked.flipOk 0 = true ∧ (awake.setReg64 0 rEccFlipAddr 4).flipOk 0 = false ∧ bitAt (masked.reg 0 rEccFlipCtl) 12 = true ∧
    masked.flipKey 0 = memKey 0 1 (spBase 0) ∧ masked.flipKey 0 % 8 = 0 ∧ spBase 0 % 8 = 0 ∧ masked.reg64 0 rEccFlipData ≠ 0 ∧
    (List.replicate 8 (0 : Byte)).length % 8 = 0 := by decide +kernel

/-! HbmMaintenance -/

theorem wit_hbmMaintenance_rfm : let s := served.modHbm 0 (fun h => { h with acts := [(96 * 32, Config.rfmThreshold)] })
    s.rfmDue 0 96 = true ∧ served.rfmDue 0 96 = false ∧ s.stackServes 0 (96 / 32) = true := by
  refine ⟨?_, by decide +kernel, by decide +kernel⟩
  simp [State.rfmDue, State.modHbm, State.modDie, State.setDie, State.die]
theorem wit_hbmMaintenance : Ready served 0 ∧ served.stackServes 0 3 = true ∧ served.hbmServes 0 = true ∧ fld (served.qosOf 0) 24 8 ≠ 0 ∧
    fld ((served.setReg 0 rHbmQos 0).qosOf 0) 24 8 = 0 ∧ (served.die 0).hbm.qosWas = [] ∧ bitAt (served.die 0).hbm.testPort 3 = false ∧ (served.die 0).hbm.tempFails[(3 : Fin 4)] = 0 ∧
    ((served.modHbm 0 (fun h => { h with tempFails := h.tempFails.set 0 1 })).die 0).hbm.tempFails[(0 : Fin 4)] ≠ 0 := by decide +kernel

/-! HbmLanesAndTestAccess -/

theorem wit_testAccess : Ready served 0 ∧ bitAt (served.reg 0 rHbmTestCtl) 31 = false ∧ bitAt (served.die 0).hbm.testPort (fld (served.reg 0 rHbmTestCtl) 16 2) = false ∧
    served.testHold 0 = false ∧ (served.setReg 0 rHbmStatus 8).testHold 0 = true ∧ served.jobAssigned 0 = false ∧
    (served.setReg 0 (rUpdSet 31) 0x80000000).jobAssigned 0 = true ∧ (Issuer.ep 3) ≠ .pelbex := by decide +kernel
theorem wit_testAccess_owned : let s := served.modHbm 0 (fun h => { h with testPort := 1, wrapper := some (1, 33) })
    bitAt (s.die 0).hbm.testPort (fld (s.reg 0 rHbmTestCtl) 16 2) = true ∧ (s.die 0).hbm.wrapper = some (1, 33) ∧ s.rf 0 rHbmTestCtl 16 2 = (0 : Fin 4).val ∧
    bitAt ((served.setReg 0 rHbmTestCtl 0x80000000).reg 0 rHbmTestCtl) 31 = true := by decide +kernel

/-! BilletStackIsLastInFirstOut -/

/-- Context 0 of die 0 belongs to job 0 with a segment of 64 KiB; the stacks serve. -/
def stacked : State := ((served.setReg 0 (rBilCtx 0 0) 0x80000000).setReg 0 (rBilCtx 0 2) 1)
/-- A billet command of a kind on the scratchpad of core 0: 4 FP32 elements in one row. -/
def bilDesc (kind : Nat) : Desc :=
  setFld (setFld (setFld (setFld (setFld (0 : Desc) 0 8 kind) (8 * 24) 64 (2 ^ 39 + spBase 0)) (8 * 44) 8 1)
    (8 * 32) 32 (if kind = 0x80 then 4 else 0)) (8 * 36) 32 (if kind = 0x80 then 1 else 0)
theorem wit_billet_push : let s := runIn stacked .bil (bilDesc 0x80)
    Ready s 0 ∧ Picks s 0 .bil (bilPick 0x80 0) (runAs (bilDesc 0x80)) ∧ judgePush (bilDesc 0x80) = .work .fp32 ∧
    judgePush (setFld (bilDesc 0x80) (8 * 44) 8 0xF) = .format ∧ s.bilOwned 0 0 (dJob (bilDesc 0x80)) = true ∧ s.segOpen 0 0 = true ∧
    s.rowsDecode 0 (pushSrc (bilDesc 0x80)) 0 1 16 = true ∧ rowsService (pushSrc (bilDesc 0x80)) 0 1 16 = false ∧ s.dieFenced 0 = false := by decide +kernel
theorem wit_billet_push_room : let s := runIn stacked .bil (bilDesc 0x80)
    s.segTop 0 0 + (pad64 (payloadBytes false (s.entryFmt 0 (bilDesc 0x80)) 1 4) + 64) ≤ s.segSize 0 0 ∧ s.hbmServes 0 = true ∧ s.testHold 0 = false ∧
    s.segSize 0 0 < (s.setReg 0 (rBilCtx 0 3) 1024).segTop 0 0 + (pad64 (payloadBytes false (s.entryFmt 0 (bilDesc 0x80)) 1 4) + 64) := by decide +kernel
theorem wit_billet_pop : let s := runIn stacked .bil (bilDesc 0x81)
    Ready s 0 ∧ Picks s 0 .bil (bilPick 0x81 0) (runAs (bilDesc 0x81)) ∧ judgePop (bilDesc 0x81) = .work .fp32 ∧ s.segDepth 0 0 = 0 ∧
    rowsService (popDst (bilDesc 0x81)) 0 1 1 = false ∧ s.rowsDecode 0 (popDst (bilDesc 0x81)) 0 1 1 = true := by decide +kernel
set_option maxRecDepth 8192 in
theorem wit_billet_pop_entry : let s := ((runIn stacked .bil (bilDesc 0x81)).setReg 0 (rBilCtx 0 3) 2).setReg 0 (rBilCtx 0 4) 1
    s.segDepth 0 0 ≠ 0 ∧ (s.topTrailer 0 0 0).2.1 = false ∧ (s.topTrailer 0 0 0).1.layer = dLayer (bilDesc 0x81) ∧
    s.gateAll 0 .bil (runAs (bilDesc 0x81)) (rowPlaces (popDst (bilDesc 0x81)) (popPitch (bilDesc 0x81)) (popShape (s.topTrailer 0 0 0).1 .fp32).1
      (popShape (s.topTrailer 0 0 0).1 .fp32).2) ≠ .wait ∧
    (s.topTrailer 0 0 0).1.layer ≠ dLayer (setFld (bilDesc 0x81) 160 16 1) := by decide +kernel
/-- A trailer of 4 FP32 elements in one row, for layer 0. -/
def oneEntry : State :=
  let s := ((runIn stacked .bil (bilDesc 0x81)).setReg 0 (rBilCtx 0 3) 2).setReg 0 (rBilCtx 0 4) 1
  { s with mem := ⟨pokeCells s.mem.cells (memKey 0 0 (s.segBase 0 0 + 64)) (trailerBytes 0 0 .wb8 0 0 4 1 64 0 0 0), s.mem.marks⟩ }
set_option maxRecDepth 8192 in
theorem wit_billet_pop_work : (oneEntry.topTrailer 0 0 0).2.1 = false ∧ (oneEntry.topTrailer 0 0 0).1 = trailerOf (trailerBytes 0 0 .wb8 0 0 4 1 64 0 0 0) ∧
    (oneEntry.topTrailer 0 0 0).1.len ≠ 0 ∧ (oneEntry.topTrailer 0 0 0).1.rows ≠ 0 ∧ (oneEntry.topTrailer 0 0 0).1.size % 64 = 0 ∧
    oneEntry.rowsWritable 0 0 (popDst (bilDesc 0x81)) 0 1 16 (some .fp32) = true ∧ rowsService (popDst (bilDesc 0x81)) 0 1 16 = false ∧
    oneEntry.gateAll 0 .bil (runAs (bilDesc 0x81)) (rowPlaces (popDst (bilDesc 0x81)) 0 1 16) ≠ .wait := by decide +kernel
set_option maxRecDepth 8192 in
theorem wit_billet_pop_noop : let s := ((runIn stacked .bil (bilDesc 0x81)).setReg 0 (rBilCtx 0 3) 2).setReg 0 (rBilCtx 0 4) 1
    (s.topTrailer 0 0 0).2.1 = false ∧ (s.topTrailer 0 0 0).1.len = 0 := by decide +kernel
theorem wit_billet_pop_local (k : Nat) : (locOf (BitVec.ofNat 52 (rowAddr (popDst (bilDesc 0x81)) (popPitch (bilDesc 0x81)) k))).region ≠ 2 ∧
    (((runIn stacked .bil (bilDesc 0x81)).setReg 0 (rBilCtx 0 3) 2).topTrailer 0 0 0).1.size % 64 = 0 := by
  have h : popPitch (bilDesc 0x81) = 0 := by decide +kernel
  refine ⟨?_, by decide +kernel⟩
  rw [rowAddr, h, Nat.zero_mul]
  decide +kernel
theorem wit_billet_clear : let s := runIn stacked .bil 0x82
    Ready s 0 ∧ Picks s 0 .bil (bilPick 0x82 0) (runAs 0x82) ∧ dn (0x82 : Desc) 24 40 = 0 ∧ s.bilOwned 0 0 (dJob 0x82) = true := by decide +kernel

/-! RechunkAndDerivativeTables -/

theorem wit_rechunk_judged : judgeRechunk (setFld (copyDesc false 1) 0 8 0x83) = .work (.fp32, .fp32) ∧
    judgeRechunk (setFld (copyDesc false 0) 0 8 0x83) = .noop ∧ judgeRechunk (setFld (copyDesc false 1) (8 * 57) 8 2) = .format := by decide +kernel
/-- Descriptor of a TABLE_LOAD of table 0 from the scratchpad of core 0. -/
def tableDesc : Desc := setFld (0x84 : Desc) (8 * 24) 64 (2 ^ 39 + spBase 0)
theorem wit_tableLoad : let s := runIn awake .bil tableDesc
    Ready s 0 ∧ Picks s 0 .bil (fun y => decide (dKind y.desc = 0x84) && decide (fld y.desc (8 * 32) 5 = 0)) (runAs tableDesc) ∧
    dAddrOk tableDesc 24 = true ∧ rowsService (dAddr tableDesc 24) 0 1 960 = false ∧ s.rowsDecode 0 (dAddr tableDesc 24) 0 1 960 = true ∧
    s.tblUsed 0 0 = false ∧ s.isLocal 0 (dAddr tableDesc 24) = true ∧ s.gate 0 .bil (runAs tableDesc) (dAddr tableDesc 24) = .go := by decide +kernel
theorem wit_tableLoad_remote : awake.isLocal 0 (2 ^ 47 : BoardAddr) = false ∧ (awake.reqsOf 0 .bil (runAs tableDesc)) = [] := by decide +kernel

/-! MatrixLoadsAndProducts -/

/-- A LOAD of one WF16 column of 128 elements from the scratchpad of core 1. -/
def loadDesc : Desc := setFld (setFld (setFld (setFld (0x20 : Desc) (8 * 24) 64 (2 ^ 39 + spBase 1)) (8 * 36) 16 1) (8 * 38) 8 128) (8 * 39) 8 2
/-- A MUL of one row of the same format that overwrites bank line 0. -/
def mulDesc : Desc := setFld (setFld (setFld (0x21 : Desc) (8 * 48) 16 1) (8 * 52) 4 2) (8 * 53) 4 4
theorem wit_matrix_load : let s := runIn awake (.core 0) loadDesc
    Ready s 0 ∧ Runs s 0 (.core 0) 0x20 (runAs loadDesc) ∧ judgeLoad loadDesc = .work .wf16 ∧ judgeLoad 0x20 ≠ .work .wf16 ∧
    judgeLoad (setFld loadDesc (8 * 36) 16 0) = .noop ∧ judgeLoad (setFld loadDesc (8 * 39) 8 0xFF) = .format ∧
    rowsService (lSrc loadDesc) (lPitch loadDesc) 1 256 = false ∧ s.rowsDecode 0 (lSrc loadDesc) (lPitch loadDesc) 1 256 = true ∧
    s.unitFenced 0 (.core 0) 0x20 = false ∧ loadPlaces loadDesc .wf16 = [(lSrc loadDesc, 256)] := by decide +kernel
/-- The shadow that such a LOAD leaves. -/
def loaded : Stationary := ⟨.wf16, false, 128, 1, [(List.replicate 256 0, List.replicate 256 false)], 2 ^ 39 + 0x0101000000, 0⟩
/-- Core 0 of die 0 holds it and runs the MUL. -/
def ready2mul : State := (runIn awake (.core 0) mulDesc).modCore 0 0 (fun k => { k with arr := { k.arr with shadow := some loaded } })
theorem wit_matrix_mul : Ready ready2mul 0 ∧ Runs ready2mul 0 (.core 0) 0x21 (runAs mulDesc) ∧ judgeMul mulDesc = .work (.wf16, .fp64) ∧
    ready2mul.wantsDrain 0 0 (runAs mulDesc) = false ∧ mAcc mulDesc < 2 ∧ mSwap mulDesc = true ∧ ready2mul.reqsOf 0 (.core 0) (runAs mulDesc) = [] ∧
    (∀ y ∈ (ready2mul.queue 0 (.core 0)).running, dKind y.desc = 0x21 → y.acking = false) ∧
    judgeMul (setFld mulDesc (8 * 48) 16 0) = .noop := by decide +kernel
theorem wit_matrix_mul_go : ready2mul.mulFits 0 mulDesc loaded .wf16 .fp64 = true ∧ ready2mul.streaming 0 0 (runAs mulDesc) = none ∧
    slicedFmt loaded.fmt = false ∧ mulOuts mulDesc loaded .fp64 = [] := by decide +kernel
/-- The row that the MUL feeds. -/
def fed2mul : MulRun × State := ready2mul.feedTile 0 0 (runAs mulDesc) .wf16 [] [] ⟨5, loaded, 0, [], [], (ready2mul.mulMask 0 0 (runAs mulDesc) 1).1, [], [], [], [], []⟩
set_option maxRecDepth 65536 in
theorem wit_matrix_mul_fed : fed2mul.1.fed.length = 1 := by decide +kernel
set_option maxRecDepth 65536 in
theorem wit_matrix_mul_pass : ∀ k ∈ (fed2mul.1.input mulDesc .wf16).checks fed2mul.1.sums (fed2mul.2.drainTile 0 0 (runAs mulDesc) .fp64 fed2mul.1).s.free,
    k.fail = false := by decide +kernel
/-- A sliced MUL that has pair 0 of its one column and waits for the next, on another module. -/
def pairMul : MulRun := ⟨5, ⟨.fp32, false, 1, 1, [(List.replicate 320 0, List.replicate 320 false)], 2 ^ 47, 0⟩, 0,
  [[(List.replicate 256 0, List.replicate 256 false)]], [], [], [], [], [], [], []⟩
def pairing : State := ready2mul.modCore 0 0 (fun k => { k with arr := { k.arr with run := some pairMul } })
theorem wit_matrix_mul_pair : pairing.streaming 0 0 (runAs mulDesc) = some pairMul ∧ pairMul.got.length < pairCount pairMul.st.fmt ∧
    Fmt.ofCode (fld mulDesc (8 * 52) 4) = some .wf16 ∧ Fmt.ofCode (fld mulDesc (8 * 52 + 4) 4) = some .fp64 ∧
    pairing.isLocal 0 (2 ^ 47 : BoardAddr) = false := by decide +kernel
theorem wit_matrix_mul_wrong : wrongCount .fp32 (List.replicate 64 0) (List.replicate 64 false) = true := by decide +kernel

/-! DrainPopsAndTableWaits -/

/-- Core 0 runs a MUL with the derivative of a saved ReLU output against the shadow, with one entry in segment 0. -/
def dfnDesc : Desc := setFld (setFld mulDesc (8 * 53) 8 0x26) (8 * 52) 8 0x12
def drains : State := ((((runIn stacked (.core 0) dfnDesc).modCore 0 0 (fun k => { k with arr := { k.arr with shadow := some loaded } })).setReg 0 (rBilCtx 0 3) 5).setReg 0
  (rBilCtx 0 4) 1)
theorem wit_drainPop : Ready drains 0 ∧ Picks drains 0 (.core 0) mulPick (runAs dfnDesc) ∧ drains.wantsDrain 0 0 (runAs dfnDesc) = true ∧
    (drains.drainArrive 0 0 5 (dCtx dfnDesc)).drainTurn 0 0 5 (dCtx dfnDesc) = true ∧ (drains.queue 0 .bil).running = [] ∧ (drains.die 0).drains = [] ∧
    ((runIn drains .bil (bilDesc 0x80)).drainArrive 0 0 5 0).drainTurn 0 0 5 0 = false ∧
    drains.hbmServes 0 = true ∧ drains.testHold 0 = false ∧ drains.segDepth 0 (dCtx dfnDesc) ≠ 0 ∧ (stacked.segDepth 0 (dCtx dfnDesc) = 0) ∧ mDfn dfnDesc = 2 := by
  decide +kernel
theorem wit_drainPop_go : judgeMul dfnDesc = .work (.wf16, .fp32) ∧ mSwap dfnDesc = true ∧ (drains.core 0 0).arr.shadow = some loaded ∧
    drains.mulFits 0 dfnDesc loaded .wf16 .fp32 = true := by decide +kernel
/-- A command that has waited for its table since stroke 0. -/
def waits4table : Running := { runAs (setFld dfnDesc (8 * 53) 8 0x16) with waitFrom := some 0, released := 300 }
theorem wit_tableWait : let s := ((awake.modQueue 0 (.core 0) (fun x => { x with running := [waits4table] })).modTimer 0 (fun x => { x with stroke := 300 }))
    Picks s 0 (.core 0) mulPick waits4table ∧ s.wantsDrain 0 0 waits4table = true ∧
    begun (s.stroke 0) ((0 : Stroke).toNat + s.rto 0 (.core 0)) = true ∧ s.tableReady 0 waits4table.desc = false := by decide +kernel
theorem wit_formula : (decodeFloat .fp32 0x3F000000).isNan = false ∧ (decodeFloat .fp32 0x7FC00000).isNan = true := by decide +kernel

/-! RowEnginesComputeRows -/

/-- A SOFTMAX_FWD of one row of 4 FP32 elements from the scratchpad of core 0 to that of core 1, in context 0, layer 0. -/
def rowDesc (kind : Nat) : Desc :=
  setFld (setFld (setFld (setFld (setFld (setFld (0 : Desc) 0 8 kind) (8 * 24) 64 (2 ^ 39 + spBase 0)) (8 * 40) 64 (2 ^ 39 + spBase 1))
    (8 * 59) 16 1) (8 * 61) 16 4) (8 * 63) 8 0x11
/-- Context 0 has one layer of 1,024 rows. -/
def rowed : State := stacked.setReg 0 (rRowCtxGeom 0) 0x00010001
theorem wit_row : let s := runIn rowed (.row 0) (rowDesc 0x90)
    Ready s 0 ∧ Runs s 0 (.row 0) 0x90 (runAs (rowDesc 0x90)) ∧ judgeRow (rowDesc 0x90) = .work (.fp32, .fp32) ∧ judgeRow (rowDesc 0x91) = .work (.fp32, .fp32) ∧
    judgeRow (setFld (rowDesc 0x92) (8 * 59) 16 0) = .noop ∧ judgeRow (setFld (rowDesc 0x93) (8 * 63) 8 0x70) = .format ∧
    s.rowCtxOk 0 (rowDesc 0x90) 1 = true ∧ s.rowAddrsOk 0 (rowDesc 0x90) .fp32 .fp32 = true ∧ s.unitFenced 0 (.row 0) 0x90 = false ∧ s.hbmServes 0 = true := by
  decide +kernel
theorem wit_row_values : [0x7F800000].any special32 = true ∧ [0x3F800000].any special32 = false ∧ rAffine (rowDesc 0x91) = false ∧
    rAffine (setBit (rowDesc 0x91) 181 true) = true ∧ rRms (setBit (rowDesc 0x91) 180 true) = true := by decide +kernel
theorem wit_row_flush : let s := (runIn rowed (.row 0) 0x94).setWins 0 0 [⟨0, 0, 0, 1, [(0, 5)], 0, 0⟩]
    Runs s 0 (.row 0) 0x94 (runAs 0x94) ∧ dn (0x94 : Desc) 24 40 = 0 ∧ s.rowCtxOk 0 0x94 0 = true ∧ s.unitFenced 0 (.row 0) 0x94 = false ∧
    (s.wins 0 0).filter (fun w => w.ctx == dCtx 0x94) = [⟨0, 0, 0, 1, [(0, 5)], 0, 0⟩] ∧ awake.rowCtxOk 0 0x94 0 = false := by decide +kernel

/-! UpdatesAndBuckets -/

/-- BUCKET_OPEN of 64 bytes of FP32 at HBM offset 0. -/
def openDesc : Desc := setFld (setFld (0x71 : Desc) (8 * 32) 64 64) (8 * 40) 4 1
theorem wit_bucket_open : let s := runIn served .upd openDesc
    Ready s 0 ∧ Runs s 0 .upd 0x71 (runAs openDesc) ∧ Fmt.ofCode (fld openDesc (8 * 40) 4) = some .fp32 ∧ dAddrOk openDesc 24 = true ∧ dn openDesc 32 8 = 64 ∧
    rowsService (dAddr openDesc 24) 0 1 64 = false ∧ s.rowsDecode 0 (dAddr openDesc 24) 0 1 64 = true ∧ s.isLocal 0 (dAddr openDesc 24) = true ∧
    (locOf (dAddr openDesc 24)).region = 0 ∧ s.storeHit 0 0 64 = false ∧ (s.die 0).buckets = [] ∧ s.testHold 0 = false ∧ s.hbmServes 0 = true := by decide +kernel
theorem wit_bucket_taken : overlaps 0 64 0 64 = true := by decide
theorem wit_bucket_close : let s := (runIn served .upd 0x72).modDie 0 (fun x => { x with buckets := [⟨0, 0, 0, 64, .fp32, true, 3, none⟩] })
    Runs s 0 .upd 0x72 (runAs 0x72) ∧ (s.die 0).buckets.find? (fun b => decide (b.job = dJob 0x72 ∧ b.num = bktNum 0x72)) = some ⟨0, 0, 0, 64, .fp32, true, 3, none⟩ ∧
    dn (0x72 : Desc) 24 18 = 0 ∧ dn (0x72 : Desc) 44 20 = 0 ∧ s.dieFenced 0 = false ∧
    s.closeAwaits 0 (runAs 0x72) ⟨0, 0, 0, 64, .fp32, true, 3, none⟩ = [] := by decide +kernel
/-- A close meets a COPY of core 0 that writes into the bucket. -/
theorem wit_bucket_close_waits :
    let x : Desc := setFld (setFld (setFld (setFld (0x10 : Desc) (8 * 40) 32 16) (8 * 44) 32 1) (8 * 56) 8 0x11) (8 * 32) 64 0
    (runIn served (.core 0) x).closeAwaits 0 (runAs 0x72) ⟨0, 0, 0, 64, .fp32, true, 3, none⟩ = [(0, .core 0, (runAs x).ident)] := by decide +kernel
/-- UPDATE of 128 rows with its record in the scratchpad of core 0. -/
def updDesc : Desc := setFld (setFld (0x70 : Desc) (8 * 24) 64 (2 ^ 39 + spBase 0)) (8 * 36) 32 128
theorem wit_update : let s := (runIn served .upd updDesc).setReg 0 (rUpdSet 0) 0x80000000
    Ready s 0 ∧ Runs s 0 .upd 0x70 (runAs updDesc) ∧ dn updDesc 36 4 ≠ 0 ∧ dn updDesc 32 4 % 128 = 0 ∧ s.ctxOf 0 (dJob updDesc) = some 0 ∧
    served.ctxOf 0 (dJob updDesc) = none ∧ rowsService (dAddr updDesc 24) 0 1 128 = false ∧ s.rowsDecode 0 (dAddr updDesc 24) 0 1 128 = true ∧
    s.isLocal 0 (dAddr updDesc 24) = true ∧ s.gate 0 .upd (runAs updDesc) (dAddr updDesc 24) = .go := by decide +kernel
theorem wit_update_zero : (decodeFloat .fp32 (op32 .add 0x80000000 0x80000000)).isZero = true ∧ op32z .add 0x80000000 0x80000000 = 0 ∧
    (decodeFloat .fp32 (op32 .add 0x3F800000 0)).isZero = false := by decide +kernel
theorem wit_update_fields : (updRecOf (List.replicate 128 0)).fieldsOk = false := by decide +kernel
/-- An update record of 128 rows of one WF16 element with an FP32 master and no moments. -/
def goodRecord : List Byte := leBytes 64 0 ++ leBytes 4 128 ++ leBytes 4 1 ++ [0x11, 0x11, 0, 0] ++ leBytes 52 0
theorem wit_update_good : (updRecOf goodRecord).fieldsOk = true ∧ (updRecOf goodRecord).bandOk 0 128 = true ∧ (updRecOf goodRecord).maskEn = false ∧
    (updRecOf goodRecord).service 0 0 128 = false ∧ served.updAddrsOk 0 updDesc (updRecOf goodRecord) 0 0 128 = true := by
  decide +kernel

/-! CrucibleStructures -/

/-- An image of one die, one row and one entry, without phases, with its fingerprint and its check sum. -/
def tinyImage : List Byte :=
  let body := fun (finger : List Byte) (crc : Nat) =>
    leBytes 4 0x4C425243 ++ leBytes 2 1 ++ leBytes 1 2 ++ leBytes 1 1 ++ leBytes 2 1 ++ leBytes 2 1 ++ leBytes 2 1024 ++ leBytes 2 0
      ++ finger ++ leBytes 4 1 ++ leBytes 4 1 ++ leBytes 8 1 ++ leBytes 8 0x3DDB7CDFD9D7BDBB ++ leBytes 16 0 ++ leBytes 8 65536 ++ leBytes 8 788
      ++ leBytes 8 768 ++ leBytes 8 192 ++ leBytes 16 0 ++ leBytes 8 256 ++ leBytes 8 0 ++ leBytes 48 0 ++ leBytes 4 crc ++ leBytes 4 0
      ++ leBytes 576 0 ++ leBytes 8 0 ++ leBytes 8 1 ++ leBytes 4 0
  body (leBytes 16 0xe164337247f7060d709cd3c791fde544) 0xea5604bd
/-- A slot of job 0 with a one-entry image. -/
def tinySlot : CruSlot := ⟨0, 0, 1, 0, 65536, 0, 0, [], tinyImage, Factors.none⟩
/-- Die 0 holds that slot, VALUED, as slot 0. -/
def solving : State := (served.modDie 0 (fun x => { x with slots := [(0, tinySlot)] })).setReg 0 (rCruSlot 0 0) 0xA0010000
/-- STRUCT_LOAD from HBM offset 0x100000 with its store at 0x200000. -/
def structLoadDesc : Desc := setFld (setFld (0x40 : Desc) (8 * 24) 64 0x100000) (8 * 32) 64 0x200000
theorem wit_struct_load : let s := runIn served .cru structLoadDesc
    s.cruStopping 0 (runAs structLoadDesc) = false ∧ Ready s 0 ∧ Runs s 0 .cru 0x40 (runAs structLoadDesc) ∧ dAddrOk structLoadDesc 24 = true ∧ dn structLoadDesc 40 24 = 0 ∧ dn structLoadDesc 32 8 = 0x200000 ∧
    rowsService (dAddr structLoadDesc 24) 0 1 256 = false ∧ s.rowsDecode 0 (dAddr structLoadDesc 24) 0 1 256 = true ∧ s.isLocal 0 (dAddr structLoadDesc 24) = true ∧
    s.gate 0 .cru (runAs structLoadDesc) (dAddr structLoadDesc 24) = .go ∧ s.cruClear 0 (runAs structLoadDesc) 1 = true := by decide +kernel
theorem wit_image : imn tinyImage 80 8 = 788 ∧ headerRanges tinyImage = true ∧ sumsOk tinyImage = true ∧ served.groupOk tinyImage = true ∧
    served.storeFits tinyImage 0x200000 = true ∧ served.schedFenced tinyImage = false ∧ served.cruHeld 1 = false ∧ served.cruServes 1 = true := by decide +kernel
set_option maxRecDepth 65536 in
theorem wit_image_sound : imageOk tinyImage = true := by decide +kernel
theorem wit_struct_free : Runs (runIn solving .cru 0x41) 0 .cru 0x41 (runAs 0x41) ∧ dn (0x41 : Desc) 24 40 = 0 ∧
    (runIn solving .cru 0x41).slotFor 0 0x41 = some tinySlot ∧ (runIn served .cru 0x41).slotFor 0 0x41 = none ∧ served.slotFor 0 0x42 = none ∧
    (runIn solving .cru 0x41).dieFenced 0 = false ∧ (runIn solving .cru 0x41).cruStopping 0 (runAs 0x41) = false := by decide +kernel
/-- VALUES of one pair at HBM offset 0x100000. -/
def valDesc : Desc := setFld (setFld (0x42 : Desc) (8 * 24) 64 0x100000) (8 * 32) 64 1
theorem wit_values : let s := runIn solving .cru valDesc
    s.cruStopping 0 (runAs valDesc) = false ∧ min (1 - 0) (max 1 (s.valuesRate 0 false)) = 1 ∧ Ready s 0 ∧ Runs s 0 .cru 0x42 (runAs valDesc) ∧ s.slotFor 0 valDesc = some tinySlot ∧ dAddrOk valDesc 24 = true ∧ dn valDesc 32 8 = 1 ∧
    dn valDesc 40 24 = 0 ∧ s.slotState 0 0 = 2 ∧ rowsService (dAddr valDesc 24) 0 1 16 = false ∧ s.rowsDecode 0 (dAddr valDesc 24) 0 1 16 = true ∧
    s.schedFenced tinyImage = false ∧ s.cruHeld 1 = false ∧ s.cruServes 1 = true ∧ s.isLocal 0 (dAddr valDesc 24) = true ∧
    s.gate 0 .cru (runAs valDesc) (dAddr valDesc 24) = .go := by decide +kernel
theorem wit_values_dense : dn (setFld valDesc (8 * 40) 1 1) 40 24 = 1 ∧ bitAt (setFld valDesc (8 * 40) 1 1) (8 * 40) = true ∧ imNnz tinyImage = 1 ∧
    dn (setFld valDesc (8 * 32) 64 0) 32 8 = 0 := by decide +kernel

/-! CrucibleSolves -/

/-- SOLVE of one right-hand side in slot 0, with a deadline of 100 strokes. -/
def solDesc (kind nrhs : Nat) : Desc :=
  setFld (setFld (setFld (setFld (setFld (setFld (0 : Desc) 0 8 kind) (8 * 24) 64 0x100000) (8 * 32) 64 0x110000) (8 * 48) 64 0x120000) (8 * 56) 24 100)
    (8 * 60) 16 nrhs
/-- The slot is FACTORED. -/
def factoredSlot : State := solving.setReg 0 (rCruSlot 0 0) 0xE0010000
theorem wit_solve : let s := runIn factoredSlot .cru (solDesc 0x44 1)
    Ready s 0 ∧ Runs s 0 .cru 0x44 (runAs (solDesc 0x44 1)) ∧ (s.die 0).solve = none ∧ s.slotFor 0 (solDesc 0x44 1) = some tinySlot ∧
    solShape (solDesc 0x44 1) = true ∧ solShape (solDesc 0x44 0) = true ∧ solShape (setFld (solDesc 0x44 1) (8 * 62) 8 1) = false ∧
    solFields (solDesc 0x44 1) tinyImage = true ∧ s.slotState 0 (cruSlotOf (solDesc 0x44 1)) = 3 ∧ solGuard 0x44 tinyImage = 0 ∧
    s.solDeadline 0 (solDesc 0x44 1) = 100 ∧ s.schedFenced tinyImage = false ∧ solNrhs (solDesc 0x44 1) = 1 ∧ solNrhs (solDesc 0x44 0) = 0 ∧
    solService (solDesc 0x44 1) tinyImage = false ∧ s.solAddrs 0 (solDesc 0x44 1) tinyImage = true ∧ s.cruHeld 1 = false ∧ s.cruServes 1 = true ∧
    (runIn served .cru (solDesc 0x44 1)).slotFor 0 (solDesc 0x44 1) = none := by decide +kernel
/-- A solve of slot 0 with a phase of two tasks on die 0. -/
def cruRun : CruRun := ⟨5, 0, 1, [0], 0, 100, 0, 1, 0, 1, [2, 3, 5], [0], none, 0, [0, 1], 3, none, false, false, 0, [], [], [], false, some 0, none, none,
  0, 0, false, [], [], false, [], [], [], [], false, ⟨[], [], [], [], [], [], 0, 0, 0, 0⟩, [], 0, [], [], []⟩
/-- An image with one phase of a class with two tasks, the first a SEND of nothing. -/
def phasedOf (cls : Nat) : List Byte :=
  tinyImage.take 104 ++ leBytes 8 800 ++ leBytes 8 816 ++ leBytes 8 256 ++ leBytes 4 1 ++ leBytes 4 2 ++ tinyImage.drop 136 ++ leBytes (800 - tinyImage.length) 0
    ++ leBytes 4 0 ++ leBytes 4 2 ++ leBytes 2 1 ++ leBytes 1 cls ++ leBytes 5 0 ++ leBytes 4 0x3F000000 ++ leBytes 4 6 ++ leBytes 56 0
/-- One with a phase of class 6. -/
def phasedImage : List Byte := phasedOf 6
/-- That solve in progress. -/
def inPhase (u : CruRun) : State :=
  (runIn solving .cru (solDesc 0x44 1)).modDie 0 (fun x => { x with solve := some u, slots := [(0, { tinySlot with image := phasedImage })] })
theorem wit_solve_end : let s := inPhase { cruRun with done := true }
    (s.die 0).solve = some { cruRun with done := true } ∧ s.cruSlot 0 0 = some { tinySlot with image := phasedImage } ∧
    s.reqsOf 0 .cru (runAs (solDesc 0x44 1)) = [] ∧
    [dAddr (solDesc 0x44 1) 24, dAddr (solDesc 0x44 1) 32, dAddr (solDesc 0x44 1) 48].all (fun a => s.isLocal 0 a && decide ((locOf a).region ≤ 1)) = true := by decide +kernel
theorem wit_phase : let s := inPhase cruRun
    Ready s 0 ∧ (s.queue 0 .cru).running.find? (fun y => decide (y.ident = cruRun.ident)) = some (runAs (solDesc 0x44 1)) ∧
    s.phaseHeld 0 { tinySlot with image := phasedImage } { cruRun with cutoff := 9 } = false ∧ (imPhase phasedImage 0).count = 2 ∧
    (imTask phasedImage 0).op = 6 ∧ (imTask phasedImage 0).off = 0 ∧ s.hbmServes (dieIx (imTask phasedImage 0).die) = true := by decide +kernel
theorem wit_phase_done : let m := kindMsg 0x38 (leBytes 8 0)
    let s := inPhase { cruRun with phase := some 0, tasks := [] }
    ((s.takeMsg 0 m).wake 0).dropRequest 0 m = none ∧ leNat (slice m.spec 0 2) = 0 ∧ leNat (slice m.spec 4 4) = 0 ∧
    inMask 3 (dieIx (m.src.toNat / 64)).val = true ∧ 3 - 2 ^ (dieIx (m.src.toNat / 64)).val ≠ 0 := by decide +kernel
theorem wit_cutoff : let s := inPhase cruRun
    cruRun.cutoff ≤ s.cruElapsed 0 cruRun ∧ fallbackOf 0x44 { tinySlot with image := phasedImage } cruRun [] = none ∧ cruRun.poisoned = false ∧ dKind (solDesc 0x44 1) = 0x44 ∧
    imClass phasedImage 6 = [0] ∧ imClass (phasedOf 2) ((solClasses 0x44 0).headD 9) = [0] := by decide +kernel
theorem wit_cutoff_gradient : let u := { cruRun with closing := true, classes := [6, 5], phase := some 0, cutoff := 1 }
    ((inPhase u).modTimer 0 (fun x => { x with stroke := 1 })).gradientLate 0 u = true ∧ imClass (phasedOf 5) (([6, 5].drop 1).headD 9) = [0] := by decide +kernel
/-- A released SOLVE that waits alone in its queue. -/
def solWaits : QEntry := ⟨0, setFld (solDesc 0x44 1) 64 40 0, some 0, false, false, false⟩
theorem wit_claims : let s := factoredSlot.modQueue 0 .cru (fun x => { x with entries := [solWaits] })
    headerOk .cru (s.stroke 0) solWaits.desc = true ∧ s.parked 0 = false ∧ s.canStart 0 .cru solWaits = true ∧ s.claims 0 solWaits.desc = true := by decide +kernel

/-! CommitVotes -/

/-- Job 1 with the uncores of some dies of module 0 as members. -/
def jobOf (l : List Nat) : State :=
  let s := { awake with jobs := [⟨1, l.map (fun e => BitVec.ofNat 23 (64 * e + 63)), 0, [0], [], 0, 0, 0, 0, 0, 0, 0, none, none, []⟩] }
  (s.setReg 0 (rUpdSet 0) 0x80000001).setReg 0 (rColCtx 0 0) 0x80000001
/-- Context 0 of die 0 in a commit state; its commit stroke is 1. -/
def cmtIn (s : State) (st : Nat) : State := (s.setReg 0 (rCmtStat 0) (BitVec.ofNat 32 st)).setReg 0 (rCmtCLo 0) 1
/-- The stroke counter of die 0. -/
def inStroke (s : State) (n : Stroke) : State := s.modDie 0 (fun x => { x with timer := { x.timer with stroke := n } })
theorem wit_vote_cutoff : let s := inStroke (cmtIn (jobOf [0, 1]) 1) 1024
    Ready s 0 ∧ s.cmtState 0 0 = 1 ∧ begun (s.stroke 0) (s.cmtMinus 0 0 3) = true ∧ s.voteCause 0 0 = 0 ∧ s.amI 0 (s.rootOf (s.cmtJob 0 0)) = true ∧
    s.stepPending 0 (s.cmtJob 0 0) (s.stepOf 0 0) = false ∧ (s.setReg 0 (rCmtCtl 0) 0x10000).voteCause 0 0 = 9 ∧
    (s.modCommit 0 0 (fun c => { c with notice := true })).voteCause 0 0 = 6 ∧ (s.modCommit 0 0 (fun c => { c with chunkBad := 2 })).voteCause 0 0 = 2 ∧
    (s.modCommit 0 0 (fun c => { c with badStatus := 1 })).voteCause 0 0 = 1 ∧ (cmtIn (jobOf [0, 1]) 0).cmtState 0 0 ≠ 1 := by decide +kernel
/-- A commit message of job 1 from die 1 with YES or NO. -/
def cmtMsg (kind : BitVec 8) (yes : Nat) (step : Word) : Msg := { kindMsg kind (leBytes 1 yes ++ leBytes 35 0) with job := 1, src := 127, step := step }
theorem wit_vote : let s := cmtIn (jobOf [0, 1]) 2
    s.ctxOf 0 1 = some 0 ∧ s.amI 0 (s.rootOf 1) = true ∧ s.staleMsg 0 (cmtMsg 0x33 1 1) = false ∧ s.cmtCurrent 0 0 (cmtMsg 0x33 1 1) = true ∧
    s.cmtCurrent 0 0 (cmtMsg 0x33 1 7) = false := by decide +kernel
theorem wit_root_decision : let s := inStroke (cmtIn (jobOf [0, 1]) 2) 1024
    Ready s 0 ∧ s.amI 0 (s.rootOf (s.cmtJob 0 0)) = true ∧ s.cmtState 0 0 = 2 ∧ begun (s.stroke 0) (s.cmtMinus 0 0 2) = true ∧
    (s.commit 0 0).decision = none ∧ (s.commit 0 0).held = none ∧ s.backupOf (s.cmtJob 0 0) = some 127 ∧ s.decideVerdict 0 0 = (false, 9) ∧
    (jobOf [0]).backupOf 1 = none ∧ (jobOf [0]).rootOf 1 = some 63 := by decide +kernel

/-! CommitVerdicts -/

theorem wit_verdict : let s := cmtIn (jobOf [0, 1]) 2
    s.ctxOf 0 1 = some 0 ∧ s.staleMsg 0 (cmtMsg 0x34 1 1) = false ∧ s.cmtCurrent 0 0 (cmtMsg 0x34 1 1) = true ∧ s.cmtCurrent 0 0 (cmtMsg 0x34 1 7) = false ∧
    s.amI 0 (s.backupOf 1) = false ∧ s.amI 0 (s.rootOf 1) = true ∧ (inStroke s 1024).commitStroke 0 0 = 1 ∧
    begun ((inStroke s 1024).stroke 0) ((inStroke s 1024).commitStroke 0 0) = true := by decide +kernel
theorem wit_verdict_held : let s := (cmtIn (jobOf [0, 1]) 4).modCommit 0 0 (fun c => { c with held := some (true, 0), silent := 4, decision := some (true, 0), kept := [(1, 0, true, 0)] })
    (s.commit 0 0).decision = some (true, 0) ∧ (s.commit 0 0).held = some (true, 0) ∧ s.cmtState 0 0 = 4 ∧ (s.commit 0 0).toBackup = false ∧
    4 ≤ (s.commit 0 0).silent ∧ (s.commit 0 0).kept.find? (fun v => decide (v.1 = (1 : Word)) && decide (v.2.1 = (0 : BitVec 8))) = some (1, 0, true, 0) := by decide +kernel
theorem wit_verdict_backup : let s := ((((jobOf [0, 1]).setReg 1 (rUpdSet 0) 0x80000001).setReg 1 (rColCtx 1 0) 0x80000001).modDie 1 (fun x =>
      { x with peers := [⟨1, 63, 4, false, true⟩] }))
    s.ctxOf 1 1 = some 0 ∧ s.staleMsg 1 (cmtMsg 0x36 0 1) = false ∧ s.amI 1 (s.backupOf 1) = true ∧ s.rootOf 1 = some 63 ∧ s.peerAbsent 1 1 63 = true ∧
    (s.commit 1 0).kept = [] := by decide +kernel
theorem wit_undecided_root : let s := (inStroke (cmtIn (jobOf [0, 1]) 2) 1024).modCommit 0 0 (fun c => { c with kept := [(1, 0, true, 0)] })
    Ready s 0 ∧ s.rootOf (s.cmtJob 0 0) = some 63 ∧ s.isMe 0 63 = true ∧ (s.commit 0 0).decision = none ∧ (s.commit 0 0).held = none ∧
    s.keptAnswer 0 0 (s.cmtJob 0 0) (BitVec.ofNat 32 (s.stepOf 0 0)) (BitVec.ofNat 8 (s.attempt 0 0)) = some (true, 0) ∧
    begun (s.stroke 0) (s.commitStroke 0 0) = true := by decide +kernel
theorem wit_chunk_missing : let s := (cmtIn (jobOf [0, 1]) 1).modCommit 0 0 (fun c => { c with buckets := [3] })
    (s.commit 0 0).buckets.find? (fun b => !(s.commit 0 0).finished.contains b) = some 3 ∧ (s.die 0).reds = [] ∧ s.chunkCause 0 0 = 9 := by decide +kernel
theorem wit_returning : let s := (cmtIn (jobOf [0, 1]) 2).modDie 0 (fun x => { x with returning := 1 })
    Ready s 0 ∧ s.ctxOf 0 1 = some 0 ∧ s.staleMsg 0 (cmtMsg 0x34 1 1) = false ∧ s.cmtCurrent 0 0 (cmtMsg 0x34 1 1) = true ∧
    bitAt (s.die 0).returning 0 = true := by decide +kernel
theorem wit_relaid : let s := (cmtIn (jobOf [0, 1]) 1).modCommit 0 0 (fun c => { c with relaid := true, held := some (true, 0) })
    s.voteCause 0 0 = 6 ∧ s.relayPends 0 0 = false ∧ (s.commit 0 0).held = some (true, 0) := by decide +kernel

/-! Reductions -/

/-- Job 1 on dies 0 and 1, with a group entry 0 of both at HBM offset 0 and its member list at 0x100. -/
def grouped : State :=
  let s := { jobOf [0, 1] with mem := ⟨[(1, 1), (8, 2), (0x100, 63), (0x104, 127)], []⟩ }
  (s.setRf 0 rHbmStatus 4 4 15)
/-- ALLREDUCE of n chunks of job 1, step 1, with its operands in HBM. -/
def arDesc (n : Nat) : Desc :=
  setFld (setFld (setFld (setFld (setFld (setFld (setFld (setFld (0x50 : Desc) (8 * 2) 12 1) (8 * 16) 32 1) (8 * 24) 64 0x10000) (8 * 32) 64 0x20000)
    (8 * 40) 64 0x30000) (8 * 48) 64 0x40000) (8 * 56) 16 n) (8 * 60) 24 0x010201
theorem wit_allreduce_job : dJob (arDesc 1) = 1 ∧ dStep (arDesc 1) = 1 ∧ arChunks (arDesc 1) = 1 ∧ arChunks (arDesc 0) = 0 ∧ arFormat (arDesc 1) = true := by
  decide +kernel
theorem wit_allreduce : let s := runIn grouped .col (arDesc 1)
    Ready s 0 ∧ Granted s 0 .col (fun r => decide (dKind r.desc = 0x50) && !s.colStarted 0 r.ident && !s.backwardLeft 0 r.desc) (runAs (arDesc 1)) ∧ s.colCtx 0 1 = some 0 ∧
    s.colGate 0 = .go ∧ awake.colCtx 0 1 = none := by decide +kernel
theorem wit_group : let p := grouped.groupOf 0 0 0
    let g : Group := ⟨false, [63, 127], 0⟩
    p.1 = some g ∧ p.2.dieFenced 0 = false ∧ p.2.colMatches 0 0 (arDesc 1) = true ∧ p.2.colMatches 0 0 (setFld (arDesc 1) 128 32 9) = false ∧
    p.2.redOk 0 (runAs (arDesc 1)) 0 (redNew (runAs (arDesc 1)) 0 g) = true ∧ (grouped.groupOf 0 0 1).1 = none ∧
    arFormat (setFld (arDesc 1) (8 * 63) 8 1) = false := by decide +kernel
/-- A collective message of job 1, step 1, for group 0, chunk 0, from member 1. -/
def colMsg (kind : BitVec 8) (data : List Byte) : Msg :=
  { kindMsg kind (colSpec 0 0 1 1 0 0 0) with job := 1, src := 127, step := 1, data := data }
/-- An ALLREDUCE of one chunk that has begun, with a scale of 100 in its table. -/
def reducing : State :=
  let r := runAs (arDesc 1)
  let s := (runIn grouped .col (arDesc 1)).memWrite ⟨0, 1, false⟩ 0 0 0x30000 (leBytes 4 100) [false, false, false, false]
  s.modDie 0 (fun x => { x with reds := [redNew r 0 ⟨false, [63, 127, 191], 0⟩] })
theorem wit_dropped : grouped.colDrop 0 (colMsg 0x10 []) = none ∧ grouped.colDrop 0 { colMsg 0x10 [] with step := 5 } = some (rColDrop1, 16) ∧
    grouped.bucketDone 0 (colMsg 0x10 []) = false ∧ grouped.redOf 0 (colMsg 0x10 []) = none ∧ grouped.gatherOf 0 (colMsg 0x10 []) = none ∧
    grouped.txOf 0 (colMsg 0x10 []) = none ∧ grouped.colGate 0 = .go ∧ earlyBytes [colMsg 0x10 []] = 100 - 36 := by decide +kernel
theorem wit_contrib : let u := redNew (runAs (arDesc 1)) 0 ⟨false, [63, 127, 191], 0⟩
    reducing.redOf 0 (colMsg 0x10 []) = some (u, runAs (arDesc 1)) ∧ u.late (reducing.stroke 0) 0x10 = false ∧
    reducing.awaitsScale 0 (runAs (arDesc 1)) u (colMsg 0x10 []) = false ∧ u.sums 0 = true ∧ u.others = [1, 2] ∧ u.chunks.length = 1 ∧
    u.chunk 0 = RedChunk.start := by decide +kernel
theorem wit_scale : let u := redNew (runAs (arDesc 1)) 0 ⟨false, [63, 127, 191], 0⟩
    scaleOf (reducing.redScale 0 (runAs (arDesc 1)) 0) = 100 ∧ u.fitsMsg (colMsg 0x15 [7, 1]) 2 = true ∧ msgCount (colMsg 0x15 [7, 1]) = 1 ∧
    u.owner 0 = u.my ∧ (⟨0, 0, none, 100, false, false, false, 1, 0⟩ : ChunkTail).fits [] [] = true := by decide +kernel
theorem wit_cut : begun ((inStroke reducing 2048).stroke 0) 1 = true ∧ begun (reducing.stroke 0) 1 = false := by decide +kernel

/-! GathersAndExchanges -/

/-- ALLGATHER or BROADCAST of n bytes of job 1, step 1. -/
def gaDesc (bcast : Bool) (n : Nat) : Desc :=
  setFld (setFld (setFld (setFld (setFld (setFld (setFld (0 : Desc) 0 8 (if bcast then 0x52 else 0x51)) (8 * 2) 12 1) (8 * 16) 32 1) (8 * 24) 64 0x10000)
    (8 * 32) 64 0x20000) (8 * 56) 32 n) (8 * 61) 8 2
theorem wit_allgather : let s := runIn grouped .col (gaDesc false 64)
    Ready s 0 ∧ Granted s 0 .col (fun r => decide (dKind r.desc = 0x51) && !s.colStarted 0 r.ident) (runAs (gaDesc false 64)) ∧ s.colCtx 0 (dJob (gaDesc false 64)) = some 0 ∧
    s.colGate 0 = .go ∧ gFormat false (gaDesc false 64) = true ∧ gFormat true (gaDesc true 64) = true ∧ gLen (gaDesc false 64) = 64 ∧ gLen (gaDesc false 0) = 0 ∧
    s.ownClear 0 (dAddr (gaDesc false 64) 24) 64 = true ∧ s.ownClear 0 (dAddr (gaDesc false 64) 32) 128 = true ∧ gRoot (gaDesc true 64) = 0 := by decide +kernel
/-- An ALLGATHER of 64 bytes that has begun. -/
def gathering : State :=
  let r := runAs (gaDesc false 64)
  let s := runIn grouped .col (gaDesc false 64)
  s.modDie 0 (fun x => { x with gathers := [gatherNew false r 0 ⟨false, [63, 127], 0⟩] })
/-- The 64 bytes of member 1, with or without their check. -/
def piece (good : Bool) : Msg :=
  let data := List.replicate 64 (0 : Byte)
  { colMsg 0x16 data with spec := colSpec 0 0 1 1 0 (if good then dataCheck data else 1) 0 }
theorem wit_piece : let u := gatherNew false (runAs (gaDesc false 64)) 0 ⟨false, [63, 127], 0⟩
    gathering.gatherOf 0 (piece true) = some u ∧ begun (gathering.stroke 0) u.dr = false ∧ u.group = 0 ∧ u.shards = [1] ∧ u.pieces = [] ∧
    piecesOf u.len = [(0, 64)] ∧ gathering.colDrop 0 (piece true) = none ∧ gathering.bucketDone 0 (piece true) = false ∧
    msgGroup (piece true) = 0 ∧ msgSrcIdx (piece true) = 1 ∧ msgOffset (piece true) = 0 ∧ msgPoisoned (piece true) = false := by decide +kernel
theorem wit_piece_more : let u := gatherNew false (runAs (gaDesc false 64)) 0 ⟨false, [63, 127, 191], 0⟩
    u.taint = false ∧ u.fails = 0 ∧ u.shards = [1, 2] ∧ ({ u with pieces := [(1, 0, false)] } : GatherRun).complete = false := by decide +kernel
theorem wit_piece_check : dataCheck (piece true).data = msgCheck (piece true) ∧ dataCheck (piece false).data ≠ msgCheck (piece false) := by decide +kernel
theorem wit_result : reducing.gatherOf 0 (colMsg 0x12 []) = none ∧ (reducing.redOf 0 (colMsg 0x12 [])).isSome = true ∧
    (reducing.redOf 0 (colMsg 0x12 [])).map (fun p => p.1.late (reducing.stroke 0) 0x12) = some false := by decide +kernel
/-- A DISPATCH of job 1, step 1, whose record is at HBM offset 0x1000: no tokens, or one token with one choice of one expert. -/
def txDesc : Desc := setFld (setFld (setFld (setFld (0x60 : Desc) (8 * 2) 12 1) (8 * 16) 32 1) (8 * 24) 64 0x1000) (8 * 33) 8 3
def txMem (tok : Byte) : State :=
  let s := { grouped with mem := ⟨grouped.mem.cells ++ [(0x1001, 0x80), (0x1009, 0x90), (0x1011, 0xA0), (0x1019, 0xB0), (0x1021, 1), (0x1029, 0xC0), (0x1031, 0xD0), (0x1038, tok),
    (0x103C, 4), (0x1040, 1), (0x1042, 1), (0x1043, 1), (0xA006, 1)].filter (fun p => p.2 ≠ 0), []⟩ }
  runIn s .txe txDesc
theorem wit_dispatch : let s := txMem 0
    let e := s.readAt 0 1 0x1000 128
    Ready s 0 ∧ Granted s 0 .txe (fun r => decide (dKind r.desc = 0x60) && !s.txStarted 0 r.ident) (runAs txDesc) ∧ txFormat false txDesc = true ∧
    s.ownClear 0 (dAddr txDesc 24) 128 = true ∧ dJob txDesc = 1 ∧ opPlace txDesc 24 = 0x1000 ∧ e.poison.any id = false ∧ xeFormat e.bytes = true ∧
    xeTok e.bytes = 0 := by decide +kernel
theorem wit_dispatch_work : let s := txMem 1
    let e := s.readAt 0 1 0x1000 128
    let tb := s.readAt 0 1 (xeTable e.bytes) 16
    let u := txNew false (runAs txDesc) 0 ⟨false, [63, 127], 0⟩ e.bytes tb.bytes (leBytes 2 0) false
    xeTok e.bytes = 1 ∧ xeExp e.bytes = 1 ∧ xeSlots e.bytes = 1 ∧ s.ownClear 0 (addrOf (xeTable e.bytes)) 16 = true ∧ s.ownClear 0 (addrOf (xeRoute e.bytes)) 2 = true ∧
    tableOk tb.bytes 1 2 = true ∧ s.txOk 0 u = true ∧ u.replay = false := by decide +kernel
/-- An exchange that runs and expects 16 bytes from member 1. -/
def txRun : TxRun := ⟨5, 0, 1, 0, [63, 127], 0, 3, false, false, [], [], [], [], false, [], [(0, 1, 16)], [], [], false, false, false, 0⟩
theorem wit_tx : let s := (txMem 1).modDie 0 (fun x => { x with exchanges := [txRun] })
    s.txOf 0 (colMsg 0x22 [1]) = some txRun ∧ s.colDrop 0 (colMsg 0x22 [1]) = none ∧ txRun.already (colMsg 0x22 [1]) = false ∧
    txRun.already (colMsg 0x20 [1]) = false ∧ txRun.already (colMsg 0x21 [1]) = false ∧ msgSrcIdx (colMsg 0x22 [1]) < txRun.size ∧
    msgOffset (colMsg 0x22 [1]) + 1 ≤ 16 ∧ dataCheck [1] ≠ msgCheck (colMsg 0x22 [1]) := by decide +kernel
theorem wit_result_deadline : let s := inStroke reducing 4096
    (s.die 0).gathers = [] ∧ (s.die 0).exchanges = [] ∧ begun (s.stroke 0) 2 = true ∧
    (s.queue 0 .col).running.find? (fun y => decide (y.ident = 5)) = some (runAs (arDesc 1)) ∧ (awake.die 0).reds = [] := by decide +kernel
theorem wit_begun_all : let s := inStroke reducing 4096
    (∀ y ∈ (s.queue 0 .col).running, s.colStarted 0 y.ident = true) ∧ (s.queue 0 .txe).running = [] := by decide +kernel
theorem wit_unbegun : let s := inStroke (runIn grouped .col (arDesc 1)) 4096
    (s.queue 0 .col).running = [runAs (arDesc 1)] ∧ s.colStarted 0 5 = false ∧ begun (s.stroke 0) (deadlineBase (runAs (arDesc 1)) + dn (arDesc 1) 61 1) = true ∧
    begun (grouped.stroke 0) (deadlineBase (runAs (arDesc 1)) + dn (arDesc 1) 61 1) = false := by decide +kernel
theorem wit_allreduce_ends : let p := grouped.groupOf 0 0 0
    let g : Group := ⟨false, [63, 127], 0⟩
    let bad : Running := { runAs (arDesc 1) with desc := setFld (arDesc 1) (8 * 24) 64 0x28000000000 }
    p.2.redOk 0 bad 0 (redNew bad 0 g) = false ∧ (p.2.setReg 0 rHltFenceDie 0x80000000).dieFenced 0 = true ∧ bad.acking = false := by decide +kernel
theorem wit_awaits : reducing.awaitsScale 0 (runAs (arDesc 1)) (redNew (runAs (arDesc 1)) 0 ⟨false, [63, 127, 191], 0⟩) (colMsg 0x10 []) = false ∧
    reducing.earlyFull 0 (colMsg 0x10 []) = false := by decide +kernel
theorem wit_backward : let s := (runIn grouped .col (arDesc 1)).modDie 0 (fun x => { x with buckets := [⟨1, 0, 0, 64, .fp32, false, 0, none⟩] })
    (s.queue 0 .col).running = [runAs (arDesc 1)] ∧ s.backwardLeft 0 (arDesc 1) = true := by decide +kernel

/-! DomainResets -/

/-- Die 0 while core 3 resets. -/
def resetting (fence : Bool) : State := awake.modDie 0 (fun x => { x with resets := [⟨.core 3, 2, 0, 0, false, fence, []⟩] })
/-- Die 0 while it resets. -/
def dieResetting : State := awake.modDie 0 (fun x => { x with resets := [⟨.die, 2, 0, 0, false, false, []⟩] })
theorem wit_hang : stuck.unitPends 0 (.processor 0) = true ∧
    (let s := stuck.modDie 0 (fun x => { x with watch := [⟨.processor 0, stuck.progress 0 (.processor 0), 255⟩] })
     Ready s 0 ∧ s.hung 0 (canonUnit (.uncoreEngine (.core 0))) = true) ∧ awake.hung 0 (.processor 0) = false := by decide +kernel
theorem wit_reset_ctl : bitAt (0xC0000000 : Word) 31 = true ∧ fld (0xC0000000 : Word) 28 3 = 4 ∧ fld (0xC0000000 : Word) 0 2 < 3 ∧
    fld (0x90002F02 : Word) 28 3 = 1 ∧ fld (0x90002F02 : Word) 8 6 = (47 : CoreIx).val ∧ fld (0x90002F02 : Word) 0 2 = (2 : Fin 3).val ∧
    fld (0xB0000030 : Word) 28 3 = 3 ∧ fld (0xB0000030 : Word) 4 2 = (3 : Fin 4).val ∧ fld (0xC0000003 : Word) 0 2 = 3 := by decide
theorem wit_start_reset : ((resetting false).die 0).resets.any (fun r => domIn r.dom (.engine 3 0)) = true ∧ (awake.die 0).resets = [] ∧
    awake.discardedIn 0 (.engine 3 0) = [] := by decide +kernel
theorem wit_reset_complete : ∀ f : Bool, Ready (resetting f) 0 ∧
    ((resetting f).die 0).resets.find? (fun y => decide (y.dom = .core 3)) = some ⟨.core 3, 2, 0, 0, false, f, []⟩ ∧
    ((resetting f).die 0).resets.find? (fun y => decide (y.dom = .core 4)) = none ∧ domParent (.core 3) = some (.quad 0) ∧
    (resetting f).fencesAfter 0 (.core 3) = false := by decide +kernel
theorem wit_reset_die : Ready dieResetting 0 ∧ (dieResetting.die 0).resets.any (fun y => decide (y.dom = .die)) = true ∧
    (dieResetting.findLanes 0 []).lanesOver 0 = 0 ∧ (1 : BitVec 4) ||| (dieResetting.findLanes 0 []).lanesOver 0 ≠ 0 ∧ domParent .die = none ∧
    (dieResetting.die 0).resets.find? (fun y => decide (y.dom = .die)) = some ⟨.die, 2, 0, 0, false, false, []⟩ := by decide +kernel

/-! ModuleResets -/

theorem wit_warm : awake.faulted = false ∧ (awake.setPreg rPwrStatus 0x80000000).faulted = true ∧ awake.warm = none ∧
    ({ awake with warm := some ⟨0, [], []⟩ } : State).warm = some ⟨0, [], []⟩ := by decide +kernel
theorem wit_warm_power : ({ awake with power := { awake.power with standby := true } } : State).power.standby = true ∧ awake.power.modResetLow = false := by decide +kernel
theorem wit_notice : let s := cmtIn (jobOf [0, 1]) 1
    s.ctxOf 0 ({ kindMsg 0x32 [2, 7, 3] with job := 1 } : Msg).job = some 0 ∧ s.cmtState 0 0 = 1 ∧ (kindMsg 0x32 [2, 7, 3]).src.toNat / 512 = s.moduleNo 0 ∧
    s.staleMsg 0 (kindMsg 0x32 [2, 7, 3]) = false ∧
    (s.setAnnounced 0 (announceKey (kindMsg 0x32 []).src 4 0 0) 9).staleMsg 0 (kindMsg 0x32 [2, 7, 3]) = true := by
  decide +kernel
theorem wit_return : let s := awake.modDie 0 (fun x => { x with returning := 1 })
    Ready s 0 ∧ bitAt (s.die 0).returning 0 = true ∧ (s.die 0).resets = [] ∧ bitAt (awake.die 0).returning 0 = false ∧
    ((s.sortedMembers (s.cmtJob 0 0)).take 2).all (s.isMe 0) = true ∧ (s.commit 0 0).held = none ∧
    ((s.modCommit 0 0 (fun c => { c with held := some (true, 0) })).commit 0 0).held = some (true, 0) := by decide +kernel
theorem wit_return_waits : let s := ((jobOf [0, 1]).modDie 0 (fun x => { x with returning := 1 })).modCommit 0 0 (fun c => { c with toBackup := true, silent := 4 })
    ((s.sortedMembers (s.cmtJob 0 0)).take 2).all (s.isMe 0) = false ∧ (s.commit 0 0).held = none ∧ (s.commit 0 0).toBackup = true ∧
    4 ≤ (s.commit 0 0).silent ∧ (s.commit 0 0).reported = false := by decide +kernel

/-! HealthController -/

/-- Die 0 with a record that awaits its class, and a snapshot for it, on core 0. -/
def quarantined : State :=
  (served.modDie 0 (fun x => { x with replays := [⟨0, 0, 0, 0, false⟩], assay := { x.assay with snaps := [⟨0, 0, 0, 0, .fp32, false, 1, 8, []⟩], lends := [(0, none), (1, none)] } })).setReg 0 rAsyQstat 1
theorem wit_replay : let s := quarantined
    (s.die 0).replays.find? (fun r => r.index == 0) = some ⟨0, 0, 0, 0, false⟩ ∧ (s.die 0).replays.find? (fun r => r.index == 1) = none ∧ s.hbmServes 0 = true ∧
    (s.die 0).assay.snaps.find? (fun p => decide (p.index = 0 ∧ p.slot = 0) && bitAt (s.reg 0 rAsyQstat) p.slot) = some ⟨0, 0, 0, 0, .fp32, false, 1, 8, []⟩ ∧
    s.neighbour 0 0 = some 1 ∧ s.lentIdle 0 0 = true ∧ s.lentIdle 0 1 = true ∧ bitAt (served.reg 0 rAsyQstat) 0 = false := by decide +kernel
theorem wit_replay_claim : let s := inStroke quarantined 0x100000000
    begun (s.stroke 0) ((0 : Stroke).toNat + s.rf 0 rAsyCfg 16 8) = true ∧ s.arrayFenced 0 0 = false := by decide +kernel
theorem wit_assay_unit : let s := (quarantined.modDie 0 (fun x => { x with replays := [] })).setReg 0 rAsyCfg 0x80000000
    bitAt (s.reg 0 rAsyCfg) 31 = true ∧ s.unitDue 0 (.vector 0) = true ∧ quarantined.unitDue 0 (.vector 0) = false ∧ (s.die 0).replays = [] ∧
    s.testServes 0 (.hbm 0) = true ∧ s.unitLent 0 (.vector 0) = true ∧ s.unitLent 0 (.vector 2) = false ∧ s.coreFenced 0 0 = false ∧
    (s.core 0 0).fenceVec = false := by decide +kernel
set_option maxRecDepth 65536 in
theorem wit_assay_units : (awake.assayUnits 0).contains (.vector 0) = true := by decide +kernel
/-- TOUCHSTONE of core 3 with known answers, its block at HBM offset 0x10000. -/
def touchDesc (cores scope : Nat) : Desc := setFld (setFld (setFld (0xA0 : Desc) (8 * 24) 64 0x10000) (8 * 32) 48 cores) (8 * 38) 8 scope
theorem wit_touchstone : let s := runIn served .hlt (touchDesc 8 4)
    Ready s 0 ∧ Picks s 0 .hlt (fun r => decide (dKind r.desc = 0xA0)) (runAs (touchDesc 8 4)) ∧ (s.die 0).assay.touch = none ∧ dAddrOk (touchDesc 8 4) 24 = true ∧
    dn (touchDesc 8 4) 39 1 = 0 ∧ dn (touchDesc 8 4) 42 22 = 0 ∧ hScope (touchDesc 8 4) = 4 ∧ hCores (touchDesc 8 4) = 8 ∧ hScope (touchDesc 0 0) = 0 ∧
    (locOf (dAddr (touchDesc 8 4) 24)).region = 0 ∧ s.ownClear 0 (dAddr (touchDesc 8 4) 24) 832 = true ∧ s.dieFenced 0 = false ∧ s.coreFenced 0 (coreIx 3) = false ∧
    s.hbmServes 0 = true := by decide +kernel
theorem wit_touch_run : [3].find? (fun c => ((runIn served .hlt (touchDesc 8 4)).core 0 (coreIx c)).queue.running.isEmpty) = some 3 ∧
    [0].all (fun c => !((runIn awake (.core 0) (copyDesc false 1)).core 0 (coreIx c)).queue.running.isEmpty) = true := by decide +kernel
theorem wit_assay_pass : let s := runIn served .hlt 0xA1
    Picks s 0 .hlt (fun r => decide (dKind r.desc = 0xA1)) (runAs 0xA1) ∧ (s.die 0).assay.pass = none ∧ dn (0xA1 : Desc) 24 16 = 0 ∧ dn (0xA1 : Desc) 42 22 = 0 ∧
    dn (setFld (0xA1 : Desc) (8 * 42) 8 1) 42 22 ≠ 0 := by decide +kernel
theorem wit_touch_deadline : let s := inStroke (runIn served .hlt (touchDesc 8 4)) 0x20000
    (s.queue 0 .hlt).running.head? = some (runAs (touchDesc 8 4)) ∧ begun (s.stroke 0) (0 + hDeadline (touchDesc 8 4)) = true ∧
    begun (awake.stroke 0) (0 + hDeadline (touchDesc 8 4)) = false := by decide +kernel
theorem wit_starved : (awake.setReg 0 rAsyCfg 0).rf 0 rAsyCfg 0 8 = 0 ∧ (awake.die 0).assay.starvedAt = none ∧
    2 * (awake.setReg 0 rAsyCfg 1).rf 0 rAsyCfg 0 8 = 2 := by decide +kernel
theorem wit_urgent : let s := quarantined.modDie 0 (fun x => { x with assay := { x.assay with urgent := [.vector 0] } })
    (s.die 0).assay.urgent.contains (.vector 0) = true ∧ s.unitLent 0 (.vector 0) = true ∧ (s.die 0).assay.urgent.contains (.vector 1) = false ∧
    s.unitLent 0 (.vector 1) = true ∧ (awake.die 0).assay.urgent = [] := by decide +kernel
theorem wit_claim : let s := quarantined.modDie 0 (fun x => { x with replays := [⟨0, 2, 0, 0, true⟩] })
    s.neighbour 0 2 = some 3 ∧ s.arrayFenced 0 2 = false ∧ s.arrayFenced 0 3 = false ∧ s.lentIdle 0 2 = false := by decide +kernel

/-! PowerSequencing -/

/-- The module on standby with its rails. -/
def powered : State := { awake with power := { awake.power with standby := true, rails := true, pwrEn := true } }
theorem wit_power : powered.power.standby = true ∧ powered.faulted = false ∧ powered.power.rails = true ∧ bitAt powered.power.railsOff 0 = false ∧
    powered.present 0 = true ∧ awake.power.standby = false ∧ awake.faulted = false ∧ awake.power.modResetLow = false ∧
    (powered.setPreg rPwrStatus 0x80000000).faulted = true ∧ powered.power.pwrEn = true ∧ awake.power.rails = false := by decide +kernel
/-- A host queue runs an IMAGE_WRITE of one byte into slot 1. -/
def writing : State := awake.setHostQ 2 { awake.hostQ 2 with running := [⟨0, BitVec.ofNat 512 (0xF8 + 2 ^ 256 + 2 ^ 320), false⟩] }
theorem wit_image_cut : (⟨0, BitVec.ofNat 512 (0xF8 + 2 ^ 256 + 2 ^ 320), false⟩ : HostCmd) ∈ (writing.hostQ 2).running ∧
    writing.slotWritten (BitVec.ofNat 512 (0xF8 + 2 ^ 256 + 2 ^ 320)) = some 1 ∧ (∀ q, (awake.hostQ q).running = []) := by decide +kernel
theorem wit_power_pins : ({ awake with power := { awake.power with modResetLow := true } } : State).power.modResetLow = true ∧
    ({ awake with power := { awake.power with pwrEn := false } } : State).power.pwrEn = false := by decide +kernel

/-! ThermalAndLowPower -/

/-- The module runs: standby, rails, READY. -/
def booted : State := powered.setPreg rPelBoot 0x30000000
theorem wit_thermal : booted.present 0 = true ∧ booted.power.rails = true ∧ bitAt booted.power.railsOff 0 = false ∧ booted.power.standby = true ∧
    booted.faulted = false ∧ booted.pf rPelBoot 28 4 = 3 ∧ powered.pf rPelBoot 28 4 ≠ 3 ∧ booted.lpState firstDie ≠ 3 ∧ booted.jobs = [] ∧
    booted.flash.outOfService = false := by decide +kernel
theorem wit_lp : (booted.lpDies 1).any (fun d => booted.jobAssigned d) = false ∧ (booted.lpDies 1).any (fun d => booted.dieFenced d || booted.fenceListed d) = false ∧
    booted.allDies.any (fun d => !bitAt (0xFF : BitVec 8) d.val) = false ∧ booted.allDies.any (fun d => !bitAt (1 : BitVec 8) d.val) = true ∧
    (∀ d, booted.lanesOver d = 0) ∧ (let s := booted.setReg 0 (rUpdSet 0) 0x80000000; (s.lpDies 1).any (fun d => s.jobAssigned d) = true) ∧ 0 ∈ booted.lpDies 1 := by decide +kernel
theorem wit_a1 : let s := awake.setPf rPwrLpCfg 0 16 4
    s.lpState 0 = 0 ∧ s.pf rPwrLpCfg 0 16 = 4 ∧ s.power.idle[(0 : DieIx)] = 0 ∧
    4 ≤ ({ s with power := { s.power with idle := Vector.replicate 8 5 } } : State).power.idle[(0 : DieIx)] := by decide +kernel
theorem wit_cap : bitAt ((booted.setPreg rPwrCap 0x80000000).preg rPwrCap) 31 = true ∧ booted.power.capGood = 0 ∧ bitAt (booted.preg rPwrCap) 31 = false ∧
    capFloor booted.fuses.variant = 3600 := by decide +kernel
theorem wit_i3c : (List.range 0x400).any (fun i => decide (blkPWR + 4 * i = rPwrStatus)) = true := by decide +kernel

/-! HostQueues -/

/-- The module at READY with the PCIe link up, and host queue 1 enabled with 16 entries. -/
def hosted : State :=
  let s := booted.setPreg rPelPcie 0x01000000
  s.setHostQ 1 { HostQ.reset with enabled := true, sqLog := 4, cqLog := 4, base := 0x1000 }
/-- A host command runs in host queue 1. -/
def hostRuns (x : Desc) : State := hosted.setHostQ 1 { hosted.hostQ 1 with running := [⟨0, x, false⟩] }
theorem wit_sq_tail : (hosted.hostQ 1).enabled = true ∧ (hosted.hostQ 1).sqLog = 4 ∧ hosted.bootState = 3 ∧ (hosted.hostQ 1).target = none ∧
    (booted.hostQ 1).enabled = false ∧ (hosted.hostQ 1).hold = [] ∧ (hosted.hostQ 1).lost = 0 ∧ (hosted.hostQ 1).ringed = [] ∧ (hosted.hostQ 1).entries = [] ∧
    (hosted.hostQ 1).full = false ∧ hosted.pcieUp = true ∧ booted.pcieUp = false ∧ (hosted.hostQ 1).cqTail = 0 := by decide +kernel
theorem wit_sq_target : ((hosted.setHostQ 1 { hosted.hostQ 1 with target := some (0, .upd) }).hostQ 1).target = some (0, .upd) := by decide +kernel
theorem wit_nop : ((hostRuns 0xF0).hostQ 1).running.find? (fun c => isKind 0xF0 c.desc) = some ⟨0, 0xF0, false⟩ ∧ (booted.hostQ 1).running = [] := by decide +kernel
/-- QUEUE_BIND of host queue 2 to Pelbex with 16 entries each. -/
def bindDesc : Desc := setFld (setFld (0xF1 : Desc) (8 * 24) 32 0x04040102) (8 * 28) 64 0x2000
theorem wit_bind : ((hostRuns bindDesc).hostQ 1).running.find? (fun c => isKind 0xF1 c.desc) = some ⟨0, bindDesc, false⟩ ∧ hbyte bindDesc 24 = 2 ∧
    hbyte bindDesc 25 = 1 ∧ hbyte bindDesc 26 = 4 ∧ hbyte bindDesc 27 = 4 ∧ hbyte bindDesc 37 = 0 ∧ hbyte bindDesc 36 = 0 ∧ dn bindDesc 28 8 % 32 = 0 ∧
    restZero bindDesc 40 = true ∧ hbyte (setFld bindDesc (8 * 25) 8 0) 25 = 0 ∧ hbyte (0xF1 : Desc) 24 = 0 := by decide +kernel
theorem wit_aq : (booted.hostQ 0).enabled = false ∧ bitAt (0x80000404 : Word) 31 = true ∧ fld (0x80000404 : Word) 0 8 = 4 ∧ fld (0x80000404 : Word) 8 8 = 4 ∧
    ((booted.setHostQ 0 { booted.hostQ 0 with enabled := true }).hostQ 0).enabled = true := by decide +kernel

/-! HostJobs -/

/-- JOB_CREATE of job 1 with one billet context for the one member listed at host address 0. -/
def createDesc (g : Nat) : Desc := setFld (setFld (setFld (setFld (0xF2 : Desc) (8 * 2) 12 1) (8 * 32) 32 g) (8 * 40) 16 0x0101) (8 * 42) 32 0x00010001
theorem wit_job_create : let s := { hostRuns (createDesc 1) with host := ⟨[(0, 63)], []⟩ }
    (s.hostQ 1).running.find? (fun c => isKind 0xF2 c.desc) = some ⟨0, createDesc 1, false⟩ ∧ s.listedDies (s.memberList (dn (createDesc 1) 24 8) (dn (createDesc 1) 32 4)) = [0] ∧
    dn (createDesc 1) 32 4 = 1 ∧ jcNctx (createDesc 1) = 1 ∧ jcGap (createDesc 1) = 1 ∧ jcStash (createDesc 1) = 0 ∧ s.jobRec (dJob (createDesc 1)) = none ∧
    dJob (createDesc 1) = 1 ∧ hbyte (createDesc 1) 48 = 0 ∧ restZero (createDesc 1) 49 = true ∧ (s.freeBils [0]).length = 16 ∧ s.freeCtx [0] = some 0 ∧
    s.dieFenced 0 = false ∧ (s.die 0).held = false ∧ s.parked 0 = false ∧ arrayBytes (jcRowsK (createDesc 1)) (jcLayers (createDesc 1)) = 65536 ∧ s.allocTop [0] = 0x7E00000000 ∧
    dn (createDesc 0) 32 4 = 0 ∧ (jobOf [0]).jobRec 1 ≠ none := by decide +kernel
/-- Job 1 with a plan, and a host command of it that runs in host queue 1. -/
def planned (x : Desc) (p : Option PlanRun) : State :=
  let s := hostRuns x
  ({ s with jobs := [⟨1, [63], 0, [0], [], 0, 0, 0, 1, 0, 0, 0, p, none, []⟩] }).setReg 0 (rUpdSet 0) 0x80000001
def startDesc (n : Nat) : Desc := setFld (setFld (setFld (0xF3 : Desc) (8 * 2) 12 1) (8 * 24) 64 0x1000) (8 * 32) 32 n
theorem wit_job_start : let s := planned (startDesc 1) none
    (s.hostQ 1).running.find? (fun c => isKind 0xF3 c.desc && !s.accepted 1 c) = some ⟨0, startDesc 1, false⟩ ∧ (s.jobRec (dJob (startDesc 1))).isSome = true ∧
    hbyte (startDesc 1) 36 = 0 ∧ dn (startDesc 1) 38 2 = 0 ∧ dn (startDesc 1) 45 3 = 0 ∧ dAddrOk (startDesc 1) 24 = true ∧ jsSteps (startDesc 1) = 1 ∧
    jsSteps (startDesc 0) = 0 ∧ (s.readPlan 1 (dAddr (startDesc 1) 24)).1.poison = false ∧ (s.jobs.map (fun j => s.planOk j (s.readPlan 1 (dAddr (startDesc 1) 24)).1 1)) = [false] := by
  decide +kernel
theorem wit_plan_ok : let s := { planned (startDesc 1) none with mem := ⟨[(0x1000, 0x50), (0x1001, 0x4C), (0x1002, 0x41), (0x1003, 0x4E), (0x100A, 9)], []⟩ }
    (s.jobs.map (fun j => s.planOk j (s.readPlan 1 (dAddr (startDesc 1) 24)).1 1)) = [true] ∧ (s.readPlan 1 (dAddr (startDesc 1) 24)).1.poison = false := by decide +kernel
theorem wit_plan_poison : let s := { planned (startDesc 1) none with mem := ⟨[], [(0x1000, .poison)]⟩ }
    (s.readPlan 1 (dAddr (startDesc 1) 24)).1.poison = true := by decide +kernel
/-- A plan of one step, in host queue 1. -/
def planRun (done : Nat) (start : Option Stroke) : PlanRun :=
  { queue := 1, ident := 0, place := 0x1000, steps := 1, done := done, start := start, first := true, epoch := none, members := none, stash := none, poison := false }
theorem wit_plan_step : let s := planned (startDesc 1) (some (planRun 0 (some 0)))
    let j : Job := ⟨1, [63], 0, [0], [], 0, 0, 0, 1, 0, 0, 0, some (planRun 0 (some 0)), none, []⟩
    s.jobRec 1 = some j ∧ s.jobRec 2 = none ∧ s.jobDies j = [0] ∧ s.cmtState 0 0 = 0 ∧ s.rf 0 (rCmtStat 0) 16 8 = 0 ∧
    (planRun 0 none).epoch = none ∧ s.planService 0x1000 = false ∧ s.planService 0x7E00000000 = true ∧ (s.setReg 0 (rCmtStat 0) 5).cmtState 0 0 = 5 ∧ (s.hostQ 1).running.find? (fun c => decide (c.ident = 0)) = some ⟨0, startDesc 1, false⟩ := by decide +kernel
theorem wit_job_end : let x := setFld (0xF5 : Desc) (8 * 2) 12 1
    let y := setFld (0xF4 : Desc) (8 * 2) 12 1
    ((planned x none).hostQ 1).running.find? (fun c => isKind 0xF5 c.desc) = some ⟨0, x, false⟩ ∧ ((planned y none).hostQ 1).running.find? (fun c => isKind 0xF4 c.desc) = some ⟨0, y, false⟩ ∧
    (planned x none).jobRec (dJob x) = some ⟨1, [63], 0, [0], [], 0, 0, 0, 1, 0, 0, 0, none, none, []⟩ ∧ restZero x 24 = true ∧ restZero y 24 = true ∧
    (hostRuns x).jobRec (dJob x) = none := by decide +kernel

/-! HostServices -/

/-- HOST_COPY of 4 bytes between HBM offset 0x1000 of die 0 and host address 0x2000. -/
def hcopyDesc (n dir : Nat) : Desc := setFld (setFld (setFld (setFld (0xF6 : Desc) (8 * 24) 64 0x2000) (8 * 32) 64 0x1000) (8 * 40) 32 n) (8 * 44) 8 dir
theorem wit_host_copy : let s := (hostRuns (hcopyDesc 4 1)).setRf 0 rHbmStatus 4 4 15
    (s.hostQ 1).running.find? (fun c => isKind 0xF6 c.desc) = some ⟨0, hcopyDesc 4 1, false⟩ ∧ s.hostCopyOk (hcopyDesc 4 1) = true ∧ s.hostCopyOk (hcopyDesc 4 0) = true ∧
    hostCopyFormat (hcopyDesc 4 2) = false ∧ hostCopyFormat (hcopyDesc 4 1) = true ∧ hostCopyFormat (hcopyDesc 4 0) = true ∧ hostCopyFormat (hcopyDesc 0 1) = true ∧ s.dieFenced 0 = false ∧ (s.die 0).held = false ∧ (locOf (hcBoard (hcopyDesc 4 1))).region = 0 ∧ s.hbmServes 0 = true ∧
    hcToHost (hcopyDesc 4 1) = true ∧ hcToHost (hcopyDesc 4 0) = false ∧ s.bucketHit 0 0 0x1000 4 none = .none ∧ hcBytes (hcopyDesc 4 1) = 4 ∧ hcBytes (hcopyDesc 0 1) = 0 ∧
    s.hostCopyOk (setFld (hcopyDesc 4 1) (8 * 32) 64 0x7E00000000) = false ∧ hostCopyFormat (setFld (hcopyDesc 4 1) (8 * 32) 64 0x7E00000000) = true ∧ (hostRuns (hcopyDesc 4 1)).hbmServes 0 = false ∧
    ((s.setReg 0 rHltFenceDie 0x80000000).dieFenced 0) = true := by decide +kernel
theorem wit_attest : ((hostRuns 0xF7).hostQ 1).running.find? (fun c => isKind 0xF7 c.desc) = some ⟨0, 0xF7, false⟩ ∧ restZero (0xF7 : Desc) 41 = true ∧
    hbyte (0xF7 : Desc) 40 = 0 ∧ hbyte (setFld (0xF7 : Desc) (8 * 40) 8 2) 40 = 2 := by decide +kernel
theorem wit_imageWrite : let x := setFld (setFld (0xF8 : Desc) (8 * 40) 8 1) (8 * 32) 32 1
    ((hostRuns x).hostQ 1).running.find? (fun c => isKind 0xF8 c.desc) = some ⟨0, x, false⟩ ∧ restZero x 41 = true ∧ (hostRuns x).boot.image = 0 ∧ hbyte x 40 = 1 ∧
    dn x 36 4 + dn x 32 4 ≤ 0x3000000 ∧ (hostRuns x).bootState ≠ 4 ∧ hbyte (0xF8 : Desc) 40 = 0 ∧ dn x 32 4 ≠ 0 := by decide +kernel
theorem wit_select : ((hostRuns 0xF9).hostQ 1).running.find? (fun c => isKind 0xF9 c.desc) = some ⟨0, 0xF9, false⟩ ∧ hbyte (0xF9 : Desc) 24 = 0 ∧
    restZero (0xF9 : Desc) 26 = true ∧ hbyte (0xF9 : Desc) 25 = 0 ∧ hbyte (setFld (0xF9 : Desc) (8 * 25) 8 2) 25 = 2 ∧
    ((hostRuns 0xF9).checkImage 0 true).cause ≠ 0 ∧ hbyte (setFld (0xF9 : Desc) (8 * 24) 8 1) 24 = 1 := by decide +kernel
/-- A SERVICE command. -/
def svcDesc (op v : Nat) : Desc := setFld (setFld (0xFA : Desc) (8 * 24) 8 op) (8 * 25) 8 v
theorem wit_service : (∀ op : Fin 9, 1 ≤ op.val → ((hostRuns (svcDesc op.val 0)).hostQ 1).running.find? (fun c => isService op.val c.desc) = some ⟨0, svcDesc op.val 0, false⟩) ∧
    restZero (svcDesc 1 0) 25 = true ∧ restZero (svcDesc 1 9) 25 = false ∧ hbyte (svcDesc 6 0) 25 = 0 ∧ hosted.dieCount = 8 ∧ (hosted.die 0).held = false ∧
    portExists hosted.fuses.variant 0 0 = true ∧ hosted.fuses.owners.length = 4 ∧ (hosted.fuses.owners.getD 0 (none, false)).1 = none ∧ hosted.boot.owner = none ∧
    dn (svcDesc 7 0) 26 6 = 0 := by decide +kernel
theorem wit_repair : hosted.jobAssigned 0 = false ∧ hosted.dieFenced 0 = false ∧ (∀ e : Fin 16, isCandidate (hosted.reg64 0 (rEccRowlog e.val)) = false) ∧
    (hosted.setReg 0 (rUpdSet 0) 0x80000000).jobAssigned 0 = true := by decide +kernel
theorem wit_owner : (({ hosted with fuses := { hosted.fuses with owners := [(some 1, false), (none, false), (none, false), (none, false)] } } : State).fuses.owners.getD 0 (none, false)).1.isSome = true ∧
    ({ hosted with boot := { hosted.boot with owner := some 0 } } : State).boot.owner = some 0 := by decide +kernel

/-! StepRunsFrontCommand -/

theorem wit_stepRunsFrontCommand : State.reset.pending = [] ∧ ({ State.reset with pending := [.reseed 0 0] } : State).pending = [.reseed 0 0] := by
  decide +kernel
theorem test_step_runs : (match step { awake with pending := [.reseed 0 3, .reseed 0 4] } with
     | .next t => decide (t.pending = [.reseed 0 4]) && (t.core 0 3).reseed && !(t.core 0 4).reseed
     | _ => false) = true := by decide +kernel

/-! EveryStepKeeps -/

theorem wit_everyStepKeeps : (∀ d, awake.present d = true) ∧ awake.mem.wf ∧ awake.host.wf ∧ (match step { awake with pending := [.reseed 7 0] } with
     | .next _ => true
     | _ => false) = true ∧
    (let s := ({ awake with fuses := { awake.fuses with variant := 2 }, pending := [.reseed 7 0] } : State)
     s.present 7 = false ∧ (match step s with
       | .fault (.absentDie d) => decide (d = 7)
       | _ => false) = true) := by decide +kernel

/-! ForwardingTree -/

theorem wit_forwardingTree : treeRank 7 5 4 = 6 ∧ treeParent 2 7 5 4 = some 0 ∧ treeChildren 2 7 5 0 = [3, 4] ∧ treeRank 7 5 5 = 0 ∧
    treeParent 2 7 5 5 = none ∧ treeChildren 4 7 5 5 = [6, 0, 1, 2] := by decide

/-! Wf16Numbers -/

theorem wit_wf16 : (0x8001 : Nat) / 128 % 256 = 0 ∧ (0xFFFF : Nat) / 128 % 256 = 255 ∧ decodeScalar .wf16 0x8001 = .fin true 0 0 ∧
    (encodeScalar .wf16 .rne (.fin true 1 (-140)) noGen).bits = 0x8000 := by decide +kernel

end Sys2Proof.Tests
end

section
/-! LEMMAS. The shape of a step: a die that is ready, a running command, a fetched instruction. -/

namespace Sys2Proof.Machine

/-- A command on a ready die has its effect. -/
theorem onDie_ready {s : State} {d : DieIx} (h : Ready s d) (k : State → State) : onDie d s k = .next (k s) := by
  simp [onDie, h.1, h.2]

/-- A range without marks reads as stored and clean; only the HBM controllers notice (R304). -/
theorem State.memRead_unmarked {s : State} {a : Access} {d : DieIx} {region off n : Nat} (ht : a.test = false)
    (hm : s.marksIn region (memKey d region off) n = []) :
    s.memRead a d region off n = ⟨s.peek (memKey d region off) n, List.replicate n false, s.hbmCount d region off n rHbmRd⟩ := by
  have hp : s.poisonOf region (memKey d region off) n = List.replicate n false := by simp [State.poisonOf, hm]
  have hc : s.testsClean a d region (memKey d region off) n = false := by simp [State.testsClean, ht]
  simp [State.memRead, hm, hp, hc]

/-- What an instruction of a kernel that has been fetched does, by the effect of its body. -/
def State.conclude (s : State) (d : DieIx) (c : CoreIx) : Eff → State
  | .ok t => t.modCore d c (fun k => k.setPc ((s.core d c).proc.pc + 4))
  | .jump t pc => t.modCore d c (fun k => k.setPc pc)
  | .stall why => s.modCore d c (fun k => k.setStall why)
  | .fin t detail => t.endKernel d c [] detail
  | .trap x => s.takeTrap d c x
  | .trapIn t x => t.takeTrap d c x

/-- An instruction that the fetched word spells has the effect of its body in the present state (R76, R77, R79). -/
theorem State.insn_of_spelt {s : State} {d : DieIx} {c : CoreIx} {i : Instr} (hf : CanFetch s d c) (hs : Spelt s d c i) (body : State → Eff) :
    s.insn d c i body = s.conclude d c (body s) := by
  obtain ⟨-, hrun, hwait, halign, hmap, hbad, hmark⟩ := hf
  obtain ⟨hlegal, hspell⟩ := hs
  have hread : s.memRead (s.kernelAccess d c) d 1 (spBase c + (s.core d c).proc.pc.toNat) 4 =
      ⟨s.peek (memKey d 1 (spBase c + (s.core d c).proc.pc.toNat)) 4, List.replicate 4 false, s⟩ := by
    rw [State.memRead_unmarked rfl hmark]; rfl
  have hgood : readsBad (s.core d c) (s.nextWord d c) i = false := by simp [readsBad, hbad, bitAt]
  unfold State.insn
  simp only [hrun, hwait, hread]
  simp [halign, Nat.not_lt.mpr hmap, hlegal, hspell, hgood]
  cases body s <;> rfl

end Sys2Proof.Machine
end

section
/-! PROOF. Control registers and the waits of a kernel (R7, R75, R77, R136). -/

namespace Sys2Proof.Machine

/-- The numbers of R75 are all that `ctlReg` knows. -/
theorem State.ctlReg_reserved (s : State) (d : DieIx) (c : CoreIx) {num : BitVec 11}
    (h : num.toNat ∉ [0x020, 0x021, 0x022, 0x040, 0x060, 0x061]) : s.ctlReg d c num = none := by
  simp only [List.mem_cons, List.not_mem_nil, or_false, not_or] at h
  unfold State.ctlReg
  dsimp only
  split <;> simp_all

theorem State.ctlReg_isSome (s : State) (d : DieIx) (c : CoreIx) {num : BitVec 11}
    (h : num.toNat ∈ [0x020, 0x021, 0x022, 0x040, 0x060, 0x061]) : ∃ v, s.ctlReg d c num = some v := by
  simp only [List.mem_cons, List.not_mem_nil, or_false] at h
  rcases h with h | h | h | h | h | h <;> simp [State.ctlReg, h]

/-- The endpoint identifier of a core as a control register reads it (R22). -/
theorem State.endpoint_setWidth (s : State) (d : DieIx) (c : CoreIx) :
    (s.endpoint d c.val).setWidth 64 = BitVec.ofNat 64 (s.moduleNo d * 512 + d.val * 64 + c.val) := by
  have hm : s.moduleNo d < 2 ^ 14 := Nat.mod_lt _ (by decide)
  apply BitVec.eq_of_toNat_eq
  simp [State.endpoint]
  omega

/-- The latency register reads as the matrix array reports it (R136). -/
theorem State.regView_mxLat (s : State) (d : DieIx) (c : CoreIx) : s.regView d (blkMX c + 0x08) = s.mxLat d c := by
  have hoff : blkMX c + 0x08 = 0x42008 + c.val * 0x4000 := by simp [blkMX]; omega
  have hstat : (List.range 32).find? (fun k => decide (blkMX c + 0x08 = rCmtStat k)) = none := by
    simp [rCmtStat, blkUPD, hoff]; omega
  have hcore : coreOff (blkMX c + 0x08) = some (c, 0x2008) := by
    have hc := c.isLt
    simp [coreOff, hoff, coreIx]
    refine ⟨by omega, Fin.ext ?_, by omega⟩
    simp; omega
  have hwin : windowOf (blkMX c + 0x08) = none := by simp [windowOf, hcore]
  simp [State.regView, hstat, hwin, hcore]

/-- A command that is an instruction of a core, when its die can act and the fetched word spells it. -/
theorem exec_insn {s : State} {d : DieIx} {c : CoreIx} {i : Instr} {body : State → Eff}
    (he : exec i s = onDie d s (fun t => t.insn d c i body)) (hf : CanFetch s d c) (hs : Spelt s d c i) :
    exec i s = .next (s.conclude d c (body s)) := by
  rw [he, onDie_ready hf.1, State.insn_of_spelt hf hs]

/-- The legal ROUND codes of FPCTL (R75) as the model looks for them. -/
theorem roundLegal_iff (v : DWord) : [0, 1, 4, 5].contains (fld v 0 3) = true ↔ v.toNat % 8 ∈ [0, 1, 4, 5] := by
  simp [fld]

/-- An immediate of MXWAIT is negative exactly if its bit 15 is set. -/
theorem bitAt15_iff (imm : BitVec 16) : bitAt imm 15 = true ↔ imm.toInt < 0 := by
  have h := BitVec.msb_eq_toInt (x := imm)
  rw [BitVec.msb_eq_getLsbD_last] at h
  rw [bitAt, show (15 : Nat) = 16 - 1 from rfl, h]
  simp

/-- Setting a core twice keeps the second. -/
@[simp] theorem State.setCore_setCore (s : State) (d : DieIx) (c : CoreIx) (x y : Core) :
    (s.setCore d c x).setCore d c y = s.setCore d c y := by
  simp [State.setCore, State.modDie, Die.setCore]

end Sys2Proof.Machine
end

section
open Sys2Proof Sys2Proof.Machine
open Host (Outcome)

/-- Settles O9. -/
theorem controlRegisterAccess : Obligations.ControlRegisterAccess := by
  intro s d c rd rs1 num imm hf k write v values
  refine ⟨fun hs => ⟨?_, ?_⟩, fun hs => ⟨?_, ?_, ?_, ?_⟩, fun hs => ?_, fun hs => ⟨?_, ?_, ?_⟩, fun hs => ?_⟩
  · intro x hx hnum
    have hval : s.ctlReg d c num = some x.2 := by
      subst hnum
      simp only [values, List.mem_cons, List.not_mem_nil, or_false] at hx
      rcases hx with rfl | rfl | rfl | rfl | rfl | rfl
      case inr.inr.inr.inr.inr => exact congrArg some (s.endpoint_setWidth d c)
      all_goals rfl
    rw [exec_insn rfl hf hs]
    simp [hval, State.conclude, write, State.modCore, k]
  · intro h
    rw [exec_insn rfl hf hs]
    simp [State.ctlReg_reserved s d c h, State.conclude]
  · intro h
    rw [exec_insn rfl hf hs]
    simp [State.ctlReg_reserved s d c h, State.conclude]
  · rintro rfl h
    obtain ⟨w, hw⟩ := State.ctlReg_isSome s d c (num := 0x040) (by decide)
    rw [exec_insn rfl hf hs]
    simp only [hw, (roundLegal_iff v).mpr h, k, v]
    simp [State.conclude, State.modCore]
  · rintro rfl h
    obtain ⟨w, hw⟩ := State.ctlReg_isSome s d c (num := 0x040) (by decide)
    have hround := Bool.eq_false_iff.mpr (mt (roundLegal_iff v).mp h)
    rw [exec_insn rfl hf hs]
    simp only [hw, hround, k, v]
    simp [State.conclude]
  · intro h
    obtain ⟨w, hw⟩ := State.ctlReg_isSome s d c (num := num) (by revert h; simp; omega)
    have hne : num.toNat ≠ 0x040 := by rintro he; simp [he] at h
    rw [exec_insn rfl hf hs]
    simp [hw, hne, State.conclude, State.modCore, k]
  · rw [exec_insn rfl hf hs]
    simp [State.conclude, State.modCore, State.regView_mxLat, write, k]
  · intro hsign hroom
    rw [exec_insn rfl hf hs]
    simp [mt (bitAt15_iff imm).mp (by omega), Nat.not_lt.mpr hroom, State.conclude, State.modCore, write, k]
  · intro hsign hfull
    rw [exec_insn rfl hf hs]
    simp [mt (bitAt15_iff imm).mp (by omega), hfull, State.conclude, State.modCore, k]
  · intro hsign
    rw [exec_insn rfl hf hs]
    simp [(bitAt15_iff imm).mpr hsign, State.conclude]
  · rw [exec_insn rfl hf hs]
    simp [State.conclude, State.modCore, k]
end

section
/-! LEMMAS. Running commands: what dispatch finds, and the record that an end files. -/

namespace Sys2Proof.Machine

theorem Runs.kind_eq {s : State} {d : DieIx} {q : QId} {kind : Nat} {r : Running} (h : Runs s d q kind r) : dKind r.desc = kind := by
  simpa using List.find?_some h.1

/-- A command that runs and awaits no mere acknowledgement does its work. -/
theorem withEngine_of_runs {s : State} {d : DieIx} {q : QId} {kind : Nat} {r : Running} (h : Runs s d q kind r) (k : Running → State) :
    withEngine s d q kind k = k r := by
  obtain ⟨hfind, hpoison, hack, -⟩ := h
  simp [withEngine, withRunning, hfind, hpoison, hack]

/-- What a command of an engine does to a ready die on which it runs. -/
theorem exec_engine {s : State} {d : DieIx} {q : QId} {kind : Nat} {r : Running} {i : Instr} {k : State → Running → State} (hready : Ready s d)
    (hruns : Runs s d q kind r) (hi : exec i s = onDie d s (fun t => withEngine t d q kind (k t))) : exec i s = .next (k s r) := by
  rw [hi, onDie_ready hready, withEngine_of_runs hruns]

/-- A Crucible command that its step's abort does not stop does its work (R253). -/
theorem withCru_of_runs {s : State} {d : DieIx} {kind : Nat} {r : Running} (h : Runs s d .cru kind r) (hstop : s.cruStopping d r = false)
    (k : Running → State) : withCru s d kind k = k r := by
  simp [withCru, withEngine_of_runs h, hstop]

/-- A command that no abort has reached and that is not the solve in progress is not stopping. -/
theorem State.cruStopping_of_idle {s : State} {d : DieIx} {r : Running} (hs : r.stats = []) (hu : (s.die d).solve = none) :
    s.cruStopping d r = false := by
  simp [State.cruStopping, hs, hu]

/-- An early stop of a command that still works: its statuses and one more (R101). -/
theorem State.stopEarly_of_working {s : State} {d : DieIx} {q : QId} {r : Running} (h : r.acking = false) (st : Nat) :
    s.stopEarly d q r st = s.finish d q r (r.result [st]) := by
  simp [State.stopEarly, State.unpop, State.cutRecord, h]

/-- A record carries the collected statuses alone where its command is on time, or is of a kind that R38 does not judge. -/
theorem State.recordStatus_onTime {s : State} {d : DieIx} {desc : Desc} {rel : Stroke} (h : rel = s.stroke d ∨ notJudged (dKind desc) = true)
    (res : Result) : s.recordStatus d desc (some rel) res = pickStatus res.statuses := by
  rcases h with h | h <;> simp [State.recordStatus, h]

/-- The end of a command on time files its record behind those that the queue held at an earlier state (R91, R96). -/
theorem State.finish_filed {s t : State} {d : DieIx} {q : QId} {r : Running} {res : Result}
    (hq : (t.queue d q).done = (s.queue d q).done) (ht : r.released = t.stroke d ∨ notJudged (dKind r.desc) = true) :
    Filed s (t.finish d q r res) d q r (pickStatus res.statuses) res.hallmark res.detail := by
  obtain ⟨x, l, hdone, htag, hkind, hjob, -, -, -, hstatus, -, hhall, hdetail⟩ := t.finish_done d q r res
  exact ⟨x, l, by rw [hdone, hq], htag, hkind, hjob, by rw [hstatus, State.recordStatus_onTime ht], hhall, hdetail⟩

/-- A record is filed for a descriptor, whatever progress its command has made. -/
theorem filed_of_desc {s t : State} {d : DieIx} {q : QId} {p r : Running} {st : Nat} {hall detail : Word} (h : p.desc = r.desc)
    (hf : Filed s t d q p st hall detail) : Filed s t d q r st hall detail := by
  rw [Filed, ← h]
  exact hf

/-- An early stop of a command that has collected nothing files the status that stops it. -/
theorem State.stopEarly_filed {s t : State} {d : DieIx} {q : QId} {r : Running} {st : Nat} (hack : r.acking = false)
    (hstats : r.stats = []) (hst : pickStatus [st] = st) (hq : (t.queue d q).done = (s.queue d q).done)
    (ht : r.released = t.stroke d ∨ notJudged (dKind r.desc) = true) :
    Filed s (t.stopEarly d q r st) d q r st r.hall r.detail := by
  have h := State.finish_filed (res := r.result [st]) hq ht
  rw [State.stopEarly_of_working hack]
  simpa [Running.result, hstats, hst] using h

end Sys2Proof.Machine
end

section
/-! LEMMAS. What a register reads after a write. -/

namespace Sys2Proof.Machine

/-- A write leaves every other key alone, whatever an unlisted key reads as. -/
theorem SMap.get_set_ne {α : Type} [DecidableEq α] (a b : α) (m : List (Nat × α)) {k j : Nat} (v : α) (h : j ≠ k) :
    SMap.get a (SMap.set b m k v) j = SMap.get a m j := by
  unfold SMap.set
  split
  · exact SMap.get_erase_other a k j m h
  · rw [SMap.get_insert_other a k j v _ h, SMap.get_erase_other a k j m h]

@[simp] theorem State.reg_setReg (s : State) (d : DieIx) (off : Nat) (v : Word) : (s.setReg d off v).reg d off = v := by
  simp [State.reg, State.setReg, Die.setReg]

theorem State.reg_setReg_ne (s : State) (d e : DieIx) {off o : Nat} (v : Word) (h : ¬ (e = d ∧ o = off)) :
    (s.setReg d off v).reg e o = s.reg e o := by
  by_cases he : e = d
  · subst he
    simp [State.reg, State.setReg, Die.setReg, SMap.get_set_ne _ _ _ v (fun ho => h ⟨rfl, ho⟩)]
  · simp [State.reg, State.setReg, State.die_modDie_ne s d e _ he]

end Sys2Proof.Machine
end

section
/-! LEMMAS. Accesses to memory, the event log and the host's queues: what of a die they spare. -/

namespace Sys2Proof.Machine

/-- What accesses spare of a die: queues, cores, clock, requests, row windows and the solve in progress; the rest is left out. -/
def Die.spared (x : Die) : Die :=
  { Die.reset 0 with uq := x.uq, cores := x.cores, timer := x.timer, outstanding := x.outstanding, rowWins := x.rowWins, solve := x.solve }

/-- From s to t only what `Die.spared` leaves out has changed on the dies; where `hi` holds, no register from the link block on either. -/
structure Spares (hi : Prop) (s t : State) : Prop where
  spared : ∀ d, (t.die d).spared = (s.die d).spared
  fuses : t.fuses = s.fuses
  regs : hi → ∀ d off, blkLNK ≤ off → t.reg d off = s.reg d off

/-- The same, and memory is as it was. -/
structure SparesMem (hi : Prop) (s t : State) : Prop extends Spares hi s t where
  mem : t.mem = s.mem

variable {hi : Prop} {s t u : State}

theorem Spares.refl (s : State) : Spares hi s s := ⟨fun _ => rfl, rfl, fun _ _ _ _ => rfl⟩

theorem Spares.trans (h : Spares hi s t) (k : Spares hi t u) : Spares hi s u :=
  ⟨fun d => (k.spared d).trans (h.spared d), k.fuses.trans h.fuses, fun p d off ho => (k.regs p d off ho).trans (h.regs p d off ho)⟩

theorem Spares.weaken (h : Spares hi s t) : Spares False s t := ⟨h.spared, h.fuses, False.elim⟩

theorem Spares.foldl {α : Type} {f : State → α → State} (l : List α) (h : ∀ v x, Spares hi v (f v x)) (s : State) : Spares hi s (l.foldl f s) :=
  fold_inv (Spares hi s) f l s (.refl s) (fun v x hv => hv.trans (h v x))

theorem SparesMem.refl (s : State) : SparesMem hi s s := ⟨.refl s, rfl⟩

theorem SparesMem.trans (h : SparesMem hi s t) (k : SparesMem hi t u) : SparesMem hi s u := ⟨h.toSpares.trans k.toSpares, k.mem.trans h.mem⟩

theorem SparesMem.weaken (h : SparesMem hi s t) : SparesMem False s t := ⟨h.toSpares.weaken, h.mem⟩

theorem SparesMem.foldl {α : Type} {f : State → α → State} (l : List α) (h : ∀ v x, SparesMem hi v (f v x)) (s : State) :
    SparesMem hi s (l.foldl f s) :=
  fold_inv (SparesMem hi s) f l s (.refl s) (fun v x hv => hv.trans (h v x))

/-! ### What is spared -/

theorem Spares.uq (h : Spares hi s t) (d : DieIx) : (t.die d).uq = (s.die d).uq := (congrArg Die.uq (h.spared d) :)
theorem Spares.cores (h : Spares hi s t) (d : DieIx) : (t.die d).cores = (s.die d).cores := (congrArg Die.cores (h.spared d) :)
theorem Spares.timer (h : Spares hi s t) (d : DieIx) : (t.die d).timer = (s.die d).timer := (congrArg Die.timer (h.spared d) :)
theorem Spares.outstanding (h : Spares hi s t) (d : DieIx) : (t.die d).outstanding = (s.die d).outstanding :=
  (congrArg Die.outstanding (h.spared d) :)
theorem Spares.rowWins (h : Spares hi s t) (d : DieIx) : (t.die d).rowWins = (s.die d).rowWins := (congrArg Die.rowWins (h.spared d) :)
theorem Spares.solve (h : Spares hi s t) (d : DieIx) : (t.die d).solve = (s.die d).solve := (congrArg Die.solve (h.spared d) :)

theorem Spares.core (h : Spares hi s t) (d : DieIx) (c : CoreIx) : t.core d c = s.core d c := by
  simp [State.core, Die.core, h.cores]

theorem Spares.queue (h : Spares hi s t) (d : DieIx) (q : QId) : t.queue d q = s.queue d q := by
  cases q <;> simp [State.queue, h.core, h.uq]

theorem Spares.stroke (h : Spares hi s t) (d : DieIx) : t.stroke d = s.stroke d := by simp [State.stroke, h.timer]

theorem Spares.reqsOf (h : Spares hi s t) (d : DieIx) (q : QId) (r : Running) : t.reqsOf d q r = s.reqsOf d q r := by
  simp [State.reqsOf, h.outstanding]

theorem Spares.isLocal (h : Spares hi s t) (d : DieIx) (a : BoardAddr) : t.isLocal d a = s.isLocal d a := by
  have hs : t.slot = s.slot := by simp [State.slot, h.fuses]
  simp [State.isLocal, hs]

theorem Spares.wins (h : Spares hi s t) (d : DieIx) (q : Fin 4) : t.wins d q = s.wins d q := by simp [State.wins, h.rowWins]

/-! ### Updates of the state -/

theorem SparesMem.of_dies (hd : t.dies = s.dies) (hf : t.fuses = s.fuses) (hm : t.mem = s.mem) : SparesMem hi s t :=
  ⟨⟨fun d => by simp [State.die, hd], hf, fun _ d off _ => by simp [State.reg, State.die, hd]⟩, hm⟩

/-- An update of a die that spares its parts and its registers. -/
theorem SparesMem.modDie (s : State) (d : DieIx) {f : Die → Die} (hk : ∀ x, (f x).spared = x.spared) (hr : ∀ x, (f x).regs = x.regs) :
    SparesMem hi s (s.modDie d f) := by
  refine ⟨⟨fun e => ?_, rfl, fun _ e off _ => ?_⟩, rfl⟩ <;> by_cases he : e = d
  · subst he; simp [hk]
  · rw [State.die_modDie_ne s d e f he]
  · subst he; simp [State.reg, hr]
  · simp [State.reg, State.die_modDie_ne s d e f he]

/-- A register word that is written. -/
theorem SparesMem.setReg (s : State) (d : DieIx) (off : Nat) (v : Word) (ho : hi → off < blkLNK) : SparesMem hi s (s.setReg d off v) := by
  refine ⟨⟨fun e => ?_, rfl, fun p e o hge => State.reg_setReg_ne s d e v (fun h => ?_)⟩, rfl⟩
  · by_cases he : e = d
    · subst he; simp [State.setReg, Die.setReg, Die.spared]
    · rw [State.setReg, State.die_modDie_ne s d e _ he]
  · have := ho p
    omega

theorem SparesMem.setReg64 (s : State) (d : DieIx) (off : Nat) (v : DWord) (ho : hi → off + 4 < blkLNK) : SparesMem hi s (s.setReg64 d off v) :=
  (SparesMem.setReg s d off _ (fun p => by have := ho p; omega)).trans (.setReg _ d _ _ ho)

theorem SparesMem.addSat (s : State) (d : DieIx) (off lo len k : Nat) (ho : hi → off < blkLNK) : SparesMem hi s (s.addSat d off lo len k) :=
  .setReg s d off _ ho

theorem SparesMem.modReg (s : State) (d : DieIx) (off : Nat) (f : Word → Word) (ho : hi → off < blkLNK) : SparesMem hi s (s.modReg d off f) :=
  .setReg s d off _ ho

theorem SparesMem.logFrom (s : State) (d : DieIx) (src : Endpoint) (gen : BitVec 8) (code st det : Nat) (sent : Option DWord) :
    SparesMem hi s (s.logFrom d src gen code st det sent) := .modDie s d (fun _ => rfl) (fun _ => rfl)

theorem SparesMem.logEvent (s : State) (d : DieIx) (code st det : Nat) : SparesMem hi s (s.logEvent d code st det) := .logFrom ..

theorem SparesMem.raise (s : State) (i : Irq) : SparesMem hi s (s.raise i) := .of_dies rfl rfl rfl

theorem SparesMem.ite {c : Prop} [Decidable c] (h : SparesMem hi s t) (k : SparesMem hi s u) : SparesMem hi s (if c then t else u) := by
  split <;> assumption

/-! ### The host's queues (R469, R476) -/

theorem State.writeCq_sparesMem {q : Fin 64} (h : s.writeCq q = some t) : SparesMem hi s t := by
  unfold State.writeCq at h
  dsimp only at h
  split at h
  · simp at h
  · split at h
    · simp at h
    · obtain rfl := Option.some.inj h
      exact .ite (.of_dies (by simp) (by simp) (by simp)) (.of_dies (by simp) (by simp) (by simp))

theorem State.flushCqN_sparesMem (s : State) (q : Fin 64) (n : Nat) : SparesMem hi s (s.flushCqN q n) := by
  induction n generalizing s with
  | zero => exact .refl s
  | succ n ih =>
    simp only [State.flushCqN]
    split
    · exact .refl s
    · rename_i t ht
      exact (State.writeCq_sparesMem ht).trans (ih t)

theorem State.flushCq_sparesMem (s : State) (q : Fin 64) : SparesMem hi s (s.flushCq q) := by
  have h := State.flushCqN_sparesMem (hi := hi) s q ((s.hostQ q).hold.length + 1)
  unfold State.flushCq
  dsimp only
  split
  · refine h.trans (SparesMem.trans ?_ (State.flushCqN_sparesMem _ q 1))
    exact .of_dies rfl rfl rfl
  · exact h

theorem State.postCq_sparesMem (s : State) (q : Fin 64) (r : Completion) : SparesMem hi s (s.postCq q r) := by
  unfold State.postCq
  dsimp only
  split
  · refine SparesMem.trans ?_ (State.flushCq_sparesMem _ q)
    exact .of_dies rfl rfl rfl
  · exact .of_dies rfl rfl rfl

theorem State.hostEvent_sparesMem (s : State) (d : DieIx) (src : Endpoint) (st : Nat) (job : BitVec 12) (epoch : BitVec 8) (step hall : Word)
    (type data : Nat) : SparesMem hi s (s.hostEvent d src st job epoch step hall type data) := by
  refine SparesMem.trans ?_ (State.postCq_sparesMem _ 0 _)
  exact .of_dies rfl rfl rfl

theorem State.unitEvent_sparesMem (s : State) (d : DieIx) (src : Endpoint) (type data : Nat) : SparesMem hi s (s.unitEvent d src type data) :=
  State.hostEvent_sparesMem ..

/-! ### Reading (R304, R309, R311) -/

theorem State.eccEvent_sparesMem (s : State) (d : DieIx) (n addr : Nat) (hn : hi → n ≤ 9) : SparesMem hi s (s.eccEvent d n addr) := by
  have hlow : ∀ p : hi, rEccLbLevel n < blkLNK ∧ rEccLbTotal n < blkLNK := fun p => by
    have := hn p
    simp only [rEccLbLevel, rEccLbTotal, blkECC, blkLNK]
    omega
  have h1 : SparesMem hi s ((s.addSat d (rEccLbLevel n) 0 8 1).addSat d (rEccLbTotal n) 0 32 1) :=
    (SparesMem.addSat s d _ _ _ _ (fun p => (hlow p).1)).trans (.addSat _ d _ _ _ _ (fun p => (hlow p).2))
  unfold State.eccEvent
  dsimp only
  split
  · have h2 := (h1.trans (.modReg _ d rEccStatus (fun w => setBit w n true) (fun _ => by decide))).trans (.logEvent _ d 0x0702 0 (n + addr * 256))
    split
    · refine (h2.trans ?_).trans (State.unitEvent_sparesMem ..)
      refine SparesMem.trans ?_ (.raise _ _)
      exact .modDie _ d (fun _ => rfl) (fun _ => rfl)
    · exact h2
  · exact h1

theorem rEccRowlog_low {e : Nat} (h : e < 16) : rEccRowlog e + 4 < blkLNK := by
  simp only [rEccRowlog, blkECC, blkLNK]
  omega

/-- Picking a better one of a list again and again gives one of its members. -/
theorem foldl_pick_mem {α : Type} (p : α → α → Bool) (l : List α) (a : α) : l.foldl (fun b k => if p k b then k else b) a ∈ a :: l := by
  induction l generalizing a with
  | nil => simp
  | cons b l ih =>
    rw [List.foldl_cons]
    rcases List.mem_cons.mp (ih (if p b a then b else a)) with h | h
    · rw [h]
      split <;> simp
    · exact List.mem_cons_of_mem _ (List.mem_cons_of_mem _ h)

theorem State.rowLog_sparesMem (s : State) (d : DieIx) (off : Nat) (unc : Bool) : SparesMem hi s (s.rowLog d off unc) := by
  have put : ∀ e, e < 16 → ∀ v, SparesMem hi s ((s.setReg64 d (rEccRowlog e) v).modDie d
      (fun x => { x with rowAge := x.rowAge.setIfInBounds e x.rowNext, rowNext := x.rowNext + 1 })) := fun e he v =>
    (SparesMem.setReg64 s d _ v (fun _ => rEccRowlog_low he)).trans (.modDie _ d (fun _ => rfl) (fun _ => rfl))
  unfold State.rowLog
  dsimp only
  split
  · rename_i e he
    exact .setReg64 s d _ _ (fun _ => rEccRowlog_low (List.mem_range.mp (List.mem_of_find?_eq_some he)))
  · split
    · rename_i e he
      exact put e (List.mem_range.mp (List.mem_of_find?_eq_some he)) _
    · split
      · exact .modReg s d _ _ (fun _ => by decide)
      · rename_i e es he
        have hmem := foldl_pick_mem (fun k b => decide ((s.die d).rowAge.getD k 0 < (s.die d).rowAge.getD b 0)) es e
        rw [← he] at hmem
        simp only [decide_eq_true_eq] at hmem
        exact put _ (List.mem_range.mp (List.mem_filter.mp hmem).1) _

theorem State.readWord_sparesMem (s : State) (a : Access) (d : DieIx) (region key : Nat) (m : Mark) :
    SparesMem (region = 0) s (s.readWord a d region key m) := by
  have hcount : region = 0 → correctedCounter region (key % 2 ^ 39) ≤ 9 := by
    rintro rfl
    have h : hbmStack (key % 2 ^ 39) < 4 := by
      unfold hbmStack
      have := Nat.xor_lt_two_pow (x := key % 2 ^ 39 / 2 ^ 8 % 128) (y := key % 2 ^ 39 / 2 ^ 15 % 128) (n := 7) (by omega) (by omega)
      change (key % 2 ^ 39 / 2 ^ 8 % 128) ^^^ (key % 2 ^ 39 / 2 ^ 15 % 128) < 2 ^ 7 at this
      change ((key % 2 ^ 39 / 2 ^ 8 % 128) ^^^ (key % 2 ^ 39 / 2 ^ 15 % 128)) / 32 < 4
      omega
    simp only [correctedCounter, if_pos]
    omega
  have hlog : ∀ (u : State) (n : Nat), (region = 0 → n ≤ 9) → ∀ test : Bool,
      SparesMem (region = 0) u (if test then u else u.eccEvent d n (s.boardOf key)) :=
    fun u n hn test => .ite (.refl u) (State.eccEvent_sparesMem u d n _ hn)
  have hrow : ∀ (u : State) (unc test : Bool), SparesMem (region = 0) u (if region = 0 ∧ !test then u.rowLog d (key % 2 ^ 39) unc else u) :=
    fun u unc test => .ite (State.rowLog_sparesMem u d _ unc) (.refl u)
  have htest : ∀ (test : Bool) (f : Found), SparesMem (region = 0) s (if test then s.testRead d f else s) :=
    fun test f => .ite (.setReg s d _ _ (fun _ => by decide)) (.refl s)
  unfold State.readWord
  dsimp only
  split
  · exact ((htest _ _).trans (hlog _ _ hcount _)).trans (hrow _ false _)
  · split
    · exact ((((htest _ _).trans (hlog _ 9 (fun _ => le_rfl) _)).trans (.logEvent ..)).trans (hrow _ true _)).trans
        (.modDie _ d (fun _ => rfl) (fun _ => rfl))
    · split
      · exact (htest _ _).trans (.addSat _ d _ _ _ _ (fun _ => by decide))
      · exact htest _ _

theorem State.hbmCount_sparesMem (s : State) (d : DieIx) (region off n reg : Nat) (hr : reg + 4 < blkLNK) :
    SparesMem hi s (s.hbmCount d region off n reg) :=
  .ite ((SparesMem.setReg64 s d reg _ (fun _ => hr)).trans (.modDie _ d (fun _ => rfl) (fun _ => rfl))) (.refl s)

/-- A read spares the memory and everything of the dies but what it counts and logs. -/
theorem State.memRead_sparesMem (s : State) (a : Access) (d : DieIx) (region off n : Nat) :
    SparesMem (region = 0) s (s.memRead a d region off n).state := by
  have htest : SparesMem (region = 0) s (if s.testsClean a d region (memKey d region off) n then s.testRead d ⟨0, 0, 0⟩ else s) :=
    .ite (.setReg s d _ _ (fun _ => by decide)) (.refl s)
  exact (htest.trans (SparesMem.foldl _ (fun t (p : Nat × Mark) => State.readWord_sparesMem t a d region p.1 p.2) _)).trans
    (State.hbmCount_sparesMem _ d region off n rHbmRd (by decide))

/-! ### Writing (R306) -/

/-- What an access spares, it spares beside any memory. -/
theorem Spares.withMem (h : Spares hi s t) (m n : Mem) : Spares hi { s with mem := m } { t with mem := n } := ⟨h.spared, h.fuses, h.regs⟩

/-- A write sets the bytes that it carries, whatever it does to the marks, and beside memory spares what a read spares. -/
theorem State.memWrite_spec (s : State) (a : Access) (d : DieIx) (region off : Nat) (bs : List Byte) (ps : List Bool) :
    ∃ m : Mem, m.cells = pokeCells s.mem.cells (memKey d region off) bs
      ∧ SparesMem (region = 0) { s with mem := m } (s.memWrite a d region off bs ps) := by
  have tail : ∀ (u : State) (p : Nat → Bool) (flip : Bool) (f : Word → Word) (v : State → DWord),
      let u1 := u.modDie d (fun x => { x with writeBacks := x.writeBacks.filter p })
      let u2 := if flip then u1.modReg d rEccFlipCtl f else u1
      SparesMem (region = 0) u
        ((if region = 0 then u2.setReg64 d rHbmRd (v u2) else u2).hbmCount d region off bs.length rHbmWr) := by
    intro u p flip f v u1 u2
    have h1 : SparesMem (region = 0) u u1 := .modDie u d (fun _ => rfl) (fun _ => rfl)
    have h2 : SparesMem (region = 0) u1 u2 := .ite (.modReg u1 d _ f (fun _ => by decide)) (.refl u1)
    exact ((h1.trans h2).trans (.ite (.setReg64 u2 d _ _ (fun _ => by decide)) (.refl u2))).trans
      (State.hbmCount_sparesMem _ d region off bs.length rHbmWr (by decide))
  unfold State.memWrite
  dsimp only
  split
  · rename_i hn
    exact ⟨s.mem, by rw [List.length_eq_zero_iff.mp hn]; rfl, .refl s⟩
  · have hread := SparesMem.foldl (hi := region = 0)
      ((s.marksIn region (memKey d region off) bs.length).filter (fun p => decide (p.1 < memKey d region off)
        || decide (p.1 + wordSize region > memKey d region off + bs.length)))
      (fun t (p : Nat × Mark) => State.readWord_sparesMem t a d region p.1 p.2) s
    refine ⟨_, ?_, SparesMem.trans ⟨hread.toSpares.withMem _ _, rfl⟩
      (tail _ _ _ _ (fun u2 => u2.reg64 d rHbmRd + BitVec.ofNat 64 (partBytes off bs.length)))⟩
    rw [hread.mem]

end Sys2Proof.Machine
end

section
/-! LEMMAS. The end of a command and the start of others: the data that they leave alone. -/

namespace Sys2Proof.Machine

/-- Generator, control processor and vector unit of a core. -/
def Core.data (k : Core) : Gen × Proc × Vec := (k.gen, k.proc, k.vec)

/-- From s to t memory, the row windows and every core's data are as they were. -/
structure KeepsData (s t : State) : Prop where
  mem : t.mem = s.mem
  rowWins : ∀ d, (t.die d).rowWins = (s.die d).rowWins
  data : ∀ d c, (t.core d c).data = (s.core d c).data

variable {s t u : State}

theorem KeepsData.refl (s : State) : KeepsData s s := ⟨rfl, fun _ => rfl, fun _ _ => rfl⟩

theorem KeepsData.trans (h : KeepsData s t) (k : KeepsData t u) : KeepsData s u :=
  ⟨k.mem.trans h.mem, fun d => (k.rowWins d).trans (h.rowWins d), fun d c => (k.data d c).trans (h.data d c)⟩

theorem KeepsData.foldl {α : Type} {f : State → α → State} (l : List α) (h : ∀ v x, KeepsData v (f v x)) (s : State) :
    KeepsData s (l.foldl f s) :=
  fold_inv (KeepsData s) f l s (.refl s) (fun v x hv => hv.trans (h v x))

theorem KeepsData.ite {c : Prop} [Decidable c] (h : KeepsData s t) (k : KeepsData s u) : KeepsData s (if c then t else u) := by
  split <;> assumption

theorem SparesMem.keepsData {hi : Prop} (h : SparesMem hi s t) : KeepsData s t :=
  ⟨h.mem, h.rowWins, fun d c => by rw [h.core]⟩

theorem KeepsData.wins (h : KeepsData s t) (d : DieIx) (q : Fin 4) : t.wins d q = s.wins d q := by simp [State.wins, h.rowWins]

theorem KeepsData.gen (h : KeepsData s t) (d : DieIx) (c : CoreIx) : (t.core d c).gen = (s.core d c).gen :=
  (congrArg Prod.fst (h.data d c) :)
theorem KeepsData.proc (h : KeepsData s t) (d : DieIx) (c : CoreIx) : (t.core d c).proc = (s.core d c).proc :=
  (congrArg (fun x => x.2.1) (h.data d c) :)
theorem KeepsData.vec (h : KeepsData s t) (d : DieIx) (c : CoreIx) : (t.core d c).vec = (s.core d c).vec :=
  (congrArg (fun x => x.2.2) (h.data d c) :)

/-! ### Updates of the state -/

theorem KeepsData.modDie (s : State) (d : DieIx) {f : Die → Die} (hr : ∀ x, (f x).rowWins = x.rowWins) (hc : ∀ x, (f x).cores = x.cores) :
    KeepsData s (s.modDie d f) := by
  refine ⟨rfl, fun e => ?_, fun e c => ?_⟩ <;> by_cases he : e = d
  · subst he; simp [hr]
  · rw [State.die_modDie_ne s d e f he]
  · subst he; simp [State.core, Die.core, hc]
  · simp [State.core, State.die_modDie_ne s d e f he]

theorem KeepsData.modCore (s : State) (d : DieIx) (c : CoreIx) {f : Core → Core} (hf : ∀ k, (f k).data = k.data) :
    KeepsData s (s.modCore d c f) := by
  refine ⟨rfl, fun e => ?_, fun e k => ?_⟩ <;> by_cases he : e = d
  · subst he; simp [State.modCore, State.setCore]
  · simp [State.modCore, State.setCore, State.die_modDie_ne s d e _ he]
  · subst he
    by_cases hk : k = c
    · subst hk; simp [hf]
    · rw [State.modCore, State.core_setCore_ne _ _ _ _ _ hk]
  · simp [State.core, State.modCore, State.setCore, State.die_modDie_ne s d e _ he]

theorem KeepsData.setReg (s : State) (d : DieIx) (off : Nat) (v : Word) : KeepsData s (s.setReg d off v) :=
  .modDie s d (fun _ => rfl) (fun _ => rfl)

theorem KeepsData.setReg64 (s : State) (d : DieIx) (off : Nat) (v : DWord) : KeepsData s (s.setReg64 d off v) :=
  (KeepsData.setReg s d off _).trans (.setReg _ d _ _)

theorem KeepsData.setQueue (s : State) (d : DieIx) (q : QId) (x : CmdQueue) : KeepsData s (s.setQueue d q x) := by
  cases q with
  | core c => exact .modCore s d c (f := fun k => { k with queue := x }) (fun _ => rfl)
  | _ => exact .modDie s d (f := fun k => { k with uq := k.uq.set (qUncore _) x }) (fun _ => rfl) (fun _ => rfl)

theorem KeepsData.modQueue (s : State) (d : DieIx) (q : QId) (f : CmdQueue → CmdQueue) : KeepsData s (s.modQueue d q f) := .setQueue ..

theorem KeepsData.modCommit (s : State) (d : DieIx) (k : Nat) (f : Commit → Commit) : KeepsData s (s.modCommit d k f) :=
  .modDie s d (fun _ => rfl) (fun _ => rfl)

/-! ### Records (R91) -/

theorem notePushed_data (k : Core) (ident st : Nat) : (notePushed k ident st).data = k.data := by
  unfold notePushed
  split <;> rfl

theorem dropStream_data (ident : Nat) (k : Core) : (dropStream ident k).data = k.data := by
  unfold dropStream
  split <;> rfl

theorem endCore_data (r : Running) (res : Result) (k : Core) : (endCore r res k).data = k.data := by
  unfold endCore
  dsimp only
  repeat' split
  all_goals rfl

theorem State.capture_keepsData (s : State) (d : DieIx) (src : Nat) : KeepsData s (s.capture d src) := by
  refine KeepsData.foldl _ (fun t n => ?_) s
  exact .ite ((KeepsData.setReg t d _ _).trans (.setReg64 _ d _ _)) (.refl t)

theorem State.noteBucket_keepsData (s : State) (d : DieIx) (x : Desc) : KeepsData s (s.noteBucket d x) := by
  unfold State.noteBucket
  dsimp only
  split
  · exact .refl s
  · exact .ite (.refl s) (.modCommit s d _ _)

theorem State.noteDone_keepsData (s : State) (d : DieIx) (job : BitVec 12) (step kind st : Nat) : KeepsData s (s.noteDone d job step kind st) := by
  unfold State.noteDone
  dsimp only
  split
  · exact .refl s
  · exact .ite (.refl s) (.modCommit s d _ _)

theorem State.logDropped_keepsData (s : State) (d : DieIx) (q : QId) (x : Desc) (all : List Nat) : KeepsData s (s.logDropped d q x all) := by
  refine KeepsData.foldl _ (fun t c => ?_) s
  exact (SparesMem.ite (hi := False) (.logFrom ..) (.logFrom ..)).keepsData

theorem State.record_keepsData (s : State) (d : DieIx) (q : QId) (x : Desc) (ident : Nat) (rel : Option Stroke) (res : Result) :
    KeepsData s (s.record d q x ident rel res) := by
  have hlate : KeepsData s ((s.addSat d rStkOverrun 0 32 1).capture d 6) := (KeepsData.setReg s d _ _).trans (State.capture_keepsData _ d 6)
  have hpush : ∀ (v : State) (st : Nat), KeepsData v (match q with | .core c => v.modCore d c (fun k => notePushed k ident st) | _ => v) := by
    intro v st
    cases q with
    | core c => exact .modCore v d c (fun k => notePushed_data k ident st)
    | _ => exact .refl v
  have hnote : ∀ (v : State) (st : Nat), KeepsData v (v.noteCommit d x st) := fun v st =>
    (State.noteBucket_keepsData v d x).trans (State.noteDone_keepsData ..)
  unfold State.record
  dsimp only
  exact ((((KeepsData.ite hlate (.refl s)).trans (State.logDropped_keepsData _ d q x _)).trans (.modQueue _ d q _)).trans (hpush _ _)).trans (hnote _ _)

/-! ### Starting what can start (R36) -/

theorem State.claimAt_keepsData (s : State) (d : DieIx) (q : QId) (x : Desc) : KeepsData s (s.claimAt d q x) := by
  have h : KeepsData s (s.claimCores d (dAux x % 64) (s.cruMask d x)) :=
    KeepsData.foldl _ (fun t e => (KeepsData.setReg t e _ _).trans (.setReg _ e _ _)) s
  cases q with
  | cru => exact .ite h (.refl s)
  | _ => exact .refl s

/-- The head of a queue is completed at once or starts; either way the data stay. -/
theorem State.startHead_keepsData {d : DieIx} {q : QId} (h : s.startHead d q = some t) : KeepsData s t := by
  have hfiled : ∀ {y : CmdQueue} {x : Desc} {ident : Nat} {rel : Option Stroke} {res : Result},
      some ((s.setQueue d q y).record d q x ident rel res) = some t → KeepsData s t := by
    intro y x ident rel res ht
    obtain rfl := Option.some.inj ht
    exact (KeepsData.setQueue s d q y).trans (State.record_keepsData ..)
  have hstarted : ∀ {y : CmdQueue} {f : CmdQueue → CmdQueue} {x : Desc},
      some (((s.setQueue d q y).modQueue d q f).claimAt d q x) = some t → KeepsData s t := by
    intro y f x ht
    obtain rfl := Option.some.inj ht
    exact ((KeepsData.setQueue s d q y).trans (.modQueue _ d q f)).trans (State.claimAt_keepsData ..)
  unfold State.startHead at h
  dsimp only at h
  split at h
  · contradiction
  · split at h
    · contradiction
    split at h
    · exact hfiled h
    split at h
    · exact hfiled h
    split at h
    · exact hfiled h
    split at h
    · split at h
      · exact hfiled h
      · contradiction
    split at h
    · exact hstarted h
    · contradiction

theorem State.startReady_keepsData (s : State) (d : DieIx) (q : QId) (n : Nat) : KeepsData s (s.startReady d q n) := by
  induction n generalizing s with
  | zero => exact .refl s
  | succ n ih =>
    simp only [State.startReady]
    split
    · exact .refl s
    · rename_i t ht
      exact (State.startHead_keepsData ht).trans (ih t)

theorem State.startQueue_keepsData (s : State) (d : DieIx) (q : QId) : KeepsData s (s.startQueue d q) := State.startReady_keepsData ..

theorem State.startAfter_keepsData (s : State) (q : QId) : KeepsData s (s.startAfter q) := by
  have h : ∀ t : State, KeepsData t ((List.finRange 8).foldl (fun t e => if t.present e ∧ !(t.die e).held then t.startAll e else t) t) :=
    KeepsData.foldl _ (fun t e => .ite (KeepsData.foldl _ (fun t q => State.startQueue_keepsData t e q) t) (.refl t))
  cases q with
  | cru => exact h s
  | hlt => exact h s
  | _ => exact .refl s

/-! ### The end of a command -/

/-- A Crucible command that claims no cores ends without touching memory (R223). -/
theorem State.cruEnd_keepsData (s : State) (d : DieIx) (r : Running) (hc : s.claims d r.desc = false) : KeepsData s (s.cruEnd d r) := by
  have h : KeepsData s (s.modDie d (fun x => { x with solve := none })) := .modDie s d (fun _ => rfl) (fun _ => rfl)
  unfold State.cruEnd
  simp only [hc]
  exact .ite h (.refl s)

theorem State.setLends_keepsData (s : State) (d : DieIx) (l : List (Nat × Option Stroke)) : KeepsData s (s.setLends d l) := by
  have h := KeepsData.modDie s d (f := fun x => { x with assay := { x.assay with lends := l } }) (fun _ => rfl) (fun _ => rfl)
  exact ((h.trans (.setReg _ d _ _)).trans (.setReg _ d _ _)).trans (.setReg _ d _ _)

theorem State.hltEnd_keepsData (s : State) (d : DieIx) : KeepsData s (s.hltEnd d) := by
  have h := KeepsData.modDie s d (f := fun x => { x with assay := { x.assay with touch := none, pass := none } }) (fun _ => rfl) (fun _ => rfl)
  exact h.trans (State.setLends_keepsData _ d _)

theorem State.claims_of_slots {d : DieIx} {x : Desc} (h : (t.die d).slots = (s.die d).slots) : t.claims d x = s.claims d x := by
  simp [State.claims, h]

/-- The end of a command that claims no cores leaves all data alone. -/
theorem State.finish_keepsData (s : State) (d : DieIx) (q : QId) (r : Running) (res : Result) (hc : q = .cru → s.claims d r.desc = false) :
    KeepsData s (s.finish d q r res) := by
  have hqueue : ∀ v : State, KeepsData v (((v.record d q r.desc r.ident (some r.released) res).startQueue d q).startAfter q) := fun v =>
    ((State.record_keepsData v d q _ _ _ _).trans (State.startQueue_keepsData _ d q)).trans (State.startAfter_keepsData _ q)
  unfold State.finish
  dsimp only
  refine KeepsData.trans ?_ (hqueue _)
  have hreq := (KeepsData.modDie s d (f := fun x =>
    { x with outstanding := x.outstanding.filter (fun o => !(decide (o.queue = qNum q) && decide (o.ident = r.ident))) })
    (fun _ => rfl) (fun _ => rfl))
  refine (hreq.trans (KeepsData.modQueue _ d q (fun x => { x with running := x.running.filter (fun y => y.ident != r.ident) }))).trans ?_
  cases q with
  | core c =>
    refine (KeepsData.modCore _ d c (fun k => ?_)).trans (.modDie _ d (fun _ => rfl) (fun _ => rfl))
    rw [dropStream_data, endCore_data]
  | cru =>
    refine State.cruEnd_keepsData _ d r (Eq.trans (State.claims_of_slots ?_) (hc rfl))
    simp [State.modQueue, State.setQueue]
  | hlt => exact State.hltEnd_keepsData _ d
  | col => exact .modDie _ d (fun _ => rfl) (fun _ => rfl)
  | txe => exact .modDie _ d (fun _ => rfl) (fun _ => rfl)
  | _ => exact .refl _

/-- An early stop of a command that still works. -/
theorem State.stopEarly_keepsData (s : State) (d : DieIx) (q : QId) (r : Running) (st : Nat) (ha : r.acking = false)
    (hc : q = .cru → s.claims d r.desc = false) : KeepsData s (s.stopEarly d q r st) := by
  rw [State.stopEarly_of_working ha]
  exact State.finish_keepsData s d q r _ hc

/-- Of the Crucible's kinds only the solves claim cores. -/
theorem State.claims_of_kind (s : State) (d : DieIx) {x : Desc} (h : dKind x < 0x43) : s.claims d x = false := by
  have : ¬ dKind x ≥ 0x43 := by omega
  simp [State.claims, this]

/-- A command that works and has collected nothing is stopped: its record carries the status, and no data change. -/
theorem Runs.stopEarly {s t : State} {d : DieIx} {q : QId} {kind : Nat} {r : Running} (hr : Runs s d q kind r) (hstats : r.stats = []) {st : Nat}
    (hst : pickStatus [st] = st) (ht : SparesMem False s t) (hc : q = .cru → kind < 0x43) :
    Filed s (t.stopEarly d q r st) d q r st r.hall r.detail ∧ KeepsData s (t.stopEarly d q r st) := by
  have hkind := hr.kind_eq
  obtain ⟨-, -, hack, hrel⟩ := hr
  exact ⟨State.stopEarly_filed hack hstats hst (by rw [ht.queue]) (.inl (by rw [hrel, ht.stroke])),
    ht.keepsData.trans (State.stopEarly_keepsData t d q r st hack (fun h => State.claims_of_kind t d (by have := hc h; omega)))⟩

/-- A command with nothing to do ends with OK. -/
theorem Runs.finish_ok {s : State} {d : DieIx} {q : QId} {kind : Nat} {r : Running} (hr : Runs s d q kind r) (hc : q = .cru → kind < 0x43) :
    Filed s (s.finish d q r Result.ok) d q r 0x00 0 0 ∧ KeepsData s (s.finish d q r Result.ok) := by
  have hkind := hr.kind_eq
  obtain ⟨-, -, -, hrel⟩ := hr
  exact ⟨State.finish_filed rfl (.inl hrel), State.finish_keepsData s d q r _ (fun h => State.claims_of_kind s d (by have := hc h; omega))⟩

theorem State.countService_sparesMem {hi : Prop} (s : State) (hit : Bool) : SparesMem hi s (s.countService hit) :=
  .ite (.of_dies rfl rfl rfl) (.refl s)

/-! ### Progress of a running command -/

@[simp] theorem State.done_setRunning (s : State) (d : DieIx) (q : QId) (r : Running) :
    ((s.setRunning d q r).queue d q).done = (s.queue d q).done := by simp [State.setRunning]

@[simp] theorem State.queue_dropReqs (s : State) (d : DieIx) (q : QId) (r : Running) : (s.dropReqs d q r).queue d q = s.queue d q :=
  State.queue_modDie _ _ _ _ _ (fun _ => rfl) (fun _ => rfl)

@[simp] theorem State.stroke_setRunning (s : State) (d : DieIx) (q : QId) (r : Running) : (s.setRunning d q r).stroke d = s.stroke d :=
  State.stroke_modQueue ..

@[simp] theorem State.stroke_dropReqs (s : State) (d : DieIx) (q : QId) (r : Running) : (s.dropReqs d q r).stroke d = s.stroke d :=
  State.stroke_modDie _ _ _ _ (fun _ => rfl)

theorem State.setRunning_keepsData (s : State) (d : DieIx) (q : QId) (r : Running) : KeepsData s (s.setRunning d q r) := .modQueue ..

theorem State.dropReqs_keepsData (s : State) (d : DieIx) (q : QId) (r : Running) : KeepsData s (s.dropReqs d q r) :=
  .modDie s d (f := fun x => { x with outstanding := x.outstanding.filter (fun o => !(decide (o.queue = qNum q) && decide (o.ident = r.ident))) })
    (fun _ => rfl) (fun _ => rfl)

end Sys2Proof.Machine
end

section
/-! LEMMAS. Stored bytes: what a write leaves in the cells and among the marks. -/

namespace Sys2Proof.Machine

theorem length_leBytes (n v : Nat) : (leBytes n v).length = n := by
  induction n generalizing v with
  | zero => rfl
  | succ n ih => simp [leBytes, ih]

/-- Byte i of a number in little-endian order. -/
theorem getD_leBytes {n i : Nat} (v : Nat) (h : i < n) : (leBytes n v).getD i 0 = BitVec.ofNat 8 (v / 256 ^ i) := by
  induction n generalizing v i with
  | zero => omega
  | succ n ih =>
    cases i with
    | zero => simp [leBytes]
    | succ i =>
      rw [leBytes, List.getD_cons_succ, ih _ (by omega), Nat.div_div_eq_div_mul, Nat.pow_succ']

theorem leNat_lt (l : List Byte) : leNat l < 256 ^ l.length := by
  induction l with
  | nil => simp [leNat]
  | cons x l ih =>
    have := x.isLt
    rw [List.length_cons, Nat.pow_succ]
    change x.toNat + 256 * leNat l < _
    omega

/-- Bytes that are put read as put, and every other address as before. -/
theorem get_pokeCells (cs : List (Nat × Byte)) (k : Nat) (bs : List Byte) (a : Nat) :
    SMap.get 0 (pokeCells cs k bs) a = if k ≤ a ∧ a < k + bs.length then bs.getD (a - k) 0 else SMap.get 0 cs a := by
  induction bs generalizing cs k with
  | nil => simp [pokeCells]
  | cons b bs ih =>
    rw [pokeCells, ih]
    by_cases h : a = k
    · subst h; simp
    · rw [SMap.get_set_ne 0 0 cs b h]
      by_cases hk : k ≤ a
      · obtain ⟨n, rfl⟩ : ∃ n, a = k + 1 + n := ⟨a - (k + 1), by omega⟩
        have h1 : k + 1 + n - k = n + 1 := by omega
        simp only [h1, List.getD_cons_succ, List.length_cons]
        by_cases hn : n < bs.length
        · rw [if_pos (by omega), if_pos (by omega)]; congr 1; omega
        · rw [if_neg (by omega), if_neg (by omega)]
      · rw [if_neg (by omega), if_neg (by simp only [List.length_cons]; omega)]

theorem get_pokeCells_at (cs : List (Nat × Byte)) (k : Nat) (bs : List Byte) {i : Nat} (h : i < bs.length) :
    SMap.get 0 (pokeCells cs k bs) (k + i) = bs.getD i 0 := by
  rw [get_pokeCells, if_pos (by omega), Nat.add_sub_cancel_left]

theorem get_pokeCells_off (cs : List (Nat × Byte)) (k : Nat) (bs : List Byte) {a : Nat} (h : a < k ∨ k + bs.length ≤ a) :
    SMap.get 0 (pokeCells cs k bs) a = SMap.get 0 cs a := by
  rw [get_pokeCells, if_neg (by omega)]

theorem State.memWrite_cells (s : State) (a : Access) (d : DieIx) (region off : Nat) (bs : List Byte) (ps : List Bool) :
    (s.memWrite a d region off bs ps).mem.cells = pokeCells s.mem.cells (memKey d region off) bs := by
  obtain ⟨m, hm, h⟩ := s.memWrite_spec a d region off bs ps
  rw [h.mem, ← hm]

theorem State.memWrite_spares (s : State) (a : Access) (d : DieIx) (region off : Nat) (bs : List Byte) (ps : List Bool) :
    Spares (region = 0) s (s.memWrite a d region off bs ps) := by
  obtain ⟨m, -, h⟩ := s.memWrite_spec a d region off bs ps
  exact ⟨h.spared, h.fuses, h.regs⟩

/-- A clean write to words without marks leaves no mark (R306). -/
theorem State.memWrite_marks (s : State) {a : Access} (d : DieIx) {region off : Nat} {bs : List Byte} {ps : List Bool} (ht : a.test = false)
    (hm : s.marksIn region (memKey d region off) bs.length = []) (hp : ps.any id = false) :
    (s.memWrite a d region off bs ps).mem.marks = s.mem.marks := by
  unfold State.memWrite
  dsimp only
  split
  · rfl
  · rename_i hn
    have hclear : s.mem.marks.filter (fun p => !(decide (p.1 + wordSize region > memKey d region off)
        && decide (p.1 < memKey d region off + bs.length))) = s.mem.marks := by
      have hall : ∀ p ∈ s.mem.marks, memKey d region off < p.1 + wordSize region → memKey d region off + bs.length ≤ p.1 := by
        simpa [State.marksIn, hn] using hm
      rw [List.filter_eq_self]
      intro p hpm
      have := hall p hpm
      simp
      omega
    have hcount : ∀ (v : State) (reg : Nat), (v.hbmCount d region off bs.length reg).mem = v.mem := by
      intro v reg; unfold State.hbmCount; split <;> rfl
    rw [hcount]
    simp only [hm, ht, poisonWords, hp, List.filter_nil, List.foldl_nil, hclear, Bool.false_and, Bool.false_eq_true, if_false]
    split <;> rfl

/-! ### Writes of a running command to its own die (R199) -/

theorem State.accumulate_spares (s : State) (a : Access) (d : DieIx) (b : Bucket) (off : Nat) (bs : List Byte) (ps : List Bool) :
    Spares False s (s.accumulate a d b off bs ps) := by
  have hread := (State.memRead_sparesMem s a d 0 off bs.length).toSpares.weaken
  unfold State.accumulate
  dsimp only
  refine Spares.trans ?_ (SparesMem.toSpares (.modDie _ d (fun _ => rfl) (fun _ => rfl)))
  exact hread.trans (State.memWrite_spares ..).weaken

theorem State.writeLocal_spares (s : State) (a : Access) (d : DieIx) (region off : Nat) (bs : List Byte) (ps : List Bool) :
    Spares False s (s.writeLocal a d region off bs ps) := by
  unfold State.writeLocal
  split
  · exact State.accumulate_spares ..
  · exact (State.memWrite_spares s a d region off bs ps).weaken

theorem State.put_of_local {s : State} {d : DieIx} {a : BoardAddr} (hl : s.isLocal d a = true) (hr : (locOf a).region ≤ 1) (q : QId) (r : Running)
    (bs : List Byte) (ps : List Bool) :
    s.put d q r a bs ps = s.writeLocal ⟨d, dJob r.desc, r.fw⟩ d (locOf a).region (locOf a).off bs ps := by
  have h2 : (locOf a).region ≠ 2 := by omega
  simp [State.put, hl, h2]

theorem State.put_spares {s : State} {d : DieIx} {a : BoardAddr} (hl : s.isLocal d a = true) (hr : (locOf a).region ≤ 1) (q : QId) (r : Running)
    (bs : List Byte) (ps : List Bool) : Spares False s (s.put d q r a bs ps) := by
  rw [State.put_of_local hl hr]
  exact State.writeLocal_spares ..

/-- Where no bucket is open a write is stored. -/
theorem State.put_stored {s : State} {d : DieIx} {q : QId} {r : Running} {a : BoardAddr} {bs : List Byte} (ps : List Bool)
    (hl : s.isLocal d a = true) (hr : (locOf a).region ≤ 1)
    (hb : (locOf a).region = 0 → s.bucketHit d (dJob r.desc) (locOf a).off bs.length none = .none) :
    s.put d q r a bs ps = s.memWrite ⟨d, dJob r.desc, r.fw⟩ d (locOf a).region (locOf a).off bs ps := by
  rw [State.put_of_local hl hr, State.writeLocal]
  by_cases h0 : (locOf a).region = 0
  · rw [if_pos h0, hb h0]
  · rw [if_neg h0]

end Sys2Proof.Machine
end

section
/-! PROOF. The DMA engine's rows (R53, R97 to R101). -/

namespace Sys2Proof.Machine

/-! ### One row of a transfer -/

theorem State.buckets_hbmCount (s : State) (d : DieIx) (region off n reg : Nat) :
    ((s.hbmCount d region off n reg).die d).buckets = (s.die d).buckets := by
  unfold State.hbmCount
  split <;> simp [State.setReg64, State.setReg]

theorem State.bucketHit_of_buckets {s t : State} {d : DieIx} (h : (t.die d).buckets = (s.die d).buckets) (job : BitVec 12) (off n : Nat)
    (f : Option Fmt) : t.bucketHit d job off n f = s.bucketHit d job off n f := by
  simp [State.bucketHit, h]

/-- A place of the own die whose words bear no marks is read as stored, and buckets stay. -/
theorem State.fetch_unmarked {s : State} {d : DieIx} {q : QId} {r : Running} {a : BoardAddr} {n : Nat} (hl : s.isLocal d a = true)
    (hr : (locOf a).region ≤ 1) (hg : s.gate d q r a = .go) (hfw : r.fw = false)
    (hm : s.marksIn (locOf a).region (memKey d (locOf a).region (locOf a).off) n = []) :
    ∃ t, s.fetch d q r a n = .data (s.peek (memKey d (locOf a).region (locOf a).off) n) (List.replicate n false) t
      ∧ SparesMem False s t ∧ (t.die d).buckets = (s.die d).buckets := by
  by_cases hn : n = 0
  · subst hn
    exact ⟨s, by simp [State.fetch, State.peek], .refl s, rfl⟩
  · have h3 : (locOf a).region ≠ 3 := by omega
    have h2 : (locOf a).region ≠ 2 := by omega
    refine ⟨s.hbmCount d (locOf a).region (locOf a).off n rHbmRd, ?_, State.hbmCount_sparesMem _ _ _ _ _ _ (by decide), State.buckets_hbmCount ..⟩
    have hread := State.memRead_unmarked (a := ⟨d, dJob r.desc, r.fw⟩) hfw hm
    simp [State.fetch, hn, hl, hg, State.place, h3, h2, hread]

/-- What a command's record of progress becomes with a row that has been moved. -/
def RowMove.note (m : RowMove) (r : Running) : Running := { r with flags := r.flags ||| m.out.flags, stats := r.stats ++ m.stats }

/-- The state in which a row has been written and counted. -/
def State.rowMoved (t : State) (d : DieIx) (c : CoreIx) (r : Running) (m : RowMove) : State :=
  ((((t.modCore d c (fun k => { k with gen := m.out.gen })).put d (.core c) r (dmaDstRow r.desc r.rows) m.out.bytes m.out.poison).dropReqs d
    (.core c) (m.note r)).setRunning d (.core c) (rowDone (m.note r)))

/-- A row whose operands are at hand and whose destination is local is written, and the next one begins (R101). -/
theorem State.dmaRows_succ {s t : State} {d : DieIx} {c : CoreIx} {j : DmaJob} {r : Running} {bs : List Byte} {ps : List Bool} (n : Nat)
    (hreqs : s.reqsOf d (.core c) r = []) (hgate : s.gate d (.core c) r (dmaDstRow r.desc r.rows) = .go)
    (hl : s.isLocal d (dmaDstRow r.desc r.rows) = true)
    (hsrc : (if j.src.isNone then .data [] [] s else s.fetch d (.core c) r (dmaSrcRow r.desc r.rows) j.srow) = .data bs ps t) :
    s.dmaRows d c j (n + 1) r =
      let m := dmaConvert r.desc j (t.core d c).gen bs ps
      (t.rowMoved d c r m).dmaRows d c j n (rowDone (m.note r)) := by
  have hlost : s.lostSlot d (dmaDstRow r.desc r.rows) j.drow = false := by
    simp only [State.isLocal, Bool.and_eq_true, decide_eq_true_eq] at hl
    simp [State.lostSlot, hl.1]
  simp only [State.dmaRows, hreqs, List.any_nil, Bool.false_eq_true, if_false, hgate, hsrc, hlost, hl, if_true]
  rfl

theorem State.isLocal_of_fuses {s t : State} (h : t.fuses = s.fuses) (d : DieIx) (a : BoardAddr) : t.isLocal d a = s.isLocal d a := by
  have hs : t.slot = s.slot := by simp [State.slot, h]
  simp [State.isLocal, hs]

/-- What a row that has been moved to an unmarked local place leaves: its bytes, the generator, and the queue's records as they were. -/
theorem State.rowMoved_spec {s t : State} {d : DieIx} {c : CoreIx} {r : Running} {m : RowMove} (hst : SparesMem False s t)
    (hbuckets : (t.die d).buckets = (s.die d).buckets) (hfw : r.fw = false) (hl : s.isLocal d (dmaDstRow r.desc r.rows) = true)
    (hr : (locOf (dmaDstRow r.desc r.rows)).region ≤ 1) :
    let l := locOf (dmaDstRow r.desc r.rows)
    let key := memKey d l.region l.off
    let u := t.rowMoved d c r m
    s.marksIn l.region key m.out.bytes.length = [] →
    (l.region = 0 → s.bucketHit d (dJob r.desc) l.off m.out.bytes.length none = .none) →
    u.mem.cells = pokeCells s.mem.cells key m.out.bytes ∧ (m.out.poison.any id = false → u.mem.marks = s.mem.marks)
      ∧ (u.queue d (.core c)).done = (s.queue d (.core c)).done ∧ u.stroke d = s.stroke d
      ∧ (u.core d c).data = (m.out.gen, (s.core d c).proc, (s.core d c).vec) := by
  intro l key u hmarks hbucket
  let v := t.modCore d c (fun k => { k with gen := m.out.gen })
  have hvq : v.queue d (.core c) = t.queue d (.core c) := State.queue_modCore t d d c _ _ (fun _ => rfl)
  have hvb : (v.die d).buckets = (s.die d).buckets := by simp [v, State.modCore, State.setCore, hbuckets]
  have hvl : v.isLocal d (dmaDstRow r.desc r.rows) = true := (State.isLocal_of_fuses (t := v) hst.fuses d _).trans hl
  let w := v.memWrite ⟨d, dJob r.desc, r.fw⟩ d l.region l.off m.out.bytes m.out.poison
  have hput : v.put d (.core c) r (dmaDstRow r.desc r.rows) m.out.bytes m.out.poison = w :=
    State.put_stored _ hvl hr (fun h0 => (State.bucketHit_of_buckets hvb _ _ _ _).trans (hbucket h0))
  have hw : Spares False v w := (State.memWrite_spares ..).weaken
  have hu : u = (w.dropReqs d (.core c) (m.note r)).setRunning d (.core c) (rowDone (m.note r)) := by
    rw [← hput]; rfl
  have hkeep : KeepsData w u := by
    rw [hu]
    exact (State.dropReqs_keepsData ..).trans (State.setRunning_keepsData ..)
  have hmem : v.mem = s.mem := hst.mem
  refine ⟨?_, fun hp => ?_, ?_, ?_, ?_⟩
  · rw [hkeep.mem, State.memWrite_cells, hmem]
  · rw [hkeep.mem, State.memWrite_marks v d hfw (by simpa [State.marksIn, hmem] using hmarks) hp, hmem]
  · rw [hu, State.done_setRunning, State.queue_dropReqs, hw.queue, hvq, hst.queue]
  · rw [hu, State.stroke_setRunning, State.stroke_dropReqs, hw.stroke, State.stroke_modCore, hst.stroke]
  · rw [hkeep.data, hw.core, State.core_modCore, hst.core]
    rfl

/-! ### The command (R98, R101) -/

/-- Kinds of the DMA engine: a fence of its core or of the engine stops them (R419). -/
theorem State.unitFenced_dma (s : State) (d : DieIx) (c : CoreIx) {kind : Nat} (h : kind = 0x10 ∨ kind = 0x11) :
    s.unitFenced d (.core c) kind = s.dmaFenced d c := by
  have hk : ¬ kind ≥ 0x20 := by omega
  simp only [State.unitFenced, State.dmaFenced, hk, h]
  cases s.coreFenced d c <;> simp

/-- Equal formats copy the bytes and draw nothing (R53). -/
theorem convertRow_same {f : Fmt} {mode : Rnd} {imposed : Option Nat} {n : Nat} {bs : List Byte} {g : Gen} (hl : bs.length = f.rowBytes n) :
    convertRow f f mode imposed n bs (List.replicate bs.length false) g = ⟨bs, List.replicate bs.length false, 0, false, g⟩ := by
  simp [convertRow, padTo, ← hl]

/-- Copies of a list, one behind another: byte i of copy k. -/
theorem getD_flatten_replicate {l : List Byte} {n k i : Nat} (hk : k < n) (hi : i < l.length) :
    (List.replicate n l).flatten.getD (k * l.length + i) 0 = l.getD i 0 := by
  induction n generalizing k with
  | zero => omega
  | succ n ih =>
    rw [List.replicate_succ, List.flatten_cons]
    cases k with
    | zero => rw [Nat.zero_mul, Nat.zero_add, List.getD_append _ _ _ _ hi]
    | succ k =>
      rw [List.getD_append_right _ _ _ _ (by rw [Nat.succ_mul]; omega), ← ih (k := k) (by omega)]
      congr 1
      rw [Nat.succ_mul]
      omega

/-- Byte i of the low bytes of a number is byte i of the number. -/
theorem byte_mod_pow (v : Nat) {i w : Nat} (h : i < w) : v % 256 ^ w / 256 ^ i % 256 = v / 256 ^ i % 256 := by
  obtain ⟨k, rfl⟩ : ∃ k, w = i + (k + 1) := ⟨w - i - 1, by omega⟩
  rw [Nat.pow_add, Nat.mod_mul_right_div_self, Nat.mod_mod_of_dvd _ (Dvd.intro_left _ (Nat.pow_succ ..).symm)]

theorem Fmt.elemBytes_le (f : Fmt) : f.elemBytes ≤ 8 := by cases f <;> decide

/-- FILL repeats the low bytes of its pattern in every element (R99). -/
theorem getD_fillRow {f : Fmt} {x : Desc} {k i : Nat} (hb : f.isBlock = false) (hk : k < cLen x) (hi : i < f.elemBytes) :
    (fillRow f x).getD (k * f.elemBytes + i) 0 = BitVec.ofNat 8 (dn x (24 + i) 1) := by
  have hw := f.elemBytes_le
  have hlen := length_leBytes f.elemBytes (dn x 24 8 % 256 ^ f.elemBytes)
  have hrow : fillRow f x = (List.replicate (cLen x) (leBytes f.elemBytes (dn x 24 8 % 256 ^ f.elemBytes))).flatten := by
    simp [fillRow, hb, List.map_const']
  have hbyte : dn x 24 8 % 256 ^ f.elemBytes / 256 ^ i % 256 = dn x (24 + i) 1 % 256 := by
    have hx : x.toNat / 2 ^ (8 * (24 + i)) = x.toNat / 2 ^ (8 * 24) / 256 ^ i := by
      rw [Nat.div_div_eq_div_mul, show (256 : Nat) = 2 ^ 8 from rfl, ← Nat.pow_mul, ← Nat.pow_add, Nat.mul_add]
    rw [byte_mod_pow _ hi]
    simp only [dn, fld, hx]
    rw [show 2 ^ (8 * 8) = 256 ^ 8 from rfl, byte_mod_pow _ (by omega : i < 8)]
    omega
  have h := getD_flatten_replicate (l := leBytes f.elemBytes (dn x 24 8 % 256 ^ f.elemBytes)) hk (i := i) (by omega)
  rw [hlen] at h
  rw [hrow, h, getD_leBytes _ hi]
  exact BitVec.eq_of_toNat_eq (by simpa using hbyte)

/-- The operands of a command that has begun no row are judged now, its fence after them (R98, R419). -/
theorem State.dmaRun_work {s : State} {d : DieIx} {c : CoreIx} {judge : Desc → Judged DmaJob} {r : Running} {j : DmaJob}
    (hj : judge r.desc = .work j) (hk : dKind r.desc = 0x10 ∨ dKind r.desc = 0x11) (hrows : r.rows = 0) (hreqs : s.reqsOf d (.core c) r = []) :
    s.dmaRun d c judge r =
      if dmaService r.desc j then (s.countService true).stopEarly d (.core c) r stFormat
      else if s.dmaOk d r.desc j then
        (if s.dmaFenced d c then s.stopEarly d (.core c) r stFenced else s.dmaRows d c j (cRows r.desc) r)
      else s.stopEarly d (.core c) r stFormat := by
  simp only [State.dmaRun, hj, hrows, hreqs, State.unitFenced_dma s d c hk]
  cases dmaService r.desc j <;> cases s.dmaOk d r.desc j <;> simp

/-- A command of one row from unmarked local memory to unmarked local memory (R101). -/
theorem State.dmaRows_one {s : State} {d : DieIx} {c : CoreIx} {kind : Nat} {r : Running} {j : DmaJob} (hruns : Runs s d (.core c) kind r)
    (hrows : r.rows = 0) (hstats : r.stats = []) (hfw : r.fw = false) (hreqs : s.reqsOf d (.core c) r = []) :
    let src := dmaSrcRow r.desc 0
    let dst := dmaDstRow r.desc 0
    let l := locOf dst
    let key := memKey d l.region l.off
    let from0 := memKey d (locOf src).region (locOf src).off
    let bs := if j.src.isNone then [] else s.peek from0 j.srow
    let m := dmaConvert r.desc j (s.core d c).gen bs (List.replicate bs.length false)
    let t := s.dmaRows d c j 1 r
    s.isLocal d dst = true → l.region ≤ 1 → s.gate d (.core c) r dst = .go → s.marksIn l.region key m.out.bytes.length = [] →
    (l.region = 0 → s.bucketHit d (dJob r.desc) l.off m.out.bytes.length none = .none) →
    (j.src.isNone = false → s.isLocal d src = true ∧ (locOf src).region ≤ 1 ∧ s.gate d (.core c) r src = .go ∧
      s.marksIn (locOf src).region from0 j.srow = []) →
    t.mem.cells = pokeCells s.mem.cells key m.out.bytes ∧ (m.out.poison.any id = false → t.mem.marks = s.mem.marks)
      ∧ Filed s t d (.core c) r (pickStatus m.stats) r.hall 1
      ∧ (t.core d c).data = (m.out.gen, (s.core d c).proc, (s.core d c).vec) := by
  intro src dst l key from0 bs m t hl hr hgate hmarks hbucket hsource
  obtain ⟨-, -, -, hrel⟩ := hruns
  obtain ⟨v, hfetch, hv, hvb⟩ : ∃ v, (if j.src.isNone then .data [] [] s else s.fetch d (.core c) r (dmaSrcRow r.desc r.rows) j.srow)
      = Fetch.data bs (List.replicate bs.length false) v ∧ SparesMem False s v ∧ (v.die d).buckets = (s.die d).buckets := by
    cases hn : j.src.isNone with
    | true => exact ⟨s, by simp [bs, hn], .refl s, rfl⟩
    | false =>
      obtain ⟨hsl, hsr, hsg, hsm⟩ := hsource hn
      obtain ⟨v, hf, hv, hvb⟩ := State.fetch_unmarked hsl hsr hsg hfw hsm
      refine ⟨v, ?_, hv, hvb⟩
      rw [hrows]
      simpa [bs, hn, State.peek] using hf
  have hmove : dmaConvert r.desc j (v.core d c).gen bs (List.replicate bs.length false) = m := by rw [hv.core]
  have ht : t = (v.rowMoved d c r m).finish d (.core c) (rowDone (m.note r)) ((rowDone (m.note r)).result []) := by
    have h := State.dmaRows_succ 0 hreqs (by rw [hrows]; exact hgate) (by rw [hrows]; exact hl) hfetch
    rw [hmove] at h
    exact h
  obtain ⟨hcells, hclean, hdone, hstroke, hdata⟩ := State.rowMoved_spec hv hvb hfw (r := r) (m := m) (c := c)
    (by rw [hrows]; exact hl) (by rw [hrows]; exact hr) (by rw [hrows]; exact hmarks) (by rw [hrows]; exact hbucket)
  have hkeep : KeepsData (v.rowMoved d c r m) t := by
    rw [ht]
    exact State.finish_keepsData _ d (.core c) _ _ (by simp)
  refine ⟨?_, fun hp => ?_, ?_, ?_⟩
  · rw [hkeep.mem, hcells, hrows]
  · rw [hkeep.mem, hclean hp]
  · have h := State.finish_filed (s := s) (t := v.rowMoved d c r m) (q := .core c) (r := rowDone (m.note r))
      (res := (rowDone (m.note r)).result []) hdone (.inl (hrel.trans hstroke.symm))
    rw [ht]
    simpa [Running.result, rowDone, RowMove.note, hstats, hrows] using h
  · rw [hkeep.data, hdata]

end Sys2Proof.Machine
end

section
open Sys2Proof Sys2Proof.Machine
open Host (Outcome)

/-- Settles O30: each judgement's own end, and for one row the read, the conversion and the write in turn. -/
theorem dmaCopiesAndFills : Obligations.DmaCopiesAndFills := by
  unfold Obligations.DmaCopiesAndFills
  refine ⟨?_, ?_, ?_⟩
  · intro s d c kind r hkind hready hruns hrows hstats hfw hreqs i judged ends
    have hdk : dKind r.desc = 0x10 ∨ dKind r.desc = 0x11 := by rw [hruns.kind_eq]; exact hkind
    obtain ⟨judge, hjudged, hexec⟩ : ∃ judge, judged = judge r.desc ∧ exec i s = .next (s.dmaRun d c judge r) := by
      rcases hkind with rfl | rfl
      · exact ⟨judgeCopy, rfl, exec_engine (k := fun t => t.dmaRun d c judgeCopy) hready hruns rfl⟩
      · exact ⟨judgeFill, rfl, exec_engine (k := fun t => t.dmaRun d c judgeFill) hready hruns rfl⟩
    have hstop : ∀ t st, pickStatus [st] = st → SparesMem False s t → ends (t.stopEarly d (.core c) r st) st := fun t st hst ht =>
      (hruns.stopEarly hstats hst ht (by simp)).imp_right KeepsData.mem
    rw [hjudged]
    refine ⟨fun hj => ?_, fun hj hf => ?_, fun hj hf => ?_, fun j hj => ?_⟩
    · exact ⟨s.stopEarly d (.core c) r stFormat, by rw [hexec, State.dmaRun, hj], hstop _ _ (by decide) (.refl s)⟩
    · refine ⟨s.finish d (.core c) r Result.ok, ?_, (hruns.finish_ok (by simp)).imp_right KeepsData.mem⟩
      rw [hexec, State.dmaRun, hj]
      simp [State.unitFenced_dma s d c hdk, hf]
    · refine ⟨s.stopEarly d (.core c) r stFenced, ?_, hstop _ _ (by decide) (.refl s)⟩
      rw [hexec, State.dmaRun, hj]
      simp [State.unitFenced_dma s d c hdk, hf]
    · rw [hexec, State.dmaRun_work hj hdk hrows hreqs]
      refine ⟨fun h => ?_, fun hserv hok => ⟨fun hf => ?_, fun hf hone => ?_⟩⟩
      · cases hserv : dmaService r.desc j with
        | true => exact ⟨(s.countService true).stopEarly d (.core c) r stFormat, by rw [if_pos rfl],
            hstop _ _ (by decide) (State.countService_sparesMem s true)⟩
        | false =>
          have hok : s.dmaOk d r.desc j = false := by simpa [hserv] using h
          exact ⟨s.stopEarly d (.core c) r stFormat, by simp [hok], hstop _ _ (by decide) (.refl s)⟩
      · exact ⟨s.stopEarly d (.core c) r stFenced, by simp [hserv, hok, hf], hstop _ _ (by decide) (.refl s)⟩
      · intro src dst l key from0 bs m hl hr hgate hmarks hbucket hsource
        obtain ⟨hcells, hclean, hfiled, hdata⟩ := State.dmaRows_one hruns hrows hstats hfw hreqs hl hr hgate hmarks hbucket hsource
        refine ⟨s.dmaRows d c j 1 r, by simp [hserv, hok, hf, hone], fun b hb => ?_, fun a ha => ?_, hclean, hfiled, ?_⟩
        · rw [hcells, get_pokeCells_at _ _ _ hb]
        · rw [hcells, get_pokeCells_off _ _ _ ha]
        · simpa only [Core.data, Prod.mk.injEq] using hdata
  · intro x j g bs hsrc hlen
    have hrow := convertRow_same (mode := rndOf (dRnd x)) (imposed := if cImpose x then some (cScale x) else none) (g := g) hlen
    simp [dmaConvert, hsrc, hrow, bitAt]
  · intro x j g k i hsrc hblock hk hi
    simpa [dmaConvert, hsrc] using getD_fillRow hblock hk hi
end

section
/-! PROOF. The row engines: encodings, rows, and the windows of a context (R192 to R195). -/

namespace Sys2Proof.Machine

/-! ### The side memory's backing array (R192) -/

/-- Words of 8 bytes, each put at its own place of an array: a place reads the word last meant for it. -/
theorem get_pokeWords (f : Nat → List Byte) (hf : ∀ i, (f i).length = 8) (base j : Nat) {k : Nat} (hk : k < 8) (l : List Nat)
    (cs : List (Nat × Byte)) :
    SMap.get 0 (l.foldl (fun cs i => pokeCells cs (base + 8 * i) (f i)) cs) (base + 8 * j + k) =
      if j ∈ l then (f j).getD k 0 else SMap.get 0 cs (base + 8 * j + k) := by
  induction l generalizing cs with
  | nil => simp
  | cons i l ih =>
    rw [List.foldl_cons, ih]
    by_cases hj : j ∈ l
    · rw [if_pos hj, if_pos (List.mem_cons_of_mem _ hj)]
    · rw [if_neg hj]
      by_cases hi : j = i
      · rw [if_pos (hi ▸ List.mem_cons_self), ← hi, get_pokeCells_at _ _ _ (by rw [hf]; exact hk)]
      · rw [if_neg (fun h => (List.mem_cons.mp h).elim hi hj), get_pokeCells_off _ _ _ (by rw [hf]; omega)]

theorem State.statOff_of_spares {s t : State} (h : Spares True s t) (d : DieIx) (ctx layer row : Nat) :
    t.statOff d ctx layer row = s.statOff d ctx layer row := by
  have hb : blkLNK ≤ rRowCtxBase ctx := by simp only [blkLNK, rRowCtxBase, blkROW]; omega
  have hg : blkLNK ≤ rRowCtxGeom ctx := by simp only [blkLNK, rRowCtxGeom, blkROW]; omega
  simp [State.statOff, State.rf, h.regs trivial d _ hb, h.regs trivial d _ hg]

/-- The rows of a window lie one after another. -/
theorem State.statKey_add (s : State) (d : DieIx) (ctx layer row i : Nat) :
    memKey d 0 (s.statOff d ctx layer (row + i)) = memKey d 0 (s.statOff d ctx layer row) + 8 * i := by
  unfold memKey State.statOff
  omega

/-- The bytes of a row's statistics in a window. -/
def RowWin.bytesOf (w : RowWin) (i : Nat) : List Byte := leBytes 8 (SMap.get 0 w.stats i).toNat

/-- A window that is written back spares all but memory, and puts its valid rows at their places of the backing array. -/
theorem State.writeBack_spec (s : State) (d : DieIx) (w : RowWin) :
    Spares True s (s.writeBack d w) ∧ (s.writeBack d w).mem.cells = ((List.range 1024).filter (fun i => bitAt w.valid i)).foldl
      (fun cs i => pokeCells cs (memKey d 0 (s.statOff d w.ctx w.layer (1024 * w.block)) + 8 * i) (w.bytesOf i)) s.mem.cells := by
  unfold State.writeBack
  generalize (List.range 1024).filter (fun i => bitAt w.valid i) = l
  induction l generalizing s with
  | nil => exact ⟨.refl s, rfl⟩
  | cons i l ih =>
    have hw := State.memWrite_spares s ⟨d, 0, false⟩ d 0 (s.statOff d w.ctx w.layer (1024 * w.block + i)) (w.bytesOf i)
      (List.replicate 8 (bitAt w.bad i))
    have hs : Spares True s _ := ⟨hw.spared, hw.fuses, fun _ => hw.regs rfl⟩
    obtain ⟨hrest, hcells⟩ := ih (s.memWrite ⟨d, 0, false⟩ d 0 (s.statOff d w.ctx w.layer (1024 * w.block + i)) (w.bytesOf i)
      (List.replicate 8 (bitAt w.bad i)))
    refine ⟨hs.trans hrest, ?_⟩
    rw [List.foldl_cons, List.foldl_cons, ← State.statKey_add, ← State.memWrite_cells]
    rw [State.statOff_of_spares hs] at hcells
    exact hcells

/-- The windows of a context leave: other windows stay, and a flush writes those of the context back (R193). -/
theorem State.leaveWins_spec (s : State) (d : DieIx) (q : Fin 4) (ctx : Nat) (back : Bool) :
    let t := s.leaveWins d q ctx back
    let mine := (s.wins d q).filter (fun w => w.ctx == ctx)
    (t.queue d (.row q)).done = (s.queue d (.row q)).done ∧ t.stroke d = s.stroke d
      ∧ t.wins d q = (s.wins d q).filter (fun w => w.ctx != ctx) ∧ (∀ p : Fin 4, p ≠ q → t.wins d p = s.wins d p)
      ∧ t.mem = (if back then mine.foldl (fun t w => t.writeBack d w) s else s).mem := by
  intro t mine
  have hs : Spares True s (if back then mine.foldl (fun t w => t.writeBack d w) s else s) := by
    split
    · exact Spares.foldl _ (fun v w => (State.writeBack_spec v d w).1) s
    · exact .refl s
  have hset : ∀ (u : State) (l : List RowWin), ((u.setWins d q l).queue d (.row q)) = u.queue d (.row q) ∧ (u.setWins d q l).stroke d = u.stroke d
      ∧ (u.setWins d q l).wins d q = l ∧ ∀ p : Fin 4, p ≠ q → (u.setWins d q l).wins d p = u.wins d p := by
    intro u l
    refine ⟨State.queue_modDie _ _ _ _ _ (fun _ => rfl) (fun _ => rfl), State.stroke_modDie _ _ _ _ (fun _ => rfl), ?_, fun p hp => ?_⟩
    · simp [State.wins, State.setWins]
    · have : q.val ≠ p.val := fun h => hp (Fin.ext h.symm)
      simp [State.wins, State.setWins, Vector.getElem_set_ne, this]
  obtain ⟨hqueue, hstroke, hwins, hothers⟩ := hset (if back then mine.foldl (fun t w => t.writeBack d w) s else s)
    (((if back then mine.foldl (fun t w => t.writeBack d w) s else s).wins d q).filter (fun w => w.ctx != ctx))
  exact ⟨by rw [← hs.queue d (.row q), ← hqueue]; rfl, hstroke.trans (hs.stroke d), hwins.trans (by rw [hs.wins]),
    fun p hp => (hothers p hp).trans (hs.wins d p), rfl⟩

/-! ### Encodings and operands (R89, R195) -/

section
variable {s : State} {d : DieIx} {q : Fin 4} {r : Running}

theorem State.rowRun_format (hj : judgeRow r.desc = .format) : s.rowRun d q r = s.stopEarly d (.row q) r stFormat := by
  simp [State.rowRun, hj, qkey]

theorem State.rowRun_noop (hj : judgeRow r.desc = .noop) (hf : s.unitFenced d (.row q) (dKind r.desc) = false) :
    s.rowRun d q r = s.finish d (.row q) r Result.ok := by
  simp [State.rowRun, hj, qkey, hf]

/-- A command whose operands have been read computes its rows. -/
theorem State.rowRun_work {inf ofm : Fmt} {l : List (List Byte × List Bool)} {t : State} (hj : judgeRow r.desc = .work (inf, ofm))
    (hctx : s.rowCtxOk d r.desc (rRow0 r.desc + rRows r.desc) = true)
    (hserv : (rowBlocks r.desc inf ofm).any (fun b => rowsService b.1 b.2.1 b.2.2.1 b.2.2.2.1) = false)
    (haddr : s.rowAddrsOk d r.desc inf ofm = true) (hf : s.unitFenced d (.row q) (dKind r.desc) = false) (htest : s.testHold d = false)
    (hhbm : s.hbmServes d = true) (hfetch : s.fetchAll d (.row q) r (rowReads r.desc inf ofm (s.gradsBucket r.desc)) = .data l t) :
    s.rowRun d q r = t.rowWork d q r inf ofm l := by
  simp [State.rowRun, hj, qkey, hctx, hserv, haddr, hf, htest, hhbm, hfetch]

theorem State.leaveRun_leaves {back : Bool} (hpay : dn r.desc 24 40 = 0) (hctx : s.rowCtxOk d r.desc 0 = true)
    (hf : s.unitFenced d (.row q) (dKind r.desc) = false) (hhbm : back = true → s.testHold d = false ∧ s.hbmServes d = true) :
    s.leaveRun d q back r = (s.leaveWins d q (dCtx r.desc) back).finish d (.row q) r Result.ok := by
  cases back with
  | false => simp [State.leaveRun, qkey, hpay, hctx, hf]
  | true =>
    obtain ⟨htest, hserves⟩ := hhbm rfl
    simp [State.leaveRun, qkey, hpay, hctx, hf, htest, hserves]

end

/-! ### One row (R194, R195) -/

theorem getD_map_lt {α β : Type} (f : α → β) (l : List α) (a : α) (b : β) {j : Nat} (h : j < l.length) :
    (l.map f).getD j b = f (l.getD j a) := by
  simp [h]

theorem getD_zipWith_lt {α β γ : Type} (f : α → β → γ) (l : List α) (m : List β) (a : α) (b : β) (c : γ) {j : Nat} (h : j < l.length)
    (hm : j < m.length) : (List.zipWith f l m).getD j c = f (l.getD j a) (m.getD j b) := by
  simp [h, hm]

section
variable (x : Desc) (k : Nat) (p : RowParam) (st : Stat) (xs dy : List Nat)

/-- A NaN or an infinity makes the whole row NaN (R195). -/
theorem rowVals_special (h : xs.any special32 = true ∨ dy.any special32 = true) :
    (rowVals x k p st xs dy).out = List.replicate xs.length 0x7FC00000 := by
  simp only [rowVals, h, if_true]
  rfl

/-- What a row without NaN and infinity gives, kind by kind. -/
def plainVals : RowVals :=
  if dKind x = 0x90 then ⟨(softmaxFwd k p.head xs).1, (softmaxFwd k p.head xs).2, [], []⟩
  else if dKind x = 0x91 then
    ⟨normStat k (rRms x) p.head xs, normFwd (rAffine x) p.gamma p.beta (normStat k (rRms x) p.head xs) xs, [], []⟩
  else if dKind x = 0x92 then ⟨st, softmaxBwd k p.head st xs dy, [], []⟩
  else ⟨st, normBwd k (rRms x) (rAffine x) p.gamma st xs dy, List.zipWith (fun a b => op32 .mul a b) dy (normHat st xs), dy⟩

theorem rowVals_plain (hx : xs.any special32 = false) (hdy : dy.any special32 = false) : rowVals x k p st xs dy = plainVals x k p st xs dy := by
  simp only [rowVals, hx, hdy, Bool.false_eq_true, or_self, if_false]
  rfl
end

theorem softmaxFwd_out (k sc : Nat) (xs : List Nat) : (softmaxFwd k sc xs).2 =
    xs.map (fun a => op32 .div (exp32 (op32 .sub (op32 .mul sc a) (softmaxFwd k sc xs).1.a)) (softmaxFwd k sc xs).1.b) := by
  simp [softmaxFwd, Function.comp_def]

theorem getD_normHat (st : Stat) {xs : List Nat} {j : Nat} (hj : j < xs.length) :
    (normHat st xs).getD j 0 = op32 .mul (op32 .sub (xs.getD j 0) st.a) st.b := getD_map_lt _ _ 0 _ hj

/-- Affine normalisation scales and shifts the normalised element (R194). -/
theorem getD_normFwd_affine {gamma beta : List Nat} {xs : List Nat} (st : Stat) (hg : gamma.length = xs.length) (hb : beta.length = xs.length)
    {j : Nat} (hj : j < xs.length) : (normFwd true gamma beta st xs).getD j 0 =
      op32 .add (op32 .mul (gamma.getD j 0) (op32 .mul (op32 .sub (xs.getD j 0) st.a) st.b)) (beta.getD j 0) := by
  have hlen : (normHat st xs).length = xs.length := by simp [normHat]
  simp only [normFwd, if_true]
  rw [getD_zipWith_lt _ _ _ 0 0 _ (by simp [hg, hlen, hj]) (by omega), getD_zipWith_lt _ _ _ 0 0 _ (by omega) (by omega), getD_normHat _ hj]

/-- The gradient of softmax: each element by the one dot product of the row (R194). -/
theorem getD_softmaxBwd (k sc : Nat) (st : Stat) {xs dy : List Nat} (hlen : dy.length = xs.length) : ∃ dot, ∀ j, j < xs.length →
    (softmaxBwd k sc st xs dy).getD j 0 =
      op32 .mul (op32 .mul sc (op32 .div (exp32 (op32 .sub (op32 .mul sc (xs.getD j 0)) st.a)) st.b)) (op32 .sub (dy.getD j 0) dot) := by
  let y := xs.map (fun v => op32 .div (exp32 (op32 .sub (op32 .mul sc v) st.a)) st.b)
  refine ⟨sum32 k (List.zipWith (fun a b => op32 .mul a b) dy y), fun j hj => ?_⟩
  rw [softmaxBwd, getD_zipWith_lt _ _ _ 0 0 _ (by simpa using hj) (by omega), getD_map_lt _ _ 0 _ hj]

/-- The gradient of RMS normalisation without affine parameters: each element by the one mean of the row (R194). -/
theorem getD_normBwd_rms (k : Nat) (gamma : List Nat) (st : Stat) {xs dy : List Nat} (hlen : dy.length = xs.length) : ∃ m, ∀ j, j < xs.length →
    (normBwd k true false gamma st xs dy).getD j 0 =
      op32 .mul st.b (op32 .sub (dy.getD j 0) (op32 .mul (op32 .mul (op32 .sub (xs.getD j 0) st.a) st.b) m)) := by
  refine ⟨mean32 (k + 1) (List.zipWith (fun a b => op32 .mul a b) dy (normHat st xs)), fun j hj => ?_⟩
  simp only [normBwd, Bool.false_eq_true, if_false, if_true]
  rw [getD_zipWith_lt _ _ _ 0 0 _ (by omega) (by simpa [normHat] using hj), getD_normHat _ hj]

end Sys2Proof.Machine
end

section
open Sys2Proof Sys2Proof.Machine
open Host (Outcome)

/-- Settles O40: a command is judged or computes its rows, a row is its kind's formula, and the windows of a context leave. -/
theorem rowEnginesComputeRows : Obligations.RowEnginesComputeRows := by
  unfold Obligations.RowEnginesComputeRows
  refine ⟨?_, ?_, ?_⟩
  · intro s d q r kind i hkind hready hruns hstats x
    have hexec : exec i s = .next (s.rowRun d q r) := by
      rcases hkind with ⟨rfl, rfl⟩ | ⟨rfl, rfl⟩ | ⟨rfl, rfl⟩ | ⟨rfl, rfl⟩ <;>
        exact exec_engine (k := fun t => t.rowRun d q) hready hruns rfl
    rw [hexec]
    have hdk : dKind r.desc = kind := hruns.kind_eq
    refine ⟨fun hj => ?_, fun hj hf => ?_, fun inf ofm hj hctx hserv haddr hf htest hhbm l t0 hfetch => ?_⟩
    · obtain ⟨hfiled, hkeep⟩ := hruns.stopEarly hstats (st := 0x07) (by decide) (.refl s) (by simp)
      exact ⟨s.stopEarly d (.row q) r stFormat, by rw [State.rowRun_format hj], hfiled, hkeep.mem⟩
    · obtain ⟨hfiled, hkeep⟩ := hruns.finish_ok (by simp)
      exact ⟨s.finish d (.row q) r Result.ok, by rw [State.rowRun_noop hj (hdk ▸ hf)], hfiled, hkeep.mem, hkeep.wins d q⟩
    · rw [State.rowRun_work hj hctx hserv haddr (hdk ▸ hf) htest hhbm hfetch]
  · intro x k p st xs dy v
    refine ⟨rowVals_special x k p st xs dy, fun hx hdy => ?_⟩
    have hv : v = plainVals x k p st xs dy := rowVals_plain x k p st xs dy hx hdy
    rw [hv]
    refine ⟨fun h => ?_, fun h ha => ?_, fun h ha hg hb j hj => ?_, fun h hr => ?_, fun h hlen => ?_, fun h ha hr hlen => ?_⟩
    · simpa [plainVals, h] using softmaxFwd_out k p.head xs
    · simp [plainVals, h, ha, normFwd, normHat]
    · simpa [plainVals, h, ha] using getD_normFwd_affine _ hg hb hj
    · simp [plainVals, h, hr, normStat]
    · simpa [plainVals, h] using getD_softmaxBwd k p.head st hlen
    · simpa [plainVals, h, ha, hr] using getD_normBwd_rms k p.gamma st hlen
  · intro s d q back r hready hruns hstats x i
    have hexec : exec i s = .next (s.leaveRun d q back r) := by
      cases back <;> exact exec_engine (k := fun t => t.leaveRun d q _) hready hruns rfl
    rw [hexec]
    refine ⟨fun hbad => ?_, fun hpay hctx hf hhbm => ?_⟩
    · obtain ⟨t, ht, hleave⟩ : ∃ t, SparesMem False s t ∧ s.leaveRun d q back r = t.stopEarly d (.row q) r stFormat := by
        by_cases hpay : dn r.desc 24 40 = 0
        · have hctx : s.rowCtxOk d r.desc 0 = false := hbad.resolve_left (fun h => h hpay)
          exact ⟨_, State.countService_sparesMem s (s.rowSvc d r.desc), by simp [State.leaveRun, hpay, hctx, qkey]⟩
        · exact ⟨s, .refl s, by simp [State.leaveRun, hpay, qkey]⟩
      obtain ⟨hfiled, hkeep⟩ := hruns.stopEarly hstats (st := 0x07) (by decide) ht (by simp)
      exact ⟨_, by rw [hleave]; rfl, hfiled, hkeep.wins d q, hkeep.mem⟩
    · obtain ⟨-, -, -, hrel⟩ := hruns
      obtain ⟨hdone, hstroke, hwins, hothers, hmem⟩ := State.leaveWins_spec s d q (dCtx r.desc) back
      have hkeep := State.finish_keepsData (s.leaveWins d q (dCtx r.desc) back) d (.row q) r Result.ok (by simp)
      refine ⟨(s.leaveWins d q (dCtx r.desc) back).finish d (.row q) r Result.ok, ?_,
        State.finish_filed hdone (.inl (hrel.trans hstroke.symm)),
        (hkeep.wins d q).trans hwins, fun p hp => (hkeep.wins d p).trans (hothers p hp), fun hb => ?_, fun w hb hw j k hj hk hvalid => ?_⟩
      · rw [State.leaveRun_leaves hpay hctx hf hhbm]
      · rw [hkeep.mem, hmem, hb]
        rfl
      · have hput := (State.writeBack_spec s d w).2
        rw [hkeep.mem, hmem, hb, if_pos rfl, hw, List.foldl_cons, List.foldl_nil, hput, State.statKey_add,
          get_pokeWords w.bytesOf (fun i => length_leBytes 8 _) _ _ hk, if_pos (by simp [hj, hvalid]), RowWin.bytesOf, getD_leBytes _ hk, Nat.pow_mul]
end

section
/-! LEMMAS. Fields of words, and work that is done once on each die of a mask. -/

namespace Sys2Proof.Machine

/-! ### Fields (R5) -/

theorem testBit_fld {w : Nat} (x : BitVec w) (lo len i : Nat) : (fld x lo len).testBit i = (decide (i < len) && x.getLsbD (lo + i)) := by
  simp [fld, Nat.testBit_mod_two_pow, Nat.testBit_div_two_pow, BitVec.getLsbD, Nat.add_comm]

/-- A field that is set holds the new bits, and the rest of the word the old ones. -/
theorem getLsbD_setFld {w : Nat} (x : BitVec w) (lo len v i : Nat) :
    (setFld x lo len v).getLsbD i = (decide (i < w) && if lo ≤ i ∧ i < lo + len then v.testBit (i - lo) else x.getLsbD i) := by
  unfold setFld
  simp only [BitVec.getLsbD_or, BitVec.getLsbD_and, BitVec.getLsbD_not, BitVec.getLsbD_ofNat, Nat.testBit_mul_two_pow,
    Nat.testBit_two_pow_sub_one, Nat.testBit_mod_two_pow]
  by_cases hw : i < w
  · by_cases hlo : lo ≤ i
    · by_cases hhi : i < lo + len
      · simp [hw, hlo, hhi, show i - lo < len by omega]
      · simp [hw, hlo, hhi, show ¬ i - lo < len by omega]
    · simp [hw, hlo]
  · simp [hw]

theorem fld_setFld_same {w : Nat} (x : BitVec w) {lo len : Nat} (v : Nat) (h : lo + len ≤ w) : fld (setFld x lo len v) lo len = v % 2 ^ len := by
  refine Nat.eq_of_testBit_eq fun i => ?_
  rw [testBit_fld, getLsbD_setFld, Nat.testBit_mod_two_pow]
  by_cases hi : i < len
  · simp [hi, show lo + i < w by omega]
  · simp [hi]

theorem fld_setFld_apart {w : Nat} (x : BitVec w) {lo len a n : Nat} (v : Nat) (h : a + n ≤ lo ∨ lo + len ≤ a) :
    fld (setFld x lo len v) a n = fld x a n := by
  refine Nat.eq_of_testBit_eq fun i => ?_
  rw [testBit_fld, testBit_fld, getLsbD_setFld]
  by_cases hi : i < n
  · rw [if_neg (by omega)]
    by_cases hw : a + i < w
    · simp [hw]
    · simp [hw, BitVec.getLsbD_of_ge x (a + i) (by omega)]
  · simp [hi]

theorem fld_lt {w : Nat} (x : BitVec w) (lo len : Nat) : fld x lo len < 2 ^ len := Nat.mod_lt _ (Nat.two_pow_pos len)

/-- A saturating counter that fills a field of its register. -/
theorem State.rf_addSat (s : State) (d : DieIx) (off : Nat) {lo len : Nat} (k : Nat) (h : lo + len ≤ 32) :
    (s.addSat d off lo len k).rf d off lo len = min (s.rf d off lo len + k) (2 ^ len - 1) := by
  have := Nat.two_pow_pos len
  rw [State.addSat, State.setRf, State.modReg, State.rf, State.reg_setReg, fld_setFld_same _ _ h, Nat.mod_eq_of_lt (by omega)]

/-! ### Dies of a mask -/

theorem nodup_cruDies (m : Nat) : (cruDies m).Nodup := (List.nodup_finRange 8).filter _

/-- What each of some steps brings about and the others keep holds of all of them in the end. -/
theorem foldl_each {α β : Type} {f : β → α → β} {P : α → β → Prop} (hdo : ∀ t a, P a (f t a))
    (hkeep : ∀ t a b, b ≠ a → P a t → P a (f t b))
    (l : List α) (s : β) : ∀ a ∈ l, P a (l.foldl f s) := by
  induction l using List.reverseRecOn generalizing s with
  | nil => simp
  | append_singleton l b ih =>
    intro a ha
    rw [List.foldl_append, List.foldl_cons, List.foldl_nil]
    by_cases hb : b = a
    · subst hb
      exact hdo _ b
    · exact hkeep _ a b hb (ih s a (by simpa [Ne.symm hb] using ha))

/-- Steps for distinct indices, each of which changes its own index's view alone: the view of an index is changed once. -/
theorem foldl_view {α β γ : Type} {f : β → α → β} (view : α → β → γ) (g : γ → γ) (hdo : ∀ t a, view a (f t a) = g (view a t))
    (hkeep : ∀ t a b, b ≠ a → view a (f t b) = view a t) {l : List α} (hl : l.Nodup) (s : β) :
    ∀ a ∈ l, view a (l.foldl f s) = g (view a s) := by
  have hout : ∀ (l : List α) (s : β) (a : α), a ∉ l → view a (l.foldl f s) = view a s := by
    intro l
    induction l with
    | nil => simp
    | cons b l ih =>
      intro s a ha
      rw [List.foldl_cons, ih _ a (fun h => ha (List.mem_cons_of_mem _ h)), hkeep _ _ _ (by rintro rfl; exact ha List.mem_cons_self)]
  induction l generalizing s with
  | nil => simp
  | cons b l ih =>
    intro a ha
    obtain ⟨hb, hl⟩ := List.nodup_cons.mp hl
    rw [List.foldl_cons]
    rcases List.mem_cons.mp ha with rfl | ha
    · rw [hout l _ a hb, hdo]
    · rw [ih hl _ a ha, hkeep _ _ _ (by rintro rfl; exact hb ha)]

end Sys2Proof.Machine
end

section
/-! PROOF. The Crucible's structure slots: loading, freeing and their values (R224 to R233). -/

namespace Sys2Proof.Machine

/-- What a Crucible command that no abort stops does to a ready die on which it runs (R253). -/
theorem exec_cru {s : State} {d : DieIx} {kind : Nat} {r : Running} {i : Instr} {k : State → Running → State} (hready : Ready s d)
    (hruns : Runs s d .cru kind r) (hstop : s.cruStopping d r = false) (hi : exec i s = onDie d s (fun t => withCru t d kind (k t))) :
    exec i s = .next (k s r) := by
  rw [hi, onDie_ready hready, withCru_of_runs hruns hstop]

/-! ### Slot registers and slot records (R224) -/

theorem State.slotState_of_reg {s t : State} {d e : DieIx} {j k : Nat} (h : t.reg d (rCruSlot j 0) = s.reg e (rCruSlot k 0)) :
    t.slotState d j = s.slotState e k := by simp [State.slotState, State.rf, h]

theorem State.cruSlot_of_slots {s t : State} {d : DieIx} (h : (t.die d).slots = (s.die d).slots) (k : Nat) : t.cruSlot d k = s.cruSlot d k := by
  simp [State.cruSlot, h]

theorem State.slots_setReg (s : State) (d e : DieIx) (off : Nat) (v : Word) : ((s.setReg e off v).die d).slots = (s.die d).slots := by
  by_cases h : d = e
  · subst h; simp [State.setReg]
  · rw [State.setReg, State.die_modDie_ne s e d _ h]

theorem State.reg_modDie (s : State) (d e : DieIx) (off : Nat) {f : Die → Die} (hf : ∀ x, (f x).regs = x.regs) :
    (s.modDie e f).reg d off = s.reg d off := by
  by_cases h : d = e
  · subst h; simp [State.reg, hf]
  · simp [State.reg, State.die_modDie_ne s e d f h]

/-- The step of `setSlot` for one die. -/
def State.putSlot (s : State) (e : DieIx) (k : Nat) (c : CruSlot) : State :=
  s.modDie e (fun y => { y with slots := (k, c) :: y.slots.filter (fun p => p.1 != k) })

/-- The step of `freeSlotOf` for one die. -/
def State.dropSlot (s : State) (e : DieIx) (k : Nat) : State :=
  (s.setReg e (rCruSlot k 0) 0).modDie e (fun y => { y with slots := y.slots.filter (fun p => p.1 != k) })

theorem State.cruSlot_putSlot (s : State) (e : DieIx) (k : Nat) (c : CruSlot) : (s.putSlot e k c).cruSlot e k = some c := by
  simp [State.cruSlot, State.putSlot]

theorem State.cruSlot_putSlot_ne (s : State) {d e : DieIx} (k j : Nat) (c : CruSlot) (h : e ≠ d) : (s.putSlot e k c).cruSlot d j = s.cruSlot d j :=
  State.cruSlot_of_slots (by rw [State.putSlot, State.die_modDie_ne s e d _ (Ne.symm h)]) j

theorem State.cruSlot_dropSlot (s : State) (e : DieIx) (k : Nat) : (s.dropSlot e k).cruSlot e k = none := by
  simp [State.cruSlot, State.dropSlot, List.find?_eq_none]

theorem State.cruSlot_dropSlot_ne (s : State) {d e : DieIx} {k j : Nat} (h : ¬ (e = d ∧ k = j)) : (s.dropSlot e k).cruSlot d j = s.cruSlot d j := by
  by_cases he : d = e
  · subst he
    have hj : k ≠ j := fun hk => h ⟨rfl, hk⟩
    have hslots : ((s.dropSlot d k).die d).slots = (s.die d).slots.filter (fun p => p.1 != k) := by
      simp [State.dropSlot, State.slots_setReg]
    unfold State.cruSlot
    rw [hslots, List.find?_filter]
    refine congrArg (fun f => ((s.die d).slots.find? f).map (fun p => p.2)) (funext fun p => ?_)
    by_cases hp : p.1 = j
    · simp [hp, Ne.symm hj]
    · simp [hp]
  · refine State.cruSlot_of_slots ?_ j
    rw [State.dropSlot, State.die_modDie_ne _ e d _ he, State.slots_setReg]

theorem State.reg_dropSlot_eq (s : State) (d e : DieIx) (k off : Nat) : (s.dropSlot e k).reg d off = (s.setReg e (rCruSlot k 0) 0).reg d off :=
  State.reg_modDie _ d e off (f := fun y => { y with slots := y.slots.filter (fun p => p.1 != k) }) (fun _ => rfl)

theorem State.reg_dropSlot (s : State) (e : DieIx) (k : Nat) : (s.dropSlot e k).reg e (rCruSlot k 0) = 0 := by
  rw [State.reg_dropSlot_eq, State.reg_setReg]

theorem State.reg_dropSlot_ne (s : State) {d e : DieIx} {k off : Nat} (h : ¬ (d = e ∧ off = rCruSlot k 0)) :
    (s.dropSlot e k).reg d off = s.reg d off := by
  rw [State.reg_dropSlot_eq, State.reg_setReg_ne _ _ _ _ h]

theorem rCruSlot_inj {j k : Nat} (h : rCruSlot j 0 = rCruSlot k 0) : j = k := by
  unfold rCruSlot at h
  omega

theorem State.freeSlotOf_eq (s : State) (k : Nat) (c : CruSlot) : s.freeSlotOf k c = (cruDies c.mask).foldl (fun t e => t.dropSlot e k) s := rfl

/-- STRUCT_FREE empties a slot on the dies of its mask (R224). -/
theorem State.freeSlotOf_frees (s : State) (k : Nat) (c : CruSlot) :
    ∀ e ∈ cruDies c.mask, (s.freeSlotOf k c).slotState e k = 0 ∧ (s.freeSlotOf k c).cruSlot e k = none := by
  have hdo : ∀ (t : State) (e : DieIx), (t.dropSlot e k).slotState e k = 0 ∧ (t.dropSlot e k).cruSlot e k = none := fun t e =>
    ⟨by simp [State.slotState, State.rf, t.reg_dropSlot e k, fld], t.cruSlot_dropSlot e k⟩
  have hkeep : ∀ (t : State) (e a : DieIx), a ≠ e → t.slotState e k = 0 ∧ t.cruSlot e k = none →
      (t.dropSlot a k).slotState e k = 0 ∧ (t.dropSlot a k).cruSlot e k = none := fun t e a ha h =>
    ⟨(State.slotState_of_reg (t.reg_dropSlot_ne (fun h => ha h.1.symm))).trans h.1, (t.cruSlot_dropSlot_ne (fun h => ha h.1)).trans h.2⟩
  rw [State.freeSlotOf_eq]
  exact foldl_each (P := fun e (t : State) => t.slotState e k = 0 ∧ t.cruSlot e k = none) hdo hkeep _ s

/-- Memory and the other slots stay. -/
theorem State.freeSlotOf_others (s : State) (k : Nat) (c : CruSlot) : (s.freeSlotOf k c).mem = s.mem
    ∧ ∀ e j, j ≠ k → (s.freeSlotOf k c).slotState e j = s.slotState e j ∧ (s.freeSlotOf k c).cruSlot e j = s.cruSlot e j := by
  rw [State.freeSlotOf_eq]
  generalize cruDies c.mask = l
  induction l generalizing s with
  | nil => exact ⟨rfl, fun _ _ _ => ⟨rfl, rfl⟩⟩
  | cons a l ih =>
    obtain ⟨hmem, hslots⟩ := ih (s.dropSlot a k)
    refine ⟨hmem, fun e j hj => ?_⟩
    obtain ⟨hstate, hslot⟩ := hslots e j hj
    exact ⟨hstate.trans (State.slotState_of_reg (s.reg_dropSlot_ne (fun h => hj (rCruSlot_inj h.2)))),
      hslot.trans (s.cruSlot_dropSlot_ne (fun h => hj h.2.symm))⟩

/-! ### Loading an image (R225, R226) -/

/-- Cells that an image covers from a key on: itself around an empty pivot log. -/
def imageCells (cs : List (Nat × Byte)) (key : Nat) (b : List Byte) : List (Nat × Byte) :=
  pokeCells (pokeCells (pokeCells cs key (b.take 0x1000)) (key + 0x1000) (List.replicate 1024 0)) (key + 0x1400) (b.drop 0x1400)

theorem get_imageCells (cs : List (Nat × Byte)) (key : Nat) (b : List Byte) {k : Nat} (hk : k < b.length) :
    SMap.get 0 (imageCells cs key b) (key + k) = if 0x1000 ≤ k ∧ k < 0x1400 then 0 else b.getD k 0 := by
  have htake : (b.take 0x1000).length = min 0x1000 b.length := List.length_take
  have hdrop : (b.drop 0x1400).length = b.length - 0x1400 := List.length_drop
  have hzero : (List.replicate 1024 (0 : Byte)).length = 1024 := List.length_replicate
  unfold imageCells
  by_cases hhi : 0x1400 ≤ k
  · obtain ⟨i, rfl⟩ : ∃ i, k = 0x1400 + i := ⟨k - 0x1400, by omega⟩
    rw [← Nat.add_assoc, get_pokeCells_at _ _ _ (by omega), if_neg (by omega), List.getD_eq_getElem?_getD, List.getElem?_drop,
      ← List.getD_eq_getElem?_getD]
  · rw [get_pokeCells_off _ _ _ (.inl (by omega))]
    by_cases hlo : 0x1000 ≤ k
    · obtain ⟨i, rfl⟩ : ∃ i, k = 0x1000 + i := ⟨k - 0x1000, by omega⟩
      rw [← Nat.add_assoc, get_pokeCells_at _ _ _ (by omega), if_pos (by omega), List.getD_replicate _ (by omega)]
    · rw [get_pokeCells_off _ _ _ (.inl (by omega)), get_pokeCells_at _ _ _ (by omega), if_neg (by omega), List.getD_eq_getElem?_getD,
        List.getElem?_take_of_lt (by omega), ← List.getD_eq_getElem?_getD]

theorem get_imageCells_off (cs : List (Nat × Byte)) (key : Nat) (b : List Byte) {a : Nat} (ha : a < key ∨ key + 0x1400 + b.length ≤ a) :
    SMap.get 0 (imageCells cs key b) a = SMap.get 0 cs a := by
  have htake : (b.take 0x1000).length = min 0x1000 b.length := List.length_take
  have hdrop : (b.drop 0x1400).length = b.length - 0x1400 := List.length_drop
  have hzero : (List.replicate 1024 (0 : Byte)).length = 1024 := List.length_replicate
  rw [imageCells, get_pokeCells_off _ _ _ (by omega), get_pokeCells_off _ _ _ (by omega), get_pokeCells_off _ _ _ (by omega)]

theorem memKey_add (die region off n : Nat) : memKey die region (off + n) = memKey die region off + n := (Nat.add_assoc _ off n).symm

theorem State.memWrite_spares_hbm (s : State) (a : Access) (d : DieIx) (off : Nat) (bs : List Byte) (ps : List Bool) :
    Spares True s (s.memWrite a d 0 off bs ps) :=
  have h := State.memWrite_spares s a d 0 off bs ps
  ⟨h.spared, h.fuses, fun _ => h.regs rfl⟩

/-- The image in a store. -/
theorem State.storeImage_spec (s : State) (e : DieIx) (c : CruSlot) (b : List Byte) (ps : List Bool) :
    Spares True s (s.storeImage e c b ps) ∧ (s.storeImage e c b ps).mem.cells = imageCells s.mem.cells (memKey e 0 c.store) b := by
  refine ⟨((State.memWrite_spares_hbm ..).trans (State.memWrite_spares_hbm ..)).trans (State.memWrite_spares_hbm ..), ?_⟩
  simp only [State.storeImage, State.memWrite_cells, memKey_add, imageCells, Nat.add_zero]

/-- The word of a LOADED slot (R259). -/
def loadedWord (d e : DieIx) (c : CruSlot) : Word := BitVec.ofNat 32 (2 ^ 30 + (if e = d then 2 ^ 29 else 0) + c.mask * 65536 + c.job.toNat)

theorem fld_loadedWord (d e : DieIx) {c : CruSlot} (hm : c.mask < 256) : fld (loadedWord d e c) 30 2 = 1 := by
  have hj : c.job.toNat < 2 ^ 12 := c.job.isLt
  have hv : 2 ^ 30 + (if e = d then 2 ^ 29 else 0) + c.mask * 65536 + c.job.toNat < 2 ^ 31 := by split <;> omega
  rw [loadedWord, fld, BitVec.toNat_ofNat, Nat.mod_eq_of_lt (by omega)]
  omega

/-- The step of `loadSlot` for one die. -/
def State.loadOn (s : State) (d e : DieIx) (k : Nat) (c : CruSlot) (b : List Byte) (ps : List Bool) : State :=
  (s.storeImage e c b ps).setReg e (rCruSlot k 0) (loadedWord d e c)

/-- The state that a loaded slot leaves, but for the end of its command. -/
def State.loaded (s : State) (d : DieIx) (k : Nat) (c : CruSlot) (b : List Byte) (ps : List Bool) : State :=
  (cruDies c.mask).foldl (fun t e => t.putSlot e k c) ((cruDies c.mask).foldl (fun t e => t.loadOn d e k c b ps) s)

theorem State.putSlots_others (s : State) (k : Nat) (c : CruSlot) (l : List DieIx) :
    (l.foldl (fun t e => t.putSlot e k c) s).mem = s.mem ∧ ∀ d off, (l.foldl (fun t e => t.putSlot e k c) s).reg d off = s.reg d off := by
  induction l generalizing s with
  | nil => exact ⟨rfl, fun _ _ => rfl⟩
  | cons e l ih =>
    obtain ⟨hmem, hreg⟩ := ih (s.putSlot e k c)
    exact ⟨hmem, fun d off => (hreg d off).trans (State.reg_modDie s d e off (fun _ => rfl))⟩

/-- On each die of the mask a load sets the slot's word and puts the image into the store (R225, R226). -/
theorem State.loadOn_each (s : State) (d : DieIx) (k : Nat) {c : CruSlot} {b : List Byte} (ps : List Bool)
    (hstore : c.store + 0x1400 + b.length ≤ 2 ^ 39) : ∀ e ∈ cruDies c.mask,
      ((cruDies c.mask).foldl (fun t e => t.loadOn d e k c b ps) s).reg e (rCruSlot k 0) = loadedWord d e c
      ∧ ∀ i, i < b.length → SMap.get 0 ((cruDies c.mask).foldl (fun t e => t.loadOn d e k c b ps) s).mem.cells (memKey e 0 c.store + i)
        = if 0x1000 ≤ i ∧ i < 0x1400 then 0 else b.getD i 0 := by
  have hcells : ∀ (t : State) (e : DieIx), (t.loadOn d e k c b ps).mem.cells = imageCells t.mem.cells (memKey e 0 c.store) b := fun t e =>
    (State.storeImage_spec t e c b ps).2
  refine foldl_each (f := fun t e => State.loadOn t d e k c b ps) (P := fun e t => State.reg t e (rCruSlot k 0) = loadedWord d e c
    ∧ ∀ i, i < b.length → SMap.get 0 t.mem.cells (memKey e 0 c.store + i) = if 0x1000 ≤ i ∧ i < 0x1400 then 0 else b.getD i 0)
    (fun t e => ⟨State.reg_setReg .., fun i hi => ?_⟩) (fun t e a ha h => ⟨?_, fun i hi => ?_⟩) _ s
  · rw [hcells, get_imageCells _ _ _ hi]
  · have hblk : blkLNK ≤ rCruSlot k 0 := by simp only [rCruSlot, blkCRU, blkLNK]; omega
    exact (State.reg_setReg_ne _ _ _ _ (fun h => ha h.1.symm)).trans (((State.storeImage_spec t a c b ps).1.regs trivial e _ hblk).trans h.1)
  · have hv : a.val ≠ e.val := fun h => ha (Fin.ext h)
    rw [hcells, get_imageCells_off _ _ _ (by unfold memKey; omega)]
    exact h.2 i hi

/-- A loaded slot on the dies of its mask (R224 to R226). -/
theorem State.loaded_spec (s : State) (d : DieIx) (k : Nat) {c : CruSlot} {b : List Byte} (ps : List Bool) (hmask : c.mask < 256)
    (hstore : c.store + 0x1400 + b.length ≤ 2 ^ 39) : ∀ e ∈ cruDies c.mask,
      (s.loaded d k c b ps).slotState e k = 1 ∧ (s.loaded d k c b ps).cruSlot e k = some c
      ∧ ∀ i, i < b.length → SMap.get 0 (s.loaded d k c b ps).mem.cells (memKey e 0 c.store + i)
        = if 0x1000 ≤ i ∧ i < 0x1400 then 0 else b.getD i 0 := by
  intro e he
  obtain ⟨hword, hbytes⟩ := State.loadOn_each s d k ps hstore e he
  obtain ⟨hmem, hreg⟩ := State.putSlots_others ((cruDies c.mask).foldl (fun t e => t.loadOn d e k c b ps) s) k c (cruDies c.mask)
  have hslot := foldl_each (f := fun t e => State.putSlot t e k c) (P := fun e t => State.cruSlot t e k = some c)
    (fun t e => t.cruSlot_putSlot e k c) (fun t e a ha h => (t.cruSlot_putSlot_ne k k c ha).trans h) (cruDies c.mask)
    ((cruDies c.mask).foldl (fun t e => t.loadOn d e k c b ps) s) e he
  refine ⟨?_, hslot, fun i hi => ?_⟩
  · rw [State.slotState, State.rf, State.loaded, hreg, hword, fld_loadedWord d e hmask]
  · rw [State.loaded, hmem]
    exact hbytes i hi

theorem imMask_lt (b : List Byte) : imMask b < 256 := by
  have hlen : (slice b 8 1).length ≤ 1 := by
    rw [slice, List.length_take]
    omega
  exact (leNat_lt _).trans_le (Nat.pow_le_pow_right (by decide) hlen)

/-! ### Values (R233) -/

/-- An entry that a list applies. -/
def fineEntry (c : CruSlot) (v : ValEntry) : Bool := !v.bad && decide (v.idx < imNnz c.image) && (f64 (BitVec.ofNat 64 v.bits)).finite

/-- The status of the entry that stops a list. -/
def ValEntry.fault (v : ValEntry) : Nat := if v.bad then 0x02 else 0x07

theorem State.storeWrite_spares (s : State) (e : DieIx) (c : CruSlot) (off : Nat) (bs : List Byte) (bad : Bool) :
    Spares True s (s.storeWrite e c off bs bad) := State.memWrite_spares_hbm ..

/-- Entries are applied up to the first offending one, and only memory changes. -/
theorem applyValues_spec (c : CruSlot) (es : List ValEntry) (s : State) :
    (applyValues c es s).1 = (es.takeWhile (fineEntry c)).length
      ∧ (applyValues c es s).2.1 = (es.dropWhile (fineEntry c)).head?.map ValEntry.fault ∧ Spares True s (applyValues c es s).2.2 := by
  induction es generalizing s with
  | nil => exact ⟨rfl, rfl, .refl s⟩
  | cons v es ih =>
    by_cases hbad : v.bad = true
    · simp [applyValues, fineEntry, hbad, ValEntry.fault, stPoison, Spares.refl]
    · by_cases hrange : v.idx ≥ imNnz c.image ∨ (!(f64 (BitVec.ofNat 64 v.bits)).finite) = true
      · have hfine : fineEntry c v = false := by
          rcases hrange with h | h
          · simp [fineEntry, Nat.not_lt.mpr h]
          · simp [fineEntry, (Bool.not_eq_true' _).mp h]
        have hstop : applyValues c (v :: es) s = (0, some stFormat, s) := by
          simp only [applyValues, hbad, hrange, Bool.false_eq_true, if_false, if_true]
        simp [hstop, hfine, ValEntry.fault, hbad, stFormat, Spares.refl]
      · have hfine : fineEntry c v = true := by
          obtain ⟨hidx, hfin⟩ := not_or.mp hrange
          simp [fineEntry, hbad, Nat.not_le.mp hidx, by simpa using hfin]
        obtain ⟨hcount, hstop, hspares⟩ := ih (s.storeWrite (dieIx (imDie c.image v.idx)) c (imOff c.image v.idx) (leBytes 8 v.bits) false)
        simp only [applyValues, hbad, hrange, Bool.false_eq_true, if_false, List.takeWhile_cons, List.dropWhile_cons, hfine, if_true, List.length_cons]
        exact ⟨by rw [hcount], hstop, (State.storeWrite_spares ..).trans hspares⟩

/-- The two words of a slot after applied entries: stale factors, and a complete list makes it VALUED (R224, R233). -/
def countedWords (complete : Bool) (w : Word × Word) : Word × Word :=
  let stale := if fld w.1 30 2 = 3 then setBit w.1 27 true else w.1
  (if complete ∧ fld stale 30 2 = 1 then setFld stale 30 2 2 else stale, w.2 + 1)

theorem fld_countedWords (complete : Bool) (w : Word × Word) :
    fld (countedWords complete w).1 30 2 = if complete = true ∧ fld w.1 30 2 = 1 then 2 else fld w.1 30 2 := by
  have hstale : fld (if fld w.1 30 2 = 3 then setBit w.1 27 true else w.1) 30 2 = fld w.1 30 2 := by
    split
    · exact fld_setFld_apart _ _ (.inr (by decide))
    · rfl
  unfold countedWords
  dsimp only
  rw [hstale]
  split
  · exact fld_setFld_same _ _ (by decide)
  · exact hstale

/-- The two words of a slot. -/
def State.slotWords (s : State) (k : Nat) (e : DieIx) : Word × Word := (s.reg e (rCruSlot k 0), s.reg e (rCruSlot k 1))

theorem rCruSlot_ne (k : Nat) : rCruSlot k 0 ≠ rCruSlot k 1 := by
  unfold rCruSlot
  omega

theorem State.slotWords_setState (s : State) (k : Nat) (e : DieIx) (v : Word) :
    (s.setReg e (rCruSlot k 0) v).slotWords k e = (v, s.reg e (rCruSlot k 1)) := by
  rw [State.slotWords, State.reg_setReg, State.reg_setReg_ne _ _ _ _ (fun h => rCruSlot_ne k h.2.symm)]

theorem State.slotWords_setGen (s : State) (k : Nat) (e : DieIx) (v : Word) :
    (s.setReg e (rCruSlot k 1) v).slotWords k e = (s.reg e (rCruSlot k 0), v) := by
  rw [State.slotWords, State.reg_setReg, State.reg_setReg_ne _ _ _ _ (fun h => rCruSlot_ne k h.2)]

theorem State.slotWords_setReg_ne (s : State) (k : Nat) {e a : DieIx} (off : Nat) (v : Word) (h : a ≠ e) :
    (s.setReg a off v).slotWords k e = s.slotWords k e := by
  rw [State.slotWords, State.reg_setReg_ne _ _ _ _ (fun hh => h hh.1.symm), State.reg_setReg_ne _ _ _ _ (fun hh => h hh.1.symm)]
  rfl

/-- The step of `valuesCount` for one die. -/
def State.countOn (s : State) (k : Nat) (complete : Bool) (e : DieIx) : State :=
  let t1 := s.modReg e (rCruSlot k 1) (fun w => w + 1)
  let t2 := if t1.slotState e k = 3 then t1.modReg e (rCruSlot k 0) (fun w => setBit w 27 true) else t1
  if complete ∧ t2.slotState e k = 1 then t2.setRf e (rCruSlot k 0) 30 2 2 else t2

theorem State.slotWords_countOn (s : State) (k : Nat) (complete : Bool) (e : DieIx) :
    (s.countOn k complete e).slotWords k e = countedWords complete (s.slotWords k e) := by
  have hstate : ∀ t : State, t.slotState e k = fld (t.slotWords k e).1 30 2 := fun _ => rfl
  have hgen : (s.modReg e (rCruSlot k 1) (fun w => w + 1)).slotWords k e = ((s.slotWords k e).1, (s.slotWords k e).2 + 1) :=
    State.slotWords_setGen ..
  have hstale : ∀ t : State, (if t.slotState e k = 3 then t.modReg e (rCruSlot k 0) (fun w => setBit w 27 true) else t).slotWords k e
      = (if fld (t.slotWords k e).1 30 2 = 3 then setBit (t.slotWords k e).1 27 true else (t.slotWords k e).1, (t.slotWords k e).2) := by
    intro t
    rw [hstate]
    split
    · exact State.slotWords_setState ..
    · rfl
  have hdone : ∀ t : State, (if complete ∧ t.slotState e k = 1 then t.setRf e (rCruSlot k 0) 30 2 2 else t).slotWords k e
      = (if complete ∧ fld (t.slotWords k e).1 30 2 = 1 then setFld (t.slotWords k e).1 30 2 2 else (t.slotWords k e).1, (t.slotWords k e).2) := by
    intro t
    rw [hstate]
    split
    · exact State.slotWords_setState ..
    · rfl
  rw [State.countOn, hdone, hstale, hgen]
  rfl

theorem State.slotWords_countOn_ne (s : State) (k : Nat) (complete : Bool) {e a : DieIx} (h : a ≠ e) :
    (s.countOn k complete a).slotWords k e = s.slotWords k e := by
  unfold State.countOn
  dsimp only
  repeat' split
  all_goals simp only [State.modReg, State.setRf, State.slotWords_setReg_ne _ k _ _ h]

theorem State.mem_countOn (s : State) (k : Nat) (complete : Bool) (e : DieIx) : (s.countOn k complete e).mem = s.mem := by
  unfold State.countOn
  dsimp only
  repeat' split
  all_goals rfl

theorem State.valuesCount_eq (s : State) (k : Nat) (c : CruSlot) (complete : Bool) :
    s.valuesCount k c complete = (cruDies c.mask).foldl (fun t e => t.countOn k complete e) s := rfl

/-- The end of a VALUES on each die of the mask (R224, R233). -/
theorem State.valuesCount_spec (s : State) (k : Nat) (c : CruSlot) (complete : Bool) :
    (s.valuesCount k c complete).mem = s.mem ∧ ∀ e ∈ cruDies c.mask, (s.valuesCount k c complete).vgen e k = (s.vgen e k + 1) % 2 ^ 32
      ∧ (s.valuesCount k c complete).slotState e k = if complete = true ∧ s.slotState e k = 1 then 2 else s.slotState e k := by
  rw [State.valuesCount_eq]
  refine ⟨fold_inv (fun t => State.mem t = s.mem) _ _ s rfl (fun t e h => (t.mem_countOn k complete e).trans h), fun e he => ?_⟩
  have hwords := foldl_view (f := fun t e => State.countOn t k complete e) (fun e t => State.slotWords t k e) (countedWords complete)
    (fun t e => t.slotWords_countOn k complete e) (fun t e a ha => t.slotWords_countOn_ne k complete ha) (nodup_cruDies c.mask) s e he
  have hstate : ∀ t : State, t.slotState e k = fld (t.slotWords k e).1 30 2 := fun _ => rfl
  have hgen : ∀ t : State, t.vgen e k = fld (t.slotWords k e).2 0 32 := fun _ => rfl
  rw [hstate, hgen, hwords, fld_countedWords]
  refine ⟨?_, rfl⟩
  simp only [countedWords, fld, hgen, BitVec.toNat_add]
  simp

/-! ### The commands (R11, R224, R225, R233) -/

/-- The record of progress of a load whose image is poisoned or clean (R314). -/
def noteImage (r : Running) (ps : List Bool) : Running := if ps.any id then { r with stats := [0x02] } else r

theorem noteImage_desc (r : Running) (ps : List Bool) : (noteImage r ps).desc = r.desc := by
  unfold noteImage
  split <;> rfl

/-- A record of progress after an image has been read; a load that its checks stop reports the failure over the poison (R96). -/
theorem noteImage_kept (r : Running) (ps : List Bool) (hstats : r.stats = []) :
    (noteImage r ps).acking = r.acking ∧ (noteImage r ps).released = r.released
      ∧ pickStatus ((noteImage r ps).result [stFormat]).statuses = 0x07 ∧ (noteImage r ps).hall = r.hall ∧ (noteImage r ps).detail = r.detail := by
  unfold noteImage
  split
  · exact ⟨rfl, rfl, rfl, rfl, rfl⟩
  · exact ⟨rfl, rfl, by rw [Running.result, hstats]; rfl, rfl, rfl⟩

/-- The checks that an image passes, the group, the slot and the store (R225, R229). -/
def State.imageGood (u : State) (d : DieIx) (x : Desc) (b : List Byte) : Bool :=
  imageOk b && decide (imn b 12 2 = u.settings.period) && u.groupOk b && decide (lowBit (BitVec.ofNat 8 (imMask b)) = d.val)
    && (cruDies (imMask b)).all (fun e => (u.cruSlot e (cruSlotOf x)).isNone) && u.storeFits b (dn x 32 8)

/-- The record of a slot that a load fills. -/
def slotOfImage (d : DieIx) (x : Desc) (b : List Byte) : CruSlot :=
  ⟨dJob x, d.val, imMask b, dn x 32 8, imStoreBytes b, BitVec.ofNat 128 (leNat (imFinger b)), 0, [], b, Factors.none⟩

theorem State.loadSlot_eq (u : State) (d : DieIx) (r : Running) (b : List Byte) (ps : List Bool) :
    u.loadSlot d r b ps = (u.loaded d (cruSlotOf r.desc) (slotOfImage d r.desc b) b ps).finish d .cru r (r.result []) := rfl

section
variable {s t u : State} {d : DieIx} {r : Running} {h l : List (List Byte × List Bool)}

/-- A load whose image has been read is judged by its checks, then by the dies' fences, service and commands (R222, R229). -/
theorem State.structLoad_read {n : Nat} {b : List Byte} {ps : List Bool} (hstats : r.stats = []) (haddr : dAddrOk r.desc 24 = true)
    (hres : dn r.desc 40 24 = 0) (hstore : dn r.desc 32 8 < 2 ^ 39) (hserv : rowsService (dAddr r.desc 24) 0 1 256 = false)
    (hdec : s.rowsDecode d (dAddr r.desc 24) 0 1 256 = true) (hhead : s.fetchAll d .cru r [(dAddr r.desc 24, 256)] = .data h t)
    (hn : imn (h.headD ([], [])).1 80 8 = n) (hlo : 256 ≤ n) (hhi : n < 2 ^ 39) (hdec' : t.rowsDecode d (dAddr r.desc 24) 0 1 n = true)
    (hserv' : rowsService (dAddr r.desc 24) 0 1 n = false) (himage : s.fetchAll d .cru r [(dAddr r.desc 24, n)] = .data l u)
    (hl : l.headD ([], []) = (b, ps)) :
    s.structLoad d r =
      if u.imageGood d r.desc b then
        (if u.schedFenced b ∨ u.cruHeld (imMask b) then u.stopEarly d .cru (noteImage r ps) stFenced
         else if !u.cruServes (imMask b) ∨ !u.cruClear d r (imMask b) then s else u.loadSlot d (noteImage r ps) b ps)
      else (u.countService (imageOk b && decide (dn r.desc 32 8 + imStoreBytes b > 0x7E00000000))).stopEarly d .cru (noteImage r ps) stFormat := by
  have hfields : ¬ ((!dAddrOk r.desc 24) = true ∨ dn r.desc 40 24 ≠ 0 ∨ dn r.desc 32 8 ≥ 2 ^ 39) := by
    rintro (hc | hc | hc)
    · simp [haddr] at hc
    · exact hc hres
    · omega
  have hsize : ¬ (n < 256 ∨ n ≥ 2 ^ 39 ∨ (!t.rowsDecode d (dAddr r.desc 24) 0 1 n) = true) := by
    rintro (hc | hc | hc)
    · omega
    · omega
    · simp [hdec'] at hc
  have hq : (if ps.any id = true then { r with stats := r.stats ++ [stPoison] } else r) = noteImage r ps := by
    simp [noteImage, hstats, stPoison]
  have hjudge : (!imageOk b ∨ imn b 12 2 ≠ u.settings.period ∨ !u.groupOk b ∨ lowBit (BitVec.ofNat 8 (imMask b)) ≠ d.val
      ∨ (cruDies (imMask b)).any (fun e => (u.cruSlot e (cruSlotOf r.desc)).isSome) ∨ !u.storeFits b (dn r.desc 32 8))
      ↔ u.imageGood d r.desc b = false := by
    simp only [State.imageGood, Bool.and_eq_false_iff, Bool.not_eq_true', decide_eq_false_iff_not, or_assoc, ne_eq, List.all_eq_false, List.any_eq_true,
      Bool.not_eq_true, Option.isNone_eq_false_iff]
  unfold State.structLoad
  simp only [if_neg hfields, hserv, hdec, hhead, hn, if_neg hsize, hserv', himage, hl, hq, Bool.not_true, Bool.false_eq_true, if_false]
  by_cases hgood : u.imageGood d r.desc b = true
  · rw [if_neg (fun hbad => by rw [hjudge.mp hbad] at hgood; contradiction), if_pos hgood]
  · rw [if_pos (hjudge.mpr (Bool.eq_false_iff.mpr hgood)), if_neg hgood]

/-- A list whose entries have been read goes on with them (R233). -/
theorem State.valuesRun_read {c : CruSlot} (haddr : dAddrOk r.desc 24 = true) (hres : dn r.desc 40 24 < 2) (hn : dn r.desc 32 8 ≠ 0)
    (hslot : s.slotFor d r.desc = some c) :
    let n := dn r.desc 32 8
    let dense := bitAt r.desc (8 * 40)
    let w := if dense then 8 else 16
    let part := min (n - r.rows) (max 1 (s.valuesRate d dense))
    n < 2 ^ 41 → (dense = false → s.slotState d (cruSlotOf r.desc) ≠ 1) → (dense = true → n = imNnz c.image) →
    rowsService (dAddr r.desc 24) 0 1 (n * w) = false → s.rowsDecode d (dAddr r.desc 24) 0 1 (n * w) = true →
    (r.rows = 0 → s.schedFenced c.image = false ∧ s.cruHeld c.mask = false) → s.cruServes c.mask = true →
    s.fetchAll d .cru r [(BitVec.ofNat 52 ((dAddr r.desc 24).toNat + w * r.rows), w * part)] = .data l t →
    s.valuesRun d r = t.valuesWork d r c dense n part (l.headD ([], [])) := by
  intro n dense w part hsize hsparse hdense hserv hdec hfence hserves hfetch
  have hfields : ¬ ((!dAddrOk r.desc 24) = true ∨ dn r.desc 40 24 ≥ 2) := by
    rintro (hc | hc)
    · simp [haddr] at hc
    · omega
  have hlist : ¬ (n ≥ 2 ^ 41 ∨ ((!dense) = true ∧ s.slotState d (cruSlotOf r.desc) = 1) ∨ (dense = true ∧ n ≠ imNnz c.image)) := by
    rintro (hc | ⟨hc, hs⟩ | ⟨hc, hs⟩)
    · omega
    · exact hsparse ((Bool.not_eq_true' _).mp hc) hs
    · exact hs (hdense hc)
  have hopen : ¬ (r.rows = 0 ∧ (s.schedFenced c.image = true ∨ s.cruHeld c.mask = true)) := by
    rintro ⟨hr, hc⟩
    obtain ⟨hf, hh⟩ := hfence hr
    simp [hf, hh] at hc
  have hdata : (match s.fetchAll d .cru r [(BitVec.ofNat 52 ((dAddr r.desc 24).toNat + w * r.rows), w * part)] with
      | .stop st => s.stopEarly d .cru r st
      | .wait t => t
      | .data l t => t.valuesWork d r c dense n part (l.headD ([], []))) = t.valuesWork d r c dense n part (l.headD ([], [])) := by
    rw [hfetch]
  unfold State.valuesRun
  rw [if_neg hfields, if_neg hn, hslot]
  exact (if_neg hlist).trans ((if_neg (by rw [hserv]; decide)).trans ((if_neg (by rw [hdec]; decide)).trans
    ((if_neg hopen).trans ((if_neg (by rw [hserves]; decide)).trans hdata))))

/-- A list that the slot does not take ends with FORMAT_ERROR (R233). -/
theorem State.valuesRun_format {c : CruSlot} (haddr : dAddrOk r.desc 24 = true) (hres : dn r.desc 40 24 < 2) (hn : dn r.desc 32 8 ≠ 0)
    (hslot : s.slotFor d r.desc = some c)
    (hbad : 2 ^ 41 ≤ dn r.desc 32 8 ∨ (bitAt r.desc (8 * 40) = false ∧ s.slotState d (cruSlotOf r.desc) = 1)
      ∨ (bitAt r.desc (8 * 40) = true ∧ dn r.desc 32 8 ≠ imNnz c.image)) : s.valuesRun d r = s.stopEarly d .cru r stFormat := by
  have hfields : ¬ ((!dAddrOk r.desc 24) = true ∨ dn r.desc 40 24 ≥ 2) := by
    rintro (hc | hc)
    · simp [haddr] at hc
    · omega
  unfold State.valuesRun
  rw [if_neg hfields, if_neg hn, hslot]
  exact if_pos (hbad.imp id (Or.imp (And.imp (by simp) id) id))

theorem State.valuesRun_unbound (haddr : dAddrOk r.desc 24 = true) (hres : dn r.desc 40 24 < 2) :
    (dn r.desc 32 8 = 0 → s.valuesRun d r = s.finish d .cru r Result.ok)
    ∧ (dn r.desc 32 8 ≠ 0 → s.slotFor d r.desc = none → s.valuesRun d r = s.stopEarly d .cru r stFormat) := by
  have hres' : ¬ 2 ≤ dn r.desc 40 24 := by omega
  exact ⟨fun hn => by simp [State.valuesRun, haddr, hres', hn], fun hn hslot => by simp [State.valuesRun, haddr, hres', hn, hslot]⟩

/-- What a portion of a list does: it goes on, or the command ends and its slot counts (R233). -/
theorem State.valuesWork_spec (t : State) (c : CruSlot) (dense : Bool) (n part : Nat) (p : List Byte × List Bool) :
    let k := cruSlotOf r.desc
    let es := valEntries dense r.rows part p.1 p.2
    let m := r.rows + (es.takeWhile (fineEntry c)).length
    let stop := (es.dropWhile (fineEntry c)).head?
    (stop = none → m < n → t.valuesWork d r c dense n part p = (applyValues c es t).2.2.setRunning d .cru { r with rows := m })
    ∧ (stop ≠ none ∨ n ≤ m → ∃ v : State,
        t.valuesWork d r c dense n part p = v.finish d .cru r ⟨(stop.map ValEntry.fault).toList, 0, 0, BitVec.ofNat 32 (min m 0xFFFFFFFF)⟩
        ∧ v.mem = (applyValues c es t).2.2.mem
        ∧ (∀ e ∈ cruDies c.mask, v.vgen e k = (t.vgen e k + if m = 0 then 0 else 1) % 2 ^ 32)
        ∧ (∀ e ∈ cruDies c.mask, v.slotState e k =
          if m ≠ 0 ∧ dense = true ∧ stop = none ∧ t.slotState e k = 1 then 2 else t.slotState e k)) := by
  intro k es m stop
  obtain ⟨hcount, hstop, hspares⟩ := applyValues_spec c es t
  have hreg : ∀ e w, (applyValues c es t).2.2.reg e (rCruSlot k w) = t.reg e (rCruSlot k w) := fun e w =>
    hspares.regs trivial e _ (by simp only [rCruSlot, blkCRU, blkLNK]; omega)
  have hvgen : ∀ e, (applyValues c es t).2.2.vgen e k = t.vgen e k := fun e => by simp [State.vgen, State.rf, hreg]
  have hstate : ∀ e, (applyValues c es t).2.2.slotState e k = t.slotState e k := fun e => State.slotState_of_reg (hreg e 0)
  have hnone : (applyValues c es t).2.1.isNone = stop.isNone := by rw [hstop, Option.isNone_map]
  have hwork : t.valuesWork d r c dense n part p =
      if stop.isNone = true ∧ m < n then (applyValues c es t).2.2.setRunning d .cru { r with rows := m }
      else (if m = 0 then (applyValues c es t).2.2 else (applyValues c es t).2.2.valuesCount k c (dense && stop.isNone)).finish d .cru r
        ⟨(stop.map ValEntry.fault).toList, 0, 0, BitVec.ofNat 32 (min m 0xFFFFFFFF)⟩ := by
    rw [← hstop, ← hnone]
    simp only [m, ← hcount]
    rfl
  refine ⟨fun hs hm => by rw [hwork, if_pos ⟨by rw [hs]; rfl, hm⟩],
    fun hend => ⟨if m = 0 then (applyValues c es t).2.2 else (applyValues c es t).2.2.valuesCount k c (dense && stop.isNone), ?_, ?_⟩⟩
  · exact hwork.trans (if_neg (fun h => hend.elim (fun hs => hs (Option.isNone_iff_eq_none.mp h.1)) (fun hm => by omega)))
  · by_cases hm : m = 0
    · rw [if_pos hm]
      refine ⟨rfl, fun e _ => ?_, fun e _ => ?_⟩
      · have : t.vgen e k < 2 ^ 32 := fld_lt ..
        rw [hvgen, if_pos hm, Nat.add_zero, Nat.mod_eq_of_lt this]
      · rw [hstate, if_neg (fun h => h.1 hm)]
    · obtain ⟨hmem, hdies⟩ := State.valuesCount_spec (applyValues c es t).2.2 k c (dense && stop.isNone)
      rw [if_neg hm]
      refine ⟨hmem, fun e he => ?_, fun e he => ?_⟩
      · rw [(hdies e he).1, hvgen, if_neg hm]
      · rw [(hdies e he).2, hstate]
        simp [hm, and_assoc]

end

end Sys2Proof.Machine
end

section
open Sys2Proof Sys2Proof.Machine
open Host (Outcome)

/-- Settles O42: an image is judged and loaded die by die, a slot is emptied die by die, and a list is applied in portions. -/
theorem crucibleStructures : Obligations.CrucibleStructures := by
  unfold Obligations.CrucibleStructures
  refine ⟨?_, ?_, ?_⟩
  · intro s d r hready hruns hstats hstop x haddr hres hstore hserv hdec h t hhead n hlo hhi hdec' hserv' l u himage b q good
    have hexec := exec_cru (i := .structLoad d) (k := fun t => t.structLoad d) hready hruns hstop rfl
    have hload := State.structLoad_read hstats haddr hres hstore hserv hdec hhead rfl hlo hhi hdec' hserv' himage (l := l) (b := b)
      (ps := (l.headD ([], [])).2) rfl
    have hkind := hruns.kind_eq
    obtain ⟨-, -, hack, -⟩ := hruns
    have hq : noteImage r (l.headD ([], [])).2 = q := rfl
    have hqdesc : q.desc = r.desc := noteImage_desc r (l.headD ([], [])).2
    have hgood : good = u.imageGood d r.desc b := rfl
    have hkept := noteImage_kept r (l.headD ([], [])).2 hstats
    rw [hq] at hload hkept
    obtain ⟨hqack, hqrel, hqst, hqhall, hqdetail⟩ := hkept
    rw [hgood]
    refine ⟨fun hbad hrel => ?_, fun hgood hfence hheld hserves hclear => ?_⟩
    · have hspare := State.countService_sparesMem (hi := False) u (imageOk b && decide (dn r.desc 32 8 + imStoreBytes b > 0x7E00000000))
      refine ⟨_, by rw [hexec, hload, if_neg (by rw [hbad]; decide)], ?_, ?_⟩
      · have hfiled := State.finish_filed (s := u) (d := d) (q := .cru) (r := q) (res := q.result [stFormat]) (by rw [hspare.queue])
          (.inl ((hqrel.trans hrel).trans (hspare.stroke d).symm))
        rw [State.stopEarly_of_working (hqack.trans hack)]
        rw [hqst, show (q.result [stFormat]).hallmark = r.hall from hqhall, show (q.result [stFormat]).detail = r.detail from hqdetail] at hfiled
        exact filed_of_desc hqdesc hfiled
      · exact (State.stopEarly_keepsData _ d .cru q stFormat (hqack.trans hack)
          (fun _ => State.claims_of_kind _ d (by rw [hqdesc, hkind]; decide))).mem.trans
          hspare.mem
    · have hfits : dn r.desc 32 8 + imStoreBytes b ≤ 0x7E00000000 ∧ b.length ≤ imStoreBytes b := by
        have := (Bool.and_eq_true_iff.mp hgood).2
        simp only [State.storeFits, Bool.and_eq_true, decide_eq_true_eq] at this
        exact ⟨this.1.1.2, this.1.2⟩
      have hspec := State.loaded_spec u d (cruSlotOf r.desc) (c := slotOfImage d r.desc b) (b := b) (l.headD ([], [])).2 (imMask_lt b)
        (by change dn r.desc 32 8 + 0x1400 + b.length ≤ 2 ^ 39; omega)
      refine ⟨u.loaded d (cruSlotOf r.desc) (slotOfImage d r.desc b) b (l.headD ([], [])).2, ?_, fun e he => ?_⟩
      · rw [hexec, hload, if_pos hgood]
        simp [hfence, hheld, hserves, hclear, State.loadSlot_eq, hqdesc]
      · obtain ⟨hstate, hslot, hbytes⟩ := hspec e he
        exact ⟨hstate, ⟨_, hslot, rfl, rfl, rfl, rfl, rfl, rfl⟩, hbytes⟩
  · intro s d r hready hruns hstats hstop hres
    have hexec := exec_cru (i := .structFree d) (k := fun t => t.structFree d) hready hruns hstop rfl
    refine ⟨fun hslot => ?_, fun c hslot hfence => ?_⟩
    · refine ⟨s.stopEarly d .cru r stFormat, ?_, (hruns.stopEarly hstats (by decide) (.refl s) (by simp)).1⟩
      rw [hexec]
      simp [State.structFree, hres, hslot]
    · obtain ⟨hmem, hothers⟩ := State.freeSlotOf_others s (cruSlotOf r.desc) c
      refine ⟨s.freeSlotOf (cruSlotOf r.desc) c, ?_, hmem, State.freeSlotOf_frees s (cruSlotOf r.desc) c, fun e k _ hk => hothers e k hk⟩
      rw [hexec]
      simp [State.structFree, hres, hslot, hfence]
  · intro s d r hready hruns hstats hstop x k n dense haddr hres
    have hexec := exec_cru (i := .values d) (k := fun t => t.valuesRun d) hready hruns hstop rfl
    obtain ⟨hempty, hunbound⟩ := State.valuesRun_unbound (s := s) (d := d) haddr hres
    have hstopped : Filed s (s.stopEarly d .cru r stFormat) d .cru r 0x07 r.hall r.detail := (hruns.stopEarly hstats (by decide) (.refl s) (by simp)).1
    refine ⟨fun hn => ?_, fun hn hslot => ?_, fun c hn hslot => ⟨fun hbad => ?_, fun hsize hsparse hdense hserv hdec hfence hserves => ?_⟩⟩
    · exact ⟨_, by rw [hexec, hempty hn], (hruns.finish_ok (by simp)).1⟩
    · exact ⟨_, by rw [hexec, hunbound hn hslot], hstopped⟩
    · exact ⟨_, by rw [hexec, State.valuesRun_format haddr hres hn hslot hbad], hstopped⟩
    · intro w part l t hfetch es fine m stop
      have hread := State.valuesRun_read haddr hres hn hslot hsize hsparse hdense hserv hdec hfence hserves hfetch
      obtain ⟨hgoes, hends⟩ := State.valuesWork_spec (d := d) (r := r) t c dense n part (l.headD ([], []))
      rw [hexec, hread]
      refine ⟨fun hs hm => congrArg Outcome.next (hgoes hs hm), fun hend => ?_⟩
      obtain ⟨v, hv, hmem, hvgen, hstate⟩ := hends hend
      exact ⟨v, congrArg Outcome.next hv, hmem, hvgen, hstate⟩
end

section
/-! LEMMAS. What the work of the Crucible and its messages spare, and what of a solve's record stays. -/

namespace Sys2Proof.Machine

/-! ### Messages (R230, R335) -/

theorem State.modLink_sparesMem {hi : Prop} (s : State) (d : DieIx) (l : LinkIx) (f : Port → Port) : SparesMem hi s (s.modLink d l f) :=
  .modDie s d (f := fun x => { x with ports := x.ports.set l (f x.ports[l]) }) (fun _ => rfl) (fun _ => rfl)

theorem State.sendMsg_sparesMem {hi : Prop} (s : State) (d : DieIx) (m : Msg) : SparesMem hi s (s.sendMsg d m) := by
  unfold State.sendMsg State.pumpLink
  dsimp only
  split
  · exact .modDie s d (fun _ => rfl) (fun _ => rfl)
  · split
    · exact .refl s
    · exact (State.modLink_sparesMem ..).trans (.ite (State.modLink_sparesMem ..) (.refl _))

theorem State.sendPhaseDone_sparesMem {hi : Prop} (s : State) (d e : DieIx) (c : CruSlot) (slot phase : Nat) :
    SparesMem hi s (s.sendPhaseDone d e c slot phase) := State.sendMsg_sparesMem ..

/-- A message that is taken from the inbox wakes its die, and changes nothing else. -/
theorem State.takeMsg_wake_sparesMem {hi : Prop} (s : State) (d : DieIx) (m : Msg) : SparesMem hi s ((s.takeMsg d m).wake d) := by
  have htake : SparesMem hi s (s.takeMsg d m) := .modDie s d (fun _ => rfl) (fun _ => rfl)
  exact htake.trans (.ite (.of_dies rfl rfl rfl) (.refl _))

/-! ### The end of a solve (R237 to R239) -/

theorem State.interruptSlot_sparesMem (s : State) (mask k : Nat) : SparesMem False s (s.interruptSlot mask k) :=
  SparesMem.foldl _ (fun t e => .modReg t e _ _ False.elim) s

theorem State.cruInterrupt_sparesMem (s : State) (kind : Nat) (u : CruRun) : SparesMem False s (s.cruInterrupt kind u) :=
  .ite (State.interruptSlot_sparesMem ..) (.refl s)

theorem State.drawFree_sparesMem {hi : Prop} (s : State) : SparesMem hi s s.drawFree := .of_dies rfl rfl rfl

theorem State.putSlot_sparesMem {hi : Prop} (s : State) (e : DieIx) (k : Nat) (c : CruSlot) : SparesMem hi s (s.putSlot e k c) :=
  .modDie s e (f := fun y => { y with slots := (k, c) :: y.slots.filter (fun p => p.1 != k) }) (fun _ => rfl) (fun _ => rfl)

theorem State.setSlot_sparesMem {hi : Prop} (s : State) (k : Nat) (c : CruSlot) : SparesMem hi s (s.setSlot k c) :=
  SparesMem.foldl (f := fun t e => State.putSlot t e k c) _ (fun t e => t.putSlot_sparesMem e k c) s

theorem State.testFirst_sparesMem {hi : Prop} (s : State) (d : DieIx) (l : List AssayUnit) : SparesMem hi s (s.testFirst d l) :=
  .modDie s d (f := fun x => { x with assay := { x.assay with urgent := (x.assay.urgent ++ l).eraseDups } }) (fun _ => rfl) (fun _ => rfl)

theorem State.testCores_sparesMem {hi : Prop} (s : State) (c : CruSlot) : SparesMem hi s (s.testCores c) :=
  SparesMem.foldl _ (fun t e => t.testFirst_sparesMem e _) s

theorem State.retain_spares (s : State) (u : CruRun) (c : CruSlot) (cols : List Byte) : Spares False s (s.retain u c cols) := by
  have hslot := (s.drawFree_sparesMem.trans (State.setSlot_sparesMem (hi := False) s.drawFree u.slot { c with solRhs := u.nrhs, sol := cols })).toSpares
  refine hslot.trans (Spares.foldl _ (fun t e => ?_) _)
  exact (State.storeWrite_spares ..).weaken.trans (SparesMem.toSpares (.modReg _ e _ _ False.elim))

theorem State.quarantine_spares (s : State) (d : DieIx) (core : Nat) (src : Endpoint) (x : Desc) (word : Word)
    (ops : Option (List Byte × List Bool)) (flags : Nat) : Spares False s (s.quarantine d core src x word ops flags) := by
  unfold State.quarantine
  dsimp only
  refine Spares.trans ?_ (SparesMem.toSpares (State.hostEvent_sparesMem ..))
  refine Spares.trans ?_ (SparesMem.toSpares (.logEvent ..))
  refine Spares.trans ?_ (SparesMem.toSpares (.modDie _ d (fun _ => rfl) (fun _ => rfl)))
  refine Spares.trans ?_ (SparesMem.toSpares (.modReg _ d _ _ False.elim))
  refine Spares.trans ?_ (State.memWrite_spares ..).weaken
  split
  · exact (State.memWrite_spares ..).weaken.trans (SparesMem.toSpares (.modReg _ d _ _ False.elim))
  · exact (SparesMem.ite (.refl s) ((SparesMem.modReg s d _ _ False.elim).trans (State.unitEvent_sparesMem ..))).toSpares
  · exact .refl s

/-! ### The terms under which a solve runs (R241, R242) -/

/-- Command, slot, dies, right-hand sides, start, deadline and cutoff of a solve. -/
def CruRun.terms (u : CruRun) : Nat × Nat × Nat × Nat × Stroke × Nat × Nat := (u.ident, u.slot, u.mask, u.nrhs, u.start, u.deadline, u.cutoff)

section
variable (s : State) (d : DieIx) (kind : Nat) (c : CruSlot) (u : CruRun)

theorem State.decideNext_terms (b : List Byte) (old : List DWord) : (s.decideNext d kind b old u).1.terms = u.terms := by
  unfold State.decideNext
  dsimp only
  repeat' split
  all_goals rfl

theorem State.ipmClass_terms (left : Nat) : (s.ipmClass c u left).1.terms = u.terms := by
  unfold State.ipmClass
  dsimp only
  repeat' split
  all_goals rfl

theorem State.checked_terms : (s.checked kind c u).1.terms = u.terms := by
  unfold State.checked
  dsimp only
  split <;> rfl

/-- The end of a class keeps them, whichever class it is. -/
theorem State.endClass_terms (r : Running) : (s.endClass d r c u).1.terms = u.terms := by
  unfold State.endClass
  dsimp only
  split
  · rfl
  · rfl
  · split
    · rfl
    · exact State.decideNext_terms ..
  · rfl
  · exact State.ipmClass_terms ..
  · exact State.checked_terms ..
  · exact State.decideNext_terms ..
  · rfl

theorem State.cruAdvance_terms (n : Nat) (r : Running) : (State.cruAdvance d c n u r s).1.terms = u.terms := by
  induction n generalizing u r s with
  | zero => rfl
  | succ n ih =>
    unfold State.cruAdvance
    dsimp only
    split
    · rfl
    · rw [ih]
      exact State.endClass_terms s d c u r

/-- A solve with a phase still to run waits for it. -/
theorem State.cruAdvance_waits {n : Nat} (r : Running) (h : u.todo ≠ []) : State.cruAdvance d c n u r s = (u, r, s) := by
  cases n with
  | zero => rfl
  | succ n => simp [State.cruAdvance, h]

end

/-! ### Progress that is kept -/

@[simp] theorem State.solve_setSolve (s : State) (d : DieIx) (u : CruRun) : ((s.setSolve d u).die d).solve = some u := by
  simp [State.setSolve]

theorem State.cruStore_solve (s : State) (d : DieIx) (c : CruSlot) (u : CruRun) (r : Running) :
    ∃ v, ((s.cruStore d c u r).die d).solve = some v ∧ v.terms = u.terms :=
  ⟨_, State.solve_setSolve .., State.cruAdvance_terms ..⟩

/-- A solve with a phase still to run is kept as it is. -/
theorem State.cruStore_waits (s : State) (d : DieIx) (c : CruSlot) {u : CruRun} (r : Running) (h : u.todo ≠ []) :
    ((s.cruStore d c u r).die d).solve = some u ∧ (s.cruStore d c u r).mem = s.mem ∧ ∀ e off, (s.cruStore d c u r).reg e off = s.reg e off := by
  have hstore : s.cruStore d c u r = (s.setRunning d .cru r).setSolve d u := by
    unfold State.cruStore
    rw [State.cruAdvance_waits s d c u r h]
  rw [hstore]
  refine ⟨State.solve_setSolve .., rfl, fun e off => ?_⟩
  have hsolve : ((s.setRunning d .cru r).setSolve d u).reg e off = (s.setRunning d .cru r).reg e off :=
    State.reg_modDie _ e d off (f := fun x => { x with solve := some u }) (fun _ => rfl)
  exact hsolve.trans (State.reg_modDie s e d off (fun _ => rfl))

/-- Begun, a solve is on record with its command, slot, dies, right-hand sides and times (R241, R242). -/
theorem State.solveBegin_solve (t : State) (d : DieIx) (r : Running) (c : CruSlot) (l : List (List Byte × List Bool)) :
    ∃ u, ((t.solveBegin d r c l).die d).solve = some u ∧ u.terms = (r.ident, cruSlotOf r.desc, c.mask, solNrhs r.desc, r.started,
      t.solDeadline d r.desc, t.solDeadline d r.desc - solGuard (dKind r.desc) c.image) := by
  unfold State.solveBegin
  dsimp only
  split
  · obtain ⟨v, hv, hterms⟩ := State.cruStore_solve _ d c _ r
    exact ⟨v, hv, hterms.trans (State.decideNext_terms ..)⟩
  · obtain ⟨v, hv, hterms⟩ := State.cruStore_solve _ d c _ r
    exact ⟨v, hv, hterms⟩

end Sys2Proof.Machine
end

section
/-! PROOF. The Crucible's solves: start, phases and tasks, the cutoff, and the end (R223, R230, R242, R243, R248). -/

namespace Sys2Proof.Machine

/-! ### Starting a solve (R11, R241, R242) -/

section
variable {s t : State} {d : DieIx} {r : Running} {c : CruSlot} {l : List (List Byte × List Bool)}

/-- What the descriptor alone, its right-hand sides and its slot decide. -/
theorem State.solveStart_judged :
    (solShape r.desc = false → s.solveStart d r = s.stopEarly d .cru r stFormat)
    ∧ (solShape r.desc = true → solNrhs r.desc = 0 → s.solveStart d r = s.finish d .cru r ⟨[], 0, hallEmpty, 0⟩)
    ∧ (solShape r.desc = true → solNrhs r.desc ≠ 0 → s.slotFor d r.desc = none → s.solveStart d r = s.stopEarly d .cru r stFormat) :=
  ⟨fun hs => by simp [State.solveStart, hs], fun hs hn => by simp [State.solveStart, hs, hn],
    fun hs hn hslot => by simp [State.solveStart, hs, hn, hslot]⟩

/-- A solve whose inputs have been read begins. -/
theorem State.solveStart_read (hshape : solShape r.desc = true) (hn : solNrhs r.desc ≠ 0) (hslot : s.slotFor d r.desc = some c)
    (hfields : solFields r.desc c.image = true)
    (hfactored : dKind r.desc = 0x44 ∨ dKind r.desc = 0x45 ∨ dKind r.desc = 0x46 → s.slotState d (cruSlotOf r.desc) = 3)
    (hguard : solGuard (dKind r.desc) c.image < s.solDeadline d r.desc) (hfence : s.schedFenced c.image = false)
    (hserv : solService r.desc c.image = false) (haddrs : s.solAddrs d r.desc c.image = true) (hheld : s.cruHeld c.mask = false)
    (hserves : s.cruServes c.mask = true)
    (hfetch : s.fetchAll d .cru r (if dKind r.desc = 0x46 then [(dAddr r.desc 24, recBytes (dKind r.desc) c.image (solNrhs r.desc)),
        (dAddr r.desc 32, recBytes (dKind r.desc) c.image (solNrhs r.desc))] else solInputs r.desc c.image) = .data l t)
    (hforward : dKind r.desc = 0x46 → t.forwardOk d r.desc c.image (l.getD 1 ([], [])).1 = true) :
    s.solveStart d r = t.solveBegin d r c l := by
  have hjudge : ¬ ((!solFields r.desc c.image) = true ∨ ((dKind r.desc = 0x44 ∨ dKind r.desc = 0x45 ∨ dKind r.desc = 0x46)
      ∧ s.slotState d (cruSlotOf r.desc) ≠ 3) ∨ s.solDeadline d r.desc ≤ solGuard (dKind r.desc) c.image) := by
    rintro (h | ⟨hk, h⟩ | h)
    · simp [hfields] at h
    · exact h (hfactored hk)
    · omega
  have hmatch : ¬ (dKind r.desc = 0x46 ∧ (!((l.getD 1 ([], [])).2.take 64).any id) = true
      ∧ (!t.forwardOk d r.desc c.image (l.getD 1 ([], [])).1) = true) := by
    rintro ⟨hk, -, h⟩
    rw [hforward hk] at h
    contradiction
  unfold State.solveStart
  simp only [hshape, hn, hslot, if_neg hjudge, hserv, haddrs, hfence, hheld, hserves, hfetch, if_neg hmatch, Bool.not_true, Bool.false_eq_true,
    if_false, or_self]

end

/-! ### The end of a solve (R237, R238, R248) -/

/-- Without requests that wait a command ends at once. -/
theorem State.settle_quiet {s : State} {d : DieIx} {q : QId} {r : Running} (h : s.reqsOf d q r = []) :
    s.settle d q r = s.finish d q r (r.result []) := by
  simp [State.settle, State.lostWrites, State.awaitsAck, h]

theorem State.ite_spares {s t : State} {c : Prop} [Decidable c] (h : Spares False s t) : Spares False s (if c then t else s) := by
  split
  · exact h
  · exact .refl s

theorem State.cruFences_nil (s : State) : s.cruFences [] = s := rfl

/-- The record of a solve that ends: what its check and its poison add. -/
def solveEnded (s : State) (d : DieIx) (r : Running) (c : CruSlot) (u : CruRun) (faults : List Deviation) : Running :=
  let k := checkResiduals (dKind r.desc) c u faults
  let bad := decide (k.1 ≠ 0)
  { r with stats := r.stats ++ u.stats ++ (if bad then [stHallmark] else []) ++ (if u.poisoned then [stPoison] else [])
           hall := hallWord 3 bad (if bad then min u.iters 255 else 0) (devBounded k.2.1 k.2.2) k.1
           detail := solDetail ((u.outcome.map (fun o => o.toNat)).getD (fld s.free 8 8)) (s.cruElapsed d u + 1) }

theorem solveEnded_reports (s : State) (d : DieIx) {r : Running} (c : CruSlot) (u : CruRun) (faults : List Deviation) (hstats : r.stats = []) :
    let k := checkResiduals (dKind r.desc) c u faults
    (solveEnded s d r c u faults).stats = u.stats ++ (if k.1 ≠ 0 then [0x01] else []) ++ (if u.poisoned then [0x02] else [])
      ∧ (solveEnded s d r c u faults).hall
        = hallWord 3 (decide (k.1 ≠ 0)) (if k.1 ≠ 0 then min u.iters 255 else 0) (devBounded k.2.1 k.2.2) k.1
      ∧ (solveEnded s d r c u faults).detail
        = solDetail ((u.outcome.map (fun o => o.toNat)).getD (fld s.free 8 8)) (s.cruElapsed d u + 1) := by
  simp [solveEnded, hstats, stHallmark, stPoison]

/-- Outputs to the own die are written, and the command settles. -/
theorem State.solveEnd_settles {s : State} {d : DieIx} {r : Running} {c : CruSlot} {u : CruRun} (faults : List Deviation) (hfences : u.fences = [])
    (hlocal : ∀ a ∈ [dAddr r.desc 24, dAddr r.desc 32, dAddr r.desc 48], s.isLocal d a = true ∧ (locOf a).region ≤ 1) :
    ∃ v, Spares False s v ∧ s.solveEnd d r c u faults = v.settle d .cru (solveEnded s d r c u faults) := by
  have hput : ∀ {v : State} {a : BoardAddr} (bs : List Byte) (ps : List Bool), a ∈ [dAddr r.desc 24, dAddr r.desc 32, dAddr r.desc 48] →
      Spares False s v → Spares False s (v.put d .cru r a bs ps) := fun {v a} bs ps ha h =>
    h.trans (State.put_spares ((h.isLocal d a).trans (hlocal a ha).1) (hlocal a ha).2 .cru r bs ps)
  have hdrawn : Spares False s s.drawFree.drawFree := (s.drawFree_sparesMem.trans (State.drawFree_sparesMem _)).toSpares
  unfold State.solveEnd
  dsimp only
  rw [hfences, State.cruFences_nil]
  refine ⟨_, ?_, congrArg (State.settle _ d .cru) (by unfold solveEnded; cases u.outcome <;> rfl)⟩
  have hlog : ∀ {v : State}, Spares False s v → Spares False s (if s.cruElapsed d u + 1 - u.deadline = 0 then v
      else v.logEvent d 0x0401 0 (s.cruElapsed d u + 1 - u.deadline)) := by
    intro v h
    split
    · exact h
    · exact h.trans (SparesMem.toSpares (.logEvent ..))
  refine hlog ?_
  have hretain : ∀ {v : State} {q : Prop} [Decidable q] (cols : List Byte), Spares False s v →
      Spares False s (if q then v.retain u c cols else v) := fun cols h => h.trans (State.ite_spares (State.retain_spares _ u c cols))
  refine hretain _ (hput _ _ (by simp) (hput _ _ (by split <;> simp) ?_))
  refine hdrawn.trans (State.ite_spares ?_)
  exact (State.quarantine_spares ..).trans (SparesMem.toSpares (State.testCores_sparesMem ..))

/-- The record of a solve that ends without a solution. -/
def solveFailed (s : State) (d : DieIx) (r : Running) (u : CruRun) (out st : Nat) (hall : Word) : Running :=
  { r with stats := r.stats ++ u.stats ++ (if u.poisoned then [stPoison] else []) ++ [st], hall := hall
           detail := solDetail out (s.cruElapsed d u + 1) }

/-- A solve without a solution writes its result block and settles (R243). -/
theorem State.solveNone_settles {s : State} {d : DieIx} {r : Running} {u : CruRun} (c : CruSlot) (out st : Nat) (hall : Word)
    (hfences : u.fences = []) (hl : s.isLocal d (dAddr r.desc 48) = true) (hr : (locOf (dAddr r.desc 48)).region ≤ 1) :
    ∃ v, Spares False s v ∧ s.solveNone d r c u out st hall = v.settle d .cru (solveFailed s d r u out st hall) := by
  have hcut : Spares False s (s.drawFree.cruInterrupt (dKind r.desc) u) :=
    (s.drawFree_sparesMem.trans (State.cruInterrupt_sparesMem s.drawFree (dKind r.desc) u)).toSpares
  unfold State.solveNone
  dsimp only
  rw [hfences, State.cruFences_nil]
  exact ⟨_, hcut.trans (State.put_spares ((hcut.isLocal d _).trans hl) hr .cru r _ _), rfl⟩

/-- A solve that settles without requests that wait files its record: R38 does not judge its kind. -/
theorem State.settle_filed {s v : State} {d : DieIx} {r q : Running} (hv : Spares False s v) (hreqs : s.reqsOf d .cru r = [])
    (hid : q.ident = r.ident) (hdesc : q.desc = r.desc) (hkind : notJudged (dKind r.desc) = true ∨ r.released = s.stroke d)
    (hrel : q.released = r.released) :
    Filed s (v.settle d .cru q) d .cru r (pickStatus q.stats) q.hall q.detail := by
  have hquiet : v.reqsOf d .cru q = [] := by
    rw [hv.reqsOf, ← hreqs]
    simp [State.reqsOf, hid]
  have hfiled := State.finish_filed (s := s) (t := v) (d := d) (q := .cru) (r := q) (res := q.result []) (by rw [hv.queue])
    (hkind.symm.imp (fun h => by rw [hrel, h, hv.stroke]) (fun h => by rw [hdesc]; exact h))
  rw [State.settle_quiet hquiet]
  simpa only [Running.result, List.append_nil] using filed_of_desc hdesc hfiled

/-! ### The solve in progress (R230) -/

theorem withSolve_of_solving {s : State} {d : DieIx} {r : Running} {u : CruRun} {c : CruSlot} (hsolve : (s.die d).solve = some u)
    (hfind : (s.queue d .cru).running.find? (fun y => decide (y.ident = u.ident)) = some r) (hslot : s.cruSlot d u.slot = some c)
    (hack : r.acking = false) (k : Running → CruSlot → CruRun → State) : withSolve s d k = k r c u := by
  rw [withSolve, hsolve]
  simp [hfind, hslot, hack]

/-- What a step of a solve does to a ready die with one in progress. -/
theorem exec_solve {s : State} {d : DieIx} {r : Running} {u : CruRun} {c : CruSlot} {i : Instr} {k : State → Running → CruSlot → CruRun → State}
    (hready : Ready s d) (hsolve : (s.die d).solve = some u)
    (hfind : (s.queue d .cru).running.find? (fun y => decide (y.ident = u.ident)) = some r) (hslot : s.cruSlot d u.slot = some c)
    (hack : r.acking = false) (hi : exec i s = onDie d s (fun t => withSolve t d (k t))) : exec i s = .next (k s r c u) := by
  rw [hi, onDie_ready hready, withSolve_of_solving hsolve hfind hslot hack]

theorem State.mem_setSolve (s : State) (d : DieIx) (u : CruRun) : (s.setSolve d u).mem = s.mem := rfl

/-- The state of a solve while a phase runs. -/
def CruRun.inPhase (u : CruRun) (c : CruSlot) (now : Stroke) (i : Nat) (rest : List Nat) : CruRun :=
  { u with todo := rest, phase := some i, began := now, frames := c.mask
           tasks := (List.range (imPhase c.image i).count).map (fun j => (imPhase c.image i).first + j) }

/-- The next phase of a solve begins with its tasks; dies without one say so at once (R230). -/
theorem State.phaseBegin_spec {s : State} {d : DieIx} {c : CruSlot} {u : CruRun} (r : Running) {i : Nat} {rest : List Nat} (htodo : u.todo = i :: rest)
    (hphase : u.phase = none) (hdone : u.done = false) (hheld : s.phaseHeld d c u = false) (hcount : (imPhase c.image i).count ≠ 0) :
    SparesMem False (s.setSolve d (u.inPhase c (s.stroke d) i rest)) (s.phaseBegin d r c u) := by
  have hgo : ¬ (u.phase.isSome = true ∨ u.done = true ∨ s.phaseHeld d c u = true) := by simp [hphase, hdone, hheld]
  unfold State.phaseBegin
  rw [htodo]
  dsimp only
  rw [if_neg hgo, if_neg hcount]
  exact SparesMem.foldl (f := fun t e => State.sendPhaseDone t d e c u.slot i) _ (fun t e => t.sendPhaseDone_sparesMem d e c u.slot i) _

/-- A task without a failing hallmark has its effect, and leaves the phase (R230). -/
theorem State.taskDone_spec {s : State} {d : DieIx} {c : CruSlot} {u : CruRun} (r : Running) {i : Nat} (htask : u.tasks.contains i = true)
    (hstop : u.stop = false) (hserves : s.hbmServes (dieIx (imTask c.image i).die) = true)
    (hoff : (imTask c.image i).off ≤ ((s.stroke d).toNat + 2 ^ 40 - u.began.toNat) % 2 ^ 40) :
    let o := s.taskEffect c (imTask c.image i)
    SparesMem False (o.1.setSolve d { u with tasks := u.tasks.filter (fun j => j != i), poison := u.poison || o.2 }) (s.taskDone d i 0 r c u) := by
  intro o
  have hpass : ¬ ((!u.tasks.contains i) = true ∨ u.stop = true ∨ (!s.hbmServes (dieIx (imTask c.image i).die)) = true
      ∨ ((s.stroke d).toNat + 2 ^ 40 - u.began.toNat) % 2 ^ 40 < (imTask c.image i).off) := by
    rintro (h | h | h | h)
    · rw [htask] at h
      contradiction
    · simp [hstop] at h
    · simp [hserves] at h
    · omega
  unfold State.taskDone
  rw [if_neg hpass]
  simp only [ne_eq, not_true_eq_false, and_false, if_false, ge_iff_le, nonpos_iff_eq_zero, OfNat.ofNat_ne_zero]
  exact .ite (.refl _) (State.sendPhaseDone_sparesMem ..)

/-- The poison that a task reports is that of the block it reads. -/
theorem State.taskEffect_bad (s : State) (c : CruSlot) (t : TaskRec) :
    (s.taskEffect c t).2 = s.storeBad (dieIx t.die) c t.src (min (8 * t.rows * t.cols) (c.bytes - t.src)) := by
  unfold State.taskEffect
  dsimp only
  split <;> rfl

/-- A SEND within both stores copies its block (R230). -/
theorem State.taskEffect_send (s : State) {c : CruSlot} {t : TaskRec} (hop : t.op = 6) (hsrc : t.src + 8 * t.rows * t.cols ≤ c.bytes)
    (hdst : t.dst % 2 ^ 61 + 8 * t.rows * t.cols ≤ c.bytes) {k : Nat} (hk : k < 8 * t.rows * t.cols) :
    SMap.get 0 (s.taskEffect c t).1.mem.cells (memKey (dieIx (t.dst / 2 ^ 61)) 0 (c.store + t.dst % 2 ^ 61) + k)
      = SMap.get 0 s.mem.cells (memKey (dieIx t.die) 0 (c.store + t.src) + k) := by
  have hn : min (8 * t.rows * t.cols) (c.bytes - t.src) = 8 * t.rows * t.cols := by omega
  let x := s.peek (memKey (dieIx t.die) 0 (c.store + t.src)) (8 * t.rows * t.cols)
  have hlen : x.length = 8 * t.rows * t.cols := by simp [x, State.peek]
  have hm : min x.length (c.bytes - t.dst % 2 ^ 61) = x.length := by omega
  have hcells : (s.taskEffect c t).1.mem.cells = pokeCells (s.memRead ⟨dieIx t.die, c.job, false⟩ (dieIx t.die) 0 (c.store + t.src)
      (8 * t.rows * t.cols)).state.mem.cells (memKey (dieIx (t.dst / 2 ^ 61)) 0 (c.store + t.dst % 2 ^ 61)) x := by
    unfold State.taskEffect
    dsimp only
    rw [if_pos hop, hn, State.memWrite_cells]
    change pokeCells _ _ (x.take (min x.length (c.bytes - t.dst % 2 ^ 61))) = _
    rw [hm, List.take_length]
  rw [hcells, get_pokeCells_at _ _ _ (by omega)]
  simp [x, State.peek, hk]

theorem State.slots_takeMsg_wake (s : State) (d : DieIx) (m : Msg) : (((s.takeMsg d m).wake d).die d).slots = (s.die d).slots := by
  have htake : ((s.takeMsg d m).die d).slots = (s.die d).slots := by simp [State.takeMsg]
  unfold State.wake
  split
  · exact htake
  · exact htake

/-- A completion frame that is not dropped reaches the solve in progress. -/
theorem exec_phaseDone {s : State} {d : DieIx} {m : Msg} (hready : Ready s d) (hkind : m.mkind = 0x38)
    (hkeep : ((s.takeMsg d m).wake d).dropRequest d m = none) :
    exec (.phaseDone d m) s = .next (withSolve ((s.takeMsg d m).wake d) d (fun r c u =>
      if leNat (slice m.spec 0 2) = u.slot ∧ u.phase = some (leNat (slice m.spec 4 4)) then
        ((s.takeMsg d m).wake d).phaseFrame d (dieIx (m.src.toNat / 64)) r c u
      else (s.takeMsg d m).wake d)) := by
  change execPhaseDone d m s = _
  rw [execPhaseDone, onDie_ready hready]
  simp only [hkind, hkeep, ne_eq, not_true_eq_false, if_false]

/-- A completion frame that leaves others out takes its die off the phase (R230, R231). -/
theorem State.phaseFrame_spec {s : State} {d e : DieIx} {c : CruSlot} {u : CruRun} (r : Running) {i : Nat} (hphase : u.phase = some i)
    (hframe : inMask u.frames e.val = true) (htasks : u.tasks.any (fun j => decide ((imTask c.image j).die = e.val)) = false)
    (hleft : u.frames - 2 ^ e.val ≠ 0) : s.phaseFrame d e r c u = s.setSolve d { u with frames := u.frames - 2 ^ e.val } := by
  have hgo : ¬ ((!inMask u.frames e.val) = true ∨ u.tasks.any (fun j => decide ((imTask c.image j).die = e.val)) = true) := by simp [hframe, htasks]
  unfold State.phaseFrame
  rw [hphase]
  dsimp only
  rw [if_neg hgo, if_pos hleft]

/-! ### The cutoff (R242, R243) -/

/-- A solve whose phases are dropped and whose next class is begun. -/
def CruRun.resumed (u : CruRun) (c : CruSlot) : CruRun :=
  { u with phase := none, tasks := [], frames := 0, ready := none, todo := imClass c.image (u.classes.headD 9) }

theorem State.reg_cruInterrupt (s : State) (kind : Nat) (u : CruRun) (d : DieIx) {off : Nat} (ho : off < blkCRU + 0x400) :
    (s.cruInterrupt kind u).reg d off = s.reg d off := by
  have hstep : ∀ (t : State) (e : DieIx) (f : Word → Word), (t.modReg e (rCruSlot u.slot 0) f).reg d off = t.reg d off := fun t e f =>
    State.reg_setReg_ne t e d _ (fun h => by have := h.2; unfold rCruSlot at this; omega)
  unfold State.cruInterrupt State.interruptSlot
  split
  · exact fold_inv (fun t => State.reg t d off = s.reg d off) _ _ s rfl (fun t e h => (hstep t e _).trans h)
  · rfl

/-- The state in which the cutoff of a solve is taken: the event is counted, and an interrupted factorisation is dropped (R242, R253). -/
def State.cut (s : State) (d : DieIx) (kind : Nat) (u : CruRun) : State := (s.addSat d rCruEvent 16 16 1).drawFree.cruInterrupt kind u

theorem State.cut_sparesMem (s : State) (d : DieIx) (kind : Nat) (u : CruRun) : SparesMem False s (s.cut d kind u) :=
  ((SparesMem.addSat s d _ _ _ _ False.elim).trans (State.drawFree_sparesMem _)).trans (State.cruInterrupt_sparesMem ..)

theorem State.rf_cut (s : State) (d : DieIx) (kind : Nat) (u : CruRun) :
    (s.cut d kind u).rf d rCruEvent 16 16 = min (s.rf d rCruEvent 16 16 + 1) 0xFFFF := by
  have hreg : (s.cut d kind u).reg d rCruEvent = (s.addSat d rCruEvent 16 16 1).reg d rCruEvent := State.reg_cruInterrupt _ kind u d (by decide)
  rw [State.rf, hreg]
  exact State.rf_addSat s d rCruEvent 1 (by decide)

theorem fallbackOf_none {kind : Nat} {c : CruSlot} {u : CruRun} (h : fallbackOf kind c u [] = none) (z : List Nat) : fallbackOf kind c u z = none := by
  unfold fallbackOf at h ⊢
  cases hw : u.warm with
  | some w => simp [hw] at h
  | none =>
    rw [hw] at h
    dsimp only at h ⊢
    split at h
    · contradiction
    · rename_i hn
      rw [if_neg hn]

section
variable {s : State} {d : DieIx} {c : CruSlot} {u : CruRun} (r : Running)

/-- With an iterate a solve goes to its closing classes (R242). -/
theorem State.cutoff_closes (hclosing : u.closing = false) (hdone : u.done = false) (hcut : u.cutoff ≤ s.cruElapsed d u) (hfirst : u.first = true) :
    s.cutoff d r c u =
      (s.cut d (dKind r.desc) u).cruStore d c ((closeWith (dKind r.desc) 3 { u with stats := u.stats ++ [stDeadline] }).resumed c) r := by
  have hgo : ¬ (u.done = true ∨ s.cruElapsed d u < u.cutoff) := by simp [hdone, Nat.not_lt.mpr hcut]
  unfold State.cutoff
  dsimp only
  rw [if_neg hgo, if_neg (by rw [hclosing]; decide), if_pos hfirst]
  rfl

/-- Without an iterate and without a fallback it ends with NO_ITERATE (R243). -/
theorem State.cutoff_none (hclosing : u.closing = false) (hdone : u.done = false) (hcut : u.cutoff ≤ s.cruElapsed d u) (hfirst : u.first = false)
    (hfall : fallbackOf (dKind r.desc) c u [] = none) :
    s.cutoff d r c u = (s.cut d (dKind r.desc) u).solveNone d r c u 5 stNoIterate 0 := by
  have hgo : ¬ (u.done = true ∨ s.cruElapsed d u < u.cutoff) := by simp [hdone, Nat.not_lt.mpr hcut]
  unfold State.cutoff
  dsimp only
  rw [if_neg hgo, if_neg (by rw [hclosing]; decide), if_neg (by rw [hfirst]; decide), fallbackOf_none hfall]
  rfl

/-- A gradient that is not complete is abandoned, and the class after it begins (R242). -/
theorem State.cutoff_gradient (hclosing : u.closing = true) (hdone : u.done = false) (hlate : s.gradientLate d u = true) :
    s.cutoff d r c u =
      (s.addSat d rCruEvent 16 16 1).cruStore d c (({ u with classes := u.classes.drop 1, stats := u.stats ++ [stDeadline] } : CruRun).resumed c) r := by
  have hnow : s.cruElapsed d u = u.cutoff := by
    have := (Bool.and_eq_true_iff.mp hlate).2
    simpa using this
  have hgo : ¬ (u.done = true ∨ s.cruElapsed d u < u.cutoff) := by simp [hdone, hnow]
  unfold State.cutoff
  dsimp only
  rw [if_neg hgo, if_pos hclosing, if_pos hlate]
  rfl

end

/-! ### Claims (R223) -/

theorem rCruClaim_ne : rCruClaim0 ≠ rCruClaim1 := by decide

/-- A claim sets both words of each die of the mask. -/
theorem State.claimCores_spec (s t : State) (d : DieIx) (k mask : Nat) : ∀ m ∈ cruDies mask,
    let u := (cruDies mask).foldl (fun t e =>
      (t.setReg e rCruClaim0 (BitVec.ofNat 32 (s.cruCores d k e.val))).setReg e rCruClaim1 (BitVec.ofNat 32 (s.cruCores d k e.val / 2 ^ 32))) t
    u.reg m rCruClaim0 = BitVec.ofNat 32 (s.cruCores d k m.val) ∧ u.reg m rCruClaim1 = BitVec.ofNat 32 (s.cruCores d k m.val / 2 ^ 32) := by
  refine foldl_each (P := fun m u => State.reg u m rCruClaim0 = BitVec.ofNat 32 (s.cruCores d k m.val)
    ∧ State.reg u m rCruClaim1 = BitVec.ofNat 32 (s.cruCores d k m.val / 2 ^ 32)) (fun u m => ⟨?_, State.reg_setReg ..⟩)
    (fun u m e hne h => ⟨?_, ?_⟩) _ t
  · rw [State.reg_setReg_ne _ _ _ _ (fun h => rCruClaim_ne h.2), State.reg_setReg]
  · rw [State.reg_setReg_ne _ _ _ _ (fun h => hne h.1.symm), State.reg_setReg_ne _ _ _ _ (fun h => hne h.1.symm)]
    exact h.1
  · rw [State.reg_setReg_ne _ _ _ _ (fun h => hne h.1.symm), State.reg_setReg_ne _ _ _ _ (fun h => hne h.1.symm)]
    exact h.2

/-- The slots and registers of a die are not its Crucible queue's. -/
theorem State.setCru_others (s : State) (d : DieIx) (x : CmdQueue) :
    (∀ e, ((s.setQueue d .cru x).die e).slots = (s.die e).slots) ∧ ∀ e off, (s.setQueue d .cru x).reg e off = s.reg e off := by
  refine ⟨fun e => ?_, fun e off => State.reg_modDie s e d off (fun _ => rfl)⟩
  by_cases he : e = d
  · subst he; simp [State.setQueue]
  · exact congrArg Die.slots (State.die_modDie_ne s d e _ he)

/-- What a claim depends on: slots and slot registers (R223). -/
theorem State.claim_of_parts {s t : State} {d : DieIx} {x : Desc} (hslots : (t.die d).slots = (s.die d).slots)
    (hreg : ∀ off, t.reg d off = s.reg d off) (hclaims : s.claims d x = true) :
    t.claims d x = true ∧ t.cruMask d x = s.cruMask d x ∧ ∀ k e, t.cruCores d k e = s.cruCores d k e := by
  have hkind : dKind x ≠ 0x40 := by
    intro h
    rw [State.claims_of_kind s d (by omega)] at hclaims
    contradiction
  refine ⟨by rw [State.claims_of_slots hslots, hclaims], ?_, fun k e => by simp [State.cruCores, hslots]⟩
  simp [State.cruMask, hkind, State.rf, hreg]

/-- A solve that can start claims its cores on every die of its mask (R223). -/
theorem State.startHead_claims {s : State} {d : DieIx} {e : QEntry} {es : List QEntry} (hentries : (s.queue d .cru).entries = e :: es)
    (hpoison : e.poison = false) (hheader : headerOk .cru (s.stroke d) e.desc = true) (hparked : s.parked d = false) (habort : e.aborted = false)
    (hcan : s.canStart d .cru e = true) (hclaims : s.claims d e.desc = true) :
    ∃ t, s.startHead d .cru = some t ∧ ∀ m ∈ cruDies (s.cruMask d e.desc),
      t.reg m rCruClaim0 = BitVec.ofNat 32 (s.cruCores d (cruSlotOf e.desc) m.val)
      ∧ t.reg m rCruClaim1 = BitVec.ofNat 32 (s.cruCores d (cruSlotOf e.desc) m.val / 2 ^ 32) := by
  have hreset : s.resets d .cru (dKind e.desc) = false := by
    simp only [State.canStart, Bool.and_eq_true, Bool.not_eq_true'] at hcan
    exact hcan.1.2
  let popped := s.setQueue d .cru ({ s.queue d .cru with entries := es }).refill
  let r : Running := ⟨e.ident, e.desc, e.released.getD (s.stroke d), s.stroke d, e.poison, 0, 0, [], 0, 0, false, none, none, s.startGens .cru, e.fw,
    s.reg d rColAlg⟩
  let begun := popped.modQueue d .cru (fun y => { y with running := y.running ++ [r] })
  have hstart : s.startHead d .cru = some (begun.claimAt d .cru e.desc) := by
    simp [State.startHead, hentries, hreset, hpoison, hheader, hparked, habort, hcan, begun, popped, r]
  obtain ⟨hslots1, hreg1⟩ := State.setCru_others s d ({ s.queue d .cru with entries := es }).refill
  obtain ⟨hslots2, hreg2⟩ := State.setCru_others popped d { popped.queue d .cru with running := (popped.queue d .cru).running ++ [r] }
  obtain ⟨hclaims', hmask, hcores⟩ := State.claim_of_parts (t := begun) ((hslots2 d).trans (hslots1 d))
    (fun off => (hreg2 d off).trans (hreg1 d off)) hclaims
  have hclaim : begun.claimAt d .cru e.desc = begun.claimCores d (cruSlotOf e.desc) (s.cruMask d e.desc) := by
    rw [← hmask]
    exact if_pos hclaims'
  refine ⟨_, hstart, fun m hm => ?_⟩
  rw [hclaim, ← hcores]
  exact State.claimCores_spec begun begun d (cruSlotOf e.desc) (s.cruMask d e.desc) m hm

end Sys2Proof.Machine
end

section
open Sys2Proof Sys2Proof.Machine
open Host (Outcome)

/-- Settles O43: a solve's start, its end, its phases, tasks and cutoff, and its claim, each by what its step does. -/
theorem crucibleSolves : Obligations.CrucibleSolves := by
  unfold Obligations.CrucibleSolves
  refine ⟨?_, ?_, ?_⟩
  · intro s d faults r kind i hkind hready hruns hstats x
    have hexec : s.cruStopping d r = false → exec i s = .next (s.solveRun d faults r) := by
      intro hstop
      rcases hkind with ⟨rfl, rfl⟩ | ⟨rfl, rfl⟩ | ⟨rfl, rfl⟩ | ⟨rfl, rfl⟩ | ⟨rfl, rfl⟩ <;>
        exact exec_cru (k := fun t => t.solveRun d faults) hready hruns hstop rfl
    have hjudged : notJudged (dKind r.desc) = true := by
      rw [hruns.kind_eq]
      rcases hkind with ⟨rfl, -⟩ | ⟨rfl, -⟩ | ⟨rfl, -⟩ | ⟨rfl, -⟩ | ⟨rfl, -⟩ <;> decide
    have hdk : dKind r.desc = kind := hruns.kind_eq
    clear hkind
    subst hdk
    obtain ⟨-, -, hack, hrel⟩ := hruns
    refine ⟨fun hnone => ?_, fun u c hsolve hdone hstop hid hslot hfences hreqs hlocal => ?_⟩
    · have hrun : exec i s = .next (s.solveStart d r) := by
        rw [hexec (State.cruStopping_of_idle hstats hnone), State.solveRun, hnone]
      have hstopped : Filed s (s.stopEarly d .cru r stFormat) d .cru r 0x07 r.hall r.detail :=
        State.stopEarly_filed hack hstats (by decide) rfl (.inl hrel)
      obtain ⟨hshape, hempty, hunbound⟩ := State.solveStart_judged (s := s) (d := d) (r := r)
      rw [hrun]
      refine ⟨fun h => ?_, fun h hn => ?_, fun h hn hslot => ?_, fun c h hn hslot hf hfac hg hfence hserv haddr hheld hserves l t hfetch hfwd => ?_⟩
      · exact ⟨_, by rw [hshape h], hstopped⟩
      · exact ⟨_, by rw [hempty h hn], State.finish_filed rfl (.inl hrel)⟩
      · exact ⟨_, by rw [hunbound h hn hslot], hstopped⟩
      · obtain ⟨u, hu, hterms⟩ := State.solveBegin_solve t d r c l
        refine ⟨by rw [State.solveStart_read h hn hslot hf hfac hg hfence hserv haddr hheld hserves hfetch hfwd], u, hu, ?_⟩
        simpa only [CruRun.terms, Prod.mk.injEq] using hterms
    · intro k out
      have hgo : s.cruStopping d r = false := by simp [State.cruStopping, hstats, hsolve, hstop]
      obtain ⟨v, hv, hend⟩ := State.solveEnd_settles (c := c) faults hfences hlocal
      refine ⟨s.solveEnd d r c u faults, ?_, ?_⟩
      · rw [hexec hgo, State.solveRun, hsolve]
        dsimp only
        rw [hslot]
        simp [hdone, hid]
      · rw [hend]
        have hfiled := State.settle_filed (q := solveEnded s d r c u faults) hv hreqs rfl rfl (.inl hjudged) rfl
        obtain ⟨hst, hhall, hdetail⟩ := solveEnded_reports s d c u faults hstats
        rw [hst, hhall, hdetail] at hfiled
        exact hfiled
  · intro s d r u c hready hsolve hfind hslot hack
    refine ⟨fun i rest htodo hphase hdone hheld hcount => ?_, fun i htask hstop => ?_, fun m i hphase hkind hkeep hspec hnum => ?_,
      fun hclosing hdone hcut => ⟨fun hfirst hclass => ?_, fun hfirst hfall hstats hustats hclean hfences hrel hreqs hl hr => ?_⟩,
      fun hclosing hdone hlate hclass => ?_⟩
    · have hspec := State.phaseBegin_spec r htodo hphase hdone hheld hcount
      exact ⟨s.phaseBegin d r c u, u.inPhase c (s.stroke d) i rest,
        exec_solve (k := fun t => t.phaseBegin d) hready hsolve hfind hslot hack rfl, (hspec.solve d).trans (State.solve_setSolve ..), hspec.mem,
        rfl, rfl, rfl, rfl, rfl⟩
    · intro t hserves hoff
      have hspec := State.taskDone_spec r htask hstop hserves hoff
      refine ⟨s.taskDone d i 0 r c u, _, exec_solve (k := fun t => t.taskDone d i 0) hready hsolve hfind hslot hack rfl,
        (hspec.solve d).trans (State.solve_setSolve ..), rfl, ?_, hspec.mem, fun hop hsrc hdst k hk => ?_⟩
      · exact congrArg (u.poison || ·) (State.taskEffect_bad s c (imTask c.image i))
      · rw [hspec.mem, State.mem_setSolve]
        exact State.taskEffect_send s hop hsrc hdst hk
    · intro e hframe htasks hleft
      have hv : SparesMem False s ((s.takeMsg d m).wake d) := State.takeMsg_wake_sparesMem ..
      have hsolving := (hv.solve d).trans hsolve
      have hslots := (State.cruSlot_of_slots (State.slots_takeMsg_wake s d m) u.slot).trans hslot
      refine ⟨((s.takeMsg d m).wake d).setSolve d { u with frames := u.frames - 2 ^ e.val }, ?_, State.solve_setSolve .., hv.mem⟩
      rw [exec_phaseDone hready hkind hkeep, withSolve_of_solving hsolving (by rw [hv.queue]; exact hfind) hslots hack,
        if_pos ⟨hspec, by rw [hphase, hnum]⟩, State.phaseFrame_spec r hphase hframe htasks hleft]
    · have hrun := State.cutoff_closes (s := s) (d := d) (c := c) r hclosing hdone hcut hfirst
      have htodo : ((closeWith (dKind r.desc) 3 { u with stats := u.stats ++ [stDeadline] }).resumed c).todo ≠ [] := by
        change imClass c.image ((if dKind r.desc = 0x46 then [6, 5] else [5] : List Nat).headD 9) ≠ []
        split <;> simp_all
      obtain ⟨hstored, hmem, hreg⟩ := State.cruStore_waits (s.cut d (dKind r.desc) u) d c r htodo
      refine ⟨s.cutoff d r c u, _, exec_solve (k := fun t => t.cutoff d) hready hsolve hfind hslot hack rfl, by rw [hrun]; exact hstored,
        rfl, rfl, rfl, rfl, rfl, rfl, ?_, ?_⟩
      · rw [hrun, hmem, (s.cut_sparesMem d (dKind r.desc) u).mem]
      · rw [hrun, State.rf, hreg]
        exact s.rf_cut d (dKind r.desc) u
    · have hcutState := (s.cut_sparesMem d (dKind r.desc) u).toSpares
      have hrun := State.cutoff_none (s := s) (d := d) r hclosing hdone hcut hfirst hfall
      obtain ⟨v, hv, hend⟩ := State.solveNone_settles (s := s.cut d (dKind r.desc) u) (d := d) (r := r) c 5 stNoIterate 0 hfences
        ((hcutState.isLocal d _).trans hl) hr
      refine ⟨s.cutoff d r c u, exec_solve (k := fun t => t.cutoff d) hready hsolve hfind hslot hack rfl, ?_⟩
      have hfiled := State.settle_filed (q := solveFailed (s.cut d (dKind r.desc) u) d r u 5 stNoIterate 0) (hcutState.trans hv) hreqs rfl rfl
        (.inr hrel) rfl
      have hstats' : (solveFailed (s.cut d (dKind r.desc) u) d r u 5 stNoIterate 0).stats = [0x10] := by
        simp [solveFailed, hstats, hustats, hclean, stNoIterate]
      have hstrokes : (s.cut d (dKind r.desc) u).cruElapsed d u = s.cruElapsed d u := by simp only [State.cruElapsed, hcutState.stroke]
      have hdetail : (solveFailed (s.cut d (dKind r.desc) u) d r u 5 stNoIterate 0).detail = solDetail 5 (s.cruElapsed d u + 1) := by
        simp only [solveFailed, hstrokes]
      have hpick : pickStatus [0x10] = 0x10 := by decide
      rw [hrun, hend]
      rw [hstats', hpick, hdetail] at hfiled
      exact hfiled
    · have hrun := State.cutoff_gradient (s := s) (d := d) (c := c) r hclosing hdone hlate
      obtain ⟨hstored, hmem, -⟩ := State.cruStore_waits (s.addSat d rCruEvent 16 16 1) d c
        (u := ({ u with classes := u.classes.drop 1, stats := u.stats ++ [stDeadline] } : CruRun).resumed c) r hclass
      refine ⟨s.cutoff d r c u, _, exec_solve (k := fun t => t.cutoff d) hready hsolve hfind hslot hack rfl, by rw [hrun]; exact hstored,
        rfl, rfl, rfl, rfl, ?_⟩
      rw [hrun, hmem]
      rfl
  · intro s d e es hentries hpoison hheader hparked habort hcan hclaims
    exact State.startHead_claims hentries hpoison hheader hparked habort hcan hclaims
end

section
/-! LEMMAS. What one command and one step answer, and what they keep, from the law of each command (Laws/Keeps). -/

namespace Sys2Proof.Machine

/-- A lawful answer is a next state or the fault that names an absent die (R13; log entry 5). -/
theorem Lawful.next_or_absentDie {r : State} {o : Host.Outcome State Fault Refusal} (h : Lawful r o) :
    (∃ t, o = .next t) ∨ ∃ d : DieIx, r.present d = false ∧ o = .fault (.absentDie d) := by
  cases o with
  | next t => exact .inl ⟨t, rfl⟩
  | fault f =>
    obtain ⟨d, habsent, rfl⟩ := h
    exact .inr ⟨d, habsent, rfl⟩
  | refused _ => exact h.elim

/-- Where the variant populates every die, a lawful answer is a next state. -/
theorem Lawful.exists_next {r : State} {o : Host.Outcome State Fault Refusal} (h : Lawful r o) (hall : ∀ d, r.present d = true) :
    ∃ t, o = .next t := by
  obtain hnext | ⟨d, habsent, -⟩ := h.next_or_absentDie
  · exact hnext
  · exact absurd (hall d) (by simp [habsent])

/-- Every command of the table, under every operand, answers lawfully. That one whose event cannot occur, or whose operands are out of
bounds, has an effect like any other is the model's own choice (log entries 7 and 126). -/
theorem exec_lawful (i : Instr) (s : State) : Lawful s (exec i s) := by
  cases i with
  | strokeBoundary => exact execStrokeBoundary_keeps ..
  | lossOfLock => exact execLossOfLock_keeps ..
  | relock => exact execRelock_keeps ..
  | strokeFrame => exact execStrokeFrame_keeps ..
  | strokeIn => exact execStrokeIn_keeps ..
  | backupTakeover => exact execBackupTakeover_keeps ..
  | freeRun => exact execFreeRun_keeps ..
  | throttleNotice => exact execThrottleNotice_keeps ..
  | presence => exact execPresence_keeps ..
  | absenceDeclared => exact execAbsenceDeclared_keeps ..
  | absenceNotice => exact execAbsenceNotice_keeps ..
  | strokeWrap => exact execStrokeWrap_keeps ..
  | queueWindowWrite => exact execQueueWindowWrite_keeps ..
  | partialDescriptorDiscard => exact execPartialDescriptorDiscard_keeps ..
  | completionRecord => exact execCompletionRecord_keeps ..
  | kernel => exact execKernel_keeps ..
  | integerInstruction => exact execIntegerInstruction_keeps ..
  | scalarLoad => exact execScalarLoad_keeps ..
  | scalarStore => exact execScalarStore_keeps ..
  | conditionalBranch => exact execConditionalBranch_keeps ..
  | call => exact execCall_keeps ..
  | callr => exact execCallr_keeps ..
  | scalarFp => exact execScalarFp_keeps ..
  | ctlrd => exact execCtlrd_keeps ..
  | ctlwr => exact execCtlwr_keeps ..
  | cpush => exact execCpush_keeps ..
  | waitstroke => exact execWaitstroke_keeps ..
  | brk => exact execBrk_keeps ..
  | endK => exact execEndK_keeps ..
  | resume => exact execResume_keeps ..
  | coreCrBase => exact execCoreCrBase_keeps ..
  | coreCrCtl => exact execCoreCrCtl_keeps ..
  | coreCrPtr => exact execCoreCrPtr_keeps ..
  | copy => exact execCopy_keeps ..
  | fill => exact execFill_keeps ..
  | replyTimeout => exact execReplyTimeout_keeps ..
  | snap => exact execSnap_keeps ..
  | reseed => exact execReseed_keeps ..
  | load => exact execLoad_keeps ..
  | mul => exact execMul_keeps ..
  | diag => exact execDiag_keeps ..
  | drainPop => exact execDrainPop_keeps ..
  | tableWaitTimeout => exact execTableWaitTimeout_keeps ..
  | mxwait => exact execMxwait_keeps ..
  | mxlat => exact execMxlat_keeps ..
  | setvl => exact execSetvl_keeps ..
  | setvfull => exact execSetvfull_keeps ..
  | vstatrd => exact execVstatrd_keeps ..
  | vstatwr => exact execVstatwr_keeps ..
  | vslice => exact execVslice_keeps ..
  | vfence => exact execVfence_keeps ..
  | vld => exact execVld_keeps ..
  | vst => exact execVst_keeps ..
  | vldff => exact execVldff_keeps ..
  | vfadd => exact execVfadd_keeps ..
  | vfsub => exact execVfsub_keeps ..
  | vfmul => exact execVfmul_keeps ..
  | vfdiv => exact execVfdiv_keeps ..
  | vfsqrt => exact execVfsqrt_keeps ..
  | vfmin => exact execVfmin_keeps ..
  | vfmax => exact execVfmax_keeps ..
  | vffma => exact execVffma_keeps ..
  | vffms => exact execVffms_keeps ..
  | vffnma => exact execVffnma_keeps ..
  | vfabs => exact execVfabs_keeps ..
  | vfneg => exact execVfneg_keeps ..
  | vfsgnj => exact execVfsgnj_keeps ..
  | vfeq => exact execVfeq_keeps ..
  | vflt => exact execVflt_keeps ..
  | vfle => exact execVfle_keeps ..
  | vfunord => exact execVfunord_keeps ..
  | vf2i => exact execVf2i_keeps ..
  | vi2f => exact execVi2f_keeps ..
  | vfsumt => exact execVfsumt_keeps ..
  | vfsums => exact execVfsums_keeps ..
  | vfmaxr => exact execVfmaxr_keeps ..
  | vfminr => exact execVfminr_keeps ..
  | vadd => exact execVadd_keeps ..
  | vsub => exact execVsub_keeps ..
  | vmul => exact execVmul_keeps ..
  | vand => exact execVand_keeps ..
  | vor => exact execVor_keeps ..
  | vxor => exact execVxor_keeps ..
  | vsll => exact execVsll_keeps ..
  | vsrl => exact execVsrl_keeps ..
  | vsra => exact execVsra_keeps ..
  | vmin => exact execVmin_keeps ..
  | vmax => exact execVmax_keeps ..
  | vminu => exact execVminu_keeps ..
  | vmaxu => exact execVmaxu_keeps ..
  | veq => exact execVeq_keeps ..
  | vlt => exact execVlt_keeps ..
  | vltu => exact execVltu_keeps ..
  | vsumt => exact execVsumt_keeps ..
  | vmaxr => exact execVmaxr_keeps ..
  | vminr => exact execVminr_keeps ..
  | vsel => exact execVsel_keeps ..
  | vcopy => exact execVcopy_keeps ..
  | vindex => exact execVindex_keeps ..
  | vtog => exact execVtog_keeps ..
  | vshu => exact execVshu_keeps ..
  | vshd => exact execVshd_keeps ..
  | vpack => exact execVpack_keeps ..
  | pand => exact execPand_keeps ..
  | por => exact execPor_keeps ..
  | pxor => exact execPxor_keeps ..
  | pandn => exact execPandn_keeps ..
  | pset => exact execPset_keeps ..
  | pclr => exact execPclr_keeps ..
  | ppop => exact execPpop_keeps ..
  | plow => exact execPlow_keeps ..
  | push => exact execPush_keeps ..
  | pop => exact execPop_keeps ..
  | clear => exact execClear_keeps ..
  | rechunk => exact execRechunk_keeps ..
  | tableLoad => exact execTableLoad_keeps ..
  | bilCtxCfg => exact execBilCtxCfg_keeps ..
  | bilCtxBase => exact execBilCtxBase_keeps ..
  | bilCtxSize => exact execBilCtxSize_keeps ..
  | softmaxFwd => exact execSoftmaxFwd_keeps ..
  | normFwd => exact execNormFwd_keeps ..
  | softmaxBwd => exact execSoftmaxBwd_keeps ..
  | normBwd => exact execNormBwd_keeps ..
  | flush => exact execFlush_keeps ..
  | drop => exact execDrop_keeps ..
  | rowCtxBase => exact execRowCtxBase_keeps ..
  | rowCtxGeom => exact execRowCtxGeom_keeps ..
  | update => exact execUpdate_keeps ..
  | bucketOpen => exact execBucketOpen_keeps ..
  | bucketClose => exact execBucketClose_keeps ..
  | updSet => exact execUpdSet_keeps ..
  | updReseed => exact execUpdReseed_keeps ..
  | bktReseed => exact execBktReseed_keeps ..
  | structLoad => exact execStructLoad_keeps ..
  | structFree => exact execStructFree_keeps ..
  | values => exact execValues_keeps ..
  | factorSolve => exact execFactorSolve_keeps ..
  | solve => exact execSolve_keeps ..
  | refine => exact execRefine_keeps ..
  | adjoint => exact execAdjoint_keeps ..
  | ipmStep => exact execIpmStep_keeps ..
  | phase => exact execPhase_keeps ..
  | crucibleTask => exact execCrucibleTask_keeps ..
  | phaseDone => exact execPhaseDone_keeps ..
  | cutoff => exact execCutoff_keeps ..
  | arm => exact execArm_keeps ..
  | veto => exact execVeto_keeps ..
  | updCmtC => exact execUpdCmtC_keeps ..
  | voteCutoff => exact execVoteCutoff_keeps ..
  | vote => exact execVote_keeps ..
  | rootDecision => exact execRootDecision_keeps ..
  | verdict => exact execVerdict_keeps ..
  | verdictAck => exact execVerdictAck_keeps ..
  | verdictQuery => exact execVerdictQuery_keeps ..
  | commitStroke => exact execCommitStroke_keeps ..
  | askBackupRoot => exact execAskBackupRoot_keeps ..
  | refresh => exact execRefresh_keeps ..
  | rfm => exact execRfm_keeps ..
  | phaseUpdate => exact execPhaseUpdate_keeps ..
  | hbmPowerDown => exact execHbmPowerDown_keeps ..
  | promotion => exact execPromotion_keeps ..
  | temperatureReading => exact execTemperatureReading_keeps ..
  | hbmLaneFailure => exact execHbmLaneFailure_keeps ..
  | hbmTestGo => exact execHbmTestGo_keeps ..
  | testHold => exact execTestHold_keeps ..
  | wrapperOperationEnd => exact execWrapperOperationEnd_keeps ..
  | poisonWriteBack => exact execPoisonWriteBack_keeps ..
  | scrub => exact execScrub_keeps ..
  | leak => exact execLeak_keeps ..
  | flipArm => exact execFlipArm_keeps ..
  | eccRowlog => exact execEccRowlog_keeps ..
  | data => exact execData_keeps ..
  | ack => exact execAck_keeps ..
  | heartbeat => exact execHeartbeat_keeps ..
  | frameInterval => exact execFrameInterval_keeps ..
  | retransmission => exact execRetransmission_keeps ..
  | silence => exact execSilence_keeps ..
  | linkLaneFailure => exact execLinkLaneFailure_keeps ..
  | portTraining => exact execPortTraining_keeps ..
  | retrain => exact execRetrain_keeps ..
  | hello => exact execHello_keeps ..
  | helloInterval => exact execHelloInterval_keeps ..
  | helloTimeout => exact execHelloTimeout_keeps ..
  | echo => exact execEcho_keeps ..
  | echoReply => exact execEchoReply_keeps ..
  | accept => exact execAccept_keeps ..
  | reject => exact execReject_keeps ..
  | boardPresence => exact execBoardPresence_keeps ..
  | boardMaster => exact execBoardMaster_keeps ..
  | reenable => exact execReenable_keeps ..
  | disable => exact execDisable_keeps ..
  | readReq => exact execReadReq_keeps ..
  | writeReq => exact execWriteReq_keeps ..
  | readReply => exact execReadReply_keeps ..
  | writeAck => exact execWriteAck_keeps ..
  | ucieLinkFailure => exact execUcieLinkFailure_keeps ..
  | allreduce => exact execAllreduce_keeps ..
  | allgather => exact execAllgather_keeps ..
  | broadcast => exact execBroadcast_keeps ..
  | dispatch => exact execDispatch_keeps ..
  | combine => exact execCombine_keeps ..
  | contrib => exact execContrib_keeps ..
  | partialMsg => exact execPartialMsg_keeps ..
  | result => exact execResult_keeps ..
  | scalePropose => exact execScalePropose_keeps ..
  | scaleSet => exact execScaleSet_keeps ..
  | scaleFix => exact execScaleFix_keeps ..
  | gather => exact execGather_keeps ..
  | txCounts => exact execTxCounts_keeps ..
  | txGrant => exact execTxGrant_keeps ..
  | txRows => exact execTxRows_keeps ..
  | txReturn => exact execTxReturn_keeps ..
  | contributionDeadline => exact execContributionDeadline_keeps ..
  | resultDeadline => exact execResultDeadline_keeps ..
  | colCtxCfg => exact execColCtxCfg_keeps ..
  | colCtxNext => exact execColCtxNext_keeps ..
  | colCtxAtLo => exact execColCtxAtLo_keeps ..
  | colCtxGrpBase => exact execColCtxGrpBase_keeps ..
  | colAlg => exact execColAlg_keeps ..
  | colReseed => exact execColReseed_keeps ..
  | hang => exact execHang_keeps ..
  | missingStrokeReport => exact execMissingStrokeReport_keeps ..
  | watchdog => exact execWatchdog_keeps ..
  | engineReset => exact execEngineReset_keeps ..
  | coreReset => exact execCoreReset_keeps ..
  | quadrantReset => exact execQuadrantReset_keeps ..
  | dieReset => exact execDieReset_keeps ..
  | moduleWarmReset => exact execModuleWarmReset_keeps ..
  | resetComplete => exact execResetComplete_keeps ..
  | resetTimeout => exact execResetTimeout_keeps ..
  | warmResetTimeout => exact execWarmResetTimeout_keeps ..
  | resetNotice => exact execResetNotice_keeps ..
  | memberReturn => exact execMemberReturn_keeps ..
  | hltResetCtl => exact execHltResetCtl_keeps ..
  | replay => exact execReplay_keeps ..
  | replayClaim => exact execReplayClaim_keeps ..
  | assayUnit => exact execAssayUnit_keeps ..
  | starved => exact execStarved_keeps ..
  | touchstone => exact execTouchstone_keeps ..
  | touchstoneDeadline => exact execTouchstoneDeadline_keeps ..
  | assayPass => exact execAssayPass_keeps ..
  | asyQfree => exact execAsyQfree_keeps ..
  | powerUp => exact execPowerUp_keeps ..
  | powerDownSequence => exact execPowerDownSequence_keeps ..
  | undervoltage => exact execUndervoltage_keeps ..
  | undervoltageRelease => exact execUndervoltageRelease_keeps ..
  | brownOut => exact execBrownOut_keeps ..
  | moduleTrip => exact execModuleTrip_keeps ..
  | dieTrip => exact execDieTrip_keeps ..
  | junctionReading => exact execJunctionReading_keeps ..
  | coolantReading => exact execCoolantReading_keeps ..
  | capEvaluation => exact execCapEvaluation_keeps ..
  | throtN => exact execThrotN_keeps ..
  | modResetN => exact execModResetN_keeps ..
  | a1Entry => exact execA1Entry_keeps ..
  | a0Request => exact execA0Request_keeps ..
  | a2Entry => exact execA2Entry_keeps ..
  | a3Entry => exact execA3Entry_keeps ..
  | pwrCap => exact execPwrCap_keeps ..
  | i3cPrivateWrite => exact execI3cPrivateWrite_keeps ..
  | i3cPrivateRead => exact execI3cPrivateRead_keeps ..
  | pelSqTail => exact execPelSqTail_keeps ..
  | pelCqHead => exact execPelCqHead_keeps ..
  | pelAqCtl => exact execPelAqCtl_keeps ..
  | pelAcqBase => exact execPelAcqBase_keeps ..
  | hostInterfaceReset => exact execHostInterfaceReset_keeps ..
  | nop => exact execNop_keeps ..
  | queueBind => exact execQueueBind_keeps ..
  | jobCreate => exact execJobCreate_keeps ..
  | jobStart => exact execJobStart_keeps ..
  | planStep => exact execPlanStep_keeps ..
  | jobResume => exact execJobResume_keeps ..
  | jobTeardown => exact execJobTeardown_keeps ..
  | hostCopy => exact execHostCopy_keeps ..
  | attest => exact execAttest_keeps ..
  | imageWrite => exact execImageWrite_keeps ..
  | imageSelect => exact execImageSelect_keeps ..
  | serviceModuleWarmReset => exact execServiceModuleWarmReset_keeps ..
  | clearEscalationCounters => exact execClearEscalationCounters_keeps ..
  | eraseLibrary => exact execEraseLibrary_keeps ..
  | servicePortReenable => exact execServicePortReenable_keeps ..
  | hbmRepairRun => exact execHbmRepairRun_keeps ..
  | serviceDomainReset => exact execServiceDomainReset_keeps ..
  | ownerKeyEnrolment => exact execOwnerKeyEnrolment_keeps ..
  | ownerKeyRevocation => exact execOwnerKeyRevocation_keeps ..
  | selfCheck => exact execSelfCheck_keeps ..
  | stkCapCtl => exact execStkCapCtl_keeps ..
  | registerWrite => exact execRegisterWrite_keeps ..
  | inputRestored => exact execInputRestored_keeps ..
  | faultClear => exact execFaultClear_keeps ..
  | pcieLinkUp => exact execPcieLinkUp_keeps ..
  | testPortAccess => exact execTestPortAccess_keeps ..

/-- With its front command taken off the queue, a state steps lawfully; with none waiting a cycle of the timebase passes (log entry
60). -/
theorem step_lawful (s : State) : Lawful { s with pending := s.pending.tail } (step s) := by
  unfold step
  split
  next hnone =>
    have hstart : Keeps { s with pending := s.pending.tail } s := ⟨by simp [hnone], rfl, rfl, Nat.le_refl _, id, id⟩
    exact Lawful.next (State.tick_keeps s hstart)
  next i is hfront =>
    rw [hfront]
    exact exec_lawful i _

end Sys2Proof.Machine
end

section
open Sys2Proof Sys2Proof.Machine
open Host (Outcome)

/-- Settles O57: a step is lawful, so it answers a next state that keeps all of this, or the fault of an absent die. The fault, the
commands that cannot act and the cycle of an empty queue are the model's own choices (log entries 5, 7, 60 and 126). -/
theorem everyStepKeeps : Obligations.EveryStepKeeps := by
  unfold Obligations.EveryStepKeeps
  intro s
  have hstep := step_lawful s
  refine ⟨hstep.next_or_absentDie, fun hall i => (exec_lawful i s).exists_next hall, fun t ht => ?_⟩
  rw [ht] at hstep
  obtain ⟨hqueue, hvariant, hserial, hsvn, hmem, hhost⟩ := hstep
  exact ⟨hqueue, hvariant, hserial, hsvn, hmem, hhost⟩

end

section
/-! PROOF. A step on an empty queue: a cycle of the timebase (R29). -/

namespace Sys2Proof.Machine

/-- What a cycle of the timebase leaves alone: both memories, the Pelbex registers, the settings, and of every die the registers and the
stroke. -/
structure KeepsCycle (s t : State) : Prop where
  mem : t.mem = s.mem
  host : t.host = s.host
  pelRegs : t.pelRegs = s.pelRegs
  settings : t.settings = s.settings
  regs : ∀ d, (t.die d).regs = (s.die d).regs
  stroke : ∀ d, t.stroke d = s.stroke d

theorem KeepsCycle.refl (s : State) : KeepsCycle s s := ⟨rfl, rfl, rfl, rfl, fun _ => rfl, fun _ => rfl⟩

theorem KeepsCycle.trans {s t u : State} (h : KeepsCycle s t) (k : KeepsCycle t u) : KeepsCycle s u :=
  ⟨k.mem.trans h.mem, k.host.trans h.host, k.pelRegs.trans h.pelRegs, k.settings.trans h.settings,
    fun d => (k.regs d).trans (h.regs d), fun d => (k.stroke d).trans (h.stroke d)⟩

theorem KeepsCycle.modDie (s : State) (d : DieIx) {f : Die → Die} (hr : ∀ x, (f x).regs = x.regs)
    (ht : ∀ x, (f x).timer.stroke = x.timer.stroke) : KeepsCycle s (s.modDie d f) := by
  refine ⟨rfl, rfl, rfl, rfl, fun e => ?_, fun e => ?_⟩ <;> by_cases he : e = d
  · subst he; simp [hr]
  · rw [State.die_modDie_ne s d e f he]
  · subst he; simp [State.stroke, ht]
  · simp [State.stroke, State.die_modDie_ne s d e f he]

theorem State.accrue_keepsCycle (s : State) (d : DieIx) (n : Nat) : KeepsCycle s (s.accrue d n) := by
  unfold State.accrue
  split
  · exact .refl s
  · exact .modDie s d (fun _ => rfl) (fun _ => rfl)

theorem State.tickDie_keepsCycle (s : State) (d : DieIx) : KeepsCycle s (s.tickDie d) := by
  unfold State.tickDie
  split
  · exact .refl s
  · exact (State.accrue_keepsCycle s d 1).trans (.modDie _ d (fun _ => rfl) (fun _ => rfl))

theorem State.tick_keepsCycle (s : State) : KeepsCycle s s.tick :=
  fold_inv (KeepsCycle s) _ s.allDies s (.refl s) (fun t d h => h.trans (t.tickDie_keepsCycle d))

end Sys2Proof.Machine
end

section
open Sys2Proof Sys2Proof.Machine
open Host (Outcome)

/-- Settles O56: the front command runs by definition, and a cycle passes on the dies one after another. -/
theorem stepRunsFrontCommand : Obligations.StepRunsFrontCommand := by
  unfold Obligations.StepRunsFrontCommand
  refine ⟨fun s c cs => rfl, fun s hs => ?_, fun s nbits w => ⟨rfl, rfl⟩⟩
  have hcycle := s.tick_keepsCycle
  have hqueue := State.tick_keeps s (Keeps.refl s)
  refine ⟨s.tick, by simp [step, hs], hqueue.pending.trans hs, hcycle.mem, hcycle.host, hcycle.pelRegs, hcycle.settings, fun d => ?_⟩
  exact ⟨hcycle.regs d, hcycle.stroke d⟩
end

section
/-! PROOF. Stroke frames that fail their check (R334, R335). -/

namespace Sys2Proof.Machine

/-- A frame whose LEN does not count its payload units fails its check (R334). -/
theorem frameOk_of_length {f : List Byte} (h : f.length ≠ 32 + 64 * bn f 6 1) : frameOk f = false := by
  simp [frameOk, h]

/-- A frame that fails its check leaves the timer of its die alone: it is at most counted. -/
theorem exec_strokeFrame_bad {s : State} {d : DieIx} (p : PortIx) {f : List Byte} (hready : Ready s d) (hbad : frameOk f = false) :
    ∃ t, exec (.strokeFrame d p f) s = .next t ∧ (t.die d).timer = (s.die d).timer := by
  have hrx : (s.rxFrame d (linkOf p) f).2 = false ∧ ((s.rxFrame d (linkOf p) f).1.die d).timer = (s.die d).timer := by
    unfold State.rxFrame
    split
    · exact ⟨rfl, rfl⟩
    · simp [hbad, State.addSat, State.setRf, State.modReg, State.setReg]
  change ∃ t, execStrokeFrame d p f s = .next t ∧ _
  rw [execStrokeFrame, onDie_ready hready]
  exact ⟨_, rfl, by simp [hrx]⟩

end Sys2Proof.Machine
end

section
open Sys2Proof Sys2Proof.Machine
open Host (Outcome)

/-- Refutes O26: the stroke frame that the statement spells out has LEN 0 in front of one payload unit (`frameBytes 4 0 0 0 0 0 0 …`), so it
fails its check (R334) and no die follows it; a good frame has LEN 1 (R35). Port 4 of die 0 is up and no frame has come. -/
theorem not_lockAndTimeMasters : ¬ Obligations.LockAndTimeMasters := by
  unfold Obligations.LockAndTimeMasters
  rintro ⟨-, hframe, -⟩
  have hready : Ready (Tests.portIn 4 4) 0 := by decide
  have hbad : frameOk (frameBytes 4 0 0 0 0 0 0 (strokePayload 0 0 false)) = false :=
    frameOk_of_length (by simp [frameBytes, strokePayload, bn, slice, leNat, leBytes])
  obtain ⟨hfollows, -⟩ := hframe (Tests.portIn 4 4) 0 4 0 0 false hready (by decide) (by decide)
  obtain ⟨t, ht, -, hseen, -⟩ := hfollows (.inl (by decide))
  obtain ⟨u, hu, htimer⟩ := exec_strokeFrame_bad 4 hready hbad
  obtain rfl : t = u := Outcome.next.inj (ht.symm.trans hu)
  rw [htimer] at hseen
  exact absurd hseen (by decide)
end

section
/-! LEMMAS. Messages that are sent and taken, and notices: what of the state they change. -/

namespace Sys2Proof.Machine

/-- Two updates of a die in turn are one. -/
theorem State.modDie_modDie (s : State) (d : DieIx) (f g : Die → Die) : (s.modDie d f).modDie d g = s.modDie d (fun x => g (f x)) := by
  simp [State.modDie]

/-- An update of a die that gives it back as it is changes nothing. -/
theorem State.modDie_of_eq {s : State} {d : DieIx} {f : Die → Die} (h : f (s.die d) = s.die d) : s.modDie d f = s := by
  rw [State.modDie, h, State.setDie_die]

/-! ### Sending (R341) -/

/-- From s to t only the inbox and the ports of die d have changed. -/
def MailOnly (d : DieIx) (s t : State) : Prop :=
  ∃ inbox ports, t = s.modDie d (fun x => { x with inbox := inbox, ports := ports })

namespace MailOnly

variable {d : DieIx} {s t u : State}

theorem refl (d : DieIx) (s : State) : MailOnly d s s := ⟨(s.die d).inbox, (s.die d).ports, (State.modDie_of_eq rfl).symm⟩

theorem trans (h : MailOnly d s t) (k : MailOnly d t u) : MailOnly d s u := by
  obtain ⟨a, b, rfl⟩ := h
  obtain ⟨i, p, rfl⟩ := k
  exact ⟨i, p, State.modDie_modDie ..⟩

theorem foldl {α : Type} {f : State → α → State} (l : List α) (h : ∀ v x, MailOnly d v (f v x)) (s : State) : MailOnly d s (l.foldl f s) :=
  fold_inv (MailOnly d s) f l s (refl d s) (fun v x hv => hv.trans (h v x))

theorem mem (h : MailOnly d s t) : t.mem = s.mem := by
  obtain ⟨i, p, rfl⟩ := h
  rfl

theorem peers (h : MailOnly d s t) : (t.die d).peers = (s.die d).peers := by
  obtain ⟨i, p, rfl⟩ := h
  simp

theorem notices (h : MailOnly d s t) : (t.die d).notices = (s.die d).notices := by
  obtain ⟨i, p, rfl⟩ := h
  simp

theorem cores (h : MailOnly d s t) : (t.die d).cores = (s.die d).cores := by
  obtain ⟨i, p, rfl⟩ := h
  simp

end MailOnly

theorem State.modLink_mailOnly (s : State) (d : DieIx) (l : LinkIx) (f : Port → Port) : MailOnly d s (s.modLink d l f) :=
  ⟨(s.die d).inbox, (s.die d).ports.set l (f (s.die d).ports[l]), rfl⟩

theorem State.sendMsg_mailOnly (s : State) (d : DieIx) (m : Msg) : MailOnly d s (s.sendMsg d m) := by
  unfold State.sendMsg State.pumpLink
  dsimp only
  split
  · exact ⟨(s.die d).inbox ++ [m], (s.die d).ports, rfl⟩
  split
  · exact .refl d s
  split
  · exact (State.modLink_mailOnly s d _ _).trans (State.modLink_mailOnly _ d _ _)
  · exact State.modLink_mailOnly s d _ _

/-! ### Taking a message -/

/-- Waking a die changes Pelbex registers alone. -/
@[simp] theorem State.dies_wake (s : State) (d : DieIx) : (s.wake d).dies = s.dies := by
  unfold State.wake
  split <;> rfl

@[simp] theorem State.die_wake (s : State) (d e : DieIx) : (s.wake d).die e = s.die e := by simp [State.die]

@[simp] theorem State.mem_wake (s : State) (d : DieIx) : (s.wake d).mem = s.mem := by
  unfold State.wake
  split <;> rfl

@[simp] theorem State.die_takeMsg (s : State) (d : DieIx) (m : Msg) : (s.takeMsg d m).die d = { s.die d with inbox := (s.die d).inbox.erase m } := by
  simp [State.takeMsg]

theorem State.staleMsg_taken (s : State) (d : DieIx) (m n : Msg) : ((s.takeMsg d m).wake d).staleMsg d n = s.staleMsg d n := by
  simp [State.staleMsg, State.announcedTag]

theorem State.rf_taken (s : State) (d : DieIx) (m : Msg) (off lo len : Nat) : ((s.takeMsg d m).wake d).rf d off lo len = s.rf d off lo len := by
  simp [State.rf, State.reg]

/-- A stale message is taken and counted (R414), and nothing else changes on its die. -/
theorem State.staleTaken_spec (s : State) (d : DieIx) (m : Msg) :
    let t := ((s.takeMsg d m).wake d).addSat d rHltStale 0 32 1
    (∃ r, t.die d = { s.die d with inbox := (s.die d).inbox.erase m, regs := r })
      ∧ t.rf d rHltStale 0 32 = min (s.rf d rHltStale 0 32 + 1) (2 ^ 32 - 1) ∧ t.mem = s.mem := by
  refine ⟨?_, ?_, State.mem_wake ..⟩
  · simp only [State.addSat, State.setRf, State.modReg, State.setReg, State.die_modDie, State.die_wake, State.die_takeMsg]
    exact ⟨_, rfl⟩
  · rw [State.rf_addSat _ d _ 1 (by decide), State.rf_taken]

/-! ### Notices (R380) -/

/-- A notice for a job is noted; beside it only the job's commit context can change. -/
theorem State.noteNotice_spec (s : State) (d : DieIx) (job : BitVec 12) :
    ∃ c, s.noteNotice d job = s.modDie d (fun x => { x with notices := (x.notices ++ [job]).eraseDups, commits := c }) := by
  unfold State.noteNotice
  dsimp only
  split
  · split
    · exact ⟨_, State.modDie_modDie ..⟩
    · exact ⟨(s.die d).commits, rfl⟩
  · exact ⟨(s.die d).commits, rfl⟩

theorem State.mem_notices_noteNotice (s : State) (d : DieIx) (job : BitVec 12) : job ∈ ((s.noteNotice d job).die d).notices := by
  obtain ⟨c, hc⟩ := s.noteNotice_spec d job
  simp [hc]

end Sys2Proof.Machine
end

section
/-! PROOF. Presence and absence of peers (R42, R380). -/

namespace Sys2Proof.Machine

/-- The peers that a frame from an endpoint leaves: those of its die have been seen in this stroke. -/
theorem State.peers_seePeer (s : State) (d : DieIx) (src : Endpoint) : ((s.seePeer d src).die d).peers =
    (s.die d).peers.map (fun q => if q.endpoint.toNat / 64 = src.toNat / 64 then { q with seen := true } else q) := by
  simp [State.seePeer]

theorem State.presenceBoundary_mailOnly (s : State) (d : DieIx) : MailOnly d (s.modDie d (fun x => { x with peers := x.peers.map (fun p =>
    if p.seen then { p with silent := 0, seen := false, absent := false } else { p with silent := p.silent + 1 }) })) (s.presenceBoundary d) :=
  MailOnly.foldl _ (fun t _ => t.sendMsg_mailOnly d _) _

/-- Marking a peer absent changes the peers of its die alone. -/
theorem State.markAbsent_spec (s : State) (d : DieIx) (job : BitVec 12) (e : Endpoint) :
    ∃ l : List Peer, s.markAbsent d job e = s.modDie d (fun x => { x with peers := l })
      ∧ (∃ p ∈ l, p.job = job ∧ p.endpoint = e ∧ p.absent = true)
      ∧ ∀ p ∈ (s.die d).peers, ¬ (p.job = job ∧ p.endpoint = e) → p ∈ l := by
  unfold State.markAbsent
  by_cases h : (s.die d).peers.any (fun p => decide (p.job = job ∧ p.endpoint = e)) = true
  · refine ⟨_, by simp only [State.modDie, h, if_true]; rfl, ?_, fun p hp hne => List.mem_map.mpr ⟨p, hp, if_neg hne⟩⟩
    obtain ⟨p, hp, hpe⟩ := List.any_eq_true.mp h
    have hpe := of_decide_eq_true hpe
    exact ⟨_, List.mem_map.mpr ⟨p, hp, if_pos hpe⟩, hpe.1, hpe.2, rfl⟩
  · refine ⟨_, by simp only [State.modDie, h]; rfl, ?_, fun p hp _ => List.mem_append_left _ hp⟩
    exact ⟨_, List.mem_append_right _ (List.mem_singleton_self _), rfl, rfl, rfl⟩

theorem State.markAbsent_single {s : State} {d : DieIx} {p : Peer} (h : (s.die d).peers = [p]) :
    s.markAbsent d p.job p.endpoint = s.modDie d (fun x => { x with peers := [{ p with absent := true }] }) := by
  simp [State.markAbsent, State.modDie, h]

/-- What a declared absence does to one peer of a job: it is marked and noted, and the other members are told (R380). -/
def State.declareAbsent (s : State) (d : DieIx) (peer : Endpoint) (p : Peer) : State :=
  let u := (s.markAbsent d p.job peer).noteNotice d p.job
  ((u.membersOf p.job).filter (fun e => e != u.endpoint d 63)).foldl (fun v e =>
    v.sendMsg d (v.mkMsg d 0x31 e p.job 0 0 0 (leBytes 4 peer.toNat) [])) u

theorem State.declareAbsent_mailOnly (s : State) (d : DieIx) (peer : Endpoint) (p : Peer) :
    MailOnly d ((s.markAbsent d p.job peer).noteNotice d p.job) (s.declareAbsent d peer p) :=
  MailOnly.foldl _ (fun v _ => v.sendMsg_mailOnly d _) _

/-- ABSENCE_DECLARED acts on every peer of the endpoint that has been silent for 4 strokes and is not known to be absent. -/
theorem exec_absenceDeclared {s : State} {d : DieIx} (e : Endpoint) (hready : Ready s d) :
    exec (.absenceDeclared d e) s =
      .next (((s.die d).peers.filter (fun p => decide (p.endpoint = e ∧ p.silent ≥ 4) && !p.absent)).foldl (fun u p => u.declareAbsent d e p) s) := by
  change execAbsenceDeclared d e s = _
  rw [execAbsenceDeclared, onDie_ready hready]
  rfl

/-- n little-endian bytes hold a value modulo 256^n. -/
theorem leNat_leBytes (n v : Nat) : leNat (leBytes n v) = v % 256 ^ n := by
  induction n generalizing v with
  | zero => simp [leNat, leBytes, Nat.mod_one]
  | succ n ih =>
    have h : leNat (leBytes (n + 1) v) = v % 256 + 256 * leNat (leBytes n (v / 256)) := by simp [leNat, leBytes]
    rw [h, ih, Nat.pow_succ', Nat.mod_mul]

/-- The bytes of an endpoint identifier name it. -/
theorem endpoint_of_leBytes (e : Endpoint) : BitVec.ofNat 23 (leNat (leBytes 4 e.toNat)) = e := by
  have := e.isLt
  rw [leNat_leBytes, Nat.mod_eq_of_lt (by omega)]
  exact BitVec.ofNat_toNat 23 e ▸ BitVec.setWidth_eq e

end Sys2Proof.Machine
end

section
open Sys2Proof Sys2Proof.Machine
open Host (Outcome)

/-- Settles O27. That a frame counts whichever core of the peer's die sent it, and that the declaring member acts on the absence itself, are
the model's readings (log entry 31). -/
theorem presenceAndAbsence : Obligations.PresenceAndAbsence := by
  unfold Obligations.PresenceAndAbsence
  refine ⟨?_, ?_, ?_, ?_, ?_⟩
  · intro s d m hready hkind
    change ∃ t, execPresence d m s = .next t ∧ _
    rw [execPresence, onDie_ready hready]
    simp only [hkind, ne_eq, not_true_eq_false, if_false, State.staleMsg_taken]
    cases hstale : s.staleMsg d m with
    | true =>
      obtain ⟨⟨r, hdie⟩, hcount, hmem⟩ := s.staleTaken_spec d m
      exact ⟨_, rfl, by simp [hdie], by simp [hdie], fun _ => hcount, by simp [hdie], by simp [hdie], hmem⟩
    | false =>
      refine ⟨_, rfl, ?_, ?_, by simp, ?_, ?_, State.mem_wake ..⟩
      · simp [State.seePeer]
      · simp [State.peers_seePeer]
      · simp [State.seePeer]
      · simp [State.seePeer]
  · intro s d _ _
    rw [(s.presenceBoundary_mailOnly d).peers]
    simp
  · intro s d e hready
    rw [exec_absenceDeclared e hready]
    refine ⟨fun hnone => ?_, fun p hp hpe hsilent habsent _ => ?_⟩
    · have hfilter : (s.die d).peers.filter (fun p => decide (p.endpoint = e ∧ p.silent ≥ 4) && !p.absent) = [] := by
        rw [List.filter_eq_nil_iff]
        intro p hp hcond
        simp only [Bool.and_eq_true, decide_eq_true_eq, Bool.not_eq_true'] at hcond
        obtain ⟨⟨hpe, hsilent⟩, habsent⟩ := hcond
        rcases hnone p hp hpe with h | h
        · omega
        · simp [h] at habsent
      rw [hfilter, List.foldl_nil]
    · subst hpe
      have hsend := s.declareAbsent_mailOnly d p.endpoint p
      rw [State.markAbsent_single hp] at hsend
      obtain ⟨c, hnote⟩ := (s.modDie d (fun x => { x with peers := [{ p with absent := true }] })).noteNotice_spec d p.job
      have hnoted := State.mem_notices_noteNotice (s.modDie d (fun x => { x with peers := [{ p with absent := true }] })) d p.job
      rw [← hsend.notices] at hnoted
      rw [hnote] at hsend
      refine ⟨s.declareAbsent d p.endpoint p, by simp [hp, hsilent, habsent], ?_, hnoted, ?_, hsend.mem⟩
      · rw [hsend.peers]; simp
      · rw [hsend.cores]; simp
  · intro s d m e hready hkind hspec hstale
    change ∃ t, execAbsenceNotice d m s = .next t ∧ _
    rw [execAbsenceNotice, onDie_ready hready]
    simp only [hkind, ne_eq, not_true_eq_false, if_false, State.staleMsg_taken, hstale, Bool.false_eq_true, hspec, endpoint_of_leBytes]
    obtain ⟨l, hmark, hin, hothers⟩ := ((s.takeMsg d m).wake d).markAbsent_spec d m.job e
    have hnoted := State.mem_notices_noteNotice (((s.takeMsg d m).wake d).markAbsent d m.job e) d m.job
    obtain ⟨c, hnote⟩ := (((s.takeMsg d m).wake d).markAbsent d m.job e).noteNotice_spec d m.job
    refine ⟨_, rfl, ?_, ?_, ?_, hnoted, ?_⟩
    · rw [hnote, hmark]; simp
    · rw [hnote, hmark]; simpa using hin
    · rw [hnote, hmark]; simpa using hothers
    · rw [hnote, hmark]
      exact State.mem_wake ..
  · intro s d m hready hkind hstale
    change ∃ t, execAbsenceNotice d m s = .next t ∧ _
    rw [execAbsenceNotice, onDie_ready hready]
    simp only [hkind, ne_eq, not_true_eq_false, if_false, State.staleMsg_taken, hstale, if_true]
    obtain ⟨⟨r, hdie⟩, hcount, -⟩ := s.staleTaken_spec d m
    exact ⟨_, rfl, by simp [hdie], by simp [hdie], by simp [hdie], hcount⟩
end

section
/-! PROOF. Throttle notices (R39, R40). -/

namespace Sys2Proof.Machine

/-- A new event log entry is the last of its die's log; nothing else of the die changes but the log's next place (R43). -/
theorem State.die_logEvent (s : State) (d : DieIx) (code detail : Nat) : (s.logEvent d code 0 detail).die d =
    { s.die d with log := s.logWith d code detail, logNext := ((s.die d).logNext + 1) % logCapacity } := by
  simp only [State.logEvent, State.logFrom, State.die_modDie]
  rfl

theorem State.reg_logEvent (s : State) (d e : DieIx) (code status detail off : Nat) :
    (s.logEvent d code status detail).reg e off = s.reg e off := State.reg_modDie _ _ _ _ (fun _ => rfl)

/-- From s to t only registers of die d have changed. -/
def RegsOnly (d : DieIx) (s t : State) : Prop := ∃ r, t = s.modDie d (fun x => { x with regs := r })

theorem RegsOnly.die {d : DieIx} {s t : State} (h : RegsOnly d s t) : ∃ r, t.die d = { s.die d with regs := r } := by
  obtain ⟨r, rfl⟩ := h
  exact ⟨r, State.die_modDie ..⟩

theorem RegsOnly.trans {d : DieIx} {s t u : State} (h : RegsOnly d s t) (k : RegsOnly d t u) : RegsOnly d s u := by
  obtain ⟨a, rfl⟩ := h
  obtain ⟨b, rfl⟩ := k
  exact ⟨b, State.modDie_modDie ..⟩

theorem State.setReg_regsOnly (s : State) (d : DieIx) (off : Nat) (v : Word) : RegsOnly d s (s.setReg d off v) :=
  ⟨SMap.set (dieReset off) (s.die d).regs off v, rfl⟩

theorem State.setReg64_regsOnly (s : State) (d : DieIx) (off : Nat) (v : DWord) : RegsOnly d s (s.setReg64 d off v) :=
  (s.setReg_regsOnly d _ _).trans (State.setReg_regsOnly _ d _ _)

theorem State.showNotice_regsOnly (s : State) (d : DieIx) : RegsOnly d s (s.showNotice d) := by
  unfold State.showNotice
  split
  · exact State.setReg_regsOnly ..
  · exact State.setReg64_regsOnly ..

/-- Showing the announced step leaves the one in force. -/
theorem State.reg_showNotice (s : State) (d : DieIx) : (s.showNotice d).reg d rStkStepNow = s.reg d rStkStepNow := by
  have hlow (t : State) (v : Word) : (t.setReg d rStkStepNext v).reg d rStkStepNow = t.reg d rStkStepNow :=
    State.reg_setReg_ne _ _ _ _ (fun h => absurd h.2 (by decide))
  have hhigh (t : State) (v : Word) : (t.setReg d (rStkStepNext + 4) v).reg d rStkStepNow = t.reg d rStkStepNow :=
    State.reg_setReg_ne _ _ _ _ (fun h => absurd h.2 (by decide))
  unfold State.showNotice
  split
  · exact hhigh ..
  · exact (hhigh ..).trans (hlow ..)

/-- Of two due notices the one that decides: of the same stroke the slower one, otherwise the later one. -/
def slowerNotice (a b : Stroke × BitVec 2) : Stroke × BitVec 2 :=
  if a.1 = b.1 then (if a.2.toNat ≥ b.2.toNat then a else b) else if ahead b.1 a.1.toNat < 2 ^ 39 then a else b

/-- The deciding one of several notices for one stroke is one of them, and none of them is slower. -/
theorem foldl_slowerNotice {now : Stroke} (ns : List (Stroke × BitVec 2)) (n : Stroke × BitVec 2) (h : ∀ m ∈ n :: ns, m.1 = now) :
    ns.foldl slowerNotice n ∈ n :: ns ∧ ∀ m ∈ n :: ns, m.2.toNat ≤ (ns.foldl slowerNotice n).2.toNat := by
  induction ns generalizing n with
  | nil => simp
  | cons a ns ih =>
    rw [List.forall_mem_cons, List.forall_mem_cons] at h
    obtain ⟨hn, ha, hns⟩ := h
    have hstep : slowerNotice n a = if n.2.toNat ≥ a.2.toNat then n else a := by rw [slowerNotice, if_pos (hn.trans ha.symm)]
    rw [List.foldl_cons, hstep]
    split
    · obtain ⟨hmem, hle⟩ := ih n (List.forall_mem_cons.mpr ⟨hn, hns⟩)
      rw [List.forall_mem_cons] at hle
      rw [List.forall_mem_cons, List.forall_mem_cons]
      rw [List.mem_cons] at hmem
      exact ⟨List.mem_cons.mpr (hmem.imp_right (List.mem_cons_of_mem a)), hle.1, by omega, hle.2⟩
    · obtain ⟨hmem, hle⟩ := ih a (List.forall_mem_cons.mpr ⟨ha, hns⟩)
      rw [List.forall_mem_cons] at hle
      rw [List.forall_mem_cons, List.forall_mem_cons]
      exact ⟨List.mem_cons_of_mem n hmem, by omega, hle⟩

/-- The word of STK_STEP_NOW shows the step in its low field. -/
theorem fld_stepNow (v : BitVec 2) : fld (BitVec.ofNat 32 (aclkMhz v.toNat * 65536 + v.toNat)) 0 2 = v.toNat := by
  revert v
  decide

/-- The state in which a boundary leaves the notices: a request for a faster step goes before those still to come. -/
def State.keepNotices (s : State) (d : DieIx) (again : List (Stroke × BitVec 2)) : State :=
  s.modTimer d (fun x => { x with notices := again ++ x.notices.filter (fun m => !begun x.stroke m.1.toNat) })

/-- The step of the deciding notice takes effect: STK_STEP_NOW shows it, and a change is logged (R40). -/
def State.takeStep (s : State) (d : DieIx) (step : BitVec 2) : State :=
  if s.rf d rStkStepNow 0 2 = step.toNat then s
  else (s.setReg d rStkStepNow (BitVec.ofNat 32 (aclkMhz step.toNat * 65536 + step.toNat))).logEvent d 0x0105 0
    (s.rf d rStkStepNow 0 2 * 256 + step.toNat)

theorem State.takeStep_spec (s : State) (d : DieIx) (step : BitVec 2) :
    (s.takeStep d step).rf d rStkStepNow 0 2 = step.toNat ∧ ((s.takeStep d step).die d).timer = (s.die d).timer
      ∧ ((s.takeStep d step).die d).cores = (s.die d).cores ∧ (s.takeStep d step).mem = s.mem := by
  unfold State.takeStep
  split
  · next h => exact ⟨h, rfl, rfl, rfl⟩
  · refine ⟨?_, ?_, ?_, rfl⟩
    · rw [State.rf, State.reg_logEvent, State.reg_setReg, fld_stepNow]
    · rw [State.die_logEvent]; simp [State.setReg]
    · rw [State.die_logEvent]; simp [State.setReg]

/-- A boundary with due notices of the stroke that begins: the slowest takes effect, and the last, where it asks for a faster step, waits
for the next stroke. -/
theorem State.throttleBoundary_eq {s : State} {d : DieIx} {n : Stroke × BitVec 2} {ns : List (Stroke × BitVec 2)}
    (hdue : (s.die d).timer.notices.filter (fun m => begun (s.stroke d) m.1.toNat) = n :: ns) (hnow : ∀ m ∈ n :: ns, m.1 = s.stroke d) :
    let v := ns.foldl slowerNotice n
    let last := (n :: ns).getLast (List.cons_ne_nil n ns)
    s.throttleBoundary d =
      ((s.keepNotices d (if last.2.toNat < v.2.toNat then [(s.stroke d + 1, last.2)] else [])).showNotice d).takeStep d v.2 := by
  intro v last
  have hv : v.1 = s.stroke d := hnow v (foldl_slowerNotice ns n hnow).1
  have hall : (n :: ns).filter (fun m => decide (m.1 = v.1)) = n :: ns :=
    List.filter_eq_self.mpr (fun m hm => decide_eq_true ((hnow m hm).trans hv.symm))
  have hlast : ((n :: ns).filter (fun m => decide (m.1 = v.1))).getLastD v = last := by rw [hall, List.getLastD_cons, ← List.getLast_eq_getLastD]
  have hstep (again : List (Stroke × BitVec 2)) : ((s.keepNotices d again).showNotice d).rf d rStkStepNow 0 2 = s.rf d rStkStepNow 0 2 := by
    rw [State.rf, State.reg_showNotice, State.rf, State.keepNotices, State.modTimer, State.reg_modDie _ _ _ _ (by intro; rfl)]
  unfold State.throttleBoundary
  simp only [State.stroke] at hdue
  rw [State.takeStep, hstep, ← hlast]
  simp only [hdue]
  rfl

end Sys2Proof.Machine
end

section
open Sys2Proof Sys2Proof.Machine
open Host (Outcome)

/-- Settles O25. -/
theorem throttleNoticesTakeEffect : Obligations.ThrottleNoticesTakeEffect := by
  unfold Obligations.ThrottleNoticesTakeEffect
  refine ⟨fun s d step eff hready => ⟨fun hearly => ?_, fun hlate => ?_⟩, fun s d => ⟨fun hnone => ?_, fun hsome hnow => ?_⟩⟩
  · change ∃ t, execThrottleNotice d step eff s = .next t ∧ _
    rw [execThrottleNotice, onDie_ready hready]
    simp only [hearly, Bool.false_eq_true, if_false]
    obtain ⟨r, hshow⟩ := State.showNotice_regsOnly (State.modTimer { s with power := { s.power with notices := s.power.notices.erase (d, step, eff) } } d
      (fun x => { x with notices := x.notices ++ [(eff, step)] })) d
    refine ⟨_, rfl, ?_⟩
    rw [hshow]
    simp [State.modTimer, State.die, State.modDie, State.setDie]
  · intro later
    change ∃ t, execThrottleNotice d step eff s = .next t ∧ _
    rw [execThrottleNotice, onDie_ready hready]
    simp only [hlate, if_true]
    obtain ⟨r, hshow⟩ := State.showNotice_regsOnly
      ((State.logEvent { s with power := { s.power with notices := s.power.notices.erase (d, step, eff) } } d 0x0106 0 later.toNat).modTimer d
        (fun x => { x with notices := x.notices ++ [(later, step)] })) d
    refine ⟨_, rfl, ?_⟩
    rw [hshow]
    simp only [State.modTimer, State.die_modDie, State.die_logEvent]
    exact ⟨rfl, rfl, rfl⟩
  · unfold State.throttleBoundary
    simp only [State.stroke] at hnone
    simp only [hnone]
  · generalize hdue : (s.die d).timer.notices.filter (fun n => begun (s.stroke d) n.1.toNat) = due at hsome hnow ⊢
    cases due with
    | nil => exact absurd rfl hsome
    | cons n ns =>
      obtain ⟨hmem, hle⟩ := foldl_slowerNotice ns n hnow
      rw [State.throttleBoundary_eq hdue hnow]
      generalize ns.foldl slowerNotice n = v at hmem hle ⊢
      rw [List.getLast?_eq_some_getLast (List.cons_ne_nil n ns)]
      generalize (n :: ns).getLast (List.cons_ne_nil n ns) = last
      generalize hkept : s.keepNotices d (if last.2.toNat < v.2.toNat then [(s.stroke d + 1, last.2)] else []) = u
      obtain ⟨hnext, htimer, hcores, hm⟩ := (u.showNotice d).takeStep_spec d v.2
      obtain ⟨r, hshow⟩ := u.showNotice_regsOnly d
      simp only [hnext]
      refine ⟨⟨v, hmem, rfl⟩, hle, ?_, ?_, ?_⟩
      · rw [htimer, hshow, ← hkept]; simp [State.keepNotices, State.modTimer, State.stroke]
      · rw [hcores, hshow, ← hkept]; simp [State.keepNotices, State.modTimer]
      · rw [hm, hshow, ← hkept]; rfl
end

section
/-! LEMMAS. Error marks: flipped bits and symbols counted (R302 to R304), and the ring of the event log (R43). -/

namespace Sys2Proof.Machine

/-! ### Flipped bits -/

/-- The indices below a bound that a test picks out, counted as a set. -/
theorem length_filter_range {w : Nat} {p : Nat → Bool} {a : Finset Nat} (h : ∀ k, k ∈ a ↔ k < w ∧ p k = true) :
    ((List.range w).filter p).length = a.card := by
  rw [← List.toFinset_card_of_nodup (List.nodup_range.filter p)]
  congr 1
  ext k
  simp [h]

/-- A word that is written as a shifted 1. -/
theorem natCast_one_shiftLeft (w i : Nat) : ((1 <<< i : Nat) : BitVec w) = BitVec.twoPow w i :=
  BitVec.eq_of_toNat_eq (by rw [BitVec.natCast_eq_ofNat, BitVec.toNat_ofNat, BitVec.toNat_twoPow, Nat.one_shiftLeft])

theorem twoPow_ne_zero {w i : Nat} (h : i < w) : BitVec.twoPow w i ≠ 0 := by
  intro hzero
  have hbit := congrArg (fun x => BitVec.getLsbD x i) hzero
  simp [h] at hbit

theorem popcount_twoPow {w i : Nat} (h : i < w) : popcount (BitVec.twoPow w i) = 1 := by
  refine length_filter_range (a := {i}) fun k => ?_
  simp only [BitVec.getLsbD_twoPow, Finset.mem_singleton, Bool.and_eq_true, decide_eq_true_eq]
  omega

theorem popcount_two_bits {w i j : Nat} (hi : i < w) (hj : j < w) (hne : i ≠ j) : popcount (BitVec.twoPow w i ||| BitVec.twoPow w j) = 2 := by
  rw [← Finset.card_pair hne]
  refine length_filter_range fun k => ?_
  simp only [BitVec.getLsbD_or, BitVec.getLsbD_twoPow, Finset.mem_insert, Finset.mem_singleton, Bool.or_eq_true, Bool.and_eq_true, decide_eq_true_eq]
  omega

theorem popcount_zero {w : Nat} : popcount (0 : BitVec w) = 0 := by
  refine length_filter_range (a := ∅) fun k => ?_
  simp

/-- The symbol of an HBM line that data bit i lies in: lane i mod 32 of burst i / 256 (R302). -/
theorem symbolBad_twoPow {i : Nat} (h : i < 512) (n : Nat) :
    (n < 68 ∧ symbolBad (BitVec.twoPow 512 i) 0 n = true) ↔ n = 32 * (i / 256) + i % 32 := by
  unfold symbolBad
  split
  · simp only [List.any_eq_true, List.mem_range, BitVec.getLsbD_twoPow, Bool.and_eq_true, decide_eq_true_eq]
    constructor
    · rintro ⟨-, b, hb, -, hi⟩
      omega
    · intro hn
      exact ⟨by omega, i / 32 % 8, by omega, h, by omega⟩
  · simp [fld]
    omega

theorem badSymbols_twoPow {i : Nat} (h : i < 512) : ∃ a, badSymbols (BitVec.twoPow 512 i) 0 = [a] := by
  refine List.length_eq_one_iff.mp (length_filter_range (a := {32 * (i / 256) + i % 32}) fun n => ?_)
  rw [symbolBad_twoPow h, Finset.mem_singleton]

/-- One flipped data bit of an HBM line is corrected. -/
theorem found_hbm_bit {i : Nat} (h : i < 512) : (found true (.err (BitVec.twoPow 512 i) 0)).cls = 1 := by
  obtain ⟨a, ha⟩ := badSymbols_twoPow h
  simp only [found, popcount_twoPow h, popcount_zero, ha]
  rfl

/-- The poison pattern shows through one flipped data bit of an HBM line. -/
theorem found_hbm_poison_bit {i : Nat} (h : i < 512) : (found true (.poisonErr (BitVec.twoPow 512 i) 0)).cls = 3 := by
  obtain ⟨a, ha⟩ := badSymbols_twoPow h
  simp only [found, ha]
  rfl

/-- A flipped bit beside the poison pattern of a SEC-DED word is uncorrectable. -/
theorem found_word_poison_bit {i : Nat} (h : i < 512) : (found false (.err (BitVec.twoPow 512 i) 7)).cls = 2 := by
  have hseven : popcount (7 : BitVec 32) = 3 := by decide
  have hpat : (7 : BitVec 32) ^^^ 7 = 0 := by decide
  simp only [found, popcount_twoPow h, twoPow_ne_zero h, hseven, hpat, popcount_zero]
  rfl

theorem found_word_bit {i : Nat} (h : i < 512) : (found false (.err (BitVec.twoPow 512 i) 0)).cls = 1 := by
  simp only [found, popcount_twoPow h, twoPow_ne_zero h, popcount_zero]
  rfl

theorem found_word_two_bits {i j : Nat} (hi : i < 512) (hj : j < 512) (hne : i ≠ j) :
    (found false (.err (BitVec.twoPow 512 i ||| BitVec.twoPow 512 j) 0)).cls = 2 := by
  have hpat : ((0 : BitVec 32).setWidth 8 = 0x07#8) = False := by simp
  simp only [found, popcount_two_bits hi hj hne, popcount_zero, hpat]
  simp

/-! ### The ring -/

/-- A new entry makes every other one older by one, and a full ring loses its oldest. -/
theorem Die.addLog_reverse (x : Die) (e : LogEntry) {age : Nat} (h : age + 1 < logCapacity) :
    (x.addLog e).log.reverse[age + 1]? = x.log.reverse[age]? := by
  unfold Die.addLog
  dsimp only
  rw [List.reverse_append, List.reverse_singleton, List.singleton_append, List.getElem?_cons_succ]
  split
  · rfl
  · next hfull => rw [List.getElem?_reverse (by simp; omega), List.getElem?_reverse (by omega), List.getElem?_tail, List.length_tail]; congr 1; omega

/-- The age of a slot after one more entry: the slot of the new entry has age 0, any other is older by one. -/
theorem ring_age {n slot : Nat} (h : slot < 32768) :
    let age := (n + 32768 - 1 - slot) % 32768
    let next := ((n + 1) % 32768 + 32768 - 1 - slot) % 32768
    (slot = n % 32768 → next = 0) ∧ (slot ≠ n % 32768 → next = age + 1 ∧ age + 1 < 32768) := by
  dsimp only
  omega

/-- A new entry takes its slot of the ring; the others stay. -/
theorem Die.logByte_addLog (x : Die) (e : LogEntry) {off : Nat} (h : off < 32 * logCapacity) :
    (x.addLog e).logByte off = if off / 32 = x.logNext % logCapacity then byteAt e.bytes (off % 32) else x.logByte off := by
  have hnext : (x.addLog e).logNext = (x.logNext + 1) % logCapacity := rfl
  have hslot : off / 32 < logCapacity := by omega
  obtain ⟨hnew, hold⟩ := ring_age (n := x.logNext) hslot
  unfold Die.logByte
  dsimp only
  rw [hnext, Nat.mod_eq_of_lt hslot]
  by_cases hs : off / 32 = x.logNext % logCapacity
  · rw [if_pos hs, show ((x.logNext + 1) % logCapacity + logCapacity - 1 - off / 32) % logCapacity = 0 from hnew hs]
    simp [Die.addLog]
  · obtain ⟨hage, hlt⟩ := hold hs
    rw [if_neg hs, show ((x.logNext + 1) % logCapacity + logCapacity - 1 - off / 32) % logCapacity = _ from hage]
    exact congrArg (fun o => match o with | some e => byteAt e.bytes (off % 32) | none => 0) (x.addLog_reverse e hlt)

end Sys2Proof.Machine
end

section
/-! PROOF. Stored-data protection (R298, R304, R308 to R310). -/

namespace Sys2Proof.Machine

/-! ### Registers of a die -/

theorem bitAt_setBit {w : Nat} (x : BitVec w) {i : Nat} (b : Bool) (h : i < w) : bitAt (setBit x i b) i = b := by
  unfold setBit bitAt
  rw [getLsbD_setFld]
  cases b <;> simp [h]

/-- A 64-bit register holds what is written. -/
theorem State.reg64_setReg64 (s : State) (d : DieIx) (off : Nat) (v : DWord) : (s.setReg64 d off v).reg64 d off = v := by
  rw [State.setReg64, State.reg64, State.reg_setReg, State.reg_setReg_ne _ _ _ _ (by omega), State.reg_setReg]
  refine BitVec.eq_of_getLsbD_eq fun i hi => ?_
  rw [BitVec.getLsbD_append]
  by_cases h : i < 32
  · simp [h]
  · simp [h, show i - 32 < 32 by omega, show 32 + (i - 32) = i by omega]

theorem State.reg_setReg64_ne (s : State) (d : DieIx) {off o : Nat} (v : DWord) (h : o ≠ off) (h4 : o ≠ off + 4) :
    (s.setReg64 d off v).reg d o = s.reg d o := by
  rw [State.setReg64, State.reg_setReg_ne _ _ _ _ (fun e => h4 e.2), State.reg_setReg_ne _ _ _ _ (fun e => h e.2)]

theorem State.rf_setRf (s : State) (d : DieIx) (off : Nat) {lo len v : Nat} (h : lo + len ≤ 32) (hv : v < 2 ^ len) :
    (s.setRf d off lo len v).rf d off lo len = v := by
  rw [State.setRf, State.modReg, State.rf, State.reg_setReg, fld_setFld_same _ _ h, Nat.mod_eq_of_lt hv]

theorem State.rf_setRf_ne (s : State) (d : DieIx) {off o : Nat} (lo len v lo' len' : Nat) (h : o ≠ off) :
    (s.setRf d off lo len v).rf d o lo' len' = s.rf d o lo' len' := by
  rw [State.rf, State.setRf, State.modReg, State.reg_setReg_ne _ _ _ _ (fun e => h e.2), State.rf]

theorem State.setRf_regsOnly (s : State) (d : DieIx) (off lo len v : Nat) : RegsOnly d s (s.setRf d off lo len v) := s.setReg_regsOnly d _ _

/-! ### Marks -/

theorem get_setMark_same (ms : List (Nat × Mark)) (k : Nat) (m : Mark) : SMap.get .clean (setMark ms k m) k = m := SMap.get_set_same .clean ms k m

theorem get_setMark_ne (ms : List (Nat × Mark)) {k a : Nat} (m : Mark) (h : a ≠ k) : SMap.get .clean (setMark ms k m) a = SMap.get .clean ms a :=
  SMap.get_set_other .clean ms k a m h

/-! ### Poison write-back (R298, R304) -/

/-- A write-back gives its word the poison pattern and touches no other memory. -/
theorem State.mem_writeBackWord (s : State) (d : DieIx) (k : Nat) : (s.writeBackWord d k).mem.cells = s.mem.cells
    ∧ (s.writeBackWord d k).mem.marks = setMark s.mem.marks k .poison := by
  unfold State.writeBackWord State.hbmCount
  split <;> exact ⟨rfl, rfl⟩

/-- Counting at the HBM pins leaves the list of write-backs. -/
theorem State.writeBacks_hbmCount (s : State) (d : DieIx) (region off n reg : Nat) :
    ((s.hbmCount d region off n reg).die d).writeBacks = (s.die d).writeBacks := by
  unfold State.hbmCount
  split <;> simp [State.setReg64, State.setReg]

/-- What a write-back counts: a line of HBM as written, and for other memory nothing. -/
theorem State.reg_writeBackWord (s : State) (d : DieIx) (k : Nat) :
    (∀ o, o ≠ rHbmWr → o ≠ rHbmWr + 4 → (s.writeBackWord d k).reg d o = s.reg d o)
      ∧ (k / 2 ^ 39 % 256 ≠ 0 → ((s.writeBackWord d k).die d).regs = (s.die d).regs)
      ∧ (k / 2 ^ 39 % 256 = 0 → k % 2 ^ 39 % 64 = 0 → (s.writeBackWord d k).reg64 d rHbmWr = s.reg64 d rHbmWr + 64) := by
  unfold State.writeBackWord State.hbmCount
  split
  · next hr =>
    refine ⟨fun o h h4 => ?_, fun h => absurd hr h, fun _ hline => ?_⟩
    · rw [State.reg_modDie _ _ _ _ (by intro; rfl), State.reg_setReg64_ne _ _ _ h h4]
      rfl
    · have hbytes : lineBytes (k % 2 ^ 39) 64 = 64 := by
        unfold lineBytes
        rw [hline]
        rfl
      rw [hbytes, State.reg64, State.reg_modDie _ _ _ _ (by intro; rfl), State.reg_modDie _ _ _ _ (by intro; rfl)]
      exact State.reg64_setReg64 ..
  · next hr => exact ⟨fun _ _ _ => rfl, fun _ => rfl, fun h => absurd h hr⟩

/-- POISON_WRITE_BACK takes the oldest word off the list and writes it back. -/
theorem exec_poisonWriteBack {s : State} {d : DieIx} {k : Nat} {ks : List Nat} (hready : Ready s d) (hlist : (s.die d).writeBacks = k :: ks) :
    exec (.poisonWriteBack d) s = .next ((s.modDie d (fun x => { x with writeBacks := ks })).writeBackWord d k) := by
  change execPoisonWriteBack d s = _
  rw [execPoisonWriteBack, onDie_ready hready]
  simp only [hlist]

/-- A write takes the words that it touches off the list of write-backs. -/
theorem State.writeBacks_memWrite (s : State) (a : Access) (d : DieIx) (region off : Nat) {bs : List Byte} (ps : List Bool) (h : bs ≠ []) :
    ∀ k ∈ ((s.memWrite a d region off bs ps).die d).writeBacks,
      ¬ (k + wordSize region > memKey d region off ∧ k < memKey d region off + bs.length) := by
  have hread (t : State) (v : DWord) : ((if region = 0 then t.setReg64 d rHbmRd v else t).die d).writeBacks = (t.die d).writeBacks := by
    split <;> simp [State.setReg64, State.setReg]
  have hflip (t : State) (c : Bool) (f : Word → Word) : ((if c then t.modReg d rEccFlipCtl f else t).die d).writeBacks = (t.die d).writeBacks := by
    split <;> simp [State.modReg, State.setReg]
  intro k hk
  unfold State.memWrite at hk
  dsimp only at hk
  rw [if_neg (by simpa using h), State.writeBacks_hbmCount, hread, hflip, State.die_modDie] at hk
  have hout := (List.mem_filter.mp hk).2
  simp only [Bool.not_eq_true', Bool.and_eq_false_iff, decide_eq_false_iff_not] at hout
  rintro ⟨hlow, hhigh⟩
  exact hout.elim (fun h => h hlow) (fun h => h hhigh)

/-! ### Error events and the leaky buckets (R309, R310) -/

/-- The host's queues are no part of a die. -/
theorem State.dies_writeCq {s t : State} {q : Fin 64} (h : s.writeCq q = some t) : t.dies = s.dies := by
  unfold State.writeCq at h
  dsimp only at h
  split at h
  · cases h
  · split at h
    · cases h
    · obtain rfl := Option.some.inj h
      split <;> simp

theorem State.dies_flushCqN (s : State) (q : Fin 64) (n : Nat) : (s.flushCqN q n).dies = s.dies := by
  induction n generalizing s with
  | zero => rfl
  | succ n ih =>
    rw [State.flushCqN]
    split
    · rfl
    · next t ht => exact (ih t).trans (State.dies_writeCq ht)

theorem State.dies_flushCq (s : State) (q : Fin 64) : (s.flushCq q).dies = s.dies := by
  unfold State.flushCq
  dsimp only
  split
  · exact (State.dies_flushCqN _ q 1).trans (State.dies_flushCqN s q _)
  · exact State.dies_flushCqN s q _

theorem State.dies_hostEvent (s : State) (d : DieIx) (src : Endpoint) (st : Nat) (job : BitVec 12) (epoch : BitVec 8) (step hall : Word)
    (type data : Nat) : (s.hostEvent d src st job epoch step hall type data).dies = s.dies := by
  unfold State.hostEvent State.postCq
  dsimp only
  split
  · exact State.dies_flushCq _ 0
  · rfl

/-- The counters of a bucket after an error event. -/
def State.countEcc (s : State) (d : DieIx) (n : Nat) : State := (s.addSat d (rEccLbLevel n) 0 8 1).addSat d (rEccLbTotal n) 0 32 1

theorem State.reg_countEcc_ne (s : State) (d : DieIx) {n o : Nat} (hl : o ≠ rEccLbLevel n) (ht : o ≠ rEccLbTotal n) :
    (s.countEcc d n).reg d o = s.reg d o := by
  rw [State.countEcc, State.addSat, State.setRf, State.modReg, State.reg_setReg_ne _ _ _ _ (fun h => ht h.2), State.addSat, State.setRf,
    State.modReg, State.reg_setReg_ne _ _ _ _ (fun h => hl h.2)]

/-- The level and the total of the bucket saturate. -/
theorem State.rf_countEcc (s : State) (d : DieIx) (n : Nat) :
    (s.countEcc d n).rf d (rEccLbLevel n) 0 8 = min (s.rf d (rEccLbLevel n) 0 8 + 1) 255
      ∧ (s.countEcc d n).rf d (rEccLbTotal n) 0 32 = min (s.rf d (rEccLbTotal n) 0 32 + 1) (2 ^ 32 - 1) := by
  have hne : rEccLbTotal n ≠ rEccLbLevel n := by unfold rEccLbTotal rEccLbLevel; omega
  have htotal : (s.addSat d (rEccLbLevel n) 0 8 1).rf d (rEccLbTotal n) 0 32 = s.rf d (rEccLbTotal n) 0 32 :=
    State.rf_setRf_ne s d _ _ _ _ _ hne
  constructor
  · exact (State.rf_setRf_ne _ d _ _ _ _ _ hne.symm).trans (State.rf_addSat s d _ 1 (by decide))
  · rw [State.countEcc, State.rf_addSat _ d _ 1 (by decide), htotal]

/-- The threshold of a bucket is no counter of it. -/
theorem State.thresh_countEcc (s : State) (d : DieIx) (n : Nat) : (s.countEcc d n).rf d (rEccLbCfg n) 0 8 = s.rf d (rEccLbCfg n) 0 8 := by
  rw [State.rf, State.reg_countEcc_ne s d (by unfold rEccLbCfg rEccLbLevel; omega) (by unfold rEccLbCfg rEccLbTotal; omega), State.rf]

/-- Counting changes registers of its die alone. -/
theorem State.countEcc_regsOnly (s : State) (d : DieIx) (n : Nat) : RegsOnly d s (s.countEcc d n) :=
  (State.setReg_regsOnly s d _ _).trans (State.setReg_regsOnly _ d _ _)

/-- The level of a bucket reaches its threshold: OVER is set, which is logged. -/
def State.reachThresh (s : State) (d : DieIx) (n addr : Nat) : State :=
  (s.modReg d rEccStatus (fun w => setBit w n true)).logEvent d 0x0702 0 (n + addr * 256)

/-- What an error event does to its die: it counts, and on reaching the threshold it sets OVER and logs; the interrupt, where there is one,
only disarms the bucket. -/
theorem State.die_eccEvent (s : State) (d : DieIx) (n addr : Nat) :
    (s.rf d (rEccLbLevel n) 0 8 + 1 = s.rf d (rEccLbCfg n) 0 8 →
      ∃ armed, (s.eccEvent d n addr).die d = { ((s.countEcc d n).reachThresh d n addr).die d with lbArmed := armed })
    ∧ (s.rf d (rEccLbLevel n) 0 8 + 1 ≠ s.rf d (rEccLbCfg n) 0 8 → (s.eccEvent d n addr).die d = (s.countEcc d n).die d) := by
  have hthresh := s.thresh_countEcc d n
  obtain ⟨hlevel, -⟩ := s.rf_countEcc d n
  have hlt : s.rf d (rEccLbCfg n) 0 8 < 2 ^ 8 := fld_lt ..
  unfold State.countEcc at hthresh hlevel
  unfold State.eccEvent
  dsimp only
  rw [hthresh, hlevel]
  constructor
  · intro h
    rw [if_pos (by omega)]
    split
    · exact ⟨_, by simp only [State.unitEvent, State.die, State.dies_hostEvent, State.raise_dies]; exact State.die_modDie ..⟩
    · exact ⟨_, rfl⟩
  · intro h
    rw [if_neg (by omega)]
    rfl

/-- What a log entry shows of the die that writes it depends on its clock and two registers. -/
theorem State.logWith_congr {s t : State} {d : DieIx} (code detail : Nat) (hlog : (t.die d).log = (s.die d).log)
    (htimer : (t.die d).timer = (s.die d).timer) (hlnk : t.reg d rLnkStatus = s.reg d rLnkStatus)
    (hhlt : t.reg d rHltStatus = s.reg d rHltStatus) : t.logWith d code detail = s.logWith d code detail := by
  simp only [State.logWith, State.stamp, State.endpoint, State.moduleNo, State.dieGen, State.rf, hlog, htimer, hlnk, hhlt]

/-- Reaching the threshold sets OVER, which one entry tells. -/
theorem State.reachThresh_spec (s : State) (d : DieIx) (n : Fin 10) (addr : Nat) :
    bitAt (((s.countEcc d n).reachThresh d n addr).reg d rEccStatus) n = true
      ∧ (((s.countEcc d n).reachThresh d n addr).die d).log = s.logWith d 0x0702 (n + addr * 256)
      ∧ ∀ o, o ≠ rEccStatus → ((s.countEcc d n).reachThresh d n addr).reg d o = (s.countEcc d n).reg d o := by
  have hother (o : Nat) (h : o ≠ rEccStatus) :
      ((s.countEcc d n).modReg d rEccStatus (fun w => setBit w n true)).reg d o = (s.countEcc d n).reg d o :=
    State.reg_setReg_ne _ _ _ _ (fun e => h e.2)
  have hcount (o : Nat) (h : blkECC + 0x200 ≤ o ∨ o < blkECC) : (s.countEcc d n).reg d o = s.reg d o :=
    s.reg_countEcc_ne d (by unfold rEccLbLevel; omega) (by unfold rEccLbTotal; omega)
  obtain ⟨r, hr⟩ := s.countEcc_regsOnly d n
  refine ⟨?_, ?_, fun o h => ?_⟩
  · rw [State.reachThresh, State.reg_logEvent, State.modReg, State.reg_setReg, bitAt_setBit _ _ (by omega)]
  · rw [State.reachThresh, State.die_logEvent]
    refine State.logWith_congr _ _ ?_ ?_ ?_ ?_
    · simp [State.modReg, State.setReg, hr]
    · simp [State.modReg, State.setReg, hr]
    · rw [hother _ (by decide), hcount _ (by decide)]
    · rw [hother _ (by decide), hcount _ (by decide)]
  · rw [State.reachThresh, State.reg_logEvent, hother o h]

/-- An error event counts in the level and the total of its bucket, and on reaching THRESH sets OVER and logs (R309, R310). -/
theorem State.eccEvent_spec (s : State) (d : DieIx) (n : Fin 10) (addr : Nat) :
    let t := s.eccEvent d n addr
    let level := s.rf d (rEccLbLevel n) 0 8
    t.rf d (rEccLbLevel n) 0 8 = min (level + 1) 255 ∧ t.rf d (rEccLbTotal n) 0 32 = min (s.rf d (rEccLbTotal n) 0 32 + 1) (2 ^ 32 - 1)
      ∧ (level + 1 = s.rf d (rEccLbCfg n) 0 8 → bitAt (t.reg d rEccStatus) n = true ∧ (t.die d).log = s.logWith d 0x0702 (n + addr * 256))
      ∧ (s.rf d (rEccLbCfg n) 0 8 = 0 → (t.die d).log = (s.die d).log) ∧ t.mem = s.mem := by
  intro t level
  obtain ⟨hreach, hcount⟩ := s.die_eccEvent d n addr
  obtain ⟨hlevel, htotal⟩ := s.rf_countEcc d n
  obtain ⟨hover, hlog, hregs⟩ := s.reachThresh_spec d n addr
  obtain ⟨r, hr⟩ := (s.countEcc_regsOnly d n).die
  have hmem : t.mem = s.mem := (State.eccEvent_sparesMem (hi := False) s d n addr False.elim).mem
  by_cases h : level + 1 = s.rf d (rEccLbCfg n) 0 8
  · obtain ⟨armed, hdie⟩ := hreach h
    have hreg (o : Nat) : t.reg d o = ((s.countEcc d n).reachThresh d n addr).reg d o := by rw [State.reg, hdie, State.reg]
    refine ⟨?_, ?_, fun _ => ⟨?_, ?_⟩, fun h0 => by omega, hmem⟩
    · rw [State.rf, hreg, hregs _ (by unfold rEccLbLevel rEccStatus; omega)]; exact hlevel
    · rw [State.rf, hreg, hregs _ (by unfold rEccLbTotal rEccStatus; omega)]; exact htotal
    · rw [hreg]; exact hover
    · rw [hdie]; exact hlog
  · have hdie := hcount h
    have hreg (o : Nat) : t.reg d o = (s.countEcc d n).reg d o := by rw [State.reg, hdie, State.reg]
    refine ⟨?_, ?_, fun h' => absurd h' h, fun _ => ?_, hmem⟩
    · rw [State.rf, hreg]; exact hlevel
    · rw [State.rf, hreg]; exact htotal
    · rw [hdie, hr]

/-! ### Scrubbing (R308) -/

/-- An error event leaves the scrubber's place. -/
theorem State.scrubPos_eccEvent (s : State) (d : DieIx) (n addr : Nat) : ((s.eccEvent d n addr).die d).scrubPos = (s.die d).scrubPos := by
  obtain ⟨hreach, hcount⟩ := s.die_eccEvent d n addr
  obtain ⟨r, hr⟩ := s.countEcc_regsOnly d n
  by_cases h : s.rf d (rEccLbLevel n) 0 8 + 1 = s.rf d (rEccLbCfg n) 0 8
  · obtain ⟨armed, hdie⟩ := hreach h
    rw [hdie]
    dsimp only
    rw [State.reachThresh, State.die_logEvent]
    simp [State.modReg, State.setReg, hr]
  · rw [hcount h, hr]
    simp

/-- The row log leaves the event log and the scrubber's place. -/
theorem State.log_rowLog (s : State) (d : DieIx) (off : Nat) (unc : Bool) :
    ((s.rowLog d off unc).die d).log = (s.die d).log ∧ ((s.rowLog d off unc).die d).scrubPos = (s.die d).scrubPos := by
  have hput (t : State) (e : Nat) (v : DWord) :
      let u := (t.setReg64 d (rEccRowlog e) v).modDie d (fun x => { x with rowAge := x.rowAge.setIfInBounds e x.rowNext, rowNext := x.rowNext + 1 })
      (u.die d).log = (t.die d).log ∧ (u.die d).scrubPos = (t.die d).scrubPos := by
    obtain ⟨r, hr⟩ := (t.setReg64_regsOnly d (rEccRowlog e) v).die
    simp [hr]
  have hset {t u : State} (h : RegsOnly d t u) : (u.die d).log = (t.die d).log ∧ (u.die d).scrubPos = (t.die d).scrubPos := by
    obtain ⟨r, hr⟩ := h.die
    simp [hr]
  unfold State.rowLog
  dsimp only
  split
  · exact hset (State.setReg64_regsOnly ..)
  · split
    · exact hput ..
    · split
      · exact hset (State.setReg_regsOnly ..)
      · exact hput ..

/-- The scrubber rewrites a word with a mark. -/
def State.rewrite (s : State) (d : DieIx) (key : Nat) (x : Mark) : State :=
  { s.modDie d (fun x => { x with writeBacks := x.writeBacks.filter (fun k => decide (k ≠ key)) }) with
    mem := ⟨s.mem.cells, setMark s.mem.marks key x⟩ }

theorem State.die_rewrite (s : State) (d : DieIx) (key : Nat) (x : Mark) : ∃ w, (s.rewrite d key x).die d = { s.die d with writeBacks := w } :=
  ⟨_, State.die_modDie s d (fun x => { x with writeBacks := x.writeBacks.filter (fun k => decide (k ≠ key)) })⟩

/-- The three ways to treat a line: a corrected one is rewritten clean, an uncorrectable one is logged and poisoned, any other stays. -/
theorem State.scrubLine_corrected {s : State} {d : DieIx} {off : Nat} (h : (found true (SMap.get .clean s.mem.marks (memKey d 0 off))).cls = 1) :
    s.scrubLine d off = ((s.eccEvent d (hbmStack off) (s.boardOf (memKey d 0 off))).rowLog d off false).rewrite d (memKey d 0 off) .clean := by
  unfold State.scrubLine
  dsimp only
  split
  · rfl
  · next hc => rw [h] at hc; cases hc
  · next hc _ => exact absurd h hc

theorem State.scrubLine_uncorrectable {s : State} {d : DieIx} {off : Nat}
    (h : (found true (SMap.get .clean s.mem.marks (memKey d 0 off))).cls = 2) :
    s.scrubLine d off = (((s.eccEvent d 9 (s.boardOf (memKey d 0 off))).logEvent d 0x0701 0 (s.boardOf (memKey d 0 off))).rowLog d off true).rewrite
      d (memKey d 0 off) .poison := by
  unfold State.scrubLine
  dsimp only
  split
  · next hc => rw [h] at hc; cases hc
  · rfl
  · next _ hc => exact absurd h hc

theorem State.scrubLine_other {s : State} {d : DieIx} {off : Nat} (h1 : (found true (SMap.get .clean s.mem.marks (memKey d 0 off))).cls ≠ 1)
    (h2 : (found true (SMap.get .clean s.mem.marks (memKey d 0 off))).cls ≠ 2) : s.scrubLine d off = s := by
  unfold State.scrubLine
  dsimp only
  split
  · next hc => exact absurd hc h1
  · next hc => exact absurd hc h2
  · rfl

/-- A line that is scrubbed: the mark it gets, and the entry that an uncorrectable one leaves. -/
theorem State.scrubLine_spec (s : State) (d : DieIx) (off : Nat) :
    let key := memKey d 0 off
    let m := SMap.get .clean s.mem.marks key
    let t := s.scrubLine d off
    t.mem.cells = s.mem.cells
      ∧ SMap.get .clean t.mem.marks key = (if (found true m).cls = 1 then .clean else if (found true m).cls = 2 then .poison else m)
      ∧ (∀ a, a ≠ key → SMap.get .clean t.mem.marks a = SMap.get .clean s.mem.marks a)
      ∧ (t.die d).scrubPos = (s.die d).scrubPos ∧ (t.die d).cores = (s.die d).cores
      ∧ ((found true m).cls = 2 → ∃ e ∈ (t.die d).log, e.event = 0x0701 ∧ e.detail = BitVec.ofNat 64 (s.boardOf key)) := by
  intro key m t
  by_cases h1 : (found true m).cls = 1
  · have ht : t = _ := State.scrubLine_corrected h1
    have hspares := (State.eccEvent_sparesMem (hi := False) s d (hbmStack off) (s.boardOf key) False.elim).trans (State.rowLog_sparesMem _ d off false)
    have hmarks : t.mem.marks = setMark s.mem.marks key .clean := by rw [ht, State.rewrite, hspares.mem]
    obtain ⟨w, hdie⟩ := State.die_rewrite ((s.eccEvent d (hbmStack off) (s.boardOf key)).rowLog d off false) d key .clean
    rw [← ht] at hdie
    refine ⟨by rw [ht, State.rewrite, hspares.mem], ?_, fun a ha => ?_, ?_, ?_, fun h2 => absurd (h1.symm.trans h2) (by decide)⟩
    · rw [hmarks, if_pos h1, get_setMark_same]
    · rw [hmarks, get_setMark_ne _ _ ha]
    · rw [hdie]; exact (State.log_rowLog ..).2.trans (State.scrubPos_eccEvent ..)
    · rw [hdie]; exact hspares.cores d
  · by_cases h2 : (found true m).cls = 2
    · have ht : t = _ := State.scrubLine_uncorrectable h2
      have hspares := ((State.eccEvent_sparesMem (hi := False) s d 9 (s.boardOf key) False.elim).trans
        (.logEvent _ d 0x0701 0 (s.boardOf key))).trans (State.rowLog_sparesMem _ d off true)
      have hmarks : t.mem.marks = setMark s.mem.marks key .poison := by rw [ht, State.rewrite, hspares.mem]
      obtain ⟨hlog, hpos⟩ := State.log_rowLog ((s.eccEvent d 9 (s.boardOf key)).logEvent d 0x0701 0 (s.boardOf key)) d off true
      rw [State.die_logEvent] at hlog hpos
      obtain ⟨w, hdie⟩ := State.die_rewrite (((s.eccEvent d 9 (s.boardOf key)).logEvent d 0x0701 0 (s.boardOf key)).rowLog d off true) d key .poison
      rw [← ht] at hdie
      refine ⟨by rw [ht, State.rewrite, hspares.mem], ?_, fun a ha => ?_, ?_, ?_, fun _ => ?_⟩
      · rw [hmarks, if_neg h1, if_pos h2, get_setMark_same]
      · rw [hmarks, get_setMark_ne _ _ ha]
      · rw [hdie]; exact hpos.trans (State.scrubPos_eccEvent ..)
      · rw [hdie]; exact hspares.cores d
      · rw [hdie]; dsimp only; rw [hlog]
        exact ⟨_, List.mem_append_right _ (List.mem_singleton_self _), rfl, rfl⟩
    · have ht : t = s := State.scrubLine_other h1 h2
      rw [ht, if_neg h1, if_neg h2]
      exact ⟨rfl, rfl, fun _ _ => rfl, rfl, rfl, fun h => absurd h h2⟩

/-- SCRUB flips what it is given in the line at the scrubber's place, treats the line and moves on. -/
theorem exec_scrub {s : State} {d : DieIx} (data : BitVec 512) (check : BitVec 32) (hready : Ready s d) (hon : bitAt (s.reg d rEccScrub) 31 = true)
    (hserves : s.hbmServes d = true) :
    let key := memKey d 0 ((s.die d).scrubPos * 64)
    exec (.scrub d data check) s = .next ((State.scrubLine { s with mem := ⟨s.mem.cells, setMark s.mem.marks key
      (flipMark true (SMap.get .clean s.mem.marks key) data check)⟩ } d ((s.die d).scrubPos * 64)).modDie d (fun x =>
        { x with scrubPos := (x.scrubPos + 1) % hbmLines })) := by
  change execScrub d data check s = _
  rw [execScrub, onDie_ready hready]
  simp only [hon, hserves, Bool.not_true, Bool.false_eq_true, or_self, if_false]

/-! ### Leaking (R309) -/

/-- The state in which a bucket's level has sunk by one, and which is armed again at half of THRESH or below. -/
def State.leaked (s : State) (d : DieIx) (n : Fin 10) : State :=
  let level := s.rf d (rEccLbLevel n) 0 8 - 1
  let t := s.setRf d (rEccLbLevel n) 0 8 level
  if level ≤ s.rf d (rEccLbCfg n) 0 8 / 2 then t.modDie d (fun x => { x with lbArmed := setBit x.lbArmed n true }) else t

theorem exec_leak_off {s : State} {d : DieIx} {n : Fin 10} (hready : Ready s d) (h : s.rf d (rEccLbCfg n) 16 16 = 0) :
    exec (.leak d n) s = .next s := by
  change execLeak d n s = _
  rw [execLeak, onDie_ready hready, if_pos h]

theorem exec_leak_on {s : State} {d : DieIx} {n : Fin 10} (hready : Ready s d) (h : s.rf d (rEccLbCfg n) 16 16 ≠ 0) :
    exec (.leak d n) s = .next (s.leaked d n) := by
  change execLeak d n s = _
  rw [execLeak, onDie_ready hready, if_neg h]
  rfl

theorem State.leaked_spec (s : State) (d : DieIx) (n : Fin 10) :
    let level := s.rf d (rEccLbLevel n) 0 8 - 1
    let t := s.leaked d n
    t.rf d (rEccLbLevel n) 0 8 = level ∧ t.rf d (rEccLbTotal n) 0 32 = s.rf d (rEccLbTotal n) 0 32
      ∧ (level ≤ s.rf d (rEccLbCfg n) 0 8 / 2 → bitAt (t.die d).lbArmed n = true)
      ∧ (s.rf d (rEccLbCfg n) 0 8 / 2 < level → (t.die d).lbArmed = (s.die d).lbArmed)
      ∧ t.mem = s.mem ∧ (t.die d).cores = (s.die d).cores := by
  intro level t
  have hne : rEccLbTotal n ≠ rEccLbLevel n := by unfold rEccLbTotal rEccLbLevel; omega
  have hlt : s.rf d (rEccLbLevel n) 0 8 < 2 ^ 8 := fld_lt ..
  have hlevel := s.rf_setRf d (rEccLbLevel n) (lo := 0) (len := 8) (v := level) (by decide) (by omega)
  have htotal := s.rf_setRf_ne d 0 8 level 0 32 hne
  have harm (u : State) (o lo len : Nat) : (u.modDie d (fun x => { x with lbArmed := setBit x.lbArmed n true })).rf d o lo len = u.rf d o lo len := by
    rw [State.rf, State.reg_modDie _ _ _ _ (by intro; rfl), State.rf]
  obtain ⟨r, hr⟩ := (s.setRf_regsOnly d (rEccLbLevel n) 0 8 level).die
  by_cases h : level ≤ s.rf d (rEccLbCfg n) 0 8 / 2
  · have ht : t = _ := if_pos h
    rw [ht, harm, harm, hlevel, htotal, State.die_modDie, hr]
    exact ⟨rfl, rfl, fun _ => bitAt_setBit _ _ (by omega), fun hhigh => absurd h (by omega), rfl, rfl⟩
  · have ht : t = _ := if_neg h
    rw [ht, hlevel, htotal, hr]
    exact ⟨rfl, rfl, fun hlow => absurd hlow h, fun _ => rfl, rfl, rfl⟩

end Sys2Proof.Machine
end

section
open Sys2Proof Sys2Proof.Machine
open Host (Outcome)

/-- Settles O32: the words of marks are found by counting bits and symbols, error events count in registers of their die alone. -/
theorem storedDataProtection : Obligations.StoredDataProtection := by
  unfold Obligations.StoredDataProtection
  refine ⟨?_, ?_, ?_, rfl, rfl, fun i hi => ?_, fun i hi => ?_, fun i hi => ?_, fun i j hi hj hne => ⟨?_, ?_⟩,
    fun s d n addr => s.eccEvent_spec d n addr, fun s d n hready => ⟨exec_leak_off hready, fun hon => ⟨_, exec_leak_on hready hon, s.leaked_spec d n⟩⟩,
    fun x e off h => x.logByte_addLog e h⟩
  · intro s d k ks hready hlist
    let u := s.modDie d (fun x => { x with writeBacks := ks })
    obtain ⟨hcells, hmarks⟩ := u.mem_writeBackWord d k
    have hdie : (u.poisonWord k).die d = { s.die d with writeBacks := ks } := State.die_modDie s d (fun x => { x with writeBacks := ks })
    have hreg (o : Nat) : u.reg d o = s.reg d o := State.reg_modDie _ _ _ _ (fun _ => rfl)
    obtain ⟨hregs, hsame, hcount⟩ := u.reg_writeBackWord d k
    refine ⟨_, exec_poisonWriteBack hready hlist, ?_, ?_, fun a ha => ?_, ?_, fun h => ?_, fun h hline => ?_, fun o h h4 => ?_, ?_⟩
    · rw [hmarks, get_setMark_same]
    · rw [State.writeBackWord, State.writeBacks_hbmCount]
      exact congrArg Die.writeBacks hdie
    · rw [hmarks, get_setMark_ne _ _ ha]; rfl
    · rw [hcells]; rfl
    · rw [hsame h]; simp [u]
    · rw [hcount h hline, State.reg64, hreg, hreg, State.reg64]
    · rw [hregs o h h4, hreg]
    · rw [State.writeBackWord, (State.hbmCount_sparesMem (hi := False) _ d _ _ _ _ (by decide)).cores d]
      exact (congrArg Die.cores hdie :)
  · intro s a d region off bs ps k hbs hlow hhigh hk
    exact s.writeBacks_memWrite a d region off ps hbs k hk ⟨hlow, hhigh⟩
  · intro s d data check hready hon hserves key m after
    let u : State := { s with mem := ⟨s.mem.cells, setMark s.mem.marks key m⟩ }
    have hm : SMap.get .clean u.mem.marks key = m := get_setMark_same ..
    obtain ⟨hcells, hmark, hothers, hpos, hcores, hlog⟩ := u.scrubLine_spec d ((s.die d).scrubPos * 64)
    rw [show memKey d 0 ((s.die d).scrubPos * 64) = key from rfl, hm] at hmark hlog
    refine ⟨_, exec_scrub data check hready hon hserves, hmark, fun a ha => (hothers a ha).trans (get_setMark_ne _ _ ha), hcells, ?_, fun h => ?_, ?_⟩
    · rw [State.die_modDie]; exact congrArg (fun n => (n + 1) % hbmLines) hpos
    · rw [State.die_modDie]; exact hlog h
    · rw [State.die_modDie]; exact hcores
  · rw [natCast_one_shiftLeft]; exact found_hbm_bit hi
  · rw [natCast_one_shiftLeft]; exact found_hbm_poison_bit hi
  · rw [natCast_one_shiftLeft]; exact found_word_poison_bit (by omega)
  · rw [natCast_one_shiftLeft]; exact found_word_bit (by omega)
  · rw [natCast_one_shiftLeft, natCast_one_shiftLeft]; exact found_word_two_bits (by omega) (by omega) hne
end

section
/-! LEMMAS. The bytes of a queue window (R86), and what keeps the head of a queue from starting (R36, R85). -/

namespace Sys2Proof.Machine

/-! ### Bytes of a descriptor -/

/-- The bits of a little-endian number are those of its bytes. -/
theorem testBit_leNat (bs : List Byte) (i : Nat) : (leNat bs).testBit i = (bs.getD (i / 8) 0).getLsbD (i % 8) := by
  induction bs generalizing i with
  | nil => simp [leNat]
  | cons b bs ih =>
    have hcons : leNat (b :: bs) = 2 ^ 8 * leNat bs + b.toNat := by simp [leNat]; omega
    rw [hcons, Nat.testBit_two_pow_mul_add _ b.isLt]
    split
    · next h => simp [show i / 8 = 0 by omega, show i % 8 = i by omega, BitVec.getLsbD]
    · next h => rw [ih, show i / 8 = (i - 8) / 8 + 1 by omega, List.getD_cons_succ, show (i - 8) % 8 = i % 8 by omega]

/-- A write sets the bytes that it carries, and the others stay. -/
theorem getLsbD_overlay (bs : List Byte) (b : Desc) (k : Nat) {i : Nat} (hi : i < 512) :
    (overlay b k bs).getLsbD i =
      if 8 * k ≤ i ∧ i < 8 * (k + bs.length) then (bs.getD (i / 8 - k) 0).getLsbD (i % 8) else b.getLsbD i := by
  induction bs generalizing b k with
  | nil => rw [overlay, if_neg (by simp)]
  | cons x xs ih =>
    rw [overlay, ih, getLsbD_setFld, List.length_cons]
    by_cases hx : i / 8 = k
    · rw [if_neg (by omega), if_pos (by omega), if_pos (by omega), hx, Nat.sub_self, List.getD_cons_zero]
      simp [hi, BitVec.getLsbD, show i - 8 * k = i % 8 by omega]
    · by_cases hin : 8 * (k + 1) ≤ i ∧ i < 8 * (k + 1 + xs.length)
      · rw [if_pos hin, if_pos (by omega), show i / 8 - k = i / 8 - (k + 1) + 1 by omega, List.getD_cons_succ]
      · rw [if_neg hin, if_neg (by omega), if_neg (by omega)]
        simp [hi]

/-- 64 bytes written into an empty window are the descriptor (R46). -/
theorem overlay_eq_descOf {data : List Byte} (h : data.length = 64) : overlay 0 0 data = descOf data := by
  refine BitVec.eq_of_getLsbD_eq fun i hi => ?_
  rw [getLsbD_overlay _ _ _ hi, if_pos (by omega), descOf, BitVec.getLsbD_ofNat, testBit_leNat, List.take_of_length_le (by omega)]
  simp [hi]

/-- A byte of a window that a write carries. -/
theorem fld_overlay {data : List Byte} (b : Desc) {off j : Nat} (hj : j < data.length) (h : off + data.length ≤ 64) :
    fld (overlay b off data) (8 * (off + j)) 8 = (data.getD j 0).toNat := by
  refine Nat.eq_of_testBit_eq fun i => ?_
  rw [testBit_fld]
  by_cases hi : i < 8
  · rw [getLsbD_overlay _ _ _ (by omega), if_pos (by omega), show (8 * (off + j) + i) / 8 - off = j by omega,
      show (8 * (off + j) + i) % 8 = i by omega]
    simp [hi, BitVec.getLsbD]
  · have hlt := (data.getD j 0).isLt
    simp only [hi, decide_false, Bool.false_and]
    exact (Nat.testBit_lt_two_pow (Nat.lt_of_lt_of_le hlt (Nat.pow_le_pow_right (by decide) (by omega)))).symm

/-! ### Queues in their die -/

/-- A queue that is set changes the queues and cores of its die alone. -/
theorem State.setQueue_eq (s : State) (d : DieIx) (q : QId) (x : CmdQueue) :
    ∃ cs us, s.setQueue d q x = s.modDie d (fun y => { y with cores := cs, uq := us }) := by
  cases q with
  | core c => exact ⟨(s.die d).cores.set c { s.core d c with queue := x }, (s.die d).uq, rfl⟩
  | _ => exact ⟨(s.die d).cores, _, rfl⟩

theorem State.mem_setQueue (s : State) (d : DieIx) (q : QId) (x : CmdQueue) : (s.setQueue d q x).mem = s.mem := by
  obtain ⟨cs, us, h⟩ := s.setQueue_eq d q x
  rw [h]
  rfl

theorem State.reg_setQueue (s : State) (d e : DieIx) (q : QId) (x : CmdQueue) (off : Nat) : (s.setQueue d q x).reg e off = s.reg e off := by
  obtain ⟨cs, us, h⟩ := s.setQueue_eq d q x
  rw [h]
  exact State.reg_modDie _ _ _ _ (fun _ => rfl)

/-- A queue is no other part of a core. -/
theorem State.core_setQueue (s : State) (d : DieIx) (q : QId) (x : CmdQueue) (c : CoreIx) :
    ∃ y, (s.setQueue d q x).core d c = { s.core d c with queue := y } := by
  cases q with
  | core k =>
    by_cases h : c = k
    · subst h; exact ⟨x, State.core_modCore ..⟩
    · exact ⟨(s.core d c).queue, State.core_setCore_ne _ _ _ _ _ h⟩
  | _ => exact ⟨(s.core d c).queue, by simp [State.setQueue, State.core, Die.core]⟩

/-! ### Starting (R36, R85) -/

/-- What decides whether a waiting command of queue q of die d can start is in t as it is in s. -/
structure SameStart (d : DieIx) (q : QId) (s t : State) : Prop where
  mem : t.mem = s.mem
  fuses : t.fuses = s.fuses
  regs : ∀ e off, t.reg e off = s.reg e off
  slots : ∀ e, (t.die e).slots = (s.die e).slots
  stroke : t.stroke d = s.stroke d
  resets : (t.die d).resets = (s.die d).resets
  drains : (t.die d).drains = (s.die d).drains
  running : ∀ e p, (t.queue e p).running = (s.queue e p).running
  done : (t.queue d q).done = (s.queue d q).done
  waiting : ∀ e, e ≠ d → (t.queue e .cru).entries = (s.queue e .cru).entries
  procs : ∀ c, (t.core d c).proc = (s.core d c).proc
  recovering : ∀ c, (t.core d c).recovering = (s.core d c).recovering

namespace SameStart

variable {d : DieIx} {q : QId} {s t : State}

theorem rf (h : SameStart d q s t) (e : DieIx) (off lo len : Nat) : t.rf e off lo len = s.rf e off lo len := by
  simp [State.rf, h.regs]

theorem queueHeld (h : SameStart d q s t) : t.queueHeld d q = s.queueHeld d q := by
  unfold State.queueHeld State.ringFull State.ringUsed State.ringSize State.coreTaken
  simp only [h.rf, h.regs, h.procs, h.recovering]

theorem commitHolds (h : SameStart d q s t) (x : Desc) : t.commitHolds d x = s.commitHolds d x := by
  unfold State.commitHolds State.ctxOf State.cmtState State.commitStroke
  simp only [h.rf, h.regs, h.stroke]

theorem heldByReset (h : SameStart d q s t) (kind : Nat) : t.resets d q kind = s.resets d q kind := by
  simp [State.resets, h.resets]

theorem cruMask (h : SameStart d q s t) (e : DieIx) (x : Desc) : t.cruMask e x = s.cruMask e x := by
  have hslot : t.slot = s.slot := by simp [State.slot, h.fuses]
  unfold State.cruMask
  simp only [hslot, h.mem, h.slots, h.rf]

theorem cruBusy (h : SameStart d q s t) (e : DieIx) : t.cruBusy e = s.cruBusy e := by
  have hrun (a : DieIx) : (t.die a).uq[6].running = (s.die a).uq[6].running := h.running a .cru
  unfold State.cruBusy
  simp only [hrun, h.cruMask]

theorem cruFree (h : SameStart d q s t) (x : QEntry) : t.cruFree d x = s.cruFree d x := by
  unfold State.cruFree
  simp only [h.cruMask, h.cruBusy]
  refine List.all_congr rfl fun e => ?_
  by_cases he : e = d
  · congr 1
    simp only [he, decide_true, Bool.true_or]
    split <;> split <;> rfl
  · have hw : (t.die e).uq[6].entries = (s.die e).uq[6].entries := h.waiting e he
    rw [hw]

theorem drainFirst (h : SameStart d q s t) (ctx : Nat) : t.drainFirst d ctx = s.drainFirst d ctx := by
  have hrun (c : CoreIx) : (t.core d c).queue.running = (s.core d c).queue.running := h.running d (.core c)
  unfold State.drainFirst
  simp only [h.drains, hrun]

theorem canStart (h : SameStart d q s t) (e : QEntry) : t.canStart d q e = s.canStart d q e := by
  have htaken : loaderTaken (t.queue d q) = loaderTaken (s.queue d q) := by unfold loaderTaken; rw [h.running]
  unfold State.canStart
  simp only [h.queueHeld, h.running, h.done, h.commitHolds, h.heldByReset, h.cruFree, h.drainFirst, htaken]

end SameStart

/-- Waking a die changes nothing that lets a command start. -/
theorem State.sameStart_wake (s : State) (d e : DieIx) (q : QId) : SameStart d q s (s.wake e) := by
  unfold State.wake
  split
  · exact ⟨rfl, rfl, fun _ _ => rfl, fun _ => rfl, rfl, rfl, rfl, fun _ p => by cases p <;> rfl, by cases q <;> rfl, fun _ _ => rfl, fun _ => rfl,
      fun _ => rfl⟩
  · exact ⟨rfl, rfl, fun _ _ => rfl, fun _ => rfl, rfl, rfl, rfl, fun _ _ => rfl, rfl, fun _ _ => rfl, fun _ => rfl, fun _ => rfl⟩

/-- Nor does a change of a queue beside its running commands and records. -/
theorem State.sameStart_setQueue (s : State) (d : DieIx) (q : QId) {x : CmdQueue} (hr : x.running = (s.queue d q).running)
    (hd : x.done = (s.queue d q).done) : SameStart d q s (s.setQueue d q x) := by
  obtain ⟨cs, us, h⟩ := s.setQueue_eq d q x
  have hdie (e : DieIx) : (s.setQueue d q x).die e = { s.die e with cores := ((s.setQueue d q x).die e).cores, uq := ((s.setQueue d q x).die e).uq } := by
    rw [h]
    by_cases he : e = d
    · subst he; simp
    · simp [State.die_modDie_ne s d e _ he]
  refine ⟨by rw [h]; rfl, by rw [h]; rfl, fun e off => State.reg_setQueue .., fun e => by rw [hdie], State.stroke_setQueue .., by rw [hdie],
    by rw [hdie], fun e p => ?_, by rw [State.queue_setQueue, hd], fun e he => ?_, fun c => ?_, fun c => ?_⟩
  · by_cases hp : d = e ∧ q = p
    · obtain ⟨rfl, rfl⟩ := hp
      rw [State.queue_setQueue, hr]
    · rw [State.queue_setQueue_ne _ _ _ _ _ _ hp]
  · rw [State.queue_setQueue_ne _ _ _ _ _ _ (fun hp => he hp.1.symm)]
  · obtain ⟨y, hy⟩ := s.core_setQueue d q x c
    rw [hy]
  · obtain ⟨y, hy⟩ := s.core_setQueue d q x c
    rw [hy]

/-- Whether the head e of a queue waits: a reset holds it, or nothing completes it at once and it cannot start. -/
def State.headWaits (s : State) (d : DieIx) (q : QId) (e : QEntry) : Bool :=
  s.resets d q (dKind e.desc) || (!e.poison && headerOk q (s.stroke d) e.desc && !s.parked d
    && (if e.aborted then !(s.queue d q).running.isEmpty else !s.canStart d q e))

theorem State.startHead_eq_none {s : State} {d : DieIx} {q : QId} {e : QEntry} {es : List QEntry} (h : (s.queue d q).entries = e :: es) :
    s.startHead d q = none ↔ s.headWaits d q e = true := by
  unfold State.startHead State.headWaits
  simp only [h]
  cases s.resets d q (dKind e.desc) <;> simp
  cases e.poison <;> simp
  cases headerOk q (s.stroke d) e.desc <;> simp
  cases s.parked d <;> simp
  cases e.aborted <;> simp

theorem State.startQueue_eq_self {s : State} {d : DieIx} {q : QId} (h : s.startHead d q = none) : s.startQueue d q = s := by
  unfold State.startQueue
  cases (s.queue d q).entries.length with
  | zero => rfl
  | succ n => rw [State.startReady, h]

end Sys2Proof.Machine
end

section
/-! PROOF. Queue windows (R36, R85 to R87). -/

namespace Sys2Proof.Machine

/-! ### Pushing -/

theorem State.queue_wake (s : State) (d e : DieIx) (q : QId) : (s.wake e).queue d q = s.queue d q := by
  cases q <;> simp [State.queue, State.core]

/-- A die that is not parked is not parked once it wakes, nor does waking end that state. -/
theorem State.parked_wake (s : State) (d : DieIx) : (s.wake d).parked d = s.parked d := by
  unfold State.wake
  split
  · next h =>
    have hpreg : (s.setPf rPwrLpStat (2 * d.val) 2 0).preg rPwrLpStat = setFld (s.preg rPwrLpStat) (2 * d.val) 2 0 := SMap.get_set_same ..
    have hnow : (s.setPf rPwrLpStat (2 * d.val) 2 0).pf rPwrLpStat (2 * d.val) 2 = 0 := by
      rw [State.pf, hpreg, fld_setFld_same _ _ (by omega), Nat.zero_mod]
    unfold State.parked
    rw [hnow, h]
    decide
  · rfl

/-- A command that is not released cannot start. -/
theorem State.canStart_unreleased (s : State) (d : DieIx) (q : QId) {e : QEntry} (h : e.released = none) : s.canStart d q e = false := by
  simp [State.canStart, h]

/-- A reset that holds a queue as a whole holds each of its commands. -/
theorem resetBlocks_of_queue {m : Domain} {q : QId} (kind : Nat) (h : resetBlocks m q 0 = true) : resetBlocks m q kind = true := by
  unfold resetBlocks at h ⊢
  split at h <;> simp_all

theorem State.resets_of_queue {s : State} {d : DieIx} {q : QId} (kind : Nat) (h : s.resets d q 0 = true) : s.resets d q kind = true := by
  obtain ⟨r, hr, hblocks⟩ := List.any_eq_true.mp h
  exact List.any_eq_true.mpr ⟨r, hr, resetBlocks_of_queue kind hblocks⟩

theorem State.setQueue_queue (s : State) (d : DieIx) (q : QId) : s.setQueue d q (s.queue d q) = s := by
  have huq (k : Fin 10) : s.modDie d (fun x => { x with uq := x.uq.set k (s.die d).uq[k] }) = s := State.modDie_of_eq (by simp)
  cases q with
  | core c => exact State.modDie_of_eq (f := fun x => x.setCore c (s.core d c)) (by simp [Die.setCore, State.core, Die.core])
  | _ => exact huq _

/-- Whether an issuer pushes as firmware: Pelbex and the health controller do (R87). -/
def byFirmware (i : Issuer) : Bool :=
  match i with
  | .ep _ => false
  | _ => true

/-- The descriptor that a push enters, with the receiving domain's tag in byte 5 (R87). -/
def State.pushEntryOf (s : State) (d : DieIx) (q : QId) (i : Issuer) (desc : Desc) : QEntry :=
  ⟨(s.queue d q).nextIdent, setFld desc 40 8 (s.recvGen d q).toNat, none, false, false, byFirmware i⟩

/-- The queue after a push. -/
def State.pushed (s : State) (d : DieIx) (q : QId) (i : Issuer) (desc : Desc) : CmdQueue :=
  (s.queue d q).push (s.recvGen d q) desc false (byFirmware i) (s.resets d q 0)

/-- A push enters the entries or waits behind them; the rest of the queue stays. -/
theorem State.pushed_keeps (s : State) (d : DieIx) (q : QId) (i : Issuer) (desc : Desc) :
    (s.pushed d q i desc).running = (s.queue d q).running ∧ (s.pushed d q i desc).done = (s.queue d q).done
      ∧ (s.pushed d q i desc).claim = (s.queue d q).claim ∧ (s.pushed d q i desc).held = (s.queue d q).held := by
  unfold State.pushed CmdQueue.push
  dsimp only
  split <;> exact ⟨rfl, rfl, rfl, rfl⟩

/-- A queue with room, that no reset holds, takes a push as its last entry. -/
theorem State.pushed_room {s : State} {d : DieIx} {q : QId} (i : Issuer) (desc : Desc) (hroom : (s.queue d q).entries.length < 64)
    (hback : (s.queue d q).backlog = []) (hfree : s.resets d q 0 = false) :
    (s.pushed d q i desc).entries = (s.queue d q).entries ++ [s.pushEntryOf d q i desc] := by
  simp [State.pushed, CmdQueue.push, hroom, hback, hfree, State.pushEntryOf]

/-- A reset of the queue's domain holds a push. -/
theorem State.pushed_reset {s : State} {d : DieIx} {q : QId} (i : Issuer) (desc : Desc) (hreset : s.resets d q 0 = true) :
    (s.pushed d q i desc).entries = (s.queue d q).entries
      ∧ (s.pushed d q i desc).backlog = (s.queue d q).backlog ++ [s.pushEntryOf d q i desc] := by
  simp [State.pushed, CmdQueue.push, hreset, State.pushEntryOf]

/-- The state in which a push has entered its queue and the die is awake. -/
def State.afterPush (s : State) (d : DieIx) (q : QId) (i : Issuer) (desc : Desc) : State := (s.setQueue d q (s.pushed d q i desc)).wake d

theorem State.queue_afterPush (s : State) (d : DieIx) (q : QId) (i : Issuer) (desc : Desc) :
    (s.afterPush d q i desc).queue d q = s.pushed d q i desc := by
  rw [State.afterPush, State.queue_wake, State.queue_setQueue]

theorem State.afterPush_spares (s : State) (d : DieIx) (q : QId) (i : Issuer) (desc : Desc) :
    ((s.afterPush d q i desc).die d).regs = (s.die d).regs ∧ (s.afterPush d q i desc).mem = s.mem := by
  obtain ⟨cs, us, h⟩ := s.setQueue_eq d q (s.pushed d q i desc)
  rw [State.afterPush, State.die_wake, State.mem_wake, h]
  exact ⟨by rw [State.die_modDie], rfl⟩

/-- Whether a head waits does not depend on what stands behind it. -/
theorem State.headWaits_afterPush (s : State) (d : DieIx) (q : QId) (i : Issuer) (desc : Desc) (e : QEntry) :
    (s.afterPush d q i desc).headWaits d q e = s.headWaits d q e := by
  obtain ⟨hrun, hdone, -, -⟩ := s.pushed_keeps d q i desc
  have hset := s.sameStart_setQueue d q hrun hdone
  have hwake := (s.setQueue d q (s.pushed d q i desc)).sameStart_wake d d q
  have hparked : (s.setQueue d q (s.pushed d q i desc)).parked d = s.parked d := by
    obtain ⟨cs, us, h⟩ := s.setQueue_eq d q (s.pushed d q i desc)
    rw [h]
    rfl
  unfold State.headWaits State.afterPush
  rw [hwake.heldByReset, hset.heldByReset, hwake.stroke, hset.stroke, State.parked_wake, hparked, hwake.running, hset.running, hwake.canStart,
    hset.canStart]

/-- 64 bytes written into an idle window, while the head of the queue waits: the push enters the queue and nothing starts. -/
theorem State.windowWrite_push {s : State} {d : DieIx} {q : QId} {i : Issuer} {data : List Byte} (hclaim : (s.queue d q).claim = none)
    (hheld : (s.queue d q).held = []) (hlen : data.length = 64) (hwaits : (s.afterPush d q i (descOf data)).startHead d q = none) :
    s.windowWrite d q i 0 data false = s.afterPush d q i (descOf data) := by
  have hidle : s.modQueue d q (fun x => { x with claim := none }) = s := by
    rw [State.modQueue, ← hclaim]
    exact s.setQueue_queue d q
  have hpush : s.push d q (descOf data) false (byFirmware i) = s.afterPush d q i (descOf data) := State.startQueue_eq_self hwaits
  have hone : s.windowOne d q ⟨i, 0, data, false⟩ = s.afterPush d q i (descOf data) := by
    unfold State.windowOne State.fillWindow
    simp only [hclaim, overlay_eq_descOf hlen, hidle, hlen, Bool.false_or]
    exact hpush
  have htake : data.take (64 - 0) = data := List.take_of_length_le (by omega)
  have hsome : data.isEmpty = false := by rw [List.isEmpty_eq_false_iff, ← List.length_pos_iff]; omega
  obtain ⟨-, -, -, hkeep⟩ := s.pushed_keeps d q i (descOf data)
  unfold State.windowWrite
  simp only [htake, hsome, hone, State.queue_afterPush, hkeep, hheld]
  rfl

theorem State.startHead_nil {s : State} {d : DieIx} {q : QId} (h : (s.queue d q).entries = []) : s.startHead d q = none := by
  simp [State.startHead, h]

/-- After a push into a queue with room the head waits: a new one is not released, and one that waited still does. -/
theorem State.startHead_pushed_room {s : State} {d : DieIx} {q : QId} (i : Issuer) (desc : Desc) (hroom : (s.queue d q).entries.length < 64)
    (hback : (s.queue d q).backlog = []) (hfree : s.resets d q 0 = false)
    (hhead : ((s.queue d q).entries = [] ∧ s.parked d = false ∧ headerOk q (s.stroke d) (setFld desc 40 8 (s.recvGen d q).toNat) = true)
      ∨ ((s.queue d q).entries ≠ [] ∧ s.startHead d q = none)) :
    (s.afterPush d q i desc).startHead d q = none := by
  have hentries := State.pushed_room i desc hroom hback hfree
  rw [← State.queue_afterPush] at hentries
  rcases hhead with ⟨hempty, hparked, hheader⟩ | ⟨hsome, hnone⟩
  · rw [hempty] at hentries
    rw [State.startHead_eq_none hentries, State.headWaits_afterPush, State.headWaits, s.canStart_unreleased d q rfl, hparked,
      show headerOk q (s.stroke d) (s.pushEntryOf d q i desc).desc = true from hheader]
    simp [State.pushEntryOf]
  · obtain ⟨e, es, hes⟩ := List.exists_cons_of_ne_nil hsome
    rw [hes] at hentries
    rw [State.startHead_eq_none hentries, State.headWaits_afterPush]
    exact (State.startHead_eq_none hes).mp hnone

/-- While a reset holds the queue nothing of it starts. -/
theorem State.startHead_pushed_reset {s : State} {d : DieIx} {q : QId} (i : Issuer) (desc : Desc) (hreset : s.resets d q 0 = true) :
    (s.afterPush d q i desc).startHead d q = none := by
  obtain ⟨hentries, -⟩ := State.pushed_reset i desc hreset
  rw [← State.queue_afterPush] at hentries
  cases hes : (s.queue d q).entries with
  | nil => exact State.startHead_nil (hentries.trans hes)
  | cons e es =>
    rw [State.startHead_eq_none (hentries.trans hes), State.headWaits_afterPush, State.headWaits, State.resets_of_queue _ hreset, Bool.true_or]

/-! ### Claims and held writes -/

/-- No held write can be taken while the claiming endpoint has none. -/
theorem takeHeld_none {c : Claim} {l : List WindowWrite} (h : ∀ w ∈ l, w.issuer ≠ c.issuer) : takeHeld (some c) l = none := by
  have hnone : l.findIdx? (fun w => (some c).all (fun k => decide (k.issuer = w.issuer))) = none := by
    rw [List.findIdx?_eq_none_iff]
    intro w hw
    simpa using Ne.symm (h w hw)
  rw [takeHeld, hnone]
  rfl

theorem State.drainHeld_eq_self {s : State} {d : DieIx} {q : QId} {c : Claim} (n : Nat) (hclaim : (s.queue d q).claim = some c)
    (h : ∀ w ∈ (s.queue d q).held, w.issuer ≠ c.issuer) : s.drainHeld d q n = s := by
  cases n with
  | zero => rfl
  | succ n => rw [State.drainHeld, hclaim, takeHeld_none h]

/-- A write of another endpoint is held while a claim stands (R86). -/
theorem State.windowWrite_held {s : State} {d : DieIx} {q : QId} {i : Issuer} (off : Fin 64) {data : List Byte} {c : Claim}
    (hclaim : (s.queue d q).claim = some c) (hother : c.issuer ≠ i) (hdata : data ≠ []) (hwaits : ∀ w ∈ (s.queue d q).held, w.issuer ≠ c.issuer) :
    s.windowWrite d q i off data false = s.modQueue d q (fun x => { x with held := x.held ++ [⟨i, off, data.take (64 - off), false⟩] }) := by
  have hsome : (data.take (64 - off)).isEmpty = false := by
    rw [List.isEmpty_eq_false_iff, ← List.length_pos_iff, List.length_take]
    have := List.length_pos_iff.mpr hdata
    omega
  have hone : s.windowOne d q ⟨i, off, data.take (64 - off), false⟩ =
      s.modQueue d q (fun x => { x with held := x.held ++ [⟨i, off, data.take (64 - off), false⟩] }) := by
    unfold State.windowOne
    simp only [hclaim, hother, if_false]
  unfold State.windowWrite
  simp only [hsome, hone, Bool.false_eq_true, if_false]
  refine State.drainHeld_eq_self (c := c) _ ?_ ?_
  · rw [State.queue_modQueue]; exact hclaim
  · rw [State.queue_modQueue]
    intro v hv
    rcases List.mem_append.mp hv with h | h
    · exact hwaits v h
    · rw [List.mem_singleton.mp h]; exact Ne.symm hother

/-- A write that does not reach byte 63 claims an idle window and keeps its bytes (R86). -/
theorem State.windowWrite_claim {s : State} {d : DieIx} {q : QId} {i : Issuer} {off : Nat} {data : List Byte} (hclaim : (s.queue d q).claim = none)
    (hheld : (s.queue d q).held = []) (hdata : data ≠ []) (hshort : off + data.length < 64) :
    s.windowWrite d q i off data false =
      s.modQueue d q (fun x => { x with claim := some ⟨i, overlay 0 off data, data.length, s.stroke d, false⟩ }) := by
  have htake : data.take (64 - off) = data := List.take_of_length_le (by omega)
  have hone : s.windowOne d q ⟨i, off, data, false⟩ =
      s.modQueue d q (fun x => { x with claim := some ⟨i, overlay 0 off data, data.length, s.stroke d, false⟩ }) := by
    unfold State.windowOne State.fillWindow
    simp only [hclaim, show ¬ off + data.length ≥ 64 by omega, if_false, Nat.zero_add, show min 64 data.length = data.length by omega, Bool.false_or]
  unfold State.windowWrite
  simp only [htake, List.isEmpty_eq_false_iff.mpr hdata, hone, State.queue_modQueue, hheld, List.length_nil, Bool.false_eq_true, if_false]
  rfl

/-- The state after a claim has been dropped: one entry tells whose it was and how many bytes had come. -/
def State.discarded (s : State) (d : DieIx) (q : QId) (c : Claim) : State :=
  (s.modQueue d q (fun x => { x with claim := none })).logEvent d 0x0205 0 ((s.issuerEp d c.issuer).toNat + c.written * 2 ^ 24)

theorem State.discarded_spec (s : State) (d : DieIx) (q : QId) (c : Claim) :
    (s.discarded d q c).queue d q = { s.queue d q with claim := none }
      ∧ ((s.discarded d q c).die d).log = s.logWith d 0x0205 ((s.issuerEp d c.issuer).toNat + c.written * 2 ^ 24)
      ∧ (s.discarded d q c).mem = s.mem := by
  obtain ⟨cs, us, hset⟩ := s.setQueue_eq d q { s.queue d q with claim := none }
  have hdie : (s.modQueue d q (fun x => { x with claim := none })).die d = { s.die d with cores := cs, uq := us } := by
    simp only [State.modQueue, hset, State.die_modDie]
  refine ⟨?_, ?_, ?_⟩
  · rw [State.discarded, State.logEvent, State.queue_logFrom]
    exact State.queue_modQueue ..
  · rw [State.discarded, State.die_logEvent]
    exact State.logWith_congr _ _ (by rw [hdie]) (by rw [hdie]) (State.reg_setQueue ..) (State.reg_setQueue ..)
  · rw [State.discarded, State.logEvent_mem]
    exact State.mem_setQueue ..

/-- PARTIAL_DESCRIPTOR_DISCARD of a claim that has stood for one whole stroke, while nothing is held (R86). -/
theorem exec_partialDescriptorDiscard {s : State} {d : DieIx} {q : QId} {c : Claim} (hready : Ready s d) (hclaim : (s.queue d q).claim = some c)
    (hheld : (s.queue d q).held = []) (hdue : isDue (s.stroke d) (c.stroke.toNat + 2) = true) :
    exec (.partialDescriptorDiscard d q) s = .next (s.discarded d q c) := by
  obtain ⟨hqueue, -, -⟩ := s.discarded_spec d q c
  change execPartialDescriptorDiscard d q s = _
  rw [execPartialDescriptorDiscard, onDie_ready hready]
  simp only [hclaim, hdue, if_true]
  change Host.Outcome.next ((s.discarded d q c).drainHeld d q ((s.discarded d q c).queue d q).held.length) = _
  rw [hqueue, hheld]
  rfl

/-! ### Release (R36) -/

/-- Releasing marks the entries whose release stroke has begun, and leaves the others. -/
theorem mem_releaseEntries {now : Stroke} {l : List QEntry} {e : QEntry} (h : e ∈ l) :
    (isDue now (dRelease e.desc) = true → e.released = none → { e with released := some now } ∈ (releaseEntries now l).1)
      ∧ (isDue now (dRelease e.desc) = false ∨ e.released.isSome = true → e ∈ (releaseEntries now l).1) := by
  induction l with
  | nil => cases h
  | cons a l ih =>
    rcases List.mem_cons.mp h with rfl | hmem
    · constructor
      · intro hdue hnone
        simp [releaseEntries, hdue, hnone]
      · intro hstays
        have hcond : e.released.isSome = true ∨ (!isDue now (dRelease e.desc)) = true := hstays.elim (fun h => .inr (by simp [h])) .inl
        rw [releaseEntries]
        simp only [hcond, if_true]
        exact List.mem_cons_self
    · obtain ⟨hdue, hstays⟩ := ih hmem
      have htail : ∃ b, (releaseEntries now (a :: l)).1 = b :: (releaseEntries now l).1 := by
        rw [releaseEntries]
        split <;> exact ⟨_, rfl⟩
      obtain ⟨b, hb⟩ := htail
      rw [hb]
      exact ⟨fun h1 h2 => List.mem_cons_of_mem _ (hdue h1 h2), fun h1 => List.mem_cons_of_mem _ (hstays h1)⟩

theorem State.entries_releaseQueue (s : State) (d : DieIx) (q : QId) :
    ((s.releaseQueue d q).queue d q).entries = (releaseEntries (s.stroke d) (s.queue d q).entries).1 := by
  unfold State.releaseQueue
  dsimp only
  split <;> simp

end Sys2Proof.Machine
end

section
open Sys2Proof Sys2Proof.Machine
open Host (Outcome)

/-- Settles O28: a push behind waiting entries, or of a command that is not released, starts nothing. -/
theorem queueWindowPushes : Obligations.QueueWindowPushes := by
  unfold Obligations.QueueWindowPushes
  refine ⟨fun s d q i off data hready => ?_, fun s d q e he => ?_⟩
  · intro x y fw
    have hexec : exec (.queueWindowWrite d q i off data) s = .next (s.windowWrite d q i off.val data false) := by
      change execQueueWindowWrite d q i off data s = _
      rw [execQueueWindowWrite, onDie_ready hready]
    rw [hexec]
    refine ⟨?_, ?_, ?_, ?_, ?_, ?_, ?_⟩
    · intro hclaim hheld hroom hback hlen hoff hfree hhead
      subst hoff
      obtain ⟨hrun, hdone, hc, hh⟩ := s.pushed_keeps d q i (descOf data)
      obtain ⟨hregs, hmem⟩ := s.afterPush_spares d q i (descOf data)
      have hwrite := State.windowWrite_push hclaim hheld hlen (State.startHead_pushed_room i _ hroom hback hfree hhead)
      refine ⟨_, congrArg Outcome.next hwrite, ?_⟩
      rw [State.queue_afterPush]
      exact ⟨State.pushed_room i _ hroom hback hfree, hc.trans hclaim, hh.trans hheld, hrun, hdone, hregs, hmem⟩
    · intro hclaim hheld hlen hoff hreset
      subst hoff
      obtain ⟨hrun, hdone, -, -⟩ := s.pushed_keeps d q i (descOf data)
      obtain ⟨hentries, hback⟩ := State.pushed_reset i (descOf data) hreset
      have hwrite := State.windowWrite_push hclaim hheld hlen (State.startHead_pushed_reset i _ hreset)
      refine ⟨_, congrArg Outcome.next hwrite, ?_⟩
      rw [State.queue_afterPush]
      exact ⟨hentries, hback, hrun, hdone, (s.afterPush_spares d q i (descOf data)).2⟩
    · intro hclaim hheld hdata hshort
      have hwrite := State.windowWrite_claim (i := i) hclaim hheld hdata hshort
      refine ⟨_, _, congrArg Outcome.next hwrite, State.queue_modQueue .., rfl, rfl, rfl, fun j hj => fld_overlay 0 hj (by omega), State.mem_setQueue ..⟩
    · intro c hclaim hother hdata hwaits
      have hwrite := State.windowWrite_held off hclaim hother hdata hwaits
      exact ⟨_, congrArg Outcome.next hwrite, State.queue_modQueue .., State.mem_setQueue ..⟩
    · intro c hclaim hheld hdue
      obtain ⟨hqueue, hlog, hmem⟩ := s.discarded_spec d q c
      exact ⟨_, exec_partialDescriptorDiscard hready hclaim hheld hdue, hqueue, hlog, hmem⟩
    · intro c (hclaim : (s.queue d q).claim = some c) hdue
      change execPartialDescriptorDiscard d q s = _
      rw [execPartialDescriptorDiscard, onDie_ready hready]
      simp only [hclaim, hdue, Bool.false_eq_true, if_false]
    · intro (hclaim : (s.queue d q).claim = none)
      change execPartialDescriptorDiscard d q s = _
      rw [execPartialDescriptorDiscard, onDie_ready hready]
      simp only [hclaim]
  · obtain ⟨hdue, hstays⟩ := mem_releaseEntries (now := s.stroke d) he
    rw [State.entries_releaseQueue]
    exact ⟨hdue, hstays⟩
end

section
/-! LEMMAS. What leaves the timers and STK_LOCK_STATUS alone: accesses to memory, records, and commands that start, end or are stopped. -/

namespace Sys2Proof.Machine

/-- From s to t the timers of the dies and their lock registers are as they were. -/
structure KeepsClock (s t : State) : Prop where
  timer : ∀ e, (t.die e).timer = (s.die e).timer
  lock : ∀ e, t.reg e rStkLock = s.reg e rStkLock

variable {s t u : State}

theorem KeepsClock.refl (s : State) : KeepsClock s s := ⟨fun _ => rfl, fun _ => rfl⟩

theorem KeepsClock.trans (h : KeepsClock s t) (k : KeepsClock t u) : KeepsClock s u :=
  ⟨fun e => (k.timer e).trans (h.timer e), fun e => (k.lock e).trans (h.lock e)⟩

theorem KeepsClock.foldl {α : Type} {f : State → α → State} (l : List α) (h : ∀ v x, KeepsClock v (f v x)) (s : State) :
    KeepsClock s (l.foldl f s) :=
  fold_inv (KeepsClock s) f l s (.refl s) (fun v x hv => hv.trans (h v x))

theorem KeepsClock.ite {c : Prop} [Decidable c] (h : KeepsClock s t) (k : KeepsClock s u) : KeepsClock s (if c then t else u) := by
  split <;> assumption

theorem KeepsClock.of_dies (h : t.dies = s.dies) : KeepsClock s t :=
  ⟨fun e => by simp [State.die, h], fun e => by simp [State.reg, State.die, h]⟩

/-! ### Updates of the state -/

theorem KeepsClock.modDie (s : State) (d : DieIx) {f : Die → Die} (ht : ∀ x, (f x).timer = x.timer) (hr : ∀ x, (f x).regs = x.regs) :
    KeepsClock s (s.modDie d f) := by
  refine ⟨fun e => ?_, fun e => State.reg_modDie _ _ _ _ hr⟩
  by_cases he : e = d
  · subst he; simp [ht]
  · rw [State.die_modDie_ne s d e f he]

theorem KeepsClock.modCore (s : State) (d : DieIx) (c : CoreIx) (f : Core → Core) : KeepsClock s (s.modCore d c f) :=
  .modDie s d (f := fun x => x.setCore c (f (s.core d c))) (fun _ => rfl) (fun _ => rfl)

theorem KeepsClock.setReg (s : State) (d : DieIx) {off : Nat} (v : Word) (h : off ≠ rStkLock) : KeepsClock s (s.setReg d off v) := by
  refine ⟨fun e => ?_, fun e => State.reg_setReg_ne _ _ _ _ (fun k => h k.2.symm)⟩
  by_cases he : e = d
  · subst he; simp [State.setReg]
  · rw [State.setReg, State.die_modDie_ne s d e _ he]

theorem KeepsClock.setReg64 (s : State) (d : DieIx) {off : Nat} (v : DWord) (h : off ≠ rStkLock) (h4 : off + 4 ≠ rStkLock) :
    KeepsClock s (s.setReg64 d off v) :=
  (KeepsClock.setReg s d _ h).trans (.setReg _ d _ h4)

theorem KeepsClock.logFrom (s : State) (d : DieIx) (src : Endpoint) (gen : BitVec 8) (code st det : Nat) (sent : Option DWord) :
    KeepsClock s (s.logFrom d src gen code st det sent) := .modDie s d (fun _ => rfl) (fun _ => rfl)

theorem KeepsClock.setQueue (s : State) (d : DieIx) (q : QId) (x : CmdQueue) : KeepsClock s (s.setQueue d q x) := by
  obtain ⟨cs, us, h⟩ := s.setQueue_eq d q x
  rw [h]
  exact .modDie s d (fun _ => rfl) (fun _ => rfl)

theorem KeepsClock.modQueue (s : State) (d : DieIx) (q : QId) (f : CmdQueue → CmdQueue) : KeepsClock s (s.modQueue d q f) := .setQueue ..

theorem KeepsClock.modCommit (s : State) (d : DieIx) (k : Nat) (f : Commit → Commit) : KeepsClock s (s.modCommit d k f) :=
  .modDie s d (fun _ => rfl) (fun _ => rfl)

/-! ### Accesses to memory (R304, R306, R309, R311) -/

theorem State.eccEvent_keepsClock (s : State) (d : DieIx) (n addr : Nat) : KeepsClock s (s.eccEvent d n addr) := by
  have hlevel : rEccLbLevel n ≠ rStkLock := by unfold rEccLbLevel blkECC rStkLock blkSTK; omega
  have htotal : rEccLbTotal n ≠ rStkLock := by unfold rEccLbTotal blkECC rStkLock blkSTK; omega
  have hcount : KeepsClock s (s.countEcc d n) := (KeepsClock.setReg s d _ hlevel).trans (.setReg _ d _ htotal)
  have hreach : KeepsClock s ((s.countEcc d n).reachThresh d n addr) :=
    (hcount.trans (.setReg _ d _ (show rEccStatus ≠ rStkLock by decide))).trans (.logFrom ..)
  have harm : KeepsClock ((s.countEcc d n).reachThresh d n addr)
      (((s.countEcc d n).reachThresh d n addr).modDie d (fun x => { x with lbArmed := setBit x.lbArmed n false })) :=
    .modDie _ d (fun _ => rfl) (fun _ => rfl)
  unfold State.eccEvent
  dsimp only
  split
  · split
    · exact (hreach.trans harm).trans (.of_dies (State.dies_hostEvent ..))
    · exact hreach
  · exact hcount

theorem State.rowLog_keepsClock (s : State) (d : DieIx) (off : Nat) (unc : Bool) : KeepsClock s (s.rowLog d off unc) := by
  have hset (t : State) (e : Nat) (v : DWord) : KeepsClock t (t.setReg64 d (rEccRowlog e) v) :=
    .setReg64 t d v (by unfold rEccRowlog blkECC rStkLock blkSTK; omega) (by unfold rEccRowlog blkECC rStkLock blkSTK; omega)
  have hput (t : State) (e : Nat) (v : DWord) : KeepsClock t ((t.setReg64 d (rEccRowlog e) v).modDie d
      (fun x => { x with rowAge := x.rowAge.setIfInBounds e x.rowNext, rowNext := x.rowNext + 1 })) :=
    (hset t e v).trans (.modDie _ d (fun _ => rfl) (fun _ => rfl))
  unfold State.rowLog
  dsimp only
  split
  · exact hset ..
  · split
    · exact hput ..
    · split
      · exact .setReg s d _ (show rEccStatus ≠ rStkLock by decide)
      · exact hput ..

theorem State.readWord_keepsClock (s : State) (a : Access) (d : DieIx) (region key : Nat) (m : Mark) :
    KeepsClock s (s.readWord a d region key m) := by
  have htest (c : Bool) (f : Found) : KeepsClock s (if c then s.testRead d f else s) :=
    .ite (.setReg s d _ (show rEccTest ≠ rStkLock by decide)) (.refl s)
  have hcount (u : State) (c : Bool) (n addr : Nat) : KeepsClock u (if c then u else u.eccEvent d n addr) :=
    .ite (.refl u) (State.eccEvent_keepsClock ..)
  have hrow (u : State) (c : Bool) (off : Nat) (unc : Bool) : KeepsClock u (if region = 0 ∧ !c then u.rowLog d off unc else u) :=
    .ite (State.rowLog_keepsClock ..) (.refl u)
  unfold State.readWord
  dsimp only
  split
  · exact ((htest _ _).trans (hcount _ _ _ _)).trans (hrow _ _ _ _)
  · split
    · exact ((((htest _ _).trans (hcount _ _ _ _)).trans (.logFrom ..)).trans (hrow _ _ _ _)).trans (.modDie _ d (fun _ => rfl) (fun _ => rfl))
    · split
      · exact (htest _ _).trans (.setReg _ d _ (show rEccPoison ≠ rStkLock by decide))
      · exact htest _ _

theorem State.hbmCount_keepsClock (s : State) (d : DieIx) (region off n : Nat) {reg : Nat} (h : reg ≠ rStkLock) (h4 : reg + 4 ≠ rStkLock) :
    KeepsClock s (s.hbmCount d region off n reg) :=
  .ite ((KeepsClock.setReg64 s d _ h h4).trans (.modDie _ d (fun _ => rfl) (fun _ => rfl))) (.refl s)

theorem State.memRead_keepsClock (s : State) (a : Access) (d : DieIx) (region off n : Nat) : KeepsClock s (s.memRead a d region off n).state := by
  have htest : KeepsClock s (if s.testsClean a d region (memKey d region off) n then s.testRead d ⟨0, 0, 0⟩ else s) :=
    .ite (.setReg s d _ (show rEccTest ≠ rStkLock by decide)) (.refl s)
  exact (htest.trans (KeepsClock.foldl _ (fun t (p : Nat × Mark) => State.readWord_keepsClock t a d region p.1 p.2) _)).trans
    (State.hbmCount_keepsClock _ d region off n (show rHbmRd ≠ rStkLock by decide) (by decide))

theorem State.memWrite_keepsClock (s : State) (a : Access) (d : DieIx) (region off : Nat) (bs : List Byte) (ps : List Bool) :
    KeepsClock s (s.memWrite a d region off bs ps) := by
  have hend (u : State) (m : Mem) (p : Nat → Bool) (flip : Bool) (f : Word → Word) (v : State → DWord) :
      let u1 := ({ u with mem := m } : State).modDie d (fun x => { x with writeBacks := x.writeBacks.filter p })
      let u2 := if flip then u1.modReg d rEccFlipCtl f else u1
      KeepsClock u ((if region = 0 then u2.setReg64 d rHbmRd (v u2) else u2).hbmCount d region off bs.length rHbmWr) := by
    intro u1 u2
    have h0 : KeepsClock u ({ u with mem := m } : State) := .of_dies rfl
    have h1 : KeepsClock u u1 := h0.trans (.modDie _ d (f := fun x => { x with writeBacks := x.writeBacks.filter p }) (fun _ => rfl) (fun _ => rfl))
    have h2 : KeepsClock u1 u2 := .ite (.setReg u1 d _ (show rEccFlipCtl ≠ rStkLock by decide)) (.refl u1)
    exact ((h1.trans h2).trans (.ite (.setReg64 u2 d _ (show rHbmRd ≠ rStkLock by decide) (by decide)) (.refl u2))).trans
      (State.hbmCount_keepsClock _ d region off bs.length (show rHbmWr ≠ rStkLock by decide) (by decide))
  unfold State.memWrite
  dsimp only
  split
  · exact .refl s
  · exact (KeepsClock.foldl _ (fun t (p : Nat × Mark) => State.readWord_keepsClock t a d region p.1 p.2) s).trans
      (hend _ _ _ _ _ (fun u => u.reg64 d rHbmRd + BitVec.ofNat 64 (partBytes off bs.length)))

/-! ### Records (R91) -/

theorem State.capture_keepsClock (s : State) (d : DieIx) (src : Nat) : KeepsClock s (s.capture d src) := by
  refine KeepsClock.foldl _ (fun t n => ?_) s
  have hplace : rStkCap n ≠ rStkLock ∧ rStkCap n + 4 ≠ rStkLock := by
    unfold rStkCap rStkLock
    omega
  exact .ite ((KeepsClock.setReg t d _ (show rStkCapCtl ≠ rStkLock by decide)).trans (.setReg64 _ d _ hplace.1 hplace.2)) (.refl t)

theorem State.noteCommit_keepsClock (s : State) (d : DieIx) (x : Desc) (st : Nat) : KeepsClock s (s.noteCommit d x st) := by
  have hbucket : KeepsClock s (s.noteBucket d x) := by
    unfold State.noteBucket
    dsimp only
    split
    · exact .refl s
    · exact .ite (.refl s) (.modCommit ..)
  have hdone (t : State) : KeepsClock t (t.noteDone d (dJob x) (dStep x) (dKind x) st) := by
    unfold State.noteDone
    dsimp only
    split
    · exact .refl t
    · exact .ite (.refl t) (.modCommit ..)
  exact hbucket.trans (hdone _)

theorem State.record_keepsClock (s : State) (d : DieIx) (q : QId) (x : Desc) (ident : Nat) (rel : Option Stroke) (res : Result) :
    KeepsClock s (s.record d q x ident rel res) := by
  have hlate : KeepsClock s ((s.addSat d rStkOverrun 0 32 1).capture d 6) :=
    (KeepsClock.setReg s d _ (show rStkOverrun ≠ rStkLock by decide)).trans (State.capture_keepsClock _ d 6)
  have hdropped (t : State) (all : List Nat) : KeepsClock t (t.logDropped d q x all) :=
    KeepsClock.foldl _ (fun _ _ => .ite (.logFrom ..) (.logFrom ..)) t
  have hfiled (all : List Nat) (r : Completion) : KeepsClock s (((if (match rel with
      | some rel => !notJudged (dKind x) && decide (s.stroke d ≠ rel)
      | none => false) = true then (s.addSat d rStkOverrun 0 32 1).capture d 6 else s).logDropped d q x all).modQueue d q
        (fun y => { y with done := y.done ++ [r] })) :=
    ((KeepsClock.ite hlate (.refl s)).trans (hdropped _ _)).trans (.modQueue ..)
  unfold State.record
  dsimp only
  refine KeepsClock.trans ?_ (State.noteCommit_keepsClock ..)
  cases q with
  | core c => exact (hfiled _ _).trans (.modCore ..)
  | _ => exact hfiled _ _

/-! ### Starting what can start (R36) -/

theorem rCruClaim_ne_rStkLock : rCruClaim0 ≠ rStkLock ∧ rCruClaim1 ≠ rStkLock := by decide

theorem State.claimAt_keepsClock (s : State) (d : DieIx) (q : QId) (x : Desc) : KeepsClock s (s.claimAt d q x) := by
  obtain ⟨h0, h1⟩ := rCruClaim_ne_rStkLock
  have hclaim : KeepsClock s (s.claimCores d (dAux x % 64) (s.cruMask d x)) :=
    KeepsClock.foldl _ (fun t e => (KeepsClock.setReg t e _ h0).trans (.setReg _ e _ h1)) s
  cases q with
  | cru => exact .ite hclaim (.refl s)
  | _ => exact .refl s

/-- The head of a queue is completed at once or starts. -/
theorem State.startHead_keepsClock {d : DieIx} {q : QId} (h : s.startHead d q = some t) : KeepsClock s t := by
  have hfiled {y : CmdQueue} {x : Desc} {ident : Nat} {rel : Option Stroke} {res : Result}
      (ht : some ((s.setQueue d q y).record d q x ident rel res) = some t) : KeepsClock s t := by
    obtain rfl := Option.some.inj ht
    exact (KeepsClock.setQueue s d q y).trans (State.record_keepsClock ..)
  unfold State.startHead at h
  dsimp only at h
  split at h
  · contradiction
  · split at h
    · contradiction
    split at h
    · exact hfiled h
    split at h
    · exact hfiled h
    split at h
    · exact hfiled h
    split at h
    · split at h
      · exact hfiled h
      · contradiction
    split at h
    · obtain rfl := Option.some.inj h
      exact ((KeepsClock.setQueue s d q _).trans (.modQueue _ d q _)).trans (State.claimAt_keepsClock ..)
    · contradiction

theorem State.startQueue_keepsClock (s : State) (d : DieIx) (q : QId) : KeepsClock s (s.startQueue d q) := by
  have hready (n : Nat) (t : State) : KeepsClock t (t.startReady d q n) := by
    induction n generalizing t with
    | zero => exact .refl t
    | succ n ih =>
      rw [State.startReady]
      split
      · exact .refl t
      · next u hu => exact (State.startHead_keepsClock hu).trans (ih u)
  exact hready _ s

theorem State.startAfter_keepsClock (s : State) (q : QId) : KeepsClock s (s.startAfter q) := by
  have hall : KeepsClock s ((List.finRange 8).foldl (fun t e => if t.present e ∧ !(t.die e).held then t.startAll e else t) s) :=
    KeepsClock.foldl _ (fun t e => .ite (KeepsClock.foldl _ (fun t q => State.startQueue_keepsClock t e q) t) (.refl t)) s
  cases q with
  | cru => exact hall
  | hlt => exact hall
  | _ => exact .refl s

/-! ### The end of a command -/

theorem State.cruEnd_keepsClock (s : State) (d : DieIx) (r : Running) : KeepsClock s (s.cruEnd d r) := by
  obtain ⟨h0, h1⟩ := rCruClaim_ne_rStkLock
  have hlose (t : State) (key n : Nat) : KeepsClock t (t.loseMem key n) := .of_dies rfl
  have hspoil (t : State) (e : DieIx) (k : Nat) : KeepsClock t (t.spoilClaim d e k) :=
    KeepsClock.foldl _ (fun v _ => (hlose v _ _).trans (hlose _ _ _)) t
  have hrelease (t : State) (e : DieIx) : KeepsClock t (t.releaseClaim e) := (KeepsClock.setReg t e _ h0).trans (.setReg _ e _ h1)
  have hsolve (t : State) : KeepsClock t (t.modDie d (fun x => { x with solve := none })) := .modDie t d (fun _ => rfl) (fun _ => rfl)
  have hclaims : KeepsClock s (if s.claims d r.desc then (cruDies (s.cruMask d r.desc)).foldl (fun t e =>
      (if s.solving d r then t.spoilClaim d e (dAux r.desc % 64) else t).releaseClaim e) s else s) :=
    .ite (KeepsClock.foldl _ (fun t e => (KeepsClock.ite (hspoil t e _) (.refl t)).trans (hrelease _ e)) s) (.refl s)
  exact .ite (hclaims.trans (hsolve _)) hclaims

theorem State.hltEnd_keepsClock (s : State) (d : DieIx) : KeepsClock s (s.hltEnd d) := by
  have hlends (t : State) (l : List (Nat × Option Stroke)) : KeepsClock t (t.setLends d l) :=
    (((KeepsClock.modDie t d (f := fun x => { x with assay := { x.assay with lends := l } }) (fun _ => rfl) (fun _ => rfl)).trans
      (.setReg _ d _ (show rAsyLend0 ≠ rStkLock by decide))).trans (.setReg _ d _ (show rAsyLend1 ≠ rStkLock by decide))).trans
      (.setReg _ d _ (show rAsyStatus ≠ rStkLock by decide))
  exact (KeepsClock.modDie s d (f := fun x => { x with assay := { x.assay with touch := none, pass := none } }) (fun _ => rfl) (fun _ => rfl)).trans
    (hlends _ _)

theorem State.finish_keepsClock (s : State) (d : DieIx) (q : QId) (r : Running) (res : Result) : KeepsClock s (s.finish d q r res) := by
  have hleaves : KeepsClock s ((s.modDie d (fun x =>
      { x with outstanding := x.outstanding.filter (fun o => !(decide (o.queue = qNum q) && decide (o.ident = r.ident))) })).modQueue d q
        (fun x => { x with running := x.running.filter (fun y => y.ident != r.ident) })) := by
    refine KeepsClock.trans ?_ (.modQueue ..)
    exact .modDie s d (fun _ => rfl) (fun _ => rfl)
  unfold State.finish
  dsimp only
  refine KeepsClock.trans ?_ (State.startAfter_keepsClock ..)
  refine KeepsClock.trans ?_ (State.startQueue_keepsClock ..)
  refine KeepsClock.trans ?_ (State.record_keepsClock ..)
  cases q with
  | core c => exact (hleaves.trans (.modCore ..)).trans (.modDie _ d (fun _ => rfl) (fun _ => rfl))
  | cru => exact hleaves.trans (State.cruEnd_keepsClock ..)
  | col => exact hleaves.trans (.modDie _ d (fun _ => rfl) (fun _ => rfl))
  | txe => exact hleaves.trans (.modDie _ d (fun _ => rfl) (fun _ => rfl))
  | hlt => exact hleaves.trans (State.hltEnd_keepsClock ..)
  | _ => exact hleaves

/-! ### Stopping commands (R253, R271) -/

theorem State.stopEarly_keepsClock (s : State) (d : DieIx) (q : QId) (r : Running) (st : Nat) : KeepsClock s (s.stopEarly d q r st) := by
  have hplace (c w : Nat) : rBilCtx c w ≠ rStkLock := by
    unfold rBilCtx blkBIL rStkLock blkSTK
    omega
  have hseg (c top depth : Nat) : KeepsClock s (s.setSeg d c top depth) := by
    have hmove := (KeepsClock.setReg s d (BitVec.ofNat 32 (top / 64)) (hplace c 3)).trans (.setReg _ d (BitVec.ofNat 32 depth) (hplace c 4))
    exact .ite (hmove.trans (.setReg _ d _ (hplace c 5))) hmove
  exact (KeepsClock.ite (hseg _ _ _) (.refl s)).trans (State.finish_keepsClock ..)

theorem State.stopRunning_keepsClock (s : State) (d : DieIx) (q : QId) (r : Running) (st : Nat) : KeepsClock s (s.stopRunning d q r st) := by
  have hkept (x : Running) : KeepsClock s (s.setRunning d q x) := .setQueue ..
  cases q with
  | core c => exact .ite ((KeepsClock.modCore ..).trans (State.stopEarly_keepsClock ..)) (State.stopEarly_keepsClock ..)
  | cru =>
    unfold State.stopRunning
    dsimp only
    split
    · exact .ite (.modDie s d (fun _ => rfl) (fun _ => rfl)) (hkept _)
    · exact hkept _
  | _ => exact State.stopEarly_keepsClock ..

theorem State.abortQueue_keepsClock (s : State) (d : DieIx) (q : QId) (st : Nat) (pick : Desc → Bool) : KeepsClock s (s.abortQueue d q st pick) := by
  have hstop (t : State) (l : List Running) (p : QId) : KeepsClock t (l.foldl (fun t r => t.stopRunning d p r st) t) :=
    KeepsClock.foldl _ (fun t r => State.stopRunning_keepsClock t d p r st) t
  have hcru : KeepsClock s (s.abortCru d st pick) :=
    ((KeepsClock.setQueue s d .cru _).trans (hstop _ _ _)).trans (State.startQueue_keepsClock ..)
  unfold State.abortQueue
  dsimp only
  exact .ite hcru ((((KeepsClock.setQueue s d q _).trans (hstop _ _ _)).trans
    (KeepsClock.foldl _ (fun t (e : QEntry) => State.record_keepsClock t d q e.desc e.ident e.released (.err st)) _)).trans
    (State.startQueue_keepsClock ..))

theorem rCmtStat_ne_rStkLock (k : Nat) : rCmtStat k ≠ rStkLock := by
  unfold rCmtStat blkUPD rStkLock blkSTK
  omega

theorem State.scaleTables_keepsClock (s : State) (d : DieIx) (k : Nat) (yes : Bool) : KeepsClock s (s.scaleTables d k yes) := by
  have hentry (t : State) (base j : Nat) : KeepsClock t ((t.readScale d (s.colJob d k) base j).2.2.setScaleEntry d (s.colJob d k) base j
      (scaleCommit yes (t.readScale d (s.colJob d k) base j).1)) :=
    (State.memRead_keepsClock ..).trans (State.memWrite_keepsClock ..)
  unfold State.scaleTables
  dsimp only
  refine KeepsClock.trans ?_ (.modCommit ..)
  refine KeepsClock.foldl _ (fun t p => ?_) s
  refine KeepsClock.foldl _ (fun u j => ?_) t
  exact hentry u p.1 j

/-- Aborting a step stops and records commands, and counts in the job's context (R271). -/
theorem State.abortStep_keepsClock (s : State) (d : DieIx) (k cause : Nat) : KeepsClock s (s.abortStep d k cause) := by
  have hset (t : State) (lo len v : Nat) : KeepsClock t (t.setRf d (rCmtStat k) lo len v) := .setReg t d _ (rCmtStat_ne_rStkLock k)
  have hqueues (t : State) (pick : Desc → Bool) : KeepsClock t (allQueues.foldl (fun t q => t.abortQueue d q stAborted pick) t) :=
    KeepsClock.foldl _ (fun t q => State.abortQueue_keepsClock t d q stAborted pick) t
  have hbuckets (t : State) (p : Bucket → Bool) : KeepsClock t (t.modDie d (fun x => { x with buckets := x.buckets.filter p })) :=
    .modDie t d (fun _ => rfl) (fun _ => rfl)
  have hevent (t : State) (src : Endpoint) (st : Nat) (job : BitVec 12) (epoch : BitVec 8) (step hall : Word) (type data : Nat) :
      KeepsClock t (t.hostEvent d src st job epoch step hall type data) := .of_dies (State.dies_hostEvent ..)
  have hover (t : State) (v : Nat) : KeepsClock t ((t.setCmtState d k v).modCommit d k Commit.over) := (hset t 0 4 v).trans (.modCommit ..)
  unfold State.abortStep
  extract_lets job n mine why att reps s1 s2 s3 s4 halt s5
  have h1 : KeepsClock s s1 := ((State.scaleTables_keepsClock ..).trans (hset ..)).trans (hset ..)
  have h3 : KeepsClock s s3 := (h1.trans (.logFrom ..)).trans (hqueues ..)
  have h5 : KeepsClock s s5 := (h3.trans (hbuckets ..)).trans (hover ..)
  exact .ite (h5.trans (hevent ..)) h5

end Sys2Proof.Machine
end

section
/-! PROOF. The stroke boundary (R29, R31, R33, R34, R404). -/

namespace Sys2Proof.Machine

/-! ### The timer -/

/-- The number that a timer adopts at a boundary: a locked timer, or one whose die holds work of a job, the one found in the frames (R34). -/
def State.adopted (s : State) (d : DieIx) : Option Stroke :=
  if s.locked d || (List.range 32).any (s.jobWork d) then (s.die d).timer.incoming else none

theorem State.adopted_eq {s : State} {d : DieIx} (h : s.locked d = true ∨ ∃ k, k < 32 ∧ s.jobWork d k = true) :
    s.adopted d = (s.die d).timer.incoming := by
  refine if_pos ?_
  rw [Bool.or_eq_true, List.any_eq_true]
  exact h.imp_right fun ⟨k, hk, hwork⟩ => ⟨k, List.mem_range.mpr hk, hwork⟩

theorem State.adopted_eq_none {s : State} {d : DieIx}
    (h : ¬ (s.locked d = true ∨ ∃ k, k < 32 ∧ s.jobWork d k = true) ∨ (s.die d).timer.incoming = none) : s.adopted d = none := by
  unfold State.adopted
  split
  · next hadopts =>
    refine h.resolve_left fun hnot => hnot ?_
    rw [Bool.or_eq_true, List.any_eq_true] at hadopts
    exact hadopts.imp_right fun ⟨k, hk, hwork⟩ => ⟨k, List.mem_range.mp hk, hwork⟩
  · rfl

/-- The timer of the die goes on, with what is left of the stroke attributed to its cores. -/
def State.advance (s : State) (d : DieIx) : State :=
  (s.accrue d (s.strokeLen d - (s.die d).timer.cycle.toNat)).modTimer d (fun x => x.next (s.locked d) (s.rf d rStkCfg 0 8 / 4) (s.adopted d))

/-- The lock register at a boundary: the phase where one was measured, a stroke out of lock, and the end of a relock (R33). -/
def State.countLock (s : State) (d : DieIx) (lk measured : Bool) (phase : Nat) : State :=
  let t := if measured then s.setRf d rStkLock 16 8 phase else s
  (if lk then t else t.addSat d rStkLock 0 16 1).endRelock d

/-- The stroke has begun; an adopted number is still to abort the steps that it cuts off. -/
def State.newStroke (s : State) (d : DieIx) : State :=
  (s.advance d).countLock d (s.locked d) (s.die d).timer.measured (BitVec.ofInt 8 (max (-127) (min 127 (s.die d).timer.phase))).toNat

theorem State.timerBoundary_eq (s : State) (d : DieIx) :
    (s.adopted d = none → s.timerBoundary d = s.newStroke d)
      ∧ (s.adopted d ≠ none → KeepsClock (s.newStroke d) (s.timerBoundary d)) := by
  have hbase : s.timerBoundary d = match s.adopted d with
      | none => s.newStroke d
      | some _ => (List.range 32).foldl (fun u k => if u.jobWork d k then u.abortStep d k stAborted else u)
          ((s.newStroke d).logEvent d 0x0104 0 (s.die d).timer.stroke.toNat) := rfl
  rw [hbase]
  constructor
  · intro h
    rw [h]
  · intro h
    cases hs : s.adopted d with
    | none => exact absurd hs h
    | some n =>
      refine KeepsClock.trans (.logFrom ..) (KeepsClock.foldl _ (fun u k => ?_) _)
      exact .ite (State.abortStep_keepsClock ..) (.refl u)

/-! ### What a new stroke shows -/

theorem State.reg_accrue (s : State) (d : DieIx) (n off : Nat) : (s.accrue d n).reg d off = s.reg d off := by
  unfold State.accrue
  split
  · rfl
  · exact State.reg_modDie _ _ _ _ (fun _ => rfl)

theorem State.timer_accrue (s : State) (d e : DieIx) (n : Nat) : ((s.accrue d n).die e).timer = (s.die e).timer := by
  unfold State.accrue
  split
  · rfl
  · by_cases he : e = d
    · subst he; simp
    · rw [State.die_modDie_ne s d e _ he]

/-- The cycles are added to the cause of each core. -/
theorem State.idle_accrue (s : State) (d : DieIx) (n : Nat) (c : CoreIx) : ((s.accrue d n).core d c).idle =
    (s.core d c).idle.set (s.idleCause d c) ((s.core d c).idle[s.idleCause d c] + BitVec.ofNat 64 n) := by
  unfold State.accrue
  split
  · next h => subst h; simp
  · simp [State.core, Die.core]

/-- The timer of a new stroke. -/
theorem State.timer_advance (s : State) (d : DieIx) :
    ((s.advance d).die d).timer = (s.die d).timer.next (s.locked d) (s.rf d rStkCfg 0 8 / 4) (s.adopted d) := by
  rw [State.advance, State.modTimer, State.die_modDie]
  dsimp only
  rw [State.timer_accrue]

theorem State.timer_advance_ne (s : State) {d e : DieIx} (h : e ≠ d) : ((s.advance d).die e).timer = (s.die e).timer := by
  rw [State.advance, State.modTimer, State.die_modDie_ne _ d e _ h, State.timer_accrue]

/-- From s to t a relock of die d may have ended, which its timer, registers and log show; the cores and the other dies are as they were. -/
structure LockCounted (d : DieIx) (s t : State) : Prop where
  timer : ∃ r, (t.die d).timer = { (s.die d).timer with relocking := r }
  cores : (t.die d).cores = (s.die d).cores
  others : ∀ e, e ≠ d → t.die e = s.die e

theorem LockCounted.refl (d : DieIx) (s : State) : LockCounted d s s := ⟨⟨(s.die d).timer.relocking, rfl⟩, rfl, fun _ _ => rfl⟩

theorem LockCounted.trans {d : DieIx} {s t u : State} (h : LockCounted d s t) (k : LockCounted d t u) : LockCounted d s u := by
  obtain ⟨a, ha⟩ := h.timer
  obtain ⟨b, hb⟩ := k.timer
  exact ⟨⟨b, by rw [hb, ha]⟩, k.cores.trans h.cores, fun e he => (k.others e he).trans (h.others e he)⟩

theorem RegsOnly.lockCounted {d : DieIx} {s t : State} (h : RegsOnly d s t) : LockCounted d s t := by
  obtain ⟨r, rfl⟩ := h
  exact ⟨⟨(s.die d).timer.relocking, by rw [State.die_modDie]⟩, by rw [State.die_modDie], fun e he => State.die_modDie_ne s d e _ he⟩

theorem State.endRelock_lockCounted (s : State) (d : DieIx) : LockCounted d s (s.endRelock d) := by
  have htimer : LockCounted d s (s.modTimer d (fun x => { x with relocking := false })) :=
    ⟨⟨false, by rw [State.modTimer, State.die_modDie]⟩, by rw [State.modTimer, State.die_modDie], fun e he => State.die_modDie_ne s d e _ he⟩
  have hlog (t : State) (code detail : Nat) : LockCounted d t (t.logEvent d code 0 detail) :=
    ⟨⟨(t.die d).timer.relocking, by rw [State.die_logEvent]⟩, by rw [State.die_logEvent], fun e he => State.die_modDie_ne t d e _ he⟩
  unfold State.endRelock
  split
  · exact (htimer.trans (State.setReg_regsOnly _ d _ _).lockCounted).trans (hlog ..)
  · exact .refl d s

theorem State.countLock_lockCounted (s : State) (d : DieIx) (lk measured : Bool) (phase : Nat) : LockCounted d s (s.countLock d lk measured phase) := by
  have hphase : LockCounted d s (if measured then s.setRf d rStkLock 16 8 phase else s) := by
    split
    · exact (State.setRf_regsOnly ..).lockCounted
    · exact .refl d s
  have hcount (t : State) : LockCounted d t (if lk then t else t.addSat d rStkLock 0 16 1) := by
    split
    · exact .refl d t
    · exact (State.setRf_regsOnly ..).lockCounted
  exact (hphase.trans (hcount _)).trans (State.endRelock_lockCounted ..)

/-- The end of a relock and the phase stand beside the count of strokes out of lock in STK_LOCK_STATUS. -/
theorem State.rf_endRelock (s : State) (d : DieIx) : (s.endRelock d).rf d rStkLock 0 16 = s.rf d rStkLock 0 16 := by
  unfold State.endRelock
  split
  · rw [State.rf, State.reg_logEvent, State.modReg, State.reg_setReg, setBit, fld_setFld_apart _ _ (.inl (by decide)), State.modTimer,
      State.reg_modDie _ _ _ _ (by intro; rfl), State.rf]
  · rfl

/-- Out of lock the stroke is counted (R31). -/
theorem State.rf_countLock (s : State) (d : DieIx) (measured : Bool) (phase : Nat) :
    (s.countLock d false measured phase).rf d rStkLock 0 16 = min (s.rf d rStkLock 0 16 + 1) 65535 := by
  have hphase : (if measured then s.setRf d rStkLock 16 8 phase else s).rf d rStkLock 0 16 = s.rf d rStkLock 0 16 := by
    split
    · rw [State.setRf, State.modReg, State.rf, State.reg_setReg, fld_setFld_apart _ _ (.inl (by decide)), State.rf]
    · rfl
  change (((if measured then s.setRf d rStkLock 16 8 phase else s).addSat d rStkLock 0 16 1).endRelock d).rf d rStkLock 0 16 = _
  rw [State.rf_endRelock, State.rf_addSat _ d _ 1 (by decide), hphase]
  rfl

/-- What a new stroke shows: the timer of the die has gone on, no other has, and out of lock the stroke is counted. -/
theorem State.newStroke_spec (s : State) (d : DieIx) :
    (∃ r, ((s.newStroke d).die d).timer = { (s.die d).timer.next (s.locked d) (s.rf d rStkCfg 0 8 / 4) (s.adopted d) with relocking := r })
      ∧ (∀ e, e ≠ d → ((s.newStroke d).die e).timer = (s.die e).timer)
      ∧ (s.locked d = false → (s.newStroke d).rf d rStkLock 0 16 = min (s.rf d rStkLock 0 16 + 1) 65535)
      ∧ ∀ c, ((s.newStroke d).core d c).idle = ((s.accrue d (s.strokeLen d - (s.die d).timer.cycle.toNat)).core d c).idle := by
  have hlock : LockCounted d (s.advance d) (s.newStroke d) := State.countLock_lockCounted ..
  refine ⟨?_, fun e he => ?_, fun hfree => ?_, fun c => ?_⟩
  · obtain ⟨r, hr⟩ := hlock.timer
    exact ⟨r, by rw [hr, State.timer_advance]⟩
  · rw [hlock.others e he, State.timer_advance_ne s he]
  · rw [State.newStroke, hfree, State.rf_countLock, State.advance, State.modTimer, State.rf, State.reg_modDie _ _ _ _ (by intro; rfl),
      State.reg_accrue, State.rf]
  · rw [State.core, Die.core, hlock.cores, State.advance, State.modTimer, State.die_modDie]
    rfl

/-- The number of a new stroke: one more than the adopted one, or than the present one; an incoming number that is not adopted counts on. -/
theorem Timer.next_spec (x : Timer) (lk : Bool) (lim : Int) (adopt : Option Stroke) :
    (x.next lk lim adopt).cycle = 0 ∧ (x.next lk lim adopt).stroke = adopt.getD x.stroke + 1
      ∧ (x.next lk lim adopt).incoming = (if adopt.isSome then none else x.incoming.map (fun i => i + 1))
      ∧ (x.next lk lim adopt).stretch = (if lk && x.measured then max (-lim) (min lim x.phase) else 0) := ⟨rfl, rfl, rfl, rfl⟩

/-- A locked timer changes its stroke by at most a limit. -/
theorem abs_clamp_le {lim phase : Int} (b : Bool) (h : 0 ≤ lim) :
    (if b then max (-lim) (min lim phase) else 0) ≤ lim ∧ -lim ≤ (if b then max (-lim) (min lim phase) else 0) := by
  split <;> omega

/-! ### Units that make no progress (R404) -/

/-- The judgement of one unit at a boundary. -/
theorem State.mem_watchBoundary {s : State} {d : DieIx} {u : HungUnit} {w : Watch} (n : Stroke) (hu : u ∈ hangUnits) (hpends : s.unitPends d u = true)
    (hw : (s.die d).watch.find? (fun x => decide (x.unit = u)) = some w) :
    ⟨u, s.progress d u, if w.seen = s.progress d u ∧ !s.unitExempt d u n then w.strokes + 1 else 0⟩ ∈ ((s.watchBoundary d n).die d).watch := by
  rw [State.watchBoundary, State.die_modDie]
  refine List.mem_map.mpr ⟨u, List.mem_filter.mpr ⟨hu, hpends⟩, ?_⟩
  simp only [hw]

end Sys2Proof.Machine
end

section
open Sys2Proof Sys2Proof.Machine
open Host (Outcome)

/-- Settles O24: the timer goes on first, and where it adopts a number, aborting the steps that it cuts off leaves the clock alone. -/
theorem strokeBoundaryCounts : Obligations.StrokeBoundaryCounts := by
  unfold Obligations.StrokeBoundaryCounts
  refine ⟨fun s d b hready => ?_, fun s d n u w hu hpends hw => ?_, fun s d => ?_, fun s d c => ?_⟩
  · change execStrokeBoundary d b s = _
    rw [execStrokeBoundary, onDie_ready hready]
  · intro t
    have hmem := State.mem_watchBoundary n hu hpends hw
    refine ⟨fun hseen hexempt => ?_, fun hother => ?_, rfl, ?_⟩
    · rw [← hseen] at hmem
      rwa [if_pos ⟨rfl, by simp [hexempt]⟩] at hmem
    · rwa [if_neg (fun h => hother.elim (fun hne => hne h.1) (fun hexempt => by simp [hexempt] at h))] at hmem
    · simp only [t, State.watchBoundary, State.die_modDie]
  · intro t x adopts
    obtain ⟨hplain, hkeeps⟩ := s.timerBoundary_eq d
    obtain ⟨⟨r, htimer⟩, hothers, hcount, hidle⟩ := s.newStroke_spec d
    obtain ⟨hcycle, hstroke, hincoming, hstretch⟩ := x.next_spec (s.locked d) (s.rf d rStkCfg 0 8 / 4) (s.adopted d)
    have hclock : KeepsClock (s.newStroke d) t := by
      by_cases h : s.adopted d = none
      · rw [show t = _ from hplain h]; exact .refl _
      · exact hkeeps h
    have ht : (t.die d).timer = { x.next (s.locked d) (s.rf d rStkCfg 0 8 / 4) (s.adopted d) with relocking := r } := (hclock.timer d).trans htimer
    have hnumber : t.stroke d = (s.adopted d).getD (s.stroke d) + 1 := by rw [State.stroke, ht]; exact hstroke
    refine ⟨?_, fun h => ⟨?_, fun c => ?_⟩, fun n hadopts hn => ⟨?_, ?_⟩, fun n hadopts hn => ?_, fun hlocked => ?_, fun hfree => ⟨?_, ?_⟩,
      fun e he => ?_⟩
    · rw [ht]; exact hcycle
    · rw [hnumber, State.adopted_eq_none h]; rfl
    · rw [show t = _ from hplain (State.adopted_eq_none h), hidle, State.idle_accrue]
    · rw [hnumber, State.adopted_eq hadopts, hn]; rfl
    · rw [ht]
      exact hincoming.trans (by rw [State.adopted_eq hadopts, hn]; rfl)
    · rw [ht]
      exact hincoming.trans (by rw [State.adopted_eq_none (.inl hadopts), hn]; rfl)
    · rw [ht]
      dsimp only
      rw [hstretch, hlocked, Bool.true_and]
      have hle := abs_clamp_le (lim := (s.rf d rStkCfg 0 8 : Int) / 4) (phase := x.phase) x.measured (by omega)
      omega
    · rw [ht]
      dsimp only
      rw [hstretch, hfree, Bool.false_and]
      rfl
    · rw [State.rf, hclock.lock d]; exact hcount hfree
    · exact (hclock.timer e).trans (hothers e he)
  · refine ⟨?_, ?_, rfl⟩ <;> simp [State.wakeWaiters, State.core, Die.core]
end

section
/-! LEMMAS. Rounding on grids (R54, R60, R61). -/

namespace Sys2Proof.Machine

/-- No mode rounds a magnitude below its integer part. -/
theorem le_roundShift (mode : Rnd) (neg : Bool) (m k : Nat) (g : Gen) : m / 2 ^ k ≤ (roundShift mode neg m k g).val := by
  unfold roundShift
  dsimp only
  split
  · exact le_rfl
  · cases mode <;> dsimp only <;> try split
    all_goals omega

/-- No mode rounds a magnitude beyond the next integer. -/
theorem roundShift_le (mode : Rnd) (neg : Bool) (m k : Nat) (g : Gen) : (roundShift mode neg m k g).val ≤ m / 2 ^ k + 1 := by
  unfold roundShift
  dsimp only
  split
  · exact Nat.le_succ _
  · cases mode <;> dsimp only <;> try split
    all_goals omega

/-- Below an odd integer part the bits that a draw is added to are no fewer on a grid twice as coarse. -/
theorem srBits_le_succ {m k : Nat} (hodd : m / 2 ^ k % 2 = 1) : srBits m k ≤ srBits m (k + 1) := by
  have hmod : m % 2 ^ (k + 1) = 2 ^ k + m % 2 ^ k := by rw [Nat.mod_pow_succ, hodd]; omega
  have hlt : m % 2 ^ k < 2 ^ k := Nat.mod_lt _ (Nat.two_pow_pos k)
  unfold srBits
  by_cases hk : 16 ≤ k
  · obtain ⟨j, rfl⟩ := Nat.exists_eq_add_of_le hk
    rw [if_pos (by omega), if_pos (by omega), show 16 + j - 16 = j by omega, show 16 + j + 1 - 16 = j + 1 by omega, Nat.pow_succ,
      ← Nat.div_div_eq_div_mul]
    rw [Nat.add_comm, Nat.pow_add, ← Nat.div_div_eq_div_mul] at hodd
    omega
  · rw [if_neg hk]
    obtain ⟨j, hj⟩ : ∃ j, 16 - k = j + 1 := ⟨15 - k, by omega⟩
    rw [hj]
    by_cases h15 : k = 15
    · subst h15
      obtain rfl : j = 0 := by omega
      rw [if_pos le_rfl]
      omega
    · rw [if_neg (by omega), show 16 - (k + 1) = j by omega, hmod, Nat.pow_succ]
      have := Nat.mul_le_mul_right (2 ^ j) (show m % 2 ^ k * 2 ≤ 2 ^ k + m % 2 ^ k by omega)
      rw [Nat.mul_assoc, Nat.mul_comm 2] at this
      exact this

/-- What rounds up to an even number of steps reaches half as many steps on a grid twice as coarse. -/
theorem roundShift_half_le (mode : Rnd) (neg : Bool) (m k : Nat) (g : Gen) :
    (roundShift mode neg m k g).val / 2 ≤ (roundShift mode neg m (k + 1) g).val := by
  have hdiv : m / 2 ^ (k + 1) = m / 2 ^ k / 2 := by rw [Nat.pow_succ, Nat.div_div_eq_div_mul]
  have hmod : m % 2 ^ (k + 1) = m % 2 ^ k + 2 ^ k * (m / 2 ^ k % 2) := Nat.mod_pow_succ
  have hle := le_roundShift mode neg m (k + 1) g
  rw [hdiv] at hle
  by_cases hodd : m / 2 ^ k % 2 = 1
  · rw [hodd, Nat.mul_one] at hmod
    have hsr := srBits_le_succ hodd
    have hpos := Nat.two_pow_pos k
    have hpow : 2 ^ (k + 1) = 2 * 2 ^ k := Nat.pow_succ'
    unfold roundShift at hle ⊢
    dsimp only at hle ⊢
    rw [hdiv, if_neg (by omega : m % 2 ^ (k + 1) ≠ 0)] at hle ⊢
    split
    · omega
    · cases mode
      case sr => dsimp only; split <;> split <;> omega
      case rne => dsimp only; split <;> split <;> omega
      case rup => dsimp only; split <;> omega
      case rdn => dsimp only; split <;> omega
      case rtz => dsimp only; omega
  · have := roundShift_le mode neg m k g
    omega

/-- A value below its leading bit's binade is none. -/
theorem two_pow_le_roundGrid (mode : Rnd) (neg : Bool) {m : Nat} (e : Int) (n : Nat) (g : Gen) (hm : m ≠ 0) :
    2 ^ n ≤ (roundGrid mode neg m e (leadExp m e - n) g).val := by
  have hlead : 2 ^ m.log2 ≤ m := Nat.log2_self_le hm
  unfold roundGrid leadExp
  split
  · rename_i h
    calc 2 ^ n ≤ 2 ^ (m.log2 + (e - ((m.log2 : Int) + e - n)).toNat) := Nat.pow_le_pow_right two_pos (by omega)
      _ ≤ m * 2 ^ (e - ((m.log2 : Int) + e - n)).toNat := by rw [Nat.pow_add]; exact Nat.mul_le_mul_right _ hlead
  · rename_i h
    refine le_trans ?_ (le_roundShift ..)
    rw [Nat.le_div_iff_mul_le (Nat.two_pow_pos _), ← Nat.pow_add]
    exact le_trans (Nat.pow_le_pow_right two_pos (by omega)) hlead

theorem roundGrid_half_le (mode : Rnd) (neg : Bool) (m : Nat) (e lsb : Int) (g : Gen) :
    (roundGrid mode neg m e lsb g).val / 2 ≤ (roundGrid mode neg m e (lsb + 1) g).val := by
  unfold roundGrid
  by_cases h : lsb + 1 ≤ e
  · rw [if_pos (by omega), if_pos h, show (e - lsb).toNat = (e - (lsb + 1)).toNat + 1 by omega, Nat.pow_succ, ← Nat.mul_assoc]
    simp
  · rw [if_neg h]
    by_cases he : lsb ≤ e
    · rw [if_pos he]
      obtain rfl : e = lsb := by omega
      have := le_roundShift mode neg m (e + 1 - e).toNat g
      simpa using this
    · rw [if_neg he, show (lsb + 1 - e).toNat = (lsb - e).toNat + 1 by omega]
      exact roundShift_half_le ..

end Sys2Proof.Machine
end

section
/-! PROOF. WF16 elements (R48, R55). -/

namespace Sys2Proof.Machine

/-- Rounding into a binary format in one mode throughout. -/
def roundBinIn (f : Fmt) (mode : Rnd) (neg : Bool) (m : Nat) (e : Int) (g : Gen) : BinOut :=
  let b := binOf f
  let top := leadExp m e
  let lsb := max (top - b.fbits) b.emin
  let r := roundGrid mode neg m e lsb g
  let code := (lsb - b.emin).toNat * 2 ^ b.fbits + r.val
  let tiny := if (roundGrid mode neg m e (top - b.fbits) g).val ≥ 2 ^ (b.fbits + 1) then decide (top + 1 < 1 - b.bias) else decide (top < 1 - b.bias)
  ⟨code, r.inexact, tiny, decide (code ≥ overCode f), r.gen⟩

/-- SR alone gives way to another mode, above the largest finite value (R61). -/
theorem roundBin_eq (f : Fmt) (mode : Rnd) (neg : Bool) (m : Nat) (e : Int) (g : Gen) :
    ∃ md, (mode ≠ .sr → md = mode) ∧ roundBin f mode neg m e g = roundBinIn f md neg m e g := by
  unfold roundBin
  dsimp only
  refine ⟨_, fun h => ?_, rfl⟩
  rw [if_neg (fun hsr => h hsr.1)]

/-- What WF16 writes of a finite value that is not tiny has an exponent field that is not 0. -/
theorem roundBinIn_wf16_normal {mode : Rnd} {neg : Bool} {m : Nat} {e : Int} {g : Gen} (hm : m ≠ 0)
    (ht : (roundBinIn .wf16 mode neg m e g).tiny = false) : 128 ≤ (roundBinIn .wf16 mode neg m e g).mag := by
  have hlead := two_pow_le_roundGrid mode neg e 7 g hm
  have hhalf := roundGrid_half_le mode neg m e (leadExp m e - 7) g
  simp only [roundBinIn, binOf, BinFmt.bias, BinFmt.emin] at ht ⊢
  generalize leadExp m e = top at ht hlead hhalf ⊢
  norm_num at ht hlead hhalf ⊢
  rcases lt_or_ge (-133) (top - 7) with hhigh | hlow
  · rw [max_eq_left hhigh.le]
    omega
  · rw [max_eq_right hlow]
    by_cases htop : top = -126
    · subst htop
      norm_num at hlead ⊢
      omega
    · split at ht
      · rename_i hbig
        obtain rfl : top = -127 := by omega
        norm_num at hbig hhalf ⊢
        omega
      · omega

/-- A finite value that WF16 does not flush or saturate keeps its magnitude code, whose exponent field is neither 0 nor 255. -/
theorem encodeFloat_wf16_fin (mode : Rnd) (neg : Bool) (m : Nat) (e : Int) (g : Gen) :
    ∃ mag, (encodeFloat .wf16 mode (.fin neg m e) g).bits = withSign .wf16 neg mag ∧ (mag = 0 ∨ (128 ≤ mag ∧ mag < 0x7F80)) := by
  obtain ⟨md, -, heq⟩ := roundBin_eq .wf16 mode neg m e g
  have hover : (roundBinIn .wf16 md neg m e g).overflow = decide (0x7F80 ≤ (roundBinIn .wf16 md neg m e g).mag) := rfl
  unfold encodeFloat
  simp only [heq]
  by_cases hm : m = 0
  · exact ⟨0, by simp [hm], .inl rfl⟩
  · have hnormal := fun ht => roundBinIn_wf16_normal (g := g) (mode := md) (neg := neg) (e := e) hm ht
    generalize roundBinIn .wf16 md neg m e g = r at hover hnormal ⊢
    rw [if_neg hm]
    cases hr : r.overflow
    · cases ht : r.tiny
      · exact ⟨r.mag, by simp, .inr ⟨hnormal ht, by simpa [hr] using hover⟩⟩
      · exact ⟨0, by simp, .inl rfl⟩
    · exact ⟨maxCode .wf16, by simp, .inr (by decide)⟩

/-- The fields of a WF16 word whose magnitude is given. -/
theorem withSign_wf16_fields (neg : Bool) {mag : Nat} (h : mag < 0x8000) :
    withSign .wf16 neg mag < 65536 ∧ withSign .wf16 neg mag / 128 % 256 = mag / 128 ∧ withSign .wf16 neg mag % 128 = mag % 128 := by
  cases neg <;> simp [withSign, signBit] <;> omega

end Sys2Proof.Machine
end

section
open Sys2Proof Sys2Proof.Machine
open Host (Outcome)

/-- Settles O60: what is written is NaN's one code, or a sign on a magnitude that is 0 or has an exponent field from 1 to 254. -/
theorem wf16Numbers : Obligations.Wf16Numbers := by
  unfold Obligations.Wf16Numbers
  refine ⟨fun b hb => ⟨fun h => ?_, fun h => ?_⟩, fun m v g => ?_⟩
  · have hex : b % 32768 / 128 = 0 := by omega
    have hsign : b / 32768 % 2 = 1 ↔ 32768 ≤ b := by omega
    simp [decodeScalar, decodeFloat, signBit, binOf, hex, hsign]
  · have hex : b % 32768 / 128 = 255 := by omega
    simp [decodeScalar, decodeFloat, signBit, binOf, hex]
  · rw [show encodeScalar .wf16 m v g = encodeFloat .wf16 m v g from rfl]
    cases v with
    | nan => exact ⟨by simp [encodeFloat, canonNan], fun _ => rfl, by simp [encodeFloat, canonNan], fun _ => rfl⟩
    | inf neg =>
      obtain ⟨hlt, hexp, -⟩ := withSign_wf16_fields neg (mag := maxCode .wf16) (by decide)
      refine ⟨hlt, fun h => ?_, fun h => ?_, nofun⟩ <;> exact absurd (hexp.symm.trans h) (by decide)
    | fin neg mant e =>
      obtain ⟨mag, hbits, hmag⟩ := encodeFloat_wf16_fin m neg mant e g
      obtain ⟨hlt, hexp, hfrac⟩ := withSign_wf16_fields neg (mag := mag) (by omega)
      rw [hbits]
      refine ⟨hlt, fun h => ?_, fun h => ?_, nofun⟩ <;> omega
end

section
/-! LEMMAS. Where no mode draws (R54, R61): the generator has no part in what is written. -/

namespace Sys2Proof.Machine

variable {mode : Rnd}

theorem roundShift_gen (h : mode ≠ .sr) (neg : Bool) (m k : Nat) (g j : Gen) :
    roundShift mode neg m k g = { roundShift mode neg m k j with gen := g } := by
  unfold roundShift
  dsimp only
  split
  · rfl
  · cases mode
    case sr => exact absurd rfl h
    all_goals rfl

theorem roundGrid_gen (h : mode ≠ .sr) (neg : Bool) (m : Nat) (e lsb : Int) (g j : Gen) :
    roundGrid mode neg m e lsb g = { roundGrid mode neg m e lsb j with gen := g } := by
  unfold roundGrid
  split
  · rfl
  · exact roundShift_gen h ..

theorem roundBin_gen (f : Fmt) (h : mode ≠ .sr) (neg : Bool) (m : Nat) (e : Int) (g j : Gen) :
    roundBin f mode neg m e g = { roundBin f mode neg m e j with gen := g } := by
  simp only [roundBin, h, false_and, if_false]
  rw [roundGrid_gen h neg m e _ g j, roundGrid_gen h neg m e _ g j]

theorem encodeFloat_gen (f : Fmt) (h : mode ≠ .sr) (v : Fpv) (g j : Gen) :
    encodeFloat f mode v g = { encodeFloat f mode v j with gen := g } := by
  cases v with
  | nan => rfl
  | inf neg => cases f <;> rfl
  | fin neg m e =>
    simp only [encodeFloat, roundBin_gen f h neg m e g j]
    split
    · rfl
    · split
      · cases f <;> cases neg <;> cases mode <;> rfl
      · cases f
        case wf16 => dsimp only; split <;> rfl
        all_goals rfl

theorem encodeInt_gen (w : Nat) (h : mode ≠ .sr) (v : Fpv) (g j : Gen) : encodeInt w mode v g = { encodeInt w mode v j with gen := g } := by
  cases v with
  | nan => rfl
  | inf neg => rfl
  | fin neg m e =>
    simp only [encodeInt, roundInt, h, false_and, if_false, roundGrid_gen h neg m e 0 g j]
    split <;> split <;> rfl

theorem encodeScalar_gen (f : Fmt) (h : mode ≠ .sr) (v : Fpv) (g j : Gen) : encodeScalar f mode v g = { encodeScalar f mode v j with gen := g } := by
  unfold encodeScalar
  split
  · exact encodeInt_gen _ h ..
  · exact encodeInt_gen _ h ..
  · exact encodeFloat_gen _ h ..

theorem ieeeRound_bits_gen (f : Fmt) (h : mode ≠ .sr) (v : Fpv) (g j : Gen) : (ieeeRound f mode v g).bits = (ieeeRound f mode v j).bits := by
  cases v with
  | nan => rfl
  | inf neg => rfl
  | fin neg m e =>
    simp only [ieeeRound, roundBin_gen f h neg m e g j, encodeFloat_gen f h _ g j]
    split
    · rfl
    · split <;> rfl

theorem ieeeOp_bits_gen (f : Fmt) (h : mode ≠ .sr) (ops : List Nat) (v : Fpv) (g j : Gen) :
    (ieeeOp f mode ops v g).bits = (ieeeOp f mode ops v j).bits := by
  unfold ieeeOp
  split
  · rfl
  · exact ieeeRound_bits_gen f h v g j

theorem wfRound_bits_gen (h : mode ≠ .sr) (fromNan : Bool) (v : Fpv) (g j : Gen) :
    (wfRound mode fromNan v g).bits = (wfRound mode fromNan v j).bits := by
  unfold wfRound
  split
  · rfl
  · rw [encodeFloat_gen .wf16 h v g j]

theorem elemBin_bits_gen (o : FBin) (f : Fmt) (h : mode ≠ .sr) (a b : Nat) (g j : Gen) :
    (elemBin o f mode a b g).bits = (elemBin o f mode a b j).bits := by
  unfold elemBin
  split
  · exact wfRound_bits_gen h ..
  · unfold ieeeBin
    dsimp only
    split <;> exact ieeeOp_bits_gen f h ..

theorem elemSqrt_bits_gen (f : Fmt) (h : mode ≠ .sr) (a : Nat) (g j : Gen) : (elemSqrt f mode a g).bits = (elemSqrt f mode a j).bits := by
  unfold elemSqrt
  split
  · exact wfRound_bits_gen h ..
  · exact ieeeOp_bits_gen f h ..

theorem elemFma_bits_gen (o : FFma) (f : Fmt) (h : mode ≠ .sr) (a b c : Nat) (g j : Gen) :
    (elemFma o f mode a b c g).bits = (elemFma o f mode a b c j).bits := by
  unfold elemFma
  split
  · exact wfRound_bits_gen h ..
  · unfold ieeeFma
    dsimp only
    split <;> exact ieeeOp_bits_gen f h ..

theorem elemMinMax_bits_gen (big : Bool) (f : Fmt) (a b : Nat) (g j : Gen) :
    (elemMinMax big f a b g).bits = (elemMinMax big f a b j).bits := by
  have hbits : (ieeeMinMax big f a b g).bits = (ieeeMinMax big f a b j).bits := by
    unfold ieeeMinMax
    dsimp only
    repeat' split
    all_goals rfl
  unfold elemMinMax
  dsimp only
  split
  · split
    · rfl
    · exact hbits
  · exact hbits

theorem elemSign_bits_gen (f : Fmt) (a bits : Nat) (g j : Gen) : (elemSign f a bits g).bits = (elemSign f a bits j).bits := by
  unfold elemSign
  split
  · exact wfRound_bits_gen (by decide) ..
  · rfl

theorem elemToInt_bits_gen (f : Fmt) (w : Nat) (h : mode ≠ .sr) (a : Nat) (g j : Gen) :
    (elemToInt f w mode a g).bits = (elemToInt f w mode a j).bits := by
  have hbits : (floatToInt f w mode a g).bits = (floatToInt f w mode a j).bits := by
    simp only [floatToInt, encodeInt_gen w h (decodeFloat f a) g j]
    split <;> rfl
  unfold elemToInt
  dsimp only
  split <;> exact hbits

theorem elemFromInt_bits_gen (f : Fmt) (w : Nat) (h : mode ≠ .sr) (a : Nat) (g j : Gen) :
    (elemFromInt f w mode a g).bits = (elemFromInt f w mode a j).bits := by
  unfold elemFromInt
  split
  · exact wfRound_bits_gen h ..
  · exact ieeeRound_bits_gen f h ..

end Sys2Proof.Machine
end

section
/-! LEMMAS. Vector instructions: issue, elements that are written to a register, and what else a result leaves alone (R141, R146, R161 to R164). -/

namespace Sys2Proof.Machine

/-! ### Issue (R163) -/

/-- A vector instruction whose encoding is legal has the effect of its body on an engine that is neither fenced nor being reset. -/
theorem exec_vinsn {s : State} {d : DieIx} {c : CoreIx} {i : Instr} {legal : Bool} {body : State → Eff}
    (he : exec i s = onDie d s (fun t => t.vinsn d c i legal body)) (hi : CanIssue s d c) (hs : Spelt s d c i) (hlegal : legal = true) :
    exec i s = .next (s.conclude d c (body s)) := by
  obtain ⟨hf, hfenced, hreset⟩ := hi
  rw [exec_insn he hf hs]
  simp [hlegal, hfenced, hreset]

/-! ### Elements of a register (R141, R146) -/

theorem elemBits_pos (w : Fin 4) : 0 < elemBits w := Nat.mul_pos (by decide) (Nat.two_pow_pos _)

theorem lanes_mul_elemBits (w : Fin 4) : lanes w * elemBits w = 4096 := by revert w; decide

theorem segOf_lt {w : Fin 4} {i : Nat} (h : i < lanes w) : segOf w i < 64 := by
  have := Nat.mul_lt_mul_of_pos_right h (elemBits_pos w)
  rw [lanes_mul_elemBits] at this
  simp only [elemBits] at this
  rw [segOf, Nat.div_lt_iff_lt_mul (by decide)]
  rw [Nat.mul_left_comm] at this
  omega

theorem mem_active {k : Core} {w : Fin 4} {pg : Fin 8} {i : Nat} : i ∈ k.active w pg ↔ i < k.count w ∧ (k.pred pg).getLsbD i = true := by
  simp [Core.active, bitAt]

theorem nodup_active (k : Core) (w : Fin 4) (pg : Fin 8) : (k.active w pg).Nodup := List.nodup_range.filter _

theorem velem_setFld_same (v : BitVec 4096) {w : Fin 4} {i : Nat} (b : Nat) (h : i < lanes w) :
    velem (setFld v (i * elemBits w) (elemBits w) b) w i = b % 2 ^ elemBits w := by
  refine fld_setFld_same v b ?_
  rw [← Nat.succ_mul, ← lanes_mul_elemBits w]
  exact Nat.mul_le_mul_right _ h

theorem velem_setFld_ne (v : BitVec 4096) (w : Fin 4) {i j : Nat} (b : Nat) (h : i ≠ j) :
    velem (setFld v (j * elemBits w) (elemBits w) b) w i = velem v w i := by
  refine fld_setFld_apart v b ?_
  rcases Nat.lt_or_gt_of_ne h with h | h
  · left
    rw [← Nat.succ_mul]
    exact Nat.mul_le_mul_right _ h
  · right
    rw [← Nat.succ_mul]
    exact Nat.mul_le_mul_right _ h

/-- A register after elements have been written to it. -/
def putEls (w : Fin 4) (l : List VOut) (v : BitVec 4096) : BitVec 4096 :=
  l.foldl (fun a e => setFld a (e.idx * elemBits w) (elemBits w) e.bits) v

theorem velem_putEls_ne (w : Fin 4) {l : List VOut} {i : Nat} (h : ∀ e ∈ l, e.idx ≠ i) (v : BitVec 4096) : velem (putEls w l v) w i = velem v w i := by
  induction l generalizing v with
  | nil => rfl
  | cons e l ih =>
    obtain ⟨he, hl⟩ := List.forall_mem_cons.mp h
    rw [putEls, List.foldl_cons, ← putEls, ih hl, velem_setFld_ne v w _ he.symm]

theorem velem_putEls {w : Fin 4} {l : List VOut} {e : VOut} (hnodup : (l.map VOut.idx).Nodup) (he : e ∈ l) (hi : e.idx < lanes w) (v : BitVec 4096) :
    velem (putEls w l v) w e.idx = e.bits % 2 ^ elemBits w := by
  induction l generalizing v with
  | nil => nomatch he
  | cons x l ih =>
    obtain ⟨hx, hl⟩ := List.nodup_cons.mp hnodup
    rw [putEls, List.foldl_cons, ← putEls]
    rcases List.mem_cons.mp he with rfl | he
    · rw [velem_putEls_ne w (fun y hy h => hx (List.mem_map.mpr ⟨y, hy, h⟩)), velem_setFld_same v _ hi]
    · exact ih hl he _

/-! ### Marks of a register (R161) -/

theorem bitAt_setBit_ne {n : Nat} (x : BitVec n) {i j : Nat} (b : Bool) (h : i ≠ j) : bitAt (setBit x j b) i = bitAt x i := by
  unfold setBit bitAt
  rw [getLsbD_setFld, if_neg (by omega)]
  by_cases hi : i < n
  · simp [hi]
  · simp [hi, BitVec.getLsbD_of_ge x i (by omega)]

/-- Bits that are set to what a function says, one after another. -/
theorem bitAt_foldl_setBit {n : Nat} (f : Nat → Bool) {l : List Nat} {i : Nat} (hi : i < n) (hmem : i ∈ l) (x : BitVec n) :
    bitAt (l.foldl (fun a j => setBit a j (f j)) x) i = f i := by
  induction l using List.reverseRecOn with
  | nil => nomatch hmem
  | append_singleton l j ih =>
    rw [List.foldl_concat]
    by_cases h : i = j
    · subst h; exact bitAt_setBit _ _ hi
    · rw [bitAt_setBit_ne _ _ h]
      exact ih ((List.mem_append.mp hmem).resolve_right (by simpa using h))

theorem Core.writeEls_v (k : Core) (r : Fin 32) (w : Fin 4) (l : List VOut) : (k.writeEls r w l).vec.v[r] = putEls w l k.vec.v[r] := by
  simp [Core.writeEls, putEls]

theorem Core.writeEls_bad {k : Core} {r : Fin 32} {w : Fin 4} {l : List VOut} {e : VOut} (he : e ∈ l) (hbad : e.bad = true) (hi : e.idx < lanes w) :
    bitAt (k.writeEls r w l).vec.poison[r] (segOf w e.idx) = true := by
  have hseg : segOf w e.idx ∈ (l.map (fun x => segOf w x.idx)).eraseDups := by
    rw [List.mem_eraseDups]
    exact List.mem_map_of_mem (f := fun x => segOf w x.idx) he
  simp only [Core.writeEls, Fin.getElem_fin, Vector.getElem_set_self]
  rw [bitAt_foldl_setBit (f := fun g => (l.filter (fun e => segOf w e.idx == g)).any (fun e => e.bad) || _) (segOf_lt hi) hseg]
  simp only [Bool.or_eq_true, List.any_eq_true]
  exact .inl ⟨e, List.mem_filter.mpr ⟨he, by simp⟩, hbad⟩

/-! ### Results (R146, R161, R162) -/

theorem RegsOnly.refl (d : DieIx) (s : State) : RegsOnly d s s := ⟨(s.die d).regs, (State.modDie_of_eq rfl).symm⟩

theorem RegsOnly.mem {d : DieIx} {s t : State} (h : RegsOnly d s t) : t.mem = s.mem := by
  obtain ⟨r, rfl⟩ := h
  rfl

theorem RegsOnly.core {d : DieIx} {s t : State} (h : RegsOnly d s t) (c : CoreIx) : t.core d c = s.core d c := by
  obtain ⟨r, rfl⟩ := h
  simp [State.core, Die.core]

theorem RegsOnly.die_ne {d e : DieIx} {s t : State} (h : RegsOnly d s t) (he : e ≠ d) : t.die e = s.die e := by
  obtain ⟨r, rfl⟩ := h
  exact State.die_modDie_ne s d e _ he

theorem State.vxPoison_regsOnly (s : State) (d : DieIx) (c : CoreIx) (bad : Bool) : RegsOnly d s (s.vxPoison d c bad) := by
  unfold State.vxPoison
  split
  · exact State.setRf_regsOnly ..
  · exact .refl d s

theorem State.die_modCore_ne (s : State) {d e : DieIx} (c : CoreIx) (f : Core → Core) (h : e ≠ d) : (s.modCore d c f).die e = s.die e :=
  State.die_modDie_ne s d e _ h

theorem State.core_modCore_ne (s : State) (d : DieIx) {c j : CoreIx} (f : Core → Core) (h : j ≠ c) : (s.modCore d c f).core d j = s.core d j :=
  State.core_setCore_ne s d c j _ h

/-- A core after a vector result, its flags and the generator after it. -/
def Core.vresult (k : Core) (vd : Fin 32) (w : Fin 4) (l : List VOut) (flags : DWord) (g : Gen) : Core :=
  let j := k.writeEls vd w l
  { j with gen := g, vec := { j.vec with vstat := j.vec.vstat ||| flags } }

theorem State.core_vwrite (s : State) (d : DieIx) (c : CoreIx) (vd : Fin 32) (w : Fin 4) (l : List VOut) (flags : DWord) (g : Gen) :
    (s.vwrite d c vd w l flags g).core d c = (s.core d c).vresult vd w l flags g := by
  rw [State.vwrite, (State.vxPoison_regsOnly ..).core, State.core_modCore]
  rfl

theorem State.core_vwrite_ne (s : State) (d : DieIx) {c j : CoreIx} (vd : Fin 32) (w : Fin 4) (l : List VOut) (flags : DWord) (g : Gen) (h : j ≠ c) :
    (s.vwrite d c vd w l flags g).core d j = s.core d j := by
  rw [State.vwrite, (State.vxPoison_regsOnly ..).core, State.core_modCore_ne _ _ _ h]

theorem State.die_vwrite_ne (s : State) {d e : DieIx} (c : CoreIx) (vd : Fin 32) (w : Fin 4) (l : List VOut) (flags : DWord) (g : Gen) (h : e ≠ d) :
    (s.vwrite d c vd w l flags g).die e = s.die e := by
  rw [State.vwrite, (State.vxPoison_regsOnly ..).die_ne h, State.die_modCore_ne _ _ _ h]

theorem State.mem_vwrite (s : State) (d : DieIx) (c : CoreIx) (vd : Fin 32) (w : Fin 4) (l : List VOut) (flags : DWord) (g : Gen) :
    (s.vwrite d c vd w l flags g).mem = s.mem := by
  rw [State.vwrite, (State.vxPoison_regsOnly ..).mem, State.modCore_mem]

theorem Core.vresult_v_ne (k : Core) {vd r : Fin 32} (w : Fin 4) (l : List VOut) (flags : DWord) (g : Gen) (h : r ≠ vd) :
    (k.vresult vd w l flags g).vec.v[r] = k.vec.v[r] ∧ (k.vresult vd w l flags g).vec.poison[r] = k.vec.poison[r] := by
  have h' : vd.val ≠ r.val := fun hv => h (Fin.ext hv.symm)
  simp [Core.vresult, Core.writeEls, h']

/-- A vector result changes its register and what goes with it, and nothing else. -/
theorem State.vwrite_frame (s : State) (d : DieIx) (c : CoreIx) (vd : Fin 32) (w : Fin 4) (l : List VOut) (flags : DWord) (g : Gen) :
    VectorFrame s (s.conclude d c (.ok (s.vwrite d c vd w l flags g))) d c vd := by
  have hcore : (s.conclude d c (.ok (s.vwrite d c vd w l flags g))).core d c =
      ((s.core d c).vresult vd w l flags g).setPc ((s.core d c).proc.pc + 4) := by
    rw [State.conclude, State.core_modCore, State.core_vwrite]
  refine ⟨State.mem_vwrite .., ?_, fun r hr => ?_, ?_, ?_, ?_, ?_, fun j hj => ?_, fun e he => ?_⟩
  · rw [hcore]; rfl
  · rw [hcore]; exact Core.vresult_v_ne _ w l flags g hr
  · rw [hcore]; rfl
  · rw [hcore]; rfl
  · rw [hcore]; rfl
  · rw [hcore]; rfl
  · rw [State.conclude, State.core_modCore_ne _ _ _ hj, State.core_vwrite_ne _ _ _ _ _ _ _ hj]
  · rw [State.conclude, State.die_modCore_ne _ _ _ he, State.die_vwrite_ne _ _ _ _ _ _ _ he]

/-- What stands in the register of a vector result: the elements that are written, marks for the poisoned ones, and the rest as before. -/
theorem State.vwrite_lanes (s : State) (d : DieIx) (c : CoreIx) (vd : Fin 32) (w : Fin 4) {l : List VOut} (flags : DWord) (g : Gen)
    (hnodup : (l.map VOut.idx).Nodup) :
    let t := s.conclude d c (.ok (s.vwrite d c vd w l flags g))
    (∀ e ∈ l, e.idx < lanes w → velem (t.core d c).vec.v[vd] w e.idx = e.bits % 2 ^ elemBits w
        ∧ (e.bad = true → (t.core d c).vec.poison[vd].getLsbD (segOf w e.idx) = true))
      ∧ ∀ i, (∀ e ∈ l, e.idx ≠ i) → velem (t.core d c).vec.v[vd] w i = velem (s.core d c).vec.v[vd] w i := by
  intro t
  have hcore : t.core d c = ((s.core d c).vresult vd w l flags g).setPc ((s.core d c).proc.pc + 4) := by
    simp only [t, State.conclude, State.core_modCore, State.core_vwrite]
  have hv : (t.core d c).vec.v[vd] = putEls w l (s.core d c).vec.v[vd] := by
    rw [hcore]; exact Core.writeEls_v ..
  rw [hv]
  refine ⟨fun e he hi => ⟨velem_putEls hnodup he hi _, fun hbad => ?_⟩, fun i h => velem_putEls_ne w h _⟩
  rw [hcore]
  exact Core.writeEls_bad (k := s.core d c) he hbad hi

/-! ### Element operations (R150 to R153) -/

/-- The element that an operation writes where it needs no draw. -/
def laneOut (op : List Nat → Gen → FpOut) (g : Gen) (p : Nat × List VEl) : VOut :=
  if p.2.any (fun e => e.bad) then ⟨p.1, 0, true⟩ else ⟨p.1, (op (p.2.map (fun e => e.bits)) g).bits, false⟩

theorem vloop_eq_map (isat : Bool) {op : List Nat → Gen → FpOut} (hop : ∀ l g j, (op l g).bits = (op l j).bits) (l : List (Nat × List VEl)) (g j : Gen) :
    (vloop isat op l g).1 = l.map (laneOut op j) := by
  induction l generalizing g with
  | nil => rfl
  | cons p l ih =>
    obtain ⟨i, es⟩ := p
    rw [vloop, List.map_cons, laneOut]
    split
    · exact congrArg (_ :: ·) (ih g)
    · dsimp only
      rw [hop _ g j]
      exact congrArg (_ :: ·) (ih _)

/-- In every lane of core c: the value of its operands at an active element, a mark where one of them is poisoned, and what stood there elsewhere. -/
def LaneResults (s t : State) (d : DieIx) (c : CoreIx) (vd : Fin 32) (w : Fin 4) (pg : Fin 8) (ops : Nat → List VEl) (val : List Nat → Nat) : Prop :=
  ∀ i, i < lanes w →
    (IsActive s d c w pg i → (ops i).any (fun e => e.bad) = false →
        velem (t.core d c).vec.v[vd] w i = val ((ops i).map (fun e => e.bits)) % 2 ^ elemBits w)
      ∧ (IsActive s d c w pg i → (ops i).any (fun e => e.bad) = true → (t.core d c).vec.poison[vd].getLsbD (segOf w i) = true)
      ∧ (¬ IsActive s d c w pg i → velem (t.core d c).vec.v[vd] w i = velem (s.core d c).vec.v[vd] w i)

/-- An instruction that writes an operation's results to its active elements. -/
theorem State.vloop_spec (s : State) (d : DieIx) (c : CoreIx) (vd : Fin 32) (w : Fin 4) (pg : Fin 8) (ops : Nat → List VEl) (isat : Bool)
    {op : List Nat → Gen → FpOut} (hop : ∀ l g j, (op l g).bits = (op l j).bits) :
    let r := vloop isat op (((s.core d c).active w pg).map (fun i => (i, ops i))) (s.core d c).gen
    let t := s.conclude d c (.ok (s.vwrite d c vd w r.1 r.2.1 r.2.2))
    VectorFrame s t d c vd ∧ LaneResults s t d c vd w pg ops (fun l => (op l (s.core d c).gen).bits) := by
  intro r t
  have hr : r.1 = ((s.core d c).active w pg).map (fun i => laneOut op (s.core d c).gen (i, ops i)) := by
    simp only [r, vloop_eq_map isat hop _ _ (s.core d c).gen, List.map_map, Function.comp_def]
  have hidx : ∀ i, (laneOut op (s.core d c).gen (i, ops i)).idx = i := fun i => by
    unfold laneOut
    split <;> rfl
  have hnodup : (r.1.map VOut.idx).Nodup := by
    simp only [hr, List.map_map, Function.comp_def, hidx, List.map_id']
    exact nodup_active ..
  obtain ⟨hin, hout⟩ := s.vwrite_lanes d c vd w r.2.1 r.2.2 hnodup
  have hlane : ∀ i, i < lanes w → IsActive s d c w pg i → _ := fun i hi hact => hin _ (by
    rw [hr]
    exact List.mem_map_of_mem (mem_active.mpr hact)) (by rwa [hidx])
  refine ⟨s.vwrite_frame .., fun i hi => ⟨fun hact hgood => ?_, fun hact hbad => ?_, fun hact => hout i fun e he h => ?_⟩⟩
  · have := (hlane i hi hact).1
    rw [hidx] at this
    rw [this]
    simp [laneOut, hgood]
  · have := (hlane i hi hact).2 (by simp [laneOut, hbad])
    rwa [hidx] at this
  · rw [hr] at he
    obtain ⟨j, hj, rfl⟩ := List.mem_map.mp he
    rw [hidx] at h
    exact hact (h ▸ mem_active.mp hj)

end Sys2Proof.Machine
end

section
/-! PROOF. Element-wise float instructions (R150 to R153, R161). -/

namespace Sys2Proof.Machine

section
variable {s : State} {d : DieIx} {c : CoreIx} {vd vs1 vs2 : Fin 32} {w : Fin 4} {pg : Fin 8} {scal : Bool} {f : Fmt} {i : Instr}

/-- An element-wise float instruction writes its operation's results. -/
theorem exec_vfArith {legal : Bool} {ops : Core → Nat → List VEl} {op : Fmt → Rnd → List Nat → Gen → FpOut}
    (he : exec i s = onDie d s (fun t => t.vinsn d c i legal (fun u => u.vfArith d c vd w pg ops op))) (hi : CanIssue s d c) (hs : Spelt s d c i)
    (hlegal : legal = true) (hf : floatOf w = some f) (hop : ∀ l g j, (op f (s.core d c).vround l g).bits = (op f (s.core d c).vround l j).bits) :
    ∃ t, exec i s = .next t ∧ VectorFrame s t d c vd
      ∧ LaneResults s t d c vd w pg (ops (s.core d c)) (fun l => (op f (s.core d c).vround l (s.core d c).gen).bits) := by
  refine ⟨_, exec_vinsn he hi hs hlegal, ?_⟩
  rw [State.vfArith]
  simp only [hf]
  exact s.vloop_spec d c vd w pg (ops (s.core d c)) false hop

/-- An instruction of the operands vs1 and vs2. -/
theorem exec_vfArith2 {op : Fmt → Rnd → List Nat → Gen → FpOut}
    (he : exec i s = onDie d s (fun t => t.vinsn d c i true (fun u => u.vfArith d c vd w pg (opsF2 vs1 vs2 w scal) op))) (hi : CanIssue s d c)
    (hs : Spelt s d c i) (hf : floatOf w = some f) (hop : ∀ l g j, (op f (s.core d c).vround l g).bits = (op f (s.core d c).vround l j).bits)
    (third : Prop) :
    ∃ t, exec i s = .next t ∧ VectorFrame s t d c vd ∧ ∀ n, n < lanes w →
      let a := (s.core d c).el vs1 w n
      let b := (s.core d c).srcF vs2 scal w n
      let e := (s.core d c).el vd w n
      let x := velem (t.core d c).vec.v[vd] w n
      (IsActive s d c w pg n → a.bad = false → b.bad = false → (third → e.bad = false) →
          x = (op f (s.core d c).vround [a.bits, b.bits] (s.core d c).gen).bits % 2 ^ elemBits w)
        ∧ (IsActive s d c w pg n → a.bad = true ∨ b.bad = true → (t.core d c).vec.poison[vd].getLsbD (segOf w n) = true)
        ∧ (¬ IsActive s d c w pg n → x = velem (s.core d c).vec.v[vd] w n) := by
  obtain ⟨t, ht, hframe, hlanes⟩ := exec_vfArith he hi hs rfl hf hop
  refine ⟨t, ht, hframe, fun n hn => ?_⟩
  obtain ⟨hgood, hbad, hidle⟩ := hlanes n hn
  exact ⟨fun hact ha hb _ => hgood hact (by simp [opsF2, ha, hb]), fun hact hab => hbad hact (by simpa [opsF2] using hab), hidle⟩

/-- A fused instruction, of the operands vs1, vs2 and vd. -/
theorem exec_vfArith3 {op : Fmt → Rnd → List Nat → Gen → FpOut}
    (he : exec i s = onDie d s (fun t => t.vinsn d c i true (fun u => u.vfArith d c vd w pg (opsF3 vd vs1 vs2 w scal) op))) (hi : CanIssue s d c)
    (hs : Spelt s d c i) (hf : floatOf w = some f) (hop : ∀ l g j, (op f (s.core d c).vround l g).bits = (op f (s.core d c).vround l j).bits)
    {third : Prop} (hthird : third) :
    ∃ t, exec i s = .next t ∧ VectorFrame s t d c vd ∧ ∀ n, n < lanes w →
      let a := (s.core d c).el vs1 w n
      let b := (s.core d c).srcF vs2 scal w n
      let e := (s.core d c).el vd w n
      let x := velem (t.core d c).vec.v[vd] w n
      (IsActive s d c w pg n → a.bad = false → b.bad = false → (third → e.bad = false) →
          x = (op f (s.core d c).vround [a.bits, b.bits, e.bits] (s.core d c).gen).bits % 2 ^ elemBits w)
        ∧ (IsActive s d c w pg n → a.bad = true ∨ b.bad = true → (t.core d c).vec.poison[vd].getLsbD (segOf w n) = true)
        ∧ (¬ IsActive s d c w pg n → x = velem (s.core d c).vec.v[vd] w n) := by
  obtain ⟨t, ht, hframe, hlanes⟩ := exec_vfArith he hi hs rfl hf hop
  refine ⟨t, ht, hframe, fun n hn => ?_⟩
  obtain ⟨hgood, hbad, hidle⟩ := hlanes n hn
  exact ⟨fun hact ha hb he => hgood hact (by simp [opsF3, ha, hb, he hthird]), fun hact hab => hbad hact (by
    rcases hab with h | h <;> simp [opsF3, h]), hidle⟩

/-- What the lanes of a unary function hold. -/
theorem LaneResults.unary {t : State} {val : List Nat → Nat} (h : LaneResults s t d c vd w pg (ops1 vs1 w (s.core d c)) val) : ∀ n, n < lanes w →
    let a := (s.core d c).el vs1 w n
    let x := velem (t.core d c).vec.v[vd] w n
    (IsActive s d c w pg n → a.bad = false → x = val [a.bits] % 2 ^ elemBits w)
      ∧ (IsActive s d c w pg n → a.bad = true → (t.core d c).vec.poison[vd].getLsbD (segOf w n) = true)
      ∧ (¬ IsActive s d c w pg n → x = velem (s.core d c).vec.v[vd] w n) := by
  intro n hn
  obtain ⟨hgood, hbad, hidle⟩ := h n hn
  exact ⟨fun hact ha => hgood hact (by simp [ops1, ha]), fun hact ha => hbad hact (by simp [ops1, ha]), hidle⟩

/-- A unary function. -/
theorem exec_vfArith1 {op : Fmt → Rnd → List Nat → Gen → FpOut}
    (he : exec i s = onDie d s (fun t => t.vinsn d c i true (fun u => u.vfArith d c vd w pg (ops1 vs1 w) op))) (hi : CanIssue s d c)
    (hs : Spelt s d c i) (hf : floatOf w = some f) (hop : ∀ l g j, (op f (s.core d c).vround l g).bits = (op f (s.core d c).vround l j).bits) :
    ∃ t, exec i s = .next t ∧ VectorFrame s t d c vd ∧ ∀ n, n < lanes w →
      let a := (s.core d c).el vs1 w n
      let x := velem (t.core d c).vec.v[vd] w n
      (IsActive s d c w pg n → a.bad = false → x = (op f (s.core d c).vround [a.bits] (s.core d c).gen).bits % 2 ^ elemBits w)
        ∧ (IsActive s d c w pg n → a.bad = true → (t.core d c).vec.poison[vd].getLsbD (segOf w n) = true)
        ∧ (¬ IsActive s d c w pg n → x = velem (s.core d c).vec.v[vd] w n) := by
  obtain ⟨t, ht, hframe, hlanes⟩ := exec_vfArith he hi hs rfl hf hop
  exact ⟨t, ht, hframe, hlanes.unary⟩

/-- VF2I (R153), whose saturation is counted apart. -/
theorem exec_vf2i_lanes (hi : CanIssue s d c) (hs : Spelt s d c (.vf2i d c vd vs1 0 w pg false)) (hf : floatOf w = some f)
    (hmode : (s.core d c).vround ≠ .sr) :
    ∃ t, exec (.vf2i d c vd vs1 0 w pg false) s = .next t ∧ VectorFrame s t d c vd
      ∧ LaneResults s t d c vd w pg (ops1 vs1 w (s.core d c))
          (fun l => (elemToInt f (elemBits w) (s.core d c).vround (arg l 0) (s.core d c).gen).bits) := by
  refine ⟨_, exec_vinsn (legal := unary 0 false) rfl hi hs rfl, ?_⟩
  simp only [hf]
  exact s.vloop_spec d c vd w pg (ops1 vs1 w (s.core d c)) true
    (op := fun l g => elemToInt f (elemBits w) (s.core d c).vround (arg l 0) g) (fun _ _ _ => elemToInt_bits_gen f _ hmode ..)

end

end Sys2Proof.Machine
end

section
open Sys2Proof Sys2Proof.Machine
open Host (Outcome)

/-- Settles O13: an element takes no draw outside SR, so each is the operation of its own operands. -/
theorem vectorFloatElements : Obligations.VectorFloatElements := by
  unfold Obligations.VectorFloatElements
  intro s d c vd vs1 vs2 w pg scal hi k two one
  refine ⟨fun f hf hmode => ⟨fun p hp hs => ?_, fun p hp hs => ?_⟩, fun p hp hs => ?_, fun p hp hs => ?_⟩
  · simp only [two, List.mem_cons, List.not_mem_nil, or_false] at hp
    rcases hp with rfl | rfl | rfl | rfl | rfl | rfl | rfl | rfl | rfl | rfl
    · exact exec_vfArith2 rfl hi hs hf (fun _ _ _ => elemBin_bits_gen .add f hmode ..) _
    · exact exec_vfArith2 rfl hi hs hf (fun _ _ _ => elemBin_bits_gen .sub f hmode ..) _
    · exact exec_vfArith2 rfl hi hs hf (fun _ _ _ => elemBin_bits_gen .mul f hmode ..) _
    · exact exec_vfArith2 rfl hi hs hf (fun _ _ _ => elemBin_bits_gen .div f hmode ..) _
    · exact exec_vfArith2 rfl hi hs hf (fun _ _ _ => elemMinMax_bits_gen false f ..) _
    · exact exec_vfArith2 rfl hi hs hf (fun _ _ _ => elemMinMax_bits_gen true f ..) _
    · exact exec_vfArith3 rfl hi hs hf (fun _ _ _ => elemFma_bits_gen .fma f hmode ..) List.mem_cons_self
    · exact exec_vfArith3 rfl hi hs hf (fun _ _ _ => elemFma_bits_gen .fms f hmode ..) (List.mem_cons_of_mem _ List.mem_cons_self)
    · exact exec_vfArith3 rfl hi hs hf (fun _ _ _ => elemFma_bits_gen .fnma f hmode ..) (List.mem_cons_of_mem _ (List.mem_cons_of_mem _ List.mem_cons_self))
    · exact exec_vfArith2 rfl hi hs hf (fun _ _ _ => elemSign_bits_gen f ..) _
  · simp only [one, List.mem_cons, List.not_mem_nil, or_false] at hp
    rcases hp with rfl | rfl | rfl | rfl | rfl
    · exact exec_vfArith1 rfl hi hs hf (fun _ _ _ => elemSqrt_bits_gen f hmode ..)
    · exact exec_vfArith1 rfl hi hs hf (fun _ _ _ => elemSign_bits_gen f ..)
    · exact exec_vfArith1 rfl hi hs hf (fun _ _ _ => elemSign_bits_gen f ..)
    · obtain ⟨t, ht, hframe, hlanes⟩ := exec_vf2i_lanes hi hs hf hmode
      exact ⟨t, ht, hframe, hlanes.unary⟩
    · exact exec_vfArith1 rfl hi hs hf (fun _ _ _ => elemFromInt_bits_gen f _ hmode ..)
  · simp only [two, List.mem_cons, List.not_mem_nil, or_false] at hp
    rcases hp with rfl | rfl | rfl | rfl | rfl | rfl | rfl | rfl | rfl | rfl
    all_goals exact exec_vinsn rfl hi hs rfl
  · simp only [one, List.mem_cons, List.not_mem_nil, or_false] at hp
    rcases hp with rfl | rfl | rfl | rfl | rfl
    all_goals exact exec_vinsn rfl hi hs rfl
end

section
/-! PROOF. Scalar floating point (R67, R75, R143, R162). -/

namespace Sys2Proof.Machine

@[simp] theorem Core.getG_setG_same (k : Core) (r : Fin 32) (v : DWord) : (k.setG r v).getG r = if r = 0 then 0 else v := by
  by_cases h : r = 0 <;> simp [Core.getG, Core.setG, h]

theorem Core.getG_setG_ne (k : Core) {r q : Fin 32} (v : DWord) (h : q ≠ r) : (k.setG r v).getG q = k.getG q := by
  have h' : r.val ≠ q.val := fun hv => h (Fin.ext hv.symm)
  unfold Core.setG
  split
  · rfl
  · simp [Core.getG, h']

@[simp] theorem Core.vec_setG (k : Core) (r : Fin 32) (v : DWord) : (k.setG r v).vec = k.vec := by
  unfold Core.setG
  split <;> rfl

/-- A write of a g register changes the g registers alone, where none is poisoned. -/
theorem Core.proc_setG {k : Core} (hbad : k.proc.bad = 0) (r : Fin 32) (v : DWord) : { (k.setG r v).proc with g := k.proc.g } = k.proc := by
  have hclear : setBit (0 : BitVec 32) r.val false = 0 := by
    refine BitVec.eq_of_getLsbD_eq fun i hi => ?_
    simp [setBit, getLsbD_setFld]
  unfold Core.setG
  split
  · rfl
  · rw [hbad, hclear, ← hbad]

/-- A scalar floating-point result in its register (R143). -/
theorem Core.setF_spec (k : Core) (r : Fin 32) (v : DWord) :
    (k.setF r v).proc = k.proc ∧ (k.setF r v).getF r = v ∧ ((k.setF r v).vec.v[r]).toNat < 2 ^ 64 ∧ (k.setF r v).vec.poison[r] = 0
      ∧ (∀ j : Fin 32, j ≠ r → (k.setF r v).vec.v[j] = k.vec.v[j] ∧ (k.setF r v).vec.poison[j] = k.vec.poison[j])
      ∧ (k.setF r v).vec.p = k.vec.p ∧ (k.setF r v).vec.span = k.vec.span ∧ (k.setF r v).vec.vstat = k.vec.vstat := by
  refine ⟨rfl, ?_, ?_, ?_, fun j hj => ?_, rfl, rfl, rfl⟩
  · simp [Core.setF, Core.getF]
  · have : (k.setF r v).vec.v[r] = v.setWidth 4096 := by simp [Core.setF]
    rw [this, BitVec.toNat_setWidth]
    exact lt_of_le_of_lt (Nat.mod_le ..) v.isLt
  · simp [Core.setF]
  · have h' : r.val ≠ j.val := fun hv => hj (Fin.ext hv.symm)
    simp [Core.setF, h']

/-- The bits of a result in an f register: all of an FP64 one, the low 32 of an FP32 one. -/
theorem scalarBits (wide : Bool) (b : Nat) (x : DWord) :
    (if wide then BitVec.ofNat 64 b else setFld x 0 32 b).toNat % 2 ^ (if wide then 64 else 32) = b % 2 ^ (if wide then 64 else 32) := by
  cases wide
  · have := fld_setFld_same x (lo := 0) (len := 32) b (by decide)
    simpa [fld] using this
  · simp

/-- A core after the flags of a scalar operation (R75). -/
def Core.collect (k : Core) (flags : BitVec 8) : Core := { k with proc := { k.proc with fpctl := k.proc.fpctl ||| flags.setWidth 64 } }

/-- A core after a scalar operation's result and flags; bits [63:32] beside an FP32 result are free. -/
def Core.fpResult (k : Core) (rd : Fin 32) (free : DWord) (r : FpDest × BitVec 8) : Core :=
  match r.1 with
  | .g v => (k.collect r.2).setG rd v
  | .f b wide => (k.collect r.2).setF rd (if wide then BitVec.ofNat 64 b else setFld free 0 32 b)

theorem State.modCore_drawFree (s : State) (d : DieIx) (c : CoreIx) (f : Core → Core) :
    s.drawFree.modCore d c f = (s.modCore d c f).drawFree := rfl

theorem State.core_drawFree (s : State) (d : DieIx) (c : CoreIx) : s.drawFree.core d c = s.core d c := rfl

section
variable {s : State} {d : DieIx} {c : CoreIx} {op : FpOp} {dbl : Bool} {rd rs1 rs2 rs3 : Fin 32}
variable (hf : CanFetch s d c) (hs : Spelt s d c (.scalarFp d c op dbl rd rs1 rs2 rs3))
include hf hs

/-- A poisoned operand faults (R162). -/
theorem exec_scalarFp_poisoned (h : ∃ r ∈ fpReads op rs1 rs2 rs3, (s.core d c).vec.poison[r].getLsbD 0 = true) :
    exec (.scalarFp d c op dbl rd rs1 rs2 rs3) s = .next (s.takeTrap d c (trapVector 3 0 0)) := by
  have hany : (fpReads op rs1 rs2 rs3).any (fun r => bitAt (s.core d c).vec.poison[r] 0) = true := List.any_eq_true.mpr h
  rw [exec_insn rfl hf hs]
  simp only [hany]
  rfl

/-- Operands without poison give a result in one register. -/
theorem exec_scalarFp_clean {r : FpDest × BitVec 8} (h : ∀ r ∈ fpReads op rs1 rs2 rs3, (s.core d c).vec.poison[r].getLsbD 0 = false)
    (hr : fpEval op dbl ((roundCode (fld (s.core d c).proc.fpctl 0 3)).getD .rne) ((s.core d c).getF rs1) ((s.core d c).getF rs2)
      ((s.core d c).getF rs3) ((s.core d c).getG rs1) = r) :
    ∃ t, exec (.scalarFp d c op dbl rd rs1 rs2 rs3) s = .next t ∧ t.mem = s.mem ∧ (∀ j : CoreIx, j ≠ c → t.core d j = s.core d j)
      ∧ t.core d c = ((s.core d c).fpResult rd s.free r).setPc ((s.core d c).proc.pc + 4) := by
  have hany : (fpReads op rs1 rs2 rs3).any (fun r => bitAt (s.core d c).vec.poison[r] 0) = false := by
    simpa [bitAt] using h
  have hcore : ∀ g : Core → Core, (((s.modCore d c (fun x => x.collect r.2)).modCore d c g).modCore d c
      (fun x => x.setPc ((s.core d c).proc.pc + 4))).core d c = (g ((s.core d c).collect r.2)).setPc ((s.core d c).proc.pc + 4) := fun g => by
    simp only [State.core_modCore]
  have hcores : ∀ (g h : Core → Core) (j : CoreIx), j ≠ c →
      (((s.modCore d c (fun x => x.collect r.2)).modCore d c g).modCore d c h).core d j = s.core d j := fun g h j hj => by
    simp only [State.core_modCore_ne _ _ _ hj]
  rw [exec_insn rfl hf hs]
  simp only [hany, hr, Bool.false_eq_true, if_false]
  rcases r with ⟨v | ⟨b, wide⟩, flags⟩
  · exact ⟨_, rfl, rfl, hcores _ _, hcore _⟩
  · refine ⟨_, rfl, rfl, ?_⟩
    simp only [State.conclude, State.modCore_drawFree, State.core_drawFree]
    exact ⟨hcores _ _, hcore _⟩
end

end Sys2Proof.Machine
end

section
open Sys2Proof Sys2Proof.Machine
open Host (Outcome)

/-- Settles O8. -/
theorem scalarFloatingPoint : Obligations.ScalarFloatingPoint := by
  unfold Obligations.ScalarFloatingPoint
  intro s d c op dbl rd rs1 rs2 rs3 hf hs k out proc
  have hbad : k.proc.bad = 0 := hf.2.2.2.2.2.1
  refine ⟨fun hclean => ?_, exec_scalarFp_poisoned hf hs⟩
  obtain ⟨t, ht, hmem, hcores, hcore⟩ := exec_scalarFp_clean hf hs hclean rfl
  refine ⟨t, ht, hmem, hcores, ?_⟩
  rw [hcore]
  rcases hout : out.1 with v | ⟨b, wide⟩
  · rw [Core.fpResult, hout]
    refine ⟨Core.vec_setG .., Core.getG_setG_same .., fun j hj => Core.getG_setG_ne _ _ hj, ?_⟩
    have hproc := Core.proc_setG (k := k.collect out.2) hbad rd v
    exact congrArg (fun p : Proc => { p with pc := k.proc.pc + 4, stall := .no }) hproc
  · rw [Core.fpResult, hout]
    obtain ⟨hproc, hget, hspec⟩ := (k.collect out.2).setF_spec rd (if wide then BitVec.ofNat 64 b else setFld s.free 0 32 b)
    refine ⟨congrArg (fun p : Proc => { p with pc := k.proc.pc + 4, stall := .no }) hproc, ?_, hspec⟩
    exact (congrArg (fun v : DWord => v.toNat % _) hget).trans (scalarBits wide b s.free)
end

section
/-! PROOF. Slices (R72, R160, R163). -/

namespace Sys2Proof.Machine

/-! ### Clean elements -/

theorem anyAt_clean (n i m : Nat) : anyAt (List.replicate n false) i m = false := by
  simp [anyAt, slice]

theorem decodeElem_clean (f : Fmt) (bs : List Byte) (n i : Nat) : (decodeElem f bs (List.replicate n false) i).poison = false := by
  unfold decodeElem
  split <;> simp [anyAt_clean]

theorem any_poison_decodeRow (f : Fmt) (n m : Nat) (bs : List Byte) :
    (decodeRow f n bs (List.replicate m false)).any (fun e => e.poison) = false := by
  simp [decodeRow, decodeElem_clean]

theorem filter_poison_decodeRow (f : Fmt) (n m : Nat) (bs : List Byte) :
    (decodeRow f n bs (List.replicate m false)).filter (fun e => !e.poison) = decodeRow f n bs (List.replicate m false) := by
  simp [decodeRow, decodeElem_clean]

/-! ### The record (R72) -/

theorem length_sliceRecord {f : Fmt} {l : List Fpv} (hl : l.length = 128) : (sliceRecord f l).length = if f = .fp64 then 960 else 448 := by
  unfold sliceRecord
  dsimp only
  split
  · simp only [List.length_append, length_leBytes]
    split <;> rfl
  · simp only [List.length_append, length_leBytes, List.length_flatMap, List.length_map, hl, List.map_const', List.sum_replicate, List.length_range]
    split <;> rfl

/-! ### The instruction -/

/-- A fenced vector engine faults (R163). -/
theorem exec_vinsn_fenced {s : State} {d : DieIx} {c : CoreIx} {i : Instr} {legal : Bool} {body : State → Eff}
    (he : exec i s = onDie d s (fun t => t.vinsn d c i legal body)) (hf : CanFetch s d c) (hs : Spelt s d c i) (hlegal : legal = true)
    (hfenced : s.vecFenced d c = true) : exec i s = .next (s.takeTrap d c (trapVector 4 0 0)) := by
  rw [exec_insn he hf hs]
  simp [hlegal, hfenced, State.conclude]

/-- The fields of the immediate: register, precision, and bits that must be 0 (R160). -/
theorem sliceFields (rs2 : Fin 32) (single : Bool) :
    let imm := BitVec.ofNat 11 (rs2.val + if single then 32 else 0)
    fld imm 6 5 = 0 ∧ (if bitAt imm 5 then Fmt.fp32 else .fp64) = (if single then .fp32 else .fp64)
      ∧ (⟨fld imm 0 5, Nat.mod_lt _ (by decide)⟩ : Fin 32) = rs2 := by
  revert rs2 single
  decide

/-- The presence flags of VSLICE of unpoisoned values: NaN, +∞ and −∞ (R160). -/
def slicePresence (vals : List Fpv) : Nat :=
  let bit := fun (x : Bool) (n : Nat) => if x then n else 0
  bit (vals.any Fpv.isNan) 1 + bit (vals.any (fun x => x.isInf && !x.sign)) 2 + bit (vals.any (fun x => x.isInf && x.sign)) 4

section
variable {s : State} {d : DieIx} {c : CoreIx} {rd rs1 rs2 : Fin 32} {imm : BitVec 11} {f : Fmt}
variable (hi : CanIssue s d c) (hs : Spelt s d c (.vslice d c rd rs1 imm)) (hzero : fld imm 6 5 = 0)
variable (hfmt : (if bitAt imm 5 then Fmt.fp32 else .fp64) = f) (hreg : (⟨fld imm 0 5, Nat.mod_lt _ (by decide)⟩ : Fin 32) = rs2)
include hi hs hzero hfmt

theorem exec_vslice_unmapped_source (ha : localMapped ((s.core d c).getG rs1).toNat (128 * f.elemBytes) = false) :
    exec (.vslice d c rd rs1 imm) s = .next (s.takeTrap d c (trapVector 2 0 ((s.core d c).getG rs1).toNat)) := by
  rw [exec_vinsn rfl hi hs (decide_eq_true hzero)]
  simp [hfmt, ha, State.conclude]

include hreg

theorem exec_vslice_unmapped_record (ha : localMapped ((s.core d c).getG rs1).toNat (128 * f.elemBytes) = true)
    (hb : localMapped ((s.core d c).getG rs2).toNat (if f = .fp64 then 960 else 448) = false) :
    exec (.vslice d c rd rs1 imm) s = .next (s.takeTrap d c (trapVector 2 0 ((s.core d c).getG rs2).toNat)) := by
  rw [exec_vinsn rfl hi hs (decide_eq_true hzero)]
  simp [hfmt, hreg, ha, hb, State.conclude]

/-- A mapped, unmarked chunk is sliced. -/
theorem exec_vslice_mapped (ha : localMapped ((s.core d c).getG rs1).toNat (128 * f.elemBytes) = true)
    (hb : localMapped ((s.core d c).getG rs2).toNat (if f = .fp64 then 960 else 448) = true) (hheld : s.bankHeld d c = false)
    (hmarks : s.marksIn 1 (memKey d 1 (spBase c + ((s.core d c).getG rs1).toNat)) (128 * f.elemBytes) = []) :
    let n := 128 * f.elemBytes
    let vals := (decodeRow f 128 (s.peek (memKey d 1 (spBase c + ((s.core d c).getG rs1).toNat)) n) (List.replicate n false)).map (fun e => e.val)
    ∃ t, exec (.vslice d c rd rs1 imm) s = .next t
      ∧ t.mem.cells = pokeCells s.mem.cells (memKey d 1 (spBase c + ((s.core d c).getG rs2).toNat)) (sliceRecord f vals)
      ∧ t.core d c = ((s.core d c).setG rd (BitVec.ofNat 64 (slicePresence vals))).setPc ((s.core d c).proc.pc + 4) := by
  intro n vals
  have hread : s.memRead (s.kernelAccess d c) d 1 (localOff c ((s.core d c).getG rs1).toNat) n =
      ⟨s.peek (memKey d 1 (spBase c + ((s.core d c).getG rs1).toNat)) n, List.replicate n false, s⟩ := State.memRead_unmarked rfl hmarks
  rw [exec_vinsn rfl hi hs (decide_eq_true hzero)]
  simp only [hfmt, hreg, ha, hb, State.vheld, hheld, Bool.and_false, Bool.or_false, Bool.not_true, Bool.false_eq_true, if_false]
  rw [hread]
  simp only [any_poison_decodeRow, filter_poison_decodeRow, Bool.false_eq_true, if_false, Nat.add_zero, List.any_map, Function.comp_def]
  refine ⟨_, rfl, State.memWrite_cells .., ?_⟩
  rw [State.conclude, State.core_modCore, State.vxPoison, if_neg Bool.false_ne_true, State.core_modCore, (State.memWrite_spares ..).core]
  simp only [vals, slicePresence, List.any_map, Function.comp_def]

end

end Sys2Proof.Machine
end

section
open Sys2Proof Sys2Proof.Machine
open Host (Outcome)

/-- Settles O19. -/
theorem sliceAndIllegalVectors : Obligations.SliceAndIllegalVectors := by
  unfold Obligations.SliceAndIllegalVectors
  intro s d c rd rs1 rs2 single hf hs k f size out imm a b key vals bit
  obtain ⟨hzero, hfmt, hreg⟩ := sliceFields rs2 single
  have hsize : 128 * f.elemBytes = size := by cases single <;> rfl
  have hout : (if f = .fp64 then 960 else 448) = out := by cases single <;> rfl
  refine ⟨fun hfen => ?_, fun hfen hres ha => ?_, fun hfen hres ha hb => ?_, fun hfen hres ha hb hheld hmarks => ?_⟩
  · exact exec_vinsn_fenced rfl hf hs (decide_eq_true hzero) hfen
  · exact exec_vslice_unmapped_source ⟨hf, hfen, hres⟩ hs hzero hfmt (hsize ▸ ha)
  · exact exec_vslice_unmapped_record ⟨hf, hfen, hres⟩ hs hzero hfmt hreg (hsize ▸ ha) (hout ▸ hb)
  · obtain ⟨t, ht, hcells, hcore⟩ := exec_vslice_mapped ⟨hf, hfen, hres⟩ hs hzero hfmt hreg (hsize ▸ ha) (hout ▸ hb) hheld (hsize ▸ hmarks)
    have hlen : (sliceRecord f vals).length = out := by
      rw [length_sliceRecord (by simp [vals, decodeRow]), hout]
    rw [hsize] at hcells hcore
    refine ⟨hlen, t, ht, fun i hi => ?_, fun i hi => ?_, hcore⟩
    · rw [hcells]
      exact get_pokeCells_at _ _ _ (hlen ▸ hi)
    · rw [hcells]
      exact get_pokeCells_off _ _ _ (hlen ▸ hi)
end

section
/-! PROOF. Control bits and register writes (R64, R80, R102, R218, R393, R513, R515, R532, R533). -/

namespace Sys2Proof.Machine

/-! ### Time-stamp capture (R532, R533) -/

/-- What STK_CAP_CTL and a slot's register show of capture slot n, beside the clock. -/
structure CapView where
  slot : Fin 4
  source : Nat
  armed : Bool
  captured : Bool
  stamp : DWord
  now : DWord

def State.capView (s : State) (d : DieIx) (n : Fin 4) : CapView :=
  ⟨n, fld (s.reg d rStkCapCtl) (4 * n) 3, bitAt (s.reg d rStkCapCtl) (16 + n), bitAt (s.reg d rStkCapCtl) (24 + n), s.reg64 d (rStkCap n), s.stamp d⟩

/-- A slot after a write v of STK_CAP_CTL whose sources are those of `src`. -/
def CapView.written (v src : Word) (x : CapView) : CapView :=
  let now := bitAt v (16 + x.slot) && decide (fld src (4 * x.slot) 3 = 0)
  { x with
    armed := bitAt v (16 + x.slot) && !now
    captured := if bitAt v (16 + x.slot) then now else x.captured
    stamp := if now then x.now else x.stamp }

theorem rStkCap_ne (n : Fin 4) : rStkCap n ≠ rStkCapCtl ∧ rStkCap n + 4 ≠ rStkCapCtl := by revert n; decide

theorem rStkCap_apart {m n : Fin 4} (h : m ≠ n) : rStkCap m ≠ rStkCap n ∧ rStkCap m ≠ rStkCap n + 4 := by
  have := Fin.val_ne_of_ne h
  simp only [rStkCap]
  omega

theorem State.reg64_setReg_ne (s : State) (d : DieIx) {off o : Nat} (v : Word) (h : o ≠ off) (h4 : o + 4 ≠ off) :
    (s.setReg d off v).reg64 d o = s.reg64 d o := by
  rw [State.reg64, State.reg_setReg_ne _ _ _ _ (fun e => h4 e.2), State.reg_setReg_ne _ _ _ _ (fun e => h e.2), State.reg64]

theorem State.stamp_setReg (s : State) (d : DieIx) (off : Nat) (v : Word) : (s.setReg d off v).stamp d = s.stamp d := by
  simp [State.stamp, State.setReg]

theorem State.stamp_setReg64 (s : State) (d : DieIx) (off : Nat) (v : DWord) : (s.setReg64 d off v).stamp d = s.stamp d := by
  rw [State.setReg64, State.stamp_setReg, State.stamp_setReg]

theorem State.reg64_setCapCtl (s : State) (d : DieIx) (w : Word) (n : Fin 4) : (s.setReg d rStkCapCtl w).reg64 d (rStkCap n) = s.reg64 d (rStkCap n) :=
  s.reg64_setReg_ne d w (rStkCap_ne n).1 (rStkCap_ne n).2

/-- A write of the control word. -/
theorem State.capView_setReg (s : State) (d : DieIx) (w : Word) (n : Fin 4) : (s.setReg d rStkCapCtl w).capView d n =
    ⟨n, fld w (4 * n) 3, bitAt w (16 + n), bitAt w (24 + n), s.reg64 d (rStkCap n), s.stamp d⟩ := by
  rw [State.capView, State.reg_setReg, State.reg64_setCapCtl, State.stamp_setReg]

/-- A slot's time stamp is set. -/
theorem State.capView_setReg64 (s : State) (d : DieIx) (m n : Fin 4) (v : DWord) : (s.setReg64 d (rStkCap m) v).capView d n =
    { s.capView d n with stamp := if n = m then v else (s.capView d n).stamp } := by
  rw [State.capView, State.reg_setReg64_ne _ _ _ (rStkCap_ne m).1.symm (rStkCap_ne m).2.symm, State.stamp_setReg64]
  by_cases h : n = m
  · subst h
    rw [State.reg64_setReg64, if_pos rfl, State.capView]
  · obtain ⟨h1, h2⟩ := rStkCap_apart h
    have h3 := (rStkCap_apart (Ne.symm h)).2
    rw [if_neg h, State.reg64, State.reg_setReg64_ne _ _ _ (by omega) (by omega), State.reg_setReg64_ne _ _ _ h1 h2]
    rfl

/-- One slot of a write of STK_CAP_CTL. -/
def State.capSlot (d : DieIx) (v src : Word) (t : State) (n : Fin 4) : State :=
  if bitAt v (16 + n) then
    let t1 := t.modReg d rStkCapCtl (fun w => setBit (setBit w (16 + n) true) (24 + n) false)
    if fld src (4 * n) 3 = 0 then
      (t1.modReg d rStkCapCtl (fun w => setBit (setBit w (16 + n) false) (24 + n) true)).setReg64 d (rStkCap n) (t.stamp d)
    else t1
  else t.modReg d rStkCapCtl (fun w => setBit w (16 + n) false)

theorem State.capCtlWrite_eq (s : State) (d : DieIx) (v : Word) :
    let src := keepReserved rStkCapCtl (s.reg d rStkCapCtl) (mixBits 0x00007777 (s.reg d rStkCapCtl) v)
    s.capCtlWrite d v = (List.finRange 4).foldl (State.capSlot d v src) (s.setReg d rStkCapCtl src) := rfl

theorem fld_setBit_apart {w : Nat} (x : BitVec w) {i lo len : Nat} (b : Bool) (h : lo + len ≤ i ∨ i < lo) : fld (setBit x i b) lo len = fld x lo len :=
  fld_setFld_apart x _ (by omega)

theorem State.capView_capSlot (d : DieIx) (v src : Word) (t : State) (n : Fin 4) :
    (State.capSlot d v src t n).capView d n = (t.capView d n).written v src := by
  rw [show t.capView d n = ⟨n, _, _, _, _, _⟩ from rfl]
  unfold State.capSlot CapView.written
  have := n.isLt
  by_cases harm : bitAt v (16 + n) = true
  · by_cases hsrc : fld src (4 * n) 3 = 0
    · simp (disch := omega) [harm, hsrc, State.modReg, State.capView_setReg, State.capView_setReg64, bitAt_setBit, bitAt_setBit_ne, fld_setBit_apart,
        State.stamp_setReg]
    · simp (disch := omega) [harm, hsrc, State.modReg, State.capView_setReg, bitAt_setBit, bitAt_setBit_ne, fld_setBit_apart]
  · simp (disch := omega) [harm, State.modReg, State.capView_setReg, bitAt_setBit, bitAt_setBit_ne, fld_setBit_apart]

theorem State.capView_capSlot_ne (d : DieIx) (v src : Word) (t : State) {m n : Fin 4} (h : m ≠ n) :
    (State.capSlot d v src t m).capView d n = t.capView d n := by
  have hm := m.isLt
  have hn := n.isLt
  have hne := Fin.val_ne_of_ne h
  rw [show t.capView d n = ⟨n, _, _, _, _, _⟩ from rfl]
  unfold State.capSlot
  by_cases harm : bitAt v (16 + m) = true
  · by_cases hsrc : fld src (4 * m) 3 = 0
    · simp (disch := omega) [harm, hsrc, State.modReg, State.capView_setReg, State.capView_setReg64, bitAt_setBit_ne, fld_setBit_apart, h.symm,
        State.reg64_setCapCtl, State.stamp_setReg]
    · simp (disch := omega) [harm, hsrc, State.modReg, State.capView_setReg, bitAt_setBit_ne, fld_setBit_apart]
  · simp (disch := omega) [harm, State.modReg, State.capView_setReg, bitAt_setBit_ne, fld_setBit_apart]

theorem State.capSlot_regsOnly (d : DieIx) (v src : Word) (t : State) (n : Fin 4) : RegsOnly d t (State.capSlot d v src t n) := by
  unfold State.capSlot
  split
  · split
    · exact ((State.setReg_regsOnly ..).trans (State.setReg_regsOnly ..)).trans (State.setReg64_regsOnly ..)
    · exact State.setReg_regsOnly ..
  · exact State.setReg_regsOnly ..

/-- A source code that is kept where the written one is the reserved 7 (R7). -/
def keepCode (old w : Word) (n : Fin 4) : Word := if fld w (4 * n) 3 = 7 then setFld w (4 * n) 3 (fld old (4 * n) 3) else w

theorem keepReserved_eq_keepCode (old w : Word) : keepReserved rStkCapCtl old w = (List.finRange 4).foldl (keepCode old) w := rfl

theorem fld_keepCode (old w : Word) (n : Fin 4) :
    fld (keepCode old w n) (4 * n) 3 = if fld w (4 * n) 3 = 7 then fld old (4 * n) 3 else fld w (4 * n) 3 := by
  unfold keepCode
  split
  · rw [fld_setFld_same _ _ (by omega), Nat.mod_eq_of_lt (fld_lt ..)]
  · rfl

theorem fld_keepCode_ne (old w : Word) {m n : Fin 4} (h : m ≠ n) : fld (keepCode old w m) (4 * n) 3 = fld w (4 * n) 3 := by
  have := Fin.val_ne_of_ne h
  unfold keepCode
  split
  · rw [fld_setFld_apart _ _ (by omega)]
  · rfl

theorem bitAt_keepCode (old w : Word) (m : Fin 4) {i : Nat} (h : 16 ≤ i) : bitAt (keepCode old w m) i = bitAt w i := by
  unfold keepCode bitAt
  split
  · rw [getLsbD_setFld, if_neg (by omega)]
    by_cases hi : i < 32
    · simp [hi]
    · simp [hi, BitVec.getLsbD_of_ge w i (by omega)]
  · rfl

theorem getLsbD_mixBits {w : Nat} (mask old new : BitVec w) (i : Nat) :
    (mixBits mask old new).getLsbD i = if mask.getLsbD i then new.getLsbD i else old.getLsbD i := by
  unfold mixBits
  by_cases hi : i < w
  · rw [BitVec.getLsbD_or, BitVec.getLsbD_and, BitVec.getLsbD_and, BitVec.getLsbD_not]
    cases mask.getLsbD i <;> simp [hi]
  · simp [BitVec.getLsbD_of_ge _ i (by omega : w ≤ i)]

theorem fld_mixBits_capCtl (old v : Word) (n : Fin 4) : fld (mixBits 0x00007777 old v) (4 * n) 3 = fld v (4 * n) 3 := by
  have hmask : ∀ (n : Fin 4) (i : Fin 3), (0x00007777 : Word).getLsbD (4 * n + i) = true := by decide
  refine Nat.eq_of_testBit_eq fun i => ?_
  rw [testBit_fld, testBit_fld, getLsbD_mixBits]
  by_cases hi : i < 3
  · rw [if_pos (hmask n ⟨i, hi⟩)]
  · simp [hi]

/-- The sources of a written control word: each written code but the reserved 7 (R7); the captured bits are as they were. -/
theorem keepReserved_capCtl (old v : Word) (n : Fin 4) :
    let src := keepReserved rStkCapCtl old (mixBits 0x00007777 old v)
    fld src (4 * n) 3 = (if fld v (4 * n) 3 = 7 then fld old (4 * n) 3 else fld v (4 * n) 3) ∧ bitAt src (24 + n) = bitAt old (24 + n) := by
  intro src
  have hmask : ∀ n : Fin 4, (0x00007777 : Word).getLsbD (24 + n) = false := by decide
  refine ⟨?_, ?_⟩
  · have hview := foldl_view (f := keepCode old) (fun (n : Fin 4) w => (fld old (4 * n) 3, fld w (4 * n) 3)) (fun x => (x.1, if x.2 = 7 then x.1 else x.2))
      (fun w n => by rw [fld_keepCode]) (fun w n m h => by rw [fld_keepCode_ne _ _ h]) (List.nodup_finRange 4) (mixBits 0x00007777 old v) n (List.mem_finRange n)
    rw [fld_mixBits_capCtl] at hview
    exact congrArg Prod.snd hview
  · have hkeep := fold_inv (fun w => bitAt w (24 + n) = bitAt old (24 + n)) (keepCode old) (List.finRange 4) (mixBits 0x00007777 old v)
      (by rw [bitAt, getLsbD_mixBits, hmask n]; rfl) (fun w m hw => by rw [bitAt_keepCode _ _ _ (by omega), hw])
    exact hkeep

/-- A write of STK_CAP_CTL changes registers of its die alone, and each slot as its own bits say. -/
theorem State.capCtlWrite_spec (s : State) (d : DieIx) (v : Word) :
    let src := keepReserved rStkCapCtl (s.reg d rStkCapCtl) (mixBits 0x00007777 (s.reg d rStkCapCtl) v)
    RegsOnly d s (s.capCtlWrite d v) ∧ ∀ n, (s.capCtlWrite d v).capView d n = ((s.setReg d rStkCapCtl src).capView d n).written v src := by
  intro src
  rw [State.capCtlWrite_eq]
  refine ⟨?_, fun n => ?_⟩
  · exact (State.setReg_regsOnly ..).trans (fold_inv (RegsOnly d _) _ _ _ (.refl d _) (fun t n h => h.trans (State.capSlot_regsOnly d v _ t n)))
  · have hslot := fun t n => State.capView_capSlot d v src t n
    exact foldl_view (fun n t => State.capView t d n) (CapView.written v src) hslot
      (fun t n m h => State.capView_capSlot_ne d v src t h) (List.nodup_finRange 4) _ n (List.mem_finRange n)

/-! ### Plain writes (R7, R513, R515) -/

/-- Writing what a register holds changes no register. -/
theorem State.reg_setReg_self (s : State) (d : DieIx) (off o : Nat) : (s.setReg d off (s.reg d off)).reg d o = s.reg d o := by
  by_cases h : o = off
  · rw [h, State.reg_setReg]
  · rw [State.reg_setReg_ne _ _ _ _ (fun e => h e.2)]

theorem and_not_zero (x : Word) : x &&& ~~~(0 : Word) = x := BitVec.and_allOnes

theorem and_not_and_zero (x v : Word) : x &&& ~~~(v &&& 0) = x := by
  rw [show v &&& 0 = 0 from BitVec.and_zero, and_not_zero]

theorem mixBits_zero (old new : Word) : mixBits 0 old new = old := by
  rw [mixBits, and_not_zero, show new &&& 0 = 0 from BitVec.and_zero]
  exact BitVec.or_zero

theorem mixBits_ones (old new : Word) : mixBits 0xFFFFFFFF old new = new := by
  rw [show (0xFFFFFFFF : Word) = BitVec.allOnes 32 from rfl, mixBits, BitVec.not_allOnes, BitVec.and_zero, BitVec.and_allOnes, BitVec.zero_or]

/-- A locked or read-only register keeps its word; a locked bit that would change is counted (R515). -/
theorem State.plainWrite_locked (s : State) (d : DieIx) (i : Issuer) {off : Nat} (v : Word) {lock : Word} (hspec : regSpec off = ⟨0, 0, lock, 0, 0⟩)
    (hkeep : ∀ old : Word, keepReserved off old old = old) : s.plainWrite d i off v =
      if (s.reg d off ^^^ v) &&& lock ≠ 0 then (s.setReg d off (s.reg d off)).pelCount 24 else s.setReg d off (s.reg d off) := by
  unfold State.plainWrite
  rw [hspec]
  dsimp only
  rw [if_neg (by simp), mixBits_zero, hkeep, and_not_and_zero]

theorem State.writeReg4_blkID (s : State) (d : DieIx) (i : Issuer) (v : Word) : s.writeReg4 d i blkID v false = s.plainWrite d i blkID v := by
  have hwin : windowOf blkID = none := by decide
  have hring : ringOf blkID = none := by decide
  have hcore : coreOff blkID = none := by decide
  simp only [State.writeReg4, hwin, State.wordWrite, hring, hcore]
  repeat rw [if_neg (by decide)]

theorem State.writeReg4_hangCfg (s : State) (d : DieIx) (i : Issuer) (v : Word) :
    s.writeReg4 d i rHltHangCfg v false = s.plainWrite d i rHltHangCfg v := by
  have hwin : windowOf rHltHangCfg = none := by decide
  have hring : ringOf rHltHangCfg = none := by decide
  have hcore : coreOff rHltHangCfg = none := by decide
  simp only [State.writeReg4, hwin, State.wordWrite, hring, hcore]
  repeat rw [if_neg (by decide)]

/-- A byte of two words differs exactly if one of its bits does. -/
theorem xor_and_byte_eq_zero (a b : Word) : (a ^^^ b) &&& 0x000000FF = 0 ↔ fld b 0 8 = fld a 0 8 := by
  have hbyte : ∀ x : Word, (x &&& 0x000000FF).toNat = x.toNat % 2 ^ 8 := fun x => by
    rw [BitVec.toNat_and]
    exact Nat.and_two_pow_sub_one_eq_mod _ 8
  have hfld : ∀ x : Word, fld x 0 8 = x.toNat % 2 ^ 8 := fun x => by simp [fld]
  rw [← BitVec.toNat_inj, hbyte, BitVec.toNat_xor, Nat.xor_mod_two_pow, hfld, hfld, eq_comm (a := b.toNat % 2 ^ 8)]
  exact Nat.xor_eq_zero_iff

theorem coreOff_seed (c : CoreIx) : coreOff (blkCORE c + 0x190) = some (c, 0x190) := by revert c; decide

theorem regSpec_seed (c : CoreIx) : regSpec (blkCORE c + 0x190) = ⟨0xFFFFFFFF, 0, 0, 0, 0⟩ := by revert c; decide

theorem State.writeReg4_seed (s : State) (d : DieIx) (i : Issuer) (c : CoreIx) (v : Word) :
    s.writeReg4 d i (blkCORE c + 0x190) v false = s.setReg d (blkCORE c + 0x190) v := by
  have hwin : windowOf (blkCORE c + 0x190) = none := by simp [windowOf, coreOff_seed]
  have hring : ringOf (blkCORE c + 0x190) = none := by simp [ringOf, coreOff_seed]
  have hkeep : ∀ old, keepReserved (blkCORE c + 0x190) old v = v := by
    have ho : blkCORE c + 0x190 ≥ 0x40000 ∧ (blkCORE c + 0x190 - 0x40000) % 0x4000 = 0x190 := by revert c; decide
    intro old
    rw [keepReserved, if_pos ho.1]
    dsimp only
    rw [ho.2, if_neg (by decide), if_neg (by decide)]
  have hword : s.writeReg4 d i (blkCORE c + 0x190) v false = s.plainWrite d i (blkCORE c + 0x190) v := by
    simp [State.writeReg4, hwin, regSpec_seed, State.wordWrite, hring, coreOff_seed]
  rw [hword]
  unfold State.plainWrite
  rw [regSpec_seed]
  dsimp only
  rw [if_neg (by simp), mixBits_ones, hkeep, and_not_and_zero, if_neg (fun h => h BitVec.and_zero)]

/-- A command of a die that is ready. -/
theorem exec_onDie {s : State} {d : DieIx} {i : Instr} {k : State → State} (he : exec i s = onDie d s k) (hready : Ready s d) : exec i s = .next (k s) :=
  he.trans (onDie_ready hready k)

/-- A 4-byte write, by its offset. -/
theorem exec_registerWrite {s : State} {d : DieIx} (i : Issuer) {off : Fin 1048576} {n : Nat} (v : Word) (hready : Ready s d) (hoff : off.val = n)
    (halign : n % 4 = 0) : exec (.registerWrite d i off v none) s = .next (s.writeReg4 d i n v false) := by
  change execRegisterWrite d i off v none s = _
  rw [execRegisterWrite, onDie_ready hready]
  dsimp only
  rw [hoff, if_pos halign]

end Sys2Proof.Machine
end

section
open Sys2Proof Sys2Proof.Machine
open Host (Outcome)

/-- Settles O4. -/
theorem controlBitsAndRegisterWrites : Obligations.ControlBitsAndRegisterWrites := by
  unfold Obligations.ControlBitsAndRegisterWrites
  intro s d c hready
  refine ⟨exec_onDie (k := fun t => t.reseedCore d c) rfl hready, exec_onDie (k := fun t => t.reseedUpdate d) rfl hready,
    exec_onDie (k := fun t => t.reseedBucket d) rfl hready, exec_onDie (k := fun t => t.reseedReduction d) rfl hready,
    exec_onDie (k := fun t => t.snapCore d c) rfl hready, fun hstop => ?_, fun hstop => ?_, fun v => ?_, fun i off v => ⟨fun hoff => ?_, fun hoff => ?_, fun hoff => ?_, fun hoff => ?_, fun halign hwin hhalf => ?_⟩⟩
  · refine (exec_onDie (k := fun t => t.resumeCore d c) rfl hready).trans ?_
    rw [State.resumeCore, if_pos hstop, State.modCore]
  · refine (exec_onDie (k := fun t => t.resumeCore d c) rfl hready).trans ?_
    rw [State.resumeCore, if_neg (by simp [hstop])]
  · obtain ⟨hregs, hview⟩ := s.capCtlWrite_spec d v
    refine ⟨_, exec_onDie (k := fun t => t.capCtlWrite d v) rfl hready, hregs.mem, fun e he => hregs.die_ne he, fun n hn => ?_⟩
    obtain ⟨hsrc, hcap⟩ := keepReserved_capCtl (s.reg d rStkCapCtl) v ⟨n, hn⟩
    have h := hview ⟨n, hn⟩
    rw [State.capView_setReg, CapView.written] at h
    dsimp only at hsrc hcap h
    rw [hsrc, hcap] at h
    exact ⟨congrArg CapView.source h, congrArg CapView.armed h, congrArg CapView.captured h, congrArg CapView.stamp h⟩
  · change execRegisterWrite d i off v none s = _
    rw [execRegisterWrite, onDie_ready hready]
    dsimp only
    rw [if_neg hoff]
  · refine ⟨_, exec_registerWrite i v hready hoff (by decide), ?_⟩
    rw [State.writeReg4_blkID, State.plainWrite_locked s d i v (lock := 0) (by decide) (fun _ => rfl), if_neg (by simp)]
    exact ⟨rfl, s.reg_setReg_self d _⟩
  · refine ⟨s.setReg d rHltHangCfg (s.reg d rHltHangCfg), s.reg_setReg_self d _, rfl, rfl, ?_⟩
    rw [exec_registerWrite i v hready hoff (by decide), State.writeReg4_hangCfg,
      State.plainWrite_locked s d i v (lock := 0x000000FF) (by decide) (fun old => ?_)]
    · by_cases h : fld v 0 8 = fld (s.reg d rHltHangCfg) 0 8
      · rw [if_pos h, if_neg (not_not.mpr ((xor_and_byte_eq_zero _ _).mpr h))]
      · rw [if_neg h, if_pos (mt (xor_and_byte_eq_zero _ _).mp h)]
    · change (if fld old 0 8 < 2 then old else old) = old
      rw [ite_self]
  · rw [exec_registerWrite i v hready hoff (by simp [blkCORE]; omega), State.writeReg4_seed]
  · refine ⟨_, exec_registerWrite i v hready rfl halign, ?_⟩
    simp [State.writeReg4, hwin, hhalf]
end

section
/-! LEMMAS. Rows of elements at core-local addresses: where elements stand, runs of places, and what unmarked memory reads as (R50, R53, R156). -/

namespace Sys2Proof.Machine

/-! ### Places of elements (R50) -/

theorem Fmt.elemBytes_pos {f : Fmt} (h : f.isBlock = false) : 0 < f.elemBytes := by revert h; cases f <;> decide

theorem elPlace_scalar {f : Fmt} (h : f.isBlock = false) (i : Nat) : elPlace f i = (i * f.elemBytes, f.elemBytes) := by simp [elPlace, h]

theorem Fmt.rowBytes_scalar {f : Fmt} (h : f.isBlock = false) (n : Nat) : f.rowBytes n = n * f.elemBytes := by
  cases f
  case wb8 | wb6 => exact absurd h (by decide)
  all_goals rfl

theorem Fmt.rowBytes_mono (f : Fmt) {m n : Nat} (h : m ≤ n) : f.rowBytes m ≤ f.rowBytes n := by
  cases f
  case wb8 | wb6 => simp only [Fmt.rowBytes]; omega
  all_goals exact Nat.mul_le_mul_right _ h

/-- The place of an element lies within its row. -/
theorem elPlace_le (f : Fmt) {i n : Nat} (h : i < n) : (elPlace f i).1 + (elPlace f i).2 ≤ f.rowBytes n ∧ 0 < (elPlace f i).2 := by
  cases f
  case wb8 | wb6 => simp [elPlace, elPlace.chunkLen, Fmt.rowBytes, Fmt.isBlock]; omega
  all_goals
    simp [elPlace, Fmt.rowBytes, Fmt.isBlock, Fmt.elemBytes]
  all_goals omega

/-! ### Runs of places -/

theorem joinRuns_within {l : List (Nat × Nat)} {n : Nat} (h : ∀ q ∈ l, q.1 + q.2 ≤ n) : ∀ p ∈ joinRuns l, p.1 + p.2 ≤ n := by
  induction l with
  | nil => simp [joinRuns]
  | cons q l ih =>
    obtain ⟨hq, hl⟩ := List.forall_mem_cons.mp h
    have ih := ih hl
    rw [joinRuns]
    split
    · simpa using hq
    · rename_i r rs hr
      rw [hr] at ih
      obtain ⟨hr1, hrs⟩ := List.forall_mem_cons.mp ih
      split
      · exact List.forall_mem_cons.mpr ⟨by simp only; omega, hrs⟩
      · exact List.forall_mem_cons.mpr ⟨hq, ih⟩

/-- What runs cover is what the places cover. -/
theorem joinRuns_covers (l : List (Nat × Nat)) (x : Nat) :
    (∃ p ∈ joinRuns l, p.1 ≤ x ∧ x < p.1 + p.2) ↔ ∃ q ∈ l, q.1 ≤ x ∧ x < q.1 + q.2 := by
  induction l with
  | nil => simp [joinRuns]
  | cons q l ih =>
    rw [List.exists_mem_cons_iff, ← ih, joinRuns]
    split
    · rename_i hr
      simp [hr]
    · rename_i r rs hr
      rw [hr]
      simp only [List.exists_mem_cons_iff]
      split
      · rename_i hjoin
        rw [List.exists_mem_cons_iff, ← or_assoc]
        refine or_congr_left ?_
        simp only
        omega
      · rw [List.exists_mem_cons_iff, List.exists_mem_cons_iff]

/-- Runs of whole elements start at an element and hold whole elements. -/
theorem joinRuns_whole {l : List (Nat × Nat)} {w : Nat} (h : ∀ q ∈ l, w ∣ q.1 ∧ w ∣ q.2) : ∀ p ∈ joinRuns l, w ∣ p.1 ∧ w ∣ p.2 := by
  induction l with
  | nil => simp [joinRuns]
  | cons q l ih =>
    obtain ⟨hq, hl⟩ := List.forall_mem_cons.mp h
    have ih := ih hl
    rw [joinRuns]
    split
    · simpa using hq
    · rename_i r rs hr
      rw [hr] at ih
      obtain ⟨hr1, hrs⟩ := List.forall_mem_cons.mp ih
      split
      · exact List.forall_mem_cons.mpr ⟨⟨hq.1, Nat.dvd_add hq.2 hr1.2⟩, hrs⟩
      · exact List.forall_mem_cons.mpr ⟨hq, ih⟩

/-! ### Bytes of part of a row -/

theorem slice_take {α : Type} (bs : List α) {i n m : Nat} (h : i + n ≤ m) : slice (bs.take m) i n = slice bs i n := by
  rw [slice, slice, List.drop_take, List.take_take, Nat.min_eq_left (by omega)]

theorem byteAt_take (bs : List Byte) {i m : Nat} (h : i < m) : byteAt (bs.take m) i = byteAt bs i := by
  simp [byteAt, List.getD_eq_getElem?_getD, h]

/-- An element reads no byte beyond its row's end. -/
theorem decodeElem_take (f : Fmt) (bs : List Byte) {i m : Nat} (n : Nat) (h : f.rowBytes (i + 1) ≤ m) :
    decodeElem f (bs.take m) (List.replicate m false) i = decodeElem f bs (List.replicate n false) i := by
  unfold decodeElem
  cases hb : f.isBlock
  · rw [Fmt.rowBytes_scalar hb, Nat.succ_mul] at h
    simp only [Bool.false_eq_true, if_false, anyAt_clean, slice_take bs h]
  · have hcode : blockCode f (bs.take m) i = blockCode f bs i ∧ scaleOffset f i < m := by
      cases f <;> simp only [Fmt.isBlock, Fmt.rowBytes] at hb h
      case wb8 => exact ⟨by simp only [blockCode]; rw [byteAt_take _ (by omega)], by simp only [scaleOffset]; omega⟩
      case wb6 => exact ⟨by simp only [blockCode]; rw [slice_take _ (by omega)], by simp only [scaleOffset]; omega⟩
      all_goals exact absurd hb (by decide)
    simp only [if_true, anyAt_clean, hcode.1, byteAt_take bs hcode.2]

theorem State.peek_take (s : State) (key : Nat) {m n : Nat} (h : m ≤ n) : (s.peek key n).take m = s.peek key m := by
  rw [State.peek, ← List.map_take, List.take_range, Nat.min_eq_left h, State.peek]

/-! ### Unmarked memory -/

theorem State.marksIn_sub {s : State} {region key n k m : Nat} (h : s.marksIn region key n = []) (hlo : key ≤ k) (hhi : k + m ≤ key + n) :
    s.marksIn region k m = [] := by
  unfold State.marksIn at h ⊢
  dsimp only at h ⊢
  split
  · rfl
  · rename_i hm
    rw [if_neg (by omega)] at h
    rw [List.filter_eq_nil_iff] at h ⊢
    intro p hp hc
    refine h p hp ?_
    simp only [Bool.and_eq_true, decide_eq_true_eq] at hc ⊢
    omega

theorem State.poisonOf_unmarked {s : State} {region key n : Nat} (h : s.marksIn region key n = []) :
    s.poisonOf region key n = List.replicate n false := by simp [State.poisonOf, h]

/-- The last of rising indices bounds them all. -/
theorem le_getLast_of_sorted {l : List Nat} (h : l.Pairwise (· < ·)) {i : Nat} (hi : i ∈ l) : i ≤ l.getLast?.getD 0 ∧ l.getLast?.getD 0 ∈ l := by
  induction l using List.reverseRecOn with
  | nil => nomatch hi
  | append_singleton l x =>
    obtain ⟨-, -, hlast⟩ := List.pairwise_append.mp h
    rw [List.getLast?_concat, Option.getD_some]
    refine ⟨?_, by simp⟩
    rcases List.mem_append.mp hi with hl | hx
    · exact (hlast i hl x (by simp)).le
    · exact (List.mem_singleton.mp hx).le

/-- Reads within an unmarked range leave the state as it was. -/
theorem State.reads_unmarked {s : State} {d : DieIx} {c : CoreIx} {a n : Nat} (hmark : s.marksIn 1 (memKey d 1 (spBase c + a)) n = [])
    {l : List (Nat × Nat)} (hl : ∀ p ∈ l, p.1 + p.2 ≤ n) :
    l.foldl (fun u p => (u.memRead (u.kernelAccess d c) d 1 (localOff c (a + p.1)) p.2).state) s = s := by
  induction l with
  | nil => rfl
  | cons p l ih =>
    obtain ⟨hp, hl⟩ := List.forall_mem_cons.mp hl
    have hsub : s.marksIn 1 (memKey d 1 (localOff c (a + p.1))) p.2 = [] :=
      State.marksIn_sub hmark (by simp only [memKey, localOff]; omega) (by simp only [memKey, localOff]; omega)
    rw [List.foldl_cons, State.memRead_unmarked rfl hsub]
    exact ih hl

/-- Elements of an unmarked row are read as stored, and the state is as it was. -/
theorem State.vread_unmarked {s : State} {d : DieIx} {c : CoreIx} {a : Nat} {f : Fmt} {idx : List Nat} {m : Nat} (hidx : ∀ i ∈ idx, i < m)
    (hmark : s.marksIn 1 (memKey d 1 (spBase c + a)) (f.rowBytes m) = []) (hsorted : idx.Pairwise (· < ·)) :
    s.vread d c a f idx = (idx.map (fun i => (i, decodeElem f (s.peek (memKey d 1 (spBase c + a)) (f.rowBytes m))
      (List.replicate (f.rowBytes m) false) i)), s) := by
  have hruns : ∀ p ∈ joinRuns (elPlaces f idx), p.1 + p.2 ≤ f.rowBytes m := joinRuns_within (fun q hq => by
    obtain ⟨i, hi, rfl⟩ := List.mem_map.mp (List.mem_dedup.mp hq)
    exact (elPlace_le f (hidx i hi)).1)
  refine Prod.ext (List.map_congr_left fun i hi => congrArg (Prod.mk i) ?_) (s.reads_unmarked hmark hruns)
  obtain ⟨hle, hlast⟩ := le_getLast_of_sorted hsorted hi
  have hshort : f.rowBytes (idx.getLast?.getD 0 + 1) ≤ f.rowBytes m := f.rowBytes_mono (hidx _ hlast)
  have hpoison : s.poisonOf 1 (memKey d 1 (localOff c a)) (f.rowBytes (idx.getLast?.getD 0 + 1)) = _ :=
    State.poisonOf_unmarked (State.marksIn_sub hmark le_rfl (Nat.add_le_add_left hshort _))
  rw [hpoison, ← s.peek_take _ hshort]
  exact decodeElem_take f _ _ (f.rowBytes_mono (by omega))

end Sys2Proof.Machine
end

section
/-! LEMMAS. Vector loads (R156 to R158). -/

namespace Sys2Proof.Machine

theorem loadEl_bits_gen (r : RegType) (f : Fmt) {mode : Rnd} (h : mode ≠ .sr) (e : Elem) (g j : Gen) :
    (loadEl r f mode e g).bits = (loadEl r f mode e j).bits := by
  unfold loadEl
  split
  · rfl
  · cases r with
    | flt x => simp only [encodeFloat_gen x h e.val g j]
    | int b => simp only [encodeInt_gen b h e.val g j]

/-- One element of a load from element e0 on. -/
def loadStep (r : RegType) (f : Fmt) (mode : Rnd) (isat : Bool) (e0 : Nat) (acc : List VOut × DWord × Gen) (e : Nat × Elem) :
    List VOut × DWord × Gen :=
  if e.2.poison then (acc.1 ++ [⟨e.1 - e0, 0, true⟩], acc.2.1, acc.2.2)
  else
    let o := loadEl r f mode e.2 acc.2.2
    (acc.1 ++ [⟨e.1 - e0, o.bits, false⟩], acc.2.1 ||| vflags o isat, o.gen)

theorem foldl_loadStep (r : RegType) (f : Fmt) {mode : Rnd} (h : mode ≠ .sr) (isat : Bool) (e0 : Nat) (g : Gen) {l : List (Nat × Elem)}
    (hclean : ∀ e ∈ l, e.2.poison = false) (acc : List VOut × DWord × Gen) :
    (l.foldl (loadStep r f mode isat e0) acc).1 = acc.1 ++ l.map (fun e => ⟨e.1 - e0, (loadEl r f mode e.2 g).bits, false⟩) := by
  induction l generalizing acc with
  | nil => simp
  | cons e l ih =>
    obtain ⟨he, hl⟩ := List.forall_mem_cons.mp hclean
    rw [List.foldl_cons, ih hl, loadStep, if_neg (by simp [he])]
    dsimp only
    rw [loadEl_bits_gen r f h e.2 _ g, List.append_assoc, List.singleton_append, List.map_cons]

section
variable {s : State} {d : DieIx} {c : CoreIx} {w : Fin 4} {f : Fmt} {r : RegType} {a e0 n : Nat} {idx : List Nat}

/-- The element that a load gives at index i of an unmarked row of n elements. -/
def State.rowEl (s : State) (d : DieIx) (c : CoreIx) (r : RegType) (f : Fmt) (a n i : Nat) : Nat :=
  (loadEl r f (s.core d c).vround (decodeElem f (s.peek (memKey d 1 (spBase c + a)) (f.rowBytes n)) (List.replicate (f.rowBytes n) false) i)
    (s.core d c).gen).bits

/-- A load of an unmarked row writes its elements and leaves the state otherwise as it was. -/
theorem State.vload_unmarked (vd : Fin 32) (hidx : ∀ i ∈ idx, i + e0 < n) (hsorted : idx.Pairwise (· < ·))
    (hmark : s.marksIn 1 (memKey d 1 (spBase c + a)) (f.rowBytes n) = []) (hmode : (s.core d c).vround ≠ .sr) :
    ∃ flags g, s.vload d c vd w f r a e0 idx = s.vwrite d c vd w (idx.map (fun i => ⟨i, s.rowEl d c r f a n (i + e0), false⟩)) flags g := by
  have hread := s.vread_unmarked (idx := idx.map (fun i => i + e0)) (by simpa using hidx) hmark
    (List.pairwise_map.mpr (hsorted.imp (fun h => Nat.add_lt_add_right h e0)))
  unfold State.vload
  rw [hread]
  dsimp only
  refine ⟨_, _, congrArg (fun l => s.vwrite d c vd w l _ _) ?_⟩
  refine (foldl_loadStep r f hmode _ e0 (s.core d c).gen ?_ _).trans ?_
  · simp [decodeElem_clean]
  · simp [State.rowEl]

/-- What stands in a register after a load of some elements. -/
theorem velem_putEls_load (w : Fin 4) {idx : List Nat} (hnodup : idx.Nodup) (val : Nat → Nat) (v : BitVec 4096) {i : Nat} (hi : i < lanes w) :
    velem (putEls w (idx.map (fun i => ⟨i, val i, false⟩)) v) w i = if i ∈ idx then val i % 2 ^ elemBits w else velem v w i := by
  split
  · rename_i hmem
    exact velem_putEls (e := ⟨i, val i, false⟩) (by simpa [Function.comp_def] using hnodup) (List.mem_map.mpr ⟨i, hmem, rfl⟩) hi v
  · rename_i hmem
    refine velem_putEls_ne w (fun e he h => hmem ?_) v
    obtain ⟨j, hj, rfl⟩ := List.mem_map.mp he
    exact h ▸ hj

/-- Elements of a row that are not at the accumulator bank, or at one that the array does not own, are not held (R84). -/
theorem State.elsHeld_free (hidx : ∀ i ∈ idx, i < n) (hfree : a + f.rowBytes n ≤ 0x800000 ∨ s.bankHeld d c = false) :
    s.elsHeld d c a f idx = false := by
  simp only [State.elsHeld, State.vheld, List.any_eq_false, Bool.and_eq_true, decide_eq_true_eq]
  rintro i hi ⟨hhigh, hheld⟩
  obtain ⟨hle, hpos⟩ := elPlace_le f (hidx i hi)
  rcases hfree with h | h
  · omega
  · rw [hheld] at h
    nomatch h

end

theorem sorted_active (k : Core) (w : Fin 4) (pg : Fin 8) : (k.active w pg).Pairwise (· < ·) := List.pairwise_lt_range.filter _

/-- The first of rising indices that passes a test. -/
theorem find?_sorted {l : List Nat} (hsorted : l.Pairwise (· < ·)) {p : Nat → Bool} {i : Nat} (hi : i ∈ l) (hp : p i = true)
    (hmin : ∀ j ∈ l, j < i → p j = false) : l.find? p = some i := by
  induction l with
  | nil => nomatch hi
  | cons x l ih =>
    obtain ⟨hx, hl⟩ := List.pairwise_cons.mp hsorted
    rcases List.mem_cons.mp hi with rfl | hi
    · rw [List.find?_cons_of_pos hp]
    · rw [List.find?_cons_of_neg (by simp [hmin x (by simp) (hx i hi)])]
      exact ih hl hi (fun j hj => hmin j (List.mem_cons_of_mem _ hj))

theorem Core.vresult_v (k : Core) (vd : Fin 32) (w : Fin 4) (l : List VOut) (flags : DWord) (g : Gen) :
    (k.vresult vd w l flags g).vec.v[vd] = putEls w l k.vec.v[vd] := Core.writeEls_v ..

theorem vloadFmt_eq {code : Fin 16} {w : Fin 4} {rt : Bool} {f : Fmt} {r : RegType} (hf : Fmt.ofCode code = some f) (hr : regType w rt = some r) :
    vloadFmt code w rt = some (f, some r) := by simp [vloadFmt, hf, hr]

end Sys2Proof.Machine
end

section
/-! PROOF. Vector loads (R156 to R158). -/

namespace Sys2Proof.Machine

/-- The first element of an access in a row: given for a block format, 0 otherwise. -/
def rowStart (k : Core) (f : Fmt) (rs2 : Fin 32) : Nat := if f.isBlock then (k.getG rs2).toNat % 128 else 0

section
variable {s : State} {d : DieIx} {c : CoreIx} {vd rs1 rs2 : Fin 32} {w : Fin 4} {pg : Fin 8} {code : Fin 16} {rt : Bool} {f : Fmt} {r : RegType}
variable (hi : CanIssue s d c) (hf : Fmt.ofCode code = some f) (hr : regType w rt = some r)

/-- Whether element i of the row of a load is mapped. -/
def State.elMapped (s : State) (d : DieIx) (c : CoreIx) (rs1 : Fin 32) (f : Fmt) (i : Nat) : Bool :=
  localMapped (((s.core d c).getG rs1).toNat + (elPlace f i).1) (elPlace f i).2

include hi hf hr

/-- VLD in cases. -/
theorem exec_vld (hs : Spelt s d c (.vld d c vd rs1 rs2 w pg code rt false)) (hrs2 : f.isBlock = false → rs2 = 0) :
    let k := s.core d c
    let a := (k.getG rs1).toNat
    let e0 := rowStart k f rs2
    exec (.vld d c vd rs1 rs2 w pg code rt false) s = .next (s.conclude d c
      (match (k.active w pg).find? (fun i => !s.elMapped d c rs1 f (i + e0)) with
       | some i => .trap (trapVector 2 i (a + (elPlace f (i + e0)).1))
       | none => if s.elsHeld d c a f ((k.active w pg).map (fun i => i + e0)) then .stall .vector
         else .ok (s.vload d c vd w f r a e0 (k.active w pg)))) := by
  intro k a e0
  have hplain : ¬ (false = true ∨ (!f.isBlock) = true ∧ rs2 ≠ 0) := by
    simpa using hrs2
  have he0 : (if f.isBlock then fld ((s.core d c).getG rs2) 0 7 else 0) = e0 := by simp [e0, k, rowStart, fld]
  rw [exec_vinsn rfl hi hs (by rw [vloadFmt_eq hf hr]; rfl)]
  simp only [vloadFmt_eq hf hr]
  rw [if_neg hplain, he0]
  rfl

/-- VLD with an active element that is not mapped. -/
theorem exec_vld_unmapped (hs : Spelt s d c (.vld d c vd rs1 rs2 w pg code rt false)) (hrs2 : f.isBlock = false → rs2 = 0) {i : Nat}
    (hact : IsActive s d c w pg i) (hmap : s.elMapped d c rs1 f (i + rowStart (s.core d c) f rs2) = false)
    (hbelow : ∀ j, j < i → IsActive s d c w pg j → s.elMapped d c rs1 f (j + rowStart (s.core d c) f rs2) = true) :
    exec (.vld d c vd rs1 rs2 w pg code rt false) s = .next (s.takeTrap d c
      (trapVector 2 i (((s.core d c).getG rs1).toNat + (elPlace f (i + rowStart (s.core d c) f rs2)).1))) := by
  rw [exec_vld hi hf hr hs hrs2]
  rw [find?_sorted (sorted_active ..) (mem_active.mpr hact) (by rw [hmap]; rfl) (fun j hj hji => by rw [hbelow j hji (mem_active.mp hj)]; rfl)]
  rfl

variable (hmode : (s.core d c).vround ≠ .sr)
variable (hmark : s.marksIn 1 (memKey d 1 (spBase c + ((s.core d c).getG rs1).toNat))
  (f.rowBytes ((s.core d c).count w + rowStart (s.core d c) f rs2)) = [])
variable (hfree : ((s.core d c).getG rs1).toNat + f.rowBytes ((s.core d c).count w + rowStart (s.core d c) f rs2) ≤ 0x800000 ∨ s.bankHeld d c = false)
include hmode hmark hfree

/-- VLD of mapped elements. -/
theorem exec_vld_mapped (hs : Spelt s d c (.vld d c vd rs1 rs2 w pg code rt false)) (hrs2 : f.isBlock = false → rs2 = 0)
    (hmap : ∀ i, IsActive s d c w pg i → s.elMapped d c rs1 f (i + rowStart (s.core d c) f rs2) = true) :
    let k := s.core d c
    let e0 := rowStart k f rs2
    ∃ t, exec (.vld d c vd rs1 rs2 w pg code rt false) s = .next t ∧ VectorFrame s t d c vd
      ∧ ∀ i, i < lanes w → velem (t.core d c).vec.v[vd] w i =
          if i < k.count w ∧ (k.pred pg).getLsbD i then s.rowEl d c r f (k.getG rs1).toNat (k.count w + e0) (i + e0) % 2 ^ elemBits w
          else velem k.vec.v[vd] w i := by
  intro k e0
  have hidx : ∀ i ∈ k.active w pg, i + e0 < k.count w + e0 := fun i hi => Nat.add_lt_add_right (mem_active.mp hi).1 e0
  have hfind : (k.active w pg).find? (fun i => !s.elMapped d c rs1 f (i + e0)) = none := by
    rw [List.find?_eq_none]
    intro i hi
    simp [hmap i (mem_active.mp hi), e0, k]
  have hheld : s.elsHeld d c (k.getG rs1).toNat f ((k.active w pg).map (fun i => i + e0)) = false := State.elsHeld_free (fun i hi => by
    obtain ⟨j, hj, rfl⟩ := List.mem_map.mp hi
    exact hidx j hj) hfree
  obtain ⟨flags, g, hload⟩ := State.vload_unmarked (w := w) (r := r) vd hidx (sorted_active ..) hmark hmode
  refine ⟨_, exec_vld hi hf hr hs hrs2, ?_⟩
  rw [hfind]
  dsimp only
  rw [hheld, if_neg Bool.false_ne_true, hload]
  refine ⟨State.vwrite_frame .., fun i hi => ?_⟩
  have hv := Core.vresult_v k vd w ((k.active w pg).map (fun i => ⟨i, s.rowEl d c r f (k.getG rs1).toNat (k.count w + e0) (i + e0), false⟩)) flags g
  rw [State.conclude, State.core_modCore, State.core_vwrite]
  refine (congrArg (fun v => velem v w i) hv).trans ?_
  rw [velem_putEls_load w (nodup_active ..) (fun i => s.rowEl d c r f (k.getG rs1).toNat (k.count w + e0) (i + e0)) _ hi]
  simp only [mem_active]

end

end Sys2Proof.Machine
end

section
/-! PROOF. Vector loads that stop at the first element that cannot be read (R158). -/

namespace Sys2Proof.Machine

/-- The first index below n that fails a test, or n. -/
theorem find?_range_getD {p : Nat → Bool} {m n : Nat} (hle : m ≤ n) (hbelow : ∀ i, i < m → p i = true) (hat : m < n → p m = false) :
    ((List.range n).find? (fun i => !p i)).getD n = m := by
  rcases Nat.lt_or_eq_of_le hle with hlt | rfl
  · rw [find?_sorted List.pairwise_lt_range (List.mem_range.mpr hlt) (by rw [hat hlt]; rfl) (fun j _ hj => by rw [hbelow j hj]; rfl),
      Option.getD_some]
  · rw [List.find?_eq_none.mpr (fun i hi => by simp [hbelow i (List.mem_range.mp hi)]), Option.getD_none]

/-- The result of a vector instruction that also writes a g register. -/
theorem State.vwrite_setG (s : State) (d : DieIx) (c : CoreIx) (vd : Fin 32) (w : Fin 4) (l : List VOut) (flags : DWord) (g : Gen) (r : Fin 32)
    (v pc : DWord) :
    let k := s.core d c
    let t := ((s.vwrite d c vd w l flags g).modCore d c (fun x => x.setG r v)).modCore d c (fun x => x.setPc pc)
    t.mem = s.mem ∧ (t.core d c).getG r = (if r = 0 then 0 else v) ∧ (t.core d c).vec.span = k.vec.span
      ∧ (∀ q : Fin 32, q ≠ r → (t.core d c).getG q = k.getG q) ∧ (t.core d c).proc.pc = pc
      ∧ (t.core d c).vec.v[vd] = putEls w l k.vec.v[vd] := by
  intro k t
  have hcore : t.core d c = ((k.vresult vd w l flags g).setG r v).setPc pc := by
    simp only [t, State.core_modCore, State.core_vwrite, k]
  have hvec : (t.core d c).vec = (k.vresult vd w l flags g).vec := hcore ▸ Core.vec_setG _ _ _
  have hget : ∀ q, (t.core d c).getG q = ((k.vresult vd w l flags g).setG r v).getG q := fun q => by rw [hcore]; rfl
  refine ⟨State.mem_vwrite s d c vd w l flags g, ?_, ?_, fun q hq => ?_, ?_, ?_⟩
  · rw [hget, Core.getG_setG_same]
  · rw [hvec]
    rfl
  · rw [hget, Core.getG_setG_ne _ _ hq]
    rfl
  · rw [hcore]
    rfl
  · rw [hvec, Core.vresult_v]

section
variable {s : State} {d : DieIx} {c : CoreIx} {vd rs1 rs2 : Fin 32} {w : Fin 4} {pg : Fin 8} {code : Fin 16} {rt : Bool} {f : Fmt} {r : RegType}
variable (hi : CanIssue s d c) (hf : Fmt.ofCode code = some f) (hr : regType w rt = some r)
variable (hs : Spelt s d c (.vldff d c vd rs1 rs2 w pg code rt false))
include hi hf hr hs

/-- VLDFF in cases, where m elements can be read. -/
theorem exec_vldff {m : Nat} (hle : m ≤ (s.core d c).count w)
    (hbelow : ∀ i, i < m → s.elMapped d c rs1 f (i + rowStart (s.core d c) f rs2) = true)
    (hat : m < (s.core d c).count w → s.elMapped d c rs1 f (m + rowStart (s.core d c) f rs2) = false) :
    let k := s.core d c
    let a := (k.getG rs1).toNat
    let e0 := rowStart k f rs2
    exec (.vldff d c vd rs1 rs2 w pg code rt false) s = .next (s.conclude d c
      (if k.count w ≠ 0 ∧ m = 0 then .trap (trapVector 2 0 (a + (elPlace f e0).1))
       else if s.elsHeld d c a f ((List.range m).map (fun i => i + e0)) then .stall .vector
       else .ok ((s.vload d c vd w f r a e0 ((k.active w pg).filter (fun i => decide (i < m)))).modCore d c (fun x =>
         x.setG rs2 (BitVec.ofNat 64 m))))) := by
  intro k a e0
  have he0 : (if f.isBlock then fld ((s.core d c).getG rs2) 0 7 else 0) = e0 := by simp [e0, k, rowStart, fld]
  have hgot := find?_range_getD hle hbelow hat
  rw [exec_vinsn rfl hi hs (by rw [vloadFmt_eq hf hr]; rfl)]
  simp only [vloadFmt_eq hf hr, Bool.false_eq_true, if_false, he0]
  simp only [State.elMapped] at hgot
  rw [hgot]

/-- VLDFF whose element 0 cannot be read. -/
theorem exec_vldff_unmapped (hcount : 0 < (s.core d c).count w) (hmap : s.elMapped d c rs1 f (rowStart (s.core d c) f rs2) = false) :
    exec (.vldff d c vd rs1 rs2 w pg code rt false) s = .next (s.takeTrap d c
      (trapVector 2 0 (((s.core d c).getG rs1).toNat + (elPlace f (rowStart (s.core d c) f rs2)).1))) := by
  rw [exec_vldff hi hf hr hs (Nat.zero_le _) (fun i h => absurd h (Nat.not_lt_zero i)) (fun _ => by rwa [Nat.zero_add]), if_pos ⟨hcount.ne', rfl⟩]
  rfl

/-- VLDFF with m elements that can be read. -/
theorem exec_vldff_mapped (hmode : (s.core d c).vround ≠ .sr)
    (hmark : s.marksIn 1 (memKey d 1 (spBase c + ((s.core d c).getG rs1).toNat))
      (f.rowBytes ((s.core d c).count w + rowStart (s.core d c) f rs2)) = [])
    (hfree : ((s.core d c).getG rs1).toNat + f.rowBytes ((s.core d c).count w + rowStart (s.core d c) f rs2) ≤ 0x800000 ∨ s.bankHeld d c = false)
    {m : Nat} (hpos : 0 < m) (hle : m ≤ (s.core d c).count w)
    (hbelow : ∀ i, i < m → s.elMapped d c rs1 f (i + rowStart (s.core d c) f rs2) = true)
    (hat : m < (s.core d c).count w → s.elMapped d c rs1 f (m + rowStart (s.core d c) f rs2) = false) :
    let k := s.core d c
    let e0 := rowStart k f rs2
    ∃ t, exec (.vldff d c vd rs1 rs2 w pg code rt false) s = .next t ∧ t.mem = s.mem
      ∧ (t.core d c).getG rs2 = (if rs2 = 0 then 0 else BitVec.ofNat 64 m) ∧ (t.core d c).vec.span = k.vec.span
      ∧ (∀ q : Fin 32, q ≠ rs2 → (t.core d c).getG q = k.getG q) ∧ (t.core d c).proc.pc = k.proc.pc + 4
      ∧ ∀ i, i < lanes w → velem (t.core d c).vec.v[vd] w i =
          if i < m ∧ (k.pred pg).getLsbD i then s.rowEl d c r f (k.getG rs1).toNat (k.count w + e0) (i + e0) % 2 ^ elemBits w
          else velem k.vec.v[vd] w i := by
  intro k e0
  have hidx : ∀ i ∈ (k.active w pg).filter (fun i => decide (i < m)), i + e0 < k.count w + e0 := fun i hi =>
    Nat.add_lt_add_right (mem_active.mp (List.mem_of_mem_filter hi)).1 e0
  have hheld : s.elsHeld d c (k.getG rs1).toNat f ((List.range m).map (fun i => i + e0)) = false := State.elsHeld_free (fun i hi => by
    obtain ⟨j, hj, rfl⟩ := List.mem_map.mp hi
    exact Nat.add_lt_add_right (lt_of_lt_of_le (List.mem_range.mp hj) hle) e0) hfree
  obtain ⟨flags, g, hload⟩ := State.vload_unmarked (w := w) (r := r) vd hidx ((sorted_active k w pg).filter _) hmark hmode
  rw [exec_vldff hi hf hr hs hle hbelow hat, if_neg (fun h => hpos.ne' h.2), hheld, if_neg Bool.false_ne_true, hload, State.conclude]
  obtain ⟨hmem, hrs2, hspan, hother, hpc, hv⟩ := s.vwrite_setG d c vd w
    (((k.active w pg).filter (fun i => decide (i < m))).map (fun i => ⟨i, s.rowEl d c r f (k.getG rs1).toNat (k.count w + e0) (i + e0), false⟩))
    flags g rs2 (BitVec.ofNat 64 m) (k.proc.pc + 4)
  refine ⟨_, rfl, hmem, hrs2, hspan, hother, hpc, fun i hi => ?_⟩
  rw [hv, velem_putEls_load w ((nodup_active ..).filter _) (fun i => s.rowEl d c r f (k.getG rs1).toNat (k.count w + e0) (i + e0)) _ hi]
  simp only [List.mem_filter, mem_active, decide_eq_true_eq]
  have hcond : ((i < k.count w ∧ (k.pred pg).getLsbD i = true) ∧ i < m) ↔ (i < m ∧ (k.pred pg).getLsbD i = true) := by
    rw [and_right_comm, and_iff_right_of_imp (fun h => lt_of_lt_of_le h hle)]
  exact if_congr hcond rfl rfl

end

end Sys2Proof.Machine
end

section
/-! LEMMAS. Vector stores: the bytes of the runs of a store (R156, R157). -/

namespace Sys2Proof.Machine

/-! ### Little-endian numbers one after another -/

theorem length_flatMap_leBytes (n : Nat) (val : Nat → Nat) (l : List Nat) : (l.flatMap (fun j => leBytes n (val j))).length = l.length * n := by
  induction l with
  | nil => simp
  | cons j l ih => rw [List.flatMap_cons, List.length_append, ih, length_leBytes, List.length_cons, Nat.succ_mul, Nat.add_comm]

/-- Byte x of neighbouring numbers of n bytes is byte x mod n of number x / n. -/
theorem getD_flatMap_leBytes {n : Nat} (hn : 0 < n) (val : Nat → Nat) {i m x : Nat} (hx : x < m * n) :
    ((List.range' i m).flatMap (fun j => leBytes n (val j))).getD x 0 = BitVec.ofNat 8 (val (i + x / n) / 256 ^ (x % n)) := by
  induction m generalizing i x with
  | zero => omega
  | succ m ih =>
    rw [List.range'_succ, List.flatMap_cons]
    rcases Nat.lt_or_ge x n with h | h
    · rw [List.getD_append _ _ _ _ (by rwa [length_leBytes]), getD_leBytes _ h, Nat.div_eq_of_lt h, Nat.mod_eq_of_lt h, Nat.add_zero]
    · rw [Nat.succ_mul] at hx
      rw [List.getD_append_right _ _ _ _ (by rwa [length_leBytes]), length_leBytes, ih (by omega), Nat.div_eq_sub_div hn h, Nat.mod_eq_sub_mod h,
        Nat.add_assoc, Nat.add_comm 1]

/-! ### Indices of a run -/

theorem mem_elPlaces {f : Fmt} {l : List Nat} {q : Nat × Nat} : q ∈ elPlaces f l ↔ ∃ i ∈ l, elPlace f i = q := by
  simp [elPlaces]

/-- What the runs of scalar elements cover: the elements' own bytes. -/
theorem runs_cover {f : Fmt} (hf : f.isBlock = false) (l : List Nat) (x : Nat) :
    (∃ p ∈ joinRuns (elPlaces f l), p.1 ≤ x ∧ x < p.1 + p.2) ↔ x / f.elemBytes ∈ l := by
  have hpos := Fmt.elemBytes_pos hf
  rw [joinRuns_covers]
  constructor
  · rintro ⟨q, hq, hlo, hhi⟩
    obtain ⟨i, hi, rfl⟩ := mem_elPlaces.mp hq
    rw [elPlace_scalar hf] at hlo hhi
    rwa [Nat.div_eq_of_lt_le hlo (by rwa [Nat.succ_mul])]
  · intro h
    refine ⟨_, mem_elPlaces.mpr ⟨_, h, rfl⟩, ?_⟩
    rw [elPlace_scalar hf]
    exact ⟨Nat.div_mul_le_self .., Nat.lt_div_mul_add hpos⟩

/-- A run of scalar elements holds the elements of consecutive indices. -/
theorem run_indices {f : Fmt} (hf : f.isBlock = false) {l : List Nat} (hsorted : l.Pairwise (· < ·)) {p : Nat × Nat}
    (hp : p ∈ joinRuns (elPlaces f l)) :
    p.2 = p.2 / f.elemBytes * f.elemBytes ∧ p.1 = p.1 / f.elemBytes * f.elemBytes
      ∧ l.filter (fun i => decide (p.1 ≤ i * f.elemBytes) && decide (i * f.elemBytes < p.1 + p.2)) =
          List.range' (p.1 / f.elemBytes) (p.2 / f.elemBytes) := by
  have hpos := Fmt.elemBytes_pos hf
  obtain ⟨⟨i, hi⟩, ⟨m, hm⟩⟩ := joinRuns_whole (w := f.elemBytes) (fun q hq => by
    obtain ⟨j, -, rfl⟩ := mem_elPlaces.mp hq
    rw [elPlace_scalar hf]
    exact ⟨Dvd.intro_left j rfl, dvd_rfl⟩) p hp
  rw [hi, hm, Nat.mul_div_cancel_left _ hpos, Nat.mul_div_cancel_left _ hpos]
  refine ⟨Nat.mul_comm .., Nat.mul_comm .., (hsorted.filter _).eq_of_mem_iff (List.pairwise_lt_range' ..) fun j => ?_⟩
  have hrun : (decide (f.elemBytes * i ≤ j * f.elemBytes) && decide (j * f.elemBytes < f.elemBytes * i + f.elemBytes * m)) = true
      ↔ i ≤ j ∧ j < i + m := by
    rw [Bool.and_eq_true, decide_eq_true_eq, decide_eq_true_eq, ← Nat.mul_add, Nat.mul_comm j,
      Nat.mul_le_mul_left_iff hpos, Nat.mul_lt_mul_left hpos]
  rw [List.mem_filter, hrun, List.mem_range'_1, and_iff_right_iff_imp]
  intro hj
  have hcover := (runs_cover hf l (f.elemBytes * j)).mp ⟨p, hp, by
    rw [hi, hm, ← Nat.mul_add]
    exact ⟨Nat.mul_le_mul_left _ hj.1, Nat.mul_lt_mul_of_pos_left hj.2 hpos⟩⟩
  rwa [Nat.mul_div_cancel_left _ hpos] at hcover

/-! ### Writing runs -/

/-- A sequence of writes at core-local addresses sets the bytes of its runs. -/
theorem State.writeRuns_cells (d : DieIx) (c : CoreIx) (a : Nat) {runs : List (Nat × Nat)} (bytes : Nat × Nat → List Byte)
    (marks : Nat × Nat → List Bool) {val : Nat → Byte} (hlen : ∀ p ∈ runs, (bytes p).length = p.2)
    (hval : ∀ p ∈ runs, ∀ x, x < p.2 → (bytes p).getD x 0 = val (p.1 + x)) (s : State) (b : Nat) :
    SMap.get 0 (runs.foldl (fun u p => u.memWrite (u.kernelAccess d c) d 1 (localOff c (a + p.1)) (bytes p) (marks p)) s).mem.cells b =
      if ∃ p ∈ runs, memKey d 1 (spBase c + a) + p.1 ≤ b ∧ b < memKey d 1 (spBase c + a) + p.1 + p.2 then val (b - memKey d 1 (spBase c + a))
      else SMap.get 0 s.mem.cells b := by
  induction runs generalizing s with
  | nil => simp
  | cons p runs ih =>
    obtain ⟨hl, hls⟩ := List.forall_mem_cons.mp hlen
    obtain ⟨hv, hvs⟩ := List.forall_mem_cons.mp hval
    have hkey : memKey d 1 (localOff c (a + p.1)) = memKey d 1 (spBase c + a) + p.1 := by
      simp only [memKey, localOff]
      omega
    rw [List.foldl_cons, ih hls hvs, State.memWrite_cells, get_pokeCells, hl, hkey]
    have hcons := List.exists_mem_cons_iff
      (fun q : Nat × Nat => memKey d 1 (spBase c + a) + q.1 ≤ b ∧ b < memKey d 1 (spBase c + a) + q.1 + q.2) p runs
    by_cases hrest : ∃ p ∈ runs, memKey d 1 (spBase c + a) + p.1 ≤ b ∧ b < memKey d 1 (spBase c + a) + p.1 + p.2
    · rw [if_pos hrest, if_pos (hcons.mpr (Or.inr hrest))]
    · rw [if_neg hrest]
      by_cases hp : memKey d 1 (spBase c + a) + p.1 ≤ b ∧ b < memKey d 1 (spBase c + a) + p.1 + p.2
      · rw [if_pos hp, if_pos (hcons.mpr (Or.inl hp)), hv _ (by omega)]
        congr 1
        omega
      · rw [if_neg hp, if_neg (fun h => (hcons.mp h).elim hp hrest)]

/-- Writes at core-local addresses leave every core as it was. -/
theorem State.writeRuns_core (d : DieIx) (c : CoreIx) (a : Nat) (runs : List (Nat × Nat)) (bytes : Nat × Nat → List Byte)
    (marks : Nat × Nat → List Bool) (s : State) :
    (runs.foldl (fun u p => u.memWrite (u.kernelAccess d c) d 1 (localOff c (a + p.1)) (bytes p) (marks p)) s).core d c = s.core d c :=
  (Spares.foldl (hi := False) runs (fun _ _ => (State.memWrite_spares ..).weaken) s).core d c

/-! ### Elements of a store -/

/-- What a store writes of a clean register element. -/
def storeBits (r : RegType) (f : Fmt) (mode : Rnd) (g : Gen) (e : VEl) : Nat :=
  if sameType r f then e.bits else (encodeScalar f mode (regVal r e.bits) g).bits

/-- Clean elements of a store are each converted by themselves, where rounding draws no bits. -/
theorem storeEls_clean (r : RegType) (f : Fmt) {mode : Rnd} (hmode : mode ≠ .sr) (g : Gen) {l : List VEl} (hl : ∀ e ∈ l, e.bad = false) (j : Gen) :
    (storeEls r f mode l j).1.map (fun q => q.1.bits) = l.map (storeBits r f mode g) := by
  induction l generalizing j with
  | nil => rfl
  | cons e l ih =>
    obtain ⟨he, hl⟩ := List.forall_mem_cons.mp hl
    rw [storeEls, if_neg (by simp [he])]
    refine List.cons_eq_cons.mpr ⟨?_, ih hl _⟩
    rw [storeBits]
    split
    · rfl
    · rw [encodeScalar_gen f hmode _ j g]

/-- The bytes of a run of a store of elements. -/
theorem flatMap_filter_leBytes {l : List (Nat × Enc × Bool)} {idx : List Nat} {val : Nat → Nat}
    (hl : l.map (fun e => (e.1, e.2.1.bits)) = idx.map (fun i => (i, val i))) (n : Nat) (q : Nat → Bool) :
    (l.filter (fun e => q e.1)).flatMap (fun e => leBytes n e.2.1.bits) = (idx.filter q).flatMap (fun i => leBytes n (val i)) := by
  have h := congrArg (fun m => (m.filter (fun e : Nat × Nat => q e.1)).flatMap (fun e => leBytes n e.2)) hl
  simpa only [List.filter_map, List.flatMap_map, Function.comp_def] using h

/-- A store of scalar elements at rising indices sets their bytes alone. -/
theorem State.vstore_cells (s : State) (d : DieIx) (c : CoreIx) {f : Fmt} (hf : f.isBlock = false) (a : Nat) {l : List (Nat × Enc × Bool)}
    {idx : List Nat} {val : Nat → Nat} (hl : l.map (fun e => (e.1, e.2.1.bits)) = idx.map (fun i => (i, val i))) (hsorted : idx.Pairwise (· < ·))
    (b : Nat) :
    SMap.get 0 (s.vstore d c f a l).mem.cells b =
      if memKey d 1 (spBase c + a) ≤ b ∧ (b - memKey d 1 (spBase c + a)) / f.elemBytes ∈ idx then
        BitVec.ofNat 8 (val ((b - memKey d 1 (spBase c + a)) / f.elemBytes) / 256 ^ ((b - memKey d 1 (spBase c + a)) % f.elemBytes))
      else SMap.get 0 s.mem.cells b := by
  have hpos := Fmt.elemBytes_pos hf
  have hidx : l.map (fun e => e.1) = idx := by
    have h := congrArg (List.map Prod.fst) hl
    simpa only [List.map_map, Function.comp_def, List.map_id'] using h
  have hbytes : ∀ p ∈ joinRuns (elPlaces f idx),
      (l.filter (fun e => decide (p.1 ≤ e.1 * f.elemBytes) && decide (e.1 * f.elemBytes < p.1 + p.2))).flatMap
          (fun e => leBytes f.elemBytes e.2.1.bits) =
        (List.range' (p.1 / f.elemBytes) (p.2 / f.elemBytes)).flatMap (fun i => leBytes f.elemBytes (val i)) := fun p hp => by
    rw [flatMap_filter_leBytes hl f.elemBytes (fun i => decide (p.1 ≤ i * f.elemBytes) && decide (i * f.elemBytes < p.1 + p.2)),
      (run_indices hf hsorted hp).2.2]
  rw [State.vstore, hidx]
  refine (State.writeRuns_cells d c a _ _ (val := fun x => BitVec.ofNat 8 (val (x / f.elemBytes) / 256 ^ (x % f.elemBytes))) (fun p hp => ?_)
    (fun p hp x hx => ?_) s b).trans (if_congr ?_ rfl rfl)
  · rw [hbytes p hp, length_flatMap_leBytes, List.length_range', ← (run_indices hf hsorted hp).1]
  · obtain ⟨hlen, hstart, -⟩ := run_indices hf hsorted hp
    rw [hbytes p hp, getD_flatMap_leBytes hpos val (by rwa [← hlen])]
    have hsplit : p.1 + x = x + f.elemBytes * (p.1 / f.elemBytes) := by rw [Nat.mul_comm, ← hstart, Nat.add_comm]
    rw [hsplit, Nat.add_mul_div_left _ _ hpos, Nat.add_mul_mod_self_left, Nat.add_comm (p.1 / f.elemBytes)]
  · rw [← runs_cover hf]
    constructor
    · rintro ⟨p, hp, hlo, hhi⟩
      exact ⟨by omega, p, hp, by omega, by omega⟩
    · rintro ⟨hle, p, hp, hlo, hhi⟩
      exact ⟨p, hp, by omega, by omega⟩

theorem State.vstore_core (s : State) (d : DieIx) (c : CoreIx) (f : Fmt) (a : Nat) (l : List (Nat × Enc × Bool)) :
    (s.vstore d c f a l).core d c = s.core d c := State.writeRuns_core d c a _ _ _ s

end Sys2Proof.Machine
end

section
/-! PROOF. Vector loads and stores (R53, R146, R156 to R158). -/

namespace Sys2Proof.Machine

/-- Elements beside what is stored of them. -/
theorem map_zip_bits {idx : List Nat} {l : List (Enc × Bool)} {val : Nat → Nat} (h : l.map (fun q => q.1.bits) = idx.map val) :
    (idx.zip l).map (fun e => (e.1, e.2.1.bits)) = idx.map (fun i => (i, val i)) := by
  have hzip := List.zip_map_right (l₁ := idx) (l₂ := l) (f := fun q => q.1.bits)
  rw [h] at hzip
  exact hzip.symm.trans (by simpa using List.zip_map' (f := id) (g := val) (l := idx))

section
variable {s : State} {d : DieIx} {c : CoreIx} {vs rs1 rs2 : Fin 32} {w : Fin 4} {pg : Fin 8} {code : Fin 16} {rt : Bool} {f : Fmt} {r : RegType}
variable (hi : CanIssue s d c) (hf : Fmt.ofCode code = some f) (hr : regType w rt = some r)

/-- What a store leaves of the core: VSTAT and the generator are new. -/
theorem State.core_storeEnd (s : State) {t : State} (d : DieIx) (c : CoreIx) (g : Gen) (flags : DWord) (bad : Bool) (ht : t.core d c = s.core d c) :
    let u := s.conclude d c (.ok ((t.modCore d c (fun x => { x with gen := g, vec := { x.vec with vstat := x.vec.vstat ||| flags } })).vxPoison d c bad))
    u.mem = t.mem ∧ (u.core d c).vec.v = (s.core d c).vec.v
      ∧ (u.core d c).proc = { (s.core d c).proc with pc := (s.core d c).proc.pc + 4, stall := .no } := by
  intro u
  have hx := State.vxPoison_regsOnly
    (t.modCore d c (fun x => { x with gen := g, vec := { x.vec with vstat := x.vec.vstat ||| flags } })) d c bad
  have hcore : u.core d c = Core.setPc { s.core d c with
      gen := g, vec := { (s.core d c).vec with vstat := (s.core d c).vec.vstat ||| flags } } ((s.core d c).proc.pc + 4) := by
    rw [← ht]
    exact (State.core_modCore ..).trans (by rw [hx.core, State.core_modCore, ht])
  exact ⟨hx.mem, by rw [hcore]; rfl, by rw [hcore]; rfl⟩

include hi hf hr

/-- VST of a scalar format with every active element mapped. -/
theorem exec_vst_scalar (hs : Spelt s d c (.vst d c vs rs1 0 w pg code rt false)) (hscalar : f.isBlock = false)
    (hmap : ∀ i, IsActive s d c w pg i → s.elMapped d c rs1 f i = true)
    (hfree : ((s.core d c).getG rs1).toNat + f.rowBytes ((s.core d c).count w) ≤ 0x800000 ∨ s.bankHeld d c = false) :
    let k := s.core d c
    let act := k.active w pg
    let o := storeEls r f k.vround (act.map (fun i => k.el vs w i)) k.gen
    let v := s.vstore d c f (k.getG rs1).toNat (act.zip o.1)
    exec (.vst d c vs rs1 0 w pg code rt false) s = .next (s.conclude d c (.ok (if act.isEmpty then s
      else (v.modCore d c (fun x => { x with gen := o.2.2, vec := { x.vec with vstat := x.vec.vstat ||| o.2.1 } })).vxPoison d c
        (o.1.any (fun e => e.2))))) := by
  intro k act o v
  have hfind : act.find? (fun i => !s.elMapped d c rs1 f i) = none := by
    rw [List.find?_eq_none]
    intro i hi
    simp [hmap i (mem_active.mp hi)]
  have hheld : s.elsHeld d c (k.getG rs1).toNat f act = false := State.elsHeld_free (fun i hi => (mem_active.mp hi).1) hfree
  rw [exec_vinsn rfl hi hs (by rw [vloadFmt_eq hf hr]; rfl)]
  simp only [State.elMapped] at hfind
  simp only [vloadFmt_eq hf hr, hscalar, Bool.false_eq_true, false_and, ne_eq, not_true_eq_false, or_self, and_false, if_false]
  rw [hfind]
  dsimp only
  rw [hheld]
  split <;> rfl

/-- VST of whole groups with every element mapped. -/
theorem exec_vst_block (hs : Spelt s d c (.vst d c vs rs1 rs2 w 0 code rt false)) (hblock : f.isBlock = true) (hcount : 0 < (s.core d c).count w)
    (hmap : ∀ i, i < (s.core d c).count w → s.elMapped d c rs1 f i = true)
    (hfree : ((s.core d c).getG rs1).toNat + f.rowBytes ((s.core d c).count w) ≤ 0x800000 ∨ s.bankHeld d c = false) :
    exec (.vst d c vs rs1 rs2 w 0 code rt false) s = .next (s.conclude d c
      (.ok (s.vstoreBlock d c vs w f r ((s.core d c).getG rs1).toNat none))) := by
  have hfind : ((s.core d c).active w 0).find? (fun i => !s.elMapped d c rs1 f i) = none := by
    rw [List.find?_eq_none]
    intro i hi
    simp [hmap i (mem_active.mp hi).1]
  have hheld : s.elsHeld d c ((s.core d c).getG rs1).toNat f ((s.core d c).active w 0) = false :=
    State.elsHeld_free (fun i hi => (mem_active.mp hi).1) hfree
  have hact : ((s.core d c).active w 0).isEmpty = false := by
    rw [List.isEmpty_eq_false_iff]
    exact List.ne_nil_of_mem (mem_active.mpr ⟨hcount, by simp [Core.pred]⟩)
  rw [exec_vinsn rfl hi hs (by rw [vloadFmt_eq hf hr]; rfl)]
  simp only [State.elMapped] at hfind
  simp only [vloadFmt_eq hf hr, hblock, Bool.false_eq_true, false_and, ne_eq, not_true_eq_false, or_self, and_false, if_false, Bool.not_true]
  rw [hfind]
  dsimp only
  rw [hact, hheld]
  rfl

/-- What VST of a scalar format leaves: the elements' bytes and the frame. -/
theorem exec_vst_scalar_spec (hs : Spelt s d c (.vst d c vs rs1 0 w pg code rt false)) (hscalar : f.isBlock = false) (hmode : (s.core d c).vround ≠ .sr)
    (hmap : ∀ i, IsActive s d c w pg i → s.elMapped d c rs1 f i = true ∧ ((s.core d c).el vs w i).bad = false)
    (hfree : ((s.core d c).getG rs1).toNat + f.rowBytes ((s.core d c).count w) ≤ 0x800000 ∨ s.bankHeld d c = false) :
    let k := s.core d c
    let key := memKey d 1 (spBase c + (k.getG rs1).toNat)
    ∃ t, exec (.vst d c vs rs1 0 w pg code rt false) s = .next t ∧ (t.core d c).vec.v = k.vec.v
      ∧ (t.core d c).proc = { k.proc with pc := k.proc.pc + 4, stall := .no }
      ∧ ∀ b, SMap.get 0 t.mem.cells b =
          if key ≤ b ∧ (b - key) / f.elemBytes ∈ k.active w pg then
            BitVec.ofNat 8 (storeBits r f k.vround k.gen (k.el vs w ((b - key) / f.elemBytes)) / 256 ^ ((b - key) % f.elemBytes))
          else SMap.get 0 s.mem.cells b := by
  intro k key
  refine ⟨_, exec_vst_scalar hi hf hr hs hscalar (fun i hi => (hmap i hi).1) hfree, ?_⟩
  split
  · rename_i hempty
    have hnil : k.active w pg = [] := List.isEmpty_iff.mp hempty
    rw [hnil, State.conclude, State.core_modCore]
    exact ⟨rfl, rfl, fun b => by rw [if_neg (fun h => List.not_mem_nil h.2)]; rfl⟩
  · have hclean : ∀ e ∈ (k.active w pg).map (fun i => k.el vs w i), e.bad = false := fun e he => by
      obtain ⟨i, hi, rfl⟩ := List.mem_map.mp he
      exact (hmap i (mem_active.mp hi)).2
    have hbits := storeEls_clean r f hmode k.gen hclean k.gen
    rw [List.map_map] at hbits
    obtain ⟨hmem, hv, hproc⟩ := s.core_storeEnd d c (storeEls r f k.vround ((k.active w pg).map (fun i => k.el vs w i)) k.gen).2.2
      (storeEls r f k.vround ((k.active w pg).map (fun i => k.el vs w i)) k.gen).2.1
      ((storeEls r f k.vround ((k.active w pg).map (fun i => k.el vs w i)) k.gen).1.any (fun e => e.2)) (s.vstore_core d c f (k.getG rs1).toNat _)
    refine ⟨hv, hproc, fun b => ?_⟩
    rw [hmem]
    exact s.vstore_cells d c hscalar _ (map_zip_bits hbits) (sorted_active ..) b

/-- What VST of whole groups leaves: the row's bytes and the vector registers. -/
theorem exec_vst_block_spec (hs : Spelt s d c (.vst d c vs rs1 rs2 w 0 code rt false)) (hblock : f.isBlock = true)
    (hcount : 0 < (s.core d c).count w) (hmap : ∀ i, i < (s.core d c).count w → s.elMapped d c rs1 f i = true)
    (hfree : ((s.core d c).getG rs1).toNat + f.rowBytes ((s.core d c).count w) ≤ 0x800000 ∨ s.bankHeld d c = false) :
    let k := s.core d c
    let row := encodeRow f k.vround none ((List.range (k.count w)).map (fun i =>
      ⟨(k.el vs w i).bits, regVal r (k.el vs w i).bits, (k.el vs w i).bad⟩)) k.gen
    ∃ t, exec (.vst d c vs rs1 rs2 w 0 code rt false) s = .next t ∧ (t.core d c).vec.v = k.vec.v
      ∧ t.mem.cells = pokeCells s.mem.cells (memKey d 1 (spBase c + (k.getG rs1).toNat)) row.bytes := by
  intro k row
  obtain ⟨hmem, hv, -⟩ := s.core_storeEnd d c row.gen (vflags ⟨0, 0, row.flags, row.gen⟩ true) row.poisoned
    ((s.memWrite_spares (s.kernelAccess d c) d 1 (localOff c (k.getG rs1).toNat) row.bytes row.poison).core d c)
  refine ⟨_, exec_vst_block hi hf hr hs hblock hcount hmap hfree, hv, ?_⟩
  exact (congrArg Mem.cells hmem).trans (State.memWrite_cells ..)

end

end Sys2Proof.Machine
end

section
open Sys2Proof Sys2Proof.Machine
open Host (Outcome)

/-- Settles O18: loads by `exec_vld_mapped`, `exec_vld_unmapped`, `exec_vldff_mapped` and `exec_vldff_unmapped`, stores by the bytes that
their runs write. -/
theorem vectorLoadsAndStores : Obligations.VectorLoadsAndStores := by
  unfold Obligations.VectorLoadsAndStores
  intro s d c vd rs1 rs2 w pg code rt f r hi _ hf hr hmode k a e0 key n mapped value free hrs2 hmark
  refine ⟨fun hs hfree hmap => ?_, fun hs i hact hmap hbelow => ?_, fun hs m hfree hpos hle hbelow hat => ?_, fun hs hcount hmap => ?_,
    fun hs hscalar hfree hmap => ?_, fun hs hblock hfree hcount hmap => ?_⟩
  · exact exec_vld_mapped hi hf hr hmode hmark hfree hs hrs2 hmap
  · exact exec_vld_unmapped hi hf hr hs hrs2 hact (Bool.eq_false_iff.mpr hmap) hbelow
  · exact exec_vldff_mapped hi hf hr hs hmode hmark hfree hpos hle hbelow (fun h => Bool.eq_false_iff.mpr (hat h))
  · exact exec_vldff_unmapped hi hf hr hs hcount (Bool.eq_false_iff.mpr hmap)
  · have hpos := Fmt.elemBytes_pos hscalar
    have hn : n = f.rowBytes (k.count w) := by simp only [n, e0, hscalar, Bool.false_eq_true, if_false, Nat.add_zero]
    obtain ⟨t, hexec, hv, hproc, hcells⟩ := exec_vst_scalar_spec hi hf hr hs hscalar hmode hmap (hn ▸ hfree)
    change ∀ b, _ = if key ≤ b ∧ (b - key) / _ ∈ _ then BitVec.ofNat 8 (_ / 256 ^ ((b - key) % _)) else _ at hcells
    refine ⟨t, hexec, hv, hproc, fun i b hcount hb => ?_, fun b hout => ?_⟩
    · have hoff : key + i * f.elemBytes + b - key = b + f.elemBytes * i := by rw [Nat.mul_comm]; omega
      have hel : (b + f.elemBytes * i) / f.elemBytes = i := by rw [Nat.add_mul_div_left _ _ hpos, Nat.div_eq_of_lt hb, Nat.zero_add]
      have hbyte : (b + f.elemBytes * i) % f.elemBytes = b := by rw [Nat.add_mul_mod_self_left, Nat.mod_eq_of_lt hb]
      rw [hcells, hoff, hel, hbyte, show (256 : Nat) = 2 ^ 8 from rfl, ← pow_mul, storeBits]
      refine if_congr ?_ rfl rfl
      rw [mem_active, and_iff_right (by omega), and_iff_right hcount]
    · rw [hcells, if_neg]
      rintro ⟨hle, hmem⟩
      have hlt : b - key < k.count w * f.elemBytes := (Nat.div_lt_iff_lt_mul hpos).mp (mem_active.mp hmem).1
      omega
  · have hn : f.rowBytes (k.count w) ≤ n := f.rowBytes_mono (Nat.le_add_right ..)
    have hfree' : a + f.rowBytes (k.count w) ≤ 0x800000 ∨ s.bankHeld d c = false := hfree.imp_left (fun h => by omega)
    intro row
    obtain ⟨t, hexec, hv, hcells⟩ := exec_vst_block_spec hi hf hr hs hblock hcount hmap hfree'
    refine ⟨t, hexec, hv, fun b hb => ?_, fun b hout => ?_⟩
    · rw [hcells]
      exact get_pokeCells_at _ _ _ hb
    · rw [hcells]
      exact get_pokeCells_off _ _ _ hout

end

section
/-! PROOF. Completion ring registers (R93, R105 to R108). -/

namespace Sys2Proof.Machine

/-- A queue is idle where nothing waits, is held back or runs in it. -/
theorem State.queueIdle_iff (s : State) (d : DieIx) (q : QId) :
    s.queueIdle d q = true ↔ (s.queue d q).entries = [] ∧ (s.queue d q).backlog = [] ∧ (s.queue d q).running = [] := by
  simp [State.queueIdle, and_assoc]

end Sys2Proof.Machine
end

section
open Sys2Proof Sys2Proof.Machine
open Host (Outcome)

/-- Settles O3: each write is judged by the queue's state or by the records between its TAIL and HEAD. -/
theorem completionRingWrites : Obligations.CompletionRingWrites := by
  intro s d c a v hready ptr idle
  have hidle : s.queueIdle d (.core c) = true ↔ idle := s.queueIdle_iff d (.core c)
  have hbase : exec (.coreCrBase d c a) s = .next (s.ringBase d (.core c) a) :=
    exec_onDie (k := fun t => t.ringBase d (.core c) a) rfl hready
  have hctl : exec (.coreCrCtl d c v) s = .next (s.ringCtl d (.core c) v) :=
    exec_onDie (k := fun t => t.ringCtl d (.core c) v) rfl hready
  have hptr : exec (.coreCrPtr d c v) s = .next (s.ringTail d (.core c) v) :=
    exec_onDie (k := fun t => t.ringTail d (.core c) v) rfl hready
  refine ⟨fun h => ?_, fun h => ?_, fun hsize => ⟨fun h => ?_, fun h => ?_⟩, fun h => ?_, fun h => ?_⟩
  · rw [hbase, State.ringBase, if_pos (hidle.mpr h)]
    rfl
  · rw [hbase, State.ringBase, if_neg (mt hidle.mp h)]
    rfl
  · rw [hctl, State.ringCtl, if_neg (by omega), if_pos (hidle.mpr h)]
    rfl
  · rw [hctl, State.ringCtl, if_neg (by omega), if_neg (mt hidle.mp h)]
    rfl
  · rw [hptr]
    exact congrArg _ (if_neg (Nat.not_lt.mpr h))
  · rw [hptr]
    exact congrArg _ (if_pos h)

end

section
/-! PROOF. Branches and calls (R76, R77). -/

namespace Sys2Proof.Machine

/-- An offset counts instructions of four bytes. -/
theorem shiftLeft_two_eq_ofInt {n : Nat} (x : BitVec n) : x.signExtend 64 <<< 2 = BitVec.ofInt 64 (4 * x.toInt) := by
  have h : x.signExtend 64 = BitVec.ofInt 64 x.toInt := rfl
  rw [h, BitVec.shiftLeft_eq_mul_twoPow, mul_comm, BitVec.ofInt_mul]
  rfl

end Sys2Proof.Machine
end

section
open Sys2Proof Sys2Proof.Machine
open Host (Outcome)

/-- Settles O7. -/
theorem branchesAndCalls : Obligations.BranchesAndCalls := by
  intro s d c cond rd rs1 rs2 off far hf k a b holds
  have htaken : brTaken cond a b = true ↔ holds := by
    cases cond <;> simp [brTaken, holds, BitVec.slt, BitVec.ult]
  refine ⟨fun hs => ⟨fun h => ?_, fun h => ?_⟩, fun hs => ?_, fun hs => ?_⟩
  · rw [exec_insn rfl hf hs]
    dsimp only
    rw [if_pos (htaken.mpr h), shiftLeft_two_eq_ofInt]
    rfl
  · rw [exec_insn rfl hf hs]
    dsimp only
    rw [if_neg (mt htaken.mp h)]
    rfl
  · rw [exec_insn rfl hf hs, shiftLeft_two_eq_ofInt]
    simp [State.conclude, State.modCore, k]
  · rw [exec_insn rfl hf hs]
    simp [State.conclude, State.modCore, k, a]

end

section
/-! PROOF. The state after reset (R103, R106, R137, R167, R218, R274, R391, R423, R424, R448, R520, R528). -/

open Sys2Proof Sys2Proof.Machine

/-- Settles O58. -/
theorem resetState : Obligations.ResetState := by
  refine ⟨by decide, rfl, rfl, ?_⟩
  decide +kernel

end

section
/-! PROOF. Integer instructions (R75 to R77). -/

namespace Sys2Proof.Machine

/-! ### The write of a g register (R75) -/

/-- The register that is written is no other part of its core. -/
theorem Core.setG_frame (k : Core) (rd : Fin 32) (v : DWord) :
    k.setG rd v = { k with proc := { k.proc with g := (k.setG rd v).proc.g, bad := (k.setG rd v).proc.bad } } := by
  unfold Core.setG
  split <;> rfl

/-- A write clears the mark of its own register alone, and g0 has none to clear. -/
theorem Core.bad_setG (k : Core) (r rd : Fin 32) (v : DWord) :
    (k.setG rd v).proc.bad.getLsbD r = (k.proc.bad.getLsbD r && !(decide (r = rd) && decide (rd ≠ 0))) := by
  unfold Core.setG
  split
  · next h => simp [h]
  · next h =>
    by_cases hr : r = rd
    · subst hr
      have hclear : (setBit k.proc.bad r.val false).getLsbD r = false := bitAt_setBit k.proc.bad false r.isLt
      rw [hclear, decide_eq_true rfl, decide_eq_true h, Bool.and_self, Bool.not_true, Bool.and_false]
    · have hkeep := bitAt_setBit_ne k.proc.bad false (fun he : r.val = rd.val => hr (Fin.ext he))
      rw [bitAt, bitAt] at hkeep
      rw [hkeep, decide_eq_false hr, Bool.false_and, Bool.not_false, Bool.and_true]

/-! ### Results (R77) -/

theorem boolWord_eq_ite {p : Prop} [Decidable p] {b : Bool} (h : b = true ↔ p) : boolWord b = if p then 1 else 0 := if_congr h rfl rfl

/-- A product of two signed words, its lower half as the word product, its upper half as a signed word. -/
theorem toInt_mulh_add (a b : DWord) :
    (BitVec.ofInt 64 (a.toInt * b.toInt / 2 ^ 64)).toInt * 2 ^ 64 + ((a * b).toNat : Int) = a.toInt * b.toInt := by
  have hlow : ((a * b).toNat : Int) = a.toInt * b.toInt % 2 ^ 64 := by
    rw [← BitVec.ofInt_toInt (x := a), ← BitVec.ofInt_toInt (x := b), ← BitVec.ofInt_mul, BitVec.toNat_ofInt]
    simp only [BitVec.ofInt_toInt]
    exact Int.toNat_of_nonneg (Int.emod_nonneg _ (by decide))
  have ha := BitVec.toInt_lt (x := a)
  have ha' := BitVec.le_toInt (x := a)
  have hb := BitVec.toInt_lt (x := b)
  have hb' := BitVec.le_toInt (x := b)
  have habs : |a.toInt * b.toInt| ≤ 2 ^ 63 * 2 ^ 63 := by
    rw [abs_mul]
    exact mul_le_mul (abs_le.mpr ⟨by omega, by omega⟩) (abs_le.mpr ⟨by omega, by omega⟩) (abs_nonneg _) (by decide)
  obtain ⟨hlo, hhi⟩ := abs_le.mp habs
  have hfit : (BitVec.ofInt 64 (a.toInt * b.toInt / 2 ^ 64)).toInt = a.toInt * b.toInt / 2 ^ 64 := by
    rw [BitVec.toInt_ofInt]
    exact Int.bmod_eq_of_le (by omega) (by omega)
  rw [hlow, hfit, mul_comm]
  exact Int.mul_ediv_add_emod _ _

/-- The same of unsigned words. -/
theorem toNat_mulhu_add (a b : DWord) :
    (BitVec.ofNat 64 (a.toNat * b.toNat / 2 ^ 64)).toNat * 2 ^ 64 + (a * b).toNat = a.toNat * b.toNat := by
  have hlt : a.toNat * b.toNat / 2 ^ 64 < 2 ^ 64 := Nat.div_lt_of_lt_mul (Nat.mul_lt_mul'' a.isLt b.isLt)
  rw [BitVec.toNat_ofNat, Nat.mod_eq_of_lt hlt, BitVec.toNat_mul, mul_comm]
  exact Nat.div_add_mod _ _

/-- The quotient that a word cannot hold is the only one but that of 0 whose value is not the operation's. -/
theorem intOp_div_fits {a b : DWord} (hb : b ≠ 0) (h : ¬ (a = 0x8000000000000000 ∧ b = 0xFFFFFFFFFFFFFFFF)) :
    (intOp .div a b).toInt = a.toInt.tdiv b.toInt := by
  have hcorner : ¬ (b = 0 ∨ (a = BitVec.ofNat 64 (2 ^ 63) ∧ b.toInt = -1)) := by
    rintro (h0 | ⟨ha, hm⟩)
    · exact hb h0
    · exact h ⟨ha, BitVec.eq_of_toInt_eq hm⟩
  have hfit : a ≠ BitVec.intMin 64 ∨ b ≠ -1#64 := by
    by_contra hc
    rw [not_or, not_not, not_not] at hc
    exact h hc
  rw [intOp, if_neg hcorner]
  exact BitVec.toInt_sdiv_of_ne_or_ne a b hfit

end Sys2Proof.Machine
end

section
open Sys2Proof Sys2Proof.Machine
open Host (Outcome)

/-- Settles O5. -/
theorem integerInstructionResults : Obligations.IntegerInstructionResults := by
  refine ⟨fun s d c op rd rs1 rs2 i hf => ?_, fun k r rd v => ⟨?_, if_pos rfl, k.setG_frame rd v, k.bad_setG r rd v⟩, fun a b => ?_⟩
  · intro k done
    refine ⟨fun hs => ?_, fun hs => ?_⟩ <;>
      · rw [exec_insn rfl hf hs]
        simp [State.conclude, State.modCore, State.intSrc, done, k]
  · by_cases hr : r = rd
    · subst hr
      simp
    · rw [Core.getG_setG_ne k v hr, if_neg hr, Core.getG]
      split <;> rfl
  · refine ⟨BitVec.toNat_add a b, BitVec.sub_add_cancel a b, boolWord_eq_ite (by simp [BitVec.slt]), boolWord_eq_ite (by simp [BitVec.ult]),
      boolWord_eq_ite beq_iff_eq, toInt_mulh_add a b, toNat_mulhu_add a b, fun hb => ?_, fun hb => ?_, fun hb h => ⟨intOp_div_fits hb h, ?_⟩⟩
    · simp only [intOp, if_pos hb]
      rw [BitVec.toNat_shiftLeft, Nat.shiftLeft_eq, BitVec.toNat_ushiftRight, Nat.shiftRight_eq_div_pow, BitVec.toInt_sshiftRight,
        Int.shiftRight_eq_div_pow]
      exact ⟨rfl, rfl, rfl⟩
    · have hpos : 0 < b.toNat := Nat.pos_of_ne_zero (fun h => hb (BitVec.eq_of_toNat_eq h))
      simp only [intOp, if_neg hb]
      rw [BitVec.toNat_udiv, BitVec.toNat_umod]
      exact ⟨Nat.div_add_mod' _ _, Nat.mod_lt _ hpos⟩
    · simp only [intOp, if_neg hb]
      exact BitVec.toInt_srem a b

end

section
/-! PROOF. Scalar loads and stores (R77, R78, R143). -/

namespace Sys2Proof.Machine

/-! ### Extension (R78) -/

/-- Ones above a value whose top bit is set are its sign extension. -/
theorem setFld_allOnes_eq_signExtend {w v : Nat} (h : (BitVec.ofNat w v).msb = true) :
    setFld (BitVec.allOnes 64) 0 w v = (BitVec.ofNat w v).signExtend 64 := by
  refine BitVec.eq_of_getLsbD_eq fun i hi => ?_
  rw [getLsbD_setFld, BitVec.getLsbD_signExtend, h]
  by_cases hlt : i < w
  · rw [BitVec.getLsbD_ofNat]
    simp [hi, hlt]
  · rw [BitVec.getLsbD_allOnes]
    simp [hi, hlt]

/-- The value that a load into a g register extends to 64 bits. -/
theorem extendLoad_int (size : Fin 4) (signed : Bool) (free : DWord) (v : Nat) :
    extendLoad size.val false signed free v =
      if signed && (BitVec.ofNat (8 * 2 ^ size.val) v).msb then BitVec.ofInt 64 (BitVec.ofNat (8 * 2 ^ size.val) v).toInt else BitVec.ofNat 64 v := by
  unfold extendLoad
  dsimp only
  by_cases hwide : 8 * 2 ^ size.val ≥ 64
  · obtain rfl : size = 3 := by revert size; decide
    have hself : BitVec.ofInt 64 (BitVec.ofNat (8 * 2 ^ (3 : Fin 4).val) v).toInt = BitVec.ofNat 64 v := BitVec.ofInt_toInt
    rw [if_pos hwide, hself, ite_self]
  · have hpos : 0 < 8 * 2 ^ size.val := by positivity
    have hmsb : bitAt (BitVec.ofNat 64 v) (8 * 2 ^ size.val - 1) = (BitVec.ofNat (8 * 2 ^ size.val) v).msb := by
      rw [BitVec.msb_eq_getLsbD_last, bitAt, BitVec.getLsbD_ofNat, BitVec.getLsbD_ofNat, decide_eq_true (by omega), decide_eq_true (by omega)]
    rw [if_neg hwide, hmsb]
    simp only [Bool.false_eq_true, if_false]
    refine ite_congr rfl (fun h => ?_) (fun _ => rfl)
    exact setFld_allOnes_eq_signExtend (Bool.and_eq_true_iff.mp h).2

/-- The low bits of a load into an f register are those of the value; what stands above is free. -/
theorem extendLoad_fp (size : Fin 4) (signed : Bool) (free : DWord) {v : Nat} (hv : v < 2 ^ (8 * 2 ^ size.val)) :
    (extendLoad size.val true signed free v).toNat % 2 ^ (8 * 2 ^ size.val) = v := by
  unfold extendLoad
  dsimp only
  by_cases hwide : 8 * 2 ^ size.val ≥ 64
  · obtain rfl : size = 3 := by clear hv; revert size; decide
    rw [if_pos hwide, BitVec.toNat_ofNat]
    exact (Nat.mod_mod _ _).trans (Nat.mod_eq_of_lt hv)
  · have hfld := fld_setFld_same free (lo := 0) (len := 8 * 2 ^ size.val) v (by omega)
    rw [Nat.mod_eq_of_lt hv, fld, Nat.pow_zero, Nat.div_one] at hfld
    rw [if_neg hwide]
    exact hfld

/-! ### The access (R78, R79) -/

/-- Unmarked bytes at a core-local address read as stored and clean, and no controller counts them. -/
theorem State.memRead_local {s : State} {d : DieIx} {c : CoreIx} {a n : Nat} (hm : s.marksIn 1 (memKey d 1 (spBase c + a)) n = []) :
    s.memRead (s.kernelAccess d c) d 1 (localOff c a) n = ⟨s.peek (memKey d 1 (spBase c + a)) n, List.replicate n false, s⟩ := by
  rw [localOff, State.memRead_unmarked rfl hm]
  rfl

section

variable {s : State} {d : DieIx} {c : CoreIx} {size : Fin 4} {fp : Bool} {r rs1 : Fin 32} {off : BitVec 16}

/-- A load of aligned and mapped bytes without marks puts them, extended, into its register. -/
theorem exec_scalarLoad {signed : Bool} (hf : CanFetch s d c) (hs : Spelt s d c (.scalarLoad d c size fp signed r rs1 off))
    (halign : s.memAddr d c rs1 off % 2 ^ size.val = 0) (hmap : localMapped (s.memAddr d c rs1 off) (2 ^ size.val) = true)
    (hbank : ¬ (s.memAddr d c rs1 off ≥ 0x800000 ∧ s.bankHeld d c = true))
    (hmark : s.marksIn 1 (memKey d 1 (spBase c + s.memAddr d c rs1 off)) (2 ^ size.val) = []) :
    let v := extendLoad size.val fp signed s.free (leNat (s.peek (memKey d 1 (spBase c + s.memAddr d c rs1 off)) (2 ^ size.val)))
    exec (.scalarLoad d c size fp signed r rs1 off) s = .next (s.conclude d c (.ok
      (if fp then (s.modCore d c (fun k => k.setF r v)).drawFree else s.modCore d c (fun k => k.setG r v)))) := by
  rw [exec_insn rfl hf hs]
  simp only [halign, hmap, hbank, State.memRead_local hmark, List.any_replicate]
  simp

/-- A store to aligned and mapped bytes writes the low bytes of its register. -/
theorem exec_scalarStore (hf : CanFetch s d c) (hs : Spelt s d c (.scalarStore d c size fp r rs1 off))
    (halign : s.memAddr d c rs1 off % 2 ^ size.val = 0) (hmap : localMapped (s.memAddr d c rs1 off) (2 ^ size.val) = true)
    (hbank : ¬ (s.memAddr d c rs1 off ≥ 0x800000 ∧ s.bankHeld d c = true)) (hclean : fp = true → (s.core d c).vec.poison[r].getLsbD 0 = false) :
    exec (.scalarStore d c size fp r rs1 off) s = .next (s.conclude d c (.ok (s.memWrite (s.kernelAccess d c) d 1 (localOff c (s.memAddr d c rs1 off))
      (leBytes (2 ^ size.val) (if fp then (s.core d c).getF r else (s.core d c).getG r).toNat) (List.replicate (2 ^ size.val) false)))) := by
  have hfault : ¬ (fp = true ∧ bitAt (s.core d c).vec.poison[r] 0 = true) := fun ⟨h, hbad⟩ => by
    rw [bitAt, hclean h] at hbad
    exact Bool.false_ne_true hbad
  rw [exec_insn rfl hf hs]
  simp only [halign, hmap, hbank, hfault]
  simp

/-- The bytes that a store writes stand at its address, and everything else but the program counter is as it was. -/
theorem State.stored_spec (s : State) (d : DieIx) (c : CoreIx) (a n v : Nat) :
    let t := s.conclude d c (.ok (s.memWrite (s.kernelAccess d c) d 1 (localOff c a) (leBytes n v) (List.replicate n false)))
    let key := memKey d 1 (spBase c + a)
    (∀ i, i < n → SMap.get 0 t.mem.cells (key + i) = BitVec.ofNat 8 (v / 2 ^ (8 * i)))
      ∧ (∀ b, (b < key ∨ key + n ≤ b) → SMap.get 0 t.mem.cells b = SMap.get 0 s.mem.cells b)
      ∧ t.core d c = (s.core d c).setPc ((s.core d c).proc.pc + 4) ∧ (∀ j : CoreIx, j ≠ c → t.core d j = s.core d j) := by
  intro t key
  have hspares := s.memWrite_spares (s.kernelAccess d c) d 1 (localOff c a) (leBytes n v) (List.replicate n false)
  have hcells : t.mem.cells = pokeCells s.mem.cells key (leBytes n v) := State.memWrite_cells ..
  refine ⟨fun i hi => ?_, fun b hb => ?_, ?_, fun j hj => ?_⟩
  · rw [hcells, get_pokeCells_at _ _ _ (by rwa [length_leBytes]), getD_leBytes v hi, pow_mul]
    rfl
  · rw [hcells, get_pokeCells_off _ _ _ (by rwa [length_leBytes])]
  · refine (State.core_modCore ..).trans ?_
    rw [hspares.core d c]
  · rw [← hspares.core d j]
    exact State.core_modCore_ne _ _ _ hj

end

end Sys2Proof.Machine
end

section
open Sys2Proof Sys2Proof.Machine
open Host (Outcome)

/-- Settles O6. -/
theorem scalarMemoryAccess : Obligations.ScalarMemoryAccess := by
  intro s d c size signed r rs1 off hf k a n key v x halign hrange hmark
  have hmap : localMapped a n = true := by
    rcases hrange with h | ⟨hlo, hhi, -⟩
    · simp [localMapped, h]
    · simp [localMapped, hlo, hhi]
  have hbank : ¬ (a ≥ 0x800000 ∧ s.bankHeld d c = true) := by
    rintro ⟨hge, hheld⟩
    rcases hrange with h | ⟨-, -, hfree⟩
    · exact absurd ((Nat.le_add_right a n).trans h) (by omega)
    · rw [hfree] at hheld
      exact Bool.false_ne_true hheld
  have hv : v < 2 ^ (8 * n) := by
    have h := leNat_lt ((List.range n).map (fun i => SMap.get 0 s.mem.cells (key + i)))
    rw [List.length_map, List.length_range] at h
    rwa [pow_mul]
  refine ⟨fun hs => ?_, fun hs => ?_, fun hs => ?_, fun hs hclean => ?_⟩
  · refine (exec_scalarLoad hf hs halign hmap hbank hmark).trans ?_
    have hx : extendLoad size.val false signed s.free v = x := extendLoad_int size signed s.free v
    change Outcome.next (s.conclude d c (.ok (s.modCore d c (fun k => k.setG r (extendLoad size.val false signed s.free v))))) = _
    rw [hx]
    simp [State.conclude, State.modCore, k]
  · let w := extendLoad size.val true signed s.free v
    let t := s.conclude d c (.ok (s.modCore d c (fun k => k.setF r w)).drawFree)
    have hcore : t.core d c = (k.setF r w).setPc (k.proc.pc + 4) := by simp [t, State.conclude, State.core_drawFree, k]
    obtain ⟨-, hget, hlow, hpoison, hothers, -⟩ := k.setF_spec r w
    refine ⟨t, exec_scalarLoad hf hs halign hmap hbank hmark, ?_⟩
    rw [hcore]
    exact ⟨(congrArg (fun u : DWord => u.toNat % 2 ^ (8 * n)) hget).trans (extendLoad_fp size signed s.free hv), hlow, hpoison, hothers, rfl, rfl⟩
  · exact ⟨_, exec_scalarStore hf hs halign hmap hbank (fun h => nomatch h), s.stored_spec d c a n (k.getG r).toNat⟩
  · obtain ⟨hin, hout, hcore, -⟩ := s.stored_spec d c a n (k.getF r).toNat
    exact ⟨_, exec_scalarStore hf hs halign hmap hbank (fun _ => hclean), hin, hout, hcore⟩

end

section
/-! LEMMAS. Work on the dies: what changes no part of the state but the dies, the memories of the module and the free values drawn. -/

namespace Sys2Proof.Machine

/-- From s to t only dies, the module's memories and the number of free values drawn have changed. -/
def DieWork (s t : State) : Prop := ∃ dies mem draws, t = { s with dies := dies, mem := mem, draws := draws }

namespace DieWork

variable {s t u : State}

theorem refl (s : State) : DieWork s s := ⟨s.dies, s.mem, s.draws, rfl⟩

theorem trans (h : DieWork s t) (k : DieWork t u) : DieWork s u := by
  obtain ⟨a, b, n, rfl⟩ := h
  obtain ⟨x, y, m, rfl⟩ := k
  exact ⟨x, y, m, rfl⟩

theorem foldl {α : Type} {f : State → α → State} (l : List α) (h : ∀ v x, DieWork v (f v x)) (s : State) : DieWork s (l.foldl f s) :=
  fold_inv (DieWork s) f l s (refl s) (fun v x hv => hv.trans (h v x))

theorem ite {c : Prop} [Decidable c] (h : DieWork s t) (k : DieWork s u) : DieWork s (if c then t else u) := by
  split <;> assumption

theorem fuses (h : DieWork s t) : t.fuses = s.fuses := by
  obtain ⟨a, b, n, rfl⟩ := h
  rfl

theorem pelRegs (h : DieWork s t) : t.pelRegs = s.pelRegs := by
  obtain ⟨a, b, n, rfl⟩ := h
  rfl

theorem flash (h : DieWork s t) : t.flash = s.flash := by
  obtain ⟨a, b, n, rfl⟩ := h
  rfl

theorem preg (h : DieWork s t) (off : Nat) : t.preg off = s.preg off := by simp [State.preg, h.fuses, h.pelRegs]

theorem modDie (s : State) (d : DieIx) (f : Die → Die) : DieWork s (s.modDie d f) := ⟨_, _, _, rfl⟩

theorem modCore (s : State) (d : DieIx) (c : CoreIx) (f : Core → Core) : DieWork s (s.modCore d c f) := ⟨_, _, _, rfl⟩

theorem setReg (s : State) (d : DieIx) (off : Nat) (v : Word) : DieWork s (s.setReg d off v) := ⟨_, _, _, rfl⟩

theorem setReg64 (s : State) (d : DieIx) (off : Nat) (v : DWord) : DieWork s (s.setReg64 d off v) := (setReg ..).trans (setReg ..)

theorem setQueue (s : State) (d : DieIx) (q : QId) (x : CmdQueue) : DieWork s (s.setQueue d q x) := by
  obtain ⟨cs, us, h⟩ := s.setQueue_eq d q x
  rw [h]
  exact modDie ..

theorem drawFree (s : State) : DieWork s s.drawFree := ⟨_, _, _, rfl⟩

theorem loseMem (s : State) (key n : Nat) : DieWork s (s.loseMem key n) := ⟨_, _, _, rfl⟩

end DieWork

end Sys2Proof.Machine
end

section
/-! LEMMAS. Work on the queues: what filing records and starting commands leaves alone (R36, R91). -/

namespace Sys2Proof.Machine

/-! ### The heads of the rings (R93) -/

/-- Of a die: whether it is held in reset, its clock, its requests without a reply, and the resets that run. -/
def Die.aside (x : Die) : Bool × Timer × List Outstanding × List ResetRun := (x.held, x.timer, x.outstanding, x.resets)

/-- No completion ring has its pointers at an offset. -/
def OffRings (off : Nat) : Prop := ∀ q : QId, qRing q + 12 ≠ off

theorem offRings_of_place {off : Nat} (h : off % 16 ≠ 12 ∨ off % 256 ≠ 0x8C ∧ off < 0x40000) : OffRings off := by
  intro q
  cases q with
  | core c => simp only [qRing, blkCORE]; omega
  | row k => simp only [qRing, blkROW]; omega
  | _ => rintro rfl; revert h; decide

theorem offRings_rStkCap {n : Nat} (h : n < 4) : OffRings (rStkCap n) ∧ OffRings (rStkCap n + 4) := by
  constructor <;> apply offRings_of_place <;> simp only [rStkCap, blkSTK] <;> omega

/-- From s to t neither what stands aside of a die has changed nor the pointers of a ring. -/
structure KeepsAside (s t : State) : Prop where
  aside : ∀ d, (t.die d).aside = (s.die d).aside
  heads : ∀ d q, t.reg d (qRing q + 12) = s.reg d (qRing q + 12)

namespace KeepsAside

variable {s t u : State}

theorem refl (s : State) : KeepsAside s s := ⟨fun _ => rfl, fun _ _ => rfl⟩

theorem trans (h : KeepsAside s t) (k : KeepsAside t u) : KeepsAside s u :=
  ⟨fun d => (k.aside d).trans (h.aside d), fun d q => (k.heads d q).trans (h.heads d q)⟩

theorem foldl {α : Type} {f : State → α → State} (l : List α) (h : ∀ v x, KeepsAside v (f v x)) (s : State) : KeepsAside s (l.foldl f s) :=
  fold_inv (KeepsAside s) f l s (refl s) (fun v x hv => hv.trans (h v x))

theorem ite {c : Prop} [Decidable c] (h : KeepsAside s t) (k : KeepsAside s u) : KeepsAside s (if c then t else u) := by
  split <;> assumption

theorem held (h : KeepsAside s t) (d : DieIx) : (t.die d).held = (s.die d).held := congrArg Prod.fst (h.aside d)

theorem stroke (h : KeepsAside s t) (d : DieIx) : t.stroke d = s.stroke d := congrArg (fun x => x.2.1.stroke) (h.aside d)

theorem outstanding (h : KeepsAside s t) (d : DieIx) : (t.die d).outstanding = (s.die d).outstanding := congrArg (fun x => x.2.2.1) (h.aside d)

theorem resets (h : KeepsAside s t) (d : DieIx) : (t.die d).resets = (s.die d).resets := congrArg (fun x => x.2.2.2) (h.aside d)

theorem of_dies (h : t.dies = s.dies) : KeepsAside s t := ⟨fun d => by simp [State.die, h], fun d q => by simp [State.reg, State.die, h]⟩

theorem modDie (s : State) (d : DieIx) {f : Die → Die} (ha : ∀ x, (f x).aside = x.aside) (hr : ∀ x, (f x).regs = x.regs) :
    KeepsAside s (s.modDie d f) := by
  refine ⟨fun e => ?_, fun e q => State.reg_modDie _ _ _ _ hr⟩
  by_cases he : e = d
  · subst he
    rw [State.die_modDie, ha]
  · rw [State.die_modDie_ne s d e f he]

theorem setReg (s : State) (d : DieIx) {off : Nat} (v : Word) (h : OffRings off) : KeepsAside s (s.setReg d off v) := by
  refine ⟨fun e => ?_, fun e q => State.reg_setReg_ne s d e v (fun hp => h q hp.2)⟩
  by_cases he : e = d
  · subst he
    simp [State.setReg, Die.setReg, Die.aside]
  · rw [State.setReg, State.die_modDie_ne s d e _ he]

theorem setReg64 (s : State) (d : DieIx) {off : Nat} (v : DWord) (h : OffRings off) (h4 : OffRings (off + 4)) : KeepsAside s (s.setReg64 d off v) :=
  (setReg s d _ h).trans (setReg _ d _ h4)

theorem raise (s : State) (i : Irq) : KeepsAside s (s.raise i) := .of_dies rfl

theorem modReg (s : State) (d : DieIx) {off : Nat} (f : Word → Word) (h : OffRings off) : KeepsAside s (s.modReg d off f) := setReg s d _ h

end KeepsAside

/-- The same, and nothing but dies has changed. -/
structure QueueWork (s t : State) : Prop extends KeepsAside s t where
  work : ∃ dies, t = { s with dies := dies }

namespace QueueWork

variable {s t u : State}

theorem refl (s : State) : QueueWork s s := ⟨.refl s, s.dies, rfl⟩

theorem trans (h : QueueWork s t) (k : QueueWork t u) : QueueWork s u := by
  refine ⟨h.toKeepsAside.trans k.toKeepsAside, ?_⟩
  obtain ⟨a, rfl⟩ := h.work
  obtain ⟨b, rfl⟩ := k.work
  exact ⟨b, rfl⟩

theorem foldl {α : Type} {f : State → α → State} (l : List α) (h : ∀ v, ∀ x ∈ l, QueueWork v (f v x)) (s : State) : QueueWork s (l.foldl f s) := by
  induction l generalizing s with
  | nil => exact .refl s
  | cons x xs ih =>
    rw [List.foldl_cons]
    exact (h s x (List.mem_cons_self ..)).trans (ih (fun v y hy => h v y (List.mem_cons_of_mem _ hy)) _)

theorem ite {c : Prop} [Decidable c] (h : QueueWork s t) (k : QueueWork s u) : QueueWork s (if c then t else u) := by
  split <;> assumption

theorem dieWork (h : QueueWork s t) : DieWork s t := by
  obtain ⟨a, rfl⟩ := h.work
  exact ⟨a, s.mem, s.draws, rfl⟩

theorem mem (h : QueueWork s t) : t.mem = s.mem := by
  obtain ⟨a, rfl⟩ := h.work
  rfl

theorem modDie (s : State) (d : DieIx) {f : Die → Die} (ha : ∀ x, (f x).aside = x.aside) (hr : ∀ x, (f x).regs = x.regs) :
    QueueWork s (s.modDie d f) := ⟨.modDie s d ha hr, _, rfl⟩

theorem modCore (s : State) (d : DieIx) (c : CoreIx) (f : Core → Core) : QueueWork s (s.modCore d c f) :=
  .modDie s d (f := fun x => x.setCore c (f (s.core d c))) (fun _ => rfl) (fun _ => rfl)

theorem setReg (s : State) (d : DieIx) {off : Nat} (v : Word) (h : OffRings off) : QueueWork s (s.setReg d off v) := ⟨.setReg s d v h, _, rfl⟩

theorem setReg64 (s : State) (d : DieIx) {off : Nat} (v : DWord) (h : OffRings off) (h4 : OffRings (off + 4)) : QueueWork s (s.setReg64 d off v) :=
  (setReg s d _ h).trans (setReg _ d _ h4)

theorem setQueue (s : State) (d : DieIx) (q : QId) (x : CmdQueue) : QueueWork s (s.setQueue d q x) := by
  obtain ⟨cs, us, h⟩ := s.setQueue_eq d q x
  rw [h]
  exact .modDie s d (fun _ => rfl) (fun _ => rfl)

theorem modQueue (s : State) (d : DieIx) (q : QId) (f : CmdQueue → CmdQueue) : QueueWork s (s.modQueue d q f) := setQueue ..

end QueueWork

variable {s t : State}

/-! ### Records (R91) -/

theorem State.capture_queueWork (s : State) (d : DieIx) (src : Nat) : QueueWork s (s.capture d src) := by
  refine QueueWork.foldl _ (fun t n hn => ?_) s
  obtain ⟨hlo, hhi⟩ := offRings_rStkCap (List.mem_range.mp hn)
  exact .ite ((QueueWork.setReg t d _ (offRings_of_place (by decide))).trans (.setReg64 _ d _ hlo hhi)) (.refl t)

theorem State.noteBucket_queueWork (s : State) (d : DieIx) (x : Desc) : QueueWork s (s.noteBucket d x) := by
  unfold State.noteBucket
  dsimp only
  split
  · exact .refl s
  · exact .ite (.refl s) (.modDie s d (fun _ => rfl) (fun _ => rfl))

theorem State.noteDone_queueWork (s : State) (d : DieIx) (job : BitVec 12) (step kind st : Nat) : QueueWork s (s.noteDone d job step kind st) := by
  unfold State.noteDone
  dsimp only
  split
  · exact .refl s
  · exact .ite (.refl s) (.modDie s d (fun _ => rfl) (fun _ => rfl))

theorem State.logFrom_queueWork (s : State) (d : DieIx) (src : Endpoint) (gen : BitVec 8) (code st det : Nat) (sent : Option DWord) :
    QueueWork s (s.logFrom d src gen code st det sent) := .modDie s d (fun _ => rfl) (fun _ => rfl)

theorem State.logDropped_queueWork (s : State) (d : DieIx) (q : QId) (x : Desc) (all : List Nat) : QueueWork s (s.logDropped d q x all) :=
  QueueWork.foldl _ (fun t _ _ => .ite (State.logFrom_queueWork t ..) (State.logFrom_queueWork t ..)) s

theorem State.record_queueWork (s : State) (d : DieIx) (q : QId) (x : Desc) (ident : Nat) (rel : Option Stroke) (res : Result) :
    QueueWork s (s.record d q x ident rel res) := by
  have hlate : QueueWork s ((s.addSat d rStkOverrun 0 32 1).capture d 6) :=
    (QueueWork.setReg s d _ (offRings_of_place (by decide))).trans (State.capture_queueWork _ d 6)
  have hpush : ∀ (v : State) (st : Nat), QueueWork v (match q with | .core c => v.modCore d c (fun k => notePushed k ident st) | _ => v) := by
    intro v st
    cases q with
    | core c => exact .modCore v d c _
    | _ => exact .refl v
  have hnote : ∀ (v : State) (st : Nat), QueueWork v (v.noteCommit d x st) := fun v st =>
    (State.noteBucket_queueWork v d x).trans (State.noteDone_queueWork ..)
  unfold State.record
  dsimp only
  exact ((((QueueWork.ite hlate (.refl s)).trans (State.logDropped_queueWork _ d q x _)).trans (.setQueue _ d q _)).trans (hpush _ _)).trans (hnote _ _)

/-! ### Starting what can start (R36) -/

theorem State.claimAt_queueWork (s : State) (d : DieIx) (q : QId) (x : Desc) : QueueWork s (s.claimAt d q x) := by
  have h : QueueWork s (s.claimCores d (dAux x % 64) (s.cruMask d x)) := QueueWork.foldl _ (fun t e _ =>
    (QueueWork.setReg t e _ (offRings_of_place (by decide))).trans (.setReg _ e _ (offRings_of_place (by decide)))) s
  cases q with
  | cru => exact .ite h (.refl s)
  | _ => exact .refl s

/-- The head of a queue is completed at once, and its record filed, or it starts. -/
theorem State.startHead_queueWork {d : DieIx} {q : QId} (h : s.startHead d q = some t) : QueueWork s t := by
  have hfiled : ∀ {y : CmdQueue} {x : Desc} {ident : Nat} {rel : Option Stroke} {res : Result},
      some ((s.setQueue d q y).record d q x ident rel res) = some t → QueueWork s t := by
    intro y x ident rel res ht
    obtain rfl := Option.some.inj ht
    exact (QueueWork.setQueue s d q y).trans (State.record_queueWork ..)
  have hstarted : ∀ {y : CmdQueue} {f : CmdQueue → CmdQueue} {x : Desc},
      some (((s.setQueue d q y).modQueue d q f).claimAt d q x) = some t → QueueWork s t := by
    intro y f x ht
    obtain rfl := Option.some.inj ht
    exact ((QueueWork.setQueue s d q y).trans (.setQueue _ d q _)).trans (State.claimAt_queueWork ..)
  unfold State.startHead at h
  dsimp only at h
  split at h
  · contradiction
  · split at h
    · contradiction
    split at h
    · exact hfiled h
    split at h
    · exact hfiled h
    split at h
    · exact hfiled h
    split at h
    · split at h
      · exact hfiled h
      · contradiction
    split at h
    · exact hstarted h
    · contradiction

theorem State.startReady_queueWork (s : State) (d : DieIx) (q : QId) (n : Nat) : QueueWork s (s.startReady d q n) := by
  induction n generalizing s with
  | zero => exact .refl s
  | succ n ih =>
    rw [State.startReady]
    split
    · exact .refl s
    · next t ht => exact (State.startHead_queueWork ht).trans (ih t)

theorem State.startQueue_queueWork (s : State) (d : DieIx) (q : QId) : QueueWork s (s.startQueue d q) := State.startReady_queueWork ..

theorem State.startAfter_queueWork (s : State) (q : QId) : QueueWork s (s.startAfter q) := by
  have h : ∀ t : State, QueueWork t ((List.finRange 8).foldl (fun t e => if t.present e ∧ !(t.die e).held then t.startAll e else t) t) :=
    QueueWork.foldl _ (fun t e _ => .ite (QueueWork.foldl _ (fun t q _ => State.startQueue_queueWork t e q) t) (.refl t))
  cases q with
  | cru => exact h s
  | hlt => exact h s
  | _ => exact .refl s

end Sys2Proof.Machine
end

section
/-! LEMMAS. The Pelbex registers: what accesses to memory and records for the host leave alone (R483). -/

namespace Sys2Proof.Machine

/-- From s to t neither the flash nor a Pelbex register but the counts of the error log has changed. -/
structure KeepsPel (s t : State) : Prop where
  fuses : t.fuses = s.fuses
  flash : t.flash = s.flash
  preg : ∀ off, off ≠ rPelErr → t.preg off = s.preg off

namespace KeepsPel

variable {s t u : State}

theorem refl (s : State) : KeepsPel s s := ⟨rfl, rfl, fun _ _ => rfl⟩

theorem trans (h : KeepsPel s t) (k : KeepsPel t u) : KeepsPel s u :=
  ⟨k.fuses.trans h.fuses, k.flash.trans h.flash, fun off ho => (k.preg off ho).trans (h.preg off ho)⟩

theorem foldl {α : Type} {f : State → α → State} (l : List α) (h : ∀ v x, KeepsPel v (f v x)) (s : State) : KeepsPel s (l.foldl f s) :=
  fold_inv (KeepsPel s) f l s (refl s) (fun v x hv => hv.trans (h v x))

theorem ite {c : Prop} [Decidable c] (h : KeepsPel s t) (k : KeepsPel s u) : KeepsPel s (if c then t else u) := by
  split <;> assumption

theorem of_eq (hf : t.fuses = s.fuses) (hl : t.flash = s.flash) (hp : t.pelRegs = s.pelRegs) : KeepsPel s t :=
  ⟨hf, hl, fun off _ => by simp [State.preg, hf, hp]⟩

theorem of_dieWork (h : DieWork s t) : KeepsPel s t := .of_eq h.fuses h.flash h.pelRegs

theorem modDie (s : State) (d : DieIx) (f : Die → Die) : KeepsPel s (s.modDie d f) := .of_eq rfl rfl rfl

theorem setReg (s : State) (d : DieIx) (off : Nat) (v : Word) : KeepsPel s (s.setReg d off v) := .of_eq rfl rfl rfl

theorem pf (h : KeepsPel s t) {off : Nat} (ho : off ≠ rPelErr) (lo len : Nat) : t.pf off lo len = s.pf off lo len := by
  simp [State.pf, h.preg off ho]

/-- Whether a die is parked. -/
theorem parked (h : KeepsPel s t) (d : DieIx) : t.parked d = s.parked d := by
  simp [State.parked, h.pf (show rPwrLpStat ≠ rPelErr by decide)]

end KeepsPel

/-- A Pelbex register that another write leaves alone. -/
theorem State.preg_setPreg_ne (s : State) {off o : Nat} (v : Word) (h : o ≠ off) : (s.setPreg off v).preg o = s.preg o := SMap.get_set_ne _ _ _ v h

@[simp] theorem State.preg_setPreg (s : State) (off : Nat) (v : Word) : (s.setPreg off v).preg off = v := SMap.get_set_same ..

theorem State.pelCount_keepsPel (s : State) (lo : Nat) : KeepsPel s (s.pelCount lo) := ⟨rfl, rfl, fun _ ho => State.preg_setPreg_ne s _ ho⟩

/-! ### Records for the host (R469, R476) -/

theorem State.writeCq_keepsPel {s t : State} {q : Fin 64} (h : s.writeCq q = some t) : KeepsPel s t := by
  unfold State.writeCq at h
  dsimp only at h
  split at h
  · contradiction
  · split at h
    · contradiction
    · obtain rfl := Option.some.inj h
      exact .ite (.of_eq (by simp) (by simp) (by simp)) (.of_eq (by simp) (by simp) (by simp))

theorem State.flushCqN_keepsPel (s : State) (q : Fin 64) (n : Nat) : KeepsPel s (s.flushCqN q n) := by
  induction n generalizing s with
  | zero => exact .refl s
  | succ n ih =>
    rw [State.flushCqN]
    split
    · exact .refl s
    · next t ht => exact (State.writeCq_keepsPel ht).trans (ih t)

theorem State.flushCq_keepsPel (s : State) (q : Fin 64) : KeepsPel s (s.flushCq q) := by
  have h := s.flushCqN_keepsPel q ((s.hostQ q).hold.length + 1)
  unfold State.flushCq
  dsimp only
  refine .ite (h.trans (KeepsPel.trans ?_ (State.flushCqN_keepsPel _ q 1))) h
  exact .of_eq rfl rfl rfl

theorem State.postCq_keepsPel (s : State) (q : Fin 64) (r : Completion) : KeepsPel s (s.postCq q r) := by
  refine .ite (KeepsPel.trans ?_ (State.flushCq_keepsPel _ q)) ((s.pelCount_keepsPel 0).trans ?_)
  · exact .of_eq rfl rfl rfl
  · exact .of_eq rfl rfl rfl

theorem State.hostEvent_keepsPel (s : State) (d : DieIx) (src : Endpoint) (st : Nat) (job : BitVec 12) (epoch : BitVec 8) (step hall : Word)
    (type data : Nat) : KeepsPel s (s.hostEvent d src st job epoch step hall type data) := by
  refine KeepsPel.trans ?_ (State.postCq_keepsPel _ 0 _)
  exact .of_eq rfl rfl rfl

/-! ### Memory (R304, R306) -/

theorem State.eccEvent_keepsPel (s : State) (d : DieIx) (n addr : Nat) : KeepsPel s (s.eccEvent d n addr) := by
  unfold State.eccEvent
  dsimp only
  refine .ite (.ite (KeepsPel.trans ?_ (State.hostEvent_keepsPel ..)) ?_) ?_
  · exact .of_eq rfl rfl rfl
  · exact .of_eq rfl rfl rfl
  · exact .of_eq rfl rfl rfl

theorem State.rowLog_keepsPel (s : State) (d : DieIx) (off : Nat) (unc : Bool) : KeepsPel s (s.rowLog d off unc) := by
  unfold State.rowLog
  dsimp only
  split
  · exact .of_eq rfl rfl rfl
  split
  · exact .of_eq rfl rfl rfl
  split <;> exact .of_eq rfl rfl rfl

theorem State.readWord_keepsPel (s : State) (a : Access) (d : DieIx) (region key : Nat) (m : Mark) : KeepsPel s (s.readWord a d region key m) := by
  have htest (f : Found) (test : Bool) : KeepsPel s (if test then s.testRead d f else s) := .ite (.of_eq rfl rfl rfl) (.refl s)
  have hecc (t : State) (n addr : Nat) (test : Bool) : KeepsPel t (if test then t else t.eccEvent d n addr) := .ite (.refl t) (t.eccEvent_keepsPel d n addr)
  have hrow (t : State) (off : Nat) (unc : Bool) (p : Prop) [Decidable p] : KeepsPel t (if p then t.rowLog d off unc else t) :=
    .ite (t.rowLog_keepsPel d off unc) (.refl t)
  unfold State.readWord
  dsimp only
  split
  · exact ((htest _ _).trans (hecc _ _ _ _)).trans (hrow _ _ _ _)
  split
  · exact (((htest _ _).trans (hecc _ _ _ _)).trans (.modDie _ d _)).trans ((hrow _ _ _ _).trans (.modDie _ d _))
  split
  · exact (htest _ _).trans (.of_eq rfl rfl rfl)
  · exact htest _ _

theorem State.hbmCount_keepsPel (s : State) (d : DieIx) (region off n reg : Nat) : KeepsPel s (s.hbmCount d region off n reg) :=
  .ite (.of_eq rfl rfl rfl) (.refl s)

theorem State.memRead_keepsPel (s : State) (a : Access) (d : DieIx) (region off n : Nat) : KeepsPel s (s.memRead a d region off n).state := by
  have htest : KeepsPel s (if s.testsClean a d region (memKey d region off) n then s.testRead d ⟨0, 0, 0⟩ else s) :=
    .ite (.of_eq rfl rfl rfl) (.refl s)
  exact (htest.trans (KeepsPel.foldl _ (fun t (p : Nat × Mark) => State.readWord_keepsPel t a d region p.1 p.2) _)).trans (State.hbmCount_keepsPel ..)

theorem State.memWrite_keepsPel (s : State) (a : Access) (d : DieIx) (region off : Nat) (bs : List Byte) (ps : List Bool) :
    KeepsPel s (s.memWrite a d region off bs ps) := by
  unfold State.memWrite
  dsimp only
  refine .ite (.refl s) (KeepsPel.trans ?_ (State.hbmCount_keepsPel ..))
  have hread := KeepsPel.foldl ((s.marksIn region (memKey d region off) bs.length).filter (fun p => decide (p.1 < memKey d region off)
    || decide (p.1 + wordSize region > memKey d region off + bs.length))) (fun t p => State.readWord_keepsPel t a d region p.1 p.2) s
  refine .ite (hread.trans ?_) (hread.trans ?_) <;> split <;> exact .of_eq rfl rfl rfl

/-! ### Memory and what stands aside -/

theorem offRings_rEccLb (n : Nat) : OffRings (rEccLbLevel n) ∧ OffRings (rEccLbTotal n) := by
  constructor <;> apply offRings_of_place <;> simp only [rEccLbLevel, rEccLbTotal, blkECC] <;> omega

theorem offRings_rEccRowlog {e : Nat} (h : e < 16) : OffRings (rEccRowlog e) ∧ OffRings (rEccRowlog e + 4) := by
  constructor <;> apply offRings_of_place <;> simp only [rEccRowlog, blkECC] <;> omega

theorem State.hostEvent_keepsAside (s : State) (d : DieIx) (src : Endpoint) (st : Nat) (job : BitVec 12) (epoch : BitVec 8) (step hall : Word)
    (type data : Nat) : KeepsAside s (s.hostEvent d src st job epoch step hall type data) := .of_dies (State.dies_hostEvent ..)

theorem State.logFrom_keepsAside (s : State) (d : DieIx) (src : Endpoint) (gen : BitVec 8) (code st det : Nat) (sent : Option DWord) :
    KeepsAside s (s.logFrom d src gen code st det sent) := .modDie s d (fun _ => rfl) (fun _ => rfl)

theorem State.logEvent_keepsAside (s : State) (d : DieIx) (code st det : Nat) : KeepsAside s (s.logEvent d code st det) := State.logFrom_keepsAside ..

theorem State.eccEvent_keepsAside (s : State) (d : DieIx) (n addr : Nat) : KeepsAside s (s.eccEvent d n addr) := by
  obtain ⟨hlevel, htotal⟩ := offRings_rEccLb n
  have h1 : KeepsAside s ((s.addSat d (rEccLbLevel n) 0 8 1).addSat d (rEccLbTotal n) 0 32 1) := (KeepsAside.setReg s d _ hlevel).trans (.setReg _ d _ htotal)
  unfold State.eccEvent
  dsimp only
  split
  · have h2 := (h1.trans (.modReg _ d (off := rEccStatus) (fun w => setBit w n true) (offRings_of_place (by decide)))).trans
      (State.logEvent_keepsAside _ d 0x0702 0 (n + addr * 256))
    refine .ite ((h2.trans ?_).trans (State.hostEvent_keepsAside ..)) h2
    refine KeepsAside.trans ?_ (.raise _ _)
    exact .modDie _ d (fun _ => rfl) (fun _ => rfl)
  · exact h1

theorem State.rowLog_keepsAside (s : State) (d : DieIx) (off : Nat) (unc : Bool) : KeepsAside s (s.rowLog d off unc) := by
  have put : ∀ e, e < 16 → ∀ v, KeepsAside s ((s.setReg64 d (rEccRowlog e) v).modDie d
      (fun x => { x with rowAge := x.rowAge.setIfInBounds e x.rowNext, rowNext := x.rowNext + 1 })) := fun e he v =>
    (KeepsAside.setReg64 s d v (offRings_rEccRowlog he).1 (offRings_rEccRowlog he).2).trans (.modDie _ d (fun _ => rfl) (fun _ => rfl))
  unfold State.rowLog
  dsimp only
  split
  · next e he =>
    obtain ⟨hlo, hhi⟩ := offRings_rEccRowlog (List.mem_range.mp (List.mem_of_find?_eq_some he))
    exact .setReg64 s d _ hlo hhi
  · split
    · next e he => exact put e (List.mem_range.mp (List.mem_of_find?_eq_some he)) _
    · split
      · exact .setReg s d _ (offRings_of_place (by decide))
      · next e es he =>
        have hmem := foldl_pick_mem (fun k b => decide ((s.die d).rowAge.getD k 0 < (s.die d).rowAge.getD b 0)) es e
        rw [← he] at hmem
        simp only [decide_eq_true_eq] at hmem
        exact put _ (List.mem_range.mp (List.mem_filter.mp hmem).1) _

theorem State.readWord_keepsAside (s : State) (a : Access) (d : DieIx) (region key : Nat) (m : Mark) :
    KeepsAside s (s.readWord a d region key m) := by
  have htest (f : Found) (test : Bool) : KeepsAside s (if test then s.testRead d f else s) :=
    .ite (.setReg s d _ (offRings_of_place (by decide))) (.refl s)
  have hecc (t : State) (n addr : Nat) (test : Bool) : KeepsAside t (if test then t else t.eccEvent d n addr) := .ite (.refl t) (t.eccEvent_keepsAside d n addr)
  have hrow (t : State) (off : Nat) (unc : Bool) (p : Prop) [Decidable p] : KeepsAside t (if p then t.rowLog d off unc else t) :=
    .ite (t.rowLog_keepsAside d off unc) (.refl t)
  unfold State.readWord
  dsimp only
  split
  · exact ((htest _ _).trans (hecc _ _ _ _)).trans (hrow _ _ _ _)
  split
  · exact (((htest _ _).trans (hecc _ _ _ _)).trans (State.logFrom_keepsAside ..)).trans ((hrow _ _ _ _).trans
      (.modDie _ d (fun _ => rfl) (fun _ => rfl)))
  split
  · exact (htest _ _).trans (.setReg _ d _ (offRings_of_place (by decide)))
  · exact htest _ _

theorem State.hbmCount_keepsAside (s : State) (d : DieIx) (region off n : Nat) {reg : Nat} (hlo : OffRings reg) (hhi : OffRings (reg + 4)) :
    KeepsAside s (s.hbmCount d region off n reg) :=
  .ite ((KeepsAside.setReg64 s d _ hlo hhi).trans (.modDie _ d (fun _ => rfl) (fun _ => rfl))) (.refl s)

theorem State.memRead_keepsAside (s : State) (a : Access) (d : DieIx) (region off n : Nat) : KeepsAside s (s.memRead a d region off n).state := by
  have htest : KeepsAside s (if s.testsClean a d region (memKey d region off) n then s.testRead d ⟨0, 0, 0⟩ else s) :=
    .ite (.setReg s d _ (offRings_of_place (by decide))) (.refl s)
  exact (htest.trans (KeepsAside.foldl _ (fun t (p : Nat × Mark) => State.readWord_keepsAside t a d region p.1 p.2) _)).trans
    (State.hbmCount_keepsAside _ d region off n (reg := rHbmRd) (offRings_of_place (by decide)) (offRings_of_place (by decide)))

theorem State.memWrite_keepsAside (s : State) (a : Access) (d : DieIx) (region off : Nat) (bs : List Byte) (ps : List Bool) :
    KeepsAside s (s.memWrite a d region off bs ps) := by
  have tail : ∀ (u : State) (m : Mem) (p : Nat → Bool) (flip : Bool) (f : Word → Word) (v : State → DWord),
      let u0 := { u with mem := m }
      let u1 := u0.modDie d (fun x => { x with writeBacks := x.writeBacks.filter p })
      let u2 := if flip then u1.modReg d rEccFlipCtl f else u1
      KeepsAside u ((if region = 0 then u2.setReg64 d rHbmRd (v u2) else u2).hbmCount d region off bs.length rHbmWr) := by
    intro u m p flip f v u0 u1 u2
    have h1 : KeepsAside u u1 := KeepsAside.trans (t := u0) (.of_dies rfl) (.modDie u0 d (fun _ => rfl) (fun _ => rfl))
    have h2 : KeepsAside u1 u2 := .ite (.setReg u1 d _ (offRings_of_place (by decide))) (.refl u1)
    have h3 : KeepsAside u2 (if region = 0 then u2.setReg64 d rHbmRd (v u2) else u2) :=
      .ite (.setReg64 u2 d _ (offRings_of_place (by decide)) (offRings_of_place (by decide))) (.refl u2)
    exact ((h1.trans h2).trans h3).trans
      (State.hbmCount_keepsAside _ d region off bs.length (reg := rHbmWr) (offRings_of_place (by decide)) (offRings_of_place (by decide)))
  unfold State.memWrite
  dsimp only
  refine .ite (.refl s) (KeepsAside.trans ?_ (tail _ _ _ _ _ (fun u2 => u2.reg64 d rHbmRd + BitVec.ofNat 64 (partBytes off bs.length))))
  exact KeepsAside.foldl _ (fun t (p : Nat × Mark) => State.readWord_keepsAside t a d region p.1 p.2) s

/-! ### Messages -/

theorem MailOnly.keepsAside {s t : State} {d : DieIx} (h : MailOnly d s t) : KeepsAside s t := by
  obtain ⟨inbox, ports, rfl⟩ := h
  exact .modDie s d (fun _ => rfl) (fun _ => rfl)

end Sys2Proof.Machine
end

section
/-! PROOF. Kernels: start, end and push (R79, R80, R87, R90, R144, R149). -/

namespace Sys2Proof.Machine

/-! ### The end of a kernel (R149) -/

theorem bitAt_of_fld_zero {w : Nat} {x : BitVec w} {i : Nat} (h : fld x i 1 = 0) : bitAt x i = false := by
  have htest := testBit_fld x i 1 0
  rw [h] at htest
  simpa [bitAt] using htest.symm

theorem bitAt_of_fld_one {w : Nat} {x : BitVec w} {i : Nat} (h : fld x i 1 = 1) : bitAt x i = true := by
  have htest := testBit_fld x i 1 0
  rw [h] at htest
  simpa [bitAt] using htest.symm

/-- A processor that has halted. -/
def Proc.halted (p : Proc) : Proc := { p with running := false, waitStroke := false, stall := .no }

theorem State.queue_haltProc (s : State) (d e : DieIx) (c : CoreIx) (q : QId) : (s.haltProc d c).queue e q = s.queue e q := by
  apply State.queue_modCore
  exact fun _ => rfl

/-- A kernel ends without saturation: its record carries what ends it, and its processor halts. -/
theorem State.endKernel_spec {s t : State} {d : DieIx} {c : CoreIx} {r : Running} (hr : Runs s d (.core c) 1 r) (hstats : r.stats = [])
    (hq : t.queue d (.core c) = s.queue d (.core c)) (hst : t.stroke d = s.stroke d) (hsat : fld (t.core d c).vec.vstat 16 1 = 0)
    (stats : List Nat) (detail : Word) :
    let u := t.endKernel d c stats detail
    Filed s u d (.core c) r (pickStatus stats) 0 detail ∧ u.mem = t.mem ∧ (u.core d c).proc = (t.core d c).proc.halted := by
  obtain ⟨hfind, -, -, hrel⟩ := hr
  have hrun : t.runningOf d (.core c) 1 = some r := by rw [← hfind, State.runningOf, State.runningOf, hq]
  have hnone : (t.reported d (.core c) r).stats = [] := by
    unfold State.reported
    dsimp only
    rw [bitAt_of_fld_zero hsat]
    split <;> exact hstats
  have hend : t.endKernel d c stats detail =
      (t.haltProc d c).finish d (.core c) r ⟨stats, (t.reported d (.core c) r).flags, 0, detail⟩ := by
    unfold State.endKernel
    simp only [hrun, hnone, List.append_nil]
  have hkeeps := (t.haltProc d c).finish_keepsData d (.core c) r ⟨stats, (t.reported d (.core c) r).flags, 0, detail⟩ nofun
  intro u
  simp only [u, hend]
  refine ⟨State.finish_filed ?_ (.inl ?_), hkeeps.mem, ?_⟩
  · rw [← hq, State.queue_haltProc]
  · rw [hrel, ← hst, State.haltProc, State.stroke_modCore]
  · rw [hkeeps.proc, State.haltProc, State.core_modCore]
    rfl

/-! ### Exceptions (R75, R169) -/

/-- A processor whose control registers record an exception. -/
def Proc.trapped (p : Proc) (x : Trap) : Proc := { p with xcause := BitVec.ofNat 64 x.cause, xpc := p.pc, xaddr := BitVec.ofNat 64 x.addr }

/-- A noted exception changes the processor of its core, and a register. -/
theorem State.noteTrap_spec (s : State) (d : DieIx) (c : CoreIx) (x : Trap) :
    (s.noteTrap d c x).core d c = { s.core d c with proc := (s.core d c).proc.trapped x }
      ∧ (s.noteTrap d c x).queue d (.core c) = s.queue d (.core c) ∧ (s.noteTrap d c x).stroke d = s.stroke d
      ∧ (s.noteTrap d c x).mem = s.mem := by
  have hcore : (s.modCore d c (fun k => { k with proc := k.proc.trapped x })).core d c = { s.core d c with proc := (s.core d c).proc.trapped x } :=
    State.core_modCore ..
  have hqueue : (s.modCore d c (fun k => { k with proc := k.proc.trapped x })).queue d (.core c) = s.queue d (.core c) := by
    apply State.queue_modCore
    exact fun _ => rfl
  have hstroke : (s.modCore d c (fun k => { k with proc := k.proc.trapped x })).stroke d = s.stroke d := State.stroke_modCore ..
  unfold State.noteTrap
  dsimp only
  split
  · have hspares := SparesMem.setReg (hi := False) (s.modCore d c (fun k => { k with proc := k.proc.trapped x })) d (rVxFault c)
      (BitVec.ofNat 32 (x.sub * 65536 + x.elem % 512)) False.elim
    exact ⟨(hspares.core d c).trans hcore, (hspares.queue d _).trans hqueue, (hspares.stroke d).trans hstroke, hspares.mem⟩
  · exact ⟨hcore, hqueue, hstroke, rfl⟩

/-- An exception without first-fault stop ends the kernel with the status of its cause (R80). -/
theorem State.takeTrap_ends {s : State} {d : DieIx} {c : CoreIx} {r : Running} (hr : Runs s d (.core c) 1 r) (hstats : r.stats = [])
    (hsat : fld (s.core d c).vec.vstat 16 1 = 0) (hstop : fld (s.reg d (rCoreCtl c)) 1 1 = 0) (x : Trap) :
    let u := s.takeTrap d c x
    Filed s u d (.core c) r (pickStatus x.stats) 0 (trapDetail (s.core d c).proc.pc x) ∧ u.mem = s.mem
      ∧ (u.core d c).proc = ((s.core d c).proc.trapped x).halted := by
  obtain ⟨hcore, hqueue, hstroke, hmem⟩ := s.noteTrap_spec d c x
  obtain ⟨hfiled, hmem', hproc⟩ := State.endKernel_spec hr hstats hqueue hstroke (by rw [hcore]; exact hsat) x.stats
    (trapDetail (s.core d c).proc.pc x)
  intro u
  have htrap : u = (s.noteTrap d c x).endKernel d c x.stats (trapDetail (s.core d c).proc.pc x) := by
    simp only [u, State.takeTrap, bitAt_of_fld_zero hstop]
    rfl
  rw [htrap]
  exact ⟨hfiled, hmem'.trans hmem, by rw [hproc, hcore]⟩

/-! ### A push of the kernel itself (R86, R136) -/

/-- The core lists a matrix command that its kernel is about to push. -/
def State.notePush (s : State) (d : DieIx) (c : CoreIx) (x : Desc) : State :=
  if 0x20 ≤ dKind x ∧ dKind x ≤ 0x22 then
    s.modCore d c (fun k => { k with pushed := k.pushed ++ [(s.core d c).queue.nextIdent] })
  else s

theorem State.core_notePush (s : State) (d : DieIx) (c : CoreIx) (x : Desc) :
    (s.notePush d c x).core d c = { s.core d c with
      pushed := if 0x20 ≤ dKind x ∧ dKind x ≤ 0x22 then (s.core d c).pushed ++ [(s.core d c).queue.nextIdent] else (s.core d c).pushed } := by
  unfold State.notePush
  split
  · exact State.core_modCore ..
  · rfl

theorem State.queue_notePush (s : State) (d e : DieIx) (c : CoreIx) (x : Desc) (q : QId) : (s.notePush d c x).queue e q = s.queue e q := by
  unfold State.notePush
  split
  · exact State.queue_modCore _ _ _ _ _ _ (fun _ => rfl)
  · rfl

/-- What a core lists does not let a command start. -/
theorem State.sameStart_notePush (s : State) (d : DieIx) (c : CoreIx) (x : Desc) (q : QId) : SameStart d q s (s.notePush d c x) := by
  have hcore (j : CoreIx) : ((s.notePush d c x).core d j).proc = (s.core d j).proc ∧ ((s.notePush d c x).core d j).recovering = (s.core d j).recovering := by
    by_cases h : j = c
    · subst h
      rw [State.core_notePush]
      exact ⟨rfl, rfl⟩
    · unfold State.notePush
      split
      · rw [State.core_modCore_ne _ _ _ h]
        exact ⟨rfl, rfl⟩
      · exact ⟨rfl, rfl⟩
  have hdie (e : DieIx) : ∃ cs, (s.notePush d c x).die e = { s.die e with cores := cs } := by
    unfold State.notePush
    split
    · by_cases h : e = d
      · subst h
        exact ⟨_, State.die_modDie ..⟩
      · exact ⟨_, State.die_modDie_ne s d e _ h⟩
    · exact ⟨_, rfl⟩
  refine ⟨?_, ?_, fun e off => ?_, fun e => ?_, ?_, ?_, ?_, fun e p => by rw [State.queue_notePush], by rw [State.queue_notePush],
    fun e _ => by rw [State.queue_notePush], fun j => (hcore j).1, fun j => (hcore j).2⟩
  · unfold State.notePush
    split <;> rfl
  · unfold State.notePush
    split <;> rfl
  · obtain ⟨cs, h⟩ := hdie e
    simp [State.reg, h]
  · obtain ⟨cs, h⟩ := hdie e
    rw [h]
  all_goals
    obtain ⟨cs, h⟩ := hdie d
    simp [State.stroke, h]

theorem State.parked_notePush (s : State) (d e : DieIx) (c : CoreIx) (x : Desc) : (s.notePush d c x).parked e = s.parked e := by
  unfold State.notePush
  split <;> rfl

/-- A head that waited still waits. -/
theorem State.startHead_notePush {s : State} {d : DieIx} {c : CoreIx} {q : QId} (x : Desc) (hne : (s.queue d q).entries ≠ [])
    (h : s.startHead d q = none) : (s.notePush d c x).startHead d q = none := by
  obtain ⟨e, es, hes⟩ := List.exists_cons_of_ne_nil hne
  have hsame := s.sameStart_notePush d c x q
  have hwaits := (State.startHead_eq_none hes).mp h
  rw [State.startHead_eq_none (by rw [State.queue_notePush]; exact hes), State.headWaits, hsame.heldByReset, hsame.stroke, State.parked_notePush,
    hsame.running, hsame.canStart]
  exact hwaits

/-- Beside its queue, a push of a core leaves the core alone. -/
theorem State.core_afterPush (s : State) (d : DieIx) (c : CoreIx) (i : Issuer) (desc : Desc) :
    (s.afterPush d (.core c) i desc).core d c = { s.core d c with queue := s.pushed d (.core c) i desc } := by
  rw [State.afterPush, State.core, State.die_wake]
  exact State.core_modCore ..

section

variable {s : State} {d : DieIx} {c : CoreIx} {rs1 : Fin 32}

/-- CPUSH stalls while the queue is full or another endpoint holds its window. -/
theorem exec_cpush_stall (hf : CanFetch s d c) (hs : Spelt s d c (.cpush d c rs1)) (hmap : ((s.core d c).getG rs1).toNat + 64 ≤ 0x400000)
    (hfull : 64 ≤ (s.core d c).queue.entries.length ∨ ∃ w, (s.core d c).queue.claim = some w ∧ w.issuer ≠ .ep (s.endpoint d c.val)) :
    exec (.cpush d c rs1) s = .next (s.setCore d c ((s.core d c).setStall .queue)) := by
  have hlocal : localMapped ((s.core d c).getG rs1).toNat 64 = true := by simp [localMapped, hmap]
  have hbank : ¬ (((s.core d c).getG rs1).toNat + 64 > 0x800000 ∧ s.bankHeld d c = true) := by omega
  have hwait : 64 ≤ (s.core d c).queue.entries.length ∨ ((!(s.core d c).queue.backlog.isEmpty) = true)
      ∨ (s.core d c).queue.claim.any (fun k => decide (k.issuer ≠ .ep (s.endpoint d c.val))) = true := by
    rcases hfull with h | ⟨w, hw, hne⟩
    · exact .inl h
    · exact .inr (.inr (by simp [hw, hne]))
  rw [exec_insn rfl hf hs]
  simp only [hlocal, hbank, Bool.not_true, Bool.false_eq_true, if_false, ge_iff_le, if_pos hwait]
  rfl

/-- CPUSH of unmarked bytes into a window that is free, while the head of the queue waits. -/
theorem exec_cpush_room (hf : CanFetch s d c) (hs : Spelt s d c (.cpush d c rs1)) (hmap : ((s.core d c).getG rs1).toNat + 64 ≤ 0x400000)
    (hroom : (s.core d c).queue.entries.length < 64) (hback : (s.core d c).queue.backlog = []) (hclaim : (s.core d c).queue.claim = none)
    (hheld : (s.core d c).queue.held = []) (hmark : s.marksIn 1 (memKey d 1 (spBase c + ((s.core d c).getG rs1).toNat)) 64 = []) :
    let bytes := s.peek (memKey d 1 (spBase c + ((s.core d c).getG rs1).toNat)) 64
    let v := s.notePush d c (descOf bytes)
    (v.afterPush d (.core c) (.ep (s.endpoint d c.val)) (descOf bytes)).startHead d (.core c) = none →
    exec (.cpush d c rs1) s = .next ((v.afterPush d (.core c) (.ep (s.endpoint d c.val)) (descOf bytes)).modCore d c
      (fun k => k.setPc ((s.core d c).proc.pc + 4))) := by
  intro bytes v hwaits
  have hlocal : localMapped ((s.core d c).getG rs1).toNat 64 = true := by simp [localMapped, hmap]
  have hbank : ¬ (((s.core d c).getG rs1).toNat + 64 > 0x800000 ∧ s.bankHeld d c = true) := by omega
  have hgo : ¬ (64 ≤ (s.core d c).queue.entries.length ∨ (!(s.core d c).queue.backlog.isEmpty) = true
      ∨ (s.core d c).queue.claim.any (fun k => decide (k.issuer ≠ .ep (s.endpoint d c.val))) = true) := by
    simp [hroom, hback, hclaim]
  have hclean : (List.replicate 64 false).any id = false := by simp
  have hq : v.queue d (.core c) = (s.core d c).queue := State.queue_notePush ..
  have hpush : v.windowWrite d (.core c) (.ep (s.endpoint d c.val)) 0 bytes false =
      v.afterPush d (.core c) (.ep (s.endpoint d c.val)) (descOf bytes) :=
    State.windowWrite_push (by rw [hq]; exact hclaim) (by rw [hq]; exact hheld) (by simp [bytes, State.peek]) hwaits
  rw [exec_insn rfl hf hs]
  simp only [hlocal, hbank, Bool.not_true, Bool.false_eq_true, if_false, ge_iff_le, if_neg hgo, State.memRead_local hmark, hclean]
  rw [← hpush]
  rfl

end

end Sys2Proof.Machine
end

section
open Sys2Proof Sys2Proof.Machine
open Host (Outcome)

/-- Settles O10. -/
theorem kernelStartsAndEnds : Obligations.KernelStartsAndEnds := by
  refine ⟨?_, ?_, ?_⟩
  · intro s d c r hready hr hidle hpc hres hfence
    have hstart : s.kernelStart d c r = (s.modCore d c (startCore s.draws r.desc)).drawFree := by
      unfold State.kernelStart State.unitFenced
      simp [hidle, hpc, hres, hfence]
    have hcore : ((s.modCore d c (startCore s.draws r.desc)).drawFree).core d c = startCore s.draws r.desc (s.core d c) := State.core_modCore ..
    refine ⟨(s.modCore d c (startCore s.draws r.desc)).drawFree, ?_, ?_⟩
    · rw [exec_engine (k := fun t => t.kernelStart d c) hready hr rfl, hstart]
    · rw [hcore]
      refine ⟨rfl, rfl, rfl, rfl, by simp [startCore, Core.getG], by simp [startCore, Core.getG], rfl, rfl, rfl, rfl, rfl, rfl, ?_, fun j hj => ?_⟩
      · exact (congrArg Die.regs (State.die_modDie s d (fun y => y.setCore c (startCore s.draws r.desc (s.core d c)))) :)
      · exact State.core_modCore_ne _ _ _ hj
  · intro s d c rs1 r hf hr hsat hstats
    refine ⟨fun hs => ?_, fun hs hstop => ?_⟩
    · obtain ⟨hfiled, -, hproc⟩ := State.endKernel_spec hr hstats rfl rfl hsat [] (((s.core d c).getG rs1).setWidth 32)
      exact ⟨_, exec_insn rfl hf hs, by rw [State.conclude, hproc]; rfl, hfiled, by rw [State.conclude, hproc]; rfl⟩
    · have hcode : trapDetail (s.core d c).proc.pc trapBreak = BitVec.ofNat 32 ((s.core d c).proc.pc.toNat / 4 * 256 + 8) := by
        obtain ⟨-, -, -, -, hmap, -⟩ := hf
        rw [trapDetail, Nat.mod_eq_of_lt (by omega)]
        rfl
      obtain ⟨hfiled, -, hproc⟩ := State.takeTrap_ends hr hstats hsat hstop trapBreak
      rw [hcode] at hfiled
      exact ⟨_, exec_insn rfl hf hs, by rw [State.conclude, hproc]; rfl, by rw [State.conclude, hproc]; rfl, by rw [State.conclude, hproc]; rfl,
        by rw [State.conclude, hproc]; rfl, hfiled⟩
  · intro s d c rs1 hf k a x y hs hmap hback hreset
    refine ⟨fun hfull => exec_cpush_stall hf hs hmap hfull, fun hroom hclaim hheld hmark hhead => ?_⟩
    have hq (v : Desc) : (s.notePush d c v).queue d (.core c) = k.queue := State.queue_notePush ..
    have hsame := s.sameStart_notePush d c x (.core c)
    have hgen : (s.notePush d c x).recvGen d (.core c) = k.tagCore := by
      rw [State.recvGen, State.core_notePush]
    have hroom' : ((s.notePush d c x).queue d (.core c)).entries.length < 64 := by rw [hq]; exact hroom
    have hback' : ((s.notePush d c x).queue d (.core c)).backlog = [] := by rw [hq]; exact hback
    have hreset' : (s.notePush d c x).resets d (.core c) 0 = false := by rw [hsame.heldByReset]; exact hreset
    have hwaits := State.startHead_pushed_room (.ep (s.endpoint d c.val)) x hroom' hback' hreset' (by
      rw [hq, State.parked_notePush, hsame.stroke, hgen]
      exact hhead.imp id (fun h => ⟨h.1, State.startHead_notePush x h.1 h.2⟩))
    have hpushed := State.pushed_room (.ep (s.endpoint d c.val)) x hroom' hback' hreset'
    obtain ⟨hrunning, -, -, -⟩ := (s.notePush d c x).pushed_keeps d (.core c) (.ep (s.endpoint d c.val)) x
    have hcore := State.core_modCore ((s.notePush d c x).afterPush d (.core c) (.ep (s.endpoint d c.val)) x) d c
      (fun k => k.setPc ((s.core d c).proc.pc + 4))
    rw [State.core_afterPush, State.core_notePush] at hcore
    refine ⟨_, exec_cpush_room hf hs hmap hroom hback hclaim hheld hmark hwaits, ?_⟩
    rw [show s.notePush d c (descOf _) = s.notePush d c x from rfl] at *
    rw [hcore]
    refine ⟨?_, ?_, rfl, rfl, ?_, rfl⟩
    · refine hpushed.trans ?_
      rw [hq, State.pushEntryOf, hgen, hq]
      rfl
    · exact hrunning.trans (by rw [hq])
    · exact ((s.notePush d c x).afterPush_spares d (.core c) (.ep (s.endpoint d c.val)) x).2.trans hsame.mem
end

section
/-! PROOF. Exceptions (R75, R79, R80). -/

namespace Sys2Proof.Machine

/-! ### The capture of first-fault stop (R411) -/

theorem State.putCapture_spares (s : State) (d : DieIx) (off : Nat) (bs : List Byte) : Spares False s (s.putCapture d off bs) :=
  (State.memWrite_spares ..).weaken

theorem State.copyRaw_spares (s : State) (d : DieIx) (region src dst n : Nat) : Spares False s (s.copyRaw d region src dst n) :=
  (s.memRead_sparesMem ⟨d, 0, true⟩ d region src n).toSpares.weaken.trans (State.memWrite_spares ..).weaken

/-- What every write of a capture, and its entry in the list of captures, preserves, the capture preserves. -/
theorem State.capture411_inv {P : State → Prop} {s : State} {d : DieIx} (h : P s) (hput : ∀ v off bs, P v → P (v.putCapture d off bs))
    (hcopy : ∀ v region src dst n, P v → P (v.copyRaw d region src dst n))
    (hnote : ∀ v cap next w, P v →
      P ((v.modDie d (fun x => { x with captures := x.captures ++ [cap], captureNext := next })).setReg64 d rHltLoupeLast w))
    (m : Domain) (kind cause : Nat) (gen : BitVec 8) (trunc : Bool) : P (s.capture411 d m kind cause gen trunc).1 := by
  unfold State.capture411
  dsimp only
  split
  · exact h
  · refine hnote _ _ _ _ ?_
    have hcores : ∀ (l : List (CoreIx × Nat)) (wins : List ((Bool × Nat) × Nat)) (at1 : CoreIx × Nat → Nat) (block : CoreIx × Nat → List Byte)
        (at2 : CoreIx × Nat → (Bool × Nat) × Nat → Nat) (v : State), P v →
        P (l.foldl (fun t p => wins.foldl (fun u w => u.copyRaw d 1 (windowOff p.1 w.1) (at2 p w) 16384) (t.putCapture d (at1 p) (block p))) v) :=
      fun l wins at1 block at2 v hv => fold_inv P _ l v hv (fun t p ht => fold_inv P _ wins _ (hput _ _ _ ht) (fun u w hu => hcopy _ _ _ _ _ hu))
    split
    · exact hput _ _ _ (hcores _ _ _ _ _ _ (hput _ _ _ h))
    · exact hcores _ _ _ _ _ _ (hput _ _ _ h)

/-- A capture leaves the queues and cores of every die alone. -/
theorem State.capture411_spares (s : State) (d : DieIx) (m : Domain) (kind cause : Nat) (gen : BitVec 8) (trunc : Bool) :
    Spares False s (s.capture411 d m kind cause gen trunc).1 := by
  refine State.capture411_inv (P := Spares False s) (.refl s) (fun v _ _ h => h.trans (v.putCapture_spares ..))
    (fun v _ _ _ _ h => h.trans (v.copyRaw_spares ..)) (fun v _ _ _ h => h.trans (SparesMem.trans ?_ (.setReg64 _ d _ _ False.elim)).toSpares) ..
  exact .modDie v d (fun _ => rfl) (fun _ => rfl)

theorem State.putCapture_keepsPel (s : State) (d : DieIx) (off : Nat) (bs : List Byte) : KeepsPel s (s.putCapture d off bs) :=
  State.memWrite_keepsPel ..

theorem State.copyRaw_keepsPel (s : State) (d : DieIx) (region src dst n : Nat) : KeepsPel s (s.copyRaw d region src dst n) :=
  (s.memRead_keepsPel ⟨d, 0, true⟩ d region src n).trans (State.memWrite_keepsPel ..)

theorem State.capture411_keepsPel (s : State) (d : DieIx) (m : Domain) (kind cause : Nat) (gen : BitVec 8) (trunc : Bool) :
    KeepsPel s (s.capture411 d m kind cause gen trunc).1 :=
  State.capture411_inv (P := KeepsPel s) (.refl s) (fun v _ _ h => h.trans (v.putCapture_keepsPel ..))
    (fun v _ _ _ _ h => h.trans (v.copyRaw_keepsPel ..)) (fun v _ _ _ h => h.trans ((KeepsPel.modDie v d _).trans (.of_dieWork (.setReg64 _ d _ _)))) ..

/-! ### First-fault stop (R80) -/

/-- A head that would be judged good does not leave the queue of a core that has stopped. -/
theorem State.startHead_stopped {s : State} {d : DieIx} {c : CoreIx} (hstop : (s.core d c).proc.stopped = true) (hpark : s.parked d = false)
    (hhead : ∀ e ∈ (s.core d c).queue.entries.head?, e.poison = false ∧ e.aborted = false ∧ headerOk (.core c) (s.stroke d) e.desc = true) :
    s.startHead d (.core c) = none := by
  cases hes : (s.core d c).queue.entries with
  | nil => exact State.startHead_nil hes
  | cons e es =>
    obtain ⟨hpoison, habort, hheader⟩ := hhead e (by rw [hes]; rfl)
    have hheld : s.queueHeld d (.core c) = true := by simp [State.queueHeld, hstop]
    have hstart : s.canStart d (.core c) e = false := by simp [State.canStart, hheld]
    rw [State.startHead_eq_none (q := .core c) hes, State.headWaits]
    simp [hpoison, habort, hheader, hpark, hstart]

/-- Nor does it once a record is filed. -/
theorem State.entries_record_stopped {s : State} {d : DieIx} {c : CoreIx} (hstop : (s.core d c).proc.stopped = true) (hpark : s.parked d = false)
    (hhead : ∀ e ∈ (s.core d c).queue.entries.head?, e.poison = false ∧ e.aborted = false ∧ headerOk (.core c) (s.stroke d) e.desc = true)
    (x : Desc) (ident : Nat) (rel : Option Stroke) (res : Result) :
    (((s.record d (.core c) x ident rel res).startQueue d (.core c)).core d c).queue.entries = (s.core d c).queue.entries := by
  have hwork := s.record_queueWork d (.core c) x ident rel res
  have hentries : ((s.record d (.core c) x ident rel res).core d c).queue.entries = (s.core d c).queue.entries :=
    (congrArg CmdQueue.entries (s.record_queue d (.core c) x ident rel res) :)
  rw [State.startQueue_eq_self, hentries]
  refine State.startHead_stopped ?_ ?_ ?_
  · rw [(s.record_keepsData d (.core c) x ident rel res).proc, hstop]
  · rw [(KeepsPel.of_dieWork hwork.dieWork).parked, hpark]
  · rw [hentries, hwork.stroke]
    exact hhead

/-- The end of a command of a core that has stopped leaves its entries where they are. -/
theorem State.entries_finish_stopped {s : State} {d : DieIx} {c : CoreIx} (hstop : (s.core d c).proc.stopped = true) (hpark : s.parked d = false)
    (hhead : ∀ e ∈ (s.core d c).queue.entries.head?, e.poison = false ∧ e.aborted = false ∧ headerOk (.core c) (s.stroke d) e.desc = true)
    (r : Running) (res : Result) : ((s.finish d (.core c) r res).core d c).queue.entries = (s.core d c).queue.entries := by
  unfold State.finish State.startAfter
  dsimp only
  generalize hw : State.modDie (State.modCore _ d c _) d _ = w
  have hcore : w.core d c = dropStream r.ident (endCore r res { s.core d c with
      queue := { (s.core d c).queue with running := (s.core d c).queue.running.filter (fun y => y.ident != r.ident) } }) := by
    rw [← hw]
    simp [State.core, Die.core, State.modCore, State.setCore, Die.setCore, State.modQueue, State.setQueue, State.queue]
  have hqueue : (w.core d c).queue.entries = (s.core d c).queue.entries := by
    rw [hcore]
    unfold dropStream endCore
    dsimp only
    repeat' split
    all_goals rfl
  have hproc : (w.core d c).proc = (s.core d c).proc := by
    have h := (dropStream_data r.ident _).trans (endCore_data r res { s.core d c with
      queue := { (s.core d c).queue with running := (s.core d c).queue.running.filter (fun y => y.ident != r.ident) } })
    rw [← hcore] at h
    exact (congrArg (fun x => x.2.1) h :)
  have hstroke : w.stroke d = s.stroke d := by
    rw [← hw]
    simp [State.modQueue, State.setQueue, State.modCore, State.setCore, State.stroke, Die.setCore]
  rw [State.entries_record_stopped (by rw [hproc, hstop]) ?_ (by rw [hqueue, hstroke]; exact hhead), hqueue]
  rw [← hpark, ← hw]
  rfl

/-- The core once it has stopped at an exception, and the capture is taken. -/
def State.stopCore (s : State) (d : DieIx) (c : CoreIx) (x : Trap) : State :=
  let s2 := (s.noteTrap d c x).modCore d c (fun k => { k with proc := { k.proc with stopped := true } })
  (s2.capture411 d (.core c) 2 (fld s.free 0 8) (s.core d c).tagCore (!s2.hbmServes d)).1.drawFree

theorem State.noteTrap_keepsPel (s : State) (d : DieIx) (c : CoreIx) (x : Trap) : KeepsPel s (s.noteTrap d c x) := by
  have h : KeepsPel s (s.modCore d c (fun k => { k with proc := k.proc.trapped x })) := .of_dieWork (.modCore s d c _)
  exact .ite (h.trans (.setReg _ d _ _)) h

theorem State.stopCore_spec (s : State) (d : DieIx) (c : CoreIx) (x : Trap) :
    (s.stopCore d c x).core d c = { s.core d c with proc := { (s.core d c).proc.trapped x with stopped := true } }
      ∧ (s.stopCore d c x).stroke d = s.stroke d ∧ (s.stopCore d c x).parked d = s.parked d := by
  obtain ⟨hcore, -, hstroke, -⟩ := s.noteTrap_spec d c x
  have hspares := ((s.noteTrap d c x).modCore d c (fun k => { k with proc := { k.proc with stopped := true } })).capture411_spares d (.core c) 2
    (fld s.free 0 8) (s.core d c).tagCore
  have hpel := ((s.noteTrap_keepsPel d c x).trans (.of_dieWork (.modCore _ d c (fun k => { k with proc := { k.proc with stopped := true } })))).trans
    (State.capture411_keepsPel _ d (.core c) 2 (fld s.free 0 8) (s.core d c).tagCore
      (!((s.noteTrap d c x).modCore d c (fun k => { k with proc := { k.proc with stopped := true } })).hbmServes d))
  refine ⟨((hspares _).core d c).trans ?_, ((hspares _).stroke d).trans ?_, hpel.parked d⟩
  · rw [State.core_modCore, hcore]
  · rw [State.stroke_modCore, hstroke]

/-- First-fault stop: the core has stopped before its kernel ends (R80). -/
theorem State.takeTrap_stops {s : State} {d : DieIx} {c : CoreIx} {r : Running} (hr : Runs s d (.core c) 1 r) (hstats : r.stats = [])
    (hsat : fld (s.core d c).vec.vstat 16 1 = 0) (hstop : fld (s.reg d (rCoreCtl c)) 1 1 = 1) (hpark : s.parked d = false)
    (hhead : ∀ e ∈ (s.core d c).queue.entries.head?, e.poison = false ∧ e.aborted = false ∧ headerOk (.core c) (s.stroke d) e.desc = true)
    (x : Trap) :
    let u := s.takeTrap d c x
    Filed s u d (.core c) r stFirstFault 0 (trapDetail (s.core d c).proc.pc x) ∧ (u.core d c).queue.entries = (s.core d c).queue.entries
      ∧ (u.core d c).proc = { ((s.core d c).proc.trapped x).halted with stopped := true } := by
  obtain ⟨hcore, hstroke, hparked⟩ := s.stopCore_spec d c x
  have hqueue : (s.stopCore d c x).queue d (.core c) = s.queue d (.core c) := (congrArg Core.queue hcore :)
  have htrap : s.takeTrap d c x = (s.stopCore d c x).endKernel d c [stFirstFault] (trapDetail (s.core d c).proc.pc x) := by
    unfold State.takeTrap
    simp only [bitAt_of_fld_one hstop]
    rfl
  obtain ⟨hfiled, -, hproc⟩ := State.endKernel_spec hr hstats hqueue hstroke (by rw [hcore]; exact hsat) [stFirstFault]
    (trapDetail (s.core d c).proc.pc x)
  obtain ⟨hfind, -, -, -⟩ := hr
  have hrun : (s.stopCore d c x).runningOf d (.core c) 1 = some r := by rw [← hfind, State.runningOf, State.runningOf, hqueue]
  have hhalt : ((s.stopCore d c x).haltProc d c).core d c = { s.core d c with proc := { ((s.core d c).proc.trapped x).halted with stopped := true } } := by
    rw [State.haltProc, State.core_modCore, hcore]
    rfl
  intro u
  simp only [u, htrap]
  refine ⟨hfiled, ?_, by rw [hproc, hcore]; rfl⟩
  unfold State.endKernel
  simp only [hrun]
  rw [State.entries_finish_stopped, hhalt]
  · rw [hhalt]
  · rw [← hpark, ← hparked]
    rfl
  · rw [hhalt, State.haltProc, State.stroke_modCore, hstroke]
    exact hhead

/-! ### What raises an exception (R75, R79) -/

section

variable {s : State} {d : DieIx} {c : CoreIx}

/-- An instruction whose word cannot be fetched, or is illegal, raises the exception of that cause. -/
theorem State.insn_faults (hrun : (s.core d c).proc.running = true) (hwait : (s.core d c).proc.waitStroke = false) (i : Instr) (body : State → Eff) :
    ((s.core d c).proc.pc.toNat % 4 ≠ 0 → s.insn d c i body = s.takeTrap d c trapFetchAlign)
    ∧ ((s.core d c).proc.pc.toNat % 4 = 0 → 0x400000 ≤ (s.core d c).proc.pc.toNat → s.insn d c i body = s.takeTrap d c trapFetchMap)
    ∧ (CanFetch s d c → Decode.illegalWord (s.nextWord d c) = true → s.insn d c i body = s.takeTrap d c trapIllegal) := by
  refine ⟨fun halign => ?_, fun halign hmap => ?_, fun hf hill => ?_⟩
  · simp [State.insn, hrun, hwait, halign]
  · have hbeyond : (s.core d c).proc.pc.toNat + 4 > 0x400000 := by omega
    unfold State.insn
    simp only [hrun, hwait, halign, hbeyond]
    simp
  · obtain ⟨-, -, -, halign, hmap, -, hmark⟩ := hf
    have hread : s.memRead (s.kernelAccess d c) d 1 (spBase c + (s.core d c).proc.pc.toNat) 4 =
        ⟨s.peek (memKey d 1 (spBase c + (s.core d c).proc.pc.toNat)) 4, List.replicate 4 false, s⟩ := State.memRead_local hmark
    unfold State.insn
    simp only [hrun, hwait, hread]
    simp [halign, Nat.not_lt.mpr hmap, hill]

/-- A scalar access that is not aligned, or lies outside the two local ranges, raises its exception. -/
theorem exec_scalarAccess_faults {size : Fin 4} {fp signed : Bool} {rd rs1 : Fin 32} {off : BitVec 16} (hf : CanFetch s d c) {i : Instr}
    (hi : i ∈ [Instr.scalarLoad d c size fp signed rd rs1 off, Instr.scalarStore d c size fp rd rs1 off]) (hs : Spelt s d c i) :
    (s.memAddr d c rs1 off % 2 ^ size.val ≠ 0 → exec i s = .next (s.takeTrap d c (trapDataAlign (s.memAddr d c rs1 off))))
    ∧ (s.memAddr d c rs1 off % 2 ^ size.val = 0 → localMapped (s.memAddr d c rs1 off) (2 ^ size.val) = false →
      exec i s = .next (s.takeTrap d c (trapDataMap (s.memAddr d c rs1 off)))) := by
  rcases List.mem_cons.mp hi with rfl | hi
  · refine ⟨fun halign => ?_, fun halign hmap => ?_⟩ <;> rw [exec_insn rfl hf hs]
    · simp [halign, State.conclude]
    · simp only [halign, hmap]
      simp [State.conclude]
  · obtain rfl := List.mem_singleton.mp hi
    refine ⟨fun halign => ?_, fun halign hmap => ?_⟩ <;> rw [exec_insn rfl hf hs]
    · simp [halign, State.conclude]
    · simp only [halign, hmap]
      simp [State.conclude]

end

/-- An address beside the two local ranges is not mapped (R79). -/
theorem localMapped_outside {a : Nat} (n : Nat) (hn : 0 < n) (hlow : 0x400000 ≤ a) (h : a < 0x800000 ∨ 0x900000 ≤ a) : localMapped a n = false := by
  simp only [localMapped, Bool.or_eq_false_iff, Bool.and_eq_false_iff, decide_eq_false_iff_not]
  omega

/-- Words of zeros or ones and words with an opcode that is not allocated are illegal (R77). -/
theorem illegalWord_of_opcode {w : Word}
    (h : w = 0 ∨ w = 0xFFFFFFFF ∨ w.toNat / 2 ^ 26 ∈ [0x1E, 0x1F, 0x2F] ∨ 0x32 ≤ w.toNat / 2 ^ 26 ∧ w.toNat / 2 ^ 26 ≠ 0x38) :
    Decode.illegalWord w = true := by
  have hop : Decode.bits w 26 6 = w.toNat / 2 ^ 26 := by
    have hlt := w.isLt
    simp only [Decode.bits]
    omega
  unfold Decode.illegalWord
  rcases h with rfl | rfl | h
  · simp
  · simp
  · have hfree : Decode.allocated (w.toNat / 2 ^ 26) = false := by
      simp only [Decode.allocated, Bool.or_eq_false_iff, Bool.and_eq_false_iff, decide_eq_false_iff_not]
      simp only [List.mem_cons, List.not_mem_nil, or_false] at h
      omega
    simp only [hop, hfree]
    simp

end Sys2Proof.Machine
end

section
open Sys2Proof Sys2Proof.Machine
open Host (Outcome)

/-- Settles O11. -/
theorem exceptionsStopTheKernel : Obligations.ExceptionsStopTheKernel := by
  refine ⟨?_, ?_, fun w => illegalWord_of_opcode, ?_, ?_⟩
  · intro s d c size fp signed rd rs1 off hf a i hi hs
    obtain ⟨halign, hmap⟩ := exec_scalarAccess_faults hf hi hs
    exact ⟨halign, fun h hlow hout => hmap h (localMapped_outside _ (by positivity) hlow hout)⟩
  · intro s d c rs1 hready hrun hwait
    obtain ⟨halign, hmap, hill⟩ := State.insn_faults hrun hwait (.endK d c rs1) (fun u => .fin u (((u.core d c).getG rs1).setWidth 32))
    have hexec : exec (.endK d c rs1) s = .next (s.insn d c (.endK d c rs1) (fun u => .fin u (((u.core d c).getG rs1).setWidth 32))) :=
      onDie_ready hready (fun t => t.insn d c (.endK d c rs1) (fun u => .fin u (((u.core d c).getG rs1).setWidth 32)))
    rw [hexec]
    exact ⟨fun h => congrArg _ (halign h), fun h hm => congrArg _ (hmap h hm), fun hf h => congrArg _ (hill hf h)⟩
  · intro s d c x r hr hstats hsat hlen hcause hstop t
    obtain ⟨hfiled, hmem, hproc⟩ := State.takeTrap_ends hr hstats hsat hstop x
    have hstatus : pickStatus x.stats = x.stats.headD 0x00 := by
      match hx : x.stats, hlen, hcause with
      | [], _, _ => rfl
      | [st], _, hc =>
        have hst := hc st (List.mem_singleton_self st)
        simp only [List.mem_cons, List.not_mem_nil, or_false] at hst
        rcases hst with rfl | rfl | rfl <;> rfl
    rw [hstatus] at hfiled
    exact ⟨hmem, by rw [hproc]; rfl, by rw [hproc]; rfl, by rw [hproc]; rfl, by rw [hproc]; rfl, by rw [hproc]; rfl, by rw [hproc]; rfl, hfiled⟩
  · intro s d c x r hr hstats hsat hstop hpark hhead t
    obtain ⟨hfiled, hentries, hproc⟩ := State.takeTrap_stops hr hstats hsat hstop hpark hhead x
    exact ⟨by rw [hproc]; rfl, by rw [hproc]; rfl, by rw [hproc], hentries, hfiled⟩
end

section
/-! PROOF. Completion records and reply timeouts (R91 to R93, R103). -/

namespace Sys2Proof.Machine

/-! ### Routes (R341, R342) -/

/-- What the routes of a module's dies, and their reach, rest on is in t as it is in s. -/
structure SameRoutes (s t : State) : Prop where
  fuses : t.fuses = s.fuses
  settings : t.settings = s.settings
  regs : ∀ e off, t.reg e off = s.reg e off
  timer : ∀ e, (t.die e).timer = (s.die e).timer
  routeUp : ∀ e, (t.die e).routeUp = (s.die e).routeUp
  held : ∀ e, (t.die e).held = (s.die e).held

namespace SameRoutes

variable {s t : State}

theorem moduleNo (h : SameRoutes s t) (d : DieIx) : t.moduleNo d = s.moduleNo d := by simp [State.moduleNo, State.rf, h.regs]

theorem slot (h : SameRoutes s t) : t.slot = s.slot := by simp [State.slot, h.fuses]

theorem routable (h : SameRoutes s t) (d p : Nat) : t.routable d p = s.routable d p := by simp [State.routable, h.routeUp]

theorem viaPort (h : SameRoutes s t) : t.viaPort = s.viaPort := by
  funext cost d p
  simp only [State.viaPort, h.fuses, h.routable, State.rf, h.regs]

theorem fabricPort (h : SameRoutes s t) (d e : Nat) : t.fabricPort d e = s.fabricPort d e := by
  have hcost : ∀ n, t.fabricCost e n = s.fabricCost e n := by
    intro n
    induction n with
    | zero => rfl
    | succ n ih => rw [State.fabricCost, ih, h.viaPort, State.fabricCost]
  unfold State.fabricPort
  rw [hcost, h.viaPort]

theorem netVia (h : SameRoutes s t) (d : DieIx) : t.netVia d = s.netVia d := by
  funext ok c n p
  simp only [State.netVia, State.netDelay, State.entryOf, h.settings, h.moduleNo, h.routable, State.rf, h.regs, State.stroke, h.timer]

theorem netPort (h : SameRoutes s t) (d : DieIx) (ok : Nat → Nat → Nat → Bool) (ms : List Nat) (e : Nat × Nat) :
    t.netPort d ok ms e = s.netPort d ok ms e := by
  have hcost : ∀ n, t.netCost d ok ms e n = s.netCost d ok ms e n := by
    intro n
    induction n with
    | zero => rfl
    | succ n ih =>
      simp only [State.netCost, ih, h.netVia, State.entryOf, h.settings]
  simp only [State.netPort, hcost, h.netVia, h.moduleNo]

theorem moduleOfSlot (h : SameRoutes s t) (k : Nat) : t.moduleOfSlot k = s.moduleOfSlot k := by
  simp only [State.moduleOfSlot, State.ownEntry, h.settings, h.fuses]

theorem route (h : SameRoutes s t) (d : DieIx) (m : Msg) : t.route d m = s.route d m := by
  have hslot (k : Nat) : t.slotOf k = s.slotOf k := by
    simp only [State.slotOf, State.ownEntry, h.settings, h.fuses]
  have hhops (k : Nat) : t.boardHops d k = s.boardHops d k := by
    simp only [State.boardHops, State.boardPort, h.slot, h.fuses, h.moduleNo, h.moduleOfSlot]
  have hboard (k m e : Nat) : t.boardRoute d k m e = s.boardRoute d k m e := by
    have hok : t.boardOk d k = s.boardOk d k := by
      funext m e p
      simp only [State.boardOk, hhops]
    simp only [State.boardRoute, State.boardModules, hhops, hok, h.netPort]
  simp only [State.route, h.moduleNo, h.fabricPort, hslot, hboard, h.netPort, h.settings]

/-- Whether a ring entry can be reached (R93). -/
theorem ringReachable (h : SameRoutes s t) (d : DieIx) (l : Loc) : t.ringReachable d l = s.ringReachable d l := by
  have hmsg : t.ringMsg d l [] 0 = s.ringMsg d l [] 0 := by
    have hreg : t.reg = s.reg := funext₂ h.regs
    unfold State.ringMsg State.mkMsg State.stamp State.endpoint State.dieGen State.colCtx State.colEpoch State.attemptOf State.ctxOf State.colJob State.rf
    rw [hreg, h.timer, h.moduleNo, h.moduleOfSlot]
  have hpresent (e : DieIx) : t.present e = s.present e := by rw [State.present, State.present, State.dieCount, State.dieCount, h.fuses]
  unfold State.ringReachable State.dieFenced
  rw [h.slot, hpresent, h.regs, h.held, h.moduleOfSlot, h.route, hmsg]

end SameRoutes

theorem State.sameRoutes_setQueue (s : State) (d : DieIx) (q : QId) (x : CmdQueue) : SameRoutes s (s.setQueue d q x) := by
  obtain ⟨cs, us, h⟩ := s.setQueue_eq d q x
  have hdie (e : DieIx) : ∃ cs us, (s.setQueue d q x).die e = { s.die e with cores := cs, uq := us } := by
    rw [h]
    by_cases he : e = d
    · subst he
      exact ⟨cs, us, State.die_modDie ..⟩
    · exact ⟨_, _, State.die_modDie_ne s d e _ he⟩
  refine ⟨by rw [h]; rfl, by rw [h]; rfl, fun e off => State.reg_setQueue .., fun e => ?_, fun e => ?_, fun e => ?_⟩ <;>
    (obtain ⟨cs, us, he⟩ := hdie e; rw [he])

/-! ### Writing a record (R92, R93) -/

theorem State.dies_postCq (s : State) (i : Fin 64) (r : Completion) : (s.postCq i r).dies = s.dies := by
  unfold State.postCq
  dsimp only
  split
  · rw [State.dies_flushCq]
    rfl
  · rfl

/-- From s to t a queue of a die, the HEAD of its ring, and memory are as they were. -/
structure KeepsRing (d : DieIx) (q : QId) (s t : State) : Prop where
  queue : t.queue d q = s.queue d q
  head : t.rf d (qRing q + 12) 0 16 = s.rf d (qRing q + 12) 0 16
  mem : t.mem = s.mem

namespace KeepsRing

variable {d : DieIx} {q : QId} {s t u : State}

theorem trans (h : KeepsRing d q s t) (k : KeepsRing d q t u) : KeepsRing d q s u :=
  ⟨k.queue.trans h.queue, k.head.trans h.head, k.mem.trans h.mem⟩

theorem of_dies (hd : t.dies = s.dies) (hm : t.mem = s.mem) : KeepsRing d q s t := by
  refine ⟨?_, by simp [State.rf, State.reg, State.die, hd], hm⟩
  cases q <;> simp [State.queue, State.core, State.die, hd]

end KeepsRing

/-- Pelbex consumes a record by moving TAIL alone. -/
theorem State.consume_keepsRing (s : State) (d : DieIx) (q : QId) : KeepsRing d q s (s.consume d q) := by
  refine ⟨State.queue_setReg .., ?_, rfl⟩
  have hreg : (s.consume d q).reg d (qRing q + 12) = setFld (s.reg d (qRing q + 12)) 16 16 (s.rf d (qRing q + 12) 16 16 + 1) := State.reg_setReg ..
  rw [State.rf, hreg]
  exact fld_setFld_apart _ _ (.inl (by decide))

/-- A record that goes on to a completion queue, or that Pelbex takes, leaves HEAD and memory alone. -/
theorem State.forward_keepsRing (s : State) (d : DieIx) (q : QId) (l : Loc) (r : Completion) : KeepsRing d q s (s.forward d q l r) := by
  have hconsume := s.consume_keepsRing d q
  unfold State.forward
  split
  · exact .of_dies rfl rfl
  split
  · next i _ =>
    split
    · exact hconsume.trans (.of_dies (State.dies_postCq ..) (State.postCq_sparesMem (hi := False) _ i r).mem)
    · exact .of_dies rfl rfl
  · dsimp only
    split
    · exact hconsume
    · exact hconsume.trans (.of_dies rfl rfl)

/-- The bytes of a record leave the queues and the pointers of the rings alone. -/
theorem State.putRing_spec (s : State) (d : DieIx) (l : Loc) (bs : List Byte) (job : BitVec 12) (q : QId) :
    (s.putRing d l bs job).queue d q = s.queue d q ∧ KeepsAside s (s.putRing d l bs job) := by
  unfold State.putRing
  split
  · exact ⟨(State.memWrite_spares ..).queue d q, State.memWrite_keepsAside ..⟩
  · have hmail := s.sendMsg_mailOnly d (s.ringMsg d l bs job)
    refine ⟨?_, hmail.keepsAside⟩
    obtain ⟨inbox, ports, h⟩ := hmail
    rw [h]
    apply State.queue_modDie <;> exact fun _ => rfl

/-- The entry of the event log that tells of a lost record (R93). -/
def lostEntry (r : Completion) : LogEntry :=
  ⟨r.stamp, r.source, 0x0204, r.status, r.gen, none, BitVec.ofNat 64 (r.tag.toNat + r.status.toNat * 2 ^ 16 + r.kind.toNat * 2 ^ 24)⟩

/-- A record that is lost is the last entry of the event log; queues and rings stay. -/
theorem State.loseRecord_spec (s : State) (d : DieIx) (r : Completion) (q : QId) :
    (s.loseRecord d r).queue d q = s.queue d q ∧ KeepsAside s (s.loseRecord d r)
      ∧ ((s.loseRecord d r).die d).log.getLast? = some (lostEntry r) := by
  have hlog : KeepsAside s (s.modDie d (fun x => x.addLog (lostEntry r))) := .modDie s d (fun _ => rfl) (fun _ => rfl)
  have hqueue : (s.modDie d (fun x => x.addLog (lostEntry r))).queue d q = s.queue d q := by
    apply State.queue_modDie <;> exact fun _ => rfl
  have hdie : (s.loseRecord d r).die d = (s.die d).addLog (lostEntry r) :=
    State.die_modDie s d (fun x => x.addLog (lostEntry r))
  refine ⟨?_, hlog.trans (.of_dies rfl), ?_⟩
  · rw [← hqueue]
    cases q <;> rfl
  · rw [hdie]
    exact List.getLast?_concat ..

/-- HEAD counts one on, modulo 2¹⁶. -/
theorem State.advanceHead_spec (s : State) (d : DieIx) (q : QId) :
    (s.advanceHead d q).queue d q = s.queue d q ∧ (s.advanceHead d q).rf d (qRing q + 12) 0 16 = (s.rf d (qRing q + 12) 0 16 + 1) % 65536
      ∧ ((s.advanceHead d q).die d).log = (s.die d).log := by
  have hreg : (s.advanceHead d q).reg d (qRing q + 12) = setFld (s.reg d (qRing q + 12)) 0 16 (s.rf d (qRing q + 12) 0 16 + 1) := State.reg_setReg ..
  refine ⟨State.queue_setReg .., ?_, ?_⟩
  · rw [State.rf, hreg]
    exact fld_setFld_same _ _ (by decide)
  · simp [State.advanceHead, State.setRf, State.modReg, State.setReg, Die.setReg]

/-- Where the ring cannot be reached the record is logged instead (R93). -/
theorem State.writeRecord_lost {s : State} {d : DieIx} {q : QId} (h : s.ringReachable d (locOf (s.ringEntry d q)) = false) (r : Completion) :
    s.writeRecord d q r = (s.loseRecord d r).advanceHead d q := by
  simp [State.writeRecord, h]

/-- Where it can, the record's bytes go there, and Pelbex may be told. -/
theorem State.writeRecord_put {s : State} {d : DieIx} {q : QId} (h : s.ringReachable d (locOf (s.ringEntry d q)) = true) (r : Completion) :
    ∃ is, s.writeRecord d q r =
      { (s.putRing d (locOf (s.ringEntry d q)) (r.bytes (s.ringPhase d q)) r.job).advanceHead d q with irqs := is } := by
  simp only [State.writeRecord, h]
  by_cases hirq : r.irq = true
  · exact ⟨_, by simp [hirq, State.raise]; rfl⟩
  · exact ⟨_, by simp [hirq]; rfl⟩

theorem length_completionBytes (r : Completion) (phase : Bool) : (r.bytes phase).length = 32 := by
  simp [Completion.bytes, length_leBytes]

/-- What becomes of the record that is written: HEAD counts on, the queue stays, and memory changes at its place alone. -/
theorem State.writeRecord_spec (s : State) (d : DieIx) (q : QId) (r : Completion) :
    let t := s.writeRecord d q r
    let l := locOf (s.ringEntry d q)
    t.queue d q = s.queue d q ∧ t.rf d (qRing q + 12) 0 16 = (s.rf d (qRing q + 12) 0 16 + 1) % 65536
      ∧ (s.ringReachable d l = false ∨ l.slot ≠ s.slot → t.mem = s.mem)
      ∧ (s.ringReachable d l = false → (t.die d).log.getLast? = some (lostEntry r))
      ∧ (s.ringReachable d l = true → l.slot = s.slot →
          t.mem.cells = pokeCells s.mem.cells (memKey l.die l.region l.off) (r.bytes (s.ringPhase d q))) := by
  intro t l
  cases hreach : s.ringReachable d l with
  | false =>
    obtain ⟨hqueue, haside, hlog⟩ := s.loseRecord_spec d r q
    obtain ⟨hqueue', hhead, hlog'⟩ := (s.loseRecord d r).advanceHead_spec d q
    have hrf : (s.loseRecord d r).rf d (qRing q + 12) 0 16 = s.rf d (qRing q + 12) 0 16 := by rw [State.rf, haside.heads, State.rf]
    simp only [t, State.writeRecord_lost hreach]
    exact ⟨hqueue'.trans hqueue, by rw [hhead, hrf], fun _ => rfl, fun _ => by rw [hlog', hlog], nofun⟩
  | true =>
    obtain ⟨is, ht⟩ := State.writeRecord_put hreach r
    obtain ⟨hqueue, haside⟩ := s.putRing_spec d l (r.bytes (s.ringPhase d q)) r.job q
    obtain ⟨hqueue', hhead, -⟩ := (s.putRing d l (r.bytes (s.ringPhase d q)) r.job).advanceHead_spec d q
    have hrf : (s.putRing d l (r.bytes (s.ringPhase d q)) r.job).rf d (qRing q + 12) 0 16 = s.rf d (qRing q + 12) 0 16 := by
      rw [State.rf, haside.heads, State.rf]
    have hdie : (dieIx l.die).val = l.die := Nat.mod_eq_of_lt (Nat.mod_lt _ (by decide))
    simp only [t, ht]
    refine ⟨?_, hhead.trans (by rw [hrf]), fun h => ?_, nofun, fun _ hslot => ?_⟩
    · rw [← hqueue, ← hqueue']
      cases q <;> rfl
    · have hslot : l.slot ≠ s.slot := h.resolve_left (by simp)
      have hput : s.putRing d l (r.bytes (s.ringPhase d q)) r.job = s.sendMsg d (s.ringMsg d l (r.bytes (s.ringPhase d q)) r.job) := if_neg hslot
      exact (congrArg State.mem hput).trans (s.sendMsg_mailOnly d _).mem
    · have hput : s.putRing d l (r.bytes (s.ringPhase d q)) r.job =
          s.memWrite ⟨d, r.job, false⟩ (dieIx l.die) l.region l.off (r.bytes (s.ringPhase d q)) (List.replicate 32 false) := if_pos hslot
      have hcells := State.memWrite_cells s ⟨d, r.job, false⟩ (dieIx l.die) l.region l.off (r.bytes (s.ringPhase d q)) (List.replicate 32 false)
      rw [hdie] at hcells
      exact (congrArg (fun v : State => v.mem.cells) hput).trans hcells

/-- A queue in which the records rs wait. -/
def State.setDone (s : State) (d : DieIx) (q : QId) (rs : List Completion) : State := s.modQueue d q (fun x => { x with done := rs })

theorem State.queue_setDone (s : State) (d : DieIx) (q : QId) (rs : List Completion) :
    (s.setDone d q rs).queue d q = { s.queue d q with done := rs } := State.queue_modQueue ..

theorem State.flushRecord_of_room {s : State} {d : DieIx} {q : QId} {r : Completion} {rs : List Completion} (hdone : (s.queue d q).done = r :: rs)
    (hroom : s.ringFull d q = false) :
    s.flushRecord d q = (if s.ringReachable d (locOf (s.ringEntry d q))
      then ((s.setDone d q rs).writeRecord d q r).forward d q (locOf (s.ringEntry d q)) r else (s.setDone d q rs).writeRecord d q r).startQueue d q := by
  unfold State.flushRecord
  simp only [hdone, hroom]
  rfl

/-- The oldest record of a queue goes to its place in a ring with room (R92, R93). -/
theorem State.flushRecord_spec {s : State} {d : DieIx} {q : QId} {r : Completion} {rs : List Completion} (hdone : (s.queue d q).done = r :: rs)
    (hroom : s.ringFull d q = false) :
    let t := s.flushRecord d q
    let l := locOf (s.ringEntry d q)
    (∃ more, (t.queue d q).done = rs ++ more) ∧ t.rf d (qRing q + 12) 0 16 = (s.rf d (qRing q + 12) 0 16 + 1) % 65536
      ∧ (s.ringReachable d l = false ∨ l.slot ≠ s.slot → t.mem = s.mem)
      ∧ (s.ringReachable d l = false → (s.queue d q).entries = [] → (t.die d).log.getLast? = some (lostEntry r))
      ∧ (s.ringReachable d l = true → l.slot = s.slot →
          t.mem.cells = pokeCells s.mem.cells (memKey l.die l.region l.off) (r.bytes (s.ringPhase d q))) := by
  intro t l
  have hsame : SameRoutes s (s.setDone d q rs) := s.sameRoutes_setQueue d q _
  have hentry : (s.setDone d q rs).ringEntry d q = s.ringEntry d q := by
    simp only [State.ringEntry, State.ringEntryAt, State.ringSize, State.reg64, State.rf, hsame.regs]
  have hphase : (s.setDone d q rs).ringPhase d q = s.ringPhase d q := by
    unfold State.ringPhase State.ringPhaseAt State.ringSize State.rf
    rw [hsame.regs, hsame.regs]
  have hmem0 : (s.setDone d q rs).mem = s.mem := State.mem_setQueue ..
  obtain ⟨hqueue, hhead, hmem, hlog, hcells⟩ := (s.setDone d q rs).writeRecord_spec d q r
  rw [hentry, hsame.ringReachable, hsame.slot, hmem0] at hmem
  rw [hentry, hsame.ringReachable] at hlog
  rw [hentry, hsame.ringReachable, hsame.slot, hphase, hmem0] at hcells
  rw [State.rf, State.rf, hsame.regs] at hhead
  obtain ⟨x, hx, hring, hlost⟩ : ∃ x, t = State.startQueue x d q ∧ KeepsRing d q ((s.setDone d q rs).writeRecord d q r) x
      ∧ (s.ringReachable d l = false → x = (s.setDone d q rs).writeRecord d q r) := by
    refine ⟨_, State.flushRecord_of_room hdone hroom, ?_, fun h => ?_⟩
    · split
      · exact State.forward_keepsRing ..
      · exact .of_dies rfl rfl
    · rw [show s.ringReachable d (locOf (s.ringEntry d q)) = false from h]
      rfl
  have hwork := x.startQueue_queueWork d q
  rw [hx]
  refine ⟨?_, ?_, fun h => ?_, fun h hempty => ?_, fun h hslot => ?_⟩
  · obtain ⟨more, hmore⟩ := x.startQueue_grows d d q q
    exact ⟨more, by rw [hmore, hring.queue, hqueue, State.queue_setDone]⟩
  · rw [State.rf, hwork.heads]
    exact hring.head.trans hhead
  · rw [hwork.mem, hring.mem, hmem h]
  · have hidle : (x.queue d q).entries = [] := by rw [hring.queue, hqueue, State.queue_setDone]; exact hempty
    rw [State.startQueue_eq_self (State.startHead_nil hidle), hlost h]
    exact hlog h
  · rw [hwork.mem, hring.mem, hcells h hslot]

/-! ### The requests of a command that ends (R97, R103) -/

/-- The oldest request of a queue that has had no reply for too long (R103). -/
def State.overdue (s : State) (d : DieIx) (q : QId) : Option Outstanding :=
  (s.die d).outstanding.find? (fun o => decide (o.queue = qNum q) && o.reply.isNone && begun (s.stroke d) (o.sent.toNat + s.rto d q))

section

variable {s : State} {d : DieIx} {q : QId}

theorem exec_replyTimeout_idle (hready : Ready s d) (h : s.overdue d q = none) : exec (.replyTimeout d q) s = .next s := by
  unfold State.overdue at h
  rw [show exec (.replyTimeout d q) s = execReplyTimeout d q s from rfl, execReplyTimeout, onDie_ready hready]
  simp only [h]

theorem exec_replyTimeout_unowned {o : Outstanding} (hready : Ready s d) (h : s.overdue d q = some o) (hown : s.ownerOf d o = none) :
    exec (.replyTimeout d q) s = .next (s.modDie d (fun x => { x with outstanding := x.outstanding.erase o })) := by
  unfold State.overdue at h
  rw [show exec (.replyTimeout d q) s = execReplyTimeout d q s from rfl, execReplyTimeout, onDie_ready hready]
  simp only [h, hown]

theorem exec_replyTimeout_owned {o : Outstanding} {r : Running} (hready : Ready s d) (h : s.overdue d q = some o) (hown : s.ownerOf d o = some r)
    (hack : r.acking = false) : exec (.replyTimeout d q) s = .next (s.finish d q r (r.result [stTimeout])) := by
  unfold State.overdue at h
  rw [show exec (.replyTimeout d q) s = execReplyTimeout d q s from rfl, execReplyTimeout, onDie_ready hready]
  simp only [h, hown, State.stopEarly_of_working hack]

end

theorem State.releaseClaim_keepsAside (s : State) (e : DieIx) : KeepsAside s (s.releaseClaim e) :=
  (KeepsAside.setReg s e _ (offRings_of_place (by decide))).trans (.setReg _ e _ (offRings_of_place (by decide)))

theorem State.cruEnd_keepsAside (s : State) (d : DieIx) (r : Running) : KeepsAside s (s.cruEnd d r) := by
  have hspoil (t : State) (e : DieIx) (k : Nat) : KeepsAside t (t.spoilClaim d e k) := by
    refine KeepsAside.foldl _ (fun _ _ => ?_) t
    exact .of_dies rfl
  have hclaim : KeepsAside s (if s.claims d r.desc then
      (cruDies (s.cruMask d r.desc)).foldl (fun t e => (if s.solving d r then t.spoilClaim d e (dAux r.desc % 64) else t).releaseClaim e) s
    else s) :=
    .ite (.foldl _ (fun t e => (KeepsAside.ite (hspoil t e _) (.refl t)).trans (State.releaseClaim_keepsAside _ e)) s) (.refl s)
  unfold State.cruEnd
  dsimp only
  refine .ite (hclaim.trans ?_) hclaim
  exact .modDie _ d (fun _ => rfl) (fun _ => rfl)

theorem State.setLends_keepsAside (s : State) (d : DieIx) (l : List (Nat × Option Stroke)) : KeepsAside s (s.setLends d l) := by
  refine KeepsAside.trans ?_ (.setReg _ d _ (offRings_of_place (by decide)))
  refine KeepsAside.trans ?_ (.setReg _ d _ (offRings_of_place (by decide)))
  refine KeepsAside.trans ?_ (.setReg _ d _ (offRings_of_place (by decide)))
  exact .modDie s d (fun _ => rfl) (fun _ => rfl)

theorem State.hltEnd_keepsAside (s : State) (d : DieIx) : KeepsAside s (s.hltEnd d) := by
  refine KeepsAside.trans ?_ (State.setLends_keepsAside _ d _)
  exact .modDie s d (fun _ => rfl) (fun _ => rfl)

/-- A command that ends takes its requests along. -/
theorem State.outstanding_finish (s : State) (d : DieIx) (q : QId) (r : Running) (res : Result) :
    ((s.finish d q r res).die d).outstanding = (s.die d).outstanding.filter (fun o => !(decide (o.queue = qNum q) && decide (o.ident = r.ident))) := by
  have hrest (v : State) : KeepsAside v (((v.record d q r.desc r.ident (some r.released) res).startQueue d q).startAfter q) :=
    (((v.record_queueWork d q _ _ _ _).trans (State.startQueue_queueWork _ d q)).trans (State.startAfter_queueWork _ q)).toKeepsAside
  unfold State.finish
  dsimp only
  rw [(hrest _).outstanding]
  have hreq : ((s.dropReqs d q r).die d).outstanding =
      (s.die d).outstanding.filter (fun o => !(decide (o.queue = qNum q) && decide (o.ident = r.ident))) :=
    (congrArg Die.outstanding (State.die_modDie s d _) :)
  refine Eq.trans (KeepsAside.outstanding (s := s.dropReqs d q r) ?_ d) hreq
  refine (QueueWork.modQueue (s.dropReqs d q r) d q (fun x => { x with running := x.running.filter (fun y => y.ident != r.ident) })).toKeepsAside.trans ?_
  cases q with
  | core c => exact (QueueWork.modCore _ d c _).toKeepsAside.trans (.modDie _ d (fun _ => rfl) (fun _ => rfl))
  | cru => exact State.cruEnd_keepsAside ..
  | hlt => exact State.hltEnd_keepsAside ..
  | col => exact .modDie _ d (fun _ => rfl) (fun _ => rfl)
  | txe => exact .modDie _ d (fun _ => rfl) (fun _ => rfl)
  | _ => exact .refl _

end Sys2Proof.Machine
end

section
open Sys2Proof Sys2Proof.Machine
open Host (Outcome)

/-- Settles O29. -/
theorem completionRecordsAreWritten : Obligations.CompletionRecordsAreWritten := by
  refine ⟨?_, ?_, ?_⟩
  · intro s d q r rs hready hdone l key head
    have hexec : exec (.completionRecord d q) s = .next (s.flushRecord d q) := onDie_ready hready (fun t => t.flushRecord d q)
    rw [hexec]
    refine ⟨fun hfull => ?_, fun hroom => ?_⟩
    · simp [State.flushRecord, hdone, hfull]
    · obtain ⟨⟨more, hmore⟩, hhead, hmem, hlog, hcells⟩ := State.flushRecord_spec hdone hroom
      refine ⟨_, more, rfl, hmore, hhead, hmem, hlog, fun hreach hslot _ => ?_⟩
      have hlen := length_completionBytes r (s.ringPhase d q)
      rw [hcells hreach hslot]
      refine ⟨fun i hi => ?_, fun a ha => ?_⟩
      · exact get_pokeCells_at _ _ _ (by omega)
      · exact get_pokeCells_off _ _ _ (by rw [hlen]; exact ha)
  · intro s d q hready hdone
    have hexec : exec (.completionRecord d q) s = .next (s.flushRecord d q) := onDie_ready hready (fun t => t.flushRecord d q)
    rw [hexec]
    simp [State.flushRecord, hdone]
  · intro s d q hready waits
    refine ⟨exec_replyTimeout_idle hready, fun o ho => ⟨fun hown => ⟨_, exec_replyTimeout_unowned hready ho hown, rfl⟩, fun r hown hack hrel => ?_⟩⟩
    refine ⟨_, exec_replyTimeout_owned hready ho hown hack, State.finish_filed rfl (.inl hrel), fun x hx => ?_, fun hstats => by rw [hstats]; rfl⟩
    rw [State.outstanding_finish] at hx
    have hother := (List.mem_filter.mp hx).2
    rintro ⟨hqueue, hident⟩
    simp [hqueue, hident] at hother
end

section
/-! PROOF. Host queues (R92, R465, R466, R468 to R471, R480 to R482, R484). -/

namespace Sys2Proof.Machine

/-! ### Host queues and the host's memory -/

@[simp] theorem State.hostQ_setHostQ (s : State) (q : Fin 64) (x : HostQ) : (s.setHostQ q x).hostQ q = x := by
  simp [State.hostQ, State.setHostQ]

theorem State.hostQ_setHostQ_ne (s : State) {p q : Fin 64} (x : HostQ) (h : p ≠ q) : (s.setHostQ q x).hostQ p = s.hostQ p := by
  have hne : q.val ≠ p.val := fun he => h (Fin.ext he.symm)
  simp [State.hostQ, State.setHostQ, Vector.getElem_set_ne _ _ hne]

@[simp] theorem State.setHostQ_setHostQ (s : State) (q : Fin 64) (x y : HostQ) : (s.setHostQ q x).setHostQ q y = s.setHostQ q y := by
  simp [State.setHostQ]

/-- Bytes put into the host's memory stand at their place. -/
theorem State.host_pokeHost (s : State) (a : Nat) (bs : List Byte) : (s.pokeHost a bs).host.cells = pokeCells s.host.cells a bs := by
  have hfold : ∀ (l : List Byte) (cs : List (Nat × Byte)) (n : Nat),
      (l.zipIdx n).foldl (fun cs p => SMap.set 0 cs (a + p.2) p.1) cs = pokeCells cs (a + n) l := by
    intro l
    induction l with
    | nil => exact fun _ _ => rfl
    | cons b l ih =>
      intro cs n
      rw [List.zipIdx_cons, List.foldl_cons, ih, pokeCells, Nat.add_assoc]
  exact hfold bs s.host.cells 0

/-! ### Records on their way (R469) -/

/-- The state in which a queue's oldest held record has gone to its place in the host's memory. -/
def State.wroteCq (s : State) (q : Fin 64) (r : Completion) (rs : List Completion) : State :=
  let x := s.hostQ q
  let t := (s.pokeHost (x.base + 32 * (x.cqTail % 2 ^ x.cqLog)) (r.bytes (decide (x.cqTail / 2 ^ x.cqLog % 2 = 0)))).setHostQ q
    { x with hold := rs, cqTail := (x.cqTail + 1) % 65536 }
  if r.irq then { t with msix := t.msix ++ [x.vector] } else t

section

variable {s : State} {q : Fin 64}

theorem State.writeCq_empty (h : (s.hostQ q).hold = []) : s.writeCq q = none := by simp [State.writeCq, h]

theorem State.writeCq_waits (h : (s.hostQ q).enabled = false ∨ (s.hostQ q).full = true ∨ s.pcieUp = false) : s.writeCq q = none := by
  unfold State.writeCq
  dsimp only
  split
  · rfl
  · exact if_pos (by simpa using h)

theorem State.writeCq_cons {r : Completion} {rs : List Completion} (h : (s.hostQ q).hold = r :: rs) (hon : (s.hostQ q).enabled = true)
    (hroom : (s.hostQ q).full = false) (hup : s.pcieUp = true) : s.writeCq q = some (s.wroteCq q r rs) := by
  simp [State.writeCq, State.wroteCq, h, hon, hroom, hup]

theorem State.flushCqN_waits (h : s.writeCq q = none) (n : Nat) : s.flushCqN q n = s := by
  cases n with
  | zero => rfl
  | succ n => rw [State.flushCqN, h]

/-- Nothing follows while no record is held, or none can be written, and no event was lost. -/
theorem State.flushCq_waits (h : s.writeCq q = none) (hlost : (s.hostQ q).lost = 0) : s.flushCq q = s := by
  unfold State.flushCq
  simp only [State.flushCqN_waits h, hlost, ne_eq, not_true_eq_false, false_and, if_false]

theorem State.hostQ_wroteCq (s : State) (q : Fin 64) (r : Completion) (rs : List Completion) :
    (s.wroteCq q r rs).hostQ q = { s.hostQ q with hold := rs, cqTail := ((s.hostQ q).cqTail + 1) % 65536 } := by
  unfold State.wroteCq
  dsimp only
  split <;> exact State.hostQ_setHostQ ..

theorem State.wroteCq_spec (s : State) (q : Fin 64) (r : Completion) (rs : List Completion) :
    (s.wroteCq q r rs).msix = (if r.irq then s.msix ++ [(s.hostQ q).vector] else s.msix)
      ∧ (s.wroteCq q r rs).host.cells = pokeCells s.host.cells ((s.hostQ q).base + 32 * ((s.hostQ q).cqTail % 2 ^ (s.hostQ q).cqLog))
          (r.bytes (decide ((s.hostQ q).cqTail / 2 ^ (s.hostQ q).cqLog % 2 = 0))) := by
  unfold State.wroteCq
  cases r.irq <;> simp [State.host_pokeHost]

/-- The only record held is written where it can be. -/
theorem State.flushCq_single {r : Completion} (h : (s.hostQ q).hold = [r]) (hlost : (s.hostQ q).lost = 0) (hon : (s.hostQ q).enabled = true)
    (hroom : (s.hostQ q).full = false) (hup : s.pcieUp = true) : s.flushCq q = s.wroteCq q r [] := by
  have hnext : (s.wroteCq q r []).writeCq q = none := State.writeCq_empty (by rw [State.hostQ_wroteCq])
  have hflush : s.flushCqN q ((s.hostQ q).hold.length + 1) = s.wroteCq q r [] := by
    rw [State.flushCqN, State.writeCq_cons h hon hroom hup]
    exact State.flushCqN_waits hnext _
  have hlost' : ((s.wroteCq q r []).hostQ q).lost = 0 := by rw [State.hostQ_wroteCq]; exact hlost
  unfold State.flushCq
  simp only [hflush, hlost', ne_eq, not_true_eq_false, false_and, if_false]

theorem State.startHost_idle (h : (s.hostQ q).entries = []) : s.startHost q = s := by
  rw [State.startHost, h]
  rfl

end

/-! ### A host command ends (R91, R469) -/

/-- The record of a host command. -/
def State.hostCompletion (s : State) (c : HostCmd) (r : Result) : Completion :=
  { stamp := s.stamp firstDie, tag := BitVec.ofNat 16 (dTag c.desc), status := BitVec.ofNat 8 (pickStatus r.statuses), cflags := r.cflags
    kind := BitVec.ofNat 8 (dKind c.desc), source := s.endpoint firstDie 63, hallmark := r.hallmark, job := dJob c.desc
    epoch := BitVec.ofNat 8 (dEpoch c.desc), gen := s.dieGen firstDie, step := BitVec.ofNat 32 (dStep c.desc), detail := r.detail
    irq := dIrq c.desc }

/-- The queue of a host command that has ended, whose record is held. -/
def HostQ.ended (x : HostQ) (c : HostCmd) (r : Completion) : HostQ :=
  { x with running := x.running.filter (fun y => y.ident != c.ident), hold := [r] }

section

variable {s : State} {q : Fin 64} (c : HostCmd) (r : Result)

/-- With an idle queue the end of a command posts its record alone. -/
theorem State.hostFinish_idle (hidle : (s.hostQ q).entries = []) (hhold : (s.hostQ q).hold = []) (hlost : (s.hostQ q).lost = 0) :
    let t := s.setHostQ q ((s.hostQ q).ended c (s.hostCompletion c r))
    ((s.hostQ q).enabled = true → (s.hostQ q).full = false → s.pcieUp = true → s.hostFinish q c r = t.wroteCq q (s.hostCompletion c r) [])
      ∧ ((s.hostQ q).enabled = false ∨ (s.hostQ q).full = true ∨ s.pcieUp = false → s.hostFinish q c r = t) := by
  intro t
  have ht : t.hostQ q = (s.hostQ q).ended c (s.hostCompletion c r) := State.hostQ_setHostQ ..
  have hpost : s.hostFinish q c r = (t.flushCq q).startHost q := by
    unfold State.hostFinish State.hostRecord State.postCq
    simp only [State.hostQ_setHostQ, hhold, List.length_nil, List.nil_append, State.setHostQ_setHostQ, show 0 < 4096 by decide, if_true]
    rfl
  rw [hpost]
  refine ⟨fun hon hroom hup => ?_, fun hwait => ?_⟩
  · have hflush : t.flushCq q = t.wroteCq q (s.hostCompletion c r) [] :=
      State.flushCq_single (by rw [ht]; rfl) (by rw [ht]; exact hlost) (by rw [ht]; exact hon) (by rw [ht]; exact hroom) hup
    rw [hflush, State.startHost_idle]
    rw [State.hostQ_wroteCq, ht]
    exact hidle
  · have hflush : t.flushCq q = t := State.flushCq_waits (State.writeCq_waits (by rw [ht]; exact hwait)) (by rw [ht]; exact hlost)
    rw [hflush, State.startHost_idle]
    rw [ht]
    exact hidle

end

/-! ### Doorbells (R468 to R470, R484) -/

/-- The descriptors that a doorbell hands over. -/
def HostQ.fresh (x : HostQ) (tail : Nat) (descs : List (Desc × Bool)) : List (Desc × Bool) :=
  (List.range ((tail + 2 ^ x.sqLog - x.head) % 2 ^ x.sqLog)).map (fun i => descs.getD i (0, false))

/-- A queue whose doorbell names a tail, with entries and the identity of the next. -/
def HostQ.rung (x : HostQ) (tail : Nat) (entries : List HostCmd) (next : Nat) : HostQ :=
  { x with head := tail, tail := tail, entries := entries, nextIdent := next }

section

variable {s : State} {q : Fin 64} {tail : Nat} (descs : List (Desc × Bool))

theorem State.sqTail_ignored (h : (s.hostQ q).enabled = false ∨ 2 ^ (s.hostQ q).sqLog ≤ tail ∨ (s.bootState ≠ 3 ∧ s.bootState ≠ 4)) :
    s.sqTail q tail descs = s.doorbellIgnored := by
  unfold State.sqTail
  refine if_pos ?_
  rcases h with h | h | ⟨h3, h4⟩
  · exact .inr (.inl (by simp [h]))
  · exact .inr (.inr h)
  · exact .inl (by simp [h3, h4])

theorem State.sqTail_taken (hon : (s.hostQ q).enabled = true) (htail : tail < 2 ^ (s.hostQ q).sqLog) (hboot : s.bootState = 3 ∨ s.bootState = 4) :
    ((s.hostQ q).target = none → s.sqTail q tail descs = (s.setHostQ q ((s.hostQ q).rung tail ((s.hostQ q).entries ++
        (((s.hostQ q).fresh tail descs).zipIdx).map (fun p => ⟨(s.hostQ q).nextIdent + p.2, p.1.1, p.1.2⟩))
        ((s.hostQ q).nextIdent + (tail + 2 ^ (s.hostQ q).sqLog - (s.hostQ q).head) % 2 ^ (s.hostQ q).sqLog))).startHost q)
    ∧ (∀ d e, (s.hostQ q).target = some (d, e) → s.sqTail q tail descs = ((s.hostQ q).fresh tail descs).foldl (fun t p => t.push d e p.1 p.2)
        (s.setHostQ q ((s.hostQ q).rung tail (s.hostQ q).entries (s.hostQ q).nextIdent))) := by
  have hgo : ¬ ((!decide (s.bootState = 3 ∨ s.bootState = 4)) = true ∨ (!(s.hostQ q).enabled) = true ∨ tail ≥ 2 ^ (s.hostQ q).sqLog) := by
    simp [hon, hboot, htail]
  refine ⟨fun h => ?_, fun d e h => ?_⟩
  · unfold State.sqTail
    simp only [if_neg hgo, h, State.hostQ_setHostQ, State.setHostQ_setHostQ, HostQ.rung, HostQ.fresh]
  · unfold State.sqTail
    simp only [if_neg hgo, h, HostQ.rung, HostQ.fresh]

end

/-- PEL_CQ_HEAD of a queue that holds nothing back frees entries alone. -/
theorem exec_pelCqHead_idle {s : State} {q : Fin 64} {head : BitVec 16} (hon : (s.hostQ q).enabled = true)
    (hroom : ((s.hostQ q).cqTail + 65536 - head.toNat) % 65536 ≤ 2 ^ (s.hostQ q).cqLog) (hhold : (s.hostQ q).hold = []) (hlost : (s.hostQ q).lost = 0)
    (hringed : (s.hostQ q).ringed = []) : exec (.pelCqHead q head) s = .next (s.setHostQ q { s.hostQ q with cqHead := head.toNat }) := by
  have hgo : ¬ ((!(s.hostQ q).enabled) = true ∨ ((s.hostQ q).cqTail + 65536 - head.toNat) % 65536 > 2 ^ (s.hostQ q).cqLog) := by
    simp [hon, hroom]
  have hflush : (s.setHostQ q { s.hostQ q with cqHead := head.toNat }).flushCq q = s.setHostQ q { s.hostQ q with cqHead := head.toNat } :=
    State.flushCq_waits (State.writeCq_empty (by rw [State.hostQ_setHostQ]; exact hhold)) (by rw [State.hostQ_setHostQ]; exact hlost)
  rw [show exec (.pelCqHead q head) s = execPelCqHead q head s from rfl, execPelCqHead]
  dsimp only
  have hnone : ((s.setHostQ q { s.hostQ q with cqHead := head.toNat }).hostQ q).ringed = [] := by rw [State.hostQ_setHostQ]; exact hringed
  rw [if_neg hgo, hflush, hnone]
  exact congrArg _ hflush

/-! ### The admin queue (R480, R481) -/

/-- The word of PEL_AQ_CTL after a write: a size out of range keeps its value (R7). -/
def State.aqWord (s : State) (v : Word) : Word :=
  let old := s.preg rPelAq
  let a := if 4 ≤ fld v 0 8 ∧ fld v 0 8 ≤ 12 then v &&& 0x803F_FFFF else setFld (v &&& 0x803F_FFFF) 0 8 (fld old 0 8)
  if 4 ≤ fld v 8 8 ∧ fld v 8 8 ≤ 15 then a else setFld a 8 8 (fld old 8 8)

/-- While the admin queue is enabled, clearing ENABLE alone has an effect. -/
theorem exec_pelAqCtl_on {s : State} {v : Word} (hon : (s.hostQ 0).enabled = true) : exec (.pelAqCtl v) s =
    .next (if bitAt v 31 then s else (s.setPreg rPelAq (s.aqWord v)).setHostQ 0 { s.hostQ 0 with enabled := false, entries := [] }) := by
  rw [show exec (.pelAqCtl v) s = execPelAqCtl v s from rfl, execPelAqCtl]
  simp only [hon, decide_eq_true_eq, State.aqWord]
  rfl

/-- Valid sizes enable it. -/
theorem exec_pelAqCtl_enable {s : State} {v : Word} (hoff : (s.hostQ 0).enabled = false) (hset : bitAt v 31 = true)
    (hsq : 4 ≤ fld v 0 8 ∧ fld v 0 8 ≤ 12) (hcq : 4 ≤ fld v 8 8 ∧ fld v 8 8 ≤ 15) : exec (.pelAqCtl v) s =
    .next (((s.setPreg rPelAq (s.aqWord v)).setHostQ 0 { s.hostQ 0 with
      enabled := true, sqLog := fld v 0 8, cqLog := fld v 8 8, vector := fld v 16 6, target := none, head := 0, tail := 0, cqHead := 0, cqTail := 0
      base := ((s.preg (rPelAcq + 4)) ++ (s.preg rPelAcq)).toNat }).flushCq 0) := by
  rw [show exec (.pelAqCtl v) s = execPelAqCtl v s from rfl, execPelAqCtl]
  simp only [hoff, hset, hsq, hcq, decide_eq_true_eq, State.aqWord]
  rfl

/-! ### NOP and QUEUE_BIND (R470, R471) -/

/-- What a host command does when one runs. -/
theorem hostRun_of_find {s : State} {q : Fin 64} {pick : Desc → Bool} {c : HostCmd}
    (h : (s.hostQ q).running.find? (fun c => pick c.desc) = some c) (k : HostCmd → State) : hostRun s q pick k = .next (k c) := by
  simp [hostRun, h]

/-- The queue that a QUEUE_BIND names. -/
def boundQ (x : Desc) : Fin 64 := ⟨hbyte x 24 % 64, Nat.mod_lt _ (by decide)⟩

/-- A queue as QUEUE_BIND leaves it before it enables it: what runs goes on. -/
def HostQ.unbound (y : HostQ) : HostQ := { HostQ.reset with running := y.running, nextIdent := y.nextIdent }

section

variable {s : State} {q : Fin 64} {c : HostCmd}

theorem State.queueBind_bad (h : hbyte c.desc 24 = 0 ∨ 63 < hbyte c.desc 24 ∨ 1 < hbyte c.desc 25 ∨ restZero c.desc 40 = false) :
    s.queueBind q c = s.hostFinish q c (.err stFormat) := by
  unfold State.queueBind
  refine if_pos ?_
  rcases h with h | h | h | h
  · exact .inl (by simp [h])
  · exact .inl (by simp [h])
  · exact .inr (.inl h)
  · exact .inr (.inr (by simp [h]))

theorem State.queueBind_off (hlow : 1 ≤ hbyte c.desc 24) (hhigh : hbyte c.desc 24 ≤ 63) (hrest : restZero c.desc 40 = true) (hoff : hbyte c.desc 25 = 0) :
    s.queueBind q c = (s.setHostQ (boundQ c.desc) (s.hostQ (boundQ c.desc)).unbound).hostFinish q c Result.ok := by
  unfold State.queueBind
  simp only [hlow, hhigh, hrest, hoff]
  rfl

theorem State.queueBind_on (hlow : 1 ≤ hbyte c.desc 24) (hhigh : hbyte c.desc 24 ≤ 63) (hrest : restZero c.desc 40 = true) (hon : hbyte c.desc 25 = 1)
    (hpel : hbyte c.desc 37 = 0) (hsq : 4 ≤ hbyte c.desc 26 ∧ hbyte c.desc 26 ≤ 12) (hcq : 4 ≤ hbyte c.desc 27 ∧ hbyte c.desc 27 ≤ 15)
    (hbase : dn c.desc 28 8 % 32 = 0) (hvec : hbyte c.desc 36 ≤ 63) :
    s.queueBind q c = (s.setHostQ (boundQ c.desc) { (s.hostQ (boundQ c.desc)).unbound with
      enabled := true, sqLog := hbyte c.desc 26, cqLog := hbyte c.desc 27, base := dn c.desc 28 8, vector := hbyte c.desc 36, target := none }).hostFinish
        q c Result.ok := by
  have htarget : s.bindTarget c.desc = some none := by simp [State.bindTarget, hpel]
  unfold State.queueBind
  simp only [htarget]
  simp only [hlow, hhigh, hrest, hon, hsq, hcq, hbase, Nat.not_lt.mpr hvec, gt_iff_lt]
  rfl

end

/-! ### The PCIe link and the host interface (R465, R466, R482) -/

theorem State.dies_foldl_flushCq (s : State) (l : List (Fin 64)) : (l.foldl (fun t q => t.flushCq q) s).dies = s.dies :=
  fold_inv (fun t => t.dies = s.dies) _ l s rfl (fun t q h => (State.dies_flushCq t q).trans h)

/-- PEL_PCIE as a link comes up. -/
def pcieWord (gen : Nat) (width : Nat) (flit low : Bool) : Word :=
  BitVec.ofNat 32 ((gen + 1) * 2 ^ 24 + width * 2 ^ 16 + (if flit then 2 ^ 15 else 0) + (if low then 2 ^ 14 else 0))

theorem pcieWord_fields {gen width : Nat} (hgen : gen < 6) (hwidth : width < 256) (flit low : Bool) :
    fld (pcieWord gen width flit low) 24 4 = gen + 1 ∧ fld (pcieWord gen width flit low) 16 8 = width
      ∧ bitAt (pcieWord gen width flit low) 14 = low := by
  have hbit : bitAt (pcieWord gen width flit low) 14 = decide (fld (pcieWord gen width flit low) 14 1 = 1) := by
    have htest := testBit_fld (pcieWord gen width flit low) 14 1 0
    rw [bitAt, show (pcieWord gen width flit low).getLsbD 14 = (fld (pcieWord gen width flit low) 14 1).testBit 0 by simpa using htest.symm]
    have hlt : fld (pcieWord gen width flit low) 14 1 < 2 := Nat.mod_lt _ (by decide)
    interval_cases fld (pcieWord gen width flit low) 14 1 <;> rfl
  rw [hbit]
  unfold pcieWord fld
  rw [BitVec.toNat_ofNat]
  cases flit <;> cases low <;> simp <;> omega

/-- The state in which a link has come up: below 64 GT/s x8 it is reported as degraded, and then the queues go on. -/
def State.linkUp (s : State) (low : Bool) (w : Word) : State :=
  let s1 := s.setPreg rPelPcie w
  (List.finRange 64).foldl (fun t q => t.flushCq q) (if low then s1.unitEvent firstDie (s1.endpoint firstDie 63) 6 0xFF else s1)

theorem exec_pcieLinkUp (gen : Fin 6) (width : BitVec 8) (flit : Bool) (s : State) :
    exec (.pcieLinkUp gen width flit) s = .next (s.linkUp (decide (gen.val < 5) || decide (width.toNat < 8))
      (pcieWord gen width.toNat flit (decide (gen.val < 5) || decide (width.toNat < 8)))) := rfl

theorem State.linkUp_spec (s : State) (low : Bool) (w : Word) : (s.linkUp low w).preg rPelPcie = w ∧ (s.linkUp low w).mem = s.mem := by
  have hpel : KeepsPel (s.setPreg rPelPcie w) (s.linkUp low w) :=
    (KeepsPel.ite (State.hostEvent_keepsPel ..) (.refl _)).trans (.foldl _ (fun t q => State.flushCq_keepsPel t q) _)
  have hmem : SparesMem False (s.setPreg rPelPcie w) (s.linkUp low w) :=
    (SparesMem.ite (State.unitEvent_sparesMem ..) (.refl _)).trans (.foldl _ (fun t q => State.flushCq_sparesMem t q) _)
  exact ⟨(hpel.preg rPelPcie (by decide)).trans (State.preg_setPreg ..), hmem.mem⟩

/-- A reset of the host interface disables every queue and starts the admin queue anew (R466). -/
theorem State.hostReset_spec (s : State) : (s.hostReset.hostQ 0).entries = [] ∧ ∀ q, q ≠ 0 → (s.hostReset.hostQ q).enabled = false := by
  have hq (q : Fin 64) : s.hostReset.hostQ q = { HostQ.reset with
      running := (s.hostQs[q]).running, nextIdent := (s.hostQs[q]).nextIdent, lost := (s.hostQs[q]).lost
      hold := if q.val = 0 then (s.hostQs[q]).hold.filter (fun r => decide (r.kind = 0xFF)) else [] } := by
    simp [State.hostReset, State.hostQ, State.setPreg]
  exact ⟨by rw [hq]; rfl, fun q _ => by rw [hq]; rfl⟩

end Sys2Proof.Machine
end

section
open Sys2Proof Sys2Proof.Machine
open Host (Outcome)

/-- Settles O53. -/
theorem hostQueues : Obligations.HostQueues := by
  refine ⟨?_, ?_, ?_, ?_, ?_, ?_, ?_⟩
  · intro s q tail descs x n new
    refine ⟨fun h => congrArg _ (State.sqTail_ignored descs h), fun hon htail hboot => ?_⟩
    obtain ⟨hown, hbound⟩ := State.sqTail_taken descs hon htail hboot
    refine ⟨fun h => ⟨_, congrArg _ (hown h), ?_⟩, fun d e h => ⟨_, congrArg _ (hbound d e h), ?_⟩⟩
    · rw [State.hostQ_setHostQ]
      exact ⟨rfl, rfl, rfl, rfl, fun p hp => State.hostQ_setHostQ_ne _ _ hp⟩
    · rw [State.hostQ_setHostQ]
      exact ⟨rfl, rfl, rfl⟩
  · intro s q head x
    refine ⟨fun h => ?_, fun hon hroom hhold hlost hringed => ?_⟩
    · have hign : (!(s.hostQ q).enabled) = true ∨ ((s.hostQ q).cqTail + 65536 - head.toNat) % 65536 > 2 ^ (s.hostQ q).cqLog :=
        h.imp (fun h => by simpa using h) id
      exact congrArg _ (if_pos hign)
    · exact ⟨_, exec_pelCqHead_idle hon hroom hhold hlost hringed, State.hostQ_setHostQ .., rfl, rfl⟩
  · intro s q c r x t rec' hidle hhold hlost
    obtain ⟨hwrites, hwaits⟩ := State.hostFinish_idle c r hidle hhold hlost
    have hq := State.hostQ_setHostQ s q ((s.hostQ q).ended c (s.hostCompletion c r))
    have hwait (h : x.enabled = false ∨ x.full = true ∨ s.pcieUp = false) : t.hostQ q = x.ended c rec' ∧ t.host = s.host := by
      simp only [t, hwaits h]
      exact ⟨hq, rfl⟩
    have hwrite (hon : x.enabled = true) (hroom : x.full = false) (hup : s.pcieUp = true) :
        t.hostQ q = { x.ended c rec' with hold := [], cqTail := (x.cqTail + 1) % 65536 } ∧ t.msix = (if dIrq c.desc then s.msix ++ [x.vector] else s.msix)
          ∧ t.host.cells = pokeCells s.host.cells (x.base + 32 * (x.cqTail % 2 ^ x.cqLog)) (rec'.bytes (decide (x.cqTail / 2 ^ x.cqLog % 2 = 0))) := by
      obtain ⟨hmsix, hcells⟩ := State.wroteCq_spec (s.setHostQ q ((s.hostQ q).ended c (s.hostCompletion c r))) q (s.hostCompletion c r) []
      simp only [t, hwrites hon hroom hup]
      rw [hq] at hmsix hcells
      exact ⟨by rw [State.hostQ_wroteCq, hq]; rfl, hmsix, hcells⟩
    refine ⟨?_, fun hon hroom hup => ?_, fun h => ?_⟩
    · by_cases h : x.enabled = false ∨ x.full = true ∨ s.pcieUp = false
      · rw [(hwait h).1]
        rfl
      · simp only [not_or, Bool.not_eq_false, Bool.not_eq_true] at h
        obtain ⟨hon, hroom, hup⟩ := h
        rw [(hwrite hon hroom hup).1]
        rfl
    · obtain ⟨hqueue, hmsix, hcells⟩ := hwrite hon hroom hup
      rw [hqueue]
      refine ⟨rfl, rfl, hmsix, fun k hk => ?_⟩
      rw [hcells]
      exact get_pokeCells_at _ _ _ (by rw [length_completionBytes]; exact hk)
    · obtain ⟨hqueue, hhost⟩ := hwait h
      exact ⟨by rw [hqueue]; rfl, hhost⟩
  · intro s q
    refine ⟨fun h => ?_, fun c hc => ?_⟩
    · have hnone (pick : Desc → Bool) (k : HostCmd → State) : hostRun s q pick k = .next s := by simp [hostRun, h]
      exact ⟨hnone .., hnone ..⟩
    · rw [show exec (.nop q) s = execNop q s from rfl, execNop, hostRun_of_find hc]
      split <;> rfl
  · intro s q c hc x i
    have hexec : exec (.queueBind q) s = .next (s.queueBind q c) := hostRun_of_find hc _
    rw [hexec]
    refine ⟨fun h => congrArg _ (State.queueBind_bad h), fun hlow hhigh hrest => ⟨fun hoff => ?_, fun hon hpel hs1 hs2 hc1 hc2 hbase hvec => ?_⟩⟩
    · refine ⟨_, congrArg _ (State.queueBind_off hlow hhigh hrest hoff), ?_, fun p hp => State.hostQ_setHostQ_ne _ _ hp, rfl⟩
      exact congrArg HostQ.enabled (State.hostQ_setHostQ s (boundQ c.desc) _)
    · refine ⟨_, congrArg _ (State.queueBind_on hlow hhigh hrest hon hpel ⟨hs1, hs2⟩ ⟨hc1, hc2⟩ hbase hvec), ?_⟩
      rw [show i = boundQ c.desc from rfl, State.hostQ_setHostQ]
      exact ⟨rfl, rfl, rfl, rfl, rfl, rfl, rfl, fun p hp => State.hostQ_setHostQ_ne _ _ hp, rfl⟩
  · intro s v w x
    refine ⟨fun hon hset => ?_, fun hon hclear => ?_, fun hoff hset hs1 hs2 hc1 hc2 => ?_, fun hon => ?_, fun hoff => ?_⟩
    · simp [exec_pelAqCtl_on hon, hset]
    · rw [exec_pelAqCtl_on hon, hclear]
      refine ⟨_, rfl, ?_, ?_, rfl⟩ <;> exact congrArg _ (State.hostQ_setHostQ ..)
    · refine ⟨_, exec_pelAqCtl_enable hoff hset ⟨hs1, hs2⟩ ⟨hc1, hc2⟩, ?_⟩
      rw [State.hostQ_setHostQ]
      exact ⟨rfl, rfl, rfl, rfl, rfl, rfl⟩
    · exact congrArg _ (if_pos hon)
    · have hexec : exec (.pelAcqBase w) s = .next ((s.setPreg rPelAcq (w.setWidth 32 &&& 0xFFFFFFE0)).setPreg (rPelAcq + 4) ((w >>> 32).setWidth 32)) :=
        congrArg Outcome.next (if_neg (by rw [hoff]; exact Bool.false_ne_true))
      refine ⟨_, hexec, ?_, State.preg_setPreg .., rfl⟩
      exact (State.preg_setPreg_ne _ _ (by decide)).trans (State.preg_setPreg ..)
  · intro s gen width flit
    obtain ⟨hgen, hwidth, hlow⟩ := pcieWord_fields gen.isLt width.isLt flit (decide (gen.val < 5) || decide (width.toNat < 8))
    obtain ⟨hreg, hmem⟩ := s.linkUp_spec (decide (gen.val < 5) || decide (width.toNat < 8))
      (pcieWord gen.val width.toNat flit (decide (gen.val < 5) || decide (width.toNat < 8)))
    refine ⟨⟨_, exec_pcieLinkUp gen width flit s, ?_⟩, fun down => ?_⟩
    · simp only [State.pcieUp, State.pf, hreg]
      exact ⟨hgen, hwidth, by simp [hgen], hmem, by rw [hlow, Bool.decide_or]⟩
    · obtain ⟨hq0, hqs⟩ := s.hostReset_spec
      cases down
      · exact ⟨_, rfl, hqs, hq0, rfl, nofun⟩
      · refine ⟨_, rfl, hqs, hq0, rfl, fun _ => ?_⟩
        simp [State.pcieUp, State.pf, State.pcieDown, fld]
end

section
/-! LEMMAS. What a warm reset does on the dies before it holds them: their queues and the resets that run (R407, R411, R414, R418). -/

namespace Sys2Proof.Machine

/-- From s to t no queue of a die has changed, and no reset that runs. -/
structure KeepsQueues (s t : State) : Prop where
  queue : ∀ d q, t.queue d q = s.queue d q
  resets : ∀ d, (t.die d).resets = (s.die d).resets

namespace KeepsQueues

variable {s t u : State}

theorem refl (s : State) : KeepsQueues s s := ⟨fun _ _ => rfl, fun _ => rfl⟩

theorem trans (h : KeepsQueues s t) (k : KeepsQueues t u) : KeepsQueues s u :=
  ⟨fun d q => (k.queue d q).trans (h.queue d q), fun d => (k.resets d).trans (h.resets d)⟩

theorem foldl {α : Type} {f : State → α → State} (l : List α) (h : ∀ v, ∀ x ∈ l, KeepsQueues v (f v x)) (s : State) : KeepsQueues s (l.foldl f s) := by
  induction l generalizing s with
  | nil => exact .refl s
  | cons x xs ih =>
    rw [List.foldl_cons]
    exact (h s x (List.mem_cons_self ..)).trans (ih (fun v y hy => h v y (List.mem_cons_of_mem _ hy)) _)

theorem ite {c : Prop} [Decidable c] (h : KeepsQueues s t) (k : KeepsQueues s u) : KeepsQueues s (if c then t else u) := by
  split <;> assumption

theorem of_dies (h : t.dies = s.dies) : KeepsQueues s t :=
  ⟨fun d q => by cases q <;> simp [State.queue, State.core, State.die, h], fun d => by simp [State.die, h]⟩

theorem of_spares {hi : Prop} (h : Spares hi s t) (k : KeepsAside s t) : KeepsQueues s t := ⟨h.queue, k.resets⟩

theorem modDie (s : State) (d : DieIx) {f : Die → Die} (hu : ∀ x, (f x).uq = x.uq) (hc : ∀ x, (f x).cores = x.cores)
    (hr : ∀ x, (f x).resets = x.resets) : KeepsQueues s (s.modDie d f) := by
  refine ⟨fun _ _ => State.queue_modDie _ _ _ _ _ hu hc, fun e => ?_⟩
  by_cases he : e = d
  · subst he
    rw [State.die_modDie, hr]
  · rw [State.die_modDie_ne s d e f he]

theorem modCore (s : State) (d : DieIx) (c : CoreIx) (f : Core → Core) (hf : ∀ k, (f k).queue = k.queue) : KeepsQueues s (s.modCore d c f) :=
  ⟨fun _ _ => State.queue_modCore _ _ _ _ _ _ hf, (QueueWork.modCore s d c f).resets⟩

theorem setReg (s : State) (d : DieIx) (off : Nat) (v : Word) : KeepsQueues s (s.setReg d off v) :=
  .modDie s d (fun _ => rfl) (fun _ => rfl) (fun _ => rfl)

theorem mail {d : DieIx} (h : MailOnly d s t) : KeepsQueues s t := by
  obtain ⟨inbox, ports, rfl⟩ := h
  exact .modDie s d (fun _ => rfl) (fun _ => rfl) (fun _ => rfl)

end KeepsQueues

theorem State.hostEvent_keepsQueues (s : State) (d : DieIx) (src : Endpoint) (st : Nat) (job : BitVec 12) (epoch : BitVec 8) (step hall : Word)
    (type data : Nat) : KeepsQueues s (s.hostEvent d src st job epoch step hall type data) := .of_dies (State.dies_hostEvent ..)

theorem State.logFrom_keepsQueues (s : State) (d : DieIx) (src : Endpoint) (gen : BitVec 8) (code st det : Nat) (sent : Option DWord) :
    KeepsQueues s (s.logFrom d src gen code st det sent) := .modDie s d (fun _ => rfl) (fun _ => rfl) (fun _ => rfl)

theorem State.bumpTags_keepsQueues (s : State) (d : DieIx) (m : Domain) : KeepsQueues s (s.bumpTags d m) := by
  have hcores (l : List CoreIx) (v : State) : KeepsQueues v (l.foldl (fun t c => t.modCore d c bumpCore) v) :=
    .foldl l (fun t c _ => .modCore t d c bumpCore (fun _ => rfl)) v
  cases m with
  | engine c e => exact .modCore s d c (fun k => { k with tagEng := k.tagEng.set e (k.tagEng[e] + 1) }) (fun _ => rfl)
  | core c => exact .modCore s d c bumpCore (fun _ => rfl)
  | quad q => exact KeepsQueues.trans (.setReg s d _ _) (hcores _ _)
  | die => exact ((hcores _ s).trans (.foldl _ (fun t _ _ => .setReg t d _ _) _)).trans (.setReg _ d _ _)

theorem State.noteNotice_keepsQueues (s : State) (d : DieIx) (job : BitVec 12) : KeepsQueues s (s.noteNotice d job) := by
  have h : KeepsQueues s (s.modDie d (fun x => { x with notices := (x.notices ++ [job]).eraseDups })) :=
    .modDie s d (fun _ => rfl) (fun _ => rfl) (fun _ => rfl)
  unfold State.noteNotice
  dsimp only
  split
  · refine .ite (h.trans ?_) h
    exact .modDie _ d (fun _ => rfl) (fun _ => rfl) (fun _ => rfl)
  · exact h

theorem State.sendNotices_keepsQueues (s : State) (d : DieIx) (m : Domain) : KeepsQueues s (s.sendNotices d m) :=
  .foldl _ (fun t _ _ => (t.noteNotice_keepsQueues d _).trans (.foldl _ (fun u _ _ => .mail (u.sendMsg_mailOnly _ _)) _)) s

theorem State.capture411_keepsQueues (s : State) (d : DieIx) (m : Domain) (kind cause : Nat) (gen : BitVec 8) (trunc : Bool) :
    KeepsQueues s (s.capture411 d m kind cause gen trunc).1 := by
  refine State.capture411_inv (P := KeepsQueues s) (.refl s) (fun v _ _ h => h.trans (.of_spares (v.putCapture_spares ..) (v.memWrite_keepsAside ..)))
    (fun v region src _ n h => h.trans (.of_spares (v.copyRaw_spares ..) ((v.memRead_keepsAside ⟨d, 0, true⟩ d region src n).trans (State.memWrite_keepsAside ..))))
    (fun v _ _ _ h => (h.trans ?_).trans (KeepsQueues.trans (.setReg _ d _ _) (.setReg _ d _ _))) ..
  exact .modDie v d (fun _ => rfl) (fun _ => rfl) (fun _ => rfl)

theorem State.setFence_keepsQueues (s : State) (d : DieIx) {m : Domain} (h : m ≠ .die) : KeepsQueues s (s.setFence d m) := by
  unfold State.setFence
  split
  · exact .modCore s d _ (fun k => { k with fenceArr := true }) (fun _ => rfl)
  · exact .modCore s d _ (fun k => { k with fenceVec := true }) (fun _ => rfl)
  · exact .ite (.setReg s d _ _) (.setReg s d _ _)
  · exact .ite (.setReg s d _ _) (.setReg s d _ _)
  · exact .setReg s d _ _
  · exact absurd rfl h

/-- The fence of a domain within a die never takes the module out of service. -/
theorem State.fence_keepsQueues (s : State) (d : DieIx) {m : Domain} (h : m ≠ .die) (off : Nat) : KeepsQueues s (s.fence d m off) := by
  have hkind : domKind m ≠ 4 := by cases m <;> simp_all [domKind]
  unfold State.fence
  simp only [hkind]
  refine KeepsQueues.trans (KeepsQueues.trans ?_ (State.logFrom_keepsQueues ..)) (State.hostEvent_keepsQueues ..)
  refine KeepsQueues.trans ?_ (State.setFence_keepsQueues _ d h)
  exact .of_dies rfl

/-- Steps 1 to 3 of a module warm reset on a die. -/
theorem State.warmDie_keepsQueues (s : State) (d : DieIx) (cause : Nat) (second : Bool) : KeepsQueues s (s.warmDie d cause second) := by
  have hfences : KeepsQueues s (((s.die d).resets.filter (fun r => (r.toFence || s.fencesAfter d r.dom) && decide (r.dom ≠ .die))).foldl
      (fun t r => t.fence d r.dom r.capture) s) := by
    refine .foldl _ (fun t r hr => State.fence_keepsQueues t d ?_ _) s
    have hp := (List.mem_filter.mp hr).2
    simp only [Bool.and_eq_true, decide_eq_true_eq] at hp
    exact hp.2
  unfold State.warmDie
  dsimp only
  have hnotices (src : Endpoint) (gen : BitVec 8) (det : Nat) := ((hfences.trans (State.bumpTags_keepsQueues _ d .die)).trans
    (State.logFrom_keepsQueues _ d src gen 0x0A02 0 det none)).trans (State.sendNotices_keepsQueues _ d .die)
  exact .ite (hnotices ..) ((hnotices ..).trans (State.capture411_keepsQueues ..))

end Sys2Proof.Machine
end

section
/-! PROOF. The module warm reset (R94, R406, R407, R409). -/

namespace Sys2Proof.Machine

/-! ### The records that are lost (R94) -/

/-- The tags of the records that a queue loses in a warm reset, in their order. -/
def State.lostTags (s : State) (d : DieIx) (q : QId) : List (BitVec 16) :=
  (s.queue d q).done.map (fun r => r.tag)
    ++ (((s.die d).resets.flatMap (fun r => r.discarded)).filter (fun p => decide (p.1 = q))).map (fun p => p.2.tag)
    ++ (discardedOf (s.queue d q) none).map (fun x => (BitVec.ofNat 16 (dTag x.1) : BitVec 16))

theorem State.tag_abortRecord (s : State) (d : DieIx) (q : QId) (x : Desc × Option Running) : (s.abortRecord d q x).tag = BitVec.ofNat 16 (dTag x.1) := by
  unfold State.abortRecord
  split
  · dsimp only
    split <;> rfl
  · rfl

theorem State.lostRecords_tags (s : State) (d : DieIx) : (s.lostRecords d).map (fun p => (p.die, p.record.tag)) =
    allQueues.flatMap (fun q => (s.lostTags d q).map (fun x => (d, x))) := by
  have htags (q : QId) : (s.queueLost d q).map (fun x => x.2.tag) = s.lostTags d q := by
    unfold State.queueLost State.lostTags
    simp only [List.map_append, List.map_map]
    congr 1
    exact List.map_congr_left (fun x _ => s.tag_abortRecord d q x)
  have hqueue (q : QId) (f : (Bool × Completion) × Nat → LostRec) (hf : ∀ x, (f x).die = d ∧ (f x).record = x.1.2) :
      ((s.queueLost d q).zipIdx.map f).map (fun p => (p.die, p.record.tag)) = (s.lostTags d q).map (fun x => (d, x)) := by
    rw [← htags, List.map_map, List.map_map]
    conv_rhs => rw [← List.zipIdx_map_fst 0 (s.queueLost d q), List.map_map]
    exact List.map_congr_left (fun x _ => by simp [hf x])
  unfold State.lostRecords
  rw [List.map_flatMap]
  congr 1
  funext q
  exact hqueue q _ (fun _ => ⟨rfl, rfl⟩)

/-! ### The dies are held (R407) -/

theorem State.loseCores_keepsAside (s : State) (d : DieIx) : KeepsAside s (s.loseCores d) := by
  have hcores : ∀ v : State, KeepsAside v ((List.finRange 48).foldl (fun t c =>
      (((t.modCore d c (loseRegs t.draws)).drawFree).loseMem (memKey d.val 1 (spBase c.val)) 0x00400000).loseMem (memKey d.val 1 (bankBase c.val)) 0x00100000) v) := by
    refine KeepsAside.foldl _ (fun t c => ?_)
    exact (QueueWork.modCore t d c (loseRegs t.draws)).toKeepsAside.trans (.of_dies rfl)
  have hbanks : ∀ v : State, KeepsAside v ((List.range 4).foldl (fun t q => t.loseMem (memKey d.val 0xFF (q * 2 ^ 20)) sideBytes) v) := by
    refine KeepsAside.foldl _ (fun t q => ?_)
    exact .of_dies rfl
  unfold State.loseCores
  dsimp only
  refine KeepsAside.trans (KeepsAside.trans ?_ (hcores _)) (hbanks _)
  exact .of_dies rfl

theorem State.held_holdDie (s : State) (d e : DieIx) : ((s.holdDie d).die e).held = (decide (e = d) || (s.die e).held) := by
  rw [State.holdDie, (State.loseCores_keepsAside _ d).held]
  by_cases h : e = d
  · subst h
    rw [State.die_modDie]
    simp [Die.rebooted, Die.reset]
  · rw [State.die_modDie_ne s d e _ h]
    simp [h]

theorem State.held_foldl_holdDie (l : List DieIx) (s : State) (e : DieIx) :
    ((l.foldl (fun t d => t.holdDie d) s).die e).held = (decide (e ∈ l) || (s.die e).held) := by
  induction l generalizing s with
  | nil => simp
  | cons d l ih =>
    rw [List.foldl_cons, ih, State.held_holdDie]
    by_cases h : e = d <;> simp [h]

/-- The slot pins are read into a Pelbex register alone. -/
theorem State.readSlot_spec (s : State) : s.readSlot.dies = s.dies ∧ s.readSlot.hostQs = s.hostQs := by
  unfold State.readSlot
  dsimp only
  split <;> exact ⟨rfl, rfl⟩

/-- The state once the dies are held and the host interface starts anew: no job is left, and the warm reset runs. -/
def State.warmed (s : State) (w : Warm) : State :=
  { s with jobs := [], board := ⟨false, false, 0, false⟩, warm := some w, power := { s.power with rails := true } }.powerDefaults

theorem State.warmed_spec (s : State) (w : Warm) : (s.warmed w).warm = some w ∧ (s.warmed w).jobs = []
    ∧ (s.warmed w).board = ⟨false, false, 0, false⟩ ∧ (s.warmed w).hostQs = s.hostQs ∧ (s.warmed w).dies = s.dies := ⟨rfl, rfl, rfl, rfl, rfl⟩

/-- The Pelbex die starts anew and no host command is left (R475). -/
def State.hostAnew (s : State) : State := ((s.loseHost.pcieDown).setPf rPelBoot 28 4 5).readSlot

theorem State.hostAnew_spec (s : State) : s.hostAnew.dies = s.dies ∧ ∀ q, (s.hostAnew.hostQ q).running = [] := by
  obtain ⟨hdies, hhosts⟩ := ((s.loseHost.pcieDown).setPf rPelBoot 28 4 5).readSlot_spec
  refine ⟨hdies, fun q => ?_⟩
  rw [State.hostQ, State.hostAnew, hhosts]
  simp [State.loseHost, State.pcieDown, State.setPf, State.setPreg]

/-- A module warm reset begins (R94, R407). -/
theorem State.warmReset_begins {s : State} (hfault : s.faulted = false) (hpower : s.power.standby = true) (hwarm : s.warm = none) (cause : Nat)
    (f : List (DieIx × Nat)) :
    (∃ lost, (s.warmReset cause f).warm = some ⟨cause, f, lost⟩
        ∧ lost.map (fun p => (p.die, p.record.tag)) = (s.allDies.filter (fun d => !(s.die d).held)).flatMap (fun d =>
            allQueues.flatMap (fun q => (s.lostTags d q).map (fun x => (d, x)))))
      ∧ (s.warmReset cause f).jobs = [] ∧ (s.warmReset cause f).board = ⟨false, false, 0, false⟩
      ∧ (∀ q, ((s.warmReset cause f).hostQ q).running = []) ∧ ∀ d, s.present d = true → ((s.warmReset cause f).die d).held = true := by
  obtain ⟨s1, hs1⟩ : ∃ s1, s1 = s.allDies.foldl (fun t d => if (t.die d).held then t else t.warmDie d cause !f.isEmpty)
      { s.countModule with pelCapture := if f.isEmpty then s.pelRegs else s.pelCapture } := ⟨_, rfl⟩
  have hkeeps : KeepsQueues s s1 := by
    rw [hs1]
    refine KeepsQueues.trans ?_ (.foldl _ (fun t d _ => .ite (.refl t) (State.warmDie_keepsQueues t d cause _)) _)
    exact .of_dies rfl
  have hreset : s.warmReset cause f = (s.allDies.foldl (fun t d => t.holdDie d) s1).hostAnew.warmed
      ⟨cause, f, (s.allDies.filter (fun d => !(s.die d).held)).flatMap (fun d => s1.lostRecords d)⟩ := by
    unfold State.warmReset
    simp only [hfault, hpower, hwarm, hs1]
    rfl
  have hlost (d : DieIx) (q : QId) : s1.lostTags d q = s.lostTags d q := by
    unfold State.lostTags
    rw [hkeeps.queue, hkeeps.resets]
  obtain ⟨hwarm', hjobs, hboard, hhosts, hdies⟩ := (s.allDies.foldl (fun t d => t.holdDie d) s1).hostAnew.warmed_spec
    ⟨cause, f, (s.allDies.filter (fun d => !(s.die d).held)).flatMap (fun d => s1.lostRecords d)⟩
  obtain ⟨hdies', hrunning⟩ := (s.allDies.foldl (fun t d => t.holdDie d) s1).hostAnew_spec
  rw [hreset, hwarm', hjobs, hboard]
  refine ⟨⟨_, rfl, ?_⟩, rfl, rfl, fun q => ?_, fun d hd => ?_⟩
  · rw [List.map_flatMap]
    congr 1
    funext d
    simp only [State.lostRecords_tags, hlost]
  · rw [State.hostQ, hhosts]
    exact hrunning q
  · rw [State.die, hdies, hdies']
    have hmem : d ∈ s.allDies := List.mem_filter.mpr ⟨List.mem_finRange d, hd⟩
    have h := State.held_foldl_holdDie s.allDies s1 d
    rw [decide_eq_true hmem, Bool.true_or] at h
    exact h

/-! ### The module down (R409, R418) -/

theorem State.cruEnd_dieWork (s : State) (d : DieIx) (r : Running) : DieWork s (s.cruEnd d r) := by
  have hspoil (t : State) (e : DieIx) (k : Nat) : DieWork t (t.spoilClaim d e k) :=
    DieWork.foldl _ (fun v _ => (DieWork.loseMem v _ _).trans (.loseMem _ _ _)) t
  have hclaim : DieWork s (if s.claims d r.desc then
      (cruDies (s.cruMask d r.desc)).foldl (fun t e => (if s.solving d r then t.spoilClaim d e (dAux r.desc % 64) else t).releaseClaim e) s
    else s) :=
    .ite (.foldl _ (fun t e => (DieWork.ite (hspoil t e _) (.refl t)).trans ((DieWork.setReg _ e _ _).trans (.setReg _ e _ _))) s) (.refl s)
  unfold State.cruEnd
  dsimp only
  exact .ite (hclaim.trans (.modDie _ d _)) hclaim

theorem State.setLends_dieWork (s : State) (d : DieIx) (l : List (Nat × Option Stroke)) : DieWork s (s.setLends d l) :=
  (((DieWork.modDie s d _).trans (.setReg _ d _ _)).trans (.setReg _ d _ _)).trans (.setReg _ d _ _)

theorem State.finish_dieWork (s : State) (d : DieIx) (q : QId) (r : Running) (res : Result) : DieWork s (s.finish d q r res) := by
  have hrest (v : State) : DieWork v (((v.record d q r.desc r.ident (some r.released) res).startQueue d q).startAfter q) :=
    (((v.record_queueWork d q _ _ _ _).trans (State.startQueue_queueWork _ d q)).trans (State.startAfter_queueWork _ q)).dieWork
  unfold State.finish
  dsimp only
  have hreq : DieWork s (s.dropReqs d q r) := .modDie s d _
  have hrun := (QueueWork.modQueue (s.dropReqs d q r) d q (fun x => { x with running := x.running.filter (fun y => y.ident != r.ident) })).dieWork
  refine ((hreq.trans hrun).trans ?_).trans (hrest _)
  cases q with
  | core c => exact (DieWork.modCore _ d c _).trans (.modDie _ d _)
  | cru => exact State.cruEnd_dieWork ..
  | hlt => exact (DieWork.modDie _ d _).trans (State.setLends_dieWork _ d _)
  | col => exact .modDie _ d _
  | txe => exact .modDie _ d _
  | _ => exact .refl _

theorem State.endAll_dieWork (s : State) (d : DieIx) : DieWork s (s.endAll d) :=
  .foldl _ (fun t q => (DieWork.foldl _ (fun u r => State.finish_dieWork u d q r _) t).trans (State.startQueue_queueWork _ d q).dieWork) s

theorem State.regsToReset_dieWork (s : State) (d : DieIx) (lo hi : Nat) : DieWork s (s.regsToReset d lo hi) := .modDie s d _

theorem State.dropHeld_dieWork (s : State) (d : DieIx) (inside : Nat → Bool) : DieWork s (s.dropHeld d inside) := .modDie s d _

theorem State.parkCoreState_dieWork (s : State) (d : DieIx) (c : CoreIx) : DieWork s (s.parkCoreState d c) := by
  have hlost : DieWork s ((((s.modCore d c (parkCore s.draws d c)).drawFree).loseMem (memKey d.val 1 (spBase c.val)) 0x00400000).loseMem
      (memKey d.val 1 (bankBase c.val)) 0x00100000) :=
    (((DieWork.modCore s d c _).trans (.drawFree _)).trans (.loseMem _ _ _)).trans (.loseMem _ _ _)
  unfold State.parkCoreState
  dsimp only
  exact ((hlost.trans (State.regsToReset_dieWork ..)).trans (State.regsToReset_dieWork ..)).trans (State.dropHeld_dieWork ..)

theorem State.resetRowEngine_dieWork (s : State) (d : DieIx) (q : Fin 4) : DieWork s (s.resetRowEngine d q) :=
  ((DieWork.modDie s d _).trans (.modDie _ d _)).trans (.loseMem _ _ _)

theorem State.hbmCount_dieWork (s : State) (d : DieIx) (region off n reg : Nat) : DieWork s (s.hbmCount d region off n reg) :=
  .ite ((DieWork.setReg64 s d reg _).trans (.modDie _ d _)) (.refl s)

theorem State.selfRefresh_dieWork (s : State) (d : DieIx) : DieWork s (s.selfRefresh d) := by
  have hword (t : State) (key : Nat) : DieWork t (t.writeBackWord d key) :=
    DieWork.trans (t := t.poisonWord key) ⟨t.dies, _, t.draws, rfl⟩ (State.hbmCount_dieWork ..)
  have hback : DieWork s (s.writeBackAll d) := (DieWork.foldl _ hword s).trans (.modDie _ d _)
  have hstacks (v : State) : DieWork v ([0, 1, 2, 3].foldl (fun t k => t.modReg d (rHbmStk k) (fun w => setBit w 0 false)) v) :=
    .foldl _ (fun t k => .setReg t d (rHbmStk k) _) v
  unfold State.selfRefresh State.modHbm State.setRf State.modReg
  dsimp only
  exact (((hback.trans (hstacks _)).trans (.setReg _ d _ _)).trans (.setReg _ d _ _)).trans (.modDie _ d _)

/-- A die that parks changes one Pelbex register alone. -/
theorem State.parkDie_dieWork (s : State) (d : DieIx) : DieWork (s.setPf rPwrLpStat (2 * d.val) 2 2) (s.parkDie d) := by
  have hend := State.endAll_dieWork (s.setPf rPwrLpStat (2 * d.val) 2 2) d
  have hcores := ((hend.trans (.modDie _ d (fun x => { x with tables := [], assay := { x.assay with touch := none, pass := none, lentUncore := 0 } }))).trans
    (State.setLends_dieWork _ d [])).trans (.foldl (List.finRange 48) (fun t c => t.parkCoreState_dieWork d c) _)
  exact ((hcores.trans (.foldl _ (fun t q => t.resetRowEngine_dieWork d q) _)).trans (.modDie _ d _)).trans (State.selfRefresh_dieWork _ d)

/-- From s to t neither PWR_STATUS nor the fuses nor whether the module is in service has changed. -/
structure KeepsPower (s t : State) : Prop where
  status : t.preg rPwrStatus = s.preg rPwrStatus
  service : t.flash.outOfService = s.flash.outOfService
  fuses : t.fuses = s.fuses

theorem KeepsPower.trans {s t u : State} (h : KeepsPower s t) (k : KeepsPower t u) : KeepsPower s u :=
  ⟨k.status.trans h.status, k.service.trans h.service, k.fuses.trans h.fuses⟩

theorem KeepsPower.of_pel {s t : State} (h : KeepsPel s t) : KeepsPower s t := ⟨h.preg _ (by decide), by rw [h.flash], h.fuses⟩

theorem KeepsPower.of_dieWork {s t : State} (h : DieWork s t) : KeepsPower s t := .of_pel (.of_dieWork h)

theorem State.parkDie_keepsPower (s : State) (d : DieIx) : KeepsPower s (s.parkDie d) := by
  have hset : KeepsPower s (s.setPf rPwrLpStat (2 * d.val) 2 2) := ⟨State.preg_setPreg_ne _ _ (by decide), rfl, rfl⟩
  exact hset.trans (.of_dieWork (s.parkDie_dieWork d))

/-- The module goes out of service; PWR_STATUS stays (R418). -/
theorem State.outOfService_spec (s : State) :
    s.outOfService.preg rPwrStatus = s.preg rPwrStatus ∧ s.outOfService.flash.outOfService = true ∧ s.outOfService.fuses = s.fuses := by
  unfold State.outOfService
  split
  · next h => exact ⟨rfl, h, rfl⟩
  · have hparks : ∀ v : State, KeepsPower v (s.allDies.foldl (fun t d => (t.modReg d rHltStatus (fun w => setBit w 23 true)).parkDie d) v) := fun v =>
      fold_inv (KeepsPower v) _ _ v ⟨rfl, rfl, rfl⟩ (fun t d h => (h.trans (.of_dieWork (.setReg t d _ _))).trans (State.parkDie_keepsPower _ d))
    have hdrawn (v : State) : KeepsPower v v.drawFree := .of_dieWork (.drawFree v)
    have hevent (v : State) (d : DieIx) (e : Endpoint) (a b : Nat) : KeepsPower v (v.unitEvent d e a b) := .of_pel (v.hostEvent_keepsPel ..)
    have hall (e : Endpoint) (b : Nat) :=
      ((hparks { s with flash := { s.flash with outOfService := true } }).trans (hdrawn _)).trans (hevent _ 0 e 10 b)
    exact ⟨(hall _ _).status, (hall _ _).service, (hall _ _).fuses⟩

/-- Holding the dies of a list holds these, and changes nothing but dies. -/
theorem State.holdAll_spec (l : List DieIx) (s : State) :
    DieWork s (l.foldl (fun t d => t.modDie d (fun x => { x with held := true })) s)
      ∧ ∀ e, ((l.foldl (fun t d => t.modDie d (fun x => { x with held := true })) s).die e).held = (decide (e ∈ l) || (s.die e).held) := by
  refine ⟨.foldl l (fun t d => .modDie t d _) s, fun e => ?_⟩
  induction l generalizing s with
  | nil => simp
  | cons d l ih =>
    rw [List.foldl_cons, ih]
    by_cases h : e = d
    · subst h
      simp
    · simp [h, State.die_modDie_ne s d e _ h]

/-- The module after a hung warm reset: a FAULT with its cause is latched, every die is held, and it is out of service (R409). -/
theorem State.moduleDown_spec (s : State) {cause : Nat} (hcause : cause < 8) :
    (s.moduleDown cause).faulted = true ∧ (s.moduleDown cause).pf rPwrStatus 28 3 = cause ∧ (s.moduleDown cause).flash.outOfService = true
      ∧ ∀ d, s.present d = true → ((s.moduleDown cause).die d).held = true := by
  obtain ⟨w, hw⟩ : ∃ w, w = setFld (setBit (s.preg rPwrStatus) 31 true) 28 3 cause := ⟨_, rfl⟩
  have halert : ((s.setPreg rPwrStatus w).alert 4).preg rPwrStatus = setBit w 20 true := by
    rw [State.alert, State.preg_setPreg, State.preg_setPreg]
  obtain ⟨hstatus, hservice, hfuses⟩ := ((s.setPreg rPwrStatus w).alert 4).outOfService_spec
  obtain ⟨v, hv⟩ : ∃ v, v = ((s.setPreg rPwrStatus w).alert 4).outOfService := ⟨_, rfl⟩
  obtain ⟨hwork, hheld⟩ := State.holdAll_spec v.allDies v
  have hdown : s.moduleDown cause = { v.allDies.foldl (fun t d => t.modDie d (fun x => { x with held := true })) v with warm := none } := by
    rw [hv, hw]
    rfl
  rw [← hv] at hstatus hservice hfuses
  have hpower : (s.moduleDown cause).preg rPwrStatus = setBit w 20 true := by
    rw [hdown, ← halert, ← hstatus]
    exact hwork.preg rPwrStatus
  refine ⟨?_, ?_, ?_, fun d hd => ?_⟩
  · rw [State.faulted, hpower, bitAt_setBit_ne _ _ (by decide), hw, bitAt, getLsbD_setFld]
    exact bitAt_setBit _ _ (by decide)
  · rw [State.pf, hpower, setBit, fld_setFld_apart _ _ (by decide), hw, fld_setFld_same _ _ (by decide), Nat.mod_eq_of_lt (show cause < 2 ^ 3 from hcause)]
  · rw [hdown]
    exact (congrArg Flash.outOfService hwork.flash).trans hservice
  · have hmem : d ∈ v.allDies := List.mem_filter.mpr ⟨List.mem_finRange d, by
      rw [← hd]
      simp only [State.present, State.dieCount, hfuses]
      rfl⟩
    have h := hheld d
    rw [decide_eq_true hmem, Bool.true_or] at h
    rw [hdown]
    exact h

end Sys2Proof.Machine
end

section
/-! PROOF. Reset notices (R414, R415). -/

namespace Sys2Proof.Machine

/-- The contexts of a die depend on its registers alone. -/
theorem State.ctxOf_congr {s t : State} {d : DieIx} (h : ∀ off, t.reg d off = s.reg d off) (job : BitVec 12) : t.ctxOf d job = s.ctxOf d job := by
  have hpick (k : Nat) : (bitAt (t.reg d (rUpdSet k)) 31 && decide (t.rf d (rUpdSet k) 0 12 = job.toNat))
      = (bitAt (s.reg d (rUpdSet k)) 31 && decide (s.rf d (rUpdSet k) 0 12 = job.toNat)) := by
    rw [State.rf, h]
    rfl
  exact congrArg (fun p => (List.range 32).find? p) (funext hpick)

theorem State.cmtState_congr {s t : State} {d : DieIx} (h : ∀ off, t.reg d off = s.reg d off) (k : Nat) : t.cmtState d k = s.cmtState d k := by
  simp only [State.cmtState, State.rf, h]

theorem State.commit_modCommit (s : State) (d : DieIx) (k : Nat) (f : Commit → Commit) : (s.modCommit d k f).commit d k = f (s.commit d k) := by
  simp [State.commit, State.modCommit, Die.commit, SMap.get_set_same]

/-- The notice for the job of an armed context is noted in it (R415). -/
theorem State.noteNotice_arms {s : State} {d : DieIx} {job : BitVec 12} {k : Nat} (hctx : s.ctxOf d job = some k) (harmed : s.cmtState d k = 1) :
    ((s.noteNotice d job).commit d k).notice = true := by
  have hreg (off : Nat) : (s.modDie d (fun x => { x with notices := (x.notices ++ [job]).eraseDups })).reg d off = s.reg d off :=
    State.reg_modDie _ _ _ _ (fun _ => rfl)
  have harmed' := (State.cmtState_congr hreg k).trans harmed
  rw [State.cmtState] at harmed'
  unfold State.noteNotice
  simp only [State.ctxOf_congr hreg, hctx, harmed', if_true, State.commit_modCommit]

theorem leNat_slice_one_lt (bs : List Byte) (lo : Nat) : leNat (slice bs lo 1) < 256 := by
  have hlength : (slice bs lo 1).length ≤ 1 := List.length_take_le ..
  exact (leNat_lt _).trans_le (Nat.pow_le_pow_right (by decide) hlength)

theorem announceKey_module {src : Endpoint} {kind core eng : Nat} (hkind : kind ≤ 4) (hcore : core < 64) (heng : eng < 256) :
    announceKey src kind core eng / 4096 / 8 = src.toNat / 512 := by
  have hindex : (if kind = 1 then core * 4 + eng else if kind = 2 then core else if kind = 3 then core / 12 else 0) < 512 := by
    split_ifs <;> omega
  rw [announceKey]
  omega

theorem State.reg_setAnnounced (s : State) (d : DieIx) (key : Nat) (tag : BitVec 8) (off : Nat) : (s.setAnnounced d key tag).reg d off = s.reg d off :=
  State.reg_modDie _ _ _ _ (fun _ => rfl)

theorem State.reg_trimAnnounced (s : State) (d : DieIx) (off : Nat) : (s.trimAnnounced d).reg d off = s.reg d off :=
  State.reg_modDie _ _ _ _ (fun _ => rfl)

/-- A tag recorded for a domain of the own module stays (R414). -/
theorem State.announcedTag_own (s : State) (d : DieIx) {key : Nat} (tag : BitVec 8) (hown : key / 4096 / 8 = s.moduleNo d) :
    ((s.setAnnounced d key tag).trimAnnounced d).announcedTag d key = some tag := by
  have hmodule : (s.setAnnounced d key tag).moduleNo d = s.moduleNo d := by
    rw [State.moduleNo, State.rf, State.reg_setAnnounced]
    rfl
  rw [State.announcedTag, State.trimAnnounced, State.die_modDie, hmodule, State.setAnnounced, State.die_modDie]
  simp [hown]

/-- What a reset notice that is not stale does on its die (R414, R415). -/
theorem State.noticed_spec (s : State) (d : DieIx) (key : Nat) (tag : BitVec 8) (job : BitVec 12) :
    let t := ((s.setAnnounced d key tag).trimAnnounced d).noteNotice d job
    t.mem = s.mem ∧ job ∈ (t.die d).notices
      ∧ (∀ k, s.ctxOf d job = some k → s.cmtState d k = 1 → (t.commit d k).notice = true)
      ∧ (key / 4096 / 8 = s.moduleNo d → t.announcedTag d key = some tag) := by
  have hreg (off : Nat) : ((s.setAnnounced d key tag).trimAnnounced d).reg d off = s.reg d off :=
    (State.reg_trimAnnounced ..).trans (State.reg_setAnnounced ..)
  obtain ⟨c, hnote⟩ := ((s.setAnnounced d key tag).trimAnnounced d).noteNotice_spec d job
  refine ⟨?_, State.mem_notices_noteNotice .., fun k hctx harmed => ?_, fun hown => ?_⟩
  · rw [hnote]
    rfl
  · exact State.noteNotice_arms ((State.ctxOf_congr hreg job).trans hctx) ((State.cmtState_congr hreg k).trans harmed)
  · rw [hnote, ← s.announcedTag_own d tag hown]
    simp [State.announcedTag]

end Sys2Proof.Machine
end

section
/-! PROOF. The return of a member (R416). -/

namespace Sys2Proof.Machine

theorem State.reg_modCommit (s : State) (d : DieIx) (k : Nat) (f : Commit → Commit) (off : Nat) : (s.modCommit d k f).reg d off = s.reg d off :=
  State.reg_modDie _ _ _ _ (fun _ => rfl)

theorem rCmt_apart (k : Nat) : rUpdSet k ≠ rUpdStep k ∧ rUpdSet k ≠ rCmtStat k ∧ rUpdStep k ≠ rCmtStat k := by
  simp only [rUpdSet, rUpdStep, rCmtStat]
  omega

/-- The context of a member that returns holds the record of no attempt any more. -/
theorem State.commit_restoreContext (s : State) (d : DieIx) (k : Nat) (yes : Bool) : ((s.restoreContext d k yes).commit d k).held = none := by
  rw [State.restoreContext, State.commit_modCommit]
  rfl

/-- On YES the sets are flipped and the step is done. -/
theorem State.restoreContext_yes (s : State) (d : DieIx) (k : Nat) :
    let t := s.restoreContext d k true
    t.reg d (rUpdSet k) = setBit (s.reg d (rUpdSet k)) 28 (!bitAt (s.reg d (rUpdSet k)) 28)
      ∧ t.reg d (rUpdStep k) = BitVec.ofNat 32 (s.stepOf d k)
      ∧ t.reg d (rCmtStat k) = setFld (setFld (s.reg d (rCmtStat k)) 16 8 0) 0 4 0 := by
  obtain ⟨hsetstep, hsetstat, hstepstat⟩ := rCmt_apart k
  simp [State.restoreContext, State.reg_modCommit, State.setCmtState, State.setRf, State.modReg, State.reg_setReg_ne, hsetstep, hsetstat, hstepstat,
    hsetstat.symm, hstepstat.symm]

/-- On NO the attempt is over. -/
theorem State.restoreContext_no (s : State) (d : DieIx) (k : Nat) :
    let t := s.restoreContext d k false
    t.reg d (rUpdSet k) = s.reg d (rUpdSet k) ∧ t.reg d (rUpdStep k) = s.reg d (rUpdStep k)
      ∧ t.reg d (rCmtStat k) = setFld (setFld (setFld (s.reg d (rCmtStat k)) 24 8 ((s.attempt d k + 1) % 256)) 16 8
          (min (s.rf d (rCmtStat k) 16 8 + 1) 255)) 0 4 0 := by
  obtain ⟨hsetstep, hsetstat, hstepstat⟩ := rCmt_apart k
  simp [State.restoreContext, State.reg_modCommit, State.setCmtState, State.setRf, State.modReg, State.reg_setReg_ne, hsetstat, hstepstat]

theorem State.cmtState_restoreContext (s : State) (d : DieIx) (k : Nat) (yes : Bool) : (s.restoreContext d k yes).cmtState d k = 0 := by
  rw [State.cmtState, State.rf]
  cases yes with
  | true =>
    obtain ⟨-, -, hstat⟩ := s.restoreContext_yes d k
    rw [hstat, fld_setFld_same _ _ (by decide), Nat.zero_mod]
  | false =>
    obtain ⟨-, -, hstat⟩ := s.restoreContext_no d k
    rw [hstat, fld_setFld_same _ _ (by decide), Nat.zero_mod]

/-- Of the dies a member's return changes its bit alone. -/
theorem State.die_returnMember (s : State) (d : DieIx) (k step : Nat) :
    (s.returnMember d k step).die d = { s.die d with returning := setBit (s.die d).returning k false } := by
  rw [State.returnMember, State.die, State.dies_hostEvent]
  exact State.die_modDie ..

theorem State.reg_returnMember (s : State) (d : DieIx) (k step off : Nat) : (s.returnMember d k step).reg d off = s.reg d off := by
  simp [State.reg, State.die_returnMember]

theorem State.commit_returnMember (s : State) (d : DieIx) (k step j : Nat) : (s.returnMember d k step).commit d j = s.commit d j := by
  simp [State.commit, State.die_returnMember, Die.commit]

theorem State.returning_returnMember (s : State) (d : DieIx) (k : CtxIx) (step : Nat) : bitAt ((s.returnMember d k.val step).die d).returning k.val = false := by
  rw [State.die_returnMember]
  exact bitAt_setBit _ _ k.isLt

/-- A member returns with the verdict that the root or the backup has sent. -/
theorem State.returned_spec (s : State) (d : DieIx) (k : CtxIx) (yes : Bool) :
    let t := (s.restoreContext d k.val yes).returnMember d k.val (s.stepOf d k.val)
    t.cmtState d k.val = 0 ∧ bitAt (t.die d).returning k.val = false ∧ (t.commit d k.val).held = none
      ∧ (yes = true → bitAt (t.reg d (rUpdSet k.val)) 28 = !bitAt (s.reg d (rUpdSet k.val)) 28 ∧ t.rf d (rUpdStep k.val) 0 32 = s.stepOf d k.val
          ∧ t.rf d (rCmtStat k.val) 16 8 = 0)
      ∧ (yes = false → t.reg d (rUpdSet k.val) = s.reg d (rUpdSet k.val) ∧ t.reg d (rUpdStep k.val) = s.reg d (rUpdStep k.val)
          ∧ t.attempt d k.val = (s.attempt d k.val + 1) % 256 ∧ t.rf d (rCmtStat k.val) 16 8 = min (s.rf d (rCmtStat k.val) 16 8 + 1) 255) := by
  have hreg := (s.restoreContext d k.val yes).reg_returnMember d k.val (s.stepOf d k.val)
  refine ⟨(State.cmtState_congr hreg k.val).trans (s.cmtState_restoreContext ..), State.returning_returnMember ..,
    (congrArg Commit.held (State.commit_returnMember ..)).trans (s.commit_restoreContext ..), fun hyes => ?_, fun hno => ?_⟩
  · subst hyes
    obtain ⟨hset, hstep, hstat⟩ := s.restoreContext_yes d k.val
    have hlt : s.stepOf d k.val < 2 ^ 32 := Nat.mod_lt _ (by decide)
    refine ⟨?_, ?_, ?_⟩
    · rw [hreg, hset, bitAt_setBit _ _ (by decide)]
    · rw [State.rf, hreg, hstep, fld, BitVec.toNat_ofNat]
      omega
    · rw [State.rf, hreg, hstat, fld_setFld_apart _ _ (by decide), fld_setFld_same _ _ (by decide), Nat.zero_mod]
  · subst hno
    obtain ⟨hset, hstep, hstat⟩ := s.restoreContext_no d k.val
    refine ⟨(hreg _).trans hset, (hreg _).trans hstep, ?_, ?_⟩
    · rw [State.attempt, State.rf, hreg, hstat, fld_setFld_apart _ _ (by decide), fld_setFld_apart _ _ (by decide),
        fld_setFld_same _ _ (by decide)]
      omega
    · rw [State.rf, hreg, hstat, fld_setFld_apart _ _ (by decide), fld_setFld_same _ _ (by decide)]
      omega

/-- Pelbex gives a member up: it does not return, and the host hears of it. -/
def State.giveUp (s : State) (d : DieIx) (k : Nat) : State :=
  (s.modCommit d k (fun c => { c with reported := true })).hostEvent d (s.endpoint d 63) 0 (s.cmtJob d k)
    (BitVec.ofNat 8 (s.colEpoch d k)) (BitVec.ofNat 32 (s.stepOf d k)) 0 9 (s.commitStroke d k)

/-- Of the dies, giving a member up changes its context alone. -/
theorem State.die_giveUp (s : State) (d e : DieIx) (k : Nat) :
    (s.giveUp d k).die e = (s.modCommit d k (fun c => { c with reported := true })).die e := by
  rw [State.die, State.giveUp, State.dies_hostEvent]
  rfl

/-- Whether the member k is the only one that could have held a verdict: the root and the backup lie on its own die (log 158). -/
def State.alone (s : State) (d : DieIx) (k : Nat) : Bool := ((s.sortedMembers (s.cmtJob d k)).take 2).all (s.isMe d)

section
variable {s : State} {d : DieIx} {k : CtxIx} {final : Bool} (hready : Ready s d) (hreturning : bitAt (s.die d).returning k.val = true)
  (hresets : (s.die d).resets.any (fun r => decide (r.dom = .die)) = false)
include hready hreturning hresets

/-- What MEMBER_RETURN does for a context that waits to return. -/
theorem exec_memberReturn : exec (.memberReturn d k final) s = .next (match (s.commit d k.val).held with
    | some v => (s.restoreContext d k.val v.1).returnMember d k.val (s.stepOf d k.val)
    | none =>
      if s.alone d k.val then s.returnMember d k.val (s.stepOf d k.val)
      else if final ∧ (s.commit d k.val).toBackup ∧ (s.commit d k.val).silent ≥ 4 ∧ !(s.commit d k.val).reported then s.giveUp d k.val
      else s) := by
  change execMemberReturn d k final s = _
  rw [execMemberReturn, onDie_ready hready, if_neg (by simp [hreturning, hresets])]
  rfl

theorem exec_memberReturn_held {v : Bool × BitVec 8} (hheld : (s.commit d k.val).held = some v) :
    exec (.memberReturn d k final) s = .next ((s.restoreContext d k.val v.1).returnMember d k.val (s.stepOf d k.val)) := by
  rw [exec_memberReturn hready hreturning hresets, hheld]

variable (hheld : (s.commit d k.val).held = none)
include hheld

theorem exec_memberReturn_alone (halone : s.alone d k.val = true) :
    exec (.memberReturn d k final) s = .next (s.returnMember d k.val (s.stepOf d k.val)) := by
  rw [exec_memberReturn hready hreturning hresets, hheld]
  simp only [halone, if_true]

theorem exec_memberReturn_waits (halone : s.alone d k.val = false) (hwaits : final = false ∨ (s.commit d k.val).reported = true) :
    exec (.memberReturn d k final) s = .next s := by
  have hgive : ¬ (final ∧ (s.commit d k.val).toBackup ∧ (s.commit d k.val).silent ≥ 4 ∧ !(s.commit d k.val).reported) := by
    rcases hwaits with h | h <;> simp [h]
  rw [exec_memberReturn hready hreturning hresets, hheld]
  simp only [halone, if_neg hgive, Bool.false_eq_true, if_false]

theorem exec_memberReturn_final (halone : s.alone d k.val = false) (hfinal : final = true) (hbackup : (s.commit d k.val).toBackup = true)
    (hsilent : 4 ≤ (s.commit d k.val).silent) (hreported : (s.commit d k.val).reported = false) :
    exec (.memberReturn d k final) s = .next (s.giveUp d k.val) := by
  rw [exec_memberReturn hready hreturning hresets, hheld]
  simp [halone, hfinal, hbackup, hsilent, hreported]

end

end Sys2Proof.Machine
end

section
open Sys2Proof Sys2Proof.Machine
open Host (Outcome)

/-- Settles O49. The order and content of the lost records are log entry 145; that a member without another root or backup returns as it is,
and that a member given up is reported once, is log entry 158. -/
theorem moduleResets : Obligations.ModuleResets := by
  unfold Obligations.ModuleResets
  refine ⟨fun _ _ => ⟨rfl, rfl⟩, ?_, ?_, ?_, ?_, ?_, ?_⟩
  · intro s cause f tags
    refine ⟨fun hoff => ?_, fun w hfault hpower hwarm => ?_, fun hfault hpower hwarm => State.warmReset_begins hfault hpower hwarm cause f⟩
    · have hnone : s.faulted = true ∨ (!s.power.standby) = true := by simpa using hoff
      rw [State.warmReset, if_pos hnone]
    · simp [State.warmReset, hfault, hpower, hwarm]
  · intro s b us
    change (_ → Outcome.next (s.warmComplete b) = .next s) ∧ ∀ w, _ → _ → Outcome.next (s.warmComplete b) = _
    refine ⟨fun hoff => ?_, fun w hwarm hlow => ?_⟩
    · cases hwarm : s.warm with
      | none => simp [State.warmComplete, hwarm]
      | some w => simp [State.warmComplete, hwarm, hoff.resolve_left (by simp [hwarm])]
    · simp [State.warmComplete, hwarm, hlow]
  · intro s
    change (_ → Outcome.next (if s.warm.isSome then s.moduleDown 4 else s) = .next s) ∧ (_ → ∃ t, Outcome.next (if s.warm.isSome then s.moduleDown 4 else s) = .next t ∧ _)
    refine ⟨fun hwarm => by simp [hwarm], fun hwarm => ⟨s.moduleDown 4, ?_, rfl, s.moduleDown_spec (by decide)⟩⟩
    rw [if_pos (Option.isSome_iff_ne_none.mpr hwarm)]
  · intro s d m hready hkind
    change (_ → ∃ t, execResetNotice d m s = .next t ∧ _) ∧ (_ → ∃ t, execResetNotice d m s = .next t ∧ _)
    rw [execResetNotice, onDie_ready hready]
    simp only [hkind, ne_eq, not_true_eq_false, if_false, State.staleMsg_taken]
    have hreg (off : Nat) : ((s.takeMsg d m).wake d).reg d off = s.reg d off := by simp [State.reg]
    refine ⟨fun hfresh => ?_, fun hstale => ?_⟩
    · rw [hfresh]
      obtain ⟨hmem, hnoted, harms, hown⟩ := ((s.takeMsg d m).wake d).noticed_spec d
        (announceKey m.src (leNat (slice m.spec 0 1)) (leNat (slice m.spec 2 1) % 64) (leNat (slice m.spec 3 1))) (byteAt m.spec 1) m.job
      refine ⟨_, rfl, hmem.trans (State.mem_wake ..), hnoted, fun k hctx _ harmed => ?_, fun hmodule hk => hown ?_⟩
      · exact harms k ((State.ctxOf_congr hreg m.job).trans hctx) ((State.cmtState_congr hreg k).trans harmed)
      · rw [announceKey_module hk (Nat.mod_lt _ (by decide)) (leNat_slice_one_lt ..), hmodule, State.moduleNo, State.moduleNo, State.rf_taken]
    · rw [hstale]
      obtain ⟨⟨r, hdie⟩, hcount, hmem⟩ := s.staleTaken_spec d m
      exact ⟨_, rfl, hmem, by simp [hdie], by simp [hdie], hcount⟩
  · intro s d k final hready hreturning hresets c alone
    refine ⟨fun v hheld => ⟨_, exec_memberReturn_held hready hreturning hresets hheld, s.returned_spec d k v.1⟩,
      fun hheld halone => ⟨_, exec_memberReturn_alone hready hreturning hresets hheld halone, State.returning_returnMember .., ?_⟩,
      fun hheld halone hwaits => exec_memberReturn_waits hready hreturning hresets hheld halone hwaits,
      fun hheld halone hfinal hbackup hsilent hreported =>
        ⟨_, exec_memberReturn_final hready hreturning hresets hheld halone hfinal hbackup hsilent hreported, ?_, ?_, ?_⟩⟩
    · rw [State.die_returnMember]
    · have hcommit : (s.giveUp d k.val).commit d k.val = { s.commit d k.val with reported := true } := by
        rw [State.commit, State.die_giveUp]
        exact State.commit_modCommit ..
      rw [hcommit]
    · rw [State.die_giveUp, State.modCommit, State.die_modDie]
      exact hreturning
    · rw [State.die_giveUp, State.modCommit, State.die_modDie]
  · intro s d k final hready hreturning
    change execMemberReturn d k final s = _
    rw [execMemberReturn, onDie_ready hready, if_pos (by simp [hreturning])]
end

section
/-! LEMMAS. A LOAD whose number is that of the stream in its core's array. -/

namespace Sys2Proof.Machine

theorem exec_load {s : State} {d : DieIx} {c : CoreIx} {r : Running} (hready : Ready s d) (hruns : Runs s d (.core c) 0x20 r) :
    exec (.load d c) s = .next (s.loadRun d c r) :=
  exec_engine (k := fun t => t.loadRun d c) hready hruns rfl

/-- A LOAD of one column whose format code is undefined. -/
def loadUndefined : Desc := setFld Tests.loadDesc (8 * 39) 8 0xFF

/-- Core 0 of die 0 runs it under number 5, and the array holds a stream of an instruction of that number. -/
def loadUnderStream : State :=
  (Tests.runIn Tests.awake (.core 0) loadUndefined).modCore 0 0 (fun k => { k with arr := { k.arr with run := some Tests.pairMul } })

theorem loadUnderStream_ready : Ready loadUnderStream 0 := by decide +kernel

theorem loadUnderStream_runs : Runs loadUnderStream 0 (.core 0) 0x20 (Tests.runAs loadUndefined) := by decide +kernel

theorem judgeLoad_loadUndefined : judgeLoad loadUndefined = .format := by decide +kernel

/-- The end of a command ends the stream of its number. -/
theorem loadRun_loadUnderStream_run : ((loadUnderStream.loadRun 0 0 (Tests.runAs loadUndefined)).core 0 0).arr.run = none := by decide +kernel

end Sys2Proof.Machine
end

section
open Sys2Proof Sys2Proof.Machine
open Host (Outcome)

/-- Refutes O38: its first part says that a LOAD which ends with FORMAT_ERROR leaves the array as it was. The end of a command also ends
the stream of its number in the array (`dropStream`), so the claim fails where the array streams under the number of the LOAD. A queue
numbers its entries afresh (`nextIdent`), but the statement ranges over every state; `s.streaming d c r = none`, which its second part
assumes of MUL, would exclude this one. Log entry 137, on which the third part rests, plays no role here. -/
theorem not_matrixLoadsAndProducts : ¬ Obligations.MatrixLoadsAndProducts := by
  unfold Obligations.MatrixLoadsAndProducts
  rintro ⟨hload, -, -⟩
  obtain ⟨hformat, -, -⟩ := hload loadUnderStream 0 0 (Tests.runAs loadUndefined) .wf16 loadUnderStream_ready loadUnderStream_runs rfl
  obtain ⟨t, ht, -, harr⟩ := hformat judgeLoad_loadUndefined
  rw [exec_load loadUnderStream_ready loadUnderStream_runs] at ht
  have hbefore : (loadUnderStream.core 0 0).arr.run = some Tests.pairMul := by simp [loadUnderStream, State.modCore]
  have hafter : (t.core 0 0).arr.run = none := by
    rw [← Outcome.next.inj ht, loadRun_loadUnderStream_run]
  rw [harr, hbefore] at hafter
  exact Option.some_ne_none _ hafter
end

section
/-! LEMMAS. Integers of an element's width (R153). -/

namespace Sys2Proof.Machine

variable (w : Fin 4)

theorem intS_eq_signedEl (a : Nat) : intS w a = signedEl w a := by
  have hw : 2 ^ elemBits w = 2 * 2 ^ (elemBits w - 1) := by
    rw [← Nat.pow_succ', Nat.succ_eq_add_one, Nat.sub_add_cancel (elemBits_pos w)]
  rw [intS, signedOf, signedEl, BitVec.toInt_eq_toNat_cond, BitVec.toNat_ofNat]
  split <;> split <;> omega

theorem wrapW_eq_toNat (i : Int) : wrapW w i = (BitVec.ofInt (elemBits w) i).toNat := (BitVec.toNat_ofInt i).symm

theorem wrapW_natCast (n : Nat) : wrapW w n = n % 2 ^ elemBits w := by
  rw [wrapW, intBits, ← Int.natCast_mod, Int.toNat_natCast]

/-- What is written of a difference, and the subtrahend, sum up to the minuend. -/
theorem wrapW_sub_add {a : Nat} (b : Nat) (ha : a < 2 ^ elemBits w) : (wrapW w ((a : Int) - b) % 2 ^ elemBits w + b) % 2 ^ elemBits w = a := by
  have hpos : ((2 ^ elemBits w : Nat) : Int) ≠ 0 := by positivity
  have hwrap : (wrapW w ((a : Int) - b) : Int) = ((a : Int) - b) % (2 ^ elemBits w : Nat) := Int.toNat_of_nonneg (Int.emod_nonneg _ hpos)
  have hsum : (((wrapW w ((a : Int) - b) % 2 ^ elemBits w + b) % 2 ^ elemBits w : Nat) : Int) = a := by
    rw [Int.natCast_mod, Nat.cast_add, Int.natCast_mod, hwrap, Int.emod_emod, Int.emod_add_emod, Int.sub_add_cancel, ← Int.natCast_mod,
      Nat.mod_eq_of_lt ha]
  exact_mod_cast hsum

theorem signedEl_mod (a : Nat) : signedEl w (a % 2 ^ elemBits w) = signedEl w a := by
  refine congrArg BitVec.toInt (BitVec.eq_of_toNat_eq ?_)
  rw [BitVec.toNat_ofNat, BitVec.toNat_ofNat, Nat.mod_mod]

/-- A signed element shifted right is its signed value divided, rounding down. -/
theorem signedEl_shiftRight (a b : Nat) : signedEl w (wrapW w (intS w a / 2 ^ b)) = signedEl w a / 2 ^ b := by
  have hdiv : signedEl w a / 2 ^ b = ((BitVec.ofNat (elemBits w) a).sshiftRight b).toInt := by
    rw [BitVec.toInt_sshiftRight, Int.shiftRight_eq_div_pow, Int.natCast_pow, Int.cast_ofNat_Int]
  rw [intS_eq_signedEl, hdiv, wrapW_eq_toNat, BitVec.ofInt_toInt, signedEl, BitVec.ofNat_toNat, BitVec.setWidth_eq]

theorem vshift_of_lt (code : Nat) (f : Nat → Nat → Nat) (a : Nat) {b : Nat} (h : b < elemBits w) : vshift w code f a b = f a b % 2 ^ elemBits w := if_pos h

end Sys2Proof.Machine
end

section
/-! PROOF. Element-wise integer instructions (R145, R146, R153, R161). -/

namespace Sys2Proof.Machine

theorem Core.el_bits_lt (k : Core) (r : Fin 32) (w : Fin 4) (i : Nat) : (k.el r w i).bits < 2 ^ elemBits w := fld_lt ..

theorem Core.srcI_bits_lt (k : Core) (r : Fin 32) (scal : Bool) (w : Fin 4) (i : Nat) : (k.srcI r scal w i).bits < 2 ^ elemBits w := by
  unfold Core.srcI
  split
  · exact Nat.mod_lt _ (Nat.two_pow_pos _)
  · exact k.el_bits_lt ..

/-- VSTAT collects the flags of a vector result. -/
theorem State.vstat_vwrite (s : State) (d : DieIx) (c : CoreIx) (vd : Fin 32) (w : Fin 4) (l : List VOut) (flags : DWord) (g : Gen) :
    ((s.conclude d c (.ok (s.vwrite d c vd w l flags g))).core d c).vec.vstat = (s.core d c).vec.vstat ||| flags := by
  rw [State.conclude, State.core_modCore, State.core_vwrite]
  rfl

/-- An operation without flags leaves none. -/
theorem vloop_flags {op : List Nat → Gen → FpOut} (hop : ∀ l g, vflags (op l g) false = 0) (l : List (Nat × List VEl)) (g : Gen) :
    (vloop false op l g).2.1 = 0 := by
  induction l generalizing g with
  | nil => rfl
  | cons p l ih =>
    rw [vloop]
    split
    · exact ih g
    · simp [hop, ih]

section
variable {s : State} {d : DieIx} {c : CoreIx} {vd vs1 vs2 : Fin 32} {w : Fin 4} {pg : Fin 8} {scal : Bool} {i : Instr}

/-- An element-wise integer instruction, by a property that its operation's results have modulo the width. -/
theorem exec_viArith {op : Nat → Nat → Nat} {P : Nat → Nat → Nat → Prop}
    (he : exec i s = onDie d s (fun t => t.vinsn d c i true (fun u => u.viArith d c vd w pg (opsI2 vs1 vs2 w scal) op)))
    (hi : CanIssue s d c) (hs : Spelt s d c i) (hop : ∀ a b, a < 2 ^ elemBits w → b < 2 ^ elemBits w → P a b (op a b % 2 ^ elemBits w)) :
    ∃ t, exec i s = .next t ∧ VectorFrame s t d c vd ∧ (t.core d c).vec.vstat = (s.core d c).vec.vstat
      ∧ ∀ n, n < lanes w →
        let a := (s.core d c).el vs1 w n
        let b := (s.core d c).srcI vs2 scal w n
        let x := velem (t.core d c).vec.v[vd] w n
        (IsActive s d c w pg n → a.bad = false → b.bad = false → P a.bits b.bits x)
        ∧ (IsActive s d c w pg n → a.bad = true ∨ b.bad = true → (t.core d c).vec.poison[vd].getLsbD (segOf w n) = true)
        ∧ (¬ IsActive s d c w pg n → x = velem (s.core d c).vec.v[vd] w n) := by
  have hspec := s.vloop_spec d c vd w pg (opsI2 vs1 vs2 w scal (s.core d c)) false
    (op := fun l g => ⟨op (arg l 0) (arg l 1), 0, 0, g⟩) (fun _ _ _ => rfl)
  dsimp only at hspec
  rw [vloop_flags (fun _ _ => by simp [vflags])] at hspec
  obtain ⟨hframe, hlanes⟩ := hspec
  refine ⟨_, exec_vinsn he hi hs rfl, hframe, ?_, fun n hn => ?_⟩
  · rw [State.viArith, State.vstat_vwrite]
    exact BitVec.or_zero
  · obtain ⟨hgood, hbad, hidle⟩ := hlanes n hn
    refine ⟨fun hact ha hb => ?_, fun hact hab => hbad hact (by simpa [opsI2] using hab), hidle⟩
    have hval := hgood hact (by simp [opsI2, ha, hb])
    exact hval ▸ hop _ _ (Core.el_bits_lt ..) (Core.srcI_bits_lt ..)

end

end Sys2Proof.Machine
end

section
open Sys2Proof Sys2Proof.Machine
open Host (Outcome)

/-- Settles O12: each result modulo the width is what its row says of it, by the value of `wrapW` and of signed elements. -/
theorem vectorIntegerElements : Obligations.VectorIntegerElements := by
  unfold Obligations.VectorIntegerElements
  intro s d c vd vs1 vs2 w pg scal hi size rows p hp hs
  simp only [rows, List.mem_cons, List.not_mem_nil, or_false] at hp
  rcases hp with rfl | rfl | rfl | rfl | rfl | rfl | rfl | rfl | rfl | rfl | rfl | rfl | rfl
  · refine exec_viArith rfl hi hs fun a b _ _ => ?_
    rw [← Nat.cast_add, wrapW_natCast, Nat.mod_mod]
  · exact exec_viArith rfl hi hs fun a b ha _ => wrapW_sub_add w b ha
  · refine exec_viArith rfl hi hs fun a b _ _ => ?_
    rw [← Nat.cast_mul, wrapW_natCast, Nat.mod_mod]
  · exact exec_viArith rfl hi hs fun a b _ hb => Nat.mod_eq_of_lt (Nat.and_lt_two_pow a hb)
  · exact exec_viArith rfl hi hs fun a b ha hb => Nat.mod_eq_of_lt (Nat.or_lt_two_pow ha hb)
  · exact exec_viArith rfl hi hs fun a b ha hb => Nat.mod_eq_of_lt (Nat.xor_lt_two_pow ha hb)
  · refine exec_viArith rfl hi hs fun a b _ _ hlt => ?_
    rw [vshift_of_lt w _ _ a hlt, Nat.mod_mod]
  · refine exec_viArith rfl hi hs fun a b ha _ hlt => ?_
    rw [vshift_of_lt w _ _ a hlt, Nat.mod_mod, Nat.mod_eq_of_lt ((Nat.div_le_self a _).trans_lt ha)]
  · refine exec_viArith rfl hi hs fun a b _ _ hlt => ?_
    rw [vshift_of_lt w _ _ a hlt, Nat.mod_mod, signedEl_mod, signedEl_shiftRight]
  · refine exec_viArith rfl hi hs fun a b _ _ => ?_
    simp only [intS_eq_signedEl, signedEl_mod, min_def, apply_ite (signedEl w)]
  · refine exec_viArith rfl hi hs fun a b _ _ => ?_
    simp only [intS_eq_signedEl, signedEl_mod, max_def', apply_ite (signedEl w)]
  · exact exec_viArith rfl hi hs fun a b ha _ => Nat.mod_eq_of_lt ((Nat.min_le_left a b).trans_lt ha)
  · exact exec_viArith rfl hi hs fun a b ha hb => Nat.mod_eq_of_lt (Nat.max_lt.mpr ⟨ha, hb⟩)
end

section
/-! LEMMAS. Predicate registers: what a predicate reads after a write, and what else the write leaves alone (R146, R147). -/

namespace Sys2Proof.Machine

/-- A write of p0 is ignored, and p0 reads as ones. -/
theorem Core.pred_setPred (k : Core) (p q : Fin 8) (v : BitVec 512) : (k.setPred p v).pred q = if q = p ∧ q ≠ 0 then v else k.pred q := by
  unfold Core.setPred Core.pred
  by_cases hp : p = 0
  · simp +contextual [hp]
  · by_cases hq : q = p
    · simp [hp, hq]
    · have hne : p.val ≠ q.val := fun hv => hq (Fin.ext hv.symm)
      simp [hp, hq, hne]

theorem bitAt_foldl_setBit_ne {n : Nat} (f : Nat → Bool) {l : List Nat} {i : Nat} (hmem : i ∉ l) (x : BitVec n) :
    bitAt (l.foldl (fun a j => setBit a j (f j)) x) i = bitAt x i := by
  induction l generalizing x with
  | nil => rfl
  | cons j l ih =>
    obtain ⟨hj, hl⟩ := List.ne_and_not_mem_of_not_mem_cons hmem
    rw [List.foldl_cons, ih hl, bitAt_setBit_ne x _ hj]

/-- The bits that are written, of every predicate but p0; every other bit reads as before. -/
theorem Core.pred_setBits (k : Core) (p q : Fin 8) (l : List Nat) (f : Nat → Bool) {i : Nat} (hi : i < 512) :
    ((k.setBits p (l.map (fun j => (j, f j)))).pred q).getLsbD i = if q = p ∧ q ≠ 0 ∧ i ∈ l then f i else (k.pred q).getLsbD i := by
  rw [Core.setBits, Core.pred_setPred, List.foldl_map]
  by_cases hq : q = p ∧ q ≠ 0
  · obtain ⟨rfl, h0⟩ := hq
    rw [if_pos ⟨rfl, h0⟩]
    by_cases hmem : i ∈ l
    · rw [if_pos ⟨rfl, h0, hmem⟩]
      exact bitAt_foldl_setBit f hi hmem (k.pred q)
    · rw [if_neg (fun ⟨_, _, h⟩ => hmem h)]
      exact bitAt_foldl_setBit_ne f hmem (k.pred q)
  · rw [if_neg hq, if_neg (fun ⟨he, h0, _⟩ => hq ⟨he, h0⟩)]

/-- Predicate bits are no other part of their core. -/
theorem Core.setBits_frame (k : Core) (p : Fin 8) (l : List (Nat × Bool)) :
    k.setBits p l = { k with vec := { k.vec with p := (k.setBits p l).vec.p } } := by
  unfold Core.setBits Core.setPred
  split <;> rfl

end Sys2Proof.Machine
end

section
/-! PROOF. Compares (R146, R151, R162, R164). -/

namespace Sys2Proof.Machine

/-- The flags that a compare of the active elements collects. -/
def Core.cmpFlags (k : Core) (w : Fin 4) (pg : Fin 8) (a b : Nat → VEl) (test : Nat → Nat → Bool × BitVec 8) : DWord :=
  (k.active w pg).foldl (fun x i => x ||| (test (a i).bits (b i).bits).2.setWidth 64) 0

/-- A compare of unpoisoned elements writes a bit for each and collects flags. -/
theorem State.vcmp_clean (s : State) (d : DieIx) (c : CoreIx) (vd : Fin 32) (w : Fin 4) (pg : Fin 8) (a b : Core → Nat → VEl)
    (test : Nat → Nat → Bool × BitVec 8)
    (hclean : ∀ i, IsActive s d c w pg i → (a (s.core d c) i).bad = false ∧ (b (s.core d c) i).bad = false) :
    let k := s.core d c
    s.vcmp d c vd w pg (fun k i => [a k i, b k i]) test = .ok (s.modCore d c (fun x =>
      let y := x.setBits (predIx vd) ((k.active w pg).map (fun i => (i, (test (a k i).bits (b k i).bits).1)))
      { y with vec := { y.vec with vstat := y.vec.vstat ||| k.cmpFlags w pg (a k) (b k) test } })) := by
  intro k
  have hfind : ((k.active w pg).map (fun i => (i, [a k i, b k i]))).find? (fun e => e.2.any (fun x => x.bad)) = none := by
    rw [List.find?_eq_none]
    intro e he
    obtain ⟨i, hi, rfl⟩ := List.mem_map.mp he
    obtain ⟨ha, hb⟩ := hclean i (mem_active.mp hi)
    simp [k, ha, hb]
  unfold State.vcmp
  simp only [k] at hfind
  dsimp only
  rw [hfind]
  simp only [List.map_map, List.foldl_map, Function.comp_def]
  rfl

/-- A compare whose first poisoned active element is i faults there. -/
theorem State.vcmp_poison (s : State) (d : DieIx) (c : CoreIx) (vd : Fin 32) (w : Fin 4) (pg : Fin 8) (ops : Core → Nat → List VEl)
    (test : Nat → Nat → Bool × BitVec 8) {i : Nat} (hact : IsActive s d c w pg i) (hbad : (ops (s.core d c) i).any (fun x => x.bad) = true)
    (hbelow : ∀ j, j < i → IsActive s d c w pg j → (ops (s.core d c) j).any (fun x => x.bad) = false) :
    s.vcmp d c vd w pg ops test = .trap (trapVector 3 i 0) := by
  have hfind : (((s.core d c).active w pg).map (fun i => (i, ops (s.core d c) i))).find? (fun e => e.2.any (fun x => x.bad))
      = some (i, ops (s.core d c) i) := by
    rw [List.find?_map, Function.comp_def,
      find?_sorted (sorted_active ..) (mem_active.mpr hact) hbad (fun j hj hji => hbelow j hji (mem_active.mp hj)), Option.map_some]
  unfold State.vcmp
  dsimp only
  rw [hfind]

/-- A float compare at a width that has a float format. -/
theorem State.vfCmp_eq (s : State) (d : DieIx) (c : CoreIx) (o : FCmp) (vd vs1 vs2 : Fin 32) {w : Fin 4} (pg : Fin 8) (scal : Bool) {f : Fmt}
    (hf : floatOf w = some f) :
    s.vfCmp d c o vd vs1 vs2 w pg scal = s.vcmp d c vd w pg (fun k i => [k.el vs1 w i, k.srcF vs2 scal w i]) (elemCmp o f) := by
  rw [State.vfCmp, hf]
  rfl

/-- Between s and t a compare of core c has moved the program counter to the next word and has written a bit of predicate vd for each active
element; the vector registers, their marks, the span, memory and every other predicate bit are as they were. -/
def ComparedTo (s t : State) (d : DieIx) (c : CoreIx) (vd : Fin 32) (w : Fin 4) (pg : Fin 8) (bit : Nat → Bool) : Prop :=
  let k := s.core d c
  t.mem = s.mem ∧ (t.core d c).proc = { k.proc with pc := k.proc.pc + 4, stall := .no } ∧ (t.core d c).vec.v = k.vec.v
    ∧ (t.core d c).vec.poison = k.vec.poison ∧ (t.core d c).vec.span = k.vec.span
    ∧ ∀ (p : Fin 8) (i : Nat), i < 512 → ((t.core d c).pred p).getLsbD i =
        (if p.val = vd.val ∧ p ≠ 0 ∧ i < k.count w ∧ (k.pred pg).getLsbD i then bit i else (k.pred p).getLsbD i)

theorem eq_predIx_iff {vd : Fin 32} (h : vd.val < 8) (p : Fin 8) : p = predIx vd ↔ p.val = vd.val := by
  simp [Fin.ext_iff, predIx, Nat.mod_eq_of_lt h]

section
variable {s : State} {d : DieIx} {c : CoreIx} {vd : Fin 32} {w : Fin 4} {pg : Fin 8} {a b : Core → Nat → VEl} {test : Nat → Nat → Bool × BitVec 8}
  {i : Instr} {body : State → Eff}
variable (he : exec i s = onDie d s (fun t => t.vinsn d c i (decide (vd.val < 8)) body)) (hs : Spelt s d c i)
include he hs

/-- A compare whose destination is no predicate is illegal (R162). -/
theorem exec_compare_illegal (hi : CanFetch s d c) (hvd : 8 ≤ vd.val) : exec i s = .next (s.takeTrap d c trapIllegal) := by
  rw [exec_insn he hi hs]
  simp [Nat.not_lt.mpr hvd, State.conclude]

variable (hi : CanIssue s d c) (hvd : vd.val < 8) (hbody : body s = s.vcmp d c vd w pg (fun k i => [a k i, b k i]) test)
include hi hvd hbody

theorem exec_compare_clean (hclean : ∀ i, IsActive s d c w pg i → (a (s.core d c) i).bad = false ∧ (b (s.core d c) i).bad = false) :
    let k := s.core d c
    ∃ t, exec i s = .next t ∧ (t.core d c).vec.vstat = k.vec.vstat ||| k.cmpFlags w pg (a k) (b k) test
      ∧ ComparedTo s t d c vd w pg (fun i => (test (a k i).bits (b k i).bits).1) := by
  intro k
  refine ⟨_, exec_vinsn he hi hs (decide_eq_true hvd), ?_⟩
  rw [hbody, s.vcmp_clean d c vd w pg a b test hclean]
  dsimp only [State.conclude]
  simp only [ComparedTo, State.core_modCore]
  rw [Core.setBits_frame]
  refine ⟨rfl, rfl, rfl, rfl, rfl, rfl, fun p n hn => ?_⟩
  refine (Core.pred_setBits k (predIx vd) p (k.active w pg) (fun i => (test (a k i).bits (b k i).bits).1) hn).trans ?_
  simp only [eq_predIx_iff hvd, mem_active]
  rfl

theorem exec_compare_poison {n : Nat} (hact : IsActive s d c w pg n)
    (hbad : (a (s.core d c) n).bad = true)
    (hbelow : ∀ j, j < n → IsActive s d c w pg j → (a (s.core d c) j).bad = false ∧ (b (s.core d c) j).bad = false) :
    exec i s = .next (s.takeTrap d c (trapVector 3 n 0)) := by
  rw [exec_vinsn he hi hs (decide_eq_true hvd), hbody, s.vcmp_poison d c vd w pg _ test hact (by simp [hbad]) (fun j hj hja => by
    obtain ⟨ha, hb⟩ := hbelow j hj hja
    simp [ha, hb])]
  rfl

end

/-- Compares of integers have no flags. -/
theorem Core.cmpFlags_int (k : Core) (w : Fin 4) (pg : Fin 8) (a b : Nat → VEl) (bit : Nat → Nat → Bool) :
    k.cmpFlags w pg a b (fun x y => (bit x y, 0)) = 0 := by
  simp [Core.cmpFlags]

/-- A compare of unpoisoned integers leaves VSTAT as it was. -/
theorem exec_intCompare {s : State} {d : DieIx} {c : CoreIx} {vd : Fin 32} {w : Fin 4} {pg : Fin 8} {a b : Core → Nat → VEl}
    {bit : Nat → Nat → Bool} {i : Instr}
    (he : exec i s = onDie d s (fun t => t.vinsn d c i (decide (vd.val < 8)) (fun u => u.vcmp d c vd w pg (fun k i => [a k i, b k i]) (fun x y => (bit x y, 0)))))
    (hs : Spelt s d c i) (hi : CanIssue s d c) (hvd : vd.val < 8)
    (hclean : ∀ i, IsActive s d c w pg i → (a (s.core d c) i).bad = false ∧ (b (s.core d c) i).bad = false) :
    ∃ t, exec i s = .next t ∧ (t.core d c).vec.vstat = (s.core d c).vec.vstat
      ∧ ComparedTo s t d c vd w pg (fun i => bit (a (s.core d c) i).bits (b (s.core d c) i).bits) := by
  obtain ⟨t, ht, hstat, hbits⟩ := exec_compare_clean he hs hi hvd rfl hclean
  rw [Core.cmpFlags_int] at hstat
  exact ⟨t, ht, hstat.trans BitVec.or_zero, hbits⟩

end Sys2Proof.Machine
end

section
open Sys2Proof Sys2Proof.Machine
open Host (Outcome)

/-- Settles O14: a poisoned active element is found before any bit is written, else each active element sets its own bit. -/
theorem vectorCompares : Obligations.VectorCompares := by
  unfold Obligations.VectorCompares
  intro s d c vd vs1 vs2 w pg scal hi k ints floats wrote
  refine ⟨fun hvd => ⟨fun hclean p hp hs => ?_, fun f hf hclean p hp hs => ?_, fun n hact hbad hbelow =>
    ⟨fun p hp hs => ?_, fun hwidth p hp hs => ?_⟩⟩, fun hvd => ⟨fun p hp hs => ?_, fun p hp hs => ?_⟩⟩
  · simp only [ints, List.mem_cons, List.not_mem_nil, or_false] at hp
    rcases hp with rfl | rfl | rfl
    · exact exec_intCompare rfl hs hi hvd hclean
    · have h := exec_intCompare (i := .vlt d c vd vs1 vs2 w pg scal) rfl hs hi hvd hclean
      simp only [intS_eq_signedEl] at h
      exact h
    · exact exec_intCompare rfl hs hi hvd hclean
  · have hcmp := fun o => s.vfCmp_eq d c o vd vs1 vs2 pg scal hf
    simp only [floats, List.mem_cons, List.not_mem_nil, or_false] at hp
    rcases hp with rfl | rfl | rfl | rfl
    all_goals exact (exec_compare_clean rfl hs hi hvd (hcmp _) hclean).imp fun _ ⟨ht, _, hbits⟩ => ⟨ht, hbits⟩
  · have hboth := fun j hj hja => (hbelow j hj hja).imp_right And.left
    simp only [ints, List.mem_cons, List.not_mem_nil, or_false] at hp
    rcases hp with rfl | rfl | rfl
    all_goals exact exec_compare_poison rfl hs hi hvd rfl hact hbad hboth
  · obtain ⟨f, hf⟩ := Option.ne_none_iff_exists'.mp hwidth
    have hcmp := fun o => s.vfCmp_eq d c o vd vs1 vs2 pg scal hf
    have hboth := fun j hj hja => (hbelow j hj hja).imp_right And.right
    simp only [floats, List.mem_cons, List.not_mem_nil, or_false] at hp
    rcases hp with rfl | rfl | rfl | rfl
    all_goals exact exec_compare_poison rfl hs hi hvd (hcmp _) hact hbad hboth
  · simp only [ints, List.mem_cons, List.not_mem_nil, or_false] at hp
    rcases hp with rfl | rfl | rfl
    all_goals exact exec_compare_illegal rfl hs hi.1 hvd
  · simp only [floats, List.mem_cons, List.not_mem_nil, or_false] at hp
    rcases hp with rfl | rfl | rfl | rfl
    all_goals exact exec_compare_illegal rfl hs hi.1 hvd
end

section
/-! LEMMAS. The pairing tree of a reduction (R154). -/

namespace Sys2Proof.Machine

section
variable {α : Type} {op : α → α → α} {comb : α → α → Gen → α × DWord × Gen}
variable (hcomb : ∀ a b g, (comb a b g).1 = op a b)
include hcomb

/-- A level pairs each position with the one h above it. -/
theorem treeLevel_eq_map (h : Nat) {n : Nat} (hn : n ≤ h) (l : List (Option α)) (g : Gen) :
    (treeLevel h comb n l g).1 = (List.range' (h - n) n).map (fun i => (l.getD i none).merge op (l.getD (i + h) none)) := by
  induction n generalizing g with
  | zero => rfl
  | succ n ih =>
    have hrest := ih (Nat.le_of_succ_le hn)
    rw [List.range'_succ, show h - (n + 1) + 1 = h - n by omega, List.map_cons, treeLevel]
    dsimp only
    split
    · next a b ha hb => rw [hrest, ha, hb, Option.merge_some_some, ← hcomb a b g]
    · next hnone =>
      rw [hrest]
      refine congrArg (· :: _) ?_
      cases ha : l.getD (h - (n + 1)) none with
      | none => exact Option.merge_none_left.symm
      | some a =>
        cases hb : l.getD (h - (n + 1) + h) none with
        | none => rfl
        | some b => exact (hnone a b ha hb).elim

theorem treeLevel_getD (h : Nat) (l : List (Option α)) (g : Gen) (i : Nat) :
    (treeLevel h comb h l g).1.getD i none = if i < h then (l.getD i none).merge op (l.getD (i + h) none) else none := by
  rw [treeLevel_eq_map hcomb h le_rfl, Nat.sub_self, ← List.range_eq_range']
  split <;> next hi => simp [hi]

/-- An operation whose values add up in some monoid adds up over the tree. -/
theorem tree_sum {M : Type} [AddCommMonoid M] (φ : Option α → M) (hnone : φ none = 0)
    (hop : ∀ a b, φ (some (op a b)) = φ (some a) + φ (some b)) (n : Nat) (l : List (Option α)) (g : Gen) :
    φ (tree comb n l g).1 = ∑ i ∈ Finset.range (2 ^ n), φ (l.getD i none) := by
  have hmerge : ∀ o p : Option α, φ (o.merge op p) = φ o + φ p
    | none, p => by rw [Option.merge_none_left, hnone, zero_add]
    | some a, none => by rw [Option.merge_none_right, hnone, add_zero]
    | some a, some b => hop a b
  induction n generalizing l g with
  | zero => simp [tree]
  | succ n ih =>
    rw [tree, ih, Nat.pow_succ, Nat.mul_two, Finset.sum_range_add, ← Finset.sum_add_distrib]
    refine Finset.sum_congr rfl fun i hi => ?_
    rw [treeLevel_getD hcomb, if_pos (Finset.mem_range.mp hi), hmerge, Nat.add_comm]

/-- What stands at one position alone comes out of the tree as it is. -/
theorem tree_single (o : Option α) {n k : Nat} (hk : k < 2 ^ n) {l : List (Option α)} (hl : ∀ i, l.getD i none = if i = k then o else none) (g : Gen) :
    (tree comb n l g).1 = o := by
  induction n generalizing k l g with
  | zero =>
    obtain rfl : k = 0 := by simpa using hk
    exact (hl 0).trans (if_pos rfl)
  | succ n ih =>
    rw [tree]
    rcases Nat.lt_or_ge k (2 ^ n) with hlow | hhigh
    · refine ih hlow (fun i => ?_) _
      rw [treeLevel_getD hcomb, hl, hl, if_neg (show ¬ i + 2 ^ n = k by omega), Option.merge_none_right]
      by_cases hik : i = k
      · rw [if_pos (hik ▸ hlow)]
      · rw [if_neg hik, ite_self]
    · have hfit : k - 2 ^ n < 2 ^ n := by rw [Nat.pow_succ] at hk; omega
      refine ih hfit (fun i => ?_) _
      rw [treeLevel_getD hcomb, hl, hl]
      by_cases hi : i < 2 ^ n
      · rw [if_pos hi, if_neg (show ¬ i = k by omega), Option.merge_none_left]
        exact if_congr (by omega) rfl rfl
      · rw [if_neg hi, if_neg (show ¬ i = k - 2 ^ n by omega)]

end

end Sys2Proof.Machine
end

section
/-! LEMMAS. Reductions: folds over the active elements, and the element that is written (R154). -/

namespace Sys2Proof.Machine

/-! ### Folds -/

/-- Where the bits take no draw, a fold of an operation is the fold of its bits. -/
theorem vfold_fst {op : Nat → Nat → Gen → FpOut} (hop : ∀ a b g h, (op a b g).bits = (op a b h).bits) (l : List Nat) (a : Nat) (fl : DWord) (g j : Gen) :
    (vfold op l a fl g).1 = l.foldl (fun a b => (op a b j).bits) a := by
  induction l generalizing a fl g with
  | nil => rfl
  | cons b l ih => rw [vfold, ih, List.foldl_cons, hop a b g j]

/-- Keeping the larger of two again and again gives the largest of a list. -/
theorem foldl_larger {α β : Type} [LinearOrder β] (key : α → β) (l : List α) (a : α) :
    let m := l.foldl (fun a b => if key b ≤ key a then a else b) a
    m ∈ a :: l ∧ ∀ x ∈ a :: l, key x ≤ key m := by
  induction l generalizing a with
  | nil => simp
  | cons b l ih =>
    have hkept : ∃ c, (if key b ≤ key a then a else b) = c ∧ (c = a ∨ c = b) ∧ key a ≤ key c ∧ key b ≤ key c := by
      by_cases h : key b ≤ key a
      · exact ⟨a, if_pos h, .inl rfl, le_rfl, h⟩
      · exact ⟨b, if_neg h, .inr rfl, le_of_not_ge h, le_rfl⟩
    obtain ⟨c, hc, hor, ha, hb⟩ := hkept
    rw [List.foldl_cons, hc]
    obtain ⟨hmem, hmax⟩ := ih c
    obtain ⟨hcm, hrest⟩ := List.forall_mem_cons.mp hmax
    refine ⟨?_, List.forall_mem_cons.mpr ⟨ha.trans hcm, List.forall_mem_cons.mpr ⟨hb.trans hcm, hrest⟩⟩⟩
    have hsub : c :: l ⊆ a :: b :: l := by rcases hor with rfl | rfl <;> simp
    exact hsub hmem

theorem vextreme_fst {op : Nat → Nat → Gen → FpOut} (hop : ∀ a b g h, (op a b g).bits = (op a b h).bits) (empty x : Nat) (xs : List Nat) (g j : Gen) :
    (vextreme op empty (x :: xs) g).1 = (x :: xs).foldl (fun a b => (op a b j).bits) x := vfold_fst hop ..

/-! ### The tree over the active elements -/

/-- The values of some elements of a register. -/
abbrev Core.valsAt (k : Core) (r : Fin 32) (w : Fin 4) (idx : List Nat) : List Nat := idx.map (fun i => velem k.vec.v[r] w i)

theorem Core.valsAt_lt (k : Core) (r : Fin 32) (w : Fin 4) (idx : List Nat) : ∀ x ∈ k.valsAt r w idx, x < 2 ^ elemBits w := fun x hx => by
  obtain ⟨i, -, rfl⟩ := List.mem_map.mp hx
  exact fld_lt ..

theorem lanes_eq_two_pow (w : Fin 4) : lanes w = 2 ^ (9 - w.val) := by revert w; decide

section
variable (k : Core) (vs1 : Fin 32) {w : Fin 4} {act : List Nat} (hact : ∀ i ∈ act, i < lanes w)
include hact

theorem positions_getD (i : Nat) : (positions k vs1 w act).getD i none = if i ∈ act then some (velem k.vec.v[vs1] w i) else none := by
  by_cases hi : i < lanes w
  · simp [positions, hi]
  · rw [if_neg (fun h => hi (hact i h))]
    simp [positions, hi]

/-- VSUMT's tree holds the sum of the active elements modulo the width. -/
theorem tree_wrapW (hnodup : act.Nodup) (g : Gen) :
    (tree (fun (a b : Nat) h => (wrapW w (a + b), 0, h)) (9 - w.val) (positions k vs1 w act) g).1.getD 0 % 2 ^ elemBits w
      = (k.valsAt vs1 w act).sum % 2 ^ elemBits w := by
  let φ : Option Nat → ZMod (2 ^ elemBits w) := fun o => (o.getD 0 : Nat)
  have hop : ∀ a b : Nat, φ (some (wrapW w (a + b))) = φ (some a) + φ (some b) := fun a b => by
    simp only [φ, Option.getD_some]
    rw [← Nat.cast_add, wrapW_natCast, ZMod.natCast_mod, Nat.cast_add]
  have hsum := tree_sum (comb := fun (a b : Nat) h => (wrapW w (a + b), 0, h)) (fun _ _ _ => rfl) φ Nat.cast_zero hop
    (9 - w.val) (positions k vs1 w act) g
  have hsub : Finset.range (lanes w) ∩ act.toFinset = act.toFinset :=
    Finset.inter_eq_right.mpr fun i hi => Finset.mem_range.mpr (hact i (List.mem_toFinset.mp hi))
  have hφ : ∀ i, φ ((positions k vs1 w act).getD i none) = if i ∈ act.toFinset then (velem k.vec.v[vs1] w i : ZMod (2 ^ elemBits w)) else 0 := fun i => by
    rw [positions_getD k vs1 hact]
    simp only [List.mem_toFinset]
    split
    · rfl
    · exact Nat.cast_zero
  rw [← ZMod.natCast_eq_natCast_iff', Nat.cast_list_sum, List.map_map]
  simp only [hφ] at hsum
  rw [← lanes_eq_two_pow, Finset.sum_ite_mem, hsub, List.sum_toFinset _ hnodup] at hsum
  exact hsum

/-- The tree over one active element, or none, is that element. -/
theorem tree_lone {op : Nat → Nat → Nat} {comb : Nat → Nat → Gen → Nat × DWord × Gen} (hcomb : ∀ a b g, (comb a b g).1 = op a b)
    (hlen : act.length ≤ 1) (g : Gen) :
    (tree comb (9 - w.val) (positions k vs1 w act) g).1 = (k.valsAt vs1 w act).head? := by
  match act, hlen with
  | [], _ => exact tree_single hcomb none (Nat.two_pow_pos _) (fun i => by rw [positions_getD k vs1 hact]; simp) g
  | [j], _ =>
    refine tree_single hcomb _ (k := j) (lanes_eq_two_pow w ▸ hact j List.mem_cons_self) (fun i => ?_) g
    rw [positions_getD k vs1 hact]
    by_cases hij : i = j <;> simp [hij]

end

/-! ### Element 0 (R145, R154) -/

/-- Between s and t the elements of vd above element 0 have kept their values. -/
def AboveKept (s t : State) (d : DieIx) (c : CoreIx) (vd : Fin 32) (w : Fin 4) : Prop :=
  ∀ n, 0 < n → n < lanes w → velem (t.core d c).vec.v[vd] w n = velem (s.core d c).vec.v[vd] w n

theorem active_lt_lanes {k : Core} (hspan : k.vec.span ≤ 512) {w : Fin 4} {pg : Fin 8} : ∀ i ∈ k.active w pg, i < lanes w := fun _ hi =>
  (mem_active.mp hi).1.trans_le (Nat.div_le_div_right hspan)

section
variable {s : State} {d : DieIx} {c : CoreIx} {vd vs1 : Fin 32} {w : Fin 4} {pg : Fin 8} {srcs : Core → List VEl}
  {run : Core → List Nat → Gen → Nat × DWord × Gen} {i : Instr} {legal : Bool} {body : State → Eff}
variable (he : exec i s = onDie d s (fun t => t.vinsn d c i legal body)) (hi : CanIssue s d c) (hs : Spelt s d c i) (hlegal : legal = true)
  (hbody : body s = s.vreduce d c vd w pg srcs run)
include he hi hs hlegal hbody

/-- A reduction of unpoisoned elements writes its value to element 0 alone. -/
theorem exec_vreduce (hcount : 0 < (s.core d c).count w) (hclean : (srcs (s.core d c)).any (fun e => e.bad) = false) :
    ∃ t, exec i s = .next t ∧ VectorFrame s t d c vd ∧ AboveKept s t d c vd w
      ∧ velem (t.core d c).vec.v[vd] w 0 = (run (s.core d c) ((s.core d c).active w pg) (s.core d c).gen).1 % 2 ^ elemBits w := by
  let r := run (s.core d c) ((s.core d c).active w pg) (s.core d c).gen
  have heff : s.vreduce d c vd w pg srcs run = .ok (s.vwrite d c vd w [⟨0, r.1, false⟩] r.2.1 r.2.2) := by
    rw [State.vreduce, if_neg hcount.ne', if_neg (by simp [hclean])]
  obtain ⟨hin, hout⟩ := s.vwrite_lanes d c vd w (l := [⟨0, r.1, false⟩]) r.2.1 r.2.2 (List.nodup_singleton _)
  refine ⟨_, exec_vinsn he hi hs hlegal, ?_⟩
  rw [hbody, heff]
  have hpos : 0 < lanes w := by rw [lanes_eq_two_pow]; exact Nat.two_pow_pos _
  exact ⟨s.vwrite_frame .., fun n hn _ => hout n (by simpa using hn.ne), (hin _ (List.mem_singleton_self _) hpos).1⟩

/-- At a span count of 0 a reduction writes nothing. -/
theorem exec_vreduce_empty (hcount : (s.core d c).count w = 0) : ∃ t, exec i s = .next t ∧ (t.core d c).vec = (s.core d c).vec := by
  refine ⟨_, exec_vinsn he hi hs hlegal, ?_⟩
  rw [hbody, State.vreduce, if_pos hcount, State.conclude, State.core_modCore]
  rfl

end

section
variable {s : State} {d : DieIx} {c : CoreIx} {vd vs1 : Fin 32} {w : Fin 4} {pg : Fin 8} {op : Nat → Nat → Gen → FpOut} {empty : Nat}
  {i : Instr} {legal : Bool} {body : State → Eff}
variable (he : exec i s = onDie d s (fun t => t.vinsn d c i legal body)) (hi : CanIssue s d c) (hs : Spelt s d c i) (hlegal : legal = true)
  (hbody : body s = s.vreduce d c vd w pg (activeEls vs1 w pg)
    (fun k act g => vextreme op empty (k.valsAt vs1 w act) g))
  (hcount : 0 < (s.core d c).count w) (hclean : (activeEls vs1 w pg (s.core d c)).any (fun e => e.bad) = false)
include he hi hs hlegal hbody hcount hclean

/-- An extreme by an operation that takes no draw is the fold of its bits. -/
theorem exec_extreme (hop : ∀ a b g h, (op a b g).bits = (op a b h).bits) :
    let vals := (s.core d c).valsAt vs1 w ((s.core d c).active w pg)
    ∃ t, exec i s = .next t ∧ VectorFrame s t d c vd ∧ AboveKept s t d c vd w
      ∧ (vals = [] → velem (t.core d c).vec.v[vd] w 0 = empty % 2 ^ elemBits w)
      ∧ (∀ x xs, vals = x :: xs →
          velem (t.core d c).vec.v[vd] w 0 = vals.foldl (fun a b => (op a b (s.core d c).gen).bits) x % 2 ^ elemBits w) := by
  intro vals
  obtain ⟨t, ht, hframe, hothers, hzero⟩ := exec_vreduce he hi hs hlegal hbody hcount hclean
  change _ = (vextreme op empty vals (s.core d c).gen).1 % _ at hzero
  refine ⟨t, ht, hframe, hothers, fun hnil => ?_, fun x xs hcons => ?_⟩
  · rw [hzero, hnil]
    rfl
  · rw [hzero, hcons, vextreme_fst hop empty x xs _ (s.core d c).gen]

/-- An extreme by a key is one of the active elements, and none goes beyond it. -/
theorem exec_extreme_key {β : Type} [LinearOrder β] (key : Nat → β) (hop : ∀ a b g, (op a b g).bits = if key b ≤ key a then a else b) :
    let vals := (s.core d c).valsAt vs1 w ((s.core d c).active w pg)
    ∃ t, exec i s = .next t ∧ VectorFrame s t d c vd ∧ AboveKept s t d c vd w
      ∧ (vals = [] → velem (t.core d c).vec.v[vd] w 0 = empty % 2 ^ elemBits w)
      ∧ (vals ≠ [] → velem (t.core d c).vec.v[vd] w 0 ∈ vals ∧ ∀ x ∈ vals, key x ≤ key (velem (t.core d c).vec.v[vd] w 0)) := by
  intro vals
  obtain ⟨t, ht, hframe, hothers, hempty, hcons⟩ := exec_extreme he hi hs hlegal hbody hcount hclean (fun a b g h => by rw [hop, hop])
  refine ⟨t, ht, hframe, hothers, hempty, fun hne => ?_⟩
  obtain ⟨x, xs, hvals⟩ := List.exists_cons_of_ne_nil hne
  have hzero := hcons x xs hvals
  simp only [hop] at hzero
  obtain ⟨hmem, hmax⟩ := foldl_larger key vals x
  have hsub : x :: vals ⊆ vals := List.cons_subset.mpr ⟨hvals ▸ List.mem_cons_self, List.Subset.refl _⟩
  rw [Nat.mod_eq_of_lt ((s.core d c).valsAt_lt vs1 w _ _ (hsub hmem))] at hzero
  rw [hzero]
  exact ⟨hsub hmem, fun y hy => hmax y (List.mem_cons_of_mem _ hy)⟩

end

/-! ### Float sums -/

/-- A NaN among the elements or the start is what VFSUMS writes, where an element is active. -/
theorem sumPayload_nan {f : Fmt} {els : List Nat} {start x : Nat} (hne : els ≠ []) (hnan : firstNan f (els ++ [start]) = some x)
    (r : Nat × DWord × Gen) : (sumPayload f els start r).1 = quieted f x := by
  simp [sumPayload, hne, hnan]

theorem sumPayload_number {f : Fmt} {els : List Nat} {start : Nat} (h : firstNan f (els ++ [start]) = none ∨ els = []) (r : Nat × DWord × Gen) :
    sumPayload f els start r = r := by
  rcases h with h | rfl
  · simp [sumPayload, h]
  · rfl

/-- What VFSUMT writes, and its flags and draws. -/
def sumTree (f : Fmt) (vs1 : Fin 32) (w : Fin 4) (k : Core) (act : List Nat) (g : Gen) : Nat × DWord × Gen :=
  let r := tree (fun a b h => let o := elemBin .add f k.vround a b h; (o.bits, vflags o false, o.gen)) (9 - w.val) (positions k vs1 w act) g
  (r.1.getD 0, r.2)

/-- What VFSUMS writes, and its flags and draws. -/
def sumInOrder (f : Fmt) (vd vs1 : Fin 32) (w : Fin 4) (k : Core) (act : List Nat) (g : Gen) : Nat × DWord × Gen :=
  let els := k.valsAt vs1 w act
  let start := velem k.vec.v[vd] w 0
  sumPayload f els start (vfold (fun a b h => elemBin .add f k.vround a b h) els start 0 g)

/-- The sum of one active element, or none, is that element, or 0. -/
theorem sumTree_lone (f : Fmt) (vs1 : Fin 32) {w : Fin 4} {k : Core} {act : List Nat} (hact : ∀ i ∈ act, i < lanes w) (hmode : k.vround ≠ .sr)
    (hlen : act.length ≤ 1) (g : Gen) : (sumTree f vs1 w k act g).1 = (k.valsAt vs1 w act).headD 0 := by
  rw [sumTree, List.headD_eq_head?_getD]
  refine congrArg (·.getD 0) (tree_lone k vs1 hact (op := fun a b => (elemBin .add f k.vround a b g).bits) ?_ hlen g)
  exact fun a b h => elemBin_bits_gen .add f hmode a b h g

/-- Without a NaN the sum in order is the fold of the additions from the start on. -/
theorem sumInOrder_number {f : Fmt} {vd vs1 : Fin 32} {w : Fin 4} {k : Core} {act : List Nat} (hmode : k.vround ≠ .sr)
    (h : firstNan f (k.valsAt vs1 w act ++ [velem k.vec.v[vd] w 0]) = none ∨ k.valsAt vs1 w act = []) (g : Gen) :
    (sumInOrder f vd vs1 w k act g).1
      = (k.valsAt vs1 w act).foldl (fun a b => (elemBin .add f k.vround a b g).bits) (velem k.vec.v[vd] w 0) := by
  rw [sumInOrder, sumPayload_number h]
  exact vfold_fst (fun a b g h => elemBin_bits_gen .add f hmode a b g h) ..

section
variable {s : State} {d : DieIx} {c : CoreIx} {vd vs1 : Fin 32} {w : Fin 4} {pg : Fin 8} {f : Fmt}
variable (hi : CanIssue s d c) (hf : floatOf w = some f) (hcount : 0 < (s.core d c).count w)
  (hclean : (activeEls vs1 w pg (s.core d c)).any (fun e => e.bad) = false)
include hi hf hcount hclean

theorem exec_vfsumt (hs : Spelt s d c (.vfsumt d c vd vs1 0 w pg false)) :
    ∃ t, exec (.vfsumt d c vd vs1 0 w pg false) s = .next t ∧ VectorFrame s t d c vd ∧ AboveKept s t d c vd w
      ∧ velem (t.core d c).vec.v[vd] w 0
        = (sumTree f vs1 w (s.core d c) ((s.core d c).active w pg) (s.core d c).gen).1 % 2 ^ elemBits w := by
  refine exec_vreduce rfl hi hs rfl ?_ hcount hclean
  simp only [hf]
  rfl

theorem exec_vfsums (hs : Spelt s d c (.vfsums d c vd vs1 0 w pg false)) (hstart : ((s.core d c).el vd w 0).bad = false) :
    ∃ t, exec (.vfsums d c vd vs1 0 w pg false) s = .next t ∧ VectorFrame s t d c vd ∧ AboveKept s t d c vd w
      ∧ velem (t.core d c).vec.v[vd] w 0
        = (sumInOrder f vd vs1 w (s.core d c) ((s.core d c).active w pg) (s.core d c).gen).1 % 2 ^ elemBits w := by
  refine exec_vreduce (srcs := fun k => k.el vd w 0 :: activeEls vs1 w pg k) rfl hi hs rfl ?_ hcount (by rw [List.any_cons, hstart, hclean]; rfl)
  simp only [hf]
  rfl

end

/-- The canonical NaN fits its width. -/
theorem canonNan_lt : ∀ w : Fin 4, ∀ f ∈ floatOf w, canonNan f < 2 ^ elemBits w := by decide

end Sys2Proof.Machine
end

section
open Sys2Proof Sys2Proof.Machine
open Host (Outcome)

/-- Settles O15: the tree adds modulo the width, and a fold keeps the extreme; where no mode draws, the generator has no part in either. -/
theorem vectorReductions : Obligations.VectorReductions := by
  unfold Obligations.VectorReductions
  intro s d c vd vs1 w pg hi hspan k act vals clean others zero
  have hact : ∀ i ∈ act, i < lanes w := active_lt_lanes hspan
  refine ⟨fun hcount hclean => ?_, fun hcount => ⟨fun hs => exec_vreduce_empty rfl hi hs rfl rfl hcount, fun hs => exec_vreduce_empty rfl hi hs rfl rfl hcount,
    fun hs => exec_vreduce_empty rfl hi hs rfl rfl hcount⟩⟩
  have hgood : (activeEls vs1 w pg k).any (fun e => e.bad) = false := by
    rw [activeEls, List.any_map, List.any_eq_false]
    exact fun i hmem => Bool.eq_false_iff.mp (hclean i hmem)
  refine ⟨fun hs => ?_, fun hs => ?_, fun hs => ?_, fun f hf hmode => ⟨fun hs => ?_, fun hs hstart => ?_, fun row big hrow hs => ?_⟩⟩
  · obtain ⟨t, ht, hframe, hothers, hzero⟩ := exec_vreduce rfl hi hs rfl rfl hcount hgood
    exact ⟨t, ht, hframe, hothers, hzero.trans (tree_wrapW k vs1 hact (nodup_active ..) _)⟩
  · exact exec_extreme_key rfl hi hs rfl rfl hcount hgood (signedEl w) (fun a b _ => by simp only [intS_eq_signedEl, ge_iff_le])
  · exact exec_extreme_key rfl hi hs rfl rfl hcount hgood (fun x => OrderDual.toDual (signedEl w x))
      (fun a b _ => by simp only [intS_eq_signedEl, OrderDual.toDual_le_toDual])
  · obtain ⟨t, ht, hframe, hothers, hzero⟩ := exec_vfsumt hi hf hcount hgood hs
    have hlone : vals.length ≤ 1 → zero t = vals.headD 0 % 2 ^ elemBits w := fun h =>
      hzero.trans (congrArg (· % _) (sumTree_lone f vs1 hact hmode (by simpa [vals] using h) k.gen))
    refine ⟨t, ht, hframe, hothers, fun hnil => ?_, fun x hx => ?_, ?_⟩
    · rw [hlone (by simp [hnil]), hnil]
      rfl
    · have hmem : x ∈ vals := by simp [hx]
      rw [hlone (by simp [hx]), hx]
      exact Nat.mod_eq_of_lt (k.valsAt_lt vs1 w act x hmem)
    · refine hzero.trans ?_
      simp only [sumTree, positions, List.contains_iff_mem]
      rfl
  · obtain ⟨t, ht, hframe, hothers, hzero⟩ := exec_vfsums hi hf hcount hgood hs hstart
    exact ⟨t, ht, hframe, hothers, fun h => hzero.trans (congrArg (· % _) (sumInOrder_number hmode h k.gen)),
      fun x hne hnan => hzero.trans (congrArg (· % _) (sumPayload_nan hne hnan _))⟩
  · have hcanon := Nat.mod_eq_of_lt (canonNan_lt w f hf)
    simp only [List.mem_cons, Prod.mk.injEq, List.not_mem_nil, or_false] at hrow
    rw [← hcanon]
    rcases hrow with ⟨rfl, rfl⟩ | ⟨rfl, rfl⟩
    · exact exec_extreme rfl hi hs rfl (by simp only [hf]) hcount hgood (elemMinMax_bits_gen true f)
    · exact exec_extreme rfl hi hs rfl (by simp only [hf]) hcount hgood (elemMinMax_bits_gen false f)
end

section
/-! PROOF. Data movement (R146, R155, R161, R162). -/

namespace Sys2Proof.Machine

/-- Element i of vd takes what `src` names for it: the value, or a mark where that is poisoned; where it names none the element keeps its value. -/
def Placed (s t : State) (d : DieIx) (c : CoreIx) (vd : Fin 32) (w : Fin 4) (src : Nat → Option VEl) : Prop :=
  ∀ i, i < lanes w →
    (∀ e, src i = some e → e.bad = false → velem (t.core d c).vec.v[vd] w i = e.bits)
    ∧ (∀ e, src i = some e → e.bad = true → (t.core d c).vec.poison[vd].getLsbD (segOf w i) = true)
    ∧ (src i = none → velem (t.core d c).vec.v[vd] w i = velem (s.core d c).vec.v[vd] w i)

section
variable {s : State} {d : DieIx} {c : CoreIx} {vd : Fin 32} {w : Fin 4} {src : Nat → Option VEl} {i : Instr} {legal : Bool} {body : State → Eff}
variable (he : exec i s = onDie d s (fun t => t.vinsn d c i legal body)) (hi : CanIssue s d c) (hs : Spelt s d c i) (hlegal : legal = true)
include he hi hs hlegal

/-- An instruction that writes the elements that `src` names, each once. -/
theorem exec_places {l : List VOut} {g : Gen} (hbody : body s = .ok (s.vwrite d c vd w l 0 g)) (hnodup : (l.map VOut.idx).Nodup)
    (hsome : ∀ n e, n < lanes w → src n = some e → vout n e ∈ l ∧ e.bits < 2 ^ elemBits w)
    (hnone : ∀ n, n < lanes w → src n = none → ∀ o ∈ l, o.idx ≠ n) :
    ∃ t, exec i s = .next t ∧ VectorFrame s t d c vd ∧ (t.core d c).vec.vstat = (s.core d c).vec.vstat ∧ Placed s t d c vd w src := by
  refine ⟨_, exec_vinsn he hi hs hlegal, ?_⟩
  rw [hbody]
  obtain ⟨hin, hout⟩ := s.vwrite_lanes d c vd w 0 g hnodup
  refine ⟨s.vwrite_frame .., (s.vstat_vwrite ..).trans BitVec.or_zero, fun n hn => ⟨fun e he _ => ?_, fun e he hbad => ?_, fun h => hout n (hnone n hn h)⟩⟩
  · obtain ⟨hmem, hlt⟩ := hsome n e hn he
    exact ((hin _ hmem hn).1).trans (Nat.mod_eq_of_lt hlt)
  · exact (hin _ (hsome n e hn he).1 hn).2 hbad

/-- An instruction that writes an element of its own to each of some indices. -/
theorem exec_places_at {idx : List Nat} {e : Nat → VEl} {g : Gen} (hbody : body s = .ok (s.vwrite d c vd w (idx.map (fun n => vout n (e n))) 0 g))
    (hnodup : idx.Nodup) (hlt : ∀ n, (e n).bits < 2 ^ elemBits w) (hsrc : ∀ n, src n = if n ∈ idx then some (e n) else none) :
    ∃ t, exec i s = .next t ∧ VectorFrame s t d c vd ∧ (t.core d c).vec.vstat = (s.core d c).vec.vstat ∧ Placed s t d c vd w src := by
  refine exec_places he hi hs hlegal hbody ?_ (fun n x _ hx => ?_) (fun n _ hx o ho => ?_)
  · simpa [Function.comp_def, vout] using hnodup
  · rw [hsrc] at hx
    obtain ⟨hmem, hval⟩ := Option.ite_none_right_eq_some.mp hx
    obtain rfl := Option.some.inj hval
    exact ⟨List.mem_map_of_mem hmem, hlt n⟩
  · obtain ⟨m, hm, rfl⟩ := List.mem_map.mp ho
    rintro rfl
    rw [hsrc, vout, if_pos hm] at hx
    exact Option.some_ne_none _ hx

/-- A vector instruction whose body faults. -/
theorem exec_vinsn_trap {x : Trap} (hbody : body s = .trap x) : exec i s = .next (s.takeTrap d c x) := by
  rw [exec_vinsn he hi hs hlegal, hbody]
  rfl

end

end Sys2Proof.Machine
end

section
open Sys2Proof Sys2Proof.Machine
open Host (Outcome)

/-- Settles O16: every instruction but VPACK writes to the index it reads its predicate bit at, and VPACK to the place among the selected. -/
theorem vectorMoves : Obligations.VectorMoves := by
  unfold Obligations.VectorMoves
  intro s d c vd vs1 vs2 w pg scal hi _ k n act places
  have hact : act.Nodup := nodup_active k w pg
  refine ⟨fun hs => ?_, fun hs => ?_, fun hs => ?_, fun hs => ?_, fun hs => ?_, fun hs => ?_, fun hs hgood => ?_, fun hs hbad => ?_,
    fun hs => ?_, fun hs => ?_⟩
  · refine exec_places_at rfl hi hs rfl (e := fun i => if (k.pred pg).getLsbD i then k.el vs1 w i else k.srcI vs2 scal w i) rfl List.nodup_range
      (fun i => ?_) (fun i => ?_)
    · split
      · exact k.el_bits_lt ..
      · exact k.srcI_bits_lt ..
    · simp only [List.mem_range, apply_ite some]
      rfl
  · exact exec_places_at rfl hi hs rfl rfl hact (fun i => k.srcI_bits_lt vs2 scal w i) (fun _ => rfl)
  · exact exec_places_at rfl hi hs rfl (e := fun i => ⟨i % 2 ^ elemBits w, false⟩) rfl hact (fun i => Nat.mod_lt _ (Nat.two_pow_pos _)) (fun _ => rfl)
  · refine exec_places_at rfl hi hs rfl (e := fun i => k.el vs1 w (i - n)) rfl (hact.filter _) (fun i => k.el_bits_lt ..) (fun i => ?_)
    simp only [List.mem_filter, decide_eq_true_eq]
    rfl
  · refine exec_places_at rfl hi hs rfl (e := fun i => if i + n < lanes w then k.el vs1 w (i + n) else ⟨0, false⟩) rfl hact (fun i => ?_) (fun i => ?_)
    · split
      · exact k.el_bits_lt ..
      · exact Nat.two_pow_pos _
    · simp only [apply_ite some]
      rfl
  · refine exec_places rfl hi hs rfl rfl ?_ (fun i e _ he => ?_) (fun i _ he o ho => ?_)
    · rw [List.map_map, show VOut.idx ∘ (fun e : Nat × Nat => vout e.2 (k.el vs1 w e.1)) = Prod.snd from rfl, List.zipIdx_map_snd]
      exact List.nodup_range'
    · obtain ⟨j, hj, rfl⟩ := Option.map_eq_some_iff.mp he
      exact ⟨List.mem_map.mpr ⟨(j, i), List.mem_zipIdx_iff_getElem?.mpr hj, rfl⟩, k.el_bits_lt ..⟩
    · obtain ⟨⟨j, m⟩, hj, rfl⟩ := List.mem_map.mp ho
      rintro rfl
      rw [List.mem_zipIdx_iff_getElem?] at hj
      exact Option.some_ne_none j (hj.symm.trans (Option.map_eq_none_iff.mp he))
  · rw [exec_vinsn rfl hi hs rfl]
    simp [k, hgood, State.conclude, State.modCore, intS_eq_signedEl]
  · exact exec_vinsn_trap rfl hi hs rfl (if_pos hbad)
  · exact exec_vinsn_trap rfl hi hs rfl rfl
  · exact exec_vinsn_trap rfl hi hs rfl rfl
end

section
/-! PROOF. Predicate operations, the span and the vector status (R145 to R148, R159). -/

namespace Sys2Proof.Machine

/-- A predicate number as the field of an instruction. -/
def predField (p : Fin 8) : Fin 32 := ⟨p.val, by omega⟩

@[simp] theorem predIx_predField (p : Fin 8) : predIx (predField p) = p := by revert p; decide

theorem vpLegal_predField (pd ps1 ps2 : Fin 8) : vpLegal (predField pd) (predField ps1) (predField ps2) = true := by
  simp [vpLegal, predField]

theorem Core.pred_setBelow (k : Core) (p q : Fin 8) (n : Nat) (f : Nat → Bool) {i : Nat} (hi : i < 512) :
    ((k.setBelow p n f).pred q).getLsbD i = if q = p ∧ q ≠ 0 ∧ i < n then f i else (k.pred q).getLsbD i := by
  simp only [Core.setBelow, k.pred_setBits p q _ f hi, List.mem_range]

/-- The ROUND code of a value for VSTAT. -/
theorem roundCode_fld (v : DWord) : roundCode (fld v 0 3) = roundCode (v.toNat % 8) := by simp [fld]

theorem widthOf_ofNat (w : Fin 4) : widthOf (BitVec.ofNat 11 w.val) = w ∧ fld (BitVec.ofNat 11 w.val) 2 9 = 0 := by revert w; decide

section
variable {s : State} {d : DieIx} {c : CoreIx} {i : Instr} {legal : Bool} {body : State → Eff}
variable (he : exec i s = onDie d s (fun t => t.vinsn d c i legal body)) (hi : CanIssue s d c) (hs : Spelt s d c i) (hlegal : legal = true)
include he hi hs hlegal

/-- A vector instruction that changes its core alone. -/
theorem exec_vinsn_core {f : Core → Core} (hbody : body s = .ok (s.modCore d c f)) :
    exec i s = .next (s.setCore d c ((f (s.core d c)).setPc ((s.core d c).proc.pc + 4))) := by
  rw [exec_vinsn he hi hs hlegal, hbody]
  simp [State.conclude, State.modCore]

/-- An operation on predicates writes the bits of its destination below the span count. -/
theorem exec_setBelow {p : Fin 8} {w : Fin 4} {f : Nat → Bool} (hbody : body s = .ok (s.modCore d c (fun x => x.setBelow p ((s.core d c).count w) f))) :
    let k := s.core d c
    ∃ t, exec i s = .next t ∧ t.mem = s.mem ∧ (t.core d c).proc = { k.proc with pc := k.proc.pc + 4, stall := .no }
      ∧ (t.core d c).vec.v = k.vec.v ∧ (t.core d c).vec.span = k.vec.span
      ∧ ∀ (q : Fin 8) (n : Nat), n < 512 → ((t.core d c).pred q).getLsbD n =
          (if q = p ∧ q ≠ 0 ∧ n < k.count w then f n else (k.pred q).getLsbD n) := by
  intro k
  refine ⟨_, exec_vinsn_core he hi hs hlegal hbody, ?_⟩
  have hframe : k.setBelow p (k.count w) f = { k with vec := { k.vec with p := (k.setBelow p (k.count w) f).vec.p } } := Core.setBits_frame ..
  rw [State.core_setCore, State.setCore_mem]
  refine ⟨rfl, ?_, ?_, ?_, fun q n hn => k.pred_setBelow p q _ f hn⟩
  all_goals rw [hframe]; rfl

end

end Sys2Proof.Machine
end

section
open Sys2Proof Sys2Proof.Machine
open Host (Outcome)

/-- Settles O17: the predicate operations write the bits below the span count, and the others change their core alone. -/
theorem predicatesAndSpan : Obligations.PredicatesAndSpan := by
  unfold Obligations.PredicatesAndSpan
  intro s d c pd ps1 ps2 rd rs1 w pg hi k next fin8 width rows set does
  have hlegal := vpLegal_predField pd ps1 ps2
  have hfield : ∀ q, predIx (fin8 q) = q := predIx_predField
  obtain ⟨hwidth, hzero⟩ : widthOf width = w ∧ fld width 2 9 = 0 := widthOf_ofNat w
  refine ⟨fun p hp hs => ?_, fun hs => ?_, fun hs => ?_, fun hs => ?_, fun hs => ?_, fun hs => ?_, fun hs => ?_, fun hs => ?_,
    ⟨fun hround hs => ?_, fun hround hs => ?_⟩, fun hs => ?_⟩
  · simp only [rows, List.mem_cons, List.not_mem_nil, or_false] at hp
    rcases hp with rfl | rfl | rfl | rfl | rfl | rfl
    all_goals
      have h := exec_setBelow rfl hi hs hlegal rfl
      simp only [hfield] at h
      exact h
  · exact exec_vinsn_core (f := fun x => x.setG rd (BitVec.ofNat 64 (k.active w pg).length)) rfl hi hs rfl rfl
  · exact exec_vinsn_core (f := fun x => x.setG rd (BitVec.ofNat 64 ((k.active w pg).headD (k.count w)))) rfl hi hs rfl rfl
  · have h := exec_vinsn_core rfl hi hs (decide_eq_true hzero) rfl
    rw [hwidth] at h
    exact h
  · have h := exec_vinsn_core rfl hi hs (Bool.and_eq_true_iff.mpr ⟨decide_eq_true hzero, rfl⟩) rfl
    rw [hwidth] at h
    exact h
  · exact exec_vinsn_core (f := fun x => x.setG rd (BitVec.ofNat 64 k.vec.span)) rfl hi hs rfl (by simp [k])
  · exact exec_vinsn_core (f := fun x => x.setG rd k.vec.vstat) rfl hi hs rfl (by simp [k])
  · exact exec_vinsn_core (f := fun x => x.setG rd 512) rfl hi hs rfl (by simp)
  · refine exec_vinsn_core (f := fun x => { x with vec := { x.vec with vstat := k.getG rs1 &&& 0x13FFF } }) rfl hi hs rfl (if_neg ?_)
    rw [roundCode_fld, Option.isNone_iff_eq_none]
    exact fun h => h.elim (fun hne => hne rfl) (Option.isSome_iff_ne_none.mp hround)
  · exact exec_vinsn_trap rfl hi hs rfl (if_pos (.inr ((congrArg Option.isNone (roundCode_fld _)).trans hround)))
  · exact exec_vinsn rfl hi hs rfl
end

section
/-! PROOF. Writes of the context registers (R212, R215, R217, R391, R394). -/

namespace Sys2Proof.Machine

/-! ### Access types of the context registers -/

theorem regSpec_bilCtx (c : Fin 16) :
    (regSpec (rBilCtx c 0)).rw = 0x8FFFFFFF ∧ (regSpec (rBilCtx c 1)).rw = 0x007FFFFF ∧ (regSpec (rBilCtx c 2)).rw = 0x003FFFFF := by
  revert c
  decide

theorem regSpec_rowCtx (c : Fin 16) :
    (regSpec (rRowCtxBase c)).rw = 0x007FFFFF ∧ (regSpec (rRowCtxGeom c)).rw = BitVec.allOnes 32 := by
  revert c
  decide

theorem regSpec_colCtx (k : CtxIx) :
    (regSpec (rColCtx k 0)).rw = 0x80000FFF ∧ (regSpec (rColCtx k 1)).rw = 0x8000FFFF ∧ (regSpec (rColCtx k 2)).rw = 0xFFFFFFFF := by
  revert k
  decide

/-! ### Effects -/

section
variable {s : State} {d : DieIx}

/-- Each command on a ready die is the write of its register. -/
theorem exec_stackContext (hready : Ready s d) (i : Issuer) (c : Fin 16) (v : Word) :
    exec (.bilCtxCfg d i c v) s = .next (s.bilCtxWrite d i c 0 v) ∧ exec (.bilCtxBase d i c v) s = .next (s.bilCtxWrite d i c 1 v)
    ∧ exec (.bilCtxSize d i c v) s = .next (s.bilCtxWrite d i c 2 v)
    ∧ exec (.rowCtxBase d i c v) s = .next (s.rowCtxWrite d i c (rRowCtxBase c) v)
    ∧ exec (.rowCtxGeom d i c v) s = .next (s.rowCtxWrite d i c (rRowCtxGeom c) v) :=
  ⟨onDie_ready hready (fun t => t.bilCtxWrite d i c 0 v), onDie_ready hready (fun t => t.bilCtxWrite d i c 1 v),
    onDie_ready hready (fun t => t.bilCtxWrite d i c 2 v), onDie_ready hready (fun t => t.rowCtxWrite d i c (rRowCtxBase c) v),
    onDie_ready hready (fun t => t.rowCtxWrite d i c (rRowCtxGeom c) v)⟩

theorem exec_updSet (hready : Ready s d) (i : Issuer) (k : CtxIx) (v : Word) :
    exec (.updSet d i k v) s = .next (s.updSetWrite d i k v) := onDie_ready hready (fun t => t.updSetWrite d i k v)

theorem exec_colAlg (hready : Ready s d) (i : Issuer) (v : Word) :
    exec (.colAlg d i v) s = .next (s.plainWrite d i rColAlg v) := onDie_ready hready (fun t => t.plainWrite d i rColAlg v)

theorem exec_collectiveContext (hready : Ready s d) (i : Issuer) (k : CtxIx) (v : Word) :
    exec (.colCtxCfg d i k v) s = .next (s.colCtxWrite d i k 0 v) ∧ exec (.colCtxNext d i k v) s = .next (s.colCtxWrite d i k 1 v)
    ∧ exec (.colCtxAtLo d i k v) s = .next (s.colCtxWrite d i k 2 v) :=
  ⟨onDie_ready hready (fun t => t.colCtxWrite d i k 0 v), onDie_ready hready (fun t => t.colCtxWrite d i k 1 v),
    onDie_ready hready (fun t => t.colCtxWrite d i k 2 v)⟩

theorem exec_colCtxGrpBase (hready : Ready s d) (i : Issuer) (k : CtxIx) (a : DWord) :
    exec (.colCtxGrpBase d i k a) s = .next (s.colGrpBase d i k a) := onDie_ready hready (fun t => t.colGrpBase d i k a)

/-- Whether no command and no entry of a context stands in the way of a write of its registers (R212). -/
def State.ctxIdle (s : State) (d : DieIx) (c : Nat) : Prop :=
  s.reg d (rBilCtx c 3) = 0 ∧ s.reg d (rBilCtx c 4) = 0 ∧ s.ctxBusy d c = false

theorem State.bilCtxWrite_idle {c : Nat} (w : Nat) (v : Word) (hidle : s.ctxIdle d c) :
    s.bilCtxWrite d .pelbex c w v = s.setReg d (rBilCtx c w) (v &&& (regSpec (rBilCtx c w)).rw) := by
  obtain ⟨htop, hdepth, hbusy⟩ := hidle
  simp [State.bilCtxWrite, htop, hdepth, hbusy]

theorem State.bilCtxWrite_busy {c : Nat} (w : Nat) (v : Word) (hbusy : ¬ s.ctxIdle d c) :
    s.bilCtxWrite d .pelbex c w v = s.logIgnored d (rBilCtx c w) 1 := by
  have hguard : s.reg d (rBilCtx c 3) ≠ 0 ∨ s.reg d (rBilCtx c 4) ≠ 0 ∨ s.ctxBusy d c = true := by
    rw [← Bool.not_eq_false]
    unfold State.ctxIdle at hbusy
    tauto
  rw [State.bilCtxWrite, if_neg (by simp), if_pos hguard]

theorem State.bilCtxWrite_refused {i : Issuer} (c w : Nat) (v : Word) (hi : i ≠ .pelbex) :
    s.bilCtxWrite d i c w v = s.logIgnored d (rBilCtx c w) 2 := if_pos hi

theorem State.rowCtxWrite_idle {c : Nat} (off : Nat) (v : Word) (hidle : s.ctxIdle d c) (hbound : s.rowBound d c = false) :
    s.rowCtxWrite d .pelbex c off v = s.setReg d off (v &&& (regSpec off).rw) := by
  obtain ⟨htop, hdepth, hbusy⟩ := hidle
  simp [State.rowCtxWrite, htop, hdepth, hbusy, hbound]

theorem State.rowCtxWrite_busy {c : Nat} (off : Nat) (v : Word) (hbusy : ¬ s.ctxIdle d c) :
    s.rowCtxWrite d .pelbex c off v = s.logIgnored d off 1 := by
  have hguard : s.reg d (rBilCtx c 3) ≠ 0 ∨ s.reg d (rBilCtx c 4) ≠ 0 ∨ s.rowBound d c = true ∨ s.ctxBusy d c = true := by
    rw [← Bool.not_eq_false (s.ctxBusy d c)]
    unfold State.ctxIdle at hbusy
    tauto
  rw [State.rowCtxWrite, if_neg (by simp), if_pos hguard]

theorem State.rowCtxWrite_refused {i : Issuer} (c off : Nat) (v : Word) (hi : i ≠ .pelbex) :
    s.rowCtxWrite d i c off v = s.logIgnored d off 2 := if_pos hi

theorem State.updSetWrite_pelbex (k : Nat) (v : Word) :
    s.updSetWrite d .pelbex k v =
      (let set := s.setReg d (rUpdSet k) (mixBits 0x80000FFF (s.reg d (rUpdSet k)) v)
       if v.getLsbD 31 then set else set.setReg d (rCmtStat k) 0) := if_neg (by simp)

theorem State.updSetWrite_refused {i : Issuer} (k : Nat) (v : Word) (hi : i ≠ .pelbex) :
    s.updSetWrite d i k v = s.logIgnored d (rUpdSet k) 2 := if_pos hi

/-- Outside its configuration word, and there while no command of the context's job is under way, a collective context takes
its writable bits (R394). -/
theorem State.colCtxWrite_free {k w : Nat} (v : Word) (hfree : w = 0 → s.colBusy d (s.colJob d k) = false) :
    s.colCtxWrite d .pelbex k w v =
      s.setReg d (rColCtx k w) (mixBits (regSpec (rColCtx k w)).rw (s.reg d (rColCtx k w)) v) := by
  have hguard : ¬ (w = 0 ∧ bitAt (s.reg d (rColCtx k w)) 31 = true ∧ s.colBusy d (s.colJob d k) = true) :=
    fun ⟨hw, _, hbusy⟩ => by simp [hfree hw] at hbusy
  rw [State.colCtxWrite, if_neg (by simp), if_neg hguard]

theorem State.colCtxWrite_refused {i : Issuer} (k w : Nat) (v : Word) (hi : i ≠ .pelbex) :
    s.colCtxWrite d i k w v = s.logIgnored d (rColCtx k w) 2 := if_pos hi

theorem State.colGrpBase_free {k : Nat} (a : DWord) (hfree : s.colBusy d (s.colJob d k) = false) :
    s.colGrpBase d .pelbex k a = s.setReg64 d (rColCtx k 4) (a &&& 0x000FFFFFFFFFFFFF) := by
  simp [State.colGrpBase, hfree]

theorem State.colGrpBase_refused {i : Issuer} (k : Nat) (a : DWord) (hi : i ≠ .pelbex) :
    s.colGrpBase d i k a = s.logIgnored d (rColCtx k 4) 2 := if_pos hi

/-! ### COL_ALG -/

/-- COL_ALG has no owner and no bit that is locked or cleared by a 1: a write takes the writable bits, where no reserved
encoding keeps the old one. -/
theorem State.plainWrite_colAlg (i : Issuer) (v : Word) :
    s.plainWrite d i rColAlg v =
      s.setReg d rColAlg (keepReserved rColAlg (s.reg d rColAlg) (mixBits 0xFFFF0007 (s.reg d rColAlg) v)) := by
  have hspec : regSpec rColAlg = ⟨0xFFFF0007, 0, 0, 0, 0⟩ := by decide
  unfold State.plainWrite
  simp only [hspec]
  rw [if_neg (by simp), and_not_and_zero, if_neg (fun h => h BitVec.and_zero)]

theorem keepReserved_colAlg (old new : Word) :
    keepReserved rColAlg old new =
      if fld new 0 3 = 1 ∨ fld new 0 3 = 2 ∨ fld new 0 3 = 4 then new else setFld new 0 3 (fld old 0 3) := rfl

/-- A field that lies inside the mask is taken from the new word. -/
theorem fld_mixBits_inside {w : Nat} {mask : BitVec w} (old new : BitVec w) {lo len : Nat} (h : ∀ i : Fin len, mask.getLsbD (lo + i) = true) :
    fld (mixBits mask old new) lo len = fld new lo len := by
  refine Nat.eq_of_testBit_eq fun i => ?_
  rw [testBit_fld, testBit_fld, getLsbD_mixBits]
  by_cases hi : i < len
  · rw [if_pos (h ⟨i, hi⟩)]
  · simp [hi]

theorem fld_colAlg_degree (old v : Word) : fld (mixBits 0xFFFF0007 old v) 0 3 = fld v 0 3 :=
  fld_mixBits_inside old v (by decide)

theorem fld_colAlg_threshold (old v : Word) : fld (mixBits 0xFFFF0007 old v) 16 16 = fld v 16 16 :=
  fld_mixBits_inside old v (by decide)

end

end Sys2Proof.Machine
end

section
open Sys2Proof Sys2Proof.Machine
open Host (Outcome)

/-- The first part of O1: the registers of a stack and row context (R212, R215). -/
theorem stackContextWrites (s : State) (d : DieIx) (c : Fin 16) (v : Word) (hready : Ready s d) :
    (s.ctxIdle d c →
      exec (.bilCtxCfg d .pelbex c v) s = .next (s.setReg d (rBilCtx c 0) (v &&& 0x8FFFFFFF))
      ∧ exec (.bilCtxBase d .pelbex c v) s = .next (s.setReg d (rBilCtx c 1) (v &&& 0x007FFFFF))
      ∧ exec (.bilCtxSize d .pelbex c v) s = .next (s.setReg d (rBilCtx c 2) (v &&& 0x003FFFFF)))
    ∧ (s.ctxIdle d c ∧ s.rowBound d c = false →
      exec (.rowCtxBase d .pelbex c v) s = .next (s.setReg d (rRowCtxBase c) (v &&& 0x007FFFFF))
      ∧ exec (.rowCtxGeom d .pelbex c v) s = .next (s.setReg d (rRowCtxGeom c) v))
    ∧ (¬ s.ctxIdle d c →
      exec (.bilCtxCfg d .pelbex c v) s = .next (s.logIgnored d (rBilCtx c 0) 1)
      ∧ exec (.bilCtxBase d .pelbex c v) s = .next (s.logIgnored d (rBilCtx c 1) 1)
      ∧ exec (.bilCtxSize d .pelbex c v) s = .next (s.logIgnored d (rBilCtx c 2) 1)
      ∧ exec (.rowCtxBase d .pelbex c v) s = .next (s.logIgnored d (rRowCtxBase c) 1)
      ∧ exec (.rowCtxGeom d .pelbex c v) s = .next (s.logIgnored d (rRowCtxGeom c) 1))
    ∧ (∀ i : Issuer, i ≠ .pelbex →
      exec (.bilCtxCfg d i c v) s = .next (s.logIgnored d (rBilCtx c 0) 2)
      ∧ exec (.bilCtxBase d i c v) s = .next (s.logIgnored d (rBilCtx c 1) 2)
      ∧ exec (.bilCtxSize d i c v) s = .next (s.logIgnored d (rBilCtx c 2) 2)
      ∧ exec (.rowCtxBase d i c v) s = .next (s.logIgnored d (rRowCtxBase c) 2)
      ∧ exec (.rowCtxGeom d i c v) s = .next (s.logIgnored d (rRowCtxGeom c) 2)) := by
  obtain ⟨hcfg, hbase, hsize⟩ := regSpec_bilCtx c
  obtain ⟨hrow, hgeom⟩ := regSpec_rowCtx c
  simp only [exec_stackContext hready]
  refine ⟨fun hidle => ?_, fun ⟨hidle, hbound⟩ => ?_, fun hbusy => ?_, fun i hi => ?_⟩
  · simp only [State.bilCtxWrite_idle _ v hidle, hcfg, hbase, hsize, and_self]
  · simp only [State.rowCtxWrite_idle _ v hidle hbound, hrow, hgeom, BitVec.and_allOnes, and_self]
  · simp only [State.bilCtxWrite_busy _ v hbusy, State.rowCtxWrite_busy _ v hbusy, and_self]
  · simp only [State.bilCtxWrite_refused _ _ v hi, State.rowCtxWrite_refused _ _ v hi, and_self]

/-- Settles O1: each context register takes its writable bits under its own condition. -/
theorem contextWrites : Obligations.ContextWrites := by
  unfold Obligations.ContextWrites
  refine ⟨stackContextWrites, fun s d k v a hready => ?_⟩
  obtain ⟨hcfg, hnext, hat⟩ := regSpec_colCtx k
  simp only [exec_updSet hready, exec_colAlg hready, exec_collectiveContext hready, exec_colCtxGrpBase hready]
  refine ⟨⟨fun hvalid => ?_, fun hclear => ?_⟩, fun hfree => ?_, ?_, ?_, fun i => ⟨fun hlegal => ?_, fun hreserved => ?_⟩, fun i hi => ?_⟩
  · simp only [State.updSetWrite_pelbex, hvalid, if_true]
  · simp only [State.updSetWrite_pelbex, hclear, Bool.false_eq_true, if_false]
  · simp only [State.colCtxWrite_free v (fun _ => hfree), hcfg, State.colGrpBase_free a hfree, and_self]
  · rw [State.colCtxWrite_free v (by simp), hnext]
  · rw [State.colCtxWrite_free v (by simp), hat, mixBits_ones]
  · rw [State.plainWrite_colAlg, keepReserved_colAlg, fld_colAlg_degree, if_pos hlegal]
  · refine ⟨_, congrArg Outcome.next (State.plainWrite_colAlg i v), ?_⟩
    rw [keepReserved_colAlg, fld_colAlg_degree, if_neg hreserved]
    exact ⟨(fld_setFld_same _ _ (by decide)).trans (Nat.mod_eq_of_lt (fld_lt _ 0 3)),
      (fld_setFld_apart _ _ (.inr (by decide))).trans (fld_colAlg_threshold _ v)⟩
  · simp only [State.updSetWrite_refused _ v hi, State.colCtxWrite_refused _ _ v hi, State.colGrpBase_refused _ a hi, and_self]
end

section
/-! LEMMAS. What the end of a command and the start of others leave alone of the backward pass: registers from the link block on, buckets,
table images and popped entries (R184, R188, R199). -/

namespace Sys2Proof.Machine

/-- Buckets and table images of a die. -/
def Die.back (x : Die) : List Bucket × List (Nat × List Byte) := (x.buckets, x.tables)

/-- From s to t the registers from the link block on, the buckets and the table images are as they were, and where `dr` holds, the
entries popped for the cores' drains. -/
structure KeepsBack (dr : Prop) (s t : State) : Prop where
  regs : ∀ d off, blkLNK ≤ off → t.reg d off = s.reg d off
  back : ∀ d, (t.die d).back = (s.die d).back
  drain : dr → ∀ d c, (t.core d c).drain = (s.core d c).drain

variable {dr : Prop} {s t u : State}

theorem KeepsBack.buckets (h : KeepsBack dr s t) (d : DieIx) : (t.die d).buckets = (s.die d).buckets := (congrArg Prod.fst (h.back d) :)
theorem KeepsBack.tables (h : KeepsBack dr s t) (d : DieIx) : (t.die d).tables = (s.die d).tables := (congrArg Prod.snd (h.back d) :)

theorem KeepsBack.refl (s : State) : KeepsBack dr s s := ⟨fun _ _ _ => rfl, fun _ => rfl, fun _ _ _ => rfl⟩

theorem KeepsBack.trans (h : KeepsBack dr s t) (k : KeepsBack dr t u) : KeepsBack dr s u :=
  ⟨fun d o ho => (k.regs d o ho).trans (h.regs d o ho), fun d => (k.back d).trans (h.back d), fun p d c => (k.drain p d c).trans (h.drain p d c)⟩

theorem KeepsBack.foldl {α : Type} {f : State → α → State} (l : List α) (h : ∀ v x, KeepsBack dr v (f v x)) (s : State) :
    KeepsBack dr s (l.foldl f s) :=
  fold_inv (KeepsBack dr s) f l s (.refl s) (fun v x hv => hv.trans (h v x))

theorem KeepsBack.ite {c : Prop} [Decidable c] (h : KeepsBack dr s t) (k : KeepsBack dr s u) : KeepsBack dr s (if c then t else u) := by
  split <;> assumption

/-! ### Updates of the state -/

theorem KeepsBack.modDie (s : State) (d : DieIx) {f : Die → Die} (hb : ∀ x, (f x).back = x.back) (hr : ∀ x, (f x).regs = x.regs)
    (hc : ∀ x, (f x).cores = x.cores) : KeepsBack dr s (s.modDie d f) := by
  refine ⟨fun e off _ => State.reg_modDie _ _ _ _ hr, fun e => ?_, fun _ e c => ?_⟩ <;> by_cases he : e = d
  · subst he; simp [hb]
  · rw [State.die_modDie_ne s d e f he]
  · subst he; simp [State.core, Die.core, hc]
  · simp [State.core, State.die_modDie_ne s d e f he]

/-- An update of a core, which keeps the entry popped for its drain where that counts. -/
theorem KeepsBack.modCore (s : State) (d : DieIx) (c : CoreIx) {f : Core → Core} (hf : dr → ∀ k, (f k).drain = k.drain) :
    KeepsBack dr s (s.modCore d c f) := by
  refine ⟨fun e off _ => State.reg_modDie _ _ _ _ (fun _ => rfl), fun e => ?_, fun p e k => ?_⟩ <;> by_cases he : e = d
  · subst he; simp [State.modCore, State.setCore, Die.setCore, Die.back]
  · simp [State.modCore, State.setCore, State.die_modDie_ne s d e _ he]
  · subst he
    by_cases hk : k = c
    · subst hk; simp [hf p]
    · rw [State.modCore, State.core_setCore_ne _ _ _ _ _ hk]
  · simp [State.core, State.modCore, State.setCore, State.die_modDie_ne s d e _ he]

theorem KeepsBack.setReg (s : State) (d : DieIx) {off : Nat} (v : Word) (h : off < blkLNK) : KeepsBack dr s (s.setReg d off v) := by
  refine ⟨fun e o ho => State.reg_setReg_ne _ _ _ _ (fun k => ?_), fun e => ?_, fun _ e c => ?_⟩
  · have := k.2
    omega
  all_goals
    by_cases he : e = d
    · subst he; simp [State.setReg, State.core, Die.core, Die.setReg, Die.back]
    · simp [State.setReg, State.core, State.die_modDie_ne s d e _ he]

theorem KeepsBack.setReg64 (s : State) (d : DieIx) {off : Nat} (v : DWord) (h : off + 4 < blkLNK) : KeepsBack dr s (s.setReg64 d off v) :=
  (KeepsBack.setReg s d _ (by omega)).trans (.setReg _ d _ h)

theorem KeepsBack.logFrom (s : State) (d : DieIx) (src : Endpoint) (gen : BitVec 8) (code st det : Nat) (sent : Option DWord) :
    KeepsBack dr s (s.logFrom d src gen code st det sent) := .modDie s d (fun _ => rfl) (fun _ => rfl) (fun _ => rfl)

theorem KeepsBack.setQueue (s : State) (d : DieIx) (q : QId) (x : CmdQueue) : KeepsBack dr s (s.setQueue d q x) := by
  cases q with
  | core c => exact .modCore s d c (f := fun k => { k with queue := x }) (fun _ _ => rfl)
  | _ => exact .modDie s d (f := fun k => { k with uq := k.uq.set (qUncore _) x }) (fun _ => rfl) (fun _ => rfl) (fun _ => rfl)

theorem KeepsBack.modQueue (s : State) (d : DieIx) (q : QId) (f : CmdQueue → CmdQueue) : KeepsBack dr s (s.modQueue d q f) := .setQueue ..

theorem KeepsBack.modCommit (s : State) (d : DieIx) (k : Nat) (f : Commit → Commit) : KeepsBack dr s (s.modCommit d k f) :=
  .modDie s d (fun _ => rfl) (fun _ => rfl) (fun _ => rfl)

/-! ### Records (R91) -/

theorem notePushed_drain (k : Core) (ident st : Nat) : (notePushed k ident st).drain = k.drain := by
  unfold notePushed
  split <;> rfl

theorem State.capture_keepsBack (s : State) (d : DieIx) (src : Nat) : KeepsBack dr s (s.capture d src) := by
  have hslot (t : State) (n : Fin 4) (w : Word) (c : Prop) [Decidable c] :
      KeepsBack dr t (if c then (t.setReg d rStkCapCtl w).setReg64 d (rStkCap n) (t.stamp d) else t) := by
    have hplace : rStkCap n + 4 < blkLNK := by
      unfold rStkCap blkSTK blkLNK
      omega
    exact .ite ((KeepsBack.setReg t d w (by decide)).trans (.setReg64 _ d _ hplace)) (.refl t)
  exact (((hslot s 0 _ _).trans (hslot _ 1 _ _)).trans (hslot _ 2 _ _)).trans (hslot _ 3 _ _)

theorem State.noteCommit_keepsBack (s : State) (d : DieIx) (x : Desc) (st : Nat) : KeepsBack dr s (s.noteCommit d x st) := by
  have hbucket : KeepsBack dr s (s.noteBucket d x) := by
    unfold State.noteBucket
    dsimp only
    split
    · exact .refl s
    · exact .ite (.refl s) (.modCommit ..)
  have hdone (t : State) : KeepsBack dr t (t.noteDone d (dJob x) (dStep x) (dKind x) st) := by
    unfold State.noteDone
    dsimp only
    split
    · exact .refl t
    · exact .ite (.refl t) (.modCommit ..)
  exact hbucket.trans (hdone _)

theorem State.record_keepsBack (s : State) (d : DieIx) (q : QId) (x : Desc) (ident : Nat) (rel : Option Stroke) (res : Result) :
    KeepsBack dr s (s.record d q x ident rel res) := by
  have hlate : KeepsBack dr s ((s.addSat d rStkOverrun 0 32 1).capture d 6) :=
    (KeepsBack.setReg s d _ (by decide)).trans (State.capture_keepsBack _ d 6)
  have hdropped (t : State) (all : List Nat) : KeepsBack dr t (t.logDropped d q x all) :=
    KeepsBack.foldl _ (fun _ _ => .ite (.logFrom ..) (.logFrom ..)) t
  have hfiled (all : List Nat) (r : Completion) : KeepsBack dr s (((if (match rel with
      | some rel => !notJudged (dKind x) && decide (s.stroke d ≠ rel)
      | none => false) = true then (s.addSat d rStkOverrun 0 32 1).capture d 6 else s).logDropped d q x all).modQueue d q
        (fun y => { y with done := y.done ++ [r] })) :=
    ((KeepsBack.ite hlate (.refl s)).trans (hdropped _ _)).trans (.modQueue ..)
  unfold State.record
  dsimp only
  refine KeepsBack.trans ?_ (State.noteCommit_keepsBack ..)
  cases q with
  | core c => exact (hfiled _ _).trans (.modCore _ d c (fun _ k => notePushed_drain k ..))
  | _ => exact hfiled _ _

/-! ### Starting what can start (R36) -/

/-- The head of a queue other than the Crucible's is completed at once or starts. -/
theorem State.startHead_keepsBack {d : DieIx} {q : QId} (hcru : q ≠ .cru) (h : s.startHead d q = some t) : KeepsBack dr s t := by
  have hclaim (v : State) (x : Desc) : v.claimAt d q x = v := by
    cases q with
    | cru => contradiction
    | _ => rfl
  have hfiled {y : CmdQueue} {x : Desc} {ident : Nat} {rel : Option Stroke} {res : Result}
      (ht : some ((s.setQueue d q y).record d q x ident rel res) = some t) : KeepsBack dr s t := by
    obtain rfl := Option.some.inj ht
    exact (KeepsBack.setQueue s d q y).trans (State.record_keepsBack ..)
  unfold State.startHead at h
  dsimp only at h
  split at h
  · contradiction
  · split at h
    · contradiction
    split at h
    · exact hfiled h
    split at h
    · exact hfiled h
    split at h
    · exact hfiled h
    split at h
    · split at h
      · exact hfiled h
      · contradiction
    split at h
    · obtain rfl := Option.some.inj h
      rw [hclaim]
      exact (KeepsBack.setQueue s d q _).trans (.modQueue ..)
    · contradiction

theorem State.startQueue_keepsBack (s : State) (d : DieIx) {q : QId} (hcru : q ≠ .cru) : KeepsBack dr s (s.startQueue d q) := by
  have hready (n : Nat) (t : State) : KeepsBack dr t (t.startReady d q n) := by
    induction n generalizing t with
    | zero => exact .refl t
    | succ n ih =>
      rw [State.startReady]
      split
      · exact .refl t
      · next u hu => exact (State.startHead_keepsBack hcru hu).trans (ih u)
  exact hready _ s

/-! ### The end of a command -/

/-- The queues of the backward pass: the cores', the billet stack controller's and the update engine's. -/
def Backward : QId → Prop
  | .core _ => True
  | .bil => True
  | .upd => True
  | _ => False

theorem backward_bil : Backward .bil := trivial
theorem backward_upd : Backward .upd := trivial
theorem backward_core (c : CoreIx) : Backward (.core c) := trivial

theorem ne_cru_of_backward {q : QId} (h : Backward q) : q ≠ .cru := fun hq => by rw [hq] at h; exact h

/-- The end of a command of the backward pass; on a core it drops the entry that the command has popped. -/
theorem State.finish_keepsBack (s : State) (d : DieIx) {q : QId} (r : Running) (res : Result) (hq : Backward q) :
    KeepsBack False s (s.finish d q r res) := by
  have hleaves : KeepsBack False s ((s.modDie d (fun x =>
      { x with outstanding := x.outstanding.filter (fun o => !(decide (o.queue = qNum q) && decide (o.ident = r.ident))) })).modQueue d q
        (fun x => { x with running := x.running.filter (fun y => y.ident != r.ident) })) := by
    refine KeepsBack.trans ?_ (.modQueue ..)
    exact .modDie s d (fun _ => rfl) (fun _ => rfl) (fun _ => rfl)
  have hgoes (t : State) : KeepsBack False t ((t.record d q r.desc r.ident (some r.released) res).startQueue d q) :=
    (State.record_keepsBack ..).trans (State.startQueue_keepsBack _ d (ne_cru_of_backward hq))
  have hafter (t : State) : t.startAfter q = t := by
    cases q with
    | core _ | bil | upd => rfl
    | _ => exact hq.elim
  unfold State.finish
  dsimp only
  rw [hafter]
  refine KeepsBack.trans ?_ (hgoes _)
  cases q with
  | core c => exact (hleaves.trans (.modCore _ d c (fun p => p.elim))).trans (.modDie _ d (fun _ => rfl) (fun _ => rfl) (fun _ => rfl))
  | bil | upd => exact hleaves
  | _ => exact hq.elim

theorem State.stopEarly_keepsBack (s : State) (d : DieIx) {q : QId} {r : Running} (st : Nat) (hq : Backward q) (hack : r.acking = false) :
    KeepsBack False s (s.stopEarly d q r st) := by
  rw [State.stopEarly_of_working hack]
  exact State.finish_keepsBack s d r _ hq

end Sys2Proof.Machine
end

section
/-! LEMMAS. Commands that a condition picks, how they end, and the segments of the billet stack (R96, R172, R212). -/

namespace Sys2Proof.Machine

variable {s t u : State} {d : DieIx} {q : QId} {r : Running}

/-! ### Commands that a condition picks -/

/-- What a command that is picked on a ready die does: its work. -/
theorem exec_pick {pick : Running → Bool} {i : Instr} {k : State → Running → State} (hready : Ready s d) (hpicks : Picks s d q pick r)
    (hi : exec i s = onDie d s (fun t => withPick t d q pick (k t))) : exec i s = .next (k s r) := by
  obtain ⟨hfind, hpoison, hack, -⟩ := hpicks
  rw [hi, onDie_ready hready]
  simp [withPick, hfind, hpoison, hack]

theorem Picks.satisfies {pick : Running → Bool} (h : Picks s d q pick r) : pick r = true := List.find?_some h.1

/-! ### Ends of commands of the backward pass -/

/-- A command has ended: from t its record is filed behind those that s held, and nothing that `KeepsBack` holds or memory has changed. -/
structure Ended (s t u : State) (d : DieIx) (q : QId) (r : Running) (st : Nat) (hall detail : Word) : Prop where
  filed : Filed s u d q r st hall detail
  mem : u.mem = t.mem
  back : KeepsBack False t u

theorem Backward.claims (hq : Backward q) (d : DieIx) (x : Desc) : q = .cru → s.claims d x = false :=
  fun h => absurd h (ne_cru_of_backward hq)

/-- The end of a command on time. -/
theorem State.finish_ended {res : Result} (hq : Backward q) (hdone : (t.queue d q).done = (s.queue d q).done) (hrel : r.released = t.stroke d) :
    Ended s t (t.finish d q r res) d q r (pickStatus res.statuses) res.hallmark res.detail :=
  ⟨State.finish_filed hdone (.inl hrel), (State.finish_keepsData t d q r res (hq.claims d _)).mem, State.finish_keepsBack t d r res hq⟩

/-- An early stop of a command on time that has collected nothing. -/
theorem State.stopEarly_ended {st : Nat} (hq : Backward q) (hack : r.acking = false) (hstats : r.stats = []) (hst : pickStatus [st] = st)
    (hdone : (t.queue d q).done = (s.queue d q).done) (hrel : r.released = t.stroke d) :
    Ended s t (t.stopEarly d q r st) d q r st r.hall r.detail :=
  ⟨State.stopEarly_filed hack hstats hst hdone (.inl hrel), (State.stopEarly_keepsData t d q r st hack (hq.claims d _)).mem,
    State.stopEarly_keepsBack t d st hq hack⟩

/-! ### Segments -/

theorem blkLNK_le_rBilCtx (c w : Nat) : blkLNK ≤ rBilCtx c w := by
  unfold rBilCtx blkLNK blkBIL
  omega

/-- From s to t configuration, base, size, top and depth of a stack context are as they were. -/
def KeepsSeg (d : DieIx) (c : Nat) (s t : State) : Prop := ∀ w, w < 5 → t.reg d (rBilCtx c w) = s.reg d (rBilCtx c w)

theorem KeepsSeg.refl (d : DieIx) (c : Nat) (s : State) : KeepsSeg d c s s := fun _ _ => rfl

theorem KeepsSeg.trans {c : Nat} (h : KeepsSeg d c s t) (k : KeepsSeg d c t u) : KeepsSeg d c s u := fun w hw => (k w hw).trans (h w hw)

theorem KeepsSeg.ite {c : Nat} {p : Prop} [Decidable p] (h : KeepsSeg d c s t) (k : KeepsSeg d c s u) : KeepsSeg d c s (if p then t else u) := by
  split <;> assumption

theorem KeepsSeg.segTop {c : Nat} (h : KeepsSeg d c s t) : t.segTop d c = s.segTop d c := by rw [State.segTop, h 3 (by decide), State.segTop]
theorem KeepsSeg.segDepth {c : Nat} (h : KeepsSeg d c s t) : t.segDepth d c = s.segDepth d c := by
  rw [State.segDepth, h 4 (by decide), State.segDepth]
theorem KeepsSeg.segBase {c : Nat} (h : KeepsSeg d c s t) : t.segBase d c = s.segBase d c := by
  rw [State.segBase, State.rf, h 1 (by decide), State.segBase, State.rf]

theorem KeepsBack.keepsSeg {dr : Prop} (h : KeepsBack dr s t) (d : DieIx) (c : Nat) : KeepsSeg d c s t :=
  fun w _ => h.regs d _ (blkLNK_le_rBilCtx c w)

theorem Spares.keepsSeg (h : Spares True s t) (d : DieIx) (c : Nat) : KeepsSeg d c s t := fun w _ => h.regs trivial d _ (blkLNK_le_rBilCtx c w)

theorem KeepsSeg.modDie (s : State) (e : DieIx) (c : Nat) {f : Die → Die} (hf : ∀ x, (f x).regs = x.regs) : KeepsSeg d c s (s.modDie e f) :=
  fun _ _ => State.reg_modDie _ _ _ _ hf

/-- Registers of the blocks below the contexts. -/
theorem KeepsSeg.setReg (s : State) (e : DieIx) (c : Nat) {off : Nat} (v : Word) (h : off < blkBIL + 0x400) : KeepsSeg d c s (s.setReg e off v) :=
  fun w _ => State.reg_setReg_ne _ _ _ _ (fun k => by
    have := k.2
    unfold rBilCtx at this
    omega)

theorem KeepsSeg.addSat (s : State) (e : DieIx) (c : Nat) {off : Nat} (lo len k : Nat) (h : off < blkBIL + 0x400) :
    KeepsSeg d c s (s.addSat e off lo len k) := .setReg s e c _ h

/-- A segment whose top and depth are set reads them back, where they fit their registers. -/
theorem State.seg_setSeg (s : State) (d : DieIx) (c : Nat) {top depth : Nat} (htop : top % 64 = 0) (hfit : top < 2 ^ 38) (hdepth : depth < 2 ^ 32) :
    (s.setSeg d c top depth).segTop d c = top ∧ (s.setSeg d c top depth).segDepth d c = depth
      ∧ (s.setSeg d c top depth).segBase d c = s.segBase d c := by
  have hne : ∀ v w : Nat, v ≠ w → ¬ (d = d ∧ rBilCtx c v = rBilCtx c w) := fun v w h k => h (by
    have := k.2
    unfold rBilCtx at this
    omega)
  have hreg : ∀ w, w < 5 → (s.setSeg d c top depth).reg d (rBilCtx c w) =
      ((s.setReg d (rBilCtx c 3) (BitVec.ofNat 32 (top / 64))).setReg d (rBilCtx c 4) (BitVec.ofNat 32 depth)).reg d (rBilCtx c w) := by
    intro w hw
    unfold State.setSeg
    dsimp only
    split
    · exact State.reg_setReg_ne _ _ _ _ (hne w 5 (by omega))
    · rfl
  refine ⟨?_, ?_, ?_⟩
  · rw [State.segTop, hreg 3 (by omega), State.reg_setReg_ne _ _ _ _ (hne 3 4 (by omega)), State.reg_setReg, BitVec.toNat_ofNat,
      Nat.mod_eq_of_lt (by omega)]
    omega
  · rw [State.segDepth, hreg 4 (by omega), State.reg_setReg, BitVec.toNat_ofNat, Nat.mod_eq_of_lt hdepth]
  · rw [State.segBase, State.rf, hreg 1 (by omega), State.reg_setReg_ne _ _ _ _ (hne 1 4 (by omega)),
      State.reg_setReg_ne _ _ _ _ (hne 1 3 (by omega)), State.segBase, State.rf]

theorem State.setSeg_sparesMem (s : State) (d : DieIx) (c top depth : Nat) : SparesMem False s (s.setSeg d c top depth) := by
  have hset : SparesMem False s ((s.setReg d (rBilCtx c 3) (BitVec.ofNat 32 (top / 64))).setReg d (rBilCtx c 4) (BitVec.ofNat 32 depth)) :=
    (SparesMem.setReg s d _ _ False.elim).trans (.setReg _ d _ _ False.elim)
  exact .ite (hset.trans (.setReg _ d _ _ False.elim)) hset

theorem State.segTop_lt (s : State) (d : DieIx) (c : Nat) : s.segTop d c < 2 ^ 38 ∧ s.segTop d c % 64 = 0 := by
  have := (s.reg d (rBilCtx c 3)).isLt
  unfold State.segTop
  omega

theorem State.segDepth_lt (s : State) (d : DieIx) (c : Nat) : s.segDepth d c < 2 ^ 32 := (s.reg d (rBilCtx c 4)).isLt

/-- The segment below an entry of whole words that is dropped (R178). -/
theorem State.seg_dropTop (s : State) (d : DieIx) (c : Nat) {a : Trailer} (hsize : a.size % 64 = 0) :
    (s.dropTop d c a).segTop d c = s.segTop d c - (a.size + 64) ∧ (s.dropTop d c a).segDepth d c = s.segDepth d c - 1
      ∧ (s.dropTop d c a).segBase d c = s.segBase d c := by
  obtain ⟨htop, hwords⟩ := s.segTop_lt d c
  have := s.segDepth_lt d c
  exact State.seg_setSeg s d c (by omega) (by omega) (by omega)

theorem State.mem_dropTop (s : State) (d : DieIx) (c : Nat) (a : Trailer) : (s.dropTop d c a).mem = s.mem := (State.setSeg_sparesMem ..).mem

/-- A read of region 0 spares the registers from the link block on. -/
theorem State.memRead0_sparesMem (s : State) (a : Access) (d : DieIx) (off n : Nat) : SparesMem True s (s.memRead a d 0 off n).state := by
  have h := s.memRead_sparesMem a d 0 off n
  exact ⟨⟨h.spared, h.fuses, fun _ => h.regs rfl⟩, h.mem⟩

theorem State.topTrailer_sparesMem (s : State) (d : DieIx) (ctx : Nat) (job : BitVec 12) : SparesMem True s (s.topTrailer d ctx job).2.2 :=
  State.memRead0_sparesMem ..

end Sys2Proof.Machine
end

section
/-! PROOF. RECHUNK and the derivative tables (R180, R185, R188, R189). -/

namespace Sys2Proof.Machine

variable {s t : State} {d : DieIx} {r : Running}

/-! ### RECHUNK -/

theorem exec_rechunk (hready : Ready s d) (hpicks : Picks s d .bil (fun y => decide (dKind y.desc = 0x83)) r) :
    exec (.rechunk d) s = .next (s.rechunkRun d r) :=
  exec_pick (k := fun t => t.rechunkRun d) hready hpicks rfl

theorem State.rechunkRun_format (h : judgeRechunk r.desc = .format) : s.rechunkRun d r = s.stopEarly d .bil r stFormat := by
  simp only [State.rechunkRun, h]

theorem State.rechunkRun_noop (h : judgeRechunk r.desc = .noop) (hfence : s.dieFenced d = false) : s.rechunkRun d r = s.finish d .bil r Result.ok := by
  simp [State.rechunkRun, h, State.unitFenced, hfence]

/-- A RECHUNK whose places are in order, on a die that serves it, writes the rows that it has read in the other layout. -/
theorem State.rechunkRun_work {sf df : Fmt} {l : List (List Byte × List Bool)}
    (h : judgeRechunk r.desc = .work (sf, df)) :
    let x := r.desc
    let src := layoutShape (rechunkBack x) sf (cRows x) (cLen x)
    let dst := layoutShape (!rechunkBack x) df (cRows x) (cLen x)
    rowsService (cSrc x) (cSrcPitch x) src.1 src.2 = false → rowsService (cDst x) (cDstPitch x) dst.1 dst.2 = false →
    (1 < cRows x → src.2 ≤ cSrcPitch x ∧ dst.2 ≤ cDstPitch x) → s.rowsDecode d (cSrc x) (cSrcPitch x) src.1 src.2 = true →
    s.rowsWritable d (dJob x) (cDst x) (cDstPitch x) dst.1 dst.2 (some df) = true → s.dieFenced d = false →
    s.gateAll d .bil r (rowPlaces (cDst x) (cDstPitch x) dst.1 dst.2) = .go →
    s.fetchAll d .bil r (rowPlaces (cSrc x) (cSrcPitch x) src.1 src.2) = .data l t →
    let o := manyRows df (writeLayout (!rechunkBack x) sf df (rndOf (dRnd x)) (cRows x) (cLen x)
      (readLayout (rechunkBack x) sf (cRows x) (cLen x) l)) (t.die d).genUpd
    s.rechunkRun d r = (((t.dropReqs d .bil r).modDie d (fun y => { y with genUpd := o.gen })).putAll d .bil r
      (((if rechunkBack x then o.rows else joinRows (cLen x) o.rows dst.1).zipIdx).map (fun p =>
        (BitVec.ofNat 52 (rowAddr (cDst x) (cDstPitch x) p.2), p.1.1, p.1.2)))).settle d .bil
      { r with stats := r.stats ++ o.stats, flags := r.flags ||| o.flags } := by
  intro x src dst hsvcSrc hsvcDst hpitch hsrc hdst hfence hgate hfetch
  have hrows : ¬ ((cRows x > 1 ∧ (cSrcPitch x < src.2 ∨ cDstPitch x < dst.2))
      ∨ (!s.rowsDecode d (cSrc x) (cSrcPitch x) src.1 src.2) = true
      ∨ (!s.rowsWritable d (dJob x) (cDst x) (cDstPitch x) dst.1 dst.2 (some df)) = true) := by
    rw [hsrc, hdst]
    rintro (⟨hmany, hshort⟩ | h | h)
    · have := hpitch hmany
      omega
    · contradiction
    · contradiction
  unfold State.rechunkRun
  simp only [h]
  rw [if_neg (by rw [hsvcSrc, hsvcDst]; decide), if_neg hrows, if_neg (by simp [State.unitFenced, hfence])]
  simp only [x, src, dst] at hgate hfetch
  simp only [hgate, hfetch]
  rfl

/-! ### Derivative tables -/

theorem exec_tableLoad {k : Fin 32} (hready : Ready s d)
    (hpicks : Picks s d .bil (fun y => decide (dKind y.desc = 0x84) && decide (fld y.desc (8 * 32) 5 = k.val)) r) :
    exec (.tableLoad d k) s = .next (s.tableRun d r) ∧ fld r.desc (8 * 32) 5 = k := by
  have hk := hpicks.satisfies
  simp only [Bool.and_eq_true, decide_eq_true_eq] at hk
  exact ⟨exec_pick (k := fun t => t.tableRun d) hready hpicks rfl, hk.2⟩

/-- What the image read decides of a table's load (R188). -/
def State.tableLoaded (t : State) (d : DieIx) (r : Running) (k : Nat) (bs : List Byte) (poison : Bool) : State :=
  let v := tblVerify bs poison (dJob r.desc)
  ((t.setTblImage d k bs).setTblState d k (if v.1 then 2 else 3)).finish d .bil r
    ⟨if poison then [stPoison] else if v.1 then [] else [stHallmark], 0, v.2, 0⟩

/-- A load of a table that no instruction uses, with its image in order, marks the table while the image comes and judges it then. -/
theorem State.tableRun_fetch {k : Nat} (hk : fld r.desc (8 * 32) 5 = k) (ha : dAddrOk r.desc 24 = true) (h32 : fld r.desc (8 * 32 + 5) 3 = 0)
    (h33 : dn r.desc 33 31 = 0) (hsvc : rowsService (dAddr r.desc 24) 0 1 960 = false)
    (hdecode : s.rowsDecode d (dAddr r.desc 24) 0 1 960 = true) (hfence : s.dieFenced d = false) (hused : s.tblUsed d k = false) :
    (s.fetch d .bil r (dAddr r.desc 24) 960 = .wait t → s.tableRun d r = t.setTblState d k 1)
    ∧ (∀ bs ps, s.fetch d .bil r (dAddr r.desc 24) 960 = .data bs ps t → s.tableRun d r = t.tableLoaded d r k bs (ps.any id)) := by
  have hform : ¬ ((!dAddrOk r.desc 24) = true ∨ fld r.desc (8 * 32 + 5) 3 ≠ 0 ∨ dn r.desc 33 31 ≠ 0) := by
    simp [ha, h32, h33]
  unfold State.tableRun
  dsimp only
  rw [if_neg hform, if_neg (by simp [hsvc]), if_neg (by simp [hdecode]), if_neg (by simp [State.unitFenced, hfence]), hk, if_neg (by simp [hused])]
  refine ⟨fun hfetch => ?_, fun bs ps hfetch => ?_⟩
  · simp only [hfetch]
  · simp only [hfetch]
    rfl

/-- States of distinct tables are distinct fields. -/
theorem tblField_apart {j k : Fin 32} (h : j ≠ k) :
    rBilTbl (j / 16) ≠ rBilTbl (k / 16) ∨ 2 * (j.val % 16) + 2 ≤ 2 * (k.val % 16) ∨ 2 * (k.val % 16) + 2 ≤ 2 * (j.val % 16) := by
  have : j.val ≠ k.val := fun hv => h (Fin.ext hv)
  unfold rBilTbl
  omega

theorem State.tblState_setTblState (s : State) (d : DieIx) (k : Fin 32) {v : Nat} (hv : v < 4) : (s.setTblState d k v).tblState d k = v :=
  State.rf_setRf s d _ (by omega) hv

theorem State.tblState_setTblState_ne (s : State) (d : DieIx) {j k : Fin 32} (v : Nat) (h : j ≠ k) :
    (s.setTblState d k v).tblState d j = s.tblState d j := by
  by_cases hreg : rBilTbl (j / 16) = rBilTbl (k / 16)
  · have hfield := (tblField_apart h).resolve_left (fun hne => hne hreg)
    rw [State.tblState, State.setTblState, hreg, State.setRf, State.modReg, State.rf, State.reg_setReg, fld_setFld_apart _ _ hfield,
      State.tblState, hreg, State.rf]
  · exact State.rf_setRf_ne s d _ _ _ _ _ hreg

theorem State.tblImage_of_tables {e : DieIx} (h : (t.die d).tables = (s.die e).tables) (k : Nat) : t.tblImage d k = s.tblImage e k := by
  rw [State.tblImage, h, State.tblImage]

theorem State.tblImage_setTblImage (s : State) (d : DieIx) (k : Nat) (b : List Byte) : (s.setTblImage d k b).tblImage d k = b := by
  simp [State.tblImage, State.setTblImage]

theorem State.tblImage_setTblImage_ne (s : State) (d : DieIx) {j k : Nat} (b : List Byte) (h : j ≠ k) :
    (s.setTblImage d k b).tblImage d j = s.tblImage d j := by
  have hfind : ((s.setTblImage d k b).die d).tables.find? (fun p => p.1 == j) = (s.die d).tables.find? (fun p => p.1 == j) := by
    simp only [State.setTblImage, State.die_modDie]
    rw [List.find?_cons_of_neg (by simpa using Ne.symm h), List.find?_filter]
    congr 1
    funext p
    by_cases hp : p.1 = j <;> simp [hp, h]
  rw [State.tblImage, hfind, State.tblImage]

theorem blkLNK_le_rBilTbl (i : Nat) : blkLNK ≤ rBilTbl i := by
  unfold rBilTbl blkBIL blkLNK
  omega

theorem KeepsBack.tblState {dr : Prop} (h : KeepsBack dr s t) (d : DieIx) (k : Nat) : t.tblState d k = s.tblState d k :=
  congrArg (fld · _ _) (h.regs d _ (blkLNK_le_rBilTbl _))

theorem State.setTblImage_sparesMem (s : State) (d : DieIx) (k : Nat) (b : List Byte) : SparesMem True s (s.setTblImage d k b) :=
  .modDie s d (fun _ => rfl) (fun _ => rfl)

theorem State.tables_setTblState (s : State) (d : DieIx) (k v : Nat) : ((s.setTblState d k v).die d).tables = (s.die d).tables := by
  simp [State.setTblState, State.setRf, State.modReg, State.setReg, Die.setReg]

/-- What a table's load leaves: the image, the verdict, the record, and every other table and the memory as they were. -/
theorem State.tableLoaded_spec (t : State) (d : DieIx) (r : Running) (k : Fin 32) (bs : List Byte) (poison : Bool) :
    let v := tblVerify bs poison (dJob r.desc)
    let u := t.tableLoaded d r k bs poison
    u.tblImage d k = bs ∧ u.tblState d k = (if v.1 then 2 else 3)
      ∧ (∀ j : Fin 32, j ≠ k → u.tblState d j = t.tblState d j ∧ u.tblImage d j = t.tblImage d j)
      ∧ (r.released = t.stroke d → Filed t u d .bil r (if poison then 0x02 else if v.1 then 0x00 else 0x01) v.2 0) ∧ u.mem = t.mem := by
  intro v u
  let t1 := t.setTblImage d k bs
  let w := t1.setTblState d k (if v.1 then 2 else 3)
  let res : Result := ⟨if poison then [stPoison] else if v.1 then [] else [stHallmark], 0, v.2, 0⟩
  have hspares : SparesMem False t w := (State.setTblImage_sparesMem t d k bs).weaken.trans (.setReg t1 d _ _ False.elim)
  have hkept : KeepsBack False w u := State.finish_keepsBack w d r res backward_bil
  have himage (j : Nat) : u.tblImage d j = t1.tblImage d j := State.tblImage_of_tables ((hkept.tables d).trans (t1.tables_setTblState d ..)) j
  have hstate (j : Nat) : u.tblState d j = w.tblState d j := hkept.tblState d j
  have himg (j : Nat) : t1.tblState d j = t.tblState d j := congrArg (fld · _ _) ((t.setTblImage_sparesMem d k bs).regs trivial d _ (blkLNK_le_rBilTbl _))
  refine ⟨?_, ?_, fun j hj => ⟨?_, ?_⟩, fun hrel => ?_, ?_⟩
  · rw [himage, State.tblImage_setTblImage]
  · rw [hstate]
    exact State.tblState_setTblState t1 d k (by split <;> decide)
  · rw [hstate, State.tblState_setTblState_ne t1 d _ hj, himg]
  · rw [himage, State.tblImage_setTblImage_ne t d bs (fun h => hj (Fin.ext h))]
  · have hstatus : pickStatus res.statuses = if poison then 0x02 else if v.1 then 0x00 else 0x01 := by
      cases hp : poison <;> cases hv : v.1 <;> simp [res, hp, hv] <;> rfl
    have hdone : (w.queue d .bil).done = (t.queue d .bil).done := by rw [hspares.queue]
    rw [← hstatus]
    exact (State.finish_ended (res := res) backward_bil hdone (hrel.trans (hspares.stroke d).symm)).filed
  · exact (State.finish_keepsData w d .bil r res (backward_bil.claims d _)).mem.trans hspares.mem

/-! ### The verdict on an image -/

/-- A poisoned image, or one whose CRC does not match, is not VERIFIED (R188, R433). -/
theorem tblVerify_rejects {b : List Byte} {poison : Bool} {job : BitVec 12}
    (h : poison = true ∨ img32 b 60 ≠ (crc32c (b.take 60 ++ b.drop 64)).toNat) : (tblVerify b poison job).1 = false := by
  unfold tblVerify
  dsimp only
  rw [if_pos (h.imp_right .inl)]

end Sys2Proof.Machine
end

section
open Sys2Proof Sys2Proof.Machine
open Host (Outcome)

/-- Settles O37: RECHUNK writes what it has read in the other layout, and a table serves only after its image has passed. -/
theorem rechunkAndDerivativeTables : Obligations.RechunkAndDerivativeTables := by
  unfold Obligations.RechunkAndDerivativeTables
  refine ⟨fun s d r sf df hready hpicks hstats => ?_, fun s d k r hready hpicks _ => ?_,
    fun b job => ⟨tblVerify_rejects (.inl rfl), fun hcrc => tblVerify_rejects (.inr hcrc)⟩⟩
  · rw [exec_rechunk hready hpicks]
    obtain ⟨-, -, hack, hrel⟩ := hpicks
    refine ⟨fun hformat => ⟨_, rfl, ?_⟩, fun hnoop hfence => ⟨_, rfl, ?_⟩,
      fun hwork hsrcSvc hdstSvc hpitch hsrc hdst hfence hgate l t0 hfetch => ⟨_, rfl, ?_⟩⟩
    · rw [State.rechunkRun_format hformat]
      have hend := State.stopEarly_ended (st := stFormat) backward_bil hack hstats rfl rfl hrel
      exact ⟨hend.filed, hend.mem⟩
    · rw [State.rechunkRun_noop hnoop hfence]
      have hend := State.finish_ended (res := Result.ok) backward_bil rfl hrel
      exact ⟨hend.filed, hend.mem⟩
    · rw [State.rechunkRun_work hwork hsrcSvc hdstSvc hpitch hsrc hdst hfence hgate hfetch, hstats]
      rfl
  · intro x a ha h32 h33 hsvc hdecode hfence hused
    obtain ⟨hexec, hk⟩ := exec_tableLoad hready hpicks
    have hrun {t : State} := State.tableRun_fetch (t := t) hk ha h32 h33 hsvc hdecode hfence hused
    rw [hexec]
    refine ⟨fun t0 hfetch => ⟨_, rfl, ?_⟩, fun bs ps t0 hfetch => ⟨_, rfl, ?_⟩⟩
    · rw [hrun.1 hfetch]
      exact State.tblState_setTblState t0 d k (by decide)
    · rw [hrun.2 bs ps hfetch]
      exact State.tableLoaded_spec t0 d r k bs (ps.any id)
end

section
/-! PROOF. The drain pop, the wait for a table, and the formulas of the saved output (R178, R182, R184, R187, R190). -/

namespace Sys2Proof.Machine

variable {s t u : State} {d : DieIx} {c : CoreIx} {r : Running}

/-! ### Arrival at a segment (R182) -/

/-- A drain pop that arrives changes only who waits at the segments of its die. -/
theorem State.drainArrive_eq (s : State) (d : DieIx) (c : CoreIx) (ident ctx : Nat) :
    ∃ l, s.drainArrive d c ident ctx = s.modDie d (fun x => { x with drains := l }) := by
  by_cases h : (s.die d).drains.contains (c, ident, ctx) = true
  · exact ⟨(s.die d).drains, congrArg (s.setDie d) (if_pos h)⟩
  · exact ⟨(s.die d).drains ++ [(c, ident, ctx)], congrArg (s.setDie d) (if_neg h)⟩

theorem State.drainArrive_sparesMem (s : State) (d : DieIx) (c : CoreIx) (ident ctx : Nat) : SparesMem True s (s.drainArrive d c ident ctx) := by
  obtain ⟨l, h⟩ := s.drainArrive_eq d c ident ctx
  rw [h]
  exact .modDie s d (fun _ => rfl) (fun _ => rfl)

/-- Whether the HBM of a die serves is a matter of its status register alone. -/
theorem State.hbm_of_status (h : t.reg d rHbmStatus = s.reg d rHbmStatus) : t.testHold d = s.testHold d ∧ t.hbmServes d = s.hbmServes d := by
  simp only [State.testHold, State.hbmServes, State.stackServes, h, and_self]

theorem State.hbm_drainArrive (s : State) (d : DieIx) (c : CoreIx) (ident ctx : Nat) :
    (s.drainArrive d c ident ctx).testHold d = s.testHold d ∧ (s.drainArrive d c ident ctx).hbmServes d = s.hbmServes d := by
  obtain ⟨l, h⟩ := s.drainArrive_eq d c ident ctx
  rw [h]
  exact State.hbm_of_status (State.reg_modDie _ _ _ _ (fun _ => rfl))

/-- A segment at which nothing works and nobody waits serves the next drain pop. -/
theorem State.drainTurn_of_idle {ident ctx : Nat} (hidle : (s.queue d .bil).running = []) (hnone : (s.die d).drains = []) :
    s.drainTurn d c ident ctx = true := by
  simp [State.drainTurn, State.drainFirst, hidle, hnone]

theorem State.die_drainArrive_of_none {ident ctx : Nat} (hnone : (s.die d).drains = []) :
    (s.drainArrive d c ident ctx).die d = { s.die d with drains := [(c, ident, ctx)] } := by
  simp [State.drainArrive, hnone]

/-! ### A mismatch (R178) -/

theorem State.drainMiss_ended (t : State) (n : Nat) (hack : r.acking = false) (hstats : r.stats = []) (hdone : (t.queue d (.core c)).done = (s.queue d (.core c)).done)
    (hrel : r.released = t.stroke d) : Filed s (t.drainMiss d c r n) d (.core c) r 0x0D r.hall r.detail ∧ (t.drainMiss d c r n).mem = t.mem
      ∧ ∀ ctx, KeepsSeg d ctx t (t.drainMiss d c r n) := by
  let v := (t.addSat d rBilErr 16 16 1).logEvent d 0x0301 stTag n
  have hv : SparesMem False t v := (SparesMem.addSat t d _ _ _ _ False.elim).trans (.logEvent ..)
  have hend : Ended s v (t.drainMiss d c r n) d (.core c) r stTag r.hall r.detail :=
    State.stopEarly_ended (backward_core c) hack hstats rfl (by rw [hv.queue, hdone]) (by rw [hv.stroke, hrel])
  refine ⟨hend.filed, hend.mem.trans hv.mem, fun ctx => ?_⟩
  have hlog : KeepsSeg d ctx (t.addSat d rBilErr 16 16 1) v := KeepsSeg.modDie _ d ctx (fun _ => rfl)
  exact ((KeepsSeg.addSat t d ctx 16 16 1 (by decide)).trans hlog).trans (hend.back.keepsSeg d ctx)

/-! ### The entry that becomes the drain (R178, R184) -/

/-- A drain pop that has been served lets others start, and keeps the entries popped. -/
theorem State.drainLeave_keepsBack (s : State) (d : DieIx) (c : CoreIx) (ident : Nat) :
    (s.drainLeave d c ident).mem = s.mem ∧ KeepsBack True s (s.drainLeave d c ident) := by
  unfold State.drainLeave
  refine ⟨(State.startQueue_keepsData _ d .bil).mem, KeepsBack.trans ?_ (State.startQueue_keepsBack _ d (ne_cru_of_backward backward_bil))⟩
  exact .modDie s d (fun _ => rfl) (fun _ => rfl) (fun _ => rfl)

/-- The popped entry: it is the core's drain, and the top falls by it. -/
theorem State.popDrain_spec (s : State) (d : DieIx) (c : CoreIx) (r : Running) {a : Trailer} (tbl : Option Nat) (formula : Nat)
    (hsize : a.size % 64 = 0) :
    let t := s.popDrain d c r a tbl formula
    let ctx := dCtx r.desc
    (∃ e, (t.core d c).drain = some e ∧ e.ident = r.ident ∧ e.fmt = a.fmt ∧ e.rows.length = a.rows ∧ e.table = tbl ∧ e.formula = formula)
      ∧ t.segTop d ctx = s.segTop d ctx - (a.size + 64) ∧ t.segDepth d ctx = s.segDepth d ctx - 1 ∧ t.mem = s.mem := by
  intro t ctx
  let rb := a.fmt.rowBytes a.len
  let e := s.memRead ⟨d, dJob r.desc, false⟩ d 0 (s.segBase d ctx + s.segTop d ctx - 64 - a.size) a.size
  let rows := (List.range a.rows).map (fun k => (slice e.bytes (k * rb) rb, slice e.poison (k * rb) rb))
  let popped : Core → Core := fun k => { k with drain := some ⟨r.ident, a.fmt, rows, tbl, formula⟩ }
  let v := (e.state.dropTop d ctx a).modCore d c popped
  have hread : SparesMem True s e.state := State.memRead0_sparesMem ..
  obtain ⟨hmem, hleave⟩ : t.mem = v.mem ∧ KeepsBack True v t := State.drainLeave_keepsBack v d c r.ident
  obtain ⟨htop, hdepth, -⟩ := e.state.seg_dropTop d ctx hsize
  have hcore : KeepsSeg d ctx (e.state.dropTop d ctx a) v := KeepsSeg.modDie _ d ctx (fun _ => rfl)
  have hkept : KeepsSeg d ctx (e.state.dropTop d ctx a) t := hcore.trans (hleave.keepsSeg d ctx)
  refine ⟨⟨⟨r.ident, a.fmt, rows, tbl, formula⟩, ?_, rfl, rfl, by simp [rows], rfl, rfl⟩, ?_, ?_, ?_⟩
  · rw [hleave.drain trivial, State.core_modCore]
  · rw [hkept.segTop, htop, (hread.keepsSeg d ctx).segTop]
  · rw [hkept.segDepth, hdepth, (hread.keepsSeg d ctx).segDepth]
  · exact hmem.trans ((State.mem_dropTop ..).trans hread.mem)

/-! ### The drain pop of an instruction that can start -/

theorem exec_drainPop (hready : Ready s d) (hpicks : Picks s d (.core c) mulPick r) (hwants : s.wantsDrain d c r = true) :
    exec (.drainPop d c) s = .next (s.drainPop d c r) := by
  rw [exec_pick (k := fun t r => if t.wantsDrain d c r then t.drainPop d c r else t) hready hpicks rfl, if_pos hwants]

section
variable {st : Stationary} {af ofm : Fmt} (hgo : s.mulStart d c r.desc = .go st af ofm) (hu : s.drainArrive d c r.ident (dCtx r.desc) = u)
include hgo hu

theorem State.drainPop_waits (hturn : u.drainTurn d c r.ident (dCtx r.desc) = false) : s.drainPop d c r = u := by
  simp only [State.drainPop, hgo, hu, hturn]
  rfl

variable (hturn : u.drainTurn d c r.ident (dCtx r.desc) = true) (hhold : u.testHold d = false) (hserves : u.hbmServes d = true)
include hturn hhold hserves

theorem State.drainPop_empty (hempty : u.segDepth d (dCtx r.desc) = 0) : s.drainPop d c r = u.drainMiss d c r 0 := by
  simp [State.drainPop, hgo, hu, hturn, hhold, hserves, hempty]

variable {a : Trailer} {v : State} (hsome : u.segDepth d (dCtx r.desc) ≠ 0) (htop : u.topTrailer d (dCtx r.desc) (dJob r.desc) = (a, false, v))
  (hcol : a.column = false) (hrows : a.rows = mRows r.desc) (hlen : a.len = st.ncols)
include hsome htop hcol hrows hlen

theorem State.drainPop_mismatch (hpick : v.dfnPick d r.desc a ≠ .format) (hlayer : a.layer ≠ dLayer r.desc) :
    s.drainPop d c r = v.drainMiss d c r a.layer := by
  simp only [State.drainPop, hgo, hu, hturn, hhold, hserves, hsome, htop, hcol, hrows, hlen]
  cases hp : v.dfnPick d r.desc a with
  | format => exact absurd hp hpick
  | _ => simp [hlayer]

theorem State.drainPop_formula {n : Nat} {fb : Bool} (hpick : v.dfnPick d r.desc a = .formula n fb) (hlayer : a.layer = dLayer r.desc) :
    s.drainPop d c r = (if fb then v.addSat d rBilFb 0 32 1 else v).popDrain d c r a none n := by
  simp [State.drainPop, hgo, hu, hturn, hhold, hserves, hsome, htop, hcol, hrows, hlen, hlayer, hpick]

theorem State.drainPop_table {k : Nat} (hpick : v.dfnPick d r.desc a = .table k) (hlayer : a.layer = dLayer r.desc) :
    s.drainPop d c r = v.popDrain d c r a (some k) 0 := by
  simp [State.drainPop, hgo, hu, hturn, hhold, hserves, hsome, htop, hcol, hrows, hlen, hlayer, hpick]

end

/-! ### The formulas (R187) -/

theorem dfnFormula_nan (n : Nat) {y : Nat} (h : (decodeFloat .fp32 y).isNan = true) : dfnFormula n y = 0x7FC00000 := by
  simp only [dfnFormula, h, if_true]
  decide

theorem dfnFormula_num {y : Nat} (h : (decodeFloat .fp32 y).isNan = false) :
    dfnFormula 2 y = (if (decodeFloat .fp32 y).cmp (.fin false 0 0) = 1 then 0x3F800000 else 0)
      ∧ dfnFormula 3 y = op32 .mul y (op32 .sub 0x3F800000 y) ∧ dfnFormula 4 y = op32 .sub 0x3F800000 (op32 .mul y y) := by
  simp [dfnFormula, h]

/-! ### The wait for a table (R190) -/

theorem exec_tableWaitTimeout {w : Stroke} (hready : Ready s d) (hpicks : Picks s d (.core c) mulPick r) (hwait : r.waitFrom = some w)
    (hwants : s.wantsDrain d c r = true) (hlate : begun (s.stroke d) (w.toNat + s.rto d (.core c)) = true) (htable : s.tableReady d r.desc = false) :
    exec (.tableWaitTimeout d c) s = .next (s.stopEarly d (.core c) r stTimeout) := by
  have hrun := exec_pick (i := .tableWaitTimeout d c) (k := fun t r => match r.waitFrom with
    | some w => if t.wantsDrain d c r ∧ begun (t.stroke d) (w.toNat + t.rto d (.core c)) ∧ !t.tableReady d r.desc then
        t.stopEarly d (.core c) r stTimeout else t
    | none => t) hready hpicks rfl
  rw [hrun]
  simp [hwait, hwants, hlate, htable]

end Sys2Proof.Machine
end

section
open Sys2Proof Sys2Proof.Machine
open Host (Outcome)

/-- Settles O39: the drain pop takes the top entry for its instruction, or waits, or completes it with the mismatch. -/
theorem drainPopsAndTableWaits : Obligations.DrainPopsAndTableWaits := by
  unfold Obligations.DrainPopsAndTableWaits
  refine ⟨fun s d c r st af ofm hready hpicks hstats hwants hgo => ?_, fun s d c ident ctx hidle hnone => ?_,
    fun s d c r w hready hpicks hstats hwait hwants hlate htable => ?_, fun y hy => dfnFormula_num hy, fun n y hy => dfnFormula_nan n hy⟩
  · intro x ctx u a
    have hu : SparesMem True s u := s.drainArrive_sparesMem d c r.ident ctx
    obtain ⟨hholdU, hservesU⟩ := s.hbm_drainArrive d c r.ident ctx
    rw [exec_drainPop hready hpicks hwants]
    obtain ⟨-, -, hack, hrel⟩ := hpicks
    refine ⟨fun hturn => congrArg Outcome.next (State.drainPop_waits hgo rfl hturn), fun hturn hhold hserves => ?_⟩
    replace hholdU := hholdU.trans hhold
    replace hservesU := hservesU.trans hserves
    refine ⟨fun hempty => ⟨_, rfl, ?_⟩, fun hsome hpoison hcol hrows hlen hsize => ?_⟩
    · have hdepth : u.segDepth d ctx = 0 := by rw [(hu.keepsSeg d ctx).segDepth, hempty]
      obtain ⟨hfiled, hmem, hseg⟩ := State.drainMiss_ended u 0 hack hstats (congrArg CmdQueue.done (hu.queue d (.core c))) (hrel.trans (hu.stroke d).symm)
      rw [State.drainPop_empty hgo rfl hturn hholdU hservesU hdepth]
      exact ⟨hfiled, ((hu.keepsSeg d ctx).trans (hseg ctx)).segTop, hmem.trans hu.mem⟩
    · have hdepth : u.segDepth d ctx ≠ 0 := by rwa [(hu.keepsSeg d ctx).segDepth]
      have htop : u.topTrailer d ctx (dJob x) = (a.1, false, a.2.2) := by rw [← hpoison]
      have hread : SparesMem True u a.2.2 := State.topTrailer_sparesMem ..
      have hv : SparesMem True s a.2.2 := hu.trans hread
      have hvseg : KeepsSeg d ctx s a.2.2 := hv.keepsSeg d ctx
      refine ⟨fun n fb hpick hlayer => ?_, fun k hpick hlayer => ?_, fun hpick hlayer => ⟨_, rfl, ?_⟩⟩
      · let v := if fb then a.2.2.addSat d rBilFb 0 32 1 else a.2.2
        have hfb : KeepsSeg d ctx a.2.2 v ∧ v.mem = a.2.2.mem := by
          cases fb
          · exact ⟨.refl d ctx _, rfl⟩
          · exact ⟨.addSat _ d ctx 0 32 1 (by decide), rfl⟩
        obtain ⟨⟨e, he, hident, hfmt, hlenE, htbl, hform⟩, htopE, hdepthE, hmemE⟩ := v.popDrain_spec d c r none n hsize
        rw [State.drainPop_formula hgo rfl hturn hholdU hservesU hdepth htop hcol hrows hlen hpick hlayer]
        exact ⟨_, e, rfl, he, hident, hfmt, hlenE, htbl, hform, by rw [htopE, (hvseg.trans hfb.1).segTop],
          by rw [hdepthE, (hvseg.trans hfb.1).segDepth], hmemE.trans (hfb.2.trans hv.mem)⟩
      · obtain ⟨⟨e, he, hident, -, -, htbl, -⟩, htopE, -, -⟩ := a.2.2.popDrain_spec d c r (some k) 0 hsize
        rw [State.drainPop_table hgo rfl hturn hholdU hservesU hdepth htop hcol hrows hlen hpick hlayer]
        exact ⟨_, e, rfl, he, hident, htbl, by rw [htopE, hvseg.segTop]⟩
      · obtain ⟨hfiled, hmem, hseg⟩ := State.drainMiss_ended (c := c) a.2.2 a.1.layer hack hstats rfl (hrel.trans (hv.stroke d).symm)
        rw [State.drainPop_mismatch hgo rfl hturn hholdU hservesU hdepth htop hcol hrows hlen hpick hlayer]
        exact ⟨hfiled, (hvseg.trans (hseg ctx)).segTop, hmem.trans hv.mem⟩
  · exact ⟨State.drainTurn_of_idle hidle hnone, State.die_drainArrive_of_none hnone, (s.drainArrive_sparesMem d c ident ctx).mem⟩
  · refine ⟨_, exec_tableWaitTimeout hready hpicks hwait hwants hlate htable, ?_⟩
    obtain ⟨-, -, hack, hrel⟩ := hpicks
    have hend := State.stopEarly_ended (st := stTimeout) (backward_core c) hack hstats rfl rfl hrel
    exact ⟨hend.filed, hend.mem⟩
end

section
/-! PROOF. Gradient buckets and UPDATE (R198 to R206). -/

namespace Sys2Proof.Machine

variable {s t : State} {d : DieIx} {r : Running}

/-! ### A range that is cleared -/

/-- In a table without the entries of some keys, those keys read as unlisted and the others as before. -/
theorem SMap.get_filter {α : Type} (dflt : α) (gone : Nat → Bool) (m : List (Nat × α)) (k : Nat) :
    SMap.get dflt (m.filter (fun p => !gone p.1)) k = if gone k then dflt else SMap.get dflt m k := by
  induction m with
  | nil => simp [SMap.get]
  | cons p m ih =>
    obtain ⟨j, v⟩ := p
    by_cases hj : gone j
    · rw [List.filter_cons_of_neg (by simpa using hj), ih, SMap.get]
      by_cases hk : j = k
      · rw [← hk, if_pos hj, if_pos hj]
      · rw [if_neg hk]
    · rw [List.filter_cons_of_pos (by simpa using hj), SMap.get, SMap.get, ih]
      by_cases hk : j = k
      · rw [if_pos hk, if_pos hk, ← hk, if_neg hj]
      · rw [if_neg hk, if_neg hk]

/-- A range set to zero: cells and marks inside it are gone, the others are as before, and the rest of the dies is spared. -/
theorem State.zeroRange_spec (s : State) (d : DieIx) (off n : Nat) :
    let key := memKey d 0 off
    let t := s.zeroRange d off n
    (∀ a, key ≤ a → a < key + n → SMap.get 0 t.mem.cells a = 0 ∧ SMap.get .clean t.mem.marks a = .clean)
      ∧ (∀ a, (a < key ∨ key + n ≤ a) → SMap.get 0 t.mem.cells a = SMap.get 0 s.mem.cells a)
      ∧ Spares True s t ∧ (t.die d).buckets = (s.die d).buckets := by
  intro key t
  let inside := fun (k : Nat) => decide (key ≤ k) && decide (k < key + n)
  let m : Mem := ⟨s.mem.cells.filter (fun p => !inside p.1), s.mem.marks.filter (fun p => !inside p.1)⟩
  let u : State := ({ s with mem := m } : State).modDie d (fun x => { x with writeBacks := x.writeBacks.filter (fun k => !inside k) })
  have hcount : SparesMem True u t := State.hbmCount_sparesMem u d 0 off n rHbmWr (by decide)
  have hmem : t.mem = m := hcount.mem
  have hu : SparesMem True { s with mem := m } u := .modDie _ d (fun _ => rfl) (fun _ => rfl)
  refine ⟨fun a hlo hhi => ?_, fun a hout => ?_, (((Spares.refl s).withMem s.mem m).trans hu.toSpares).trans hcount.toSpares, ?_⟩
  · have hin : inside a = true := by simp [inside, hlo, hhi]
    rw [hmem]
    exact ⟨(SMap.get_filter _ inside _ a).trans (if_pos hin), (SMap.get_filter _ inside _ a).trans (if_pos hin)⟩
  · have hno : ¬ inside a = true := by
      simp only [inside, Bool.and_eq_true, decide_eq_true_eq]
      omega
    rw [hmem]
    exact (SMap.get_filter _ inside _ a).trans (if_neg hno)
  · have hsame : (u.die d).buckets = (s.die d).buckets := by
      simp only [u, State.die_modDie]
      rfl
    exact (State.buckets_hbmCount u d 0 off n rHbmWr).trans hsame

/-! ### BUCKET_OPEN (R198) -/

/-- The state in which a bucket has been opened over a range of its die's HBM. -/
def State.opened (s : State) (d : DieIx) (b : Bucket) : State :=
  (s.zeroRange d b.base b.bytes).modDie d (fun y => { y with buckets := y.buckets ++ [b] })

/-- What stands in the way of a bucket of a range: a store, 64 buckets, the same pair, or an overlap. -/
def State.bucketTaken (s : State) (d : DieIx) (x : Desc) : Bool :=
  s.storeHit d (locOf (dAddr x 24)).off (dn x 32 8) || decide (64 ≤ (s.die d).buckets.length) ||
    (s.die d).buckets.any (fun b => decide (b.job = dJob x ∧ b.num = bktNum x) || overlaps (locOf (dAddr x 24)).off (dn x 32 8) b.base b.bytes)

section
variable {f : Fmt} (hf : Fmt.ofCode (fld r.desc (8 * 40) 4) = some f) (hstate : f = .fp32 ∨ f = .wf16) (ha : dAddrOk r.desc 24 = true)
  (hcode : fld r.desc (8 * 40 + 4) 12 = 0) (hzero : dn r.desc 44 20 = 0) (hbase : (dAddr r.desc 24).toNat % 64 = 0) (hwhole : dn r.desc 32 8 % 64 = 0)
  (hsome : 0 < dn r.desc 32 8) (hsvc : rowsService (dAddr r.desc 24) 0 1 (dn r.desc 32 8) = false)
  (hdecode : s.rowsDecode d (dAddr r.desc 24) 0 1 (dn r.desc 32 8) = true) (hlocal : s.isLocal d (dAddr r.desc 24) = true)
  (hregion : (locOf (dAddr r.desc 24)).region = 0)
include hf hstate ha hcode hzero hbase hwhole hsome hsvc hdecode hlocal hregion

/-- A BUCKET_OPEN with its encodings in order is judged by what stands in its way. -/
theorem State.openRun_judged :
    (s.bucketTaken d r.desc = true → s.openRun d r = s.stopEarly d .upd r stFormat)
    ∧ (s.bucketTaken d r.desc = false → s.dieFenced d = false → s.testHold d = false → s.hbmServes d = true →
        s.openRun d r = (s.opened d ⟨dJob r.desc, bktNum r.desc, (locOf (dAddr r.desc 24)).off, dn r.desc 32 8, f, false, 0, none⟩).finish d .upd r
          Result.ok) := by
  have hform : ¬ ((!dAddrOk r.desc 24) = true ∨ fld r.desc (8 * 40 + 4) 12 ≠ 0 ∨ dn r.desc 44 20 ≠ 0 ∨ (f ≠ .fp32 ∧ f ≠ .wf16)
      ∨ (dAddr r.desc 24).toNat % 64 ≠ 0 ∨ dn r.desc 32 8 % 64 ≠ 0) := by
    rcases hstate with rfl | rfl <;> simp [ha, hcode, hzero, hbase, hwhole]
  have htaken : ((!s.rowsDecode d (dAddr r.desc 24) 0 1 (dn r.desc 32 8)) = true ∨ (!s.isLocal d (dAddr r.desc 24)) = true
      ∨ (locOf (dAddr r.desc 24)).region ≠ 0 ∨ s.storeHit d (locOf (dAddr r.desc 24)).off (dn r.desc 32 8) = true ∨ (s.die d).buckets.length ≥ 64
      ∨ (s.die d).buckets.any (fun b => decide (b.job = dJob r.desc ∧ b.num = bktNum r.desc)
          || overlaps (locOf (dAddr r.desc 24)).off (dn r.desc 32 8) b.base b.bytes) = true) ↔ s.bucketTaken d r.desc = true := by
    simp [State.bucketTaken, hdecode, hlocal, hregion, or_assoc]
  unfold State.openRun
  simp only [hf]
  rw [if_neg hform, if_neg (by omega), if_neg (by simp [hsvc])]
  refine ⟨fun h => if_pos (htaken.mpr h), fun h hfence hhold hserves => ?_⟩
  rw [if_neg (fun k => by simp [h] at htaken; exact absurd k (by simpa using htaken)), if_neg (by simp [State.unitFenced, hfence, hhold]),
    if_neg (by simp [hserves])]
  rfl

end

/-- What BUCKET_OPEN leaves: the bucket, its range zero, every other byte, and the record. -/
theorem State.opened_spec (s : State) (d : DieIx) (b : Bucket) (hrel : r.released = s.stroke d) :
    let key := memKey d 0 b.base
    let t := (s.opened d b).finish d .upd r Result.ok
    Filed s t d .upd r 0x00 0 0 ∧ (t.die d).buckets = (s.die d).buckets ++ [b]
      ∧ (∀ a, key ≤ a → a < key + b.bytes → SMap.get 0 t.mem.cells a = 0 ∧ SMap.get .clean t.mem.marks a = .clean)
      ∧ (∀ a, (a < key ∨ key + b.bytes ≤ a) → SMap.get 0 t.mem.cells a = SMap.get 0 s.mem.cells a) := by
  intro key t
  obtain ⟨hzero, hrest, hspares, hbuckets⟩ := s.zeroRange_spec d b.base b.bytes
  let v := s.opened d b
  have hadd : SparesMem True (s.zeroRange d b.base b.bytes) v := .modDie _ d (fun _ => rfl) (fun _ => rfl)
  have hv : Spares True s v := hspares.trans hadd.toSpares
  have hend : Ended s v t d .upd r 0x00 0 0 :=
    State.finish_ended backward_upd (congrArg CmdQueue.done (hv.queue d .upd)) (hrel.trans (hv.stroke d).symm)
  have hmem : t.mem = (s.zeroRange d b.base b.bytes).mem := hend.mem.trans hadd.mem
  refine ⟨hend.filed, ?_, ?_, ?_⟩
  · rw [hend.back.buckets]
    simp [v, State.opened, hbuckets]
  · rwa [hmem]
  · rwa [hmem]

/-! ### BUCKET_CLOSE (R200) -/

/-- The state in which a bucket is closed, and what its close reports. -/
def State.closed (s : State) (d : DieIx) (b : Bucket) : State :=
  s.modDie d (fun y => { y with buckets := y.buckets.filter (fun z => !decide (z.job = b.job ∧ z.num = b.num)) })

def State.closeResult (s : State) (d : DieIx) (b : Bucket) : Result :=
  ⟨(if (s.marksIn 0 (memKey d 0 b.base) b.bytes).any (fun p => bad true p.2) then [stPoison] else []) ++ (if b.sat then [stSaturated] else []),
    0, 0, BitVec.ofNat 32 b.lines⟩

theorem bucketKey_iff {b z : Bucket} {x : Desc} (hb : b.job = dJob x ∧ b.num = bktNum x) :
    (z.job = b.job ∧ z.num = b.num) ↔ (z.job = dJob x ∧ z.num = bktNum x) := by rw [hb.1, hb.2]

/-- The writers that are found running are all awaited: a close that arrives waits for every one of them. -/
theorem State.closeAwaits_arriving {b : Bucket} (h : b.closing = none) : s.closeAwaits d r b = s.bucketWriters d b := by
  simp only [State.closeAwaits, h]
  refine List.filter_eq_self.mpr fun w hw => ?_
  simp only [State.bucketWriters, List.mem_flatMap, List.mem_map, List.mem_filter] at hw
  obtain ⟨e, -, q, -, y, ⟨hy, -⟩, rfl⟩ := hw
  exact List.any_eq_true.mpr ⟨y, hy, by simp⟩

theorem State.closeRun_none (h : (s.die d).buckets.find? (fun b => decide (b.job = dJob r.desc ∧ b.num = bktNum r.desc)) = none) :
    s.closeRun d r = s.stopEarly d .upd r stFormat := by
  simp only [State.closeRun, h]

section
variable {b : Bucket} (h : (s.die d).buckets.find? (fun b => decide (b.job = dJob r.desc ∧ b.num = bktNum r.desc)) = some b)
  (h24 : dn r.desc 24 18 = 0) (h44 : dn r.desc 44 20 = 0) (hfence : s.dieFenced d = false)
include h h24 h44 hfence

/-- A close of a bucket of its job, in order, waits for the writers that it awaits or goes on. -/
theorem State.closeRun_found : s.closeRun d r =
    if (s.closeAwaits d r b).isEmpty = false then s.modDie d (fun y => { y with buckets := y.buckets.map (fun z =>
      if z.job = b.job ∧ z.num = b.num then { z with closing := some (r.ident, s.closeAwaits d r b) } else z) })
    else (s.closed d b).finish d .upd r (s.closeResult d b) := by
  unfold State.closeRun
  simp only [h]
  rw [if_neg (by simp [h24, h44]), if_neg (by simp [State.unitFenced, hfence])]
  simp only [Bool.not_eq_true']
  rfl

end

/-- POISON stands before SATURATED, and a bucket with neither is OK (R200). -/
theorem pickStatus_close (poisoned sat : Bool) :
    pickStatus ((if poisoned then [stPoison] else []) ++ (if sat then [stSaturated] else [])) = if poisoned then 0x02 else if sat then 0x0E else 0x00 := by
  revert poisoned sat
  decide

/-- What BUCKET_CLOSE leaves: every other bucket, memory as it was, and the record with the bucket's marks and lines. -/
theorem State.closed_spec {b : Bucket} (hb : b.job = dJob r.desc ∧ b.num = bktNum r.desc) (hrel : r.released = s.stroke d) :
    let poisoned := (s.marksIn 0 (memKey d 0 b.base) b.bytes).any (fun p => bad true p.2)
    let t := (s.closed d b).finish d .upd r (s.closeResult d b)
    Filed s t d .upd r (if poisoned then 0x02 else if b.sat then 0x0E else 0x00) 0 (BitVec.ofNat 32 b.lines)
      ∧ (t.die d).buckets = (s.die d).buckets.filter (fun z => !decide (z.job = dJob r.desc ∧ z.num = bktNum r.desc)) ∧ t.mem = s.mem := by
  intro poisoned t
  have hv : SparesMem True s (s.closed d b) := .modDie s d (fun _ => rfl) (fun _ => rfl)
  have hend : Ended s (s.closed d b) t d .upd r _ _ _ :=
    State.finish_ended backward_upd (congrArg CmdQueue.done (hv.queue d .upd)) (hrel.trans (hv.stroke d).symm)
  refine ⟨pickStatus_close poisoned b.sat ▸ hend.filed, (hend.back.buckets d).trans ?_, hend.mem⟩
  simp only [State.closed, State.die_modDie, bucketKey_iff hb]

/-! ### UPDATE: the record (R202, R206) -/

theorem State.updRun_noRows (ha : dAddrOk r.desc 24 = true) (h40 : dn r.desc 40 24 = 0) (h32 : dn r.desc 32 4 % 128 = 0) (h36 : dn r.desc 36 4 = 0)
    (hfence : s.dieFenced d = false) : s.updRun d r = s.finish d .upd r Result.ok := by
  simp [State.updRun, ha, h40, h32, h36, State.unitFenced, hfence]

theorem State.updRun_noContext (ha : dAddrOk r.desc 24 = true) (h40 : dn r.desc 40 24 = 0) (h32 : dn r.desc 32 4 % 128 = 0) (h36 : dn r.desc 36 4 ≠ 0)
    (hctx : s.ctxOf d (dJob r.desc) = none) : s.updRun d r = s.stopEarly d .upd r stFormat := by
  simp [State.updRun, ha, h40, h32, h36, hctx]

theorem State.updRun_record {k : Nat} {l : List Byte × List Bool} (ha : dAddrOk r.desc 24 = true) (h40 : dn r.desc 40 24 = 0)
    (h32 : dn r.desc 32 4 % 128 = 0) (h36 : dn r.desc 36 4 ≠ 0) (hctx : s.ctxOf d (dJob r.desc) = some k)
    (hsvc : rowsService (dAddr r.desc 24) 0 1 128 = false) (hdecode : s.rowsDecode d (dAddr r.desc 24) 0 1 128 = true) (hfence : s.dieFenced d = false)
    (hfetch : s.fetchAll d .upd r [(dAddr r.desc 24, 128)] = .data [l] t) :
    s.updRun d r = t.updRecord d r k (dn r.desc 32 4) (dn r.desc 36 4)
      (decide (dStep r.desc ≠ (t.rf d (rUpdStep k) 0 32 + 1) % 2 ^ 32)) l := by
  simp [State.updRun, ha, h40, h32, h36, hctx, hsvc, hdecode, State.unitFenced, hfence, hfetch]

/-- Whether the fields, the band and the operands of a record are acceptable (R18, R205, R206). -/
def State.updGood (s : State) (d : DieIx) (x : Desc) (u : UpdRec) (active row0 rows : Nat) : Bool :=
  u.fieldsOk && u.bandOk row0 rows && !(u.spanOk row0 rows && u.service active row0 rows) && s.updAddrsOk d x u active row0 rows

/-- Without a mask no element is frozen, so that every span of the gradient is read (R204). -/
theorem UpdRec.reads_unmasked {u : UpdRec} (hmask : u.maskEn = false) (mb : List Byte × List Bool) (set row0 rows : Nat) :
    u.reads set row0 rows (fun row j => (slice (u.rowMask mb row) (128 * j) 128).all (fun p => p.1)) = u.reads set row0 rows (fun _ _ => false) := by
  have hrow (row : Nat) : u.rowMask mb row = List.replicate u.n (false, false) := by
    simp [UpdRec.rowMask, hmask, List.map_const']
  have hspan (row j : Nat) (hj : j < u.spans) : (slice (u.rowMask mb row) (128 * j) 128).all (fun p => p.1) = false := by
    obtain ⟨m, hm⟩ : ∃ m, min 128 (u.n - 128 * j) = m + 1 := Nat.exists_eq_succ_of_ne_zero (by unfold UpdRec.spans at hj; omega)
    rw [hrow, slice, List.drop_replicate, List.take_replicate, hm]
    rfl
  have hgrad : u.gradPlaces row0 rows (fun row j => (slice (u.rowMask mb row) (128 * j) 128).all (fun p => p.1))
      = u.gradPlaces row0 rows (fun _ _ => false) := by
    refine List.flatMap_congr fun i _ => List.map_congr_left fun j hj => ?_
    simp only [hspan _ j (List.mem_range.mp hj)]
  rw [UpdRec.reads, hgrad, UpdRec.reads]

/-- A place without bytes is at hand. -/
theorem State.fetchAll_empty (s : State) (d : DieIx) (q : QId) (r : Running) (a : BoardAddr) : s.fetchAll d q r [(a, 0)] = .data [([], [])] s := by
  simp [State.fetchAll, State.ask, State.fetchEach, State.fetch]

section
variable {k row0 rows : Nat} {late : Bool} {rb : List Byte × List Bool} (hclean : rb.2.any id = false)
include hclean

/-- A record that is not acceptable gives FORMAT_ERROR, whatever its step; an operand in the service region is counted. -/
theorem State.updRecord_bad (hbad : s.updGood d r.desc (updRecOf rb.1) (s.rf d (rUpdSet k) 28 1) row0 rows = false) :
    ∃ hit, s.updRecord d r k row0 rows late rb =
      (s.countService hit).finish d .upd r ⟨stFormat :: (if late then [stAborted] else []), 0, 0, 0⟩ := by
  unfold State.updRecord
  dsimp only
  rw [if_neg (by simp [hclean])]
  split
  · exact ⟨false, rfl⟩
  · next hfields =>
    split
    · exact ⟨true, rfl⟩
    · next hservice =>
      refine ⟨false, if_pos ?_⟩
      simp only [Bool.not_eq_true', not_or, Bool.not_eq_false] at hfields
      rw [← Bool.and_eq_true, Bool.not_eq_true] at hservice
      simpa [State.updGood, hfields, hservice] using hbad

variable (hgood : s.updGood d r.desc (updRecOf rb.1) (s.rf d (rUpdSet k) 28 1) row0 rows = true)
include hgood

/-- The guards of an acceptable record do not hold. -/
theorem State.updGood_guards : let u := updRecOf rb.1
    let active := s.rf d (rUpdSet k) 28 1
    ¬ (rb.2.any id = true) ∧ ¬ ((!u.fieldsOk) = true ∨ (!u.bandOk row0 rows) = true) ∧ ¬ (u.spanOk row0 rows = true ∧ u.service active row0 rows = true)
      ∧ ¬ ((!s.updAddrsOk d r.desc u active row0 rows) = true) := by
  simp only [State.updGood, Bool.and_eq_true, Bool.not_eq_true'] at hgood
  obtain ⟨⟨⟨hfields, hband⟩, hservice⟩, haddrs⟩ := hgood
  refine ⟨by simp [hclean], by simp [hfields, hband], ?_, by simp [haddrs]⟩
  rw [← Bool.and_eq_true, hservice]
  decide

theorem State.updRecord_late (hlate : late = true) : s.updRecord d r k row0 rows late rb = s.finish d .upd r ⟨[stAborted], 0, 0, 0⟩ := by
  obtain ⟨hrec, hform, hservice, haddrs⟩ := State.updGood_guards hclean hgood
  unfold State.updRecord
  dsimp only
  rw [if_neg hrec, if_neg hform, if_neg hservice, if_neg haddrs, if_pos hlate, hlate]
  rfl

/-- An acceptable record of the next step without a mask: its operands are read and worked on. -/
theorem State.updRecord_work {ops : List (List Byte × List Bool)} (hlate : late = false) (hmask : (updRecOf rb.1).maskEn = false)
    (hgate : s.gateAll d .upd r (((updRecOf rb.1).writes (1 - s.rf d (rUpdSet k) 28 1) row0 rows).map (fun p => (p.1, p.2.1))) = .go)
    (hread : s.fetchAll d .upd r ((updRecOf rb.1).reads (s.rf d (rUpdSet k) 28 1) row0 rows (fun _ _ => false)) = .data ops t) :
    s.updRecord d r k row0 rows late rb = t.updWork d r (updRecOf rb.1) (1 - s.rf d (rUpdSet k) 28 1) row0 rows ([], []) ops := by
  obtain ⟨hrec, hform, hservice, haddrs⟩ := State.updGood_guards hclean hgood
  have hbytes : (updRecOf rb.1).maskBytes = 0 := by simp [UpdRec.maskBytes, hmask]
  unfold State.updRecord
  dsimp only
  rw [if_neg hrec, if_neg hform, if_neg hservice, if_neg haddrs, if_neg (by simp [hlate])]
  simp only [hgate, hbytes, State.fetchAll_empty, List.headD_cons, UpdRec.reads_unmasked hmask, hread]

end

/-! ### The optimiser (R60, R203) -/

theorem optimise_sgd {u : UpdRec} (h : u.opt = 0) (gr w m v : Nat) :
    (optimise u gr w m v).w = op32z .sub w (op32z .mul u.lr (op32z .add (op32z .mul u.gscale gr) (op32z .mul u.wd w))) := by
  rw [optimise, if_pos h]

theorem optimise_momentum {u : UpdRec} (h : u.opt = 1) (gr w m v : Nat) : let o := optimise u gr w m v
    o.m = op32z .add (op32z .mul u.beta1 m) (op32z .mul u.gscale gr)
      ∧ o.w = op32z .sub w (op32z .mul u.lr (op32z .add o.m (op32z .mul u.wd w))) := by
  rw [optimise, if_neg (by omega), if_pos h]
  exact ⟨rfl, rfl⟩

theorem optimise_adam {u : UpdRec} (h : u.opt = 2) (gr w m v : Nat) : let o := optimise u gr w m v
    let g := op32z .mul u.gscale gr
    o.m = op32z .add (op32z .mul u.beta1 m) (op32z .mul (op32z .sub 0x3F800000 u.beta1) g)
      ∧ o.v = op32z .add (op32z .mul u.beta2 v) (op32z .mul (op32z .sub 0x3F800000 u.beta2) (op32z .mul g g))
      ∧ o.w = op32z .sub w (op32z .mul u.lr (op32z .add (op32 .div (op32z .mul u.c1 o.m) (op32z .add (sqrt32 (op32z .mul u.c2 o.v)) u.eps))
          (op32z .mul u.wd w))) := by
  rw [optimise, if_neg (by omega), if_neg (by omega)]
  exact ⟨rfl, rfl, rfl⟩

/-- An exactly zero sum is +0, and every other result that of the operation. -/
theorem op32z_spec (a b : Nat) : op32z .mul a b = op32 .mul a b
    ∧ ((decodeFloat .fp32 (op32 .add a b)).isZero = true → op32z .add a b = 0)
    ∧ ((decodeFloat .fp32 (op32 .add a b)).isZero = false → op32z .add a b = op32 .add a b) := by
  refine ⟨?_, fun h => ?_, fun h => ?_⟩ <;> unfold op32z
  · exact if_neg (by simp)
  · exact if_pos ⟨.inl rfl, h⟩
  · exact if_neg (by simp [h])

/-! ### One element (R204, R206) -/

theorem updElem_frozen (u : UpdRec) (maskBad : Bool) (gr w m v : Elem) (g : Gen) :
    (updElem u true maskBad gr w m v g).w.bits = w.raw ∧ (updElem u true maskBad gr w m v g).gen = g := ⟨rfl, rfl⟩

/-- An element that is not frozen is poisoned by every operand that feeds its weight. -/
theorem updElem_poison (u : UpdRec) (maskBad : Bool) (gr w m v : Elem) (g : Gen) : (updElem u false maskBad gr w m v g).w.bad
    = (maskBad || gr.poison || w.poison || (decide (1 ≤ u.opt) && m.poison) || (decide (2 ≤ u.opt) && v.poison)) := by
  have hbad : (updElem u false maskBad gr w m v g).w.bad = ((maskBad || gr.poison) || w.poison || (decide (u.opt ≥ 1) && ((maskBad || gr.poison) || m.poison))
      || (decide (u.opt ≥ 2) && ((maskBad || gr.poison) || v.poison))) := rfl
  rw [hbad]
  cases maskBad <;> cases gr.poison <;> simp

end Sys2Proof.Machine
end

section
open Sys2Proof Sys2Proof.Machine
open Host (Outcome)

/-- Settles O41: a bucket opens on a free range that it zeroes, closes behind its writers, and UPDATE applies the optimiser. -/
theorem updatesAndBuckets : Obligations.UpdatesAndBuckets := by
  unfold Obligations.UpdatesAndBuckets
  refine ⟨fun s d r f hready hruns hstats => ?_, fun s d r hready hruns hstats => ?_, fun s d r hready hruns hstats => ?_,
    fun u gr w m v => ⟨fun h => optimise_sgd h gr w m v, fun h => optimise_momentum h gr w m v, fun h => optimise_adam h gr w m v⟩,
    op32z_spec, fun u maskBad gr w m v g => ⟨(updElem_frozen u maskBad gr w m v g).1, (updElem_frozen u maskBad gr w m v g).2,
      updElem_poison u maskBad gr w m v g⟩⟩
  · intro x base n off taken hf hstate ha hcode hzero hbase hwhole hsome hsvc hdecode hlocal hregion
    have hexec : exec (.bucketOpen d) s = .next (s.openRun d r) := exec_engine (k := fun t => t.openRun d) hready hruns rfl
    obtain ⟨-, -, hack, hrel⟩ := hruns
    obtain ⟨hbusy, hfree⟩ := State.openRun_judged hf hstate ha hcode hzero hbase hwhole hsome hsvc hdecode hlocal hregion
    rw [hexec]
    refine ⟨fun h => ⟨_, rfl, ?_⟩, fun h hfence hhold hserves => ⟨_, rfl, ?_⟩⟩
    · have hend := State.stopEarly_ended (st := stFormat) backward_upd hack hstats rfl rfl hrel
      rw [hbusy h]
      exact ⟨hend.filed, hend.back.buckets d, hend.mem⟩
    · rw [hfree h hfence hhold hserves]
      exact s.opened_spec d ⟨dJob x, bktNum x, off, n, f, false, 0, none⟩ hrel
  · intro x mine2 mine
    have hexec : exec (.bucketClose d) s = .next (s.closeRun d r) := exec_engine (k := fun t => t.closeRun d) hready hruns rfl
    obtain ⟨-, -, hack, hrel⟩ := hruns
    rw [hexec]
    refine ⟨fun hnone => ⟨_, rfl, ?_⟩, fun b hb h24 h44 hfence => ⟨State.closeAwaits_arriving, fun hwait => ⟨_, rfl, ?_⟩, fun hwait => ⟨_, rfl, ?_⟩⟩⟩
    · have hend := State.stopEarly_ended (st := stFormat) backward_upd hack hstats rfl rfl hrel
      rw [State.closeRun_none hnone]
      exact ⟨hend.filed, hend.back.buckets d, hend.mem⟩
    · rw [State.closeRun_found hb h24 h44 hfence, if_pos (by simpa using hwait)]
      refine ⟨congrArg CmdQueue.running (State.queue_modDie _ _ _ _ _ (fun _ => rfl) (fun _ => rfl)), rfl, ?_⟩
      simp [mine2]
    · rw [State.closeRun_found hb h24 h44 hfence, if_neg (by simp [hwait])]
      have hmine : mine b = true := List.find?_some hb
      exact State.closed_spec (of_decide_eq_true hmine) hrel
  · intro x ha h40 h32
    have hexec : exec (.update d) s = .next (s.updRun d r) := exec_engine (k := fun t => t.updRun d) hready hruns rfl
    obtain ⟨-, -, hack, hrel⟩ := hruns
    rw [hexec]
    refine ⟨fun h36 hfence => ⟨_, rfl, ?_⟩, fun h36 hctx => ⟨_, rfl, ?_⟩, fun k l t0 h36 hctx hsvc hdecode hfence hfetch hclean => ?_⟩
    · rw [State.updRun_noRows ha h40 h32 h36 hfence]
      have hend := State.finish_ended (res := Result.ok) backward_upd rfl hrel
      exact ⟨hend.filed, hend.mem⟩
    · rw [State.updRun_noContext ha h40 h32 h36 hctx]
      have hend := State.stopEarly_ended (st := stFormat) backward_upd hack hstats rfl rfl hrel
      exact ⟨hend.filed, hend.mem⟩
    · intro u active late good
      rw [State.updRun_record ha h40 h32 h36 hctx hsvc hdecode hfence hfetch]
      refine ⟨fun hbad hrel0 => ⟨_, rfl, ?_⟩, fun hgood hlate hrel0 => ⟨_, rfl, ?_⟩, fun hgood hlate hgate hmask ops v hread => ?_⟩
      · obtain ⟨hit, hrec⟩ := State.updRecord_bad (late := late) hclean hbad
        have hcount : SparesMem False t0 (t0.countService hit) := State.countService_sparesMem t0 hit
        have hend := State.finish_ended (s := t0) (res := ⟨stFormat :: (if late then [stAborted] else []), 0, 0, 0⟩) backward_upd
          (congrArg CmdQueue.done (hcount.queue d .upd)) (hrel0.trans (hcount.stroke d).symm)
        rw [hrec]
        have hstatus : pickStatus (stFormat :: (if late then [stAborted] else [])) = stFormat := by
          cases late <;> rfl
        exact ⟨hstatus ▸ hend.filed, hend.mem.trans hcount.mem⟩
      · rw [State.updRecord_late hclean hgood hlate]
        have hend := State.finish_ended (s := t0) (res := ⟨[stAborted], 0, 0, 0⟩) backward_upd rfl hrel0
        exact ⟨hend.filed, hend.mem⟩
      · exact congrArg Outcome.next (State.updRecord_work hclean hgood hlate hmask hgate hread)
end

section
/-! LEMMAS. Lengths of the rows that a conversion writes (R50, R52, R53). -/

namespace Sys2Proof.Machine

theorem length_padTo {α : Type} (n : Nat) (a : α) (l : List α) : (padTo n a l).length = n := by
  simp only [padTo, List.length_take, List.length_append, List.length_replicate]
  omega

/-- Pieces that each stay within a length, one after another. -/
theorem length_flatMap_le {α β : Type} {m : Nat} {l : List α} {f : α → List β} (h : ∀ x ∈ l, (f x).length ≤ m) : (l.flatMap f).length ≤ l.length * m := by
  rw [List.length_flatMap, ← List.length_map (f := fun x => (f x).length) (as := l)]
  exact List.sum_le_card_nsmul _ _ (by simpa using h)

theorem length_encodeScalars (f : Fmt) (mode : Rnd) (es : List Elem) (g : Gen) : (encodeScalars f mode es g).1.length = es.length := by
  induction es generalizing g with
  | nil => rfl
  | cons e es ih =>
    rw [encodeScalars]
    split <;> simp [ih]

/-- The code bytes of one block fill its place in the row. -/
theorem length_packBlock (f : Fmt) (qs : List Int) : (packBlock f (padTo 32 0 qs)).length = if f = .wb6 then 24 else 32 := by
  unfold packBlock
  split
  · exact length_leBytes 24 _
  · rw [List.length_map, length_padTo]

theorem length_encodeBlocks_codes {f : Fmt} {mode : Rnd} {imposed : Option Nat} {k : Nat} {es : List Elem} {g : Gen} {b : BlockBytes}
    (h : b ∈ (encodeBlocks f mode imposed k es g).1) : b.codes.length = if f = .wb6 then 24 else 32 := by
  induction k generalizing es g with
  | zero => simp [encodeBlocks] at h
  | succ k ih =>
    rcases List.mem_cons.mp h with rfl | h
    · exact length_packBlock f _
    · exact ih h

theorem length_layGroups_le {f : Fmt} {w k : Nat} {bs : List BlockBytes} (h : ∀ b ∈ bs, b.codes.length = w) :
    (layGroups f k bs).1.length ≤ k * (4 + 4 * w) := by
  induction k generalizing bs with
  | zero => simp [layGroups]
  | succ k ih =>
    have hrest := ih (bs := bs.drop 4) (fun b hb => h b (List.mem_of_mem_drop hb))
    have hcodes : ((bs.take 4).flatMap BlockBytes.codes).length ≤ (bs.take 4).length * w :=
      length_flatMap_le fun b hb => (h b (List.mem_of_mem_take hb)).le
    have htake : (bs.take 4).length ≤ 4 := List.length_take_le 4 bs
    have hmul : (bs.take 4).length * w ≤ 4 * w := Nat.mul_le_mul_right w htake
    have hsum : (k + 1) * (4 + 4 * w) = k * (4 + 4 * w) + (4 + 4 * w) := Nat.succ_mul ..
    simp only [layGroups, List.length_append, List.length_map, hsum]
    omega

theorem rowBytes_of_scalar {f : Fmt} (h : ¬ f.isBlock = true) (n : Nat) : f.rowBytes n = n * f.elemBytes := by
  cases f with
  | wb8 | wb6 => exact absurd rfl h
  | _ => rfl

theorem rowBytes_of_block {f : Fmt} (h : f.isBlock = true) (n : Nat) : f.rowBytes n = (n + 127) / 128 * (4 + 4 * if f = .wb6 then 24 else 32) := by
  cases f with
  | wb8 | wb6 => rfl
  | _ => exact absurd h (by decide)

theorem length_encodeRow_le (f : Fmt) (mode : Rnd) (es : List Elem) (g : Gen) : (encodeRow f mode none es g).bytes.length ≤ f.rowBytes es.length := by
  unfold encodeRow
  split
  · next hblock =>
    rw [rowBytes_of_block hblock]
    exact length_layGroups_le (fun b hb => length_encodeBlocks_codes hb)
  · next hscalar =>
    rw [rowBytes_of_scalar hscalar, ← length_encodeScalars f mode es g]
    exact length_flatMap_le fun x _ => (length_leBytes ..).le

theorem length_convertRow_le (sf df : Fmt) (mode : Rnd) (n : Nat) (bs : List Byte) (ps : List Bool) (g : Gen) :
    (convertRow sf df mode none n bs ps g).bytes.length ≤ df.rowBytes n := by
  unfold convertRow
  split
  · next hsame =>
    rw [← hsame]
    exact (length_padTo ..).le
  · have h := length_encodeRow_le df mode (decodeRow sf n bs ps) g
    rwa [decodeRow, List.length_map, List.length_range] at h

theorem length_manyRows (f : Fmt) (ws : List (Gen → RowOut)) (g : Gen) : (manyRows f ws g).rows.length = ws.length := by
  induction ws generalizing g with
  | nil => rfl
  | cons w ws ih => simp [manyRows, ih]

/-- Rows that each stay within a length do so written one after another. -/
theorem length_manyRows_le {f : Fmt} {n : Nat} {ws : List (Gen → RowOut)} (h : ∀ w ∈ ws, ∀ g, (w g).bytes.length ≤ n) (g : Gen) :
    ∀ p ∈ (manyRows f ws g).rows, p.1.length ≤ n := by
  induction ws generalizing g with
  | nil => simp [manyRows]
  | cons w ws ih =>
    intro p hp
    rcases List.mem_cons.mp hp with rfl | hp
    · exact h w List.mem_cons_self g
    · exact ih (fun v hv => h v (List.mem_cons_of_mem _ hv)) _ p hp

theorem length_joinRows (n : Nat) (l : List (List Byte × List Bool)) (k : Nat) : (joinRows n l k).length = k := by
  induction k generalizing l with
  | zero => rfl
  | succ k ih => simp [joinRows, ih]

/-- A band of n chunks stays within n times their length. -/
theorem length_joinRows_le {n m k : Nat} {l : List (List Byte × List Bool)} (h : ∀ p ∈ l, p.1.length ≤ m) :
    ∀ p ∈ joinRows n l k, p.1.length ≤ n * m := by
  induction k generalizing l with
  | zero => simp [joinRows]
  | succ k ih =>
    intro p hp
    rcases List.mem_cons.mp hp with rfl | hp
    · have hband : ((l.take n).flatMap (fun p => p.1)).length ≤ (l.take n).length * m :=
        length_flatMap_le fun q hq => h q (List.mem_of_mem_take hq)
      rw [List.flatMap_def] at hband
      exact hband.trans (Nat.mul_le_mul_right m (List.length_take_le n l))
    · exact ih (fun q hq => h q (List.mem_of_mem_drop hq)) p hp

end Sys2Proof.Machine
end

section
/-! LEMMAS. Writes of a command that leave the segments of the billet stack alone (R99, R199, R304, R309). -/

namespace Sys2Proof.Machine

variable {s t u : State} {d : DieIx}

theorem KeepsSeg.of_dies {c : Nat} (h : t.dies = s.dies) : KeepsSeg d c s t := fun _ _ => by simp [State.reg, State.die, h]

theorem KeepsSeg.logEvent (s : State) (e : DieIx) (c code st det : Nat) : KeepsSeg d c s (s.logEvent e code st det) :=
  .modDie s e c (fun _ => rfl)

/-! ### Reading (R304, R309) -/

/-- Of the counters of corrected errors, those of a die (R309) and those that no word of a mapped range counts in lie apart from the contexts. -/
theorem rBilCtx_ne_counter {c w n : Nat} (hc : c < 16) (hw : w < 5) (hn : n ≤ 9 ∨ 2000 ≤ n) :
    rBilCtx c w ≠ rEccLbLevel n ∧ rBilCtx c w ≠ rEccLbTotal n := by
  unfold rBilCtx blkBIL rEccLbLevel rEccLbTotal blkECC
  omega

theorem State.eccEvent_keepsSeg (s : State) (d : DieIx) {c n : Nat} (addr : Nat) (hc : c < 16) (hn : n ≤ 9 ∨ 2000 ≤ n) :
    KeepsSeg d c s (s.eccEvent d n addr) := by
  have hcount : KeepsSeg d c s (s.countEcc d n) := fun w hw =>
    State.reg_countEcc_ne s d (rBilCtx_ne_counter hc hw hn).1 (rBilCtx_ne_counter hc hw hn).2
  have hreach : KeepsSeg d c s ((s.countEcc d n).reachThresh d n addr) :=
    (hcount.trans (.setReg _ d c _ (show rEccStatus < blkBIL + 0x400 by decide))).trans (.logEvent _ d c _ _ _)
  have harm : KeepsSeg d c ((s.countEcc d n).reachThresh d n addr)
      (((s.countEcc d n).reachThresh d n addr).modDie d (fun x => { x with lbArmed := setBit x.lbArmed n false })) :=
    .modDie _ d c (fun _ => rfl)
  unfold State.eccEvent
  dsimp only
  split
  · split
    · exact (hreach.trans harm).trans (.of_dies (State.dies_hostEvent ..))
    · exact hreach
  · exact hcount

/-- Reading a marked word outside region 0, whose corrected errors count apart from the contexts. -/
theorem State.readWord_keepsSeg (s : State) (a : Access) (d : DieIx) {c region key : Nat} (m : Mark) (hc : c < 16) (hr : region ≠ 0)
    (hn : correctedCounter region (key % 2 ^ 39) ≤ 9 ∨ 2000 ≤ correctedCounter region (key % 2 ^ 39)) :
    KeepsSeg d c s (s.readWord a d region key m) := by
  have htest (p : Bool) (f : Found) : KeepsSeg d c s (if p then s.testRead d f else s) :=
    .ite (.setReg s d c _ (show rEccTest < blkBIL + 0x400 by decide)) (.refl d c s)
  have hcount (v : State) (p : Bool) {n : Nat} (hn : n ≤ 9 ∨ 2000 ≤ n) : KeepsSeg d c v (if p then v else v.eccEvent d n (s.boardOf key)) :=
    .ite (.refl d c v) (State.eccEvent_keepsSeg v d _ hc hn)
  have hrow (v : State) (p unc : Bool) : (if region = 0 ∧ !p then v.rowLog d (key % 2 ^ 39) unc else v) = v := if_neg (fun h => hr h.1)
  unfold State.readWord
  dsimp only
  split
  · rw [hrow]
    exact (htest _ _).trans (hcount _ _ hn)
  · split
    · rw [hrow]
      exact (((htest _ _).trans (hcount _ _ (.inl le_rfl))).trans (.logEvent _ d c _ _ _)).trans (.modDie _ d c (fun _ => rfl))
    · split
      · exact (htest _ _).trans (.addSat _ d c _ _ _ (show rEccPoison < blkBIL + 0x400 by decide))
      · exact htest _ _

/-! ### Writing (R306) -/

/-- A marked word that touches a mapped range of region 1 counts its corrected errors apart from the contexts. -/
theorem correctedCounter_touched {off n key : Nat} (d : DieIx) (hmap : mapped 1 off n = true) (hlo : memKey d 1 off < key + 8)
    (hhi : key < memKey d 1 off + n) : correctedCounter 1 (key % 2 ^ 39) ≤ 9 ∨ 2000 ≤ correctedCounter 1 (key % 2 ^ 39) := by
  have hmapped : off + n ≤ 0x0100000000 + 48 * 0x01000000 := by
    simp [mapped] at hmap
    omega
  have hplace : key % 2 ^ 39 < off + n ∨ 2 ^ 39 - 8 ≤ key % 2 ^ 39 := by
    unfold memKey at hlo hhi
    omega
  simp only [correctedCounter]
  rw [if_neg (by decide), if_neg (by decide)]
  split
  · exact .inl (by decide)
  · rcases hplace with h | h
    · exact .inl (by omega)
    · exact .inr (by omega)

/-- A marked word that n bytes of region 1 touch lies on them. -/
theorem State.marksIn_touched {key n : Nat} {p : Nat × Mark} (h : p ∈ s.marksIn 1 key n) : key < p.1 + 8 ∧ p.1 < key + n := by
  unfold State.marksIn at h
  dsimp only at h
  split at h
  · simp at h
  · simpa [wordSize] using (List.mem_filter.mp h).2

/-- A write to a mapped range of region 1. -/
theorem State.memWrite1_keepsSeg (s : State) (a : Access) (d : DieIx) {c off : Nat} {bs : List Byte} (ps : List Bool) (hc : c < 16)
    (hmap : mapped 1 off bs.length = true) : KeepsSeg d c s (s.memWrite a d 1 off bs ps) := by
  have hread : KeepsSeg d c s (((s.marksIn 1 (memKey d 1 off) bs.length).filter (fun p => decide (p.1 < memKey d 1 off)
      || decide (p.1 + wordSize 1 > memKey d 1 off + bs.length))).foldl (fun t p => t.readWord a d 1 p.1 p.2) s) := by
    refine List.foldlRecOn (motive := KeepsSeg d c s) _ _ (.refl d c s) fun t ht p hp => ht.trans ?_
    obtain ⟨hlo, hhi⟩ := State.marksIn_touched (List.mem_filter.mp hp).1
    exact State.readWord_keepsSeg t a d p.2 hc (by decide) (correctedCounter_touched d hmap hlo hhi)
  have hend (v : State) (m : Mem) (p : Nat → Bool) (flip : Bool) (f : Word → Word) :
      let v1 := ({ v with mem := m } : State).modDie d (fun x => { x with writeBacks := x.writeBacks.filter p })
      KeepsSeg d c v ((if flip then v1.modReg d rEccFlipCtl f else v1).hbmCount d 1 off bs.length rHbmWr) := by
    intro v1
    have h0 : KeepsSeg d c v ({ v with mem := m } : State) := .of_dies rfl
    have h1 : KeepsSeg d c ({ v with mem := m } : State) v1 := .modDie _ d c (fun _ => rfl)
    have h2 : KeepsSeg d c v1 (if flip then v1.modReg d rEccFlipCtl f else v1) :=
      .ite (.setReg v1 d c _ (show rEccFlipCtl < blkBIL + 0x400 by decide)) (.refl d c v1)
    exact (h0.trans h1).trans h2
  unfold State.memWrite
  dsimp only
  split
  · exact .refl d c s
  · exact hread.trans (hend _ _ _ _ _)

/-- A write of a command's data to region 0 of its own die, accumulated or stored. -/
theorem State.writeLocal0_spares (s : State) (a : Access) (d : DieIx) (off : Nat) (bs : List Byte) (ps : List Bool) :
    Spares True s (s.writeLocal a d 0 off bs ps) := by
  have hwrite (v : State) (bs : List Byte) (ps : List Bool) : Spares True v (v.memWrite a d 0 off bs ps) := by
    have h := v.memWrite_spares a d 0 off bs ps
    exact ⟨h.spared, h.fuses, fun _ => h.regs rfl⟩
  unfold State.writeLocal
  split
  · unfold State.accumulate
    dsimp only
    refine Spares.trans ?_ (SparesMem.toSpares (.modDie _ d (fun _ => rfl) (fun _ => rfl)))
    exact (State.memRead0_sparesMem s a d off bs.length).toSpares.trans (hwrite _ _ _)
  · exact hwrite ..

/-! ### Writes to places (R99) -/

/-- A place where a write of n bytes leaves the segments alone: on another die, in region 0, or mapped in region 1. -/
def State.Aside (s : State) (d : DieIx) (a : BoardAddr) (n : Nat) : Prop :=
  s.isLocal d a = true → (locOf a).region = 0 ∨ ((locOf a).region = 1 ∧ mapped 1 (locOf a).off n = true)

theorem State.sendReq_aside (s : State) (d : DieIx) (c : Nat) (q : QId) (r : Running) (write : Bool) (a : BoardAddr) (len : Nat) (data : List Byte)
    (ps : List Bool) : KeepsSeg d c s (s.sendReq d q r write a len data ps) ∧ (s.sendReq d q r write a len data ps).fuses = s.fuses := by
  unfold State.sendReq
  dsimp only
  have hsend (v : State) (m : Msg) : SparesMem True v (v.sendMsg d m) := State.sendMsg_sparesMem v d m
  refine ⟨KeepsSeg.trans ?_ ((hsend _ _).keepsSeg d c), (hsend _ _).fuses⟩
  exact KeepsSeg.modDie s d c (fun _ => rfl)

theorem State.put_aside {a : BoardAddr} {bs : List Byte} {c : Nat} (hc : c < 16) (h : s.Aside d a bs.length) (q : QId) (r : Running) (ps : List Bool) :
    KeepsSeg d c s (s.put d q r a bs ps) ∧ (s.put d q r a bs ps).fuses = s.fuses := by
  by_cases hl : s.isLocal d a = true
  · have hr : (locOf a).region ≤ 1 := by have := h hl; omega
    refine ⟨?_, (State.put_spares hl hr q r bs ps).fuses⟩
    rw [State.put_of_local hl hr]
    rcases h hl with h0 | ⟨h1, hmap⟩
    · rw [h0]
      exact (State.writeLocal0_spares ..).keepsSeg d c
    · rw [h1, State.writeLocal, if_neg (by decide)]
      exact State.memWrite1_keepsSeg s _ d ps hc hmap
  · unfold State.put
    rw [if_neg hl]
    refine List.foldlRecOn (motive := fun t => KeepsSeg d c s t ∧ t.fuses = s.fuses) _ _ ⟨.refl d c s, rfl⟩ fun t ht p _ => ?_
    have hsent := t.sendReq_aside d c q r true (BitVec.ofNat 52 (a.toNat + p.1)) p.2 (slice bs p.1 p.2) (slice ps p.1 p.2)
    exact ⟨ht.1.trans hsent.1, hsent.2.trans ht.2⟩

/-- Rows written to places aside. -/
theorem State.putAll_aside {c : Nat} {l : List (BoardAddr × List Byte × List Bool)} (hc : c < 16) (h : ∀ p ∈ l, s.Aside d p.1 p.2.1.length) (q : QId)
    (r : Running) : KeepsSeg d c s (s.putAll d q r l) := by
  refine (List.foldlRecOn (motive := fun t => KeepsSeg d c s t ∧ t.fuses = s.fuses) _ _ ⟨.refl d c s, rfl⟩ fun t ht p hp => ?_).1
  have hput := State.put_aside (s := t) hc (fun hl => h p hp (by rwa [← State.isLocal_of_fuses ht.2])) q r p.2.2
  exact ⟨ht.1.trans hput.1, hput.2.trans ht.2⟩

end Sys2Proof.Machine
end

section
/-! PROOF. The billet stack: PUSH, POP and CLEAR (R172, R175 to R181). -/

namespace Sys2Proof.Machine

variable {s t : State} {d : DieIx} {r : Running} {c : Nat}

theorem bilPick_ctx {kind : Nat} {c : Fin 16} (h : Picks s d .bil (bilPick kind c) r) : dCtx r.desc = c := by
  have hp := h.satisfies
  simp only [bilPick, Bool.and_eq_true, decide_eq_true_eq] at hp
  exact hp.2

/-- The end of a command that issues its writes: what stays. -/
theorem State.settle_keepsBack {q : QId} (hq : Backward q) (hack : r.acking = false) : KeepsBack False s (s.settle d q r) :=
  .ite (State.stopEarly_keepsBack s d stFormat hq hack) (.ite (.modQueue ..) (State.finish_keepsBack s d r _ hq))

/-- A command that an error counter of the controller counts and that moves no segment: its record and what stays. -/
theorem State.missed_spec {lo st : Nat} {detail : Word} (hrel : r.released = s.stroke d) (hst : pickStatus [st] = st) :
    let t := (s.addSat d rBilErr lo 16 1).finish d .bil r ⟨[st], 0, 0, detail⟩
    Filed s t d .bil r st 0 detail ∧ t.mem = s.mem ∧ ∀ c, KeepsSeg d c s t := by
  intro t
  have hcount : SparesMem False s (s.addSat d rBilErr lo 16 1) := .addSat s d _ _ _ _ False.elim
  have hend : Ended s _ t d .bil r (pickStatus [st]) 0 detail :=
    State.finish_ended backward_bil (congrArg CmdQueue.done (hcount.queue d .bil)) (hrel.trans (hcount.stroke d).symm)
  exact ⟨hst ▸ hend.filed, hend.mem.trans hcount.mem, fun c => (KeepsSeg.addSat s d c lo 16 1 (by decide)).trans (hend.back.keepsSeg d c)⟩

/-! ### PUSH (R175 to R177) -/

theorem exec_push {c : Fin 16} (hready : Ready s d) (hpicks : Picks s d .bil (bilPick 0x80 c) r) : exec (.push d c) s = .next (s.pushRun d r) :=
  exec_pick (k := fun t => t.pushRun d) hready hpicks rfl

theorem State.pushRun_format (h : judgePush r.desc = .format) : s.pushRun d r = s.stopEarly d .bil r stFormat := by
  simp only [State.pushRun, h]

/-- Bytes of an entry that a PUSH of a source format makes, trailer included (R175). -/
def State.pushedBytes (s : State) (d : DieIx) (x : Desc) : Nat :=
  pad64 (payloadBytes (pushColumn x) (s.entryFmt d x) (pushRows x) (pushLen x)) + 64

section
variable {sf : Fmt} (hwork : judgePush r.desc = .work sf) (hctx : dCtx r.desc = c) (howned : s.bilOwned d c (dJob r.desc) = true)
  (hopen : s.segOpen d c = true) (hpitch : 1 < pushRows r.desc → sf.rowBytes (pushLen r.desc) ≤ pushPitch r.desc)
  (hsvc : rowsService (pushSrc r.desc) (pushPitch r.desc) (pushRows r.desc) (sf.rowBytes (pushLen r.desc)) = false)
  (hdecode : s.rowsDecode d (pushSrc r.desc) (pushPitch r.desc) (pushRows r.desc) (sf.rowBytes (pushLen r.desc)) = true)
  (hfence : s.dieFenced d = false)
include hwork hctx howned hopen hpitch hsvc hdecode hfence

/-- A PUSH whose source is in order: one that does not fit is counted and completes, and one that fits is written as soon as its source
has been read. -/
theorem State.pushRun_work :
    (s.segSize d c < s.segTop d c + s.pushedBytes d r.desc → ∃ detail, s.pushRun d r = (s.addSat d rBilErr 0 16 1).finish d .bil r ⟨[stOverflow], 0, 0, detail⟩)
    ∧ (s.segTop d c + s.pushedBytes d r.desc ≤ s.segSize d c → s.testHold d = false → s.hbmServes d = true →
        ∀ l t0, s.fetchAll d .bil r (rowPlaces (pushSrc r.desc) (pushPitch r.desc) (pushRows r.desc) (sf.rowBytes (pushLen r.desc))) = .data l t0 →
          s.pushRun d r = t0.pushEntry d r sf l) := by
  have hform : ¬ ((!s.bilOwned d c (dJob r.desc)) = true ∨ (!s.segOpen d c) = true
      ∨ (pushRows r.desc > 1 ∧ pushPitch r.desc < sf.rowBytes (pushLen r.desc))) := by
    rw [howned, hopen]
    rintro (h | h | ⟨hmany, hshort⟩)
    · contradiction
    · contradiction
    · have := hpitch hmany
      omega
  unfold State.pushRun
  simp only [hwork, hctx]
  rw [if_neg hform, if_neg (by simp [hsvc]), if_neg (by simp [hdecode]), if_neg (by simp [State.unitFenced, hfence])]
  refine ⟨fun hfull => ⟨_, if_pos hfull⟩, fun hfits hhold hserves l t0 hfetch => ?_⟩
  unfold State.pushedBytes at hfits
  rw [if_neg (Nat.not_lt.mpr hfits), if_neg (by simp [hhold]), if_neg (by simp [hserves])]
  simp only [hfetch]

end

theorem pad64_spec (n : Nat) : n ≤ pad64 n ∧ pad64 n % 64 = 0 := by
  unfold pad64
  omega

theorem length_trailerBytes (layer tkind : Nat) (fmt : Fmt) (tblByte fallByte len rows size stamp step job : Nat) :
    (trailerBytes layer tkind fmt tblByte fallByte len rows size stamp step job).length = 64 := by
  simp [trailerBytes, length_leBytes]

theorem getD_padTo {α : Type} {n i : Nat} (a dflt : α) {l : List α} (h : i < l.length) (hn : l.length ≤ n) : (padTo n a l).getD i dflt = l.getD i dflt := by
  rw [padTo, List.getD_eq_getElem?_getD, List.getElem?_take_of_lt (by omega), List.getElem?_append_left h, ← List.getD_eq_getElem?_getD]

theorem State.segSize_lt (s : State) (d : DieIx) (c : Nat) : s.segSize d c < 2 ^ 38 := by
  have := fld_lt (s.reg d (rBilCtx c 2)) 0 22
  unfold State.segSize State.rf
  omega

/-- What a PUSH leaves: the payload and the trailer right above the old top, every other byte as it was, and the raised top. -/
theorem State.pushEntry_spec (s : State) (d : DieIx) (r : Running) (sf : Fmt) (l : List (List Byte × List Bool)) :
    let x := r.desc
    let c := dCtx x
    let o := manyRows (s.entryFmt d x) (pushRowsOut sf (s.entryFmt d x) x l) (s.die d).genUpd
    let raw := (o.rows.map (fun p => p.1)).flatten
    let size := pad64 raw.length
    let key := memKey d 0 (s.segBase d c + s.segTop d c)
    let tr := trailerBytes (dLayer x) (pushKind x) (s.entryFmt d x) (dn x 45 1) (dn x 46 1) (pushLen x) (pushRows x) size (s.stamp d).toNat
      (dStep x) (dJob x).toNat
    let t := s.pushEntry d r sf l
    s.segTop d c + size + 64 ≤ s.segSize d c → s.segDepth d c + 1 < 2 ^ 32 → r.released = s.stroke d →
    t.segTop d c = s.segTop d c + size + 64 ∧ t.segDepth d c = s.segDepth d c + 1
      ∧ (∀ i, i < raw.length → SMap.get 0 t.mem.cells (key + i) = raw.getD i 0)
      ∧ (∀ i, i < 64 → SMap.get 0 t.mem.cells (key + size + i) = tr.getD i 0)
      ∧ (∀ a, (a < key ∨ key + size + 64 ≤ a) → SMap.get 0 t.mem.cells a = SMap.get 0 s.mem.cells a)
      ∧ (∃ detail, Filed s t d .bil r (pickStatus o.stats) 0 detail) ∧ t.segBase d c = s.segBase d c := by
  intro x c o raw size key tr t hfits hdepth hrel
  let bytes := padTo size 0 raw ++ tr
  let s1 := s.modDie d (fun y => { y with genUpd := o.gen })
  let s2 := s1.memWrite ⟨d, dJob x, false⟩ d 0 (s.segBase d c + s.segTop d c) bytes
    (padTo size false (o.rows.map (fun p => p.2)).flatten ++ List.replicate 64 false)
  let s3 := s2.setSeg d c (s.segTop d c + size + 64) (s.segDepth d c + 1)
  have h1 : SparesMem True s s1 := .modDie s d (fun _ => rfl) (fun _ => rfl)
  have hwrite := s1.memWrite_spares ⟨d, dJob x, false⟩ d 0 (s.segBase d c + s.segTop d c) bytes
    (padTo size false (o.rows.map (fun p => p.2)).flatten ++ List.replicate 64 false)
  have h2 : Spares True s s2 := h1.toSpares.trans ⟨hwrite.spared, hwrite.fuses, fun _ => hwrite.regs rfl⟩
  have h3 : SparesMem False s2 s3 := State.setSeg_sparesMem s2 d c _ _
  have hs3 : Spares False s s3 := h2.weaken.trans h3.toSpares
  have hend : Ended s s3 t d .bil r (pickStatus o.stats) 0 _ :=
    State.finish_ended backward_bil (congrArg CmdQueue.done (hs3.queue d .bil)) (hrel.trans (hs3.stroke d).symm)
  have hcells : t.mem.cells = pokeCells s.mem.cells key bytes := by
    rw [hend.mem, h3.mem, State.memWrite_cells]
    rfl
  obtain ⟨hraw, hwords⟩ := pad64_spec raw.length
  have htr : tr.length = 64 := length_trailerBytes ..
  have hpad : (padTo size 0 raw).length = size := length_padTo ..
  have hlen : bytes.length = size + 64 := by rw [List.length_append, hpad, htr]
  obtain ⟨htopLt, htopWords⟩ := s.segTop_lt d c
  have hsizeLt := s.segSize_lt d c
  obtain ⟨htop, hdep, hbase⟩ := s2.seg_setSeg d c (top := s.segTop d c + size + 64) (depth := s.segDepth d c + 1) (by omega) (by omega) hdepth
  have hseg : KeepsSeg d c s3 t := hend.back.keepsSeg d c
  refine ⟨hseg.segTop.trans htop, hseg.segDepth.trans hdep, fun i hi => ?_, fun i hi => ?_, fun a ha => ?_, ⟨_, hend.filed⟩,
    hseg.segBase.trans (hbase.trans (h2.keepsSeg d c).segBase)⟩
  · rw [hcells, get_pokeCells_at _ _ _ (by omega), List.getD_append _ _ _ _ (by omega), getD_padTo _ _ hi hraw]
  · rw [hcells, Nat.add_assoc, get_pokeCells_at _ _ _ (by omega), List.getD_append_right _ _ _ _ (by omega), hpad, Nat.add_sub_cancel_left]
  · rw [hcells, get_pokeCells_off _ _ _ (by omega)]

/-! ### The rows that a POP writes (R178, R179) -/

theorem mapped1_mono {off n m : Nat} (h : mapped 1 off n = true) (hm : m ≤ n) : mapped 1 off m = true := by
  simp only [mapped, Bool.or_eq_true, Bool.and_eq_true, decide_eq_true_eq, if_neg (show ¬ (1 : Nat) = 0 by decide), if_true] at h ⊢
  omega

/-- A row that a command may write, and that is not in a register space, leaves the segments alone. -/
theorem State.aside_of_rowsWritable {job : BitVec 12} {a : BoardAddr} {pitch rows len k n : Nat} {fmt : Option Fmt}
    (h : s.rowsWritable d job a pitch rows len fmt = true) (hk : k < rows) (hn : n ≤ len)
    (h2 : (locOf (BitVec.ofNat 52 (rowAddr a pitch k))).region ≠ 2) : s.Aside d (BitVec.ofNat 52 (rowAddr a pitch k)) n := by
  intro hlocal
  have hslot : (locOf (BitVec.ofNat 52 (rowAddr a pitch k))).slot = s.slot := by
    simp only [State.isLocal, Bool.and_eq_true, decide_eq_true_eq] at hlocal
    exact hlocal.1
  simp only [State.rowsWritable, State.rowsDecode, Bool.and_eq_true, List.all_eq_true, List.mem_range] at h
  obtain ⟨hdecode, hwrite⟩ := h
  have hrow := hwrite k hk
  rw [if_pos hslot, decide_eq_false h2, Bool.false_or] at hrow
  by_cases h0 : (locOf (BitVec.ofNat 52 (rowAddr a pitch k))).region = 0
  · exact .inl h0
  · have h1 : (locOf (BitVec.ofNat 52 (rowAddr a pitch k))).region = 1 := by simpa [State.writeOk, h0] using hrow
    have hmap := (hdecode k hk).2
    simp only [State.decodes, Bool.and_eq_true] at hmap
    rw [h1] at hmap
    exact .inr ⟨h1, mapped1_mono hmap.1.2 hn⟩

/-- The rows or bands that a POP writes, from the rows or chunks that it has converted. -/
def popOut (a : Trailer) (df : Fmt) (rows : List (List Byte × List Bool)) : List (List Byte × List Bool) :=
  if a.column then joinRows a.len rows (popShape a df).1 else rows

/-- They keep to the shape that was judged. -/
theorem popOut_shape (a : Trailer) (df : Fmt) (mode : Rnd) (bs : List Byte) (ps : List Bool) (g : Gen) :
    let out := popOut a df (manyRows df (popRows a df mode bs ps) g).rows
    out.length = (popShape a df).1 ∧ ∀ p ∈ out, p.1.length ≤ (popShape a df).2 := by
  intro out
  cases hcol : a.column with
  | true =>
    have hchunk : ∀ w ∈ popRows a df mode bs ps, ∀ g, (w g).bytes.length ≤ chunkBytes df := by
      intro w hw g
      simp only [popRows, hcol, if_true, List.mem_map] at hw
      obtain ⟨k, -, rfl⟩ := hw
      exact length_convertRow_le ..
    simp only [out, popOut, hcol, if_true]
    refine ⟨length_joinRows .., ?_⟩
    simp only [popShape, hcol, if_true]
    exact length_joinRows_le (length_manyRows_le hchunk g)
  | false =>
    have hrow : ∀ w ∈ popRows a df mode bs ps, ∀ g, (w g).bytes.length ≤ df.rowBytes a.len := by
      intro w hw g
      simp only [popRows, hcol, Bool.false_eq_true, if_false, List.mem_map] at hw
      obtain ⟨k, -, rfl⟩ := hw
      exact length_convertRow_le ..
    simp only [out, popOut, popShape, hcol, Bool.false_eq_true, if_false]
    refine ⟨?_, length_manyRows_le hrow g⟩
    simp [length_manyRows, popRows, hcol]

theorem State.Aside.of_fuses {a : BoardAddr} {n : Nat} (h : s.Aside d a n) (hf : t.fuses = s.fuses) : t.Aside d a n :=
  fun hl => h (by rwa [← State.isLocal_of_fuses hf])

/-- A POP of an entry of whole words to places that leave the segments alone lowers the top by the entry. -/
theorem State.popEntry_seg {a : Trailer} {df : Fmt} (hctx : dCtx r.desc = c) (hc : c < 16) (hack : r.acking = false) (hsize : a.size % 64 = 0)
    (haside : ∀ k n, k < (popShape a df).1 → n ≤ (popShape a df).2 →
      s.Aside d (BitVec.ofNat 52 (rowAddr (popDst r.desc) (popPitch r.desc) k)) n) :
    (s.popEntry d r a df).segTop d c = s.segTop d c - (a.size + 64) ∧ (s.popEntry d r a df).segDepth d c = s.segDepth d c - 1 := by
  subst hctx
  let c := dCtx r.desc
  let e := s.memRead ⟨d, dJob r.desc, false⟩ d 0 (s.segBase d c + s.segTop d c - 64 - a.size) a.size
  let o := manyRows df (popRows a df (rndOf (dRnd r.desc)) e.bytes e.poison) (s.die d).genUpd
  let v := e.state.modDie d (fun y => { y with genUpd := o.gen })
  let places := ((popOut a df o.rows).zipIdx).map (fun p => (BitVec.ofNat 52 (rowAddr (popDst r.desc) (popPitch r.desc) p.2), p.1.1, p.1.2))
  have hmod : SparesMem True e.state v := .modDie e.state d (fun _ => rfl) (fun _ => rfl)
  have hv : SparesMem True s v := (State.memRead0_sparesMem ..).trans hmod
  have hdrop : SparesMem False v (v.dropTop d c a) := State.setSeg_sparesMem ..
  obtain ⟨hcount, hlen⟩ := popOut_shape a df (rndOf (dRnd r.desc)) e.bytes e.poison (s.die d).genUpd
  have hput : KeepsSeg d c (v.dropTop d c a) ((v.dropTop d c a).putAll d .bil r places) := by
    refine State.putAll_aside hc (fun p hp => ?_) .bil r
    obtain ⟨⟨x, k⟩, hx, rfl⟩ := List.mem_map.mp hp
    obtain ⟨-, hk, hrow⟩ := List.mem_zipIdx hx
    rw [Nat.zero_add] at hk
    have hmem : x ∈ popOut a df o.rows := hrow ▸ List.getElem_mem _
    exact (haside k x.1.length (hcount ▸ hk) (hlen x hmem)).of_fuses (hdrop.fuses.trans hv.fuses)
  obtain ⟨htop, hdepth, -⟩ := v.seg_dropTop d c hsize
  have hend : KeepsSeg d c (v.dropTop d c a) (s.popEntry d r a df) := by
    refine hput.trans ?_
    unfold State.popEntry
    dsimp only
    refine KeepsBack.keepsSeg (dr := False) ?_ d _
    refine State.settle_keepsBack backward_bil ?_
    exact hack
  exact ⟨by rw [hend.segTop, htop, (hv.keepsSeg d c).segTop], by rw [hend.segDepth, hdepth, (hv.keepsSeg d c).segDepth]⟩

/-! ### POP (R178, R181) -/

theorem exec_pop {c : Fin 16} (hready : Ready s d) (hpicks : Picks s d .bil (bilPick 0x81 c) r) : exec (.pop d c) s = .next (s.popRun d r) :=
  exec_pick (k := fun t => t.popRun d) hready hpicks rfl

section
variable {df : Fmt} (hwork : judgePop r.desc = .work df) (hctx : dCtx r.desc = c) (howned : s.bilOwned d c (dJob r.desc) = true)
  (hopen : s.segOpen d c = true) (hfence : s.dieFenced d = false)
include hwork hctx howned hopen hfence

theorem State.popRun_empty (hempty : s.segDepth d c = 0) (hsvc : rowsService (popDst r.desc) 0 1 1 = false)
    (hdecode : s.rowsDecode d (popDst r.desc) 0 1 1 = true) :
    s.popRun d r = (s.addSat d rBilErr 16 16 1).finish d .bil r ⟨[stTag], 0, 0, 0x80000000⟩ := by
  simp [State.popRun, hwork, hctx, howned, hopen, State.unitFenced, hfence, hempty, hsvc, hdecode]

variable (hsome : s.segDepth d c ≠ 0) (hhold : s.testHold d = false) (hserves : s.hbmServes d = true) {a : Trailer} {bad : Bool} {v : State}
  (htop : s.topTrailer d c (dJob r.desc) = (a, bad, v))
include hsome hhold hserves htop

theorem State.popRun_poisoned (hbad : bad = true) : s.popRun d r = v.stopEarly d .bil r stPoison := by
  simp [State.popRun, hwork, hctx, howned, hopen, State.unitFenced, hfence, hsome, hhold, hserves, htop, hbad]

theorem State.popRun_nothing (hbad : bad = false) (hnone : a.len = 0 ∨ a.rows = 0) : s.popRun d r = v.finish d .bil r Result.ok := by
  simp [State.popRun, hwork, hctx, howned, hopen, State.unitFenced, hfence, hsome, hhold, hserves, htop, hbad, hnone]

/-- A POP of an entry whose destination is in order compares its layer, and then writes its rows. -/
theorem State.popRun_entry (hbad : bad = false) (hlen : a.len ≠ 0) (hrows : a.rows ≠ 0)
    (hsvc : rowsService (popDst r.desc) (popPitch r.desc) (popShape a df).1 (popShape a df).2 = false)
    (hpitch : 1 < a.rows → (popShape a df).2 ≤ popPitch r.desc)
    (hwrite : s.rowsWritable d (dJob r.desc) (popDst r.desc) (popPitch r.desc) (popShape a df).1 (popShape a df).2 (some df) = true) :
    (a.layer ≠ dLayer r.desc → s.popRun d r = (v.addSat d rBilErr 16 16 1).finish d .bil r ⟨[stTag], 0, 0, BitVec.ofNat 32 a.layer⟩)
    ∧ (a.layer = dLayer r.desc → s.gateAll d .bil r (rowPlaces (popDst r.desc) (popPitch r.desc) (popShape a df).1 (popShape a df).2) ≠ .wait →
        s.popRun d r = v.popEntry d r a df) := by
  have hform : ¬ ((a.rows > 1 ∧ popPitch r.desc < (popShape a df).2)
      ∨ (!s.rowsWritable d (dJob r.desc) (popDst r.desc) (popPitch r.desc) (popShape a df).1 (popShape a df).2 (some df)) = true) := by
    rw [hwrite]
    rintro (⟨hmany, hshort⟩ | h)
    · have := hpitch hmany
      omega
    · contradiction
  unfold State.popRun
  simp only [hwork, hctx, htop]
  rw [if_neg (by simp [howned, hopen]), if_neg (by simp [State.unitFenced, hfence]), if_neg hsome, if_neg (by simp [hhold]),
    if_neg (by simp [hserves]), if_neg (by simp [hbad]), if_neg (by simp [hlen, hrows]), if_neg (by simp [hsvc]), if_neg hform]
  refine ⟨fun hlayer => if_pos hlayer, fun hlayer hgate => ?_⟩
  rw [if_neg (by simp [hlayer]), if_neg hgate]

end

/-! ### CLEAR (R179) -/

theorem exec_clear {c : Fin 16} (hready : Ready s d) (hpicks : Picks s d .bil (bilPick 0x82 c) r) : exec (.clear d c) s = .next (s.clearRun d r) :=
  exec_pick (k := fun t => t.clearRun d) hready hpicks rfl

theorem State.clearRun_work (hctx : dCtx r.desc = c) (hzero : dn r.desc 24 40 = 0) (howned : s.bilOwned d c (dJob r.desc) = true)
    (hopen : s.segOpen d c = true) (hfence : s.dieFenced d = false) : s.clearRun d r = (s.setSeg d c 0 0).finish d .bil r Result.ok := by
  simp [State.clearRun, hctx, hzero, howned, hopen, State.unitFenced, hfence]

end Sys2Proof.Machine
end

section
open Sys2Proof Sys2Proof.Machine
open Host (Outcome)

/-- Settles O36: PUSH raises the top by one entry with its trailer, POP takes the top entry, and CLEAR empties the segment. -/
theorem billetStackIsLastInFirstOut : Obligations.BilletStackIsLastInFirstOut := by
  unfold Obligations.BilletStackIsLastInFirstOut
  refine ⟨fun s d c r sf hready hpicks hstats => ?_, fun s d r sf l => s.pushEntry_spec d r sf l, fun s d c r df hready hpicks hstats => ?_,
    fun s d c a hsize _ => ?_, fun s d c r hready hpicks _ hzero howned hopen hfence => ?_⟩
  · intro x len entry
    have hctx := bilPick_ctx hpicks
    rw [exec_push hready hpicks]
    obtain ⟨-, -, hack, hrel⟩ := hpicks
    refine ⟨fun hformat => ⟨_, rfl, ?_⟩, fun hwork howned hopen hpitch hsvc hdecode hfence => ?_⟩
    · rw [State.pushRun_format hformat]
      have hend := State.stopEarly_ended (st := stFormat) backward_bil hack hstats rfl rfl hrel
      exact ⟨hend.filed, hend.mem⟩
    · obtain ⟨hover, hwritten⟩ := State.pushRun_work hwork hctx howned hopen hpitch hsvc hdecode hfence
      refine ⟨fun hfull => ?_, fun hfits hhold hserves l t0 hfetch => ⟨_, rfl, hwritten hfits hhold hserves l t0 hfetch⟩⟩
      obtain ⟨detail, hrun⟩ := hover hfull
      obtain ⟨hfiled, hmem, hseg⟩ := State.missed_spec (s := s) (lo := 0) (st := stOverflow) (detail := detail) hrel rfl
      exact ⟨_, detail, congrArg Outcome.next hrun, hfiled, (hseg c).segTop, (hseg c).segDepth, hmem⟩
  · intro x hwork howned hopen hfence
    have hctx := bilPick_ctx hpicks
    rw [exec_pop hready hpicks]
    obtain ⟨-, -, hack, hrel⟩ := hpicks
    refine ⟨fun hempty hsvc hdecode => ?_, fun hsome hhold hserves => ?_⟩
    · obtain ⟨hfiled, hmem, hseg⟩ := State.missed_spec (s := s) (lo := 16) (st := stTag) (detail := 0x80000000) hrel rfl
      exact ⟨_, congrArg Outcome.next (State.popRun_empty hwork hctx howned hopen hfence hempty hsvc hdecode), hfiled, (hseg c).segTop, hmem⟩
    · intro a sh
      have hread : SparesMem True s a.2.2 := State.topTrailer_sparesMem ..
      have hseg : KeepsSeg d c s a.2.2 := hread.keepsSeg d c
      have hrelA : r.released = a.2.2.stroke d := hrel.trans (hread.stroke d).symm
      have htop : s.topTrailer d c (dJob x) = (a.1, a.2.1, a.2.2) := rfl
      refine ⟨fun hbad => ⟨_, rfl, ?_⟩, fun hbad hnone => ⟨_, rfl, ?_⟩, fun hbad hlen hrows hsvc hpitch hwrite => ?_⟩
      · rw [State.popRun_poisoned hwork hctx howned hopen hfence hsome hhold hserves htop hbad]
        have hend := State.stopEarly_ended (st := stPoison) backward_bil hack hstats rfl rfl hrelA
        have hall := hseg.trans (hend.back.keepsSeg d c)
        exact ⟨hend.filed, hall.segTop, hall.segDepth, hend.mem.trans hread.mem⟩
      · rw [State.popRun_nothing hwork hctx howned hopen hfence hsome hhold hserves htop hbad hnone]
        have hend := State.finish_ended (s := a.2.2) (res := Result.ok) backward_bil rfl hrelA
        have hall := hseg.trans (hend.back.keepsSeg d c)
        exact ⟨hend.filed, hall.segTop, hall.segDepth, hend.mem.trans hread.mem⟩
      · obtain ⟨hmiss, hentry⟩ := State.popRun_entry hwork hctx howned hopen hfence hsome hhold hserves htop hbad hlen hrows hsvc hpitch hwrite
        refine ⟨fun hlayer => ?_, fun hlayer hgate => ⟨_, rfl, hentry hlayer hgate, fun hregion hsize => ?_⟩⟩
        · obtain ⟨hfiled, hmem, hkept⟩ := State.missed_spec (s := a.2.2) (lo := 16) (st := stTag) (detail := BitVec.ofNat 32 a.1.layer) hrelA rfl
          have hall := hseg.trans (hkept c)
          exact ⟨_, congrArg Outcome.next (hmiss hlayer), hfiled, hall.segTop, hall.segDepth, hmem.trans hread.mem⟩
        · have haside (k n : Nat) (hk : k < sh.1) (hn : n ≤ sh.2) : a.2.2.Aside d (BitVec.ofNat 52 (rowAddr (popDst x) (popPitch x) k)) n :=
            (State.aside_of_rowsWritable hwrite hk hn (hregion k)).of_fuses hread.fuses
          rw [hentry hlayer hgate, ← hseg.segTop, ← hseg.segDepth]
          exact State.popEntry_seg hctx c.isLt hack hsize haside
  · obtain ⟨htop, hdepth, -⟩ := s.seg_dropTop d c hsize
    exact ⟨htop, hdepth, State.mem_dropTop ..⟩
  · have hctx := bilPick_ctx hpicks
    rw [exec_clear hready hpicks]
    obtain ⟨-, -, -, hrel⟩ := hpicks
    refine ⟨_, rfl, ?_⟩
    have hset : SparesMem False s (s.setSeg d c 0 0) := State.setSeg_sparesMem ..
    obtain ⟨htop, hdepth, -⟩ := s.seg_setSeg d c (top := 0) (depth := 0) rfl (by decide) (by decide)
    have hend := State.finish_ended (s := s) (res := Result.ok) backward_bil (congrArg CmdQueue.done (hset.queue d .bil)) (hrel.trans (hset.stroke d).symm)
    have hseg := hend.back.keepsSeg d c
    rw [State.clearRun_work hctx hzero howned hopen hfence]
    exact ⟨hseg.segTop.trans htop, hseg.segDepth.trans hdepth, hend.mem.trans hset.mem, hend.filed⟩
end
